-- ==== Sys2Proof/Word.lean ====
section
/-!
DEFINITION. The machine's words (R4, R34).
-/

namespace Sys2Proof

/-- A byte. -/
abbrev Byte := BitVec 8

/-- The 32-bit word of a register or of an instruction. -/
abbrev Word := BitVec 32

/-- A 64-bit lane mask or count. -/
abbrev DWord := BitVec 64

/-- Sign extension of the low `k` bits of a word to 32 bits. -/
def sextTo32 (k : Nat) (x : BitVec k) : Word := x.signExtend 32

end Sys2Proof
end

