-- ==== Sys2Proof/Events.lean ====
section
/-!
DEFINITION. What the device steps of the opcode table carry beside numbers: the operands of the rows that have no word.
-/

namespace Sys2Proof

/-- A unit that can be taken out of service (R343). -/
inductive UnitId where
  | core (n : Nat)
  | cluster (n : Nat)
  | die (n : Nat)
  | stack (n : Nat)
  | link (n : Nat)
  deriving DecidableEq, Repr

/-- Where an uncorrectable soft error falls (R338). -/
inductive EccSite where
  /-- In state that a context owns. -/
  | context (ctx : Nat)
  /-- In an entry of the fitting cache. -/
  | fittingEntry (n : Nat)
  /-- In the firmware complex. -/
  | firmware
  deriving DecidableEq, Repr

/-- A firmware image (R314): its identifier in a quote, its bytes, and its signature. -/
structure FirmwareImage where
  ident : Nat
  bytes : List Byte
  sig : List Byte
  deriving DecidableEq, Repr

/-- What a start finds (R342, R343). -/
structure StartReport where
  /-- The base dies, their L3 and die links pass self-test. -/
  baseOk : Bool
  /-- The units that fail self-test or memory training. -/
  failed : List UnitId
  /-- The firmware complex reports ready in time. -/
  ready : Bool
  /-- The firmware images that the start loads. -/
  images : List FirmwareImage := []
  deriving DecidableEq, Repr

/-- The operation of a class 12 atomic, OP 0 to 10 (R230, R231). -/
inductive AtomicOp where
  | add | min | max | umin | umax | and | or | xor | xchg | cas | fadd
  deriving DecidableEq, Repr

/-- An access that a peer makes over Seam (R317). -/
inductive PeerOp where
  | load (len : Nat)
  | store (bytes : List Byte)
  | atomic (op : AtomicOp) (operand comparand : Word)
  deriving DecidableEq, Repr

end Sys2Proof
end

