-- ==== Sys2Proof/Syntax.lean ====
section
/-!
DEFINITION. The instructions: one constructor for each row of spec/opcode_table.json, in the table's order.
The encoded rows carry the fields of their word (`bt` is the binding-time mark of bit 27, R34; the other names are
the table's field letters). The rows without an encoding are the steps that the device itself takes (R364); their
arguments are the choice that the spec leaves open, such as which operation completes or which core is used.
-/

namespace Sys2Proof

inductive Instr where
  /-- A clause header issues once its WAIT flags are clear and fixes the flags that the body's variable-latency words raise and the body length. (R40) -/
  | clauseHeader (w : BitVec 12) (a : BitVec 4) (b : BitVec 4) (l : BitVec 4) (p : BitVec 3)
  /-- A no-operation hint takes an issue slot and has no effect. (R46) -/
  | nop
  /-- Extends the immediate, or supplies IMM or IMMoff, of the following word. (R46) -/
  | ximm (i : BitVec 22)
  /-- Supplies IMM as its payload shifted left by 10 bits for the following word. (R46) -/
  | ximmf (i : BitVec 22)
  /-- Makes SCL read a named S register in the following word. (R46) -/
  | xscl (s : BitVec 6)
  /-- Sets the rounding mode, the SR seed register, saturation and flush-to-zero of the following word. (R46) -/
  | xrnd (f : BitVec 1) (s : BitVec 1) (e : BitVec 6) (m : BitVec 3)
  /-- Sets the cache policy of the following word's accesses. (R211) -/
  | xevc (p : BitVec 2)
  /-- Replaces the buffer record's default scope for the following word. (R46) -/
  | xscp (p : BitVec 2)
  /-- Lets the following collective word run over the active lanes only. (R46) -/
  | xpart
  /-- Makes sequential fetch skip the COUNT literal words that follow. (R47) -/
  | pool (c : BitVec 12)
  /-- FP32 add, rounded once, in each active lane. (R90) -/
  | fadd (bt : BitVec 1) (d : BitVec 8) (a : BitVec 8) (b : BitVec 8)
  /-- FP32 subtract, rounded once. (R90) -/
  | fsub (bt : BitVec 1) (d : BitVec 8) (a : BitVec 8) (b : BitVec 8)
  /-- FP32 multiply, rounded once. (R90) -/
  | fmul (bt : BitVec 1) (d : BitVec 8) (a : BitVec 8) (b : BitVec 8)
  /-- Fused FP32 multiply-add into D with one rounding. (R90) -/
  | fmac (bt : BitVec 1) (d : BitVec 8) (a : BitVec 8) (b : BitVec 8)
  /-- Fused FP32 D minus A times B with one rounding. (R90) -/
  | fmsb (bt : BitVec 1) (d : BitVec 8) (a : BitVec 8) (b : BitVec 8)
  /-- FP32 minimumNumber of two operands. (R91) -/
  | fmin (bt : BitVec 1) (d : BitVec 8) (a : BitVec 8) (b : BitVec 8)
  /-- FP32 maximumNumber of two operands. (R91) -/
  | fmax (bt : BitVec 1) (d : BitVec 8) (a : BitVec 8) (b : BitVec 8)
  /-- Copies the magnitude of A with the sign of B. (R91) -/
  | fcps (bt : BitVec 1) (d : BitVec 8) (a : BitVec 8) (b : BitVec 8)
  /-- 32-bit integer add modulo 2^32. (R92) -/
  | iadd (bt : BitVec 1) (d : BitVec 8) (a : BitVec 8) (b : BitVec 8)
  /-- 32-bit integer subtract modulo 2^32. (R92) -/
  | isub (bt : BitVec 1) (d : BitVec 8) (a : BitVec 8) (b : BitVec 8)
  /-- Low word of the 32-bit product. (R92) -/
  | imul (bt : BitVec 1) (d : BitVec 8) (a : BitVec 8) (b : BitVec 8)
  /-- High word of the signed 64-bit product. (R92) -/
  | imulh (bt : BitVec 1) (d : BitVec 8) (a : BitVec 8) (b : BitVec 8)
  /-- High word of the unsigned 64-bit product. (R92) -/
  | umulh (bt : BitVec 1) (d : BitVec 8) (a : BitVec 8) (b : BitVec 8)
  /-- Integer multiply-add into D modulo 2^32. (R92) -/
  | imac (bt : BitVec 1) (d : BitVec 8) (a : BitVec 8) (b : BitVec 8)
  /-- Signed minimum. (R92) -/
  | imin (bt : BitVec 1) (d : BitVec 8) (a : BitVec 8) (b : BitVec 8)
  /-- Signed maximum. (R92) -/
  | imax (bt : BitVec 1) (d : BitVec 8) (a : BitVec 8) (b : BitVec 8)
  /-- Bitwise and. (R93) -/
  | and (bt : BitVec 1) (d : BitVec 8) (a : BitVec 8) (b : BitVec 8)
  /-- Bitwise or. (R93) -/
  | or (bt : BitVec 1) (d : BitVec 8) (a : BitVec 8) (b : BitVec 8)
  /-- Bitwise exclusive or. (R93) -/
  | xor (bt : BitVec 1) (d : BitVec 8) (a : BitVec 8) (b : BitVec 8)
  /-- A and not B. (R93) -/
  | andn (bt : BitVec 1) (d : BitVec 8) (a : BitVec 8) (b : BitVec 8)
  /-- Shift left by B, giving 0 for amounts of 32 or more. (R93) -/
  | shl (bt : BitVec 1) (d : BitVec 8) (a : BitVec 8) (b : BitVec 8)
  /-- Logical shift right by B. (R93) -/
  | shr (bt : BitVec 1) (d : BitVec 8) (a : BitVec 8) (b : BitVec 8)
  /-- Arithmetic shift right by B. (R93) -/
  | sar (bt : BitVec 1) (d : BitVec 8) (a : BitVec 8) (b : BitVec 8)
  /-- Rotate left by B mod 32. (R93) -/
  | rot (bt : BitVec 1) (d : BitVec 8) (a : BitVec 8) (b : BitVec 8)
  /-- Packed FP16 add of two elements. (R94) -/
  | hadd2 (bt : BitVec 1) (d : BitVec 8) (a : BitVec 8) (b : BitVec 8)
  /-- Packed FP16 multiply. (R94) -/
  | hmul2 (bt : BitVec 1) (d : BitVec 8) (a : BitVec 8) (b : BitVec 8)
  /-- Packed FP16 fused multiply-add. (R94) -/
  | hmac2 (bt : BitVec 1) (d : BitVec 8) (a : BitVec 8) (b : BitVec 8)
  /-- Packed BF16 add. (R94) -/
  | badd2 (bt : BitVec 1) (d : BitVec 8) (a : BitVec 8) (b : BitVec 8)
  /-- Packed BF16 multiply. (R94) -/
  | bmul2 (bt : BitVec 1) (d : BitVec 8) (a : BitVec 8) (b : BitVec 8)
  /-- Packed BF16 fused multiply-add. (R94) -/
  | bmac2 (bt : BitVec 1) (d : BitVec 8) (a : BitVec 8) (b : BitVec 8)
  /-- Unsigned 32-bit minimum. (R94) -/
  | umin (bt : BitVec 1) (d : BitVec 8) (a : BitVec 8) (b : BitVec 8)
  /-- Unsigned 32-bit maximum. (R94) -/
  | umax (bt : BitVec 1) (d : BitVec 8) (a : BitVec 8) (b : BitVec 8)
  /-- FP64 add on even register pairs. (R95) -/
  | dadd (bt : BitVec 1) (d : BitVec 8) (a : BitVec 8) (b : BitVec 8)
  /-- FP64 multiply. (R95) -/
  | dmul (bt : BitVec 1) (d : BitVec 8) (a : BitVec 8) (b : BitVec 8)
  /-- FP64 fused multiply-add. (R95) -/
  | dmac (bt : BitVec 1) (d : BitVec 8) (a : BitVec 8) (b : BitVec 8)
  /-- Adds four signed byte products to D. (R96) -/
  | dot4 (bt : BitVec 1) (d : BitVec 8) (a : BitVec 8) (b : BitVec 8)
  /-- Adds eight signed nibble products to D. (R96) -/
  | dot8 (bt : BitVec 1) (d : BitVec 8) (a : BitVec 8) (b : BitVec 8)
  /-- FP32 D plus two FP16 products, rounded once. (R97) -/
  | hdot2 (bt : BitVec 1) (d : BitVec 8) (a : BitVec 8) (b : BitVec 8)
  /-- Builds each result byte from source bytes under the selectors in D. (R98) -/
  | prmt (bt : BitVec 1) (d : BitVec 8) (a : BitVec 8) (b : BitVec 8)
  /-- Counter-based hash of counter A under key B. (R99) -/
  | rnd (bt : BitVec 1) (d : BitVec 8) (a : BitVec 8) (b : BitVec 8)
  /-- Copies a 32-bit, 64-bit or 128-bit operand as MOD gives. (R101) -/
  | mov (bt : BitVec 1) (m : BitVec 5) (d : BitVec 8) (a : BitVec 8)
  /-- Flips the sign bit of an FP32, FP64 or packed FP16 value. (R101) -/
  | fneg (bt : BitVec 1) (m : BitVec 5) (d : BitVec 8) (a : BitVec 8)
  /-- Clears the sign bit of an FP32, FP64 or packed FP16 value. (R101) -/
  | fabs (bt : BitVec 1) (m : BitVec 5) (d : BitVec 8) (a : BitVec 8)
  /-- Correctly rounded FP32 reciprocal, variable latency. (R102) -/
  | frcp (bt : BitVec 1) (d : BitVec 8) (a : BitVec 8)
  /-- Correctly rounded FP32 reciprocal square root. (R102) -/
  | frsq (bt : BitVec 1) (d : BitVec 8) (a : BitVec 8)
  /-- Correctly rounded FP32 square root. (R102) -/
  | fsqrt (bt : BitVec 1) (d : BitVec 8) (a : BitVec 8)
  /-- Correctly rounded FP32 2^x. (R102) -/
  | fexp2 (bt : BitVec 1) (d : BitVec 8) (a : BitVec 8)
  /-- Correctly rounded FP32 log2. (R102) -/
  | flog2 (bt : BitVec 1) (d : BitVec 8) (a : BitVec 8)
  /-- Correctly rounded FP32 sin(pi x). (R102) -/
  | fsinp (bt : BitVec 1) (d : BitVec 8) (a : BitVec 8)
  /-- Correctly rounded FP32 cos(pi x). (R102) -/
  | fcosp (bt : BitVec 1) (d : BitVec 8) (a : BitVec 8)
  /-- Correctly rounded FP32 tanh. (R102) -/
  | ftanh (bt : BitVec 1) (d : BitVec 8) (a : BitVec 8)
  /-- Rounds FP32 to an integral value in the mode that MOD gives. (R103) -/
  | frint (bt : BitVec 1) (m : BitVec 5) (d : BitVec 8) (a : BitVec 8)
  /-- Fractional part of an FP32 value, rounded down. (R103) -/
  | ffrac (bt : BitVec 1) (d : BitVec 8) (a : BitVec 8)
  /-- Writes a one-hot class mask of an FP32 or FP64 value. (R104) -/
  | fclass (bt : BitVec 1) (m : BitVec 5) (d : BitVec 8) (a : BitVec 8)
  /-- Performs the conversion that MOD names. (R105) -/
  | cvt (bt : BitVec 1) (m : BitVec 5) (d : BitVec 8) (a : BitVec 8)
  /-- Quantises an FP32 value into one narrow-format position of D. (R107) -/
  | qnt (bt : BitVec 1) (f : BitVec 3) (p : BitVec 2) (d : BitVec 8) (a : BitVec 8)
  /-- Widens one narrow-format element of A exactly to FP32. (R108) -/
  | dqnt (bt : BitVec 1) (f : BitVec 3) (p : BitVec 2) (d : BitVec 8) (a : BitVec 8)
  /-- Counts the one bits. (R109) -/
  | popc (bt : BitVec 1) (d : BitVec 8) (a : BitVec 8)
  /-- Counts the leading zero bits. (R109) -/
  | clz (bt : BitVec 1) (d : BitVec 8) (a : BitVec 8)
  /-- Reverses the bit order. (R109) -/
  | brev (bt : BitVec 1) (d : BitVec 8) (a : BitVec 8)
  /-- Index of the highest one bit. (R109) -/
  | bfind (bt : BitVec 1) (d : BitVec 8) (a : BitVec 8)
  /-- Integer negation modulo 2^32. (R109) -/
  | ineg (bt : BitVec 1) (d : BitVec 8) (a : BitVec 8)
  /-- Integer absolute value. (R109) -/
  | iabs (bt : BitVec 1) (d : BitVec 8) (a : BitVec 8)
  /-- Correctly rounded FP64 square root. (R102) -/
  | dsqrt (bt : BitVec 1) (d : BitVec 8) (a : BitVec 8)
  /-- Correctly rounded FP64 reciprocal. (R102) -/
  | drcp (bt : BitVec 1) (d : BitVec 8) (a : BitVec 8)
  /-- Adds a signed immediate. (R111) -/
  | iaddi (bt : BitVec 1) (d : BitVec 8) (a : BitVec 8) (i : BitVec 7)
  /-- Multiplies by a signed immediate. (R111) -/
  | imuli (bt : BitVec 1) (d : BitVec 8) (a : BitVec 8) (i : BitVec 7)
  /-- Shifts left by an immediate amount. (R111) -/
  | shli (bt : BitVec 1) (d : BitVec 8) (a : BitVec 8) (n : BitVec 5)
  /-- Logical shift right by an immediate amount. (R111) -/
  | shri (bt : BitVec 1) (d : BitVec 8) (a : BitVec 8) (n : BitVec 5)
  /-- Arithmetic shift right by an immediate amount. (R111) -/
  | sari (bt : BitVec 1) (d : BitVec 8) (a : BitVec 8) (n : BitVec 5)
  /-- Bitwise and with an immediate. (R111) -/
  | andi (bt : BitVec 1) (d : BitVec 8) (a : BitVec 8) (i : BitVec 7)
  /-- Bitwise or with an immediate. (R111) -/
  | ori (bt : BitVec 1) (d : BitVec 8) (a : BitVec 8) (i : BitVec 7)
  /-- Bitwise exclusive or with an immediate. (R111) -/
  | xori (bt : BitVec 1) (d : BitVec 8) (a : BitVec 8) (i : BitVec 7)
  /-- Moves an immediate into D. (R111) -/
  | movi (bt : BitVec 1) (d : BitVec 8) (i : BitVec 7)
  /-- FP32 equal compare merged into a mask. (R271) -/
  | fsetEq (bt : BitVec 1) (c : BitVec 2) (m : BitVec 4) (a : BitVec 8) (b : BitVec 8)
  /-- FP32 not-equal compare merged into a mask. (R271) -/
  | fsetNe (bt : BitVec 1) (c : BitVec 2) (m : BitVec 4) (a : BitVec 8) (b : BitVec 8)
  /-- FP32 less-than compare. (R271) -/
  | fsetLt (bt : BitVec 1) (c : BitVec 2) (m : BitVec 4) (a : BitVec 8) (b : BitVec 8)
  /-- FP32 less-or-equal compare. (R271) -/
  | fsetLe (bt : BitVec 1) (c : BitVec 2) (m : BitVec 4) (a : BitVec 8) (b : BitVec 8)
  /-- FP32 greater-than compare. (R271) -/
  | fsetGt (bt : BitVec 1) (c : BitVec 2) (m : BitVec 4) (a : BitVec 8) (b : BitVec 8)
  /-- FP32 greater-or-equal compare. (R271) -/
  | fsetGe (bt : BitVec 1) (c : BitVec 2) (m : BitVec 4) (a : BitVec 8) (b : BitVec 8)
  /-- True where either operand is NaN. (R271) -/
  | fsetUn (bt : BitVec 1) (c : BitVec 2) (m : BitVec 4) (a : BitVec 8) (b : BitVec 8)
  /-- True where neither operand is NaN. (R271) -/
  | fsetOr (bt : BitVec 1) (c : BitVec 2) (m : BitVec 4) (a : BitVec 8) (b : BitVec 8)
  /-- Integer equal compare. (R271) -/
  | isetEq (bt : BitVec 1) (c : BitVec 2) (m : BitVec 4) (a : BitVec 8) (b : BitVec 8)
  /-- Integer not-equal compare. (R271) -/
  | isetNe (bt : BitVec 1) (c : BitVec 2) (m : BitVec 4) (a : BitVec 8) (b : BitVec 8)
  /-- Signed less-than compare. (R271) -/
  | isetLt (bt : BitVec 1) (c : BitVec 2) (m : BitVec 4) (a : BitVec 8) (b : BitVec 8)
  /-- Signed less-or-equal compare. (R271) -/
  | isetLe (bt : BitVec 1) (c : BitVec 2) (m : BitVec 4) (a : BitVec 8) (b : BitVec 8)
  /-- Signed greater-than compare. (R271) -/
  | isetGt (bt : BitVec 1) (c : BitVec 2) (m : BitVec 4) (a : BitVec 8) (b : BitVec 8)
  /-- Signed greater-or-equal compare. (R271) -/
  | isetGe (bt : BitVec 1) (c : BitVec 2) (m : BitVec 4) (a : BitVec 8) (b : BitVec 8)
  /-- Unsigned less-than compare. (R271) -/
  | usetLt (bt : BitVec 1) (c : BitVec 2) (m : BitVec 4) (a : BitVec 8) (b : BitVec 8)
  /-- Unsigned less-or-equal compare. (R271) -/
  | usetLe (bt : BitVec 1) (c : BitVec 2) (m : BitVec 4) (a : BitVec 8) (b : BitVec 8)
  /-- Unsigned greater-than compare. (R271) -/
  | usetGt (bt : BitVec 1) (c : BitVec 2) (m : BitVec 4) (a : BitVec 8) (b : BitVec 8)
  /-- Unsigned greater-or-equal compare. (R271) -/
  | usetGe (bt : BitVec 1) (c : BitVec 2) (m : BitVec 4) (a : BitVec 8) (b : BitVec 8)
  /-- Combines two masks into a mask in the active lanes. (R272) -/
  | mlog (bt : BitVec 1) (d : BitVec 4) (a : BitVec 4) (b : BitVec 4) (f : BitVec 3)
  /-- Moves A to D in the active lanes whose condition mask bit is set. (R272) -/
  | cmov (bt : BitVec 1) (c : BitVec 4) (d : BitVec 8) (a : BitVec 8)
  /-- Copies A from the lane named by a K register. (R275) -/
  | shfl (bt : BitVec 1) (k : BitVec 3) (d : BitVec 8) (a : BitVec 8)
  /-- Copies A from the lane l xor IMM6. (R275) -/
  | shflXor (bt : BitVec 1) (i : BitVec 6) (d : BitVec 8) (a : BitVec 8)
  /-- Copies A from the lane l minus IMM6. (R275) -/
  | shflUp (bt : BitVec 1) (i : BitVec 6) (d : BitVec 8) (a : BitVec 8)
  /-- Copies A from the lane l plus IMM6. (R275) -/
  | shflDn (bt : BitVec 1) (i : BitVec 6) (d : BitVec 8) (a : BitVec 8)
  /-- Copies A from lane IMM6. (R275) -/
  | shflIdx (bt : BitVec 1) (i : BitVec 6) (d : BitVec 8) (a : BitVec 8)
  /-- Sets each active lane's mask bit to an any or all vote over the active lanes. (R276) -/
  | vote (bt : BitVec 1) (k : BitVec 2) (d : BitVec 4) (a : BitVec 4)
  /-- Writes the mask of active lanes with non-zero A to an S pair. (R276) -/
  | ballot (bt : BitVec 1) (s : BitVec 6) (a : BitVec 8)
  /-- Reduces A over the active lanes in ascending order into an S register. (R277) -/
  | gred (bt : BitVec 1) (s : BitVec 6) (r : BitVec 3) (a : BitVec 8)
  /-- Moves a whole mask register to or from an S pair. (R273) -/
  | mmov (bt : BitVec 1) (r : BitVec 1) (m : BitVec 4) (s : BitVec 6)
  /-- Writes the active mask into a mask register. (R273) -/
  | mact (bt : BitVec 1) (d : BitVec 4)
  /-- Scalar add. (R279) -/
  | sadd (bt : BitVec 1) (d : BitVec 6) (a : BitVec 6) (b : BitVec 6)
  /-- Scalar subtract. (R279) -/
  | ssub (bt : BitVec 1) (d : BitVec 6) (a : BitVec 6) (b : BitVec 6)
  /-- Scalar multiply. (R279) -/
  | smul (bt : BitVec 1) (d : BitVec 6) (a : BitVec 6) (b : BitVec 6)
  /-- Scalar and. (R279) -/
  | sand (bt : BitVec 1) (d : BitVec 6) (a : BitVec 6) (b : BitVec 6)
  /-- Scalar or. (R279) -/
  | sor (bt : BitVec 1) (d : BitVec 6) (a : BitVec 6) (b : BitVec 6)
  /-- Scalar exclusive or. (R279) -/
  | sxor (bt : BitVec 1) (d : BitVec 6) (a : BitVec 6) (b : BitVec 6)
  /-- Scalar shift left. (R279) -/
  | sshl (bt : BitVec 1) (d : BitVec 6) (a : BitVec 6) (b : BitVec 6)
  /-- Scalar logical shift right. (R279) -/
  | sshr (bt : BitVec 1) (d : BitVec 6) (a : BitVec 6) (b : BitVec 6)
  /-- Scalar arithmetic shift right. (R279) -/
  | ssar (bt : BitVec 1) (d : BitVec 6) (a : BitVec 6) (b : BitVec 6)
  /-- Scalar signed minimum. (R279) -/
  | smin (bt : BitVec 1) (d : BitVec 6) (a : BitVec 6) (b : BitVec 6)
  /-- Scalar signed maximum. (R279) -/
  | smax (bt : BitVec 1) (d : BitVec 6) (a : BitVec 6) (b : BitVec 6)
  /-- Scalar add of a signed immediate. (R279) -/
  | saddi (bt : BitVec 1) (d : BitVec 6) (a : BitVec 6) (i : BitVec 10)
  /-- Moves a sign-extended immediate into an S register. (R279) -/
  | smovi (bt : BitVec 1) (d : BitVec 6) (i : BitVec 16)
  /-- Writes the high half of an S register. (R279) -/
  | smovhi (bt : BitVec 1) (d : BitVec 6) (i : BitVec 16)
  /-- Writes 1 or 0 by a scalar condition. (R280) -/
  | sset (bt : BitVec 1) (d : BitVec 6) (a : BitVec 6) (b : BitVec 6) (c : BitVec 4)
  /-- Reads one lane's V register into an S register. (R281) -/
  | vread (bt : BitVec 1) (d : BitVec 6) (a : BitVec 6) (v : BitVec 8)
  /-- Loads one 32-bit word for the group through a buffer record, variable latency. (R282) -/
  | sldc (bt : BitVec 1) (d : BitVec 6) (a : BitVec 6) (n : BitVec 5) (i : BitVec 5)
  /-- Loads a code word at a word offset from itself. (R283) -/
  | sldlit (bt : BitVec 1) (d : BitVec 6) (i : BitVec 16)
  /-- Reads a CSR into an S register, capturing the time word on a TIMEL read. (R284) -/
  | csrr (bt : BitVec 1) (d : BitVec 6) (c : BitVec 12)
  /-- Writes an S register to a CSR, with W1C and handler-CSR effects. (R284) -/
  | csrw (bt : BitVec 1) (a : BitVec 6) (c : BitVec 12)
  /-- Loads 4, 8 or 16 bytes per active lane through a buffer record. (R225) -/
  | ld (bt : BitVec 1) (n : BitVec 5) (d : BitVec 8) (x : BitVec 8) (s : BitVec 2)
  /-- Stores 4, 8 or 16 bytes per active lane. (R225) -/
  | st (bt : BitVec 1) (n : BitVec 5) (d : BitVec 8) (x : BitVec 8) (s : BitVec 2)
  /-- Loads and extends a byte. (R225) -/
  | ldb (bt : BitVec 1) (n : BitVec 5) (d : BitVec 8) (x : BitVec 8) (s : BitVec 2)
  /-- Loads and extends a half-word. (R225) -/
  | ldh (bt : BitVec 1) (n : BitVec 5) (d : BitVec 8) (x : BitVec 8) (s : BitVec 2)
  /-- Stores a byte. (R225) -/
  | stb (bt : BitVec 1) (n : BitVec 5) (d : BitVec 8) (x : BitVec 8)
  /-- Stores a half-word. (R225) -/
  | sth (bt : BitVec 1) (n : BitVec 5) (d : BitVec 8) (x : BitVec 8)
  /-- Loads and sets the lane's exclusive reservation. (R226) -/
  | ldx (bt : BitVec 1) (n : BitVec 5) (d : BitVec 8) (x : BitVec 8) (s : BitVec 2)
  /-- Stores where the reservation is intact and records success in M15. (R226) -/
  | stx (bt : BitVec 1) (n : BitVec 5) (d : BitVec 8) (x : BitVec 8) (s : BitVec 2)
  /-- Asks for a line to be fetched into a cache level. (R227) -/
  | pref (bt : BitVec 1) (n : BitVec 5) (x : BitVec 8) (s : BitVec 2)
  /-- Writes back and drops a line from the named levels. (R227) -/
  | evict (bt : BitVec 1) (n : BitVec 5) (x : BitVec 8) (s : BitVec 2)
  /-- Loads a whole buffer record from memory. (R228) -/
  | bload (bt : BitVec 1) (n : BitVec 5) (s : BitVec 5) (x : BitVec 8)
  /-- Sets a whole buffer record from four S registers. (R228) -/
  | bset (bt : BitVec 1) (n : BitVec 5) (a : BitVec 6)
  /-- Atomic integer add, returning or not. (R230) -/
  | aadd (bt : BitVec 1) (n : BitVec 5) (d : BitVec 8) (x : BitVec 8) (p : BitVec 2)
  /-- Atomic signed minimum. (R230) -/
  | amin (bt : BitVec 1) (n : BitVec 5) (d : BitVec 8) (x : BitVec 8) (p : BitVec 2)
  /-- Atomic signed maximum. (R230) -/
  | amax (bt : BitVec 1) (n : BitVec 5) (d : BitVec 8) (x : BitVec 8) (p : BitVec 2)
  /-- Atomic unsigned minimum. (R230) -/
  | aumin (bt : BitVec 1) (n : BitVec 5) (d : BitVec 8) (x : BitVec 8) (p : BitVec 2)
  /-- Atomic unsigned maximum. (R230) -/
  | aumax (bt : BitVec 1) (n : BitVec 5) (d : BitVec 8) (x : BitVec 8) (p : BitVec 2)
  /-- Atomic and. (R230) -/
  | aand (bt : BitVec 1) (n : BitVec 5) (d : BitVec 8) (x : BitVec 8) (p : BitVec 2)
  /-- Atomic or. (R230) -/
  | aor (bt : BitVec 1) (n : BitVec 5) (d : BitVec 8) (x : BitVec 8) (p : BitVec 2)
  /-- Atomic exclusive or. (R230) -/
  | axor (bt : BitVec 1) (n : BitVec 5) (d : BitVec 8) (x : BitVec 8) (p : BitVec 2)
  /-- Atomic exchange. (R230) -/
  | axchg (bt : BitVec 1) (n : BitVec 5) (d : BitVec 8) (x : BitVec 8) (p : BitVec 2)
  /-- Atomic compare and swap, always returning the old value. (R231) -/
  | acas (bt : BitVec 1) (n : BitVec 5) (d : BitVec 8) (x : BitVec 8) (p : BitVec 2)
  /-- Atomic FP32 add. (R230) -/
  | afadd (bt : BitVec 1) (n : BitVec 5) (d : BitVec 8) (x : BitVec 8) (p : BitVec 2)
  /-- Starts a background copy between two buffer ranges completing into a token. (R232) -/
  | copy (bt : BitVec 1) (s : BitVec 5) (d : BitVec 5) (k : BitVec 6) (a : BitVec 6)
  /-- Closes the group's unsealed copies into its next batch. (R233) -/
  | sealBatch (bt : BitVec 1) (d : BitVec 6)
  /-- Stalls the path until a batch and all earlier batches complete. (R233) -/
  | waitb (bt : BitVec 1) (a : BitVec 6)
  /-- Holds back later accesses until the release or acquire condition at its scope holds. (R236) -/
  | fence (bt : BitVec 1) (k : BitVec 2) (p : BitVec 3)
  /-- Claims a run of slots from an ordered-append unit. (R237) -/
  | append (bt : BitVec 1) (u : BitVec 5) (d : BitVec 8) (x : BitVec 8)
  /-- Sends the whole path to a direct target. (R288) -/
  | bra (bt : BitVec 1) (o : BitVec 18)
  /-- Sends the active lanes whose mask bit is 1 to the target. (R289) -/
  | brm (bt : BitVec 1) (m : BitVec 4) (o : BitVec 18)
  /-- Sends the active lanes whose mask bit is 0 to the target. (R289) -/
  | brmn (bt : BitVec 1) (m : BitVec 4) (o : BitVec 18)
  /-- Sends the path to the target when an S register is non-zero. (R288) -/
  | brs (bt : BitVec 1) (s : BitVec 6) (o : BitVec 16)
  /-- Sends the path to the target when an S register is zero. (R288) -/
  | brsz (bt : BitVec 1) (s : BitVec 6) (o : BitVec 16)
  /-- Writes the link to K7 and sends the path to the target. (R290) -/
  | call (bt : BitVec 1) (o : BitVec 18)
  /-- Sends each active lane to the address in its K7. (R290) -/
  | ret (bt : BitVec 1)
  /-- Indirect jump to per-lane targets under landing-pad checks. (R291) -/
  | jmpi (bt : BitVec 1) (a : BitVec 8) (g : BitVec 8)
  /-- Indirect call to per-lane targets, writing the link to K7. (R291) -/
  | calli (bt : BitVec 1) (a : BitVec 8) (g : BitVec 8)
  /-- Marks a clause as a legal indirect target with a tag; no state change. (R49) -/
  | lpad (bt : BitVec 1) (g : BitVec 8)
  /-- Sets the expected mask of a rejoin register to the active mask. (R292) -/
  | split (bt : BitVec 1) (j : BitVec 3)
  /-- Moves the active lanes to the join continuation and waits for the expected lanes. (R293) -/
  | join (bt : BitVec 1) (j : BitVec 3)
  /-- Removes the active lanes from a rejoin mask. (R292) -/
  | drop (bt : BitVec 1) (j : BitVec 3)
  /-- The active threads arrive at a workgroup barrier and wait. (R295) -/
  | bar (bt : BitVec 1) (i : BitVec 4)
  /-- Ends every active thread, or the tile-program thread on the bobbin. (R296) -/
  | exit (bt : BitVec 1)
  /-- Takes TRAP_INSN with a code for the active lanes. (R332) -/
  | trap (bt : BitVec 1) (c : BitVec 16)
  /-- Pushes a region number on the group's region stack. (R334) -/
  | enter (bt : BitVec 1) (r : BitVec 16)
  /-- Pops the region stack. (R334) -/
  | leave (bt : BitVec 1)
  /-- The team leader launches a child grid from a launch record. (R298) -/
  | spawn (bt : BitVec 1) (s : BitVec 6)
  /-- The active threads wait until the workgroup's child count is 0. (R299) -/
  | chwait (bt : BitVec 1)
  /-- Sends the path to the next clause at lowest selection preference. (R297) -/
  | yield (bt : BitVec 1)
  /-- Clears a closure register. (R152) -/
  | cclr (bt : BitVec 1) (g : BitVec 2)
  /-- Appends a lobe of the given type to a closure. (R152) -/
  | lobe (bt : BitVec 1) (y : BitVec 4) (g : BitVec 2) (p : BitVec 8) (w : BitVec 8)
  /-- Appends another closure's lobes scaled by a factor. (R152) -/
  | lmix (bt : BitVec 1) (g : BitVec 2) (h : BitVec 2) (w : BitVec 8)
  /-- Layers a coat closure over a base, attenuating the base lobes. (R152) -/
  | layer (bt : BitVec 1) (g : BitVec 2) (h : BitVec 2) (w : BitVec 8)
  /-- Scales every lobe weight of a closure. (R152) -/
  | lscl (bt : BitVec 1) (g : BitVec 2) (w : BitVec 8)
  /-- Computes and stores a closure's shading frame. (R154) -/
  | frame (bt : BitVec 1) (g : BitVec 2) (n : BitVec 8)
  /-- Samples a direction from a closure with its value, pdf and lobe index. (R162) -/
  | samp (bt : BitVec 1) (g : BitVec 2) (d : BitVec 8) (u : BitVec 8)
  /-- Evaluates a closure's value and pdf at a direction. (R161) -/
  | eval (bt : BitVec 1) (g : BitVec 2) (d : BitVec 8) (w : BitVec 8)
  /-- Evaluates a closure's pdf at a direction. (R161) -/
  | pdf (bt : BitVec 1) (g : BitVec 2) (d : BitVec 8) (w : BitVec 8)
  /-- Stores a 544-byte closure image per active lane. (R164) -/
  | csave (bt : BitVec 1) (g : BitVec 2) (n : BitVec 5) (x : BitVec 8)
  /-- Loads and checks a closure image per active lane. (R164) -/
  | cload (bt : BitVec 1) (g : BitVec 2) (n : BitVec 5) (x : BitVec 8)
  /-- Starts a closest-hit ray walk completing into a token. (R165) -/
  | trace (bt : BitVec 1) (k : BitVec 6) (h : BitVec 8) (r : BitVec 8)
  /-- Starts a first-hit ray walk completing into a token. (R165) -/
  | tracep (bt : BitVec 1) (k : BitVec 6) (h : BitVec 8) (r : BitVec 8)
  /-- Starts resolving a 32x32 screen tile into visibility words. (R168) -/
  | visq (bt : BitVec 1) (k : BitVec 6) (v : BitVec 8)
  /-- Takes one free wardrobe slot per active lane. (R263) -/
  | pslot (bt : BitVec 1) (d : BitVec 8) (p : BitVec 6)
  /-- Returns one wardrobe slot per active lane. (R263) -/
  | pfree (bt : BitVec 1) (d : BitVec 8) (p : BitVec 6)
  /-- Pushes one entry per active lane to a device queue, stalling for room. (R259) -/
  | qpush (bt : BitVec 1) (q : BitVec 6) (s : BitVec 8) (m : BitVec 8)
  /-- Retires each active thread into a continuation bin with a carried value. (R264) -/
  | regrp (bt : BitVec 1) (o : BitVec 12) (s : BitVec 8)
  /-- Writes one tile row per active lane. (R126) -/
  | tfeed (bt : BitVec 1) (s : BitVec 6) (v : BitVec 8) (f : BitVec 8)
  /-- Reads 16 columns of one accumulator row per active lane. (R128) -/
  | tdrain (bt : BitVec 1) (s : BitVec 6) (d : BitVec 8) (c : BitVec 2)
  /-- Publishes a tile as READY. (R127) -/
  | trel (bt : BitVec 1) (s : BitVec 6)
  /-- Enters one unpaired matrix pass into the pattern table. (R129) -/
  | mma (bt : BitVec 1) (x : BitVec 6) (f : BitVec 6) (b : BitVec 1) (a : BitVec 1) (c : BitVec 1) (e : BitVec 1)
  /-- Issues a paired matrix pass that meets its partner at a rendezvous. (R139) -/
  | mmaPair (bt : BitVec 1) (x : BitVec 6) (f : BitVec 6) (b : BitVec 1) (a : BitVec 1) (c : BitVec 1) (e : BitVec 1)
  /-- Issues a paired guidance operation on an accumulator pair. (R141) -/
  | mguid (bt : BitVec 1) (x : BitVec 6) (s : BitVec 6)
  /-- Enters an operation that zeroes an accumulator. (R131) -/
  | mzero (bt : BitVec 1) (x : BitVec 6)
  /-- Enters an operation that converts an accumulator into a tile and publishes it. (R132) -/
  | mcvt (bt : BitVec 1) (x : BitVec 6) (f : BitVec 6)
  /-- Stalls the tile-program thread until its watermark reaches a value. (R133) -/
  | mwait (bt : BitVec 1) (s : BitVec 6)
  /-- Replaces the workgroup's companding table from memory. (R134) -/
  | ctab (bt : BitVec 1) (a : BitVec 6) (n : BitVec 5)
  /-- Writes one TLB entry of the slot's context. (R307) -/
  | tlbw (bt : BitVec 1) (a : BitVec 6)
  /-- Removes TLB entries of the context from every core of the partition. (R308) -/
  | tlbi (bt : BitVec 1) (k : BitVec 2) (a : BitVec 6)
  /-- Ends a walker or handler routine and resumes the served work. (R326) -/
  | hret (bt : BitVec 1)
  /-- Ends a handler routine and ends the context through the pocket. (R326) -/
  | hretEnd (bt : BitVec 1)
  /-- Takes BREAKPOINT with a code. (R333) -/
  | bkpt (bt : BitVec 1) (c : BitVec 16)
  /-- Writes one trace record carrying an S value and a tag. (R335) -/
  | snap (bt : BitVec 1) (a : BitVec 6) (g : BitVec 16)
  /-- The host advances a host queue's TAIL line, which the front end sees when it takes the line back. (R253) -/
  | hostTailWrite (q tail : Nat)
  /-- The front end takes a launch record from a queue or a SPAWN, copies it and checks it. (R254) -/
  | launchAdmit (fromSpawn : Bool) (n : Nat)
  /-- On a fitting-cache miss the front end specialises the vector code into residual code. (R172) -/
  | tailorRun (grid : Nat)
  /-- A die dispatcher places a whole workgroup or pair once its resources are free. (R24) -/
  | workgroupPlace (grid die core coreU : Nat) (wins : List Nat)
  /-- The oldest entry of a queue or bin has waited 2,000 ns and a shorter group forms. (R30) -/
  | groupFormTimeout (isBin : Bool) (grid n : Nat)
  /-- A variable-latency operation writes its last result and lowers its flag count. (R41) -/
  | varLatencyComplete (grp n : Nat)
  /-- A TRACE or TRACEP walk writes its hit registers and completes its token. (R167) -/
  | rayWalkComplete (grp n : Nat)
  /-- A tile resolve has performed its writes and completes its token. (R171) -/
  | visqComplete (grp n : Nat)
  /-- An asynchronous copy has written every byte, or was refused, and completes its token. (R232) -/
  | copyComplete (grp n : Nat)
  /-- A bobbin word stalled on a full pattern table enters when a slot frees. (R121) -/
  | patternTableEnter (grp : Nat)
  /-- An entry whose tiles and accumulators are ready issues on the matrix engine. (R121) -/
  | patternEntryIssue (cluster : Nat)
  /-- An entry writes its last result, frees its slot and raises the watermark. (R121) -/
  | patternEntryComplete (entry : Nat)
  /-- A store or atomic is performed at the home and returns its GWCT. (R219) -/
  | storePerformAtHome (n : Nat)
  /-- Dirty bytes of workgroup or core scope stores are written back to the home. (R217) -/
  | l1WriteBack (core line : Nat)
  /-- A cached copy's lease reaches its expiry device time and may no longer be hit. (R218) -/
  | leaseExpiry (lvl unit line : Nat)
  /-- Device time passes the thread's GWCT and a waiting fence lets later accesses go. (R236) -/
  | fenceReleaseComplete (grp : Nat)
  /-- A waiting deterministic APPEND claim is granted once every lower workgroup has claimed or retired. (R202) -/
  | appendGrant (grp : Nat)
  /-- A group whose lanes have all exited, with no counting flag or pending token, retires. (R33) -/
  | groupRetire (grp : Nat)
  /-- After the grid's last GWCT passes, the completion record is written with STATUS last. (R255) -/
  | completionRecordWrite (grid : Nat)
  /-- A workgroup whose live threads all wait in CHWAIT is saved to the save area. (R32) -/
  | workgroupSaveOut (wg : Nat)
  /-- A saved-out workgroup is restored once its child count reaches 0. (R32) -/
  | workgroupRestore (wg core coreU : Nat)
  /-- The oldest exited speculative task of an ordered queue commits its write set. (R205) -/
  | taskCommit (q : Nat)
  /-- A group issuable and not chosen for 1,024 clocks is chosen first. (R265) -/
  | issueStarvation (core quarter : Nat)
  /-- A frontier entry's age reaches 4,032 and it is selected first. (R267) -/
  | frontierAgeLimit (grp : Nat)
  /-- A TLB miss runs the context's walker routine in the walker slot. (R305) -/
  | tlbMissWalk (core : Nat)
  /-- A not-present page is written to the page-report ring when it has room. (R306) -/
  | pageReportWrite
  /-- The handler slot starts the handler routine for the oldest waiting trap. (R324) -/
  | handlerStart (core : Nat)
  /-- The firmware pre-empts a whole context and saves its state. (R336) -/
  | preempt (ctx : Nat)
  /-- The firmware restores a pre-empted context onto its partition. (R336) -/
  | contextMakeResident (ctx : Nat) (cores : List (Nat × Nat))
  /-- A context with resident work makes no progress for 2,000,000,000 ns and records WATCHDOG. (R337) -/
  | hangWatchdog (ctx : Nat)
  /-- A correctable soft error is corrected and counted. (R338) -/
  | eccCorrectable (hbm : Bool) (pa : Nat)
  /-- An uncorrectable soft error ends the owning context, invalidates a cache entry or restarts the device. (R338) -/
  | eccUncorrectable (site : EccSite) (unit : UnitId) (hbm : Bool) (pa : Nat)
  /-- A start verifies firmware, self-tests and trains memory, taking failed units out of service. (R342) -/
  | deviceStart (rep : StartReport)
  /-- The firmware complex does not report ready within 30,000,000,000 ns and the start fails. (R342) -/
  | firmwareReadyTimeout
  /-- A peer announces that it is leaving and is declared absent. (R316) -/
  | peerLeaveAnnounce (member : Nat)
  /-- No flit has arrived from a peer for 20,000 ns and it is declared absent. (R316) -/
  | peerSilenceTimeout (member : Nat)
  /-- A device joins the Seam domain and begins taking its time. (R316) -/
  | peerJoin (member count : Nat)
  /-- A joining device's count comes within 12 ns of the source and it completes joining. (R318) -/
  | timeJoinComplete (member : Nat)
  /-- At the instant minus the margin the engine decides whether the frame is complete. (R340) -/
  | presentCheck
  /-- At a frame-lock instant the engine presents the frame, a cloak frame or a black frame. (R341) -/
  | presentInstant
  /-- A host write over CXL.mem invalidates device copies and merges over written-back dirty bytes. (R313) -/
  | hostCxlMemWrite (pa : Nat) (bytes : List (BitVec 8))
  /-- A host read over CXL.mem sees the home. (R313) -/
  | hostCxlMemRead (pa len : Nat)
  /-- A sampled memory request completes and writes a trace record. (R335) -/
  | sampleRecord (grp pc va : Nat) (qtime : List (BitVec 32))
  /-- A write of 1 clears the corresponding mailbox event bits. (R303) -/
  | mbevtWrite (w : BitVec 32)
  /-- A write to a mailbox register without behaviour of its own stores the value. (R303) -/
  | mailboxRegisterWrite (off : Nat) (w : BitVec 32)
  /-- GO with a code that is not a command completes with UNKNOWN. (R303) -/
  | mailboxUnknown
  /-- Creates a context and returns its CTXID. (R302) -/
  | ctxCreate
  /-- Ends a context's work with ENDED and frees its state. (R300) -/
  | ctxDestroy
  /-- Announces a new mapping, invalidating TLB entries and fitting-cache entries. (R302) -/
  | map
  /-- Releases the lanes parked on a page. (R323) -/
  | hemResume
  /-- Announces a removed or narrowed mapping, invalidating TLB and fitting-cache entries. (R302) -/
  | unmap
  /-- Sets up the page-report ring. (R306) -/
  | faultRing
  /-- Assigns a host or device queue to a context. (R310) -/
  | queueSetup
  /-- Closes a device queue. (R260) -/
  | queueClose
  /-- Sets up a wardrobe pool with every slot free. (R262) -/
  | poolSetup
  /-- Clears a stopped host queue. (R253) -/
  | queueReset
  /-- Arms or re-arms a context's trace buffer. (R312) -/
  | traceArm
  /-- Returns the trace buffer's TAIL, DROPPED and STATE. (R312) -/
  | traceStatus
  /-- Grants a peer window over a range of a context. (R317) -/
  | peerExport
  /-- Maps a peer's window into a context. (R317) -/
  | peerImport
  /-- Sets the frame-lock instant and period. (R319) -/
  | framelock
  /-- Sets or removes the frame source and its ring. (R341) -/
  | frameSource
  /-- Returns the presentation counts and the last frame presented. (R341) -/
  | frameStatus
  /-- Writes a signed attestation quote to a host buffer. (R315) -/
  | attest
  /-- Writes a context's pocket to a host buffer. (R339) -/
  | pocketRead
  /-- Attaches the debugger to a context. (R330) -/
  | dbgAttach
  /-- Removes breakpoints and watchpoints and resumes every halted group. (R330) -/
  | dbgDetach
  /-- Halts a target at its next instruction boundary. (R330) -/
  | dbgHalt
  /-- Resumes a target, optionally for a number of steps. (R330) -/
  | dbgResume
  /-- Sets or removes an address or region breakpoint. (R330) -/
  | dbgBreak
  /-- Sets or removes a watchpoint. (R327) -/
  | dbgWatch
  /-- Returns an item of a halted target. (R330) -/
  | dbgRead
  /-- Writes an item of a halted target, effective on resume. (R330) -/
  | dbgWrite
  /-- Sets or stops the memory-request sampling period. (R330) -/
  | dbgSample
  /-- Writes and removes the pending stop records. (R330) -/
  | dbgEvents
  /-- Pre-empts a context until CTX_RESTORE. (R330) -/
  | ctxPreempt
  /-- Makes a pre-empted context resident again. (R330) -/
  | ctxRestore
  /-- Returns the map of units in service. (R302) -/
  | unitMap
  /-- A fetched word that no instruction encoding accepts takes its precise trap: an unassigned opcode, a reserved bit set, BT in class 0, 1 or 14, HRET ACT 2 or 3, or MOVI with A not ZERO. (R54) -/
  | illegalEncoding (w : BitVec 32)
  /-- A group's fetch at or beyond CODESIZE, or of a code page that translation refuses, traps ILLEGAL_TARGET or PROTECTION with no word decoded. (R40) -/
  | fetchFault (refused : Bool) (info : BitVec 32)
  /-- A host write to a host-homed line invalidates every device copy of that line over CXL.cache before the write completes. (R241) -/
  | cxlCacheSnoop (pa : Nat) (bytes : List (BitVec 8))
  /-- A load, store or atomic arriving over Seam from a peer is checked against the window grant and performed at this device's home. (R317) -/
  | peerAccess (member win off : Nat) (op : PeerOp)
  /-- The host sets up IDE streams, after which the device may issue CXL.cache requests and serves CXL.mem requests instead of failing them. (R313) -/
  | ideStreamSetup
  /-- The driver changes the partition layout of the compute dies, which succeeds only when no context exists in an affected partition. (R301) -/
  | partitionChange (layout : List (Nat × Nat))
  /-- Power or thermal limits lower the arithmetic clock, and raise it again when they allow. (R13) -/
  | thermalClockLimit (mhz : Nat)
  deriving DecidableEq, Repr

end Sys2Proof
end

