-- ==== Sys2Proof/WellFormed.lean ====
section
/-!
DEFINITION. Well-formed instructions: the reserved enumerated values inside an assigned opcode (R6, R54) do not occur.
A word that holds such a value is no instruction: its decoding is a rejection (R54) and it traps.
-/

namespace Sys2Proof

/-- No field holds a reserved enumerated value (R6, R46, R100, R101, R103, R104, R151, R225, R227, R236, R270, R280, R308). -/
def Instr.wf : Instr → Bool
  | .clauseHeader _ _ _ _ _ => true
  | .nop => true
  | .ximm _ => true
  | .ximmf _ => true
  | .xscl _ => true
  | .xrnd _ _ e m => decide (m.toNat ≤ 5 ∧ (m.toNat = 5 ∨ e.toNat = 0))
  | .xevc _ => true
  | .xscp _ => true
  | .xpart => true
  | .pool _ => true
  | .fadd _ _ _ _ => true
  | .fsub _ _ _ _ => true
  | .fmul _ _ _ _ => true
  | .fmac _ _ _ _ => true
  | .fmsb _ _ _ _ => true
  | .fmin _ _ _ _ => true
  | .fmax _ _ _ _ => true
  | .fcps _ _ _ _ => true
  | .iadd _ _ _ _ => true
  | .isub _ _ _ _ => true
  | .imul _ _ _ _ => true
  | .imulh _ _ _ _ => true
  | .umulh _ _ _ _ => true
  | .imac _ _ _ _ => true
  | .imin _ _ _ _ => true
  | .imax _ _ _ _ => true
  | .and _ _ _ _ => true
  | .or _ _ _ _ => true
  | .xor _ _ _ _ => true
  | .andn _ _ _ _ => true
  | .shl _ _ _ _ => true
  | .shr _ _ _ _ => true
  | .sar _ _ _ _ => true
  | .rot _ _ _ _ => true
  | .hadd2 _ _ _ _ => true
  | .hmul2 _ _ _ _ => true
  | .hmac2 _ _ _ _ => true
  | .badd2 _ _ _ _ => true
  | .bmul2 _ _ _ _ => true
  | .bmac2 _ _ _ _ => true
  | .umin _ _ _ _ => true
  | .umax _ _ _ _ => true
  | .dadd _ _ _ _ => true
  | .dmul _ _ _ _ => true
  | .dmac _ _ _ _ => true
  | .dot4 _ _ _ _ => true
  | .dot8 _ _ _ _ => true
  | .hdot2 _ _ _ _ => true
  | .prmt _ _ _ _ => true
  | .rnd _ _ _ _ => true
  | .mov _ m _ _ => decide (m.toNat ≤ 2)
  | .fneg _ m _ _ => decide (m.toNat ≤ 2)
  | .fabs _ m _ _ => decide (m.toNat ≤ 2)
  | .frcp _ _ _ => true
  | .frsq _ _ _ => true
  | .fsqrt _ _ _ => true
  | .fexp2 _ _ _ => true
  | .flog2 _ _ _ => true
  | .fsinp _ _ _ => true
  | .fcosp _ _ _ => true
  | .ftanh _ _ _ => true
  | .frint _ m _ _ => decide (m.toNat ≤ 4)
  | .ffrac _ _ _ => true
  | .fclass _ m _ _ => decide (m.toNat ≤ 1)
  | .cvt _ _ _ _ => true
  | .qnt _ _ _ _ _ => true
  | .dqnt _ _ _ _ _ => true
  | .popc _ _ _ => true
  | .clz _ _ _ => true
  | .brev _ _ _ => true
  | .bfind _ _ _ => true
  | .ineg _ _ _ => true
  | .iabs _ _ _ => true
  | .dsqrt _ _ _ => true
  | .drcp _ _ _ => true
  | .iaddi _ _ _ _ => true
  | .imuli _ _ _ _ => true
  | .shli _ _ _ _ => true
  | .shri _ _ _ _ => true
  | .sari _ _ _ _ => true
  | .andi _ _ _ _ => true
  | .ori _ _ _ _ => true
  | .xori _ _ _ _ => true
  | .movi _ _ _ => true
  | .fsetEq _ _ _ _ _ => true
  | .fsetNe _ _ _ _ _ => true
  | .fsetLt _ _ _ _ _ => true
  | .fsetLe _ _ _ _ _ => true
  | .fsetGt _ _ _ _ _ => true
  | .fsetGe _ _ _ _ _ => true
  | .fsetUn _ _ _ _ _ => true
  | .fsetOr _ _ _ _ _ => true
  | .isetEq _ _ _ _ _ => true
  | .isetNe _ _ _ _ _ => true
  | .isetLt _ _ _ _ _ => true
  | .isetLe _ _ _ _ _ => true
  | .isetGt _ _ _ _ _ => true
  | .isetGe _ _ _ _ _ => true
  | .usetLt _ _ _ _ _ => true
  | .usetLe _ _ _ _ _ => true
  | .usetGt _ _ _ _ _ => true
  | .usetGe _ _ _ _ _ => true
  | .mlog _ _ _ _ f => decide (f.toNat ≤ 5)
  | .cmov _ _ _ _ => true
  | .shfl _ _ _ _ => true
  | .shflXor _ _ _ _ => true
  | .shflUp _ _ _ _ => true
  | .shflDn _ _ _ _ => true
  | .shflIdx _ _ _ _ => true
  | .vote _ k _ _ => decide (k.toNat ≤ 1)
  | .ballot _ _ _ => true
  | .gred _ _ _ _ => true
  | .mmov _ _ _ _ => true
  | .mact _ _ => true
  | .sadd _ _ _ _ => true
  | .ssub _ _ _ _ => true
  | .smul _ _ _ _ => true
  | .sand _ _ _ _ => true
  | .sor _ _ _ _ => true
  | .sxor _ _ _ _ => true
  | .sshl _ _ _ _ => true
  | .sshr _ _ _ _ => true
  | .ssar _ _ _ _ => true
  | .smin _ _ _ _ => true
  | .smax _ _ _ _ => true
  | .saddi _ _ _ _ => true
  | .smovi _ _ _ => true
  | .smovhi _ _ _ => true
  | .sset _ _ _ _ c => decide (c.toNat ≤ 9)
  | .vread _ _ _ _ => true
  | .sldc _ _ _ _ _ => true
  | .sldlit _ _ _ => true
  | .csrr _ _ _ => true
  | .csrw _ _ _ => true
  | .ld _ _ _ _ s => decide (s.toNat ≤ 2)
  | .st _ _ _ _ s => decide (s.toNat ≤ 2)
  | .ldb _ _ _ _ s => decide (s.toNat ≤ 1)
  | .ldh _ _ _ _ s => decide (s.toNat ≤ 1)
  | .stb _ _ _ _ => true
  | .sth _ _ _ _ => true
  | .ldx _ _ _ _ s => decide (s.toNat ≤ 1)
  | .stx _ _ _ _ s => decide (s.toNat ≤ 1)
  | .pref _ _ _ s => decide (s.toNat ≤ 2)
  | .evict _ _ _ s => decide (s.toNat ≤ 2)
  | .bload _ _ _ _ => true
  | .bset _ _ _ => true
  | .aadd _ _ _ _ _ => true
  | .amin _ _ _ _ _ => true
  | .amax _ _ _ _ _ => true
  | .aumin _ _ _ _ _ => true
  | .aumax _ _ _ _ _ => true
  | .aand _ _ _ _ _ => true
  | .aor _ _ _ _ _ => true
  | .axor _ _ _ _ _ => true
  | .axchg _ _ _ _ _ => true
  | .acas _ _ _ _ _ => true
  | .afadd _ _ _ _ _ => true
  | .copy _ _ _ _ _ => true
  | .sealBatch _ _ => true
  | .waitb _ _ => true
  | .fence _ k p => decide (k.toNat ≤ 2 ∧ p.toNat ≤ 3)
  | .append _ _ _ _ => true
  | .bra _ _ => true
  | .brm _ _ _ => true
  | .brmn _ _ _ => true
  | .brs _ _ _ => true
  | .brsz _ _ _ => true
  | .call _ _ => true
  | .ret _ => true
  | .jmpi _ _ _ => true
  | .calli _ _ _ => true
  | .lpad _ _ => true
  | .split _ _ => true
  | .join _ _ => true
  | .drop _ _ => true
  | .bar _ _ => true
  | .exit _ => true
  | .trap _ _ => true
  | .enter _ _ => true
  | .leave _ => true
  | .spawn _ _ => true
  | .chwait _ => true
  | .yield _ => true
  | .cclr _ _ => true
  | .lobe _ y _ _ _ => decide (y.toNat ≤ 4)
  | .lmix _ _ _ _ => true
  | .layer _ _ _ _ => true
  | .lscl _ _ _ => true
  | .frame _ _ _ => true
  | .samp _ _ _ _ => true
  | .eval _ _ _ _ => true
  | .pdf _ _ _ _ => true
  | .csave _ _ _ _ => true
  | .cload _ _ _ _ => true
  | .trace _ _ _ _ => true
  | .tracep _ _ _ _ => true
  | .visq _ _ _ => true
  | .pslot _ _ _ => true
  | .pfree _ _ _ => true
  | .qpush _ _ _ _ => true
  | .regrp _ _ _ => true
  | .tfeed _ _ _ _ => true
  | .tdrain _ _ _ _ => true
  | .trel _ _ => true
  | .mma _ _ _ _ _ _ _ => true
  | .mmaPair _ _ _ _ _ _ _ => true
  | .mguid _ _ _ => true
  | .mzero _ _ => true
  | .mcvt _ _ _ => true
  | .mwait _ _ => true
  | .ctab _ _ _ => true
  | .tlbw _ _ => true
  | .tlbi _ k _ => decide (k.toNat ≤ 1)
  | .hret _ => true
  | .hretEnd _ => true
  | .bkpt _ _ => true
  | .snap _ _ _ => true
  | .hostTailWrite _ _ => true
  | .launchAdmit _ _ => true
  | .tailorRun _ => true
  | .workgroupPlace _ _ _ _ _ => true
  | .groupFormTimeout _ _ _ => true
  | .varLatencyComplete _ _ => true
  | .rayWalkComplete _ _ => true
  | .visqComplete _ _ => true
  | .copyComplete _ _ => true
  | .patternTableEnter _ => true
  | .patternEntryIssue _ => true
  | .patternEntryComplete _ => true
  | .storePerformAtHome _ => true
  | .l1WriteBack _ _ => true
  | .leaseExpiry _ _ _ => true
  | .fenceReleaseComplete _ => true
  | .appendGrant _ => true
  | .groupRetire _ => true
  | .completionRecordWrite _ => true
  | .workgroupSaveOut _ => true
  | .workgroupRestore _ _ _ => true
  | .taskCommit _ => true
  | .issueStarvation _ _ => true
  | .frontierAgeLimit _ => true
  | .tlbMissWalk _ => true
  | .pageReportWrite => true
  | .handlerStart _ => true
  | .preempt _ => true
  | .contextMakeResident _ _ => true
  | .hangWatchdog _ => true
  | .eccCorrectable _ _ => true
  | .eccUncorrectable _ _ _ _ => true
  | .deviceStart _ => true
  | .firmwareReadyTimeout => true
  | .peerLeaveAnnounce _ => true
  | .peerSilenceTimeout _ => true
  | .peerJoin _ _ => true
  | .timeJoinComplete _ => true
  | .presentCheck => true
  | .presentInstant => true
  | .hostCxlMemWrite _ _ => true
  | .hostCxlMemRead _ _ => true
  | .sampleRecord _ _ _ _ => true
  | .mbevtWrite _ => true
  | .mailboxRegisterWrite _ _ => true
  | .mailboxUnknown => true
  | .ctxCreate => true
  | .ctxDestroy => true
  | .map => true
  | .hemResume => true
  | .unmap => true
  | .faultRing => true
  | .queueSetup => true
  | .queueClose => true
  | .poolSetup => true
  | .queueReset => true
  | .traceArm => true
  | .traceStatus => true
  | .peerExport => true
  | .peerImport => true
  | .framelock => true
  | .frameSource => true
  | .frameStatus => true
  | .attest => true
  | .pocketRead => true
  | .dbgAttach => true
  | .dbgDetach => true
  | .dbgHalt => true
  | .dbgResume => true
  | .dbgBreak => true
  | .dbgWatch => true
  | .dbgRead => true
  | .dbgWrite => true
  | .dbgSample => true
  | .dbgEvents => true
  | .ctxPreempt => true
  | .ctxRestore => true
  | .unitMap => true
  | .illegalEncoding _ => true
  | .fetchFault _ _ => true
  | .cxlCacheSnoop _ _ => true
  | .peerAccess _ _ _ _ => true
  | .ideStreamSetup => true
  | .partitionChange _ => true
  | .thermalClockLimit _ => true

end Sys2Proof
end

