-- ==== Sys2Proof/Decode.lean ====
section
/-!
DEFINITION. Decoding a 32-bit word (R34, R35, R53) and encoding an instruction.
`decodeWord` is total: it answers an instruction or says why the word is none. The encoding tables are those of the
opcode map (R53 to R60) and of the field layouts of the chapters it names.
-/

namespace Sys2Proof

/-- Why a word is no instruction (R34, R54). -/
inductive Reject where
  /-- `BT` is 1 in class 0, 1 or 14 (R34). -/
  | btSet
  /-- A reserved bit is not zero (R34). -/
  | reservedBits
  /-- A field holds a reserved enumerated value (R54). -/
  | reservedValue
  /-- The opcode field holds an unassigned value (R54). -/
  | unassigned
  /-- `MOVI` with `A` other than `ZERO` (R111). -/
  | moviSource
  deriving DecidableEq, Repr

/-- Bits [lo + len - 1 : lo] of a number. -/
def bitsAt (n lo len : Nat) : Nat := n / 2 ^ lo % 2 ^ len

/-- The same bits as a field. -/
def field (n lo len : Nat) : BitVec len := BitVec.ofNat len (bitsAt n lo len)

/-- The bits [lo + len - 1 : lo] are those of `v`. -/
def bitsAre (n lo len v : Nat) : Bool := bitsAt n lo len == v

/-- The instruction, when its enumerated values are assigned (R54) and its reserved bits are zero (R34). -/
def accept (reservedZero : Bool) (i : Instr) : Except Reject Instr :=
  if reservedZero then (if i.wf then .ok i else .error .reservedValue) else .error .reservedBits

/-- Class 0, the clause header (R40). -/
def decodeClass0 (n : Nat) : Except Reject Instr :=
  if bitsAre n 27 1 0 then accept (true) (.clauseHeader (field n 15 12) (field n 11 4) (field n 7 4) (field n 3 4) (field n 0 3)) else .error .btSet

/-- Class 1, by its opcode field [26:22] (R53). -/
def decodeClass1 (n : Nat) : Except Reject Instr :=
  if bitsAre n 27 1 0 then
    match bitsAt n 22 5 with
    | 0 => accept (bitsAre n 0 22 0) .nop
    | 1 => accept (true) (.ximm (field n 0 22))
    | 2 => accept (true) (.ximmf (field n 0 22))
    | 3 => accept (bitsAre n 6 16 0) (.xscl (field n 0 6))
    | 4 => accept (bitsAre n 11 11 0) (.xrnd (field n 10 1) (field n 9 1) (field n 3 6) (field n 0 3))
    | 5 => accept (bitsAre n 2 20 0) (.xevc (field n 0 2))
    | 6 => accept (bitsAre n 2 20 0) (.xscp (field n 0 2))
    | 7 => accept (bitsAre n 0 22 0) .xpart
    | _ => .error .unassigned
  else .error .btSet

/-- Class 2, by its opcode field [26:24] (R53). -/
def decodeClass2 (n : Nat) : Except Reject Instr :=
  match bitsAt n 24 3 with
  | 0 => accept (true) (.fadd (field n 27 1) (field n 16 8) (field n 8 8) (field n 0 8))
  | 1 => accept (true) (.fsub (field n 27 1) (field n 16 8) (field n 8 8) (field n 0 8))
  | 2 => accept (true) (.fmul (field n 27 1) (field n 16 8) (field n 8 8) (field n 0 8))
  | 3 => accept (true) (.fmac (field n 27 1) (field n 16 8) (field n 8 8) (field n 0 8))
  | 4 => accept (true) (.fmsb (field n 27 1) (field n 16 8) (field n 8 8) (field n 0 8))
  | 5 => accept (true) (.fmin (field n 27 1) (field n 16 8) (field n 8 8) (field n 0 8))
  | 6 => accept (true) (.fmax (field n 27 1) (field n 16 8) (field n 8 8) (field n 0 8))
  | 7 => accept (true) (.fcps (field n 27 1) (field n 16 8) (field n 8 8) (field n 0 8))
  | _ => .error .unassigned

/-- Class 3, by its opcode field [26:24] (R53). -/
def decodeClass3 (n : Nat) : Except Reject Instr :=
  match bitsAt n 24 3 with
  | 0 => accept (true) (.iadd (field n 27 1) (field n 16 8) (field n 8 8) (field n 0 8))
  | 1 => accept (true) (.isub (field n 27 1) (field n 16 8) (field n 8 8) (field n 0 8))
  | 2 => accept (true) (.imul (field n 27 1) (field n 16 8) (field n 8 8) (field n 0 8))
  | 3 => accept (true) (.imulh (field n 27 1) (field n 16 8) (field n 8 8) (field n 0 8))
  | 4 => accept (true) (.umulh (field n 27 1) (field n 16 8) (field n 8 8) (field n 0 8))
  | 5 => accept (true) (.imac (field n 27 1) (field n 16 8) (field n 8 8) (field n 0 8))
  | 6 => accept (true) (.imin (field n 27 1) (field n 16 8) (field n 8 8) (field n 0 8))
  | 7 => accept (true) (.imax (field n 27 1) (field n 16 8) (field n 8 8) (field n 0 8))
  | _ => .error .unassigned

/-- Class 4, by its opcode field [26:24] (R53). -/
def decodeClass4 (n : Nat) : Except Reject Instr :=
  match bitsAt n 24 3 with
  | 0 => accept (true) (.and (field n 27 1) (field n 16 8) (field n 8 8) (field n 0 8))
  | 1 => accept (true) (.or (field n 27 1) (field n 16 8) (field n 8 8) (field n 0 8))
  | 2 => accept (true) (.xor (field n 27 1) (field n 16 8) (field n 8 8) (field n 0 8))
  | 3 => accept (true) (.andn (field n 27 1) (field n 16 8) (field n 8 8) (field n 0 8))
  | 4 => accept (true) (.shl (field n 27 1) (field n 16 8) (field n 8 8) (field n 0 8))
  | 5 => accept (true) (.shr (field n 27 1) (field n 16 8) (field n 8 8) (field n 0 8))
  | 6 => accept (true) (.sar (field n 27 1) (field n 16 8) (field n 8 8) (field n 0 8))
  | 7 => accept (true) (.rot (field n 27 1) (field n 16 8) (field n 8 8) (field n 0 8))
  | _ => .error .unassigned

/-- Class 5, by its opcode field [26:24] (R53). -/
def decodeClass5 (n : Nat) : Except Reject Instr :=
  match bitsAt n 24 3 with
  | 0 => accept (true) (.hadd2 (field n 27 1) (field n 16 8) (field n 8 8) (field n 0 8))
  | 1 => accept (true) (.hmul2 (field n 27 1) (field n 16 8) (field n 8 8) (field n 0 8))
  | 2 => accept (true) (.hmac2 (field n 27 1) (field n 16 8) (field n 8 8) (field n 0 8))
  | 3 => accept (true) (.badd2 (field n 27 1) (field n 16 8) (field n 8 8) (field n 0 8))
  | 4 => accept (true) (.bmul2 (field n 27 1) (field n 16 8) (field n 8 8) (field n 0 8))
  | 5 => accept (true) (.bmac2 (field n 27 1) (field n 16 8) (field n 8 8) (field n 0 8))
  | 6 => accept (true) (.umin (field n 27 1) (field n 16 8) (field n 8 8) (field n 0 8))
  | 7 => accept (true) (.umax (field n 27 1) (field n 16 8) (field n 8 8) (field n 0 8))
  | _ => .error .unassigned

/-- Class 6, by its opcode field [26:24] (R53). -/
def decodeClass6 (n : Nat) : Except Reject Instr :=
  match bitsAt n 24 3 with
  | 0 => accept (true) (.dadd (field n 27 1) (field n 16 8) (field n 8 8) (field n 0 8))
  | 1 => accept (true) (.dmul (field n 27 1) (field n 16 8) (field n 8 8) (field n 0 8))
  | 2 => accept (true) (.dmac (field n 27 1) (field n 16 8) (field n 8 8) (field n 0 8))
  | 3 => accept (true) (.dot4 (field n 27 1) (field n 16 8) (field n 8 8) (field n 0 8))
  | 4 => accept (true) (.dot8 (field n 27 1) (field n 16 8) (field n 8 8) (field n 0 8))
  | 5 => accept (true) (.hdot2 (field n 27 1) (field n 16 8) (field n 8 8) (field n 0 8))
  | 6 => accept (true) (.prmt (field n 27 1) (field n 16 8) (field n 8 8) (field n 0 8))
  | 7 => accept (true) (.rnd (field n 27 1) (field n 16 8) (field n 8 8) (field n 0 8))
  | _ => .error .unassigned

/-- Class 7, by its opcode field [26:21] (R53). -/
def decodeClass7 (n : Nat) : Except Reject Instr :=
  match bitsAt n 21 6 with
  | 0 => accept (true) (.mov (field n 27 1) (field n 16 5) (field n 8 8) (field n 0 8))
  | 1 => accept (true) (.fneg (field n 27 1) (field n 16 5) (field n 8 8) (field n 0 8))
  | 2 => accept (true) (.fabs (field n 27 1) (field n 16 5) (field n 8 8) (field n 0 8))
  | 3 => accept (bitsAre n 16 5 0) (.frcp (field n 27 1) (field n 8 8) (field n 0 8))
  | 4 => accept (bitsAre n 16 5 0) (.frsq (field n 27 1) (field n 8 8) (field n 0 8))
  | 5 => accept (bitsAre n 16 5 0) (.fsqrt (field n 27 1) (field n 8 8) (field n 0 8))
  | 6 => accept (bitsAre n 16 5 0) (.fexp2 (field n 27 1) (field n 8 8) (field n 0 8))
  | 7 => accept (bitsAre n 16 5 0) (.flog2 (field n 27 1) (field n 8 8) (field n 0 8))
  | 8 => accept (bitsAre n 16 5 0) (.fsinp (field n 27 1) (field n 8 8) (field n 0 8))
  | 9 => accept (bitsAre n 16 5 0) (.fcosp (field n 27 1) (field n 8 8) (field n 0 8))
  | 10 => accept (bitsAre n 16 5 0) (.ftanh (field n 27 1) (field n 8 8) (field n 0 8))
  | 11 => accept (true) (.frint (field n 27 1) (field n 16 5) (field n 8 8) (field n 0 8))
  | 12 => accept (bitsAre n 16 5 0) (.ffrac (field n 27 1) (field n 8 8) (field n 0 8))
  | 13 => accept (true) (.fclass (field n 27 1) (field n 16 5) (field n 8 8) (field n 0 8))
  | 14 => accept (true) (.cvt (field n 27 1) (field n 16 5) (field n 8 8) (field n 0 8))
  | 15 => accept (true) (.qnt (field n 27 1) (field n 18 3) (field n 16 2) (field n 8 8) (field n 0 8))
  | 16 => accept (true) (.dqnt (field n 27 1) (field n 18 3) (field n 16 2) (field n 8 8) (field n 0 8))
  | 17 => accept (bitsAre n 16 5 0) (.popc (field n 27 1) (field n 8 8) (field n 0 8))
  | 18 => accept (bitsAre n 16 5 0) (.clz (field n 27 1) (field n 8 8) (field n 0 8))
  | 19 => accept (bitsAre n 16 5 0) (.brev (field n 27 1) (field n 8 8) (field n 0 8))
  | 20 => accept (bitsAre n 16 5 0) (.bfind (field n 27 1) (field n 8 8) (field n 0 8))
  | 21 => accept (bitsAre n 16 5 0) (.ineg (field n 27 1) (field n 8 8) (field n 0 8))
  | 22 => accept (bitsAre n 16 5 0) (.iabs (field n 27 1) (field n 8 8) (field n 0 8))
  | 23 => accept (bitsAre n 16 5 0) (.dsqrt (field n 27 1) (field n 8 8) (field n 0 8))
  | 24 => accept (bitsAre n 16 5 0) (.drcp (field n 27 1) (field n 8 8) (field n 0 8))
  | _ => .error .unassigned

/-- Class 8, by its opcode field [26:23] (R53). -/
def decodeClass8 (n : Nat) : Except Reject Instr :=
  match bitsAt n 23 4 with
  | 0 => accept (true) (.iaddi (field n 27 1) (field n 15 8) (field n 7 8) (field n 0 7))
  | 1 => accept (true) (.imuli (field n 27 1) (field n 15 8) (field n 7 8) (field n 0 7))
  | 2 => accept (bitsAre n 5 2 0) (.shli (field n 27 1) (field n 15 8) (field n 7 8) (field n 0 5))
  | 3 => accept (bitsAre n 5 2 0) (.shri (field n 27 1) (field n 15 8) (field n 7 8) (field n 0 5))
  | 4 => accept (bitsAre n 5 2 0) (.sari (field n 27 1) (field n 15 8) (field n 7 8) (field n 0 5))
  | 5 => accept (true) (.andi (field n 27 1) (field n 15 8) (field n 7 8) (field n 0 7))
  | 6 => accept (true) (.ori (field n 27 1) (field n 15 8) (field n 7 8) (field n 0 7))
  | 7 => accept (true) (.xori (field n 27 1) (field n 15 8) (field n 7 8) (field n 0 7))
  | 8 => if bitsAre n 7 8 244 then accept true (.movi (field n 27 1) (field n 15 8) (field n 0 7)) else .error .moviSource
  | _ => .error .unassigned

/-- Class 9, by its opcode field [26:22] (R53). -/
def decodeClass9 (n : Nat) : Except Reject Instr :=
  match bitsAt n 22 5 with
  | 0 => accept (true) (.fsetEq (field n 27 1) (field n 20 2) (field n 16 4) (field n 8 8) (field n 0 8))
  | 1 => accept (true) (.fsetNe (field n 27 1) (field n 20 2) (field n 16 4) (field n 8 8) (field n 0 8))
  | 2 => accept (true) (.fsetLt (field n 27 1) (field n 20 2) (field n 16 4) (field n 8 8) (field n 0 8))
  | 3 => accept (true) (.fsetLe (field n 27 1) (field n 20 2) (field n 16 4) (field n 8 8) (field n 0 8))
  | 4 => accept (true) (.fsetGt (field n 27 1) (field n 20 2) (field n 16 4) (field n 8 8) (field n 0 8))
  | 5 => accept (true) (.fsetGe (field n 27 1) (field n 20 2) (field n 16 4) (field n 8 8) (field n 0 8))
  | 6 => accept (true) (.fsetUn (field n 27 1) (field n 20 2) (field n 16 4) (field n 8 8) (field n 0 8))
  | 7 => accept (true) (.fsetOr (field n 27 1) (field n 20 2) (field n 16 4) (field n 8 8) (field n 0 8))
  | 8 => accept (true) (.isetEq (field n 27 1) (field n 20 2) (field n 16 4) (field n 8 8) (field n 0 8))
  | 9 => accept (true) (.isetNe (field n 27 1) (field n 20 2) (field n 16 4) (field n 8 8) (field n 0 8))
  | 10 => accept (true) (.isetLt (field n 27 1) (field n 20 2) (field n 16 4) (field n 8 8) (field n 0 8))
  | 11 => accept (true) (.isetLe (field n 27 1) (field n 20 2) (field n 16 4) (field n 8 8) (field n 0 8))
  | 12 => accept (true) (.isetGt (field n 27 1) (field n 20 2) (field n 16 4) (field n 8 8) (field n 0 8))
  | 13 => accept (true) (.isetGe (field n 27 1) (field n 20 2) (field n 16 4) (field n 8 8) (field n 0 8))
  | 14 => accept (true) (.usetLt (field n 27 1) (field n 20 2) (field n 16 4) (field n 8 8) (field n 0 8))
  | 15 => accept (true) (.usetLe (field n 27 1) (field n 20 2) (field n 16 4) (field n 8 8) (field n 0 8))
  | 16 => accept (true) (.usetGt (field n 27 1) (field n 20 2) (field n 16 4) (field n 8 8) (field n 0 8))
  | 17 => accept (true) (.usetGe (field n 27 1) (field n 20 2) (field n 16 4) (field n 8 8) (field n 0 8))
  | 18 => accept (bitsAre n 3 5 0 && bitsAre n 20 2 0) (.mlog (field n 27 1) (field n 16 4) (field n 12 4) (field n 8 4) (field n 0 3))
  | 19 => accept (bitsAre n 20 2 0) (.cmov (field n 27 1) (field n 16 4) (field n 8 8) (field n 0 8))
  | 20 => accept (bitsAre n 16 3 0) (.shfl (field n 27 1) (field n 19 3) (field n 8 8) (field n 0 8))
  | 21 => accept (true) (.shflXor (field n 27 1) (field n 16 6) (field n 8 8) (field n 0 8))
  | 22 => accept (true) (.shflUp (field n 27 1) (field n 16 6) (field n 8 8) (field n 0 8))
  | 23 => accept (true) (.shflDn (field n 27 1) (field n 16 6) (field n 8 8) (field n 0 8))
  | 24 => accept (true) (.shflIdx (field n 27 1) (field n 16 6) (field n 8 8) (field n 0 8))
  | 25 => accept (bitsAre n 0 12 0) (.vote (field n 27 1) (field n 20 2) (field n 16 4) (field n 12 4))
  | 26 => accept (bitsAre n 8 8 0) (.ballot (field n 27 1) (field n 16 6) (field n 0 8))
  | 27 => accept (bitsAre n 11 5 0) (.gred (field n 27 1) (field n 16 6) (field n 8 3) (field n 0 8))
  | 28 => accept (bitsAre n 0 10 0 && bitsAre n 20 1 0) (.mmov (field n 27 1) (field n 21 1) (field n 16 4) (field n 10 6))
  | 29 => accept (bitsAre n 0 16 0 && bitsAre n 20 2 0) (.mact (field n 27 1) (field n 16 4))
  | _ => .error .unassigned

/-- Class 10, by its opcode field [26:22] (R53). -/
def decodeClass10 (n : Nat) : Except Reject Instr :=
  match bitsAt n 22 5 with
  | 0 => accept (bitsAre n 0 4 0) (.sadd (field n 27 1) (field n 16 6) (field n 10 6) (field n 4 6))
  | 1 => accept (bitsAre n 0 4 0) (.ssub (field n 27 1) (field n 16 6) (field n 10 6) (field n 4 6))
  | 2 => accept (bitsAre n 0 4 0) (.smul (field n 27 1) (field n 16 6) (field n 10 6) (field n 4 6))
  | 3 => accept (bitsAre n 0 4 0) (.sand (field n 27 1) (field n 16 6) (field n 10 6) (field n 4 6))
  | 4 => accept (bitsAre n 0 4 0) (.sor (field n 27 1) (field n 16 6) (field n 10 6) (field n 4 6))
  | 5 => accept (bitsAre n 0 4 0) (.sxor (field n 27 1) (field n 16 6) (field n 10 6) (field n 4 6))
  | 6 => accept (bitsAre n 0 4 0) (.sshl (field n 27 1) (field n 16 6) (field n 10 6) (field n 4 6))
  | 7 => accept (bitsAre n 0 4 0) (.sshr (field n 27 1) (field n 16 6) (field n 10 6) (field n 4 6))
  | 8 => accept (bitsAre n 0 4 0) (.ssar (field n 27 1) (field n 16 6) (field n 10 6) (field n 4 6))
  | 9 => accept (bitsAre n 0 4 0) (.smin (field n 27 1) (field n 16 6) (field n 10 6) (field n 4 6))
  | 10 => accept (bitsAre n 0 4 0) (.smax (field n 27 1) (field n 16 6) (field n 10 6) (field n 4 6))
  | 11 => accept (true) (.saddi (field n 27 1) (field n 16 6) (field n 10 6) (field n 0 10))
  | 12 => accept (true) (.smovi (field n 27 1) (field n 16 6) (field n 0 16))
  | 13 => accept (true) (.smovhi (field n 27 1) (field n 16 6) (field n 0 16))
  | 14 => accept (true) (.sset (field n 27 1) (field n 16 6) (field n 10 6) (field n 4 6) (field n 0 4))
  | 15 => accept (bitsAre n 0 2 0) (.vread (field n 27 1) (field n 16 6) (field n 10 6) (field n 2 8))
  | 16 => accept (true) (.sldc (field n 27 1) (field n 16 6) (field n 10 6) (field n 5 5) (field n 0 5))
  | 17 => accept (true) (.sldlit (field n 27 1) (field n 16 6) (field n 0 16))
  | 18 => accept (bitsAre n 12 4 0) (.csrr (field n 27 1) (field n 16 6) (field n 0 12))
  | 19 => accept (bitsAre n 12 4 0) (.csrw (field n 27 1) (field n 16 6) (field n 0 12))
  | _ => .error .unassigned

/-- Class 11, by its opcode field [26:23] (R53). -/
def decodeClass11 (n : Nat) : Except Reject Instr :=
  match bitsAt n 23 4 with
  | 0 => accept (true) (.ld (field n 27 1) (field n 18 5) (field n 10 8) (field n 2 8) (field n 0 2))
  | 1 => accept (true) (.st (field n 27 1) (field n 18 5) (field n 10 8) (field n 2 8) (field n 0 2))
  | 2 => accept (true) (.ldb (field n 27 1) (field n 18 5) (field n 10 8) (field n 2 8) (field n 0 2))
  | 3 => accept (true) (.ldh (field n 27 1) (field n 18 5) (field n 10 8) (field n 2 8) (field n 0 2))
  | 4 => accept (bitsAre n 0 2 0) (.stb (field n 27 1) (field n 18 5) (field n 10 8) (field n 2 8))
  | 5 => accept (bitsAre n 0 2 0) (.sth (field n 27 1) (field n 18 5) (field n 10 8) (field n 2 8))
  | 6 => accept (true) (.ldx (field n 27 1) (field n 18 5) (field n 10 8) (field n 2 8) (field n 0 2))
  | 7 => accept (true) (.stx (field n 27 1) (field n 18 5) (field n 10 8) (field n 2 8) (field n 0 2))
  | 8 => accept (bitsAre n 10 8 0) (.pref (field n 27 1) (field n 18 5) (field n 2 8) (field n 0 2))
  | 9 => accept (bitsAre n 10 8 0) (.evict (field n 27 1) (field n 18 5) (field n 2 8) (field n 0 2))
  | 10 => accept (bitsAre n 0 2 0 && bitsAre n 15 3 0) (.bload (field n 27 1) (field n 18 5) (field n 10 5) (field n 2 8))
  | 11 => accept (bitsAre n 0 10 0 && bitsAre n 16 2 0) (.bset (field n 27 1) (field n 18 5) (field n 10 6))
  | _ => .error .unassigned

/-- Class 12, by its opcode field [26:23] (R53). -/
def decodeClass12 (n : Nat) : Except Reject Instr :=
  match bitsAt n 23 4 with
  | 0 => accept (true) (.aadd (field n 27 1) (field n 18 5) (field n 10 8) (field n 2 8) (field n 0 2))
  | 1 => accept (true) (.amin (field n 27 1) (field n 18 5) (field n 10 8) (field n 2 8) (field n 0 2))
  | 2 => accept (true) (.amax (field n 27 1) (field n 18 5) (field n 10 8) (field n 2 8) (field n 0 2))
  | 3 => accept (true) (.aumin (field n 27 1) (field n 18 5) (field n 10 8) (field n 2 8) (field n 0 2))
  | 4 => accept (true) (.aumax (field n 27 1) (field n 18 5) (field n 10 8) (field n 2 8) (field n 0 2))
  | 5 => accept (true) (.aand (field n 27 1) (field n 18 5) (field n 10 8) (field n 2 8) (field n 0 2))
  | 6 => accept (true) (.aor (field n 27 1) (field n 18 5) (field n 10 8) (field n 2 8) (field n 0 2))
  | 7 => accept (true) (.axor (field n 27 1) (field n 18 5) (field n 10 8) (field n 2 8) (field n 0 2))
  | 8 => accept (true) (.axchg (field n 27 1) (field n 18 5) (field n 10 8) (field n 2 8) (field n 0 2))
  | 9 => accept (true) (.acas (field n 27 1) (field n 18 5) (field n 10 8) (field n 2 8) (field n 0 2))
  | 10 => accept (true) (.afadd (field n 27 1) (field n 18 5) (field n 10 8) (field n 2 8) (field n 0 2))
  | 11 => accept (bitsAre n 0 1 0) (.copy (field n 27 1) (field n 18 5) (field n 13 5) (field n 7 6) (field n 1 6))
  | 12 => accept (bitsAre n 6 17 0) (.sealBatch (field n 27 1) (field n 0 6))
  | 13 => accept (bitsAre n 6 17 0) (.waitb (field n 27 1) (field n 0 6))
  | 14 => accept (bitsAre n 5 18 0) (.fence (field n 27 1) (field n 3 2) (field n 0 3))
  | 15 => accept (bitsAre n 0 2 0) (.append (field n 27 1) (field n 18 5) (field n 10 8) (field n 2 8))
  | _ => .error .unassigned

/-- Class 13, by its opcode field [26:22] (R53). -/
def decodeClass13 (n : Nat) : Except Reject Instr :=
  match bitsAt n 22 5 with
  | 0 => accept (bitsAre n 18 4 0) (.bra (field n 27 1) (field n 0 18))
  | 1 => accept (true) (.brm (field n 27 1) (field n 18 4) (field n 0 18))
  | 2 => accept (true) (.brmn (field n 27 1) (field n 18 4) (field n 0 18))
  | 3 => accept (true) (.brs (field n 27 1) (field n 16 6) (field n 0 16))
  | 4 => accept (true) (.brsz (field n 27 1) (field n 16 6) (field n 0 16))
  | 5 => accept (bitsAre n 18 4 0) (.call (field n 27 1) (field n 0 18))
  | 6 => accept (bitsAre n 0 22 0) (.ret (field n 27 1))
  | 7 => accept (bitsAre n 16 6 0) (.jmpi (field n 27 1) (field n 8 8) (field n 0 8))
  | 8 => accept (bitsAre n 16 6 0) (.calli (field n 27 1) (field n 8 8) (field n 0 8))
  | 9 => accept (bitsAre n 8 14 0) (.lpad (field n 27 1) (field n 0 8))
  | 10 => accept (bitsAre n 3 19 0) (.split (field n 27 1) (field n 0 3))
  | 11 => accept (bitsAre n 3 19 0) (.join (field n 27 1) (field n 0 3))
  | 12 => accept (bitsAre n 3 19 0) (.drop (field n 27 1) (field n 0 3))
  | 13 => accept (bitsAre n 4 18 0) (.bar (field n 27 1) (field n 0 4))
  | 14 => accept (bitsAre n 0 22 0) (.exit (field n 27 1))
  | 15 => accept (bitsAre n 16 6 0) (.trap (field n 27 1) (field n 0 16))
  | 16 => accept (bitsAre n 16 6 0) (.enter (field n 27 1) (field n 0 16))
  | 17 => accept (bitsAre n 0 22 0) (.leave (field n 27 1))
  | 18 => accept (bitsAre n 0 16 0) (.spawn (field n 27 1) (field n 16 6))
  | 19 => accept (bitsAre n 0 22 0) (.chwait (field n 27 1))
  | 20 => accept (bitsAre n 0 22 0) (.yield (field n 27 1))
  | _ => .error .unassigned

/-- Class 14, the literal pool (R47). -/
def decodeClass14 (n : Nat) : Except Reject Instr :=
  if bitsAre n 27 1 0 then accept (bitsAre n 12 15 0) (.pool (field n 0 12)) else .error .btSet

/-- Class 15, by its opcode field [26:22] (R53). -/
def decodeClass15 (n : Nat) : Except Reject Instr :=
  match bitsAt n 22 5 with
  | 0 => accept (bitsAre n 0 16 0 && bitsAre n 18 4 0) (.cclr (field n 27 1) (field n 16 2))
  | 1 => accept (true) (.lobe (field n 27 1) (field n 18 4) (field n 16 2) (field n 8 8) (field n 0 8))
  | 2 => accept (bitsAre n 8 6 0 && bitsAre n 18 4 0) (.lmix (field n 27 1) (field n 16 2) (field n 14 2) (field n 0 8))
  | 3 => accept (bitsAre n 8 6 0 && bitsAre n 18 4 0) (.layer (field n 27 1) (field n 16 2) (field n 14 2) (field n 0 8))
  | 4 => accept (bitsAre n 8 8 0 && bitsAre n 18 4 0) (.lscl (field n 27 1) (field n 16 2) (field n 0 8))
  | 5 => accept (bitsAre n 0 8 0 && bitsAre n 18 4 0) (.frame (field n 27 1) (field n 16 2) (field n 8 8))
  | 6 => accept (bitsAre n 18 4 0) (.samp (field n 27 1) (field n 16 2) (field n 8 8) (field n 0 8))
  | 7 => accept (bitsAre n 18 4 0) (.eval (field n 27 1) (field n 16 2) (field n 8 8) (field n 0 8))
  | 8 => accept (bitsAre n 18 4 0) (.pdf (field n 27 1) (field n 16 2) (field n 8 8) (field n 0 8))
  | 9 => accept (bitsAre n 8 3 0 && bitsAre n 18 4 0) (.csave (field n 27 1) (field n 16 2) (field n 11 5) (field n 0 8))
  | 10 => accept (bitsAre n 8 3 0 && bitsAre n 18 4 0) (.cload (field n 27 1) (field n 16 2) (field n 11 5) (field n 0 8))
  | 11 => accept (true) (.trace (field n 27 1) (field n 16 6) (field n 8 8) (field n 0 8))
  | 12 => accept (true) (.tracep (field n 27 1) (field n 16 6) (field n 8 8) (field n 0 8))
  | 13 => accept (bitsAre n 0 8 0) (.visq (field n 27 1) (field n 16 6) (field n 8 8))
  | 14 => accept (bitsAre n 6 2 0 && bitsAre n 16 6 0) (.pslot (field n 27 1) (field n 8 8) (field n 0 6))
  | 15 => accept (bitsAre n 6 2 0 && bitsAre n 16 6 0) (.pfree (field n 27 1) (field n 8 8) (field n 0 6))
  | 16 => accept (true) (.qpush (field n 27 1) (field n 16 6) (field n 8 8) (field n 0 8))
  | 17 => accept (bitsAre n 20 2 0) (.regrp (field n 27 1) (field n 8 12) (field n 0 8))
  | 18 => accept (true) (.tfeed (field n 27 1) (field n 16 6) (field n 8 8) (field n 0 8))
  | 19 => accept (bitsAre n 2 6 0) (.tdrain (field n 27 1) (field n 16 6) (field n 8 8) (field n 0 2))
  | 20 => accept (bitsAre n 0 16 0) (.trel (field n 27 1) (field n 16 6))
  | 21 => accept (bitsAre n 5 5 0) (if bitsAre n 2 1 0 then .mma (field n 27 1) (field n 16 6) (field n 10 6) (field n 4 1) (field n 3 1) (field n 1 1) (field n 0 1) else .mmaPair (field n 27 1) (field n 16 6) (field n 10 6) (field n 4 1) (field n 3 1) (field n 1 1) (field n 0 1))
  | 22 => accept (bitsAre n 0 10 0) (.mguid (field n 27 1) (field n 16 6) (field n 10 6))
  | 23 => accept (bitsAre n 0 16 0) (.mzero (field n 27 1) (field n 16 6))
  | 24 => accept (bitsAre n 0 10 0) (.mcvt (field n 27 1) (field n 16 6) (field n 10 6))
  | 25 => accept (bitsAre n 0 16 0) (.mwait (field n 27 1) (field n 16 6))
  | 26 => accept (bitsAre n 0 11 0) (.ctab (field n 27 1) (field n 16 6) (field n 11 5))
  | 27 => accept (bitsAre n 0 16 0) (.tlbw (field n 27 1) (field n 16 6))
  | 28 => accept (bitsAre n 0 10 0 && bitsAre n 16 4 0) (.tlbi (field n 27 1) (field n 20 2) (field n 10 6))
  | 29 => if bitsAre n 1 1 0 then accept (bitsAre n 2 20 0) (if bitsAre n 0 1 0 then .hret (field n 27 1) else .hretEnd (field n 27 1))
      else .error .reservedValue
  | 30 => accept (bitsAre n 16 6 0) (.bkpt (field n 27 1) (field n 0 16))
  | 31 => accept (true) (.snap (field n 27 1) (field n 16 6) (field n 0 16))
  | _ => .error .unassigned

/-- Decoding by number: the class in [31:28] selects the layout (R35). -/
def decodeNat (n : Nat) : Except Reject Instr :=
  match bitsAt n 28 4 with
  | 0 => decodeClass0 n
  | 1 => decodeClass1 n
  | 2 => decodeClass2 n
  | 3 => decodeClass3 n
  | 4 => decodeClass4 n
  | 5 => decodeClass5 n
  | 6 => decodeClass6 n
  | 7 => decodeClass7 n
  | 8 => decodeClass8 n
  | 9 => decodeClass9 n
  | 10 => decodeClass10 n
  | 11 => decodeClass11 n
  | 12 => decodeClass12 n
  | 13 => decodeClass13 n
  | 14 => decodeClass14 n
  | 15 => decodeClass15 n
  | _ => .error .unassigned

/-- The instruction of a word, or why it is none. -/
def decodeWord (w : BitVec 32) : Except Reject Instr := decodeNat w.toNat

/-- The instruction that a table row's word decodes to. Marhar words are 32 bits (R34), stored little-endian, so bit `i`
of the table's number is bit `i` of the word; the bits above `nbits` are zero. -/
def decodeTableWord (nbits w : Nat) : Option Instr :=
  match decodeNat (w % 2 ^ (min nbits 32)) with
  | .ok i => some i
  | .error _ => none

/-- The fields of a word from bit 0 upwards, each with its width. -/
abbrev Layout := List ((k : Nat) × BitVec k)

/-- The number whose fields from bit 0 upwards are those of the layout. -/
def layoutNat : Layout → Nat
  | [] => 0
  | ⟨k, v⟩ :: fs => v.toNat + 2 ^ k * layoutNat fs

/-- The layout of an instruction's word, from bit 0 upwards: its fields, the reserved zeros, the opcode field (R53),
`BT` (R34) and the class (R35). The device steps have no word. -/
def layout : Instr → Option Layout
  | .clauseHeader w a b l p => some [⟨3, p⟩, ⟨4, l⟩, ⟨4, b⟩, ⟨4, a⟩, ⟨12, w⟩, ⟨1, 0#1⟩, ⟨4, 0#4⟩]
  | .nop => some [⟨22, 0#22⟩, ⟨5, 0#5⟩, ⟨1, 0#1⟩, ⟨4, 1#4⟩]
  | .ximm i => some [⟨22, i⟩, ⟨5, 1#5⟩, ⟨1, 0#1⟩, ⟨4, 1#4⟩]
  | .ximmf i => some [⟨22, i⟩, ⟨5, 2#5⟩, ⟨1, 0#1⟩, ⟨4, 1#4⟩]
  | .xscl s => some [⟨6, s⟩, ⟨16, 0#16⟩, ⟨5, 3#5⟩, ⟨1, 0#1⟩, ⟨4, 1#4⟩]
  | .xrnd f s e m => some [⟨3, m⟩, ⟨6, e⟩, ⟨1, s⟩, ⟨1, f⟩, ⟨11, 0#11⟩, ⟨5, 4#5⟩, ⟨1, 0#1⟩, ⟨4, 1#4⟩]
  | .xevc p => some [⟨2, p⟩, ⟨20, 0#20⟩, ⟨5, 5#5⟩, ⟨1, 0#1⟩, ⟨4, 1#4⟩]
  | .xscp p => some [⟨2, p⟩, ⟨20, 0#20⟩, ⟨5, 6#5⟩, ⟨1, 0#1⟩, ⟨4, 1#4⟩]
  | .xpart => some [⟨22, 0#22⟩, ⟨5, 7#5⟩, ⟨1, 0#1⟩, ⟨4, 1#4⟩]
  | .pool c => some [⟨12, c⟩, ⟨15, 0#15⟩, ⟨1, 0#1⟩, ⟨4, 14#4⟩]
  | .fadd bt d a b => some [⟨8, b⟩, ⟨8, a⟩, ⟨8, d⟩, ⟨3, 0#3⟩, ⟨1, bt⟩, ⟨4, 2#4⟩]
  | .fsub bt d a b => some [⟨8, b⟩, ⟨8, a⟩, ⟨8, d⟩, ⟨3, 1#3⟩, ⟨1, bt⟩, ⟨4, 2#4⟩]
  | .fmul bt d a b => some [⟨8, b⟩, ⟨8, a⟩, ⟨8, d⟩, ⟨3, 2#3⟩, ⟨1, bt⟩, ⟨4, 2#4⟩]
  | .fmac bt d a b => some [⟨8, b⟩, ⟨8, a⟩, ⟨8, d⟩, ⟨3, 3#3⟩, ⟨1, bt⟩, ⟨4, 2#4⟩]
  | .fmsb bt d a b => some [⟨8, b⟩, ⟨8, a⟩, ⟨8, d⟩, ⟨3, 4#3⟩, ⟨1, bt⟩, ⟨4, 2#4⟩]
  | .fmin bt d a b => some [⟨8, b⟩, ⟨8, a⟩, ⟨8, d⟩, ⟨3, 5#3⟩, ⟨1, bt⟩, ⟨4, 2#4⟩]
  | .fmax bt d a b => some [⟨8, b⟩, ⟨8, a⟩, ⟨8, d⟩, ⟨3, 6#3⟩, ⟨1, bt⟩, ⟨4, 2#4⟩]
  | .fcps bt d a b => some [⟨8, b⟩, ⟨8, a⟩, ⟨8, d⟩, ⟨3, 7#3⟩, ⟨1, bt⟩, ⟨4, 2#4⟩]
  | .iadd bt d a b => some [⟨8, b⟩, ⟨8, a⟩, ⟨8, d⟩, ⟨3, 0#3⟩, ⟨1, bt⟩, ⟨4, 3#4⟩]
  | .isub bt d a b => some [⟨8, b⟩, ⟨8, a⟩, ⟨8, d⟩, ⟨3, 1#3⟩, ⟨1, bt⟩, ⟨4, 3#4⟩]
  | .imul bt d a b => some [⟨8, b⟩, ⟨8, a⟩, ⟨8, d⟩, ⟨3, 2#3⟩, ⟨1, bt⟩, ⟨4, 3#4⟩]
  | .imulh bt d a b => some [⟨8, b⟩, ⟨8, a⟩, ⟨8, d⟩, ⟨3, 3#3⟩, ⟨1, bt⟩, ⟨4, 3#4⟩]
  | .umulh bt d a b => some [⟨8, b⟩, ⟨8, a⟩, ⟨8, d⟩, ⟨3, 4#3⟩, ⟨1, bt⟩, ⟨4, 3#4⟩]
  | .imac bt d a b => some [⟨8, b⟩, ⟨8, a⟩, ⟨8, d⟩, ⟨3, 5#3⟩, ⟨1, bt⟩, ⟨4, 3#4⟩]
  | .imin bt d a b => some [⟨8, b⟩, ⟨8, a⟩, ⟨8, d⟩, ⟨3, 6#3⟩, ⟨1, bt⟩, ⟨4, 3#4⟩]
  | .imax bt d a b => some [⟨8, b⟩, ⟨8, a⟩, ⟨8, d⟩, ⟨3, 7#3⟩, ⟨1, bt⟩, ⟨4, 3#4⟩]
  | .and bt d a b => some [⟨8, b⟩, ⟨8, a⟩, ⟨8, d⟩, ⟨3, 0#3⟩, ⟨1, bt⟩, ⟨4, 4#4⟩]
  | .or bt d a b => some [⟨8, b⟩, ⟨8, a⟩, ⟨8, d⟩, ⟨3, 1#3⟩, ⟨1, bt⟩, ⟨4, 4#4⟩]
  | .xor bt d a b => some [⟨8, b⟩, ⟨8, a⟩, ⟨8, d⟩, ⟨3, 2#3⟩, ⟨1, bt⟩, ⟨4, 4#4⟩]
  | .andn bt d a b => some [⟨8, b⟩, ⟨8, a⟩, ⟨8, d⟩, ⟨3, 3#3⟩, ⟨1, bt⟩, ⟨4, 4#4⟩]
  | .shl bt d a b => some [⟨8, b⟩, ⟨8, a⟩, ⟨8, d⟩, ⟨3, 4#3⟩, ⟨1, bt⟩, ⟨4, 4#4⟩]
  | .shr bt d a b => some [⟨8, b⟩, ⟨8, a⟩, ⟨8, d⟩, ⟨3, 5#3⟩, ⟨1, bt⟩, ⟨4, 4#4⟩]
  | .sar bt d a b => some [⟨8, b⟩, ⟨8, a⟩, ⟨8, d⟩, ⟨3, 6#3⟩, ⟨1, bt⟩, ⟨4, 4#4⟩]
  | .rot bt d a b => some [⟨8, b⟩, ⟨8, a⟩, ⟨8, d⟩, ⟨3, 7#3⟩, ⟨1, bt⟩, ⟨4, 4#4⟩]
  | .hadd2 bt d a b => some [⟨8, b⟩, ⟨8, a⟩, ⟨8, d⟩, ⟨3, 0#3⟩, ⟨1, bt⟩, ⟨4, 5#4⟩]
  | .hmul2 bt d a b => some [⟨8, b⟩, ⟨8, a⟩, ⟨8, d⟩, ⟨3, 1#3⟩, ⟨1, bt⟩, ⟨4, 5#4⟩]
  | .hmac2 bt d a b => some [⟨8, b⟩, ⟨8, a⟩, ⟨8, d⟩, ⟨3, 2#3⟩, ⟨1, bt⟩, ⟨4, 5#4⟩]
  | .badd2 bt d a b => some [⟨8, b⟩, ⟨8, a⟩, ⟨8, d⟩, ⟨3, 3#3⟩, ⟨1, bt⟩, ⟨4, 5#4⟩]
  | .bmul2 bt d a b => some [⟨8, b⟩, ⟨8, a⟩, ⟨8, d⟩, ⟨3, 4#3⟩, ⟨1, bt⟩, ⟨4, 5#4⟩]
  | .bmac2 bt d a b => some [⟨8, b⟩, ⟨8, a⟩, ⟨8, d⟩, ⟨3, 5#3⟩, ⟨1, bt⟩, ⟨4, 5#4⟩]
  | .umin bt d a b => some [⟨8, b⟩, ⟨8, a⟩, ⟨8, d⟩, ⟨3, 6#3⟩, ⟨1, bt⟩, ⟨4, 5#4⟩]
  | .umax bt d a b => some [⟨8, b⟩, ⟨8, a⟩, ⟨8, d⟩, ⟨3, 7#3⟩, ⟨1, bt⟩, ⟨4, 5#4⟩]
  | .dadd bt d a b => some [⟨8, b⟩, ⟨8, a⟩, ⟨8, d⟩, ⟨3, 0#3⟩, ⟨1, bt⟩, ⟨4, 6#4⟩]
  | .dmul bt d a b => some [⟨8, b⟩, ⟨8, a⟩, ⟨8, d⟩, ⟨3, 1#3⟩, ⟨1, bt⟩, ⟨4, 6#4⟩]
  | .dmac bt d a b => some [⟨8, b⟩, ⟨8, a⟩, ⟨8, d⟩, ⟨3, 2#3⟩, ⟨1, bt⟩, ⟨4, 6#4⟩]
  | .dot4 bt d a b => some [⟨8, b⟩, ⟨8, a⟩, ⟨8, d⟩, ⟨3, 3#3⟩, ⟨1, bt⟩, ⟨4, 6#4⟩]
  | .dot8 bt d a b => some [⟨8, b⟩, ⟨8, a⟩, ⟨8, d⟩, ⟨3, 4#3⟩, ⟨1, bt⟩, ⟨4, 6#4⟩]
  | .hdot2 bt d a b => some [⟨8, b⟩, ⟨8, a⟩, ⟨8, d⟩, ⟨3, 5#3⟩, ⟨1, bt⟩, ⟨4, 6#4⟩]
  | .prmt bt d a b => some [⟨8, b⟩, ⟨8, a⟩, ⟨8, d⟩, ⟨3, 6#3⟩, ⟨1, bt⟩, ⟨4, 6#4⟩]
  | .rnd bt d a b => some [⟨8, b⟩, ⟨8, a⟩, ⟨8, d⟩, ⟨3, 7#3⟩, ⟨1, bt⟩, ⟨4, 6#4⟩]
  | .mov bt m d a => some [⟨8, a⟩, ⟨8, d⟩, ⟨5, m⟩, ⟨6, 0#6⟩, ⟨1, bt⟩, ⟨4, 7#4⟩]
  | .fneg bt m d a => some [⟨8, a⟩, ⟨8, d⟩, ⟨5, m⟩, ⟨6, 1#6⟩, ⟨1, bt⟩, ⟨4, 7#4⟩]
  | .fabs bt m d a => some [⟨8, a⟩, ⟨8, d⟩, ⟨5, m⟩, ⟨6, 2#6⟩, ⟨1, bt⟩, ⟨4, 7#4⟩]
  | .frcp bt d a => some [⟨8, a⟩, ⟨8, d⟩, ⟨5, 0#5⟩, ⟨6, 3#6⟩, ⟨1, bt⟩, ⟨4, 7#4⟩]
  | .frsq bt d a => some [⟨8, a⟩, ⟨8, d⟩, ⟨5, 0#5⟩, ⟨6, 4#6⟩, ⟨1, bt⟩, ⟨4, 7#4⟩]
  | .fsqrt bt d a => some [⟨8, a⟩, ⟨8, d⟩, ⟨5, 0#5⟩, ⟨6, 5#6⟩, ⟨1, bt⟩, ⟨4, 7#4⟩]
  | .fexp2 bt d a => some [⟨8, a⟩, ⟨8, d⟩, ⟨5, 0#5⟩, ⟨6, 6#6⟩, ⟨1, bt⟩, ⟨4, 7#4⟩]
  | .flog2 bt d a => some [⟨8, a⟩, ⟨8, d⟩, ⟨5, 0#5⟩, ⟨6, 7#6⟩, ⟨1, bt⟩, ⟨4, 7#4⟩]
  | .fsinp bt d a => some [⟨8, a⟩, ⟨8, d⟩, ⟨5, 0#5⟩, ⟨6, 8#6⟩, ⟨1, bt⟩, ⟨4, 7#4⟩]
  | .fcosp bt d a => some [⟨8, a⟩, ⟨8, d⟩, ⟨5, 0#5⟩, ⟨6, 9#6⟩, ⟨1, bt⟩, ⟨4, 7#4⟩]
  | .ftanh bt d a => some [⟨8, a⟩, ⟨8, d⟩, ⟨5, 0#5⟩, ⟨6, 10#6⟩, ⟨1, bt⟩, ⟨4, 7#4⟩]
  | .frint bt m d a => some [⟨8, a⟩, ⟨8, d⟩, ⟨5, m⟩, ⟨6, 11#6⟩, ⟨1, bt⟩, ⟨4, 7#4⟩]
  | .ffrac bt d a => some [⟨8, a⟩, ⟨8, d⟩, ⟨5, 0#5⟩, ⟨6, 12#6⟩, ⟨1, bt⟩, ⟨4, 7#4⟩]
  | .fclass bt m d a => some [⟨8, a⟩, ⟨8, d⟩, ⟨5, m⟩, ⟨6, 13#6⟩, ⟨1, bt⟩, ⟨4, 7#4⟩]
  | .cvt bt m d a => some [⟨8, a⟩, ⟨8, d⟩, ⟨5, m⟩, ⟨6, 14#6⟩, ⟨1, bt⟩, ⟨4, 7#4⟩]
  | .qnt bt f p d a => some [⟨8, a⟩, ⟨8, d⟩, ⟨2, p⟩, ⟨3, f⟩, ⟨6, 15#6⟩, ⟨1, bt⟩, ⟨4, 7#4⟩]
  | .dqnt bt f p d a => some [⟨8, a⟩, ⟨8, d⟩, ⟨2, p⟩, ⟨3, f⟩, ⟨6, 16#6⟩, ⟨1, bt⟩, ⟨4, 7#4⟩]
  | .popc bt d a => some [⟨8, a⟩, ⟨8, d⟩, ⟨5, 0#5⟩, ⟨6, 17#6⟩, ⟨1, bt⟩, ⟨4, 7#4⟩]
  | .clz bt d a => some [⟨8, a⟩, ⟨8, d⟩, ⟨5, 0#5⟩, ⟨6, 18#6⟩, ⟨1, bt⟩, ⟨4, 7#4⟩]
  | .brev bt d a => some [⟨8, a⟩, ⟨8, d⟩, ⟨5, 0#5⟩, ⟨6, 19#6⟩, ⟨1, bt⟩, ⟨4, 7#4⟩]
  | .bfind bt d a => some [⟨8, a⟩, ⟨8, d⟩, ⟨5, 0#5⟩, ⟨6, 20#6⟩, ⟨1, bt⟩, ⟨4, 7#4⟩]
  | .ineg bt d a => some [⟨8, a⟩, ⟨8, d⟩, ⟨5, 0#5⟩, ⟨6, 21#6⟩, ⟨1, bt⟩, ⟨4, 7#4⟩]
  | .iabs bt d a => some [⟨8, a⟩, ⟨8, d⟩, ⟨5, 0#5⟩, ⟨6, 22#6⟩, ⟨1, bt⟩, ⟨4, 7#4⟩]
  | .dsqrt bt d a => some [⟨8, a⟩, ⟨8, d⟩, ⟨5, 0#5⟩, ⟨6, 23#6⟩, ⟨1, bt⟩, ⟨4, 7#4⟩]
  | .drcp bt d a => some [⟨8, a⟩, ⟨8, d⟩, ⟨5, 0#5⟩, ⟨6, 24#6⟩, ⟨1, bt⟩, ⟨4, 7#4⟩]
  | .iaddi bt d a i => some [⟨7, i⟩, ⟨8, a⟩, ⟨8, d⟩, ⟨4, 0#4⟩, ⟨1, bt⟩, ⟨4, 8#4⟩]
  | .imuli bt d a i => some [⟨7, i⟩, ⟨8, a⟩, ⟨8, d⟩, ⟨4, 1#4⟩, ⟨1, bt⟩, ⟨4, 8#4⟩]
  | .shli bt d a n => some [⟨5, n⟩, ⟨2, 0#2⟩, ⟨8, a⟩, ⟨8, d⟩, ⟨4, 2#4⟩, ⟨1, bt⟩, ⟨4, 8#4⟩]
  | .shri bt d a n => some [⟨5, n⟩, ⟨2, 0#2⟩, ⟨8, a⟩, ⟨8, d⟩, ⟨4, 3#4⟩, ⟨1, bt⟩, ⟨4, 8#4⟩]
  | .sari bt d a n => some [⟨5, n⟩, ⟨2, 0#2⟩, ⟨8, a⟩, ⟨8, d⟩, ⟨4, 4#4⟩, ⟨1, bt⟩, ⟨4, 8#4⟩]
  | .andi bt d a i => some [⟨7, i⟩, ⟨8, a⟩, ⟨8, d⟩, ⟨4, 5#4⟩, ⟨1, bt⟩, ⟨4, 8#4⟩]
  | .ori bt d a i => some [⟨7, i⟩, ⟨8, a⟩, ⟨8, d⟩, ⟨4, 6#4⟩, ⟨1, bt⟩, ⟨4, 8#4⟩]
  | .xori bt d a i => some [⟨7, i⟩, ⟨8, a⟩, ⟨8, d⟩, ⟨4, 7#4⟩, ⟨1, bt⟩, ⟨4, 8#4⟩]
  | .movi bt d i => some [⟨7, i⟩, ⟨8, 244#8⟩, ⟨8, d⟩, ⟨4, 8#4⟩, ⟨1, bt⟩, ⟨4, 8#4⟩]
  | .fsetEq bt c m a b => some [⟨8, b⟩, ⟨8, a⟩, ⟨4, m⟩, ⟨2, c⟩, ⟨5, 0#5⟩, ⟨1, bt⟩, ⟨4, 9#4⟩]
  | .fsetNe bt c m a b => some [⟨8, b⟩, ⟨8, a⟩, ⟨4, m⟩, ⟨2, c⟩, ⟨5, 1#5⟩, ⟨1, bt⟩, ⟨4, 9#4⟩]
  | .fsetLt bt c m a b => some [⟨8, b⟩, ⟨8, a⟩, ⟨4, m⟩, ⟨2, c⟩, ⟨5, 2#5⟩, ⟨1, bt⟩, ⟨4, 9#4⟩]
  | .fsetLe bt c m a b => some [⟨8, b⟩, ⟨8, a⟩, ⟨4, m⟩, ⟨2, c⟩, ⟨5, 3#5⟩, ⟨1, bt⟩, ⟨4, 9#4⟩]
  | .fsetGt bt c m a b => some [⟨8, b⟩, ⟨8, a⟩, ⟨4, m⟩, ⟨2, c⟩, ⟨5, 4#5⟩, ⟨1, bt⟩, ⟨4, 9#4⟩]
  | .fsetGe bt c m a b => some [⟨8, b⟩, ⟨8, a⟩, ⟨4, m⟩, ⟨2, c⟩, ⟨5, 5#5⟩, ⟨1, bt⟩, ⟨4, 9#4⟩]
  | .fsetUn bt c m a b => some [⟨8, b⟩, ⟨8, a⟩, ⟨4, m⟩, ⟨2, c⟩, ⟨5, 6#5⟩, ⟨1, bt⟩, ⟨4, 9#4⟩]
  | .fsetOr bt c m a b => some [⟨8, b⟩, ⟨8, a⟩, ⟨4, m⟩, ⟨2, c⟩, ⟨5, 7#5⟩, ⟨1, bt⟩, ⟨4, 9#4⟩]
  | .isetEq bt c m a b => some [⟨8, b⟩, ⟨8, a⟩, ⟨4, m⟩, ⟨2, c⟩, ⟨5, 8#5⟩, ⟨1, bt⟩, ⟨4, 9#4⟩]
  | .isetNe bt c m a b => some [⟨8, b⟩, ⟨8, a⟩, ⟨4, m⟩, ⟨2, c⟩, ⟨5, 9#5⟩, ⟨1, bt⟩, ⟨4, 9#4⟩]
  | .isetLt bt c m a b => some [⟨8, b⟩, ⟨8, a⟩, ⟨4, m⟩, ⟨2, c⟩, ⟨5, 10#5⟩, ⟨1, bt⟩, ⟨4, 9#4⟩]
  | .isetLe bt c m a b => some [⟨8, b⟩, ⟨8, a⟩, ⟨4, m⟩, ⟨2, c⟩, ⟨5, 11#5⟩, ⟨1, bt⟩, ⟨4, 9#4⟩]
  | .isetGt bt c m a b => some [⟨8, b⟩, ⟨8, a⟩, ⟨4, m⟩, ⟨2, c⟩, ⟨5, 12#5⟩, ⟨1, bt⟩, ⟨4, 9#4⟩]
  | .isetGe bt c m a b => some [⟨8, b⟩, ⟨8, a⟩, ⟨4, m⟩, ⟨2, c⟩, ⟨5, 13#5⟩, ⟨1, bt⟩, ⟨4, 9#4⟩]
  | .usetLt bt c m a b => some [⟨8, b⟩, ⟨8, a⟩, ⟨4, m⟩, ⟨2, c⟩, ⟨5, 14#5⟩, ⟨1, bt⟩, ⟨4, 9#4⟩]
  | .usetLe bt c m a b => some [⟨8, b⟩, ⟨8, a⟩, ⟨4, m⟩, ⟨2, c⟩, ⟨5, 15#5⟩, ⟨1, bt⟩, ⟨4, 9#4⟩]
  | .usetGt bt c m a b => some [⟨8, b⟩, ⟨8, a⟩, ⟨4, m⟩, ⟨2, c⟩, ⟨5, 16#5⟩, ⟨1, bt⟩, ⟨4, 9#4⟩]
  | .usetGe bt c m a b => some [⟨8, b⟩, ⟨8, a⟩, ⟨4, m⟩, ⟨2, c⟩, ⟨5, 17#5⟩, ⟨1, bt⟩, ⟨4, 9#4⟩]
  | .mlog bt d a b f => some [⟨3, f⟩, ⟨5, 0#5⟩, ⟨4, b⟩, ⟨4, a⟩, ⟨4, d⟩, ⟨2, 0#2⟩, ⟨5, 18#5⟩, ⟨1, bt⟩, ⟨4, 9#4⟩]
  | .cmov bt c d a => some [⟨8, a⟩, ⟨8, d⟩, ⟨4, c⟩, ⟨2, 0#2⟩, ⟨5, 19#5⟩, ⟨1, bt⟩, ⟨4, 9#4⟩]
  | .shfl bt k d a => some [⟨8, a⟩, ⟨8, d⟩, ⟨3, 0#3⟩, ⟨3, k⟩, ⟨5, 20#5⟩, ⟨1, bt⟩, ⟨4, 9#4⟩]
  | .shflXor bt i d a => some [⟨8, a⟩, ⟨8, d⟩, ⟨6, i⟩, ⟨5, 21#5⟩, ⟨1, bt⟩, ⟨4, 9#4⟩]
  | .shflUp bt i d a => some [⟨8, a⟩, ⟨8, d⟩, ⟨6, i⟩, ⟨5, 22#5⟩, ⟨1, bt⟩, ⟨4, 9#4⟩]
  | .shflDn bt i d a => some [⟨8, a⟩, ⟨8, d⟩, ⟨6, i⟩, ⟨5, 23#5⟩, ⟨1, bt⟩, ⟨4, 9#4⟩]
  | .shflIdx bt i d a => some [⟨8, a⟩, ⟨8, d⟩, ⟨6, i⟩, ⟨5, 24#5⟩, ⟨1, bt⟩, ⟨4, 9#4⟩]
  | .vote bt k d a => some [⟨12, 0#12⟩, ⟨4, a⟩, ⟨4, d⟩, ⟨2, k⟩, ⟨5, 25#5⟩, ⟨1, bt⟩, ⟨4, 9#4⟩]
  | .ballot bt s a => some [⟨8, a⟩, ⟨8, 0#8⟩, ⟨6, s⟩, ⟨5, 26#5⟩, ⟨1, bt⟩, ⟨4, 9#4⟩]
  | .gred bt s r a => some [⟨8, a⟩, ⟨3, r⟩, ⟨5, 0#5⟩, ⟨6, s⟩, ⟨5, 27#5⟩, ⟨1, bt⟩, ⟨4, 9#4⟩]
  | .mmov bt r m s => some [⟨10, 0#10⟩, ⟨6, s⟩, ⟨4, m⟩, ⟨1, 0#1⟩, ⟨1, r⟩, ⟨5, 28#5⟩, ⟨1, bt⟩, ⟨4, 9#4⟩]
  | .mact bt d => some [⟨16, 0#16⟩, ⟨4, d⟩, ⟨2, 0#2⟩, ⟨5, 29#5⟩, ⟨1, bt⟩, ⟨4, 9#4⟩]
  | .sadd bt d a b => some [⟨4, 0#4⟩, ⟨6, b⟩, ⟨6, a⟩, ⟨6, d⟩, ⟨5, 0#5⟩, ⟨1, bt⟩, ⟨4, 10#4⟩]
  | .ssub bt d a b => some [⟨4, 0#4⟩, ⟨6, b⟩, ⟨6, a⟩, ⟨6, d⟩, ⟨5, 1#5⟩, ⟨1, bt⟩, ⟨4, 10#4⟩]
  | .smul bt d a b => some [⟨4, 0#4⟩, ⟨6, b⟩, ⟨6, a⟩, ⟨6, d⟩, ⟨5, 2#5⟩, ⟨1, bt⟩, ⟨4, 10#4⟩]
  | .sand bt d a b => some [⟨4, 0#4⟩, ⟨6, b⟩, ⟨6, a⟩, ⟨6, d⟩, ⟨5, 3#5⟩, ⟨1, bt⟩, ⟨4, 10#4⟩]
  | .sor bt d a b => some [⟨4, 0#4⟩, ⟨6, b⟩, ⟨6, a⟩, ⟨6, d⟩, ⟨5, 4#5⟩, ⟨1, bt⟩, ⟨4, 10#4⟩]
  | .sxor bt d a b => some [⟨4, 0#4⟩, ⟨6, b⟩, ⟨6, a⟩, ⟨6, d⟩, ⟨5, 5#5⟩, ⟨1, bt⟩, ⟨4, 10#4⟩]
  | .sshl bt d a b => some [⟨4, 0#4⟩, ⟨6, b⟩, ⟨6, a⟩, ⟨6, d⟩, ⟨5, 6#5⟩, ⟨1, bt⟩, ⟨4, 10#4⟩]
  | .sshr bt d a b => some [⟨4, 0#4⟩, ⟨6, b⟩, ⟨6, a⟩, ⟨6, d⟩, ⟨5, 7#5⟩, ⟨1, bt⟩, ⟨4, 10#4⟩]
  | .ssar bt d a b => some [⟨4, 0#4⟩, ⟨6, b⟩, ⟨6, a⟩, ⟨6, d⟩, ⟨5, 8#5⟩, ⟨1, bt⟩, ⟨4, 10#4⟩]
  | .smin bt d a b => some [⟨4, 0#4⟩, ⟨6, b⟩, ⟨6, a⟩, ⟨6, d⟩, ⟨5, 9#5⟩, ⟨1, bt⟩, ⟨4, 10#4⟩]
  | .smax bt d a b => some [⟨4, 0#4⟩, ⟨6, b⟩, ⟨6, a⟩, ⟨6, d⟩, ⟨5, 10#5⟩, ⟨1, bt⟩, ⟨4, 10#4⟩]
  | .saddi bt d a i => some [⟨10, i⟩, ⟨6, a⟩, ⟨6, d⟩, ⟨5, 11#5⟩, ⟨1, bt⟩, ⟨4, 10#4⟩]
  | .smovi bt d i => some [⟨16, i⟩, ⟨6, d⟩, ⟨5, 12#5⟩, ⟨1, bt⟩, ⟨4, 10#4⟩]
  | .smovhi bt d i => some [⟨16, i⟩, ⟨6, d⟩, ⟨5, 13#5⟩, ⟨1, bt⟩, ⟨4, 10#4⟩]
  | .sset bt d a b c => some [⟨4, c⟩, ⟨6, b⟩, ⟨6, a⟩, ⟨6, d⟩, ⟨5, 14#5⟩, ⟨1, bt⟩, ⟨4, 10#4⟩]
  | .vread bt d a v => some [⟨2, 0#2⟩, ⟨8, v⟩, ⟨6, a⟩, ⟨6, d⟩, ⟨5, 15#5⟩, ⟨1, bt⟩, ⟨4, 10#4⟩]
  | .sldc bt d a n i => some [⟨5, i⟩, ⟨5, n⟩, ⟨6, a⟩, ⟨6, d⟩, ⟨5, 16#5⟩, ⟨1, bt⟩, ⟨4, 10#4⟩]
  | .sldlit bt d i => some [⟨16, i⟩, ⟨6, d⟩, ⟨5, 17#5⟩, ⟨1, bt⟩, ⟨4, 10#4⟩]
  | .csrr bt d c => some [⟨12, c⟩, ⟨4, 0#4⟩, ⟨6, d⟩, ⟨5, 18#5⟩, ⟨1, bt⟩, ⟨4, 10#4⟩]
  | .csrw bt a c => some [⟨12, c⟩, ⟨4, 0#4⟩, ⟨6, a⟩, ⟨5, 19#5⟩, ⟨1, bt⟩, ⟨4, 10#4⟩]
  | .ld bt n d x s => some [⟨2, s⟩, ⟨8, x⟩, ⟨8, d⟩, ⟨5, n⟩, ⟨4, 0#4⟩, ⟨1, bt⟩, ⟨4, 11#4⟩]
  | .st bt n d x s => some [⟨2, s⟩, ⟨8, x⟩, ⟨8, d⟩, ⟨5, n⟩, ⟨4, 1#4⟩, ⟨1, bt⟩, ⟨4, 11#4⟩]
  | .ldb bt n d x s => some [⟨2, s⟩, ⟨8, x⟩, ⟨8, d⟩, ⟨5, n⟩, ⟨4, 2#4⟩, ⟨1, bt⟩, ⟨4, 11#4⟩]
  | .ldh bt n d x s => some [⟨2, s⟩, ⟨8, x⟩, ⟨8, d⟩, ⟨5, n⟩, ⟨4, 3#4⟩, ⟨1, bt⟩, ⟨4, 11#4⟩]
  | .stb bt n d x => some [⟨2, 0#2⟩, ⟨8, x⟩, ⟨8, d⟩, ⟨5, n⟩, ⟨4, 4#4⟩, ⟨1, bt⟩, ⟨4, 11#4⟩]
  | .sth bt n d x => some [⟨2, 0#2⟩, ⟨8, x⟩, ⟨8, d⟩, ⟨5, n⟩, ⟨4, 5#4⟩, ⟨1, bt⟩, ⟨4, 11#4⟩]
  | .ldx bt n d x s => some [⟨2, s⟩, ⟨8, x⟩, ⟨8, d⟩, ⟨5, n⟩, ⟨4, 6#4⟩, ⟨1, bt⟩, ⟨4, 11#4⟩]
  | .stx bt n d x s => some [⟨2, s⟩, ⟨8, x⟩, ⟨8, d⟩, ⟨5, n⟩, ⟨4, 7#4⟩, ⟨1, bt⟩, ⟨4, 11#4⟩]
  | .pref bt n x s => some [⟨2, s⟩, ⟨8, x⟩, ⟨8, 0#8⟩, ⟨5, n⟩, ⟨4, 8#4⟩, ⟨1, bt⟩, ⟨4, 11#4⟩]
  | .evict bt n x s => some [⟨2, s⟩, ⟨8, x⟩, ⟨8, 0#8⟩, ⟨5, n⟩, ⟨4, 9#4⟩, ⟨1, bt⟩, ⟨4, 11#4⟩]
  | .bload bt n s x => some [⟨2, 0#2⟩, ⟨8, x⟩, ⟨5, s⟩, ⟨3, 0#3⟩, ⟨5, n⟩, ⟨4, 10#4⟩, ⟨1, bt⟩, ⟨4, 11#4⟩]
  | .bset bt n a => some [⟨10, 0#10⟩, ⟨6, a⟩, ⟨2, 0#2⟩, ⟨5, n⟩, ⟨4, 11#4⟩, ⟨1, bt⟩, ⟨4, 11#4⟩]
  | .aadd bt n d x p => some [⟨2, p⟩, ⟨8, x⟩, ⟨8, d⟩, ⟨5, n⟩, ⟨4, 0#4⟩, ⟨1, bt⟩, ⟨4, 12#4⟩]
  | .amin bt n d x p => some [⟨2, p⟩, ⟨8, x⟩, ⟨8, d⟩, ⟨5, n⟩, ⟨4, 1#4⟩, ⟨1, bt⟩, ⟨4, 12#4⟩]
  | .amax bt n d x p => some [⟨2, p⟩, ⟨8, x⟩, ⟨8, d⟩, ⟨5, n⟩, ⟨4, 2#4⟩, ⟨1, bt⟩, ⟨4, 12#4⟩]
  | .aumin bt n d x p => some [⟨2, p⟩, ⟨8, x⟩, ⟨8, d⟩, ⟨5, n⟩, ⟨4, 3#4⟩, ⟨1, bt⟩, ⟨4, 12#4⟩]
  | .aumax bt n d x p => some [⟨2, p⟩, ⟨8, x⟩, ⟨8, d⟩, ⟨5, n⟩, ⟨4, 4#4⟩, ⟨1, bt⟩, ⟨4, 12#4⟩]
  | .aand bt n d x p => some [⟨2, p⟩, ⟨8, x⟩, ⟨8, d⟩, ⟨5, n⟩, ⟨4, 5#4⟩, ⟨1, bt⟩, ⟨4, 12#4⟩]
  | .aor bt n d x p => some [⟨2, p⟩, ⟨8, x⟩, ⟨8, d⟩, ⟨5, n⟩, ⟨4, 6#4⟩, ⟨1, bt⟩, ⟨4, 12#4⟩]
  | .axor bt n d x p => some [⟨2, p⟩, ⟨8, x⟩, ⟨8, d⟩, ⟨5, n⟩, ⟨4, 7#4⟩, ⟨1, bt⟩, ⟨4, 12#4⟩]
  | .axchg bt n d x p => some [⟨2, p⟩, ⟨8, x⟩, ⟨8, d⟩, ⟨5, n⟩, ⟨4, 8#4⟩, ⟨1, bt⟩, ⟨4, 12#4⟩]
  | .acas bt n d x p => some [⟨2, p⟩, ⟨8, x⟩, ⟨8, d⟩, ⟨5, n⟩, ⟨4, 9#4⟩, ⟨1, bt⟩, ⟨4, 12#4⟩]
  | .afadd bt n d x p => some [⟨2, p⟩, ⟨8, x⟩, ⟨8, d⟩, ⟨5, n⟩, ⟨4, 10#4⟩, ⟨1, bt⟩, ⟨4, 12#4⟩]
  | .copy bt s d k a => some [⟨1, 0#1⟩, ⟨6, a⟩, ⟨6, k⟩, ⟨5, d⟩, ⟨5, s⟩, ⟨4, 11#4⟩, ⟨1, bt⟩, ⟨4, 12#4⟩]
  | .sealBatch bt d => some [⟨6, d⟩, ⟨17, 0#17⟩, ⟨4, 12#4⟩, ⟨1, bt⟩, ⟨4, 12#4⟩]
  | .waitb bt a => some [⟨6, a⟩, ⟨17, 0#17⟩, ⟨4, 13#4⟩, ⟨1, bt⟩, ⟨4, 12#4⟩]
  | .fence bt k p => some [⟨3, p⟩, ⟨2, k⟩, ⟨18, 0#18⟩, ⟨4, 14#4⟩, ⟨1, bt⟩, ⟨4, 12#4⟩]
  | .append bt u d x => some [⟨2, 0#2⟩, ⟨8, x⟩, ⟨8, d⟩, ⟨5, u⟩, ⟨4, 15#4⟩, ⟨1, bt⟩, ⟨4, 12#4⟩]
  | .bra bt o => some [⟨18, o⟩, ⟨4, 0#4⟩, ⟨5, 0#5⟩, ⟨1, bt⟩, ⟨4, 13#4⟩]
  | .brm bt m o => some [⟨18, o⟩, ⟨4, m⟩, ⟨5, 1#5⟩, ⟨1, bt⟩, ⟨4, 13#4⟩]
  | .brmn bt m o => some [⟨18, o⟩, ⟨4, m⟩, ⟨5, 2#5⟩, ⟨1, bt⟩, ⟨4, 13#4⟩]
  | .brs bt s o => some [⟨16, o⟩, ⟨6, s⟩, ⟨5, 3#5⟩, ⟨1, bt⟩, ⟨4, 13#4⟩]
  | .brsz bt s o => some [⟨16, o⟩, ⟨6, s⟩, ⟨5, 4#5⟩, ⟨1, bt⟩, ⟨4, 13#4⟩]
  | .call bt o => some [⟨18, o⟩, ⟨4, 0#4⟩, ⟨5, 5#5⟩, ⟨1, bt⟩, ⟨4, 13#4⟩]
  | .ret bt => some [⟨22, 0#22⟩, ⟨5, 6#5⟩, ⟨1, bt⟩, ⟨4, 13#4⟩]
  | .jmpi bt a g => some [⟨8, g⟩, ⟨8, a⟩, ⟨6, 0#6⟩, ⟨5, 7#5⟩, ⟨1, bt⟩, ⟨4, 13#4⟩]
  | .calli bt a g => some [⟨8, g⟩, ⟨8, a⟩, ⟨6, 0#6⟩, ⟨5, 8#5⟩, ⟨1, bt⟩, ⟨4, 13#4⟩]
  | .lpad bt g => some [⟨8, g⟩, ⟨14, 0#14⟩, ⟨5, 9#5⟩, ⟨1, bt⟩, ⟨4, 13#4⟩]
  | .split bt j => some [⟨3, j⟩, ⟨19, 0#19⟩, ⟨5, 10#5⟩, ⟨1, bt⟩, ⟨4, 13#4⟩]
  | .join bt j => some [⟨3, j⟩, ⟨19, 0#19⟩, ⟨5, 11#5⟩, ⟨1, bt⟩, ⟨4, 13#4⟩]
  | .drop bt j => some [⟨3, j⟩, ⟨19, 0#19⟩, ⟨5, 12#5⟩, ⟨1, bt⟩, ⟨4, 13#4⟩]
  | .bar bt i => some [⟨4, i⟩, ⟨18, 0#18⟩, ⟨5, 13#5⟩, ⟨1, bt⟩, ⟨4, 13#4⟩]
  | .exit bt => some [⟨22, 0#22⟩, ⟨5, 14#5⟩, ⟨1, bt⟩, ⟨4, 13#4⟩]
  | .trap bt c => some [⟨16, c⟩, ⟨6, 0#6⟩, ⟨5, 15#5⟩, ⟨1, bt⟩, ⟨4, 13#4⟩]
  | .enter bt r => some [⟨16, r⟩, ⟨6, 0#6⟩, ⟨5, 16#5⟩, ⟨1, bt⟩, ⟨4, 13#4⟩]
  | .leave bt => some [⟨22, 0#22⟩, ⟨5, 17#5⟩, ⟨1, bt⟩, ⟨4, 13#4⟩]
  | .spawn bt s => some [⟨16, 0#16⟩, ⟨6, s⟩, ⟨5, 18#5⟩, ⟨1, bt⟩, ⟨4, 13#4⟩]
  | .chwait bt => some [⟨22, 0#22⟩, ⟨5, 19#5⟩, ⟨1, bt⟩, ⟨4, 13#4⟩]
  | .yield bt => some [⟨22, 0#22⟩, ⟨5, 20#5⟩, ⟨1, bt⟩, ⟨4, 13#4⟩]
  | .cclr bt g => some [⟨16, 0#16⟩, ⟨2, g⟩, ⟨4, 0#4⟩, ⟨5, 0#5⟩, ⟨1, bt⟩, ⟨4, 15#4⟩]
  | .lobe bt y g p w => some [⟨8, w⟩, ⟨8, p⟩, ⟨2, g⟩, ⟨4, y⟩, ⟨5, 1#5⟩, ⟨1, bt⟩, ⟨4, 15#4⟩]
  | .lmix bt g h w => some [⟨8, w⟩, ⟨6, 0#6⟩, ⟨2, h⟩, ⟨2, g⟩, ⟨4, 0#4⟩, ⟨5, 2#5⟩, ⟨1, bt⟩, ⟨4, 15#4⟩]
  | .layer bt g h w => some [⟨8, w⟩, ⟨6, 0#6⟩, ⟨2, h⟩, ⟨2, g⟩, ⟨4, 0#4⟩, ⟨5, 3#5⟩, ⟨1, bt⟩, ⟨4, 15#4⟩]
  | .lscl bt g w => some [⟨8, w⟩, ⟨8, 0#8⟩, ⟨2, g⟩, ⟨4, 0#4⟩, ⟨5, 4#5⟩, ⟨1, bt⟩, ⟨4, 15#4⟩]
  | .frame bt g n => some [⟨8, 0#8⟩, ⟨8, n⟩, ⟨2, g⟩, ⟨4, 0#4⟩, ⟨5, 5#5⟩, ⟨1, bt⟩, ⟨4, 15#4⟩]
  | .samp bt g d u => some [⟨8, u⟩, ⟨8, d⟩, ⟨2, g⟩, ⟨4, 0#4⟩, ⟨5, 6#5⟩, ⟨1, bt⟩, ⟨4, 15#4⟩]
  | .eval bt g d w => some [⟨8, w⟩, ⟨8, d⟩, ⟨2, g⟩, ⟨4, 0#4⟩, ⟨5, 7#5⟩, ⟨1, bt⟩, ⟨4, 15#4⟩]
  | .pdf bt g d w => some [⟨8, w⟩, ⟨8, d⟩, ⟨2, g⟩, ⟨4, 0#4⟩, ⟨5, 8#5⟩, ⟨1, bt⟩, ⟨4, 15#4⟩]
  | .csave bt g n x => some [⟨8, x⟩, ⟨3, 0#3⟩, ⟨5, n⟩, ⟨2, g⟩, ⟨4, 0#4⟩, ⟨5, 9#5⟩, ⟨1, bt⟩, ⟨4, 15#4⟩]
  | .cload bt g n x => some [⟨8, x⟩, ⟨3, 0#3⟩, ⟨5, n⟩, ⟨2, g⟩, ⟨4, 0#4⟩, ⟨5, 10#5⟩, ⟨1, bt⟩, ⟨4, 15#4⟩]
  | .trace bt k h r => some [⟨8, r⟩, ⟨8, h⟩, ⟨6, k⟩, ⟨5, 11#5⟩, ⟨1, bt⟩, ⟨4, 15#4⟩]
  | .tracep bt k h r => some [⟨8, r⟩, ⟨8, h⟩, ⟨6, k⟩, ⟨5, 12#5⟩, ⟨1, bt⟩, ⟨4, 15#4⟩]
  | .visq bt k v => some [⟨8, 0#8⟩, ⟨8, v⟩, ⟨6, k⟩, ⟨5, 13#5⟩, ⟨1, bt⟩, ⟨4, 15#4⟩]
  | .pslot bt d p => some [⟨6, p⟩, ⟨2, 0#2⟩, ⟨8, d⟩, ⟨6, 0#6⟩, ⟨5, 14#5⟩, ⟨1, bt⟩, ⟨4, 15#4⟩]
  | .pfree bt d p => some [⟨6, p⟩, ⟨2, 0#2⟩, ⟨8, d⟩, ⟨6, 0#6⟩, ⟨5, 15#5⟩, ⟨1, bt⟩, ⟨4, 15#4⟩]
  | .qpush bt q s m => some [⟨8, m⟩, ⟨8, s⟩, ⟨6, q⟩, ⟨5, 16#5⟩, ⟨1, bt⟩, ⟨4, 15#4⟩]
  | .regrp bt o s => some [⟨8, s⟩, ⟨12, o⟩, ⟨2, 0#2⟩, ⟨5, 17#5⟩, ⟨1, bt⟩, ⟨4, 15#4⟩]
  | .tfeed bt s v f => some [⟨8, f⟩, ⟨8, v⟩, ⟨6, s⟩, ⟨5, 18#5⟩, ⟨1, bt⟩, ⟨4, 15#4⟩]
  | .tdrain bt s d c => some [⟨2, c⟩, ⟨6, 0#6⟩, ⟨8, d⟩, ⟨6, s⟩, ⟨5, 19#5⟩, ⟨1, bt⟩, ⟨4, 15#4⟩]
  | .trel bt s => some [⟨16, 0#16⟩, ⟨6, s⟩, ⟨5, 20#5⟩, ⟨1, bt⟩, ⟨4, 15#4⟩]
  | .mma bt x f b a c e => some [⟨1, e⟩, ⟨1, c⟩, ⟨1, 0#1⟩, ⟨1, a⟩, ⟨1, b⟩, ⟨5, 0#5⟩, ⟨6, f⟩, ⟨6, x⟩, ⟨5, 21#5⟩, ⟨1, bt⟩, ⟨4, 15#4⟩]
  | .mmaPair bt x f b a c e => some [⟨1, e⟩, ⟨1, c⟩, ⟨1, 1#1⟩, ⟨1, a⟩, ⟨1, b⟩, ⟨5, 0#5⟩, ⟨6, f⟩, ⟨6, x⟩, ⟨5, 21#5⟩, ⟨1, bt⟩, ⟨4, 15#4⟩]
  | .mguid bt x s => some [⟨10, 0#10⟩, ⟨6, s⟩, ⟨6, x⟩, ⟨5, 22#5⟩, ⟨1, bt⟩, ⟨4, 15#4⟩]
  | .mzero bt x => some [⟨16, 0#16⟩, ⟨6, x⟩, ⟨5, 23#5⟩, ⟨1, bt⟩, ⟨4, 15#4⟩]
  | .mcvt bt x f => some [⟨10, 0#10⟩, ⟨6, f⟩, ⟨6, x⟩, ⟨5, 24#5⟩, ⟨1, bt⟩, ⟨4, 15#4⟩]
  | .mwait bt s => some [⟨16, 0#16⟩, ⟨6, s⟩, ⟨5, 25#5⟩, ⟨1, bt⟩, ⟨4, 15#4⟩]
  | .ctab bt a n => some [⟨11, 0#11⟩, ⟨5, n⟩, ⟨6, a⟩, ⟨5, 26#5⟩, ⟨1, bt⟩, ⟨4, 15#4⟩]
  | .tlbw bt a => some [⟨16, 0#16⟩, ⟨6, a⟩, ⟨5, 27#5⟩, ⟨1, bt⟩, ⟨4, 15#4⟩]
  | .tlbi bt k a => some [⟨10, 0#10⟩, ⟨6, a⟩, ⟨4, 0#4⟩, ⟨2, k⟩, ⟨5, 28#5⟩, ⟨1, bt⟩, ⟨4, 15#4⟩]
  | .hret bt => some [⟨1, 0#1⟩, ⟨1, 0#1⟩, ⟨20, 0#20⟩, ⟨5, 29#5⟩, ⟨1, bt⟩, ⟨4, 15#4⟩]
  | .hretEnd bt => some [⟨1, 1#1⟩, ⟨1, 0#1⟩, ⟨20, 0#20⟩, ⟨5, 29#5⟩, ⟨1, bt⟩, ⟨4, 15#4⟩]
  | .bkpt bt c => some [⟨16, c⟩, ⟨6, 0#6⟩, ⟨5, 30#5⟩, ⟨1, bt⟩, ⟨4, 15#4⟩]
  | .snap bt a g => some [⟨16, g⟩, ⟨6, a⟩, ⟨5, 31#5⟩, ⟨1, bt⟩, ⟨4, 15#4⟩]
  | .hostTailWrite _ _ => none
  | .launchAdmit _ _ => none
  | .tailorRun _ => none
  | .workgroupPlace _ _ _ _ _ => none
  | .groupFormTimeout _ _ _ => none
  | .varLatencyComplete _ _ => none
  | .rayWalkComplete _ _ => none
  | .visqComplete _ _ => none
  | .copyComplete _ _ => none
  | .patternTableEnter _ => none
  | .patternEntryIssue _ => none
  | .patternEntryComplete _ => none
  | .storePerformAtHome _ => none
  | .l1WriteBack _ _ => none
  | .leaseExpiry _ _ _ => none
  | .fenceReleaseComplete _ => none
  | .appendGrant _ => none
  | .groupRetire _ => none
  | .completionRecordWrite _ => none
  | .workgroupSaveOut _ => none
  | .workgroupRestore _ _ _ => none
  | .taskCommit _ => none
  | .issueStarvation _ _ => none
  | .frontierAgeLimit _ => none
  | .tlbMissWalk _ => none
  | .pageReportWrite => none
  | .handlerStart _ => none
  | .preempt _ => none
  | .contextMakeResident _ _ => none
  | .hangWatchdog _ => none
  | .eccCorrectable _ _ => none
  | .eccUncorrectable _ _ _ _ => none
  | .deviceStart _ => none
  | .firmwareReadyTimeout => none
  | .peerLeaveAnnounce _ => none
  | .peerSilenceTimeout _ => none
  | .peerJoin _ _ => none
  | .timeJoinComplete _ => none
  | .presentCheck => none
  | .presentInstant => none
  | .hostCxlMemWrite _ _ => none
  | .hostCxlMemRead _ _ => none
  | .sampleRecord _ _ _ _ => none
  | .mbevtWrite _ => none
  | .mailboxRegisterWrite _ _ => none
  | .mailboxUnknown => none
  | .ctxCreate => none
  | .ctxDestroy => none
  | .map => none
  | .hemResume => none
  | .unmap => none
  | .faultRing => none
  | .queueSetup => none
  | .queueClose => none
  | .poolSetup => none
  | .queueReset => none
  | .traceArm => none
  | .traceStatus => none
  | .peerExport => none
  | .peerImport => none
  | .framelock => none
  | .frameSource => none
  | .frameStatus => none
  | .attest => none
  | .pocketRead => none
  | .dbgAttach => none
  | .dbgDetach => none
  | .dbgHalt => none
  | .dbgResume => none
  | .dbgBreak => none
  | .dbgWatch => none
  | .dbgRead => none
  | .dbgWrite => none
  | .dbgSample => none
  | .dbgEvents => none
  | .ctxPreempt => none
  | .ctxRestore => none
  | .unitMap => none
  | .illegalEncoding _ => none
  | .fetchFault _ _ => none
  | .cxlCacheSnoop _ _ => none
  | .peerAccess _ _ _ _ => none
  | .ideStreamSetup => none
  | .partitionChange _ => none
  | .thermalClockLimit _ => none

/-- The word of an instruction, if it has one. -/
def encode (i : Instr) : Option (BitVec 32) := (layout i).map fun l => BitVec.ofNat 32 (layoutNat l)

end Sys2Proof
end

