-- ==== Sys2Proof/Machine/State.lean ====
section
/-!
DEFINITION. The machine's state: everything the spec gives a thread, a group, a workgroup, a grid, a context, a core, a
cluster and the device, as plain data, and the state after reset. A `Sparse` map lists its entries by rising key and
lists no entry that equals the value an unlisted key reads as. A group is the state of one issuer: a vector group, a
tile-program thread of a bobbin, or a routine of a walker or handler slot (R61).
-/

namespace Sys2Proof.Machine

/-- A finite map with natural keys, rising, without entries that equal the default. -/
abbrev Sparse (α : Type) := List (Nat × α)

/-- The four kinds of issuer (R61). -/
inductive Issuer where
  | vector | bobbin | walker | handler
  deriving DecidableEq, Repr

/-- A register that hazard marks and deferred writes can name (R42, R149). -/
inductive Reg where
  | v (n : Nat)
  | k (n : Nat)
  | s (n : Nat)
  | g (n : Nat)
  deriving DecidableEq, Repr

/-- The payload of `XRND` (R46). -/
structure Rnd where
  mode : BitVec 3
  seed : BitVec 6
  sat : Bool
  ftz : Bool
  deriving DecidableEq, Repr

/-- The hints that wait for the next word of a clause (R45, R46). -/
structure Hints where
  imm : Option (BitVec 22) := none
  immf : Option (BitVec 22) := none
  scl : Option (BitVec 6) := none
  rnd : Option Rnd := none
  evc : Option (BitVec 2) := none
  scp : Option (BitVec 2) := none
  part : Bool := false
  /-- A second hint of one kind stands before the word (R45). -/
  twice : Bool := false
  /-- The hint words of the run so far: a debug stop or a pre-emption falls before the run (R44). -/
  run : Nat := 0
  deriving DecidableEq, Repr

/-- An entry of the last-result file: the destination's width in words and its value in every lane, keyed by
4 * lane + word (R39). -/
structure HEntry where
  width : Nat
  vals : Sparse Word
  deriving DecidableEq, Repr

/-- The clause position (R44): header address, LEN, words issued, SETA, SETB, PRI, variable-latency words issued, the
H file with the newest entry first, the hints that wait for their target, and, for a word that issues again from the
hem, the registers its first issue marked. -/
structure Pos where
  hdr : Nat
  len : Nat
  issued : Nat
  seta : Nat
  setb : Nat
  pri : Nat
  vl : Nat := 0
  h : List HEntry := []
  hints : Hints := {}
  own : List Reg := []
  deriving DecidableEq, Repr

/-- Why a frontier entry waits (R267). An entry that waits at a join (R293) is one whose lanes a pending join expects at
its PC, so nothing is stored for it. -/
inductive Wait where
  | none
  /-- At a barrier (R295), with the number of batches the group had sealed on arrival (R234) and the lanes that arrived. -/
  | bar (id : Nat) (sealed : Nat) (arr : DWord)
  /-- In `CHWAIT` (R299). -/
  | child
  /-- Lanes whose speculative tasks may go on only as the oldest (R205). -/
  | task
  deriving DecidableEq, Repr

/-- A frontier entry (R267): PC, lanes, age, waiting state, the kept clause position when it stands inside a clause,
whether a `YIELD` holds it back at the next selection (R297), whether a handler put its PC there and it is checked before
it issues (R326). -/
structure FEntry where
  pc : Nat
  mask : DWord
  age : Nat := 0
  wait : Wait := .none
  pos : Option Pos := none
  yielded : Bool := false
  edited : Bool := false
  deriving DecidableEq, Repr

/-- Lanes parked in the hem (R323, R362): the faulting word, the kept clause position, the virtual address of the lowest parked lane, its
page and the access kind (R305); whether the path was to be checked before it issues (R326), and whether it holds the turn of a
deterministic round (R198). TOPC and TITER of the word are those of `pc` in the back-map of the group's code, which never changes. -/
structure HemEntry where
  pc : Nat
  mask : DWord
  pos : Option Pos
  va : Nat
  page : Nat
  kind : Nat
  edited : Bool := false
  holds : Bool := false
  deriving DecidableEq, Repr

/-- A rejoin register (R292): the expected mask and, while a join is pending, its continuation. -/
structure JReg where
  mask : DWord := 0
  cont : Option Nat := none
  deriving DecidableEq, Repr

/-- A lobe record (R147). -/
structure Lobe where
  type : Nat
  depth : Nat
  w : Word
  p0 : Word
  p1 : Word
  p2 : Word
  p3 : Word
  p4 : Word
  p5 : Word
  deriving DecidableEq, Repr

/-- A closure register of one lane (R146): the frame block and the logical list of lobes in insertion order (R148). -/
structure Closure where
  nx : Word := 0
  ny : Word := 0
  nz : Word := 0
  theta : Word := 0
  ox : Word := 0
  oy : Word := 0
  oz : Word := 0
  fvalid : Bool := false
  depth : Nat := 0
  ncount : Nat := 0
  lobes : List Lobe := []
  deriving DecidableEq, Repr

/-- A register write that a variable-latency operation makes when it completes (R41). -/
structure RegWrite where
  reg : Reg
  lane : Nat
  val : Word
  deriving DecidableEq, Repr

/-- Where a record leads (R215): translated memory, the workgroup's scratchpad, or each lane's window. A routine's `B30`
and `B31` are records like the others (R365). -/
inductive Place where
  | mem | scratch | window
  deriving DecidableEq, Repr

/-- How the bytes of a load become register words (R225): as they are, or one word zero- or sign-extended. -/
inductive Extend where
  | words | zero | sign
  deriving DecidableEq, Repr

/-- What a load in flight does when it is performed. -/
inductive LoadKind where
  | plain
  /-- `LDX` (R226): a read outside the leases, which takes the lane's reservation while its clause lasts. -/
  | exclusive
  /-- A returning atomic (R229, R230): its operation and operands. -/
  | atomic (op : AtomicOp) (x y : Word)
  deriving DecidableEq, Repr

/-- One lane's load or returning atomic that has been issued and not yet performed (R220, R236, R364): its place and address there, its scope
and cache policy, and the first register of its result. `lost`: its peer became absent while it was on its way (R317). -/
structure PLoad where
  place : Place
  lane : Nat
  addr : Nat
  size : Nat
  scope : Nat
  evc : Nat
  reg : Reg
  ext : Extend := .words
  how : LoadKind := .plain
  lost : Bool := false
  deriving DecidableEq, Repr

/-- A variable-latency operation in flight (R41): its flag, its register writes, its closure writes (closure register, lane,
value), and the loads that have still to be performed. -/
structure VarOp where
  flag : Nat
  writes : List RegWrite
  clos : List (Nat × Nat × Closure) := []
  loads : List PLoad := []
  deriving DecidableEq, Repr

/-- What completes into a pending token (R165, R168, R232). -/
inductive TokenWork where
  /-- A ray walk: first hit found, the first hit register, each lane's eight ray words, `B29`. -/
  | ray (any : Bool) (vhit : Nat) (rays : List (Nat × List Word)) (b29 : BitVec 128)
  /-- A tile resolve: the lowest active lane (R357), tile x, tile y, first list index, list count, output base, `B27`,
  `B28`. -/
  | visq (lane tx ty first count base : Nat) (b27 b28 : BitVec 128)
  /-- A copy: source and destination records, indices, byte count, scope, cache policy, batch (R233). -/
  | copy (src dst : BitVec 128) (srcLocal dstLocal : Bool) (sidx didx count scope policy batch : Nat)
  /-- The work of a task that has been aborted: the token completes, and nothing is performed (R205). -/
  | void
  deriving DecidableEq, Repr

/-- A pending token S register with its work, the lanes of the path that issued it, and the address of its word. -/
structure Token where
  sreg : Nat
  work : TokenWork
  lanes : DWord := 0
  pc : Nat := 0
  deriving DecidableEq, Repr

/-- A copy that has completed (R245): its token S register until another token takes it, its batch, and the largest GWCT of its writes. -/
structure CopyDone where
  sreg : Option Nat
  batch : Nat
  gwct : Nat
  deriving DecidableEq, Repr

/-- The reservation of `LDX` (R226): the place (0 home, 1 scratchpad, 2 the lane's window), address and size. -/
structure Resv where
  place : Nat
  addr : Nat
  size : Nat
  deriving DecidableEq, Repr

/-- A trap record (R321). -/
structure TrapRec where
  cause : Nat
  code : Nat
  bobbin : Bool
  tpc : Nat
  topc : Nat
  titer : Nat
  mask : DWord
  addr : Nat
  info : Nat
  core : Nat
  slot : Nat
  deriving DecidableEq, Repr

/-- Whether an issuer may issue (R320, R324, R329). -/
inductive Stop where
  | running
  /-- Stopped by a trap, waiting for the handler or being served by it. -/
  | trapped
  /-- Halted for the debugger. -/
  | halted
  deriving DecidableEq, Repr

/-- Residual code (R183): words, the original offset and TITER of each word (R187), the entry table from original to
residual offsets (R366), the static registers at the start of each residual clause (R189: V, K from 0x100, S from 0x200 and B registers from
0x300 on), the static registers that a trap restores, from each word to the next one listed (R184), the words whose direct target is checked in the original code, with that target (R40, R186), the offset of the appended original
code (R185), and the words of it that could not be read (R179). -/
structure Residual where
  words : List Word := []
  orig : List Nat := []
  titer : List Nat := []
  entries : List (Nat × Nat) := []
  statics : List (Nat × List (Nat × Nat)) := []
  restore : List (Nat × List (Nat × Nat)) := []
  checks : List (Nat × Int) := []
  copy : Option Nat := none
  unread : List Nat := []
  deriving DecidableEq, Repr

/-- The declarations of a code object (R50), its virtual address, and the residual code a specialised group runs. -/
structure Code where
  va : Nat := 0
  size : Nat := 0
  ventry : Nat := 0
  bentry : Nat := 0
  features : BitVec 128 := 0
  flags : Nat := 0
  vregs : Nat := 8
  kregs : Nat := 0
  closures : Nat := 0
  scratch : Nat := 0
  traceDepth : Nat := 0
  widths : Nat := 0
  tiles : Nat := 0
  accs : Nat := 0
  objid : Nat := 0
  hash : Nat := 0
  residual : Option Residual := none
  deriving DecidableEq, Repr

/-- What holds a word back inside its clause or before it (R266), beside waiting entries. -/
inductive Stall where
  | none
  /-- A translation of this page waits for the walker (R305). -/
  | walk
  /-- A token, a full queue, an append claim, a batch, a fence, a tile, the pattern table, a rendezvous, a child
  launch. -/
  | token | queue | append | batch | fence | release | tile | table | pair | spawn | mwait | flag | page
  deriving DecidableEq, Repr

/-- A pattern-table operation (R121, R139, R141). -/
inductive PKind where
  | mma | mzero | mcvt | mguid
  deriving DecidableEq, Repr

/-- A pattern-table entry (R121): its kind, cluster, workgroups and sequence numbers of its threads, captured values and
companding table, flags, the releases of each tile it reads that must be in effect, whether it has begun, and whether it
waits to re-enter after a restore (R124). -/
structure PEntry where
  id : Nat
  kind : PKind
  cluster : Nat
  pair : Bool
  wgC : Nat
  wgU : Nat
  hasC : Bool
  hasU : Bool
  seqC : Nat
  seqU : Nat
  sel : Word
  val : Word
  acc : Bool := false
  chain : Bool := false
  rela : Bool := false
  relb : Bool := false
  compand : List Word := []
  needA : Nat := 0
  needA2 : Nat := 0
  needB : Nat := 0
  entered : Nat := 0
  slot : Nat := 0
  begun : Bool := false
  saved : Bool := false
  deriving DecidableEq, Repr

/-- A word that is held at its issue slot until an event lets it complete: a pattern-table word while the table is full
(R121), with its entry, or a deterministic `APPEND` claim (R202), with its unit and registers. -/
inductive Held where
  | entry (e : PEntry)
  | claim (u : BitVec 5) (d x : BitVec 8)
  deriving DecidableEq, Repr

/-- What the walker has answered for a page and an access kind (R305). -/
structure Walked where
  page : Nat
  kind : Nat
  outcome : Nat
  deriving DecidableEq, Repr

/-- One issuer with the state of its threads (R19, R20, R119, R365). Lane state is keyed: `v` and `k` by
64 * register + lane, `clos` by 64 * register + lane, `resv`, `gwct` and `win` by lane. -/
structure Group where
  uid : Nat := 0
  kind : Issuer := .vector
  ctx : Nat := 0
  wg : Nat := 0
  gidx : Nat := 0
  width : Nat := 8
  exist : DWord := 0
  live : DWord := 0
  core : Nat := 0
  slot : Nat := 0
  prio : Nat := 0
  placed : Nat := 0
  /-- Device time from which it is issuable and not chosen: its placement, its last issue slot, or the end of a stall (R265). -/
  ready : Nat := 0
  /-- The groups, with their lanes, that have packed into its next issue (R25). -/
  joined : List (Nat × Nat) := []
  v : Sparse Word := []
  k : Sparse Word := []
  s : Sparse Word := []
  m : Sparse DWord := []
  j : Sparse JReg := []
  b : Sparse (BitVec 128) := []
  f : Sparse Nat := []
  marks : List (Reg × Nat) := []
  /-- The entry that issues (R269), out of the frontier while it does. -/
  act : Option FEntry := none
  frontier : List FEntry := []
  hem : List HemEntry := []
  regions : List (BitVec 16) := []
  timeh : Option Word := none
  ops : List VarOp := []
  tokens : List Token := []
  sealed : Nat := 0
  copies : List CopyDone := []
  resv : Sparse Resv := []
  /-- The reservations that the `LDX` words of the clause take once they are performed. -/
  arming : Sparse Resv := []
  gwct : Sparse Nat := []
  clos : Sparse Closure := []
  win : Sparse Nat := []
  stop : Stop := .running
  trap : Option TrapRec := none
  stall : Stall := .none
  /-- Walker outcomes (R305) for the accesses of the word that issues again. -/
  walks : List Walked := []
  code : Code := {}
  /-- The argument record of R21. -/
  argRec : BitVec 128 := 0
  /-- STEP of `HSTEP` (R325) and the words left of a debugger step (R330). -/
  hstep : Bool := false
  /-- `DBG_HALT` came while the issuer was stopped by a trap (R330). -/
  haltReq : Bool := false
  dbgSteps : Option Nat := none
  /-- The watchpoint (with the word's address) and the address breakpoint suppressed for one issue (R327, R333). -/
  noWatch : Option (Nat × Nat) := none
  noBreak : Option Nat := none
  /-- Last timestamps pushed to ordered queues (R206): queue and timestamp. -/
  pushed : List (Nat × Nat) := []
  /-- A tile-program thread: issue count, watermark, numbers completed above it (R122), paired words issued (R137). -/
  count : Nat := 0
  mark : Nat := 0
  doneAbove : List Nat := []
  pairs : Nat := 0
  /-- A paired word that waits at its rendezvous (R137): its word, selector and second value. -/
  rendezvous : Option (Word × Word × Word) := none
  /-- A routine: the issuer it serves, and for a walker the page and the access kind of the miss (R305). -/
  serves : Nat := 0
  missVa : Nat := 0
  missKind : Nat := 0
  /-- The handler's `HLANE`, `HVSEL` and `HBSEL` (R325). -/
  hlane : Nat := 0
  hvsel : Nat := 0
  hbsel : Nat := 0
  /-- PCs and ends of lanes that `HPC`, `HEXITL` and `HEXITH` set, in effect on resume (R325, R294). -/
  edits : List (Nat × Nat) := []
  hexit : DWord := 0
  /-- The traps of the pocket's chain served so far (R339). -/
  chain : List TrapRec := []
  /-- The record address of a `SPAWN` that waits for the front end (R298), and the record once it is copied (R252). -/
  spawn : Option (Nat × Option (List Byte)) := none
  held : Option Held := none
  deriving DecidableEq, Repr

/-- A tile (R112): state 0 EMPTY, 1 FILLING, 2 READY; data by 96 * row + byte, scales by 8 * row + byte with the
default 0x7F; the releases requested by entries and those in effect (R121). -/
structure Tile where
  state : Nat := 0
  present : DWord := 0
  tag : Option Nat := none
  data : Sparse Byte := []
  scales : Sparse Byte := []
  relReq : Nat := 0
  rels : Nat := 0
  deriving DecidableEq, Repr

/-- An accumulator (R113): elements by 64 * row + column, row presence. -/
structure Acc where
  data : Sparse Word := []
  pres : DWord := 0
  deriving DecidableEq, Repr

/-- What a resident workgroup holds of its core and cluster (R23, R24, R114): the slots of each group by group index (two
8-lane groups share one slot), the bobbin thread slot, the first tile and accumulator. -/
structure Room where
  core : Nat := 0
  places : List (List Nat) := []
  bob : Option Nat := none
  tileBase : Nat := 0
  accBase : Nat := 0
  deriving DecidableEq, Repr

/-- A workgroup (R22, R28, R114, R198). -/
structure Workgroup where
  uid : Nat := 0
  grid : Nat := 0
  ctx : Nat := 0
  gid : Nat := 0
  gen : Nat := 0
  side : Nat := 0
  partner : Nat := 0
  core : Nat := 0
  x : Nat := 0
  y : Nat := 0
  z : Nat := 0
  scratchSize : Nat := 0
  /-- Scratchpad bytes that something has written (R22, R197). -/
  scratch : Sparse Byte := []
  /-- The number that the free contents of this allocation are drawn from. -/
  scratchSeed : Nat := 0
  children : Nat := 0
  flags : BitVec 3 := 0
  compand : List Word := []
  ntiles : Nat := 0
  naccs : Nat := 0
  tileBase : Nat := 0
  accBase : Nat := 0
  tiles : Sparse Tile := []
  accs : Sparse Acc := []
  round : Nat := 0
  turn : Nat := 0
  claimed : List Nat := []
  placed : Nat := 0
  /-- Its lane windows (R309). -/
  wins : List Nat := []
  /-- What it holds while it is resident; `reserve`: that is its binding's reservation (R261). -/
  room : Option Room := none
  reserve : Bool := false
  /-- It is not on a core; `savedOut`: because it was saved out (R32), not with its context (R336). -/
  saved : Bool := false
  savedOut : Bool := false
  /-- It runs the tasks of a group again after an abort (R205), so it counts as no other workgroup of its grid. -/
  again : Bool := false
  /-- The tile-program thread has executed `EXIT`, or the side has retired (R143). -/
  bobGone : Bool := false
  deriving DecidableEq, Repr

/-- A launch record's fields (R251). -/
structure Launch where
  code : Nat := 0
  gx : Nat := 1
  gy : Nat := 1
  gz : Nat := 1
  wx : Nat := 1
  wy : Nat := 1
  wz : Nat := 1
  width : Nat := 8
  prio : Nat := 0
  coop : Bool := false
  det : Bool := false
  pair : Bool := false
  tailor : Bool := false
  queued : Bool := false
  static : Nat := 0
  args : Nat := 0
  argCount : Nat := 0
  scratch : Nat := 0
  carve : Nat := 0
  queue : Nat := 0
  compl : Nat := 0
  deriving DecidableEq, Repr

/-- An entry of a continuation bin (R31, R203): the key of its thread with the side of a sleeve pair, and its own number. -/
structure BinEntry where
  id : Nat
  val : Word
  time : Nat
  gen : Nat
  gid : Nat
  side : Nat
  round : Nat
  gidx : Nat
  lane : Nat
  deriving DecidableEq, Repr

/-- A continuation bin (R264). -/
structure Bin where
  target : Nat
  entries : List BinEntry
  formed : Nat := 0
  deriving DecidableEq, Repr

/-- A group that has formed from a queue or a bin and waits for its place (R30, R31): its `GID`, its generation, the clause
it starts at (none: VENTRY), the values for `K0` and, for the tasks of an ordered queue, their timestamps. `lanes`: the lanes that
exist, for tasks that run `again` after an abort (R205); else the first lanes. -/
structure Formed where
  gid : Nat
  gen : Nat
  start : Option Nat
  vals : List Word
  ts : List Nat := []
  lanes : List Nat := []
  again : Bool := false
  /-- The side that a task of a pair runs again on. -/
  side : Nat := 0
  deriving DecidableEq, Repr

/-- An entry of a core's L1 TLB (R304, R307). -/
structure TlbEntry where
  core : Nat
  ctx : Nat
  va : Nat
  size : Nat
  pa : Nat
  perm : BitVec 4
  deriving DecidableEq, Repr

/-- A grid (R18, R251, R255, R256). -/
structure Grid where
  uid : Nat := 0
  ctx : Nat := 0
  launch : Launch := {}
  gridId : Nat := 0
  depth : Nat := 0
  parent : Nat := 0
  code : Code := {}
  /-- What is left to place: die, first and last `GID` plus one (R256). -/
  ranges : List (Nat × Nat × Nat) := []
  /-- Side U of these pairs or groups formed and placed: workgroups placed and retired (R255). -/
  placedCount : Nat := 0
  wgDone : Nat := 0
  admitted : Nat := 0
  tstart : Option Nat := none
  lone : Bool := false
  uncached : Bool := false
  units : Sparse Nat := []
  /-- Workgroups that have claimed each unit (R202): unit and key; a workgroup's key is its generation times 2^33 plus twice its
  `GID` plus its side. -/
  claims : List (Nat × Nat) := []
  /-- The keys of the workgroups that have retired. -/
  retired : List Nat := []
  bins : List Bin := []
  waiting : List Formed := []
  /-- Groups formed from bins, of each generation (R203), and groups that a queue-fed binding has formed (R30). -/
  formedGen : Sparse Nat := []
  formed : Nat := 0
  /-- The reservation of a queue-fed binding (R261): the room of one of its workgroups, or the two of a pair; none before it is made. -/
  reserve : List Room := []
  gwct : Nat := 0
  /-- The marked argument words, as the front end read them at admission (R172, R175). -/
  marked : List Word := []
  /-- The translation of its completion record, as the front end used it at admission (R254, R255). -/
  complTlb : Option TlbEntry := none
  /-- Tailor run outstanding (R172), then code ready. -/
  tailorDue : Bool := false
  fit : Option Nat := none
  /-- Device time at which it retired (R33), until its completion record is written. -/
  ended : Option Nat := none
  deriving DecidableEq, Repr

/-- A device-queue entry (R258): payload, timestamp, time of entry, and its place in the queue's storage (R310). -/
structure QEntry where
  payload : Word
  ts : Nat
  time : Nat
  slot : Nat := 0
  deriving DecidableEq, Repr

/-- A queue of the device (R253, R258, R310). -/
structure Queue where
  num : Nat
  ctx : Nat
  device : Bool
  base : Nat := 0
  n : Nat := 0
  tailAddr : Nat := 0
  headAddr : Nat := 0
  tail : Nat := 0
  head : Nat := 0
  stopped : Bool := false
  /-- The record that the front end has copied and not yet admitted or failed (R252, R253). -/
  copied : Option (List Byte) := none
  /-- The grid of its last admitted record, which may still wait under R257 and then holds back the next one. -/
  last : Nat := 0
  capacity : Nat := 0
  entries : List QEntry := []
  closed : Bool := false
  bound : Option Nat := none
  deriving DecidableEq, Repr

/-- A speculative task (R205): its queue and entry, its group and lane with their grid, `GID`, side and core, write set (once it is no longer
speculative, the bytes it has stored), read set, held pushes, and the entries it has made for bins, by target. -/
structure Task where
  queue : Nat
  ts : Nat
  payload : Word
  grp : Nat
  lane : Nat
  grid : Nat := 0
  gid : Nat := 0
  core : Nat := 0
  wset : Sparse Byte := []
  rset : List Nat := []
  pushes : List (Nat × Word × Nat) := []
  side : Nat := 0
  regrps : List (Nat × BinEntry) := []
  exited : Bool := false
  spec : Bool := true
  deriving DecidableEq, Repr

/-- A wardrobe pool (R262). -/
structure Pool where
  id : Nat
  cap : Nat
  taken : List Nat := []
  deriving DecidableEq, Repr

/-- A stop record of the debugger (R330). -/
structure StopRec where
  target : Nat
  trap : TrapRec
  time : Nat
  deriving DecidableEq, Repr

/-- A breakpoint (R330): number, kind, value and target. -/
structure Break where
  num : Nat
  kind : Nat
  value : Nat
  target : Nat
  deriving DecidableEq, Repr

/-- A watchpoint (R327): number, first byte, length, kind. -/
structure Watch where
  num : Nat
  lo : Nat
  len : Nat
  kind : Nat
  deriving DecidableEq, Repr

/-- A context's trace buffer (R312), the device's own copy of its control block. -/
structure Trace where
  base : Nat := 0
  size : Nat := 0
  tail : Nat := 0
  head : Nat := 0
  dropped : Nat := 0
  armed : Bool := false
  suspended : Bool := false
  deriving DecidableEq, Repr

/-- A pocket (R339) without its STATE bytes. -/
structure Pocket where
  ctx : Nat
  time : Nat
  chain : List TrapRec
  /-- The number that STATE, in the save-area form that the spec does not give, is drawn from. -/
  seed : Nat := 0
  deriving DecidableEq, Repr

/-- A completion record that is written before an ended context's translations are freed (R254, R255): its fields, and the translation that the
front end found at admission. -/
structure EndRec where
  compl : Nat
  status : Nat
  info : Nat := 0
  gridId : Nat := 0
  wgDone : Nat := 0
  tstart : Nat
  tend : Nat
  entry : Option TlbEntry := none
  deriving DecidableEq, Repr

/-- A sampled memory request that has no record yet (R335): its issuer, the address of its word, its virtual address, and, while it may be in
flight, the key of its first byte. -/
structure Sample where
  grp : Nat
  pc : Nat
  va : Nat
  key : Option Nat := none
  deriving DecidableEq, Repr

/-- A context (R300, R302). -/
structure Context where
  id : Nat := 0
  det : Bool := false
  partBase : Nat := 0
  partSize : Nat := 1
  privBase : Nat := 0
  windows : Nat := 0
  walkerVa : Nat := 0
  /-- The handler's code object, none when absent (R324). -/
  handlerVa : Option Nat := none
  resident : Bool := false
  /-- Pre-empted by `CTX_PREEMPT` until `CTX_RESTORE` (R330). -/
  held : Bool := false
  winUsed : List Nat := []
  pools : List Pool := []
  reported : List Nat := []
  attached : Bool := false
  breaks : List Break := []
  watches : List Watch := []
  events : List StopRec := []
  trace : Trace := {}
  /-- Sampling (R335): k; the memory requests of each core so far; the sampled requests without a record. -/
  sampleK : Nat := 0
  requests : Sparse Nat := []
  samples : List Sample := []
  lastProgress : Nat := 0
  keySeed : Nat := 0
  /-- HASH of each code object launched (R315). -/
  hashes : List Nat := []
  /-- Its work has ended, and it is freed once its completion records are written and its frames are kept (R254, R300, R340). -/
  ending : Bool := false
  due : List EndRec := []
  deriving DecidableEq, Repr

/-- A translation that waits for a core's walker slot (R305). -/
structure Miss where
  core : Nat
  ctx : Nat
  grp : Nat
  va : Nat
  kind : Nat
  deriving DecidableEq, Repr

/-- What the walker has answered for a translation that an engine of the device asked of a core (R305). -/
structure AgentWalk where
  core : Nat
  ctx : Nat
  walked : Walked
  deriving DecidableEq, Repr

/-- A cached copy of a line (R209, R217, R218): level 1 of a core or level 2 of a die, the line, the bytes of the leased
copy if it holds one, the expiry, dirty bytes by offset, the keep state and next-victim state of R211. -/
structure CLine where
  lvl : Nat
  unit : Nat
  line : Nat
  copy : Option (List Byte) := none
  expiry : Nat := 0
  dirty : Sparse Byte := []
  /-- The threads (issuer, lane) that stored the dirty bytes. -/
  owners : List (Nat × Nat) := []
  keep : Bool := false
  deriving DecidableEq, Repr

/-- A store or non-returning atomic issued and not yet performed (R217, R219, R220): the thread, the key of its first byte, and either the
bytes or the operation. -/
structure PStore where
  grp : Nat
  lane : Nat
  addr : Nat
  bytes : List Byte
  op : Option AtomicOp := none
  operand : Word := 0
  scope : Nat
  evc : Nat := 0
  peer : Option Nat := none
  deriving DecidableEq, Repr

/-- A fitting-cache entry (R190, R191, R192). -/
structure FitEntry where
  id : Nat
  ctx : Nat
  objid : Nat
  hash : Nat
  width : Nat
  scratch : Nat
  caps : Nat
  digest : Nat
  mask : Nat
  words : List Word
  dims : List Nat
  code : Residual
  folds : Nat
  pages : List Nat
  cached : Bool := true
  valid : Bool := true
  used : Nat := 0
  deriving DecidableEq, Repr

/-- The mailbox registers (R303). -/
structure Mailbox where
  /-- `MBCAP`: the size of `MBPAY` in bytes. -/
  cap : Word := 4096
  cmd : Word := 0
  go : Bool := false
  /-- The command code and the parameters, as they stood when GO was written (R303). -/
  code : Nat := 0
  args : Sparse Byte := []
  sts : Word := 0
  evt : BitVec 6 := 0
  ien : BitVec 6 := 0
  /-- The running command has begun and waits for the end of its context (R300). -/
  begun : Bool := false
  ftail : Word := 0
  reason : BitVec 8 := 0
  pay : Sparse Byte := []
  deriving DecidableEq, Repr

/-- A page report that waits (R306). -/
structure Report where
  ctx : Nat
  page : Nat
  kind : Nat
  deriving DecidableEq, Repr

/-- The page-report ring (R306). -/
structure FaultRing where
  base : Nat
  n : Nat
  headAddr : Nat
  head : Nat := 0
  tail : Nat := 0
  deriving DecidableEq, Repr

/-- A member of the Seam domain (R316, R318). -/
structure Member where
  num : Nat
  present : Bool := true
  joined : Bool := false
  /-- Device time at which its last flit arrived. -/
  flit : Nat := 0
  deriving DecidableEq, Repr

/-- A window that a context of this device exports (R317). -/
structure PeerExport where
  win : Nat
  ctx : Nat
  va : Nat
  len : Nat
  r : Bool
  w : Bool
  deriving DecidableEq, Repr

/-- A peer's window mapped into a context (R317). -/
structure PeerImport where
  ctx : Nat
  member : Nat
  win : Nat
  va : Nat
  len : Nat
  deriving DecidableEq, Repr

/-- Frame lock (R319): the series in force and the one that follows from an instant on. -/
structure FrameLock where
  t0 : Nat
  period : Nat
  next : Option (Nat × Nat × Nat) := none
  deriving DecidableEq, Repr

/-- The frame source (R341); `dest` is a host physical base or an offset in the peer window `win`. -/
structure FrameSource where
  ctx : Nat
  base : Nat
  slots : Nat
  w : Nat
  h : Nat
  fmt : Nat
  margin : Nat
  toPeer : Bool
  win : Nat
  dest : Nat
  deriving DecidableEq, Repr

/-- The last good frame (R340, R341): slot, instant, colour, depth and motion bytes. -/
structure GoodFrame where
  slot : Nat
  k : Nat
  colour : List Byte
  depth : List Byte
  motion : List Byte
  deriving DecidableEq, Repr

/-- What the engine has still to write in the ring, after a translation that waits (R341): a field of a slot's descriptor, or STATE 0 in a slot
that is complete for an instant up to `k`. -/
inductive SlotWork where
  | put (slot off val : Nat)
  | free (slot k : Nat)
  deriving DecidableEq, Repr

/-- The presentation engine (R340, R341). -/
structure Present where
  source : Option FrameSource := none
  /-- What a later `FRAME_SOURCE` puts in its place at the next instant. -/
  nextSource : Option (Option FrameSource) := none
  good : Option GoodFrame := none
  /-- The decision of the check for an instant: its index and the complete frame, if any. -/
  decided : Option (Nat × Option GoodFrame) := none
  /-- The check for this instant waits for a translation, and what HBM, host memory and the peers' windows held at its moment (R340). -/
  checking : Option Nat := none
  seen : Sparse Byte × Sparse Byte × Sparse Byte := ([], [], [])
  /-- The source's context ends, and its complete frames have still to be kept (R340). -/
  keeping : Bool := false
  /-- The complete frames that a context left when it ended or was saved, and whether it has ended (R340). -/
  kept : List GoodFrame := []
  gone : Bool := false
  todo : List SlotWork := []
  /-- Instants at or before this time are over. -/
  lastAt : Nat := 0
  frames : Nat := 0
  cloaks : Nat := 0
  blacks : Nat := 0
  lastK : Nat := 0
  deriving DecidableEq, Repr

/-- What the next turn of the schedule is (log entry 1): an issuer's issue slot, a device step, the moment at which a lane's load of the
`n`-th operation in flight of an issuer is performed (R220, R364), or a store that a peer's own threads perform at its home in the window they
export to this device (R222, R240). -/
inductive Turn where
  | issue (uid : Nat)
  | event (i : Instr)
  | perform (uid n lane : Nat)
  | peerStore (member win off : Nat) (bytes : List Byte)
  deriving DecidableEq, Repr

/-- A turn with the device time it takes place at. -/
structure Slot where
  due : Nat
  what : Turn
  deriving DecidableEq, Repr

/-- The whole machine. -/
structure State where
  /-- The issuer that issues, and the others. -/
  grp : Group := {}
  groups : List Group := []
  wgs : List Workgroup := []
  grids : List Grid := []
  ctxs : List Context := []
  tape : List Slot := []
  /-- Counter of the free values, and the next internal number of an issuer, workgroup, grid or entry. -/
  free : Nat := 0
  nextId : Nat := 1
  /-- Device time (R318). -/
  time : Nat := 0
  clockMhz : Nat := 1300
  /-- HBM bytes by physical address; host memory; the bytes of peers' windows by `peerAddr` less `peerBase` (R317). -/
  hbm : Sparse Byte := []
  host : Sparse Byte := []
  peer : Sparse Byte := []
  /-- Physical ranges whose home is the host: first byte and length. -/
  hostRanges : List (Nat × Nat) := []
  /-- What a byte of memory held before the store that last changed it, and when that was (R51): a fetch may still return it. -/
  old : Sparse (Byte × Nat) := []
  stores : List PStore := []
  caches : List CLine := []
  /-- The latest lease expiry granted for each line (R218). -/
  leases : Sparse Nat := []
  tlb : List TlbEntry := []
  misses : List Miss := []
  /-- Walker outcomes for the device's own translations. -/
  agentWalks : List AgentWalk := []
  /-- Traps that wait for a handler slot (R324), oldest first: core and issuer. -/
  traps : List (Nat × Nat) := []
  /-- Carve-out of each core in units of 64 KiB, by core, default 4 (R210). -/
  carve : Sparse Nat := []
  pattern : List PEntry := []
  queues : List Queue := []
  tasks : List Task := []
  fits : List FitEntry := []
  mbox : Mailbox := {}
  msi : List Nat := []
  ring : Option FaultRing := none
  reports : List Report := []
  pockets : List Pocket := []
  /-- The partition layout (R301): first die and number of dies. -/
  layout : List (Nat × Nat) := [(0, 8)]
  started : Bool := false
  minimal : Bool := false
  failedStarts : Nat := 0
  out : List UnitId := []
  /-- Uncorrectable soft errors of each unit since the last start (R343). -/
  unitErrors : List UnitId := []
  corrected : Nat := 0
  /-- The firmware images that run: identifier and SHAKE256 digest (R314, R315). -/
  images : List (Nat × Nat) := []
  ide : Bool := false
  self : Nat := 0
  /-- Whether this device has completed joining, and its count from which it is within 12 ns of the source's. -/
  selfJoined : Bool := false
  joinReady : Option Nat := none
  members : List Member := []
  exports : List PeerExport := []
  imports : List PeerImport := []
  lock : Option FrameLock := none
  present : Present := {}
  gridCount : Nat := 0
  /-- The thread slot after the one that issued last on each bobbin, by cluster (R119). -/
  bobNext : Sparse Nat := []
  deriving DecidableEq, Repr

/-- Why the machine stops: never. Every row of the opcode table has an effect, and what goes wrong in it is a trap, a report, a status or a
stall of the spec's own, which is a next state. No constructor means that no step ends in a fault, which is safe. -/
inductive Fault
  deriving DecidableEq, Repr

/-- Why an instruction has no meaning. -/
inductive Refusal where
  /-- Raised by an arm of `exec` whose instruction has no meaning; no arm does. Safe: the run would end there. -/
  | notModelled (mnemonic : String)
  deriving DecidableEq, Repr

/-- The machine after reset: no start has been made (R342), no context exists, every memory lists nothing, and every
register is at the value the spec gives or, where it gives none, at the value the assumption log names. -/
def State.reset : State := {}

end Sys2Proof.Machine
end

