-- ==== Sys2Proof/Machine/Sparse.lean ====
section
/-!
DEFINITION. Reading and writing a sparse map. A write of the default value removes the key, so equal maps are equal lists.
-/

namespace Sys2Proof.Machine

/-- The entry of a key, if one is listed. -/
def sfind {α : Type} (k : Nat) : Sparse α → Option α
  | [] => none
  | (a, x) :: r => if a = k then some x else sfind k r

/-- The value of a key: its entry, or the default. -/
def sget {α : Type} (d : α) (k : Nat) (m : Sparse α) : α := (sfind k m).getD d

/-- The map without a key. -/
def sdel {α : Type} (k : Nat) : Sparse α → Sparse α
  | [] => []
  | (a, x) :: r => if a = k then sdel k r else (a, x) :: sdel k r

/-- The map with an entry for a key, in its place of the rising order. -/
def sins {α : Type} (k : Nat) (v : α) : Sparse α → Sparse α
  | [] => [(k, v)]
  | (a, x) :: r => if k < a then (k, v) :: (a, x) :: r else if k = a then (k, v) :: r else (a, x) :: sins k v r

/-- The map with a value at a key. -/
def sput {α : Type} [DecidableEq α] (d : α) (k : Nat) (v : α) (m : Sparse α) : Sparse α :=
  if v = d then sdel k m else sins k v m

/-- The canonical form: keys rise, and no entry equals the default. -/
def swf {α : Type} [DecidableEq α] (d : α) : Sparse α → Bool
  | [] => true
  | [(_, x)] => decide (x ≠ d)
  | (a, x) :: (b, y) :: r => decide (x ≠ d) && decide (a < b) && swf d ((b, y) :: r)

/-- Values written one after the other from a key upwards. -/
def sputs {α : Type} [DecidableEq α] (d : α) (k : Nat) : List α → Sparse α → Sparse α
  | [], m => m
  | v :: vs, m => sputs d (k + 1) vs (sput d k v m)

/-- The values of `n` keys from a key upwards. -/
def sgets {α : Type} (d : α) (k : Nat) : Nat → Sparse α → List α
  | 0, _ => []
  | n + 1, m => sget d k m :: sgets d (k + 1) n m

end Sys2Proof.Machine
end

