-- ==== Sys2Proof/Machine/Bits.lean ====
section
/-!
DEFINITION. Lane masks, byte order and sign extension, as the chapters use them (R4, R7, R269).
-/

namespace Sys2Proof.Machine

/-- Bit `l` of a lane mask. -/
def bit (m : DWord) (l : Nat) : Bool := m.getLsbD l

/-- The mask with the bit of one lane. -/
def laneBit (l : Nat) : DWord := BitVec.ofNat 64 (2 ^ l)

/-- The mask of the lowest `n` lanes. -/
def lowMask (n : Nat) : DWord := BitVec.ofNat 64 (2 ^ n - 1)

/-- The lanes of a mask in ascending order. -/
def lanes (m : DWord) : List Nat := (List.range 64).filter (bit m)

/-- The number of lanes of a mask. -/
def popMask (m : DWord) : Nat := (lanes m).length

/-- The lowest lane of a mask. -/
def lowLane (m : DWord) : Option Nat := (lanes m).head?

/-- The mask of a list of lanes. -/
def maskOf : List Nat → DWord
  | [] => 0
  | l :: ls => laneBit l ||| maskOf ls

/-- A mask with bit `l` set to `b`. -/
def setBit (m : DWord) (l : Nat) (b : Bool) : DWord := if b then m ||| laneBit l else m &&& ~~~(laneBit l)

/-- The bytes of a number, lowest first. -/
def toBytes : Nat → Nat → List Byte
  | 0, _ => []
  | k + 1, n => BitVec.ofNat 8 n :: toBytes k (n / 256)

/-- The number of bytes, lowest first (R4). -/
def ofBytes : List Byte → Nat
  | [] => 0
  | b :: bs => b.toNat + 256 * ofBytes bs

/-- A little-endian field of a record. -/
def fieldAt (bs : List Byte) (off n : Nat) : Nat := ofBytes ((bs.drop off).take n)

/-- The word of four bytes. -/
def wordOf (bs : List Byte) : Word := BitVec.ofNat 32 (ofBytes bs)

/-- Bits [hi : lo] of a word as a number. -/
def bitsOf (w : Word) (hi lo : Nat) : Nat := w.toNat / 2 ^ lo % 2 ^ (hi + 1 - lo)

/-- A 64-bit value from its low and high words. -/
def pair64 (lo hi : Word) : Nat := lo.toNat + 2 ^ 32 * hi.toNat

/-- The low and high words of a 64-bit value. -/
def loWord (n : Nat) : Word := BitVec.ofNat 32 n
def hiWord (n : Nat) : Word := BitVec.ofNat 32 (n / 2 ^ 32)

/-- Signed value of the low `k` bits of a number. -/
def signedOf (k n : Nat) : Int :=
  let v := n % 2 ^ k
  if v < 2 ^ (k - 1) then (v : Int) else (v : Int) - (2 ^ k : Nat)

/-- Two's complement of an integer in 32 bits. -/
def wordOfInt (i : Int) : Word := BitVec.ofInt 32 i

/-- A Boolean as a word. -/
def wordOfBool (b : Bool) : Word := if b then 1 else 0

/-- The larger of two numbers by the first component of a list, for a fold. -/
def maxOf (l : List Nat) : Nat := l.foldl Nat.max 0

/-- The elements of a list with their positions. -/
def indexed {α : Type} (n : Nat) : List α → List (Nat × α)
  | [] => []
  | a :: as => (n, a) :: indexed (n + 1) as

end Sys2Proof.Machine
end

