-- ==== Sys2Proof/Machine/Float.lean ====
section
/-!
DEFINITION. Number formats and rounding (R62 to R76, R79 to R82): decoding to exact values, exact sums and products of
dyadic numbers, one rounding, and the special values of each format.
-/

namespace Sys2Proof.Machine

/-- How a floating format uses its top codes (R62, R63). -/
inductive Tops where
  /-- Infinity and NaN at the all-ones exponent. -/
  | ieee
  /-- No infinity; only the magnitude of all ones is NaN (E4M3). -/
  | e4m3
  /-- Finite only. -/
  | finite
  deriving DecidableEq, Repr

/-- A floating format: exponent bits, fraction bits, bias, top codes, and whether FTZ applies to it (R73). -/
structure Fmt where
  eb : Nat
  mb : Nat
  bias : Nat
  tops : Tops := .ieee
  wide : Bool := false
  deriving DecidableEq, Repr

def fp64 : Fmt := { eb := 11, mb := 52, bias := 1023, wide := true }
def fp32 : Fmt := { eb := 8, mb := 23, bias := 127, wide := true }
def fp16 : Fmt := { eb := 5, mb := 10, bias := 15, wide := true }
def bf16 : Fmt := { eb := 8, mb := 7, bias := 127, wide := true }
def e4m3 : Fmt := { eb := 4, mb := 3, bias := 7, tops := .e4m3 }
def e5m2 : Fmt := { eb := 5, mb := 2, bias := 15 }
def e3m2 : Fmt := { eb := 3, mb := 2, bias := 3, tops := .finite }
def e2m3 : Fmt := { eb := 2, mb := 3, bias := 1, tops := .finite }
def e2m1 : Fmt := { eb := 2, mb := 1, bias := 1, tops := .finite }

/-- The weight of the sign bit. -/
def Fmt.signBit (f : Fmt) : Nat := 2 ^ (f.eb + f.mb)

/-- The largest finite magnitude (R63). -/
def Fmt.maxCode (f : Fmt) : Nat :=
  match f.tops with
  | .ieee => (2 ^ f.eb - 1) * 2 ^ f.mb - 1
  | .e4m3 => f.signBit - 2
  | .finite => f.signBit - 1

/-- The code of infinity, in the formats that have it. -/
def Fmt.infCode (f : Fmt) : Nat := (2 ^ f.eb - 1) * 2 ^ f.mb

/-- The generated NaN (R63, R74); a finite-only format gives +0 (R76). -/
def Fmt.nanCode (f : Fmt) : Nat :=
  match f.tops with
  | .ieee => f.infCode + 2 ^ (f.mb - 1)
  | .e4m3 => f.signBit - 1
  | .finite => 0

/-- An exact value: NaN, an infinity, or (-1)^s · m · 2^e. -/
inductive FVal where
  | nan
  | inf (s : Bool)
  | fin (s : Bool) (m : Nat) (e : Int)
  deriving DecidableEq, Repr

/-- The value of a code (R62, R63). -/
def Fmt.decode (f : Fmt) (code : Nat) : FVal :=
  let s := decide (code / f.signBit % 2 = 1)
  let mag := code % f.signBit
  let ex := mag / 2 ^ f.mb
  let fr := mag % 2 ^ f.mb
  let num := if ex = 0 then FVal.fin s fr (1 - (f.bias : Int) - f.mb)
    else FVal.fin s (2 ^ f.mb + fr) ((ex : Int) - f.bias - f.mb)
  match f.tops with
  | .ieee => if ex = 2 ^ f.eb - 1 then (if fr = 0 then .inf s else .nan) else num
  | .e4m3 => if mag = f.signBit - 1 then .nan else num
  | .finite => num

/-- A source under FTZ: a subnormal of a wide format reads as a zero of its sign (R73). -/
def Fmt.input (f : Fmt) (ftz : Bool) (code : Nat) : FVal :=
  match f.decode code with
  | .fin s m e => if ftz && f.wide && decide (m < 2 ^ f.mb) then .fin s 0 0 else .fin s m e
  | v => v

/-- The rounding of a word: mode, SAT, FTZ and the stochastic value (R71 to R73). -/
structure Ctl where
  mode : Nat := 0
  sat : Bool := false
  ftz : Bool := false
  q : Nat := 0
  deriving DecidableEq, Repr

/-- Whether the larger magnitude is chosen between two adjacent candidates (R71): the magnitude lies `rem / den` above
the smaller one, and a little more when `sticky`. -/
def roundsUp (c : Ctl) (s odd : Bool) (rem den : Nat) (sticky : Bool) : Bool :=
  if rem = 0 && !sticky then false
  else match c.mode with
    | 0 => decide (2 * rem > den) || (decide (2 * rem = den) && (sticky || odd))
    | 1 => false
    | 2 => !s
    | 3 => s
    | 4 => decide (2 * rem ≥ den)
    | _ =>
      if s then !(decide ((den - rem) * 2 ^ 32 > c.q * den))
      else decide (rem * 2 ^ 32 > c.q * den) || (sticky && decide (rem * 2 ^ 32 = c.q * den))

/-- A non-negative integer power of two, for a shift that may be negative. -/
def shiftUp (n : Nat) (k : Int) : Nat := n * 2 ^ k.toNat

/-- The magnitude code of m · 2^e rounded with an unbounded exponent: candidates of R71. -/
def Fmt.roundMag (f : Fmt) (c : Ctl) (s : Bool) (m : Nat) (e : Int) (sticky : Bool) : Nat :=
  if m = 0 then 0
  else
    let top : Int := (Nat.log2 m : Int) + e
    let qe : Int := max top (1 - (f.bias : Int)) - f.mb
    let base : Nat := (qe + f.mb + f.bias - 1).toNat * 2 ^ f.mb
    let sh := qe - e
    if sh ≤ 0 then base + shiftUp m (-sh)
    else
      let den := 2 ^ sh.toNat
      let lo := m / den
      base + lo + (if roundsUp c s (decide (lo % 2 = 1)) (m % den) den sticky then 1 else 0)

/-- A magnitude with its sign. -/
def Fmt.signed (f : Fmt) (s : Bool) (mag : Nat) : Nat := if s then f.signBit + mag else mag

/-- An infinite result (R71, R73, R76). -/
def Fmt.infinite (f : Fmt) (sat : Bool) (s : Bool) : Nat :=
  match f.tops with
  | .ieee => f.signed s (if sat then f.maxCode else f.infCode)
  | .e4m3 => if sat then f.signed s f.maxCode else f.nanCode
  | .finite => f.signed s f.maxCode

/-- An overflow: the table of R71, then R76 for the formats without infinity. -/
def Fmt.overflow (f : Fmt) (c : Ctl) (s : Bool) : Nat :=
  let toMax := match c.mode with
    | 1 => true
    | 2 => s
    | 3 => !s
    | _ => false
  match f.tops with
  | .ieee => if toMax then f.signed s f.maxCode else f.infinite c.sat s
  | _ => f.infinite c.sat s

/-- m · 2^e, and a little more when `sticky`, rounded to the format with SAT and FTZ (R71, R73). -/
def Fmt.roundFin (f : Fmt) (c : Ctl) (s : Bool) (m : Nat) (e : Int) (sticky : Bool) : Nat :=
  let mag := f.roundMag c s m e sticky
  if mag > f.maxCode then f.overflow c s
  else if c.ftz && f.wide && decide (mag < 2 ^ f.mb) then f.signed s 0
  else f.signed s mag

/-- An exact value rounded to a format (R71, R73, R74, R76). -/
def Fmt.round (f : Fmt) (c : Ctl) : FVal → Nat
  | .nan => f.nanCode
  | .inf s => f.infinite c.sat s
  | .fin s m e => f.roundFin c s m e false

def FVal.neg : FVal → FVal
  | .nan => .nan
  | .inf s => .inf (!s)
  | .fin s m e => .fin (!s) m e

/-- The exact product; 0 · inf is NaN (R74). -/
def FVal.mul : FVal → FVal → FVal
  | .nan, _ => .nan
  | _, .nan => .nan
  | .inf s, .inf t => .inf (s != t)
  | .inf s, .fin t m _ => if m = 0 then .nan else .inf (s != t)
  | .fin s m _, .inf t => if m = 0 then .nan else .inf (s != t)
  | .fin s m e, .fin t n d => .fin (s != t) (m * n) (e + d)

def FVal.isNan : FVal → Bool
  | .nan => true
  | _ => false

def FVal.isInf (s : Bool) : FVal → Bool
  | .inf t => s == t
  | _ => false

/-- A zero of the given sign. -/
def FVal.isZero (s : Bool) : FVal → Bool
  | .fin t m _ => (s == t) && decide (m = 0)
  | _ => false

/-- The exponent of a finite value that is not zero, for the common scale of a sum. -/
def FVal.exps : List FVal → Option Int
  | [] => none
  | .fin _ m e :: r =>
    if m = 0 then FVal.exps r
    else match FVal.exps r with
      | none => some e
      | some d => some (min e d)
  | _ :: r => FVal.exps r

/-- The sum of finite values as an integer multiple of 2^e, where e is at most every exponent. -/
def FVal.scaled (e : Int) : List FVal → Int
  | [] => 0
  | .fin s m d :: r =>
    (if m = 0 then 0 else if s then -((m * 2 ^ (d - e).toNat : Nat) : Int) else ((m * 2 ^ (d - e).toNat : Nat) : Int))
      + FVal.scaled e r
  | _ :: r => FVal.scaled e r

/-- The exact sum of addends, with the sign of an exact zero by R71. -/
def FVal.sum (mode : Nat) (l : List FVal) : FVal :=
  if l.any FVal.isNan then .nan
  else if l.any (FVal.isInf false) then (if l.any (FVal.isInf true) then .nan else .inf false)
  else if l.any (FVal.isInf true) then .inf true
  else
    let e := (FVal.exps l).getD 0
    let t := FVal.scaled e l
    if t = 0 then
      if l.all (FVal.isZero false) then .fin false 0 0
      else if l.all (FVal.isZero true) then .fin true 0 0
      else .fin (decide (mode = 3)) 0 0
    else .fin (decide (t < 0)) t.natAbs e

/-- A finite value rounded to an integer magnitude (R76, R103). -/
def roundNat (c : Ctl) (s : Bool) (m : Nat) (e : Int) : Nat :=
  if e ≥ 0 then shiftUp m e
  else
    let den := 2 ^ (-e).toNat
    let lo := m / den
    lo + (if roundsUp c s (decide (lo % 2 = 1)) (m % den) den false then 1 else 0)

/-- The value rounded to an integer and saturated to a range; NaN gives 0 (R76). -/
def FVal.toInt (c : Ctl) (lo hi : Int) : FVal → Int
  | .nan => 0
  | .inf s => if s then lo else hi
  | .fin s m e =>
    let r : Int := roundNat c s m e
    let v := if s then -r else r
    if v < lo then lo else if v > hi then hi else v

/-- An integer as an exact value. -/
def FVal.ofInt (i : Int) : FVal := .fin (decide (i < 0)) i.natAbs 0

/-- The order of two values that are no NaN; zeros are equal (R271). -/
def FVal.cmp : FVal → FVal → Ordering
  | .inf s, .inf t => if s = t then .eq else if s then .lt else .gt
  | .inf s, _ => if s then .lt else .gt
  | _, .inf t => if t then .gt else .lt
  | a, b =>
    match FVal.sum 0 [a, FVal.neg b] with
    | .fin s m _ => if m = 0 then .eq else if s then .lt else .gt
    | _ => .eq

def FVal.sign : FVal → Bool
  | .nan => false
  | .inf s => s
  | .fin s _ _ => s

/-- The smaller or larger operand by R75: codes in, the selected code out; a subnormal under FTZ is the zero it reads as. -/
def Fmt.minMax (f : Fmt) (ftz takeMax : Bool) (a b : Nat) : Nat :=
  let flush (x : Nat) : Nat :=
    match f.input ftz x with
    | .fin s 0 _ => f.signed s 0
    | _ => x
  let va := f.input ftz a
  let vb := f.input ftz b
  if va.isNan then (if vb.isNan then f.nanCode else flush b)
  else if vb.isNan then flush a
  else
    let aBelow := match va.cmp vb with
      | .lt => true
      | .gt => false
      | .eq => va.sign && !vb.sign
    if aBelow then (if takeMax then flush b else flush a)
    else match va.cmp vb with
      | .eq => if va.sign = vb.sign then flush a else (if takeMax then flush a else flush b)
      | _ => if takeMax then flush a else flush b

/-- The stochastic value of a rounding (R72). -/
def stochastic (seed : Word) (a lane k : Nat) : Nat :=
  let h := seed ^^^ BitVec.ofNat 32 a ^^^ (BitVec.ofNat 32 lane * 0x9E3779B9#32) ^^^ (BitVec.ofNat 32 k * 0x85EBCA6B#32)
  let h := h ^^^ (h >>> 16)
  let h := h * 0x85EBCA6B#32
  let h := h ^^^ (h >>> 13)
  let h := h * 0xC2B2AE35#32
  let h := h ^^^ (h >>> 16)
  h.toNat

/-- FP32 helpers on words. -/
def f32 (w : Word) : FVal := fp32.decode w.toNat
def rne32 (v : FVal) : Word := BitVec.ofNat 32 (fp32.round {} v)
def fadd32 (a b : Word) : Word := rne32 (FVal.sum 0 [f32 a, f32 b])
def fsub32 (a b : Word) : Word := rne32 (FVal.sum 0 [f32 a, (f32 b).neg])
def fmul32 (a b : Word) : Word := rne32 ((f32 a).mul (f32 b))
/-- One rounding of a · b + c (R155). -/
def fma32 (a b c : Word) : Word := rne32 (FVal.sum 0 [f32 c, (f32 a).mul (f32 b)])
def neg32 (a : Word) : Word := a ^^^ 0x80000000#32
def abs32 (a : Word) : Word := a &&& 0x7FFFFFFF#32
def max32 (a b : Word) : Word := BitVec.ofNat 32 (fp32.minMax false true a.toNat b.toNat)
def min32 (a b : Word) : Word := BitVec.ofNat 32 (fp32.minMax false false a.toNat b.toNat)
def isNan32 (a : Word) : Bool := (f32 a).isNan
def isInf32 (a : Word) : Bool := (f32 a).isInf false || (f32 a).isInf true
def isZero32 (a : Word) : Bool := (f32 a).isZero false || (f32 a).isZero true

/-- The relation of two FP32 words, with NaN unordered (R271). -/
def lt32 (a b : Word) : Bool := !isNan32 a && !isNan32 b && ((f32 a).cmp (f32 b) == .lt)
def le32 (a b : Word) : Bool := !isNan32 a && !isNan32 b && ((f32 a).cmp (f32 b) != .gt)
def eq32 (a b : Word) : Bool := !isNan32 a && !isNan32 b && ((f32 a).cmp (f32 b) == .eq)

end Sys2Proof.Machine
end

