-- ==== Sys2Proof/Machine/Formats.lean ====
section
/-!
DEFINITION. The companded format CP8 (R67 to R70), quantising to narrow formats and reading them (R65, R76, R107, R108), the
operand formats of the matrix engine (R115) and its down-converter (R130).
-/

namespace Sys2Proof.Machine

/-- BASE and STEP of a table entry as exact values (R67). -/
def cpBase (t : List Word) (s : Nat) : FVal := fp16.decode ((t.getD s 0).toNat % 65536)
def cpStep (t : List Word) (s : Nat) : FVal := fp16.decode ((t.getD s 0).toNat / 65536)

/-- The default table (R70): B0 = 0, D0 = 2^-10, then Bs = 2^(s-8) and Ds = 2^(s-11). -/
def cpDefault : List Word :=
  0x14000000 :: (List.range 15).map fun i =>
    let s := i + 1
    BitVec.ofNat 32 ((if s = 1 then 0x1400 else (s + 4) * 1024) * 65536 + (s + 7) * 1024)

/-- An FP16 value as a multiple of 2^-24. -/
def cpUnits : FVal → Nat
  | .fin false m e => m * 2 ^ (e + 24).toNat
  | _ => 0

def cpB (t : List Word) (s : Nat) : Nat := cpUnits (cpBase t s)
def cpD (t : List Word) (s : Nat) : Nat := cpUnits (cpStep t s)

/-- A multiple of 2^-24 is an FP16 value. -/
def isFp16Units (n : Nat) : Bool :=
  match fp16.decode (fp16.roundFin {} false n (-24) false) with
  | .fin false m e => decide (m * 2 ^ (e + 24).toNat = n)
  | _ => false

/-- A table is valid (R67). -/
def cpValid (t : List Word) : Bool :=
  decide (t.length = 16) && decide ((t.getD 0 0).toNat % 65536 = 0)
    && (List.range 16).all (fun s =>
      match cpBase t s, cpStep t s with
      | .fin false _ _, .fin false m _ =>
        decide (m ≠ 0) && (List.range 8).all (fun j => isFp16Units (cpB t s + j * cpD t s))
          && (decide (s = 15) || decide (cpB t (s + 1) = cpB t s + 8 * cpD t s))
      | _, _ => false)
    && decide (cpB t 15 + 7 * cpD t 15 ≤ 65504 * 2 ^ 24)

/-- The value of a CP8 byte (R68). -/
def cpDecode (t : List Word) (b : Nat) : FVal :=
  let c := b % 128
  .fin (decide (b / 128 % 2 = 1)) (cpB t (c / 8) + c % 8 * cpD t (c / 8)) (-24)

/-- The segment of a magnitude given as a fraction `num / 2^sh` of 2^-24 units: the last one whose base it reaches. -/
def cpSegment (t : List Word) (num sh : Nat) : Nat → Nat
  | 0 => 0
  | s + 1 => if cpB t (s + 1) * 2 ^ sh ≤ num then s + 1 else cpSegment t num sh s

/-- The CP8 code of a value (R68). -/
def cpEncode (c : Ctl) (t : List Word) (v : FVal) : Nat :=
  match v with
  | .nan => 0
  | .inf s => (if s then 128 else 0) + 127
  | .fin s m e =>
    let sh := (-(e + 24)).toNat
    let num := m * 2 ^ (e + 24).toNat
    let g := cpSegment t num sh 15
    let den := cpD t g * 2 ^ sh
    let off := num - cpB t g * 2 ^ sh
    let p := 8 * g + off / den
    let p := p + (if roundsUp c s (decide (p % 2 = 1)) (off % den) den false then 1 else 0)
    (if s then 128 else 0) + min p 127

/-- The narrow formats of `QNT` and `DQNT` by MOD[4:2] (R107). -/
def qntFmt : Nat → Fmt
  | 1 => e4m3
  | 2 => e5m2
  | 3 => e3m2
  | 4 => e2m3
  | _ => e2m1

/-- A value rounded to a narrow format (R76, R107). -/
def quantise (c : Ctl) (t : List Word) (f : Nat) (v : FVal) : Nat :=
  match f with
  | 0 => cpEncode c t v
  | 6 => (BitVec.ofInt 8 (v.toInt c (-128) 127)).toNat
  | 7 => (BitVec.ofInt 4 (v.toInt c (-8) 7)).toNat
  | _ => (qntFmt f).round c v

/-- The width of an element's position and of its bits in a register (R65, R107). -/
def qntIs4 (f : Nat) : Bool := decide (f = 5) || decide (f = 7)

/-- A code placed at position p of a register (R107). -/
def placeNarrow (f p : Nat) (code : Nat) (d : Word) : Word :=
  let w := if qntIs4 f then 4 else 8
  let sh := w * p
  (d &&& ~~~(BitVec.ofNat 32 ((2 ^ w - 1) * 2 ^ sh))) ||| BitVec.ofNat 32 (code * 2 ^ sh)

/-- The value of the element at position p of a register (R108). -/
def readNarrow (t : List Word) (f p : Nat) (a : Word) : FVal :=
  match f with
  | 0 => cpDecode t (a.toNat / 2 ^ (8 * p) % 256)
  | 3 => e3m2.decode (a.toNat / 2 ^ (8 * p) % 64)
  | 4 => e2m3.decode (a.toNat / 2 ^ (8 * p) % 64)
  | 5 => e2m1.decode (a.toNat / 2 ^ (4 * p) % 16)
  | 6 => FVal.ofInt (signedOf 8 (a.toNat / 2 ^ (8 * p)))
  | 7 => FVal.ofInt (signedOf 4 (a.toNat / 2 ^ (4 * p)))
  | _ => (qntFmt f).decode (a.toNat / 2 ^ (8 * p) % 256)

/-! ### Format words of the matrix engine (R115) -/

/-- The columns of R115's table. -/
def fmtK : Nat → Nat
  | 0 => 24
  | 1 => 48
  | 2 => 48
  | 5 => 128
  | 6 => 128
  | 12 => 128
  | 7 => 192
  | 10 => 192
  | 13 => 192
  | _ => 96

def fmtBits : Nat → Nat
  | 0 => 32
  | 1 => 16
  | 2 => 16
  | 5 => 6
  | 6 => 6
  | 12 => 6
  | 7 => 4
  | 10 => 4
  | 13 => 4
  | _ => 8

def fmtRegs : Nat → Nat
  | 5 => 32
  | 6 => 32
  | 11 => 26
  | 12 => 34
  | 13 => 26
  | _ => 24

def fmtBlocks : Nat → Nat
  | 11 => 3
  | 12 => 4
  | 13 => 6
  | _ => 0

def fmtIsInt (f : Nat) : Bool := decide (8 ≤ f) && decide (f ≤ 10)
def fmtIsMx (f : Nat) : Bool := decide (11 ≤ f) && decide (f ≤ 13)

/-- A valid format word under the code object's features (R115). -/
def fmtValid (features : BitVec 128) (w : Word) : Bool :=
  decide (w.toNat ≤ 14) && (!fmtIsMx w.toNat || features.getLsbD 9) && (decide (w.toNat ≠ 14) || features.getLsbD 8)

/-- The value of an element's bits (R62 to R68); scales are applied apart. -/
def fmtDecode (t : List Word) (f code : Nat) : FVal :=
  match f with
  | 0 => fp32.decode code
  | 1 => fp16.decode code
  | 2 => bf16.decode code
  | 3 => e4m3.decode code
  | 4 => e5m2.decode code
  | 5 => e3m2.decode code
  | 6 => e2m3.decode code
  | 7 => e2m1.decode code
  | 8 => FVal.ofInt (signedOf 8 code)
  | 9 => FVal.ofInt (code % 256 : Nat)
  | 10 => FVal.ofInt (signedOf 4 code)
  | 11 => e4m3.decode code
  | 12 => e2m3.decode code
  | 13 => e2m1.decode code
  | _ => cpDecode t code

/-- An E8M0 scale (R64). -/
def scaleVal (x : Nat) : FVal := if x = 255 then .nan else .fin false 1 ((x : Int) - 127)

/-- The down-converter (R130): the element's code in the format. -/
def dconv (t : List Word) (f : Nat) (x : Word) : Nat :=
  let v := f32 x
  match f with
  | 0 => x.toNat
  | 1 => fp16.round {} v
  | 2 => bf16.round {} v
  | 3 => e4m3.round {} v
  | 4 => e5m2.round {} v
  | 5 => e3m2.round {} v
  | 6 => e2m3.round {} v
  | 7 => e2m1.round {} v
  | 8 => (BitVec.ofInt 8 (v.toInt {} (-128) 127)).toNat
  | 9 => (v.toInt {} 0 255).toNat
  | 10 => (BitVec.ofInt 4 (v.toInt {} (-8) 7)).toNat
  | _ => cpEncode {} t v

end Sys2Proof.Machine
end

