-- ==== Sys2Proof/Config.lean ====
section
/-!
DEFINITION. What the spec leaves open, as constants without a body (log entry 2): nothing can be proved of their values.
Each is applied to plain numbers of the state, so that two uses are the same value only where the numbers agree.
-/

namespace Sys2Proof.Config

/-- The contents of a scratchpad byte at placement outside deterministic mode (R22), by allocation and offset. -/
opaque freeScratch : Nat → Nat → BitVec 8

/-- The length of a lease the home grants (R218); the model caps it at 4,096 ns. -/
opaque leaseLength : Nat → Nat

/-- Whether a cache still holds a copy whose lease is valid: replacement is the device's choice (R209, R211). -/
opaque copyKept : Nat → Bool

/-- The HBM stack that is the home of a line (R10, R208): how addresses spread over the stacks is the device's own. -/
opaque homeStack : Nat → Nat

/-- Which entry of a full TLB a new one replaces (R304). -/
opaque tlbVictim : Nat → Nat

/-- Whether a fetch of a changed code word returns its old value (R51): by a number of the free counter and the word's address. -/
opaque fetchOld : Nat → Bool

/-- A context's fitting key (R190), which the device draws, by its number. -/
opaque fittingKey : Nat → BitVec 256

/-- The identity key drawn at manufacture (R314), and the Falcon-1024 signature it makes over some bytes (R315). -/
opaque identityKey : Nat
opaque falconSign : Nat → List (BitVec 8) → List (BitVec 8)

/-- Whether a Falcon-1024 signature over a digest verifies (R314). The spec names the scheme, and gives neither its computation nor the key
that firmware images are signed with (log entry 110). -/
opaque falconVerify : List (BitVec 8) → List (BitVec 8) → Bool

/-- The identifier and the SHAKE256 digest of a measured part of the device (R315): 0 the partition layout, 1 the capability words. The spec
does not give the bytes that the digest is taken over. -/
opaque measureId : Nat → Nat
opaque measureDigest : Nat → List Nat → Nat

/-- The identifier of a code object's entry (R315), by its HASH. -/
opaque measureCode : Nat → Nat

/-- The size and the bytes of a saved state in save-area form (R339), whose form the spec does not give. -/
opaque saveSize : Nat → Nat
opaque saveByte : Nat → Nat → BitVec 8

/-- Whether half a pixel of motion moves a pixel up or down (R340), which the spec does not state. -/
opaque halfPixelUp : Nat → Bool

/-- The length and the bytes of a debugger's item whose layout the spec does not give (R330): by the item and the numbers of its content. -/
opaque itemLen : Nat → List Nat → Nat
opaque itemByte : Nat → List Nat → Nat → BitVec 8

/-- The member number that outcome 3 of a walker gives for a page of no imported window (R305, R317), by the page: the spec names none. -/
opaque strayMember : Nat → BitVec 8

/-- A value that the spec leaves unstated. -/
opaque freeValue : Nat → BitVec 32

end Sys2Proof.Config
end

