-- ==== Sys2Proof/Machine/Phys.lean ====
section
/-!
DEFINITION. The parts of the state by name, the homes of memory (R208), translation by the cores' TLBs (R304, R307), and
what performing a store at the home does (R219). A home address below 2^64 is a physical address of this device or of the
host; one at or above 2^64 names a byte of a peer's window (R317).
-/

namespace Sys2Proof.Machine

/-! ### Parts by name -/

def State.setG (s : State) (f : Group → Group) : State := { s with grp := f s.grp }

def findGroup (uid : Nat) (s : State) : Option Group :=
  if s.grp.uid = uid then some s.grp else s.groups.find? (fun g => g.uid = uid)

def updGroup (uid : Nat) (f : Group → Group) (s : State) : State :=
  if s.grp.uid = uid then { s with grp := f s.grp }
  else { s with groups := s.groups.map fun g => if g.uid = uid then f g else g }

/-- The state with another issuer loaded, when it exists. -/
def loadGroup (uid : Nat) (s : State) : State :=
  if s.grp.uid = uid then s
  else match s.groups.find? fun g => g.uid = uid with
    | none => s
    | some g =>
      { s with
        grp := g
        groups := if s.grp.uid = 0 then s.groups.filter fun h => decide (h.uid ≠ uid)
          else s.groups.map fun h => if h.uid = uid then s.grp else h }

/-- A change made with an issuer loaded; the issuer that was loaded before is loaded again. -/
def within (uid : Nat) (f : State → State) (s : State) : State := loadGroup s.grp.uid (f (loadGroup uid s))

/-- Every issuer, the loaded one first. -/
def allGroups (s : State) : List Group := s.grp :: s.groups

/-- A change of every issuer. -/
def mapGroups (f : Group → Group) (s : State) : State := { s with grp := f s.grp, groups := s.groups.map f }

/-- The issuers without those that satisfy `p`; the loaded one is replaced by an empty issuer. -/
def dropGroups (p : Group → Bool) (s : State) : State :=
  { s with grp := if p s.grp then {} else s.grp, groups := s.groups.filter fun g => !p g }

def findWg (uid : Nat) (s : State) : Option Workgroup := s.wgs.find? (fun w => w.uid = uid)
def wgOf (s : State) : Workgroup := (findWg s.grp.wg s).getD {}
def updWg (uid : Nat) (f : Workgroup → Workgroup) (s : State) : State :=
  { s with wgs := s.wgs.map fun w => if w.uid = uid then f w else w }

def findCtx (id : Nat) (s : State) : Option Context := s.ctxs.find? (fun c => c.id = id)
def ctxOf (s : State) : Context := (findCtx s.grp.ctx s).getD {}
def updCtx (id : Nat) (f : Context → Context) (s : State) : State :=
  { s with ctxs := s.ctxs.map fun c => if c.id = id then f c else c }

def findGrid (uid : Nat) (s : State) : Option Grid := s.grids.find? (fun g => g.uid = uid)
def updGrid (uid : Nat) (f : Grid → Grid) (s : State) : State :=
  { s with grids := s.grids.map fun g => if g.uid = uid then f g else g }

def findQueue (n : Nat) (s : State) : Option Queue := s.queues.find? (fun q => q.num = n)
def updQueue (n : Nat) (f : Queue → Queue) (s : State) : State :=
  { s with queues := s.queues.map fun q => if q.num = n then f q else q }

/-- A fresh internal number. -/
def fresh (s : State) : Nat × State := (s.nextId, { s with nextId := s.nextId + 1 })

/-- A number for a free value. -/
def drawFree (s : State) : Nat × State := (s.free, { s with free := s.free + 1 })

def dieOfCore (c : Nat) : Nat := c / 48
def clusterOfCore (c : Nat) : Nat := c / 4

/-- A unit out of service (R343). -/
def unitOut (s : State) (u : UnitId) : Bool := s.out.contains u

/-- A die, a cluster, a core in service. -/
def dieWorks (s : State) (d : Nat) : Bool := !unitOut s (.die d)
def clusterWorks (s : State) (k : Nat) : Bool := dieWorks s (k / 12) && !unitOut s (.cluster k)
def coreWorks (s : State) (n : Nat) : Bool := clusterWorks s (n / 4) && !unitOut s (.core n)

/-- The core at which the device serves a context: the lowest core of its partition that works (R301, R343). -/
def partCore (s : State) (c : Context) : Nat :=
  (((List.range (48 * c.partSize)).map fun i => 48 * c.partBase + i).find? (coreWorks s)).getD (48 * c.partBase)

/-- A core of the partition (R300, R301). -/
def inPartition (c : Context) (core : Nat) : Bool :=
  decide (48 * c.partBase ≤ core) && decide (core < 48 * (c.partBase + c.partSize))

/-! ### Homes -/

def peerBase : Nat := 2 ^ 64

/-- The home address of a byte of a peer's window. -/
def peerAddr (member win off : Nat) : Nat := peerBase + (member * 2 ^ 64 + win) * 2 ^ 57 + off

/-- The member of the Seam domain whose window holds a home address. -/
def peerOf (p : Nat) : Option Nat := if p ≥ peerBase then some ((p - peerBase) / 2 ^ 121) else none

/-- The bytes of one HBM stack (R10): 48 GiB. -/
def stackBytes : Nat := 48 * 2 ^ 30

/-- The HBM stacks in service (R10, R343). -/
def workingStacks (s : State) : List Nat := (List.range 12).filter fun k => !unitOut s (.stack k)

/-- The HBM that is in service (R10, R12, R343): 576 GiB with all twelve stacks. -/
def hbmSize (s : State) : Nat := stackBytes * (workingStacks s).length

/-- A home of the host: what lies beyond the HBM in service, and the ranges that the platform gives to the host (log entry 70). -/
def isHost (s : State) (a : Nat) : Bool :=
  decide (hbmSize s ≤ a) || s.hostRanges.any fun r => decide (r.1 ≤ a) && decide (a < r.1 + r.2)

/-- A byte whose home is the host: CXL.cache keeps the device's copies of its line coherent, and no lease does (R241). -/
def hostHomed (s : State) (a : Nat) : Bool := decide (a < peerBase) && isHost s a

/-- The base die of a compute die, and of an HBM stack (R10): dies 2b and 2b + 1 and stacks 3b to 3b + 2 attach to base die b. -/
def baseOfDie (d : Nat) : Nat := d / 2
def baseOfStack (k : Nat) : Nat := k / 3

/-- The stack that backs a line of HBM, one of those in service, and the line's home, the L3 of that stack's base die (R208, R343). -/
def stackOf (s : State) (line : Nat) : Nat :=
  let ks := workingStacks s
  (ks[Config.homeStack line % ks.length]?).getD 0

/-- The line's home is the L3 of the base die that carries the compute die (R10, R208): its L2 holds no leased copy of such a line (R218). -/
def homedNear (s : State) (die line : Nat) : Bool :=
  decide (128 * line < peerBase) && !isHost s (128 * line) && decide (baseOfStack (stackOf s line) = baseOfDie die)

/-- What a byte of memory that nothing has written reads as (log entry 4). -/
def unwritten : Byte := 0

/-- The byte at a home. -/
def homeByte (s : State) (a : Nat) : Byte :=
  if a ≥ peerBase then sget unwritten (a - peerBase) s.peer
  else if isHost s a then sget unwritten a s.host
  else sget unwritten a s.hbm

/-- The state with a byte at its home. -/
def setHomeByte (a : Nat) (b : Byte) (s : State) : State :=
  if a ≥ peerBase then { s with peer := sput unwritten (a - peerBase) b s.peer }
  else if isHost s a then { s with host := sput unwritten a b s.host }
  else { s with hbm := sput unwritten a b s.hbm }

def homeBytes (s : State) (a : Nat) : Nat → List Byte
  | 0 => []
  | n + 1 => homeByte s a :: homeBytes s (a + 1) n

def setHomeBytes (a : Nat) : List Byte → State → State
  | [], s => s
  | b :: bs, s => setHomeBytes (a + 1) bs (setHomeByte a b s)

/-- Bytes of host memory by host physical address. -/
def hostBytes (s : State) (a n : Nat) : List Byte := sgets unwritten a n s.host
def setHostBytes (a : Nat) (bs : List Byte) (s : State) : State := { s with host := sputs unwritten a bs s.host }

def lineOf (a : Nat) : Nat := a / 128

/-- A store to a line breaks the reservations on it of every other thread (R226). -/
def breakResv (who : Option (Nat × Nat)) (place line : Nat) (s : State) : State :=
  mapGroups (fun g =>
    { g with resv := g.resv.filter fun e =>
        !(decide (e.2.place = place) && decide (lineOf e.2.addr = line) && decide (who ≠ some (g.uid, e.1))) }) s

/-- The copies of a line in the L1 of a core and in the L2 of its die: those on the way of the core's accesses. -/
def CLine.onWay (c : CLine) (core line : Nat) : Bool :=
  decide (c.line = line) && ((decide (c.lvl = 1) && decide (c.unit = core)) || (decide (c.lvl = 2) && decide (c.unit = dieOfCore core)))

/-- What a store performed at the home does to a cached copy: the copies on its way take the bytes, and dirty bytes it overwrites are gone
(R217); every other copy of a host-homed line is gone, and those of the device's own lines stay until their leases end (R219, R241). -/
def patchLine (host : Bool) (core line off : Nat) (bs : List Byte) (c : CLine) : CLine :=
  if c.onWay core line then
    { c with
      copy := c.copy.map fun l => l.take off ++ bs ++ l.drop (off + bs.length)
      dirty := c.dirty.filter fun d => !(decide (off ≤ d.1) && decide (d.1 < off + bs.length)) }
  else if host && decide (c.line = line) then { c with copy := none }
  else c

/-- The GWCT of a store performed now (R219). A peer home has granted leases to others too: the latest of them is a free value of at most
4,096 ns, drawn by the store, and the skew bound is added (R222, R246). -/
def gwctOf (s : State) (a : Nat) : Nat :=
  if a ≥ peerBase then max (s.time + min (Config.leaseLength s.free) 4096) (sget 0 (lineOf a) s.leases) + 25
  else max s.time (sget 0 (lineOf a) s.leases)

/-- A peer that this device can reach (R316, R318): it is a member that has joined and is present, and this device has joined. -/
def memberPresent (s : State) (m : Nat) : Bool :=
  s.selfJoined && s.members.any fun x => decide (x.num = m) && x.present && x.joined

/-- The home is the window of a peer that is not in the domain (R246, R317). -/
def peerGone (s : State) (a : Nat) : Bool := match peerOf a with
  | some m => !memberPresent s m
  | none => false

/-- While a grid runs, what each changed byte held before is kept for fetches (R51). -/
def noteOld (a : Nat) : List Byte → State → State
  | [], s => s
  | b :: bs, s =>
    noteOld (a + 1) bs (if s.grids.isEmpty || homeByte s a == b then s else { s with old := sins a (homeByte s a, s.time) s.old })

/-- A flit has arrived from the peer whose window holds a home (R316). -/
def flitFrom (a : Nat) (s : State) : State := match peerOf a with
  | none => s
  | some m => { s with members := s.members.map fun (x : Member) => if x.num = m then { x with flit := s.time } else x }

/-- The thread keeps the largest GWCT of its stores (R219). -/
def raiseGwct (who : Option (Nat × Nat)) (t : Nat) (s : State) : State :=
  match who with
  | none => s
  | some (uid, lane) => updGroup uid (fun g => { g with gwct := sput 0 lane (max t (sget 0 lane g.gwct)) g.gwct }) s

/-- The bytes that a task stores once it is no longer speculative (R205). -/
def noteTask (who : Option (Nat × Nat)) (a : Nat) (bs : List Byte) (s : State) : State :=
  { s with tasks := s.tasks.map fun t =>
    if who = some (t.grp, t.lane) ∧ t.spec = false then
      { t with wset := (indexed 0 bs).foldl (fun w p => sins (a + p.1) p.2 w) t.wset }
    else t }

/-- A store performed at the home: the bytes, the copies on its way, the reservations, the thread's GWCT. The bytes lie
in one line. A store to a peer that has left the domain is not performed and adds nothing to the GWCT (R246). -/
def performStore (who : Option (Nat × Nat)) (core : Nat) (a : Nat) (bs : List Byte) (s : State) : State :=
  if peerGone s a then s
  else
    let s := noteTask who a bs (setHomeBytes a bs (noteOld a bs s))
    let s := { s with caches := s.caches.map (patchLine (hostHomed s a) core (lineOf a) (a % 128) bs) }
    let s := raiseGwct who (gwctOf s a) (breakResv who 0 (lineOf a) s)
    if a ≥ peerBase then flitFrom a { s with free := s.free + 1 } else s

/-- Bytes split at line boundaries. -/
def splitLines (fuel a : Nat) (bs : List Byte) : List (Nat × List Byte) :=
  match fuel with
  | 0 => []
  | fuel + 1 =>
    if bs.isEmpty then []
    else
      let n := 128 - a % 128
      (a, bs.take n) :: splitLines fuel (a + n) (bs.drop n)

/-- Bytes that may cross lines, performed at the home by the device itself. -/
def agentStore (a : Nat) (bs : List Byte) (s : State) : State :=
  (splitLines (bs.length + 1) a bs).foldl (fun s p => performStore none 1000 p.1 p.2 s) s

/-- Host memory written by the device over CXL at system scope: a line that is a home of the device is written as its home. -/
def hostStore (a : Nat) (bs : List Byte) (s : State) : State :=
  (splitLines (bs.length + 1) a bs).foldl (fun s p =>
    if isHost s p.1 then performStore none 1000 p.1 p.2 s else setHostBytes p.1 p.2 s) s

/-! ### Translation -/

/-- Bytes of a page by its SIZE code (R307). -/
def pageBytes (size : Nat) : Nat := match size with
  | 0 => 2 ^ 16
  | 1 => 2 ^ 21
  | _ => 2 ^ 30

def page64 (va : Nat) : Nat := va / 65536 * 65536

def TlbEntry.covers (e : TlbEntry) (va : Nat) : Bool := decide (e.va ≤ va) && decide (va < e.va + pageBytes e.size)

/-- Two TLB entries of one context that share an address. -/
def TlbEntry.overlaps (e f : TlbEntry) : Bool :=
  decide (e.va < f.va + pageBytes f.size) && decide (f.va < e.va + pageBytes e.size)

def tlbFind (s : State) (core ctx va : Nat) : Option TlbEntry :=
  s.tlb.find? fun e => decide (e.core = core) && decide (e.ctx = ctx) && e.covers va

/-- Whether an entry permits an access kind (R305, R307): 0 load, 1 store or atomic, 2 fetch, 3 `PREF`. -/
def permits (perm : BitVec 4) (kind : Nat) : Bool :=
  match kind with
  | 1 => perm.getLsbD 2
  | 2 => perm.getLsbD 3
  | _ => perm.getLsbD 1

/-- The outcome of a translation. -/
inductive Trans where
  | ok (a : Nat)
  /-- Not in the TLB: the walker must run (R304). -/
  | miss
  /-- Refused (R305); the member number when a peer is absent (R317). -/
  | refused (peer : Option Nat)
  /-- Not present (R305). -/
  | absent
  deriving DecidableEq, Repr

/-- The import window of a context that holds an address (R317). -/
def importOf (s : State) (ctx va : Nat) : Option PeerImport :=
  s.imports.find? fun i => decide (i.ctx = ctx) && decide (i.va ≤ va) && decide (va < i.va + i.len)

/-- What a core's TLB gives for an address; `walked`: the walker has answered for the page already (R305). -/
def tlbTrans (s : State) (core ctx va kind : Nat) (walked : Bool) : Trans :=
  match tlbFind s core ctx va with
  | some e =>
    if permits e.perm kind then
      match importOf s ctx va with
      | some i => if memberPresent s i.member then .ok (peerAddr i.member i.win (va - i.va)) else .refused (some i.member)
      | none => .ok (e.pa + (va - e.va))
    else .refused none
  | none => if walked then .refused none else .miss

/-- The answer is for such an access. -/
def Walked.answers (w : Walked) (va kind : Nat) : Bool := decide (w.page = page64 va) && decide (w.kind = kind)

/-- The member that outcome 3 of the walker reports as absent (R305, R317): a free one where the page is of no import (log entry 108). -/
def absentMember (s : State) (ctx va : Nat) : Nat :=
  ((importOf s ctx va).map fun i => i.member).getD (Config.strayMember (page64 va)).toNat

/-- Translation of an address by a core's TLB, with the walker outcomes already known for the word's accesses (R305). -/
def translate (s : State) (core ctx va kind : Nat) (walks : List Walked) : Trans :=
  match walks.find? fun w => w.answers va kind with
  | none => tlbTrans s core ctx va kind false
  | some w =>
    match w.outcome with
    | 0 => tlbTrans s core ctx va kind true
    | 1 => .absent
    | 3 => .refused (some (absentMember s ctx va))
    | _ => .refused none

/-- The host's memory can be reached (R313, R342): IDE streams are set up, and the device is not in minimal mode. -/
def linkUp (s : State) : Bool := s.started && !s.minimal && s.ide

/-- An access to a home needs CXL.cache, for which the device makes no request yet (R313). -/
def linkWaits (s : State) (a : Nat) : Bool := hostHomed s a && !linkUp s

/-- Translation of an issuer's access. No routine can serve a miss of the walker slot: its addresses are physical ones (R304, R305,
log entry 47), and one that waits for the host's IDE streams asks for none (R313). -/
def xlate (s : State) (g : Group) (va kind : Nat) : Trans :=
  match g.kind with
  | .walker => if linkWaits s va then .miss else if va < 2 ^ 52 then .ok va else .refused none
  | _ => translate s g.core g.ctx va kind g.walks

/-- Translation for an engine of the device that serves a context: the TLB of the core it runs at. -/
def agentTranslate (s : State) (core ctx va kind : Nat) : Trans :=
  translate s core ctx va kind ((s.agentWalks.filter fun w => w.ctx = ctx ∧ w.core = core).map fun w => w.walked)

/-- The home that an engine reaches for an address; a home of the host is waited for until the IDE streams are there (R313). -/
def agentPlace (s : State) (core ctx va kind : Nat) : Trans :=
  match agentTranslate s core ctx va kind with
  | .ok a => if linkWaits s a then .miss else .ok a
  | t => t

/-- What engines asked of a context's walker is done: a later miss runs the routine again (R304, R305). -/
def forgetWalks (ctx : Nat) (s : State) : State := { s with agentWalks := s.agentWalks.filter fun w => decide (w.ctx ≠ ctx) }

/-- A translation asked of a core's walker slot, once (R305). -/
def askWalk (core ctx grp va kind : Nat) (s : State) : State :=
  if s.misses.any fun m => decide (m.core = core) && decide (m.ctx = ctx) && decide (m.grp = grp) && decide (page64 m.va = page64 va)
      && decide (m.kind = kind)
  then s
  else { s with misses := s.misses ++ [{ core := core, ctx := ctx, grp := grp, va := va, kind := kind }] }

/-- A page reported as not present, once for each context (R306). -/
def reportPage (ctx va kind : Nat) (s : State) : State :=
  match findCtx ctx s with
  | none => s
  | some c =>
    if c.reported.contains (page64 va) then s
    else
      let s := updCtx ctx (fun c => { c with reported := c.reported ++ [page64 va] }) s
      { s with reports := s.reports ++ [{ ctx := ctx, page := page64 va, kind := kind }] }

/-- The bytes of a context's memory for an engine of the device, at the home; the first translation that does not succeed
ends the read. -/
def agentRead (s : State) (core ctx va kind : Nat) : Nat → Except (Nat × Trans) (List Byte)
  | 0 => .ok []
  | n + 1 =>
    match agentPlace s core ctx va kind with
    | .ok a =>
      match agentRead s core ctx (va + 1) kind n with
      | .ok bs => .ok (homeByte s a :: bs)
      | .error e => .error e
    | t => .error (va, t)

/-- The flits that an engine's read of peers' windows brings (R316), up to the first translation that does not succeed. -/
def agentFlits (core ctx kind : Nat) : Nat → Nat → State → State
  | _, 0, s => s
  | va, n + 1, s => match agentTranslate s core ctx va kind with
    | .ok a => agentFlits core ctx kind (va + 1) n (flitFrom a s)
    | _ => s

/-- Bytes written to a context's memory by an engine of the device. Nothing is written when a translation does not succeed. -/
def agentWriteAddrs (s : State) (core ctx va : Nat) : Nat → Except (Nat × Trans) (List Nat)
  | 0 => .ok []
  | n + 1 =>
    match agentPlace s core ctx va 1 with
    | .ok a =>
      match agentWriteAddrs s core ctx (va + 1) n with
      | .ok as => .ok (a :: as)
      | .error e => .error e
    | t => .error (va, t)

def storeEach : List Nat → List Byte → State → State
  | a :: as, b :: bs, s => storeEach as bs (performStore none 1000 a [b] s)
  | _, _, s => s

def agentWrite (core ctx va : Nat) (bs : List Byte) (s : State) : Except (Nat × Trans) State :=
  match agentWriteAddrs s core ctx va bs.length with
  | .ok as => .ok (storeEach as bs s)
  | .error e => .error e

/-- What an engine does about a place that it could not reach: a miss asks for a walk, and what waits for the host's IDE streams for none; an
absent page is reported. -/
def agentWait (core ctx : Nat) (va kind : Nat) (t : Trans) (s : State) : State :=
  match t with
  | .miss => match agentTranslate s core ctx va kind with
    | .ok _ => s
    | _ => askWalk core ctx 0 va kind s
  | .absent => reportPage ctx va kind s
  | _ => s

end Sys2Proof.Machine
end

