-- ==== Sys2Proof/Machine/Frames.lean ====
section
/-!
DEFINITION. The frame ring that a context hands to the presentation engine (R341), and the complete frames that it leaves there when it ends or
is saved (R340).
-/

namespace Sys2Proof.Machine

/-- Bytes of a pixel, of a frame's colour, and of a slot. -/
def FrameSource.pix (f : FrameSource) : Nat := if f.fmt = 0 then 4 else 8
def FrameSource.area (f : FrameSource) : Nat := f.w * f.h
def FrameSource.slotBytes (f : FrameSource) : Nat := (64 + f.area * (f.pix + 8) + 65535) / 65536 * 65536
def FrameSource.slotVa (f : FrameSource) (i : Nat) : Nat := f.base + i * f.slotBytes

/-- What reading a slot for an instant comes to: complete with its contents, not complete, or a translation to wait for. -/
inductive SlotRead where
  | complete (f : GoodFrame)
  | no
  | miss (va : Nat)
  deriving DecidableEq, Repr

/-- A read of the ring by the engine. -/
def ringRead (s : State) (f : FrameSource) (va n : Nat) : Except (Nat × Trans) (List Byte) :=
  agentRead s (partCore s ((findCtx f.ctx s).getD {})) f.ctx va 0 n

/-- STATE and FRAMENO of a slot, or what its descriptor's translation gives. -/
def slotDesc (s : State) (f : FrameSource) (i : Nat) : Except (Nat × Trans) (Nat × Nat) :=
  match ringRead s f (f.slotVa i) 16 with
  | .ok d => .ok (fieldAt d 0 8 % 4, fieldAt d 8 8)
  | .error e => .error e

/-- A slot at the check for instant `k`. -/
def readSlot (s : State) (f : FrameSource) (k i : Nat) : SlotRead :=
  match slotDesc s f i with
  | .error (va, .miss) => .miss va
  | .error _ => .no
  | .ok (st, n) =>
    if st ≠ 2 ∨ n ≠ k then .no
    else match ringRead s f (f.slotVa i + 64) (f.area * (f.pix + 8)) with
      | .error (va, .miss) => .miss va
      | .error _ => .no
      | .ok c => .complete { slot := i, k := k, colour := c.take (f.area * f.pix), depth := (c.drop (f.area * f.pix)).take (f.area * 4)
                             motion := c.drop (f.area * (f.pix + 4)) }

/-- The first slot that is complete, or that waits for a translation. -/
def findSlot (s : State) (f : FrameSource) (k : Nat) : List Nat → SlotRead
  | [] => .no
  | i :: is => match readSlot s f k i with
    | .no => findSlot s f k is
    | r => r

/-- The flits that reading some slots of the ring brings (R316): their descriptors, and the frames that are complete. -/
def ringFlits (f : FrameSource) (slots : List Nat) (done : List GoodFrame) (s : State) : State :=
  let flits := fun (va n : Nat) (s : State) => agentFlits (partCore s ((findCtx f.ctx s).getD {})) f.ctx 0 va n s
  done.foldl (fun s g => flits (f.slotVa g.slot + 64) (f.area * (f.pix + 8)) s) (slots.foldl (fun s i => flits (f.slotVa i) 16 s) s)

def setPresent (f : Present → Present) (s : State) : State := { s with present := f s.present }

/-- The complete frames of a slot. -/
def keptFrame (s : State) (f : FrameSource) (i : Nat) : Option GoodFrame :=
  match slotDesc s f i with
  | .ok (2, n) => match readSlot s f n i with
    | .complete g => some g
    | _ => none
  | _ => none

/-- The source whose frames are a context's. -/
def sourceOfCtx (ctx : Nat) (s : State) : Option FrameSource := s.present.source.filter fun f => decide (f.ctx = ctx) && !s.present.gone

/-- The address whose translation the reading of a slot waits for. -/
def slotWaits (s : State) (f : FrameSource) (i : Nat) : Option Nat := match slotDesc s f i with
  | .error (va, .miss) => some va
  | .ok (2, n) => match readSlot s f n i with
    | .miss va => some va
    | _ => none
  | _ => none

/-- The frames of a context are to be kept as it ends; those of one that is not resident have been kept when it was saved. -/
def noteKeeping (ctx : Nat) (s : State) : State := if (sourceOfCtx ctx s).isSome then setPresent (fun p => { p with keeping := true }) s else s

/-- What keeping the frames of a ring waits for. -/
def ringWaits (ctx : Nat) (s : State) : Option Nat := (sourceOfCtx ctx s).bind fun f => (List.range f.slots).findSome? (slotWaits s f)

/-- What the end of a context waits for before its frames are kept (R340). -/
def framesWait (ctx : Nat) (s : State) : Option Nat := if s.present.keeping then ringWaits ctx s else none

/-- The frames that a context has completed stay with the engine when the context ends or is saved (R340); `gone`: it ends. -/
def keepFrames (ctx : Nat) (gone : Bool) (s : State) : State :=
  match sourceOfCtx ctx s with
  | none => s
  | some f =>
    let read := !gone || s.present.keeping
    let frames := if read then (List.range f.slots).filterMap (keptFrame s f) else s.present.kept
    setPresent (fun p => { p with kept := frames, gone := gone, keeping := false, checking := none, todo := if gone then [] else p.todo })
      (if read then ringFlits f (List.range f.slots) frames s else s)

end Sys2Proof.Machine
end

