-- ==== Sys2Proof/Machine/Regs.lean ====
section
/-!
DEFINITION. The registers of an issuer (R19, R20, R119), deferred writes (R41), the frontier, joins and barriers (R267,
R292 to R295).
-/

namespace Sys2Proof.Machine

/-! ### Registers -/

def getV (g : Group) (r l : Nat) : Word := sget 0 (64 * r + l) g.v
def setV (r l : Nat) (x : Word) (g : Group) : Group := { g with v := sput 0 (64 * r + l) x g.v }
def getK (g : Group) (r l : Nat) : Word := sget 0 (64 * r + l) g.k
def setK (r l : Nat) (x : Word) (g : Group) : Group := { g with k := sput 0 (64 * r + l) x g.k }
def getS (g : Group) (r : Nat) : Word := sget 0 r g.s
def setS (r : Nat) (x : Word) (g : Group) : Group := { g with s := sput 0 r x g.s }
def getM (g : Group) (r : Nat) : DWord := sget 0 r g.m
def setM (r : Nat) (x : DWord) (g : Group) : Group := { g with m := sput 0 r x g.m }
def getJ (g : Group) (r : Nat) : JReg := sget {} r g.j
def setJ (r : Nat) (x : JReg) (g : Group) : Group := { g with j := sput {} r x g.j }
def getB (g : Group) (r : Nat) : BitVec 128 := sget 0 r g.b
def setB (r : Nat) (x : BitVec 128) (g : Group) : Group := { g with b := sput 0 r x g.b }
def getF (g : Group) (r : Nat) : Nat := sget 0 r g.f
def setF (r : Nat) (x : Nat) (g : Group) : Group := { g with f := sput 0 r x g.f }
def getG (g : Group) (r l : Nat) : Closure := sget {} (64 * r + l) g.clos
def setGr (r l : Nat) (x : Closure) (g : Group) : Group := { g with clos := sput {} (64 * r + l) x g.clos }

/-- One deferred register write. -/
def applyWrite (g : Group) (w : RegWrite) : Group :=
  match w.reg with
  | .v n => setV n w.lane w.val g
  | .k n => setK n w.lane w.val g
  | .s n => setS n w.val g
  | .g _ => g

/-- The writes of an operation, then its flag's count falls by one (R41). -/
def completeOp (g : Group) (o : VarOp) : Group :=
  let g := o.writes.foldl applyWrite g
  let g := o.clos.foldl (fun g c => setGr c.1 c.2.1 c.2.2 g) g
  setF o.flag (getF g o.flag - 1) g

/-- Every variable-latency result in flight is written (R320, R336). -/
def completeOps (g : Group) : Group := { (g.ops.foldl completeOp g) with ops := [] }

/-- The flag on which a register's mark waits (R42). -/
def marked (g : Group) (r : Reg) : Bool := g.marks.any fun m => m.1 = r

/-- Whether a token S register is pending (R41). -/
def pendingToken (g : Group) (r : Nat) : Bool := g.tokens.any fun t => t.sreg = r

/-- The hit registers of pending rays (R165). -/
def tokenV (t : Token) : List Nat :=
  match t.work with
  | .ray _ h _ _ => [h, h + 1, h + 2, h + 3, h + 4]
  | _ => []

def pendingV (g : Group) (r : Nat) : Bool := g.tokens.any fun t => (tokenV t).contains r

/-- A resolve that some lane of a mask drives is pending (R168, R357). -/
def visqPending (g : Group) (m : DWord) : Bool := g.tokens.any fun t => match t.work with
  | .visq l _ _ _ _ _ _ _ => bit m l
  | _ => false

/-- What a word that touches a register waits for (R41, R165). -/
def regPending (g : Group) : Reg → Bool
  | .s n => pendingToken g n
  | .v n => pendingV g n
  | _ => false

/-! ### The frontier -/

/-- Waiting lanes stay waiting when their entry merges (R293). -/
def mergeWait : Wait → Wait → Wait
  | .none, w => w
  | .bar i a m, .bar _ b n => .bar i (max a b) (m ||| n)
  | w, _ => w

/-- Two entries that reach one PC merge, with the greater age (R267, R287). Entries inside a clause merge when their kept clause positions agree.
An entry that a handler moved (R326) joins no entry that waits, and lanes that wait for their tasks stand alone. -/
def mayMerge (o e : FEntry) : Bool :=
  decide (o.pc = e.pc) && decide (o.pos = e.pos) && decide (decide (o.wait = .task) = decide (e.wait = .task))
    && ((!o.edited && !e.edited) || (decide (o.wait = .none) && decide (e.wait = .none)))

/-- The entry joins the frontier. -/
def mergeEntry (e : FEntry) : List FEntry → List FEntry
  | [] => if e.mask = 0 then [] else [e]
  | o :: r =>
    if mayMerge o e then
      { o with mask := o.mask ||| e.mask, age := max o.age e.age, wait := mergeWait o.wait e.wait,
               yielded := o.yielded && e.yielded, edited := o.edited || e.edited } :: r
    else o :: mergeEntry e r

def addEntry (e : FEntry) (g : Group) : Group :=
  if e.mask = 0 then g else { g with frontier := mergeEntry e g.frontier }

/-- Lanes that stand at a PC between clauses. -/
def lanesAt (g : Group) (pc : Nat) : DWord :=
  (g.frontier.filter fun e => decide (e.pc = pc) && decide (e.pos = none)).foldl (fun m e => m ||| e.mask) 0

/-- A pending join whose expected lanes have all arrived completes (R293). -/
def joinStep (n : Nat) (g : Group) : Group :=
  match (getJ g n).cont with
  | none => g
  | some p => if (getJ g n).mask &&& ~~~(lanesAt g p) = 0 then setJ n {} g else g

/-- An entry whose lanes a pending join expects at its PC waits (R267, R293). -/
def joinWaits (g : Group) (e : FEntry) : Bool :=
  decide (e.pos = none) && (List.range 8).any fun n =>
    decide ((getJ g n).cont = some e.pc) && decide ((getJ g n).mask &&& e.mask ≠ 0)

/-- An entry that waits (R267). -/
def waits (g : Group) (e : FEntry) : Bool := decide (e.wait ≠ .none) || joinWaits g e

/-- Every join of the group is looked at. -/
def joinCheck (g : Group) : Group := (List.range 8).foldl (fun g n => joinStep n g) g

/-- Lanes leave every rejoin mask (R293, R296). -/
def leaveJoins (m : DWord) (g : Group) : Group :=
  (List.range 8).foldl (fun g n => setJ n { getJ g n with mask := (getJ g n).mask &&& ~~~m } g) g

/-- The group's lanes that have arrived at a barrier. -/
def arrived (g : Group) (id : Nat) : DWord :=
  g.frontier.foldl (fun m e => match e.wait with
    | .bar i _ a => if i = id then m ||| (a &&& e.mask) else m
    | _ => m) 0

/-- The batches that an arriving group sealed before it arrived have completed (R234). -/
def batchesDone (g : Group) (n : Nat) : Bool :=
  g.tokens.all fun t => match t.work with
    | .copy _ _ _ _ _ _ _ _ _ b => decide (b > n)
    | _ => true

def barBatches (g : Group) (id : Nat) : Bool :=
  g.frontier.all fun e => match e.wait with
    | .bar i n _ => !(decide (i = id)) || batchesDone g n
    | _ => true

/-- Every thread of the group raises its GWCT (R245). -/
def raiseAll (t : Nat) (g : Group) : Group :=
  if t = 0 then g else { g with gwct := (lanes g.exist).foldl (fun m l => sput 0 l (max t (sget 0 l m)) m) g.gwct }

/-- The largest GWCT of some of a group's completed copies. -/
def copyGwct (p : CopyDone → Bool) (g : Group) : Nat := (g.copies.filter p).foldl (fun n c => max n c.gwct) 0

/-- A group observes the completion of some of its copies (R245). -/
def seeCopies (p : CopyDone → Bool) (g : Group) : Group := raiseAll (copyGwct p g) g

/-- The largest GWCT of the copies that an arriving group had sealed when it arrived at a barrier (R234, R245). -/
def barGwct (id : Nat) (g : Group) : Nat :=
  g.frontier.foldl (fun t e => match e.wait with
    | .bar i n _ => if i = id then max t (copyGwct (fun c => decide (c.batch ≤ n)) g) else t
    | _ => t) 0

def wakeBar (id : Nat) (g : Group) : Group :=
  { g with frontier := g.frontier.map fun e => match e.wait with
      | .bar i _ _ => if i = id then { e with wait := .none } else e
      | _ => e }

/-- The vector groups of a workgroup. -/
def groupsOfWg (wg : Nat) (s : State) : List Group :=
  (allGroups s).filter fun g => decide (g.wg = wg) && decide (g.kind = .vector)

/-- The tile-program thread of a workgroup. -/
def bobbinOf (wg : Nat) (s : State) : Option Group :=
  (allGroups s).find? fun g => decide (g.kind = .bobbin) && decide (g.wg = wg) && decide (wg ≠ 0)

/-- A barrier at which every live thread of the workgroup has arrived completes (R295); every thread of the workgroup observes the copies
that the arriving groups had sealed (R245). -/
def barrierStep (wg id : Nat) (s : State) : State :=
  let gs := groupsOfWg wg s
  if gs.any (fun g => decide (arrived g id ≠ 0)) && gs.all (fun g => decide (g.live &&& ~~~(arrived g id) = 0) && barBatches g id) then
    let t := gs.foldl (fun t g => max t (barGwct id g)) 0
    mapGroups (fun g => if g.wg = wg ∧ g.kind = .vector then wakeBar id (raiseAll t g) else g) s
  else s

def barrierCheck (wg : Nat) (s : State) : State := (List.range 16).foldl (fun s i => barrierStep wg i s) s

/-- Threads that wait for children continue when the workgroup's count is 0 (R299). -/
def childCheck (wg : Nat) (s : State) : State :=
  match findWg wg s with
  | none => s
  | some w =>
    if w.children = 0 then
      mapGroups (fun g =>
        if g.wg = wg then
          { g with frontier := g.frontier.map fun e => if e.wait = .child then { e with wait := .none } else e }
        else g) s
    else s

/-- Lanes removed from the frontier, the hem, and the issuing path. -/
def removeLanes (m : DWord) (g : Group) : Group :=
  { g with
    frontier := (g.frontier.map fun e => { e with mask := e.mask &&& ~~~m }).filter fun e => decide (e.mask ≠ 0)
    hem := (g.hem.map fun e => { e with mask := e.mask &&& ~~~m }).filter fun e => decide (e.mask ≠ 0)
    act := match g.act with
      | none => none
      | some e => if e.mask &&& ~~~m = 0 then none else some { e with mask := e.mask &&& ~~~m } }

/-- Lanes end: they leave the rejoin masks and stop being live (R296). -/
def endLanes (m : DWord) (g : Group) : Group :=
  joinCheck (leaveJoins m { g with live := g.live &&& ~~~m })

/-- The largest GWCT of a group's threads (R219), with those of its copies that have completed (R245). -/
def groupGwct (g : Group) : Nat := g.gwct.foldl (fun n p => max n p.2) (g.copies.foldl (fun n c => max n c.gwct) 0)

/-- The full mask of R274: the live lanes. -/
def fullMask (g : Group) : DWord := g.live

end Sys2Proof.Machine
end

