-- ==== Sys2Proof/Machine/Ending.lean ====
section
/-!
DEFINITION. Mailbox events (R303), write-backs (R217, R219), completion records (R255), and the slots of the pattern table (R121, R124).
-/

namespace Sys2Proof.Machine

/-! ### Mailbox events -/

/-- An event bit becomes 1; an MSI-X message goes out when its vector is enabled (R303). -/
def setEvt (i : Nat) (s : State) : State :=
  if s.mbox.evt.getLsbD i then s
  else
    let s := { s with mbox := { s.mbox with evt := s.mbox.evt ||| BitVec.ofNat 6 (2 ^ i) } }
    if s.mbox.ien.getLsbD i then { s with msi := s.msi ++ [i] } else s

/-! ### Atomics -/

/-- The new value of an atomic (R230, R231). -/
def atomicNew (op : AtomicOp) (old x y : Word) : Word :=
  match op with
  | .add => old + x
  | .min => if old.toInt ≤ x.toInt then old else x
  | .max => if old.toInt ≥ x.toInt then old else x
  | .umin => if old ≤ x then old else x
  | .umax => if old ≥ x then old else x
  | .and => old &&& x
  | .or => old ||| x
  | .xor => old ^^^ x
  | .xchg => x
  | .cas => if old = x then y else old
  | .fadd => fadd32 old x

/-! ### Write-backs -/

/-- Runs of dirty bytes are written one by one at the home, and every owner keeps the GWCT (R217). Those of a peer that has left are gone
(R246). -/
def writeBackLine (c : CLine) (s : State) : State :=
  if c.dirty.isEmpty || peerGone s (128 * c.line) then s
  else
    let who := match c.owners with
      | [o] => some o
      | _ => none
    let s := c.dirty.foldl (fun s d => performStore who c.unit (128 * c.line + d.1) [d.2] s) s
    let t := gwctOf s (128 * c.line)
    c.owners.foldl (fun s o => raiseGwct (some o) t s) s

/-- The copy without its dirty state. -/
def cleanLine (c : CLine) : CLine := { c with dirty := [], owners := [] }

/-- Every cached line that satisfies `p` writes its dirty bytes back. -/
def writeBackWhere (p : CLine → Bool) (s : State) : State :=
  let todo := s.caches.filter p
  let s := { s with caches := s.caches.map fun c => if p c then cleanLine c else c }
  todo.foldl (fun s c => writeBackLine c s) s

/-- Dirty bytes of one line in one core's L1 (R217). -/
def writeBackAt (core line : Nat) (s : State) : State :=
  writeBackWhere (fun c => decide (c.lvl = 1) && decide (c.unit = core) && decide (c.line = line)) s

/-- The core of an issuer. -/
def coreOfGroup (uid : Nat) (s : State) : Nat := ((findGroup uid s).map fun g => g.core).getD 0

/-! ### Completion records -/

/-- The bytes of a completion record after STATUS (R255). -/
def completionTail (info gridId wgDone tstart tend : Nat) : List Byte :=
  toBytes 4 info ++ toBytes 4 gridId ++ toBytes 4 wgDone ++ toBytes 8 tstart ++ toBytes 8 tend ++ List.replicate 32 0

/-- The completion record is written at COMPL, STATUS last (R255). -/
def writeCompletion (core ctx compl status info gridId wgDone tstart tend : Nat) (s : State) : Except (Nat × Trans) State :=
  match agentWrite core ctx (compl + 4) (completionTail info gridId wgDone tstart tend) s with
  | .error e => .error e
  | .ok s => agentWrite core ctx compl (toBytes 4 status) s

/-! ### The slots of the pattern table (R121, R124) -/

/-- The threads of an entry with their sequence numbers (R122, R137). -/
def PEntry.threads (e : PEntry) : List (Nat × Nat) :=
  (if e.hasC then [(e.wgC, e.seqC)] else []) ++ (if e.hasU then [(e.wgU, e.seqU)] else [])

/-- The entries of a cluster's table; those that wait to re-enter hold no slot (R124). -/
def tableOf (cluster : Nat) (s : State) : List PEntry := s.pattern.filter fun e => decide (e.cluster = cluster) && !e.saved

def tableFull (cluster : Nat) (s : State) : Bool := decide ((tableOf cluster s).length ≥ 64)

/-- An entry whose workgroups are all on their cores re-enters a table with room (R124). It keeps the time it first entered at, by which the
engine chooses among entries (R121, log entry 87), and the slot that breaks ties (log entry 100). -/
def reenter (s : State) (e : PEntry) : State :=
  if e.saved && !(e.threads.any fun p => ((findWg p.1 s).map fun w => w.saved).getD false) && !tableFull e.cluster s then
    { s with pattern := s.pattern.map fun f => if f.id = e.id then { f with saved := false } else f }
  else s

/-- Saved entries take the free slots in their order. -/
def reenterAll (s : State) : State := s.pattern.foldl reenter s

end Sys2Proof.Machine
end

