-- ==== Sys2Proof/Machine/Loads.lean ====
section
/-!
DEFINITION. Memory as a thread reaches it: the levels and their copies (R208, R209, R211, R217, R218), a thread's loads and stores
(R219, R220), the sets of a speculative task (R205), the scratchpad (R22, R197, R215), and the loads that have been issued and not yet
performed (R220, R236, R364).
-/

namespace Sys2Proof.Machine

/-! ### Lines and levels (R208, R209, R211, R217, R218) -/

def findLine (lvl unit line : Nat) (s : State) : Option CLine :=
  s.caches.find? fun c => decide (c.lvl = lvl) && decide (c.unit = unit) && decide (c.line = line)

/-- A line's entry replaced, or added. -/
def putLine (c : CLine) (s : State) : State :=
  if (findLine c.lvl c.unit c.line s).isSome then
    { s with caches := s.caches.map fun d => if d.lvl = c.lvl ∧ d.unit = c.unit ∧ d.line = c.line then c else d }
  else { s with caches := s.caches ++ [c] }

def dropLine (lvl unit line : Nat) (s : State) : State :=
  { s with caches := s.caches.filter fun c => !(decide (c.lvl = lvl) && decide (c.unit = unit) && decide (c.line = line)) }

/-- The bytes of a copy with the dirty bytes over it. -/
def overlay (line : List Byte) (dirty : Sparse Byte) : List Byte :=
  (indexed 0 line).map fun p => (sfind p.1 dirty).getD p.2

/-- Every byte of a run is dirty: the run is read from the L1 whatever the copy. -/
def allDirty (c : CLine) (off n : Nat) : Bool := (List.range n).all fun i => (sfind (off + i) c.dirty).isSome

/-- A copy that the cache still holds (R209, R211): whether it does is the device's choice. -/
def holds (c : CLine) (s : State) : Bool × State :=
  if c.copy.isNone then (false, s)
  else
    let (n, s) := drawFree s
    (c.keep || Config.copyKept n, s)

/-- A copy that a device-scope load may use (R218, R241): its lease has not ended, or its line needs none since the host is its home. -/
def CLine.usable (c : CLine) (s : State) : Bool := decide (s.time < c.expiry) || hostHomed s (128 * c.line)

/-- The home grants a lease (R218). A copy of a host-homed line has none (R241). -/
def grantLease (line : Nat) (s : State) : Nat × State :=
  if hostHomed s (128 * line) then (0, s) else
  let (n, s) := drawFree s
  let t := s.time + min (Config.leaseLength n) 4096
  (t, { s with leases := sput 0 line (max t (sget 0 line s.leases)) s.leases })

/-- A copy enters a level (R211, R218): policy 2 puts it in the keep state. -/
def fillLine (lvl unit line expiry evc : Nat) (bytes : List Byte) (s : State) : State :=
  let c := (findLine lvl unit line s).getD { lvl := lvl, unit := unit, line := line }
  putLine { c with copy := some bytes, expiry := expiry, keep := c.keep || decide (evc = 2) } s

/-- The copies of a line on the way of a core's read take the bytes that the home supplies: a later read of the core never returns older
ones (R220, log entry 8). Expiry and keep state stay. -/
def refreshLine (core line : Nat) (bytes : List Byte) (s : State) : State :=
  { s with caches := s.caches.map fun c =>
      if c.onWay core line then { c with copy := c.copy.map fun _ => bytes } else c }

/-- An access with policy 2 puts its line in the keep state, in the caches on its way that hold it (R211). -/
def keepLine (core line evc : Nat) (s : State) : State :=
  if evc = 2 then { s with caches := s.caches.map fun c => if c.onWay core line then { c with keep := true } else c } else s

/-- A load that reads the home (R217): dirty bytes of the core's L1 are written back first; with a lease, the copy enters L1, and L2 unless
the home is the L3 of the die's own base die (R218); without one (system scope, no-allocate) no copy enters. -/
def readHome (core : Nat) (lease : Bool) (evc a n : Nat) (s : State) : List Byte × State :=
  let line := lineOf a
  let s := writeBackAt core line s
  let bytes := homeBytes s (128 * line) 128
  let v := (bytes.drop (a % 128)).take n
  let s := flitFrom a s
  if lease then
    let (t, s) := grantLease line s
    (v, fillLine 1 core line t evc bytes (if homedNear s (dieOfCore core) line then s else fillLine 2 (dieOfCore core) line t evc bytes s))
  else (v, refreshLine core line bytes s)

/-- The L1 serves a run from its copy and dirty bytes. -/
def fromL1 (c : CLine) (bytes : List Byte) (a n : Nat) : List Byte := ((overlay bytes c.dirty).drop (a % 128)).take n

/-- A device-scope load beyond a core's own L1 (R217): a valid copy in the die's L2, or the home. -/
def readL2 (core evc a n : Nat) (s : State) : List Byte × State :=
  let line := lineOf a
  match findLine 2 (dieOfCore core) line s with
  | none => readHome core true evc a n s
  | some c2 =>
    let (k, s) := holds c2 s
    match c2.copy with
    | some bytes =>
      if k && c2.usable s then
        let s := fillLine 1 core line c2.expiry evc bytes s
        (fromL1 ((findLine 1 core line s).getD { lvl := 1, unit := core, line := line }) bytes a n, s)
      else readHome core true evc a n s
    | none => readHome core true evc a n s

/-- A load's bytes by scope (R211, R217). -/
def readCopy (core scope evc a n : Nat) (s : State) : List Byte × State :=
  if scope = 3 ∨ evc = 3 then readHome core false evc a n s
  else
    match findLine 1 core (lineOf a) s with
    | none => if scope ≤ 1 then readHome core true evc a n s else readL2 core evc a n s
    | some c =>
      if scope ≤ 1 && allDirty c (a % 128) n then (fromL1 c (List.replicate 128 0) a n, s)
      else
        let (k, s) := holds c s
        match c.copy with
        | some bytes =>
          if k && (decide (scope ≤ 1) || c.usable s) then (fromL1 c bytes a n, s)
          else if scope ≤ 1 then readHome core true evc a n s
          else readL2 core evc a n s
        | none => if scope ≤ 1 then readHome core true evc a n s else readL2 core evc a n s

/-- A load's bytes, and its line's keep state (R211). -/
def readMem (core scope evc a n : Nat) (s : State) : List Byte × State :=
  let (bs, s) := readCopy core scope evc a n s
  (bs, keepLine core (lineOf a) evc s)

/-- Bytes stored in the core's L1 (R217). -/
def storeL1 (uid lane core evc a : Nat) (bs : List Byte) (s : State) : State :=
  let line := lineOf a
  let c := (findLine 1 core line s).getD { lvl := 1, unit := core, line := line }
  let c := { c with
    dirty := (indexed 0 bs).foldl (fun d p => sins (a % 128 + p.1) p.2 d) c.dirty
    owners := if c.owners.contains (uid, lane) then c.owners else c.owners ++ [(uid, lane)]
    keep := c.keep || decide (evc = 2) }
  breakResv (some (uid, lane)) 0 line (putLine c s)

/-- No core holds a copy of the line any more; dirty bytes stay. -/
def dropCopies (line : Nat) (s : State) : State :=
  { s with caches := s.caches.map fun c => if c.line = line then { c with copy := none } else c }

/-- A host write to bytes of one line that is a home of the device (R241, R313): dirty bytes of the cores go home first, the host's bytes are
performed over them, and every device copy of the line is gone. -/
def hostLine (p : Nat × List Byte) (s : State) : State :=
  dropCopies (lineOf p.1) (performStore none 1000 p.1 p.2 (writeBackWhere (fun c => decide (c.line = lineOf p.1)) s))

/-- A host write to host memory (R241). -/
def hostMemWrite (pa : Nat) (bytes : List Byte) (s : State) : State :=
  (splitLines (bytes.length + 1) pa bytes).foldl (fun s p => if isHost s p.1 then hostLine p s else setHostBytes p.1 p.2 s) s

/-! ### The scratchpad (R22, R197, R215) -/

/-- A scratchpad byte; one that nothing has written is 0 in deterministic mode and undefined otherwise. -/
def scratchByte (s : State) (w : Workgroup) (off : Nat) : Byte :=
  match sfind off w.scratch with
  | some b => b
  | none => if ((findCtx w.ctx s).getD {}).det then 0 else Config.freeScratch w.scratchSeed off

def scratchBytes (s : State) (w : Workgroup) (off : Nat) : Nat → List Byte
  | 0 => []
  | n + 1 => scratchByte s w off :: scratchBytes s w (off + 1) n

/-- The key of a scratchpad location among the reservations. -/
def scratchKey (wg off : Nat) : Nat := wg * 2 ^ 20 + off

def scratchStore (who : Option (Nat × Nat)) (wg off : Nat) (bs : List Byte) (s : State) : State :=
  let s := updWg wg (fun w => { w with scratch := (indexed 0 bs).foldl (fun m p => sins (off + p.1) p.2 m) w.scratch }) s
  breakResv who 1 (lineOf (scratchKey wg off)) s

/-- The keys of scratchpad bytes among stores in flight and in the sets of tasks begin here; lower keys are home addresses. -/
def taskScratch : Nat := 2 ^ 200

/-- The key of a byte of a place. -/
def taskKey (g : Group) (pl : Place) (a : Nat) : Nat := match pl with
  | .scratch => taskScratch + scratchKey g.wg a
  | _ => a

/-! ### Stores in flight (R219 to R221) -/

/-- The bytes that a pending store or atomic leaves where `old` stands. -/
def PStore.result (p : PStore) (old : List Byte) : List Byte := match p.op with
  | none => p.bytes
  | some op => toBytes 4 (atomicNew op (wordOf old) p.operand 0).toNat

/-- A store or non-returning atomic is performed (R217, R219): in the workgroup's scratchpad, in the L1 of its core, or at its home. One to a
peer that has left is dropped (R317). -/
def performPending (core : Nat) (p : PStore) (s : State) : State :=
  if p.addr ≥ taskScratch then
    let wg := (p.addr - taskScratch) / 2 ^ 20
    let off := (p.addr - taskScratch) % 2 ^ 20
    let bs := p.result (scratchBytes s ((findWg wg s).getD {}) off 4)
    scratchStore (some (p.grp, p.lane)) wg off bs (noteTask (some (p.grp, p.lane)) p.addr bs s)
  else if peerGone s p.addr then s
  else if p.scope ≤ 1 ∧ p.evc ≠ 3 then
    let (old, s) := if p.op.isNone then ([], s) else readMem core p.scope p.evc p.addr 4 s
    storeL1 p.grp p.lane core p.evc p.addr (p.result old) (noteTask (some (p.grp, p.lane)) p.addr (p.result old) s)
  else
    let s := keepLine core (lineOf p.addr) p.evc (writeBackAt core (lineOf p.addr) s)
    performStore (some (p.grp, p.lane)) core p.addr (p.result (homeBytes s p.addr 4)) s

/-- Two stores of one core to one line: they are performed in the order they were issued, whichever lane made them (R220, R221). -/
def sameWay (core : Nat → Nat) (x y : PStore) : Bool := decide (lineOf x.addr = lineOf y.addr) && decide (core x.grp = core y.grp)

/-- The pending stores that are performed when those that satisfy `p` are, in the order they were issued, and those that stay: a store goes
with every later one of its core and line. -/
def splitStores (core : Nat → Nat) (p : PStore → Bool) : List PStore → List PStore × List PStore
  | [] => ([], [])
  | x :: r =>
    let (due, stay) := splitStores core p r
    if p x || due.any (sameWay core x) then (x :: due, stay) else (due, x :: stay)

/-- The pending stores that satisfy `p` are performed, each after those of its core and line that were issued before it, and leave the queue. -/
def performWhere (p : PStore → Bool) (s : State) : State :=
  let (due, stay) := splitStores (fun u => coreOfGroup u s) p s.stores
  due.foldl (fun s x => performPending (coreOfGroup x.grp s) x s) { s with stores := stay }

/-- A thread's own pending stores to a line (R220). -/
def ownStore (uid lane line : Nat) (x : PStore) : Bool :=
  decide (x.grp = uid) && decide (x.lane = lane) && decide (lineOf x.addr = line)

def drainOwn (uid lane line : Nat) (s : State) : State := performWhere (ownStore uid lane line) s

/-- The pending stores of a core to a line: a store of that core that is performed at once goes after them (R221). -/
def drainCore (core line : Nat) (s : State) : State :=
  performWhere (fun x => decide (lineOf x.addr = line) && decide (coreOfGroup x.grp s = core)) s

/-- Everything the threads of the chosen issuers stored is performed at its home: the release condition of a device-scope
fence (R236, R336). -/
def releaseAll (p : Nat → Bool) (s : State) : State :=
  let s := performWhere (fun x => p x.grp) s
  writeBackWhere (fun c => c.owners.any fun o => p o.1) s

/-! ### Speculative tasks (R205) -/

/-- The speculative task of a lane, which may have exited with engine work of it still pending. -/
def specTask (s : State) (uid lane : Nat) : Option Task :=
  s.tasks.find? fun t => decide (t.grp = uid) && decide (t.lane = lane) && t.spec

def updTask (uid lane : Nat) (f : Task → Task) (s : State) : State :=
  { s with tasks := s.tasks.map fun t => if t.grp = uid ∧ t.lane = lane ∧ t.spec = true then f t else t }

/-- A speculative task reads committed memory with its own write set over it, and its read set takes the line. -/
def taskRead (uid lane key : Nat) (bs : List Byte) (s : State) : List Byte × State :=
  match specTask s uid lane with
  | none => (bs, s)
  | some t =>
    ((indexed 0 bs).map fun p => (sfind (key + p.1) t.wset).getD p.2,
      updTask uid lane (fun t => if t.rset.contains key then t else { t with rset := t.rset ++ [key] }) s)

/-- The reads of a speculative task's engine work, or of a word for its whole path, join its read set (R205). -/
def noteReads (uid lane : Nat) (as : List Nat) (s : State) : State :=
  updTask uid lane (fun t => { t with rset := as.foldl (fun r a => if r.any fun b => decide (lineOf b = lineOf a) then r else r ++ [a]) t.rset }) s

/-- A speculative task's store goes to its write set. -/
def taskWrite (uid lane key : Nat) (bs : List Byte) (s : State) : State :=
  updTask uid lane (fun t => { t with wset := (indexed 0 bs).foldl (fun w p => sins (key + p.1) p.2 w) t.wset }) s

/-! ### A thread's loads and stores -/

/-- A load of a thread (R217, R220): its own pending stores to the line come first. A speculative task reads the home, since nothing that
is not committed may reach it. -/
def loadBytes (uid lane core scope evc a n : Nat) (s : State) : List Byte × State :=
  let s := drainOwn uid lane (lineOf a) s
  match specTask s uid lane with
  | some _ =>
    let s := writeBackAt core (lineOf a) s
    taskRead uid lane a (homeBytes s a n) s
  | none => readMem core scope evc a n s

/-- A load of a thread at the home, outside the leases (`LDX`, a lane's window, atomics). -/
def loadHome (uid lane core a n : Nat) (s : State) : List Byte × State :=
  let s := drainOwn uid lane (lineOf a) s
  let s := writeBackAt core (lineOf a) s
  (homeBytes s a n, refreshLine core (lineOf a) (homeBytes s (128 * lineOf a) 128) (flitFrom a s))

/-- A store of a thread performed at the home at once, after the stores of its core to the line that were issued before it. -/
def storeHome (uid lane core a : Nat) (bs : List Byte) (s : State) : State :=
  performStore (some (uid, lane)) core a bs (writeBackAt core (lineOf a) (drainCore core (lineOf a) s))

/-- A store or non-returning atomic of a thread is issued (R219, R220): it may be performed later, unless it is no-allocate or the context is
deterministic (R199). -/
def issueStore (core : Nat) (p : PStore) (det : Bool) (s : State) : State :=
  if p.evc = 3 ∨ det = true then performPending core p (drainCore core (lineOf p.addr) s) else { s with stores := s.stores ++ [p] }

/-- A store of a thread to memory. A speculative task's goes to its write set (R205). -/
def storeBytes (uid lane core scope evc a : Nat) (bs : List Byte) (det : Bool) (peer : Option Nat) (s : State) : State :=
  match specTask s uid lane with
  | some _ => taskWrite uid lane a bs s
  | none => issueStore core { grp := uid, lane := lane, addr := a, bytes := bs, scope := scope, evc := evc, peer := peer } det s

/-- The load of a lane of an issuer at its place. -/
def placeLoad (g : Group) (pl : Place) (scope evc lane a n : Nat) (s : State) : List Byte × State :=
  match pl with
  | .scratch =>
    let s := drainOwn g.uid lane (lineOf (taskKey g pl a)) s
    taskRead g.uid lane (taskKey g pl a) (scratchBytes s ((findWg g.wg s).getD {}) a n) s
  | .window =>
    let (bs, s) := loadHome g.uid lane g.core a n s
    taskRead g.uid lane a bs s
  | .mem => loadBytes g.uid lane g.core scope evc a n s

/-- The store of a lane of an issuer at its place: a lane's window is written at the home (R215). -/
def placeStore (g : Group) (pl : Place) (scope evc lane a : Nat) (bs : List Byte) (det : Bool) (s : State) : State :=
  match pl with
  | .mem => storeBytes g.uid lane g.core scope evc a bs det (peerOf a) s
  | .window => storeBytes g.uid lane g.core 2 evc a bs det none s
  | .scratch => storeBytes g.uid lane g.core 0 evc (taskKey g pl a) bs det none s

/-- An exclusive load reads its place outside the leases (R226). -/
def placeExclusive (g : Group) (pl : Place) (lane a n : Nat) (s : State) : List Byte × State :=
  match pl with
  | .scratch =>
    let s := drainOwn g.uid lane (lineOf (taskKey g pl a)) s
    (scratchBytes s ((findWg g.wg s).getD {}) a n, s)
  | _ => loadHome g.uid lane g.core a n s

/-- A store performed at its place at once, after the stores of its core to the line that were issued before it (R221). -/
def placeNow (g : Group) (pl : Place) (lane a : Nat) (bs : List Byte) (s : State) : State :=
  match pl with
  | .scratch =>
    let key := taskKey g pl a
    scratchStore (some (g.uid, lane)) g.wg a bs (noteTask (some (g.uid, lane)) key bs (drainCore g.core (lineOf key) s))
  | _ => storeHome g.uid lane g.core a bs s

/-! ### Atomics (R217, R219, R226, R229 to R231) -/

/-- An atomic stores its result: `ACAS` only where the old value is the one compared with (R231). -/
def atomicStores (op : AtomicOp) (old x : Word) : Bool := decide (op ≠ .cas) || decide (old = x)

/-- The old value of a location and the state with the result stored there by `put`, if the atomic stores one; else what `touch` does, since
it is an atomic to its line all the same (R219, R226). -/
def atomicPut (op : AtomicOp) (x y : Word) (put : List Byte → State → State) (touch : State → State) (r : List Byte × State) : Word × State :=
  let old := wordOf r.1
  (old, if atomicStores op old x then put (toBytes 4 (atomicNew op old x y).toNat) r.2 else touch r.2)

/-- One lane's atomic performed at its place (R217, R230): the old value, and the state. One that stores nothing returns a GWCT too and breaks
the reservations on its line (R219, R226). -/
def placeAtomic (g : Group) (op : AtomicOp) (pl : Place) (scope evc lane a : Nat) (x y : Word) (s : State) : Word × State :=
  let s := drainCore g.core (lineOf (taskKey g pl a)) s
  match pl with
  | .scratch => atomicPut op x y (placeNow g pl lane a) (placeNow g pl lane a []) (placeExclusive g pl lane a 4 s)
  | .window => atomicPut op x y (placeNow g pl lane a) (placeNow g pl lane a []) (placeExclusive g pl lane a 4 s)
  | .mem =>
    if scope ≤ 1 ∧ evc ≠ 3 then
      atomicPut op x y (fun bs s => storeL1 g.uid lane g.core evc a bs (noteTask (some (g.uid, lane)) a bs s))
        (breakResv (some (g.uid, lane)) 0 (lineOf a)) (loadBytes g.uid lane g.core scope evc a 4 s)
    else
      atomicPut op x y (placeNow g pl lane a) (placeNow g pl lane a []) (placeExclusive g pl lane a 4 (keepLine g.core (lineOf a) evc s))

/-! ### Loads in flight (R220, R236, R364) -/

/-- Words of a run of bytes, lowest first. -/
def toWords : Nat → List Byte → List Word
  | 0, _ => []
  | n + 1, bs => wordOf (bs.take 4) :: toWords n (bs.drop 4)

/-- The words of a load's result from its `size` bytes (R225). -/
def extended (e : Extend) (size : Nat) (bs : List Byte) : List Word :=
  match e with
  | .words => toWords (size / 4) bs
  | .zero => [BitVec.ofNat 32 (ofBytes bs)]
  | .sign => [BitVec.ofInt 32 (signedOf (8 * size) (ofBytes bs))]

/-- The words of a lane's result as register writes: a run of V registers, or an S register. -/
def loadWrites (r : Reg) (lane : Nat) (ws : List Word) : List RegWrite :=
  (indexed 0 ws).map fun p => match r with
    | .v d => { reg := .v (d + p.1), lane := lane, val := p.2 }
    | r => { reg := r, lane := 0, val := p.2 }

/-- The place of a reservation (R226). -/
def resvPlace (pl : Place) : Nat := match pl with
  | .mem => 0
  | .scratch => 1
  | .window => 2

/-- The address that a reservation names. -/
def resvAddr (g : Group) (pl : Place) (p : Nat) : Nat := match pl with
  | .scratch => scratchKey g.wg p
  | _ => p

/-- The reservation of an exclusive access (R226). -/
def resvOf (g : Group) (pl : Place) (p size : Nat) : Resv := { place := resvPlace pl, addr := resvAddr g pl p, size := size }

/-- A lane takes the reservation of its `LDX` while its clause lasts (R226). -/
def takeResv (lane : Nat) (r : Resv) (g : Group) : Group :=
  if sfind lane g.arming = some r then { g with resv := sins lane r g.resv } else g

/-- What a load in flight reads: an atomic's old value (R230), the bytes outside the leases of an exclusive load, with its reservation
while its clause lasts (R226), or the bytes of a plain load. -/
def loadWords (g : Group) (p : PLoad) (s : State) : List Word × State :=
  match p.how with
  | .atomic op x y => let (old, s) := placeAtomic g op p.place p.scope p.evc p.lane p.addr x y s; ([old], s)
  | .exclusive =>
    let (bs, s) := placeExclusive g p.place p.lane p.addr p.size s
    (extended p.ext p.size bs, updGroup g.uid (takeResv p.lane (resvOf g p.place p.addr p.size)) s)
  | .plain => let (bs, s) := placeLoad g p.place p.scope p.evc p.lane p.addr p.size s; (extended p.ext p.size bs, s)

/-- A load is performed (R217, R220): its register writes. One at a peer that has left the domain since it was translated gives all ones in each
word (R317). -/
def performLoad (g : Group) (p : PLoad) (s : State) : List RegWrite × State :=
  if p.place = .mem ∧ (p.lost || peerGone s p.addr) = true then (loadWrites p.reg p.lane ((extended p.ext p.size []).map fun _ => BitVec.allOnes 32), s)
  else
    let (ws, s) := loadWords g p s
    (loadWrites p.reg p.lane ws, s)

/-- The loads of one operation that satisfy `q` are performed; their writes join the operation's. -/
def performOp (g : Group) (q : PLoad → Bool) (o : VarOp) (s : State) : VarOp × State :=
  let (ws, s) := (o.loads.filter q).foldl (fun r p => let (w, s) := performLoad g p r.2; (r.1 ++ w, s)) (([] : List RegWrite), s)
  ({ o with writes := o.writes ++ ws, loads := o.loads.filter fun p => !q p }, s)

/-- The loads of the operations in flight that satisfy `q` with the number of their operation, in the order they were issued. -/
def performOps (g : Group) (q : Nat → PLoad → Bool) : Nat → List VarOp → State → List VarOp × State
  | _, [], s => ([], s)
  | n, o :: r, s =>
    let (o, s) := performOp g (q n) o s
    let (r, s) := performOps g q (n + 1) r s
    (o :: r, s)

/-- A load whose thread is among some lanes. One of an S register is a load of every lane of its path. -/
def PLoad.ofLanes (m : DWord) (p : PLoad) : Bool := match p.reg with
  | .v _ => bit m p.lane
  | _ => true

def PLoad.isAtomic (p : PLoad) : Bool := match p.how with
  | .atomic _ _ _ => true
  | _ => false

/-- Two loads at one line of one place. -/
def PLoad.sameLine (p q : PLoad) : Bool := decide (p.place = q.place) && decide (lineOf p.addr = lineOf q.addr)

/-- A load `p` of operation `i` goes before a load `q` of operation `j` (R220): at one line, the earlier one of its thread; and where atomics
are among the loads of a line, whatever was issued there before, since the lanes of one atomic word follow each other. -/
def PLoad.before (atomic : Bool) (i : Nat) (p : PLoad) (j : Nat) (q : PLoad) : Bool :=
  p.sameLine q && (if atomic then decide (i < j) || (decide (i = j) && decide (p.lane < q.lane))
    else decide (i < j) && (p.ofLanes (laneBit q.lane) || q.ofLanes (laneBit p.lane)))

/-- The loads in flight of an issuer with the numbers of their operations. -/
def allLoads (ops : List VarOp) : List (Nat × PLoad) := (indexed 0 ops).flatMap fun o => o.2.loads.map fun p => (o.1, p)

/-- The loads that are performed when those that satisfy `q` are: each after the ones that go before it (R220). -/
def dueLoads (ops : List VarOp) (q : Nat → PLoad → Bool) (i : Nat) (p : PLoad) : Bool :=
  let all := allLoads ops
  let atomic := all.any fun x => x.2.isAtomic && x.2.sameLine p
  q i p || all.any fun x => q x.1 x.2 && p.before atomic i x.1 x.2

/-- The loads of an issuer that satisfy `q` are performed, each after the ones that go before it. -/
def performLoads (uid : Nat) (q : Nat → PLoad → Bool) (s : State) : State :=
  match findGroup uid s with
  | none => s
  | some g =>
    if g.ops.all fun o => o.loads.isEmpty then s
    else
      let (ops, s) := performOps g (dueLoads g.ops q) 0 g.ops s
      updGroup uid (fun g => { g with ops := ops }) s

/-- Every load of the issuer (R320, R336). -/
def performAll (uid : Nat) (s : State) : State := performLoads uid (fun _ _ => true) s

/-- Every load of the threads of some lanes (R236). -/
def performLanes (uid : Nat) (m : DWord) (s : State) : State := performLoads uid (fun _ p => p.ofLanes m) s

/-- A thread's loads of a line go before its later accesses there (R220). -/
def performAt (uid lane : Nat) (pl : Place) (line : Nat) (s : State) : State :=
  performLoads uid (fun _ p => decide (p.place = pl) && decide (lineOf p.addr = line) && p.ofLanes (laneBit lane)) s

/-- The loads of the `n`-th operation that satisfy `q`. -/
def performNth (uid n : Nat) (q : PLoad → Bool) (s : State) : State := performLoads uid (fun i p => decide (i = n) && q p) s

/-- The loads of every issuer of some. -/
def performGroups (p : Group → Bool) (s : State) : State :=
  (allGroups s).foldl (fun s g => if p g then performAll g.uid s else s) s

/-- An acquire of every thread of a workgroup (R247): its loads are performed. -/
def acquireWg (wg : Nat) (s : State) : State := performGroups (fun g => decide (g.wg = wg)) s

/-- Some thread of the workgroup waits in `CHWAIT`. -/
def childWaits (wg : Nat) (s : State) : Bool :=
  (allGroups s).any fun g => decide (g.wg = wg) && g.frontier.any fun e => decide (e.wait = .child)

/-- A `CHWAIT` that waits completes when its workgroup's count is 0 (R299): it acts as an acquire of every thread of the workgroup (R247). -/
def childDone (wg : Nat) (s : State) : State :=
  match findWg wg s with
  | none => s
  | some w => if w.children = 0 ∧ childWaits wg s = true then childCheck wg (acquireWg wg s) else s

/-- A store of a peer's own thread, at its home, to the window it exports to this device (R222, R240): reservations on the lines break. -/
def peerStores (member win off : Nat) (bytes : List Byte) (s : State) : State :=
  (splitLines (bytes.length + 1) (peerAddr member win off) bytes).foldl (fun s p =>
    breakResv none 0 (lineOf p.1) (setHomeBytes p.1 p.2 (noteOld p.1 p.2 s))) s

end Sys2Proof.Machine
end

