-- ==== Sys2Proof/Machine/Tiles.lean ====
section
/-!
DEFINITION. Tiles, accumulators and the pattern table (R112 to R117, R121 to R123, R129, R136, R140 to R144): what an entry reads and
writes, when it issues, and what it does when it completes.
-/

namespace Sys2Proof.Machine

/-! ### Tiles and accumulators -/

def getTile (w : Workgroup) (i : Nat) : Tile := sget {} i w.tiles
def putTile (wg i : Nat) (t : Tile) (s : State) : State := updWg wg (fun w => { w with tiles := sput {} i t w.tiles }) s
def getAcc (w : Workgroup) (i : Nat) : Acc := sget {} i w.accs
def putAcc (wg i : Nat) (a : Acc) (s : State) : State := updWg wg (fun w => { w with accs := sput {} i a w.accs }) s
def wgAt (wg : Nat) (s : State) : Workgroup := (findWg wg s).getD {}
def accAt (s : State) (p : Nat × Nat) : Acc := getAcc (wgAt p.1 s) p.2
def tileAt (s : State) (p : Nat × Nat) : Tile := getTile (wgAt p.1 s) p.2

/-- An element of an accumulator. -/
def accGet (a : Acc) (m n : Nat) : Word := sget 0 (64 * m + n) a.data
def accPut (m n : Nat) (x : Word) (a : Acc) : Acc := { a with data := sput 0 (64 * m + n) x a.data }
def accRow (m : Nat) (xs : List Word) (a : Acc) : Acc :=
  { data := sputs 0 (64 * m) xs a.data, pres := a.pres ||| laneBit m }

/-- The packed bits of a tile row (R65, R112). -/
def rowBits (t : Tile) (row : Nat) : Nat := ofBytes (sgets 0 (96 * row) 96 t.data)

/-- Packed codes, the first lowest. -/
def packCodes (bits : Nat) : List Nat → Nat
  | [] => 0
  | c :: cs => c % 2 ^ bits + 2 ^ bits * packCodes bits cs

/-- A tile row written whole, with the scale bytes of its blocks (R116, R118). -/
def putRow (row : Nat) (codes : List Nat) (f : Nat) (scales : List Byte) (present : Bool) (t : Tile) : Tile :=
  { t with
    data := sputs 0 (96 * row) (toBytes 96 (packCodes (fmtBits f) codes)) t.data
    scales := sputs 0x7F (8 * row) (scales ++ List.replicate (8 - scales.length) 0x7F) t.scales
    present := setBit t.present row present }

/-- The values of a row (R129): elements with their block scales; an absent row reads as +0. -/
def rowVals (tbl : List Word) (f : Nat) (t : Tile) (row : Nat) : List FVal :=
  if bit t.present row then
    let n := rowBits t row
    (List.range (fmtK f)).map fun k =>
      let v := fmtDecode tbl f (n / 2 ^ (fmtBits f * k) % 2 ^ fmtBits f)
      if fmtIsMx f then v.mul (scaleVal (sget (0x7F : Byte) (8 * row + k / 32) t.scales).toNat) else v
  else List.replicate (fmtK f) (.fin false 0 0)

/-! ### Entries -/

/-- The selector fields of R125. -/
def selB (w : Word) : Nat := bitsOf w 24 16
def selA (w : Word) : Nat := bitsOf w 15 7
def selC (w : Word) : Nat := bitsOf w 6 0
def selSrc (w : Word) : Nat := bitsOf w 13 7
def selQ (w : Word) : Nat := bitsOf w 15 14

/-- The workgroup and relative number of an index of the pair view (R136). -/
def PEntry.view (e : PEntry) (i : Nat) : Nat × Nat := (if i % 2 = 0 then e.wgC else e.wgU, i / 2)

def PEntry.hasSide (e : PEntry) (i : Nat) : Bool := if i % 2 = 0 then e.hasC else e.hasU

/-- The A tiles of an `MMA`, each with the publication it reads (R121, R139). A lone entry reads, and releases, the present side's alone (log
entry 83). -/
def PEntry.tilesA (e : PEntry) : List ((Nat × Nat) × Nat) :=
  if e.kind ≠ .mma ∨ e.chain = true then []
  else if e.pair then
    (if e.hasC then [(e.view (selA e.sel), e.needA)] else []) ++ (if e.hasU then [(e.view (selA e.sel + 1), e.needA2)] else [])
  else [((e.wgC, selA e.sel), e.needA)]

def PEntry.tilesB (e : PEntry) : List ((Nat × Nat) × Nat) :=
  if e.kind ≠ .mma then [] else [(if e.pair then e.view (selB e.sel) else (e.wgC, selB e.sel), e.needB)]

/-- The tiles that an entry reads. -/
def PEntry.tiles (e : PEntry) : List ((Nat × Nat) × Nat) := e.tilesA ++ e.tilesB

/-- The tiles that an entry releases, each once (R129). -/
def PEntry.released (e : PEntry) : List (Nat × Nat) :=
  (((if e.rela then e.tilesA else []) ++ (if e.relb then e.tilesB else [])).map fun p => p.1).foldl
    (fun l p => if l.contains p then l else l ++ [p]) []

/-- The accumulators that an entry writes; those of an absent side are never written (R143). -/
def PEntry.writes (e : PEntry) : List (Nat × Nat) :=
  match e.kind with
  | .mma =>
    if e.pair then (if e.hasC then [e.view (selC e.sel)] else []) ++ (if e.hasU then [e.view (selC e.sel + 1)] else [])
    else [(e.wgC, selC e.sel)]
  | .mguid => if e.hasSide (selC e.sel) then [e.view (selC e.sel)] else []
  | .mzero => [(e.wgC, selC e.sel)]
  | .mcvt => []

/-- The accumulators that an entry reads beside those it writes. -/
def PEntry.reads (e : PEntry) : List (Nat × Nat) :=
  match e.kind with
  | .mma => if e.chain then [(e.wgC, selSrc e.sel)] else []
  | .mguid => (if e.hasC then [e.view (selSrc e.sel)] else []) ++ (if e.hasU then [e.view (selSrc e.sel + 1)] else [])
  | .mzero => []
  | .mcvt => [(e.wgC, selC e.sel)]

/-- The tile that an `MCVT` writes. -/
def PEntry.dest (e : PEntry) : Option (Nat × Nat) := if e.kind = .mcvt then some (e.wgC, selA e.sel) else none

/-- An entry is earlier than another in a thread that both belong to (R121, R140). -/
def PEntry.before (a b : PEntry) : Bool := a.threads.any fun p => b.threads.any fun q => decide (p.1 = q.1) && decide (p.2 < q.2)

/-- Two lists share a member. -/
def meets (a b : List (Nat × Nat)) : Bool := a.any fun x => b.contains x

/-- An earlier entry holds another back (R121, conditions 2 to 4). -/
def PEntry.holdsBack (a b : PEntry) : Bool :=
  a.before b && (meets a.writes (b.reads ++ b.writes) || meets a.reads b.writes
    || (match b.dest with
      | some d => (a.tiles.map fun p => p.1).contains d
      | none => false))

/-- An entry's issue conditions (R121, R140). -/
def issuable (s : State) (e : PEntry) : Bool :=
  !e.begun && !e.saved
    && e.tiles.all (fun p => decide ((tileAt s p.1).state = 2) && decide ((tileAt s p.1).rels = p.2))
    && (match e.dest with
      | some d => decide ((tileAt s d).state = 0)
      | none => true)
    && !(s.pattern.any fun a => decide (a.id ≠ e.id) && a.holdsBack e)

/-- The older of two entries: time of entering, then thread slot (R121). -/
def older (a b : PEntry) : PEntry := if b.entered < a.entered ∨ (b.entered = a.entered ∧ b.slot < a.slot) then b else a

def oldest : List PEntry → Option PEntry
  | [] => none
  | e :: es => match oldest es with
    | none => some e
    | some f => some (older e f)

/-- An entry enters the table: it takes the publications that its tiles' earlier releases leave, and its own releases are
requested (R121). -/
def enterEntry (e : PEntry) (s : State) : State :=
  let need := fun (l : List ((Nat × Nat) × Nat)) (i : Nat) => ((l[i]?).map fun p => (tileAt s p.1).relReq).getD 0
  let nA := if e.hasC || !e.pair then need e.tilesA 0 else 0
  let nU := if e.pair && e.hasU then need e.tilesA (if e.hasC then 1 else 0) else 0
  let (id, s) := fresh s
  let e := { e with id := id, entered := s.time, needA := nA, needA2 := nU, needB := need e.tilesB 0 }
  let s := { s with pattern := s.pattern ++ [e] }
  e.released.foldl (fun s p => putTile p.1 p.2 { tileAt s p with relReq := (tileAt s p).relReq + 1 } s) s

/-! ### Passes (R80, R81, R129, R130) -/

def dotFloat (acc : Bool) (c : Word) (a b : List FVal) : Word :=
  rne32 (FVal.sum 0 (List.zipWith FVal.mul a b ++ (if acc then [f32 c] else [])))

/-- An integer value. -/
def intVal : FVal → Int
  | .fin s m _ => if s then -(m : Int) else (m : Int)
  | _ => 0

def dotInt (acc : Bool) (c : Word) (a b : List FVal) : Word :=
  wordOfInt ((List.zipWith (fun x y => intVal x * intVal y) a b).foldl (· + ·) (if acc then c.toInt else 0))

/-- One pass: rows of A that are present, all rows of B. -/
def passOn (f : Nat) (acc : Bool) (arow : Nat → Option (List FVal)) (brows : List (List FVal)) (c : Acc) : Acc :=
  (List.range 64).foldl (fun r m => match arow m with
    | none => r
    | some a =>
      accRow m ((indexed 0 brows).map fun p =>
        if fmtIsInt f then dotInt acc (accGet c m p.1) a p.2 else dotFloat acc (accGet c m p.1) a p.2) r) c

/-- A row of A from a tile. -/
def tileRow (tbl : List Word) (f : Nat) (t : Tile) (m : Nat) : Option (List FVal) :=
  if bit t.present m then some (rowVals tbl f t m) else none

/-- The down-converted codes of an accumulator row from column Q·K (R129, R132). -/
def convRow (tbl : List Word) (f q : Nat) (a : Acc) (m : Nat) : List Nat :=
  (List.range (fmtK f)).map fun k => if q * fmtK f + k < 64 then dconv tbl f (accGet a m (q * fmtK f + k)) else dconv tbl f 0

/-- A row of A read from an accumulator through the down-converter. -/
def chainRow (tbl : List Word) (f q : Nat) (a : Acc) (m : Nat) : Option (List FVal) :=
  if bit a.pres m then some ((indexed 0 (convRow tbl f q a m)).map fun p =>
    if q * fmtK f + p.1 < 64 then fmtDecode tbl f p.2 else .fin false 0 0) else none

/-- The rows of B. -/
def bRows (tbl : List Word) (f : Nat) (t : Tile) : List (List FVal) := (List.range 64).map (rowVals tbl f t)

/-- `MMA` completes for one side. -/
def doPass (e : PEntry) (arow : Nat → Option (List FVal)) (c : Nat × Nat) (s : State) : State :=
  let b := ((e.tilesB.head?).map fun p => tileAt s p.1).getD {}
  putAcc c.1 c.2 (passOn e.val.toNat e.acc arow (bRows e.compand e.val.toNat b) (accAt s c)) s

/-- A guidance step (R142). -/
def guideRow (k : Word) (c u : Acc) (pc pu : Bool) (m : Nat) (d : Acc) : Acc :=
  if bit c.pres m && pc then
    if bit u.pres m && pu then
      accRow m ((List.range 64).map fun n => fma32 k (fsub32 (accGet c m n) (accGet u m n)) (accGet u m n)) d
    else accRow m ((List.range 64).map fun n => accGet c m n) d
  else if bit u.pres m && pu then accRow m ((List.range 64).map fun n => accGet u m n) d
  else d

/-- An `MCVT` writes its tile, row by row, and publishes it (R132). -/
def convTile (e : PEntry) (a : Acc) (t : Tile) : Tile :=
  let f := e.val.toNat
  let q := bitsOf e.sel 17 16
  let t := (List.range 64).foldl (fun t m =>
    putRow m ((indexed 0 (convRow e.compand f q a m)).map fun p => if q * fmtK f + p.1 < 64 then p.2 else 0) f [] (bit a.pres m) t) t
  { t with state := 2, tag := some f }

/-- What an entry writes when it completes. -/
def entryEffect (e : PEntry) (s : State) : State :=
  match e.kind with
  | .mzero => e.writes.foldl (fun s p => putAcc p.1 p.2 {} s) s
  | .mcvt => match e.dest, e.reads with
    | some d, [a] => putTile d.1 d.2 (convTile e (accAt s a) (tileAt s d)) s
    | _, _ => s
  | .mguid =>
    let c := accAt s (e.view (selSrc e.sel))
    let u := accAt s (e.view (selSrc e.sel + 1))
    e.writes.foldl (fun s p =>
      putAcc p.1 p.2 ((List.range 64).foldl (fun d m => guideRow e.val c u e.hasC e.hasU m d) (accAt s p)) s) s
  | .mma =>
    if e.pair then
      let side := fun (i : Nat) (s : State) =>
        if e.hasSide i then
          doPass e (tileRow e.compand e.val.toNat (tileAt s (e.view (selA e.sel + i)))) (e.view (selC e.sel + i)) s
        else s
      side 1 (side 0 s)
    else
      let arow := if e.chain then chainRow e.compand e.val.toNat (selQ e.sel) (accAt s (e.wgC, selSrc e.sel))
        else tileRow e.compand e.val.toNat (tileAt s (e.wgC, selA e.sel))
      doPass e arow (e.wgC, selC e.sel) s

/-! ### Releases and watermarks -/

/-- A requested release takes effect once no present entry reads the publication (R117, R121). -/
def releaseStep (p : Nat × Nat) (s : State) : State :=
  let t := tileAt s p
  if t.rels < t.relReq ∧ (s.pattern.any fun e => e.tiles.any fun q => decide (q.1 = p) && decide (q.2 ≤ t.rels)) = false then
    putTile p.1 p.2 { relReq := t.relReq, rels := t.rels + 1 } s
  else s

/-- The tiles of a workgroup whose releases may take effect. -/
def releaseSteps (wg : Nat) (s : State) : State :=
  ((wgAt wg s).tiles.map fun t => t.1).foldl (fun s i => releaseStep (wg, i) s) s

/-- The watermark rises over the numbers completed above it (R122). -/
def raiseMark : Nat → Group → Group
  | 0, g => g
  | fuel + 1, g =>
    if g.doneAbove.contains (g.mark + 1) then
      raiseMark fuel { g with mark := g.mark + 1, doneAbove := g.doneAbove.filter fun n => decide (n ≠ g.mark + 1) }
    else g

def markDone (wg seq : Nat) (s : State) : State :=
  match bobbinOf wg s with
  | none => s
  | some b => updGroup b.uid (fun g => raiseMark (g.doneAbove.length + 1) { g with doneAbove := g.doneAbove ++ [seq] }) s

/-- A lone entry of a pair (R144). -/
def PEntry.lone (e : PEntry) : Bool := e.pair && !(e.hasC && e.hasU)

/-- An entry completes (R121): its results, its slot, its numbers, the releases, `LONE`. -/
def completeEntry (e : PEntry) (s : State) : State :=
  let s := entryEffect e s
  let s := { s with pattern := s.pattern.filter fun f => decide (f.id ≠ e.id) }
  let s := e.threads.foldl (fun s p => markDone p.1 p.2 s) s
  let s := releaseSteps e.wgU (releaseSteps e.wgC s)
  let s := if e.lone then
      e.threads.foldl (fun s p => updWg p.1 (fun w => { w with flags := w.flags ||| 1 }) (updGrid (wgAt p.1 s).grid (fun g => { g with lone := true }) s)) s
    else s
  updCtx (wgAt e.wgC s).ctx (fun c => { c with lastProgress := s.time }) (reenterAll s)

/-- An entry may write its last result: an `MCVT` waits until its tile is EMPTY (R117). -/
def mayComplete (s : State) (e : PEntry) : Bool := match e.dest with
  | some d => decide ((tileAt s d).state = 0)
  | none => true

/-- Entries that have begun complete, each by `f`, before their workgroups' state is saved (R124, R145); one that still waits for its tile has
written nothing and is saved as not begun. -/
def begunWith (f : PEntry → State → State) (p : PEntry → Bool) (s : State) : State :=
  let s := s.pattern.foldl (fun s e => if e.begun && p e && mayComplete s e then f e s else s) s
  { s with pattern := s.pattern.map fun e => if p e then { e with begun := false } else e }

end Sys2Proof.Machine
end

