-- ==== Sys2Proof/Machine/Pocket.lean ====
section
/-!
DEFINITION. How issuers stop (R320, R336), and the end of a context (R300, R337, R339): its work stops, its completion records are written and
its frames kept, with the walks that this needs, and then it is freed.
-/

namespace Sys2Proof.Machine

/-! ### Stopping (R320, R336) -/

/-- The issuing path stops: its lanes stand in the frontier with the clause position kept (R44), results in flight are
written (R320), and reservations are broken (R226). A launch record that the front end has copied stays with its `SPAWN` (R252). -/
def stopPath (g : Group) : Group :=
  let g := { completeOps g with resv := [], arming := [], stall := .none, walks := [], held := none, spawn := g.spawn.filter fun p => p.2.isSome, rendezvous := none }
  match g.act with
  | none => g
  | some e => addEntry e { g with act := none }

/-- The path before its word's hints: a debug stop or a pre-emption falls before them (R44). -/
def rewindHints (e : FEntry) : FEntry :=
  match e.pos with
  | some p => { e with pc := e.pc - 4 * p.hints.run, pos := some { p with issued := p.issued - p.hints.run, hints := {} } }
  | none => e

/-- An issuer halts between words (R320, R336). -/
def haltPath (g : Group) : Group := stopPath { g with act := g.act.map rewindHints }

/-- A deterministic claim that waits is no claim until it issues again (R202). -/
def unclaim (g : Group) (s : State) : State :=
  match g.held with
  | some (.claim u _ _) => updWg g.wg (fun w => { w with claimed := w.claimed.filter fun x => decide (x ≠ u.toNat) }) s
  | _ => s

/-- The issuers of a context. -/
def groupsOfCtx (id : Nat) (s : State) : List Group := (allGroups s).filter fun g => decide (g.ctx = id)

/-- A save ends with the release condition of a device-scope fence (R236, R248, R336): device time has passed the GWCT of every thread of the
chosen issuers, and of those that have retired from the chosen grids. -/
def passGwct (p : Group → Bool) (q : Grid → Bool) (s : State) : State :=
  let t := maxOf (((allGroups s).filter p).map groupGwct ++ (s.grids.filter q).map fun g => g.gwct)
  { s with time := if t = 0 then s.time else max s.time (t + 1) }

/-- The context's issuers stop between words, with results written, begun entries complete by `f`, and stores performed (R336, steps 1 to 3). -/
def stopWork (f : PEntry → State → State) (ctx : Nat) (s : State) : State :=
  let wgs := (s.wgs.filter fun w => decide (w.ctx = ctx)).map fun w => w.uid
  let s := (groupsOfCtx ctx s).foldl (fun s g => unclaim g s) s
  let s := performGroups (fun g => decide (g.ctx = ctx)) s
  let s := mapGroups (fun g => if g.ctx = ctx then haltPath g else g) s
  let s := begunWith f (fun e => wgs.contains e.wgC || wgs.contains e.wgU) s
  let uids := (groupsOfCtx ctx s).map fun g => g.uid
  let s := releaseAll (fun u => uids.contains u) s
  passGwct (fun g => decide (g.ctx = ctx)) (fun g => decide (g.ctx = ctx)) s

/-! ### Completion records (R254, R255) -/

def gridInfo (g : Grid) : Nat := (if g.lone then 1 else 0) + (if g.uncached then 2 else 0)

/-- The record of a grid that ends with its context: STATUS 2 (R255), or 1 when it had retired before (R336). -/
def gridRec (s : State) (g : Grid) : EndRec :=
  { compl := g.launch.compl, status := if g.ended.isSome then 1 else 2, info := gridInfo g, gridId := g.gridId, wgDone := g.wgDone
    tstart := g.tstart.getD s.time, tend := g.ended.getD s.time, entry := g.complTlb }

/-- The record of a launch that was copied and not admitted when its context ended (R252, R254): STATUS 2. -/
def copiedRec (s : State) (r : List Byte) : EndRec :=
  { compl := ofBytes ((r.drop 0x38).take 8), status := 2, tstart := s.time, tend := s.time }

/-- The launch records of a context that wait to be admitted: from its host queues and from `SPAWN` words. -/
def copiedRecords (id : Nat) (s : State) : List (List Byte) :=
  ((s.queues.filter fun q => decide (q.ctx = id)).filterMap fun q => q.copied)
    ++ (((s.grp :: s.groups).filter fun g => decide (g.ctx = id)).filterMap fun g => g.spawn.bind fun p => p.2)

/-- A state in which one more translation is in the TLB of a core. -/
def withEntry (core : Nat) (e : Option TlbEntry) (f : State → Except (Nat × Trans) State) (s : State) : Except (Nat × Trans) State :=
  match e with
  | none => f s
  | some e => match f { s with tlb := s.tlb ++ [{ e with core := core }] } with
    | .ok t => .ok { t with tlb := s.tlb }
    | .error e => .error e

/-- A record that is due is written, or its translation asked for; one whose page is absent or refused is not written (R254). What stays due. -/
def writeDue (core ctx : Nat) : List EndRec → State → List EndRec × State
  | [], s => ([], s)
  | r :: rs, s =>
    match withEntry core r.entry (writeCompletion core ctx r.compl r.status r.info r.gridId r.wgDone r.tstart r.tend) s with
    | .ok s => writeDue core ctx rs s
    | .error (va, .miss) => let (l, s) := writeDue core ctx rs (agentWait core ctx va 1 .miss s); (r :: l, s)
    | .error _ => writeDue core ctx rs s

/-! ### The end of a context -/

/-- What the context owns is freed (R300). -/
def freeContext (id : Nat) (s : State) : State :=
  let s := dropGroups (fun g => decide (g.ctx = id)) s
  { s with
    wgs := s.wgs.filter fun w => decide (w.ctx ≠ id)
    grids := s.grids.filter fun g => decide (g.ctx ≠ id)
    ctxs := s.ctxs.filter fun c => decide (c.id ≠ id)
    tlb := s.tlb.filter fun e => decide (e.ctx ≠ id)
    misses := s.misses.filter fun m => decide (m.ctx ≠ id)
    agentWalks := s.agentWalks.filter fun w => decide (w.ctx ≠ id)
    fits := s.fits.filter fun f => decide (f.ctx ≠ id)
    queues := s.queues.filter fun q => decide (q.ctx ≠ id)
    exports := s.exports.filter fun e => decide (e.ctx ≠ id)
    imports := s.imports.filter fun i => decide (i.ctx ≠ id) }

/-- A context is gone. -/
def dropContext (id : Nat) (s : State) : State := reenterAll (freeContext id s)

/-- A context whose work has ended is freed when nothing waits for a translation any more: its records (R254), its frames (R340). -/
def finishEnd (id : Nat) (s : State) : State :=
  match (findCtx id s).filter fun x => x.ending with
  | none => s
  | some x =>
    let core := partCore s x
    let (due, s) := writeDue core id x.due s
    let s := updCtx id (fun x => { x with due := due }) s
    match framesWait id s with
    | some va => agentWait core id va 0 .miss s
    | none => if due.isEmpty then dropContext id (keepFrames id true s) else s

/-- A context's work ends with status ENDED (R255, R300): its issuers, workgroups, grids, tasks and entries are gone, and what has still to be
written is due. -/
def endWork (x : Context) (s : State) : State :=
  let id := x.id
  let uids := (groupsOfCtx id s).map fun g => g.uid
  let wgs := (s.wgs.filter fun w => decide (w.ctx = id)).map fun w => w.uid
  let due := (copiedRecords id s).map (copiedRec s) ++ (s.grids.filter fun g => decide (g.ctx = id)).map (gridRec s)
  let s := { dropGroups (fun g => decide (g.ctx = id)) s with
    traps := s.traps.filter fun t => !uids.contains t.2
    tasks := s.tasks.filter fun t => decide (((findGrid t.grid s).map fun g => g.ctx) ≠ some id)
    pattern := s.pattern.filter fun e => !(wgs.contains e.wgC || wgs.contains e.wgU)
    wgs := s.wgs.filter fun w => decide (w.ctx ≠ id)
    grids := s.grids.filter fun g => decide (g.ctx ≠ id)
    queues := s.queues.map fun q => if q.ctx = id then { q with copied := none } else q
    misses := s.misses.filter fun m => decide (m.ctx ≠ id) }
  let s := if x.resident then noteKeeping id s else s
  updCtx id (fun x => { x with ending := true, resident := false, due := due }) s

/-- A context ends (R300): it stops as in steps 1 to 3 of R336, its work ends, and it is freed as soon as nothing waits. -/
def endContext (id : Nat) (s : State) : State :=
  match (findCtx id s).filter fun x => !x.ending with
  | none => s
  | some x => finishEnd id (endWork x (stopWork completeEntry id s))

/-- At most eight entries: the first seven and the last one (R339). -/
def capChain (l : List TrapRec) : List TrapRec :=
  if l.length ≤ 8 then l else l.take 7 ++ l.drop (l.length - 1)

/-- A context ends through the pocket (R337, R339): it stops, the pocket is written before anything is freed, `MBEVT` POCKET is set, and the
context ends. One that is ending loses what its walker has still to translate; one that has ended already is left as it is. -/
def endThroughPocket (id : Nat) (chain : List TrapRec) (s : State) : State :=
  match findCtx id s with
  | none => s
  | some x =>
    if x.ending then dropContext id s
    else
      let t := s.time
      let (seed, s) := drawFree (stopWork completeEntry id s)
      let s := { s with
        pockets := s.pockets.filter (fun p => decide (p.ctx ≠ id)) ++ [{ ctx := id, time := t, chain := capChain chain, seed := seed }] }
      endContext id (setEvt 2 s)

end Sys2Proof.Machine
end

