-- ==== Sys2Proof/Machine/Ops.lean ====
section
/-!
DEFINITION. What every word shares: the issuing path and its clause position (R40, R44, R269), the checks of R52 in their
order, completing a word, raising a flag (R41, R42), and taking a trap (R320 to R324, R329).
-/

namespace Sys2Proof.Machine

/-! ### Causes (R322) -/

def cIllegalEncoding : Nat := 0x01
def cIllegalOperand : Nat := 0x02
def cIllegalTarget : Nat := 0x03
def cCfiTag : Nat := 0x04
def cHintPlacement : Nat := 0x05
def cConverge : Nat := 0x06
def cFormatDiverge : Nat := 0x07
def cPairDiverge : Nat := 0x08
def cAccBusy : Nat := 0x09
def cBounds : Nat := 0x0A
def cPageFault : Nat := 0x0B
def cProtection : Nat := 0x0C
def cMisaligned : Nat := 0x0D
def cTraceDepth : Nat := 0x0E
def cClosureLimit : Nat := 0x0F
def cDetViolation : Nat := 0x10
def cLeaderOnly : Nat := 0x11
def cNestDepth : Nat := 0x12
def cBreakpoint : Nat := 0x13
def cWatchpoint : Nat := 0x14
def cTrapInsn : Nat := 0x15
def cSingleStep : Nat := 0x16
def cPrivileged : Nat := 0x17
def cWatchdog : Nat := 0x18
def cEcc : Nat := 0x19
def cQueueFault : Nat := 0x1A
def cHazard : Nat := 0x1B

/-! ### The issuing path -/

/-- The active mask of the issuing path (R269). -/
def active (s : State) : DWord := (s.grp.act.map fun e => e.mask).getD 0

/-- The address of the issuing word. -/
def curPc (s : State) : Nat := (s.grp.act.map fun e => e.pc).getD 0

/-- The clause position of the issuing path. -/
def curPos (s : State) : Option Pos := s.grp.act.bind fun e => e.pos

/-- The hints that stand before the word. -/
def curHints (s : State) : Hints := ((curPos s).map fun p => p.hints).getD {}

/-- The last-result file (R39). -/
def curH (s : State) : List HEntry := ((curPos s).map fun p => p.h).getD []

/-- A change of the issuing entry. -/
def State.setAct (s : State) (f : FEntry → FEntry) : State := s.setG fun g => { g with act := g.act.map f }

/-- A change of the clause position. -/
def State.setPos (s : State) (f : Pos → Pos) : State := s.setAct fun e => { e with pos := e.pos.map f }

/-- The original offset of a code address (R188). -/
def topcOf (g : Group) (pc : Nat) : Nat :=
  match g.code.residual with
  | some r => r.orig.getD (pc / 4) (match r.copy with
    | some b => pc - b
    | none => pc)
  | none => pc

/-- The copy numbers of a code address (R188). -/
def titerOf (g : Group) (pc : Nat) : Nat :=
  match g.code.residual with
  | some r => r.titer.getD (pc / 4) 0
  | none => 0

/-- SLOT in the form of R335. -/
def slotCode (g : Group) : Nat :=
  match g.kind with
  | .vector => g.slot
  | .bobbin => 0x100 + g.slot
  | .walker => 0x180
  | .handler => 0x181

/-- The core that WHO and targets name: for a bobbin thread the lowest of its cluster (R335). -/
def whoCore (g : Group) : Nat :=
  match g.kind with
  | .bobbin => 4 * (g.core / 4)
  | _ => g.core

/-- Feature bit `n` of the running code object (R36). -/
def hasFeature (g : Group) (n : Nat) : Bool := g.code.features.getLsbD n

/-! ### Completing a word -/

/-- The next turn of a deterministic workgroup's round (R198). -/
def nextTurn (g : Group) (s : State) : State :=
  if (ctxOf s).det && decide (g.kind = .vector) then
    updWg g.wg (fun w =>
      if g.gidx + 1 < (groupsOfWg g.wg s).foldl (fun n x => max n (x.gidx + 1)) 0 then { w with turn := g.gidx + 1 }
      else { w with turn := 0, round := w.round + 1 }) s
  else s

/-- The issuing path goes back to the frontier at a PC between clauses: a clause boundary, which also breaks the
reservations (R226) and ends the turn (R198). -/
def endClause (s : State) : State :=
  match s.grp.act with
  | none => s
  | some e =>
    let g := addEntry { e with pos := none, age := 0 } { s.grp with act := none, resv := [], arming := [] }
    nextTurn g { s with grp := joinCheck g }

/-- The path moves past the word; after the last word of the clause it stands between clauses (R40). -/
def advance (s : State) : State :=
  match s.grp.act with
  | none => s
  | some e =>
    match e.pos with
    | none => s.setAct fun e => { e with pc := e.pc + 4 }
    | some p =>
      let e' := { e with pc := e.pc + 4, pos := some { p with issued := p.issued + 1, hints := {}, own := [] } }
      let s := s.setG fun g => { g with act := some e' }
      if p.issued + 1 ≥ p.len then endClause s else s

/-- The address of the step that the word ends: of the first hint before it, or its own (R44, R328). -/
def stepStart (s : State) : Nat := curPc s - 4 * (curHints s).run

/-- What was suppressed for one issue of a word is over: a watchpoint at the word, a breakpoint at its step (R327, R333). -/
def spend (s : State) (g : Group) : Group :=
  { g with
    noWatch := if (g.noWatch.map fun w => w.1) = some (curPc s) then none else g.noWatch
    noBreak := if g.noBreak = some (stepStart s) then none else g.noBreak }

/-- Nothing holds the issuer any more, and what was kept for one issue is over. -/
def settle (s : State) : State :=
  s.setG fun g => spend s { g with stall := .none, walks := [], held := none, spawn := none }

/-- The word stays where it is and issues again (R266). -/
def stallOn (why : Stall) (s : State) : State := s.setG fun g => { g with stall := why }

/-! ### Taking a trap -/

/-- A trap that a word takes. -/
structure TrapReq where
  cause : Nat
  mask : DWord
  code : Nat := 0
  addr : Nat := 0
  info : Nat := 0
  deriving DecidableEq, Repr

/-- The record of R321. -/
def mkRec (g : Group) (pc : Nat) (t : TrapReq) : TrapRec :=
  { cause := t.cause, code := t.code, bobbin := decide (g.kind = .bobbin), tpc := pc, topc := topcOf g pc,
    titer := titerOf g pc, mask := if g.kind = .bobbin then 0 else t.mask, addr := t.addr, info := t.info,
    core := whoCore g, slot := slotCode g }

/-- TCAUSE (R321). -/
def tcause (r : TrapRec) : Nat := r.code * 2 ^ 16 + (if r.bobbin then 256 else 0) + r.cause

/-- The loads of an issuer in flight are performed before its registers are read or saved (R320): then it is stopped by `f`. -/
def stopWith (uid : Nat) (f : Group → Group) (s : State) : State := updGroup uid f (performAll uid s)

/-- The debugger's stop record (R330): the group is halted, and `MBEVT` DEBUG is set. -/
def haltFor (r : TrapRec) (g : Group) (s : State) : State :=
  let s := updGroup g.uid (fun g => { g with stop := .halted, trap := some r }) s
  let s := updCtx g.ctx (fun c =>
    { c with events := c.events ++ [{ target := slotCode g * 2 ^ 16 + whoCore g, trap := r, time := s.time }] }) s
  setEvt 5 s

/-- The speculative tasks of the issuer's lanes (R205). -/
def specTasks (uid : Nat) (m : DWord) (s : State) : List Task :=
  s.tasks.filter fun t => decide (t.grp = uid) && bit m t.lane && t.spec && !t.exited

/-- The traps that a routine handles (R339): the handler's own chain, which a walker that serves the handler's miss works for. -/
def chainOf (g : Group) (s : State) : List TrapRec :=
  if g.kind = .walker then (((findGroup g.serves s).filter fun h => decide (h.kind = .handler)).map fun h => h.chain).getD [] else g.chain

/-- A trap recorded for an issuer that has stopped at a boundary: the debugger takes the three causes of R329, a routine's
trap (after the traps of the handler it serves) or a missing handler is fatal (R324, R337, R339), and otherwise the trap waits for the handler slot (R324). -/
def deliver (r : TrapRec) (g : Group) (s : State) : State :=
  let c := (findCtx g.ctx s).getD {}
  match g.kind with
  | .walker => endThroughPocket g.ctx (chainOf g s ++ [r]) s
  | .handler => endThroughPocket g.ctx (chainOf g s ++ [r]) s
  | _ =>
    if c.attached && (r.cause == cBreakpoint || r.cause == cWatchpoint || r.cause == cSingleStep) then haltFor r g s
    else
      let s := updGroup g.uid (fun g => { g with stop := .trapped, trap := some r }) s
      if c.handlerVa.isNone then endThroughPocket g.ctx [r] s
      else { s with traps := s.traps ++ [(whoCore g, g.uid)] }

/-- The lanes of the issuing path, among some, whose tasks are speculative. -/
def specLanes (m : DWord) (s : State) : DWord := maskOf ((specTasks s.grp.uid (active s &&& m) s).map fun t => t.lane)

/-- Lanes leave the path to wait at the word until their tasks are the oldest (R205); the word issues again for the others. The group's turn
does not end (R198). -/
def parkTasks (m : DWord) (s : State) : State :=
  match s.grp.act with
  | none => s
  | some e =>
    let g := addEntry { e with mask := e.mask &&& m, wait := .task } (removeLanes m s.grp)
    let g := { g with resv := g.resv.filter (fun r => !bit m r.1), arming := g.arming.filter fun r => !bit m r.1 }
    if g.act.isNone then { s with grp := { g with stall := .none, walks := [], held := none, spawn := none } }
    else { s with grp := g }

/-- Lanes of speculative tasks wait, or else the word goes on (R205). -/
def oldestOnly (m : DWord) (body : State → State) (s : State) : State :=
  if specLanes m s = 0 then body s else parkTasks (specLanes m s) s

/-- A static register holds its value in the lanes of a path: V, K from 0x100, S from 0x200 and B registers from 0x300 on. -/
def putStatic (m : DWord) (p : Nat × Nat) (g : Group) : Group :=
  if p.1 < 0x100 then (lanes m).foldl (fun g l => setV p.1 l (BitVec.ofNat 32 p.2) g) g
  else if p.1 < 0x200 then (lanes m).foldl (fun g l => setK (p.1 - 0x100) l (BitVec.ofNat 32 p.2) g) g
  else if p.1 < 0x300 then setS (p.1 - 0x200) (BitVec.ofNat 32 p.2) g
  else setB (p.1 - 0x300) (BitVec.ofNat 128 p.2) g

/-- At a trap in residual code the static registers hold their values (R184): those that are static before and after the word at an address,
in the lanes of its path; S and B registers are shared by the paths of the group (log entry 107). -/
def restoreStatics (pc : Nat) (m : DWord) (g : Group) : Group :=
  match g.code.residual with
  | none => g
  | some r => match r.restore.reverse.find? fun e => decide (e.1 ≤ pc) with
    | none => g
    | some e => e.2.foldl (fun g p => putStatic m p g) g

/-- The trap of the issuing word: no effect of the word commits, the record names its address, and the PCs stand at it
(R52, R320). A speculative task's trap waits until the task is the oldest, when the word issues again (R205). -/
def takeTrap (t : TrapReq) (s : State) : State :=
  oldestOnly t.mask (fun s =>
    let s := performAll s.grp.uid s
    let g := stopPath (restoreStatics (curPc s) (active s) (spend s s.grp))
    deliver (mkRec s.grp (curPc s) t) g { s with grp := g }) s

/-- A trap taken after the word has completed: the PCs stand at the next word (R320). -/
def takeTrapAfter (t : TrapReq) (pc : Nat) (s : State) : State :=
  let s := performAll s.grp.uid s
  let g := stopPath (restoreStatics pc t.mask s.grp)
  deliver (mkRec s.grp pc t) g { s with grp := g }

/-- `SINGLE_STEP` after a step of `HSTEP` or of the debugger (R328). A group without live lanes does not stop. -/
def stepCheck (pc : Nat) (m : DWord) (s : State) : State :=
  if s.grp.live = 0 then s
  else if s.grp.hstep then takeTrapAfter { cause := cSingleStep, mask := m } pc (s.setG fun g => { g with hstep := false })
  else match s.grp.dbgSteps with
    | none => s
    | some n =>
      if n ≤ 1 then takeTrapAfter { cause := cSingleStep, mask := m } pc (s.setG fun g => { g with dbgSteps := none })
      else s.setG fun g => { g with dbgSteps := some (n - 1) }

/-- A word that has committed its effect completes. -/
def finish (s : State) : State := stepCheck (curPc s) (active s) (advance (settle s))

/-! ### The checks of R52 -/

/-- The hint kinds a word accepts (R45, R46). `both`: `XIMM` and `XIMMF` may both stand before it (R229). -/
structure HintSet where
  imm : Bool := false
  immf : Bool := false
  scl : Bool := false
  rnd : Bool := false
  evc : Bool := false
  scp : Bool := false
  part : Bool := false
  both : Bool := false
  deriving DecidableEq, Repr

/-- The hints before the word are accepted by it (R45). -/
def hintsOk (a : HintSet) (h : Hints) : Bool :=
  !h.twice && (h.imm.isNone || a.imm) && (h.immf.isNone || a.immf) && (h.scl.isNone || a.scl)
    && (h.rnd.isNone || a.rnd) && (h.evc.isNone || a.evc) && (h.scp.isNone || a.scp) && (!h.part || a.part)
    && (h.imm.isNone || h.immf.isNone || a.both)

/-- What a word needs, for the checks of R52 in their order. -/
structure Need where
  vec : Bool := true
  bob : Bool := false
  walk : Bool := true
  hand : Bool := true
  /-- Accepted only in the walker and handler slots; elsewhere `PRIVILEGED` (R61). -/
  priv : Bool := false
  /-- `PRIVILEGED` in this issuer (R284). -/
  privBad : Bool := false
  feats : List Nat := []
  last : Bool := false
  first : Bool := false
  varlat : Bool := false
  /-- It acts once for each issue of its path, whatever the mask (R41, R269). -/
  group : Bool := false
  badTarget : Option TrapReq := none
  hints : HintSet := {}
  operandBad : Bool := false
  /-- Registers whose values `valueBad` reads: a marked one traps and a pending one stalls before it is looked at, so that the
  check never depends on whether an operation has completed (R41, R42, log entry 75). -/
  early : List Reg := []
  /-- The operand check fails on the values of `early`. -/
  valueBad : Bool := false
  info : Nat := 0
  /-- Registers read or written (R42). -/
  regs : List Reg := []
  deriving DecidableEq, Repr

/-- The issuer accepts the word (R61). -/
def issuerOk (n : Need) : Issuer → Bool
  | .vector => n.vec || n.priv
  | .bobbin => n.bob
  | .walker => n.walk
  | .handler => n.hand

/-- The word stands where it may (R40, R43, R49), its feature bits are set (R36), and it may raise a flag (R41). -/
def encodingOk (n : Need) (g : Group) (p : Pos) : Bool :=
  issuerOk n g.kind && hasFeature g 0 && n.feats.all (hasFeature g) && (!n.last || decide (p.issued + 1 = p.len))
    && (!n.first || decide (p.issued = 0)) && (!n.varlat || decide (p.seta ≠ 15))

/-- The flag that the next variable-latency word of the clause raises (R41). -/
def flagOf (p : Pos) : Nat := if p.vl = 0 ∨ p.setb = 15 then p.seta else p.setb

/-- A marked register makes the word trap, but for a mark that an earlier issue of the same word set (R323). -/
def hazardous (g : Group) (p : Pos) (r : Reg) : Bool := marked g r && !p.own.contains r

/-- What the checks of R52 find, in their order. -/
inductive Check where
  | trap (t : TrapReq)
  | stall (why : Stall)
  | run
  deriving DecidableEq, Repr

/-- The checks of R52 that do not depend on the word's own description. -/
def check (n : Need) (s : State) : Check :=
  let m := active s
  match n.badTarget with
  | some t => .trap t
  | none =>
    match curPos s with
    | none => .trap { cause := cIllegalEncoding, mask := m }
    | some p =>
      if !encodingOk n s.grp p then .trap { cause := cIllegalEncoding, mask := m }
      else if n.priv && decide (s.grp.kind = .vector) || n.privBad then .trap { cause := cPrivileged, mask := m }
      else if !hintsOk n.hints p.hints then .trap { cause := cHintPlacement, mask := m }
      else if n.operandBad then .trap { cause := cIllegalOperand, mask := m, info := n.info }
      else if n.early.any (hazardous s.grp p) then .trap { cause := cHazard, mask := m }
      else if n.early.any (regPending s.grp) then .stall .token
      else if n.valueBad then .trap { cause := cIllegalOperand, mask := m, info := n.info }
      else if n.regs.any (hazardous s.grp p) then .trap { cause := cHazard, mask := m }
      else if n.regs.any (regPending s.grp) then .stall .token
      else if n.varlat && (n.group || decide (m ≠ 0)) && decide (getF s.grp (flagOf p) ≥ 255) then .stall .flag
      else .run

/-- A word: the checks of R52, then its own effect. -/
def word (n : Need) (body : State → State) (s : State) : State :=
  match check n s with
  | .trap t => takeTrap t s
  | .stall w => stallOn w s
  | .run => body s

/-- The trap of a word's own description, with its active mask. -/
def trapOwn (cause : Nat) (s : State) : State := takeTrap { cause := cause, mask := active s } s

/-! ### Results and flags -/

/-- The last-result file shifts (R39). -/
def pushH (e : HEntry) (s : State) : State := s.setPos fun p => { p with h := (e :: p.h).take 4 }

/-- A variable-latency operation is in flight: its flag counts, and its destinations are marked (R41, R42). `loads`: what has still to be
performed of it. -/
def raiseOp (regs : List Reg) (writes : List RegWrite) (clos : List (Nat × Nat × Closure)) (loads : List PLoad) (s : State) : State :=
  match curPos s with
  | none => s
  | some p =>
    let f := flagOf p
    let s := s.setG fun g =>
      { setF f (getF g f + 1) g with
        ops := g.ops ++ [{ flag := f, writes := writes, clos := clos, loads := loads }]
        marks := g.marks ++ (regs.filter fun r => !marked g r).map fun r => (r, f) }
    s.setPos fun p => { p with vl := p.vl + 1 }

/-- An operation of the active lanes: with none it completes at once and raises nothing (R41). -/
def launchOp (regs : List Reg) (writes : List RegWrite) (clos : List (Nat × Nat × Closure)) (s : State) (loads : List PLoad := []) : State :=
  if active s = 0 then s else raiseOp regs writes clos loads s

end Sys2Proof.Machine
end

