-- ==== Sys2Proof/Machine/Operands.lean ====
section
/-!
DEFINITION. Operand codes (R37, R38), their values in a lane, destinations, immediates (R46), the rounding of a word
(R71 to R73), and the two shapes of a vector word: fixed latency and result-writing, or variable latency (R84, R85).
-/

namespace Sys2Proof.Machine

/-- A code that names a V or K register range of `w` words, aligned and inside the allocation (R38). -/
def regRangeOk (g : Group) (w c : Nat) : Bool :=
  if c ≤ 0xDF then decide (c + w ≤ g.code.vregs) && decide (c % w = 0)
  else decide (0xE0 ≤ c) && decide (c ≤ 0xE7) && decide (c - 0xE0 + w ≤ g.code.kregs) && decide ((c - 0xE0) % w = 0)

/-- A source operand of `w` words is legal (R38). `field`: the word has an immediate field. A 64- or 128-bit source may be an entry of the
last-result file that is wide enough: R39 gives the entry its width and lets a narrower one trap, and R88 does not name it (log entry 76). -/
def srcOk (s : State) (field : Bool) (w c : Nat) : Bool :=
  if c ≤ 0xE7 then regRangeOk s.grp w c
  else if c ≤ 0xEF then false
  else if c ≤ 0xF3 then
    match (curH s)[c - 0xF0]? with
    | some e => decide (w ≤ e.width)
    | none => false
  else if c = 0xF4 ∨ c = 0xFB then true
  else if c = 0xFF then false
  else if w ≠ 1 then false
  else if c = 0xFC then !field && ((curHints s).imm.isSome || (curHints s).immf.isSome)
  else if c = 0xFD then (curHints s).scl.isSome
  else true

/-- A destination operand of `w` words is legal: V or K only (R38). -/
def dstOk (s : State) (w c : Nat) : Bool := decide (c ≤ 0xE7) && regRangeOk s.grp w c

/-- The registers that an operand code of `w` words names, for the hazard check (R42); the S register of `SCL` is read. -/
def codeRegs (s : State) (w c : Nat) : List Reg :=
  if c ≤ 0xDF then (List.range w).map fun i => Reg.v (c + i)
  else if c ≤ 0xE7 then (List.range w).map fun i => Reg.k (c - 0xE0 + i)
  else if c = 0xFD then match (curHints s).scl with
    | some r => [Reg.s r.toNat]
    | none => []
  else []

/-- The S register that `XRND` names as the seed (R72). -/
def seedRegs (s : State) : List Reg :=
  match (curHints s).rnd with
  | some r => if r.mode = 5 then [Reg.s r.seed.toNat] else []
  | none => []

/-- The immediate that `IMM` reads (R46). -/
def immWord (h : Hints) : Word :=
  match h.immf with
  | some i => i.zeroExtend 32 <<< 10
  | none => match h.imm with
    | some i => i.signExtend 32
    | none => 0

/-- The effective immediate of a field of `k` bits: the hint's upper part above it, or the field read as given (R46). -/
def effImm (h : Hints) (k : Nat) (signed : Bool) (x : BitVec k) : Word :=
  match h.imm with
  | some i => i.signExtend 32 <<< k ||| x.zeroExtend 32
  | none => if signed then x.signExtend 32 else x.zeroExtend 32

/-- `LANE`, `TID`, `GID` and `SIDE` (R18, R28, R37); all 0 in a routine (R365). -/
def laneId (g : Group) (l : Nat) : Nat :=
  match g.kind with
  | .vector => l
  | _ => 0

def tidOf (g : Group) (l : Nat) : Nat :=
  match g.kind with
  | .vector => g.gidx * g.width + l
  | _ => 0

/-- The value that a special operand code selects in a lane (R37). -/
def specialVal (s : State) (c l : Nat) : Word :=
  match c with
  | 0xF5 => 0x3F800000
  | 0xF6 => 0xBF800000
  | 0xF7 => 0x3F000000
  | 0xF8 => BitVec.ofNat 32 (laneId s.grp l)
  | 0xF9 => BitVec.ofNat 32 (tidOf s.grp l)
  | 0xFA => BitVec.ofNat 32 (wgOf s).gid
  | 0xFB => 0xFFFFFFFF
  | 0xFC => immWord (curHints s)
  | 0xFD => match (curHints s).scl with
    | some r => getS s.grp r.toNat
    | none => 0
  | 0xFE => BitVec.ofNat 32 (wgOf s).side
  | _ => 0

/-- Word `i` of the value that an operand code selects in a lane (R37, R39). -/
def srcWord (s : State) (c i l : Nat) : Word :=
  if c ≤ 0xDF then getV s.grp (c + i) l
  else if c ≤ 0xE7 then getK s.grp (c - 0xE0 + i) l
  else if 0xF0 ≤ c ∧ c ≤ 0xF3 then
    match (curH s)[c - 0xF0]? with
    | some e => sget 0 (4 * l + i) e.vals
    | none => 0
  else specialVal s c l

/-- The 32-bit value of an operand in a lane. -/
def src (s : State) (c : BitVec 8) (l : Nat) : Word := srcWord s c.toNat 0 l

/-- The 64-bit value of an operand in a lane. -/
def src64 (s : State) (c : BitVec 8) (l : Nat) : Nat := pair64 (srcWord s c.toNat 0 l) (srcWord s c.toNat 1 l)

/-- Word `i` of a destination in a lane. -/
def setDstWord (c i l : Nat) (x : Word) (g : Group) : Group :=
  if c ≤ 0xDF then setV (c + i) l x g else setK (c - 0xE0 + i) l x g

/-- The words of a result from word `i` upwards into a lane's destination. -/
def setDst (c l : Nat) : Nat → List Word → Group → Group
  | _, [], g => g
  | i, x :: xs, g => setDst c l (i + 1) xs (setDstWord c i l x g)

/-- Every active lane's result into its destination. -/
def setLanes (c : Nat) (f : Nat → List Word) : List Nat → Group → Group
  | [], g => g
  | l :: ls, g => setLanes c f ls (setDst c l 0 (f l) g)

/-- The whole destination value, in every lane of the group (R39). -/
def hEntry (c w : Nat) (s : State) : HEntry :=
  { width := w
    vals := (List.range s.grp.width).foldl
      (fun m l => (List.range w).foldl (fun m i => sput 0 (4 * l + i) (srcWord s c i l) m) m) [] }

/-- A fixed-latency result: the active lanes of the destination take their values, which were all formed before, and the
last-result file shifts (R39, R84). -/
def writeResult (d w : Nat) (f : Nat → List Word) (s : State) : State :=
  let s' := s.setG (setLanes d f (lanes (active s)))
  pushH (hEntry d w s') s'

/-- The register writes of a variable-latency result (R41). -/
def resultWrites (d : Nat) (f : Nat → List Word) (ls : List Nat) : List RegWrite :=
  ls.flatMap fun l => (indexed 0 (f l)).map fun p =>
    { reg := if d ≤ 0xDF then .v (d + p.1) else .k (d - 0xE0 + p.1), lane := l, val := p.2 }

/-- The rounding of the word in a lane for an element (R71 to R73). -/
def ctlOf (s : State) (l k : Nat) : Ctl :=
  match (curHints s).rnd with
  | none => {}
  | some r =>
    { mode := r.mode.toNat, sat := r.sat, ftz := r.ftz
      q := stochastic (getS s.grp r.seed.toNat) (topcOf s.grp (curPc s)) (laneId s.grp l) k }

/-- The operand hints of a vector word: `XIMM` and `XIMMF` when a source is `IMM`, `XSCL` when one is `SCL` (R46, R87). -/
def operandHints (codes : List Nat) : HintSet :=
  { imm := codes.contains 0xFC, immf := codes.contains 0xFC, scl := codes.contains 0xFD }

/-- What a vector arithmetic word of classes 2 to 8 needs (R84 to R88): destination and sources with their widths, `XRND`, an immediate field
with its `XIMM`, feature bits, variable latency; `seed`: the word rounds, so that the seed register of `XRND` is read. -/
def vecNeed (s : State) (d dw : Nat) (srcs : List (Nat × Nat)) (rnd : Bool) (field : Bool) (immHint : Bool)
    (feats : List Nat) (varlat : Bool) (seed : Bool := rnd) : Need :=
  let hs := operandHints (if field then [] else srcs.map fun p => p.1)
  { feats := feats
    varlat := varlat
    hints := { hs with rnd := rnd, imm := hs.imm || immHint, scl := (srcs.map fun p => p.1).contains 0xFD }
    operandBad := !(dstOk s dw d && srcs.all fun p => srcOk s field p.2 p.1)
    regs := codeRegs s dw d ++ (srcs.flatMap fun p => codeRegs s p.2 p.1) ++ (if seed then seedRegs s else []) }

/-- A fixed-latency, result-writing vector word. -/
def vecFixed (n : Need) (d dw : Nat) (f : State → Nat → List Word) (s : State) : State :=
  word n (fun s => finish (writeResult d dw (f s) s)) s

/-- A variable-latency vector word whose destination is `d`. -/
def vecVar (n : Need) (d dw : Nat) (f : State → Nat → List Word) (s : State) : State :=
  word n (fun s => finish (launchOp (codeRegs s dw d) (resultWrites d (f s) (lanes (active s))) [] s)) s

/-- A class 2 to 6 word of 32-bit operands: `f` of the destination's old value, A and B in a lane. -/
def vec3 (rnd : Bool) (d a b : BitVec 8) (f : State → Nat → Word → Word → Word → Word) (s : State) (seed : Bool := rnd) : State :=
  vecFixed (vecNeed s d.toNat 1 [(a.toNat, 1), (b.toNat, 1)] rnd false false [] false seed) d.toNat 1
    (fun s l => [f s l (srcWord s d.toNat 0 l) (src s a l) (src s b l)]) s

/-- A class 7 word of 32-bit operands. -/
def vec2 (rnd : Bool) (d a : BitVec 8) (f : State → Nat → Word → Word) (s : State) : State :=
  vecFixed (vecNeed s d.toNat 1 [(a.toNat, 1)] rnd false false [] false) d.toNat 1
    (fun s l => [f s l (src s a l)]) s

/-- A class 8 word with its immediate (R111). -/
def vecImm (immHint : Bool) (d a : BitVec 8) (f : State → Word → Word) (s : State) : State :=
  vecFixed (vecNeed s d.toNat 1 [(a.toNat, 1)] false true immHint [] false) d.toNat 1
    (fun s l => [f s (src s a l)]) s

end Sys2Proof.Machine
end

