-- ==== Sys2Proof/Machine/Flags.lean ====
section
/-!
DEFINITION. Conditions and the mask bits they set (R271, R276, R280): the flag computations of the compare words, and the
completion flags as a header waits for them (R40 to R42).
-/

namespace Sys2Proof.Machine

/-- The FP32 conditions of `FSET` by OP 0 to 7 (R271). -/
def fcond (op : Nat) (a b : Word) : Bool :=
  match op with
  | 0 => eq32 a b
  | 1 => !eq32 a b
  | 2 => lt32 a b
  | 3 => le32 a b
  | 4 => lt32 b a
  | 5 => le32 b a
  | 6 => isNan32 a || isNan32 b
  | _ => !(isNan32 a || isNan32 b)

/-- The signed conditions of `ISET` by OP 8 to 13 (R271). -/
def icond (op : Nat) (a b : Word) : Bool :=
  match op with
  | 8 => decide (a = b)
  | 9 => decide (a ≠ b)
  | 10 => decide (a.toInt < b.toInt)
  | 11 => decide (a.toInt ≤ b.toInt)
  | 12 => decide (a.toInt > b.toInt)
  | _ => decide (a.toInt ≥ b.toInt)

/-- The unsigned conditions of `USET` by OP 14 to 17 (R271). -/
def ucond (op : Nat) (a b : Word) : Bool :=
  match op with
  | 14 => decide (a.toNat < b.toNat)
  | 15 => decide (a.toNat ≤ b.toNat)
  | 16 => decide (a.toNat > b.toNat)
  | _ => decide (a.toNat ≥ b.toNat)

/-- The conditions of `SSET` (R280). -/
def scond (cc : Nat) (a b : Word) : Bool :=
  match cc with
  | 0 => decide (a = b)
  | 1 => decide (a ≠ b)
  | 2 => decide (a.toInt < b.toInt)
  | 3 => decide (a.toInt ≤ b.toInt)
  | 4 => decide (a.toInt > b.toInt)
  | 5 => decide (a.toInt ≥ b.toInt)
  | 6 => decide (a.toNat < b.toNat)
  | 7 => decide (a.toNat ≤ b.toNat)
  | 8 => decide (a.toNat > b.toNat)
  | _ => decide (a.toNat ≥ b.toNat)

/-- How a compare merges its condition with the bit of `Md` (R270, R271). -/
def combine (cmb : Nat) (old c : Bool) : Bool :=
  match cmb with
  | 0 => c
  | 1 => old && c
  | 2 => old || c
  | _ => old && !c

/-- The mask with the bits of the listed lanes replaced. -/
def putBits (f : Nat → Bool) : List Nat → DWord → DWord
  | [], m => m
  | l :: ls, m => putBits f ls (setBit m l (f l))

/-- Every flag of a WAIT mask reads clear (R40, R41). -/
def waitClear (g : Group) (w : BitVec 12) : Bool :=
  (List.range 12).all fun i => !w.getLsbD i || decide (getF g i = 0)

/-- A header that waits on a flag clears the marks that carry it (R42). -/
def clearMarks (w : BitVec 12) (g : Group) : Group :=
  { g with marks := g.marks.filter fun m => !w.getLsbD m.2 }

end Sys2Proof.Machine
end

