-- ==== Sys2Proof/Machine/Code.lean ====
section
/-!
DEFINITION. The code that an issuer runs: reading a code word (R40, R50), the targets of transfers (R40, R47, R49, R287, R366),
and the choice of the frontier entry that issues (R267, R297).
-/

namespace Sys2Proof.Machine

/-- What reading a code word gives. -/
inductive CodeRead where
  | word (w : Word)
  /-- At or beyond the end of the code (R40). -/
  | beyond
  /-- The translation of the word's address does not succeed. -/
  | trans (va : Nat) (t : Trans)
  deriving DecidableEq, Repr

/-- The virtual address of a code offset (R50). -/
def codeVa (c : Code) (pc : Nat) : Nat := c.va + 0x100 + pc

/-- Since when a grid of the issuer's code object has run (R51); a routine's code is no grid's. -/
def codeSince (s : State) (g : Group) : Option Nat :=
  if g.kind = .vector ∨ g.kind = .bobbin then
    ((s.grids.filter fun r => decide (r.ctx = g.ctx) && decide (r.code.va = g.code.va)).map fun r => r.admitted).min?
  else none

/-- A byte of memory before the last store since a time that changed it. -/
def oldByte (s : State) (since a : Nat) : Byte := match sfind a s.old with
  | some (b, t) => if since ≤ t then b else homeByte s a
  | none => homeByte s a

/-- A code word as a fetch finds it: one that a store has changed while a grid of the object runs is its old or its new value, each fetch by
itself (R51). -/
def fetchedWord (s : State) (g : Group) (a : Nat) : Word :=
  let new := wordOf (homeBytes s a 4)
  if s.old.isEmpty then new
  else match codeSince s g with
    | some since => if Config.fetchOld (s.free * 2 ^ 128 + a) then wordOf ((List.range 4).map fun i => oldByte s since (a + i)) else new
    | none => new

/-- A word of the original code of an issuer, with the walker outcomes already known. -/
def readOriginal (s : State) (g : Group) (pc : Nat) : CodeRead :=
  if pc / 4 ≥ g.code.size then .beyond
  else match xlate s g (codeVa g.code pc) 2 with
    | .ok a => .word (fetchedWord s g a)
    | t => .trans (codeVa g.code pc) t

/-- A word of the code the issuer runs: residual code in a specialised launch (R183, R287). A residual word that stands for
an offset beyond the original code is none, and one that the Tailor could not read is fetched from the original (R179). -/
def readCode (s : State) (g : Group) (pc : Nat) : CodeRead :=
  match g.code.residual with
  | some r => match r.words[pc / 4]? with
    | some w =>
      if topcOf g pc ≥ 4 * g.code.size then .beyond
      else if r.unread.contains (pc / 4) then readOriginal s g (topcOf g pc) else .word w
    | none => .beyond
  | none => readOriginal s g pc

/-- The flit that the fetch of a code word from a peer's window brings (R316). -/
def originalFlit (g : Group) (pc : Nat) (s : State) : State :=
  if pc / 4 ≥ g.code.size then s
  else match xlate s g (codeVa g.code pc) 2 with
    | .ok a => flitFrom a s
    | _ => s

def codeFlit (g : Group) (pc : Nat) (s : State) : State :=
  match g.code.residual with
  | some r => if r.unread.contains (pc / 4) then originalFlit g (topcOf g pc) s else s
  | none => originalFlit g pc s

def classOf (w : Word) : Nat := bitsOf w 31 28

/-- A transfer's target (R40, R287). -/
inductive Target where
  | header
  | bad
  /-- A code word that the check reads cannot be read: its address, and what its translation gives. -/
  | unread (va : Nat) (t : Trans)
  deriving DecidableEq, Repr

/-- A linear walk over headers and pools from the start of the code to a class 0 word: a word inside a pool is no target (R47). A page of
the code that is not translated yet, or not present, is waited for; behind one that refuses fetches the walk finds no pool. A class 0
word that lies inside the body of another clause counts as a header: the spec does not say that it is none (log entry 13). A class 14 word counts as a pool also where it would trap itself
(log entry 99). -/
def inPool (rd : Nat → CodeRead) (t : Nat) : Nat → Nat → Target
  | 0, _ => .header
  | fuel + 1, p =>
    if p ≥ t then .header
    else match rd p with
      | .word w =>
        if classOf w = 0 then inPool rd t fuel (p + 4 + 4 * bitsOf w 6 3)
        else if classOf w = 14 then
          if t < p + 4 + 4 * bitsOf w 11 0 then .bad else inPool rd t fuel (p + 4 + 4 * bitsOf w 11 0)
        else inPool rd t fuel (p + 4)
      | .trans va .miss => .unread va .miss
      | .trans va .absent => .unread va .absent
      | _ => .header

/-- What the word at a target makes of a transfer to it: a class 0 word outside every pool is a header. One with `BT` set is none, since
no header has that bit (R40, R52; log entry 13). -/
def targetOf (rd : Nat → CodeRead) (t : Nat) : Target :=
  if t % 4 ≠ 0 then .bad
  else match rd t with
    | .beyond => .bad
    | .trans va tr => .unread va tr
    | .word w => if classOf w = 0 ∧ w.getLsbD 27 = false then inPool rd t (t / 4 + 1) 0 else .bad

/-- The offset of a direct target (R287): relative to the word after the transfer, modulo 2^64 when it lies below the code. -/
def directTarget (s : State) (off : Int) : Option Nat :=
  let t : Int := (curPc s : Int) + 4 + 4 * off
  if t < 0 then none else some t.toNat

/-- The `TADDR` of a failing direct target. -/
def directAddr (s : State) (off : Int) : Nat := ((curPc s : Int) + 4 + 4 * off).toNat

/-- The offset field with its `XIMM` (R46, R287). -/
def offsetOf (s : State) (k : Nat) (o : BitVec k) : Int := (effImm (curHints s) k true o).toInt

/-- The original target of a direct transfer that residual code checks there: one that the layout could not relocate (R186), and every one
of the appended original code (R185). -/
def originalTarget (s : State) (off : Int) : Option Int :=
  s.grp.code.residual.bind fun r => match r.checks.find? fun b => b.1 = curPc s with
    | some b => some b.2
    | none => r.copy.bind fun b => if b ≤ curPc s then some ((topcOf s.grp (curPc s) : Int) + 4 + 4 * off) else none

/-- The direct target that the first check of R52 looks at, and what it makes of the transfer. -/
def directCheck (s : State) (off : Int) : Int × Target :=
  let at_ := fun (rd : Nat → CodeRead) (t : Int) => (t, if t < 0 then Target.bad else targetOf rd t.toNat)
  match originalTarget s off with
  | some t => at_ (readOriginal s s.grp) t
  | none => at_ (readCode s s.grp) ((curPc s : Int) + 4 + 4 * off)

/-- A direct target that traps, for the first check of R52. -/
def badDirect (s : State) (off : Int) : Option TrapReq :=
  let c := directCheck s off
  match c.2 with
  | .bad => some { cause := cIllegalTarget, mask := active s, addr := (BitVec.ofInt 64 c.1).toNat }
  | _ => none

/-- The code word that a direct target's check cannot read: its address, and what its translation gives. -/
def waitDirect (s : State) (off : Int) : Option (Nat × Trans) :=
  match (directCheck s off).2 with
  | .unread va t => some (va, t)
  | _ => none

/-- The issuer waits for the walker (R305); a walker has none to wait for, and waits for the host's IDE streams (R313). -/
def walkStall (va kind : Nat) (s : State) : State :=
  stallOn .walk (if s.grp.kind = .walker then s else askWalk s.grp.core s.grp.ctx s.grp.uid va kind s)

/-- The code word that the check of the first such lane's target cannot read. -/
def waitTargets (s : State) (val : Nat → Nat) : List Nat → Option (Nat × Trans)
  | [] => none
  | l :: ls => match targetOf (readOriginal s s.grp) (val l) with
    | .unread va t => some (va, t)
    | _ => waitTargets s val ls

/-- The residual offset of an original clause header (R366). -/
def mapTarget (g : Group) (t : Nat) : Option Nat :=
  match g.code.residual with
  | none => some t
  | some r => (r.entries.find? fun e => e.1 = t).map fun e => e.2

/-- Where `JMPI` and `CALLI` go for a legal original target (R366): a clause that the Tailor could not read stands in the appended code. -/
def mapIndirect (g : Group) (t : Nat) : Nat :=
  match mapTarget g t with
  | some p => p
  | none => ((g.code.residual.bind fun r => r.copy).getD 0) + t

/-- The original offset of the word after the issuing word, for a link (R290, R366). -/
def linkOf (s : State) : Nat := topcOf s.grp (curPc s) + 4

/-- The `XIMM` in the hint run before a word (R46). -/
def ximmBefore (rd : Nat → CodeRead) : Nat → Nat → Option (BitVec 22)
  | 0, _ => none
  | fuel + 1, p =>
    if p < 4 then none
    else match rd (p - 4) with
      | .word w => match decodeWord w with
        | .ok (.ximm i) => some i
        | .ok _ => if classOf w = 1 then ximmBefore rd fuel (p - 4) else none
        | .error _ => none
      | _ => none

/-- The word at an offset is a `CALL` of a target (R290). -/
def callsTo (rd : Nat → CodeRead) (o t : Nat) : Bool := match rd o with
  | .word w => match decodeWord w with
    | .ok (.call _ d) => decide ((o : Int) + 4 + 4 * (effImm { imm := ximmBefore rd 16 o } 18 true d).toInt = t)
    | _ => false
  | _ => false

/-- The word at an offset is a `CALL` or `CALLI`. -/
def isCallAt (rd : Nat → CodeRead) (o : Nat) : Bool := match rd o with
  | .word w => decide (classOf w = 13) && (match decodeWord w with
    | .ok (.call _ _) => true
    | .ok (.calli _ _ _) => true
    | _ => false)
  | _ => false

/-- A clause of the entry table that only words make one which the Tailor could not read (R179, R366): it follows a `CALL` or `CALLI`, begins
with `LPAD`, or is the target of a `CALL`. It stands in the appended original code. -/
def lateEntry (s : State) (t : Nat) : Bool :=
  match s.grp.code.residual with
  | none => false
  | some r => match r.copy with
    | none => false
    | some b =>
      let unread := fun (o : Nat) => r.unread.contains ((b + o) / 4)
      let rd := readOriginal s s.grp
      (decide (4 ≤ t) && unread (t - 4) && isCallAt rd (t - 4))
        || (unread (t + 4) && (match rd (t + 4) with
          | .word w => decide (classOf w = 13) && decide (bitsOf w 26 22 = 9)
          | _ => false))
        || r.unread.any fun i => callsTo rd (4 * i - b) t

/-- Lanes whose value is a given number. -/
def lanesWith (val : Nat → Nat) (t : Nat) : List Nat → DWord
  | [] => 0
  | l :: ls => (if val l = t then laneBit l else 0) ||| lanesWith val t ls

/-- The lowest lane whose target is no legal one (R287): the trap with every lane that names the same target. -/
def badLaneTarget (s : State) (val : Nat → Nat) (mapped : Bool) (ls : List Nat) : Option TrapReq :=
  (ls.find? fun l =>
    targetOf (readOriginal s s.grp) (val l) == .bad || (mapped && (mapTarget s.grp (val l)).isNone && !lateEntry s (val l))).map fun l =>
    { cause := cIllegalTarget, mask := lanesWith val (val l) ls, addr := val l }

/-- The landing pad found at a clause (R49): its tag, or none. -/
def padTag (s : State) (t : Nat) : Option Nat :=
  match readOriginal s s.grp (t + 4) with
  | .word w => if classOf w = 13 ∧ bitsOf w 26 22 = 9 ∧ bitsOf w 21 8 = 0 then some (bitsOf w 7 0) else none
  | _ => none

/-- The first lane's landing-pad word that cannot be read: the check waits for it (R49, R304). -/
def waitPads (s : State) (val : Nat → Nat) : List Nat → Option (Nat × Trans)
  | [] => none
  | l :: ls => match readOriginal s s.grp (val l + 4) with
    | .trans va t => some (va, t)
    | _ => waitPads s val ls

/-- The lowest lane whose landing pad fails its tag (R49), with `TINFO` as R322 gives. -/
def badPad (s : State) (tag : Nat) (val : Nat → Nat) (ls : List Nat) : Option TrapReq :=
  (ls.find? fun l => padTag s (val l) != some tag).map fun l =>
    { cause := cCfiTag, mask := lanesWith val (val l) ls, addr := val l
      info := match padTag s (val l) with
        | some f => f
        | none => 256 }

/-! ### Selection -/

/-- The `PRI` of the header that an entry stands at, pools skipped (R40, R47); 0 where no header can be read. -/
def headerPri (s : State) (g : Group) : Nat → Nat → Nat
  | 0, _ => 0
  | fuel + 1, pc =>
    match readCode s g pc with
    | .word w =>
      if classOf w = 0 then bitsOf w 2 0
      else if classOf w = 14 then headerPri s g fuel (pc + 4 + 4 * bitsOf w 11 0) else 0
    | _ => 0

def entryPri (s : State) (g : Group) (e : FEntry) : Nat :=
  match e.pos with
  | some p => p.pri
  | none => headerPri s g (g.code.size + 1) e.pc

/-- The entry that goes first of two (R267): age from 4,032 on, then `PRI`, then the lower address. -/
def firstOf (s : State) (g : Group) (a b : FEntry) : FEntry :=
  if a.age ≥ 4032 ∨ b.age ≥ 4032 then
    if a.age > b.age then a else if b.age > a.age then b else if b.pc < a.pc then b else a
  else if entryPri s g a > entryPri s g b then a
  else if entryPri s g b > entryPri s g a then b
  else if b.pc < a.pc then b else a

def bestEntry (s : State) (g : Group) : List FEntry → Option FEntry
  | [] => none
  | e :: es => match bestEntry s g es with
    | none => some e
    | some f => some (firstOf s g e f)

/-- The entry that the frontier selects: entries that do not wait, those that a `YIELD` holds back only when no other is
free, unless their age has reached 4,032 (R267, R297). -/
def selectEntry (s : State) (g : Group) : Option FEntry :=
  let free := g.frontier.filter fun e => !waits g e
  let pref := free.filter fun e => !e.yielded || decide (e.age ≥ 4032)
  bestEntry s g (if pref.isEmpty then free else pref)

end Sys2Proof.Machine
end

