-- ==== Sys2Proof/Machine/Hints.lean ====
section
/-!
DEFINITION. Clause headers (R40), hints (R45, R46) and literal pools (R47).
-/

namespace Sys2Proof.Machine

/-- A reserved flag number of SETA or SETB (R40). -/
def reservedFlag (n : BitVec 4) : Bool := decide (12 ≤ n.toNat) && decide (n.toNat ≤ 14)

/-- The other entries age by one clause issue, and a `YIELD` has held its entry back once (R267, R297). -/
def ageOthers (g : Group) : Group :=
  { g with frontier := g.frontier.map fun e =>
      if waits g e = false then { e with age := e.age + 1, yielded := false } else e }

/-- The clause position that a header opens. -/
def openClause (hdr : Nat) (a b l : BitVec 4) (p : BitVec 3) : Pos :=
  { hdr := hdr, len := l.toNat, issued := 0, seta := a.toNat, setb := b.toNat, pri := p.toNat }

/-- A clause header (R40): inside a body, or with a reserved flag or LEN 0, it traps; it waits for its flags; then it clears
the marks of the flags it waited on (R42) and opens its clause with an empty last-result file (R39). -/
def execClauseHeader (w : BitVec 12) (a b l : BitVec 4) (p : BitVec 3) (s : State) : Host.Outcome State Fault Refusal :=
  .next (
    if (curPos s).isSome || reservedFlag a || reservedFlag b || decide (l = 0) then trapOwn cIllegalEncoding s
    else if !waitClear s.grp w then stallOn .flag s
    else
      let pc := curPc s
      let s' := (settle s).setG fun g => clearMarks w (ageOthers g)
      stepCheck pc (active s) (s'.setAct fun e =>
        { e with pc := pc + 4, age := 0, yielded := false, pos := some (openClause pc a b l p) }))

/-- The hints wait for the next word of their run. -/
def keepHints (p : Pos) (h : Hints) (s : State) : State :=
  let s := s.setG fun g => { g with stall := .none, walks := [] }
  s.setAct fun e => { e with pc := e.pc + 4, pos := some { p with issued := p.issued + 1, hints := { h with run := p.hints.run + 1 } } }

/-- A hint word but `NOP` (R45): outside a clause it traps as any other word would (R40), and in the last position of its clause it
traps. Its payload waits for the target. -/
def hintWord (again : Hints → Bool) (upd : Hints → Hints) (s : State) : State :=
  match curPos s with
  | none => trapOwn cIllegalEncoding s
  | some p =>
    if p.issued + 1 ≥ p.len then trapOwn cHintPlacement s
    else keepHints p { upd p.hints with twice := p.hints.twice || again p.hints } s

/-- `NOP` (R46): it has no target. Among the hints of a run it takes its issue slot and the run goes on; elsewhere, and in the last position
of its clause, it is a step by itself (R328). -/
def execNop (s : State) : Host.Outcome State Fault Refusal :=
  .next (match curPos s with
    | none => trapOwn cIllegalEncoding s
    | some p => if p.hints.run = 0 ∨ p.issued + 1 ≥ p.len then finish s else keepHints p p.hints s)

/-- `XIMM` (R46). -/
def execXimm (i : BitVec 22) (s : State) : Host.Outcome State Fault Refusal :=
  .next (hintWord (fun h => h.imm.isSome) (fun h => { h with imm := some i }) s)
/-- `XIMMF` (R46). -/
def execXimmf (i : BitVec 22) (s : State) : Host.Outcome State Fault Refusal :=
  .next (hintWord (fun h => h.immf.isSome) (fun h => { h with immf := some i }) s)
/-- `XSCL` (R46). -/
def execXscl (r : BitVec 6) (s : State) : Host.Outcome State Fault Refusal :=
  .next (hintWord (fun h => h.scl.isSome) (fun h => { h with scl := some r }) s)
/-- `XRND` (R46); its mode is 0 to 5. -/
def execXrnd (f sat : BitVec 1) (e : BitVec 6) (m : BitVec 3) (s : State) : Host.Outcome State Fault Refusal :=
  .next (hintWord (fun h => h.rnd.isSome)
    (fun h => { h with rnd := some { mode := m, seed := e, sat := decide (sat = 1), ftz := decide (f = 1) } }) s)
/-- `XEVC` (R46, R211). -/
def execXevc (p : BitVec 2) (s : State) : Host.Outcome State Fault Refusal :=
  .next (hintWord (fun h => h.evc.isSome) (fun h => { h with evc := some p }) s)
/-- `XSCP` (R46). -/
def execXscp (p : BitVec 2) (s : State) : Host.Outcome State Fault Refusal :=
  .next (hintWord (fun h => h.scp.isSome) (fun h => { h with scp := some p }) s)
/-- `XPART` (R46). -/
def execXpart (s : State) : Host.Outcome State Fault Refusal :=
  .next (hintWord (fun h => h.part) (fun h => { h with part := true }) s)

/-- `POOL` (R47): inside a body it traps (R40); where a header is expected, fetch skips its words. -/
def execPool (c : BitVec 12) (s : State) : Host.Outcome State Fault Refusal :=
  .next (
    if (curPos s).isSome then trapOwn cIllegalEncoding s
    else
      match s.grp.act with
      | none => s
      | some e =>
        let s := settle s
        { s with grp := joinCheck (addEntry { e with pc := e.pc + 4 + 4 * c.toNat } { s.grp with act := none }) })

end Sys2Proof.Machine
end

