-- ==== Sys2Proof/Machine/Lanes.lean ====
section
/-!
DEFINITION. Class 9: compares, masks and lane words (R270 to R277).
-/

namespace Sys2Proof.Machine

/-- What a class 9 word needs (R270): sources, a 32-bit destination or none, S registers it writes or reads, `XPART`; `field`: the
word has an immediate field, so that no source is `IMM` (R38) and neither `XIMM` nor `XIMMF` is accepted (R46). -/
def laneNeed (s : State) (d : Option Nat) (srcs : List Nat) (sregs : List Nat) (part bad : Bool) (field : Bool := false) : Need :=
  let hs := operandHints srcs
  { hints := { hs with imm := hs.imm && !field, immf := hs.immf && !field, part := part }
    operandBad := bad || !((match d with
      | some c => dstOk s 1 c
      | none => true) && srcs.all fun c => srcOk s field 1 c)
    regs := (match d with
      | some c => codeRegs s 1 c
      | none => []) ++ (srcs.flatMap fun c => codeRegs s 1 c) ++ sregs.map Reg.s }

/-- A change of a mask register in the active lanes. -/
def putMask (m : Nat) (f : Nat → Bool) (s : State) : State :=
  s.setG (setM m (putBits f (lanes (active s)) (getM s.grp m)))

/-- A compare (R271): `c` is `CMB`, `m` the destination mask. -/
def compareWord (cond : Word → Word → Bool) (c : BitVec 2) (m : BitVec 4) (a b : BitVec 8) (s : State) : State :=
  word (laneNeed s none [a.toNat, b.toNat] [] false false)
    (fun s => finish (putMask m.toNat
      (fun l => combine c.toNat (bit (getM s.grp m.toNat) l) (cond (src s a l) (src s b l))) s)) s

/-- `FSET.EQ` (R271). -/
def execFsetEq (c : BitVec 2) (m : BitVec 4) (a b : BitVec 8) (s : State) : Host.Outcome State Fault Refusal := .next (compareWord (fcond 0) c m a b s)
/-- `FSET.NE` (R271). -/
def execFsetNe (c : BitVec 2) (m : BitVec 4) (a b : BitVec 8) (s : State) : Host.Outcome State Fault Refusal := .next (compareWord (fcond 1) c m a b s)
/-- `FSET.LT` (R271). -/
def execFsetLt (c : BitVec 2) (m : BitVec 4) (a b : BitVec 8) (s : State) : Host.Outcome State Fault Refusal := .next (compareWord (fcond 2) c m a b s)
/-- `FSET.LE` (R271). -/
def execFsetLe (c : BitVec 2) (m : BitVec 4) (a b : BitVec 8) (s : State) : Host.Outcome State Fault Refusal := .next (compareWord (fcond 3) c m a b s)
/-- `FSET.GT` (R271). -/
def execFsetGt (c : BitVec 2) (m : BitVec 4) (a b : BitVec 8) (s : State) : Host.Outcome State Fault Refusal := .next (compareWord (fcond 4) c m a b s)
/-- `FSET.GE` (R271). -/
def execFsetGe (c : BitVec 2) (m : BitVec 4) (a b : BitVec 8) (s : State) : Host.Outcome State Fault Refusal := .next (compareWord (fcond 5) c m a b s)
/-- `FSET.UN` (R271). -/
def execFsetUn (c : BitVec 2) (m : BitVec 4) (a b : BitVec 8) (s : State) : Host.Outcome State Fault Refusal := .next (compareWord (fcond 6) c m a b s)
/-- `FSET.OR` (R271). -/
def execFsetOr (c : BitVec 2) (m : BitVec 4) (a b : BitVec 8) (s : State) : Host.Outcome State Fault Refusal := .next (compareWord (fcond 7) c m a b s)
/-- `ISET.EQ` (R271). -/
def execIsetEq (c : BitVec 2) (m : BitVec 4) (a b : BitVec 8) (s : State) : Host.Outcome State Fault Refusal := .next (compareWord (icond 8) c m a b s)
/-- `ISET.NE` (R271). -/
def execIsetNe (c : BitVec 2) (m : BitVec 4) (a b : BitVec 8) (s : State) : Host.Outcome State Fault Refusal := .next (compareWord (icond 9) c m a b s)
/-- `ISET.LT` (R271). -/
def execIsetLt (c : BitVec 2) (m : BitVec 4) (a b : BitVec 8) (s : State) : Host.Outcome State Fault Refusal := .next (compareWord (icond 10) c m a b s)
/-- `ISET.LE` (R271). -/
def execIsetLe (c : BitVec 2) (m : BitVec 4) (a b : BitVec 8) (s : State) : Host.Outcome State Fault Refusal := .next (compareWord (icond 11) c m a b s)
/-- `ISET.GT` (R271). -/
def execIsetGt (c : BitVec 2) (m : BitVec 4) (a b : BitVec 8) (s : State) : Host.Outcome State Fault Refusal := .next (compareWord (icond 12) c m a b s)
/-- `ISET.GE` (R271). -/
def execIsetGe (c : BitVec 2) (m : BitVec 4) (a b : BitVec 8) (s : State) : Host.Outcome State Fault Refusal := .next (compareWord (icond 13) c m a b s)
/-- `USET.LT` (R271). -/
def execUsetLt (c : BitVec 2) (m : BitVec 4) (a b : BitVec 8) (s : State) : Host.Outcome State Fault Refusal := .next (compareWord (ucond 14) c m a b s)
/-- `USET.LE` (R271). -/
def execUsetLe (c : BitVec 2) (m : BitVec 4) (a b : BitVec 8) (s : State) : Host.Outcome State Fault Refusal := .next (compareWord (ucond 15) c m a b s)
/-- `USET.GT` (R271). -/
def execUsetGt (c : BitVec 2) (m : BitVec 4) (a b : BitVec 8) (s : State) : Host.Outcome State Fault Refusal := .next (compareWord (ucond 16) c m a b s)
/-- `USET.GE` (R271). -/
def execUsetGe (c : BitVec 2) (m : BitVec 4) (a b : BitVec 8) (s : State) : Host.Outcome State Fault Refusal := .next (compareWord (ucond 17) c m a b s)

/-- The function of `MLOG` by `FN` (R270, R272). -/
def mlogBit (f : Nat) (x y : Bool) : Bool :=
  match f with
  | 0 => x && y
  | 1 => x || y
  | 2 => x != y
  | 3 => x && !y
  | 4 => !x
  | _ => x

/-- `MLOG` (R272). -/
def execMlog (d a b : BitVec 4) (f : BitVec 3) (s : State) : Host.Outcome State Fault Refusal :=
  .next (word (laneNeed s none [] [] false false)
    (fun s => finish (putMask d.toNat
      (fun l => mlogBit f.toNat (bit (getM s.grp a.toNat) l) (bit (getM s.grp b.toNat) l)) s)) s)

/-- `CMOV` (R272). -/
def execCmov (c : BitVec 4) (d a : BitVec 8) (s : State) : Host.Outcome State Fault Refusal :=
  .next (word (laneNeed s (some d.toNat) [a.toNat] [] false false)
    (fun s => finish (writeResult d.toNat 1
      (fun l => [if bit (getM s.grp c.toNat) l then src s a l else srcWord s d.toNat 0 l]) s)) s)

/-- The full mask is required unless `XPART` stands before the word (R274). -/
def collective (body : State → State) (s : State) : State :=
  if active s ≠ fullMask s.grp ∧ (curHints s).part = false then trapOwn cConverge s else body s

/-- The source lane that a shuffle reads in a lane, when it exists and is active (R275). -/
def shuffleLane (s : State) (from_ : Nat → Int) (l : Nat) : Option Nat :=
  let x := from_ l
  if 0 ≤ x ∧ x < (s.grp.width : Int) ∧ bit (active s) x.toNat then some x.toNat else none

/-- A shuffle's effect (R275): the destination and `M14`. -/
def shuffleEffect (from_ : Nat → Int) (d a : BitVec 8) (s : State) : State :=
  let s' := writeResult d.toNat 1 (fun l => [match shuffleLane s from_ l with
    | some x => src s a x
    | none => srcWord s d.toNat 0 l]) s
  finish (putMask 14 (fun l => (shuffleLane s from_ l).isNone) s')

/-- A shuffle (R274, R275). `kn`: the K register that holds the source lane, for `SHFL`; the others have the field `IMM6`. -/
def shuffleWord (kn : Option Nat) (from_ : State → Nat → Int) (d a : BitVec 8) (s : State) : State :=
  let n := laneNeed s (some d.toNat) [a.toNat] [] true (match kn with
    | some k => decide (k ≥ s.grp.code.kregs)
    | none => false) kn.isNone
  let n := { n with regs := n.regs ++ (match kn with
    | some k => [Reg.k k]
    | none => []) }
  word n (collective fun s => shuffleEffect (from_ s) d a s) s

/-- `SHFL` (R275). -/
def execShfl (k : BitVec 3) (d a : BitVec 8) (s : State) : Host.Outcome State Fault Refusal :=
  .next (shuffleWord (some k.toNat) (fun s l => ((getK s.grp k.toNat l).toNat : Int)) d a s)
/-- `SHFL.XOR` (R275). -/
def execShflXor (i : BitVec 6) (d a : BitVec 8) (s : State) : Host.Outcome State Fault Refusal :=
  .next (shuffleWord none (fun _ l => ((l ^^^ i.toNat : Nat) : Int)) d a s)
/-- `SHFL.UP` (R275). -/
def execShflUp (i : BitVec 6) (d a : BitVec 8) (s : State) : Host.Outcome State Fault Refusal :=
  .next (shuffleWord none (fun _ l => (l : Int) - i.toNat) d a s)
/-- `SHFL.DN` (R275). -/
def execShflDn (i : BitVec 6) (d a : BitVec 8) (s : State) : Host.Outcome State Fault Refusal :=
  .next (shuffleWord none (fun _ l => (l : Int) + i.toNat) d a s)
/-- `SHFL.IDX` (R275). -/
def execShflIdx (i : BitVec 6) (d a : BitVec 8) (s : State) : Host.Outcome State Fault Refusal :=
  .next (shuffleWord none (fun _ _ => (i.toNat : Int)) d a s)

/-- `VOTE` (R276). -/
def execVote (k : BitVec 2) (d a : BitVec 4) (s : State) : Host.Outcome State Fault Refusal :=
  .next (word (laneNeed s none [] [] true false) (collective fun s =>
    let m := getM s.grp a.toNat &&& active s
    let r := if k = 0 then decide (m ≠ 0) else decide (m = active s)
    finish (putMask d.toNat (fun _ => r) s)) s)

/-- The lanes of `BALLOT` (R276). -/
def ballotMask (s : State) (a : BitVec 8) : DWord := maskOf ((lanes (active s)).filter fun l => decide (src s a l ≠ 0))

/-- An S pair takes a 64-bit value. -/
def setSPair (r : Nat) (m : DWord) (g : Group) : Group :=
  setS (r + 1) ((m >>> 32).setWidth 32) (setS r (m.setWidth 32) g)

/-- `BALLOT` (R276). -/
def execBallot (d : BitVec 6) (a : BitVec 8) (s : State) : Host.Outcome State Fault Refusal :=
  .next (word (laneNeed s none [a.toNat] [d.toNat, d.toNat + 1] true (decide (d.toNat % 2 = 1)))
    (collective fun s => finish (s.setG (setSPair d.toNat (ballotMask s a)))) s)

/-- A step of `GRED` by `RED` (R270, R277). -/
def gredStep (r : Nat) (x y : Word) : Word :=
  match r with
  | 0 => x + y
  | 1 => if x.toInt ≤ y.toInt then x else y
  | 2 => if x.toInt ≥ y.toInt then x else y
  | 3 => if x.toNat ≤ y.toNat then x else y
  | 4 => if x.toNat ≥ y.toNat then x else y
  | 5 => x &&& y
  | 6 => x ||| y
  | _ => fadd32 x y

/-- The reduction in ascending lane order (R79, R277). -/
def gredFold (r : Nat) : List Word → Option Word
  | [] => none
  | x :: xs => some (xs.foldl (gredStep r) x)

/-- `GRED` (R277). -/
def execGred (d : BitVec 6) (r : BitVec 3) (a : BitVec 8) (s : State) : Host.Outcome State Fault Refusal :=
  .next (word (laneNeed s none [a.toNat] [d.toNat] true false) (collective fun s =>
    match gredFold r.toNat ((lanes (active s)).map fun l => src s a l) with
    | none => finish s
    | some x => finish (s.setG (setS d.toNat x))) s)

/-- `MMOV` (R273); `r` is `DIR`. -/
def execMmov (r : BitVec 1) (m : BitVec 4) (a : BitVec 6) (s : State) : Host.Outcome State Fault Refusal :=
  .next (word (laneNeed s none [] [a.toNat, a.toNat + 1] false (decide (a.toNat % 2 = 1)))
    (fun s =>
      if r = 0 then finish (s.setG (setSPair a.toNat (getM s.grp m.toNat)))
      else finish (s.setG (setM m.toNat (getS s.grp (a.toNat + 1) ++ getS s.grp a.toNat)))) s)

/-- `MACT` (R273). -/
def execMact (d : BitVec 4) (s : State) : Host.Outcome State Fault Refusal :=
  .next (word (laneNeed s none [] [] false false) (fun s => finish (s.setG (setM d.toNat (active s)))) s)

end Sys2Proof.Machine
end

