-- ==== Sys2Proof/Machine/VecInt.lean ====
section
/-!
DEFINITION. Integer and bit vector words: classes 3 and 4 (R92, R93), `UMIN` and `UMAX` (R94), `DOT4`, `DOT8`, `PRMT`, `RND`
(R96, R98, R99), and the immediate forms of class 8 (R110, R111).
-/

namespace Sys2Proof.Machine

/-- `IADD` (R92). -/
def execIadd (d a b : BitVec 8) (s : State) : Host.Outcome State Fault Refusal := .next (vec3 false d a b (fun _ _ _ x y => x + y) s)
/-- `ISUB` (R92). -/
def execIsub (d a b : BitVec 8) (s : State) : Host.Outcome State Fault Refusal := .next (vec3 false d a b (fun _ _ _ x y => x - y) s)
/-- `IMUL` (R92). -/
def execImul (d a b : BitVec 8) (s : State) : Host.Outcome State Fault Refusal := .next (vec3 false d a b (fun _ _ _ x y => x * y) s)
/-- `IMULH` (R92): the high word of the signed product. -/
def execImulh (d a b : BitVec 8) (s : State) : Host.Outcome State Fault Refusal :=
  .next (vec3 false d a b (fun _ _ _ x y => BitVec.ofInt 32 (x.toInt * y.toInt / 2 ^ 32)) s)
/-- `UMULH` (R92): the high word of the unsigned product. -/
def execUmulh (d a b : BitVec 8) (s : State) : Host.Outcome State Fault Refusal :=
  .next (vec3 false d a b (fun _ _ _ x y => BitVec.ofNat 32 (x.toNat * y.toNat / 2 ^ 32)) s)
/-- `IMAC` (R92). -/
def execImac (d a b : BitVec 8) (s : State) : Host.Outcome State Fault Refusal := .next (vec3 false d a b (fun _ _ z x y => z + x * y) s)
/-- `IMIN` (R92). -/
def execImin (d a b : BitVec 8) (s : State) : Host.Outcome State Fault Refusal :=
  .next (vec3 false d a b (fun _ _ _ x y => if x.toInt ≤ y.toInt then x else y) s)
/-- `IMAX` (R92). -/
def execImax (d a b : BitVec 8) (s : State) : Host.Outcome State Fault Refusal :=
  .next (vec3 false d a b (fun _ _ _ x y => if x.toInt ≥ y.toInt then x else y) s)

/-- The shifts of R93, with the amount as an unsigned 32-bit value. -/
def shl32 (x : Word) (n : Nat) : Word := if n ≥ 32 then 0 else x <<< n
def shr32 (x : Word) (n : Nat) : Word := if n ≥ 32 then 0 else x >>> n
def sar32 (x : Word) (n : Nat) : Word := if n ≥ 32 then (if x.getLsbD 31 then 0xFFFFFFFF else 0) else x.sshiftRight n

/-- `AND` (R93). -/
def execAnd (d a b : BitVec 8) (s : State) : Host.Outcome State Fault Refusal := .next (vec3 false d a b (fun _ _ _ x y => x &&& y) s)
/-- `OR` (R93). -/
def execOr (d a b : BitVec 8) (s : State) : Host.Outcome State Fault Refusal := .next (vec3 false d a b (fun _ _ _ x y => x ||| y) s)
/-- `XOR` (R93). -/
def execXor (d a b : BitVec 8) (s : State) : Host.Outcome State Fault Refusal := .next (vec3 false d a b (fun _ _ _ x y => x ^^^ y) s)
/-- `ANDN` (R93). -/
def execAndn (d a b : BitVec 8) (s : State) : Host.Outcome State Fault Refusal := .next (vec3 false d a b (fun _ _ _ x y => x &&& ~~~y) s)
/-- `SHL` (R93). -/
def execShl (d a b : BitVec 8) (s : State) : Host.Outcome State Fault Refusal := .next (vec3 false d a b (fun _ _ _ x y => shl32 x y.toNat) s)
/-- `SHR` (R93). -/
def execShr (d a b : BitVec 8) (s : State) : Host.Outcome State Fault Refusal := .next (vec3 false d a b (fun _ _ _ x y => shr32 x y.toNat) s)
/-- `SAR` (R93). -/
def execSar (d a b : BitVec 8) (s : State) : Host.Outcome State Fault Refusal := .next (vec3 false d a b (fun _ _ _ x y => sar32 x y.toNat) s)
/-- `ROT` (R93): left, by the amount modulo 32. -/
def execRot (d a b : BitVec 8) (s : State) : Host.Outcome State Fault Refusal :=
  .next (vec3 false d a b (fun _ _ _ x y => x.rotateLeft (y.toNat % 32)) s)

/-- `UMIN` (R94). -/
def execUmin (d a b : BitVec 8) (s : State) : Host.Outcome State Fault Refusal :=
  .next (vec3 false d a b (fun _ _ _ x y => if x.toNat ≤ y.toNat then x else y) s)
/-- `UMAX` (R94). -/
def execUmax (d a b : BitVec 8) (s : State) : Host.Outcome State Fault Refusal :=
  .next (vec3 false d a b (fun _ _ _ x y => if x.toNat ≥ y.toNat then x else y) s)

/-- The exact sum of the products of the signed `k`-bit fields of two words, `n` of them (R96). -/
def dotSum (k : Nat) (x y : Word) : Nat → Int
  | 0 => 0
  | i + 1 => dotSum k x y i + signedOf k (x.toNat / 2 ^ (k * i)) * signedOf k (y.toNat / 2 ^ (k * i))

/-- `DOT4` (R96). -/
def execDot4 (d a b : BitVec 8) (s : State) : Host.Outcome State Fault Refusal :=
  .next (vec3 false d a b (fun _ _ z x y => z + BitVec.ofInt 32 (dotSum 8 x y 4)) s)
/-- `DOT8` (R96). -/
def execDot8 (d a b : BitVec 8) (s : State) : Host.Outcome State Fault Refusal :=
  .next (vec3 false d a b (fun _ _ z x y => z + BitVec.ofInt 32 (dotSum 4 x y 8)) s)

/-- Byte j of the result of `PRMT` (R98). -/
def prmtByte (sel : Word) (x y : Word) (j : Nat) : Nat :=
  let c := sel.toNat / 2 ^ (4 * j) % 16
  let b := (x.toNat + 2 ^ 32 * y.toNat) / 2 ^ (8 * (c % 8)) % 256
  if c < 8 then b else if b ≥ 128 then 255 else 0

/-- `PRMT` (R98). -/
def execPrmt (d a b : BitVec 8) (s : State) : Host.Outcome State Fault Refusal :=
  .next (vec3 false d a b (fun _ _ z x y => BitVec.ofNat 32
    (prmtByte z x y 0 + 2 ^ 8 * prmtByte z x y 1 + 2 ^ 16 * prmtByte z x y 2 + 2 ^ 24 * prmtByte z x y 3)) s)

/-- The mixing function of `RND` (R99). -/
def mix (x : Word) : Word :=
  let x := x ^^^ (x >>> 16)
  let x := x * 0x7FEB352D
  let x := x ^^^ (x >>> 15)
  let x := x * 0x846CA68B
  x ^^^ (x >>> 16)

/-- `RND` (R99). -/
def execRnd (d a b : BitVec 8) (s : State) : Host.Outcome State Fault Refusal :=
  .next (vec3 false d a b (fun _ _ _ x y => mix (x ^^^ mix (y ^^^ 0x5BD1E995))) s)

/-- The immediate of the arithmetic and logical forms of class 8 (R111). -/
def imm7 (s : State) (i : BitVec 7) : Word := effImm (curHints s) 7 true i

/-- `IADDI` (R111). -/
def execIaddi (d a : BitVec 8) (i : BitVec 7) (s : State) : Host.Outcome State Fault Refusal := .next (vecImm true d a (fun s x => x + imm7 s i) s)
/-- `IMULI` (R111). -/
def execImuli (d a : BitVec 8) (i : BitVec 7) (s : State) : Host.Outcome State Fault Refusal := .next (vecImm true d a (fun s x => x * imm7 s i) s)
/-- `SHLI` (R111). -/
def execShli (d a : BitVec 8) (n : BitVec 5) (s : State) : Host.Outcome State Fault Refusal := .next (vecImm false d a (fun _ x => shl32 x n.toNat) s)
/-- `SHRI` (R111). -/
def execShri (d a : BitVec 8) (n : BitVec 5) (s : State) : Host.Outcome State Fault Refusal := .next (vecImm false d a (fun _ x => shr32 x n.toNat) s)
/-- `SARI` (R111). -/
def execSari (d a : BitVec 8) (n : BitVec 5) (s : State) : Host.Outcome State Fault Refusal := .next (vecImm false d a (fun _ x => sar32 x n.toNat) s)
/-- `ANDI` (R111). -/
def execAndi (d a : BitVec 8) (i : BitVec 7) (s : State) : Host.Outcome State Fault Refusal := .next (vecImm true d a (fun s x => x &&& imm7 s i) s)
/-- `ORI` (R111). -/
def execOri (d a : BitVec 8) (i : BitVec 7) (s : State) : Host.Outcome State Fault Refusal := .next (vecImm true d a (fun s x => x ||| imm7 s i) s)
/-- `XORI` (R111). -/
def execXori (d a : BitVec 8) (i : BitVec 7) (s : State) : Host.Outcome State Fault Refusal := .next (vecImm true d a (fun s x => x ^^^ imm7 s i) s)
/-- `MOVI` (R111); its `A` is `ZERO`. -/
def execMovi (d : BitVec 8) (i : BitVec 7) (s : State) : Host.Outcome State Fault Refusal := .next (vecImm true d 0xF4 (fun s _ => imm7 s i) s)

end Sys2Proof.Machine
end

