-- ==== Sys2Proof/Machine/Scalars.lean ====
section
/-!
DEFINITION. Class 10 without its memory words: scalar arithmetic (R278 to R281) and the CSRs (R284 to R286, R325).
-/

namespace Sys2Proof.Machine

/-- What a class 10 word needs (R278): the S registers it reads or writes, and `XIMM` when it has an immediate. It runs on
every issuer. -/
def scalarNeed (sregs : List Nat) (imm : Bool) : Need :=
  { bob := true, hints := { imm := imm }, regs := sregs.map Reg.s }

/-- A scalar word of two sources (R279). -/
def scalar2 (f : Word → Word → Word) (d a b : BitVec 6) (s : State) : State :=
  word (scalarNeed [d.toNat, a.toNat, b.toNat] false)
    (fun s => finish (s.setG (setS d.toNat (f (getS s.grp a.toNat) (getS s.grp b.toNat))))) s

/-- `SADD` (R279). -/
def execSadd (d a b : BitVec 6) (s : State) : Host.Outcome State Fault Refusal := .next (scalar2 (fun x y => x + y) d a b s)
/-- `SSUB` (R279). -/
def execSsub (d a b : BitVec 6) (s : State) : Host.Outcome State Fault Refusal := .next (scalar2 (fun x y => x - y) d a b s)
/-- `SMUL` (R279). -/
def execSmul (d a b : BitVec 6) (s : State) : Host.Outcome State Fault Refusal := .next (scalar2 (fun x y => x * y) d a b s)
/-- `SAND` (R279). -/
def execSand (d a b : BitVec 6) (s : State) : Host.Outcome State Fault Refusal := .next (scalar2 (fun x y => x &&& y) d a b s)
/-- `SOR` (R279). -/
def execSor (d a b : BitVec 6) (s : State) : Host.Outcome State Fault Refusal := .next (scalar2 (fun x y => x ||| y) d a b s)
/-- `SXOR` (R279). -/
def execSxor (d a b : BitVec 6) (s : State) : Host.Outcome State Fault Refusal := .next (scalar2 (fun x y => x ^^^ y) d a b s)
/-- `SSHL` (R279). -/
def execSshl (d a b : BitVec 6) (s : State) : Host.Outcome State Fault Refusal := .next (scalar2 (fun x y => shl32 x y.toNat) d a b s)
/-- `SSHR` (R279). -/
def execSshr (d a b : BitVec 6) (s : State) : Host.Outcome State Fault Refusal := .next (scalar2 (fun x y => shr32 x y.toNat) d a b s)
/-- `SSAR` (R279). -/
def execSsar (d a b : BitVec 6) (s : State) : Host.Outcome State Fault Refusal := .next (scalar2 (fun x y => sar32 x y.toNat) d a b s)
/-- `SMIN` (R279). -/
def execSmin (d a b : BitVec 6) (s : State) : Host.Outcome State Fault Refusal :=
  .next (scalar2 (fun x y => if x.toInt ≤ y.toInt then x else y) d a b s)
/-- `SMAX` (R279). -/
def execSmax (d a b : BitVec 6) (s : State) : Host.Outcome State Fault Refusal :=
  .next (scalar2 (fun x y => if x.toInt ≥ y.toInt then x else y) d a b s)

/-- `SADDI` (R279). -/
def execSaddi (d a : BitVec 6) (i : BitVec 10) (s : State) : Host.Outcome State Fault Refusal :=
  .next (word (scalarNeed [d.toNat, a.toNat] true)
    (fun s => finish (s.setG (setS d.toNat (getS s.grp a.toNat + effImm (curHints s) 10 true i)))) s)

/-- `SMOVI` (R279). -/
def execSmovi (d : BitVec 6) (i : BitVec 16) (s : State) : Host.Outcome State Fault Refusal :=
  .next (word (scalarNeed [d.toNat] true)
    (fun s => finish (s.setG (setS d.toNat (effImm (curHints s) 16 true i)))) s)

/-- `SMOVHI` (R279): the low half is kept. The low 16 bits of the effective immediate are the field. -/
def execSmovhi (d : BitVec 6) (i : BitVec 16) (s : State) : Host.Outcome State Fault Refusal :=
  .next (word (scalarNeed [d.toNat] true)
    (fun s => finish (s.setG (setS d.toNat (i ++ (getS s.grp d.toNat).setWidth 16)))) s)

/-- `SSET` (R280). -/
def execSset (d a b : BitVec 6) (c : BitVec 4) (s : State) : Host.Outcome State Fault Refusal :=
  .next (scalar2 (fun x y => wordOfBool (scond c.toNat x y)) d a b s)

/-- `VREAD` (R281): not on the bobbin. -/
def execVread (d a : BitVec 6) (v : BitVec 8) (s : State) : Host.Outcome State Fault Refusal :=
  let l := (getS s.grp a.toNat).toNat
  .next (word
    { scalarNeed [d.toNat, a.toNat] false with
      bob := false
      operandBad := decide (v.toNat ≥ s.grp.code.vregs)
      early := [.s a.toNat]
      valueBad := decide (l ≥ s.grp.width) || !bit s.grp.exist l
      regs := [.s d.toNat, .s a.toNat, .v v.toNat] }
    (fun s => finish (s.setG (setS d.toNat (getV s.grp v.toNat (getS s.grp a.toNat).toNat)))) s)

/-! ### CSRs -/

/-- The grid of an issuer. -/
def gridOf (s : State) : Grid := (findGrid (wgOf s).grid s).getD {}

/-- `CAPS0` (R16). -/
def caps0 : Word := 0x00001FFF

/-- The logical core (R196). -/
def lcore (s : State) : Nat := if (ctxOf s).det && decide (s.grp.kind ≠ .handler) && decide (s.grp.kind ≠ .walker)
  then (wgOf s).gid % 256 else whoCore s.grp

/-- Entry `i` of the region stack from the top (R284, R334). -/
def regionAt (g : Group) (i : Nat) : Word := match g.regions[i]? with
  | some r => r.zeroExtend 32
  | none => 0xFFFFFFFF

/-- The issuer that a routine serves. -/
def served (s : State) : Group := (findGroup s.grp.serves s).getD {}

/-- The record of the trap being handled (R284). -/
def servedTrap (s : State) : Option TrapRec := if s.grp.kind = .handler then (served s).trap else none

/-- Word `i` of the trap CSRs (R284, R321). -/
def trapWord (r : TrapRec) (i : Nat) : Word :=
  match i with
  | 0 => BitVec.ofNat 32 (tcause r)
  | 1 => BitVec.ofNat 32 r.tpc
  | 2 => BitVec.ofNat 32 r.topc
  | 3 => BitVec.ofNat 32 r.titer
  | 4 => loWord r.addr
  | 5 => hiWord r.addr
  | 6 => r.mask.setWidth 32
  | 7 => (r.mask >>> 32).setWidth 32
  | _ => BitVec.ofNat 32 r.info

/-- The frontier or hem entry that holds a lane: PC and kept clause position. -/
def laneEntry (g : Group) (l : Nat) : Option (Nat × Option Pos) :=
  match g.act.filter fun e => bit e.mask l with
  | some e => some (e.pc, e.pos)
  | none => match g.frontier.find? fun e => bit e.mask l with
    | some e => some (e.pc, e.pos)
    | none => (g.hem.find? fun e => bit e.mask l).map fun e => (e.pc, e.pos)

/-- The PC of a lane as a handler sees it: with its own edits (R325). -/
def lanePc (g : Group) (l : Nat) : Option Nat :=
  match g.edits.find? fun e => e.1 = l with
  | some e => some e.2
  | none => (laneEntry g l).map fun e => e.1

/-- The lane that per-lane CSRs address: a bobbin thread stands as lane 0. -/
def hLane (g t : Group) : Nat := if t.kind = .bobbin then 0 else g.hlane

/-- The CSR numbers of R325. -/
def isHandlerCsr (n : Nat) : Bool := decide (0x100 ≤ n) && decide (n ≤ 0x1FF)

/-- A handler CSR that exists for the issuer served (R325). -/
def handlerCsrOk (t : Group) (n : Nat) : Bool :=
  let any := n == 0x102 || (decide (0x120 ≤ n) && decide (n ≤ 0x15F)) || n == 0x183
  if t.kind = .bobbin then any
  else any || n == 0x100 || n == 0x103 || n == 0x104 || n == 0x110 || n == 0x111
    || (decide (0x160 ≤ n) && decide (n ≤ 0x17F)) || n == 0x181 || n == 0x182
    || (decide (0x188 ≤ n) && decide (n ≤ 0x18C))

/-- A CSR number of the map of R284. -/
def baseCsrOk (n : Nat) : Bool :=
  decide (n ≤ 7) || (decide (0x10 ≤ n) && decide (n ≤ 0x13)) || (decide (0x20 ≤ n) && decide (n ≤ 0x28))
    || (decide (0x30 ≤ n) && decide (n ≤ 0x33)) || (decide (0x40 ≤ n) && decide (n ≤ 0x42)) || n == 0x50

/-- The register that `HVSEL` names is allocated (R325). -/
def hvselOk (t : Group) (v : Nat) : Bool := decide (v ≤ 0xE7) && regRangeOk t 1 v

/-- Values that a handler CSR refuses (R325). -/
def handlerValueBad (g t : Group) (n : Nat) (x : Word) : Bool :=
  match n with
  | 0x100 => decide (x.toNat ≥ t.width)
  | 0x110 => !hvselOk t x.toNat
  | 0x111 => !hvselOk t g.hvsel
  | 0x188 => decide (x.toNat > 31)
  | _ => false

/-- What a handler CSR reads (R325). `none`: the lane is not live and has no PC, a value the spec does not state. -/
def handlerRead (g t : Group) (n : Nat) : Option Word :=
  if n = 0x100 then some (BitVec.ofNat 32 g.hlane)
  else if n = 0x102 then (lanePc t (hLane g t)).map (BitVec.ofNat 32)
  else if n = 0x110 then some (BitVec.ofNat 32 g.hvsel)
  else if n = 0x111 then some (if g.hvsel ≤ 0xDF then getV t g.hvsel g.hlane else getK t (g.hvsel - 0xE0) g.hlane)
  else if 0x120 ≤ n ∧ n ≤ 0x15F then some (getS t (n - 0x120))
  else if 0x160 ≤ n ∧ n ≤ 0x17F then
    some ((getM t ((n - 0x160) / 2) >>> (32 * (n % 2))).setWidth 32)
  else if n = 0x181 then some (BitVec.ofNat 32 ((List.range 12).foldl (fun x i => if getF t i = 0 then x else x + 2 ^ i) 0))
  else if n = 0x182 then
    some (match (laneEntry t g.hlane).bind fun e => e.2 with
      | some p => BitVec.ofNat 32 (p.hdr / 4 * 2 ^ 16 + p.issued % 16 * 16 + p.vl % 16)
      | none => 0)
  else if n = 0x183 then some (wordOfBool t.hstep)
  else if n = 0x188 then some (BitVec.ofNat 32 g.hbsel)
  else if 0x189 ≤ n ∧ n ≤ 0x18C then some ((getB t g.hbsel >>> (32 * (n - 0x189))).setWidth 32)
  else some 0

/-- An edit of a lane's PC (R325); the last one before the resume counts. -/
def editPc (l pc : Nat) (t : Group) : Group :=
  if (laneEntry t l).isNone then t else { t with edits := t.edits.filter (fun e => decide (e.1 ≠ l)) ++ [(l, pc)] }

/-- Half of a mask register replaced. -/
def setHalf (m : DWord) (hi : Bool) (x : Word) : DWord :=
  if hi then x ++ m.setWidth 32 else (m >>> 32).setWidth 32 ++ x

/-- What writing a handler CSR does to the handler and to the issuer it serves (R325). Read-only registers keep their value. -/
def handlerWrite (n : Nat) (x : Word) (g t : Group) : Group × Group :=
  if n = 0x100 then ({ g with hlane := x.toNat }, t)
  else if n = 0x102 then (g, editPc (hLane g t) x.toNat t)
  else if n = 0x103 then (g, { t with hexit := t.hexit ||| (x.setWidth 64 &&& t.live) })
  else if n = 0x104 then (g, { t with hexit := t.hexit ||| ((x.setWidth 64 <<< 32) &&& t.live) })
  else if n = 0x110 then ({ g with hvsel := x.toNat }, t)
  else if n = 0x111 then
    (g, if g.hvsel ≤ 0xDF then setV g.hvsel g.hlane x t else setK (g.hvsel - 0xE0) g.hlane x t)
  else if 0x120 ≤ n ∧ n ≤ 0x15F then (g, setS (n - 0x120) x t)
  else if 0x160 ≤ n ∧ n ≤ 0x17F then
    (g, setM ((n - 0x160) / 2) (setHalf (getM t ((n - 0x160) / 2)) (decide (n % 2 = 1)) x) t)
  else if n = 0x183 then (g, { t with hstep := x.getLsbD 0 })
  else if n = 0x188 then ({ g with hbsel := x.toNat }, t)
  else (g, t)

/-- What a CSR of R284 reads, with the time that a `TIMEL` read keeps (R285). -/
def baseRead (s : State) (n : Nat) : Word :=
  if n = 0 then loWord s.time
  else if n = 1 then s.grp.timeh.getD (hiWord s.time)
  else if n = 2 ∨ n = 3 then BitVec.ofNat 32 (lcore s)
  else if n = 4 then BitVec.ofNat 32 s.grp.ctx
  else if n = 5 then BitVec.ofNat 32 (wgOf s).gid
  else if n = 6 then BitVec.ofNat 32 (gridOf s).gridId
  else if n = 7 then BitVec.ofNat 32 (gridOf s).depth
  else if n = 0x10 then caps0
  else if 0x20 ≤ n ∧ n ≤ 0x28 then match servedTrap s with
    | some r => trapWord r (n - 0x20)
    | none => 0
  else if 0x30 ≤ n ∧ n ≤ 0x33 then regionAt s.grp (n - 0x30)
  else if n = 0x40 then (if (wgOf s).ntiles = 0 then 0 else BitVec.ofNat 32 (wgOf s).tileBase)
  else if n = 0x41 then (if (wgOf s).naccs = 0 then 0 else BitVec.ofNat 32 (wgOf s).accBase)
  else if n = 0x42 then match bobbinOf s.grp.wg s with
    | some b => BitVec.ofNat 32 b.mark
    | none => 0
  else if n = 0x50 then (wgOf s).flags.zeroExtend 32
  else 0

/-- What both CSR words need (R284): `PRIVILEGED` outside the handler slot, `ILLEGAL_OPERAND` for a number not in the map. -/
def csrNeed (s : State) (r n : Nat) (w : Bool) : Need :=
  { scalarNeed [r] false with
    privBad := isHandlerCsr n && decide (s.grp.kind ≠ .handler)
    operandBad := if isHandlerCsr n then !handlerCsrOk (served s) n || (n == 0x111 && !hvselOk (served s) s.grp.hvsel) else !baseCsrOk n
    early := if w then [.s r] else []
    valueBad := isHandlerCsr n && w && handlerValueBad s.grp (served s) n (getS s.grp r) }

/-- `CSRR` (R284). -/
def execCsrr (d : BitVec 6) (c : BitVec 12) (s : State) : Host.Outcome State Fault Refusal :=
  .next (word (csrNeed s d.toNat c.toNat false)
    (fun s =>
      if isHandlerCsr c.toNat then
        match handlerRead s.grp (served s) c.toNat with
        | some x => finish (s.setG (setS d.toNat x))
        | none =>
          let (n, s) := drawFree s
          finish (s.setG (setS d.toNat (Config.freeValue n)))
      else
        let x := baseRead s c.toNat
        let s := if c = 0 then s.setG fun g => { g with timeh := some (hiWord s.time) } else s
        finish (s.setG (setS d.toNat x))) s)

/-- `CSRW` (R284): a read-only CSR keeps its value; `FLAGS` bits written 1 are cleared (R286). -/
def execCsrw (a : BitVec 6) (c : BitVec 12) (s : State) : Host.Outcome State Fault Refusal :=
  .next (word (csrNeed s a.toNat c.toNat true)
    (fun s =>
      let x := getS s.grp a.toNat
      if isHandlerCsr c.toNat then
        let (g, t) := handlerWrite c.toNat x s.grp (served s)
        finish (updGroup s.grp.serves (fun _ => t) { s with grp := g })
      else if c = 0x50 then
        finish (updWg s.grp.wg (fun w => { w with flags := w.flags &&& ~~~(x.setWidth 3) }) s)
      else finish s) s)

end Sys2Proof.Machine
end

