-- ==== Sys2Proof/Machine/Memory.lean ====
section
/-!
DEFINITION. Accesses through buffer records: the record (R212), offsets and checks (R213, R214, R224), the two fixed records
(R215), where each scope reads and writes (R211, R217 to R220), watchpoints (R327), parking (R323), and the release condition
of a fence (R236).
-/

namespace Sys2Proof.Machine

/-! ### Records -/

/-- A buffer record's fields (R212). -/
structure BufRec where
  base : Nat
  extent : Nat
  stride : Nat
  swz : Nat
  ro : Bool
  clamp : Bool
  konst : Bool
  elem : Nat
  scope : Nat
  resv : Nat
  deriving DecidableEq, Repr

def recOfBits (b : BitVec 128) : BufRec :=
  let n := b.toNat
  { base := n % 2 ^ 57, scope := n / 2 ^ 57 % 4, elem := n / 2 ^ 59 % 4, konst := b.getLsbD 61, clamp := b.getLsbD 62,
    ro := b.getLsbD 63, extent := n / 2 ^ 64 % 2 ^ 32, stride := n / 2 ^ 96 % 2 ^ 20, swz := n / 2 ^ 116 % 16,
    resv := n / 2 ^ 120 }

def BufRec.limit (r : BufRec) : Nat := if r.stride ≠ 0 then r.extent * r.stride else r.extent * 2 ^ r.elem

/-- A record that `BSET` and `BLOAD` refuse (R216). -/
def BufRec.invalid (r : BufRec) : Bool :=
  decide (r.resv ≠ 0) || decide (r.swz ≥ 8) || (decide (r.swz ≠ 0) && (decide (r.base % 128 ≠ 0) || decide (r.limit % 128 ≠ 0)))
    || decide (r.base + r.limit > 2 ^ 57)

/-- Where a record leads (R215, R365). -/
def placeOf (g : Group) (n : Nat) : Place :=
  if g.kind = .vector then (if n = 31 then .scratch else if n = 30 then .window else .mem) else .mem

/-- The record that a lane reaches through `Bn` (R215, R309). -/
def bufOf (s : State) (n l : Nat) : BufRec :=
  match placeOf s.grp n with
  | .mem => recOfBits (getB s.grp n)
  | .scratch =>
    { base := 0, extent := (wgOf s).scratchSize, stride := 0, swz := 0, ro := false, clamp := false, konst := false,
      elem := 0, scope := 0, resv := 0 }
  | .window =>
    { base := (ctxOf s).privBase + 18432 * sget 0 l s.grp.win + 2048, extent := 16384, stride := 0, swz := 0,
      ro := false, clamp := false, konst := false, elem := 0, scope := 0, resv := 0 }

/-- The two-dimensional swizzle (R214). -/
def swizzle (s off : Nat) : Nat := if s = 0 then off else off ^^^ (off / 2 ^ (s + 6) % 8 * 16)

/-- One lane's access: offset, whether it is in bounds, and the address (R213). -/
structure Access where
  lane : Nat
  off : Int
  inb : Bool
  va : Nat
  deriving DecidableEq, Repr

def accOf (r : BufRec) (size : Nat) (imm : Int) (l : Nat) (x : Word) : Access :=
  let off : Int := (if r.stride ≠ 0 then x.toNat * r.stride else x.toNat : Nat) + imm
  { lane := l, off := off, inb := decide (0 ≤ off) && decide (off + size ≤ r.limit)
    va := if 0 ≤ off then r.base + swizzle r.swz off.toNat else (BitVec.ofInt 64 ((r.base : Int) + off)).toNat }

/-- A lane whose address is misaligned (R213, R214). -/
def misaligned (r : BufRec) (size : Nat) (a : Access) : Bool :=
  decide (((r.base : Int) + a.off) % (size : Int) ≠ 0) || (decide (r.swz ≠ 0) && decide (a.off % 16 + size > 16))


/-- The cache policy of the word (R211). -/
def evcOf (s : State) : Nat := ((curHints s).evc.map fun e => e.toNat).getD 0

/-! ### Speculative tasks (R205) -/

/-- The distinct lines of a list of addresses. -/
def distinctLines (as : List Nat) : List Nat := as.foldl (fun l a => if l.contains (lineOf a) then l else l ++ [lineOf a]) []

/-- Some active lane runs a speculative task. -/
def anySpec (s : State) : Bool := (lanes (active s)).any fun l => (specTask s s.grp.uid l).isSome

/-- A lane's speculative task would exceed its sets with these reads and writes (R205): more than 1,024 or 256 lines. -/
def taskOver (s : State) (uid lane : Nat) (reads writes : List Nat) : Bool :=
  match specTask s uid lane with
  | none => false
  | some t =>
    decide ((distinctLines (reads ++ t.rset)).length > 1024) || decide ((distinctLines (writes ++ t.wset.map fun w => w.1)).length > 256)

/-- An access that a lane's speculative task may not make yet (R205). -/
def taskWaits (s : State) (lane a : Nat) (isStore : Bool) : Bool :=
  if isStore then taskOver s s.grp.uid lane [] [a] else taskOver s s.grp.uid lane [a] []

/-! ### The checks of a memory word -/

/-- A memory word's accesses: the record, the index and offset, the size, the access kind of R305, whether it stores, the
reason of a deterministic violation (R200), the watchpoint kinds that it meets beside "either" (R327), whether a page it cannot have is simply skipped. -/
structure MemOp where
  buf : Nat
  idx : Nat → Word
  imm : Int := 0
  size : Nat
  kind : Nat
  stores : Bool := false
  det : Option Nat := none
  watch : List Nat := []
  skip : Bool := false

/-- What the checks of a memory word give: a trap, a translation to wait for, or the lanes that proceed, each with its access
and its place's address, and the lanes that need an absent page. -/
inductive MemGo where
  | trap (t : TrapReq)
  | walk (va : Nat)
  | go (run : List (Access × Nat)) (parked : List (Nat × Nat))
  deriving DecidableEq, Repr

/-- The accesses of the listed lanes. -/
def memAccs (s : State) (o : MemOp) (ls : List Nat) : List Access :=
  ls.map fun l => accOf (bufOf s o.buf l) o.size o.imm l (o.idx l)

/-- The trap that names the lanes of some accesses, and a value of the lowest. -/
def accTrap (cause : Nat) (as : List Access) (addr : Access → Nat) (info : Nat) : TrapReq :=
  { cause := cause, mask := maskOf (as.map fun a => a.lane), addr := (as.head?.map addr).getD 0, info := info }

/-- The translation of an access, by the place of its record. -/
def accTrans (s : State) (o : MemOp) (a : Access) : Trans :=
  match placeOf s.grp o.buf with
  | .scratch => .ok a.off.toNat
  | _ => xlate s s.grp a.va o.kind

/-- A watchpoint that an access of some kinds meets (R327). -/
def watchHits (w : Watch) (kinds : List Nat) (a : Access) (size : Nat) : Bool :=
  (decide (w.kind = 2) || kinds.contains w.kind) && decide (w.lo < a.va + size) && decide (a.va < w.lo + w.len)

/-- The lowest-numbered watchpoint that some access meets, but for one suppressed. A walker's accesses are physical ones (log entry 47), and
no virtual range meets them. -/
def watchFound (s : State) (kinds : List Nat) (size : Nat) (as : List Access) : Option Watch :=
  let l := if s.grp.kind = .walker then [] else (ctxOf s).watches.filter fun w => decide (s.grp.noWatch ≠ some (curPc s, w.num)) && as.any fun a => watchHits w kinds a size
  l.foldl (fun b w => match b with
    | none => some w
    | some v => if w.num < v.num then some w else some v) none

/-- `TINFO` of a refused translation (R317). -/
def refusedInfo : Trans → Nat
  | .refused (some m) => 256 + m
  | _ => 0

def isRefused : Trans → Bool
  | .refused _ => true
  | _ => false

/-- The address of a lane's place, or the address on an absent page that it parks on. -/
def splitAccs : List (Access × Trans) → List (Access × Nat) × List (Nat × Nat)
  | [] => ([], [])
  | (a, t) :: r =>
    let (run, parked) := splitAccs r
    match t with
    | .ok p => ((a, p) :: run, parked)
    | .absent => (run, (a.lane, a.va) :: parked)
    | _ => (run, parked)

/-- The traps of R224 that do not depend on translation, in their order, over the accesses of the listed lanes. -/
def memTraps (s : State) (o : MemOp) (ls : List Nat) (as : List Access) : Option TrapReq :=
  let bad := as.filter fun a => misaligned (bufOf s o.buf a.lane) o.size a
  let oob := as.filter fun a => !a.inb && !(bufOf s o.buf a.lane).clamp
  let rec0 := bufOf s o.buf 0
  match o.det with
  | some r => some { cause := cDetViolation, mask := maskOf ls, info := r }
  | none =>
    if !bad.isEmpty then some (accTrap cMisaligned bad (fun a => a.va) 0)
    else if !oob.isEmpty then some (accTrap cBounds oob (fun a => (BitVec.ofInt 64 a.off).toNat) 0)
    else if o.stores && (rec0.ro || rec0.konst) then some (accTrap cProtection as (fun a => a.va) 0)
    else none

/-- Each lane parks on the first absent page that it needs. -/
def parkOnce : List (Nat × Nat) → List (Nat × Nat)
  | [] => []
  | (l, p) :: r => (l, p) :: (parkOnce r).filter fun q => decide (q.1 ≠ l)

/-- The lanes that proceed and those that park. -/
def splitGo (skip : Bool) (ts : List (Access × Trans)) : MemGo :=
  let (run, parked) := splitAccs ts
  let parked := if skip then [] else parkOnce parked
  .go (run.filter fun p => !(parked.any fun q => decide (q.1 = p.1.lane))) parked

/-- The translation of in-bounds accesses (R224, R304, R305): a miss waits for the walker, a refusal traps, then the
watchpoints (R327), then the split of the lanes. -/
def memTrans (s : State) (o : MemOp) (as : List Access) : MemGo :=
  let ts := as.map fun a => (a, accTrans s o a)
  match ts.find? fun p => p.2 == .miss with
  | some p => .walk p.1.va
  | none =>
    let refused := ts.filter fun p => isRefused p.2
    if !refused.isEmpty && !o.skip then
      .trap (accTrap cProtection (refused.map fun p => p.1) (fun a => a.va) ((refused.head?.map fun p => refusedInfo p.2).getD 0))
    else if o.watch.isEmpty || decide (placeOf s.grp o.buf = .scratch) then splitGo o.skip ts
    else match watchFound s o.watch o.size as with
      | some w =>
        let hit := as.filter fun a => watchHits w o.watch a o.size
        .trap { cause := cWatchpoint, mask := maskOf (hit.map fun a => a.lane), info := w.num
                addr := hit.foldl (fun m a => min m a.va) (((hit.head?.map fun a => a.va)).getD 0) }
      | none => splitGo o.skip ts

/-- The traps of R224 in their order, the watchpoints, and the split of the lanes. Lanes out of bounds under CLAMP take no
part. -/
def memCheck (s : State) (o : MemOp) (ls : List Nat) : MemGo :=
  let as := memAccs s o ls
  match memTraps s o ls as with
  | some t => .trap t
  | none => memTrans s o (as.filter fun a => a.inb)

/-- Memory requests of an issuer's word at its core: one in 2^k of the core's is sampled (R335). -/
def takeSamples (g : Group) (pc : Nat) (reqs : List (Nat × Option Nat)) (s : State) : State :=
  match findCtx g.ctx s with
  | none => s
  | some x =>
    if x.sampleK = 0 then s
    else
      let n := sget 0 g.core x.requests
      let hit := (indexed (n + 1) reqs).filter fun p => decide (p.1 % 2 ^ x.sampleK = 0)
      updCtx x.id (fun x => { x with requests := sput 0 g.core (n + reqs.length) x.requests
                                     samples := x.samples ++ hit.map fun p => { grp := g.uid, pc := pc, va := p.2.1, key := p.2.2 } }) s

/-- The requests of the issuing word at one place (R335, log entry 91). -/
def sampled (pl : Place) (run : List (Access × Nat)) (s : State) : State :=
  takeSamples s.grp (curPc s) (run.map fun p => (p.1.va, some (taskKey s.grp pl p.2))) s

/-! ### The lines of a resolve (R357) -/

/-- The step from one index of a record to the next. -/
def BufRec.pitch (r : BufRec) : Nat := if r.stride ≠ 0 then r.stride else 1

/-- The indices of a range that lie inside a record (R168, R213). -/
def insideOf (r : BufRec) (size first n : Nat) : Nat :=
  min n (min (if r.limit ≥ size then (r.limit - size) / r.pitch + 1 - first else 0) (2 ^ 32 - first))

/-- The address of an index of a record before the swizzle. -/
def idxVa (r : BufRec) (i : Nat) : Nat := r.base + i * r.pitch

/-- A run of bytes lies on a line of a range of a record. -/
def onRange (r : BufRec) (size first n va len : Nat) : Bool :=
  let k := insideOf r size first n
  decide (k ≠ 0) && decide (lineOf (idxVa r first) ≤ lineOf (va + len - 1)) && decide (lineOf va ≤ lineOf (idxVa r (first + k - 1) + size - 1))

/-- A pending resolve that the lane drives reads or writes a line of an access (R357): the lane's accesses of one line keep program order
(R220), so the later one waits for the token. Lines are compared by their addresses before translation (log entry 105). -/
def visqMeets (g : Group) (lane va len : Nat) : Bool :=
  g.tokens.any fun t => match t.work with
    | .visq l _ _ first count base b27 b28 =>
      decide (l = lane) && (onRange (recOfBits b27) 48 first count va len || onRange (recOfBits b28) 4 base 2048 va len)
    | _ => false

/-- Some range of a record, of elements of a size from an index on, meets a pending resolve of a lane. -/
def spansMeet (g : Group) (lane : Nat) (l : List (BufRec × Nat × Nat × Nat)) : Bool :=
  l.any fun x =>
    let k := insideOf x.1 x.2.1 x.2.2.1 x.2.2.2
    decide (k ≠ 0) && visqMeets g lane (idxVa x.1 x.2.2.1) ((k - 1) * x.1.pitch + x.2.1)

/-- Some access of a word meets a pending resolve of its lane. -/
def runMeets (s : State) (len : Nat) (run : List (Access × Nat)) : Bool := run.any fun p => visqMeets s.grp p.1.lane p.1.va len

/-! ### Parking (R323) -/

/-- The distinct pages of a list of parked lanes, each with its address, in order. -/
def parkPages : List (Nat × Nat) → List Nat
  | [] => []
  | (_, a) :: r => let l := parkPages r; if l.contains (page64 a) then l else page64 a :: l

/-- The parked lanes of a page, with their addresses, in ascending lane order. -/
def onPage (page : Nat) (l : List (Nat × Nat)) : List (Nat × Nat) := l.filter fun p => decide (page64 p.2 = page)

/-- Lanes of the issuing path leave it for the hem, one entry for each page, with the clause position kept, and the pages
are reported. `own`: registers that this issue has marked; `pos`: the clause position before it; `parked`: each lane with the address
it needs. In a deterministic context a path that parks whole holds the round (R198). -/
def parkLanes (kind : Nat) (pos : Option Pos) (own : List Reg) (parked : List (Nat × Nat)) (s : State) : State :=
  if parked.isEmpty then s
  else
    let pos := pos.map fun p => { p with own := p.own ++ own }
    let pc := curPc s
    let all := maskOf (parked.map fun p => p.1)
    let holds := (ctxOf s).det && decide (s.grp.kind = .vector) && decide (active s &&& ~~~all = 0)
    let es := (parkPages parked).map fun pg =>
      { pc := pc, mask := maskOf ((onPage pg parked).map fun p => p.1), pos := pos, va := ((onPage pg parked).head?.map fun p => p.2).getD pg
        page := pg, kind := kind, edited := (s.grp.act.map fun e => e.edited).getD false, holds := holds : HemEntry }
    let s := s.setG fun g =>
      { removeLanes all g with
        hem := g.hem ++ es
        resv := g.resv.filter fun e => !bit all e.1
        arming := g.arming.filter fun e => !bit all e.1 }
    (parkPages parked).foldl (fun s pg => reportPage s.grp.ctx pg kind s) s

/-- The issuing path is gone when all its lanes have parked; the group's turn does not end (R198). -/
def afterPark (s : State) : State := if s.grp.act.isNone then settle s else finish s

/-- The whole issuing path parks on one page (R228, R282, R148), or on the page of its fetch. -/
def parkPath (kind va : Nat) (s : State) : State :=
  afterPark (parkLanes kind (curPos s) [] ((lanes (active s)).map fun l => (l, va)) s)

/-! ### Fences (R236) -/

/-- Everything that the lanes of an issuer have issued is performed: loads, pending stores, and at device scope the dirty bytes too. -/
def releaseLanes (uid : Nat) (m : DWord) (dev : Bool) (s : State) : State :=
  let s := performLanes uid m s
  let s := performWhere (fun x => decide (x.grp = uid) && bit m x.lane) s
  if dev then writeBackWhere (fun c => c.owners.any fun o => decide (o.1 = uid) && bit m o.2) s else s

/-- Device time has passed the GWCT of every lane (R219, R236). -/
def releaseDone (g : Group) (m : DWord) (t : Nat) : Bool :=
  (lanes m).all fun l => decide (sget 0 l g.gwct = 0) || decide (sget 0 l g.gwct < t)

/-- A word that orders the earlier accesses of some lanes waits for the resolves that they drive (R236, R357). -/
def afterVisq (m : DWord) (body : State → State) (s : State) : State :=
  if visqPending s.grp m then stallOn .token s else body s

/-- A word that first makes the device-scope release condition hold for its active threads. -/
def withRelease (body : State → State) (s : State) : State :=
  if visqPending s.grp (active s) then stallOn .token s else
  let s := releaseLanes s.grp.uid (active s) true s
  if releaseDone s.grp (active s) s.time then body s else stallOn .release s

end Sys2Proof.Machine
end

