-- ==== Sys2Proof/Machine/MemWords.lean ====
section
/-!
DEFINITION. Class 11 (R223 to R228) and the two memory words of class 10, `SLDC` and `SLDLIT` (R282, R283).
-/

namespace Sys2Proof.Machine

/-- `IMMoff` (R46, R213). -/
def immOff (s : State) : Int := ((curHints s).imm.map fun i => i.toInt).getD 0

/-- A plain V register run, aligned and below VREGS (R38, R223). -/
def plainV (s : State) (w n : Nat) : Bool := decide (n + w ≤ s.grp.code.vregs) && decide (n % w = 0)

/-- The V registers of a plain run. -/
def plainRegs (w n : Nat) : List Reg := (List.range w).map fun i => Reg.v (n + i)

/-- The hints of loads and stores (R238). -/
def memHints : HintSet := { imm := true, evc := true, scp := true }

/-- What a load or store word needs: the data run, the index register. -/
def memNeed (s : State) (d : Option (Nat × Nat)) (x : Nat) (varlat : Bool) : Need :=
  { varlat := varlat, hints := memHints
    operandBad := !plainV s 1 x || !(match d with
      | some (n, w) => plainV s w n
      | none => true)
    regs := .v x :: (match d with
      | some (n, w) => plainRegs w n
      | none => []) }

/-- The scope of a class 11 word (R217): the record's, replaced by `XSCP`; the walker slot reads at system scope (R305). -/
def scopeOf (s : State) (n : Nat) : Nat :=
  if s.grp.kind = .walker then 3
  else match (curHints s).scp with
    | some p => p.toNat
    | none => (bufOf s n 0).scope

/-- Reason 4 of R200. -/
def exclusiveDet (s : State) (n : Nat) : Option Nat :=
  if (ctxOf s).det = true ∧ placeOf s.grp n = .mem ∧ scopeOf s n ≥ 1 then some 4 else none

/-- One lane's load from its place, after the loads of its thread there (R220). -/
def laneLoad (pl : Place) (scope evc lane p n : Nat) (s : State) : List Byte × State :=
  placeLoad s.grp pl scope evc lane p n (performAt s.grp.uid lane pl (lineOf p) s)

/-- One lane's store to its place, after the loads of its thread there (R220). -/
def laneStore (pl : Place) (scope evc lane p : Nat) (bs : List Byte) (s : State) : State :=
  placeStore s.grp pl scope evc lane p bs (ctxOf s).det (performAt s.grp.uid lane pl (lineOf p) s)

/-- A lane's load may be performed later than it issues (R220, R364), but for a deterministic context (R199), a speculative task (R205)
and the bobbin (R243). -/
def defers (s : State) (lane : Nat) : Bool :=
  !(ctxOf s).det && decide (s.grp.kind ≠ .bobbin) && (specTask s s.grp.uid lane).isNone

/-- The words of a lane's result as register writes. -/
def laneWrites (d lane : Nat) (ws : List Word) : List RegWrite :=
  (indexed 0 ws).map fun p => { reg := .v (d + p.1), lane := lane, val := p.2 }

/-- The loads of the lanes that are performed as they issue, in ascending order. -/
def loadRun (pl : Place) (scope evc size d : Nat) (f : List Byte → List Word) : List (Access × Nat) → State → List RegWrite × State
  | [], s => ([], s)
  | (a, p) :: r, s =>
    let (bs, s) := laneLoad pl scope evc a.lane p size s
    let (ws, s) := loadRun pl scope evc size d f r s
    (laneWrites d a.lane (f bs) ++ ws, s)

/-- The loads of the lanes that are performed later (R364). -/
def loadsLater (pl : Place) (scope evc size d : Nat) (e : Extend) (run : List (Access × Nat)) : List PLoad :=
  run.map fun p => { place := pl, lane := p.1.lane, addr := p.2, size := size, scope := scope, evc := evc, reg := .v d, ext := e }

/-- The lanes out of bounds under CLAMP (R213): active, neither performing nor parked. -/
def clampLanes (s : State) (run : List (Access × Nat)) (parked : List (Nat × Nat)) : List Nat :=
  (lanes (active s)).filter fun l => !(run.any fun p => decide (p.1.lane = l)) && !(parked.any fun p => decide (p.1 = l))

/-- The lanes whose tasks must wait until they are the oldest (R205). -/
def tasksWait (s : State) (pl : Place) (isStore : Bool) (run : List (Access × Nat)) : DWord :=
  maskOf ((run.filter fun p => taskWaits s p.1.lane (taskKey s.grp pl p.2) isStore).map fun p => p.1.lane)

/-- The checks of R224, then the word's own effect on the lanes that proceed and those that park. -/
def memWord (o : MemOp) (isStore : Bool) (body : List (Access × Nat) → List (Nat × Nat) → State → State) (s : State) : State :=
  match memCheck s o (lanes (active s)) with
  | .trap t => takeTrap t s
  | .walk va => walkStall va o.kind s
  | .go run parked =>
    let pl := placeOf s.grp o.buf
    let waiting := tasksWait s pl isStore run
    if waiting ≠ 0 then parkTasks waiting s
    else if runMeets s o.size run then stallOn .token s
    else body run parked (sampled pl run s)

/-- A variable-latency result into DV for the lanes that perform (R225): parked lanes keep theirs. `ls`: the loads that are performed
later. -/
def loadFinish (kind d w : Nat) (ws zs : List RegWrite) (parked : List (Nat × Nat)) (pos : Option Pos) (s : State)
    (ls : List PLoad := []) : State :=
  if ws.isEmpty && zs.isEmpty && ls.isEmpty then afterPark (parkLanes kind pos [] parked s)
  else afterPark (parkLanes kind pos (plainRegs w d) parked (launchOp (plainRegs w d) (ws ++ zs) [] s ls))

/-- A load (R225): `w` words of DV from `size` bytes. -/
def loadWord (n : BitVec 5) (d x : BitVec 8) (size w : Nat) (e : Extend) (s : State) : State :=
  word (memNeed s (some (d.toNat, w)) x.toNat true) (fun s =>
    let o : MemOp := { buf := n.toNat, idx := fun l => getV s.grp x.toNat l, imm := immOff s, size := size, kind := 0, watch := [0] }
    memWord o false (fun run parked s' =>
      let pl := placeOf s.grp n.toNat
      let (ws, s'') := loadRun pl (scopeOf s n.toNat) (evcOf s) size d.toNat (extended e size) (run.filter fun p => !defers s p.1.lane) s'
      let zs := (clampLanes s run parked).flatMap fun l => laneWrites d.toNat l (List.replicate w 0)
      loadFinish 0 d.toNat w ws zs parked (curPos s) s''
        (loadsLater pl (scopeOf s n.toNat) (evcOf s) size d.toNat e (run.filter fun p => defers s p.1.lane))) s) s

/-- A store (R225): `w` words of DV supply `size` bytes. -/
def storeWord (n : BitVec 5) (d x : BitVec 8) (size w : Nat) (s : State) : State :=
  word (memNeed s (some (d.toNat, w)) x.toNat false) (fun s =>
    let o : MemOp := { buf := n.toNat, idx := fun l => getV s.grp x.toNat l, imm := immOff s, size := size, kind := 1, stores := true, watch := [1] }
    if scopeOf s n.toNat = 3 ∧ placeOf s.grp n.toNat = .mem ∧ anySpec s = true then parkTasks (specLanes (active s) s) s
    else memWord o true (fun run parked s' =>
      let bytes := fun l => (((List.range w).flatMap fun i => toBytes 4 (getV s.grp (d.toNat + i) l).toNat).take size)
      let s'' := run.foldl (fun t p =>
        laneStore (placeOf s.grp n.toNat) (scopeOf s n.toNat) (evcOf s) p.1.lane p.2 (bytes p.1.lane) t) s'
      afterPark (parkLanes 1 (curPos s) [] parked s'')) s) s

/-- The number of words of an `LD` or `ST` by `SZ` (R225). -/
def szWords (z : BitVec 2) : Nat := if z = 0 then 1 else if z = 1 then 2 else 4

/-- `LD` (R225). -/
def execLd (n : BitVec 5) (d x : BitVec 8) (z : BitVec 2) (s : State) : Host.Outcome State Fault Refusal :=
  .next (loadWord n d x (4 * szWords z) (szWords z) .words s)
/-- `ST` (R225). -/
def execSt (n : BitVec 5) (d x : BitVec 8) (z : BitVec 2) (s : State) : Host.Outcome State Fault Refusal :=
  .next (storeWord n d x (4 * szWords z) (szWords z) s)

/-- Zero or sign extension by `SZ` of `LDB` and `LDH` (R225). -/
def szExt (z : BitVec 2) : Extend := if z = 1 then .sign else .zero

/-- `LDB` (R225). -/
def execLdb (n : BitVec 5) (d x : BitVec 8) (z : BitVec 2) (s : State) : Host.Outcome State Fault Refusal := .next (loadWord n d x 1 1 (szExt z) s)
/-- `LDH` (R225). -/
def execLdh (n : BitVec 5) (d x : BitVec 8) (z : BitVec 2) (s : State) : Host.Outcome State Fault Refusal := .next (loadWord n d x 2 1 (szExt z) s)
/-- `STB` (R225). -/
def execStb (n : BitVec 5) (d x : BitVec 8) (s : State) : Host.Outcome State Fault Refusal := .next (storeWord n d x 1 1 s)
/-- `STH` (R225). -/
def execSth (n : BitVec 5) (d x : BitVec 8) (s : State) : Host.Outcome State Fault Refusal := .next (storeWord n d x 2 1 s)

/-! ### `LDX` and `STX` (R226) -/

/-- An exclusive store is performed at its place at once. -/
def exclusiveStore (pl : Place) (lane p : Nat) (bs : List Byte) (s : State) : State :=
  placeNow s.grp pl lane p bs (performAt s.grp.uid lane pl (lineOf p) s)

/-- The `LDX` words of the lanes are on their way: each takes its reservation when it is performed. -/
def armLanes (pl : Place) (size : Nat) (run : List (Access × Nat)) (s : State) : State :=
  s.setG fun g => run.foldl (fun g p => { g with arming := sins p.1.lane (resvOf g pl p.2 size) g.arming }) g

/-- The exclusive loads of the lanes that are performed as they issue, in ascending order. -/
def ldxRun (pl : Place) (size d : Nat) : List (Access × Nat) → State → List RegWrite × State
  | [], s => ([], s)
  | (a, p) :: r, s =>
    let (bs, s) := placeExclusive s.grp pl a.lane p size (performAt s.grp.uid a.lane pl (lineOf p) s)
    let s := s.setG (takeResv a.lane (resvOf s.grp pl p size))
    let (ws, s) := ldxRun pl size d r s
    (laneWrites d a.lane (toWords (size / 4) bs) ++ ws, s)

/-- `LDX` (R226). -/
def execLdx (n : BitVec 5) (d x : BitVec 8) (z : BitVec 2) (s : State) : Host.Outcome State Fault Refusal :=
  let w := szWords z
  .next (word (memNeed s (some (d.toNat, w)) x.toNat true) (fun s =>
    let o : MemOp := { buf := n.toNat, idx := fun l => getV s.grp x.toNat l, imm := immOff s, size := 4 * w, kind := 0,
                       det := exclusiveDet s n.toNat, watch := [0] }
    if anySpec s then parkTasks (specLanes (active s) s) s
    else memWord o false (fun run parked s' =>
      let pl := placeOf s.grp n.toNat
      let (ws, s'') := ldxRun pl (4 * w) d.toNat (run.filter fun p => !defers s p.1.lane) (armLanes pl (4 * w) run s')
      let zs := (clampLanes s run parked).flatMap fun l => laneWrites d.toNat l (List.replicate w 0)
      loadFinish 0 d.toNat w ws zs parked (curPos s) s''
        ((loadsLater pl 2 0 (4 * w) d.toNat .words (run.filter fun p => defers s p.1.lane)).map fun p => { p with how := .exclusive })) s) s)

/-- A lane holds a reservation on the location (R226). -/
def resvIntact (s : State) (pl : Place) (lane p size : Nat) : Bool := decide (sfind lane s.grp.resv = some (resvOf s.grp pl p size))

/-- The exclusive stores of the lanes in ascending order: the lanes that stored, and the state. The lane's own loads there, with its `LDX`, and
the stores of the core that were issued before go first, and these break the reservations of other threads (R220, R221, R226). -/
def stxRun (pl : Place) (size : Nat) (bytes : Nat → List Byte) : List (Access × Nat) → State → List Nat × State
  | [], s => ([], s)
  | (a, p) :: r, s =>
    let s := drainCore s.grp.core (lineOf (taskKey s.grp pl p)) (performAt s.grp.uid a.lane pl (lineOf p) s)
    let ok := resvIntact s pl a.lane p size
    let s := if ok then exclusiveStore pl a.lane p (bytes a.lane) s else s
    let (ls, s) := stxRun pl size bytes r s
    (if ok then a.lane :: ls else ls, s)

/-- `STX` (R226): `M15` tells each active lane whether its store was performed. -/
def execStx (n : BitVec 5) (d x : BitVec 8) (z : BitVec 2) (s : State) : Host.Outcome State Fault Refusal :=
  let w := szWords z
  .next (word (memNeed s (some (d.toNat, w)) x.toNat false) (fun s =>
    let o : MemOp := { buf := n.toNat, idx := fun l => getV s.grp x.toNat l, imm := immOff s, size := 4 * w, kind := 1, stores := true,
                       det := exclusiveDet s n.toNat, watch := [1] }
    if anySpec s then parkTasks (specLanes (active s) s) s
    else memWord o true (fun run parked s' =>
      let bytes := fun l => (List.range w).flatMap fun i => toBytes 4 (getV s.grp (d.toNat + i) l).toNat
      let (ls, s'') := stxRun (placeOf s.grp n.toNat) (4 * w) bytes run s'
      let done := (lanes (active s)).filter fun l => !(parked.any fun p => decide (p.1 = l))
      let s'' := s''.setG fun g => setM 15 (putBits (fun l => ls.contains l) done (getM g 15)) g
      afterPark (parkLanes 1 (curPos s) [] parked s'')) s) s)

/-! ### `PREF` and `EVICT` (R227) -/

/-- `PREF` fetches a line into a level under `XEVC` (R211, R227): a level 1 fetch goes the way of a device-scope load, a level 2 one fills
the die's L2 unless the home is the L3 of its base die. Nothing happens for the L3, which is the home, under no-allocate, and for a record
of system scope, which takes no copy. -/
def prefLine (core z scope evc a : Nat) (s : State) : State :=
  if scope = 3 ∨ evc = 3 ∨ z ≥ 2 then s
  else if z = 0 then (readMem core 2 evc a 1 s).2
  else if homedNear s (dieOfCore core) (lineOf a) then s
  else
    let s := flitFrom a (writeBackAt core (lineOf a) s)
    let (t, s) := grantLease (lineOf a) s
    fillLine 2 (dieOfCore core) (lineOf a) t evc (homeBytes s (128 * lineOf a) 128) s

/-- `PREF` (R227): no value and no order changes; a lane whose page is absent or forbidden does nothing, nor does one of a speculative
task, which reads the home alone (R205). -/
def execPref (n : BitVec 5) (x : BitVec 8) (z : BitVec 2) (s : State) : Host.Outcome State Fault Refusal :=
  .next (word (memNeed s none x.toNat false) (fun s =>
    let o : MemOp := { buf := n.toNat, idx := fun l => getV s.grp x.toNat l, imm := immOff s, size := 1, kind := 3, skip := true }
    memWord o false (fun run _ s' =>
      if placeOf s.grp n.toNat ≠ .mem then finish s'
      else finish ((run.filter fun p => (specTask s s.grp.uid p.1.lane).isNone).foldl (fun t p =>
        prefLine s.grp.core z.toNat (scopeOf s n.toNat) (evcOf s) p.2 t) s')) s) s)

/-- A line written back and dropped from L1, and from L2 (R227). -/
def evictLine (core z p : Nat) (s : State) : State :=
  let s := dropLine 1 core (lineOf p) (writeBackAt core (lineOf p) s)
  if z = 0 then s else dropLine 2 (dieOfCore core) (lineOf p) s

/-- `EVICT` (R227). Its pages are translated as those of a load are (log entry 103). -/
def execEvict (n : BitVec 5) (x : BitVec 8) (z : BitVec 2) (s : State) : Host.Outcome State Fault Refusal :=
  .next (word (memNeed s none x.toNat false) (fun s =>
    let o : MemOp := { buf := n.toNat, idx := fun l => getV s.grp x.toNat l, imm := immOff s, size := 1, kind := 0 }
    memWord o false (fun run parked s' =>
      let s'' := if placeOf s.grp n.toNat = .scratch then s'
        else run.foldl (fun t p => evictLine s.grp.core z.toNat p.2 t) s'
      afterPark (parkLanes 0 (curPos s) [] parked s'')) s) s)

/-! ### `BLOAD` and `BSET` (R228) -/

/-- The lanes of a path whose tasks must wait before one access serves them all (R205). -/
def pathWaits (s : State) (pl : Place) (run : List (Access × Nat)) : DWord :=
  maskOf ((lanes (active s)).filter fun l => run.any fun p => taskWaits s l (taskKey s.grp pl p.2) false)

/-- One access for a path meets a pending resolve of some lane of it. -/
def pathMeets (s : State) (len : Nat) (run : List (Access × Nat)) : Bool :=
  (lanes (active s)).any fun l => run.any fun p => visqMeets s.grp l p.1.va len

/-- One access for a path is a read of every task on it (R205). -/
def pathReads (pl : Place) (p : Nat) (s : State) : State :=
  (lanes (active s)).foldl (fun s l => noteReads s.grp.uid l [taskKey s.grp pl p] s) s

/-- A record that no program writes (R215). -/
def fixedRecord (n : BitVec 5) : Bool := decide (n.toNat ≥ 30)

/-- `BLOAD` (R228): the lowest active lane's index serves the whole group. -/
def execBload (n b : BitVec 5) (x : BitVec 8) (s : State) : Host.Outcome State Fault Refusal :=
  .next (word
    { memNeed s none x.toNat false with
      hints := { imm := true, evc := true }
      operandBad := !plainV s 1 x.toNat }
    (fun s =>
      match lowLane (active s) with
      | none => finish s
      | some l =>
        if fixedRecord n then trapOwn cIllegalOperand s else
        let o : MemOp := { buf := b.toNat, idx := fun l => getV s.grp x.toNat l, imm := immOff s, size := 16, kind := 0, watch := [0] }
        match memCheck s o [l] with
        | .trap t => takeTrap t s
        | .walk va => walkStall va 0 s
        | .go run parked =>
          let waiting := pathWaits s (placeOf s.grp b.toNat) run
          match parked with
          | (_, pg) :: _ => parkPath 0 pg s
          | [] =>
            if waiting ≠ 0 then parkTasks waiting s
            else if pathMeets s 16 run then stallOn .token s else
            let pl := placeOf s.grp b.toNat
            let (bs, s') := match run with
              | (a, p) :: _ => laneLoad pl (scopeOf s b.toNat) (evcOf s) a.lane p 16 (pathReads pl p (sampled pl run s))
              | [] => (List.replicate 16 0, s)
            let r := BitVec.ofNat 128 (ofBytes bs)
            if (recOfBits r).invalid then trapOwn cIllegalOperand s else finish (s'.setG (setB n.toNat r))) s)

/-- The record in four S registers. -/
def recordOfS (s : State) (a : Nat) : BitVec 128 :=
  BitVec.ofNat 128 ((getS s.grp a).toNat + 2 ^ 32 * (getS s.grp (a + 1)).toNat + 2 ^ 64 * (getS s.grp (a + 2)).toNat
    + 2 ^ 96 * (getS s.grp (a + 3)).toNat)

/-- `BSET` (R216, R228): an invalid record traps after the checks of R52, since R224 ranks a class 11 word's own trap there. -/
def execBset (n : BitVec 5) (a : BitVec 6) (s : State) : Host.Outcome State Fault Refusal :=
  let k := a.toNat
  .next (word
    { regs := (((List.range 4).map fun i => k + i).filter fun r => decide (r < 64)).map Reg.s }
    (fun s => if fixedRecord n || decide (k > 60) || (recOfBits (recordOfS s k)).invalid then trapOwn cIllegalOperand s
      else finish (s.setG (setB n.toNat (recordOfS s k)))) s)

/-! ### `SLDC` and `SLDLIT` -/

/-- The whole path parks, or a tile-program thread stalls on the word until its page is named (R282). Both wait as one hem
entry. -/
def parkWord (kind page : Nat) (s : State) : State := parkPath kind page s

/-- What `SLDC` needs (R282). -/
def sldcNeed (s : State) (d a : BitVec 6) (n : BitVec 5) : Need :=
  { scalarNeed [d.toNat, a.toNat] true with
    varlat := true
    group := true
    hints := { imm := true, evc := true }
    operandBad := decide (s.grp.kind = .bobbin) && decide (n ≠ 0) }

/-- What `SLDC` adds to its index (R282): `IMM5` unsigned, or the effective immediate with `XIMM` (R46). -/
def sldcImm (h : Hints) (i : BitVec 5) : Int :=
  match h.imm with
  | some _ => (effImm h 5 false i).toInt
  | none => i.toNat

/-- A step of the index as a byte offset (R213). -/
def indexBytes (r : BufRec) (n : Int) : Int := if r.stride ≠ 0 then n * r.stride else n

/-- The path waits for an absent page: it parks whole, or stalls on the word where it has no lane to park. -/
def pathAbsent (kind va : Nat) (s : State) : State :=
  if active s = 0 then stallOn .page (reportPage s.grp.ctx va kind (s.setG fun g => { g with walks := [] })) else parkWord kind va s

/-- `SLDC` (R282): one access for the group, whatever the mask (R41, R269). Its lane is the lowest active one. -/
def execSldc (d a : BitVec 6) (n i : BitVec 5) (s : State) : Host.Outcome State Fault Refusal :=
  .next (word (sldcNeed s d a n) (fun s =>
    let l := (lowLane (active s)).getD 0
    let pl := placeOf s.grp n.toNat
    let o : MemOp := { buf := n.toNat, idx := fun _ => getS s.grp a.toNat, imm := indexBytes (bufOf s n.toNat l) (sldcImm (curHints s) i), size := 4, kind := 0, watch := [0] }
    match memCheck s o [l] with
    | .trap t => takeTrap { t with mask := active s } s
    | .walk va => walkStall va 0 s
    | .go run parked =>
      match parked with
      | (_, pg) :: _ => pathAbsent 0 pg s
      | [] => match run with
        | (_, p) :: _ =>
          let waiting := pathWaits s pl run
          if waiting ≠ 0 then parkTasks waiting s
          else if pathMeets s 4 run then stallOn .token s
          else
            let s := pathReads pl p (sampled pl run s)
            let s := (lanes (active s)).foldl (fun s k => drainOwn s.grp.uid k (lineOf (taskKey s.grp pl p)) s) s
            if defers s l then
              finish (raiseOp [.s d.toNat] [] []
                [{ place := pl, lane := l, addr := p, size := 4, scope := scopeOf s n.toNat, evc := evcOf s, reg := .s d.toNat }] s)
            else
              let (bs, s) := laneLoad pl (scopeOf s n.toNat) (evcOf s) l p 4 s
              finish (raiseOp [.s d.toNat] [{ reg := .s d.toNat, lane := 0, val := wordOf bs }] [] [] s)
        | [] => finish (raiseOp [.s d.toNat] [{ reg := .s d.toNat, lane := 0, val := 0 }] [] [] s)) s)

/-- `SLDLIT` (R48, R283): a word of the code object, whose layout residual code does not change (R186). -/
def execSldlit (d : BitVec 6) (i : BitVec 16) (s : State) : Host.Outcome State Fault Refusal :=
  .next (word (scalarNeed [d.toNat] true) (fun s =>
    let t : Int := (topcOf s.grp (curPc s) : Int) + 4 * (effImm (curHints s) 16 true i).toInt
    let bounds : TrapReq := { cause := cBounds, mask := active s, addr := (BitVec.ofInt 64 t).toNat }
    if t < 0 then takeTrap bounds s
    else match readOriginal s s.grp t.toNat with
      | .beyond => takeTrap bounds s
      | .word w => finish (s.setG (setS d.toNat w))
      | .trans va .miss => walkStall va 2 s
      | .trans va .absent => parkPath 2 va s
      | .trans va tr => takeTrap { cause := cProtection, mask := active s, addr := va, info := refusedInfo tr } s) s)

end Sys2Proof.Machine
end

