-- ==== Sys2Proof/Machine/Atomics.lean ====
section
/-!
DEFINITION. Class 12: atomics (R229 to R231), copies and batches (R232, R233), fences (R235, R236) and ordered append (R237).
-/

namespace Sys2Proof.Machine

/-- The operand field `DV` of an atomic names a V register: the old value is returned (R229). -/
def returning (d : BitVec 8) : Bool := decide (d.toNat ≤ 0xDF)

/-- `DV` is legal (R229): a V register below VREGS, or an operand code; `IMM` takes its value only from `XIMMF`. -/
def atomicDvOk (s : State) (d : BitVec 8) : Bool :=
  if d.toNat = 0xFC then (curHints s).immf.isSome else srcOk s false 1 d.toNat

/-- What an atomic word needs. -/
def atomicNeed (s : State) (d x : BitVec 8) : Need :=
  { varlat := returning d
    walk := false
    hints := { imm := true, immf := decide (d.toNat = 0xFC), scl := decide (d.toNat = 0xFD), evc := true, both := true }
    operandBad := !plainV s 1 x.toNat || !atomicDvOk s d
    regs := .v x.toNat :: codeRegs s 1 d.toNat }

/-- The reason of R200 for an atomic wider than the workgroup. -/
def atomicDet (s : State) (op : AtomicOp) (n : BitVec 5) (ret : Bool) (scope : BitVec 2) : Option Nat :=
  if (ctxOf s).det = false ∨ scope = 0 ∨ placeOf s.grp n.toNat ≠ .mem then none
  else match op with
    | .fadd => some 2
    | .cas => some 3
    | .xchg => some (if ret then 1 else 3)
    | _ => if ret then some 1 else none

/-- One lane's atomic (R217, R230), after the loads of its thread there (R220): the old value, and the state. One that returns nothing may be
performed later (R229). -/
def laneAtomic (op : AtomicOp) (pl : Place) (scope evc lane p : Nat) (ret : Bool) (x y : Word) (s : State) : Word × State :=
  let s := performAt s.grp.uid lane pl (lineOf p) s
  let g := s.grp
  if ret || (ctxOf s).det || evc == 3 then placeAtomic g op pl scope evc lane p x y s
  else
    (0, { s with stores := s.stores ++ [{ grp := g.uid, lane := lane, addr := taskKey g pl p, bytes := [], op := some op, operand := x
                                          scope := (match pl with | .mem => scope | .scratch => 0 | .window => 2), evc := evc
                                          peer := if pl = .mem then peerOf p else none }] })

/-- The atomics of the lanes in ascending order: the old values. -/
def atomicRun (op : AtomicOp) (pl : Place) (scope evc : Nat) (ret : Bool) (x y : Nat → Word) :
    List (Access × Nat) → State → List (Nat × Word) × State
  | [], s => ([], s)
  | (a, p) :: r, s =>
    let (old, s) := laneAtomic op pl scope evc a.lane p ret (x a.lane) (y a.lane) s
    let (l, s) := atomicRun op pl scope evc ret x y r s
    ((a.lane, old) :: l, s)

/-- The returning atomics of the lanes that are performed later (R250). -/
def atomicsLater (op : AtomicOp) (pl : Place) (scope evc d : Nat) (x y : Nat → Word) (run : List (Access × Nat)) : List PLoad :=
  run.map fun q => { place := pl, lane := q.1.lane, addr := q.2, size := 4, scope := scope, evc := evc, reg := .v d
                     how := .atomic op (x q.1.lane) (y q.1.lane) }

/-- An atomic word (R229 to R231); `extra`: what `ACAS` needs beside, which traps as its own `ILLEGAL_OPERAND` (R224). -/
def atomicWord (op : AtomicOp) (n : BitVec 5) (d x : BitVec 8) (p : BitVec 2) (extra : Bool) (s : State) : State :=
  let need := atomicNeed s d x
  word { need with
      regs := need.regs ++ (if extra then [.v (d.toNat + 1)] else []) } (fun s =>
    let pl := placeOf s.grp n.toNat
    let o : MemOp := { buf := n.toNat, idx := fun l => getV s.grp x.toNat l, imm := immOff s, size := 4, kind := 1, stores := true,
                       det := atomicDet s op n (returning d) p, watch := if returning d then [0, 1] else [1] }
    if extra && (!returning d || decide (d.toNat + 1 ≥ s.grp.code.vregs)) then trapOwn cIllegalOperand s
    else if anySpec s then parkTasks (specLanes (active s) s) s
    else memWord o true (fun run parked s' =>
      let x := fun l => srcWord s d.toNat 0 l
      let y := fun l => getV s.grp (d.toNat + 1) l
      let later := fun (q : Access × Nat) => returning d && defers s q.1.lane
      let (olds, s'') := atomicRun op pl p.toNat (evcOf s) (returning d) x y (run.filter fun q => !later q) s'
      if returning d then
        let ws := olds.flatMap fun q => laneWrites d.toNat q.1 [q.2]
        let zs := (clampLanes s run parked).flatMap fun l => laneWrites d.toNat l [0]
        loadFinish 1 d.toNat 1 ws zs parked (curPos s) s'' (atomicsLater op pl p.toNat (evcOf s) d.toNat x y (run.filter later))
      else afterPark (parkLanes 1 (curPos s) [] parked s'')) s) s

/-- `AADD` (R230). -/
def execAadd (n : BitVec 5) (d x : BitVec 8) (p : BitVec 2) (s : State) : Host.Outcome State Fault Refusal := .next (atomicWord .add n d x p false s)
/-- `AMIN` (R230). -/
def execAmin (n : BitVec 5) (d x : BitVec 8) (p : BitVec 2) (s : State) : Host.Outcome State Fault Refusal := .next (atomicWord .min n d x p false s)
/-- `AMAX` (R230). -/
def execAmax (n : BitVec 5) (d x : BitVec 8) (p : BitVec 2) (s : State) : Host.Outcome State Fault Refusal := .next (atomicWord .max n d x p false s)
/-- `AUMIN` (R230). -/
def execAumin (n : BitVec 5) (d x : BitVec 8) (p : BitVec 2) (s : State) : Host.Outcome State Fault Refusal := .next (atomicWord .umin n d x p false s)
/-- `AUMAX` (R230). -/
def execAumax (n : BitVec 5) (d x : BitVec 8) (p : BitVec 2) (s : State) : Host.Outcome State Fault Refusal := .next (atomicWord .umax n d x p false s)
/-- `AAND` (R230). -/
def execAand (n : BitVec 5) (d x : BitVec 8) (p : BitVec 2) (s : State) : Host.Outcome State Fault Refusal := .next (atomicWord .and n d x p false s)
/-- `AOR` (R230). -/
def execAor (n : BitVec 5) (d x : BitVec 8) (p : BitVec 2) (s : State) : Host.Outcome State Fault Refusal := .next (atomicWord .or n d x p false s)
/-- `AXOR` (R230). -/
def execAxor (n : BitVec 5) (d x : BitVec 8) (p : BitVec 2) (s : State) : Host.Outcome State Fault Refusal := .next (atomicWord .xor n d x p false s)
/-- `AXCHG` (R230). -/
def execAxchg (n : BitVec 5) (d x : BitVec 8) (p : BitVec 2) (s : State) : Host.Outcome State Fault Refusal := .next (atomicWord .xchg n d x p false s)
/-- `ACAS` (R231). -/
def execAcas (n : BitVec 5) (d x : BitVec 8) (p : BitVec 2) (s : State) : Host.Outcome State Fault Refusal := .next (atomicWord .cas n d x p true s)
/-- `AFADD` (R230). -/
def execAfadd (n : BitVec 5) (d x : BitVec 8) (p : BitVec 2) (s : State) : Host.Outcome State Fault Refusal := .next (atomicWord .fadd n d x p false s)

/-! ### Copies -/

/-- What a word that only vector groups accept needs, with no hint. -/
def vectorNeed (regs : List Reg) (bad : Bool) : Need :=
  { walk := false, hand := false, operandBad := bad, regs := regs }

/-- A token S register becomes pending with its work (R41); it tells of no earlier copy any more (R245). -/
def startToken (r : Nat) (w : TokenWork) (s : State) : State :=
  s.setG fun g =>
    { g with
      tokens := g.tokens ++ [{ sreg := r, work := w, lanes := active s, pc := curPc s }]
      copies := g.copies.map fun c => if c.sreg = some r then { c with sreg := none } else c }

/-- The traps of `COPY` (R232) in the order of R224. -/
def copyTrap (s : State) (d c : BitVec 5) (si di n : Word) : Option TrapReq :=
  let low := (lowLane (active s)).getD 0
  let src := bufOf s c.toNat low
  let dst := bufOf s d.toNat low
  let a := accOf src n.toNat 0 0 si
  let b := accOf dst n.toNat 0 0 di
  let m := active s
  let off := fun (r : BufRec) (x : Access) => decide (((r.base : Int) + x.off) % 4 ≠ 0)
  if n.toNat % 4 ≠ 0 then some { cause := cMisaligned, mask := m, addr := a.va }
  else if off src a || (decide (src.swz ≠ 0) && decide (a.off % 16 + n.toNat > 16)) then some { cause := cMisaligned, mask := m, addr := a.va }
  else if off dst b || (decide (dst.swz ≠ 0) && decide (b.off % 16 + n.toNat > 16)) then some { cause := cMisaligned, mask := m, addr := b.va }
  else if !a.inb && !src.clamp then some { cause := cBounds, mask := m, addr := a.off.toNat }
  else if !b.inb && !dst.clamp then some { cause := cBounds, mask := m, addr := b.off.toNat }
  else if dst.ro || dst.konst then some { cause := cProtection, mask := m, addr := b.va }
  else none

/-- The record that a copy captures: of `B30` the window of the lowest active lane, as for the checks (log entry 81). -/
def copyBits (s : State) (n : Nat) : BitVec 128 :=
  match placeOf s.grp n with
  | .window => BitVec.ofNat 128 ((bufOf s n ((lowLane (active s)).getD 0)).base % 2 ^ 57 + 16384 * 2 ^ 64)
  | _ => getB s.grp n

/-- `COPY` (R232). `c` is `Bsrc`, `d` is `Bdst`. -/
def execCopy (c d : BitVec 5) (k a : BitVec 6) (s : State) : Host.Outcome State Fault Refusal :=
  let r := a.toNat
  .next (word
    { vectorNeed [.s r, .s (r + 1), .s (r + 2), .s k.toNat] false with hints := { evc := true, scp := true } }
    (fun s =>
      let si := getS s.grp r
      let di := getS s.grp (r + 1)
      let n := getS s.grp (r + 2)
      if active s = 0 then finish (s.setG (setS k.toNat 0))
      else if r > 61 ∨ n.toNat > 16777216 then trapOwn cIllegalOperand s
      else match copyTrap s d c si di n with
        | some t => takeTrap t s
        | none =>
          if n = 0 then finish (s.setG (setS k.toNat 0))
          else if anySpec s then parkTasks (specLanes (active s) s) s
          else if visqPending s.grp s.grp.exist then stallOn .token s
          else
            let sc := match (curHints s).scp with
              | some p => p.toNat
              | none => (bufOf s d.toNat 0).scope
            let s := releaseLanes s.grp.uid s.grp.exist true s
            let full := fun (q : BitVec 5) => placeOf s.grp q.toNat == .scratch
            let bits := fun (q : BitVec 5) => copyBits s q.toNat
            finish (startToken k.toNat
              (.copy (bits c) (bits d) (full c) (full d) si.toNat di.toNat n.toNat sc (evcOf s) (s.grp.sealed + 1)) s)) s)

/-- `SEAL` (R233): the batch takes the copies issued since the previous one. -/
def execSealBatch (d : BitVec 6) (s : State) : Host.Outcome State Fault Refusal :=
  .next (word (vectorNeed [.s d.toNat] false) (fun s =>
    finish (s.setG fun g => setS d.toNat (BitVec.ofNat 32 (g.sealed + 1)) { g with sealed := g.sealed + 1 })) s)

/-- `WAITB` (R233): the group observes the copies of the batches (R245). -/
def execWaitb (a : BitVec 6) (s : State) : Host.Outcome State Fault Refusal :=
  .next (word (vectorNeed [.s a.toNat] false)
    (fun s =>
      if (getS s.grp a.toNat).toNat > s.grp.sealed then trapOwn cIllegalOperand s
      else if batchesDone s.grp (getS s.grp a.toNat).toNat then
        finish (s.setG (seeCopies fun c => decide (c.batch ≤ (getS s.grp a.toNat).toNat)))
      else stallOn .batch s) s)

/-! ### Fences -/

/-- `FENCE` (R235, R236). An acquire performs the loads and returning atomics of its lanes. -/
def execFence (k : BitVec 2) (p : BitVec 3) (s : State) : Host.Outcome State Fault Refusal :=
  .next (word {} (fun s =>
    if active s = 0 then finish s
    else if visqPending s.grp (active s) then stallOn .token s
    else if k = 1 then finish (performLanes s.grp.uid (active s) s)
    else if p.toNat ≤ 1 then finish (releaseLanes s.grp.uid (active s) false s)
    else
      let s := releaseLanes s.grp.uid (active s) true s
      if releaseDone s.grp (active s) s.time then finish s else stallOn .fence s) s)

/-! ### Ordered append (R201, R202, R237) -/

/-- The key of a workgroup among those of its grid (R202, R203): its generation, its `GID`, its side. -/
def wgKey (w : Workgroup) : Nat := w.gen * 2 ^ 33 + 2 * w.gid + w.side

/-- The keys of the workgroups of one generation and number: both sides of a pair. Groups formed from bins are no pairs (log entry 94). -/
def keysOf (g : Grid) (gen gid : Nat) : List Nat :=
  let k := gen * 2 ^ 33 + 2 * gid
  if g.launch.pair && decide (gen = 0) then [k, k + 1] else [k]

/-- A workgroup runs again for a task that was aborted (R205), or waits to. -/
def rerunning (s : State) (g : Grid) (key : Nat) : Bool :=
  (g.waiting.any fun f => f.again && decide (2 * f.gid + f.side = key))
    || s.wgs.any fun w => decide (w.grid = g.uid) && w.again && decide (wgKey w = key)

/-- The groups of a generation: the grid's own workgroups or those that its queue has formed, and those formed from bins. -/
def genCount (g : Grid) (gen : Nat) : Nat :=
  if gen ≠ 0 then sget 0 gen g.formedGen
  else if g.launch.queued then g.formed
  else g.launch.gx * g.launch.gy * g.launch.gz

/-- A workgroup has claimed the unit, or has retired and does not run again. -/
def claimDone (s : State) (g : Grid) (unit key : Nat) : Bool := g.claims.contains (unit, key) || (g.retired.contains key && !rerunning s g key)

/-- A workgroup has made its claim on the unit, or waits with it (R202): of its `GID` another workgroup may run again for a task (R205). -/
def hasClaimed (s : State) (w : Workgroup) (unit : Nat) : Bool :=
  (((findGrid w.grid s).map fun g => g.claims.contains (unit, wgKey w)).getD false)
    || s.wgs.any fun v => decide (v.grid = w.grid) && decide (wgKey v = wgKey w) && v.claimed.contains unit

/-- Every workgroup that goes before one has claimed the unit or retired (R202): those of lower `GID`. Groups formed from bins come after
every workgroup of an earlier generation, and side U of a pair after side C (log entry 78). -/
def lowerDone (s : State) (g : Grid) (unit : Nat) (w : Workgroup) : Bool :=
  ((List.range w.gen).all fun n => (List.range (genCount g n)).all fun i => (keysOf g n i).all (claimDone s g unit))
    && ((List.range w.gid).all fun i => (keysOf g w.gen i).all (claimDone s g unit))
    && (decide (w.side = 0) || claimDone s g unit (w.gen * 2 ^ 33 + 2 * w.gid))

/-- The slots of a claim in ascending lane order, and the counter after it (R201). -/
def claimSlots (count : Nat → Word) : List Nat → Nat → List (Nat × Word) × Nat
  | [], c => ([], c)
  | l :: ls, c =>
    let (r, e) := claimSlots count ls ((c + (count l).toNat) % 2 ^ 32)
    ((l, BitVec.ofNat 32 c) :: r, e)

/-- The claim of a workgroup is recorded (R202). -/
def recordClaim (unit : Nat) (s : State) : State :=
  let w := wgOf s
  let s := updGrid w.grid (fun g => { g with claims := if g.claims.contains (unit, wgKey w) then g.claims else g.claims ++ [(unit, wgKey w)] }) s
  updWg w.uid (fun w => { w with claimed := if w.claimed.contains unit then w.claimed else w.claimed ++ [unit] }) s

/-- The granted claim's effect. -/
def grantClaim (u : BitVec 5) (d x : BitVec 8) (s : State) : State :=
  let c := sget 0 u.toNat (gridOf s).units
  let (slots, c') := claimSlots (fun l => getV s.grp x.toNat l) (lanes (active s)) c
  let s := updGrid (wgOf s).grid (fun g => { g with units := sput 0 u.toNat c' g.units }) s
  finish (writeResult d.toNat 1 (fun l => [((slots.find? fun p => p.1 = l).map fun p => p.2).getD 0]) s)

/-- `APPEND` (R237). In a deterministic context a word's first issue is the workgroup's claim on the unit: while it waits
for the lower workgroups it has been noted in `claimed`, and its grant enters the grid's claims. -/
def execAppend (u : BitVec 5) (d x : BitVec 8) (s : State) : Host.Outcome State Fault Refusal :=
  .next (word (vectorNeed [.v d.toNat, .v x.toNat] (!plainV s 1 d.toNat || !plainV s 1 x.toNat)) (fun s =>
    if (ctxOf s).det then
      let w := wgOf s
      let waiting := decide (s.grp.stall = .append)
      if hasClaimed s w u.toNat && !waiting then takeTrap { cause := cDetViolation, mask := active s, info := 5 } s
      else if anySpec s then parkTasks (specLanes (active s) s) s
      else if active s = 0 then finish (writeResult d.toNat 1 (fun _ => [0]) (recordClaim u.toNat s))
      else
        let s := updWg w.uid (fun w => { w with claimed := if w.claimed.contains u.toNat then w.claimed else w.claimed ++ [u.toNat] }) s
        if lowerDone s (gridOf s) u.toNat w then grantClaim u d x (recordClaim u.toNat s)
        else stallOn .append (s.setG fun g => { g with held := some (.claim u d x) })
    else grantClaim u d x s) s)

end Sys2Proof.Machine
end

