-- ==== Sys2Proof/Machine/Forming.lean ====
section
/-!
DEFINITION. Groups that form from queues and bins (R30, R31, R203, R204, R258), and the retirement of workgroups and grids (R33).
-/

namespace Sys2Proof.Machine

/-! ### Forming groups (R30, R31, R203) -/

/-- The order of an ordered queue (R204). -/
def entryBefore (a b : QEntry) : Bool := decide (a.ts < b.ts) || (decide (a.ts = b.ts) && decide (a.payload.toNat ≤ b.payload.toNat))

/-- An entry in its place of an ordered queue. -/
def insertEntry (e : QEntry) : List QEntry → List QEntry
  | [] => [e]
  | f :: r => if entryBefore f e then f :: insertEntry e r else e :: f :: r

def pushEntry (det : Bool) (e : QEntry) (q : Queue) : Queue :=
  { q with entries := if det then insertEntry e q.entries else q.entries ++ [e] }

/-- A binding takes the first entries of its queue for a group (R30, R258). -/
def takeGroup (det : Bool) (g : Grid) (q : Queue) : Grid × Queue :=
  let es := q.entries.take g.launch.width
  ({ g with
      formed := g.formed + 1
      waiting := g.waiting ++ [{ gid := g.formed, gen := 0, start := none, vals := es.map fun e => e.payload,
                                 ts := if det then es.map fun e => e.ts else [] }] },
   { q with entries := q.entries.drop g.launch.width })

/-- Groups form while the queue holds a group width of entries. -/
def takeGroups (det : Bool) : Nat → Grid → Queue → Grid × Queue
  | 0, g, q => (g, q)
  | fuel + 1, g, q =>
    if g.launch.width ≤ q.entries.length ∧ 0 < g.launch.width then let (g, q) := takeGroup det g q; takeGroups det fuel g q else (g, q)

/-- The bytes of an entry in a device queue's storage (R310): the payload, and the timestamp in a deterministic context. -/
def entryBytes (det : Bool) (payload : Word) (ts : Nat) : List Byte :=
  toBytes 4 payload.toNat ++ if det then toBytes 4 ts else []

/-- The virtual address of a place of a queue's storage. -/
def Queue.place (q : Queue) (slot : Nat) : Nat := q.base + 8 * slot

/-- The core that a context's queues and launches are served from. -/
def queueCore (s : State) (q : Queue) : Nat := partCore s ((findCtx q.ctx s).getD {})

/-- An entry's bytes in storage are no longer those of its push: a program has stored there (R310). -/
def tampered (s : State) (q : Queue) (e : QEntry) : Bool :=
  let det := ((findCtx q.ctx s).getD {}).det
  match agentTranslate s (queueCore s q) q.ctx (q.place e.slot) 0 with
  | .ok a => decide (homeBytes s a (entryBytes det e.payload e.ts).length ≠ entryBytes det e.payload e.ts)
  | _ => false

/-- The queue as the front end finds it: once a program has stored to the storage of a device queue, its entries are undefined (R310), so
each payload and timestamp is a free value. -/
def readQueue (q : Queue) (s : State) : Queue × State :=
  if q.entries.any (tampered s q) then
    ({ q with entries := (indexed s.free q.entries).map fun p =>
        { p.2 with payload := Config.freeValue (2 * p.1), ts := (Config.freeValue (2 * p.1 + 1)).toNat } },
      { s with free := 2 * (s.free + q.entries.length) })
  else (q, s)

/-- The binding of a queue, and the state with both changed. -/
def formQueue (f : Bool → Grid → Queue → Grid × Queue) (qn : Nat) (s : State) : State :=
  match findQueue qn s with
  | none => s
  | some q => match q.bound.bind fun u => findGrid u s with
    | none => s
    | some g =>
      let (q, s) := readQueue q s
      let (g', q') := f ((findCtx q.ctx s).getD {}).det g q
      updQueue qn (fun _ => q') (updGrid g.uid (fun _ => g') s)

/-- The lowest places of a queue's storage that no entry holds, at most `n`. -/
def freePlaces (q : Queue) (n : Nat) : List Nat :=
  ((List.range (q.entries.length + n)).filter fun k => !(q.entries.any fun e => decide (e.slot = k))).take n

/-- The translation that `n` more entries wait for: of a place of the storage whose page is not at hand (R310). -/
def queueWaits (s : State) (q : Queue) (n : Nat) : Option (Nat × Trans) :=
  (freePlaces q n).findSome? fun k =>
    match agentTranslate s (queueCore s q) q.ctx (q.place k) 1 with
    | .miss => some (q.place k, .miss)
    | .absent => some (q.place k, .absent)
    | _ => none

/-- An entry enters a device queue and its storage (R258, R310). -/
def enterQueue (qn : Nat) (payload : Word) (ts : Nat) (s : State) : State :=
  match findQueue qn s with
  | none => s
  | some q =>
    let det := ((findCtx q.ctx s).getD {}).det
    let k := (freePlaces q 1).headD 0
    let s := match agentWrite (queueCore s q) q.ctx (q.place k) (entryBytes det payload ts) s with
      | .ok s => s
      | .error _ => s
    updQueue qn (pushEntry det { payload := payload, ts := if det then ts else 0, time := s.time, slot := k }) s

/-- `GROUP_FORM` (R30). -/
def queueForm (qn : Nat) (s : State) : State := formQueue (fun det g q => takeGroups det (q.entries.length + 1) g q) qn s

/-- Entries enter the bin of a target, which opens if need be. -/
def addToBin (target : Nat) (es : List BinEntry) (g : Grid) : Grid :=
  if g.bins.any fun b => b.target = target then
    { g with bins := g.bins.map fun b => if b.target = target then { b with entries := b.entries ++ es } else b }
  else { g with bins := g.bins ++ [{ target := target, entries := es }] }

/-- A bin's group from some entries, which leave the bin (R31). Its `GID` counts the groups of its generation that bins have formed (R203).
Outside deterministic mode no rule gives the `GID`, and the model counts in the same way (log entry 77). -/
def binGroup (gen target : Nat) (es : List BinEntry) (g : Grid) : Grid :=
  let gid := sget 0 gen g.formedGen
  { g with
    formedGen := sput 0 gen (gid + 1) g.formedGen
    waiting := g.waiting ++ [{ gid := gid, gen := gen, start := some target, vals := es.map fun e => e.val }]
    bins := g.bins.map fun b =>
      if b.target = target then
        { b with entries := b.entries.filter (fun e => !(es.any fun d => decide (d.id = e.id))), formed := b.formed + 1 }
      else b }

/-- The generation of a group from some entries (R203). -/
def nextGen (es : List BinEntry) : Nat := es.foldl (fun n e => max n e.gen) 0 + 1

/-- A group width of a bin's entries forms a group outside deterministic mode; `all`: a shorter group may form. -/
def binForm (all : Bool) (target : Nat) : Nat → Grid → Grid
  | 0, g => g
  | fuel + 1, g =>
    match g.bins.find? fun b => b.target = target with
    | none => g
    | some b =>
      if (g.launch.width ≤ b.entries.length ∧ 0 < g.launch.width) ∨ (all = true ∧ b.entries ≠ []) then
        let es := b.entries.take g.launch.width
        binForm false target fuel (binGroup (nextGen es) target es g)
      else g

/-- The order of keys (R203): generation, `GID`, round, group index, lane; of the two sides of a pair side C goes first (log entry 78). -/
def keyBefore (a b : BinEntry) : Bool :=
  if a.gen ≠ b.gen then decide (a.gen < b.gen)
  else if a.gid ≠ b.gid then decide (a.gid < b.gid)
  else if a.round ≠ b.round then decide (a.round < b.round)
  else if a.gidx ≠ b.gidx then decide (a.gidx < b.gidx)
  else if a.lane ≠ b.lane then decide (a.lane < b.lane)
  else decide (a.side ≤ b.side)

def insertKey (e : BinEntry) : List BinEntry → List BinEntry
  | [] => [e]
  | f :: r => if keyBefore f e then f :: insertKey e r else e :: f :: r

def sortKeys (l : List BinEntry) : List BinEntry := l.foldl (fun r e => insertKey e r) []

/-- A group of the queue's own, by `GID`, has tasks that have not committed: what they have made for bins enters at their commit, and they may
run again (R205). -/
def unsettled (s : State) (g : Grid) (gid : Nat) : Bool :=
  (s.tasks.any fun t => decide (t.grid = g.uid) && decide (t.gid = gid)) || (keysOf g 0 gid).any (rerunning s g)

/-- An entry is known (R203). -/
def known (s : State) (g : Grid) (e : BinEntry) : Bool :=
  (List.range (e.gid + 1)).all fun i =>
    (keysOf g e.gen i).all (fun k => g.retired.contains k) && !(decide (e.gen = 0) && unsettled s g i)

/-- The queue of a binding is closed and empty, and none of its tasks can run again (R205, R260). -/
def queueDry (s : State) (g : Grid) : Bool :=
  !g.launch.queued || ((match findQueue g.launch.queue s with
    | some q => q.closed && q.entries.isEmpty
    | none => true) && !(s.tasks.any fun t => decide (t.grid = g.uid)))

/-- No group of a grid can still add to a bin. -/
def noAdder (s : State) (g : Grid) : Bool :=
  g.waiting.isEmpty && g.ranges.all (fun r => decide (r.2.2 ≤ r.2.1)) && !(s.wgs.any fun w => decide (w.grid = g.uid)) && queueDry s g

/-- The next group of a deterministic bin (R203): a full one from its lowest-keyed entries when all of them are known, or the final shorter
one. -/
def detTake (s : State) (last : Bool) (g : Grid) (b : Bin) : Option (List BinEntry) :=
  let es := (sortKeys b.entries).take g.launch.width
  if es.all (known s g) && ((decide (g.launch.width ≤ es.length) && decide (0 < g.launch.width)) || (last && !es.isEmpty)) then some es else none

/-- A bin's group is completed by its last entry: the group whose last entry has the lowest generation and `GID` forms first, and between two
such the one of the lower target (R203, log entry 78). -/
def formsFirst (a b : Nat × List BinEntry) : Bool :=
  match a.2.getLast?, b.2.getLast? with
  | some x, some y =>
    if x.gen ≠ y.gen then decide (x.gen < y.gen)
    else if x.gid ≠ y.gid then decide (x.gid < y.gid)
    else decide (a.1 < b.1)
  | _, _ => false

/-- The groups of deterministic bins, one by one. -/
def detBins (s : State) (last : Bool) : Nat → Grid → Grid
  | 0, g => g
  | fuel + 1, g =>
    let ready := g.bins.filterMap fun b => (detTake s last g b).map fun es => (b.target, es)
    match ready.foldl (fun m x => match m with
        | none => some x
        | some y => if formsFirst x y then some x else some y) none with
    | none => g
    | some (target, es) => detBins s false fuel (binGroup (nextGen es) target es g)

/-- `DET_BIN_FORM` (R203). -/
def detBinForm (grid : Nat) (s : State) : State :=
  match findGrid grid s with
  | none => s
  | some g =>
    let n := (g.bins.map fun b => b.entries.length + 1).foldl (· + ·) 0
    updGrid grid (fun _ => detBins s (noAdder s g) n g) s

/-! ### Retirement (R33) -/

/-- An entry is an operation of a workgroup: of each side that its thread gave it, so a lone entry is none of the absent side's (R143). -/
def PEntry.isOf (e : PEntry) (wg : Nat) : Bool := (e.hasC && decide (e.wgC = wg)) || (e.hasU && decide (e.wgU = wg))

/-- A workgroup whose groups, children, tile-program thread and entries are done. -/
def wgDone (s : State) (w : Workgroup) : Bool :=
  (groupsOfWg w.uid s).isEmpty && decide (w.children = 0)
    && (w.bobGone || !(allGroups s).any fun g => decide (g.wg = w.uid) && decide (g.kind = .bobbin))
    && !(s.pattern.any fun e => e.isOf w.uid)

/-- A grid with nothing left to run (R33, R260). -/
def gridDone (s : State) (g : Grid) : Bool := noAdder s g && g.bins.all fun b => b.entries.isEmpty

/-- The grid's retirement is noted (R33, R255), and its reservation is free (R261). -/
def gridCheck (grid : Nat) (s : State) : State :=
  match findGrid grid s with
  | none => s
  | some g => if gridDone s g && g.ended.isNone then updGrid grid (fun g => { g with ended := some s.time, reserve := [] }) s else s

/-- The last bins of a deterministic grid may form (R203), or it retires. -/
def gridEnd (grid : Nat) (s : State) : State :=
  let det := ((findGrid grid s).bind fun g => findCtx g.ctx s).map fun x => x.det
  gridCheck grid (if det.getD false then detBinForm grid s else s)

/-- A workgroup retires: what it held is free, its number has retired (R202, R203), bins may form, its grid may retire. -/
def retireWg (w : Workgroup) (s : State) : State :=
  let s := dropGroups (fun g => decide (g.wg = w.uid) && decide (g.kind = .bobbin)) s
  let s := { s with wgs := s.wgs.filter fun x => decide (x.uid ≠ w.uid) }
  let s := updCtx w.ctx (fun x => { x with winUsed := x.winUsed.filter fun j => !w.wins.contains j }) s
  let s := updGrid w.grid (fun g =>
    { g with wgDone := if w.again then g.wgDone else g.wgDone + 1, retired := if g.retired.contains (wgKey w) then g.retired else g.retired ++ [wgKey w] }) s
  gridEnd w.grid s

def retireCheck (wg : Nat) (s : State) : State :=
  match findWg wg s with
  | none => s
  | some w => if wgDone s w then retireWg w s else s

end Sys2Proof.Machine
end

