-- ==== Sys2Proof/Machine/Control.lean ====
section
/-!
DEFINITION. Class 13: branches and calls (R287 to R291), landing pads (R49), joins and barriers (R292 to R295), `EXIT`, `YIELD`,
`SPAWN`, `CHWAIT` (R296 to R299), `TRAP`, `ENTER` and `LEAVE` (R332, R334).
-/

namespace Sys2Proof.Machine

/-! ### Leaving a clause -/

/-- The issuing path ends its clause: its lanes form the listed entries (R287), joins are looked at, the turn ends. -/
def leaveTo (es : List FEntry) (s : State) : State :=
  match s.grp.act with
  | none => s
  | some _ =>
    let g := es.foldl (fun g e => addEntry e g) { s.grp with act := none, resv := [], arming := [] }
    nextTurn g { s with grp := joinCheck g }

/-- A control-transfer word completes (R43): the entries its lanes form, then a step may end (R328). -/
def transfer (es : List FEntry) (s : State) : State := stepCheck (curPc s) (active s) (leaveTo es (settle s))

/-- The selected lanes go to a target, the others fall through (R287). -/
def branchParts (s : State) (sel : DWord) (t : Nat) : List FEntry :=
  [{ pc := t, mask := active s &&& sel }, { pc := curPc s + 4, mask := active s &&& ~~~sel }]

/-- A transfer whose check of a target cannot read a code word: it waits for the walker, its path parks on an absent page (R323), or, since
no transfer goes to what is not known to be a header (R40), a page that refuses fetches traps `PROTECTION` at the transfer (log entry 12). -/
def unreadTarget (w : Nat × Trans) (s : State) : State :=
  match w.2 with
  | .miss => walkStall w.1 2 s
  | .absent => parkPath 2 w.1 s
  | t => takeTrap { cause := cProtection, mask := active s, addr := w.1, info := refusedInfo t } s

/-- A word with a direct target (R287). Its check comes first and waits until the code words that it reads can be read. -/
def directWord (n : Need) (off : Int) (body : Nat → State → State) (s : State) : State :=
  match waitDirect s off with
  | some w => unreadTarget w s
  | none => word { n with badTarget := badDirect s off, last := true } (body ((directTarget s off).getD 0)) s

/-- `BRA` (R288). -/
def execBra (o : BitVec 18) (s : State) : Host.Outcome State Fault Refusal :=
  .next (directWord (scalarNeed [] true) (offsetOf s 18 o) (fun t s => transfer (branchParts s (active s) t) s) s)

/-- `BRS` and `BRSZ` (R288): the whole path, by one S register. -/
def branchS (want : Bool) (a : BitVec 6) (o : BitVec 16) (s : State) : State :=
  directWord (scalarNeed [a.toNat] true) (offsetOf s 16 o) (fun t s =>
    transfer (branchParts s (if decide (getS s.grp a.toNat ≠ 0) = want then active s else 0) t) s) s

/-- `BRS` (R288). -/
def execBrs (a : BitVec 6) (o : BitVec 16) (s : State) : Host.Outcome State Fault Refusal := .next (branchS true a o s)
/-- `BRSZ` (R288). -/
def execBrsz (a : BitVec 6) (o : BitVec 16) (s : State) : Host.Outcome State Fault Refusal := .next (branchS false a o s)

/-- `BRM` (R289). -/
def execBrm (m : BitVec 4) (o : BitVec 18) (s : State) : Host.Outcome State Fault Refusal :=
  .next (directWord { hints := { imm := true } } (offsetOf s 18 o) (fun t s => transfer (branchParts s (getM s.grp m.toNat) t) s) s)
/-- `BRMN` (R289). -/
def execBrmn (m : BitVec 4) (o : BitVec 18) (s : State) : Host.Outcome State Fault Refusal :=
  .next (directWord { hints := { imm := true } } (offsetOf s 18 o) (fun t s => transfer (branchParts s (~~~(getM s.grp m.toNat)) t) s) s)

/-- The link goes to `K7` of the active lanes (R290, R291). -/
def setLink (s : State) : State :=
  s.setG fun g => (lanes (active s)).foldl (fun g l => setK 7 l (BitVec.ofNat 32 (linkOf s)) g) g

/-- `CALL` (R290). -/
def execCall (o : BitVec 18) (s : State) : Host.Outcome State Fault Refusal :=
  .next (directWord
    { hints := { imm := true }, operandBad := decide (s.grp.code.kregs < 8), regs := [.k 7] }
    (offsetOf s 18 o) (fun t s => transfer (branchParts s (active s) t) (setLink s)) s)

/-- The entries of an indirect transfer: one for each distinct target, mapped in a specialised launch (R366). -/
def indirectParts (s : State) (val : Nat → Nat) : List FEntry :=
  (lanes (active s)).map fun l => { pc := mapIndirect s.grp (val l), mask := laneBit l }

/-- What stands before the check of the targets that a register gives: a pending one is waited for (R41, R165), and a marked one has no
value to check, so that the word goes on to its `HAZARD` and no trap depends on whether the operation has completed (R42, R364, log entry 75). -/
inductive TargetReg where
  | read | pending | skip
  deriving DecidableEq, Repr

/-- `ok`: the operand is legal and the issuer has such registers (R61, R290). -/
def targetReg (s : State) (ok : Bool) (rs : List Reg) : TargetReg :=
  if !ok || rs.any (hazardous s.grp ((curPos s).getD { hdr := 0, len := 0, issued := 0, seta := 0, setb := 0, pri := 0 })) then .skip
  else if rs.any (regPending s.grp) then .pending
  else .read

/-- A word whose targets are the values of its active lanes (R287): the targets are checked before anything else of the word. `mapped`: a
specialised launch must have the target among its entries. -/
def laneTargetWord (n : Need) (ok mapped : Bool) (rs : List Reg) (val : Nat → Nat) (body : State → State) (s : State) : State :=
  let ls := lanes (active s)
  match targetReg s ok rs with
  | .pending => stallOn .token s
  | .skip => word n body s
  | .read => match waitTargets s val ls with
    | some w => unreadTarget w s
    | none => word { n with badTarget := badLaneTarget s val mapped ls } body s

/-- What `RET` needs; it has no target to check without `K7` (R290) or on the bobbin, which has no K registers (R61, R119). -/
def retNeed (s : State) : Need := { last := true, regs := [.k 7], operandBad := decide (s.grp.code.kregs < 8) }

/-- The issuer has `K7` for `RET` to read. -/
def retReads (s : State) : Bool := decide (s.grp.code.kregs ≥ 8) && decide (s.grp.kind ≠ .bobbin)

/-- The targets of `RET`. -/
def retVal (s : State) (l : Nat) : Nat := (getK s.grp 7 l).toNat

/-- `RET` (R290). -/
def execRet (s : State) : Host.Outcome State Fault Refusal :=
  .next (laneTargetWord (retNeed s) (retReads s) true [.k 7] (retVal s) (fun s' => transfer (indirectParts s' (retVal s)) s') s)

/-- What `JMPI` and `CALLI` need (R291). -/
def indirectNeed (link : Bool) (a : BitVec 8) (s : State) : Need :=
  { walk := false, hand := false, last := true
    hints := operandHints [a.toNat]
    operandBad := !srcOk s false 1 a.toNat || (link && decide (s.grp.code.kregs < 8))
    regs := codeRegs s 1 a.toNat ++ (if link then [.k 7] else []) }

/-- The issuer can read the target operand of `JMPI` and `CALLI`: the bobbin has no such operands (R61, R119). -/
def indirectReads (a : BitVec 8) (s : State) : Bool := srcOk s false 1 a.toNat && decide (s.grp.kind ≠ .bobbin)

/-- The targets of `JMPI` and `CALLI`. -/
def indirectVal (s : State) (a : BitVec 8) (l : Nat) : Nat := (src s a l).toNat

/-- `JMPI` and `CALLI` (R49, R291): the target is read before the link is written; the landing pads are checked last. -/
def indirectWord (link : Bool) (a g : BitVec 8) (s : State) : State :=
  let val := indirectVal s a
  let ls := lanes (active s)
  laneTargetWord (indirectNeed link a s) (indirectReads a s) false (codeRegs s 1 a.toNat) val
    (fun s => match waitPads s val ls with
      | some w => unreadTarget w s
      | none => match badPad s g.toNat val ls with
        | some t => takeTrap t s
        | none => transfer (indirectParts s val) (if link then setLink s else s)) s

/-- `JMPI` (R291). -/
def execJmpi (a g : BitVec 8) (s : State) : Host.Outcome State Fault Refusal := .next (indirectWord false a g s)
/-- `CALLI` (R291). -/
def execCalli (a g : BitVec 8) (s : State) : Host.Outcome State Fault Refusal := .next (indirectWord true a g s)

/-- `LPAD` (R49): no state changes. -/
def execLpad (_g : BitVec 8) (s : State) : Host.Outcome State Fault Refusal := .next (word { first := true } finish s)

/-! ### Joins and barriers -/

/-- `SPLIT` (R292). -/
def execSplit (j : BitVec 3) (s : State) : Host.Outcome State Fault Refusal :=
  .next (word {} (fun s =>
    if (getJ s.grp j.toNat).cont.isSome then takeTrap { cause := cIllegalOperand, mask := active s, info := j.toNat } s
    else finish (s.setG (setJ j.toNat { mask := active s }))) s)

/-- `JOIN` (R293): an empty expected mask leaves no join pending. -/
def execJoin (j : BitVec 3) (s : State) : Host.Outcome State Fault Refusal :=
  .next (word { last := true } (fun s =>
    let r := getJ s.grp j.toNat
    let p := curPc s + 4
    if r.cont.isSome ∧ r.cont ≠ some p then takeTrap { cause := cIllegalOperand, mask := active s, info := j.toNat } s
    else
      let s := if r.mask = 0 then s else s.setG (setJ j.toNat { r with cont := some p })
      transfer [{ pc := p, mask := active s }] s) s)

/-- `DROP` (R292): it may complete a pending join. -/
def execDrop (j : BitVec 3) (s : State) : Host.Outcome State Fault Refusal :=
  .next (word {} (fun s =>
    finish (s.setG fun g => joinStep j.toNat (setJ j.toNat { getJ g j.toNat with mask := (getJ g j.toNat).mask &&& ~~~(active s) } g))) s)

/-- `BAR` (R234, R295). -/
def execBar (i : BitVec 4) (s : State) : Host.Outcome State Fault Refusal :=
  .next (word { walk := false, hand := false, last := true } (afterVisq (active s) fun s =>
    let m := active s
    let s := releaseLanes s.grp.uid m false s
    let wg := s.grp.wg
    barrierCheck wg (transfer [{ pc := curPc s + 4, mask := m, wait := .bar i.toNat s.grp.sealed m }] s)) s)

/-! ### The end of threads -/

/-- Lanes of the issuing path end (R296): they leave their entry, every rejoin mask and every barrier. -/
def exitLanes (m : DWord) (s : State) : State :=
  let pc := curPc s
  let act := active s
  let wg := s.grp.wg
  let s := settle s
  let s := s.setG fun g => { endLanes m { g with act := none, resv := [], arming := [] } with act := none }
  let s := { s with tasks := s.tasks.map fun t =>
    if t.grp = s.grp.uid ∧ bit m t.lane = true then { t with exited := true } else t }
  barrierCheck wg (stepCheck pc act (nextTurn s.grp s))

/-- `YIELD` (R297). -/
def execYield (s : State) : Host.Outcome State Fault Refusal :=
  .next (word { walk := false, hand := false, last := true } (fun s =>
    transfer [{ pc := curPc s + 4, mask := active s, yielded := true }] s) s)

/-- `CHWAIT` (R299): feature bit 12. With a count of 0 it completes at once, as an acquire (R247). -/
def execChwait (s : State) : Host.Outcome State Fault Refusal :=
  .next (word { walk := false, hand := false, last := true, feats := [12] } (fun s =>
    let done := decide ((wgOf s).children = 0)
    transfer [{ pc := curPc s + 4, mask := active s, wait := if done then .none else .child }] (if done then acquireWg s.grp.wg s else s)) s)

/-- The team leader of a workgroup (R26): the group and the lane of the live thread with the lowest `TID`. -/
def leaderOf (wg : Nat) (s : State) : Option (Nat × Nat) :=
  ((groupsOfWg wg s).filter fun g => decide (g.live ≠ 0)).foldl (fun b g =>
    match b with
    | none => (lowLane g.live).map fun l => (g.gidx, l)
    | some (i, l) => if g.gidx < i then (lowLane g.live).map fun k => (g.gidx, k) else some (i, l)) none

/-- The active mask is exactly the team leader (R298). -/
def isLeader (s : State) : Bool :=
  match leaderOf s.grp.wg s with
  | some (i, l) => decide (s.grp.gidx = i) && decide (active s = laneBit l)
  | none => false

/-- The front end holds a copy of the launch record of the issuing `SPAWN` (R252): later writes do not reach the launch. -/
def spawnCopied (s : State) (va : Nat) : Bool := (s.grp.spawn.map fun p => decide (p.1 = va) && p.2.isSome).getD false

/-- `SPAWN` (R298): its traps in order, the release of `fence.rel.dev`, then the path stalls until the front end has taken
the record (`LAUNCH_ADMIT`). -/
def execSpawn (a : BitVec 6) (s : State) : Host.Outcome State Fault Refusal :=
  let k := a.toNat
  .next (word
    { vectorNeed [.s k, .s (k + 1)] (decide (k % 2 = 1)) with feats := [12] }
    (fun s =>
      let va := pair64 (getS s.grp k) (getS s.grp (k + 1))
      if spawnCopied s va then stallOn .spawn s
      else if !isLeader s then trapOwn cLeaderOnly s
      else if (gridOf s).depth ≥ 10 then trapOwn cNestDepth s
      else if va % 128 ≠ 0 then takeTrap { cause := cMisaligned, mask := active s, addr := va } s
      else match xlate s s.grp va 0 with
        | .refused p => takeTrap { cause := cProtection, mask := active s, addr := va, info := refusedInfo (.refused p) } s
        | .miss => walkStall va 0 s
        | .absent => stallOn .page (reportPage s.grp.ctx va 0 (s.setG fun g => { g with walks := [] }))
        | .ok _ =>
          if anySpec s then parkTasks (specLanes (active s) s) s
          else if (wgOf s).children ≥ 65535 then stallOn .spawn s
          else withRelease (fun s => stallOn .spawn (s.setG fun g => { g with spawn := some (va, none) })) s) s)

/-! ### Traps and regions -/

/-- A word that traps with a code after it has completed (R320, R331): with no active lane it does nothing. -/
def codeTrap (cause : Nat) (c : BitVec 16) (s : State) : State :=
  word { bob := true, walk := false, hand := false } (fun s =>
    if active s = 0 then finish s
    else oldestOnly (active s) (fun s =>
      takeTrapAfter { cause := cause, mask := active s, code := c.toNat } (curPc s) (advance (settle s))) s) s

/-- `TRAP` (R332). -/
def execTrap (c : BitVec 16) (s : State) : Host.Outcome State Fault Refusal := .next (codeTrap cTrapInsn c s)

/-- A region breakpoint on a region for this issuer (R330, R333). -/
def regionBreak (s : State) (r : BitVec 16) : Bool :=
  (ctxOf s).attached && (ctxOf s).breaks.any fun b =>
    decide (b.kind = 1) && decide (b.value = r.toNat) &&
      (decide (b.target = 2 ^ 31) || decide (b.target = slotCode s.grp * 2 ^ 16 + whoCore s.grp))

/-- A region word completes, with `BREAKPOINT` KIND 2 or 3 where the debugger asked for it (R333, R334). -/
def regionDone (kind : Nat) (r : BitVec 16) (s : State) : State :=
  if regionBreak s r then
    takeTrapAfter { cause := cBreakpoint, mask := active s, info := kind * 2 ^ 16 + r.toNat } (curPc s) (advance (settle s))
  else finish s

/-- `ENTER` (R334): the bottom entry of a full stack is discarded. -/
def execEnter (r : BitVec 16) (s : State) : Host.Outcome State Fault Refusal :=
  .next (word { walk := false, hand := false } (fun s =>
    if active s = 0 then finish s
    else regionDone 2 r (s.setG fun g => { g with regions := (r :: g.regions).take 8 })) s)

/-- `LEAVE` (R334): nothing on an empty stack. -/
def execLeave (s : State) : Host.Outcome State Fault Refusal :=
  .next (word { walk := false, hand := false } (fun s =>
    if active s = 0 then finish s
    else match s.grp.regions with
      | [] => finish s
      | r :: rs => regionDone 3 r (s.setG fun g => { g with regions := rs })) s)

end Sys2Proof.Machine
end

