-- ==== Sys2Proof/Machine/Special.lean ====
section
/-!
DEFINITION. The correctly rounded special functions (R77, R78) and atan2pi (R154). Roots and reciprocals are integer
quotients and roots with the remainder kept; the others are computed in fixed point with `prec` fraction bits, far beyond
the closest approach of an FP32 result to a rounding boundary, and their exact cases are taken first (log entry 10).
-/

namespace Sys2Proof.Machine

/-- Fraction bits of the fixed-point evaluations. -/
def prec : Nat := 420

def one_ : Nat := 2 ^ prec

/-- The integer square root by one more bit of the root at a time, from bit `k - 1` down. -/
def isqrtAux : Nat → Nat → Nat → Nat
  | 0, _, r => r
  | k + 1, n, r =>
    let t := r + 2 ^ k
    isqrtAux k n (if t * t ≤ n then t else r)

def isqrt (n : Nat) : Nat := isqrtAux (Nat.log2 n / 2 + 1) n 0

/-- A result rounded in RNE with the SAT and FTZ of the hint. -/
abbrev RoundTo := Ctl

/-- 1/x (R78). -/
def recip (f : Fmt) (c : Ctl) : FVal → Nat
  | .nan => f.nanCode
  | .inf s => f.signed s 0
  | .fin s m e =>
    if m = 0 then f.infinite c.sat s
    else
      let k := Nat.log2 m + 130
      f.roundFin c s (2 ^ k / m) (-(e + k)) (decide (2 ^ k % m ≠ 0))

/-- √x (R78). -/
def sqrtF (f : Fmt) (c : Ctl) : FVal → Nat
  | .nan => f.nanCode
  | .inf s => if s then f.nanCode else f.infinite c.sat false
  | .fin s m e =>
    if m = 0 then f.signed s 0
    else if s then f.nanCode
    else
      let k : Nat := if e % 2 = 0 then 140 else 141
      let n := m * 2 ^ k
      let r := isqrt n
      f.roundFin c false r ((e - k) / 2) (decide (r * r ≠ n))

/-- 1/√x (R78). -/
def rsqrtF (f : Fmt) (c : Ctl) : FVal → Nat
  | .nan => f.nanCode
  | .inf s => if s then f.nanCode else f.signed false 0
  | .fin s m e =>
    if m = 0 then f.infinite c.sat s
    else if s then f.nanCode
    else
      let m' := if e % 2 = 0 then m else 2 * m
      let e' := if e % 2 = 0 then e else e - 1
      let k := Nat.log2 m' + 140
      let n := 2 ^ (2 * k) / m'
      let r := isqrt n
      f.roundFin c false r (-(e' / 2) - k) (decide (r * r * m' ≠ 2 ^ (2 * k)))

/-- Fixed-point product. -/
def fmulFix (a b : Nat) : Nat := a * b / one_

/-- Σ x^i / i! from the term `t` of index `i`, for `fuel` more terms. -/
def expSeries : Nat → Nat → Nat → Nat → Nat
  | 0, _, _, _ => 0
  | fuel + 1, i, t, x => t + expSeries fuel (i + 1) (fmulFix t x / (i + 1)) x

/-- e^x for fixed-point x below 1. -/
def expFix (x : Nat) : Nat := expSeries 110 0 one_ x

/-- Σ z^(2i+1) / (2i+1) with sign `alt` on odd terms: atanh or atan of a fixed-point z. -/
def oddSeries (alt : Bool) : Nat → Nat → Nat → Nat → Int
  | 0, _, _, _ => 0
  | fuel + 1, i, p, z2 =>
    let t : Int := ((p / (2 * i + 1) : Nat) : Int)
    (if alt && decide (i % 2 = 1) then -t else t) + oddSeries alt fuel (i + 1) (fmulFix p z2) z2

def atanhFix (z : Nat) : Nat := (oddSeries false 200 0 z (fmulFix z z)).toNat

/-- ln 2 = 2 · atanh(1/3). -/
def ln2Fix : Nat := 2 * atanhFix (one_ / 3)

/-- atan of z ≤ 1, by three halvings z/(1 + √(1 + z²)). -/
def halve (z : Nat) : Nat := z * one_ / (one_ + isqrt ((one_ + fmulFix z z) * one_))

def atanFix (z : Nat) : Nat := 8 * (oddSeries true 100 0 (halve (halve (halve z))) (let w := halve (halve (halve z)); fmulFix w w)).toNat

/-- π = 4 · atan 1. -/
def piFix : Nat := 4 * atanFix one_

/-- 2^x (R78). -/
def exp2F (f : Fmt) (c : Ctl) : FVal → Nat
  | .nan => f.nanCode
  | .inf s => if s then f.signed false 0 else f.infinite c.sat false
  | .fin s m e =>
    if m = 0 then f.roundFin c false 1 0 false
    else if (Nat.log2 m : Int) + e ≥ 11 then
      (if s then f.roundFin c false 1 (-4000) true else f.roundFin c false 1 4000 false)
    else
      let den : Nat := 2 ^ (-e).toNat
      let num : Nat := m * 2 ^ e.toNat
      let q : Int := num / den
      let r : Nat := num % den
      let whole : Int := if s then (if r = 0 then -q else -q - 1) else q
      let fr : Nat := if s then (if r = 0 then 0 else den - r) else r
      if fr = 0 then f.roundFin c false 1 whole false
      else f.roundFin c false (expFix (fr * ln2Fix / den)) (whole - prec) true

/-- log2 x (R78). -/
def log2F (f : Fmt) (c : Ctl) : FVal → Nat
  | .nan => f.nanCode
  | .inf s => if s then f.nanCode else f.infinite c.sat false
  | .fin s m e =>
    if m = 0 then f.infinite c.sat true
    else if s then f.nanCode
    else
      let k := Nat.log2 m
      let whole : Int := (k : Int) + e
      if m = 2 ^ k then f.round c (FVal.ofInt whole)
      else
        let z := (m - 2 ^ k) * one_ / (m + 2 ^ k)
        let l : Int := ((2 * atanhFix z * one_ / ln2Fix : Nat) : Int)
        let t : Int := whole * (one_ : Nat) + l
        f.roundFin c (decide (t < 0)) t.natAbs (-(prec : Int)) true

/-- The sine or cosine series for a fixed-point angle of at most π/2. -/
def trigSeries : Nat → Nat → Nat → Nat → Int
  | 0, _, _, _ => 0
  | fuel + 1, i, t, x2 => (t : Int) - trigSeries fuel (i + 2) (fmulFix t x2 / ((i + 1) * (i + 2))) x2

def sinFix (x : Nat) : Nat := (trigSeries 70 1 x (fmulFix x x)).toNat
def cosFix (x : Nat) : Nat := (trigSeries 70 0 one_ (fmulFix x x)).toNat

/-- sin(π r / den) for 0 ≤ r < 2 den, rounded; `zero` is the sign of an exact zero. -/
def sinPiQ (f : Fmt) (c : Ctl) (zero : Bool) (flip : Bool) (r den : Nat) : Nat :=
  let neg := decide (r ≥ den)
  let r := if neg then r - den else r
  let s := neg != flip
  if r = 0 then f.signed zero 0
  else if 2 * r = den then f.roundFin c s 1 0 false
  else
    let r := if 2 * r > den then den - r else r
    let v := if 4 * r ≤ den then sinFix (piFix * r / den) else cosFix (piFix * (den - 2 * r) / (2 * den))
    f.roundFin c s v (-(prec : Int)) true

/-- sin(πx) (R78). -/
def sinPiF (f : Fmt) (c : Ctl) : FVal → Nat
  | .nan => f.nanCode
  | .inf _ => f.nanCode
  | .fin s m e =>
    if m = 0 then f.signed s 0
    else
      let den : Nat := 2 ^ (-e).toNat
      sinPiQ f c s s (m * 2 ^ e.toNat % (2 * den)) den

/-- cos(πx) (R78): sin(π(x + 1/2)), with +0 at the zeros. -/
def cosPiF (f : Fmt) (c : Ctl) : FVal → Nat
  | .nan => f.nanCode
  | .inf _ => f.nanCode
  | .fin _ m e =>
    let den : Nat := 2 * 2 ^ (-e).toNat
    sinPiQ f c false false ((2 * (m * 2 ^ e.toNat) + den / 2) % (2 * den)) den

/-- e^x for a fixed-point x, as a fixed-point number and a power of two. -/
def expWide (x : Nat) : Nat × Nat := (expFix (x % ln2Fix), x / ln2Fix)

/-- tanh x (R78). -/
def tanhF (f : Fmt) (c : Ctl) : FVal → Nat
  | .nan => f.nanCode
  | .inf s => f.roundFin c s 1 0 false
  | .fin s m e =>
    if m = 0 then f.signed s 0
    else if (Nat.log2 m : Int) + e ≥ 5 then f.roundFin c s (2 ^ 64 - 1) (-64) true
    else if (Nat.log2 m : Int) + e < -60 then f.roundFin c s (m * 2 ^ 64 - 1) (e - 64) true
    else
      let x := m * 2 ^ (prec + 1) * 2 ^ e.toNat / 2 ^ (-e).toNat
      let (v, k) := expWide x
      let big := v * 2 ^ k
      f.roundFin c s ((big - one_) * one_ / (big + one_)) (-(prec : Int)) true

/-- atan2(y, x)/π in FP32 (R154). -/
def atan2pi (y x : Word) : Word :=
  let half : Word := 0x3F000000
  let signOf (s : Bool) (w : Word) : Word := if s then neg32 w else w
  let quarter : Word := 0x3E800000
  let threeQ : Word := 0x3F400000
  match f32 y, f32 x with
  | .nan, _ => 0
  | _, .nan => 0
  | .inf s, .inf t => signOf s (if t then threeQ else quarter)
  | .inf s, .fin _ _ _ => signOf s half
  | .fin s _ _, .inf t => if t then 0x3F800000 else signOf s 0
  | .fin s m e, .fin t n d =>
    if m = 0 ∧ n = 0 then 0
    else if m = 0 then (if t then 0x3F800000 else signOf s 0)
    else if n = 0 then signOf s half
    else
      let k := min e d
      let a := m * 2 ^ (e - k).toNat
      let b := n * 2 ^ (d - k).toNat
      let quarterTurn := one_ / 4
      let base : Nat :=
        if a = b then quarterTurn
        else if a < b then atanFix (a * one_ / b) * one_ / piFix
        else one_ / 2 - atanFix (b * one_ / a) * one_ / piFix
      let v := if t then one_ - base else base
      if a = b then BitVec.ofNat 32 (fp32.roundFin {} s v (-(prec : Int)) false)
      else
        let r := BitVec.ofNat 32 (fp32.roundFin {} s v (-(prec : Int)) true)
        if r = 0xBF800000 then 0x3F800000 else r

def rcp32 (a : Word) : Word := BitVec.ofNat 32 (recip fp32 {} (f32 a))
def rsqrt32 (a : Word) : Word := BitVec.ofNat 32 (rsqrtF fp32 {} (f32 a))
def sqrt32 (a : Word) : Word := BitVec.ofNat 32 (sqrtF fp32 {} (f32 a))
def exp2_32 (a : Word) : Word := BitVec.ofNat 32 (exp2F fp32 {} (f32 a))
def log2_32 (a : Word) : Word := BitVec.ofNat 32 (log2F fp32 {} (f32 a))
def cospi32 (a : Word) : Word := BitVec.ofNat 32 (cosPiF fp32 {} (f32 a))
def sinpi32 (a : Word) : Word := BitVec.ofNat 32 (sinPiF fp32 {} (f32 a))

end Sys2Proof.Machine
end

