-- ==== Sys2Proof/Machine/Lobes.lean ====
section
/-!
DEFINITION. The arithmetic of closures: parameter clamps (R150), the shading frame (R154), the lobes (R156 to R160), and their
mixture and sampling (R161, R162), each as the fixed FP32 sequence of R155.
-/

namespace Sys2Proof.Machine

/-- A vector of three FP32 words. -/
structure V3 where
  x : Word
  y : Word
  z : Word
  deriving DecidableEq, Repr

def fone : Word := 0x3F800000
def fhalf : Word := 0x3F000000
def fpi : Word := 0x40490FDB
def finvpi : Word := 0x3EA2F983
def finv2pi : Word := 0x3E22F983
def fnan : Word := 0x7FC00000

/-- clamp(x, lo, hi) of R150; a NaN becomes lo. -/
def clamp32 (x lo hi : Word) : Word := min32 (max32 x lo) hi
/-- The weight clamp of R150. -/
def clampw (x : Word) : Word := clamp32 x 0 0x7F7FFFFF
/-- The clamp of the uniforms (R162). -/
def clampu (x : Word) : Word := clamp32 x 0 0x3F7FFFFF

def dot3 (a b : V3) : Word := fma32 a.z b.z (fma32 a.y b.y (fmul32 a.x b.x))
def V3.scale (a : V3) (g : Word) : V3 := ⟨fmul32 a.x g, fmul32 a.y g, fmul32 a.z g⟩
def V3.neg (a : V3) : V3 := ⟨neg32 a.x, neg32 a.y, neg32 a.z⟩
def V3.hasNan (a : V3) : Bool := isNan32 a.x || isNan32 a.y || isNan32 a.z

/-- `base` of R154. -/
def frameBase (n : V3) : V3 × V3 :=
  let sg : Word := (fone &&& 0x7FFFFFFF#32) ||| (n.z &&& 0x80000000#32)
  let a := neg32 (rcp32 (fadd32 sg n.z))
  let bb := fmul32 (fmul32 n.x n.y) a
  (⟨fma32 (fmul32 (fmul32 sg n.x) n.x) a fone, fmul32 sg bb, neg32 (fmul32 sg n.x)⟩,
   ⟨bb, fma32 (fmul32 n.y n.y) a sg, neg32 n.y⟩)

/-- `basis` of R154. -/
def frameBasis (n : V3) (theta : Word) : V3 × V3 :=
  let (e1, e2) := frameBase n
  let c := cospi32 theta
  let s := sinpi32 theta
  let t := fun a b => fma32 s b (fmul32 c a)
  let u := fun a b => fma32 c b (neg32 (fmul32 s a))
  (⟨t e1.x e2.x, t e1.y e2.y, t e1.z e2.z⟩, ⟨u e1.x e2.x, u e1.y e2.y, u e1.z e2.z⟩)

/-- A length that is 0, infinite or NaN. -/
def badLength (l : Word) : Bool := isZero32 l || isInf32 l || isNan32 l

/-- `FRAME` (R154): normal, tangent angle and outgoing direction, or none. -/
def frameOf (N T W : V3) : Option (V3 × Word × V3) :=
  let l := dot3 N N
  if badLength l then none
  else
    let n := N.scale (rsqrt32 l)
    let (e1, e2) := frameBase n
    let th := atan2pi (dot3 T e2) (dot3 T e1)
    let (t, b) := frameBasis n th
    let m := dot3 W W
    if badLength m then none
    else
      let h := rsqrt32 m
      some (n, th, ⟨fmul32 (dot3 W t) h, fmul32 (dot3 W b) h, fmul32 (dot3 W n) h⟩)

/-- A lobe's value and pdf (R155). -/
structure LobeVal where
  r : Word
  g : Word
  b : Word
  p : Word
  deriving DecidableEq, Repr

def lobeZero : LobeVal := ⟨0, 0, 0, 0⟩

/-- Not both directions lie above the surface: the one-sided lobes reject. -/
def below (o i : V3) : Bool := le32 i.z 0 || le32 o.z 0

/-! ### MATT (R156) -/

def mattEval (p0 p1 p2 : Word) (o i : V3) : LobeVal :=
  if below o i then lobeZero
  else
    let f := fun p => fmul32 (fmul32 p finvpi) i.z
    ⟨f p0, f p1, f p2, fmul32 i.z finvpi⟩

def mattSample (o : V3) (q0 q1 : Word) : Option V3 :=
  if le32 o.z 0 then none
  else
    let rr := sqrt32 q0
    let ph := fadd32 q1 q1
    some ⟨fmul32 rr (cospi32 ph), fmul32 rr (sinpi32 ph), sqrt32 (max32 0 (fsub32 fone q0))⟩

/-! ### GLOSS (R157) -/

/-- The half vector. -/
def halfVec (o i : V3) : V3 :=
  let hv : V3 := ⟨fadd32 o.x i.x, fadd32 o.y i.y, fadd32 o.z i.z⟩
  hv.scale (rsqrt32 (dot3 hv hv))

/-- The distribution D at a microfacet normal. -/
def ggxD (ax ay : Word) (h : V3) : Word :=
  let sx := fmul32 h.x (rcp32 ax)
  let sy := fmul32 h.y (rcp32 ay)
  let e := fma32 h.z h.z (fma32 sy sy (fmul32 sx sx))
  rcp32 (fmul32 (fmul32 (fmul32 fpi ax) ay) (fmul32 e e))

/-- lam(v). -/
def ggxLam (ax ay : Word) (v : V3) : Word :=
  let ay' := fmul32 ay v.y
  let ax' := fmul32 ax v.x
  fmul32 (fsub32 (sqrt32 (fadd32 fone (fmul32 (fma32 ay' ay' (fmul32 ax' ax')) (rcp32 (fmul32 v.z v.z))))) fone) fhalf

def four : Word := 0x40800000

def glossEval (p0 p1 p2 ax ay : Word) (o i : V3) : LobeVal :=
  if below o i then lobeZero
  else
    let h := halfVec o i
    let D := ggxD ax ay h
    let lo := ggxLam ax ay o
    let li := ggxLam ax ay i
    let g2 := rcp32 (fadd32 (fadd32 fone lo) li)
    let m := fsub32 fone (max32 0 (dot3 o h))
    let m2 := fmul32 m m
    let m5 := fmul32 (fmul32 m2 m2) m
    let k := fmul32 (fmul32 D g2) (rcp32 (fmul32 four o.z))
    let f := fun p => fmul32 (fma32 (fsub32 fone p) m5 p) k
    ⟨f p0, f p1, f p2, fmul32 (fmul32 D (rcp32 (fadd32 fone lo))) (rcp32 (fmul32 four o.z))⟩

/-- A visible normal drawn from (q0, q1). -/
def ggxNormal (ax ay : Word) (o : V3) (q0 q1 : Word) : V3 :=
  let vv : V3 := ⟨fmul32 ax o.x, fmul32 ay o.y, o.z⟩
  let v := vv.scale (rsqrt32 (dot3 vv vv))
  let l := fma32 v.y v.y (fmul32 v.x v.x)
  let t1 : V3 := if lt32 0 l then let s := rsqrt32 l; ⟨neg32 (fmul32 v.y s), fmul32 v.x s, 0⟩ else ⟨fone, 0, 0⟩
  let cr := fun a b c d => fsub32 (fmul32 a b) (fmul32 c d)
  let t2 : V3 := ⟨cr v.y t1.z v.z t1.y, cr v.z t1.x v.x t1.z, cr v.x t1.y v.y t1.x⟩
  let rr := sqrt32 q0
  let a1 := fmul32 rr (cospi32 (fadd32 q1 q1))
  let a2 := fmul32 rr (sinpi32 (fadd32 q1 q1))
  let k := fmul32 (fadd32 fone v.z) fhalf
  let a2 := fma32 k a2 (fmul32 (fsub32 fone k) (sqrt32 (max32 0 (fsub32 fone (fmul32 a1 a1)))))
  let a3 := sqrt32 (max32 0 (fsub32 (fsub32 fone (fmul32 a1 a1)) (fmul32 a2 a2)))
  let nn := fun vc t1c t2c => fma32 a3 vc (fma32 a2 t2c (fmul32 a1 t1c))
  let mv : V3 := ⟨fmul32 ax (nn v.x t1.x t2.x), fmul32 ay (nn v.y t1.y t2.y), max32 0 (nn v.z t1.z t2.z)⟩
  mv.scale (rsqrt32 (dot3 mv mv))

/-- The reflection of o about m, or none where it fails. -/
def reflectAbout (o m : V3) : Option V3 :=
  let d := dot3 o m
  let dd := fadd32 d d
  let i : V3 := ⟨fma32 dd m.x (neg32 o.x), fma32 dd m.y (neg32 o.y), fma32 dd m.z (neg32 o.z)⟩
  if le32 i.z 0 || i.hasNan then none else some i

def glossSample (ax ay : Word) (o : V3) (q0 q1 : Word) : Option V3 :=
  if le32 o.z 0 then none else reflectAbout o (ggxNormal ax ay o q0 q1)

/-! ### CLEAR (R158) -/

def V3.mirror (a : V3) : V3 := ⟨a.x, a.y, neg32 a.z⟩

/-- Fd(c). -/
def clearFd (eta c : Word) : Word :=
  let g2 := fadd32 (fma32 eta eta (neg32 fone)) (fmul32 c c)
  if lt32 g2 0 then fone
  else
    let g := sqrt32 g2
    let a := fmul32 (fsub32 g c) (rcp32 (fadd32 g c))
    let b := fmul32 (fsub32 (fmul32 c (fadd32 g c)) fone) (rcp32 (fadd32 (fmul32 c (fsub32 g c)) fone))
    fmul32 (fmul32 fhalf (fmul32 a a)) (fadd32 fone (fmul32 b b))

/-- The lobe with oz > 0. -/
def clearEvalUp (eta t0 t1 t2 al : Word) (o i : V3) : LobeVal :=
  let lo := ggxLam al al o
  let li := ggxLam al al i
  let g2 := rcp32 (fadd32 (fadd32 fone lo) li)
  if lt32 0 i.z then
    let h := halfVec o i
    let D := ggxD al al h
    let F := clearFd eta (dot3 o h)
    let f := fmul32 F (fmul32 (fmul32 D g2) (rcp32 (fmul32 four o.z)))
    ⟨f, f, f, fmul32 F (fmul32 (fmul32 D (rcp32 (fadd32 fone lo))) (rcp32 (fmul32 four o.z)))⟩
  else
    let c := fun a b => neg32 (fadd32 a (fmul32 eta b))
    let hv : V3 := ⟨c o.x i.x, c o.y i.y, c o.z i.z⟩
    let h := hv.scale (rsqrt32 (dot3 hv hv))
    let h := if lt32 h.z 0 then h.neg else h
    let co := dot3 o h
    let ci := dot3 i h
    if le32 co 0 || le32 0 ci then lobeZero
    else
      let D := ggxD al al h
      let u := fadd32 co (fmul32 eta ci)
      let J := fmul32 (fmul32 (fmul32 eta eta) (abs32 ci)) (rcp32 (fmul32 u u))
      let F1 := fsub32 fone (clearFd eta co)
      let f := fun t => fmul32 (fmul32 (fmul32 t F1) (fmul32 (fmul32 (fmul32 D g2) (abs32 co)) (rcp32 o.z))) J
      ⟨f t0, f t1, f t2,
        fmul32 (fmul32 F1 (fmul32 (fmul32 (fmul32 D (rcp32 (fadd32 fone lo))) (abs32 co)) (rcp32 o.z))) J⟩

def clearEval (eta t0 t1 t2 al : Word) (o i : V3) : LobeVal :=
  if isZero32 o.z || isZero32 i.z then lobeZero
  else if lt32 o.z 0 then clearEvalUp (rcp32 eta) t0 t1 t2 al o.mirror i.mirror
  else clearEvalUp eta t0 t1 t2 al o i

/-- A sample of `CLEAR` with the outgoing direction above (R158). A refraction fails for a wrong sign or a zero of `i.z`, so that one whose
`i.z` is a NaN succeeds (log entry 102). -/
def clearSampleUp (eta al : Word) (o : V3) (q0 q1 q' : Word) : Option V3 :=
  let m := ggxNormal al al o q0 q1
  let c := dot3 o m
  if lt32 q' (clearFd eta c) then reflectAbout o m
  else
    let k2 := fsub32 fone (fmul32 (fsub32 fone (fmul32 c c)) (rcp32 (fmul32 eta eta)))
    let re := rcp32 eta
    let k := fsub32 (fmul32 c re) (sqrt32 k2)
    let f := fun mc oc => fsub32 (fmul32 k mc) (fmul32 oc re)
    let i : V3 := ⟨f m.x o.x, f m.y o.y, f m.z o.z⟩
    if lt32 0 i.z || isZero32 i.z then none else some i

def clearSample (eta al : Word) (o : V3) (q0 q1 q' : Word) : Option V3 :=
  if isZero32 o.z then none
  else if lt32 o.z 0 then (clearSampleUp (rcp32 eta) al o.mirror q0 q1 q').map V3.mirror
  else clearSampleUp eta al o q0 q1 q'

/-! ### SHEEN (R159) -/

def sheenEval (p0 p1 p2 rho : Word) (o i : V3) : LobeVal :=
  if below o i then lobeZero
  else
    let h := halfVec o i
    let st := sqrt32 (max32 0 (fsub32 fone (fmul32 h.z h.z)))
    let ka := rcp32 rho
    let D := fmul32 (fmul32 (fadd32 0x40000000 ka) (exp2_32 (fmul32 ka (log2_32 st)))) finv2pi
    let V := rcp32 (fmul32 four (fsub32 (fadd32 i.z o.z) (fmul32 i.z o.z)))
    let f := fun p => fmul32 (fmul32 (fmul32 p D) V) i.z
    ⟨f p0, f p1, f p2, fmul32 i.z finvpi⟩

/-! ### NET (R160) -/

/-- A layer's unit: its bias, then its inputs in ascending order. -/
def netUnit (w : Nat → Word) (bias : Word) : Nat → List Word → Word
  | _, [] => bias
  | k, x :: xs => netUnit w (fma32 (w k) x bias) (k + 1) xs

/-- The network's three outputs, for weights in the order of R160. -/
def netValue (w : List Word) (o i : V3) (l0 l1 : Word) : Word × Word × Word :=
  let g := fun j => w.getD j 0
  let x := [i.x, i.y, i.z, o.x, o.y, o.z, l0, l1]
  let z1 := (List.range 32).map fun j => max32 0 (netUnit (fun k => g (8 * j + k)) (g (256 + j)) 0 x)
  let z2 := (List.range 32).map fun j => max32 0 (netUnit (fun k => g (288 + 32 * j + k)) (g (1312 + j)) 0 z1)
  let y := fun j => fmul32 (max32 0 (netUnit (fun k => g (1344 + 32 * j + k)) (g (1440 + j)) 0 z2)) i.z
  (y 0, y 1, y 2)

/-- The proxy's value, whose pdf is NET's. -/
def netProxy (l : Lobe) (o i : V3) : LobeVal :=
  if l.p1 = 0 then mattEval fone fone fone o i else glossEval fone fone fone l.p2 l.p3 o i

/-- A lobe's value and pdf (R155 to R160); `net`: the weights of a NET lobe by its offset. -/
def lobeEval (net : Word → List Word) (l : Lobe) (o i : V3) : LobeVal :=
  match l.type with
  | 0 => mattEval l.p0 l.p1 l.p2 o i
  | 1 => glossEval l.p0 l.p1 l.p2 l.p3 l.p4 o i
  | 2 => clearEval l.p0 l.p1 l.p2 l.p3 l.p4 o i
  | 3 => sheenEval l.p0 l.p1 l.p2 l.p3 o i
  | _ =>
    if below o i then lobeZero
    else
      let (r, g, b) := netValue (net l.p0) o i l.p4 l.p5
      ⟨r, g, b, (netProxy l o i).p⟩

/-- A lobe's pdf, which never reads the network (R160). -/
def lobePdf (l : Lobe) (o i : V3) : Word :=
  if l.type = 4 then (netProxy l o i).p else (lobeEval (fun _ => []) l o i).p

/-- A lobe's sample (R156 to R160, R162). -/
def lobeSample (l : Lobe) (o : V3) (q0 q1 q' : Word) : Option V3 :=
  match l.type with
  | 0 => mattSample o q0 q1
  | 1 => glossSample l.p3 l.p4 o q0 q1
  | 2 => clearSample l.p0 l.p4 o q0 q1 q'
  | 3 => mattSample o q0 q1
  | _ => if l.p1 = 0 then mattSample o q0 q1 else glossSample l.p2 l.p3 o q0 q1

/-! ### Mixtures (R161, R162) -/

def Closure.n (c : Closure) : V3 := ⟨c.nx, c.ny, c.nz⟩
def Closure.o (c : Closure) : V3 := ⟨c.ox, c.oy, c.oz⟩

/-- The local direction of a world direction, unless the mixture returns zeros for it. -/
def mixDir (c : Closure) (w : V3) : Option V3 :=
  if c.fvalid = false ∨ c.lobes = [] then none
  else
    let (t, b) := frameBasis c.n c.theta
    let l := dot3 w w
    if badLength l then none
    else
      let s := rsqrt32 l
      some ⟨fmul32 (dot3 w t) s, fmul32 (dot3 w b) s, fmul32 (dot3 w c.n) s⟩

/-- The weighted sums of R161: W, V and P. -/
def mixFold (f : Lobe → LobeVal) : List Lobe → Word → LobeVal → Word × LobeVal
  | [], W, v => (W, v)
  | l :: ls, W, v =>
    let e := f l
    mixFold f ls (fadd32 W l.w) ⟨fma32 l.w e.r v.r, fma32 l.w e.g v.g, fma32 l.w e.b v.b, fma32 l.w e.p v.p⟩

/-- `mix` of R161 at a local direction. -/
def mixAt (f : Lobe → V3 → V3 → LobeVal) (c : Closure) (i : V3) : LobeVal :=
  let (W, v) := mixFold (fun l => f l c.o i) c.lobes 0 lobeZero
  if isZero32 W then lobeZero
  else
    let q := rcp32 W
    ⟨fmul32 v.r q, fmul32 v.g q, fmul32 v.b q, fmul32 v.p q⟩

/-- `mix` of R161. -/
def mixEval (net : Word → List Word) (c : Closure) (w : V3) : LobeVal :=
  match mixDir c w with
  | none => lobeZero
  | some i => mixAt (lobeEval net) c i

def mixPdf (c : Closure) (w : V3) : Word :=
  match mixDir c w with
  | none => 0
  | some i => (mixAt (fun l o i => ⟨0, 0, 0, lobePdf l o i⟩) c i).p

/-- The thresholds c_j of R162 and the sum of the weights. -/
def thresholds (q : Word) : List Lobe → Word → List Word
  | [], _ => []
  | l :: ls, S => let S := fadd32 S l.w; fmul32 S q :: thresholds q ls S

def sumWeights (ls : List Lobe) : Word := ls.foldl (fun S l => fadd32 S l.w) 0

/-- The lobe that a selection draw takes. -/
def pickLobe (cs : List Word) (qsel : Word) : Nat :=
  ((indexed 0 cs).find? fun p => lt32 qsel p.2).elim (cs.length - 1) fun p => p.1

/-- What `SAMP` draws (R162): no lobe, a lobe that failed, or a lobe and a world direction. -/
inductive Drawn where
  | nothing
  | failed (k : Nat)
  | dir (k : Nat) (d : V3)
  deriving DecidableEq, Repr

def sampDraw (c : Closure) (q0 q1 qsel : Word) : Drawn :=
  let W := sumWeights c.lobes
  if c.fvalid = false ∨ c.lobes = [] ∨ isZero32 W = true then .nothing
  else
    let q0 := clampu q0
    let q1 := clampu q1
    let qsel := clampu qsel
    let cs := thresholds (rcp32 W) c.lobes 0
    let k := pickLobe cs qsel
    let prev := if k = 0 then 0 else cs.getD (k - 1) 0
    let q' := clampu (fmul32 (fsub32 qsel prev) (rcp32 (fsub32 (cs.getD k 0) prev)))
    match (c.lobes[k]?).bind fun l => lobeSample l c.o q0 q1 q' with
    | none => .failed k
    | some i =>
      let (t, b) := frameBasis c.n c.theta
      let d := fun nc bc tc => fma32 i.z nc (fma32 i.y bc (fmul32 i.x tc))
      .dir k ⟨d c.n.x b.x t.x, d c.n.y b.y t.y, d c.n.z b.z t.z⟩

/-- The eight words of `SAMP` (R162). -/
def sampWords (net : Word → List Word) (c : Closure) (d : Drawn) : List Word :=
  match d with
  | .nothing => [0, 0, 0, 0, 0, 0, 0, 0xFFFFFFFF]
  | .failed k => [0, 0, 0, 0, 0, 0, 0, BitVec.ofNat 32 (k + 0x80000000)]
  | .dir k d =>
    let v := mixEval net c d
    [d.x, d.y, d.z, v.r, v.g, v.b, v.p, BitVec.ofNat 32 k]

/-! ### Parameters (R150) -/

def amin : Word := 0x3C000000

/-- The stored parameters of a lobe of a type. -/
def lobeParams (t : Nat) (p : Nat → Word) : List Word :=
  let u := fun k => clamp32 (p k) 0 fone
  let a := fun k => clamp32 (p k) amin fone
  let l := fun k => clamp32 (p k) 0xFE800000 0x7E800000
  match t with
  | 0 => [u 0, u 1, u 2, 0, 0, 0]
  | 1 => [u 0, u 1, u 2, a 3, a 4, 0]
  | 2 => [clamp32 (p 0) 0x3E800000 0x40800000, u 1, u 2, u 3, a 4, 0]
  | 3 => [u 0, u 1, u 2, a 3, 0, 0]
  | _ => [p 0, p 1, a 2, a 3, l 4, l 5]

/-- The number of parameter registers that a type reads (R150). -/
def lobeReads (t : Nat) : Nat :=
  match t with
  | 0 => 3
  | 1 => 5
  | 2 => 5
  | 3 => 4
  | _ => 6

def lobeOf (t depth : Nat) (w : Word) (ps : List Word) : Lobe :=
  { type := t, depth := depth, w := w, p0 := ps.getD 0 0, p1 := ps.getD 1 0, p2 := ps.getD 2 0, p3 := ps.getD 3 0,
    p4 := ps.getD 4 0, p5 := ps.getD 5 0 }

def Lobe.params (l : Lobe) : List Word := [l.p0, l.p1, l.p2, l.p3, l.p4, l.p5]

/-- A NET lobe whose OFFSET is odd or whose PROXY is none (R150). -/
def netBad (t : Nat) (p : Nat → Word) : Bool :=
  decide (t = 4) && (decide ((p 0).toNat % 2 = 1) || decide ((p 1).toNat > 1))

/-- The albedo estimate of a coat lobe (R152). -/
def lobeAlb (l : Lobe) : Word :=
  match l.type with
  | 2 =>
    let x := fmul32 (fsub32 l.p0 fone) (rcp32 (fadd32 l.p0 fone))
    fmul32 x x
  | 4 => 0
  | _ => fmul32 (fadd32 (fadd32 l.p0 l.p1) l.p2) 0x3EAAAAAB

/-- The deepest layering level. -/
def deepest (ls : List Lobe) : Nat := ls.foldl (fun m l => max m l.depth) 0

def Closure.withLobes (c : Closure) (ls : List Lobe) (n : Nat) : Closure := { c with lobes := ls, depth := deepest ls, ncount := n }

/-- `LSCL`, `LMIX` and `LAYER` of R152. -/
def closureScale (c : Closure) (w : Word) : Closure :=
  c.withLobes (c.lobes.map fun l => { l with w := clampw (fmul32 l.w (clampw w)) }) c.ncount

def closureMix (c h : Closure) (w : Word) : Closure :=
  c.withLobes (c.lobes ++ h.lobes.map fun l => { l with w := clampw (fmul32 l.w (clampw w)) }) (c.ncount + h.ncount + 1)

/-- The attenuation of a base under a coat. -/
def coatFactor (ls : List Lobe) (w : Word) : Word :=
  let T := clamp32 w 0 fone
  let (Wc, A) := ls.foldl (fun (q : Word × Word) l => (fadd32 q.1 l.w, fma32 l.w (lobeAlb l) q.2)) ((0 : Word), (0 : Word))
  let Fc := if isZero32 Wc then 0 else fmul32 A (rcp32 Wc)
  fmul32 (fsub32 fone Fc) T

def closureLayer (c h : Closure) (w : Word) : Closure :=
  let f := coatFactor h.lobes w
  c.withLobes ((c.lobes.map fun l => { l with w := fmul32 l.w f, depth := l.depth + 1 }) ++ h.lobes) (c.ncount + h.ncount + 1)

/-- A closure beyond the limits of R153. -/
def closureOver (c : Closure) : Bool := decide (c.lobes.length > 16) || decide (c.ncount > 24) || decide (c.depth > 4)

/-! ### The image of R146, R147, R164 -/

def lobeBytes (l : Lobe) : List Byte :=
  toBytes 4 (l.depth * 16 + l.type) ++ toBytes 4 l.w.toNat ++ l.params.flatMap fun p => toBytes 4 p.toNat

def frameBytes (c : Closure) : List Byte :=
  ([c.nx, c.ny, c.nz, c.theta, c.ox, c.oy, c.oz].flatMap fun w => toBytes 4 w.toNat)
    ++ toBytes 4 ((if c.fvalid then 2 ^ 13 else 0) + c.depth * 2 ^ 10 + c.ncount * 2 ^ 5 + c.lobes.length)

def closureImage (c : Closure) : List Byte :=
  frameBytes c ++ (c.lobes.flatMap lobeBytes) ++ List.replicate (32 * (16 - c.lobes.length)) 0

/-- The word at a byte offset of an image. -/
def imgWord (bs : List Byte) (k : Nat) : Word := wordOf ((bs.drop k).take 4)

def imgLobe (bs : List Byte) (j : Nat) : Lobe :=
  let w := fun k => imgWord bs (32 + 32 * j + 4 * k)
  lobeOf (bitsOf (w 0) 3 0) (bitsOf (w 0) 6 4) (w 1) [w 2, w 3, w 4, w 5, w 6, w 7]

/-- A weight that is negative or not finite (R164). -/
def badWeight (w : Word) : Bool := isNan32 w || isInf32 w || (w.getLsbD 31 && !isZero32 w)

/-- A parameter outside its range is one that the clamp of R150 would change to another number; a zero of either sign is 0. -/
def badParams (l : Lobe) : Bool :=
  !(((lobeParams l.type (fun k => l.params.getD k 0)).zip l.params).all fun p => decide (p.1 = p.2) || (isZero32 p.1 && isZero32 p.2)) || netBad l.type (fun k => l.params.getD k 0)

/-- A lobe record that the checks of R164 refuse. -/
def badRecord (bs : List Byte) (j : Nat) : Bool :=
  let l := imgLobe bs j
  decide (bitsOf (imgWord bs (32 + 32 * j)) 31 7 ≠ 0) || decide (l.type > 4) || decide (l.depth > 4) || badWeight l.w || badParams l

/-- The closure of an image, empty with a zero frame where a check of R164 fails: each of the 16 records is checked. -/
def closureOfImage (bs : List Byte) : Closure :=
  let h := imgWord bs 28
  let n := bitsOf h 4 0
  if bitsOf h 31 14 ≠ 0 ∨ n > 16 ∨ bitsOf h 9 5 > 24 ∨ bitsOf h 12 10 > 4 ∨ (List.range 16).any (badRecord bs) = true then {}
  else
    { nx := imgWord bs 0, ny := imgWord bs 4, nz := imgWord bs 8, theta := imgWord bs 12, ox := imgWord bs 16,
      oy := imgWord bs 20, oz := imgWord bs 24, fvalid := h.getLsbD 13, depth := bitsOf h 12 10, ncount := bitsOf h 9 5,
      lobes := (List.range n).map (imgLobe bs) }

end Sys2Proof.Machine
end

