-- ==== Sys2Proof/Machine/Closures.lean ====
section
/-!
DEFINITION. The closure words (R146 to R164): class 15 with `SUB` 0 to 10.
-/

namespace Sys2Proof.Machine

/-- A V range of plain register numbers that stays below `VREGS` (R149). -/
def vRange (s : State) (v n : Nat) : Bool := decide (v + n ≤ s.grp.code.vregs)

/-- What a closure word needs (R149): the closure registers and V ranges it names, and the V registers it touches. -/
def closNeed (s : State) (gs : List Nat) (ranges : List (Nat × Nat)) (touched : List (Nat × Nat)) (varlat : Bool) : Need :=
  { walk := false, hand := false, feats := [2], varlat := varlat
    operandBad := !(gs.all (fun g => decide (g < s.grp.code.closures)) && ranges.all fun r => vRange s r.1 r.2)
    regs := (touched.flatMap fun r => plainRegs r.2 r.1) ++ gs.map Reg.g }

/-- The words of a V range in a lane. -/
def vWords (s : State) (v n l : Nat) : List Word := (List.range n).map fun i => getV s.grp (v + i) l

def v3At (s : State) (v l : Nat) : V3 := ⟨getV s.grp v l, getV s.grp (v + 1) l, getV s.grp (v + 2) l⟩

/-! ### Spills (R148) -/

/-- Where record 4 of a closure register of a lane lies. -/
def spillBase (s : State) (g l : Nat) : Nat := (ctxOf s).privBase + 18432 * sget 0 l s.grp.win + 384 * g

/-- The first and last spilled bytes of a closure of `n` lobes in a lane. -/
def spillAddrs (s : State) (g l n : Nat) : List Nat :=
  if n ≤ 4 then [] else [spillBase s g l, spillBase s g l + 32 * (n - 4) - 1]

/-- The spill accesses of the listed lanes: closure registers with their numbers of lobes. -/
def spillAccs (s : State) (use : Nat → List (Nat × Nat)) (ls : List Nat) : List Access :=
  ls.flatMap fun l => (use l).flatMap fun p => (spillAddrs s p.1 l p.2).map fun a => { lane := l, off := 0, inb := true, va := a }

/-- Records 4 to 15 of the lanes' new closures go to their windows (R148), line by line. A register's spill area is three lines of one page. A
spill changes speed only, so it is no store of a task's (R205). -/
def spillStores (g : Nat) (f : Nat → Closure) (got : List (Access × Nat)) (ls : List Nat) (s : State) : State :=
  ls.foldl (fun t l =>
    let bs := ((f l).lobes.drop 4).flatMap lobeBytes
    match got.find? fun p => decide (p.1.lane = l) && decide (p.1.va = spillBase s g l) with
    | some p => (splitLines (bs.length + 1) p.2 bs).foldl (fun t q => storeHome s.grp.uid l s.grp.core q.1 q.2 t) t
    | none => t) s

/-- A closure word's effect once its spills and fills are translated (R148): a page that is not present parks the whole
path (R323). Results are formed from the logical lists of lobes, so a fill has nothing to read. -/
def withSpill (kind : Nat) (use : Nat → List (Nat × Nat)) (ls : List Nat) (s : State) (body : List (Access × Nat) → State → State) : State :=
  match memTrans s { buf := 0, idx := fun _ => 0, size := 1, kind := kind } (spillAccs s use ls) with
  | .trap t => takeTrap t s
  | .walk va => walkStall va kind s
  | .go got parked => match parked with
    | [] => body got s
    | (_, pg) :: _ => parkPath kind pg s

/-! ### Construction words (R150 to R154) -/

/-- The lanes' new closures, when none exceeds the limits of R153. -/
def buildWord (n : Need) (g : Nat) (limit : Bool) (own : State → Nat → Option TrapReq) (f : State → Nat → Closure) (s : State) : State :=
  word n (fun s =>
    let ls := lanes (active s)
    let tooBig := ls.filter fun l => limit && closureOver (f s l)
    match ls.findSome? (own s) with
    | some t => takeTrap t s
    | none =>
      if !tooBig.isEmpty then takeTrap { cause := cClosureLimit, mask := maskOf tooBig } s
      else
        withSpill 1 (fun l => [(g, if (f s l).lobes.isEmpty then 0 else max (getG s.grp g l).lobes.length (f s l).lobes.length)]) ls s (fun got s' =>
          finish ((spillStores g (f s) got ls s').setG fun q => ls.foldl (fun q l => setGr g l (f s l) q) q))) s

/-- `CCLR` (R152); an empty closure has no spilled record. -/
def execCclr (g : BitVec 2) (s : State) : Host.Outcome State Fault Refusal :=
  .next (buildWord (closNeed s [g.toNat] [] [] false) g.toNat false (fun _ _ => none) (fun _ _ => {}) s)

/-- The parameter registers of a `LOBE` in a lane (R150). -/
def lobeSrc (s : State) (p l : Nat) (k : Nat) : Word := getV s.grp (p + k) l

/-- A NET lobe with an odd OFFSET or no PROXY in some lane (R150). -/
def netTrap (y p : Nat) (s : State) (l : Nat) : Option TrapReq :=
  if netBad y (lobeSrc s p l) then
    some { cause := cIllegalOperand, mask := maskOf ((lanes (active s)).filter fun l => netBad y (lobeSrc s p l)) }
  else none

/-- `LOBE` (R150, R152). -/
def execLobe (y : BitVec 4) (g : BitVec 2) (p w : BitVec 8) (s : State) : Host.Outcome State Fault Refusal :=
  .next (buildWord (closNeed s [g.toNat] [(p.toNat, 6), (w.toNat, 1)] [(p.toNat, lobeReads y.toNat), (w.toNat, 1)] false) g.toNat true
    (netTrap y.toNat p.toNat)
    (fun s l =>
      let c := getG s.grp g.toNat l
      c.withLobes (c.lobes ++ [lobeOf y.toNat 0 (clampw (getV s.grp w.toNat l)) (lobeParams y.toNat (lobeSrc s p.toNat l))])
        (c.ncount + 1)) s)

/-- `LMIX` (R152). -/
def execLmix (g h : BitVec 2) (w : BitVec 8) (s : State) : Host.Outcome State Fault Refusal :=
  .next (buildWord (closNeed s [g.toNat, h.toNat] [(w.toNat, 1)] [(w.toNat, 1)] false) g.toNat true (fun _ _ => none)
    (fun s l => closureMix (getG s.grp g.toNat l) (getG s.grp h.toNat l) (getV s.grp w.toNat l)) s)

/-- `LAYER` (R152). -/
def execLayer (g h : BitVec 2) (w : BitVec 8) (s : State) : Host.Outcome State Fault Refusal :=
  .next (buildWord (closNeed s [g.toNat, h.toNat] [(w.toNat, 1)] [(w.toNat, 1)] false) g.toNat true (fun _ _ => none)
    (fun s l => closureLayer (getG s.grp g.toNat l) (getG s.grp h.toNat l) (getV s.grp w.toNat l)) s)

/-- `LSCL` (R152); it never traps on the closure's content (R153). -/
def execLscl (g : BitVec 2) (w : BitVec 8) (s : State) : Host.Outcome State Fault Refusal :=
  .next (buildWord (closNeed s [g.toNat] [(w.toNat, 1)] [(w.toNat, 1)] false) g.toNat false (fun _ _ => none)
    (fun s l => closureScale (getG s.grp g.toNat l) (getV s.grp w.toNat l)) s)

/-- A closure with a frame, or with its frame cleared (R154). -/
def Closure.withFrame (c : Closure) : Option (V3 × Word × V3) → Closure
  | some (n, th, o) => { c with nx := n.x, ny := n.y, nz := n.z, theta := th, ox := o.x, oy := o.y, oz := o.z, fvalid := true }
  | none => { c with nx := 0, ny := 0, nz := 0, theta := 0, ox := 0, oy := 0, oz := 0, fvalid := false }

/-- `FRAME` (R154); the lobes are not touched, so nothing spills. -/
def execFrame (g : BitVec 2) (n : BitVec 8) (s : State) : Host.Outcome State Fault Refusal :=
  let v := n.toNat
  .next (word (closNeed s [g.toNat] [(v, 9)] [(v, 9)] false) (fun s =>
    finish (s.setG fun q => (lanes (active s)).foldl (fun q l =>
      setGr g.toNat l ((getG s.grp g.toNat l).withFrame (frameOf (v3At s v l) (v3At s (v + 3) l) (v3At s (v + 6) l))) q) q)) s)

/-! ### Mixtures (R160 to R162) -/

/-- The offsets of the networks that a lane's mixture reads at a world direction (R160, R161). -/
def netOffsets (c : Closure) (w : Option V3) : List Word :=
  match w.bind (mixDir c) with
  | none => []
  | some i => if below c.o i then [] else (c.lobes.filter fun l => decide (l.type = 4)).map fun l => l.p0

/-- The accesses of one network (R160). -/
def netAccs (s : State) (l : Nat) (off : Word) : List Access :=
  (List.range 1443).map fun j => accOf (bufOf s 26 l) 2 ((off.toNat + 2 * j : Nat) : Int) l 0

/-- An FP16 weight widened exactly. -/
def widen16 (bs : List Byte) : Word := BitVec.ofNat 32 (fp32.round {} (fp16.decode (ofBytes bs)))

/-- The weights of a network in a lane; a byte outside `B26` under CLAMP reads as +0. -/
def netWeights (l : Nat) : List Access → State → List Word × State
  | [], s => ([], s)
  | a :: as, s =>
    let (x, s) := match (if a.inb then xlate s s.grp a.va 0 else .absent) with
      | .ok p => let (bs, s) := laneLoad .mem (scopeOf s 26) 0 l p 2 s; (widen16 bs, s)
      | _ => (0, s)
    let (r, s) := netWeights l as s
    (x :: r, s)

def netTable (l : Nat) : List Word → State → List (Word × List Word) × State
  | [], s => ([], s)
  | off :: r, s =>
    let (w, s) := netWeights l (netAccs s l off) s
    let (t, s) := netTable l r s
    ((off, w) :: t, s)

def netOf (t : List (Word × List Word)) (off : Word) : List Word := ((t.find? fun p => p.1 = off).map fun p => p.2).getD []

/-- The lanes' results, in ascending order. -/
def mixRun (g d : Nat) (dir : Nat → Option V3) (res : (Word → List Word) → Nat → List Word) : List Nat → State → List RegWrite × State
  | [], s => ([], s)
  | l :: ls, s =>
    let (t, s) := netTable l (netOffsets (getG s.grp g l) (dir l)) s
    let (ws, s) := mixRun g d dir res ls s
    (laneWrites d l (res (netOf t) l) ++ ws, s)

/-- `SAMP`, `EVAL` and `PDF`: `dir` is the world direction that a lane's mixture is formed at. -/
def mixWord (n : Need) (g d dw : Nat) (dir : State → Nat → Option V3) (res : State → (Word → List Word) → Nat → List Word) (s : State) : State :=
  word n (fun s =>
    let ls := lanes (active s)
    let o : MemOp := { buf := 26, idx := fun _ => 0, size := 2, kind := 0 }
    let as := ls.flatMap fun l => (netOffsets (getG s.grp g l) (dir s l)).flatMap (netAccs s l)
    match memTraps s o ls as with
    | some t => takeTrap t s
    | none => withSpill 0 (fun l => [(g, (getG s.grp g l).lobes.length)]) ls s (fun _ s =>
      match memTrans s o (as.filter fun a => a.inb) with
      | .trap t => takeTrap t s
      | .walk va => walkStall va 0 s
      | .go got parked =>
        let run := ls.filter fun l => !(parked.any fun p => decide (p.1 = l))
        let beyond := maskOf (run.filter fun l => taskOver s s.grp.uid l ((got.filter fun p => decide (p.1.lane = l)).map fun p => p.2) [])
        if beyond ≠ 0 then parkTasks beyond s
        else if runMeets s o.size got then stallOn .token s else
        let (ws, s') := mixRun g d (dir s) (res s) run (sampled .mem (got.filter fun p => run.contains p.1.lane) s)
        loadFinish 0 d dw ws [] parked (curPos s) s')) s

/-- `SAMP` (R162). -/
def execSamp (g : BitVec 2) (d u : BitVec 8) (s : State) : Host.Outcome State Fault Refusal :=
  let draw := fun s l =>
    sampDraw (getG s.grp g.toNat l) (getV s.grp u.toNat l) (getV s.grp (u.toNat + 1) l) (getV s.grp (u.toNat + 2) l)
  .next (mixWord (closNeed s [g.toNat] [(u.toNat, 3), (d.toNat, 8)] [(u.toNat, 3), (d.toNat, 8)] true) g.toNat d.toNat 8
    (fun s l => match draw s l with
      | .dir _ w => some w
      | _ => none)
    (fun s net l => sampWords net (getG s.grp g.toNat l) (draw s l)) s)

/-- `EVAL` (R161). -/
def execEval (g : BitVec 2) (d w : BitVec 8) (s : State) : Host.Outcome State Fault Refusal :=
  .next (mixWord (closNeed s [g.toNat] [(w.toNat, 3), (d.toNat, 4)] [(w.toNat, 3), (d.toNat, 4)] true) g.toNat d.toNat 4
    (fun s l => some (v3At s w.toNat l))
    (fun s net l =>
      let v := mixEval net (getG s.grp g.toNat l) (v3At s w.toNat l)
      [v.r, v.g, v.b, v.p]) s)

/-- `PDF` (R161), which never reads a network (R160). -/
def execPdf (g : BitVec 2) (d w : BitVec 8) (s : State) : Host.Outcome State Fault Refusal :=
  .next (mixWord (closNeed s [g.toNat] [(w.toNat, 3), (d.toNat, 1)] [(w.toNat, 3), (d.toNat, 1)] true) g.toNat d.toNat 1
    (fun _ _ => none)
    (fun s _ l => [mixPdf (getG s.grp g.toNat l) (v3At s w.toNat l)]) s)

/-! ### Images (R164) -/

/-- The accesses of 544 bytes, which are checked whole, and their pieces of 32 bytes. -/
def imageAccs (s : State) (n x : Nat) (ls : List Nat) : List Access :=
  ls.map fun l => accOf (bufOf s n l) 544 0 l (getV s.grp x l)

def imagePieces (a : Access) : List Access :=
  (List.range 17).map fun k => { a with off := a.off + (32 * k : Nat), va := a.va + 32 * k }

/-- What a closure image word needs. -/
def imageNeed (s : State) (g n x : Nat) (varlat : Bool) : Need :=
  { closNeed s [g] [(x, 1)] [(x, 1)] varlat with hints := { evc := true }, operandBad := (closNeed s [g] [(x, 1)] [] varlat).operandBad || decide (n > 31) }

/-- The checks of R224 for a closure image, then the word's effect on the pieces that proceed. -/
def imageWord (o : MemOp) (s : State) (body : List (Access × Nat) → List (Nat × Nat) → State → State) : State :=
  let ls := lanes (active s)
  let as := imageAccs s o.buf (o.idx 0).toNat ls
  match memTraps s o ls as with
  | some t => takeTrap t s
  | none =>
    match memTrans s o ((as.filter fun a => a.inb).flatMap imagePieces) with
    | .trap t => takeTrap t s
    | .walk va => walkStall va o.kind s
    | .go run parked =>
      let pl := placeOf s.grp o.buf
      let beyond := fun l =>
        let keys := (run.filter fun p => decide (p.1.lane = l)).map fun p => taskKey s.grp pl p.2
        if o.stores then taskOver s s.grp.uid l [] keys else taskOver s s.grp.uid l keys []
      let waiting := maskOf ((run.filter fun p => beyond p.1.lane).map fun p => p.1.lane)
      if waiting ≠ 0 then parkTasks waiting s
      else if runMeets s o.size run then stallOn .token s
      else body run parked (sampled pl run s)

/-- `CSAVE` (R164). -/
def execCsave (g : BitVec 2) (n : BitVec 5) (x : BitVec 8) (s : State) : Host.Outcome State Fault Refusal :=
  let q := n.toNat
  .next (word (imageNeed s g.toNat q x.toNat false) (fun s =>
    let o : MemOp := { buf := q, idx := fun _ => BitVec.ofNat 32 x.toNat, size := 32, kind := 1, stores := true, watch := [1] }
    if scopeOf s q = 3 ∧ placeOf s.grp q = .mem ∧ anySpec s = true then parkTasks (specLanes (active s) s) s
    else imageWord o s (fun run parked s =>
      withSpill 0 (fun l => [(g.toNat, (getG s.grp g.toNat l).lobes.length)]) (lanes (active s)) s (fun _ s =>
        let bytes := fun (a : Access) =>
          let start := (accOf (bufOf s q a.lane) 544 0 a.lane (getV s.grp x.toNat a.lane)).off
          ((closureImage (getG s.grp g.toNat a.lane)).drop (a.off - start).toNat).take 32
        let s' := run.foldl (fun t p => laneStore (placeOf s.grp q) (scopeOf s q) (evcOf s) p.1.lane p.2 (bytes p.1) t) s
        afterPark (parkLanes 1 (curPos s) [] parked s')))) s)

/-- The pieces of the lanes' images, loaded in order: lane and bytes. -/
def imageRun (pl : Place) (scope evc : Nat) : List (Access × Nat) → State → List (Nat × List Byte) × State
  | [], s => ([], s)
  | (a, p) :: r, s =>
    let (bs, s) := laneLoad pl scope evc a.lane p 32 s
    let (l, s) := imageRun pl scope evc r s
    ((a.lane, bs) :: l, s)

/-- The closure that a lane receives. -/
def imageOf (ps : List (Nat × List Byte)) (l : Nat) : Closure :=
  closureOfImage ((ps.filter fun p => decide (p.1 = l)).flatMap fun p => p.2)

/-- `CLOAD` (R164): lanes out of bounds under CLAMP read zeros. -/
def execCload (g : BitVec 2) (n : BitVec 5) (x : BitVec 8) (s : State) : Host.Outcome State Fault Refusal :=
  let q := n.toNat
  .next (word (imageNeed s g.toNat q x.toNat true) (fun s =>
    let o : MemOp := { buf := q, idx := fun _ => BitVec.ofNat 32 x.toNat, size := 32, kind := 0, watch := [0] }
    imageWord o s (fun run parked s =>
      let (ps, s') := imageRun (placeOf s.grp q) (scopeOf s q) (evcOf s) run s
      let ls := (lanes (active s)).filter fun l => !(parked.any fun p => decide (p.1 = l))
      withSpill 1 (fun l => [(g.toNat, (imageOf ps l).lobes.length)]) ls s (fun got s =>
        let s' := spillStores g.toNat (imageOf ps) got ls s'
        if ls.isEmpty then afterPark (parkLanes 0 (curPos s) [] parked s')
        else afterPark (parkLanes 0 (curPos s) [.g g.toNat] parked
          (launchOp [.g g.toNat] [] (ls.map fun l => (g.toNat, l, imageOf ps l)) s'))))) s)

end Sys2Proof.Machine
end

