-- ==== Sys2Proof/Machine/Entries.lean ====
section
/-!
DEFINITION. Pattern-table entries as events (R121, R124): they issue and complete, and their workgroups may retire with them (R33).
-/

namespace Sys2Proof.Machine

/-- An entry completes (R121), and a workgroup that it was the last operation of retires (R33). -/
def completeEntryEffects (e : PEntry) (s : State) : State := retireCheck e.wgU (retireCheck e.wgC (completeEntry e s))

/-- Entries that have begun complete before a save (R124, R145). -/
def completeBegun (p : PEntry → Bool) (s : State) : State := begunWith completeEntryEffects p s

/-- `PATTERN_ENTRY_ISSUE` (R121): the oldest issuable entry of a cluster begins. -/
def execPatternEntryIssue (cluster : Nat) (s : State) : Host.Outcome State Fault Refusal :=
  .next (match oldest ((tableOf cluster s).filter (issuable s)) with
    | none => s
    | some e => { s with pattern := s.pattern.map fun f => if f.id = e.id then { f with begun := true } else f })

/-- `PATTERN_ENTRY_COMPLETE` (R121): an entry that has begun writes its last result. -/
def execPatternEntryComplete (entry : Nat) (s : State) : Host.Outcome State Fault Refusal :=
  .next (match s.pattern.find? fun e => decide (e.id = entry) && e.begun && mayComplete s e with
    | none => s
    | some e => completeEntryEffects e s)

end Sys2Proof.Machine
end

