-- ==== Sys2Proof/Machine/Fetch.lean ====
section
/-!
DEFINITION. What an issuer issues next (R25, R40, R44, R50, R54, R198, R265 to R267, R333): the checks before an issue slot, the turn of
a deterministic workgroup, the selected entry, address breakpoints and the fetch of its word; and the two steps that a
fetched word takes when no instruction can be read from it.
-/

namespace Sys2Proof.Machine

/-! ### Words that are no instruction -/

/-- What a `MOVI` whose `A` is not `ZERO` needs: the operand check fails (R111). -/
def badMovi (w : Word) (s : State) : Need :=
  { vecNeed s (bitsOf w 22 15) 1 [(bitsOf w 14 7, 1)] false true true [] false with operandBad := true }

/-- A word that no issuer accepts. -/
def noIssuer : Need := { vec := false, walk := false, hand := false }

/-- The words with a target, and the reserved fields of their encodings (R264, R287). -/
def targetWords : List (Nat × Nat × List (Nat × Nat)) :=
  [(13, 0, [(21, 18)]), (13, 5, [(21, 18)]), (13, 6, [(21, 0)]), (13, 7, [(21, 16)]), (13, 8, [(21, 16)]), (15, 17, [(21, 20)])]

/-- A transfer with a reserved bit set, without it: its target is checked all the same (R52). -/
def withoutReserved (w : Word) : Option Instr :=
  (targetWords.find? fun t => decide (classOf w = t.1) && decide (bitsOf w 26 22 = t.2.1)).bind fun t =>
    match decodeWord (t.2.2.foldl (fun x f => x &&& ~~~(BitVec.ofNat 32 (2 ^ (f.1 + 1) - 2 ^ f.2))) w) with
    | .ok i => some i
    | .error _ => none

/-- The trap of a word that no instruction encoding accepts: `ILLEGAL_ENCODING`, below the target check of a transfer. -/
def illegalWord (w : Word) (s : State) : State :=
  match withoutReserved w with
  | some (.bra _ o) => directWord noIssuer (offsetOf s 18 o) (fun _ s => s) s
  | some (.call _ o) => directWord noIssuer (offsetOf s 18 o) (fun _ s => s) s
  | some (.regrp _ o _) => directWord noIssuer (offsetOf s 12 o) (fun _ s => s) s
  | some (.ret _) => laneTargetWord noIssuer (retReads s) true [.k 7] (retVal s) id s
  | some (.jmpi _ a _) => laneTargetWord noIssuer (indirectReads a s) false (codeRegs s 1 a.toNat) (indirectVal s a) id s
  | some (.calli _ a _) => laneTargetWord noIssuer (indirectReads a s) false (codeRegs s 1 a.toNat) (indirectVal s a) id s
  | _ => trapOwn cIllegalEncoding s

/-- A fetched word that no instruction encoding accepts takes its precise trap (R54): `ILLEGAL_ENCODING`, which ranks below the traps
of fetch and target only (R52), or for a `MOVI` with `A` other than `ZERO` the `ILLEGAL_OPERAND` of R111. -/
def execIllegalEncoding (w : Word) (s : State) : Host.Outcome State Fault Refusal :=
  .next (
    match decodeWord w with
    | .error .moviSource => word (badMovi w s) id s
    | _ => illegalWord w s)

/-- A fetch that decodes nothing (R40, R52): beyond the code, or from a page that translation refuses. -/
def execFetchFault (refused : Bool) (info : Word) (s : State) : Host.Outcome State Fault Refusal :=
  .next (
    if refused then
      takeTrap { cause := cProtection, mask := active s, addr := codeVa s.grp.code (topcOf s.grp (curPc s)), info := info.toNat } s
    else takeTrap { cause := cIllegalTarget, mask := active s, addr := topcOf s.grp (curPc s) } s)

/-! ### Whether an issuer may issue -/

/-- A vector group's or a bobbin thread's workgroup is on its core (R32, R124). -/
def wgReady (s : State) (g : Group) : Bool :=
  match findWg g.wg s with
  | none => false
  | some w => !w.saved && !(decide (g.kind = .bobbin) && s.pattern.any fun e => e.saved && e.threads.any fun p => decide (p.1 = w.uid))

/-- The walker or handler slot of the issuer's core runs this routine: a slot serves one at a time (R305, R324), the one that started first
where a restore has brought two to a core. -/
def ownsSlot (s : State) (g : Group) : Bool :=
  !((allGroups s).any fun h => decide (h.kind = g.kind) && decide (h.core = g.core) && decide (0 < h.uid) && decide (h.uid < g.uid)
    && ((findCtx h.ctx s).map fun c => c.resident || c.ending).getD false)

/-- The issuer may issue: it runs, its context is resident (or ends, for the walker), its workgroup is placed. -/
def mayIssue (s : State) (g : Group) : Bool :=
  decide (g.uid ≠ 0) && decide (g.stop = .running) && decide (g.live ≠ 0)
    && (match findCtx g.ctx s with
      | none => false
      | some c => (c.resident && !c.held) || (c.ending && decide (g.kind = .walker)))
    && (match g.kind with
      | .vector => wgReady s g
      | .bobbin => wgReady s g
      | _ => ownsSlot s g)

/-! ### Rounds (R198) -/

/-- A group that yields its turn: every lane waits, or has exited. -/
def yieldsTurn (g : Group) : Bool :=
  decide (g.live = 0) || (g.act.isNone && g.hem.isEmpty && decide (g.stop = .running) && g.frontier.all (waits g))

/-- The turn of a workgroup's group index, when such a group can use it. -/
def turnUsed (gs : List Group) (i : Nat) : Bool := gs.any fun g => decide (g.gidx = i) && !yieldsTurn g

/-- The round and turn after the groups that yield. -/
def passTurns (gs : List Group) (n : Nat) : Nat → Nat → Nat → Nat × Nat
  | 0, round, turn => (round, turn)
  | fuel + 1, round, turn =>
    if turnUsed gs turn then (round, turn)
    else if turn + 1 < n then passTurns gs n fuel round (turn + 1)
    else passTurns gs n fuel (round + 1) 0

/-- In a deterministic context, a vector group issues only in its turn; when no group of the workgroup can use a turn, the
turn stays. -/
def takeTurn (s : State) : Bool × State :=
  let g := s.grp
  if !(ctxOf s).det || decide (g.kind ≠ .vector) then (true, s)
  else
    let gs := groupsOfWg g.wg s
    if gs.all yieldsTurn then (false, s)
    else
      let n := gs.foldl (fun n x => max n (x.gidx + 1)) 0
      let w := wgOf s
      let (round, turn) := passTurns gs n (2 * n) w.round w.turn
      let s := updWg g.wg (fun w => { w with round := round, turn := turn }) s
      (decide (turn = g.gidx), s)

/-! ### Selecting and fetching -/

/-- What an issue slot comes to. -/
inductive Issue where
  | word (i : Instr) (s : State)
  /-- A word that the decoder refuses (R54). -/
  | illegal (w : Word) (s : State)
  /-- A fetch that gives no word (R40, R52). -/
  | nothing (refused : Bool) (info : Word) (s : State)
  | idle (s : State)

/-- The issuer with its path selected: a path that has not opened its clause is selected anew. -/
def withPath (s : State) : Option State :=
  let back := match s.grp.act with
    | some e => match e.pos with
      | some _ => none
      | none => some (addEntry e { s.grp with act := none })
    | none => some s.grp
  match back with
  | none => some s
  | some g => match selectEntry s g with
    | none => none
    | some e =>
      some { s with grp := { g with act := some (if e.pos.isSome then { e with age := 0 } else e), frontier := g.frontier.filter fun f => decide (f ≠ e) } }

/-- An address breakpoint on the word that would issue (R330, R333): of a group or a bobbin thread, not of a routine. -/
def breakHere (s : State) : Bool :=
  (decide (s.grp.kind = .vector) || decide (s.grp.kind = .bobbin)) && (ctxOf s).attached && decide (s.grp.noBreak ≠ some (stepStart s))
    && (ctxOf s).breaks.any fun b =>
      decide (b.kind = 0) && decide (b.value = topcOf s.grp (curPc s)) &&
        (decide (b.target = 2 ^ 31) || decide (b.target = slotCode s.grp * 2 ^ 16 + whoCore s.grp))

/-- The instruction of a fetched word, or the trap of a word that none accepts (R54). -/
def decoded (w : Word) (s : State) : Issue :=
  match decodeWord w with
  | .ok i => .word i s
  | .error _ => .illegal w s

/-- The word at the path's address. -/
def fetchWord (s : State) : Issue :=
  match readCode s s.grp (curPc s) with
  | .word w => decoded w (codeFlit s.grp (curPc s) s)
  | .beyond => .nothing false 0 s
  | .trans va .miss => .idle (walkStall va 2 s)
  | .trans va .absent => .idle (parkPath 2 va s)
  | .trans _ t => .nothing true (BitVec.ofNat 32 (refusedInfo t)) s

/-- A path that a handler moved is checked before it issues (R326); then a breakpoint may stop it before its step, which no debug stop
parts (R44); then it is fetched. -/
def issuePath (s : State) : Issue :=
  let moved := (s.grp.act.map fun e => e.edited).getD false
  match (if moved then targetOf (readCode s s.grp) (curPc s) else .header) with
  | .bad => .idle (takeTrap { cause := cIllegalTarget, mask := active s, addr := curPc s } (s.setAct fun e => { e with edited := false }))
  | .unread va t => .idle (unreadTarget (va, t) s)
  | .header =>
    let s := s.setAct fun e => { e with edited := false }
    if breakHere s then .idle (takeTrap { cause := cBreakpoint, mask := active s, info := 2 ^ 16 } (s.setAct rewindHints))
    else fetchWord s

/-- What the loaded issuer issues. -/
def nextInstr (s : State) : Issue :=
  if !mayIssue s s.grp then .idle s
  else
    let (mine, s) := takeTurn s
    if !mine || s.grp.hem.any (fun e => e.holds) then .idle s
    else match withPath s with
      | none => .idle s
      | some s => issuePath s

/-- The S registers that a word of a vector group reads: its own fields, and what `XSCL` and `XRND SR` name before it (R46). -/
def readsS (h : Hints) (i : Instr) : List Nat :=
  let hints := (h.scl.map fun s => s.toNat).toList ++ ((h.rnd.map fun r => r.seed.toNat).toList)
  let own := match i with
    | .mmov _ _ _ s => [s.toNat, s.toNat + 1]
    | .sadd _ _ a b => [a.toNat, b.toNat]
    | .ssub _ _ a b => [a.toNat, b.toNat]
    | .smul _ _ a b => [a.toNat, b.toNat]
    | .sand _ _ a b => [a.toNat, b.toNat]
    | .sor _ _ a b => [a.toNat, b.toNat]
    | .sxor _ _ a b => [a.toNat, b.toNat]
    | .sshl _ _ a b => [a.toNat, b.toNat]
    | .sshr _ _ a b => [a.toNat, b.toNat]
    | .ssar _ _ a b => [a.toNat, b.toNat]
    | .smin _ _ a b => [a.toNat, b.toNat]
    | .smax _ _ a b => [a.toNat, b.toNat]
    | .saddi _ _ a _ => [a.toNat]
    | .smovhi _ d _ => [d.toNat]
    | .sset _ _ a b _ => [a.toNat, b.toNat]
    | .vread _ _ a _ => [a.toNat]
    | .sldc _ _ a _ _ => [a.toNat]
    | .csrw _ a _ => [a.toNat]
    | .bset _ _ a => [a.toNat, a.toNat + 1, a.toNat + 2, a.toNat + 3]
    | .copy _ _ _ _ a => [a.toNat, a.toNat + 1, a.toNat + 2]
    | .waitb _ a => [a.toNat]
    | .brs _ a _ => [a.toNat]
    | .brsz _ a _ => [a.toNat]
    | .spawn _ a => [a.toNat, a.toNat + 1]
    | .qpush _ q _ _ => [q.toNat]
    | .tfeed _ a _ _ => [a.toNat]
    | .tdrain _ a _ _ => [a.toNat]
    | .trel _ a => [a.toNat]
    | _ => []
  hints ++ own

/-- A word that issued is progress of its context (R337), the first one of a group or a bobbin thread starts its grid's time (R255), and the
completed tokens that it read tell its group of their copies (R245). `before` is the state that the word was read in. A word that stalls
has not issued. -/
def afterIssue (i : Instr) (before after : State) : State :=
  let g := before.grp
  let stalled := match findGroup g.uid after with
    | some h => decide (h.stall ≠ Stall.none)
    | none => false
  if stalled then after
  else
    let after := if g.copies.isEmpty then after
      else updGroup g.uid (seeCopies fun c => (c.sreg.map fun k => (readsS (curHints before) i).contains k).getD false) after
    let s := updCtx g.ctx (fun c => { c with lastProgress := before.time })
      (updGroup g.uid (fun g => { g with ready := before.time }) after)
    if g.kind = Issuer.vector ∨ g.kind = Issuer.bobbin then
      updGrid (wgOf before).grid (fun r => { r with tstart := match r.tstart with
        | some t => some t
        | none => some before.time }) (if g.kind = .bobbin then { s with bobNext := sput 0 (g.core / 4) (g.slot + 1) s.bobNext } else s)
    else s

/-! ### The steps that the device takes by itself -/

/-- A row of the opcode table without a word that a turn of the schedule may name. Every other instruction is reached
through an issuer's fetch only. -/
def isEvent : Instr → Bool
  | .hostTailWrite _ _ => true
  | .launchAdmit _ _ => true
  | .tailorRun _ => true
  | .workgroupPlace _ _ _ _ _ => true
  | .groupFormTimeout _ _ _ => true
  | .varLatencyComplete _ _ => true
  | .rayWalkComplete _ _ => true
  | .visqComplete _ _ => true
  | .copyComplete _ _ => true
  | .patternTableEnter _ => true
  | .patternEntryIssue _ => true
  | .patternEntryComplete _ => true
  | .storePerformAtHome _ => true
  | .l1WriteBack _ _ => true
  | .leaseExpiry _ _ _ => true
  | .fenceReleaseComplete _ => true
  | .appendGrant _ => true
  | .groupRetire _ => true
  | .completionRecordWrite _ => true
  | .workgroupSaveOut _ => true
  | .workgroupRestore _ _ _ => true
  | .taskCommit _ => true
  | .issueStarvation _ _ => true
  | .frontierAgeLimit _ => true
  | .tlbMissWalk _ => true
  | .pageReportWrite => true
  | .handlerStart _ => true
  | .preempt _ => true
  | .contextMakeResident _ _ => true
  | .hangWatchdog _ => true
  | .eccCorrectable _ _ => true
  | .eccUncorrectable _ _ _ _ => true
  | .deviceStart _ => true
  | .firmwareReadyTimeout => true
  | .peerLeaveAnnounce _ => true
  | .peerSilenceTimeout _ => true
  | .peerJoin _ _ => true
  | .timeJoinComplete _ => true
  | .presentCheck => true
  | .presentInstant => true
  | .hostCxlMemWrite _ _ => true
  | .hostCxlMemRead _ _ => true
  | .sampleRecord _ _ _ _ => true
  | .mbevtWrite _ => true
  | .mailboxRegisterWrite _ _ => true
  | .mailboxUnknown => true
  | .ctxCreate => true
  | .ctxDestroy => true
  | .map => true
  | .hemResume => true
  | .unmap => true
  | .faultRing => true
  | .queueSetup => true
  | .queueClose => true
  | .poolSetup => true
  | .queueReset => true
  | .traceArm => true
  | .traceStatus => true
  | .peerExport => true
  | .peerImport => true
  | .framelock => true
  | .frameSource => true
  | .frameStatus => true
  | .attest => true
  | .pocketRead => true
  | .dbgAttach => true
  | .dbgDetach => true
  | .dbgHalt => true
  | .dbgResume => true
  | .dbgBreak => true
  | .dbgWatch => true
  | .dbgRead => true
  | .dbgWrite => true
  | .dbgSample => true
  | .dbgEvents => true
  | .ctxPreempt => true
  | .ctxRestore => true
  | .unitMap => true
  | .cxlCacheSnoop _ _ => true
  | .peerAccess _ _ _ _ => true
  | .ideStreamSetup => true
  | .partitionChange _ => true
  | .thermalClockLimit _ => true
  | _ => false

end Sys2Proof.Machine
end

