-- ==== Sys2Proof/Machine/Keccak.lean ====
section
/-!
DEFINITION. KMAC256 (R190): the Keccak permutation of FIPS 202 and the functions that NIST SP 800-185 builds on it, on bytes.
-/

namespace Sys2Proof.Machine

/-- A lane of the Keccak state. -/
abbrev KLane := BitVec 64

/-- The 25 lanes of the state, lane `x + 5 * y`. -/
abbrev KState := List KLane

def klane (a : KState) (x y : Nat) : KLane := a.getD (x % 5 + 5 * (y % 5)) 0

/-- A state from its lanes. -/
def kbuild (f : Nat → Nat → KLane) : KState := (List.range 25).map fun i => f (i % 5) (i / 5)

/-- The step `theta`. -/
def ktheta (a : KState) : KState :=
  let c := (List.range 5).map fun x => klane a x 0 ^^^ klane a x 1 ^^^ klane a x 2 ^^^ klane a x 3 ^^^ klane a x 4
  let d := (List.range 5).map fun x => c.getD ((x + 4) % 5) 0 ^^^ (c.getD ((x + 1) % 5) 0).rotateLeft 1
  kbuild fun x y => klane a x y ^^^ d.getD x 0

/-- The rotation offsets of `rho`, lane by lane. -/
def kOffsets : List Nat := [0, 1, 62, 28, 27, 36, 44, 6, 55, 20, 3, 10, 43, 25, 39, 41, 45, 15, 21, 8, 18, 2, 61, 56, 14]

/-- The steps `rho` and `pi`. -/
def kshuffle (a : KState) : KState :=
  kbuild fun x y => (klane a (x + 3 * y) x).rotateLeft (kOffsets.getD ((x + 3 * y) % 5 + 5 * x) 0)

/-- The step `chi`. -/
def kchi (a : KState) : KState := kbuild fun x y => klane a x y ^^^ (~~~(klane a (x + 1) y) &&& klane a (x + 2) y)

/-- The constants of `iota`, round by round. -/
def kConstants : List KLane :=
  [0x0000000000000001, 0x0000000000008082, 0x800000000000808A, 0x8000000080008000, 0x000000000000808B, 0x0000000080000001,
   0x8000000080008081, 0x8000000000008009, 0x000000000000008A, 0x0000000000000088, 0x0000000080008009, 0x000000008000000A] ++
  [0x000000008000808B, 0x800000000000008B, 0x8000000000008089, 0x8000000000008003, 0x8000000000008002, 0x8000000000000080,
   0x000000000000800A, 0x800000008000000A, 0x8000000080008081, 0x8000000000008080, 0x0000000080000001, 0x8000000080008008]

/-- One round. -/
def kround (a : KState) (c : KLane) : KState :=
  match kchi (kshuffle (ktheta a)) with
  | l :: ls => (l ^^^ c) :: ls
  | [] => []

/-- The permutation. -/
def keccak (a : KState) : KState := kConstants.foldl kround a

/-- A block of 136 bytes is absorbed. -/
def absorb (a : KState) (bs : List Byte) : KState :=
  keccak ((indexed 0 a).map fun p => if p.1 < 17 then p.2 ^^^ BitVec.ofNat 64 (ofBytes ((bs.drop (8 * p.1)).take 8)) else p.2)

/-- Blocks of 136 bytes, by their number. -/
def absorbAll : Nat → List Byte → KState → KState
  | 0, _, a => a
  | n + 1, bs, a => absorbAll n (bs.drop 136) (absorb a (bs.take 136))

/-- The padding of a message to whole blocks after its domain bits: `dom` is 0x04 for cSHAKE (SP 800-185), 0x1F for SHAKE. -/
def kpad (dom : Byte) (bs : List Byte) : List Byte :=
  let z := 136 - bs.length % 136
  if z = 1 then bs ++ [dom ||| 0x80] else bs ++ [dom] ++ List.replicate (z - 2) 0 ++ [0x80]

/-- The first `n` bytes of the sponge, at most one block. -/
def sponge (dom : Byte) (bs : List Byte) (n : Nat) : List Byte :=
  let p := kpad dom bs
  ((absorbAll (p.length / 136) p (List.replicate 25 0)).flatMap fun l => toBytes 8 l.toNat).take n

/-- SHAKE256: `n` bytes of output. -/
def shake256 (bs : List Byte) (n : Nat) : List Byte := sponge 0x1F bs n

/-- The bytes of a length, most significant first, and their count. -/
def lengthBytes (n : Nat) : List Byte := (toBytes (max 1 ((Nat.log2 n) / 8 + 1)) n).reverse

def leftEncode (n : Nat) : List Byte := BitVec.ofNat 8 (lengthBytes n).length :: lengthBytes n
def rightEncode (n : Nat) : List Byte := lengthBytes n ++ [BitVec.ofNat 8 (lengthBytes n).length]
def encodeString (bs : List Byte) : List Byte := leftEncode (8 * bs.length) ++ bs

/-- Bytes padded to whole blocks. -/
def bytePad (bs : List Byte) : List Byte :=
  let l := leftEncode 136 ++ bs
  l ++ List.replicate ((136 - l.length % 136) % 136) 0

/-- KMAC256 with an empty customisation string: `n` bytes of output. -/
def kmac256 (key msg : List Byte) (n : Nat) : List Byte :=
  sponge 0x04 (bytePad (encodeString [0x4B, 0x4D, 0x41, 0x43] ++ encodeString []) ++ bytePad (encodeString key) ++ msg ++ rightEncode (8 * n)) n

end Sys2Proof.Machine
end

