-- ==== Sys2Proof/Machine/Queues.lean ====
section
/-!
DEFINITION. The queue words: `QPUSH`, the wardrobe and `REGRP` (R31, R204 to R206, R258, R259, R262 to R264).
-/

namespace Sys2Proof.Machine

/-! ### `QPUSH` (R259) -/

/-- The S register's queue number. -/
def queueNum (s : State) (q : BitVec 6) : Nat := (getS s.grp q.toNat).toNat % 2 ^ 14

/-- The queue a push goes to: a device queue of the context that is open. -/
def pushQueue (s : State) (n : Nat) : Option Queue :=
  (findQueue n s).filter fun q => q.device && decide (q.ctx = s.grp.ctx) && !q.closed

/-- The task of a lane (R204, R205). -/
def taskOf (s : State) (uid lane : Nat) : Option Task :=
  s.tasks.find? fun t => decide (t.grp = uid) && decide (t.lane = lane) && !t.exited

/-- Whether the timestamps of the listed lanes break R206: `last` is the last one that the group pushed to the queue. -/
def tsBreaks (s : State) (q : Nat) (ts : Nat → Nat) : List Nat → Nat → Bool
  | [], _ => false
  | l :: ls, last =>
    match taskOf s s.grp.uid l with
    | some t =>
      decide (ts l < t.ts) || (decide (t.queue ≠ q) && decide (ts l < last)) || tsBreaks s q ts ls (if t.queue = q then last else ts l)
    | none => decide (ts l < last) || tsBreaks s q ts ls (ts l)

/-- The last timestamp that a group pushed to a queue, 0 at first (R206). -/
def lastPushed (g : Group) (q : Nat) : Nat := ((g.pushed.find? fun p => p.1 = q).map fun p => p.2).getD 0

/-- One lane's push: held back in a speculative task (R205). -/
def pushLane (q : Nat) (l : Nat) (x : Word) (ts : Nat) (s : State) : State :=
  match specTask s s.grp.uid l with
  | some _ => updTask s.grp.uid l (fun t => { t with pushes := t.pushes ++ [(q, x, ts)] }) s
  | none => enterQueue q x ts s

/-- The lanes whose entries enter the queue now. -/
def directLanes (s : State) : List Nat := (lanes (active s)).filter fun l => (specTask s s.grp.uid l).isNone

/-- `QPUSH` (R259). -/
def execQpush (q : BitVec 6) (v t : BitVec 8) (s : State) : Host.Outcome State Fault Refusal :=
  let det := (ctxOf s).det
  .next (word
    { vectorNeed (.s q.toNat :: .v v.toNat :: (if det then [.v t.toNat] else []))
        (decide (active s ≠ 0) && (!plainV s 1 v.toNat || !plainV s 1 t.toNat))
      with early := [.s q.toNat], valueBad := decide (active s ≠ 0) && decide ((getS s.grp q.toNat).toNat ≥ 2 ^ 14) }
    (fun s =>
      let n := queueNum s q
      let ts := fun l => (getV s.grp t.toNat l).toNat
      if active s = 0 then finish s
      else match pushQueue s n with
        | none => takeTrap { cause := cQueueFault, mask := active s, info := n } s
        | some qu =>
          if det && tsBreaks s n ts (lanes (active s)) (lastPushed s.grp n) then
            takeTrap { cause := cDetViolation, mask := active s, info := 6 } s
          else if qu.capacity - qu.entries.length < (directLanes s).length then stallOn .queue s
          else match queueWaits s qu (directLanes s).length with
          | some (va, t) => stallOn .queue (agentWait (queueCore s qu) qu.ctx va 1 t s)
          | none => withRelease (fun s =>
            let ls := lanes (active s)
            let s := ls.foldl (fun s l => pushLane n l (getV s.grp v.toNat l) (ts l) s) s
            let s := if det then s.setG fun g =>
                { g with pushed := g.pushed.filter (fun p => decide (p.1 ≠ n)) ++ [(n, (ls.getLast?.map ts).getD 0)] } else s
            finish (queueForm n s)) s) s)

/-! ### The wardrobe (R262, R263) -/

/-- The lowest free slots of a pool for a number of lanes; all ones when none is left. -/
def takeSlots (cap : Nat) : List Nat → List Nat → List (Nat × Word) × List Nat
  | [], taken => ([], taken)
  | l :: ls, taken =>
    match (List.range (min cap (taken.length + 1))).find? fun i => !taken.contains i with
    | some i => let (r, t) := takeSlots cap ls (i :: taken); ((l, BitVec.ofNat 32 i) :: r, t)
    | none => let (r, t) := takeSlots cap ls taken; ((l, 0xFFFFFFFF) :: r, t)

/-- A pool of the issuer's context. -/
def poolOf (s : State) (n : Nat) : Option Pool := (ctxOf s).pools.find? fun p => p.id = n

def setTaken (n : Nat) (taken : List Nat) (s : State) : State :=
  updCtx s.grp.ctx (fun c => { c with pools := c.pools.map fun p => if p.id = n then { p with taken := taken } else p }) s

/-- What both words need and check first (R263). -/
def wardrobe (v : BitVec 8) (p : BitVec 6) (body : Pool → State → State) (s : State) : State :=
  word { vectorNeed [.v v.toNat] (!plainV s 1 v.toNat) with feats := [11] } (fun s =>
    match poolOf s p.toNat with
    | none => takeTrap { cause := cQueueFault, mask := active s, info := p.toNat } s
    | some pool => if (ctxOf s).det then takeTrap { cause := cDetViolation, mask := active s, info := 7 } s else body pool s) s

/-- `PSLOT` (R263); a lane that finds the pool empty sets `PSEMPTY` (R286). -/
def execPslot (d : BitVec 8) (p : BitVec 6) (s : State) : Host.Outcome State Fault Refusal :=
  .next (wardrobe d p (fun pool s =>
    let (r, taken) := takeSlots pool.cap (lanes (active s)) pool.taken
    let s := if r.any fun q => decide (q.2 = 0xFFFFFFFF) then updWg s.grp.wg (fun w => { w with flags := w.flags ||| 4 }) s else s
    finish (writeResult d.toNat 1 (fun l => [((r.find? fun q => q.1 = l).map fun q => q.2).getD 0]) (setTaken p.toNat taken s))) s)

/-- A value stands twice in a list. -/
def hasTwice : List Nat → Bool
  | [] => false
  | a :: r => r.contains a || hasTwice r

/-- `PFREE` (R263). -/
def execPfree (d : BitVec 8) (p : BitVec 6) (s : State) : Host.Outcome State Fault Refusal :=
  .next (wardrobe d p (fun pool s =>
    let is := (lanes (active s)).map fun l => (getV s.grp d.toNat l).toNat
    if is.any (fun i => decide (i ≥ pool.cap) || !pool.taken.contains i) || hasTwice is then
      takeTrap { cause := cQueueFault, mask := active s, info := p.toNat } s
    else finish (setTaken p.toNat (pool.taken.filter fun i => !is.contains i) s)) s)

/-! ### `REGRP` (R264) -/

/-- The entries of the active threads in a bin (R31, R203). -/
def binEntries (s : State) (v : Nat) : List BinEntry :=
  (indexed s.nextId (lanes (active s))).map fun p =>
    { id := p.1, val := getV s.grp v p.2, time := s.time, gen := (wgOf s).gen, gid := (wgOf s).gid, side := (wgOf s).side
      round := (wgOf s).round, gidx := s.grp.gidx, lane := p.2 }

/-- One thread's entry (R205, log entry 95): that of a speculative task is held until the task commits, and the others enter their bin. -/
def enterBin (grid target : Nat) (e : BinEntry) (s : State) : State :=
  match specTask s s.grp.uid e.lane with
  | some _ => updTask s.grp.uid e.lane (fun t => { t with regrps := t.regrps ++ [(target, e)] }) s
  | none => updGrid grid (addToBin target [e]) s

/-- `REGRP` (R31, R264). -/
def execRegrp (o : BitVec 12) (v : BitVec 8) (s : State) : Host.Outcome State Fault Refusal :=
  .next (directWord
    { vectorNeed [.v v.toNat] (!plainV s 1 v.toNat) with feats := [11], hints := { imm := true } }
    (offsetOf s 12 o) (fun t s =>
      let g := gridOf s
      let grid := g.uid
      if active s = 0 then exitLanes 0 s
      else if !(g.bins.any fun b => b.target = t) && decide (g.bins.length ≥ 256) then
        takeTrap { cause := cQueueFault, mask := active s, info := 256 } s
      else withRelease (fun s =>
        let es := binEntries s v.toNat
        let s := es.foldl (fun s e => enterBin grid t e s) { s with nextId := s.nextId + es.length }
        let s := if (ctxOf s).det then s else updGrid grid (fun g => binForm false t (es.length + 1) g) s
        exitLanes (active s) s) s) s)

end Sys2Proof.Machine
end

