-- ==== Sys2Proof/Machine/Launch.lean ====
section
/-!
DEFINITION. The front end (R172, R190, R193, R247, R251 to R257): host queues, the launch record and its checks, failure, admission,
and the code object's header (R50, R51).
-/

namespace Sys2Proof.Machine

/-! ### Fields of records -/

/-- Bytes of a record are all zero. -/
def zeroAt (bs : List Byte) (off n : Nat) : Bool := ((bs.drop off).take n).all fun b => decide (b = 0)

/-- The widths by code (R251). -/
def widthOfCode (n : Nat) : Nat := match n with
  | 0 => 8
  | 1 => 16
  | 2 => 32
  | _ => 64

/-- The fields of a launch record (R251). -/
def launchOf (r : List Byte) : Launch :=
  let flags := fieldAt r 0x1C 4
  { code := fieldAt r 0x00 8, gx := fieldAt r 0x08 4, gy := fieldAt r 0x0C 4, gz := fieldAt r 0x10 4
    wx := fieldAt r 0x14 2, wy := fieldAt r 0x16 2, wz := fieldAt r 0x18 2, width := widthOfCode (fieldAt r 0x1A 1)
    prio := fieldAt r 0x1B 1, coop := flags.testBit 0, det := flags.testBit 1, pair := flags.testBit 2, tailor := flags.testBit 3
    queued := flags.testBit 4, static := fieldAt r 0x20 8, args := fieldAt r 0x28 8, argCount := fieldAt r 0x30 2
    scratch := fieldAt r 0x32 1, carve := fieldAt r 0x33 1, queue := fieldAt r 0x34 4, compl := fieldAt r 0x38 8 }

/-- The carve-out that a launch has (R210), in units of 64 KiB. -/
def effCarve (l : Launch) : Nat := if l.carve = 0 then 4 else l.carve

/-- The grid's workgroup count (R18), and the threads of a workgroup. -/
def Launch.wgs (l : Launch) : Nat := l.gx * l.gy * l.gz
def Launch.threads (l : Launch) : Nat := l.wx * l.wy * l.wz

/-- Check 1 of R254. -/
def recordBad (r : List Byte) : Bool :=
  let l := launchOf r
  !zeroAt r 0x40 64 || decide (fieldAt r 0x1C 4 / 32 ≠ 0) || decide (fieldAt r 0x1A 1 ≥ 4) || decide (l.prio ≥ 16)
    || decide (l.compl % 64 ≠ 0) || decide (l.queue ≥ 2 ^ 14) || (!l.queued && decide (l.queue ≠ 0))
    || decide (l.carve > 12) || decide (l.scratch > 12) || decide (l.scratch > effCarve l)
    || decide (l.argCount > 256) || (decide (l.argCount ≠ 0) && decide (l.args % 4 ≠ 0))
    || decide (l.static / 2 ^ l.argCount ≠ 0) || decide (l.code % 256 ≠ 0)
    || decide (l.threads = 0) || decide (l.threads > 1024) || decide (l.wgs = 0) || decide (l.wgs > 2 ^ 32 - 1)
    || (l.queued && !(decide (l.gx = 1) && decide (l.gy = 1) && decide (l.gz = 1)
          && decide (l.wx = l.width) && decide (l.wy = 1) && decide (l.wz = 1)))

/-- The declarations of a header (R50). -/
def codeOf (va : Nat) (h : List Byte) : Code :=
  { va := va, size := fieldAt h 0x18 4, ventry := fieldAt h 0x1C 4, bentry := fieldAt h 0x20 4
    features := BitVec.ofNat 128 (fieldAt h 0x08 16), flags := fieldAt h 0x04 4, vregs := fieldAt h 0x24 2, kregs := fieldAt h 0x26 1
    closures := fieldAt h 0x27 1, scratch := fieldAt h 0x28 4, traceDepth := fieldAt h 0x2C 1, widths := fieldAt h 0x2D 1
    tiles := fieldAt h 0x30 2, accs := fieldAt h 0x32 2, objid := fieldAt h 0xD8 8, hash := fieldAt h 0xE0 32 }

/-- `CAPS0` to `CAPS3` (R16). -/
def deviceCaps : BitVec 128 := 0x1FFF

/-- An offset from the object's start that names a code word (R51, check 5). -/
def inCode (c : Code) (off : Nat) : Bool := decide (off % 4 = 0) && decide (0x100 ≤ off) && decide (off < 0x100 + 4 * c.size)

/-- The bobbin code is present. -/
def Code.bobbin (c : Code) : Bool := c.flags.testBit 2

/-- Checks 1 and 2 of R51. -/
def headerBad (h : List Byte) : Bool :=
  decide (fieldAt h 0 4 ≠ 0x4D485231) || !zeroAt h 0x3C 0x9C || !zeroAt h 0x2E 2 || decide (fieldAt h 0x2D 1 / 16 ≠ 0)
    || decide (fieldAt h 0x04 4 / 8 ≠ 0) || decide (fieldAt h 0xE0 32 = 0) || decide (fieldAt h 0xD8 8 = 0)

/-- Checks 4 and 5 of R51. -/
def declsBad (h : List Byte) (c : Code) : Bool :=
  decide (c.vregs < 8) || decide (c.vregs > 224) || decide (c.vregs % 8 ≠ 0) || decide (c.kregs > 8) || decide (c.closures > 4)
    || decide (c.scratch % 65536 ≠ 0) || decide (c.scratch > 12 * 65536) || decide (c.traceDepth > 31) || decide (c.tiles > 512)
    || decide (c.accs > 128) || (!c.bobbin && decide (c.bentry ≠ 0))
    || (decide (fieldAt h 0x38 4 = 0) && decide (fieldAt h 0x34 4 ≠ 0))
    || !inCode c c.ventry || (c.bobbin && !inCode c c.bentry) || (decide (fieldAt h 0x38 4 ≠ 0) && !inCode c (fieldAt h 0x34 4))

/-- A word that is a clause header (R40). -/
def isHeaderWord (w : Word) : Bool := decide (classOf w = 0) && !w.getLsbD 27

/-- Check 9 of R51 and the agreement of R195. -/
def flagsMismatch (det : Bool) (l : Launch) (c : Code) : Bool :=
  (l.pair && !(c.flags.testBit 1 && c.features.getLsbD 5)) || (l.tailor && !(c.flags.testBit 0 && c.features.getLsbD 6))
    || decide (l.det ≠ det) || (det && !c.features.getLsbD 7)

/-! ### Units and their rooms (R23, R24, R29) -/

/-- The dies of a partition that work (R301). -/
def partDies (s : State) (c : Context) : List Nat := (List.range c.partSize).map (fun i => c.partBase + i) |>.filter (dieWorks s)

/-- What is free in a quarter. -/
structure QFree where
  slots : List Nat
  rows : Nat
  bytes : Nat
  deriving DecidableEq, Repr

/-- A unit of allocation (R23): slots, rows and closure bytes, and the groups that share it. -/
structure PUnit where
  slots : Nat
  rows : Nat
  bytes : Nat
  groups : Nat
  deriving DecidableEq, Repr

/-- The units of a workgroup of `n` groups. -/
def unitsOf (width vregs clos n : Nat) : List PUnit :=
  if width = 8 then
    List.replicate (n / 2) { slots := 1, rows := vregs, bytes := 160 * clos * 16, groups := 2 }
      ++ (if n % 2 = 1 then [{ slots := 1, rows := vregs, bytes := 160 * clos * 8, groups := 1 }] else [])
  else List.replicate n { slots := width / 16, rows := width / 16 * vregs, bytes := 160 * clos * width, groups := 1 }

/-- The number of groups of a workgroup. -/
def Launch.groups (l : Launch) : Nat := (l.threads + l.width - 1) / l.width

/-- The first quarter with room for a unit takes it. -/
def takeUnit (u : PUnit) : List QFree → Option (List Nat × List QFree)
  | [] => none
  | q :: qs =>
    if u.slots ≤ q.slots.length ∧ u.rows ≤ q.rows ∧ u.bytes ≤ q.bytes then
      some (q.slots.take u.slots, { slots := q.slots.drop u.slots, rows := q.rows - u.rows, bytes := q.bytes - u.bytes } :: qs)
    else match takeUnit u qs with
      | none => none
      | some (r, qs) => some (r, q :: qs)

/-- Every unit finds its place, or none does; the places are by group. -/
def takeUnits : List PUnit → List QFree → Option (List (List Nat) × List QFree)
  | [], qs => some ([], qs)
  | u :: us, qs =>
    match takeUnit u qs with
    | none => none
    | some (r, qs) => match takeUnits us qs with
      | none => none
      | some (rs, qs) => some (List.replicate u.groups r ++ rs, qs)

/-- The quarters of an empty core. -/
def emptyCore : List QFree :=
  (List.range 4).map fun q => { slots := (List.range 64).map fun i => 64 * q + i, rows := 2048, bytes := 131072 }

/-- How many workgroups an empty core's quarters hold, up to a bound. -/
def coreHolds (us : List PUnit) : Nat → List QFree → Nat
  | 0, _ => 0
  | fuel + 1, qs => match takeUnits us qs with
    | none => 0
    | some (_, qs) => coreHolds us fuel qs + 1

/-- The workgroups of a launch that an empty core holds (R29). -/
def coreFits (l : Launch) (c : Code) : Nat :=
  let n := coreHolds (unitsOf l.width c.vregs c.closures l.groups) 256 emptyCore
  if l.scratch = 0 then n else min n (effCarve l / l.scratch)

/-- A pair that no cluster can hold (R135): its tiles or accumulators, or the vector resources of a side. -/
def pairTooLarge (l : Launch) (c : Code) : Bool :=
  l.pair && (c.bobbin && (decide (2 * c.tiles > 512) || decide (2 * c.accs > 128)) || decide (coreFits l c = 0))

/-- The workgroups of a launch that an empty cluster holds (R29, R135). -/
def clusterFits (s : State) (l : Launch) (c : Code) (k : Nat) : Nat :=
  if !clusterWorks s k then 0
  else
    let n := ((List.range 4).filter fun i => coreWorks s (4 * k + i)).length * coreFits l c
    let n := if c.bobbin then min n 8 else n
    let n := if c.bobbin && decide (c.tiles ≠ 0) then min n (512 / c.tiles) else n
    let n := if c.bobbin && decide (c.accs ≠ 0) then min n (128 / c.accs) else n
    if l.pair then n / 2 else n

/-- A `COOP` launch fits in its partition when that holds nothing else (R29). -/
def coopFits (s : State) (x : Context) (l : Launch) (c : Code) : Bool :=
  let ks := (partDies s x).flatMap fun d => (List.range 12).map fun i => 12 * d + i
  decide (l.wgs ≤ (ks.map (clusterFits s l c)).foldl (· + ·) 0)
    && decide (l.wgs * l.threads * (if l.pair then 2 else 1) ≤ x.windows)

/-! ### The checks (R254) -/

/-- What the checks of a record come to. -/
inductive Verdict where
  /-- A translation that did not succeed: the front end waits. -/
  | wait (va kind : Nat) (t : Trans)
  | fail (status : Nat)
  | good (l : Launch) (c : Code)
  deriving DecidableEq, Repr

/-- One access of check 2, then the rest. -/
def checkRead (s : State) (x : Context) (va kind n : Nat) (rest : List Byte → Verdict) : Verdict :=
  match agentRead s (partCore s x) x.id va kind n with
  | .ok bs => rest bs
  | .error (va, .miss) => .wait va kind .miss
  | .error (va, .absent) => .wait va kind .absent
  | .error _ => .fail 0x19

/-- A code word that check 6 reads: an offset outside the code names no word. -/
def checkEntry (s : State) (x : Context) (c : Code) (off : Nat) (rest : Word → Verdict) : Verdict :=
  if inCode c off then checkRead s x (c.va + off) 2 4 fun bs => rest (wordOf bs) else rest (~~~0)

/-- Checks 3 to 12, on a header and the words at its entries. -/
def objectChecks (s : State) (x : Context) (l : Launch) (h : List Byte) (c : Code) (v b : Word) : Verdict :=
  if headerBad h then .fail 0x11
  else if c.features &&& ~~~deviceCaps ≠ 0 then .fail 0x12
  else if declsBad h c || !isHeaderWord v || (c.bobbin && !isHeaderWord b) then .fail 0x11
  else if !c.widths.testBit (Nat.log2 l.width - 3) then .fail 0x13
  else if l.scratch * 65536 < c.scratch then .fail 0x14
  else if flagsMismatch x.det l c then .fail 0x15
  else if l.queued && !(match findQueue l.queue s with
    | some q => q.device && decide (q.ctx = x.id) && !q.closed && q.bound.isNone
    | none => false) then .fail 0x1A
  else if l.coop && l.queued then .fail 0x18
  else if pairTooLarge l c then .fail 0x17
  else if l.coop && !coopFits s x l c then .fail 0x16
  else .good l c

/-- The checks of R254 in their order. -/
def checkLaunch (s : State) (x : Context) (r : List Byte) : Verdict :=
  let l := launchOf r
  if recordBad r then .fail 0x10
  else checkRead s x l.code 0 256 fun h =>
    let c := codeOf l.code h
    checkEntry s x c c.ventry fun v =>
    checkEntry s x c (if c.bobbin then c.bentry else 0) fun b =>
    checkRead s x l.args 0 (4 * l.argCount) fun _ =>
    checkRead s x l.compl 1 64 fun _ => objectChecks s x l h c v b

/-- The flits that the reads of those checks bring from peers' windows (R316, log entry 109). -/
def checkFlits (x : Context) (r : List Byte) (s : State) : State :=
  let l := launchOf r
  let flits := fun (va kind n : Nat) (s : State) => agentFlits (partCore s x) x.id kind va n s
  let entry := fun (c : Code) (off : Nat) (s : State) => if inCode c off then flits (c.va + off) 2 4 s else s
  if recordBad r then s
  else match agentRead s (partCore s x) x.id l.code 0 256 with
    | .error _ => flits l.code 0 256 s
    | .ok h =>
      let c := codeOf l.code h
      flits l.args 0 (4 * l.argCount) (entry c (if c.bobbin then c.bentry else 0) (entry c c.ventry (flits l.code 0 256 s)))

/-! ### The fitting cache (R190, R191) -/

/-- The marked argument words, in ascending index. -/
def markedWords (s : State) (x : Context) (l : Launch) : List Word :=
  ((List.range l.argCount).filter fun i => l.static.testBit i).map fun i =>
    match agentRead s (partCore s x) x.id (l.args + 4 * i) 0 4 with
    | .ok bs => wordOf bs
    | .error _ => 0

def dimsOf (l : Launch) : List Nat := [l.gx, l.gy, l.gz, l.wx, l.wy, l.wz]

/-- The input of the static hash (R190): each field in the bytes that the launch record and the argument words give it (log entry 89). -/
def fitInput (l : Launch) (words : List Word) : List Byte :=
  toBytes 8 l.static ++ words.flatMap (fun w => toBytes 4 w.toNat) ++ [l.gx, l.gy, l.gz].flatMap (toBytes 4) ++ [l.wx, l.wy, l.wz].flatMap (toBytes 2)

/-- The static hash: KMAC256 under the context's fitting key, with 128 bits of output (R190). -/
def fitDigest (x : Context) (l : Launch) (words : List Word) : Nat :=
  ofBytes (kmac256 (toBytes 32 (Config.fittingKey x.keySeed).toNat) (fitInput l words) 16)

/-- An entry of a launch's key that a lookup finds. -/
def fitMatches (x : Context) (l : Launch) (c : Code) (words : List Word) (f : FitEntry) : Bool :=
  f.cached && f.valid && decide (f.ctx = x.id) && decide (f.objid = c.objid) && decide (f.hash = c.hash) && decide (f.width = l.width)
    && decide (f.caps = deviceCaps.toNat) && decide (f.scratch = l.scratch) && decide (f.digest = fitDigest x l words) && decide (f.mask = l.static)
    && decide (f.words = words) && decide (f.dims = dimsOf l)

def findFit (s : State) (x : Context) (l : Launch) (c : Code) (words : List Word) : Option FitEntry :=
  s.fits.find? (fitMatches x l c words)

/-- An entry is used (R191). -/
def useFit (id : Nat) (s : State) : State :=
  { s with fits := s.fits.map fun f => if f.id = id then { f with used := s.time } else f }

/-! ### Admission (R256) -/

/-- The ranges of `GID` by die (R256). -/
def splitRanges (dies : List Nat) (g : Nat) : List (Nat × Nat × Nat) :=
  (indexed 0 dies).map fun p => (p.2, p.1 * g / dies.length, (p.1 + 1) * g / dies.length)

/-- The grid of an admitted launch; a queue-fed binding has no workgroups of its own (R30). -/
def gridOfLaunch (s : State) (x : Context) (l : Launch) (c : Code) (depth parent uid : Nat) : Grid :=
  { uid := uid, ctx := x.id, launch := l, gridId := s.gridCount + 1, depth := depth, parent := parent, code := c
    ranges := if l.queued then [] else splitRanges (partDies s x) l.wgs, admitted := s.time }

/-- The grid finds its residual code in the fitting cache, or the Tailor is due (R172, R190). -/
def fitGrid (x : Context) (g : Grid) (s : State) : Grid × State :=
  if !g.launch.tailor then (g, s)
  else
    let g := { g with marked := markedWords s x g.launch }
    match findFit s x g.launch g.code g.marked with
    | some f => ({ g with fit := some f.id, code := { g.code with residual := some f.code } }, useFit f.id s)
    | none => ({ g with tailorDue := true }, s)

/-- An admitted launch becomes a grid; a binding takes its queue, and the context keeps the object's HASH (R315). -/
def makeGrid (x : Context) (l : Launch) (c : Code) (depth parent : Nat) (s : State) : State :=
  let (uid, s) := fresh s
  let (g, s) := fitGrid x (gridOfLaunch s x l c depth parent uid) s
  let g := { g with complTlb := tlbFind s (partCore s x) x.id l.compl }
  let s := { s with grids := s.grids ++ [g], gridCount := s.gridCount + 1 }
  let s := updCtx x.id (fun x => { x with hashes := if x.hashes.contains c.hash then x.hashes else x.hashes ++ [c.hash] }) s
  if l.queued then queueForm l.queue (updQueue l.queue (fun q => { q with bound := some uid }) s) else s

/-! ### Host queues (R253) -/

/-- A queue stops: bit 63 of HEAD is set (R253). -/
def stopQueue (q : Queue) (s : State) : State :=
  updQueue q.num (fun q => { q with stopped := true }) (hostStore q.headAddr (toBytes 8 (q.head + 2 ^ 63)) s)

/-- The front end takes the TAIL line back (R253): a value out of range stops the queue. -/
def seeTail (q : Queue) (s : State) : State :=
  let tail := ofBytes (hostBytes s q.tailAddr 8)
  let s := updQueue q.num (fun q => { q with tail := tail }) s
  if tail < q.head ∨ tail > q.head + q.n then stopQueue q s else s

/-- `HOST_TAIL_WRITE` (R253): the host stores TAIL. -/
def execHostTailWrite (q tail : Nat) (s : State) : Host.Outcome State Fault Refusal :=
  .next (match findQueue q s with
    | none => s
    | some qu =>
      if qu.device then s
      else
        let s := hostMemWrite qu.tailAddr (toBytes 8 (tail % 2 ^ 64)) s
        if linkUp s && !qu.stopped then seeTail qu s else s)

/-- A failed launch's completion record (R254, R255): where its page waits for a translation, so does the front end. -/
def failLaunch (x : Context) (compl status : Nat) (s : State) : Option State :=
  match writeCompletion (partCore s x) x.id compl status 0 0 0 s.time s.time s with
  | .ok s => some s
  | .error (_, .miss) => none
  | .error (_, .absent) => none
  | .error _ => some s

/-- The address that a failed launch's completion record waits for. -/
def failWait (x : Context) (compl status : Nat) (s : State) : State :=
  match writeCompletion (partCore s x) x.id compl status 0 0 0 s.time s.time s with
  | .ok s => s
  | .error (va, t) => agentWait (partCore s x) x.id va 1 t s

/-- The front end checks a copied record (R254): the launch is admitted or failed, or the front end waits. `depth` and `parent` are
those of the grid; the Boolean says that the record was admitted. -/
def checkAdmit (x : Context) (r : List Byte) (depth parent : Nat) (s : State) : Option Bool × State :=
  let s := checkFlits x r s
  match checkLaunch s x r with
  | .wait va kind t => (none, agentWait (partCore s x) x.id va kind t s)
  | .fail st => match failLaunch x (launchOf r).compl st s with
    | some s => (some false, forgetWalks x.id s)
    | none => (none, failWait x (launchOf r).compl st s)
  | .good l c => (some true, forgetWalks x.id (makeGrid x l c depth parent s))

/-- A context whose work the front end serves. -/
def servedCtx (s : State) (id : Nat) : Option Context := (findCtx id s).filter fun x => x.resident && !x.held

/-- The next record of a host queue is copied, and HEAD advances (R252, R253). -/
def copyRecord (x : Context) (q : Queue) (s : State) : State :=
  let va := q.base + 128 * (q.head % q.n)
  match agentRead s (partCore s x) x.id va 0 128 with
  | .ok r =>
    let s := forgetWalks x.id (agentFlits (partCore s x) x.id 0 va 128 s)
    updQueue q.num (fun q => { q with copied := some r, head := q.head + 1 }) (hostStore q.headAddr (toBytes 8 (q.head + 1)) s)
  | .error (va, .miss) => agentWait (partCore s x) x.id va 0 .miss s
  | .error (va, .absent) => agentWait (partCore s x) x.id va 0 .absent s
  | .error _ => stopQueue q (forgetWalks x.id s)

/-- The last record of a queue waits under R257: a cooperative grid until it is placed (R29), a binding until it has its reservation (R261).
It holds back the later records of the queue (R253). -/
def holdsBack (s : State) (q : Queue) : Bool :=
  match findGrid q.last s with
  | none => false
  | some g => (g.launch.coop && g.ranges.any fun r => decide (r.2.1 < r.2.2)) || (g.launch.queued && g.reserve.isEmpty && g.ended.isNone)

/-- A host queue's record is copied and then checked. -/
def admitFromQueue (x : Context) (q : Queue) (s : State) : State :=
  let s := if q.copied.isNone && !q.stopped && decide (q.head < q.tail) && !holdsBack s q then copyRecord x q s else s
  match (findQueue q.num s).bind fun q => q.copied with
  | none => s
  | some r => match checkAdmit x r 0 0 s with
    | (none, s) => s
    | (some ok, s) =>
      let last := if ok then (s.grids.getLast?.map fun g => g.uid).getD 0 else 0
      updQueue q.num (fun q => { q with copied := none, last := last }) s

/-- The outcome reaches the `SPAWN` word (R298): its workgroup's child count rises for an admitted child. -/
def spawnDone (uid : Nat) (ok : Bool) (s : State) : State :=
  within uid (fun s => finish (if ok then updWg s.grp.wg (fun w => { w with children := w.children + 1 }) s else s)) s

/-- A `SPAWN`'s record is copied and checked (R252, R254, R298). -/
def admitSpawn (x : Context) (g : Group) (va : Nat) (copied : Option (List Byte)) (s : State) : State :=
  let got := match copied with
    | some r => some r
    | none => match agentRead s g.core g.ctx va 0 128 with
      | .ok r => some r
      | .error _ => none
  match got with
  | none => match agentRead s g.core g.ctx va 0 128 with
    | .error (v, .refused p) => within g.uid (fun s =>
        takeTrap { cause := cProtection, mask := active s, addr := v, info := refusedInfo (.refused p) } s) (forgetWalks x.id s)
    | .error (v, t) => agentWait g.core g.ctx v 0 t s
    | .ok _ => s
  | some r =>
    let s := if copied.isSome then s else forgetWalks x.id (agentFlits g.core g.ctx 0 va 128 s)
    let s := updGroup g.uid (fun g => { g with spawn := some (va, some r) }) s
    match checkAdmit x r (((findGrid ((findWg g.wg s).getD {}).grid s).map fun p => p.depth).getD 0 + 1) g.wg s with
    | (none, s) => s
    | (some ok, s) => spawnDone g.uid ok s

/-- `LAUNCH_ADMIT` (R254): from host queue `n`, or from the `SPAWN` of issuer `n`. `CD0` holds the master front end (R10), and the spec does not
say which unit admits launches while `CD0` is out of service: the model admits them all the same (log entry 80, DESIGN CHOICE). -/
def execLaunchAdmit (fromSpawn : Bool) (n : Nat) (s : State) : Host.Outcome State Fault Refusal :=
  .next (
    if s.minimal || !s.started then s
    else if fromSpawn then
      match findGroup n s with
      | none => s
      | some g => match g.spawn, servedCtx s g.ctx with
        | some (va, copied), some x => if g.stop = .running ∧ g.stall = .spawn then admitSpawn x g va copied s else s
        | _, _ => s
    else match findQueue n s with
      | none => s
      | some q => match servedCtx s q.ctx with
        | none => s
        | some x => if q.device || !linkUp s then s else admitFromQueue x q s)

end Sys2Proof.Machine
end

