-- ==== Sys2Proof/Machine/Dispatchers.lean ====
section
/-!
DEFINITION. The die dispatchers (R19 to R24, R28 to R32, R119, R135, R210, R256, R257, R260, R261, R309): what a core has
free, the state of a placed workgroup, placement, saving out and restoring.
-/

namespace Sys2Proof.Machine

/-! ### What is free -/

/-- Every room that is held, with its grid: those of workgroups, and the reservations (R261). -/
def heldRooms (s : State) : List (Grid × Room) :=
  (s.wgs.filterMap fun w =>
    if w.reserve then none
    else match w.room, findGrid w.grid s with
      | some r, some g => some (g, r)
      | _, _ => none)
    ++ s.grids.flatMap fun g => g.reserve.map fun r => (g, r)

/-- The slots of a room, each once. -/
def roomSlots (r : Room) : List Nat := r.places.foldl (fun l p => l ++ p.filter fun i => !l.contains i) []

def inQuarter (q : Nat) (slot : Nat) : Bool := decide (slot / 64 = q)

/-- The closure bytes of a room in a quarter. -/
def roomBytes (g : Grid) (r : Room) (q : Nat) : Nat :=
  160 * g.code.closures * g.launch.width * (r.places.filter fun p => (p.head?.map (inQuarter q)).getD false).length

/-- What a core's quarters have free (R23). -/
def coreFree (s : State) (core : Nat) : List QFree :=
  let rs := (heldRooms s).filter fun p => decide (p.2.core = core)
  (indexed 0 emptyCore).map fun p =>
    rs.foldl (fun q x =>
      { slots := q.slots.filter fun i => !(roomSlots x.2).contains i
        rows := q.rows - x.1.code.vregs * ((roomSlots x.2).filter (inQuarter p.1)).length
        bytes := q.bytes - roomBytes x.1 x.2 p.1 }) p.2

/-- The lowest start of `n` numbers below `cap` that meets no used range. -/
def findBase (n cap : Nat) (used : List (Nat × Nat)) : Option Nat :=
  (List.range (cap + 1 - n)).find? fun b => used.all fun u => decide (b + n ≤ u.1) || decide (u.1 + u.2 ≤ b)

/-- A core whose carve-out is, or may become, that of a launch (R210), with room for its scratchpad. -/
def carveOk (s : State) (l : Launch) (core : Nat) : Bool :=
  let rs := (heldRooms s).filter fun p => decide (p.2.core = core)
  (rs.isEmpty || decide (sget 4 core s.carve = effCarve l))
    && decide ((rs.map fun p => p.1.launch.scratch).foldl (· + ·) l.scratch ≤ effCarve l)

/-- The bobbin thread and ranges for a workgroup in a cluster (R24, R114). -/
def bobRoom (s : State) (c : Code) (cluster : Nat) : Option (Option Nat × Nat × Nat) :=
  if !c.bobbin then some (none, 0, 0)
  else
    let rs := (heldRooms s).filter fun p => decide (p.2.core / 4 = cluster) && p.2.bob.isSome
    match (List.range 8).find? fun t => !(rs.any fun p => decide (p.2.bob = some t)),
      findBase c.tiles 512 (rs.map fun p => (p.2.tileBase, p.1.code.tiles)),
      findBase c.accs 128 (rs.map fun p => (p.2.accBase, p.1.code.accs)) with
    | some t, some a, some b => some (some t, a, b)
    | _, _, _ => none

/-- The room of one workgroup of `n` groups on a core, when every resource is free there (R24). -/
def roomFor (s : State) (g : Grid) (n core : Nat) : Option Room :=
  if !coreWorks s core || decide (core ≥ 384) || !carveOk s g.launch core then none
  else match takeUnits (unitsOf g.launch.width g.code.vregs g.code.closures n) (coreFree s core), bobRoom s g.code (core / 4) with
    | some (ps, _), some (t, a, b) => some { core := core, places := ps, bob := t, tileBase := a, accBase := b }
    | _, _ => none

/-! ### The state of a placed workgroup -/

/-- A core takes another carve-out (R210): its dirty lines are written back and its L1 starts empty. -/
def setCarve (l : Launch) (core : Nat) (s : State) : State :=
  if sget 4 core s.carve = effCarve l then s
  else
    let s := writeBackWhere (fun c => decide (c.lvl = 1) && decide (c.unit = core)) s
    { s with
      carve := sput 4 core (effCarve l) s.carve
      caches := s.caches.filter fun c => !(decide (c.lvl = 1) && decide (c.unit = core)) }

/-- A workgroup that starts or returns on a core reads no copy that its L1 or its die's L2 already held (R247, R248): a thread that moves
never reads a value older than one it has read on another die (R220). -/
def freshCopies (core : Nat) (s : State) : State :=
  { s with caches := s.caches.map fun c =>
      if (c.lvl = 1 ∧ c.unit = core) ∨ (c.lvl = 2 ∧ c.unit = dieOfCore core) then { c with copy := none } else c }

/-- The argument record (R21). -/
def argRecord (l : Launch) : BitVec 128 :=
  BitVec.ofNat 128 (l.args % 2 ^ 57 + 2 * 2 ^ 57 + 2 * 2 ^ 59 + 2 ^ 63 + l.argCount * 2 ^ 64 + 4 * 2 ^ 96)

/-- A fixed record (R215): its BASE names an allocation, not an address, so its low 57 bits are free. -/
def fixedBuf (n extent : Nat) : BitVec 128 :=
  BitVec.ofNat 128 (((Config.freeValue n).toNat + (Config.freeValue (n + 1)).toNat * 2 ^ 32) % 2 ^ 57 + extent * 2 ^ 64)

/-- The coordinates of a workgroup (R18). -/
def coordsOf (l : Launch) (gid : Nat) : Nat × Nat × Nat := (gid % l.gx, gid / l.gx % l.gy, gid / (l.gx * l.gy))

/-- The start values of the S registers (R20, R119). -/
def startS (l : Launch) (gid second : Nat) : Sparse Word :=
  let c := coordsOf l gid
  (indexed 0 [gid, second, c.1, c.2.1, c.2.2, l.wgs]).foldl (fun m p => sput 0 p.1 (BitVec.ofNat 32 p.2) m) []

/-- The mask of the first `n` lanes. -/
def firstLanes (n : Nat) : DWord := BitVec.ofNat 64 (2 ^ n - 1)

/-- What one workgroup needs to start: its grid, number, generation, side, room, threads, windows, start, K0 values. -/
structure WgStart where
  grid : Grid
  gid : Nat
  gen : Nat
  side : Nat
  room : Room
  threads : Nat
  wins : List Nat
  start : Option Nat
  vals : List Word
  /-- The lanes of its one group that exist, when they are not the first ones (R205). -/
  lanes : List Nat := []
  again : Bool := false
  deriving DecidableEq, Repr

/-- The PC of a launch's first instruction (R19, R183). -/
def startPc (c : Code) : Nat := if c.residual.isSome then 0 else c.ventry - 0x100

/-- One group at its first instruction (R19, R20). `b30` and `b31` are the fixed records. -/
def startGroup (s : State) (w : WgStart) (wg uid i : Nat) (b30 b31 : BitVec 128) : Group :=
  let width := w.grid.launch.width
  let n := min width (w.threads - i * width)
  let ls := if w.lanes.isEmpty then List.range n else w.lanes
  let m := if w.lanes.isEmpty then firstLanes n else maskOf w.lanes
  { uid := uid, kind := .vector, ctx := w.grid.ctx, wg := wg, gidx := i, width := width, exist := m, live := m, core := w.room.core
    slot := ((w.room.places[i]?).bind fun p => p.head?).getD 0, prio := w.grid.launch.prio, placed := s.time, ready := s.time
    k := (ls.zip w.vals).foldl (fun k p => sput 0 p.1 p.2 k) []
    s := startS w.grid.launch w.gid i, b := sput 0 31 b31 (sput 0 30 b30 (sput 0 0 (argRecord w.grid.launch) []))
    frontier := [{ pc := w.start.getD (startPc w.grid.code), mask := m }]
    code := w.grid.code, argRec := argRecord w.grid.launch
    win := (ls.zip (w.wins.drop (i * width))).foldl (fun k p => sput 0 p.1 p.2 k) [] }

/-- The tile-program thread at its first instruction (R119). -/
def startBobbin (s : State) (w : WgStart) (wg uid : Nat) : Group :=
  { uid := uid, kind := .bobbin, ctx := w.grid.ctx, wg := wg, width := 1, exist := 1, live := 1, core := w.room.core
    slot := w.room.bob.getD 0, prio := w.grid.launch.prio, placed := s.time, ready := s.time
    s := startS w.grid.launch w.gid 0, b := sput 0 0 (argRecord w.grid.launch) []
    frontier := [{ pc := w.grid.code.bentry - 0x100, mask := 1 }]
    code := { w.grid.code with residual := none }, argRec := argRecord w.grid.launch }

/-- A workgroup is placed whole (R22, R24): scratchpad contents are drawn, tiles and accumulators are cleared (R114), the
companding table is the default one (R70). The bases of `B30` and `B31` are one free number (R215, log entry 98). -/
def startWg (w : WgStart) (uid partner : Nat) (s : State) : State :=
  let s := freshCopies w.room.core (setCarve w.grid.launch w.room.core s)
  let (seed, s) := drawFree s
  let (b0, s) := drawFree s
  let (_, s) := drawFree s
  let scratch := 65536 * w.grid.launch.scratch
  let n := (w.threads + w.grid.launch.width - 1) / w.grid.launch.width
  let c := coordsOf w.grid.launch w.gid
  let wg : Workgroup :=
    { uid := uid, grid := w.grid.uid, ctx := w.grid.ctx, gid := w.gid, gen := w.gen, side := w.side, partner := partner
      core := w.room.core, x := c.1, y := c.2.1, z := c.2.2, scratchSize := scratch, scratchSeed := seed
      compand := cpDefault, ntiles := if w.grid.code.bobbin then w.grid.code.tiles else 0
      naccs := if w.grid.code.bobbin then w.grid.code.accs else 0, tileBase := w.room.tileBase, accBase := w.room.accBase
      placed := s.time, wins := w.wins, room := some w.room, again := w.again }
  let first := s.nextId
  let gs := (List.range n).map fun i => startGroup s w uid (first + i) i (fixedBuf b0 16384) (fixedBuf b0 scratch)
  let bob := if w.grid.code.bobbin then [startBobbin s w uid (first + n)] else []
  let s := { s with nextId := first + n + 1, wgs := s.wgs ++ [wg], groups := s.groups ++ gs ++ bob }
  updCtx w.grid.ctx (fun x => { x with winUsed := x.winUsed ++ w.wins }) s

/-! ### The next workgroup of a die (R256) -/

/-- The range that a die places from, and the ranges after a steal from the largest remaining one. -/
def dieRange (g : Grid) (die : Nat) : Option (Nat × List (Nat × Nat × Nat)) :=
  match g.ranges.find? fun r => r.1 = die with
  | none => none
  | some r =>
    if r.2.1 < r.2.2 then some (r.2.1, g.ranges)
    else
      let big := g.ranges.foldl (fun b x => if x.2.2 - x.2.1 > b.2.2 - b.2.1 then x else b) (0, 0, 0)
      if big.2.2 - big.2.1 = 0 then none
      else
        let mid := big.2.2 - (big.2.2 - big.2.1 + 1) / 2
        some (mid, g.ranges.map fun x =>
          if x.1 = die then (die, mid, big.2.2) else if x.1 = big.1 then (x.1, x.2.1, mid) else x)

/-- The workgroup that a die places next: its `GID` and the ranges without it. -/
def takeGid (g : Grid) (die : Nat) : Option (Nat × List (Nat × Nat × Nat)) :=
  (dieRange g die).map fun p => (p.1, p.2.map fun x => if x.1 = die then (die, p.1 + 1, x.2.2) else x)

/-- The lowest `GID` not yet placed. -/
def lowestLeft (g : Grid) : Option Nat :=
  ((g.ranges.filter fun r => decide (r.2.1 < r.2.2)).map fun r => r.2.1).foldl (fun m x => match m with
    | none => some x
    | some y => some (min x y)) none

def allPlaced (g : Grid) : Bool := g.ranges.all fun r => decide (r.2.2 ≤ r.2.1)

/-! ### Windows and priorities -/

/-- The windows that a placement gives are free windows of the context, each once (R309). -/
def winsOk (x : Context) (wins : List Nat) (n : Nat) : Bool :=
  decide (wins.length = n) && !hasTwice wins && wins.all fun j => decide (j < x.windows) && !x.winUsed.contains j

/-- A grid whose work may be placed. -/
def placeable (s : State) (g : Grid) : Bool := !g.tailorDue && g.ended.isNone && (servedCtx s g.ctx).isSome

/-- The grid has something to place. -/
def hasWork (g : Grid) : Bool := !allPlaced g || !g.waiting.isEmpty || (g.launch.queued && g.reserve.isEmpty)

/-- Two grids of one partition. -/
def samePart (s : State) (g h : Grid) : Bool :=
  decide ((((findCtx g.ctx s).getD {}).partBase, ((findCtx g.ctx s).getD {}).partSize)
    = (((findCtx h.ctx s).getD {}).partBase, ((findCtx h.ctx s).getD {}).partSize))

/-- Placement order (R257): PRIO, then admission. -/
def ranksAbove (h g : Grid) : Bool :=
  decide (g.launch.prio < h.launch.prio) || (decide (g.launch.prio = h.launch.prio) && decide (h.uid < g.uid))

/-- A child grid of a resident workgroup (R257). -/
def childOfResident (s : State) (g : Grid) : Bool := s.wgs.any fun w => decide (w.uid = g.parent) && w.room.isSome

/-- A cooperative grid that waits holds back every other launch of equal or lower priority, but for a cooperative one that
goes first (R257). -/
def coopBlocks (s : State) (g : Grid) : Bool :=
  !childOfResident s g && s.grids.any fun h =>
    decide (h.uid ≠ g.uid) && h.launch.coop && !allPlaced h && placeable s h && samePart s g h && decide (g.launch.prio ≤ h.launch.prio)
      && !(g.launch.coop && ranksAbove g h)

/-- The cores of a die. -/
def dieCores (d : Nat) : List Nat := (List.range 48).map fun i => 48 * d + i

/-- Rooms for both sides of a pair, in one cluster (R28, R135). -/
def pairRooms (s : State) (g : Grid) (n core coreU : Nat) : Option (List Room) :=
  if core / 4 ≠ coreU / 4 then none
  else (roomFor s g n core).bind fun r =>
    let s := setCarve g.launch core s
    (roomFor { s with wgs := s.wgs ++ [{ uid := s.nextId, grid := g.uid, room := some r }] } g n coreU).map fun r2 => [r, r2]

/-- Rooms for a workgroup of `n` groups, or for a pair of them. -/
def roomsFor (s : State) (g : Grid) (pair : Bool) (n core coreU : Nat) : Option (List Room) :=
  if pair then pairRooms s g n core coreU else (roomFor s g n core).map fun r => [r]

/-- Some of the cores take a workgroup, or a pair. -/
def anyRooms (s : State) (g : Grid) (pair : Bool) (n : Nat) (cores : List Nat) : Bool :=
  cores.any fun c => if pair then (List.range 4).any fun i => (pairRooms s g n c (4 * (c / 4) + i)).isSome else (roomFor s g n c).isSome

/-- A formed group is a sleeve pair: every workgroup that a `PAIR` binding forms from its queue (R28, R30). One formed from a bin runs alone
(log entry 94), and so does one that runs a single task again (log entry 82). -/
def pairFormed (g : Grid) (f : Formed) : Bool := g.launch.pair && decide (f.gen = 0) && !f.again

/-- The next workgroup that a die places of a grid: whether it is a pair, and its groups. In a deterministic context a grid's own workgroups
come first (R256). -/
def nextShape (s : State) (g : Grid) : Bool × Nat :=
  let det := ((findCtx g.ctx s).getD {}).det
  match g.waiting with
  | f :: _ => if det && !allPlaced g then (g.launch.pair, g.launch.groups) else (pairFormed g f, 1)
  | [] => (g.launch.pair, if g.launch.queued then 1 else g.launch.groups)

/-- A grid has a workgroup for the die: a formed one, one of a range, or its binding's reservation (R261). -/
def wantsPlace (g : Grid) (die : Nat) : Bool :=
  !g.waiting.isEmpty || (dieRange g die).isSome || (g.launch.queued && g.reserve.isEmpty)

/-- A launch that goes first could place a workgroup on the die now, or make its reservation there (R257, R261). -/
def outrankedOn (s : State) (g : Grid) (die : Nat) : Bool :=
  s.grids.any fun h =>
    decide (h.uid ≠ g.uid) && !h.launch.coop && ranksAbove h g && placeable s h && samePart s g h && !coopBlocks s h
      && wantsPlace h die && anyRooms s h (nextShape s h).1 (nextShape s h).2 (dieCores die)

/-- A launch goes before a grid's next placement (R257). That of a cooperative grid is on every die of the partition. -/
def outranked (s : State) (g : Grid) (die : Nat) : Bool :=
  if g.launch.coop then (partDies s ((findCtx g.ctx s).getD {})).any (outrankedOn s g) else outrankedOn s g die

/-! ### Placement -/

/-- A workgroup starts in its room, or both sides of a pair in theirs (R28): `mk` gives the start of a side. -/
def startRooms (mk : Nat → Room → WgStart) (rooms : List Room) (s : State) : State :=
  match rooms with
  | [r] =>
    let (u, s) := fresh s
    startWg (mk 0 r) u 0 s
  | [r, r2] =>
    let (u, s) := fresh s
    let (v, s) := fresh s
    startWg (mk 1 r2) v u (startWg (mk 0 r) u v s)
  | _ => s

/-- One workgroup or pair of a grid's own range (R28, R135). -/
def placeOwn (g : Grid) (gid core coreU : Nat) (wins : List Nat) (s : State) : Option State :=
  let n := g.launch.threads
  (roomsFor s g g.launch.pair g.launch.groups core coreU).map fun rs =>
    startRooms (fun side r =>
      { grid := g, gid := gid, gen := 0, side := side, room := r, threads := n, wins := (wins.drop (side * n)).take n, start := none, vals := [] })
      rs s

/-- Windows of one workgroup or pair. -/
def Grid.winCount (g : Grid) : Nat := g.launch.threads * (if g.launch.pair then 2 else 1)

/-- The first cores of a partition that take a workgroup or pair. -/
def placeAnywhere (cores : List Nat) (g : Grid) (gid : Nat) (wins : List Nat) (s : State) : Option State :=
  cores.findSome? fun c =>
    if g.launch.pair then (List.range 4).findSome? fun i => placeOwn g gid c (4 * (c / 4) + i) wins s else placeOwn g gid c c wins s

/-- Every workgroup of a cooperative grid (R29), each on the die whose range holds it or, as after a steal, on another one (R256). -/
def placeAll (dies : List Nat) (g : Grid) : Nat → Nat → List Nat → State → Option State
  | 0, _, _, s => some s
  | n + 1, gid, wins, s =>
    let own := (g.ranges.filter fun r => decide (r.2.1 ≤ gid) && decide (gid < r.2.2)).map fun r => r.1
    let cores := (own ++ dies.filter fun d => !own.contains d).flatMap dieCores
    (placeAnywhere cores g gid (wins.take g.winCount) s).bind fun s => placeAll dies g n (gid + 1) (wins.drop g.winCount) s

/-- A cooperative grid is placed once all of it fits (R29). -/
def placeCoop (x : Context) (g : Grid) (wins : List Nat) (s : State) : State :=
  let cores := partDies s x
  if !winsOk x wins (g.winCount * g.launch.wgs) then s
  else match placeAll cores g g.launch.wgs 0 wins s with
    | none => s
    | some s => updGrid g.uid (fun g => { g with ranges := g.ranges.map fun r => (r.1, r.2.2, r.2.2) }) s

/-- The start of a formed group (R30, R31), on a side of its pair; one formed from a bin, or that runs again, is no pair (log entry 94). -/
def formedStart (f : Formed) (wins : List Nat) (g : Grid) (side : Nat) (r : Room) : WgStart :=
  let n := f.vals.length
  { grid := g, gid := f.gid, gen := f.gen, side := if f.again then f.side else side, room := r, threads := n
    wins := (wins.drop (side * n)).take n, start := f.start, vals := f.vals, lanes := f.lanes, again := f.again }

/-- The tasks of a formed group's lanes (R204): each lane that an ordered queue's entry started, on each side of a pair. -/
def startTasks (f : Formed) (w : Workgroup) (g : Grid) (s : State) : State :=
  let ls := if f.lanes.isEmpty then List.range f.ts.length else f.lanes
  let grp := (((allGroups s).find? fun x => decide (x.wg = w.uid) && decide (x.kind = .vector)).map fun x => x.uid).getD 0
  { s with tasks := s.tasks ++ (ls.zip (f.ts.zip f.vals)).map fun p =>
      { queue := g.launch.queue, ts := p.2.1, payload := p.2.2, grp := grp, lane := p.1, grid := g.uid, gid := f.gid, side := w.side, core := w.core } }

/-- The reserved room is free (R261). -/
def reserveFree (s : State) (g : Grid) : Bool := !(s.wgs.any fun w => decide (w.grid = g.uid) && w.reserve)

/-- A formed group takes rooms at the cores, or the reserved ones when no core of the partition has any, or when a waiting cooperative grid
leaves it no other (R257, R261). -/
def formedRooms (s : State) (x : Context) (g : Grid) (pair : Bool) (core coreU : Nat) : Option (List Room × Bool) :=
  let rs := g.reserve.take (if pair then 2 else 1)
  let reserved := if reserveFree s g && !rs.isEmpty then some (rs, true) else none
  if coopBlocks s g then reserved
  else match roomsFor s g pair 1 core coreU with
    | some rs => some (rs, false)
    | none => if anyRooms s g pair 1 ((partDies s x).flatMap dieCores) then none else reserved

/-- The oldest formed group is placed, with the other side of its pair (R28, R30). -/
def placeFormed (x : Context) (g : Grid) (f : Formed) (core coreU : Nat) (wins : List Nat) (s : State) : State :=
  let pair := pairFormed g f
  if !winsOk x wins (f.vals.length * if pair then 2 else 1) then s
  else match formedRooms s x g pair core coreU with
    | none => s
    | some (rs, res) =>
      let old := s.nextId
      let s := startRooms (formedStart f wins g) rs s
      let s := { s with wgs := s.wgs.map fun (w : Workgroup) => if old ≤ w.uid then { w with reserve := res } else w }
      let s := (s.wgs.filter fun w => decide (old ≤ w.uid)).foldl (fun s w => startTasks f w g s) s
      updGrid g.uid (fun g => { g with waiting := g.waiting.drop 1 }) s

/-- The next workgroup of a die's range is placed (R256). -/
def placeNext (x : Context) (g : Grid) (die core coreU : Nat) (wins : List Nat) (s : State) : State :=
  match takeGid g die with
  | none => s
  | some (gid, ranges) =>
    let stolen := ((dieRange g die).map fun p => p.2).getD g.ranges
    if x.det && decide (lowestLeft g ≠ some gid) then updGrid g.uid (fun g => { g with ranges := stolen }) s
    else if !winsOk x wins g.winCount then s
    else match placeOwn g gid core coreU wins s with
      | none => s
      | some s => updGrid g.uid (fun g => { g with ranges := ranges }) s

/-- A binding's reservation (R261): the resources of one of its workgroups, which for a `PAIR` binding are those of both sides (log entry 106). -/
def reserveRoom (g : Grid) (core coreU : Nat) (s : State) : State :=
  match roomsFor s g g.launch.pair 1 core coreU with
  | none => s
  | some rs => updGrid g.uid (fun g => { g with reserve := rs }) (rs.foldl (fun s r => setCarve g.launch r.core s) s)

/-- `WORKGROUP_PLACE` (R24, R256, R257): on a core of a die of the grid's partition. A binding first has its reservation (R261). In a
deterministic context groups formed from bins follow the grid's own workgroups (R202, R256). -/
def execWorkgroupPlace (grid die core coreU : Nat) (wins : List Nat) (s : State) : Host.Outcome State Fault Refusal :=
  .next (match findGrid grid s with
    | none => s
    | some g => match servedCtx s g.ctx with
      | none => s
      | some x =>
        if !placeable s g || !(partDies s x).contains die || decide (core / 48 ≠ die) || decide (coreU / 48 ≠ die) then s
        else if g.launch.queued && g.reserve.isEmpty then (if coopBlocks s g || outranked s g die then s else reserveRoom g core coreU s)
        else if g.waiting.isEmpty || (x.det && !allPlaced g) then
          if coopBlocks s g || outranked s g die then s
          else if g.launch.coop then (if allPlaced g then s else placeCoop x g wins s)
          else placeNext x g die core coreU wins s
        else match g.waiting with
          | f :: _ => if outranked s g die && !coopBlocks s g then s else placeFormed x g f core coreU wins s
          | [] => s)

/-! ### Groups that form by age (R30, R31) -/

/-- The oldest entry has waited 2,000 ns: a binding's shorter group forms. -/
def queueAged (s : State) (g : Grid) (q : Queue) : Grid × Queue :=
  if q.entries.any fun e => decide (e.time + 2000 ≤ s.time) then takeGroup ((findCtx q.ctx s).getD {}).det g q else (g, q)

/-- `GROUP_FORM_TIMEOUT` (R30, R31): of queue `n`, or of a grid's bin for target `n`; not for bins of deterministic contexts (R203). -/
def execGroupFormTimeout (isBin : Bool) (grid n : Nat) (s : State) : Host.Outcome State Fault Refusal :=
  .next (
    if isBin then match findGrid grid s with
      | none => s
      | some g =>
        if ((findCtx g.ctx s).getD {}).det then s
        else if g.bins.any fun b => decide (b.target = n) && b.entries.any fun e => decide (e.time + 2000 ≤ s.time) then
          updGrid grid (binForm true n 1) s
        else s
    else formQueue (fun _ g q => queueAged s g q) n s)

/-! ### Saving out and restoring (R32) -/

/-- Every live thread waits in `CHWAIT`. -/
def waitsForChildren (s : State) (wg : Nat) : Bool :=
  (groupsOfWg wg s).all fun g =>
    decide (g.live = 0) || (g.act.isNone && g.hem.isEmpty && decide (g.stop = .running) && g.frontier.all fun e => decide (e.wait = .child))

/-- A workgroup that may be saved out. A side of a pair whose other side has retired goes alone (log entry 79). -/
def mayLeave (s : State) (w : Workgroup) : Bool :=
  w.room.isSome && !w.saved && decide (w.children ≠ 0) && waitsForChildren s w.uid
    && !(((findGrid w.grid s).map fun g => g.launch.coop).getD false)

/-- The issuers of a workgroup stand between words, with results in flight written and stores performed (R320, R336). -/
def settleWg (wg : Nat) (s : State) : State :=
  let uids := ((allGroups s).filter fun g => decide (g.wg = wg)).map fun g => g.uid
  let s := completeBegun (fun e => decide (e.wgC = wg) || decide (e.wgU = wg)) s
  let s := (allGroups s).foldl (fun s g => if g.wg = wg then unclaim g s else s) s
  let s := performGroups (fun g => decide (g.wg = wg)) s
  let s := mapGroups (fun g => if g.wg = wg then haltPath g else g) s
  releaseAll (fun u => uids.contains u) s

/-- A workgroup leaves its core; its entries wait to re-enter (R124). -/
def leaveCore (wg : Nat) (s : State) : State :=
  let s := settleWg wg s
  let s := passGwct (fun g => decide (g.wg = wg)) (fun g => decide (g.uid = ((findWg wg s).getD {}).grid)) s
  let s := updWg wg (fun w => { w with saved := true, room := none, reserve := false }) s
  reenterAll { s with pattern := s.pattern.map fun e => if e.wgC = wg ∨ e.wgU = wg then { e with saved := true } else e }

def saveOut (wg : Nat) (s : State) : State := updWg wg (fun w => { w with savedOut := true }) (leaveCore wg s)

/-- `WORKGROUP_SAVE_OUT` (R32): a pair leaves together, and only when both sides wait. -/
def execWorkgroupSaveOut (wg : Nat) (s : State) : Host.Outcome State Fault Refusal :=
  .next (match findWg wg s with
    | none => s
    | some w =>
      if !mayLeave s w then s
      else match findWg w.partner s with
        | none => saveOut wg s
        | some p => if mayLeave s p then saveOut p.uid (saveOut wg s) else s)

/-- A saved workgroup returns to a core (R32, R124, R248): its groups take their new places, and entries that waited re-enter
as the table has room. An entry keeps the thread slot that breaks its ties (log entry 100). -/
def returnTo (w : Workgroup) (r : Room) (s : State) : State :=
  let s := freshCopies r.core (setCarve ((findGrid w.grid s).getD {}).launch r.core s)
  let s := updWg w.uid (fun w => { w with saved := false, savedOut := false, room := some r, core := r.core, tileBase := r.tileBase, accBase := r.accBase }) s
  let s := mapGroups (fun g =>
    if g.wg = w.uid then
      { g with core := r.core
               slot := if g.kind = .bobbin then r.bob.getD 0 else ((r.places[g.gidx]?).bind fun p => p.head?).getD 0 }
    else g) s
  { s with pattern := s.pattern.map fun e =>
      if (e.wgC = w.uid ∨ e.wgU = w.uid) ∧ e.saved then { e with cluster := r.core / 4 } else e }

/-- Room for the groups that a workgroup still has. -/
def roomAgain (s : State) (g : Grid) (w : Workgroup) (core : Nat) : Option Room :=
  roomFor s g ((groupsOfWg w.uid s).foldl (fun n x => max n (x.gidx + 1)) 0) core

/-- A workgroup, and its other side, return together (R32, R28). -/
def restoreWg (w : Workgroup) (core coreU : Nat) (s : State) : State :=
  match findGrid w.grid s with
  | none => s
  | some g => match roomAgain s g w core with
    | none => s
    | some r => match (findWg w.partner s).filter fun p => p.saved with
      | none =>
        let s := returnTo w r s
        childCheck w.uid (reenterAll s)
      | some p =>
        let s1 := returnTo w r s
        match roomAgain s1 g p coreU with
        | none => s
        | some r2 =>
          if core / 4 ≠ coreU / 4 then s
          else
            let s := returnTo p r2 s1
            childCheck p.uid (childCheck w.uid (reenterAll s))

/-- `WORKGROUP_RESTORE` (R32): onto any core of its partition once its child count is 0; a pair once either side may go on. -/
def execWorkgroupRestore (wg core coreU : Nat) (s : State) : Host.Outcome State Fault Refusal :=
  .next (match findWg wg s with
    | none => s
    | some w => match servedCtx s w.ctx with
      | none => s
      | some x =>
        let ready := decide (w.children = 0) || ((findWg w.partner s).map fun p => p.saved && decide (p.children = 0)).getD false
        if w.saved && ready && inPartition x core && inPartition x coreU then restoreWg w core coreU s else s)

end Sys2Proof.Machine
end

