-- ==== Sys2Proof/Machine/Rays.lean ====
section
/-!
DEFINITION. Rays and tile visibility: `TRACE`, `TRACEP` and their walks (R165 to R167), `VISQ` and its resolve (R168 to R171,
R357).
-/

namespace Sys2Proof.Machine

/-! ### Exact values -/

/-- A finite FP32 word as a multiple of 2^-149. -/
def scaled149 (w : Word) : Int :=
  match f32 w with
  | .fin s m e => let n : Int := ((m * 2 ^ (e + 149).toNat : Nat) : Int); if s then -n else n
  | _ => 0

def finite32 (w : Word) : Bool := !isNan32 w && !isInf32 w

/-- m · 2^e / den rounded by rne32. -/
def ratio32 (s : Bool) (m : Nat) (e : Int) (den : Nat) : Word :=
  let k := 64 + Nat.log2 den
  if m = 0 then 0
  else BitVec.ofNat 32 (fp32.roundFin {} s (m * 2 ^ k / den) (e - k) (decide (m * 2 ^ k % den ≠ 0)))

/-- An exact fraction with a positive denominator rounded by rne32. -/
def frac32 (num : Int) (den : Nat) : Word := ratio32 (decide (num < 0)) num.natAbs 0 den

/-- A point of the extended line: a fraction with a positive denominator, or an infinity. -/
inductive Ext where
  | ninf
  | fin (num : Int) (den : Nat)
  | pinf
  deriving DecidableEq, Repr

def Ext.le : Ext → Ext → Bool
  | .ninf, _ => true
  | _, .pinf => true
  | .fin a b, .fin c d => decide (a * (d : Int) ≤ c * (b : Int))
  | _, _ => false

def Ext.max (a b : Ext) : Ext := if a.le b then b else a
def Ext.min (a b : Ext) : Ext := if a.le b then a else b

def extOf (w : Word) : Ext :=
  match f32 w with
  | .inf s => if s then .ninf else .pinf
  | .nan => .ninf
  | _ => .fin (scaled149 w) (2 ^ 149)

/-! ### Walks (R166, R167) -/

/-- A ray: origin, direction and range. -/
structure Ray where
  o : V3
  d : V3
  tmin : Word
  tmax : Word
  deriving DecidableEq, Repr

/-- An exact hit: t, u and v over one positive denominator, primitive and instance. -/
structure RHit where
  t : Int
  u : Int
  v : Int
  den : Nat
  prim : Nat
  inst : Nat
  deriving DecidableEq, Repr

/-- What a walk has: its best hit, and the reads of the structure so far, as byte offset and length. -/
structure WalkAcc where
  hit : Option RHit := none
  reads : List (Nat × Nat) := []
  deriving DecidableEq, Repr

/-- Why a walk stops short: a structure error, or a translation that it waits for. -/
inductive WalkStop where
  | bad (reads : List (Nat × Nat))
  | wait (va : Nat) (t : Trans)
  deriving DecidableEq, Repr

/-- The reads of a walk with one more. -/
def WalkAcc.note (a : WalkAcc) (off n : Nat) : WalkAcc := { a with reads := (off, n) :: a.reads }

/-- A structure error after the reads of a walk. -/
def WalkAcc.bad (a : WalkAcc) : WalkStop := .bad a.reads

/-- A ray that traverses nothing (R167). -/
def invalidRay (r : Ray) : Bool :=
  !(finite32 r.o.x && finite32 r.o.y && finite32 r.o.z && finite32 r.d.x && finite32 r.d.y && finite32 r.d.z)
    || (isZero32 r.d.x && isZero32 r.d.y && isZero32 r.d.z) || isNan32 r.tmin || isNan32 r.tmax || lt32 r.tmax r.tmin

/-- The parameters at which a ray's coordinate lies between two bounds, of which none is a NaN (log entry 101). -/
def slab (o d lo hi : Word) : Option (Ext × Ext) :=
  if isNan32 lo || isNan32 hi then none
  else
    let a := scaled149 o
    let b := scaled149 d
    if b = 0 then
      (if (extOf lo).le (.fin a (2 ^ 149)) && (Ext.fin a (2 ^ 149)).le (extOf hi) then some (.ninf, .pinf) else none)
    else
      let at_ := fun (w : Word) => match extOf w with
        | .fin n _ => Ext.fin ((n - a) * (if b < 0 then -1 else 1)) b.natAbs
        | .ninf => if b < 0 then .pinf else .ninf
        | .pinf => if b < 0 then .ninf else .pinf
      some (if b < 0 then (at_ hi, at_ lo) else (at_ lo, at_ hi))

/-- A segment has a point at a finite parameter. -/
def nonEmpty (lo hi : Ext) : Bool := lo.le hi && lo != .pinf && hi != .ninf

/-- The exact segment meets the closed box (R167). With a value that is not finite in the ray, or a NaN bound, it does not (log entry 101). -/
def boxMet (r : Ray) (mn mx : V3) : Bool :=
  finite32 r.o.x && finite32 r.o.y && finite32 r.o.z && finite32 r.d.x && finite32 r.d.y && finite32 r.d.z
    && (match slab r.o.x r.d.x mn.x mx.x, slab r.o.y r.d.y mn.y mx.y, slab r.o.z r.d.z mn.z mx.z with
      | some x, some y, some z =>
        nonEmpty (Ext.max (Ext.max x.1 y.1) (Ext.max z.1 (extOf r.tmin))) (Ext.min (Ext.min x.2 y.2) (Ext.min z.2 (extOf r.tmax)))
      | _, _, _ => false)

/-- Vectors of exact integers. -/
structure IV where
  x : Int
  y : Int
  z : Int

def ivOf (v : V3) : IV := ⟨scaled149 v.x, scaled149 v.y, scaled149 v.z⟩
def IV.sub (a b : IV) : IV := ⟨a.x - b.x, a.y - b.y, a.z - b.z⟩
def IV.dot (a b : IV) : Int := a.x * b.x + a.y * b.y + a.z * b.z
def IV.cross (a b : IV) : IV := ⟨a.y * b.z - a.z * b.y, a.z * b.x - a.x * b.z, a.x * b.y - a.y * b.x⟩

/-- The exact hit of a triangle (R167): none where a vertex or the ray is not finite (log entry 101). -/
def triHit (r : Ray) (v0 v1 v2 : V3) (prim inst : Nat) : Option RHit :=
  let all := [v0, v1, v2, r.o, r.d].all fun v => finite32 v.x && finite32 v.y && finite32 v.z
  let e1 := (ivOf v1).sub (ivOf v0)
  let e2 := (ivOf v2).sub (ivOf v0)
  let d := ivOf r.d
  let q := ((ivOf r.o).sub (ivOf v0)).cross e1
  let p := d.cross e2
  let det := e1.dot p
  if !all || decide (det = 0) then none
  else
    let g : Int := if det < 0 then -1 else 1
    let u := g * ((ivOf r.o).sub (ivOf v0)).dot p
    let v := g * d.dot q
    let t := g * e2.dot q
    let den := det.natAbs
    let tt := Ext.fin t den
    if 0 ≤ u ∧ 0 ≤ v ∧ u + v ≤ den ∧ (extOf r.tmin).le tt = true ∧ tt.le (extOf r.tmax) = true then
      some { t := t, u := u, v := v, den := den, prim := prim, inst := inst }
    else none

/-- The hit that `TRACE` keeps (R167): least exact t, then the lower instance, then the lower primitive. -/
def betterHit (a b : RHit) : RHit :=
  let x := a.t * (b.den : Int)
  let y := b.t * (a.den : Int)
  if x < y then a
  else if y < x then b
  else if a.inst < b.inst then a
  else if b.inst < a.inst then b
  else if b.prim < a.prim then b else a

def keepHit (any : Bool) (best new : Option RHit) : Option RHit :=
  match best, new with
  | none, n => n
  | b, none => b
  | some b, some n => if any then some b else some (betterHit b n)

/-- The offsets of the header of R166. -/
structure AccHdr where
  node : Nat
  tri : Nat
  inst : Nat
  root : Nat

def v3From (bs : List Byte) (k : Nat) : V3 :=
  let w := fun i => wordOf ((bs.drop (k + 4 * i)).take 4)
  ⟨w 0, w 1, w 2⟩

def natAt (bs : List Byte) (k : Nat) : Nat := ofBytes ((bs.drop k).take 4)

/-- The ray in an instance's object space (R167). -/
def instRay (bs : List Byte) (r : Ray) : Ray :=
  let m := fun i => wordOf ((bs.drop (4 * i)).take 4)
  let o := fun k => fma32 (m (4 * k + 2)) r.o.z (fma32 (m (4 * k + 1)) r.o.y (fma32 (m (4 * k)) r.o.x (m (4 * k + 3))))
  let d := fun k => fma32 (m (4 * k + 2)) r.d.z (fma32 (m (4 * k + 1)) r.d.y (fmul32 (m (4 * k)) r.d.x))
  { r with o := ⟨o 0, o 1, o 2⟩, d := ⟨d 0, d 1, d 2⟩ }

/-- A read of a walk: its bytes and the walk with the read noted, or a structure error, or a translation to wait for. -/
def WalkAcc.read (rd : Nat → Nat → Except (Option (Nat × Trans)) (List Byte)) (a : WalkAcc) (off n : Nat) :
    Except WalkStop (List Byte × WalkAcc) :=
  match rd off n with
  | .ok bs => .ok (bs, a.note off n)
  | .error none => .error a.bad
  | .error (some (va, t)) => .error (.wait va t)

/-- One triangle of a leaf. -/
def walkTri (rd : Nat → Nat → Except (Option (Nat × Trans)) (List Byte)) (h : AccHdr) (any : Bool) (inst : Nat) (r : Ray)
    (best : WalkAcc) (i : Nat) : Except WalkStop WalkAcc :=
  if any && best.hit.isSome then .ok best
  else match best.read rd (h.tri + 48 * i) 48 with
    | .error e => .error e
    | .ok (bs, best) =>
      if natAt bs 36 ≥ 0xFFFFFFFD then .error best.bad
      else .ok { best with hit := keepHit any best.hit (triHit r (v3From bs 0) (v3From bs 12) (v3From bs 24) (natAt bs 36) inst) }

/-- A fold that stops at the first error. -/
def foldStop {α : Type} (f : WalkAcc → α → Except WalkStop WalkAcc) : List α → WalkAcc → Except WalkStop WalkAcc
  | [], b => .ok b
  | a :: as, b => match f b a with
    | .ok b => foldStop f as b
    | .error e => .error e

/-- The walk below a node (R167): depth first, REF before REF + 1, items in ascending index. `fuel` is the number of nodes
that the walk may still go down; `most` bounds the items that can lie inside the record. -/
def walkNode (rd : Nat → Nat → Except (Option (Nat × Trans)) (List Byte)) (h : AccHdr) (any : Bool) (most : Nat) :
    Nat → Option Nat → Ray → Nat → WalkAcc → Except WalkStop WalkAcc
  | fuel, inst, r, n, best =>
    if any && best.hit.isSome then .ok best
    else match best.read rd (h.node + 32 * n) 32 with
      | .error e => .error e
      | .ok (bs, best) =>
        if !boxMet r (v3From bs 0) (v3From bs 12) then .ok best
        else
          let ref := natAt bs 24
          let kind := natAt bs 28 / 2 ^ 30
          let items := (List.range (min (natAt bs 28 % 2 ^ 30) most)).map fun i => ref + i
          match fuel with
          | 0 => .error best.bad
          | fuel + 1 =>
            if kind = 0 then
              match walkNode rd h any most fuel inst r ref best with
              | .error e => .error e
              | .ok b => walkNode rd h any most fuel inst r (ref + 1) b
            else if kind = 1 then foldStop (walkTri rd h any (inst.getD 0xFFFFFFFF) r) items best
            else if kind = 2 then
              if inst.isSome then .error best.bad
              else foldStop (fun b i =>
                if any && b.hit.isSome then .ok b
                else match b.read rd (h.inst + 64 * i) 64 with
                  | .error e => .error e
                  | .ok (bs, b) => walkNode rd h any most fuel (some (natAt bs 52)) (instRay bs r) (natAt bs 48) b) items best
            else .error best.bad

/-- A byte as the core's own thread reads it past the leases: a dirty byte of its L1, or the home. -/
def coreByte (s : State) (core a : Nat) : Byte :=
  match (findLine 1 core (lineOf a) s).bind fun c => sfind (a % 128) c.dirty with
  | some b => b
  | none => homeByte s a

/-- Bytes of a record at a byte offset, for a walk: a speculative task's own writes lie over them (R205). -/
def recBytes (s : State) (core ctx : Nat) (t : Option Task) (r : BufRec) (off : Nat) : Nat → Except (Option (Nat × Trans)) (List Byte)
  | 0 => .ok []
  | n + 1 =>
    let va := r.base + swizzle r.swz off
    match agentTranslate s core ctx va 0 with
    | .ok a => match recBytes s core ctx t r (off + 1) n with
      | .ok bs => .ok ((t.bind fun t => sfind a t.wset).getD (coreByte s core a) :: bs)
      | .error e => .error e
    | .refused _ => .error none
    | x => .error (some (va, x))

/-- A read of the structure: outside the record it is an error, whatever CLAMP says (R167). -/
def recRead (s : State) (core ctx : Nat) (t : Option Task) (r : BufRec) (off n : Nat) : Except (Option (Nat × Trans)) (List Byte) :=
  if off + n > r.limit then .error none else recBytes s core ctx t r off n

/-- The home addresses of a walk's reads, one of each byte (R205). -/
def readAddrs (s : State) (core ctx : Nat) (r : BufRec) (reads : List (Nat × Nat)) : List Nat :=
  reads.flatMap fun p => (List.range p.2).filterMap fun i =>
    match agentTranslate s core ctx (r.base + swizzle r.swz (p.1 + i)) 0 with
    | .ok a => some a
    | _ => none

/-- The five words of a ray that is no hit (R167). -/
def rayWords (t prim inst : Nat) : List Word := [BitVec.ofNat 32 t, 0, 0, BitVec.ofNat 32 prim, BitVec.ofNat 32 inst]

/-- A lane's walk: its five words and its reads, by offset and size, or the translation it waits for. -/
def walkRay (s : State) (core ctx : Nat) (t : Option Task) (any : Bool) (r : BufRec) (ws : List Word) :
    Except (Nat × Trans) (List Word × List (Nat × Nat)) :=
  let w := fun i => ws.getD i 0
  let ray : Ray := { o := ⟨w 0, w 1, w 2⟩, tmin := w 3, d := ⟨w 4, w 5, w 6⟩, tmax := w 7 }
  let rd := recRead s core ctx t r
  if invalidRay ray then .ok (rayWords 0x7FC00000 0xFFFFFFFE 0, [])
  else
    let res : Except WalkStop WalkAcc := match WalkAcc.read rd {} 0 32 with
      | .error e => .error e
      | .ok (bs, a) => walkNode rd { node := natAt bs 0, tri := natAt bs 4, inst := natAt bs 8, root := natAt bs 12 } any (r.limit / 48 + 1) 64
          none ray (natAt bs 12) a
    match res with
    | .error (.bad l) => .ok (rayWords 0x7FC00000 0xFFFFFFFD 0, l)
    | .error (.wait va t) => .error (va, t)
    | .ok { hit := none, reads := l } => .ok (rayWords 0x7F800000 0xFFFFFFFF 0xFFFFFFFF, l)
    | .ok { hit := some h, reads := l } =>
      .ok ([frac32 h.t h.den, frac32 h.u h.den, frac32 h.v h.den, BitVec.ofNat 32 h.prim, BitVec.ofNat 32 h.inst], l)

/-- `TRACE` and `TRACEP` (R165). -/
def traceWord (any : Bool) (k : BitVec 6) (h r : BitVec 8) (s : State) : State :=
  let v := r.toNat
  word
    { vectorNeed (.s k.toNat :: plainRegs 5 h.toNat ++ plainRegs 8 v)
        (!(decide (h.toNat + 5 ≤ s.grp.code.vregs) && decide (v + 8 ≤ s.grp.code.vregs))) with feats := [3] }
    (fun s =>
      if active s = 0 then finish (s.setG (setS k.toNat 0))
      else if (s.grp.tokens.filter fun t => !(tokenV t).isEmpty).length ≥ s.grp.code.traceDepth then trapOwn cTraceDepth s
      else
        let rays := (lanes (active s)).map fun l => (l, (List.range 8).map fun i => getV s.grp (v + i) l)
        finish (startToken k.toNat (.ray any h.toNat rays (getB s.grp 29)) s)) s

/-- `TRACE` (R165). -/
def execTrace (k : BitVec 6) (h r : BitVec 8) (s : State) : Host.Outcome State Fault Refusal := .next (traceWord false k h r s)
/-- `TRACEP` (R165). -/
def execTracep (k : BitVec 6) (h r : BitVec 8) (s : State) : Host.Outcome State Fault Refusal := .next (traceWord true k h r s)

/-! ### Completing a token -/

/-- The `n`-th pending token of an issuer whose workgroup is on a core (R32, R44). -/
def liveToken (s : State) (grp n : Nat) : Option (Group × Token) :=
  match findGroup grp s with
  | none => none
  | some g =>
    if ((findWg g.wg s).map fun w => w.saved).getD false || !((findCtx g.ctx s).map fun c => c.resident).getD false then none
    else (g.tokens[n]?).map fun t => (g, t)

/-- Progress of a context, for the watchdog (R337). -/
def progress (ctx : Nat) (s : State) : State := updCtx ctx (fun c => { c with lastProgress := s.time }) s

/-- The token takes its value and is pending no longer (R41). The walker outcomes that the work asked for are over. -/
def endToken (grp n : Nat) (t : Token) (v : Word) (s : State) : State :=
  let ctx := ((findGroup grp s).map fun g => g.ctx).getD 0
  let s := updGroup grp (fun g => setS t.sreg v { g with tokens := g.tokens.eraseIdx n }) s
  progress ctx (forgetWalks ctx s)

/-- The results of the lanes' walks with their reads, or the first translation that one waits for. -/
def walkAll (s : State) (g : Group) (any : Bool) (b : BufRec) :
    List (Nat × List Word) → Except (Nat × Trans) (List (Nat × List Word × List (Nat × Nat)))
  | [] => .ok []
  | (l, ws) :: r => match walkRay s g.core g.ctx (specTask s g.uid l) any b ws, walkAll s g any b r with
    | .ok x, .ok xs => .ok ((l, x) :: xs)
    | .error e, _ => .error e
    | _, .error e => .error e

/-- The walks of a token complete (R165, R167). One that would exceed a speculative task's read set goes on only once the task is the
oldest (R205). -/
def finishRays (g : Group) (n : Nat) (t : Token) (any : Bool) (h : Nat) (rays : List (Nat × List Word)) (b : BitVec 128) (s : State) : State :=
  match walkAll s g any (recOfBits b) rays with
  | .error (va, tr) => agentWait g.core g.ctx va 0 tr s
  | .ok rs =>
    let r := recOfBits b
    let addrs := fun (p : Nat × List Word × List (Nat × Nat)) =>
      if (specTask s g.uid p.1).isSome then readAddrs s g.core g.ctx r p.2.2 else []
    if rs.any fun p => taskOver s g.uid p.1 (addrs p) [] then s else
    let hits := rs.filter fun p => decide ((p.2.1.getD 3 0).toNat < 0xFFFFFFFD)
    let s := (rs.map fun p => (p.1, addrs p)).foldl (fun s p => noteReads g.uid p.1 p.2 s) s
    let s := takeSamples g t.pc (rs.flatMap fun p => p.2.2.map fun q => (r.base + swizzle r.swz q.1, none)) s
    let s := (rs.flatMap fun p => p.2.2).foldl (fun s q => agentFlits g.core g.ctx 0 (r.base + swizzle r.swz q.1) 1 s) s
    let s := updGroup g.uid (fun g => rs.foldl (fun g p => (laneWrites h p.1 p.2.1).foldl applyWrite g) g) s
    endToken g.uid n t (BitVec.ofNat 32 hits.length) s

/-- `RAY_WALK_COMPLETE` (R167). -/
def execRayWalkComplete (grp n : Nat) (s : State) : Host.Outcome State Fault Refusal :=
  .next (match liveToken s grp n with
    | some (g, t) => match t.work with
      | .ray any h rays b => finishRays g n t any h rays b s
      | _ => s
    | none => s)

/-! ### `VISQ` (R168 to R171) -/

/-- A range's accesses of words are misaligned (R213): the first such address. -/
def rangeMis (r : BufRec) (first n : Nat) : Option Nat :=
  if n ≥ 1 ∧ idxVa r first % 4 ≠ 0 then some (idxVa r first)
  else if n ≥ 2 ∧ idxVa r (first + 1) % 4 ≠ 0 then some (idxVa r (first + 1))
  else none

/-- The traps of `VISQ` at issue (R168), with the whole active mask. -/
def visqTrap (s : State) (first count base : Nat) : Option TrapReq :=
  let l := recOfBits (getB s.grp 27)
  let o := recOfBits (getB s.grp 28)
  let m := active s
  let a := insideOf l 48 first count
  let b := insideOf o 4 base 2048
  match rangeMis l first count, rangeMis o base 2048 with
  | some va, _ => some { cause := cMisaligned, mask := m, addr := va }
  | _, some va => some { cause := cMisaligned, mask := m, addr := va }
  | none, none =>
    if a < count ∧ l.clamp = false then some { cause := cBounds, mask := m, addr := (first + a) * l.pitch }
    else if b < 2048 ∧ o.clamp = false then some { cause := cBounds, mask := m, addr := (base + b) * o.pitch }
    else if o.ro || o.konst then some { cause := cProtection, mask := m, addr := idxVa o base }
    else none

/-- `VISQ` (R168). Its five values are checked once no register it reads is marked or pending. -/
def execVisq (k : BitVec 6) (v : BitVec 8) (s : State) : Host.Outcome State Fault Refusal :=
  let r := v.toNat
  .next (word
    { vectorNeed (.s k.toNat :: plainRegs 5 r) (decide (r + 5 > s.grp.code.vregs)) with feats := [3], hints := { part := true } }
    (fun s =>
      match lowLane (active s) with
      | none => finish s
      | some l =>
        let x := fun i => (getV s.grp (r + i) l).toNat
        if x 0 > 1023 ∨ x 1 > 1023 then trapOwn cIllegalOperand s
        else collective (fun s =>
          match visqTrap s (x 2) (x 3) (x 4) with
          | some t => takeTrap t s
          | none => if spansMeet s.grp l [(recOfBits (getB s.grp 27), 48, x 2, x 3), (recOfBits (getB s.grp 28), 4, x 4, 2048)] then stallOn .token s
            else finish (startToken k.toNat (.visq l (x 0) (x 1) (x 2) (x 3) (x 4) (getB s.grp 27) (getB s.grp 28)) s)) s) s)

/-- A list record (R169): corners, depths and the visibility word. -/
structure VRec where
  x : List Int
  y : List Int
  z : List Word
  vis : Word
  deriving DecidableEq, Repr

def vrecOf (bs : List Byte) : VRec :=
  let i := fun k => signedOf 32 (natAt bs k)
  let w := fun k => wordOf ((bs.drop k).take 4)
  { x := [i 0, i 12, i 24], y := [i 4, i 16, i 28], z := [w 8, w 20, w 32], vis := w 36 }

/-- E of R170 for the edge from corner a to corner b at a point. -/
def edgeFn (ax ay bx bY px py : Int) : Int := (bx - ax) * (py - ay) - (bY - ay) * (px - ax)

/-- An edge claims the samples on it (R170). -/
def claims (ax ay bx bY : Int) : Bool := decide (bY < ay) || (decide (bY = ay) && decide (bx > ax))

/-- A record's covering of a sample (R170): its depth there. -/
def visDepth (r : VRec) (px py : Int) : Option Word :=
  let x := fun i => r.x.getD i 0
  let y := fun i => r.y.getD i 0
  let big := (r.x ++ r.y).any fun c => decide (c.natAbs ≥ 2 ^ 23)
  let area := edgeFn (x 0) (y 0) (x 1) (y 1) (x 2) (y 2)
  if big || r.vis == 0xFFFFFFFF || decide (area = 0) then none
  else
    let j := if area < 0 then 2 else 1
    let k := if area < 0 then 1 else 2
    let e01 := edgeFn (x 0) (y 0) (x j) (y j) px py
    let e12 := edgeFn (x j) (y j) (x k) (y k) px py
    let e20 := edgeFn (x k) (y k) (x 0) (y 0) px py
    let ok := fun e c => decide (e > (0 : Int)) || (decide (e = 0) && c)
    if ok e01 (claims (x 0) (y 0) (x j) (y j)) && ok e12 (claims (x j) (y j) (x k) (y k)) && ok e20 (claims (x k) (y k) (x 0) (y 0))
        && r.z.all finite32 then
      match FVal.sum 0 [(FVal.ofInt e12).mul (f32 (r.z.getD 0 0)), (FVal.ofInt e20).mul (f32 (r.z.getD j 0)),
        (FVal.ofInt e01).mul (f32 (r.z.getD k 0))] with
      | .fin s m e => some (ratio32 s m e area.natAbs)
      | _ => none
    else none

/-- The record that a sample shows (R170): the least depth, then the lower list index. -/
def visPixel (rs : List VRec) (px py : Int) : Option (Word × Word) :=
  rs.foldl (fun b r => match visDepth r px py with
    | none => b
    | some z => match b with
      | none => some (z, r.vis)
      | some (bz, bv) => if lt32 z bz then some (z, r.vis) else some (bz, bv)) none

/-- The addresses of some words of a record for the engine: refused words are none, and a translation to wait for stops it. -/
def wordAddrs (s : State) (core ctx kind : Nat) (r : BufRec) : List Nat → Except (Nat × Trans) (List (Option Nat))
  | [] => .ok []
  | off :: os =>
    let va := r.base + swizzle r.swz off
    match agentTranslate s core ctx va kind, wordAddrs s core ctx kind r os with
    | .ok a, .ok as => .ok (some a :: as)
    | .refused _, .ok as => .ok (none :: as)
    | .ok _, .error e => .error e
    | .refused _, .error e => .error e
    | t, _ => .error (va, t)

/-- The words of a list element as loads of the lane (R357). -/
def loadElem (g : Group) (lane scope : Nat) : List (Option Nat) → State → List Byte × State
  | [], s => ([], s)
  | a :: as, s =>
    let (bs, s) := match a with
      | some p => loadBytes g.uid lane g.core scope 0 p 4 (performAt g.uid lane .mem (lineOf p) s)
      | none => ([0, 0, 0, 0], s)
    let (r, s) := loadElem g lane scope as s
    (bs ++ r, s)

/-- The list records that can be read, in order, and whether one was refused. -/
def loadList (g : Group) (lane scope : Nat) : List (List (Option Nat)) → State → List VRec × Bool × State
  | [], s => ([], false, s)
  | as :: r, s =>
    let (bs, s) := if as.all Option.isSome then loadElem g lane scope as s else ([], s)
    let (vs, ref, s) := loadList g lane scope r s
    if as.all Option.isSome then (vrecOf bs :: vs, ref, s) else (vs, true, s)

/-- The addresses of the list elements, ten words each. -/
def listAddrs (s : State) (g : Group) (r : BufRec) (first : Nat) : List Nat → Except (Nat × Trans) (List (List (Option Nat)))
  | [] => .ok []
  | i :: is =>
    match wordAddrs s g.core g.ctx 0 r ((List.range 10).map fun j => (first + i) * r.pitch + 4 * j), listAddrs s g r first is with
    | .ok a, .ok as => .ok (a :: as)
    | .error e, _ => .error e
    | _, .error e => .error e

/-- The stores of the output words (R357). -/
def storeWords (g : Group) (lane scope : Nat) (det : Bool) : List (Option Nat) → List Word → State → State
  | some a :: as, w :: ws, s =>
    storeWords g lane scope det as ws
      (storeBytes g.uid lane g.core scope 0 a (toBytes 4 w.toNat) det (peerOf a) (performAt g.uid lane .mem (lineOf a) s))
  | none :: as, _ :: ws, s => storeWords g lane scope det as ws s
  | _, _, s => s

/-- A resolve completes (R169 to R171). One that would exceed a speculative task's sets goes on only once the task is the oldest (R205). -/
def finishVisq (g : Group) (n : Nat) (t : Token) (lane tx ty first count base : Nat) (b27 b28 : BitVec 128) (s : State) : State :=
  let l := recOfBits b27
  let o := recOfBits b28
  let outs := (List.range (insideOf o 4 base 2048)).map fun i => (base + i) * o.pitch
  match listAddrs s g l first (List.range (insideOf l 48 first count)), wordAddrs s g.core g.ctx 1 o outs with
  | .error (va, tr), _ => agentWait g.core g.ctx va 0 tr s
  | _, .error (va, tr) => agentWait g.core g.ctx va 1 tr s
  | .ok las, .ok oas =>
    let reads := (las.filter fun as => as.all Option.isSome).flatMap fun as => as.filterMap id
    if taskOver s g.uid lane reads (oas.filterMap id) then s else
    let (rs, ref, s) := loadList g lane l.scope las s
    let px := (List.range 1024).map fun (i : Nat) => visPixel rs ((32 * tx + i % 32 : Nat) * 256 + 128) ((32 * ty + i / 32 : Nat) * 256 + 128)
    let vis := px.map fun p => (p.map fun q => q.2).getD 0xFFFFFFFF
    let dep := px.map fun p => (p.map fun q => q.1).getD 0x7F800000
    let s := storeWords g lane o.scope ((findCtx g.ctx s).getD {}).det oas (vis ++ dep) s
    let s := performWhere (fun x => decide (x.grp = g.uid) && decide (x.lane = lane)) s
    let s := takeSamples g t.pc (((List.range (insideOf l 48 first count)).flatMap fun i => (List.range 10).map fun j =>
      (l.base + swizzle l.swz ((first + i) * l.pitch + 4 * j), none)) ++ outs.map fun o' => (o.base + swizzle o.swz o', none)) s
    let refused := ref || oas.any Option.isNone
    endToken g.uid n t (BitVec.ofNat 32 ((px.filter Option.isSome).length + (if refused then 2 ^ 31 else 0))) s

/-- `VISQ_COMPLETE` (R171). The token of an aborted task completes with a value that the spec does not state (R205). -/
def execVisqComplete (grp n : Nat) (s : State) : Host.Outcome State Fault Refusal :=
  .next (match liveToken s grp n with
    | some (g, t) => match t.work with
      | .visq lane tx ty first count base b27 b28 => finishVisq g n t lane tx ty first count base b27 b28 s
      | .void => let (k, s) := drawFree s; endToken g.uid n t (Config.freeValue k) s
      | _ => s
    | none => s)

end Sys2Proof.Machine
end

