-- ==== Sys2Proof/Machine/Retire.lean ====
section
/-!
DEFINITION. What completes by itself: variable-latency operations (R41), copies (R232), stores, write-backs and leases (R217 to R219),
fences (R236), ordered claims (R202), groups and grids (R33, R255), and speculative tasks (R205, R206).
-/

namespace Sys2Proof.Machine

/-! ### Results and copies -/

/-- `VAR_LATENCY_COMPLETE` (R41): the `n`-th operation in flight of an issuer; its loads have been performed by then. -/
def execVarLatencyComplete (grp n : Nat) (s : State) : Host.Outcome State Fault Refusal :=
  let s := performNth grp n (fun _ => true) s
  .next (match (findGroup grp s).bind fun g => g.ops[n]? with
    | none => s
    | some o => updGroup grp (fun g => { completeOp g o with ops := g.ops.eraseIdx n }) s)

/-- One end of a copy: its record, where its first byte lies, whether it is the scratchpad, and the copy's cache policy (R211). -/
structure CopyEnd where
  record : BufRec
  start : Int
  scratch : Bool
  policy : Nat
  deriving DecidableEq, Repr

def copyEnd (s : State) (g : Group) (bits : BitVec 128) (scratch : Bool) (idx policy : Nat) : CopyEnd :=
  let r : BufRec := if scratch then
      { base := 0, extent := ((findWg g.wg s).getD {}).scratchSize, stride := 0, swz := 0, ro := false, clamp := false, konst := false,
        elem := 0, scope := 0, resv := 0 }
    else recOfBits bits
  { record := r, start := if r.stride ≠ 0 then idx * r.stride else idx, scratch := scratch, policy := policy }

/-- A byte of an end lies inside its record (R213). -/
def CopyEnd.inside (e : CopyEnd) (i : Nat) : Bool := decide (0 ≤ e.start + i) && decide (e.start + i < e.record.limit)

def CopyEnd.va (e : CopyEnd) (i : Nat) : Nat := e.record.base + swizzle e.record.swz (e.start + i).toNat

/-- The translation of a byte. -/
def CopyEnd.trans (e : CopyEnd) (s : State) (g : Group) (i kind : Nat) : Trans :=
  if e.scratch then .ok (e.start + i).toNat else agentTranslate s g.core g.ctx (e.va i) kind

/-- The source byte; those outside a record with CLAMP read 0. -/
def copyLoad (g : Group) (e : CopyEnd) (i : Nat) (s : State) : Except (Nat × Trans) (Byte × State) :=
  if !e.inside i then .ok (0, s)
  else match e.trans s g i 0 with
    | .ok a =>
      if e.scratch then .ok (scratchByte s ((findWg g.wg s).getD {}) a, s)
      else
        let s := keepLine g.core (lineOf a) e.policy (flitFrom a (writeBackAt g.core (lineOf a) s))
        .ok (homeByte s a, s)
    | t => .error (e.va i, t)

/-- A byte that a copy writes is a store of the tasks that issued it (R205). -/
def noteCopy (g : Group) (m : DWord) (key : Nat) (b : Byte) (s : State) : State :=
  if s.tasks.isEmpty then s else (lanes m).foldl (fun s l => noteTask (some (g.uid, l)) key [b] s) s

/-- The destination byte, performed at its place, with its GWCT; those outside a record with CLAMP are dropped. `m`: the lanes of the word. -/
def copyStore (g : Group) (m : DWord) (e : CopyEnd) (i : Nat) (b : Byte) (s : State) : Except (Nat × Trans) (Nat × State) :=
  if !e.inside i then .ok (0, s)
  else match e.trans s g i 1 with
    | .ok a =>
      let s := noteCopy g m (taskKey g (if e.scratch then .scratch else .mem) a) b s
      if e.scratch then .ok (0, scratchStore none g.wg a [b] s)
      else
        let s := keepLine g.core (lineOf a) e.policy (drainCore g.core (lineOf a) (writeBackAt g.core (lineOf a) s))
        .ok (gwctOf s a, performStore none g.core a [b] s)
    | t => .error (e.va i, t)

/-- Where a copy stopped: the byte's number, its address, the access kind of R305, and what its translation came to. -/
structure CopyStop where
  byte : Nat
  va : Nat
  kind : Nat
  trans : Trans
  deriving DecidableEq, Repr

/-- The bytes from number `i` on, with the largest GWCT of the writes: all of them, or up to a byte that a translation stopped. -/
def copyLoop (g : Group) (m : DWord) (src dst : CopyEnd) : Nat → Nat → Nat → State → Option CopyStop × Nat × State
  | 0, _, t, s => (none, t, s)
  | n + 1, i, t, s =>
    match copyLoad g src i s with
    | .error (va, tr) => (some ⟨i, va, 0, tr⟩, t, s)
    | .ok (b, s') => match copyStore g m dst i b s' with
      | .error (va, tr) => (some ⟨i, va, 1, tr⟩, t, s')
      | .ok (t', s'') => copyLoop g m src dst n (i + 1) (max t t') s''

/-- The requests of one end of a copy: one for each line (R335, log entry 96). -/
def CopyEnd.requests (e : CopyEnd) (count : Nat) : List Nat :=
  if e.scratch then []
  else (List.range count).filterMap fun i => if e.inside i && (decide (i = 0) || decide (e.va i % 128 = 0)) then some (e.va i) else none

/-- A copy has ended: its token takes its value, the group keeps the largest GWCT of its writes (R245), and a barrier that waited for its
batch may complete (R234). -/
def endCopy (g : Group) (n : Nat) (t : Token) (batch v gwct : Nat) (vas : List Nat) (s : State) : State :=
  let s := takeSamples g t.pc (vas.map fun va => (va, none)) s
  let s := updGroup g.uid (fun g => { g with copies := g.copies ++ [{ sreg := some t.sreg, batch := batch, gwct := gwct }] }) s
  barrierCheck g.wg (endToken g.uid n t (BitVec.ofNat 32 v) s)

/-- A copy completes, or ends at the byte that translation refuses, or waits for a page with nothing of it performed (R232). -/
def finishCopy (g : Group) (n : Nat) (t : Token) (src dst : CopyEnd) (count batch : Nat) (s : State) : State :=
  match copyLoop g t.lanes src dst count 0 0 s with
  | (none, gwct, s) => endCopy g n t batch count gwct (src.requests count ++ dst.requests count) s
  | (some ⟨i, _, _, .refused _⟩, gwct, s) => endCopy g n t batch (i + 2 ^ 31) gwct (src.requests i ++ dst.requests i) s
  | (some stop, _, _) => agentWait g.core g.ctx stop.va stop.kind stop.trans s

/-- `COPY_COMPLETE` (R232). -/
def execCopyComplete (grp n : Nat) (s : State) : Host.Outcome State Fault Refusal :=
  .next (match liveToken s grp n with
    | some (g, t) => match t.work with
      | .copy src dst sl dl si di count _ pol batch => finishCopy g n t (copyEnd s g src sl si pol) (copyEnd s g dst dl di pol) count batch s
      | _ => s
    | none => s)

/-! ### Stores, write-backs, leases, fences -/

/-- The pending stores of one core to one line leave in order (R221): the first one that goes before the `n`-th. -/
def firstPending (s : State) (n : Nat) : Option PStore :=
  (s.stores[n]?).bind fun p =>
    s.stores.find? fun q => decide (lineOf q.addr = lineOf p.addr) && decide (coreOfGroup q.grp s = coreOfGroup p.grp s)

/-- `STORE_PERFORM_AT_HOME` (R219): the `n`-th store or atomic in flight, or the one of its line that goes before it. -/
def execStorePerformAtHome (n : Nat) (s : State) : Host.Outcome State Fault Refusal :=
  .next (match firstPending s n with
    | none => s
    | some p => performPending (coreOfGroup p.grp s) p { s with stores := s.stores.erase p })

/-- `L1_WRITE_BACK` (R217). -/
def execL1WriteBack (core line : Nat) (s : State) : Host.Outcome State Fault Refusal := .next (writeBackAt core line s)

/-- `LEASE_EXPIRY` (R218): an expired copy of the L2 is gone; an L1's stays for the scopes that read any copy (R217), and no
device-scope load takes it. -/
def execLeaseExpiry (lvl unit line : Nat) (s : State) : Host.Outcome State Fault Refusal :=
  .next (match findLine lvl unit line s with
    | none => s
    | some c => if lvl = 2 ∧ c.usable s = false then putLine { c with copy := none } s else s)

/-- `FENCE_RELEASE_COMPLETE` (R236): device time has passed the GWCT that a fence, or a word that releases, waits for. -/
def execFenceReleaseComplete (grp : Nat) (s : State) : Host.Outcome State Fault Refusal :=
  .next (match findGroup grp s with
    | none => s
    | some g =>
      if g.stop = .running ∧ releaseDone g ((g.act.map fun e => e.mask).getD 0) s.time = true then
        if g.stall = .fence then within grp finish s
        else if g.stall = .release then updGroup grp (fun g => { g with stall := .none }) s
        else s
      else s)

/-- `APPEND_GRANT` (R202): every lower workgroup has claimed or retired. -/
def execAppendGrant (grp : Nat) (s : State) : Host.Outcome State Fault Refusal :=
  .next (match findGroup grp s with
    | none => s
    | some g => match g.held with
      | some (.claim u d x) =>
        if g.stop = .running ∧ g.stall = .append
            ∧ lowerDone s ((findGrid ((findWg g.wg s).getD {}).grid s).getD {}) u.toNat ((findWg g.wg s).getD {}) = true then
          within grp (fun s => grantClaim u d x (recordClaim u.toNat s)) s
        else s
      | _ => s)

/-! ### Groups and grids (R33) -/

/-- A vector group that may retire: no live lane, no flag that counts, no pending token. -/
def mayRetire (g : Group) : Bool :=
  decide (g.kind = .vector) && decide (g.live = 0) && g.act.isNone && g.ops.isEmpty && g.tokens.isEmpty

/-- A group retires: its stores are performed, its grid keeps their GWCT, its workgroup may retire. -/
def retireGroup (g : Group) (s : State) : State :=
  let s := releaseAll (fun u => decide (u = g.uid)) s
  let t := groupGwct ((findGroup g.uid s).getD g)
  let s := updGrid ((findWg g.wg s).getD {}).grid (fun r => { r with gwct := max r.gwct t }) s
  let s := dropGroups (fun h => decide (h.uid = g.uid)) s
  retireCheck g.wg (barrierCheck g.wg s)

/-- `GROUP_RETIRE` (R33). -/
def execGroupRetire (grp : Nat) (s : State) : Host.Outcome State Fault Refusal :=
  .next (match findGroup grp s with
    | none => s
    | some g => if mayRetire g && decide (g.uid ≠ 0) then retireGroup g s else s)

/-- A retired grid leaves (R33, R191, R260, R27): its queue is bound no more, an uncached entry is freed, its parent's count falls. -/
def closeGrid (g : Grid) (s : State) : State :=
  let s := { s with grids := s.grids.filter fun h => decide (h.uid ≠ g.uid) }
  let s := { s with queues := s.queues.map fun (q : Queue) => if q.bound = some g.uid then { q with bound := none } else q }
  let s := { s with fits := s.fits.filter fun f => f.cached || s.grids.any fun h => decide (h.fit = some f.id) }
  if g.parent = 0 then s
  else
    let s := updWg g.parent (fun w => { w with children := w.children - 1 }) s
    retireCheck g.parent (childDone g.parent s)

/-- `COMPLETION_RECORD_WRITE` (R255): once every task of the grid has committed (R205) and device time has passed the grid's last GWCT. -/
def execCompletionRecordWrite (grid : Nat) (s : State) : Host.Outcome State Fault Refusal :=
  .next (match findGrid grid s with
    | none => s
    | some g => match g.ended with
      | none => s
      | some t =>
        if (s.tasks.any fun t => decide (t.grid = grid)) || (decide (g.gwct ≠ 0) && decide (s.time ≤ g.gwct)) then s
        else
          let core := partCore s ((findCtx g.ctx s).getD {})
          match writeCompletion core g.ctx g.launch.compl 1 (gridInfo g) g.gridId g.wgDone (g.tstart.getD t) t s with
          | .ok s => closeGrid g s
          | .error (_, .refused _) => closeGrid g s
          | .error (va, tr) => agentWait core g.ctx va 1 tr s)

/-! ### Speculative tasks (R205, R206) -/

/-- The order of tasks (R204). -/
def taskBefore (a b : Nat × Word) : Bool := decide (a.1 < b.1) || (decide (a.1 = b.1) && decide (a.2.toNat < b.2.toNat))

/-- Every task of a queue that has not committed: started, formed, or still an entry. -/
def uncommitted (s : State) (q : Nat) : List (Nat × Word) :=
  ((s.tasks.filter fun t => decide (t.queue = q)).map fun t => (t.ts, t.payload))
    ++ ((s.grids.filter fun g => g.launch.queued && decide (g.launch.queue = q)).flatMap fun g => g.waiting.flatMap fun f => f.ts.zip f.vals)
    ++ (((findQueue q s).map fun q => q.entries.map fun e => (e.ts, e.payload)).getD [])

/-- The oldest started task of a queue, when nothing uncommitted goes before it. -/
def oldestTask (s : State) (q : Nat) : Option Task :=
  (s.tasks.filter fun t => decide (t.queue = q)).find? fun t => !(uncommitted s q).any fun o => taskBefore o (t.ts, t.payload)

/-- An entry ordered before a task can still arrive (R206): from a live group of the context that has no task of the queue. -/
def mayArrive (s : State) (t : Task) : Bool :=
  match findQueue t.queue s with
  | none => false
  | some q => (allGroups s).any fun g =>
    decide (g.kind = .vector) && decide (g.ctx = q.ctx) && decide (g.live ≠ 0)
      && !(s.tasks.any fun u => decide (u.grp = g.uid) && decide (u.queue = t.queue)) && decide (lastPushed g t.queue < t.ts)

/-- Two records of one task. -/
def isTask (t u : Task) : Bool := decide (u.grp = t.grp) && decide (u.lane = t.lane) && decide (u.queue = t.queue) && decide (u.ts = t.ts)
  && decide (u.payload = t.payload)

/-- The core of a task's group, as long as the group has not retired. -/
def coreOfTask (t : Task) (s : State) : Nat := ((findGroup t.grp s).map fun g => g.core).getD t.core

/-- The GWCT of a task's write is its grid's too, whose completion record waits for it (R33). -/
def gridGwct (t : Task) (a : Nat) (s : State) : State :=
  updGrid t.grid (fun g => { g with gwct := max g.gwct (gwctOf s a) }) s

/-- One buffered byte of a task is performed at its place, and no core keeps a copy of its line, so that it is visible at once (R205). -/
def applyByte (t : Task) (k : Nat) (b : Byte) (s : State) : State :=
  let who := some (t.grp, t.lane)
  if k ≥ taskScratch then scratchStore who ((k - taskScratch) / 2 ^ 20) ((k - taskScratch) % 2 ^ 20) [b] s
  else if peerGone s k then s
  else
    let core := coreOfTask t s
    let s := gridGwct t k (drainCore core (lineOf k) s)
    dropCopies (lineOf k) (performStore who core k [b] (writeBackAt core (lineOf k) s))

/-- A task's buffered writes are applied (R205). -/
def applyTask (t : Task) (s : State) : State := t.wset.foldl (fun s w => applyByte t w.1 w.2 s) s

/-- What a task that ran on non-speculatively has stored becomes visible at once when it commits (R205): its stores in flight and the dirty
lines it wrote are performed, and no core keeps a copy of them. -/
def settleTask (t : Task) (s : State) : State :=
  let core := coreOfTask t s
  let s := performWhere (fun x => decide (x.grp = t.grp) && decide (x.lane = t.lane)) s
  let wset := ((s.tasks.find? (isTask t)).map fun u => u.wset).getD t.wset
  (distinctLines ((wset.map fun w => w.1).filter fun k => decide (k < taskScratch))).foldl (fun s line =>
    dropCopies line (gridGwct t (128 * line) (writeBackAt core line s))) s

/-- A lane that waited for its task goes on at its word. -/
def wakeTask (l : Nat) (g : Group) : Group :=
  match g.frontier.find? fun e => decide (e.wait = .task) && bit e.mask l with
  | none => g
  | some e => addEntry { e with mask := laneBit l, wait := .none } (removeLanes (laneBit l) g)

/-- The oldest task runs on non-speculatively. -/
def promote (t : Task) (s : State) : State :=
  let s := applyTask t s
  let s := { s with tasks := s.tasks.map fun u => if isTask t u then { u with spec := false } else u }
  updGroup t.grp (wakeTask t.lane) s

/-- A task runs again from its entry with its starting state (R205): in a group of its own with the `GID`, the side and the lane it had, which
counts as no other group of the grid (log entry 82). -/
def runAgain (t : Task) (g : Grid) : Grid :=
  { g with waiting :=
      { gid := t.gid, gen := 0, start := none, vals := [t.payload], ts := [t.ts], lanes := [t.lane], again := true, side := t.side } :: g.waiting }

/-- A resolve that a lane drives is performed no more (R205). -/
def voidVisq (lane : Nat) (g : Group) : Group :=
  { g with tokens := g.tokens.map fun k => match k.work with
    | .visq l _ _ _ _ _ _ _ => if l = lane then { k with work := .void } else k
    | _ => k }

/-- A task is aborted: its lane is gone, with its write set, its pushes, its entries for bins (log entry 95) and its resolves, and it runs
again. -/
def abortTask (t : Task) (s : State) : State :=
  let s := updGroup t.grp (voidVisq t.lane) { s with tasks := s.tasks.filter fun u => !isTask t u }
  let s := if t.exited then s
    else match findGroup t.grp s with
      | none => s
      | some g => barrierCheck g.wg (updGroup t.grp (fun g => endLanes (laneBit t.lane) (removeLanes (laneBit t.lane) g)) s)
  updGrid t.grid (runAgain t) s

/-- A later task that has read a line which a committed one wrote. -/
def conflicts (t u : Task) : Bool :=
  u.spec && decide (u.queue = t.queue) && !isTask t u && u.rset.any fun a => (t.wset.map fun w => lineOf w.1).contains (lineOf a)

/-- The entries that a task has held back for a queue. -/
def heldFor (t : Task) (q : Nat) : Nat := (t.pushes.filter fun x => decide (x.1 = q)).length

/-- There is room for the entries that a task has held back. -/
def pushesFit (s : State) (t : Task) : Bool :=
  t.pushes.all fun p => match findQueue p.1 s with
    | none => true
    | some q => decide (q.entries.length + heldFor t p.1 ≤ q.capacity)

/-- The translation that entering them waits for (R310). -/
def pushesWait (s : State) (t : Task) : Option (Queue × Nat × Trans) :=
  t.pushes.findSome? fun p => (findQueue p.1 s).bind fun q => (queueWaits s q (heldFor t p.1)).map fun w => (q, w)

/-- No engine work of a task is pending: its copies and resolves are among its memory effects. -/
def workDone (s : State) (t : Task) : Bool := match findGroup t.grp s with
  | none => true
  | some g => !(g.tokens.any fun k => bit k.lanes t.lane)

/-- A task commits (R205): its writes, the aborts, its entries of queues and bins. -/
def commit (t : Task) (s : State) : State :=
  let s := if t.spec then applyTask t s else settleTask t s
  let t := (s.tasks.find? (isTask t)).getD t
  let s := (s.tasks.filter (conflicts t)).foldl (fun s u => abortTask u s) s
  let s := { s with tasks := s.tasks.filter fun u => !isTask t u }
  let s := t.pushes.foldl (fun s p => enterQueue p.1 p.2.1 p.2.2 s) s
  let s := updGrid t.grid (fun g => t.regrps.foldl (fun g p => addToBin p.1 [p.2] g) g) s
  gridEnd t.grid (((t.queue :: t.pushes.map fun p => p.1).foldl (fun s q => queueForm q s)) s)

/-- `TASK_COMMIT` (R205): the oldest task of a queue, when no entry ordered before it can still arrive (R206), commits once it has exited, or
else runs on non-speculatively. -/
def execTaskCommit (q : Nat) (s : State) : Host.Outcome State Fault Refusal :=
  .next (match oldestTask s q with
    | none => s
    | some t =>
      if mayArrive s t then s
      else if t.exited && workDone s t && pushesFit s t then
        match pushesWait s t with
        | some (qu, va, tr) => agentWait (queueCore s qu) qu.ctx va 1 tr s
        | none => commit t s
      else if t.spec then promote t s
      else s)

end Sys2Proof.Machine
end

