-- ==== Sys2Proof/Machine/Turns.lean ====
section
/-!
DEFINITION. Turns that a bound forces (R265, R267), the routines of the walker and handler slots (R305, R324, R365), page
reports (R306), pre-emption and restore (R248, R300, R336), and the hang watchdog (R337).
-/

namespace Sys2Proof.Machine

/-! ### Turns -/

/-- 1,024 clocks in ns, rounded up (R13, R265). -/
def starveNs (s : State) : Nat := (1024 * 1000 + s.clockMhz - 1) / s.clockMhz

/-- The entry that an issuer goes on with: the one inside its clause, or the one that the frontier selects. -/
def nextEntry (s : State) (g : Group) : Option FEntry :=
  match g.act with
  | some e => if e.pos.isSome then some e else selectEntry s (addEntry e { g with act := none })
  | none => selectEntry s g

/-- The header of an entry has a `WAIT` flag that is not clear (R40, R266). -/
def headerWaits (s : State) (g : Group) (e : FEntry) : Bool :=
  e.pos.isNone && (match readCode s g e.pc with
    | .word w => decide (classOf w = 0) && !waitClear g (w.extractLsb' 15 12)
    | _ => false)

/-- A vector group with an issuable clause, as far as its last issue slot shows (R266): what stalls it is gone, and the selected entry's
flags are clear. -/
def issuableGroup (s : State) (g : Group) : Bool :=
  decide (g.kind = .vector) && mayIssue s g && decide (g.stall = .none) && (match nextEntry s g with
    | none => false
    | some e => !headerWaits s g e)

/-- The group has been issuable and not chosen for 1,024 clocks (R265). -/
def overdue (s : State) (g : Group) : Bool := decide (g.ready + starveNs s ≤ s.time)

/-- The older of two groups; on a tie the lower group index, then the lower slot (R265). -/
def olderThan (g h : Group) : Bool :=
  decide (g.placed < h.placed) || (decide (g.placed = h.placed) && (decide (g.gidx < h.gidx) || (decide (g.gidx = h.gidx) && decide (g.slot < h.slot))))

/-- The order in which a quarter chooses (R265): those overdue, oldest first; then the higher launch priority, then the older. -/
def goesFirst (s : State) (g h : Group) : Bool :=
  if overdue s g then !overdue s h || olderThan g h
  else !overdue s h && (decide (h.prio < g.prio) || (decide (g.prio = h.prio) && olderThan g h))

/-- The first of some groups, by the quarter's order. -/
def firstGroup (s : State) (gs : List Group) : Option Group :=
  gs.foldl (fun b g => match b with
    | none => some g
    | some h => if goesFirst s g h then some g else some h) none

/-- Two groups share a quarter. -/
def sameQuarter (g h : Group) : Bool := decide (g.core = h.core) && decide (g.slot / 64 = h.slot / 64)

/-- The group of a quarter that has been issuable and not chosen for 1,024 clocks (R265). -/
def starved (s : State) (core quarter : Nat) : Option Group :=
  firstGroup s ((allGroups s).filter fun g =>
    decide (g.core = core) && inQuarter quarter g.slot && issuableGroup s g && overdue s g)

/-- Whether an issuer's next issue slot issues a word or takes a trap, and does not stall (R266). `run` is the meaning of the
instructions. -/
def wouldIssue (run : Instr → State → Host.Outcome State Fault Refusal) (s : State) (uid : Nat) : Bool :=
  match nextInstr (loadGroup uid s) with
  | .idle _ => false
  | .illegal _ _ => true
  | .nothing _ _ _ => true
  | .word i b => match run i b with
    | .next a => (match findGroup uid a with
      | some g => decide (g.stall = .none)
      | none => true)
    | _ => true

/-- The group can issue now: it has an issuable clause, and its next word does not stall (R266). -/
def readyNow (run : Instr → State → Host.Outcome State Fault Refusal) (s : State) (g : Group) : Bool :=
  issuableGroup s g && wouldIssue run s g.uid

/-- A group's pieces may share the issue of a chosen group `h` (R25): one context, one code, one clause address, pieces of one size, and at
most 64 lanes with those that have joined it already; no group joins an issue twice. -/
def packs (s : State) (g h : Group) : Bool :=
  decide (g.ctx = h.ctx) && decide (g.code = h.code) && decide ((g.width = 8) = (h.width = 8))
    && decide (h.joined.foldl (fun n x => n + x.2) (g.width + h.width) ≤ 64) && !(h.joined.any fun x => decide (x.1 = g.uid)) &&
    (match nextEntry s g, nextEntry s h with
    | some a, some b => decide (a.pc = b.pc) && decide (a.pos.map (fun p => p.hdr) = b.pos.map fun p => p.hdr)
    | _, _ => false)

/-- The vector group that the quarter of `g` chooses before `g` (R265), if any. -/
def chosenBefore (run : Instr → State → Host.Outcome State Fault Refusal) (s : State) (g : Group) : Option Group :=
  firstGroup s ((allGroups s).filter fun h =>
    decide (h.uid ≠ g.uid) && sameQuarter g h && goesFirst s h g && readyNow run s h)

/-- The place of a tile-program thread in the order after the thread that issued last (R119). -/
def bobOrder (s : State) (g : Group) : Nat := (g.slot + 8 - sget 0 (g.core / 4) s.bobNext) % 8

/-- The loaded issuer is not the one whose word issues (R119, R265): its quarter chooses another group, with which it does not pack (R25), or
its bobbin another thread. -/
def passedOver (run : Instr → State → Host.Outcome State Fault Refusal) (s : State) : Bool :=
  let g := s.grp
  match g.kind with
  | .vector => (match chosenBefore run s g with
    | none => false
    | some h => !packs s g h)
  | .bobbin => s.groups.any fun h =>
      decide (h.kind = .bobbin) && decide (h.core / 4 = g.core / 4) && decide (bobOrder s h < bobOrder s g) && mayIssue s h && wouldIssue run s h.uid
  | _ => false

/-- What an issue comes to for packing (R25): a group that has issued beside the chosen one has joined its issue, and its own next issue has
none beside it yet. A word that stalls has not issued. -/
def noteJoin (run : Instr → State → Host.Outcome State Fault Refusal) (before after : State) : State :=
  let g := before.grp
  let stalled := ((findGroup g.uid after).map fun h => decide (h.stall ≠ .none)).getD false
  if decide (g.kind ≠ .vector) || stalled then after
  else
    let s := updGroup g.uid (fun g => { g with joined := [] }) after
    match chosenBefore run before g with
    | none => s
    | some h => updGroup h.uid (fun h => { h with joined := h.joined ++ [(g.uid, g.width)] }) s

/-- A group whose stall has ended is issuable from now on (R265, R266): one that its last issue slot left stalled, and one that could not issue
before, whether its entries waited or its next word would have stalled. What is held for an event of its own stays. -/
def groupReady (run : Instr → State → Host.Outcome State Fault Refusal) (before after : State) (g : Group) : Group :=
  if g.kind ≠ .vector then g
  else if g.stall ≠ .none then
    if g.held.isNone && g.rendezvous.isNone && decide (g.stall ≠ .fence) && wouldIssue run after g.uid then
      { g with stall := .none, ready := after.time }
    else g
  else if readyNow run after g && !((findGroup g.uid before).map (readyNow run before)).getD true then { g with ready := after.time }
  else g

/-- The groups that have become issuable (R265). -/
def noteReady (run : Instr → State → Host.Outcome State Fault Refusal) (before after : State) : State :=
  mapGroups (groupReady run before after) after

/-- The next fetch of a changed code word chooses anew (R51). -/
def nextFetch (s : State) : State := if s.old.isEmpty then s else { s with free := s.free + 1 }

/-- `ISSUE_STARVATION` (R265): the starved group takes the next turn. -/
def execIssueStarvation (core quarter : Nat) (s : State) : Host.Outcome State Fault Refusal :=
  .next (match starved s core quarter with
    | none => s
    | some g => { s with tape := { due := s.time, what := .issue g.uid } :: s.tape })

/-- `FRONTIER_AGE_LIMIT` (R267): between clauses, an entry whose age has reached 4,032 is the one selected. -/
def execFrontierAgeLimit (grp : Nat) (s : State) : Host.Outcome State Fault Refusal :=
  .next (match findGroup grp s with
    | none => s
    | some g =>
      if g.act.isSome || decide (g.stop ≠ .running) then s
      else match selectEntry s g with
        | none => s
        | some e =>
          if e.age ≥ 4032 then
            updGroup grp (fun g => { g with act := some e, frontier := g.frontier.filter fun f => decide (f ≠ e) }) s
          else s)

/-! ### Routines (R365) -/

/-- A routine at its first instruction: one lane, its own code object, zero registers but those listed. -/
def startRoutine (kind : Issuer) (uid ctx core serves : Nat) (c : Code) (regs : List (Nat × Word)) (time : Nat) : Group :=
  { uid := uid, kind := kind, ctx := ctx, width := 1, exist := 1, live := 1, core := core, serves := serves, placed := time, ready := time
    s := regs.foldl (fun m p => sput 0 p.1 p.2 m) [], frontier := [{ pc := c.ventry - 0x100, mask := 1 }], code := c }

/-- A context whose walker runs: one that is served, or one that ends and has still to translate (R254, R300). -/
def walkedCtx (s : State) (id : Nat) : Option Context := (findCtx id s).filter fun x => (x.resident && !x.held) || x.ending

/-- A slot of a core is busy with a routine of such a context. -/
def slotBusy (s : State) (kind : Issuer) (core : Nat) : Bool :=
  (allGroups s).any fun g => decide (g.kind = kind) && decide (g.core = core) && (walkedCtx s g.ctx).isSome

/-- `TLB_MISS_WALK` (R305): the walker slot takes the oldest miss of its core. -/
def execTlbMissWalk (core : Nat) (s : State) : Host.Outcome State Fault Refusal :=
  .next (
    if slotBusy s .walker core then s
    else match s.misses.find? fun m => decide (m.core = core) && (walkedCtx s m.ctx).isSome with
      | none => s
      | some m => match findCtx m.ctx s with
        | none => s
        | some x => if linkWaits s x.walkerVa then s else
          let c := codeOf x.walkerVa (homeBytes s x.walkerVa 256)
          let (uid, s) := fresh s
          let r := startRoutine .walker uid m.ctx core m.grp c
            [(0, loWord m.va), (1, hiWord (m.va % 2 ^ 57)), (2, BitVec.ofNat 32 m.kind), (4, BitVec.ofNat 32 m.ctx)] s.time
          { s with groups := s.groups ++ [{ r with missVa := m.va, missKind := m.kind }] })

/-- The handler of a context: the declarations of its code object, read through the context's translation (R304). -/
def handlerCode (s : State) (core : Nat) (x : Context) : Except (Nat × Trans) Code :=
  match x.handlerVa with
  | none => .error (0, .refused none)
  | some va => match agentRead s core x.id va 0 256 with
    | .ok h => .ok (codeOf va h)
    | .error e => .error e

/-- The handler slot serves an issuer's trap (R324, R365). A handler object that translation refuses is as good as absent. -/
def startHandler (core : Nat) (g : Group) (r : TrapRec) (x : Context) (s : State) : State :=
  match handlerCode s core x with
  | .error (_, .refused _) => endThroughPocket x.id [r] s
  | .error (va, t) => agentWait core x.id va 0 t s
  | .ok c =>
    let (uid, s) := fresh (forgetWalks x.id (agentFlits core x.id 0 (x.handlerVa.getD 0) 256 s))
    let h := startRoutine .handler uid g.ctx core g.uid c
      [(0, BitVec.ofNat 32 core), (1, BitVec.ofNat 32 (slotCode g))] s.time
    { s with
      traps := s.traps.filter fun t => decide (t.2 ≠ g.uid)
      groups := s.groups ++ [{ h with trap := some r, chain := [r], hlane := (lowLane r.mask).getD 0 }] }

/-- `HANDLER_START` (R324): the handler slot takes the oldest trap of its core. -/
def execHandlerStart (core : Nat) (s : State) : Host.Outcome State Fault Refusal :=
  .next (
    if slotBusy s .handler core then s
    else
      let due := s.traps.find? fun t => match findGroup t.2 s with
        | some g => decide (whoCore g = core) && (servedCtx s g.ctx).isSome
        | none => false
      match due.bind fun t => findGroup t.2 s with
      | none => s
      | some g => match g.trap, findCtx g.ctx s with
        | some r, some x => startHandler core g r x s
        | _, _ => s)

/-! ### Page reports (R306) -/

/-- The lanes of a context parked on a page. -/
def parkedOn (s : State) (ctx page : Nat) : Nat :=
  ((allGroups s).filter fun g => decide (g.ctx = ctx)).foldl (fun n g =>
    (g.hem.filter fun e => decide (e.page = page)).foldl (fun n e => n + popMask e.mask) n) 0

/-- The bytes of a report. -/
def reportBytes (s : State) (r : Report) : List Byte :=
  toBytes 4 r.ctx ++ toBytes 4 0 ++ toBytes 4 r.kind ++ toBytes 4 (parkedOn s r.ctx r.page) ++ toBytes 8 r.page ++ toBytes 8 s.time

/-- `PAGE_REPORT_WRITE` (R306): HEAD is read again when the ring would be full. -/
def execPageReportWrite (s : State) : Host.Outcome State Fault Refusal :=
  .next (match s.ring, s.reports with
    | some g, r :: rest =>
      if !linkUp s then s
      else
        let g := if g.tail - g.head = g.n then { g with head := ofBytes (hostBytes s g.headAddr 8) } else g
        if g.tail - g.head = g.n then { s with ring := some g }
        else
          let s := hostStore (g.base + 32 * (g.tail % g.n)) (reportBytes s r) s
          let t := (g.tail + 1) % 2 ^ 64
          setEvt 1 { s with ring := some { g with tail := t }, reports := rest
                            mbox := { s.mbox with ftail := BitVec.ofNat 32 t } }
    | _, _ => s)

/-! ### Pre-emption (R336) -/

/-- Every speculative task of a context is aborted (R205). -/
def abortAll (ctx : Nat) (s : State) : State :=
  (s.tasks.filter fun t => t.spec && decide (((findGrid t.grid s).map fun g => g.ctx) = some ctx)).foldl (fun s t => abortTask t s) s

/-- A context that is saved or destroyed stops (R336, steps 1 to 3); a workgroup whose last entry completes then retires. -/
def stopContext (ctx : Nat) (s : State) : State := stopWork completeEntryEffects ctx s

/-- The exits that came before the stop take effect first (R336). -/
def retireDue (ctx : Nat) (s : State) : State := ((groupsOfCtx ctx s).filter mayRetire).foldl (fun s g => retireGroup g s) s

/-- The context leaves its cores: its workgroups are saved, and what they held is free. -/
def saveContext (ctx : Nat) (s : State) : State :=
  let s := retireDue ctx (stopContext ctx s)
  let s := keepFrames ctx false (abortAll ctx s)
  let wgs := (s.wgs.filter fun w => decide (w.ctx = ctx)).map fun w => w.uid
  let s := { s with
    pattern := s.pattern.map fun e => if wgs.contains e.wgC || wgs.contains e.wgU then { e with saved := true } else e
    wgs := s.wgs.map fun w => if w.ctx = ctx then { w with saved := true, room := none, reserve := false } else w
    grids := s.grids.map fun g => if g.ctx = ctx then { g with reserve := [] } else g
    tlb := s.tlb.filter fun e => decide (e.ctx ≠ ctx)
    agentWalks := s.agentWalks.filter fun w => decide (w.ctx ≠ ctx) }
  updCtx ctx (fun x => { x with resident := false }) (reenterAll s)

/-- A pre-emption, which waits for the translations with which the frames of the context are kept (R340). -/
def preempt (x : Context) (s : State) : State :=
  match ringWaits x.id s with
  | some va => agentWait (partCore s x) x.id va 0 .miss s
  | none => saveContext x.id s

/-- `PREEMPT` (R336). -/
def execPreempt (ctx : Nat) (s : State) : Host.Outcome State Fault Refusal :=
  .next (match findCtx ctx s with
    | none => s
    | some x => if x.resident then preempt x s else s)

/-- The workgroups that a restore must place: all but those saved out on their own (R32). -/
def toPlace (ctx : Nat) (s : State) : List Workgroup := s.wgs.filter fun w => decide (w.ctx = ctx) && w.saved && !w.savedOut

/-- Each saved workgroup takes a room on its named core; a pair's sides lie in one cluster (R28, R336). -/
def placeSaved (cores : List (Nat × Nat)) : List Workgroup → State → Option State
  | [], s => some s
  | w :: ws, s =>
    match cores.find? fun c => c.1 = w.uid, findGrid w.grid s with
    | some c, some g =>
      let partner := (cores.find? fun c => c.1 = w.partner).map fun c => c.2 / 4
      if (partner.map fun k => decide (k ≠ c.2 / 4)).getD false then none
      else match findCtx w.ctx s, roomAgain s g w c.2 with
        | some x, some r => if inPartition x c.2 then placeSaved cores ws (returnTo w r s) else none
        | _, _ => none
    | _, _ => none

/-- A routine stands at the core of what it serves, or at the lowest core of its partition (R305, R324). -/
def routineCore (s : State) (g : Group) : Nat :=
  match findGroup g.serves s with
  | some t => if g.serves = 0 then partCore s ((findCtx g.ctx s).getD {}) else if g.kind = .handler then whoCore t else t.core
  | none => partCore s ((findCtx g.ctx s).getD {})

/-- Routines and waiting translations follow their issuers to the new cores. -/
def moveRoutines (ctx : Nat) (s : State) : State :=
  let at_ := fun (g : Group) => if g.ctx = ctx ∧ (g.kind = .walker ∨ g.kind = .handler) then { g with core := routineCore s g } else g
  let s' := mapGroups at_ s
  { s' with misses := s'.misses.map fun m =>
      if m.ctx = ctx ∧ m.grp ≠ 0 then { m with core := coreOfGroup m.grp s' } else m }

/-- A context whose workgroups are placed is resident; its pattern-table entries enter again (R124), and its frame ring is read anew (R341). -/
def becomeResident (ctx : Nat) (s : State) : State :=
  let s := if (s.present.source.map fun f => decide (f.ctx = ctx)).getD false && !s.present.gone then setPresent (fun p => { p with kept := [] }) s else s
  updCtx ctx (fun x => { x with resident := true, lastProgress := s.time }) (moveRoutines ctx (reenterAll s))

/-- At most 64 contexts are resident (R300). -/
def residentFull (s : State) : Bool := decide ((s.ctxs.filter fun c => c.resident).length ≥ 64)

/-- `CONTEXT_MAKE_RESIDENT` (R300, R336): each saved workgroup goes to the core that the list names for it. -/
def execContextMakeResident (ctx : Nat) (cores : List (Nat × Nat)) (s : State) : Host.Outcome State Fault Refusal :=
  .next (match findCtx ctx s with
    | none => s
    | some x =>
      if x.resident || x.held || x.ending || residentFull s then s
      else match placeSaved cores (toPlace ctx s) s with
        | none => s
        | some s => becomeResident ctx s)

/-! ### Fatal faults (R337, R338) -/

/-- A record of the pocket without a word (R339). -/
def bareRec (cause addr info : Nat) : TrapRec :=
  { cause := cause, code := 0, bobbin := false, tpc := 0, topc := 0, titer := 0, mask := 0, addr := addr, info := info, core := 0, slot := 0 }

/-- Every live lane waits for children. -/
def onlyChildren (g : Group) : Bool := g.act.isNone && g.hem.isEmpty && g.frontier.all fun e => decide (e.wait = .child)

/-- A group that waits at `CHWAIT` for a child that is fed by a queue which is open and from which nothing can be formed now: it waits on entries
of the queue. -/
def onQueue (s : State) (g : Group) : Bool :=
  onlyChildren g && s.grids.any fun r =>
    decide (r.parent = g.wg) && r.launch.queued && r.waiting.isEmpty && !(s.wgs.any fun w => decide (w.grid = r.uid))
      && ((findQueue r.launch.queue s).map fun q => !q.closed).getD false

/-- An issuer that itself waits on a parked lane, on the debugger or on entries of a queue. -/
def waitsOut (s : State) (g : Group) : Bool := !g.hem.isEmpty || decide (g.stop = .halted) || onQueue s g

/-- A task of the second group goes before one that waits in the first (R205). -/
def behindTask (s : State) (g h : Group) : Bool :=
  (g.frontier.any fun e => decide (e.wait = .task))
    && (s.tasks.any fun t => decide (t.grp = g.uid) && s.tasks.any fun u =>
        decide (u.grp = h.uid) && decide (u.queue = t.queue) && taskBefore (u.ts, u.payload) (t.ts, t.payload))

/-- A waiting claim of the first group's workgroup goes after the second's workgroup (R202). -/
def behindClaim (s : State) (g h : Group) : Bool :=
  let w := (findWg g.wg s).getD {}
  let v := (findWg h.wg s).getD {}
  decide (g.stall = .append) && decide (v.grid = w.grid) && decide (wgKey v < wgKey w)

/-- The first group's trap waits for a handler slot, or its miss for a walker slot, that serves another's (R305, R324). -/
def behindRoutine (g h : Group) : Bool :=
  (decide (g.stop = .trapped) && decide (h.kind = .handler) && decide (h.core = whoCore g))
    || (decide (g.stall = .walk) && decide (h.kind = .walker) && decide (h.core = g.core))

/-- An issuer waits on another of its context: one of its workgroup's or its partner's, its handler, one that a slot, a claim or a task puts
before it, one of its workgroup's children, or a consumer of the queue that is full for it. -/
def waitsOn (s : State) (g h : Group) : Bool :=
  let grid := (findGrid ((findWg h.wg s).getD {}).grid s).getD {}
  decide (h.ctx = g.ctx)
    && ((decide (h.wg ≠ 0) && (decide (h.wg = g.wg) || decide (h.wg = ((findWg g.wg s).getD {}).partner))) || decide (h.kind = .handler ∧ h.serves = g.uid)
      || behindRoutine g h || behindClaim s g h || behindTask s g h
      || (decide (grid.parent = g.wg) && (onlyChildren g || decide (g.stall = .spawn)))
      || (decide (g.stall = .queue) && grid.launch.queued))

/-- The issuers that wait on some of those of a list, directly or through others. -/
def waitersOf (s : State) : Nat → List Group → List Group
  | 0, l => l
  | fuel + 1, l => waitersOf s fuel (l ++ ((allGroups s).filter fun g => !(l.any fun h => decide (h.uid = g.uid)) && l.any (waitsOn s g)))

/-- A group that waits on a parked lane, on the debugger or on entries of a queue, its own or another's. -/
def excused (s : State) (g : Group) : Bool :=
  (waitersOf s (allGroups s).length ((allGroups s).filter (waitsOut s))).any fun h => decide (h.uid = g.uid)

/-- The groups and threads of a context with work. -/
def working (s : State) (x : Context) : List Group :=
  (allGroups s).filter fun g => decide (g.ctx = x.id) && (decide (g.kind = .vector) || decide (g.kind = .bobbin)) && decide (g.live ≠ 0)

/-- Every one of them waits on a parked lane, the debugger or entries of a queue: such time does not count towards a hang (R337). -/
def idleExcused (s : State) (x : Context) : Bool :=
  (working s x).all (excused s)

/-- The context hangs (R337): resident work, and no progress for 2,000,000,000 ns that count. -/
def hangs (s : State) (x : Context) : Bool :=
  x.resident && !(working s x).isEmpty && decide (x.lastProgress + 2000000000 ≤ s.time) && !idleExcused s x

/-- A context for which a step's time `d` does not count towards a hang, since it was excused or not resident before (R337). -/
def skipTime (before : State) (d time : Nat) (c : Context) : Context :=
  match findCtx c.id before with
  | some x => if (!x.resident || idleExcused before x) && decide (c.lastProgress + d ≤ time) then { c with lastProgress := c.lastProgress + d } else c
  | none => c

/-- What a step's time counts towards a hang. -/
def noteExcused (before after : State) : State :=
  if after.time ≤ before.time then after
  else { after with ctxs := after.ctxs.map (skipTime before (after.time - before.time) after.time) }

/-- `HANG_WATCHDOG` (R337). -/
def execHangWatchdog (ctx : Nat) (s : State) : Host.Outcome State Fault Refusal :=
  .next (match findCtx ctx s with
    | none => s
    | some x => if hangs s x then endThroughPocket ctx [bareRec cWatchdog 0 0] s else s)

end Sys2Proof.Machine
end

