-- ==== Sys2Proof/Machine/Device.lean ====
section
/-!
DEFINITION. The device as one part: soft errors (R338), the start and minimal mode (R342, R343), partitions (R301), the clock (R13),
the host link (R241, R313), Seam domains, peer accesses and device time (R222, R316 to R318).
-/

namespace Sys2Proof.Machine

/-! ### Starts (R342, R343) -/

/-- The device goes down: what the memories hold, the counts of starts and errors, and the outside world stay. -/
def deviceDown (s : State) : State :=
  { State.reset with
    tape := s.tape, free := s.free, nextId := s.nextId, time := s.time, clockMhz := s.clockMhz, hbm := s.hbm, host := s.host
    peer := s.peer, hostRanges := s.hostRanges, failedStarts := s.failedStarts, out := s.out, unitErrors := s.unitErrors
    corrected := s.corrected, images := s.images, self := s.self, selfJoined := s.selfJoined, joinReady := s.joinReady, members := s.members }

/-- The units with more than one uncorrectable soft error since the last start (R343). -/
def errorUnits (s : State) : List UnitId := s.unitErrors.filter fun u => decide ((s.unitErrors.filter fun v => v == u).length > 1)

/-- The units out of service from a start on (R343): those of before, those that fail at it, and those with too many errors; each once. -/
def takenOut (failed : List UnitId) (s : State) : List UnitId :=
  (s.out ++ failed ++ errorUnits s).foldl (fun l u => if l.contains u then l else l ++ [u]) []

/-- A start has failed: the units that fail at it are out of service all the same (R343), and after three in a row the device comes up in
minimal mode with the reason (R342). -/
def failStart (reason : Nat) (failed : List UnitId) (s : State) : State :=
  let n := s.failedStarts + 1
  let s := { s with out := takenOut failed s, unitErrors := [] }
  if n ≥ 3 then
    { deviceDown s with
      failedStarts := n, started := true, minimal := true, mbox := { ({} : Mailbox) with reason := BitVec.ofNat 8 reason } }
  else { deviceDown s with failedStarts := n }

/-- The SHAKE256 digest of a firmware image (R314), 32 bytes (R315). -/
def imageDigest (m : FirmwareImage) : List Byte := shake256 m.bytes 32

/-- An image passes verification (R314): its signature, of at most 1,280 bytes (R315), verifies over its digest. -/
def imageVerifies (m : FirmwareImage) : Bool := decide (m.sig.length ≤ 1280) && Config.falconVerify (imageDigest m) m.sig

/-- Every image of a start passes. -/
def imagesVerify (rep : StartReport) : Bool := rep.images.all imageVerifies

/-- Why a start fails, given the units out of service. -/
def startFailure (rep : StartReport) (out : List UnitId) : Option Nat :=
  if !imagesVerify rep then some 1
  else if !rep.baseOk then some 3
  else if (List.range 8).all fun d => out.contains (.die d) then some 2
  else if (List.range 12).all fun d => out.contains (.stack d) then some 4
  else if !rep.ready then some 5
  else none

/-- `DEVICE_START` (R342, R343). -/
def execDeviceStart (rep : StartReport) (s : State) : Host.Outcome State Fault Refusal :=
  .next (
    if s.started then s
    else
      let s := { s with images := if imagesVerify rep then rep.images.map fun m => (m.ident, ofBytes (imageDigest m)) else [] }
      let out := takenOut rep.failed s
      match startFailure rep out with
      | some r => failStart r rep.failed s
      | none => { deviceDown s with started := true, failedStarts := 0, out := out, unitErrors := [] })

/-- `FIRMWARE_READY_TIMEOUT` (R342): a start fails. -/
def execFirmwareReadyTimeout (s : State) : Host.Outcome State Fault Refusal := .next (if s.started then s else failStart 5 [] s)

/-! ### Soft errors (R338) -/

/-- `ECC_CORRECTABLE` (R338): corrected and counted. -/
def execEccCorrectable (_hbm : Bool) (_pa : Nat) (s : State) : Host.Outcome State Fault Refusal :=
  .next { s with corrected := s.corrected + 1 }

/-- An entry of the fitting cache is found no more (R191, R338). -/
def dropFit (id : Nat) (s : State) : State :=
  { s with fits := (s.fits.map fun f => if f.id = id then { f with valid := false } else f).filter fun f =>
      f.valid || s.grids.any fun g => decide (g.fit = some f.id) }

/-- `ECC_UNCORRECTABLE` (R338): the owning context ends, or a fitting-cache entry is invalid, or the device restarts, which counts as a
start that has failed (R342). -/
def execEccUncorrectable (site : EccSite) (unit : UnitId) (hbm : Bool) (pa : Nat) (s : State) : Host.Outcome State Fault Refusal :=
  let s := { s with unitErrors := s.unitErrors ++ [unit] }
  .next (match site with
    | .context c =>
      if (findCtx c s).isSome then endThroughPocket c [bareRec cEcc (pa % 2 ^ 52) (if hbm then 1 else 0)] s else s
    | .fittingEntry n => dropFit n s
    | .firmware => failStart 6 [] s)

/-! ### Partitions and the clock -/

/-- A partition's dies (R301). -/
def partOk (p : Nat × Nat) : Bool :=
  (decide (p.2 = 1) || decide (p.2 = 2) || decide (p.2 = 4) || decide (p.2 = 8)) && decide (p.1 % p.2 = 0) && decide (p.1 + p.2 ≤ 8)

/-- No die lies in two partitions. -/
def layoutOk (l : List (Nat × Nat)) : Bool :=
  l.all partOk && (List.range 8).all fun d => decide ((l.filter fun p => decide (p.1 ≤ d) && decide (d < p.1 + p.2)).length ≤ 1)

/-- `PARTITION_CHANGE` (R301): only while every context's partition stays. -/
def execPartitionChange (layout : List (Nat × Nat)) (s : State) : Host.Outcome State Fault Refusal :=
  .next (if s.started && !s.minimal && layoutOk layout && s.ctxs.all fun c => layout.contains (c.partBase, c.partSize) then
      { s with layout := layout }
    else s)

/-- `THERMAL_CLOCK_LIMIT` (R13): the arithmetic clock, at most 1.3 GHz. -/
def execThermalClockLimit (mhz : Nat) (s : State) : Host.Outcome State Fault Refusal :=
  .next { s with clockMhz := max 1 (min mhz 1300) }

/-! ### The host link (R241, R313) -/

def hostWrite (pa : Nat) (bytes : List Byte) (s : State) : State :=
  (splitLines (bytes.length + 1) pa bytes).foldl (fun s p => hostLine p s) s

/-- `HOST_CXL_MEM_WRITE` (R313): HBM as the host sees it; until IDE streams are set up the request fails. -/
def execHostCxlMemWrite (pa : Nat) (bytes : List (BitVec 8)) (s : State) : Host.Outcome State Fault Refusal :=
  .next (if linkUp s && (List.range bytes.length).all fun i => !isHost s (pa + i) then hostWrite pa bytes s else s)

/-- `HOST_CXL_MEM_READ` (R313): a read of the home changes nothing. -/
def execHostCxlMemRead (_pa _len : Nat) (s : State) : Host.Outcome State Fault Refusal := .next s

/-- The front end takes back the TAIL lines of its host queues (R253). -/
def seeTails (p : Queue → Bool) (s : State) : State :=
  if !linkUp s then s
  else s.queues.foldl (fun s q => if !q.device && !q.stopped && p q then seeTail q s else s) s

/-- `CXL_CACHE_SNOOP` (R241): a host write to host memory; a store to a TAIL line reaches the front end (R253). -/
def execCxlCacheSnoop (pa : Nat) (bytes : List (BitVec 8)) (s : State) : Host.Outcome State Fault Refusal :=
  .next (seeTails (fun q => decide (pa < q.tailAddr + 8) && decide (q.tailAddr < pa + bytes.length)) (hostMemWrite pa bytes s))

/-- `IDE_STREAM_SETUP` (R313): not in minimal mode. -/
def execIdeStreamSetup (s : State) : Host.Outcome State Fault Refusal :=
  .next (if s.started && !s.minimal then seeTails (fun _ => true) { s with ide := true } else s)

/-! ### Seam domains (R316 to R318) -/

/-- The loads of a group that are on their way to a member are lost (R317). -/
def loseLoads (m : Nat) (g : Group) : Group :=
  let lose := fun (p : PLoad) => if decide (p.place = .mem) && decide (peerOf p.addr = some m) then { p with lost := true } else p
  { g with ops := g.ops.map fun o => { o with loads := o.loads.map lose } }

/-- A peer is absent: the TLB entries of its windows, the copies of its lines and the stores on their way to it are gone (R246, R317), and the
loads on their way to it are lost. -/
def declareAbsent (m : Nat) (s : State) : State :=
  let gone := fun (e : TlbEntry) => s.imports.any fun i =>
    decide (i.member = m) && decide (i.ctx = e.ctx) && decide (i.va < e.va + pageBytes e.size) && decide (e.va < i.va + i.len)
  let s := mapGroups (loseLoads m) s
  { s with
    members := s.members.map fun x => if x.num = m then { x with present := false, joined := false } else x
    tlb := s.tlb.filter fun e => !gone e
    agentWalks := []
    stores := s.stores.filter fun p => decide (p.peer ≠ some m)
    caches := s.caches.filter fun c => decide (peerOf (128 * c.line) ≠ some m) }

/-- The time source: the present, joined member of the lowest number, this device among them (R318). -/
def timeSource (s : State) : Option Nat :=
  ((s.members.filter fun x => x.present && x.joined).map fun x => x.num).foldl (fun b n => match b with
    | none => some n
    | some m => some (min m n)) (if s.selfJoined then some s.self else none)

def findMember (m : Nat) (s : State) : Option Member := s.members.find? fun x => x.num = m

/-- `PEER_LEAVE_ANNOUNCE` (R316). -/
def execPeerLeaveAnnounce (member : Nat) (s : State) : Host.Outcome State Fault Refusal :=
  .next (match findMember member s with
    | none => s
    | some x => if x.present then declareAbsent member s else s)

/-- `PEER_SILENCE_TIMEOUT` (R316): no flit for 20,000 ns. -/
def execPeerSilenceTimeout (member : Nat) (s : State) : Host.Outcome State Fault Refusal :=
  .next (match findMember member s with
    | none => s
    | some x => if x.present && decide (x.flit + 20000 ≤ s.time) then declareAbsent member s else s)

/-- `PEER_JOIN` (R316, R318): a peer becomes present; this device itself joins a domain whose source's count is given, stepping
forward when it is behind and counting at half rate when it is ahead. -/
def execPeerJoin (member count : Nat) (s : State) : Host.Outcome State Fault Refusal :=
  .next (
    if s.minimal || !s.started || decide (member ≥ 256) then s
    else if member = s.self then
      if s.selfJoined || s.joinReady.isSome then s
      else
        let s := { s with time := max s.time count }
        { s with joinReady := some (s.time + (s.time - count) - 12) }
    else
      { s with members := s.members.filter (fun x => decide (x.num ≠ member))
          ++ [{ num := member, present := true, joined := false, flit := s.time }] })

/-- `TIME_JOIN_COMPLETE` (R318): this device's count lies within 12 ns of the source's, or a peer has reported that its own does. -/
def execTimeJoinComplete (member : Nat) (s : State) : Host.Outcome State Fault Refusal :=
  .next (
    if member = s.self then match s.joinReady with
      | some t => if t ≤ s.time then { s with selfJoined := true, joinReady := none } else s
      | none => s
    else { s with members := s.members.map fun x => if x.num = member ∧ x.present then { x with joined := true, flit := s.time } else x })

/-- The length of a peer's access, and whether it writes. -/
def peerLen : PeerOp → Nat
  | .load n => n
  | .store bs => bs.length
  | .atomic _ _ _ => 4

def peerWrites : PeerOp → Bool
  | .load _ => false
  | _ => true

/-- The lines of a run of bytes take leases at their homes (R218). -/
def leaseLines (core ctx va n : Nat) (s : State) : State :=
  ((List.range n).filter fun i => decide (i = 0) || decide ((va + i) % 128 = 0)).foldl (fun s i =>
    match agentTranslate s core ctx (va + i) 0 with
    | .ok a => (grantLease (lineOf a) s).2
    | _ => s) s

/-- A granted access is performed at the home; a load's line is leased to the peer, whose copies the GWCT of later stores covers
(R218, R222, R317). -/
def performPeer (x : Context) (va : Nat) (op : PeerOp) (s : State) : State :=
  let core := partCore s x
  let wait := fun (e : Nat × Trans) => match e.2 with
    | .refused _ => forgetWalks x.id s
    | t => agentWait core x.id e.1 (if peerWrites op then 1 else 0) t s
  match op with
  | .load n => match agentRead s core x.id va 0 n with
    | .ok _ => forgetWalks x.id (leaseLines core x.id va n s)
    | .error e => wait e
  | .store bs => match agentWrite core x.id va bs s with
    | .ok s => forgetWalks x.id s
    | .error e => wait e
  | .atomic o y z => match agentRead s core x.id va 1 4 with
    | .ok bs => match agentWrite core x.id va (toBytes 4 (atomicNew o (wordOf bs) y z).toNat) s with
      | .ok s => forgetWalks x.id s
      | .error e => wait e
    | .error e => wait e

/-- `PEER_ACCESS` (R317): checked against the grant of the window it names. -/
def execPeerAccess (member win off : Nat) (op : PeerOp) (s : State) : Host.Outcome State Fault Refusal :=
  .next (match findMember member s with
    | none => s
    | some m =>
      if !m.present || !m.joined || !s.selfJoined then s
      else
        let s := { s with members := s.members.map fun (x : Member) => if x.num = member then { x with flit := s.time } else x }
        match s.exports.find? fun e => e.win = win with
        | none => s
        | some e =>
          if off + peerLen op ≤ e.len ∧ (if peerWrites op then e.w else e.r) = true then
            match findCtx e.ctx s with
            | some x => performPeer x (e.va + off) op s
            | none => s
          else s)

end Sys2Proof.Machine
end

