-- ==== Sys2Proof/Machine/Present.lean ====
section
/-!
DEFINITION. The presentation engine (R319, R340, R341): instants, the check of a frame, cloak frames, and what is presented.
-/

namespace Sys2Proof.Machine

/-! ### Instants (R319) -/

/-- The first instant of a series after a time: its index and its time. -/
def firstAfter (t0 period t : Nat) : Nat × Nat :=
  if t < t0 then (0, t0) else ((t - t0) / period + 1, t0 + ((t - t0) / period + 1) * period)

/-- The next instant after a time: in the old series until the new one takes effect. -/
def nextInstant (l : FrameLock) (t : Nat) : Nat × Nat :=
  let (k, a) := firstAfter l.t0 l.period t
  match l.next with
  | none => (k, a)
  | some (u0, p, start) => if a ≥ start then firstAfter u0 p (max t (start - 1)) else (k, a)

/-- The series in force at a time. -/
def lockAt (l : FrameLock) (t : Nat) : FrameLock :=
  match l.next with
  | none => l
  | some (u0, p, start) => if t ≥ start then { t0 := u0, period := p } else l

/-! ### Reading and writing the frame ring (R341) -/

/-- A write in the ring, or what its translation gives. -/
def slotWork (f : FrameSource) (w : SlotWork) (s : State) : Except (Nat × Trans) State :=
  let put := fun (i off v : Nat) => agentWrite (partCore s ((findCtx f.ctx s).getD {})) f.ctx (f.slotVa i + off) (toBytes 8 v) s
  match w with
  | .put i off v => put i off v
  | .free i k => match slotDesc s f i with
    | .ok (st, n) => if st = 2 ∧ n ≤ k then put i 0 0 else .ok s
    | .error e => .error e

/-- The engine writes in the ring where it can: a miss asks for a walk and the write is made later, and for paging it does not wait. -/
def doWork (f : FrameSource) (w : SlotWork) (s : State) : State :=
  if s.present.gone then s
  else match slotWork f w s with
    | .ok t => forgetWalks f.ctx (match w with
      | .free i _ => ringFlits f [i] [] t
      | .put _ _ _ => t)
    | .error (va, .miss) =>
      agentWait (partCore s ((findCtx f.ctx s).getD {})) f.ctx va 1 .miss (setPresent (fun p => { p with todo := p.todo ++ [w] }) s)
    | .error _ => forgetWalks f.ctx s

/-- What still had to be written in the ring. -/
def doTodo (f : FrameSource) (s : State) : State :=
  s.present.todo.foldl (fun s w => doWork f w s) (setPresent (fun p => { p with todo := [] }) s)

/-- The engine presents only once it has joined the domain, if there is one (R318), and never in minimal mode (R342). -/
def presents (s : State) : Bool := s.started && !s.minimal && (s.selfJoined || (s.members.isEmpty && s.joinReady.isNone))

/-- The ring is not read: its context is saved or has ended (R340). -/
def ringGone (s : State) (f : FrameSource) : Bool :=
  s.present.gone || !(s.present.keeping || ((findCtx f.ctx s).map fun x => x.resident).getD false)

/-- The flits that the check's reads bring (R316). -/
def checkedFlits (f : FrameSource) (r : SlotRead) (s : State) : State :=
  if ringGone s f then s
  else match r with
    | .complete g => ringFlits f (List.range (g.slot + 1)) [g] s
    | _ => ringFlits f (List.range f.slots) [] s

/-- The complete frame for an instant: in the ring, or among those that a saved or ended context has left (R340). -/
def frameFor (s : State) (f : FrameSource) (k : Nat) : SlotRead :=
  if ringGone s f then
    match s.present.kept.find? fun g => g.k = k with
    | some g => .complete g
    | none => .no
  else findSlot s f k (List.range f.slots)

/-- The state with the memory that a check sees: what was there at its moment, when it had to wait for a translation (R340). -/
def asChecked (k : Nat) (s : State) : State :=
  if s.present.checking = some k then { s with hbm := s.present.seen.1, host := s.present.seen.2.1, peer := s.present.seen.2.2 } else s

/-- The check for an instant (R340): the lowest complete slot, with TDONE. -/
def checkFrame (f : FrameSource) (k : Nat) (s : State) : State :=
  let then_ := asChecked k s
  let r := frameFor then_ f k
  let s := checkedFlits f r s
  match r with
  | .miss va => agentWait (partCore s ((findCtx f.ctx s).getD {})) f.ctx va 0 .miss
      (setPresent (fun p => { p with checking := some k, seen := (then_.hbm, then_.host, then_.peer) }) s)
  | .no => setPresent (fun p => { p with decided := some (k, none), checking := none }) (forgetWalks f.ctx s)
  | .complete g => doWork f (.put g.slot 16 s.time) (setPresent (fun p => { p with decided := some (k, some g), checking := none }) (forgetWalks f.ctx s))

/-- The check for the next instant has not been made. -/
def unchecked (s : State) (k : Nat) : Bool := decide ((s.present.decided.map fun d => d.1) ≠ some k)

/-- `PRESENT_CHECK` (R340): at the instant minus the margin, or later where it waits for a translation. -/
def execPresentCheck (s : State) : Host.Outcome State Fault Refusal :=
  .next (match s.lock, s.present.source with
    | some l, some f =>
      let (k, t) := nextInstant l s.present.lastAt
      let s := doTodo f s
      if presents s && unchecked s k && decide (s.time < t) && (decide (s.time + f.margin = t) || decide (s.present.checking = some k)) then
        checkFrame f k s
      else s
    | _, _ => s)

/-- As device time goes on from a moment, the check is made at its own moment (R340). -/
def checkBetween (from_ due : Nat) (s : State) : State :=
  match s.lock, s.present.source with
  | some l, some f =>
    let (k, t) := nextInstant l s.present.lastAt
    if presents s && unchecked s k && decide (s.present.checking ≠ some k) && decide (from_ < t - f.margin) && decide (t - f.margin ≤ due) then
      checkFrame f k { s with time := t - f.margin }
    else s
  | _, _ => s

/-- Device time goes on to a turn. -/
def passTime (due : Nat) (s : State) : State := checkBetween s.time due s

/-- A turn that has itself let time pass (R248) has passed the check as well. -/
def checkLate (from_ : Nat) (s : State) : State :=
  if s.time ≤ from_ then s else { checkBetween from_ s.time s with time := s.time }

/-! ### Cloak frames (R340) -/

/-- A motion component of a pixel over some periods, to the nearest pixel; one that is no number moves nowhere. -/
def motionPixels (code n seed : Nat) : Option Int :=
  match fp16.decode code with
  | .fin s m e =>
    let v := m * n * 2 ^ e.toNat
    let d := 2 ^ (-e).toNat
    let q := v / d
    let r := 2 * (v % d)
    let a : Nat := if r > d ∨ (r = d ∧ Config.halfPixelUp seed = true) then q + 1 else q
    some (if s then -(a : Int) else a)
  | _ => none

/-- Where a source pixel goes; none when it leaves the frame. -/
def pixelTarget (f : FrameSource) (g : GoodFrame) (k i seed : Nat) : Option Nat :=
  match motionPixels (fieldAt g.motion (4 * i) 2) (k - g.k) seed, motionPixels (fieldAt g.motion (4 * i + 2) 2) (k - g.k) (seed + 1) with
  | some dx, some dy =>
    let x : Int := (i % f.w : Nat) + dx
    let y : Int := (i / f.w : Nat) + dy
    if 0 ≤ x ∧ x < f.w ∧ 0 ≤ y ∧ y < f.h then some (y.toNat * f.w + x.toNat) else none
  | _, _ => none

/-- A depth that is nearer than another: NaN counts as +inf. -/
def nearer (a b : Word) : Bool :=
  let inf : Word := 0x7F800000
  lt32 (if isNan32 a then inf else a) (if isNan32 b then inf else b)

/-- A source pixel takes its target when it is nearer than what is there. -/
def castPixel (f : FrameSource) (g : GoodFrame) (k seed : Nat) (m : Sparse Nat) (i : Nat) : Sparse Nat :=
  let depth := fun j => wordOf ((g.depth.drop (4 * j)).take 4)
  match pixelTarget f g k i (seed + 2 * i) with
  | none => m
  | some t => match sfind t m with
    | none => sins t i m
    | some j => if nearer (depth i) (depth j) then sins t i m else m

/-- The source of a row's pixels from the left: holes take the nearest filled pixel to the left, else the pixel of their own place. -/
def fillRow (m : Sparse Nat) : Nat → Nat → Option Nat → List Nat
  | 0, _, _ => []
  | n + 1, i, left => match sfind i m with
    | some j => j :: fillRow m n (i + 1) (some j)
    | none => left.getD i :: fillRow m n (i + 1) left

/-- The colour of a cloak frame for instant `k`. -/
def cloakColour (f : FrameSource) (g : GoodFrame) (k seed : Nat) : List Byte :=
  let m := (List.range f.area).foldl (castPixel f g k seed) []
  let src := (List.range f.h).flatMap fun y => fillRow m f.w (y * f.w) none
  src.flatMap fun j => (g.colour.drop (f.pix * j)).take f.pix

/-! ### Presentation (R341) -/

/-- The trailer after the colour. -/
def trailer (k t kind slot : Nat) : List Byte :=
  toBytes 8 k ++ toBytes 8 t ++ toBytes 4 kind ++ toBytes 4 slot ++ List.replicate 40 0

/-- The colour and its trailer go to the destination: the host's memory, or a peer's window (R317). -/
def sendFrame (f : FrameSource) (k : Nat) (bytes : List Byte) (s : State) : State :=
  let off := f.dest + k % 2 * (f.area * f.pix + 64)
  if !f.toPeer then (if linkUp s then hostStore off bytes s else s)
  else match s.imports.find? fun i => decide (i.ctx = f.ctx) && decide (i.win = f.win) with
    | some i => if memberPresent s i.member && decide (off + bytes.length ≤ i.len) then agentStore (peerAddr i.member i.win off) bytes s else s
    | none => s

/-- Every other complete slot up to the instant is free again. -/
def freeSlots (f : FrameSource) (k : Nat) (keep : Option Nat) (s : State) : State :=
  (List.range f.slots).foldl (fun s i => if keep = some i then s else doWork f (.free i k) s) s

/-- The frame of the instant: it becomes the last good frame, and the previous one's slot is free. -/
def showFrame (f : FrameSource) (k t : Nat) (g : GoodFrame) (s : State) : State :=
  let s := match s.present.good with
    | some old => if old.slot = g.slot then s else doWork f (.put old.slot 0 0) s
    | none => s
  let s := sendFrame f k (g.colour ++ trailer k t 0 g.slot) s
  freeSlots f k (some g.slot) (setPresent (fun p => { p with good := some g, frames := p.frames + 1 }) s)

/-- A cloak frame, or a black one (R340). -/
def showCloak (f : FrameSource) (k t : Nat) (s : State) : State :=
  let (seed, s) := drawFree s
  let s := setEvt 4 s
  match s.present.good with
  | some g =>
    let s := sendFrame f k (cloakColour f g k seed ++ trailer k t 1 g.slot) s
    freeSlots f k (some g.slot) (setPresent (fun p => { p with cloaks := p.cloaks + 1 }) s)
  | none =>
    let s := sendFrame f k (List.replicate (f.area * f.pix) 0 ++ trailer k t 2 0xFFFFFFFF) s
    freeSlots f k none (setPresent (fun p => { p with blacks := p.blacks + 1 }) s)

/-- The frame source that a command has asked for takes effect at the instant. -/
def swapSource (s : State) : State :=
  match s.present.nextSource with
  | none => s
  | some n => setPresent (fun p => { ({} : Present) with source := n, lastK := p.lastK, lastAt := p.lastAt }) s

/-- `PRESENT_INSTANT` (R341). -/
def execPresentInstant (s : State) : Host.Outcome State Fault Refusal :=
  .next (match s.lock with
    | none => s
    | some l =>
      let (k, t) := nextInstant l s.present.lastAt
      if !presents s || decide (s.time < t) then s
      else
        let s := match s.present.source with
          | none => s
          | some f =>
            let s := doTodo f s
            let s := match s.present.decided with
              | some (n, some g) => if n = k then showFrame f k t g s else showCloak f k t s
              | _ => showCloak f k t s
            setPresent (fun p => { p with lastK := k }) s
        swapSource (setPresent (fun p => { p with decided := none, checking := none, lastAt := t }) { s with lock := some (lockAt l t) }))

end Sys2Proof.Machine
end

