-- ==== Sys2Proof/Machine/Priv.lean ====
section
/-!
DEFINITION. The privileged words, `BKPT` and `SNAP`: TLB words (R307, R308), the end of a routine (R294, R305, R326), trace records
(R311, R312, R335).
-/

namespace Sys2Proof.Machine

/-! ### The TLB -/

/-- The entry that four words form (R307). -/
def tlbEntryOf (s : State) (k : Nat) : TlbEntry :=
  let w := fun i => getS s.grp (k + i)
  { core := s.grp.core, ctx := s.grp.ctx, va := bitsOf (w 0) 31 16 * 2 ^ 16 + bitsOf (w 1) 24 0 * 2 ^ 32, size := bitsOf (w 0) 1 0
    pa := bitsOf (w 2) 31 16 * 2 ^ 16 + bitsOf (w 3) 19 0 * 2 ^ 32, perm := (w 2).setWidth 4 }

/-- Words that `TLBW` refuses (R307). -/
def tlbWordsBad (s : State) (k : Nat) : Bool :=
  let w := fun i => getS s.grp (k + i)
  let e := tlbEntryOf s k
  decide (bitsOf (w 0) 15 2 ≠ 0) || decide (bitsOf (w 1) 31 25 ≠ 0) || decide (bitsOf (w 2) 15 4 ≠ 0) || decide (bitsOf (w 3) 31 20 ≠ 0)
    || decide (e.size = 3) || decide (e.va % pageBytes e.size ≠ 0) || decide (e.pa % pageBytes e.size ≠ 0)

/-- What a privileged word needs (R61). -/
def privNeed (sregs : List Nat) : Need := { vec := false, priv := true, regs := sregs.map Reg.s }

/-- A core's TLB with room for one more of its 256 entries (R304): a full one loses an entry of the device's choice. -/
def tlbRoom (core : Nat) (s : State) : State :=
  let own := s.tlb.filter fun e => decide (e.core = core)
  if own.length < 256 then s
  else
    let (n, s) := drawFree s
    match own[Config.tlbVictim n % own.length]? with
    | some v => { s with tlb := s.tlb.filter fun e => decide (e ≠ v) }
    | none => s

/-- The entry replaces those of its context that it overlaps; with V clear it only removes them (R307). Earlier answers of the
walker are asked for again. -/
def putTlb (e : TlbEntry) (s : State) : State :=
  let s := { s with tlb := s.tlb.filter (fun f => !(decide (f.core = e.core) && decide (f.ctx = e.ctx) && e.overlaps f))
                    agentWalks := s.agentWalks.filter fun w => decide (w.ctx ≠ e.ctx) }
  if e.perm.getLsbD 0 then
    let s := tlbRoom e.core s
    { s with tlb := s.tlb ++ [e] }
  else s

/-- `TLBW` (R307). -/
def execTlbw (a : BitVec 6) (s : State) : Host.Outcome State Fault Refusal :=
  let k := a.toNat
  .next (word
    { privNeed [k, k + 1, k + 2, k + 3] with
      operandBad := decide (k > 60), early := [.s k, .s (k + 1), .s (k + 2), .s (k + 3)], valueBad := tlbWordsBad s k }
    (fun s => finish (putTlb (tlbEntryOf s k) s)) s)

/-- The entries of a context that satisfy `p` leave every core of its partition, and what the context has loaded and stored is performed
(R308). The front end's copies of such entries for completion records go with them. -/
def dropTlb (ctx : Nat) (p : TlbEntry → Bool) (s : State) : State :=
  let uids := (groupsOfCtx ctx s).map fun g => g.uid
  let s := performWhere (fun x => uids.contains x.grp) (performGroups (fun g => decide (g.ctx = ctx)) s)
  { s with tlb := s.tlb.filter (fun e => !(decide (e.ctx = ctx) && p e))
           grids := s.grids.map fun g => if g.ctx = ctx then { g with complTlb := g.complTlb.filter fun e => !p e } else g
           agentWalks := s.agentWalks.filter fun w => decide (w.ctx ≠ ctx) }

/-- `TLBI` (R308). -/
def execTlbi (k : BitVec 2) (a : BitVec 6) (s : State) : Host.Outcome State Fault Refusal :=
  let n := a.toNat
  .next (word
    { privNeed (if k = 0 then [n, n + 1] else []) with
      operandBad := decide (n % 2 = 1) || (decide (k = 1) && decide (n ≠ 0)) }
    (fun s =>
      let va := pair64 (getS s.grp n) (getS s.grp (n + 1)) % 2 ^ 57
      finish (dropTlb s.grp.ctx (fun e => decide (k = 1) || e.covers va) s)) s)

/-! ### Resuming (R294, R326) -/

/-- A code address inside the body of a kept clause. -/
def insideClause (p : Pos) (pc : Nat) : Bool := decide (pc % 4 = 0) && decide (p.hdr + 4 ≤ pc) && decide (pc ≤ p.hdr + 4 * p.len)

/-- The entry of a lane that a handler moved. -/
def movedEntry (l pc : Nat) (pos : Option Pos) : FEntry :=
  match pos with
  | some p =>
    if insideClause p pc then
      { pc := pc, mask := laneBit l, pos := some { p with issued := (pc - p.hdr) / 4 - 1, hints := {}, own := [] } }
    else { pc := pc, mask := laneBit l, edited := true }
  | none => { pc := pc, mask := laneBit l, edited := true }

/-- One edit of a PC takes effect. A lane whose PC stays where it was is not moved. -/
def moveLane (g : Group) (e : Nat × Nat) : Group :=
  match laneEntry g e.1 with
  | none => g
  | some (old, pos) => if old = e.2 then g else addEntry (movedEntry e.1 e.2 pos) (removeLanes (laneBit e.1) g)

/-- Arrived lanes that no longer stand at a join leave its expected mask (R294): the mask of the live ones among them. -/
def cutJoin (before : Group) (n : Nat) (r : Group × DWord) : Group × DWord :=
  match (getJ before n).cont with
  | none => r
  | some p =>
    let gone := (getJ before n).mask &&& lanesAt before p &&& ~~~(lanesAt r.1 p)
    (setJ n { getJ r.1 n with mask := (getJ r.1 n).mask &&& ~~~gone } r.1, r.2 ||| (gone &&& r.1.live))

def cutJoins (before after : Group) : Group × DWord := (List.range 8).foldl (fun r n => cutJoin before n r) (after, 0)

/-- Arrived threads that no longer count at a barrier and are still live. -/
def cutBars (before after : Group) : DWord :=
  (List.range 16).foldl (fun m i => m ||| (arrived before i &&& ~~~(arrived after i) &&& after.live)) 0

/-- The issuer as it continues: edits and ends in effect, joins and barriers recomputed, and what its stop suppresses. -/
def resumed (t : Group) : Group × Bool :=
  let gone := t.hexit &&& t.live
  let t1 := t.edits.foldl moveLane t
  let t2 := { removeLanes gone t1 with live := t.live &&& ~~~gone }
  let (t3, cut) := cutJoins t t2
  let bars := cutBars t t2
  let t4 := joinCheck (leaveJoins gone t3)
  let watch := t.trap.bind fun r => if r.cause = cWatchpoint then some (r.tpc, r.info % 8) else none
  let brk := t.trap.bind fun r => if r.cause = cBreakpoint ∧ r.info / 2 ^ 16 % 4 = 1 then some r.tpc else none
  ({ t4 with edits := [], hexit := 0, stop := .running, trap := none, noWatch := watch, noBreak := brk }, decide (cut ||| bars ≠ 0))

/-- The entry that a debug stop names: the issuing one, or the one that the frontier selects. -/
def stopEntry (s : State) (g : Group) : Option FEntry :=
  match g.act with
  | some e => some (rewindHints e)
  | none => match selectEntry s g with
    | some e => some e
    | none => g.frontier.head?

/-- An issuer halts at its instruction boundary, as a debug stop with CAUSE 0 (R330). -/
def haltNow (uid : Nat) (s : State) : State :=
  match findGroup uid s with
  | none => s
  | some g =>
    let e := stopEntry s g
    let r := mkRec g ((e.map fun e => e.pc).getD 0) { cause := 0, mask := (e.map fun e => e.mask).getD 0 }
    let s := stopWith uid (fun g => { haltPath g with haltReq := false }) (unclaim g s)
    haltFor r g s

/-- An issuer resumes after its handler or for the debugger (R326, R330). -/
def resumeIssuer (uid : Nat) (s : State) : State :=
  match findGroup uid s with
  | none => s
  | some t =>
    let gone := t.hexit &&& t.live
    let (t', cut) := resumed t
    let s := updGroup uid (fun _ => t') s
    let s := { s with tasks := s.tasks.map fun k => if k.grp = uid ∧ bit gone k.lane = true then { k with exited := true } else k }
    let s := if cut then updWg t.wg (fun w => { w with flags := w.flags ||| 2 }) s else s
    let s := barrierCheck t.wg s
    if t.haltReq then haltNow uid s else s

/-- The walker's outcome reaches the access that missed (R305). For the device's own access, a mapping that is in the TLB needs no record; a
context that ends may go on. -/
def walkOutcome (g : Group) (s : State) : State :=
  let o := (getS g 3).toNat
  let s := { s with misses := s.misses.filter fun m =>
    !(decide (m.core = g.core) && decide (m.ctx = g.ctx) && decide (m.grp = g.serves) && decide (page64 m.va = page64 g.missVa)
      && decide (m.kind = g.missKind)) }
  let walked : Walked := { page := page64 g.missVa, kind := g.missKind, outcome := o }
  if g.serves = 0 then finishEnd g.ctx (
    let rest := s.agentWalks.filter fun w => !(decide (w.core = g.core) && decide (w.ctx = g.ctx) && w.walked.answers g.missVa g.missKind)
    { s with agentWalks := if o = 0 ∧ (tlbFind s g.core g.ctx g.missVa).isSome = true then rest
        else rest ++ [{ core := g.core, ctx := g.ctx, walked := walked }] })
  else updGroup g.serves (fun t =>
    { t with
      walks := t.walks.filter (fun w => !w.answers g.missVa g.missKind) ++ [walked]
      stall := if t.stall = .walk then .none else t.stall }) s

/-- `HRET` (R326): the routine is gone, and what it served continues. Only in the walker slot it reads `S3`. -/
def execHret (s : State) : Host.Outcome State Fault Refusal :=
  .next (word (privNeed (if s.grp.kind = .walker then [3] else [])) (fun s =>
    let g := s.grp
    let s := dropGroups (fun h => decide (h.uid = g.uid)) s
    if g.kind = .walker then walkOutcome g s else resumeIssuer g.serves s) s)

/-- `HRET` with `.end` (R326). -/
def execHretEnd (s : State) : Host.Outcome State Fault Refusal :=
  .next (word (privNeed []) (fun s => endThroughPocket s.grp.ctx (chainOf s.grp s) s) s)

/-- `BKPT` (R333): KIND 0. -/
def execBkpt (c : BitVec 16) (s : State) : Host.Outcome State Fault Refusal := .next (codeTrap cBreakpoint c s)

/-! ### Trace records (R311, R312, R335) -/

/-- Bytes 4 to 39 of a record (R335), for an issuer at a code address. -/
def traceBody (s : State) (g : Group) (pc : Nat) (value : Word) : List Byte :=
  toBytes 4 (slotCode g * 2 ^ 16 + whoCore g) ++ toBytes 8 s.time ++ toBytes 4 pc ++ toBytes 4 (topcOf g pc)
    ++ toBytes 4 ((findWg g.wg s).getD {}).gid ++ toBytes 4 value.toNat
    ++ (List.range 4).flatMap fun i => toBytes 2 (((g.regions[i]?).map fun r => r.toNat).getD 0xFFFF)

/-- The places of 64 bytes, and the address of the next record. -/
def Trace.places (t : Trace) : Nat := t.size / 64 - 1
def Trace.next (t : Trace) : Nat := t.base + 64 + 64 * (t.tail % t.places)

/-- STATE of the control block. -/
def Trace.state (t : Trace) : Nat := (if t.armed then 1 else 0) + (if t.suspended then 2 else 0)

def setTrace (ctx : Nat) (t : Trace) (s : State) : State := updCtx ctx (fun c => { c with trace := t }) s

/-- A field of the control block written where it stands. -/
def traceField (a off n : Nat) (s : State) : State := agentStore (a + off) (toBytes 8 n) s

/-- Tracing is suspended (R312): the device's copy of the control block is written when it can be. -/
def traceSuspend (ctx : Nat) (ctl : Trans) (s : State) : State :=
  let t := { ((findCtx ctx s).getD {}).trace with suspended := true }
  let t := { t with dropped := t.dropped + 1 }
  let s := setTrace ctx t s
  let s := match ctl with
    | .ok a => traceField a 24 t.dropped (traceField a 8 t.tail (traceField a 0 t.state s))
    | _ => s
  setEvt 3 s

/-- A record that is dropped and counted. -/
def traceDrop (ctx : Nat) (ctl : Option Nat) (s : State) : State :=
  let t := ((findCtx ctx s).getD {}).trace
  let t := { t with dropped := t.dropped + 1 }
  let s := setTrace ctx t s
  match ctl with
  | some a => traceField a 24 t.dropped s
  | none => s

/-- A record is written (R312), for the translations of the control block and of the record's place. -/
def traceWrite (ctx : Nat) (ctl place : Trans) (bytes : List Byte) (s : State) : State :=
  let t := ((findCtx ctx s).getD {}).trace
  if t.armed = false then s
  else if t.suspended then traceDrop ctx none s
  else match ctl, place with
    | .ok a, .ok p =>
      let full := decide (t.tail - t.head ≥ t.places)
      let head := if full then ofBytes (homeBytes s (a + 16) 8) else t.head
      let s := setTrace ctx { t with head := head } (if full then flitFrom a s else s)
      if t.tail - head ≥ t.places then traceDrop ctx (some a) s
      else
        let s := agentStore p bytes s
        let s := setTrace ctx { t with head := head, tail := t.tail + 1 } s
        traceField a 8 (t.tail + 1) s
    | _, _ => traceSuspend ctx ctl s

/-- The address whose translation a trace write waits for. -/
def traceWaits (t : Trace) (ctl place : Trans) : Option Nat :=
  if t.armed = false ∨ t.suspended = true then none
  else if ctl = .miss then some t.base
  else if place = .miss then some t.next
  else none

/-- `SNAP` (R335). It never traps for its record, which goes to the context's own memory. In the walker slot no walk can serve it: a record
whose pages are not in the TLB is dropped. -/
def execSnap (a : BitVec 6) (g : BitVec 16) (s : State) : Host.Outcome State Fault Refusal :=
  .next (word (scalarNeed [a.toNat] false) (fun s =>
    let t := (ctxOf s).trace
    let walker := decide (s.grp.kind = .walker)
    let at_ := fun va => if walker then agentTranslate s s.grp.core s.grp.ctx va 1 else xlate s s.grp va 1
    let (ctl, place) := (at_ t.base, at_ t.next)
    match traceWaits t ctl place with
    | some va => if walker then finish (traceDrop s.grp.ctx none s) else walkStall va 1 s
    | none =>
      let bytes := toBytes 4 (g.toNat * 2 ^ 16 + 1) ++ traceBody s s.grp (curPc s) (getS s.grp a.toNat) ++ List.replicate 24 0
      finish (traceWrite s.grp.ctx ctl place bytes s)) s)

end Sys2Proof.Machine
end

