-- ==== Sys2Proof/Machine/Mailbox.lean ====
section
/-!
DEFINITION. The management mailbox (R302, R303): its registers, and its commands but those of the debugger.
-/

namespace Sys2Proof.Machine

/-! ### STATUS values (R303) -/

def stUnknown : Nat := 1
def stBadParam : Nat := 2
def stNoObject : Nat := 3
def stBusy : Nat := 4
def stNoResource : Nat := 5
def stMinimal : Nat := 6
def stShortBuffer : Nat := 7

/-! ### Registers (R303) -/

/-- The mailbox answers once a start has been made (R342). -/
def mailboxUp (s : State) : Bool := s.started

/-- `MBEVT_WRITE` (R303): bits written 1 are cleared. -/
def execMbevtWrite (w : BitVec 32) (s : State) : Host.Outcome State Fault Refusal :=
  .next (if mailboxUp s then { s with mbox := { s.mbox with evt := s.mbox.evt &&& ~~~(w.setWidth 6) } } else s)

/-- A register after an aligned write; read-only registers and reserved bits keep their value. A write of GO starts the command in `MBCMD` with
the parameters in `MBPAY`; one while GO is 1 is ignored. -/
def writeReg (off : Nat) (w : Word) (m : Mailbox) : Mailbox :=
  if off = 4 then { m with cmd := w &&& 0xFFFF }
  else if off = 8 then (if w.getLsbD 0 && !m.go then { m with go := true, code := m.cmd.toNat, args := m.pay } else m)
  else if off = 0x14 then { m with ien := w.setWidth 6 }
  else if 0x1000 ≤ off ∧ off < 0x2000 then { m with pay := sputs 0 (off - 0x1000) (toBytes 4 w.toNat) m.pay }
  else m

/-- `MAILBOX_REGISTER_WRITE` (R303). -/
def execMailboxRegisterWrite (off : Nat) (w : BitVec 32) (s : State) : Host.Outcome State Fault Refusal :=
  .next (if mailboxUp s && decide (off % 4 = 0) then { s with mbox := writeReg off w s.mbox } else s)

/-! ### Running a command -/

/-- What a command comes to. -/
inductive CmdEnd where
  /-- Done, with a result in `MBPAY`. -/
  | done (s : State) (result : List Byte)
  /-- Done, with a result of so many bytes in the host's buffer. -/
  | buffer (s : State) (len : Nat)
  | fail (status : Nat)
  /-- The buffer is too short: the length needed. -/
  | short (need : Nat)
  /-- The command waits for a translation. -/
  | wait (s : State)
  /-- The command waits for the host's IDE streams (R313). -/
  | hold

/-- Bytes put at the start of `MBPAY`. -/
def putPay (bs : List Byte) (s : State) : State := { s with mbox := { s.mbox with pay := sputs 0 0 bs s.mbox.pay } }

/-- The completion is posted (R303). -/
def complete (status len : Nat) (s : State) : State :=
  setEvt 0 { s with mbox := { s.mbox with go := false, begun := false, sts := BitVec.ofNat 32 (len * 2 ^ 16 + status) } }

/-- Parameter slot `i` of the running command. -/
def param (s : State) (i : Nat) : Nat := ofBytes (sgets 0 (8 * i) 8 s.mbox.args)

/-- A command runs while GO is set, by its code; `minimal`: it is served in minimal mode. -/
def command (code : Nat) (minimal : Bool) (body : State → CmdEnd) (s : State) : State :=
  if !(mailboxUp s && s.mbox.go && decide (s.mbox.code = code)) then s
  else if s.minimal && !minimal then complete stMinimal 0 s
  else match body s with
    | .done s' r => complete 0 r.length (putPay r s')
    | .buffer s' n => complete 0 n s'
    | .fail st => complete st 0 s
    | .short n => complete stShortBuffer 4 (putPay (toBytes 4 n) s)
    | .wait s' => s'
    | .hold => s

/-- The command's context. -/
def withCtx (id : Nat) (s : State) (body : Context → CmdEnd) : CmdEnd :=
  match findCtx id s with
  | none => .fail stNoObject
  | some x => body x

/-- A result written to a host buffer, once the host has set up IDE streams; in minimal mode the host link has none (R313, log entry 69). -/
def toBuffer (a len : Nat) (bs : List Byte) (s : State) : CmdEnd :=
  if a + len > 2 ^ 52 then .fail stBadParam
  else if len < bs.length then .short bs.length
  else if !s.minimal && !s.ide then .hold
  else .buffer (hostStore a bs s) bs.length

/-- The codes of R302 and R330. -/
def commandCodes : List Nat :=
  [0x01, 0x02, 0x10, 0x11, 0x12, 0x13, 0x20, 0x21, 0x22, 0x23, 0x30, 0x31, 0x40, 0x41, 0x50, 0x51, 0x52, 0x60, 0x70,
   0x80, 0x81, 0x82, 0x83, 0x84, 0x85, 0x86, 0x87, 0x88, 0x89, 0x8A, 0x8B, 0x90]

/-- `MAILBOX_UNKNOWN` (R303): the code is not a command of R302. -/
def execMailboxUnknown (s : State) : Host.Outcome State Fault Refusal :=
  .next (if mailboxUp s && s.mbox.go && !commandCodes.contains s.mbox.code then complete stUnknown 0 s else s)

/-! ### Contexts (R300, R302) -/

/-- The lowest `CTXID` that is free. -/
def freeId (s : State) : Option Nat :=
  ((List.range (s.ctxs.length + 1)).map (· + 1)).find? fun i => decide (i ≤ 65535) && (findCtx i s).isNone

/-- A virtual range lies in the address space. -/
def rangeOk (base len : Nat) : Bool := decide (base + len ≤ 2 ^ 57)

/-- A new context of a partition (R300); its fitting key is drawn (R190). -/
def createCtx (p : Nat × Nat) (s : State) : CmdEnd :=
  let (det, priv, l, walker, handler) := (param s 1, param s 2, param s 3, param s 4, param s 5)
  if det > 1 ∨ priv % 65536 ≠ 0 ∨ rangeOk priv (18432 * l) = false ∨ walker % 256 ≠ 0 ∨ walker ≥ 2 ^ 52 ∨ handler % 256 ≠ 0 ∨ handler ≥ 2 ^ 57
  then .fail stBadParam
  else if ((List.range p.2).all fun i => !dieWorks s (p.1 + i)) then .fail stNoResource
  else match freeId s with
    | none => .fail stNoResource
    | some id =>
      let (key, s) := drawFree s
      let x : Context :=
        { id := id, det := decide (det = 1), partBase := p.1, partSize := p.2, privBase := priv, windows := l, walkerVa := walker
          handlerVa := if handler = 0 then none else some handler, lastProgress := s.time, keySeed := key }
      .done { s with ctxs := s.ctxs ++ [x], pockets := s.pockets.filter fun k => decide (k.ctx ≠ id) } (toBytes 8 id)

/-- `CTX_CREATE` (R302): the partition is named by its place in the layout. -/
def execCtxCreate (s : State) : Host.Outcome State Fault Refusal :=
  .next (command 0x01 false (fun s => match s.layout[param s 0]? with
    | none => .fail stBadParam
    | some p => createCtx p s) s)

/-- The context of a running `CTX_DESTROY` is gone, or the command waits for what its end has still to translate. -/
def destroyed (id : Nat) (s : State) : CmdEnd :=
  if (findCtx id s).isNone then .done s [] else .wait { s with mbox := { s.mbox with begun := true } }

/-- `CTX_DESTROY` (R300): the context stops between words, begun entries complete and loads are performed (R336), and it ends: its stores
are performed and its completion records written before its TLB entries are freed. -/
def execCtxDestroy (s : State) : Host.Outcome State Fault Refusal :=
  .next (command 0x02 false (fun s =>
    if s.mbox.begun then destroyed (param s 0) (finishEnd (param s 0) s)
    else withCtx (param s 0) s fun x =>
      destroyed x.id (endContext x.id (if x.resident then retireDue x.id (stopContext x.id s) else s))) s)

/-! ### Mappings and paging (R192, R302, R306, R323) -/

/-- A page of 64 KiB meets a range. -/
def pageMeets (base len page : Nat) : Bool := decide (page < base + len) && decide (base < page + 65536)

/-- A mapping of the range has changed: the effect of `TLBI`, and the fitting-cache entries of R192; its pages may be reported again. -/
def mappingChanged (ctx base len : Nat) (s : State) : State :=
  let s := dropTlb ctx (fun e => decide (e.va < base + len) && decide (base < e.va + pageBytes e.size)) s
  let ids := (s.fits.filter fun f => decide (f.ctx = ctx) && f.pages.any (pageMeets base len)).map fun f => f.id
  let s := ids.foldl (fun s i => dropFit i s) s
  updCtx ctx (fun x => { x with reported := x.reported.filter fun p => !pageMeets base len p }) s

def mapCommand (s : State) : CmdEnd :=
  withCtx (param s 0) s fun x =>
    if rangeOk (param s 1) (param s 2) then .done (mappingChanged x.id (param s 1) (param s 2) s) [] else .fail stBadParam

/-- `MAP` (R302). -/
def execMap (s : State) : Host.Outcome State Fault Refusal := .next (command 0x10 false mapCommand s)

/-- `UNMAP` (R302). -/
def execUnmap (s : State) : Host.Outcome State Fault Refusal := .next (command 0x12 false mapCommand s)

/-- Parked lanes stand in the frontier again at their word; a path that holds its round goes on with its clause (R198). -/
def unpark (e : HemEntry) (g : Group) : Group :=
  let f : FEntry := { pc := e.pc, mask := e.mask, pos := e.pos, edited := e.edited }
  if e.holds && e.pos.isSome && g.act.isNone then { g with act := some f } else addEntry f g

/-- The lanes parked on a page leave the hem; the faulting word issues again for them (R323). -/
def leaveHem (page : Nat) (g : Group) : Group :=
  let (out, stay) := g.hem.partition fun e => decide (e.page = page)
  joinCheck (out.foldl (fun g e => unpark e g) { g with hem := stay })

def hemResume (ctx page : Nat) (s : State) : State :=
  let s := mapGroups (fun g => if g.ctx = ctx then leaveHem page g else g) s
  let s := { s with agentWalks := s.agentWalks.filter fun w => !(decide (w.ctx = ctx) && decide (w.walked.page = page)) }
  updCtx ctx (fun x => { x with reported := x.reported.filter fun p => decide (p ≠ page), lastProgress := s.time }) s

/-- `HEM_RESUME` (R323). -/
def execHemResume (s : State) : Host.Outcome State Fault Refusal :=
  .next (command 0x11 false (fun s => withCtx (param s 0) s fun x =>
    let p := param s 1
    if p % 65536 = 0 ∧ p < 2 ^ 57 then .done (hemResume x.id p s) [] else .fail stBadParam) s)

/-- A power of two from `lo` to `hi`. -/
def powerIn (lo hi n : Nat) : Bool := decide (lo ≤ n) && decide (n ≤ hi) && decide (2 ^ Nat.log2 n = n)

/-- `FAULT_RING` (R306). -/
def execFaultRing (s : State) : Host.Outcome State Fault Refusal :=
  .next (command 0x13 false (fun s =>
    let (base, n, head) := (param s 0, param s 1, param s 2)
    if base % 64 ≠ 0 ∨ base ≥ 2 ^ 52 ∨ powerIn 64 65536 n = false ∨ head % 8 ≠ 0 ∨ head ≥ 2 ^ 52 then .fail stBadParam
    else .done { s with ring := some { base := base, n := n, headAddr := head }, mbox := { s.mbox with ftail := 0 } } []) s)

/-! ### Queues and pools (R253, R258, R260, R262, R310) -/

/-- The queue that the parameters set up; none: a parameter is out of range. -/
def queueOf (s : State) (n ctx kind : Nat) : Option Queue :=
  if kind = 0 then
    let (base, size, tail, head) := (param s 3, param s 4, param s 5, param s 6)
    if base % 64 ≠ 0 ∨ rangeOk base (128 * size) = false ∨ powerIn 2 65536 size = false ∨ tail % 8 ≠ 0 ∨ tail ≥ 2 ^ 52 ∨ head % 8 ≠ 0 ∨ head ≥ 2 ^ 52
    then none
    else some { num := n, ctx := ctx, device := false, base := base, n := size, tailAddr := tail, headAddr := head }
  else if kind = 1 then
    let (cap, base) := (param s 3, param s 4)
    if cap < 64 ∨ cap > 2 ^ 24 ∨ base % 64 ≠ 0 ∨ rangeOk base (8 * cap) = false then none
    else some { num := n, ctx := ctx, device := true, base := base, capacity := cap }
  else none

/-- A queue that may be assigned again: a device queue that is closed, empty and bound to no launch. -/
def queueOver (q : Queue) : Bool := q.device && q.closed && q.entries.isEmpty && q.bound.isNone

/-- `QUEUE_SETUP` (R310). The front end takes the TAIL line of a host queue (R253). -/
def execQueueSetup (s : State) : Host.Outcome State Fault Refusal :=
  .next (command 0x20 false (fun s => withCtx (param s 1) s fun x =>
    if param s 0 ≥ 16384 then .fail stBadParam
    else match queueOf s (param s 0) x.id (param s 2) with
      | none => .fail stBadParam
      | some q =>
        if ((findQueue q.num s).map fun o => decide (o.ctx ≠ x.id)).getD false then .fail stNoObject
        else if ((findQueue q.num s).map fun o => !queueOver o).getD false then .fail stBusy
        else
          let s := { s with queues := s.queues.filter (fun o => decide (o.num ≠ q.num)) ++ [q] }
          .done (if !q.device && linkUp s then seeTail q s else s) []) s)

/-- `QUEUE_CLOSE` (R260): a binding of the closed and empty queue may retire. -/
def execQueueClose (s : State) : Host.Outcome State Fault Refusal :=
  .next (command 0x21 false (fun s => match (findQueue (param s 0) s).filter fun q => q.device with
    | none => .fail stNoObject
    | some q =>
      let s := updQueue q.num (fun q => { q with closed := true }) s
      .done (match q.bound with
        | some u => gridEnd u s
        | none => s) []) s)

/-- `POOL_SETUP` (R262): every slot free. -/
def execPoolSetup (s : State) : Host.Outcome State Fault Refusal :=
  .next (command 0x22 false (fun s => withCtx (param s 0) s fun x =>
    let (id, cap) := (param s 1, param s 2)
    if id > 63 ∨ cap < 1 ∨ cap > 2 ^ 24 then .fail stBadParam
    else .done (updCtx x.id (fun x => { x with pools := x.pools.filter (fun p => decide (p.id ≠ id)) ++ [{ id := id, cap := cap }] }) s) []) s)

/-- A stopped queue takes records again from its HEAD on, whose bit 63 is cleared; TAIL is looked at anew (R253). -/
def resetQueue (q : Queue) (s : State) : State :=
  if !q.stopped then s
  else
    let s := updQueue q.num (fun q => { q with stopped := false }) s
    if linkUp s then seeTail q (hostStore q.headAddr (toBytes 8 q.head) s) else s

/-- `QUEUE_RESET` (R253). -/
def execQueueReset (s : State) : Host.Outcome State Fault Refusal :=
  .next (command 0x23 false (fun s => match (findQueue (param s 0) s).filter fun q => !q.device with
    | none => .fail stNoObject
    | some q => .done (resetQueue q s) []) s)

/-! ### Tracing (R311, R312) -/

/-- Tracing starts with an empty ring; a control block that cannot be written suspends it. -/
def armTrace (x : Context) (base size : Nat) (s : State) : CmdEnd :=
  let t : Trace := { base := base, size := size, armed := true }
  match agentWrite (partCore s x) x.id base (toBytes 8 t.state ++ List.replicate 56 0) s with
  | .ok s => .done (setTrace x.id t s) []
  | .error (va, .miss) => .wait (agentWait (partCore s x) x.id va 1 .miss s)
  | .error _ => .done (setEvt 3 (setTrace x.id { t with suspended := true } (forgetWalks x.id s))) []

/-- `TRACE_ARM` (R312). -/
def execTraceArm (s : State) : Host.Outcome State Fault Refusal :=
  .next (command 0x30 false (fun s => withCtx (param s 0) s fun x =>
    let (base, size) := (param s 1, param s 2)
    if base % 64 ≠ 0 ∨ size % 64 ≠ 0 ∨ size < 128 ∨ size > 2 ^ 32 ∨ rangeOk base size = false then .fail stBadParam
    else armTrace x base size s) s)

/-- `TRACE_STATUS` (R312): TAIL, DROPPED and STATE. -/
def execTraceStatus (s : State) : Host.Outcome State Fault Refusal :=
  .next (command 0x31 false (fun s => withCtx (param s 0) s fun x =>
    .done s (toBytes 8 x.trace.tail ++ toBytes 8 x.trace.dropped ++ toBytes 8 x.trace.state)) s)

/-- The record of a sampled request of an issuer, with its six queueing times (R335). -/
def sampleRecord (g : Group) (pc va : Nat) (qtime : List (BitVec 32)) (s : State) : State :=
  let t := ((findCtx g.ctx s).getD {}).trace
  let ctl := agentTranslate s g.core g.ctx t.base 1
  let place := agentTranslate s g.core g.ctx t.next 1
  match traceWaits t ctl place with
  | some w => agentWait g.core g.ctx w 1 .miss s
  | none =>
    let times := (List.range 6).flatMap fun i => toBytes 4 (qtime.getD i 0).toNat
    traceWrite g.ctx ctl place (toBytes 4 2 ++ traceBody s g pc (BitVec.ofNat 32 va) ++ times) s

/-- The record's translations are there, or tracing is off (R311). -/
def sampleReady (g : Group) (s : State) : Bool :=
  let t := ((findCtx g.ctx s).getD {}).trace
  (traceWaits t (agentTranslate s g.core g.ctx t.base 1) (agentTranslate s g.core g.ctx t.next 1)).isNone

/-- A sampled request has completed (R335): no load or store of its issuer is in flight there. -/
def requestDone (g : Group) (x : Sample) (s : State) : Bool :=
  match x.key with
  | none => true
  | some k => !((allLoads g.ops).any fun p => decide (taskKey g p.2.place p.2.addr = k))
      && !(s.stores.any fun p => decide (p.grp = g.uid) && decide (p.addr = k))

/-- `SAMPLE_RECORD` (R335): a sampled request of an issuer has completed, and its record is written. -/
def execSampleRecord (grp pc va : Nat) (qtime : List (BitVec 32)) (s : State) : Host.Outcome State Fault Refusal :=
  .next (match findGroup grp s with
    | none => s
    | some g =>
      match ((findCtx g.ctx s).getD {}).samples.find? fun x =>
          decide (x.grp = grp) && decide (x.pc = pc) && decide (x.va = va) && requestDone g x s with
      | none => s
      | some r =>
        let s' := sampleRecord g pc va qtime s
        if sampleReady g s then updCtx g.ctx (fun x => { x with samples := x.samples.erase r }) (forgetWalks g.ctx s') else s')

/-! ### Peer windows (R317) -/

/-- `PEER_EXPORT` (R317): permission 1 is R, 2 is W, 3 both. -/
def execPeerExport (s : State) : Host.Outcome State Fault Refusal :=
  .next (command 0x40 false (fun s => withCtx (param s 0) s fun x =>
    let (va, len, perm, win) := (param s 1, param s 2, param s 3, param s 4)
    if rangeOk va len = false ∨ perm = 0 ∨ perm > 3 then .fail stBadParam
    else if s.exports.any fun e => decide (e.win = win) && decide (e.ctx ≠ x.id) then .fail stNoObject
    else if s.exports.any fun e => decide (e.win = win) then .fail stBusy
    else .done { s with exports := s.exports ++ [{ win := win, ctx := x.id, va := va, len := len, r := perm.testBit 0, w := perm.testBit 1 }] } []) s)

/-- `PEER_IMPORT` (R317). -/
def execPeerImport (s : State) : Host.Outcome State Fault Refusal :=
  .next (command 0x41 false (fun s => withCtx (param s 0) s fun x =>
    let (m, win, va, len) := (param s 1, param s 2, param s 3, param s 4)
    if m > 255 ∨ rangeOk va len = false then .fail stBadParam
    else if (findMember m s).isNone then .fail stNoObject
    else if s.imports.any fun i => decide (i.ctx = x.id) && decide (i.va < va + len) && decide (va < i.va + i.len) then .fail stBusy
    else .done { s with imports := s.imports ++ [{ ctx := x.id, member := m, win := win, va := va, len := len }] } []) s)

/-! ### Frame lock and the frame source (R319, R341) -/

/-- A later series takes effect at its first instant that lies at least one old period after now. -/
def relock (l : FrameLock) (t0 period now : Nat) : FrameLock :=
  let old := lockAt l now
  { old with next := some (t0, period, (firstAfter t0 period (now + old.period - 1)).2) }

/-- `FRAMELOCK` (R319). -/
def execFramelock (s : State) : Host.Outcome State Fault Refusal :=
  .next (command 0x50 false (fun s =>
    let (t0, period) := (param s 0, param s 1)
    if period < 1000000 ∨ period > 100000000 then .fail stBadParam
    else .done (match s.lock with
      | none => setPresent (fun p => { p with lastAt := s.time - 1 }) { s with lock := some { t0 := t0, period := period } }
      | some l => { s with lock := some (relock l t0 period s.time) }) []) s)

/-- The frame source of the parameters (R341), for the period in force. -/
def sourceOf (s : State) (x : Context) (period : Nat) : Except Nat FrameSource :=
  let f : FrameSource :=
    { ctx := x.id, base := param s 1, slots := param s 2, w := param s 3, h := param s 4, fmt := param s 5, margin := param s 6
      toPeer := decide (param s 7 = 1), win := if param s 7 = 1 then param s 8 else 0, dest := if param s 7 = 1 then param s 9 else param s 8 }
  if f.base % 65536 ≠ 0 ∨ f.slots < 2 ∨ f.slots > 8 ∨ f.w < 1 ∨ f.w > 8192 ∨ f.h < 1 ∨ f.h > 8192 ∨ f.fmt > 1 ∨ f.margin < 100000
      ∨ 2 * f.margin > period ∨ param s 7 > 1 ∨ rangeOk f.base (f.slots * f.slotBytes) = false then .error stBadParam
  else if f.toPeer && !(s.imports.any fun i => decide (i.ctx = x.id) && decide (i.win = f.win)) then .error stNoObject
  else .ok f

/-- A source replaces the present one at the next instant, and serves at once when there is none. -/
def putSource (f : FrameSource) (s : State) : State :=
  if s.present.source.isSome then setPresent (fun p => { p with nextSource := some (some f) }) s
  else setPresent (fun p => { ({} : Present) with source := some f, lastAt := p.lastAt, lastK := p.lastK }) s

/-- `FRAME_SOURCE` (R341). -/
def execFrameSource (s : State) : Host.Outcome State Fault Refusal :=
  .next (command 0x51 false (fun s =>
    if param s 0 = 0 then .done (setPresent (fun p => { ({} : Present) with lastAt := p.lastAt, lastK := p.lastK }) s) []
    else withCtx (param s 0) s fun x => match s.lock with
      | none => .fail stBadParam
      | some l => match sourceOf s x (lockAt l s.time).period with
        | .error st => .fail st
        | .ok f => .done (putSource f s) []) s)

/-- `FRAME_STATUS` (R341). -/
def execFrameStatus (s : State) : Host.Outcome State Fault Refusal :=
  .next (command 0x52 false (fun s =>
    .done s (toBytes 8 s.present.frames ++ toBytes 8 s.present.cloaks ++ toBytes 8 s.present.blacks ++ toBytes 8 s.present.lastK)) s)

/-! ### Attestation, the pocket, units (R315, R339, R343) -/

/-- The entries of a quote (R315), identifier and digest: the firmware images, the partition layout, `CAPS0` to `CAPS3`, and the HASH of
each code object of a context. -/
def quoteEntries (s : State) (hashes : List Nat) : List (Nat × Nat) :=
  s.images
    ++ [(Config.measureId 0, Config.measureDigest 0 (s.layout.flatMap fun p => [p.1, p.2])), (Config.measureId 1, Config.measureDigest 1 [deviceCaps.toNat])]
    ++ hashes.map fun h => (Config.measureCode h, h)

/-- The quote before its signature (R315). -/
def quoteBody (s : State) (ctx : Nat) (nonce : List Byte) (hashes : List Nat) : List Byte :=
  let es := quoteEntries s hashes
  toBytes 8 es.length ++ toBytes 8 0 ++ nonce ++ toBytes 8 s.time ++ toBytes 8 ctx ++ es.flatMap fun e => toBytes 16 e.1 ++ toBytes 32 e.2

/-- The quote, signed with the identity key (R314, R315). -/
def quote (s : State) (ctx : Nat) (nonce : List Byte) (hashes : List Nat) : List Byte :=
  let b := quoteBody s ctx nonce hashes
  b ++ (Config.falconSign Config.identityKey b ++ List.replicate 1280 0).take 1280

/-- `ATTEST` (R315). -/
def execAttest (s : State) : Host.Outcome State Fault Refusal :=
  .next (command 0x60 (decide (param s 4 = 0)) (fun s =>
    let nonce := sgets 0 0 32 s.mbox.args
    let ctx := param s 4
    let go := fun hashes => toBuffer (param s 5) (param s 6) (quote s ctx nonce hashes) s
    if ctx = 0 then go [] else withCtx ctx s fun x => go x.hashes) s)

/-- A chain entry of the pocket (R339). -/
def chainBytes (r : TrapRec) : List Byte :=
  ((List.range 9).flatMap fun i => toBytes 4 (trapWord r i).toNat) ++ toBytes 4 r.core ++ toBytes 4 r.slot ++ toBytes 4 0

/-- The pocket (R339). -/
def pocketBytes (k : Pocket) : List Byte :=
  let chain := k.chain.flatMap chainBytes
  toBytes 4 0x504F434B ++ toBytes 4 (k.ctx * 2 ^ 16 + k.chain.length) ++ toBytes 8 k.time ++ chain ++ List.replicate (384 - chain.length) 0
    ++ (List.range (Config.saveSize k.seed)).map fun i => Config.saveByte k.seed i

/-- `POCKET_READ` (R339). -/
def execPocketRead (s : State) : Host.Outcome State Fault Refusal :=
  .next (command 0x70 false (fun s => match s.pockets.find? fun k => k.ctx = param s 0 with
    | none => .fail stNoObject
    | some k => toBuffer (param s 1) (param s 2) (pocketBytes k) s) s)

/-- A byte of eight bits, bit 0 first. -/
def byteOfBits (p : Nat → Bool) (i : Nat) : Byte :=
  BitVec.ofNat 8 ((List.range 8).foldl (fun n b => if p (8 * i + b) then n + 2 ^ b else n) 0)

/-- Seam links of the module (R12). -/
def linkCount : Nat := 16

/-- The units in service (R302, R343): a unit of a unit out of service is out of service. -/
def unitMap (s : State) : List Byte :=
  (List.range 48).map (byteOfBits fun n => coreWorks s n)
    ++ (List.range 12).map (byteOfBits fun n => clusterWorks s n)
    ++ [byteOfBits (fun n => dieWorks s n) 0, 0]
    ++ (List.range 2).map (byteOfBits fun n => decide (n < 12) && !unitOut s (.stack n))
    ++ (List.range 2).map (byteOfBits fun n => decide (n < linkCount) && !unitOut s (.link n))

/-- `UNIT_MAP` (R302). -/
def execUnitMap (s : State) : Host.Outcome State Fault Refusal := .next (command 0x90 true (fun s => .done s (unitMap s)) s)

end Sys2Proof.Machine
end

