-- ==== Sys2Proof/Machine/Debug.lean ====
section
/-!
DEFINITION. The debugger's mailbox commands (R327, R329, R330), and pre-emption and restore on command (R336).
-/

namespace Sys2Proof.Machine

/-! ### Targets (R330) -/

/-- The target that stands for every group and bobbin thread. -/
def targetAll : Nat := 2 ^ 31

/-- The form of a target: ALL alone, or SLOT and `COREID` with the reserved bits clear. -/
def targetOk (t : Nat) : Bool := decide (t = targetAll) || decide (t < 2 ^ 25)

/-- A group or bobbin thread of a context. -/
def isTarget (ctx : Nat) (g : Group) : Bool :=
  decide (g.ctx = ctx) && (decide (g.kind = .vector) || decide (g.kind = .bobbin)) && decide (g.live ≠ 0)

/-- An issuer stands on a core. -/
def onCore (s : State) (g : Group) : Bool := !((findWg g.wg s).map fun w => w.saved).getD false

/-- The issuers that a target names. -/
def targets (s : State) (ctx t : Nat) : List Group :=
  (allGroups s).filter fun g =>
    isTarget ctx g && (decide (t = targetAll) || (decide (slotCode g * 2 ^ 16 + whoCore g = t) && onCore s g))

/-- A debugger command: the context must be attached. -/
def debugCommand (code : Nat) (body : State → Context → CmdEnd) (s : State) : State :=
  command code false (fun s => withCtx (param s 0) s fun x => if x.attached then body s x else .fail stNoObject) s

/-- A command on the issuers that slot 1 names. -/
def onTargets (s : State) (x : Context) (body : List Group → CmdEnd) : CmdEnd :=
  let t := param s 1
  if !targetOk t then .fail stBadParam
  else if t ≠ targetAll ∧ (targets s x.id t).isEmpty then .fail stBadParam
  else body (targets s x.id t)

/-! ### Attaching, halting, resuming -/

/-- `DBG_ATTACH` (R330): one debugger at a time. -/
def execDbgAttach (s : State) : Host.Outcome State Fault Refusal :=
  .next (command 0x80 false (fun s => withCtx (param s 0) s fun x =>
    if x.attached then .fail stBusy else .done (updCtx x.id (fun x => { x with attached := true }) s) []) s)

/-- The halted issuers among some resume. -/
def resumeAll (gs : List Group) (s : State) : State :=
  gs.foldl (fun s g => if g.stop = .halted then resumeIssuer g.uid s else s) s

/-- A context's time without progress starts again (R337). -/
def freshProgress (ctx : Nat) (s : State) : State := updCtx ctx (fun x => { x with lastProgress := s.time }) s

/-- `DBG_DETACH` (R330). -/
def execDbgDetach (s : State) : Host.Outcome State Fault Refusal :=
  .next (debugCommand 0x81 (fun s x =>
    let s := updCtx x.id (fun x => { x with attached := false, breaks := [], watches := [] }) s
    let s := mapGroups (fun g => if g.ctx = x.id then { g with dbgSteps := none, hstep := false, haltReq := false } else g) s
    .done (freshProgress x.id (resumeAll (targets s x.id targetAll) s)) []) s)

/-- A target halts at its next instruction boundary; one that a trap has stopped does so when its handler resumes it. -/
def haltTarget (g : Group) (s : State) : State :=
  match g.stop with
  | .halted => s
  | .trapped => updGroup g.uid (fun g => { g with haltReq := true }) s
  | .running => haltNow g.uid s

/-- `DBG_HALT` (R330). -/
def execDbgHalt (s : State) : Host.Outcome State Fault Refusal :=
  .next (debugCommand 0x82 (fun s x => onTargets s x fun gs => .done (gs.foldl (fun s g => haltTarget g s) s) []) s)

/-- `DBG_RESUME` (R330). -/
def execDbgResume (s : State) : Host.Outcome State Fault Refusal :=
  .next (debugCommand 0x83 (fun s x => onTargets s x fun gs =>
    let n := param s 2
    if n > 65535 then .fail stBadParam
    else
      let s := gs.foldl (fun s g =>
        if g.stop = .halted then updGroup g.uid (fun g => { g with dbgSteps := if n = 0 then none else some n }) s else s) s
      .done (freshProgress x.id (resumeAll gs s)) []) s)

/-! ### Breakpoints, watchpoints, sampling, stop records -/

/-- `DBG_BREAK` (R330). -/
def execDbgBreak (s : State) : Host.Outcome State Fault Refusal :=
  .next (debugCommand 0x84 (fun s x =>
    let b : Break := { num := param s 1, kind := param s 2, value := param s 3, target := param s 4 }
    if b.num > 31 ∨ b.kind > 1 ∨ b.value ≥ 2 ^ 32 ∨ (b.kind = 1 ∧ b.value ≥ 2 ^ 16) ∨ targetOk b.target = false ∨ param s 5 > 1 then .fail stBadParam
    else .done (updCtx x.id (fun x =>
      { x with breaks := x.breaks.filter (fun o => decide (o.num ≠ b.num)) ++ (if param s 5 = 1 then [b] else []) }) s) []) s)

/-- `DBG_WATCH` (R327): kind 3 removes the watchpoint. -/
def execDbgWatch (s : State) : Host.Outcome State Fault Refusal :=
  .next (debugCommand 0x85 (fun s x =>
    let w : Watch := { num := param s 1, lo := param s 2, len := param s 3, kind := param s 4 }
    if w.num > 7 ∨ w.kind > 3 ∨ rangeOk w.lo w.len = false then .fail stBadParam
    else .done (updCtx x.id (fun x =>
      { x with watches := x.watches.filter (fun o => decide (o.num ≠ w.num)) ++ (if w.kind = 3 then [] else [w]) }) s) []) s)

/-- `DBG_SAMPLE` (R335). -/
def execDbgSample (s : State) : Host.Outcome State Fault Refusal :=
  .next (debugCommand 0x88 (fun s x =>
    let k := param s 1
    if k = 0 ∨ (8 ≤ k ∧ k ≤ 20) then .done (updCtx x.id (fun x => { x with sampleK := k }) s) [] else .fail stBadParam) s)

/-- A stop record (R330). -/
def stopBytes (ctx : Nat) (r : StopRec) : List Byte :=
  toBytes 4 ctx ++ toBytes 4 0 ++ toBytes 4 r.target ++ toBytes 4 (tcause r.trap) ++ toBytes 4 r.trap.tpc ++ toBytes 4 r.trap.topc
    ++ toBytes 4 r.trap.titer ++ toBytes 4 r.trap.info ++ toBytes 8 r.trap.mask.toNat ++ toBytes 8 r.time ++ List.replicate 16 0

/-- `DBG_EVENTS` (R330). -/
def execDbgEvents (s : State) : Host.Outcome State Fault Refusal :=
  .next (debugCommand 0x89 (fun s x =>
    toBuffer (param s 1) (param s 2) (x.events.flatMap (stopBytes x.id)) (updCtx x.id (fun x => { x with events := [] }) s)) s)

/-! ### Items (R330) -/

/-- A halted target of a read or a write. -/
def haltedTarget (s : State) (x : Context) (body : Group → CmdEnd) : CmdEnd :=
  if param s 1 = targetAll then .fail stBadParam
  else onTargets s x fun gs => match gs.head? with
    | none => .fail stBadParam
    | some g => if g.stop = .halted then body g else .fail stBusy

/-- The handler CSRs as the debugger addresses them: `HLANE` is the lowest named lane. -/
def asHandler (t : Group) (m : DWord) : Group := { hlane := (lowLane m).getD 0, hvsel := t.hvsel, hbsel := t.hbsel }

/-- A CSR item of a target can be read or written with a value. -/
def itemOk (t : Group) (m : DWord) (n : Nat) : Bool :=
  handlerCsrOk t n && decide ((lowLane m).getD 0 < t.width) && (n != 0x111 || hvselOk t t.hvsel)

/-- An item whose layout the spec does not give, by its content, of at most `MBPAY` bytes. -/
def layItem (n : Nat) (content : List Nat) (s : State) : CmdEnd :=
  .done s ((List.range (Config.itemLen n content % 4097)).map (Config.itemByte n content))

/-- The content of a tile, an accumulator, a pattern-table entry, a frontier entry and a hem entry (R330). -/
def tileContent (t : Tile) : List Nat :=
  [t.state, t.present.toNat, (t.tag.map fun n => n + 1).getD 0] ++ (t.data.flatMap fun p => [p.1, p.2.toNat]) ++ t.scales.flatMap fun p => [p.1, p.2.toNat]
def accContent (a : Acc) : List Nat := a.pres.toNat :: a.data.flatMap fun p => [p.1, p.2.toNat]
def entryContent (e : PEntry) : List Nat :=
  [match e.kind with
    | .mma => 0
    | .mzero => 1
    | .mcvt => 2
    | .mguid => 3, e.seqC, e.seqU, e.sel.toNat, e.val.toNat]
    ++ ([e.begun, e.pair, e.hasC, e.hasU, e.acc, e.chain, e.rela, e.relb].map fun b => if b then 1 else 0)
    ++ e.compand.length :: e.compand.map fun w => w.toNat
def pathContent (g : Group) : List Nat :=
  ((g.act.toList ++ g.frontier).flatMap fun e => [e.pc, e.mask.toNat, e.age, (e.pos.map fun p => p.issued + 1).getD 0, if waits g e then 1 else 0])
    ++ g.hem.flatMap fun h => [h.pc, h.mask.toNat, (h.pos.map fun p => p.issued + 1).getD 0, h.va, h.page, h.kind, topcOf g h.pc]

/-- A CSR item's word in its slot. -/
def readCsrItem (s : State) (t : Group) (m : DWord) (n : Nat) : CmdEnd :=
  if !itemOk t m n then .fail stBadParam
  else match handlerRead (asHandler t m) t n with
    | some w => .done s (toBytes 8 w.toNat)
    | none =>
      let (k, s) := drawFree s
      .done s (toBytes 8 (Config.freeValue k).toNat)

/-- The images of a closure register of the named lanes (R164, R359); a tile-program thread has no lanes (R119). -/
def readClosures (s : State) (t : Group) (m : DWord) (r : Nat) : CmdEnd :=
  let bs := (lanes m).flatMap fun l => closureImage (getG t r l)
  if t.kind ≠ .vector ∨ r ≥ t.code.closures ∨ m &&& ~~~t.exist ≠ 0 ∨ bs.length > 4096 then .fail stBadParam else .done s bs

/-- An item of a halted target. -/
def readItem (s : State) (t : Group) (n : Nat) (m : DWord) : CmdEnd :=
  let w := (findWg t.wg s).getD {}
  if 0x100 ≤ n ∧ n ≤ 0x18C then readCsrItem s t m n
  else if 0x200 ≤ n ∧ n ≤ 0x203 then readClosures s t m (n - 0x200)
  else if 0x300 ≤ n ∧ n ≤ 0x4FF then (if n - 0x300 < w.ntiles then layItem n (tileContent (getTile w (n - 0x300))) s else .fail stBadParam)
  else if 0x500 ≤ n ∧ n ≤ 0x57F then (if n - 0x500 < w.naccs then layItem n (accContent (getAcc w (n - 0x500))) s else .fail stBadParam)
  else if n = 0x600 then layItem n ((s.pattern.filter fun e => e.threads.any fun p => decide (p.1 = w.uid)).flatMap entryContent) s
  else if n = 0x601 then layItem n (pathContent t) s
  else .fail stBadParam

/-- `DBG_READ` (R330). -/
def execDbgRead (s : State) : Host.Outcome State Fault Refusal :=
  .next (debugCommand 0x86 (fun s x => haltedTarget s x fun t => readItem s t (param s 2) (BitVec.ofNat 64 (param s 3))) s)

/-- A CSR item is written as the handler would write it (R325). -/
def writeItem (s : State) (t : Group) (n : Nat) (m : DWord) (v : Nat) : CmdEnd :=
  let h := asHandler t m
  if ¬(0x100 ≤ n ∧ n ≤ 0x18C) ∨ v ≥ 2 ^ 32 ∨ itemOk t m n = false ∨ handlerValueBad h t n (BitVec.ofNat 32 v) = true then .fail stBadParam
  else
    let (h, t') := handlerWrite n (BitVec.ofNat 32 v) h t
    .done (updGroup t.uid (fun _ => { t' with hvsel := h.hvsel, hbsel := h.hbsel }) s) []

/-- `DBG_WRITE` (R330). -/
def execDbgWrite (s : State) : Host.Outcome State Fault Refusal :=
  .next (debugCommand 0x87 (fun s x => haltedTarget s x fun t =>
    writeItem s t (param s 2) (BitVec.ofNat 64 (param s 3)) (param s 4)) s)

/-! ### Pre-emption on command (R330, R336) -/

/-- `CTX_PREEMPT` (R330). -/
def execCtxPreempt (s : State) : Host.Outcome State Fault Refusal :=
  .next (debugCommand 0x8A (fun s x =>
    match if x.resident then ringWaits x.id s else none with
    | some _ => .wait (preempt x s)
    | none => .done (updCtx x.id (fun x => { x with held := true }) (if x.resident then saveContext x.id s else s)) []) s)

/-- Each saved workgroup takes the first core that has room, a pair's sides in one cluster. -/
def placeFirst (x : Context) (cores : List Nat) : List Workgroup → List (Nat × Nat) → State → Option State
  | [], _, s => some s
  | w :: ws, done, s =>
    match findGrid w.grid s with
    | none => none
    | some g =>
      let near := (done.find? fun c => c.1 = w.partner).map fun c => c.2 / 4
      match cores.find? fun c => decide ((near.getD (c / 4)) = c / 4) && (roomAgain s g w c).isSome with
      | none => none
      | some c => match roomAgain s g w c with
        | none => none
        | some r => placeFirst x cores ws ((w.uid, c) :: done) (returnTo w r s)

/-- The context becomes resident if its workgroups find room now. -/
def restoreNow (x : Context) (s : State) : Option State :=
  if x.ending || residentFull s then none
  else
    let cores := (partDies s x).flatMap fun d => (List.range 48).map fun i => 48 * d + i
    (placeFirst x (cores.filter (coreWorks s)) (toPlace x.id s) [] s).map (becomeResident x.id)

/-- `CTX_RESTORE` (R330): the command ends once the context is resident. -/
def execCtxRestore (s : State) : Host.Outcome State Fault Refusal :=
  .next (debugCommand 0x8B (fun s x =>
    let s := updCtx x.id (fun x => { x with held := false }) s
    if x.resident then .done s []
    else match restoreNow { x with held := false } s with
      | some s => .done s []
      | none => .wait s) s)

end Sys2Proof.Machine
end

