-- ==== Sys2Proof/Machine/Matrix.lean ====
section
/-!
DEFINITION. The matrix words (R125 to R134, R137 to R143): `TFEED`, `TREL` and `TDRAIN` in vector groups, the others on the bobbin.
-/

namespace Sys2Proof.Machine

/-! ### Vector groups -/

/-- A selector with a reserved bit (R125): the tile and drain selectors of `k` low bits. -/
def selectorBad (k : Nat) (w : Word) : Bool := decide (bitsOf w 31 22 ≠ 0) || decide (bitsOf w 15 k ≠ 0)

/-- The register image of a row (R116): the code of an element, and the scale bytes. -/
def imageCode (s : State) (v f k l : Nat) : Nat :=
  match fmtBits f with
  | 32 => (getV s.grp (v + k) l).toNat
  | 16 => (getV s.grp (v + k / 2) l).toNat / 2 ^ (16 * (k % 2)) % 2 ^ 16
  | 4 => (getV s.grp (v + k / 8) l).toNat / 2 ^ (4 * (k % 8)) % 16
  | 6 => (getV s.grp (v + k / 4) l).toNat / 2 ^ (8 * (k % 4)) % 64
  | _ => (getV s.grp (v + k / 4) l).toNat / 2 ^ (8 * (k % 4)) % 256

def imageScales (s : State) (v f l : Nat) : List Byte :=
  (List.range (fmtBlocks f)).map fun b => BitVec.ofNat 8 ((getV s.grp (v + fmtRegs f - 2 + b / 4) l).toNat / 2 ^ (8 * (b % 4)))

/-- The rows of the active lanes in a tile (R126). -/
def feedRows (s : State) (v f base : Nat) (t : Tile) : Tile :=
  (lanes (active s)).foldl (fun t l =>
    putRow (base + l) ((List.range (fmtK f)).map fun k => imageCode s v f k l) f (imageScales s v f l) true t) t

/-- `TFEED` once its format word is known: the rest of R126's checks in their order. -/
def feedWith (t v : Nat) (fw : Word) (s : State) : State :=
  let sel := getS s.grp t
  let tile := bitsOf sel 8 0
  let base := bitsOf sel 21 16
  let n := fmtRegs fw.toNat
  let image := plainRegs n v
  if !fmtValid s.grp.code.features fw || selectorBad 9 sel || decide (tile ≥ (wgOf s).ntiles) || decide (base + s.grp.width > 64)
      || decide (v + n > s.grp.code.vregs) then trapOwn cIllegalOperand s
  else if image.any (fun r => match curPos s with
      | some p => hazardous s.grp p r
      | none => false) then trapOwn cHazard s
  else if image.any (regPending s.grp) then stallOn .token s
  else
    let x := getTile (wgOf s) tile
    if x.state = 2 then stallOn .tile s
    else if x.state = 1 ∧ x.tag ≠ some fw.toNat then trapOwn cFormatDiverge s
    else finish (putTile s.grp.wg tile { feedRows s v fw.toNat base x with tag := some fw.toNat, state := 1 } s)

/-- `TFEED` (R126). -/
def execTfeed (t : BitVec 6) (v f : BitVec 8) (s : State) : Host.Outcome State Fault Refusal :=
  .next (word
    { vectorNeed [.s t.toNat, .v f.toNat] (!plainV s 1 f.toNat) with feats := [4], hints := { part := true } }
    (fun s =>
      match lowLane (active s) with
      | none => finish s
      | some l =>
        collective (fun s =>
          let fw := getV s.grp f.toNat l
          let differ := (lanes (active s)).filter fun k => decide (getV s.grp f.toNat k ≠ fw)
          if !differ.isEmpty then trapOwn cFormatDiverge s else feedWith t.toNat v.toNat fw s) s) s)

/-- `TREL` (R127). -/
def execTrel (t : BitVec 6) (s : State) : Host.Outcome State Fault Refusal :=
  .next (word { vectorNeed [.s t.toNat] false with feats := [4] } (fun s =>
    let sel := getS s.grp t.toNat
    let tile := bitsOf sel 8 0
    if active s = 0 then finish s
    else if selectorBad 9 sel || decide (tile ≥ (wgOf s).ntiles) then trapOwn cIllegalOperand s
    else
      let x := getTile (wgOf s) tile
      finish (if x.state = 2 then s else putTile s.grp.wg tile { x with state := 2 } s)) s)

/-- The oldest present entry that writes an accumulator, by its number in the thread of a workgroup (R123, R140). -/
def writerOf (s : State) (wg a : Nat) : Option Nat :=
  let ns := (s.pattern.filter fun e => e.writes.contains (wg, a)).flatMap fun e => (e.threads.filter fun p => decide (p.1 = wg)).map fun p => p.2
  ns.foldl (fun b n => match b with
    | none => some n
    | some m => some (min m n)) none

/-- `TDRAIN` (R128): its values are read when it issues, so it holds the accumulator for no longer. -/
def execTdrain (a : BitVec 6) (d : BitVec 8) (c : BitVec 2) (s : State) : Host.Outcome State Fault Refusal :=
  .next (word
    { vectorNeed (.s a.toNat :: plainRegs 16 d.toNat) (decide (d.toNat + 16 > s.grp.code.vregs)) with feats := [4], varlat := true }
    (fun s =>
      let sel := getS s.grp a.toNat
      let acc := bitsOf sel 6 0
      let base := bitsOf sel 21 16
      if selectorBad 7 sel || decide (acc ≥ (wgOf s).naccs) || decide (base + s.grp.width > 64) then trapOwn cIllegalOperand s
      else match writerOf s s.grp.wg acc with
        | some n => takeTrap { cause := cAccBusy, mask := active s, addr := n, info := acc } s
        | none =>
          let x := getAcc (wgOf s) acc
          let ws := (lanes (active s)).flatMap fun l =>
            laneWrites d.toNat l ((List.range 16).map fun j => accGet x (base + l) (16 * c.toNat + j))
          finish (launchOp (plainRegs 16 d.toNat) ws [] s)) s)

/-! ### The bobbin: entering the table -/

/-- What a bobbin word needs (R61, R125). -/
def bobbinNeed (sregs : List Nat) (feats : List Nat) : Need :=
  { vec := false, bob := true, walk := false, hand := false, feats := feats, regs := sregs.map Reg.s }

/-- The partner's thread that waits at its rendezvous (R137). -/
def partnerOf (s : State) : Option Group :=
  match findWg (wgOf s).partner s with
  | none => none
  | some p => if p.bobGone then none else bobbinOf p.uid s

/-- A paired word waits at its rendezvous. -/
def atRendezvous (g : Group) : Bool := decide (g.stall = .pair) && decide (g.stop = .running) && g.rendezvous.isSome

/-- A thread's word completes with its entry in the table: the thread's count rises (R122). -/
def completeThread (pair : Bool) (s : State) : State :=
  finish (s.setG fun g => { g with count := g.count + 1, pairs := if pair then g.pairs + 1 else g.pairs, rendezvous := none })

/-- An entry enters and the words that form it complete (R121, R137). -/
def completeWords (e : PEntry) (s : State) : State :=
  let s := enterEntry e s
  match (if e.hasC && e.hasU then partnerOf s else none) with
  | none => completeThread e.pair s
  | some p => completeThread e.pair (within p.uid (completeThread e.pair) s)

/-- A word enters the table, or stalls while the table is full (R121). -/
def enterOr (e : PEntry) (s : State) : State :=
  if tableFull e.cluster s then stallOn .table (s.setG fun g => { g with held := some (.entry e) }) else completeWords e s

/-- The entry of an unpaired word. -/
def soloEntry (kind : PKind) (sel val : Word) (s : State) : PEntry :=
  { id := 0, kind := kind, cluster := clusterOfCore s.grp.core, pair := false, wgC := s.grp.wg, wgU := s.grp.wg, hasC := true, hasU := false
    seqC := s.grp.count + 1, seqU := 0, sel := sel, val := val, compand := (wgOf s).compand, slot := s.grp.slot }

/-- The entry of a paired word; `p`: the partner's thread when it is present. A lone entry of side U captures its own companding table (log
entry 85); of two threads the lower slot breaks ties (R121, log entry 86). -/
def pairEntry (kind : PKind) (sel val : Word) (p : Option Group) (s : State) : PEntry :=
  let w := wgOf s
  let mine := s.grp.count + 1
  let its := (p.map fun g => g.count + 1).getD 0
  let sideC := decide (w.side = 0)
  { id := 0, kind := kind, cluster := clusterOfCore s.grp.core, pair := true
    wgC := if sideC then w.uid else w.partner, wgU := if sideC then w.partner else w.uid
    hasC := sideC || p.isSome, hasU := !sideC || p.isSome
    seqC := if sideC then mine else its, seqU := if sideC then its else mine
    sel := sel, val := val
    compand := if sideC || p.isNone then w.compand else (wgAt w.partner s).compand
    slot := match p with
      | some g => min g.slot s.grp.slot
      | none => s.grp.slot }

/-- Both words of a failed rendezvous trap, each on its own thread (R138), the lower thread slot first (R324); where the first trap ends the
context (R337), the other thread has ended with it. -/
def divergeBoth (partner : Group) (info : Nat) (s : State) : State :=
  let t := fun (s : State) => takeTrap { cause := cPairDiverge, mask := active s, info := info } (s.setG fun g => { g with rendezvous := none })
  let me := s.grp.uid
  let its := fun (s : State) => if (findGroup partner.uid s).isSome then within partner.uid t s else s
  if partner.slot < s.grp.slot then
    let s := its s
    if s.grp.uid = me then t s else s
  else its (t s)

/-- `TINFO` of R138. Where an `MMA` meets an `MGUID`, the FMT bit compares the format word with the scale (log entry 84). -/
def pairInfo (a b : Word × Word × Word) : Nat :=
  (if a.1 ≠ b.1 then 4 else 0) + (if a.2.1 ≠ b.2.1 then 2 else 0) + (if a.2.2 ≠ b.2.2 then 1 else 0)

/-- A paired word (R137 to R139, R143): alone when the other side is absent, else at its rendezvous. `w`: the word but for `BT`;
`bTile`: the pair index of its B tile. -/
def pairWord (kind : PKind) (w sel val : Word) (bTile : Option Nat) (fl : PEntry → PEntry) (s : State) : State :=
  match partnerOf s with
  | none =>
    match bTile with
    | some b => if b % 2 ≠ (wgOf s).side then trapOwn cIllegalOperand s else enterOr (fl (pairEntry kind sel val none s)) s
    | none => enterOr (fl (pairEntry kind sel val none s)) s
  | some p =>
    if atRendezvous p then
      let info := pairInfo (p.rendezvous.getD (0, 0, 0)) (w, sel, val)
      if info ≠ 0 then divergeBoth p info s
      else enterOr (fl (pairEntry kind sel val (some p) s)) (s.setG fun g => { g with rendezvous := some (w, sel, val) })
    else stallOn .pair (s.setG fun g => { g with rendezvous := some (w, sel, val) })

/-! ### The bobbin's words -/

/-- The checks of R129 in their order. -/
def mmaBad (s : State) (sel fw : Word) (rela chain : Bool) : Bool :=
  let w := wgOf s
  !fmtValid s.grp.code.features fw || decide (bitsOf sel 31 25 ≠ 0) || decide (selC sel ≥ w.naccs)
    || (if chain then
        decide (selSrc sel ≥ w.naccs) || decide (selSrc sel = selC sel) || decide (selQ sel * fmtK fw.toNat ≥ 64) || fmtIsMx fw.toNat
          || rela || decide (selB sel ≥ w.ntiles)
      else decide (selA sel ≥ w.ntiles) || decide (selB sel ≥ w.ntiles))

/-- `MMA` without `PAIR` (R129). The flags are `RELB`, `RELA`, `ACHAIN` and `ACC`. -/
def execMma (x f : BitVec 6) (b a c e : BitVec 1) (s : State) : Host.Outcome State Fault Refusal :=
  .next (word (bobbinNeed [x.toNat, f.toNat] [4]) (fun s =>
    let sel := getS s.grp x.toNat
    let fw := getS s.grp f.toNat
    if mmaBad s sel fw (decide (a = 1)) (decide (c = 1)) then trapOwn cIllegalOperand s
    else enterOr { soloEntry .mma sel fw s with acc := decide (e = 1), chain := decide (c = 1), rela := decide (a = 1), relb := decide (b = 1) } s) s)

/-- The checks of R139 in their order. -/
def mmaPairBad (s : State) (sel fw : Word) (chain : Bool) : Bool :=
  let w := wgOf s
  !(gridOf s).launch.pair || !fmtValid s.grp.code.features fw || decide (bitsOf sel 31 25 ≠ 0) || chain
    || decide (selC sel % 2 = 1) || decide (selC sel ≥ 2 * w.naccs) || decide (selA sel % 2 = 1) || decide (selA sel ≥ 2 * w.ntiles)
    || decide (selB sel ≥ 2 * w.ntiles)

/-- `MMA` with `PAIR` (R139). -/
def execMmaPair (x f : BitVec 6) (b a c e : BitVec 1) (s : State) : Host.Outcome State Fault Refusal :=
  let w : Word := BitVec.ofNat 32 (21 * 2 ^ 22 + x.toNat * 2 ^ 16 + f.toNat * 2 ^ 10 + b.toNat * 16 + a.toNat * 8 + 4 + c.toNat * 2 + e.toNat)
  .next (word (bobbinNeed [x.toNat, f.toNat] [4, 5]) (fun s =>
    let sel := getS s.grp x.toNat
    let fw := getS s.grp f.toNat
    if mmaPairBad s sel fw (decide (c = 1)) then trapOwn cIllegalOperand s
    else pairWord .mma w sel fw (some (selB sel))
      (fun n => { n with acc := decide (e = 1), rela := decide (a = 1), relb := decide (b = 1) }) s) s)

/-- `MGUID` (R141). -/
def execMguid (x k : BitVec 6) (s : State) : Host.Outcome State Fault Refusal :=
  let w : Word := BitVec.ofNat 32 (22 * 2 ^ 22 + x.toNat * 2 ^ 16 + k.toNat * 2 ^ 10)
  .next (word (bobbinNeed [x.toNat, k.toNat] [4, 5]) (fun s =>
    let sel := getS s.grp x.toNat
    let n := 2 * (wgOf s).naccs
    if !(gridOf s).launch.pair || decide (bitsOf sel 31 25 ≠ 0) || decide (selQ sel ≠ 0) || decide (selSrc sel % 2 = 1)
        || decide (selSrc sel ≥ n) || decide (selC sel ≥ n) then trapOwn cIllegalOperand s
    else pairWord .mguid w sel (getS s.grp k.toNat) none id s) s)

/-- `MZERO` (R131). -/
def execMzero (x : BitVec 6) (s : State) : Host.Outcome State Fault Refusal :=
  .next (word (bobbinNeed [x.toNat] [4]) (fun s =>
    let sel := getS s.grp x.toNat
    if decide (bitsOf sel 31 25 ≠ 0) || decide (selC sel ≥ (wgOf s).naccs) then trapOwn cIllegalOperand s
    else enterOr (soloEntry .mzero sel 0 s) s) s)

/-- `MCVT` (R132). -/
def execMcvt (x f : BitVec 6) (s : State) : Host.Outcome State Fault Refusal :=
  .next (word (bobbinNeed [x.toNat, f.toNat] [4]) (fun s =>
    let sel := getS s.grp x.toNat
    let fw := getS s.grp f.toNat
    if !fmtValid s.grp.code.features fw || fmtIsMx fw.toNat || decide (bitsOf sel 31 18 ≠ 0) || decide (selC sel ≥ (wgOf s).naccs)
        || decide (selA sel ≥ (wgOf s).ntiles) || decide (bitsOf sel 17 16 * fmtK fw.toNat ≥ 64) then trapOwn cIllegalOperand s
    else enterOr (soloEntry .mcvt sel fw s) s) s)

/-- `MWAIT` (R133). -/
def execMwait (a : BitVec 6) (s : State) : Host.Outcome State Fault Refusal :=
  .next (word { bobbinNeed [a.toNat, a.toNat + 1] [4] with operandBad := decide (a.toNat % 2 = 1) } (fun s =>
    if s.grp.mark ≥ pair64 (getS s.grp a.toNat) (getS s.grp (a.toNat + 1)) then finish s else stallOn .mwait s) s)

/-- The words of a companding table, read in order; those outside a record with CLAMP are 0 (R134). -/
def tabWords (scope : Nat) : List Access → State → List Word × State
  | [], s => ([], s)
  | a :: as, s =>
    let (x, s) := match (if a.inb then xlate s s.grp a.va 0 else .absent) with
      | .ok p => let (bs, s) := laneLoad .mem scope 0 0 p 4 s; (wordOf bs, s)
      | _ => (0, s)
    let (r, s) := tabWords scope as s
    (x :: r, s)

/-- `CTAB` (R134). Every word that issues after it uses the new table (R244, log entry 104). -/
def execCtab (a : BitVec 6) (n : BitVec 5) (s : State) : Host.Outcome State Fault Refusal :=
  .next (word { bobbinNeed [a.toNat] [4, 8] with operandBad := decide (n ≠ 0) } (fun s =>
    let r := bufOf s 0 0
    let as := (List.range 16).map fun i => accOf r 4 (((if r.stride ≠ 0 then r.stride else 1) * i : Nat) : Int) 0 (getS s.grp a.toNat)
    let o : MemOp := { buf := 0, idx := fun _ => 0, size := 4, kind := 0, watch := [0] }
    match memTraps s o [0] as with
    | some t => takeTrap t s
    | none => match memTrans s o (as.filter fun a => a.inb) with
      | .trap t => takeTrap t s
      | .walk va => walkStall va 0 s
      | .go _ ((_, pg) :: _) => parkWord 0 pg s
      | .go run [] =>
        let (ws, s') := tabWords (scopeOf s 0) as (sampled .mem run s)
        if !cpValid ws then trapOwn cIllegalOperand s
        else finish (updWg s.grp.wg (fun w => { w with compand := ws }) s')) s)

/-- The entry of a held paired word with the numbers and the table that its threads have now: the partner may have issued other words since
they met (R137). -/
def renewed (e : PEntry) (p : Group) (s : State) : PEntry :=
  { pairEntry e.kind e.sel e.val (some p) s with acc := e.acc, rela := e.rela, relb := e.relb }

/-- A held word enters once a slot is free; the words of a pair are compared again, since the partner may have issued anew (R138). -/
def enterHeld (e : PEntry) (s : State) : State :=
  match (if e.hasC && e.hasU then partnerOf s else none) with
  | none => if e.hasC && e.hasU then s else completeWords e s
  | some p =>
    if !atRendezvous p then s
    else
      let info := pairInfo (p.rendezvous.getD (0, 0, 0)) (s.grp.rendezvous.getD (0, 0, 0))
      if info ≠ 0 then divergeBoth p info s else completeWords (renewed e p s) s

/-- `PATTERN_TABLE_ENTER` (R121): a word that a full table holds enters once a slot is free. -/
def execPatternTableEnter (grp : Nat) (s : State) : Host.Outcome State Fault Refusal :=
  .next (match findGroup grp s with
    | none => s
    | some g => match g.held with
      | some (.entry e) =>
        if g.stall = .table ∧ g.stop = .running ∧ tableFull e.cluster s = false then within grp (enterHeld e) s else s
      | _ => s)

/-! ### The end of a tile-program thread -/

/-- A word that waits at its rendezvous goes alone (R143). -/
def goAlone (s : State) : State :=
  match s.grp.rendezvous with
  | none => s
  | some (w, sel, val) =>
    if w.toNat / 2 ^ 22 = 21 then
      pairWord .mma w sel val (some (selB sel)) (fun n => { n with acc := w.getLsbD 0, rela := w.getLsbD 3, relb := w.getLsbD 4 }) s
    else pairWord .mguid w sel val none id s

/-- The issuing thread ends and its side is absent (R119, R143). -/
def endThread (s : State) : State :=
  updWg s.grp.wg (fun w => { w with bobGone := true }) ((settle s).setG fun g => { g with act := none, frontier := [], live := 0 })

/-- The thread of the other side that waits at its rendezvous, or with a paired word that a full table holds. -/
def waitingPartner (s : State) : Option Group := (partnerOf s).filter fun p => atRendezvous p || (decide (p.stall = .table) && p.rendezvous.isSome)

/-- `EXIT` (R296): on the bobbin the tile-program thread ends (R119), and a word of the other side that waits at its rendezvous forms its entry
(R143). -/
def execExit (s : State) : Host.Outcome State Fault Refusal :=
  .next (word { bob := true, walk := false, hand := false, last := true } (fun s =>
    if s.grp.kind = .bobbin then
      retireCheck s.grp.wg (match waitingPartner s with
        | none => endThread s
        | some p => within p.uid goAlone (endThread s))
    else exitLanes (active s) s) s)

end Sys2Proof.Machine
end

