-- ==== Sys2Proof/Machine/VecFloat.lean ====
section
/-!
DEFINITION. Floating vector arithmetic: FP32 (R90, R91), packed halves (R94), FP64 (R95) and `HDOT2` (R97).
-/

namespace Sys2Proof.Machine

/-- An FP32 word: the exact result of the destination's old value and the sources, rounded once (R90). -/
def fp32Word (d a b : BitVec 8) (e : Nat → FVal → FVal → FVal → FVal) (s : State) : State :=
  vec3 true d a b (fun s l dv av bv =>
    let c := ctlOf s l 0
    let i (w : Word) := fp32.input c.ftz w.toNat
    BitVec.ofNat 32 (fp32.round c (e c.mode (i dv) (i av) (i bv)))) s

/-- `FADD` (R90). -/
def execFadd (d a b : BitVec 8) (s : State) : Host.Outcome State Fault Refusal :=
  .next (fp32Word d a b (fun m _ x y => FVal.sum m [x, y]) s)

/-- `FSUB` (R90). -/
def execFsub (d a b : BitVec 8) (s : State) : Host.Outcome State Fault Refusal :=
  .next (fp32Word d a b (fun m _ x y => FVal.sum m [x, y.neg]) s)

/-- `FMUL` (R90). -/
def execFmul (d a b : BitVec 8) (s : State) : Host.Outcome State Fault Refusal :=
  .next (fp32Word d a b (fun _ _ x y => x.mul y) s)

/-- `FMAC` (R90): one rounding. -/
def execFmac (d a b : BitVec 8) (s : State) : Host.Outcome State Fault Refusal :=
  .next (fp32Word d a b (fun m z x y => FVal.sum m [z, x.mul y]) s)

/-- `FMSB` (R90): one rounding. -/
def execFmsb (d a b : BitVec 8) (s : State) : Host.Outcome State Fault Refusal :=
  .next (fp32Word d a b (fun m z x y => FVal.sum m [z, (x.mul y).neg]) s)

/-- `FMIN` (R75, R91): only FTZ of the hint acts. -/
def execFmin (d a b : BitVec 8) (s : State) : Host.Outcome State Fault Refusal :=
  .next (vec3 true d a b (fun s l _ x y => BitVec.ofNat 32 (fp32.minMax (ctlOf s l 0).ftz false x.toNat y.toNat)) s false)

/-- `FMAX` (R75, R91). -/
def execFmax (d a b : BitVec 8) (s : State) : Host.Outcome State Fault Refusal :=
  .next (vec3 true d a b (fun s l _ x y => BitVec.ofNat 32 (fp32.minMax (ctlOf s l 0).ftz true x.toNat y.toNat)) s false)

/-- `FCPS` (R91). -/
def execFcps (d a b : BitVec 8) (s : State) : Host.Outcome State Fault Refusal :=
  .next (vec3 false d a b (fun _ _ _ x y => (x &&& 0x7FFFFFFF) ||| (y &&& 0x80000000)) s)

/-- Half k of a word. -/
def halfOf (w : Word) (k : Nat) : Nat := w.toNat / 2 ^ (16 * k) % 65536

/-- A packed word: each half rounds once, with its own element index (R94). -/
def packedWord (f : Fmt) (d a b : BitVec 8) (e : Nat → FVal → FVal → FVal → FVal) (s : State) : State :=
  vec3 true d a b (fun s l dv av bv =>
    let one (k : Nat) : Nat :=
      let c := ctlOf s l k
      let i (w : Word) := f.input c.ftz (halfOf w k)
      f.round c (e c.mode (i dv) (i av) (i bv))
    BitVec.ofNat 32 (one 0 + 65536 * one 1)) s

/-- `HADD2` (R94). -/
def execHadd2 (d a b : BitVec 8) (s : State) : Host.Outcome State Fault Refusal :=
  .next (packedWord fp16 d a b (fun m _ x y => FVal.sum m [x, y]) s)

/-- `HMUL2` (R94). -/
def execHmul2 (d a b : BitVec 8) (s : State) : Host.Outcome State Fault Refusal :=
  .next (packedWord fp16 d a b (fun _ _ x y => x.mul y) s)

/-- `HMAC2` (R94). -/
def execHmac2 (d a b : BitVec 8) (s : State) : Host.Outcome State Fault Refusal :=
  .next (packedWord fp16 d a b (fun m z x y => FVal.sum m [z, x.mul y]) s)

/-- `BADD2` (R94). -/
def execBadd2 (d a b : BitVec 8) (s : State) : Host.Outcome State Fault Refusal :=
  .next (packedWord bf16 d a b (fun m _ x y => FVal.sum m [x, y]) s)

/-- `BMUL2` (R94). -/
def execBmul2 (d a b : BitVec 8) (s : State) : Host.Outcome State Fault Refusal :=
  .next (packedWord bf16 d a b (fun _ _ x y => x.mul y) s)

/-- `BMAC2` (R94). -/
def execBmac2 (d a b : BitVec 8) (s : State) : Host.Outcome State Fault Refusal :=
  .next (packedWord bf16 d a b (fun m z x y => FVal.sum m [z, x.mul y]) s)

/-- The two words of a 64-bit result. -/
def words64 (n : Nat) : List Word := [loWord n, hiWord n]

/-- An FP64 word on pairs (R95). -/
def fp64Word (d a b : BitVec 8) (e : Nat → FVal → FVal → FVal → FVal) (s : State) : State :=
  vecFixed (vecNeed s d.toNat 2 [(a.toNat, 2), (b.toNat, 2)] true false false [1] false) d.toNat 2
    (fun s l =>
      let c := ctlOf s l 0
      let i (n : Nat) := fp64.input c.ftz n
      words64 (fp64.round c (e c.mode (i (src64 s d l)) (i (src64 s a l)) (i (src64 s b l))))) s

/-- `DADD` (R95). -/
def execDadd (d a b : BitVec 8) (s : State) : Host.Outcome State Fault Refusal :=
  .next (fp64Word d a b (fun m _ x y => FVal.sum m [x, y]) s)

/-- `DMUL` (R95). -/
def execDmul (d a b : BitVec 8) (s : State) : Host.Outcome State Fault Refusal :=
  .next (fp64Word d a b (fun _ _ x y => x.mul y) s)

/-- `DMAC` (R95). -/
def execDmac (d a b : BitVec 8) (s : State) : Host.Outcome State Fault Refusal :=
  .next (fp64Word d a b (fun m z x y => FVal.sum m [z, x.mul y]) s)

/-- `HDOT2` (R97): one rounding of the destination and both products. -/
def execHdot2 (d a b : BitVec 8) (s : State) : Host.Outcome State Fault Refusal :=
  .next (vec3 true d a b (fun s l dv av bv =>
    let c := ctlOf s l 0
    let h (w : Word) (k : Nat) := fp16.input c.ftz (halfOf w k)
    BitVec.ofNat 32 (fp32.round c (FVal.sum c.mode
      [fp32.input c.ftz dv.toNat, (h av 0).mul (h bv 0), (h av 1).mul (h bv 1)]))) s)

end Sys2Proof.Machine
end

