-- ==== Sys2Proof/Machine/VecUnary.lean ====
section
/-!
DEFINITION. The two-register forms of class 7 (R100 to R109).
-/

namespace Sys2Proof.Machine

/-- A class 7 word with given widths and feature bits whose result does not round. -/
def bitWord (d a : BitVec 8) (dw aw : Nat) (feats : List Nat) (f : State → Nat → List Word) (s : State) : State :=
  vecFixed (vecNeed s d.toNat dw [(a.toNat, aw)] false false false feats false) d.toNat dw f s

/-- The words of an operand in a lane. -/
def srcWords (s : State) (a : BitVec 8) (w l : Nat) : List Word := (List.range w).map fun i => srcWord s a.toNat i l

/-- `MOV` (R101): 32, 64 or 128 bits. -/
def execMov (m : BitVec 5) (d a : BitVec 8) (s : State) : Host.Outcome State Fault Refusal :=
  let w := if m = 0 then 1 else if m = 1 then 2 else 4
  .next (bitWord d a w w [] (fun s l => srcWords s a w l) s)

/-- `FNEG` and `FABS` share their forms (R101): 32 bits, an FP64 pair, two halves. -/
def signWord (m : BitVec 5) (d a : BitVec 8) (one two : Word → Word) (s : State) : State :=
  if m = 1 then bitWord d a 2 2 [1] (fun s l => [srcWord s a.toNat 0 l, one (srcWord s a.toNat 1 l)]) s
  else bitWord d a 1 1 [] (fun s l => [if m = 0 then one (src s a l) else two (src s a l)]) s

/-- `FNEG` (R101). -/
def execFneg (m : BitVec 5) (d a : BitVec 8) (s : State) : Host.Outcome State Fault Refusal :=
  .next (signWord m d a (fun x => x ^^^ 0x80000000) (fun x => x ^^^ 0x80008000) s)

/-- `FABS` (R101). -/
def execFabs (m : BitVec 5) (d a : BitVec 8) (s : State) : Host.Outcome State Fault Refusal :=
  .next (signWord m d a (fun x => x &&& 0x7FFFFFFF) (fun x => x &&& 0x7FFF7FFF) s)

/-- The hint of a special function must give mode 0 (R77, R102). -/
def modeZero (s : State) : Bool :=
  match (curHints s).rnd with
  | some r => decide (r.mode = 0)
  | none => true

/-- An FP32 special function: variable latency, correctly rounded (R77, R85, R102). -/
def specialWord (d a : BitVec 8) (f : Fmt → Ctl → FVal → Nat) (s : State) : State :=
  vecVar (vecNeed s d.toNat 1 [(a.toNat, 1)] (modeZero s) false false [10] true) d.toNat 1
    (fun s l => let c := ctlOf s l 0; [BitVec.ofNat 32 (f fp32 c (fp32.input c.ftz (src s a l).toNat))]) s

/-- An FP64 special function on pairs (R102). -/
def specialWord64 (d a : BitVec 8) (f : Fmt → Ctl → FVal → Nat) (s : State) : State :=
  vecVar (vecNeed s d.toNat 2 [(a.toNat, 2)] (modeZero s) false false [1, 10] true) d.toNat 2
    (fun s l => let c := ctlOf s l 0; let n := f fp64 c (fp64.input c.ftz (src64 s a l)); [loWord n, hiWord n]) s

/-- `FRCP` (R102). -/
def execFrcp (d a : BitVec 8) (s : State) : Host.Outcome State Fault Refusal := .next (specialWord d a recip s)
/-- `FRSQ` (R102). -/
def execFrsq (d a : BitVec 8) (s : State) : Host.Outcome State Fault Refusal := .next (specialWord d a rsqrtF s)
/-- `FSQRT` (R102). -/
def execFsqrt (d a : BitVec 8) (s : State) : Host.Outcome State Fault Refusal := .next (specialWord d a sqrtF s)
/-- `FEXP2` (R102). -/
def execFexp2 (d a : BitVec 8) (s : State) : Host.Outcome State Fault Refusal := .next (specialWord d a exp2F s)
/-- `FLOG2` (R102). -/
def execFlog2 (d a : BitVec 8) (s : State) : Host.Outcome State Fault Refusal := .next (specialWord d a log2F s)
/-- `FSINP` (R102). -/
def execFsinp (d a : BitVec 8) (s : State) : Host.Outcome State Fault Refusal := .next (specialWord d a sinPiF s)
/-- `FCOSP` (R102). -/
def execFcosp (d a : BitVec 8) (s : State) : Host.Outcome State Fault Refusal := .next (specialWord d a cosPiF s)
/-- `FTANH` (R102). -/
def execFtanh (d a : BitVec 8) (s : State) : Host.Outcome State Fault Refusal := .next (specialWord d a tanhF s)
/-- `DSQRT` (R102). -/
def execDsqrt (d a : BitVec 8) (s : State) : Host.Outcome State Fault Refusal := .next (specialWord64 d a sqrtF s)
/-- `DRCP` (R102). -/
def execDrcp (d a : BitVec 8) (s : State) : Host.Outcome State Fault Refusal := .next (specialWord64 d a recip s)

/-- An FP32 value rounded to an integral value in a mode; a zero result keeps the sign (R103). -/
def frint (mode : Nat) (x : Word) : Word :=
  match f32 x with
  | .nan => 0x7FC00000
  | .inf _ => x
  | .fin s m e => if m = 0 then x else rne32 (.fin s (roundNat { mode := mode } s m e) 0)

/-- `FRINT` (R103). -/
def execFrint (m : BitVec 5) (d a : BitVec 8) (s : State) : Host.Outcome State Fault Refusal :=
  .next (vec2 false d a (fun _ _ x => frint m.toNat x) s)

/-- A - floor(A) rounded down, a zero result as +0 (R103). -/
def ffrac (x : Word) : Word :=
  match f32 x with
  | .fin s m e =>
    if e ≥ 0 then 0
    else
      let den := 2 ^ (-e).toNat
      let r := m % den
      if r = 0 then 0
      else BitVec.ofNat 32 (fp32.roundFin { mode := 3 } false (if s then den - r else r) e false)
  | _ => 0x7FC00000

/-- `FFRAC` (R103). -/
def execFfrac (d a : BitVec 8) (s : State) : Host.Outcome State Fault Refusal := .next (vec2 false d a (fun _ _ x => ffrac x) s)

/-- The class mask of a code (R104). -/
def classMask (f : Fmt) (code : Nat) : Word :=
  match f.decode code with
  | .nan => 0x100
  | .inf s => if s then 0x001 else 0x080
  | .fin s m _ =>
    if m = 0 then (if s then 0x008 else 0x010)
    else if m < 2 ^ f.mb then (if s then 0x004 else 0x020)
    else (if s then 0x002 else 0x040)

/-- `FCLASS` (R104). -/
def execFclass (m : BitVec 5) (d a : BitVec 8) (s : State) : Host.Outcome State Fault Refusal :=
  .next (if m = 1 then bitWord d a 1 2 [1] (fun s l => [classMask fp64 (src64 s a l)]) s
    else bitWord d a 1 1 [] (fun s l => [classMask fp32 (src s a l).toNat]) s)

/-- Ranges of the integer targets (R76). -/
def s32Range : Int × Int := (-2147483648, 2147483647)
def u32Range : Int × Int := (0, 4294967295)
def s64Range : Int × Int := (-9223372036854775808, 9223372036854775807)
def u64Range : Int × Int := (0, 18446744073709551615)

/-- The number of a conversion's result for the source number, with the rounding of element `k` (R105, R106). -/
def convert (m : Nat) (c : Nat → Ctl) (n : Nat) : Nat :=
  let h (k : Nat) : Nat := n / 2 ^ (16 * k) % 65536
  let w (k : Nat) : Nat := n / 2 ^ (32 * k) % 2 ^ 32
  let c0 := c 0
  let from32 := fp32.input c0.ftz (w 0)
  let from64 := fp64.input c0.ftz n
  let toS (r : Int × Int) (v : FVal) (bits : Nat) : Nat := (BitVec.ofInt bits (v.toInt c0 r.1 r.2)).toNat
  match m with
  | 0 => toS s32Range from32 32
  | 1 => toS u32Range from32 32
  | 2 => fp32.round c0 (FVal.ofInt (signedOf 32 n))
  | 3 => fp32.round c0 (FVal.ofInt (w 0))
  | 4 => fp16.round c0 from32
  | 5 => bf16.round c0 from32
  | 6 => fp32.round c0 (fp16.input c0.ftz (h 0))
  | 7 => fp32.round c0 (bf16.input c0.ftz (h 0))
  | 8 => fp32.round c0 (fp16.input c0.ftz (h 1))
  | 9 => fp32.round c0 (bf16.input c0.ftz (h 1))
  | 10 => fp16.round c0 (fp32.input c0.ftz (w 0)) + 65536 * fp16.round (c 1) (fp32.input c0.ftz (w 1))
  | 11 => bf16.round c0 (fp32.input c0.ftz (w 0)) + 65536 * bf16.round (c 1) (fp32.input c0.ftz (w 1))
  | 12 => fp64.round c0 from32
  | 13 => fp32.round c0 from64
  | 14 => toS s32Range from64 32
  | 15 => toS u32Range from64 32
  | 16 => fp64.round c0 (FVal.ofInt (signedOf 32 n))
  | 17 => fp64.round c0 (FVal.ofInt (w 0))
  | 18 => toS s64Range from64 64
  | 19 => fp64.round c0 (FVal.ofInt (signedOf 64 n))
  | 20 => toS s64Range from32 64
  | 21 => fp32.round c0 (FVal.ofInt (signedOf 64 n))
  | 22 => toS u64Range from64 64
  | 23 => fp64.round c0 (FVal.ofInt n)
  | 24 => toS u64Range from32 64
  | 25 => fp32.round c0 (FVal.ofInt n)
  | 26 => fp32.round c0 (fp16.input c0.ftz (h 0)) + 2 ^ 32 * fp32.round (c 1) (fp16.input c0.ftz (h 1))
  | 27 => fp32.round c0 (bf16.input c0.ftz (h 0)) + 2 ^ 32 * fp32.round (c 1) (bf16.input c0.ftz (h 1))
  | 28 => fp16.round c0 (FVal.ofInt (signedOf 32 n))
  | 29 => toS s32Range (fp16.input c0.ftz (h 0)) 32
  | 30 => (BitVec.ofInt 64 (signedOf 32 n)).toNat
  | _ => w 0

/-- The widths of a conversion in words (R105). -/
def cvtD (m : Nat) : Nat := if [12, 16, 17, 18, 19, 20, 22, 23, 24, 26, 27, 30, 31].contains m then 2 else 1
def cvtA (m : Nat) : Nat := if [10, 11, 13, 14, 15, 18, 19, 21, 22, 23, 25].contains m then 2 else 1
/-- The conversions that need feature bit 1 (R105). -/
def cvtF1 (m : Nat) : List Nat := if [12, 13, 14, 15, 16, 17, 18, 19, 22, 23].contains m then [1] else []

/-- The conversions that are exact for every source: the mode and the seed have no effect (R106). -/
def cvtExact (m : Nat) : Bool := [6, 7, 8, 9, 12, 16, 17, 26, 27, 30, 31].contains m

/-- `CVT` (R105, R106). -/
def execCvt (m : BitVec 5) (d a : BitVec 8) (s : State) : Host.Outcome State Fault Refusal :=
  let dw := cvtD m.toNat
  let aw := cvtA m.toNat
  .next (vecFixed (vecNeed s d.toNat dw [(a.toNat, aw)] true false false (cvtF1 m.toNat) false (!cvtExact m.toNat)) d.toNat dw
    (fun s l =>
      let n := if aw = 2 then src64 s a l else (src s a l).toNat
      let r := convert m.toNat (ctlOf s l) n
      (List.range dw).map fun i => BitVec.ofNat 32 (r / 2 ^ (32 * i))) s)

/-- The companding table in force for the workgroup (R69); a routine has none of its own and uses the default. -/
def compandOf (s : State) : List Word :=
  match findWg s.grp.wg s with
  | some w => w.compand
  | none => cpDefault

/-- `QNT` (R107). -/
def execQnt (f : BitVec 3) (p : BitVec 2) (d a : BitVec 8) (s : State) : Host.Outcome State Fault Refusal :=
  .next (vecFixed (vecNeed s d.toNat 1 [(a.toNat, 1)] true false false (if f = 0 then [8] else []) false) d.toNat 1
    (fun s l =>
      let c := ctlOf s l 0
      [placeNarrow f.toNat p.toNat (quantise c (compandOf s) f.toNat (fp32.input c.ftz (src s a l).toNat))
        (srcWord s d.toNat 0 l)]) s)

/-- `DQNT` (R108). -/
def execDqnt (f : BitVec 3) (p : BitVec 2) (d a : BitVec 8) (s : State) : Host.Outcome State Fault Refusal :=
  .next (vecFixed (vecNeed s d.toNat 1 [(a.toNat, 1)] false false false (if f = 0 then [8] else []) false) d.toNat 1
    (fun s l => [rne32 (readNarrow (compandOf s) f.toNat p.toNat (src s a l))]) s)

/-- The number of 1 bits below bit `n`. -/
def popcount (x : Word) : Nat → Nat
  | 0 => 0
  | n + 1 => popcount x n + (if x.getLsbD n then 1 else 0)

/-- `POPC` (R109). -/
def execPopc (d a : BitVec 8) (s : State) : Host.Outcome State Fault Refusal :=
  .next (vec2 false d a (fun _ _ x => BitVec.ofNat 32 (popcount x 32)) s)
/-- `CLZ` (R109). -/
def execClz (d a : BitVec 8) (s : State) : Host.Outcome State Fault Refusal :=
  .next (vec2 false d a (fun _ _ x => if x = 0 then 32 else BitVec.ofNat 32 (31 - Nat.log2 x.toNat)) s)
/-- `BREV` (R109). -/
def execBrev (d a : BitVec 8) (s : State) : Host.Outcome State Fault Refusal := .next (vec2 false d a (fun _ _ x => x.reverse) s)
/-- `BFIND` (R109). -/
def execBfind (d a : BitVec 8) (s : State) : Host.Outcome State Fault Refusal :=
  .next (vec2 false d a (fun _ _ x => if x = 0 then 0xFFFFFFFF else BitVec.ofNat 32 (Nat.log2 x.toNat)) s)
/-- `INEG` (R109). -/
def execIneg (d a : BitVec 8) (s : State) : Host.Outcome State Fault Refusal := .next (vec2 false d a (fun _ _ x => 0 - x) s)
/-- `IABS` (R109). -/
def execIabs (d a : BitVec 8) (s : State) : Host.Outcome State Fault Refusal :=
  .next (vec2 false d a (fun _ _ x => if x.getLsbD 31 then 0 - x else x) s)

end Sys2Proof.Machine
end

