-- ==== Sys2Proof/Machine/TailorWords.lean ====
section
/-!
DEFINITION. What the Tailor (R172 to R189) knows of each word: the registers it reads and writes, where its operand codes stand,
whether it may be folded and how it is evaluated at launch; and the words that materialise a value (R183).
-/

namespace Sys2Proof.Machine

/-! ### Register keys: V, K, S, B and closure registers in one numbering -/

def kKey (n : Nat) : Nat := 0x100 + n
def sKey (n : Nat) : Nat := 0x200 + n
def bKey (n : Nat) : Nat := 0x300 + n
def gKey (n : Nat) : Nat := 0x400 + n
def isVK (k : Nat) : Bool := decide (k < 0x200)
def isSKey (k : Nat) : Bool := decide (0x200 ≤ k) && decide (k < 0x300)
def isBKey (k : Nat) : Bool := decide (0x300 ≤ k) && decide (k < 0x400)

/-- The V or K registers of an operand code of `w` words. -/
def codeKeys (w c : Nat) : List Nat :=
  if c ≤ 0xDF then (List.range w).map fun i => c + i
  else if c ≤ 0xE7 then (List.range w).map fun i => kKey (c - 0xE0 + i)
  else []

/-- A run of keys. -/
def runKeys (k n : Nat) : List Nat := (List.range n).map fun i => k + i

/-- An operand code of a word: the code, its width in words, the lowest bit of its field. -/
structure TOp where
  code : Nat
  width : Nat
  bit : Nat
  deriving DecidableEq, Repr

/-- What a word touches: source operand codes, a destination of V or K registers that only the active lanes write, whether the
destination is also a source, other registers read and written, whether it writes the last-result file, whether `IMM` may
stand for a source (1; 2: from `XIMMF` only), and variable latency. -/
structure TIo where
  ops : List TOp := []
  dst : Option (Nat × Nat) := none
  readsD : Bool := false
  rd : List Nat := []
  wr : List Nat := []
  push : Bool := false
  subst : Nat := 0
  varlat : Bool := false
  deriving DecidableEq, Repr

/-- A vector word of three operands (classes 2 to 6). -/
def io3 (w : Word) (n : Nat) (readsD : Bool) : TIo :=
  { ops := [⟨bitsOf w 15 8, n, 8⟩, ⟨bitsOf w 7 0, n, 0⟩], dst := some (bitsOf w 23 16, n), readsD := readsD, push := true, subst := 1 }

/-- A class 7 word. -/
def io2 (w : Word) (dw aw : Nat) (readsD varlat : Bool) : TIo :=
  { ops := [⟨bitsOf w 7 0, aw, 0⟩], dst := some (bitsOf w 15 8, dw), readsD := readsD, push := !varlat, subst := 1, varlat := varlat }

/-- Class 7 by instruction. -/
def io7 (w : Word) : Instr → TIo
  | .mov _ m _ _ => let n := if m = 0 then 1 else if m = 1 then 2 else 4; io2 w n n false false
  | .fneg _ m _ _ => let n := if m = 1 then 2 else 1; io2 w n n false false
  | .fabs _ m _ _ => let n := if m = 1 then 2 else 1; io2 w n n false false
  | .fclass _ m _ _ => io2 w 1 (if m = 1 then 2 else 1) false false
  | .cvt _ m _ _ => io2 w (cvtD m.toNat) (cvtA m.toNat) false false
  | .qnt _ _ _ _ _ => io2 w 1 1 true false
  | .frcp _ _ _ => io2 w 1 1 false true
  | .frsq _ _ _ => io2 w 1 1 false true
  | .fsqrt _ _ _ => io2 w 1 1 false true
  | .fexp2 _ _ _ => io2 w 1 1 false true
  | .flog2 _ _ _ => io2 w 1 1 false true
  | .fsinp _ _ _ => io2 w 1 1 false true
  | .fcosp _ _ _ => io2 w 1 1 false true
  | .ftanh _ _ _ => io2 w 1 1 false true
  | .dsqrt _ _ _ => io2 w 2 2 false true
  | .drcp _ _ _ => io2 w 2 2 false true
  | _ => io2 w 1 1 false false

/-- A load or store: the buffer, the data run, the index. -/
def ioMem (n d w x : Nat) (isLoad : Bool) : TIo :=
  if isLoad then { dst := some (d, w), rd := [x, bKey n], varlat := true } else { rd := [x, bKey n] ++ runKeys d w }

/-- An atomic: `DV` is an operand code, and a destination when it names a V register (R229). -/
def ioAtomic (n d x : Nat) (extra : Bool) : TIo :=
  { ops := [⟨d, 1, 10⟩], dst := if d ≤ 0xDF then some (d, 1) else none, rd := [x, bKey n] ++ (if extra then [d + 1] else [])
    subst := if d ≤ 0xDF then 0 else 2, varlat := decide (d ≤ 0xDF) }

/-- The other words, by instruction. -/
def ioOther : Instr → TIo
  | .cmov _ _ d a => { ops := [⟨a.toNat, 1, 0⟩], dst := some (d.toNat, 1), readsD := true, push := true, subst := 1 }
  | .shfl _ k d a => { ops := [⟨a.toNat, 1, 0⟩], dst := some (d.toNat, 1), readsD := true, rd := [kKey k.toNat], push := true, subst := 1 }
  | .shflXor _ _ d a => { ops := [⟨a.toNat, 1, 0⟩], dst := some (d.toNat, 1), readsD := true, push := true, subst := 1 }
  | .shflUp _ _ d a => { ops := [⟨a.toNat, 1, 0⟩], dst := some (d.toNat, 1), readsD := true, push := true, subst := 1 }
  | .shflDn _ _ d a => { ops := [⟨a.toNat, 1, 0⟩], dst := some (d.toNat, 1), readsD := true, push := true, subst := 1 }
  | .shflIdx _ _ d a => { ops := [⟨a.toNat, 1, 0⟩], dst := some (d.toNat, 1), readsD := true, push := true, subst := 1 }
  | .ballot _ r a => { ops := [⟨a.toNat, 1, 0⟩], wr := runKeys (sKey r.toNat) 2, subst := 1 }
  | .gred _ r _ a => { ops := [⟨a.toNat, 1, 0⟩], wr := [sKey r.toNat], subst := 1 }
  | .mmov _ r _ a => if r = 0 then { wr := runKeys (sKey a.toNat) 2 } else { rd := runKeys (sKey a.toNat) 2 }
  | .saddi _ d a _ => { rd := [sKey a.toNat], wr := [sKey d.toNat] }
  | .smovi _ d _ => { wr := [sKey d.toNat] }
  | .smovhi _ d _ => { rd := [sKey d.toNat], wr := [sKey d.toNat] }
  | .vread _ d a v => { rd := [sKey a.toNat, v.toNat], wr := [sKey d.toNat] }
  | .sldc _ d a n _ => { rd := [sKey a.toNat, bKey n.toNat], wr := [sKey d.toNat], varlat := true }
  | .sldlit _ d _ => { wr := [sKey d.toNat] }
  | .csrr _ d _ => { wr := [sKey d.toNat] }
  | .csrw _ a _ => { rd := [sKey a.toNat] }
  | .ld _ n d x z => ioMem n.toNat d.toNat (szWords z) x.toNat true
  | .st _ n d x z => ioMem n.toNat d.toNat (szWords z) x.toNat false
  | .ldb _ n d x _ => ioMem n.toNat d.toNat 1 x.toNat true
  | .ldh _ n d x _ => ioMem n.toNat d.toNat 1 x.toNat true
  | .stb _ n d x => ioMem n.toNat d.toNat 1 x.toNat false
  | .sth _ n d x => ioMem n.toNat d.toNat 1 x.toNat false
  | .ldx _ n d x z => ioMem n.toNat d.toNat (szWords z) x.toNat true
  | .stx _ n d x z => ioMem n.toNat d.toNat (szWords z) x.toNat false
  | .pref _ n x _ => { rd := [x.toNat, bKey n.toNat] }
  | .evict _ n x _ => { rd := [x.toNat, bKey n.toNat] }
  | .bload _ n b x => { rd := [x.toNat, bKey b.toNat], wr := [bKey n.toNat] }
  | .bset _ n a => { rd := runKeys (sKey a.toNat) 4, wr := [bKey n.toNat] }
  | .copy _ c d k a => { rd := runKeys (sKey a.toNat) 3 ++ [bKey c.toNat, bKey d.toNat], wr := [sKey k.toNat] }
  | .sealBatch _ d => { wr := [sKey d.toNat] }
  | .waitb _ a => { rd := [sKey a.toNat] }
  | .append _ _ d x => { dst := some (d.toNat, 1), rd := [x.toNat], push := true }
  | .brs _ a _ => { rd := [sKey a.toNat] }
  | .brsz _ a _ => { rd := [sKey a.toNat] }
  | .call _ _ => { dst := some (0xE7, 1) }
  | .ret _ => { rd := [kKey 7] }
  | .jmpi _ a _ => { ops := [⟨a.toNat, 1, 8⟩] }
  | .calli _ a _ => { ops := [⟨a.toNat, 1, 8⟩], dst := some (0xE7, 1) }
  | .spawn _ a => { rd := runKeys (sKey a.toNat) 2 }
  | .lobe _ y g p x => { rd := runKeys p.toNat (lobeReads y.toNat) ++ [x.toNat, gKey g.toNat] }
  | .lmix _ g h x => { rd := [x.toNat, gKey g.toNat, gKey h.toNat] }
  | .layer _ g h x => { rd := [x.toNat, gKey g.toNat, gKey h.toNat] }
  | .lscl _ g x => { rd := [x.toNat, gKey g.toNat] }
  | .frame _ g n => { rd := runKeys n.toNat 9 ++ [gKey g.toNat] }
  | .cclr _ g => { rd := [gKey g.toNat] }
  | .samp _ g d u => { dst := some (d.toNat, 8), rd := runKeys u.toNat 3 ++ [gKey g.toNat], varlat := true }
  | .eval _ g d x => { dst := some (d.toNat, 4), rd := runKeys x.toNat 3 ++ [gKey g.toNat], varlat := true }
  | .pdf _ g d x => { dst := some (d.toNat, 1), rd := runKeys x.toNat 3 ++ [gKey g.toNat], varlat := true }
  | .csave _ g n x => { rd := [x.toNat, bKey n.toNat, gKey g.toNat] }
  | .cload _ g n x => { rd := [x.toNat, bKey n.toNat], wr := [gKey g.toNat], varlat := true }
  | .trace _ k h r => { dst := some (h.toNat, 5), rd := runKeys r.toNat 8 ++ [bKey 29], wr := [sKey k.toNat] }
  | .tracep _ k h r => { dst := some (h.toNat, 5), rd := runKeys r.toNat 8 ++ [bKey 29], wr := [sKey k.toNat] }
  | .visq _ k v => { rd := runKeys v.toNat 5 ++ runKeys (bKey 26) 4, wr := [sKey k.toNat] }
  | .pslot _ d _ => { dst := some (d.toNat, 1), push := true }
  | .pfree _ d _ => { rd := [d.toNat] }
  | .qpush _ q v m => { rd := [sKey q.toNat, v.toNat, m.toNat] }
  | .regrp _ _ v => { rd := [v.toNat] }
  | .tfeed _ t _ f => { rd := [sKey t.toNat, f.toNat] }
  | .tdrain _ a d _ => { dst := some (d.toNat, 16), rd := [sKey a.toNat], varlat := true }
  | .trel _ a => { rd := [sKey a.toNat] }
  | .snap _ a _ => { rd := [sKey a.toNat] }
  | _ => {}

/-- What a word touches. -/
def ioOf (w : Word) (i : Instr) : TIo :=
  let c := bitsOf w 31 28
  if c = 2 ∨ c = 3 ∨ c = 4 ∨ c = 5 ∨ c = 6 then
    io3 w (match i with
      | .dadd _ _ _ _ => 2
      | .dmul _ _ _ _ => 2
      | .dmac _ _ _ _ => 2
      | _ => 1)
      (match i with
      | .fmac _ _ _ _ => true
      | .fmsb _ _ _ _ => true
      | .imac _ _ _ _ => true
      | .hmac2 _ _ _ _ => true
      | .bmac2 _ _ _ _ => true
      | .dmac _ _ _ _ => true
      | .dot4 _ _ _ _ => true
      | .dot8 _ _ _ _ => true
      | .hdot2 _ _ _ _ => true
      | .prmt _ _ _ _ => true
      | _ => false)
  else if c = 7 then io7 w i
  else if c = 8 then { ops := [⟨bitsOf w 14 7, 1, 7⟩], dst := some (bitsOf w 22 15, 1), push := true }
  else if c = 9 ∧ bitsOf w 26 22 ≤ 17 then { ops := [⟨bitsOf w 15 8, 1, 8⟩, ⟨bitsOf w 7 0, 1, 0⟩], subst := 1 }
  else if c = 10 ∧ (bitsOf w 26 22 ≤ 10 ∨ bitsOf w 26 22 = 14) then
    { rd := [sKey (bitsOf w 15 10), sKey (bitsOf w 9 4)], wr := [sKey (bitsOf w 21 16)] }
  else if c = 12 ∧ bitsOf w 26 23 ≤ 10 then
    ioAtomic (bitsOf w 22 18) (bitsOf w 17 10) (bitsOf w 9 2) (decide (bitsOf w 26 23 = 9))
  else ioOther i

/-- The image that a `TFEED` reads (R115, R126): of the widest format when the format word is not known; none for another word. -/
def feedImage (vregs : Nat) (fmt : Option Nat) : Instr → List Nat
  | .tfeed _ _ v _ => (runKeys v.toNat (match fmt with
      | some f => fmtRegs f
      | none => 34)).filter fun k => decide (k < vregs)
  | _ => []

/-- A word that may stand only at the end of its clause (R43). -/
def endsClause : Instr → Bool
  | .bra _ _ => true
  | .brm _ _ _ => true
  | .brmn _ _ _ => true
  | .brs _ _ _ => true
  | .brsz _ _ _ => true
  | .call _ _ => true
  | .ret _ => true
  | .jmpi _ _ _ => true
  | .calli _ _ _ => true
  | .join _ _ => true
  | .bar _ _ => true
  | .exit _ => true
  | .yield _ => true
  | .chwait _ => true
  | .regrp _ _ _ => true
  | _ => false

/-- The offset of a direct target, and the place of its field: width and lowest bit (R46, R287). -/
def directOf (h : Hints) : Instr → Option (Int × Nat × Nat)
  | .bra _ o => some ((effImm h 18 true o).toInt, 18, 0)
  | .brm _ _ o => some ((effImm h 18 true o).toInt, 18, 0)
  | .brmn _ _ o => some ((effImm h 18 true o).toInt, 18, 0)
  | .brs _ _ o => some ((effImm h 16 true o).toInt, 16, 0)
  | .brsz _ _ o => some ((effImm h 16 true o).toInt, 16, 0)
  | .call _ o => some ((effImm h 18 true o).toInt, 18, 0)
  | .regrp _ o _ => some ((effImm h 12 true o).toInt, 12, 8)
  | _ => none

/-! ### Evaluating a word at launch (R176, R177) -/

/-- The meaning of a word that may be folded by its sources alone, and of `BSET`. -/
def foldRun : Instr → Option (State → Host.Outcome State Fault Refusal)
  | .fadd _ d a b => some (execFadd d a b)
  | .fsub _ d a b => some (execFsub d a b)
  | .fmul _ d a b => some (execFmul d a b)
  | .fmac _ d a b => some (execFmac d a b)
  | .fmsb _ d a b => some (execFmsb d a b)
  | .fmin _ d a b => some (execFmin d a b)
  | .fmax _ d a b => some (execFmax d a b)
  | .fcps _ d a b => some (execFcps d a b)
  | .iadd _ d a b => some (execIadd d a b)
  | .isub _ d a b => some (execIsub d a b)
  | .imul _ d a b => some (execImul d a b)
  | .imulh _ d a b => some (execImulh d a b)
  | .umulh _ d a b => some (execUmulh d a b)
  | .imac _ d a b => some (execImac d a b)
  | .imin _ d a b => some (execImin d a b)
  | .imax _ d a b => some (execImax d a b)
  | .and _ d a b => some (execAnd d a b)
  | .or _ d a b => some (execOr d a b)
  | .xor _ d a b => some (execXor d a b)
  | .andn _ d a b => some (execAndn d a b)
  | .shl _ d a b => some (execShl d a b)
  | .shr _ d a b => some (execShr d a b)
  | .sar _ d a b => some (execSar d a b)
  | .rot _ d a b => some (execRot d a b)
  | .hadd2 _ d a b => some (execHadd2 d a b)
  | .hmul2 _ d a b => some (execHmul2 d a b)
  | .hmac2 _ d a b => some (execHmac2 d a b)
  | .badd2 _ d a b => some (execBadd2 d a b)
  | .bmul2 _ d a b => some (execBmul2 d a b)
  | .bmac2 _ d a b => some (execBmac2 d a b)
  | .umin _ d a b => some (execUmin d a b)
  | .umax _ d a b => some (execUmax d a b)
  | .dadd _ d a b => some (execDadd d a b)
  | .dmul _ d a b => some (execDmul d a b)
  | .dmac _ d a b => some (execDmac d a b)
  | .dot4 _ d a b => some (execDot4 d a b)
  | .dot8 _ d a b => some (execDot8 d a b)
  | .hdot2 _ d a b => some (execHdot2 d a b)
  | .prmt _ d a b => some (execPrmt d a b)
  | .rnd _ d a b => some (execRnd d a b)
  | .mov _ m d a => some (execMov m d a)
  | .fneg _ m d a => some (execFneg m d a)
  | .fabs _ m d a => some (execFabs m d a)
  | .frcp _ d a => some (execFrcp d a)
  | .frsq _ d a => some (execFrsq d a)
  | .fsqrt _ d a => some (execFsqrt d a)
  | .fexp2 _ d a => some (execFexp2 d a)
  | .flog2 _ d a => some (execFlog2 d a)
  | .fsinp _ d a => some (execFsinp d a)
  | .fcosp _ d a => some (execFcosp d a)
  | .ftanh _ d a => some (execFtanh d a)
  | .frint _ m d a => some (execFrint m d a)
  | .ffrac _ d a => some (execFfrac d a)
  | .fclass _ m d a => some (execFclass m d a)
  | .cvt _ m d a => some (execCvt m d a)
  | .qnt _ f p d a => some (execQnt f p d a)
  | .dqnt _ f p d a => some (execDqnt f p d a)
  | .popc _ d a => some (execPopc d a)
  | .clz _ d a => some (execClz d a)
  | .brev _ d a => some (execBrev d a)
  | .bfind _ d a => some (execBfind d a)
  | .ineg _ d a => some (execIneg d a)
  | .iabs _ d a => some (execIabs d a)
  | .dsqrt _ d a => some (execDsqrt d a)
  | .drcp _ d a => some (execDrcp d a)
  | .iaddi _ d a i => some (execIaddi d a i)
  | .imuli _ d a i => some (execImuli d a i)
  | .shli _ d a n => some (execShli d a n)
  | .shri _ d a n => some (execShri d a n)
  | .sari _ d a n => some (execSari d a n)
  | .andi _ d a i => some (execAndi d a i)
  | .ori _ d a i => some (execOri d a i)
  | .xori _ d a i => some (execXori d a i)
  | .movi _ d i => some (execMovi d i)
  | .sadd _ d a b => some (execSadd d a b)
  | .ssub _ d a b => some (execSsub d a b)
  | .smul _ d a b => some (execSmul d a b)
  | .sand _ d a b => some (execSand d a b)
  | .sor _ d a b => some (execSor d a b)
  | .sxor _ d a b => some (execSxor d a b)
  | .sshl _ d a b => some (execSshl d a b)
  | .sshr _ d a b => some (execSshr d a b)
  | .ssar _ d a b => some (execSsar d a b)
  | .smin _ d a b => some (execSmin d a b)
  | .smax _ d a b => some (execSmax d a b)
  | .saddi _ d a i => some (execSaddi d a i)
  | .smovi _ d i => some (execSmovi d i)
  | .smovhi _ d i => some (execSmovhi d i)
  | .sset _ d a b c => some (execSset d a b c)
  | .csrr _ d c => some (execCsrr d c)
  | .bset _ n a => some (execBset n a)
  | _ => none

/-- The words of R176 that are never folded whatever their sources: SR rounding, companding formats, other CSRs. -/
def foldBarred (h : Hints) : Instr → Bool
  | .qnt _ f _ _ _ => decide (f = 0) || decide ((h.rnd.map fun r => r.mode) = some 5)
  | .dqnt _ f _ _ _ => decide (f = 0)
  | .csrr _ _ c => !(decide (0x10 ≤ c.toNat) && decide (c.toNat ≤ 0x13))
  | _ => decide ((h.rnd.map fun r => r.mode) = some 5)

/-- A register by its key, in the one lane of a launch-time evaluation. -/
def keyGet (g : Group) (k : Nat) : Nat :=
  if k < 0x100 then (getV g k 0).toNat
  else if k < 0x200 then (getK g (k - 0x100) 0).toNat
  else if k < 0x300 then (getS g (k - 0x200)).toNat
  else (getB g (k - 0x300)).toNat

def keySet (k x : Nat) (g : Group) : Group :=
  if k < 0x100 then setV k 0 (BitVec.ofNat 32 x) g
  else if k < 0x200 then setK (k - 0x100) 0 (BitVec.ofNat 32 x) g
  else if k < 0x300 then setS (k - 0x200) (BitVec.ofNat 32 x) g
  else setB (k - 0x300) (BitVec.ofNat 128 x) g

/-- A group of one lane that holds some values and stands at a word, with a handler present so that a trap only stops it. -/
def foldState (code : Code) (vals : List (Nat × Nat)) (pos : Pos) : State :=
  { ctxs := [{ handlerVa := some 0 }]
    grp := vals.foldl (fun g p => keySet p.1 p.2 g)
      { uid := 1, width := 1, exist := 1, live := 1, code := { code with residual := none }
        act := some { pc := pos.hdr + 4, mask := 1, pos := some pos } } }

/-- The group after a word that completes; none where it traps or waits. -/
def foldResult (r : Host.Outcome State Fault Refusal) : Option Group :=
  match r with
  | .next s => if s.grp.stop = .running ∧ s.grp.stall = .none then some (completeOps s.grp) else none
  | _ => none

/-! ### Materialisation (R183) -/

/-- The word of an instruction. -/
def wordOfInstr (i : Instr) : Word := (encode i).getD 0

/-- A value that `MOVI`'s own field gives, and one that `XIMM` extends. -/
def fitsSigned (n : Nat) (x : Word) : Bool := decide (-(2 ^ (n - 1) : Int) ≤ x.toInt) && decide (x.toInt < 2 ^ (n - 1))

/-- `XIMM` for a field of `k` bits. -/
def ximmWord (k : Nat) (x : Word) : Word := wordOfInstr (.ximm ((x.sshiftRight k).setWidth 22))
def ximmfWord (x : Word) : Word := wordOfInstr (.ximmf ((x >>> 10).setWidth 22))

/-- The shortest sequence for a V or K register by its operand code. -/
def matVK (c : Nat) (x : Word) : List Word :=
  let d := BitVec.ofNat 8 c
  let movi := wordOfInstr (.movi 0 d (x.setWidth 7))
  let mov := wordOfInstr (.mov 0 0 d 0xFC)
  if fitsSigned 7 x then [movi]
  else if fitsSigned 29 x then [ximmWord 7 x, movi]
  else if x.setWidth 10 = 0 then [ximmfWord x, mov]
  else [ximmfWord x, mov, ximmWord 7 (x &&& 0x3FF), wordOfInstr (.ori 0 d d ((x &&& 0x3FF).setWidth 7))]

/-- The words of a sequence that write the last-result file. -/
def matPushes (ws : List Word) : Nat := if ws.length = 4 then 2 else 1

/-- The shortest sequence for an S register. -/
def matS (n : Nat) (x : Word) : List Word :=
  let d := BitVec.ofNat 6 n
  if fitsSigned 16 x then [wordOfInstr (.smovi 0 d (x.setWidth 16))]
  else [wordOfInstr (.smovi 0 d (x.setWidth 16)), wordOfInstr (.smovhi 0 d ((x >>> 16).setWidth 16))]

/-- The operand code of a V or K key. -/
def keyCode (k : Nat) : Nat := if k < 0x100 then k else 0xE0 + (k - 0x100)

/-- The hint that makes `IMM` a value (R183), if one word does. -/
def immHint (immfOnly : Bool) (x : Word) : Option Word :=
  if x.setWidth 10 = 0 then some (ximmfWord x)
  else if fitsSigned 22 x && !immfOnly then some (ximmWord 0 x)
  else none

end Sys2Proof.Machine
end

