-- ==== Sys2Proof/Machine/TailorWalk.lean ====
section
/-!
DEFINITION. The Tailor's walk through one clause (R173 to R185): what it knows at a point, how a word is folded or emitted, and what
a traversal of a clause comes to.
-/

namespace Sys2Proof.Machine

/-! ### What the walk knows -/

/-- A place of the walk: a clause, the unrolled loops around it with their copies (outermost first), and the head of the loop
region that is emitted as dynamic code around it (R181). -/
structure TNode where
  addr : Nat
  ctx : List (Nat × Nat)
  dyn : Option Nat
  deriving DecidableEq, Repr

/-- A fold: the traversal and the word's offset. -/
structure TFold where
  node : TNode
  off : Nat
  deriving DecidableEq, Repr

/-- A static register (R173): its value, whether the register itself holds it, whether a fold has written it (R185), and for a record the
`BSET` that made it. -/
structure TVal where
  val : Nat
  held : Bool
  folded : Bool := false
  bset : Option TFold := none
  deriving DecidableEq, Repr

/-- What is known at a point: the static registers by key, the marks of dynamic words (key and flag), the marks that folded words
would have set (R178), and the S registers that no word of the code reads. -/
structure TEnv where
  regs : Sparse TVal := []
  marks : List (Nat × Nat) := []
  fmarks : List (Nat × Nat × TFold) := []
  spare : List Nat := []
  deriving DecidableEq, Repr

/-- A list with the missing elements of another. -/
def unionList {α : Type} [DecidableEq α] (a b : List α) : List α := b.foldl (fun l x => if l.contains x then l else l ++ [x]) a

/-- Static on both paths with one value (R182). -/
def meetRegs (a b : Sparse TVal) : Sparse TVal :=
  a.filterMap fun p => match sfind p.1 b with
    | some v => if v.val = p.2.val then some (p.1, { p.2 with held := p.2.held && v.held, folded := p.2.folded || v.folded }) else none
    | none => none

/-- Two paths that meet. -/
def TEnv.meet (a b : TEnv) : TEnv :=
  { regs := meetRegs a.regs b.regs, marks := unionList a.marks b.marks, fmarks := unionList a.fmarks b.fmarks, spare := a.spare }

def TEnv.staticVal (e : TEnv) (k : Nat) : Option Nat := (sfind k e.regs).map fun v => v.val
def TEnv.put (e : TEnv) (k : Nat) (v : TVal) : TEnv := { e with regs := sins k v e.regs }
def TEnv.drop (e : TEnv) (ks : List Nat) : TEnv := { e with regs := e.regs.filter fun p => !ks.contains p.1 }

/-- The flags of a WAIT field. -/
def inWait (w : BitVec 12) (f : Nat) : Bool := w.getLsbD f

/-- The flags of some marks. -/
def flagsOf (ms : List (Nat × Nat)) : BitVec 12 := ms.foldl (fun w m => w ||| BitVec.ofNat 12 (2 ^ m.2)) 0

/-- Marks cleared by a header's WAIT (R42). -/
def TEnv.waitFor (w : BitVec 12) (e : TEnv) : TEnv :=
  { e with marks := e.marks.filter fun m => !inWait w m.2, fmarks := e.fmarks.filter fun m => !inWait w m.2.1 }

/-- How a loop entry is emitted (R181): unrolled, as plain code without copies because none of its backward branches is resolved,
or as a dynamic region because a limit was reached. -/
inductive TKind where
  | unrolled | plain | region
  deriving DecidableEq, Repr

/-- What earlier walks have decided: folds withheld (R178, R183), traversals emitted as the original clause, loop entries by head
and surrounding loops, and whether `REGRP` needs `XIMM` to reach its target. -/
structure TDec where
  withheld : List TFold := []
  raw : List TNode := []
  kinds : List ((Nat × List (Nat × Nat)) × TKind) := []
  /-- The dynamic regions that what is decided by now has been seen to leave so. -/
  sure : List (Nat × List (Nat × Nat)) := []
  wide : Bool := false
  deriving DecidableEq, Repr

def TDec.kindOf (d : TDec) (k : Nat × List (Nat × Nat)) : Option TKind := (d.kinds.find? fun p => p.1 = k).map fun p => p.2

/-! ### The original code -/

/-- A word of the original code (R179). -/
inductive TRead where
  | word (w : Word)
  | unread
  | beyond
  deriving DecidableEq, Repr

/-- A body word with the hints before it: the hint words with their offsets, what they say, the word, its offset, and its
instruction when it is one that takes hints. A `NOP` has no target (R46): it is a word of its own, but for one among hints. -/
structure TWord where
  pre : List (Word × Nat)
  h : Hints
  w : Word
  off : Nat
  instr : Option Instr
  deriving DecidableEq, Repr

/-- A Tailor run: the machine and the context, the code object, its words, the starting `B0`, the marked argument words, the
loops (head and the highest backward branch), the clauses of the entry table (R366) and the landing pads among them, and the S registers that
no word of the code reads. -/
structure TRun where
  s : State
  x : Context
  code : Code
  words : Array (Option Word)
  arg : BitVec 128
  marked : List (Nat × Word)
  queued : Bool
  wgs : Nat
  body : List (TWord × Nat) := []
  loops : List (Nat × Nat) := []
  entries : List Nat := []
  pads : List Nat := []
  spare : List Nat := []

def TRun.at (c : TRun) (pc : Nat) : TRead :=
  match c.words[pc / 4]? with
  | none => .beyond
  | some none => .unread
  | some (some w) => .word w

/-- The words of a body from an offset. -/
def TRun.reads (c : TRun) (pc : Nat) : Nat → List (Nat × TRead)
  | 0 => []
  | n + 1 => (pc, c.at pc) :: c.reads (pc + 4) n

/-- What a hint word adds (R46); none for another word. -/
def hintChange : Instr → Option (Hints → Hints)
  | .nop => some id
  | .ximm i => some fun h => { h with twice := h.twice || h.imm.isSome, imm := some i }
  | .ximmf i => some fun h => { h with twice := h.twice || h.immf.isSome, immf := some i }
  | .xscl r => some fun h => { h with twice := h.twice || h.scl.isSome, scl := some r }
  | .xrnd f s e m => some fun h =>
    { h with twice := h.twice || h.rnd.isSome, rnd := some { mode := m, seed := e, sat := decide (s = 1), ftz := decide (f = 1) } }
  | .xevc p => some fun h => { h with twice := h.twice || h.evc.isSome, evc := some p }
  | .xscp p => some fun h => { h with twice := h.twice || h.scp.isSome, scp := some p }
  | .xpart => some fun h => { h with twice := h.twice || h.part, part := true }
  | _ => none

/-- A word that may stand anywhere in a body and has no target (R46). -/
def instrIsNop : Instr → Bool
  | .nop => true
  | _ => false

/-- The body words with their hints. Hints that end the body, undecodable words and words beyond the code stand without an
instruction. -/
def groupBody : List (Nat × TRead) → List (Word × Nat) → Hints → List TWord
  | [], [], _ => []
  | [], p :: ps, h => [{ pre := (p :: ps).dropLast, h := h, w := ((p :: ps).getLast?.map fun q => q.1).getD 0
                         off := ((p :: ps).getLast?.map fun q => q.2).getD 0, instr := none }]
  | (off, .word w) :: r, pre, h =>
    match decodeWord w with
    | .error _ => { pre := pre, h := h, w := w, off := off, instr := none } :: groupBody r [] {}
    | .ok i => match (if instrIsNop i && pre.isEmpty then none else hintChange i) with
      | some f => groupBody r (pre ++ [(w, off)]) (f h)
      | none => { pre := pre, h := h, w := w, off := off, instr := some i } :: groupBody r [] {}
  | (off, _) :: r, pre, h => { pre := pre, h := h, w := 0, off := off, instr := none } :: groupBody r [] {}

/-- A direct target of a word. -/
def TWord.target (x : TWord) : Option Int :=
  (x.instr.bind (directOf x.h)).map fun d => (x.off : Int) + 4 + 4 * d.1

/-- The direct target that the first check of R52 looks at, also in a word with a reserved bit set (R54). -/
def TWord.checked (x : TWord) : Option Int :=
  ((match x.instr with
    | some i => some i
    | none => withoutReserved x.w).bind (directOf x.h)).map fun (d : Int × Nat × Nat) => (x.off : Int) + 4 + 4 * d.1

/-- Every body word that a linear walk over headers and pools finds, with the offset of its header (R47). -/
def scanBody (c : TRun) : Nat → Nat → List (TWord × Nat)
  | 0, _ => []
  | fuel + 1, pc =>
    match c.at pc with
    | .beyond => []
    | .unread => scanBody c fuel (pc + 4)
    | .word w =>
      if classOf w = 0 then
        (groupBody (c.reads (pc + 4) (bitsOf w 6 3)) [] {}).map (fun x => (x, pc)) ++ scanBody c fuel (pc + 4 + 4 * bitsOf w 6 3)
      else if classOf w = 14 then scanBody c fuel (pc + 4 + 4 * bitsOf w 11 0)
      else scanBody c fuel (pc + 4)

/-- A branch: a direct transfer that may be a loop's backward branch. -/
def isBranch : Instr → Bool
  | .bra _ _ => true
  | .brm _ _ _ => true
  | .brmn _ _ _ => true
  | .brs _ _ _ => true
  | .brsz _ _ _ => true
  | _ => false

/-- The loops by their heads, with the highest backward branch (R181). -/
def noteLoop (l : List (Nat × Nat)) (x : TWord) : List (Nat × Nat) :=
  match x.target with
  | some t =>
    if 0 ≤ t ∧ t ≤ x.off ∧ (x.instr.map isBranch).getD false = true then
      match l.find? fun p => p.1 = t.toNat with
      | some p => l.map fun q => if q = p then (p.1, max p.2 x.off) else q
      | none => l ++ [(t.toNat, x.off)]
    else l
  | none => l

/-- The clauses of the entry table that a word gives (R366). -/
def noteEntry (l : List Nat) (p : TWord × Nat) : List Nat :=
  match p.1.instr with
  | some (.call _ _) => unionList l (((p.1.target.filter fun t => decide (0 ≤ t)).toList.map Int.toNat) ++ [p.1.off + 4])
  | some (.calli _ _ _) => unionList l [p.1.off + 4]
  | some (.lpad _ _) => if p.1.off = p.2 + 4 then unionList l [p.2] else l
  | _ => l

def notePad (l : List Nat) (p : TWord × Nat) : List Nat :=
  match p.1.instr with
  | some (.lpad _ _) => if p.1.off = p.2 + 4 then unionList l [p.2] else l
  | _ => l

/-- The S registers that a word of the code reads, through its hints too. -/
def readsKeys (x : TWord) : List Nat :=
  ((x.instr.map fun i => (ioOf x.w i).rd).getD []) ++ (x.h.scl.map fun r => sKey r.toNat).toList
    ++ (x.h.rnd.map fun r => sKey r.seed.toNat).toList

/-- The S registers that no word of the code reads; none where a word could not be read. -/
def spareOf (c : TRun) (b : List (TWord × Nat)) : List Nat :=
  if c.words.any Option.isNone then []
  else
    let read := b.flatMap fun p => readsKeys p.1
    (runKeys (sKey 6) 58).filter fun k => !read.contains k

/-- A run with its code scanned. -/
def TRun.scan (c : TRun) : TRun :=
  let b := scanBody c (c.words.size + 1) 0
  { c with body := b, loops := b.foldl (fun l p => noteLoop l p.1) [], entries := b.foldl noteEntry [], pads := b.foldl notePad []
           spare := spareOf c b }

/-- The last word of a loop's region (R181). -/
def TRun.inLoop (c : TRun) (head a : Nat) : Bool :=
  (c.loops.find? fun p => p.1 = head).any fun p => decide (p.1 ≤ a) && decide (a ≤ p.2)

/-- The registers that the words of a region write (R181). -/
def TRun.regionWrites (c : TRun) (head : Nat) : List Nat :=
  (c.body.filter fun p => c.inLoop head p.1.off).flatMap fun p => match p.1.instr with
    | some i => let io := ioOf p.1.w i; io.wr ++ (match io.dst with
      | some d => codeKeys d.2 d.1
      | none => [])
    | none => []

/-- What the original code makes of a direct target (R40, R287), as far as the Tailor can read it. -/
def TRun.targetAt (c : TRun) (t : Int) : Target :=
  if t < 0 then .bad
  else targetOf (fun pc => match c.at pc with
    | .word w => CodeRead.word w
    | .beyond => .beyond
    | .unread => .trans pc .absent) t.toNat

/-- A direct target that the walk follows: a legal one, or one that it cannot read, where the walk ends (R179). -/
def TRun.legal (c : TRun) (t : Int) : Bool :=
  match c.targetAt t with
  | .header => true
  | .bad => false
  | .unread va _ => decide ((va : Int) = t)

/-- A direct target whose check needs a word before it that the Tailor cannot read: the word itself is taken as unread (R179). -/
def TRun.unsure (c : TRun) (t : Int) : Bool :=
  match c.targetAt t with
  | .unread va _ => decide ((va : Int) ≠ t)
  | _ => false

/-! ### A traversal -/

/-- A direct transfer. `reloc`: its field is relocated to the copy of the original clause `target`; the field's width and place, and the
place of its `XIMM` in the unit. `check`: an original target that the word's check looks at in the original code instead. -/
structure TJump where
  reloc : Bool := true
  target : Nat := 0
  k : Nat := 0
  lo : Nat := 0
  hint : Option Nat := none
  check : Option Int := none
  deriving DecidableEq, Repr

/-- A transfer that keeps its bits. -/
def TWord.kept (x : TWord) : Option TJump := x.checked.map fun t => { reloc := false, check := some t }

/-- Words that stay together: a hint run with its target, or a materialisation. Each word has its original offset. `ref`: the
oldest unit whose last-result entry it reads; `regs`: what is static before it; `busy`: registers that it uses for something else meanwhile. -/
structure TUnit where
  words : List (Word × Nat)
  jump : Option TJump := none
  flag : Option Nat := none
  ref : Option Nat := none
  regs : Sparse TVal := []
  busy : List Nat := []
  deriving DecidableEq, Repr

/-- An entry of the original last-result file: its width, its value when static, the count of residual entries when it was made,
its unit, and the operand code of the register it went to. -/
structure THist where
  width : Nat
  val : Option (List Nat)
  made : Nat
  unit : Nat
  dst : Nat
  deriving DecidableEq, Repr

/-- The walk inside a clause. -/
structure TWalk where
  env : TEnv
  units : List TUnit := []
  pushes : Nat := 0
  hist : List THist := []
  vl : Nat := 0
  folds : Nat := 0
  /-- Words emitted, with their header once there is one, and the largest sum with the transition block so far (R185). -/
  count : Nat := 0
  peak : Nat := 0
  /-- Folds that R178 or R183 withholds. -/
  hold : List TFold := []
  /-- The traversal has to be emitted as the original clause (R183). -/
  raw : Bool := false
  /-- A word cannot be judged without code that cannot be read (R179). -/
  cut : Bool := false
  walks : List Nat := []
  pages : List Nat := []
  deriving DecidableEq, Repr

/-- Units are added. -/
def TWalk.add (t : TWalk) (u : TUnit) : TWalk :=
  { t with units := t.units ++ [{ u with regs := t.env.regs }], count := t.count + (if t.units.isEmpty then 1 else 0) + u.words.length }

/-- Four consecutive S registers of `S6` to `S63` that are static (R183): the lowest run that no word of the code reads, else the lowest one. -/
def scratchRun (e : TEnv) : Option Nat :=
  let runs := ((List.range 55).map fun i => i + 6).filter fun r => (List.range 4).all fun i => (sfind (sKey (r + i)) e.regs).isSome
  match runs.find? fun r => (List.range 4).all fun i => e.spare.contains (sKey (r + i)) with
  | some r => some r
  | none => runs.head?

/-- An S register of a scratch run after the sequence (R183): it stays static with the value left in it. One that a word of the code reads stays
static with its own value, which it no longer holds, since that word finds what the original would hold (R186, log entry 88). -/
def TEnv.scratched (e : TEnv) (p : Nat × Nat) : TEnv :=
  match sfind (sKey p.1) e.regs with
  | none => e
  | some q => e.put (sKey p.1) (if e.spare.contains (sKey p.1) then { q with val := p.2, held := true } else { q with held := decide (q.val = p.2) })

/-- One register materialised at a word (R183). -/
def TWalk.mat (off : Nat) (t : TWalk) (k : Nat) : TWalk :=
  match sfind k t.env.regs with
  | none => t
  | some v =>
    let x := BitVec.ofNat 32 v.val
    if isVK k then
      let ws := matVK (keyCode k) x
      let t := t.add { words := ws.map fun w => (w, off) }
      { t with env := t.env.put k { v with held := true }, pushes := t.pushes + matPushes ws }
    else if isSKey k then
      let t := t.add { words := (matS (k - 0x200) x).map fun w => (w, off) }
      { t with env := t.env.put k { v with held := true } }
    else match scratchRun t.env with
      | none => { t with hold := t.hold ++ v.bset.toList }
      | some r =>
        let parts := (List.range 4).map fun i => (r + i, v.val / 2 ^ (32 * i) % 2 ^ 32)
        let ws := parts.flatMap (fun p => matS p.1 (BitVec.ofNat 32 p.2))
          ++ [wordOfInstr (.bset 0 (BitVec.ofNat 5 (k - 0x300)) (BitVec.ofNat 6 r))]
        let t := t.add { words := ws.map (fun w => (w, off)), busy := parts.map fun p => sKey p.1 }
        let env := parts.foldl TEnv.scratched t.env
        { t with env := env.put k { v with held := true } }

/-- The static registers among some keys that do not hold their values. -/
def unheld (e : TEnv) (p : Nat → Bool) : List Nat := (e.regs.filter fun q => !q.2.held && p q.1).map fun q => q.1

/-- Registers materialised at a word: records first, whose scratch runs displace S registers. -/
def TWalk.matWhere (off : Nat) (p : Nat → Bool) (t : TWalk) : TWalk :=
  let t := (unheld t.env fun k => p k && isBKey k).foldl (TWalk.mat off) t
  let t := (unheld t.env fun k => p k && isVK k).foldl (TWalk.mat off) t
  (unheld t.env fun k => p k && isSKey k).foldl (TWalk.mat off) t

/-- Every register that a fold has written since VENTRY is written again by a transition block (R185). -/
def TEnv.unfold (e : TEnv) : TEnv := { e with regs := e.regs.map fun p => (p.1, { p.2 with held := p.2.held && !p.2.folded }) }

/-- The transition block of a state (R185): its units. -/
def transition (off : Nat) (e : TEnv) : TWalk := TWalk.matWhere off (fun _ => true) { env := e.unfold }

/-- The sum of R185 is looked at. -/
def TWalk.look (t : TWalk) : TWalk := { t with peak := max t.peak (t.count + ((transition 0 t.env).count - 1)) }

/-- A register is read or written while a fold's mark stands on it (R178). -/
def TWalk.touch (ks : List Nat) (t : TWalk) : TWalk :=
  { t with hold := t.hold ++ (t.env.fmarks.filter fun m => ks.contains m.1).map fun m => m.2.2 }

/-- The keys of a word's destination, and of everything it touches. -/
def TIo.dstKeys (io : TIo) : List Nat := match io.dst with
  | some d => codeKeys d.2 d.1
  | none => []

def TIo.dstWidth (io : TIo) : Nat := match io.dst with
  | some d => d.2
  | none => 1

def TIo.dstCode (io : TIo) : Nat := match io.dst with
  | some d => d.1
  | none => 0

def sclKeys (h : Hints) : List Nat := match h.scl with
  | some r => [sKey r.toNat]
  | none => []

def TIo.opKeys (io : TIo) (h : Hints) : List Nat := io.ops.flatMap fun o => if o.code = 0xFD then sclKeys h else codeKeys o.width o.code
def TIo.keys (io : TIo) (h : Hints) : List Nat := io.opKeys h ++ io.dstKeys ++ io.rd ++ io.wr

/-- What a word of the walk touches, with the image of a `TFEED` (R126) and the seed of its rounding (R72). -/
def TWord.io (x : TWord) (vregs : Nat) (e : TEnv) (i : Instr) : TIo :=
  let io := ioOf x.w i
  let io := match i with
    | .tfeed _ _ _ f => { io with rd := io.rd ++ feedImage vregs (e.staticVal f.toNat) i }
    | _ => io
  match x.h.rnd with
  | some r => if r.mode = 5 then { io with rd := io.rd ++ [sKey r.seed.toNat] } else io
  | none => io

/-- The clause that is walked. -/
structure THdr where
  node : TNode
  wait : BitVec 12
  seta : Nat
  setb : Nat
  pri : Nat
  deriving DecidableEq, Repr

/-- The flag that the clause's next variable-latency word raises (R41). -/
def flagAt (h : THdr) (t : TWalk) : Nat := if t.vl = 0 ∨ h.setb = 15 then h.seta else h.setb

/-- The position at which a word is evaluated. -/
def evalPos (hd : THdr) (t : TWalk) (h : Hints) : Pos :=
  { hdr := hd.node.addr, len := 100, issued := 1, seta := hd.seta, setb := hd.setb, pri := hd.pri, vl := t.vl, hints := h
    h := t.hist.map fun e => { width := e.width, vals := ((indexed 0 (e.val.getD [])).foldl (fun m p => sput 0 p.1 (BitVec.ofNat 32 p.2) m) []) } }

/-- The value of a source operand of one word, when it is static (R173). -/
def opStatic (t : TWalk) (h : Hints) (c : Nat) : Option Nat :=
  if c ≤ 0xE7 then (codeKeys 1 c).head?.bind t.env.staticVal
  else if 0xF0 ≤ c ∧ c ≤ 0xF3 then (t.hist[c - 0xF0]?).bind fun e => e.val.bind fun v => v.head?
  else if c = 0xFD then h.scl.bind fun r => t.env.staticVal (sKey r.toNat)
  else none

/-- A source operand is static (R173). -/
def opKnown (t : TWalk) (h : Hints) (o : TOp) : Bool :=
  if o.code ≤ 0xE7 then (codeKeys o.width o.code).all fun k => (t.env.staticVal k).isSome
  else if 0xF0 ≤ o.code ∧ o.code ≤ 0xF3 then ((t.hist[o.code - 0xF0]?).bind fun e => e.val).isSome
  else if o.code = 0xFD then (opStatic t h o.code).isSome
  else decide (0xF4 ≤ o.code) && decide (o.code ≤ 0xF7) || o.code == 0xFB || o.code == 0xFC

/-- Keys with their static values; none when one is dynamic. -/
def staticAll (e : TEnv) : List Nat → Option (List (Nat × Nat))
  | [] => some []
  | k :: ks => match e.staticVal k, staticAll e ks with
    | some v, some r => some ((k, v) :: r)
    | _, _ => none

/-! ### Static reads (R175) -/

/-- What a read at launch comes to. -/
inductive TLoad where
  | no
  /-- Its page waits for a walk. -/
  | miss (va : Nat)
  | bytes (bs : List Byte) (page : Option Nat)
  deriving DecidableEq, Repr

/-- The marked argument words that a read covers. -/
def argBytes (c : TRun) (off size : Nat) : Option (List Byte) :=
  let ws := (List.range ((off % 4 + size + 3) / 4)).map fun i => (c.marked.find? fun p => p.1 = off / 4 + i).map fun p => p.2
  if ws.all Option.isSome then some (((ws.flatMap fun w => toBytes 4 (w.getD 0).toNat).drop (off % 4)).take size) else none

/-- A read of constant memory: its page is present and cannot be written in the context. -/
def constBytes (c : TRun) (va size : Nat) : TLoad :=
  match agentTranslate c.s (partCore c.s c.x) c.x.id va 0 with
  | .ok p => match agentTranslate c.s (partCore c.s c.x) c.x.id va 1 with
    | .ok _ => .no
    | _ => .bytes (homeBytes c.s p size) (some (page64 va))
  | .miss => .miss va
  | _ => .no

/-- One static read through a record. -/
def staticRead (c : TRun) (b : Nat) (size : Nat) (imm : Int) (x : Word) : TLoad :=
  let r := recOfBits (BitVec.ofNat 128 b)
  let a := accOf r size imm 0 x
  if misaligned r size a then .no
  else if !a.inb then (if r.clamp then .bytes (List.replicate size 0) none else .no)
  else if b = c.arg.toNat then match argBytes c a.off.toNat size with
    | some bs => .bytes bs none
    | none => .no
  else if r.konst then constBytes c a.va size
  else .no

/-- A load that may be a static read: its record, size, offset in bytes by record, index key, and the words of a result. -/
def loadParts (x : TWord) (i : Instr) : Option (Nat × Nat × (BufRec → Int) × Nat × (List Byte → List Word)) :=
  let off : BufRec → Int := fun _ => (x.h.imm.map fun i => i.toInt).getD 0
  match i with
  | .ld _ n _ v z => some (n.toNat, 4 * szWords z, off, v.toNat, extended .words (4 * szWords z))
  | .ldb _ n _ v z => some (n.toNat, 1, off, v.toNat, extended (szExt z) 1)
  | .ldh _ n _ v z => some (n.toNat, 2, off, v.toNat, extended (szExt z) 2)
  | .sldc _ _ a n k => some (n.toNat, 4, fun r => indexBytes r (sldcImm x.h k), sKey a.toNat, fun bs => [wordOf bs])
  | _ => none

/-- What the load needs (R52). -/
def loadNeed (s : State) (i : Instr) : Need :=
  match i with
  | .ld _ _ d v z => memNeed s (some (d.toNat, szWords z)) v.toNat true
  | .ldb _ _ d v _ => memNeed s (some (d.toNat, 1)) v.toNat true
  | .ldh _ _ d v _ => memNeed s (some (d.toNat, 1)) v.toNat true
  | .sldc _ d a n _ => sldcNeed s d a n
  | .sldlit _ d _ => scalarNeed [d.toNat] true
  | _ => scalarNeed [] true

/-- What a word's fold gives: the values of its destination keys. -/
inductive TFolded where
  | no
  | miss (va : Nat)
  | vals (r : List Nat) (page : Option Nat)
  deriving DecidableEq, Repr

/-- The checks of R52 pass at launch. -/
def evalOk (c : TRun) (hd : THdr) (t : TWalk) (x : TWord) (i : Instr) : Bool :=
  let s := foldState c.code [] (evalPos hd t x.h)
  decide (check (loadNeed s i) s = .run)

/-- A word executed at launch (R175, R176, R179). -/
def evalWord (c : TRun) (hd : THdr) (t : TWalk) (x : TWord) (i : Instr) (io : TIo) : TFolded :=
  match loadParts x i with
  | some (n, size, off, ik, f) =>
    match (if n < 30 then t.env.staticVal (bKey n) else none), t.env.staticVal ik with
    | some b, some v =>
      if !evalOk c hd t x i then .no
      else match staticRead c b size (off (recOfBits (BitVec.ofNat 128 b))) (BitVec.ofNat 32 v) with
        | .no => .no
        | .miss va => .miss va
        | .bytes bs pg => .vals ((f bs).map fun w => w.toNat) pg
    | _, _ => .no
  | none =>
    match i with
    | .sldlit _ _ k =>
      let a : Int := (x.off : Int) + 4 * (effImm x.h 16 true k).toInt
      if !evalOk c hd t x i ∨ a < 0 then .no
      else match c.at a.toNat with
        | .word w => .vals [w.toNat] none
        | _ => .no
    | _ =>
      match foldRun i with
      | none => .no
      | some run =>
        if !io.ops.all (opKnown t x.h) then .no
        else match staticAll t.env (io.opKeys x.h ++ io.rd ++ (if io.readsD then io.dstKeys else [])) with
          | none => .no
          | some vals => match foldResult (run (foldState c.code vals (evalPos hd t x.h))) with
            | none => .no
            | some g => .vals ((io.dstKeys ++ io.wr).map (keyGet g)) none

/-- A word that may be folded where it stands (R176, R178, R179, R181, R183). -/
def mayFold (d : TDec) (hd : THdr) (t : TWalk) (x : TWord) (i : Instr) (io : TIo) : Bool :=
  x.w.getLsbD 27 && hd.node.dyn.isNone && !d.withheld.contains ⟨hd.node, x.off⟩ && !foldBarred x.h i
    && (io.keys x.h).all fun k => !(t.env.marks.any fun m => m.1 = k)

/-- The `NOP`s among the hints of a word that is removed: no hint with a target, they stay (R46, R176). -/
def TWalk.nops (x : TWord) (t : TWalk) : TWalk :=
  let ws := x.pre.filter fun p => match decodeWord p.1 with
    | .ok i => instrIsNop i
    | .error _ => false
  if ws.isEmpty then t else t.add { words := ws }

/-- A folded word: its destination is static (R174), and the marks of the original are kept (R178). -/
def TWalk.fold (hd : THdr) (x : TWord) (i : Instr) (io : TIo) (r : List Nat) (pg : Option Nat) (t : TWalk) : TWalk :=
  let me : TFold := ⟨hd.node, x.off⟩
  let keys := io.dstKeys ++ io.wr
  let made := match i with
    | .bset _ _ _ => some me
    | _ => none
  let env := (keys.zip r).foldl (fun (e : TEnv) p => e.put p.1 { val := p.2, held := false, folded := true, bset := made }) t.env
  let env := if io.varlat then { env with fmarks := env.fmarks ++ keys.map fun k => (k, flagAt hd t, me) } else env
  let t := t.nops x
  let t := { t with
    env := env, folds := t.folds + 1, vl := if io.varlat then t.vl + 1 else t.vl, pages := unionList t.pages pg.toList
    hist := if io.push then
        (({ width := io.dstWidth, val := some r, made := t.pushes, unit := t.units.length
            dst := io.dstCode } : THist) :: t.hist).take 4
      else t.hist }
  t.look

/-! ### Emitting a word -/

/-- Bits replaced in a word. -/
def setBits (w : Word) (lo len v : Nat) : Word :=
  BitVec.ofNat 32 (w.toNat - bitsOf w (lo + len - 1) lo * 2 ^ lo + v % 2 ^ len * 2 ^ lo)

/-- The operand code that `IMM` replaces, with the hint word (R183). -/
def substOf (t : TWalk) (h : Hints) (io : TIo) : Option (Nat × Word) :=
  if io.subst = 0 ∨ h.immf.isSome ∨ (io.subst = 1 ∧ h.imm.isSome) ∨ io.ops.any (fun o => o.code == 0xFC) then none
  else io.ops.findSome? fun o =>
    if o.width ≠ 1 then none
    else (opStatic t h o.code).bind fun v => (immHint (decide (io.subst = 2)) (BitVec.ofNat 32 v)).map fun w => (o.code, w)

/-- A static entry of the last-result file is made again in its register, which still has its value, so that a reference can
read it (R183). -/
def TWalk.remake (off n : Nat) (t : TWalk) : TWalk :=
  match t.hist[n]? with
  | none => { t with raw := true }
  | some e => match e.val with
    | none => t
    | some v =>
      let k := if e.dst ≤ 0xDF then e.dst else kKey (e.dst - 0xE0)
      if e.width = 1 ∧ v.head? = t.env.staticVal k then
        let t := t.mat off k
        { t with hist := t.hist.set n { e with val := none, made := t.pushes, unit := t.units.length - 1 } }
      else { t with raw := true }

/-- A word emitted as it is, with what it does to the walk's knowledge. -/
def TWalk.effect (hd : THdr) (io : TIo) (t : TWalk) : TWalk :=
  let keys := io.dstKeys ++ io.wr
  let env := t.env.drop keys
  let f := flagAt hd t
  let env := if io.varlat && decide (f < 12) then { env with marks := unionList env.marks (keys.map fun k => (k, f)) } else env
  let pushes := if io.push then t.pushes + 1 else t.pushes
  { t with
    env := env, vl := if io.varlat then t.vl + 1 else t.vl, pushes := pushes
    hist := if io.push then
        (({ width := io.dstWidth, val := none, made := pushes, unit := t.units.length - 1
            dst := io.dstCode } : THist) :: t.hist).take 4
      else t.hist }

/-- A last-result reference renumbered (R183). -/
def TWalk.renumber (t : TWalk) (w : Word) (o : TOp) : Option Word :=
  match t.hist[o.code - 0xF0]? with
  | none => none
  | some e => if t.pushes - e.made ≤ 3 then some (setBits w o.bit 8 (0xF0 + (t.pushes - e.made))) else none

/-- A dynamic word (R183): `IMM` in place of a static source, materialised registers before it, last-result references renumbered. -/
def TWalk.emit (hd : THdr) (x : TWord) (io : TIo) (jump : Option TJump) (extra : List Word) (t : TWalk) : TWalk :=
  let sub := substOf t x.h io
  let ops := io.ops.filter fun o => !((sub.map fun p => p.1) == some o.code && o.width == 1)
  let w := (io.ops.filter fun o => (sub.map fun p => p.1) == some o.code && o.width == 1).foldl (fun w o => setBits w o.bit 8 0xFC) x.w
  let noScl := (sub.map fun p => p.1) == some 0xFD
  let pre := if noScl then x.pre.filter fun p => !(classOf p.1 == 1 && decide (bitsOf p.1 27 22 = bitsOf (wordOfInstr (.xscl 0)) 27 22)) else x.pre
  let refs := ops.filter fun o => decide (0xF0 ≤ o.code) && decide (o.code ≤ 0xF3)
  let t := refs.foldl (fun t o => TWalk.remake x.off (o.code - 0xF0) t) t
  let io' := { io with ops := ops }
  let need := io'.opKeys x.h ++ io.rd ++ io.dstKeys
  let t := TWalk.matWhere x.off (fun k => need.contains k) t
  let w' := refs.foldl (fun (w : Option Word) o => w.bind fun w => t.renumber w o) (some w)
  let ref := (refs.filterMap fun o => (t.hist[o.code - 0xF0]?).map fun e => e.unit).foldl (fun m n => match m with
    | none => some n
    | some k => some (min k n)) none
  let added := (sub.toList.map fun p => p.2) ++ extra
  let words := pre ++ added.map (fun a => (a, x.off)) ++ [(w'.getD w, x.off)]
  let t := t.add { words := words, jump := jump, flag := if io.varlat then some (flagAt hd t) else none, ref := ref }
  let t := { t with raw := t.raw || w'.isNone || decide (words.length > 15) }
  (t.effect hd io).look

/-- A word without an instruction keeps its bits. -/
def TWalk.keep (x : TWord) (t : TWalk) : TWalk := (t.add { words := x.pre ++ [(x.w, x.off)], jump := x.kept }).look

/-- A word that is no transfer. -/
def TWalk.word (c : TRun) (d : TDec) (hd : THdr) (t : TWalk) (x : TWord) : TWalk :=
  match x.instr with
  | none => t.keep x
  | some i =>
    let io := x.io c.code.vregs t.env i
    let t := t.touch (io.keys x.h)
    if !mayFold d hd t x i io then t.emit hd x io none []
    else match evalWord c hd t x i io with
      | .no => t.emit hd x io none []
      | .miss va => { t with walks := t.walks ++ [va] }
      | .vals r pg => t.fold hd x i io r pg

/-! ### The end of a clause -/

/-- Where a traversal leads: the clause that follows in the walk, dynamic direct targets, clauses of the entry table, the target of
`REGRP`, and the head that a resolved backward branch names. -/
structure TExit where
  next : Option Nat := none
  jumps : List Nat := []
  entries : List Nat := []
  bin : Option Nat := none
  back : Option Nat := none
  /-- `JMPI` or `CALLI`: any landing pad of the code. -/
  indirect : Bool := false
  deriving DecidableEq, Repr

/-- The folds whose marks stand are withheld (R178). -/
def TWalk.holdAll (t : TWalk) : TWalk := { t with hold := t.hold ++ t.env.fmarks.map fun m => m.2.2 }

/-- The condition of a branch that may be resolved: taken or not (R180). -/
def branchTaken (t : TWalk) : Instr → Option Bool
  | .bra _ _ => some true
  | .brs _ a _ => (t.env.staticVal (sKey a.toNat)).map fun v => decide (v ≠ 0)
  | .brsz _ a _ => (t.env.staticVal (sKey a.toNat)).map fun v => decide (v = 0)
  | _ => none

/-- The place of the `XIMM` among the words before a target. -/
def ximmPlace (pre : List (Word × Nat)) : Option Nat :=
  pre.findIdx? fun p => match decodeWord p.1 with
    | .ok (.ximm _) => true
    | _ => false

/-- The registers that a dynamic branch, `CALL`, `RET`, `JMPI` or `CALLI` finds in place (R182). -/
def TWalk.settleAll (x : TWord) (t : TWalk) : TWalk := TWalk.matWhere x.off (fun _ => true) t

/-- A dynamic word with a direct target (R182, R287). -/
def TWalk.direct (c : TRun) (d : TDec) (hd : THdr) (x : TWord) (i : Instr) (io : TIo) (fall : Nat) (t : TWalk) : TWalk × TExit :=
  match x.target, directOf x.h i with
  | some a, some (_, k, lo) =>
    let isBin := decide (k = 12)
    let ext := if isBin && d.wide && x.h.imm.isNone then [wordOfInstr (.ximm 0)] else []
    if c.unsure a then ({ t with cut := true }, {})
    else if !c.legal a then (t.emit hd x io x.kept [], {})
    else
      let t := if isBin then t else t.settleAll x
      let hint := if ext.isEmpty then ximmPlace x.pre else some x.pre.length
      let t := t.emit hd x io (some { target := a.toNat, k := k, lo := lo, hint := hint }) ext
      (t, match i with
        | .regrp _ _ _ => { bin := some a.toNat }
        | .call _ _ => { jumps := [a.toNat] }
        | .bra _ _ => { jumps := [a.toNat] }
        | _ => { next := some fall, jumps := [a.toNat] })
  | _, _ => (t.emit hd x io none [], {})

/-- A word at the end of its clause: a resolved branch (R180), a dynamic transfer (R182), or another word. -/
def TWalk.last (c : TRun) (d : TDec) (hd : THdr) (fall : Nat) (t : TWalk) (x : TWord) : TWalk × TExit :=
  match x.instr with
  | none => (t.keep x, ({ next := some fall } : TExit))
  | some i =>
    let io := x.io c.code.vregs t.env i
    if !endsClause i then (t.word c d hd x, { next := some fall })
    else
      let t := t.touch (io.keys x.h)
      match (if mayFold d hd t x i io && hintsOk { imm := true } x.h && c.code.features.getLsbD 0 then branchTaken t i else none), x.target with
      | some taken, some a =>
        if c.legal a then
          ({ t.nops x with folds := t.folds + 1 }.look,
            { next := some (if taken then a.toNat else fall), back := if a ≤ x.off then some a.toNat else none })
        else t.direct c d hd x i io fall
      | _, _ => match i with
        | .ret _ => (((t.holdAll).settleAll x).emit hd x io none [], { entries := c.entries })
        | .jmpi _ _ _ => (((t.holdAll).settleAll x).emit hd x io none [], { entries := c.pads, indirect := true })
        | .calli _ _ _ => (((t.holdAll).settleAll x).emit hd x io none [], { entries := c.pads, indirect := true })
        | .exit _ => (t.emit hd x io none [], {})
        | .join _ _ => (t.emit hd x io none [], { next := some fall })
        | .bar _ _ => (t.emit hd x io none [], { next := some fall })
        | .yield _ => (t.emit hd x io none [], { next := some fall })
        | .chwait _ => (t.emit hd x io none [], { next := some fall })
        | _ => t.direct c d hd x i io fall

/-! ### Splitting (R183) -/

/-- A residual clause: header word, original offset of its header, units. -/
structure TPiece where
  hdr : Word
  off : Nat
  units : List TUnit
  /-- What is static at the start of the clause (R189), and the transfer that stands in a header's place. -/
  regs : Sparse TVal := []
  jump : Option TJump := none
  /-- What is static after it. -/
  after : Sparse TVal := []
  deriving DecidableEq, Repr

def unitWords (us : List TUnit) : Nat := us.foldl (fun n u => n + u.words.length) 0

/-- No unit from number `k` on reads an entry made before it. -/
def cutOk (us : List (Nat × TUnit)) (k : Nat) : Bool := (us.filter fun p => decide (p.1 ≥ k)).all fun p => match p.2.ref with
  | some r => decide (r ≥ k)
  | none => true

/-- The largest part of at most 15 words that leaves no reference behind. -/
def firstPart (us : List (Nat × TUnit)) : Nat → Option Nat
  | 0 => none
  | n + 1 =>
    let start := (us.head?.map fun p => p.1).getD 0
    if unitWords ((us.take (n + 1)).map fun p => p.2) ≤ 15 ∧ cutOk us (start + n + 1) = true then some (n + 1) else firstPart us n

/-- The units in parts; none when no boundary fits. -/
def splitParts : Nat → List (Nat × TUnit) → Option (List (List TUnit))
  | 0, _ => none
  | fuel + 1, us =>
    if us.isEmpty then some []
    else match firstPart us us.length with
      | none => none
      | some n => (splitParts fuel (us.drop n)).map fun r => (us.take n).map (fun p => p.2) :: r

/-- A header: SETA and SETB are those of the part's variable-latency words. -/
def partHeader (wait : BitVec 12) (pri : Nat) (us : List TUnit) : Word :=
  let fs := us.filterMap fun u => u.flag
  let a := fs.headD 15
  let b := (fs.drop 1).headD 15
  wordOfInstr (.clauseHeader wait (BitVec.ofNat 4 a) (BitVec.ofNat 4 (if b = a then 15 else b)) (BitVec.ofNat 4 (unitWords us)) (BitVec.ofNat 3 pri))

/-- The residual clauses of a traversal: the first keeps WAIT. `fin`: what is static after the last. -/
def piecesOf (off : Nat) (wait : BitVec 12) (pri : Nat) (regs fin : Sparse TVal) : List (List TUnit) → List TPiece
  | [] => []
  | us :: r =>
    let next := (r.head?.bind fun u => u.head?.map fun u => u.regs).getD fin
    { hdr := partHeader wait pri us, off := off, units := us, regs := regs, after := next } :: piecesOf off 0 pri next fin r

/-- What a traversal comes to. `cut`: a code word of it could not be read (R179). -/
structure TOut where
  pieces : List TPiece := []
  env : TEnv
  exits : TExit := {}
  folds : Nat := 0
  peak : Nat := 0
  hold : List TFold := []
  raw : Bool := false
  cut : Bool := false
  walks : List Nat := []
  pages : List Nat := []
  deriving DecidableEq, Repr

/-- A word that stands where a header would, and traps there as in the original (R40, R361). -/
def stopPiece (e : TEnv) (off : Nat) (w : Word) : TOut :=
  let i := match decodeWord w with
    | .ok i => some i
    | .error _ => none
  let x : TWord := { pre := [], h := {}, w := w, off := off, instr := i }
  { env := e, pieces := [{ hdr := w, off := off, units := [], regs := e.regs, jump := x.kept, after := e.regs }], peak := 1 }

/-- A traversal emitted as the original clause (R183), after a clause that materialises what it touches. -/
def walkRaw (c : TRun) (d : TDec) (hd : THdr) (hw : Word) (xs : List TWord) (fall : Nat) (e : TEnv) : TOut :=
  let ios := xs.filterMap fun x => x.instr.map fun i => (x, x.io c.code.vregs e i)
  let need := ios.flatMap fun p => p.2.keys p.1.h
  let transfers := match xs.getLast?.bind fun x => x.instr with
    | some i => endsClause i && !(match i with
      | .exit _ => true
      | .join _ _ => true
      | .bar _ _ => true
      | .yield _ => true
      | .chwait _ => true
      | .regrp _ _ _ => true
      | _ => false)
    | none => false
  let pre := TWalk.matWhere hd.node.addr (fun k => transfers || need.contains k) ({ env := e } : TWalk)
  let body := { env := pre.env : TWalk }
  let step := fun (t : TWalk) (p : Nat × TWord) =>
    match p.2.instr with
    | none => t.keep p.2
    | some i =>
      let io := p.2.io c.code.vregs t.env i
      let t := t.touch (io.keys p.2.h)
      if p.1 + 1 = xs.length ∨ !endsClause i then (t.emit hd p.2 { io with ops := [], subst := 0 } none []) else t.keep p.2
  let t := ((indexed 0 xs).dropLast).foldl step body
  let (t, ex) := match xs.getLast? with
    | none => (t, ({ next := some fall } : TExit))
    | some x => match x.instr with
      | none => (t.keep x, ({ next := some fall } : TExit))
      | some i =>
        let hd' := { hd with node := { hd.node with dyn := some hd.node.addr } }
        if endsClause i then TWalk.last c { d with wide := false } hd' fall t x
        else (step t (xs.length - 1, x), ({ next := some fall } : TExit))
  let first : List TPiece :=
    if pre.units.isEmpty then []
    else piecesOf hd.node.addr hd.wait hd.pri e.regs pre.env.regs
      ((splitParts (pre.units.length + 1) (indexed 0 pre.units)).getD [pre.units])
  { pieces := first ++ [{ hdr := hw, off := hd.node.addr, units := t.units, regs := pre.env.regs, after := t.env.regs }]
    env := t.env, exits := ex, cut := t.cut, peak := pre.count + t.peak, hold := pre.hold ++ t.hold }

/-- A clause whose words stand where they may not (R40, R49), or with `LDX` (R183): no word of it is folded. -/
def keepsClause (xs : List TWord) : Bool :=
  (indexed 0 xs).any fun p => match p.2.instr with
    | some (.ldx _ _ _ _ _) => true
    | some (.lpad _ _) => decide (p.1 ≠ 0) || !p.2.pre.isEmpty
    | some i => endsClause i && decide (p.1 + 1 ≠ xs.length)
    | none => false

/-- A traversal of which every word is folded gives no residual clause (R183), unless its `WAIT` holds back a flag that emitted words have raised:
the words after it find the registers free of marks, as in the original (R42, R186), so it gives a clause of its header and a `NOP` (log
entry 97). -/
def waitPiece (hd : THdr) (e0 : TEnv) (fin : Sparse TVal) : List TPiece :=
  if hd.wait &&& flagsOf e0.marks = 0 then []
  else piecesOf hd.node.addr hd.wait hd.pri e0.regs fin [[{ words := [(wordOfInstr .nop, hd.node.addr)], regs := e0.regs }]]

/-- A clause walked with folding and splitting. -/
def walkFold (c : TRun) (d : TDec) (hd : THdr) (xs : List TWord) (fall : Nat) (e0 e : TEnv) : TOut :=
  let t := xs.dropLast.foldl (fun (t : TWalk) x => t.word c d hd x) ({ env := e } : TWalk)
  let (t, ex) := match xs.getLast? with
    | none => (t, ({ next := some fall } : TExit))
    | some x => TWalk.last c d hd fall t x
  let out : TOut := { env := t.env, exits := ex, folds := t.folds, peak := t.peak, hold := t.hold, cut := t.cut, walks := t.walks, pages := t.pages }
  if t.units.isEmpty then
    let ps := waitPiece hd e0 t.env.regs
    { out with pieces := ps, peak := t.peak + 2 * ps.length }
  else match (if t.raw then none else splitParts (t.units.length + 1) (indexed 0 t.units)) with
    | none => { out with raw := true }
    | some parts => { out with pieces := piecesOf hd.node.addr hd.wait hd.pri e0.regs t.env.regs parts, peak := t.peak + parts.length - 1 }

/-- One traversal of a clause. -/
def walkClause (c : TRun) (d : TDec) (n : TNode) (e : TEnv) : TOut :=
  match c.at n.addr with
  | .unread => { env := e, cut := true, hold := e.fmarks.map fun m => m.2.2 }
  | .beyond => stopPiece e n.addr 0
  | .word w => match decodeWord w with
    | .ok (.pool k) => { env := e, exits := { next := some (n.addr + 4 + 4 * k.toNat) } }
    | .ok (.clauseHeader wt a b l p) =>
      if reservedFlag a || reservedFlag b || decide (l = 0) then stopPiece e n.addr w
      else
        let rs := c.reads (n.addr + 4) l.toNat
        if rs.any fun r => r.2 = .unread then { env := e, cut := true, hold := e.fmarks.map fun m => m.2.2 }
        else
          let hd : THdr := { node := n, wait := wt, seta := a.toNat, setb := b.toNat, pri := p.toNat }
          let xs := groupBody rs [] {}
          let fall := n.addr + 4 + 4 * l.toNat
          if d.raw.contains n || keepsClause xs then walkRaw c d hd w xs fall (e.waitFor wt)
          else walkFold c d hd xs fall e (e.waitFor wt)
    | _ => stopPiece e n.addr w

end Sys2Proof.Machine
end

