-- ==== Sys2Proof/Machine/Tailor.lean ====
section
/-!
DEFINITION. The Tailor (R172 to R193): loops and merges over the whole code, the residual code's layout with its entry table and
back-map, the limits of R185, and `TAILOR_RUN`.
-/

namespace Sys2Proof.Machine

/-! ### Loops (R181) and the places of the walk -/

/-- A loop entry: the loop's head and the unrolled loops around it. -/
abbrev TLoop := Nat × List (Nat × Nat)

/-- Where a path that reaches a clause outside the entry table arrives, and the loop entry that would need a 65th copy. -/
def arriveCtx (c : TRun) (d : TDec) (ctx : List (Nat × Nat)) (src : Option Nat) (t : Nat) : TNode × Option TLoop :=
  let ctx := ctx.takeWhile fun p => c.inLoop p.1 t
  match ctx.find? fun p => p.1 = t with
  | some p =>
    let outer := ctx.takeWhile fun q => decide (q.1 ≠ t)
    (⟨t, outer ++ [(t, p.2 + 1)], none⟩, if p.2 + 1 ≥ 64 then some (t, outer) else none)
  | none =>
    let isHead := c.loops.any fun p => decide (p.1 = t)
    let inside := match src with
      | some a => c.inLoop t a
      | none => false
    if !isHead || inside then (⟨t, ctx, none⟩, none)
    else match d.kindOf (t, ctx) with
      | some .region => (⟨t, ctx, some t⟩, none)
      | some .plain => (⟨t, ctx, none⟩, none)
      | _ => (⟨t, ctx ++ [(t, 0)], none⟩, none)

/-- Where a path from a traversal arrives: clauses of the entry table have one copy (R366), and a dynamic region stays one until the
path leaves it. -/
def arrive (c : TRun) (d : TDec) (n : TNode) (t : Nat) : TNode × Option TLoop :=
  if c.entries.contains t then (⟨t, [], none⟩, none)
  else match n.dyn with
    | some h => if c.inLoop h t then (⟨t, n.ctx, some h⟩, none) else arriveCtx c d n.ctx (some n.addr) t
    | none => arriveCtx c d n.ctx (some n.addr) t

/-- The loop entry that a node opens while its kind is not decided. -/
def openEntry (d : TDec) (n : TNode) : Option TLoop :=
  match n.ctx.getLast? with
  | some (h, 0) => if h = n.addr ∧ (d.kindOf (h, n.ctx.dropLast)).isNone then some (h, n.ctx.dropLast) else none
  | _ => none

/-- A node that a dynamic backward branch reaches in a loop entry whose kind is not decided: the walk holds it back, since without a
resolved backward branch there are no copies. -/
def heldBack (d : TDec) (n : TNode) : Bool :=
  match n.ctx.getLast? with
  | some (h, k) => decide (h = n.addr) && decide (0 < k) && (d.kindOf (h, n.ctx.dropLast)).isNone
  | none => false

/-- How a traversal comes back to a loop's head: the loop entry, whether by a branch that is resolved, and whether that would be its 65th copy. -/
structure TArrival where
  loop : TLoop
  resolved : Bool
  beyond : Bool
  deriving DecidableEq, Repr

/-- What is known on entry to a node (R181, R182). -/
def enterEnv (c : TRun) (n t : TNode) (e : TEnv) : TEnv :=
  let e := if c.entries.contains t.addr then { e with regs := e.regs.filter fun p => isBKey p.1 } else e
  match t.dyn with
  | some h => if n.dyn = some h then e else e.drop (c.regionWrites h)
  | none => e

/-- The state of R173 at VENTRY; `k0`: in a group formed from a queue or a bin `K0` is dynamic. -/
def startEnv (c : TRun) (k0 : Bool) : TEnv :=
  let zero := { val := 0, held := true : TVal }
  let keys := (List.range c.code.vregs) ++ (runKeys (kKey 0) c.code.kregs).filter (fun k => !(k0 && decide (k = kKey 0)))
  let regs := keys.map (fun k => (k, zero)) ++ [(sKey 5, { val := c.wgs % 2 ^ 32, held := true })]
    ++ (runKeys (sKey 6) 58).map (fun k => (k, zero)) ++ [(bKey 0, { val := c.arg.toNat, held := true })]
    ++ (runKeys (bKey 1) 29).map fun k => (k, zero)
  { regs := regs, spare := c.spare }

/-! ### The fixed point over the code (R182) -/

/-- The nodes found so far with what is known on entry, those to walk again, the loop entries without a kind, how each node comes back to
the heads of its loops, where it leads, and the pages read. -/
structure TPlan where
  envs : List (TNode × TEnv) := []
  work : List TNode := []
  opens : List TLoop := []
  backs : List (TNode × List TArrival) := []
  succs : List (TNode × List TNode) := []
  pages : List Nat := []
  deriving DecidableEq, Repr

/-- What a stage of the Tailor comes to. -/
inductive TStage (α : Type) where
  | done (a : α)
  /-- The walk starts again from VENTRY with more decided. -/
  | again (d : TDec)
  /-- Translations that a run waits for. -/
  | walks (vas : List Nat)
  /-- The run goes beyond the model's bound on its length. -/
  | long
  deriving Repr

def TPlan.envOf (p : TPlan) (n : TNode) : Option TEnv := (p.envs.find? fun q => q.1 = n).map fun q => q.2

/-- A path reaches a node. -/
def TPlan.reach (d : TDec) (n : TNode) (e : TEnv) (p : TPlan) : TPlan :=
  let opens := unionList p.opens (openEntry d n).toList
  match p.envOf n with
  | none => { p with envs := p.envs ++ [(n, e)], work := p.work ++ [n], opens := opens }
  | some old =>
    let new := old.meet e
    if new = old then p
    else { p with envs := p.envs.map (fun q => if q.1 = n then (n, new) else q), work := unionList p.work [n], opens := opens }

/-- The edges of a traversal: node, knowledge on entry, and whether a dynamic branch makes it. -/
def edgesOf (c : TRun) (d : TDec) (n : TNode) (o : TOut) : List ((TNode × Option TLoop) × TEnv × Bool) :=
  let go := fun (dyn : Bool) t => let a := arrive c d n t; (a, enterEnv c n a.1 o.env, dyn)
  o.exits.next.toList.map (go false) ++ o.exits.jumps.map (go true) ++ o.exits.entries.map (go true)
    ++ o.exits.bin.toList.map fun t => ((⟨t, [], none⟩, none), enterEnv c ⟨t, [], none⟩ ⟨t, [], none⟩ (startEnv c true), false)

/-- One traversal's edges are followed, but for those that come back to the head of a loop whose kind is not decided, or would need a 65th
copy. -/
def followEdges (d : TDec) : List ((TNode × Option TLoop) × TEnv × Bool) → TPlan → TPlan
  | [], p => p
  | ((n, dropped), e, _) :: r, p => followEdges d r (if heldBack d n || dropped.isSome then p else p.reach d n e)

/-- How a traversal comes back to heads: by a resolved backward branch, taken or not, and by every edge to a further copy. -/
def arrivalsOf (n : TNode) (o : TOut) (es : List ((TNode × Option TLoop) × TEnv × Bool)) : List TArrival :=
  ((o.exits.back.toList.filter fun h => n.ctx.any fun p => decide (p.1 = h)).map fun h =>
      ({ loop := (h, n.ctx.takeWhile fun q => decide (q.1 ≠ h)), resolved := true, beyond := false } : TArrival))
    ++ es.filterMap fun x => match x.1.1.ctx.getLast? with
      | some (h, k) =>
        if h = x.1.1.addr ∧ 0 < k then some { loop := (h, x.1.1.ctx.dropLast), resolved := false, beyond := x.1.2.isSome } else none
      | none => none

/-- The nodes that some nodes lead to. -/
def TPlan.reached (p : TPlan) : Nat → List TNode → List TNode
  | 0, l => l
  | fuel + 1, l =>
    let new := (p.succs.filter fun q => l.contains q.1).flatMap fun q => q.2.filter fun m => !l.contains m
    if new.isEmpty then l else p.reached fuel (unionList l new)

/-- The walk comes from one loop entry to the copies of another. -/
def TPlan.leads (p : TPlan) (a b : TLoop) : Bool :=
  (p.reached p.succs.length [⟨a.1, a.2 ++ [(a.1, 0)], none⟩]).any fun n =>
    decide (n.ctx.take b.2.length = b.2) && decide ((n.ctx[b.2.length]?.map fun q => q.1) = some b.1)

/-- The loop entry of some that the walk comes to first: none of the others leads to it that it does not lead to, and of two that lead to each
other the inner one, then the lower one. -/
def TPlan.firstLoop (p : TPlan) (ls : List TLoop) : Option TLoop :=
  (ls.filter fun l => !ls.any fun m => decide (m ≠ l) && p.leads m l && !p.leads l m).foldl (fun b l => match b with
    | none => some l
    | some m => if m.2.length < l.2.length ∨ (m.2.length = l.2.length ∧ l.1 < m.1) then some l else some m) none

/-- The kinds of some loop entries are decided; a region or a loop without copies makes what is known of other regions unsure. -/
def TDec.put (d : TDec) (ls : List (TLoop × TKind)) : TDec :=
  let news := ls.filter fun l => decide (l.2 ≠ .unrolled) && !(decide (l.2 = .region) && d.sure.contains l.1)
  { d with kinds := d.kinds.filter (fun q => !ls.any fun l => decide (l.1 = q.1)) ++ ls, sure := if news.isEmpty then d.sure else [] }

/-- What a fixed point of the walk decides of the loops (R181, R182), so that nothing depends on the order of the walk: an entry that a resolved
backward branch comes back to unrolls, or is a dynamic region when three unrolled loops enclose it; then one that was taken to unroll and
whose backward branches have all become dynamic has no copies; then the lowest one without a resolved backward branch has no copies; then
the first one that would need a 65th copy is a region. At last each region is walked again as if nothing were decided of it, since what has
been decided after it may have made its backward branches dynamic. -/
def decideLoops (d : TDec) (p : TPlan) : Option TDec :=
  let as_ := p.backs.flatMap fun b => b.2
  let resolved := fun (l : TLoop) => as_.any fun a => decide (a.loop = l) && a.resolved
  let put := fun (ls : List (TLoop × TKind)) => some (d.put ls)
  let fresh := unionList [] ((as_.filter fun a => a.resolved && (d.kindOf a.loop).isNone).map fun a => a.loop)
  let turned := (d.kinds.filter fun q => decide (q.2 = .unrolled) && !resolved q.1 && (p.envOf ⟨q.1.1, q.1.2 ++ [(q.1.1, 0)], none⟩).isSome).map fun q => q.1
  let beyond := unionList [] ((as_.filter fun a => a.beyond).map fun a => a.loop)
  let open_ := p.opens.filter fun l => (d.kindOf l).isNone
  if !fresh.isEmpty then put (fresh.map fun l => (l, if l.2.length ≥ 3 then .region else .unrolled))
  else if !turned.isEmpty then put (turned.map fun l => (l, .plain))
  else match open_.foldl (fun (b : Option TLoop) l => match b with
      | none => some l
      | some m => if l.1 < m.1 then some l else some m) none with
    | some l => put [(l, .plain)]
    | none => match p.firstLoop beyond with
      | some l => put [(l, .region)]
      | none =>
        let unsure := d.kinds.find? fun q => decide (q.2 = .region) && !d.sure.contains q.1 && (p.envOf ⟨q.1.1, q.1.2, some q.1.1⟩).isSome
        unsure.map fun q => { d with kinds := d.kinds.filter fun k => decide (k.1 ≠ q.1), sure := d.sure ++ [q.1] }

/-- Nodes are walked until nothing changes. -/
def findPlan (c : TRun) (d : TDec) : Nat → TPlan → TStage TPlan
  | 0, _ => .long
  | fuel + 1, p =>
    match p.work with
    | [] => (match decideLoops d p with
      | some d => .again d
      | none => .done p)
    | n :: work =>
      let o := walkClause c d n ((p.envOf n).getD {})
      let p := { p with work := work, pages := unionList p.pages o.pages }
      if !o.walks.isEmpty then .walks o.walks
      else if !o.hold.isEmpty then .again { d with withheld := unionList d.withheld o.hold }
      else if o.raw then .again { d with raw := d.raw ++ [n] }
      else
        let es := edgesOf c d n o
        findPlan c d fuel (followEdges d es { p with
          backs := p.backs.filter (fun b => decide (b.1 ≠ n)) ++ [(n, arrivalsOf n o es)]
          succs := p.succs.filter (fun b => decide (b.1 ≠ n)) ++ [(n, (es.filter fun x => x.1.2.isNone).map fun x => x.1.1)] })

/-! ### The residual code (R183, R185, R187, R366) -/

/-- The copy numbers of a place (R188). -/
def titerOfCtx (ctx : List (Nat × Nat)) : Nat :=
  ctx.length * 2 ^ 24 + (indexed 0 ctx).foldl (fun n p => n + p.2.2 * 2 ^ (8 * p.1)) 0

/-- A residual word with its back-map record. -/
structure TItem where
  word : Word
  off : Nat
  titer : Nat
  deriving DecidableEq, Repr

/-- The residual code so far: its words, the transfers to relocate (place, node, field), where each node stands, the nodes
that transfers name and that are not emitted, folds, static maps, and transfers whose target is checked in the original code. -/
structure TLay where
  words : Array TItem := #[]
  fix : List (Nat × TNode × TJump) := []
  placed : List (TNode × Nat) := []
  pending : List TNode := []
  folds : Nat := 0
  statics : List (Nat × List (Nat × Nat)) := []
  restore : List (Nat × List (Nat × Nat)) := []
  checks : List (Nat × Int) := []
  /-- `JMPI` or `CALLI` stands in the code. -/
  indirect : Bool := false
  unread : List Nat := []
  /-- The residual offset of the appended original code (R185). -/
  copy : Option Nat := none
  deriving Repr

/-- The static registers at a clause start (R189). -/
def staticMap (r : List (Nat × TVal)) : List (Nat × Nat) := r.map fun p => (p.1, p.2.val)

/-- What a trap restores between two points (R184): the registers that are static at both with one value and do not hold it. -/
def restoreMap (before after : Sparse TVal) (busy : List Nat) : List (Nat × Nat) :=
  (before.filter fun p => !p.2.held && !busy.contains p.1 && ((sfind p.1 after).map fun q => decide (q.val = p.2.val)).getD false).map
    fun p => (p.1, p.2.val)

/-- A transfer that stands at a place of the code. -/
def TLay.jump (dest : TJump → TNode) (at0 i : Nat) (j : Option TJump) (l : TLay) : TLay :=
  match j with
  | none => l
  | some j =>
    let l := match j.check with
      | some a => { l with checks := l.checks ++ [(4 * i, a)] }
      | none => l
    if !j.reloc then l
    else
      let n := dest j
      { l with fix := l.fix ++ [(i, n, { j with hint := j.hint.map fun h => at0 + h })]
               pending := if l.placed.any (fun p => p.1 == n) then l.pending else unionList l.pending [n] }

/-- One unit, with what is static after it. -/
def TLay.unit (dest : TJump → TNode) (ctx : List (Nat × Nat)) (l : TLay) (p : TUnit × Sparse TVal) : TLay :=
  let u := p.1
  let at0 := l.words.size
  let l := { l with restore := l.restore ++ [(4 * at0, restoreMap u.regs p.2 u.busy)] }
  let l := { l with words := l.words ++ (u.words.map fun (p : Word × Nat) => ({ word := p.1, off := p.2, titer := titerOfCtx ctx } : TItem)).toArray }
  l.jump dest at0 (at0 + u.words.length - 1) u.jump

/-- One residual clause. -/
def TLay.piece (dest : TJump → TNode) (ctx : List (Nat × Nat)) (l : TLay) (p : TPiece) : TLay :=
  let at0 := l.words.size
  let l := { l with
    statics := l.statics ++ [(4 * at0, staticMap p.regs)]
    restore := l.restore ++ [(4 * at0, restoreMap p.regs ((p.units.head?.map fun (u : TUnit) => u.regs).getD p.after) [])]
    words := l.words.push { word := p.hdr, off := p.off, titer := titerOfCtx ctx } }
  let l := l.jump dest at0 at0 p.jump
  (p.units.zip ((p.units.drop 1).map (fun (u : TUnit) => u.regs) ++ [p.after])).foldl (TLay.unit dest ctx) l

/-- A branch that joins an emitted clause or goes to the copy (R185, R366); `check`: one whose target the Tailor could not read. -/
def joinUnit (off : Nat) (check : Option Int) : TUnit :=
  { words := [(wordOfInstr (.bra 0 0), off)], jump := some { target := off, k := 18, check := check } }

/-- The clauses that bring a path to a node: materialised registers, and a branch where the node does not follow. -/
def bridge (e : TEnv) (p : Nat → Bool) (n : TNode) (jump : Bool) (check : Option Int := none) : Option (List TPiece) :=
  let t := TWalk.matWhere n.addr p ({ env := e } : TWalk)
  let us := t.units ++ (if jump then [joinUnit n.addr check] else [])
  if !t.hold.isEmpty then none
  else if us.isEmpty then some []
  else (splitParts (us.length + 1) (indexed 0 us)).map fun ps => piecesOf n.addr 0 0 e.regs t.env.regs ps

/-- The folds that a bridge cannot have (R183). -/
def bridgeHold (e : TEnv) (p : Nat → Bool) : List TFold := (TWalk.matWhere 0 p ({ env := e } : TWalk)).hold

/-- The budget (R185). -/
def budget (c : TRun) : Nat := min (4 * c.code.size) 16384

/-- The appended copy of the whole original code (R185). -/
def TLay.append (c : TRun) (l : TLay) : TLay :=
  let base := l.words.size
  { l with
    copy := some (4 * base), restore := l.restore ++ [(4 * base, [])]
    words := l.words ++ ((indexed 0 c.words.toList).map fun p => ({ word := p.2.getD 0, off := 4 * p.1, titer := 0 } : TItem)).toArray
    unread := (indexed 0 c.words.toList).filterMap fun p => if p.2.isNone then some (base + p.1) else none }

/-- The cutoff at a traversal (R185): the transition block, a branch to the copy of its clause, and the original code. -/
def cutoff (c : TRun) (d : TDec) (n : TNode) (e : TEnv) (l : TLay) : TStage TLay :=
  let check := match c.at n.addr with
    | .unread => some (n.addr : Int)
    | _ => none
  match bridge e.unfold (fun _ => true) n true check with
    | none => .again { d with withheld := unionList d.withheld (bridgeHold e.unfold fun _ => true) }
    | some ps => .done (TLay.append c (ps.foldl (TLay.piece (fun _ => ⟨n.addr, n.ctx, some (4 * c.code.size + 4)⟩) n.ctx) l))

/-- Where the code of a node goes on (R183, R366). -/
inductive TNext where
  | stop
  | fall (n : TNode)
  | failed (hold : List TFold)
  /-- The words that lead to the next clause exceed the budget: the cutoff is at that clause. -/
  | cut (n : TNode)
  deriving DecidableEq, Repr

/-- The path after a traversal: the registers that its successor does not know are materialised, and a branch joins a clause
that stands elsewhere. -/
def joinNext (c : TRun) (p : TPlan) (n t : TNode) (e : TEnv) (l : TLay) : TNext × TLay :=
  let placed := l.placed.any fun q => q.1 == t
  let te := (p.envOf t).getD {}
  let lost := fun k => c.entries.contains t.addr || (te.staticVal k).isNone
  match bridge e lost t placed with
  | none => (.failed (bridgeHold e lost), l)
  | some ps =>
    let after := (TWalk.matWhere t.addr lost ({ env := e } : TWalk)).env
    let words := ps.foldl (fun n p => n + 1 + unitWords p.units) 0
    if !ps.isEmpty && decide (l.words.size + words + ((transition 0 after).count - 1) + c.code.size > budget c) then (.cut t, l)
    else
    let l := ps.foldl (TLay.piece (fun _ => t) (if ps.isEmpty then n.ctx else t.ctx)) l
    (if placed then .stop else .fall t, l)

/-- The lowest place among those that wait. -/
def lowestNode (ns : List TNode) : Option TNode :=
  ns.foldl (fun b n => match b with
    | none => some n
    | some m => if n.addr < m.addr ∨ (n.addr = m.addr ∧ titerOfCtx n.ctx < titerOfCtx m.ctx) then some n else some m) none

/-- The code is laid out in walk order: the path that goes on first, then the lowest place that a transfer names. Behind indirect transfers the
original code is appended when there are clauses that the Tailor could not read (R179, R366). -/
def layOut (c : TRun) (d : TDec) (p : TPlan) : Nat → Option TNode → TLay → TStage TLay
  | 0, _, _ => .long
  | fuel + 1, cur, l =>
    match (match cur with
      | some n => some n
      | none => lowestNode l.pending) with
    | none => .done (if l.indirect && c.words.any Option.isNone then TLay.append c l else l)
    | some n =>
      let e := (p.envOf n).getD {}
      let o := walkClause c d n e
      if o.cut || decide (l.words.size + o.peak + c.code.size > budget c) || decide (l.folds + o.folds > 65536) then cutoff c d n e l
      else
        let dest := fun (j : TJump) => if j.k = 12 then ⟨j.target, [], none⟩ else (arrive c d n j.target).1
        let l := { l with placed := l.placed ++ [(n, 4 * l.words.size)], pending := l.pending.filter fun m => decide (m ≠ n)
                          folds := l.folds + o.folds, indirect := l.indirect || o.exits.indirect }
        let l := o.pieces.foldl (TLay.piece dest n.ctx) l
        let l := { l with pending := unionList l.pending ((o.exits.entries.map fun t => (⟨t, [], none⟩ : TNode)).filter fun m =>
          !l.placed.any fun q => q.1 == m) }
        match o.exits.next with
        | none => layOut c d p fuel none l
        | some t => match joinNext c p n (arrive c d n t).1 o.env l with
          | (.stop, l) => layOut c d p fuel none l
          | (.fall m, l) => layOut c d p fuel (some m) l
          | (.failed h, _) => .again { d with withheld := unionList d.withheld h }
          | (.cut m, l) => cutoff c d m o.env l

/-- A relocated field and its `XIMM` (R287). -/
def relocate (ws : Array TItem) (i : Nat) (off : Int) (j : TJump) : Array TItem :=
  let v := (BitVec.ofInt 32 off)
  let ws := ws.modify i fun x => { x with word := setBits x.word j.lo j.k v.toNat }
  match j.hint with
  | none => ws
  | some h => ws.modify h fun x => { x with word := setBits x.word 0 22 ((v.sshiftRight j.k).setWidth 22).toNat }

/-- The residual offset of a node: its place, or the copy of its clause (R185). -/
def TLay.placeOf (l : TLay) (n : TNode) : Nat :=
  match l.placed.find? fun p => p.1 = n with
  | some p => p.2
  | none => l.copy.getD 0 + n.addr

/-- Every transfer's offset in words. -/
def TLay.offsets (l : TLay) : List (Nat × Int × TJump) :=
  l.fix.map fun f => (f.1, ((l.placeOf f.2.1 : Int) - (4 * f.1 + 4 : Nat)) / 4, f.2.2)

/-- A field that cannot hold its offset. -/
def tooFar (f : Nat × Int × TJump) : Bool :=
  f.2.2.hint.isNone && !(decide (-(2 ^ (f.2.2.k - 1) : Int) ≤ f.2.1) && decide (f.2.1 < 2 ^ (f.2.2.k - 1)))

/-- The finished residual code. -/
def TLay.finish (c : TRun) (l : TLay) : Residual :=
  let ws := l.offsets.foldl (fun ws f => relocate ws f.1 f.2.1 f.2.2) l.words
  { words := ws.toList.map fun x => x.word
    orig := ws.toList.map fun x => x.off
    titer := ws.toList.map fun x => x.titer
    entries := c.entries.filterMap fun t => match l.placed.find? fun p => p.1 = ⟨t, [], none⟩ with
      | some p => some (t, p.2)
      | none => l.copy.map fun b => (t, b + t)
    statics := l.statics, restore := l.restore, checks := l.checks, copy := l.copy, unread := l.unread }

/-- A bound on the traversals and the restarts of a run, which makes the walk total and is never met: 2^14 words have fewer than 2^34 places with
up to three copy numbers, of which each is walked again fewer than 2^12 times and decides fewer than 2^5 points. -/
def tailorBound : Nat := 2 ^ 64

/-- The walk from VENTRY, again and again until nothing more is decided. The result: residual code with its folds and the pages of its
`CONST` reads. -/
def tailorWalk (c : TRun) (start : Nat) : Nat → TDec → TStage (Residual × Nat × List Nat)
  | 0, _ => .long
  | fuel + 1, d =>
    let (n, _) := if c.entries.contains start then ((⟨start, [], none⟩ : TNode), none) else arriveCtx c d [] none start
    match findPlan c d tailorBound ((({} : TPlan)).reach d n (enterEnv c ⟨start, [], none⟩ n (startEnv c c.queued))) with
    | .again d => tailorWalk c start fuel d
    | .walks l => .walks l
    | .long => .long
    | .done p =>
      match layOut c d p tailorBound (some n) {} with
        | .again d => tailorWalk c start fuel d
        | .walks l => .walks l
        | .long => .long
        | .done l =>
          if l.offsets.any tooFar then (if d.wide then .long else tailorWalk c start fuel { d with wide := true })
          else .done (l.finish c, l.folds, p.pages)

/-! ### `TAILOR_RUN` -/

/-- The code words as the Tailor reads them (R179); an address whose translation waits. -/
def readWords (s : State) (x : Context) (c : Code) : Nat → Nat → Except Nat (List (Option Word))
  | 0, _ => .ok []
  | n + 1, i =>
    match agentRead s (partCore s x) x.id (codeVa c (4 * i)) 2 4 with
    | .error (va, .miss) => .error va
    | r => match readWords s x c n (i + 1) with
      | .error va => .error va
      | .ok ws => .ok ((match r with
        | .ok bs => some (wordOf bs)
        | .error _ => none) :: ws)

/-- The marked argument words with their indices. -/
def markedIndexed (g : Grid) : List (Nat × Word) :=
  ((List.range g.launch.argCount).filter fun i => g.launch.static.testBit i).zip g.marked

/-- The grids that one run serves: those of its key that are due (R193). -/
def sameKey (g h : Grid) : Bool :=
  h.tailorDue && decide (h.ctx = g.ctx) && decide (h.code.objid = g.code.objid) && decide (h.code.hash = g.code.hash)
    && decide (h.launch.width = g.launch.width) && decide (h.launch.scratch = g.launch.scratch) && decide (h.launch.static = g.launch.static)
    && decide (h.marked = g.marked) && decide (dimsOf h.launch = dimsOf g.launch)

/-- The bytes of a cache entry (R191). -/
def fitBytes (f : FitEntry) : Nat :=
  12 * f.code.words.length + 8 * (f.code.statics.foldl (fun n p => n + p.2.length) 0) + 384

/-- An entry that a grid not yet retired runs (R191). -/
def pinned (s : State) (f : FitEntry) : Bool := s.grids.any fun g => decide (g.fit = some f.id) && g.ended.isNone

/-- The cached entries are within both limits. -/
def fitsHold (fs : List FitEntry) : Bool :=
  let l := fs.filter fun f => f.cached
  decide (l.length ≤ 4096) && decide (l.foldl (fun n f => n + fitBytes f) 0 ≤ 67108864)

/-- The least recently used entry that is not pinned. -/
def oldestFit (s : State) : Option FitEntry :=
  (s.fits.filter fun f => f.cached && !pinned s f).foldl (fun b f => match b with
    | none => some f
    | some o => if f.used < o.used then some f else some o) none

/-- Room is made for an entry (R191): whether it is cached. -/
def makeRoom (f : FitEntry) : Nat → State → Bool × State
  | 0, s => (false, s)
  | fuel + 1, s =>
    if fitsHold (s.fits ++ [f]) then (true, s)
    else match oldestFit s with
      | none => (false, s)
      | some o => makeRoom f fuel { s with fits := s.fits.filter fun g => decide (g.id ≠ o.id) }

/-- The grids that were due run their original code (R185). -/
def keepOriginal (g : Grid) (s : State) : State :=
  { s with grids := s.grids.map fun h => if sameKey g h then { h with tailorDue := false } else h }

/-- The run's result goes to its grids and into the fitting cache (R190, R191, R193). -/
def keepResidual (x : Context) (g : Grid) (r : Residual) (folds : Nat) (pages : List Nat) (s : State) : State :=
  let words := g.marked
  let (id, s) := fresh s
  let f : FitEntry :=
    { id := id, ctx := x.id, objid := g.code.objid, hash := g.code.hash, width := g.launch.width, scratch := g.launch.scratch
      caps := deviceCaps.toNat, digest := fitDigest x g.launch words, mask := g.launch.static, words := words, dims := dimsOf g.launch, code := r, folds := folds
      pages := pages, used := s.time }
  let same := sameKey g
  let (ok, s) := makeRoom f (s.fits.length + 1) s
  { s with
    fits := s.fits ++ [{ f with cached := ok }]
    grids := s.grids.map fun h =>
      if same h then { h with tailorDue := false, fit := some id, uncached := !ok, code := { h.code with residual := some r } } else h }

/-- `TAILOR_RUN` (R172, R185, R193). -/
def execTailorRun (grid : Nat) (s : State) : Host.Outcome State Fault Refusal :=
  .next (match findGrid grid s with
    | none => s
    | some g => match servedCtx s g.ctx with
      | none => s
      | some x =>
        if !g.tailorDue then s
        else if g.code.size > 16384 then keepOriginal g s
        else match readWords s x g.code g.code.size 0 with
          | .error va => agentWait (partCore s x) x.id va 2 .miss s
          | .ok ws =>
            let s := (List.range g.code.size).foldl (fun s i => agentFlits (partCore s x) x.id 2 (codeVa g.code (4 * i)) 4 s) s
            let c := TRun.scan { s := s, x := x, code := g.code, words := ws.toArray, arg := argRecord g.launch
                                 marked := markedIndexed g, queued := g.launch.queued, wgs := g.launch.wgs }
            match tailorWalk c (g.code.ventry - 0x100) tailorBound {} with
            | .done (r, n, pages) =>
              keepResidual x g r n pages (forgetWalks x.id (pages.foldl (fun s va => agentFlits (partCore s x) x.id 0 va 1 s) s))
            | .walks l => l.foldl (fun s va => agentWait (partCore s x) x.id va 0 .miss s) s
            | .again _ => s
            | .long => keepOriginal g (forgetWalks x.id s))

end Sys2Proof.Machine
end

