-- ==== Sys2Proof/Machine/Dispatch.lean ====
section
/-!
DEFINITION. The meaning of every instruction: one arm for each constructor of `Instr`.
-/

namespace Sys2Proof.Machine

/-- One instruction. -/
def exec (i : Instr) (s : State) : Host.Outcome State Fault Refusal :=
  match i with
  | .clauseHeader w a b l p => Sys2Proof.Machine.execClauseHeader w a b l p s
  | .nop => Sys2Proof.Machine.execNop s
  | .ximm imm => Sys2Proof.Machine.execXimm imm s
  | .ximmf imm => Sys2Proof.Machine.execXimmf imm s
  | .xscl sf => Sys2Proof.Machine.execXscl sf s
  | .xrnd f sf e m => Sys2Proof.Machine.execXrnd f sf e m s
  | .xevc p => Sys2Proof.Machine.execXevc p s
  | .xscp p => Sys2Proof.Machine.execXscp p s
  | .xpart => Sys2Proof.Machine.execXpart s
  | .pool c => Sys2Proof.Machine.execPool c s
  | .fadd _ d a b => Sys2Proof.Machine.execFadd d a b s
  | .fsub _ d a b => Sys2Proof.Machine.execFsub d a b s
  | .fmul _ d a b => Sys2Proof.Machine.execFmul d a b s
  | .fmac _ d a b => Sys2Proof.Machine.execFmac d a b s
  | .fmsb _ d a b => Sys2Proof.Machine.execFmsb d a b s
  | .fmin _ d a b => Sys2Proof.Machine.execFmin d a b s
  | .fmax _ d a b => Sys2Proof.Machine.execFmax d a b s
  | .fcps _ d a b => Sys2Proof.Machine.execFcps d a b s
  | .iadd _ d a b => Sys2Proof.Machine.execIadd d a b s
  | .isub _ d a b => Sys2Proof.Machine.execIsub d a b s
  | .imul _ d a b => Sys2Proof.Machine.execImul d a b s
  | .imulh _ d a b => Sys2Proof.Machine.execImulh d a b s
  | .umulh _ d a b => Sys2Proof.Machine.execUmulh d a b s
  | .imac _ d a b => Sys2Proof.Machine.execImac d a b s
  | .imin _ d a b => Sys2Proof.Machine.execImin d a b s
  | .imax _ d a b => Sys2Proof.Machine.execImax d a b s
  | .and _ d a b => Sys2Proof.Machine.execAnd d a b s
  | .or _ d a b => Sys2Proof.Machine.execOr d a b s
  | .xor _ d a b => Sys2Proof.Machine.execXor d a b s
  | .andn _ d a b => Sys2Proof.Machine.execAndn d a b s
  | .shl _ d a b => Sys2Proof.Machine.execShl d a b s
  | .shr _ d a b => Sys2Proof.Machine.execShr d a b s
  | .sar _ d a b => Sys2Proof.Machine.execSar d a b s
  | .rot _ d a b => Sys2Proof.Machine.execRot d a b s
  | .hadd2 _ d a b => Sys2Proof.Machine.execHadd2 d a b s
  | .hmul2 _ d a b => Sys2Proof.Machine.execHmul2 d a b s
  | .hmac2 _ d a b => Sys2Proof.Machine.execHmac2 d a b s
  | .badd2 _ d a b => Sys2Proof.Machine.execBadd2 d a b s
  | .bmul2 _ d a b => Sys2Proof.Machine.execBmul2 d a b s
  | .bmac2 _ d a b => Sys2Proof.Machine.execBmac2 d a b s
  | .umin _ d a b => Sys2Proof.Machine.execUmin d a b s
  | .umax _ d a b => Sys2Proof.Machine.execUmax d a b s
  | .dadd _ d a b => Sys2Proof.Machine.execDadd d a b s
  | .dmul _ d a b => Sys2Proof.Machine.execDmul d a b s
  | .dmac _ d a b => Sys2Proof.Machine.execDmac d a b s
  | .dot4 _ d a b => Sys2Proof.Machine.execDot4 d a b s
  | .dot8 _ d a b => Sys2Proof.Machine.execDot8 d a b s
  | .hdot2 _ d a b => Sys2Proof.Machine.execHdot2 d a b s
  | .prmt _ d a b => Sys2Proof.Machine.execPrmt d a b s
  | .rnd _ d a b => Sys2Proof.Machine.execRnd d a b s
  | .mov _ m d a => Sys2Proof.Machine.execMov m d a s
  | .fneg _ m d a => Sys2Proof.Machine.execFneg m d a s
  | .fabs _ m d a => Sys2Proof.Machine.execFabs m d a s
  | .frcp _ d a => Sys2Proof.Machine.execFrcp d a s
  | .frsq _ d a => Sys2Proof.Machine.execFrsq d a s
  | .fsqrt _ d a => Sys2Proof.Machine.execFsqrt d a s
  | .fexp2 _ d a => Sys2Proof.Machine.execFexp2 d a s
  | .flog2 _ d a => Sys2Proof.Machine.execFlog2 d a s
  | .fsinp _ d a => Sys2Proof.Machine.execFsinp d a s
  | .fcosp _ d a => Sys2Proof.Machine.execFcosp d a s
  | .ftanh _ d a => Sys2Proof.Machine.execFtanh d a s
  | .frint _ m d a => Sys2Proof.Machine.execFrint m d a s
  | .ffrac _ d a => Sys2Proof.Machine.execFfrac d a s
  | .fclass _ m d a => Sys2Proof.Machine.execFclass m d a s
  | .cvt _ m d a => Sys2Proof.Machine.execCvt m d a s
  | .qnt _ f p d a => Sys2Proof.Machine.execQnt f p d a s
  | .dqnt _ f p d a => Sys2Proof.Machine.execDqnt f p d a s
  | .popc _ d a => Sys2Proof.Machine.execPopc d a s
  | .clz _ d a => Sys2Proof.Machine.execClz d a s
  | .brev _ d a => Sys2Proof.Machine.execBrev d a s
  | .bfind _ d a => Sys2Proof.Machine.execBfind d a s
  | .ineg _ d a => Sys2Proof.Machine.execIneg d a s
  | .iabs _ d a => Sys2Proof.Machine.execIabs d a s
  | .dsqrt _ d a => Sys2Proof.Machine.execDsqrt d a s
  | .drcp _ d a => Sys2Proof.Machine.execDrcp d a s
  | .iaddi _ d a imm => Sys2Proof.Machine.execIaddi d a imm s
  | .imuli _ d a imm => Sys2Proof.Machine.execImuli d a imm s
  | .shli _ d a n => Sys2Proof.Machine.execShli d a n s
  | .shri _ d a n => Sys2Proof.Machine.execShri d a n s
  | .sari _ d a n => Sys2Proof.Machine.execSari d a n s
  | .andi _ d a imm => Sys2Proof.Machine.execAndi d a imm s
  | .ori _ d a imm => Sys2Proof.Machine.execOri d a imm s
  | .xori _ d a imm => Sys2Proof.Machine.execXori d a imm s
  | .movi _ d imm => Sys2Proof.Machine.execMovi d imm s
  | .fsetEq _ c m a b => Sys2Proof.Machine.execFsetEq c m a b s
  | .fsetNe _ c m a b => Sys2Proof.Machine.execFsetNe c m a b s
  | .fsetLt _ c m a b => Sys2Proof.Machine.execFsetLt c m a b s
  | .fsetLe _ c m a b => Sys2Proof.Machine.execFsetLe c m a b s
  | .fsetGt _ c m a b => Sys2Proof.Machine.execFsetGt c m a b s
  | .fsetGe _ c m a b => Sys2Proof.Machine.execFsetGe c m a b s
  | .fsetUn _ c m a b => Sys2Proof.Machine.execFsetUn c m a b s
  | .fsetOr _ c m a b => Sys2Proof.Machine.execFsetOr c m a b s
  | .isetEq _ c m a b => Sys2Proof.Machine.execIsetEq c m a b s
  | .isetNe _ c m a b => Sys2Proof.Machine.execIsetNe c m a b s
  | .isetLt _ c m a b => Sys2Proof.Machine.execIsetLt c m a b s
  | .isetLe _ c m a b => Sys2Proof.Machine.execIsetLe c m a b s
  | .isetGt _ c m a b => Sys2Proof.Machine.execIsetGt c m a b s
  | .isetGe _ c m a b => Sys2Proof.Machine.execIsetGe c m a b s
  | .usetLt _ c m a b => Sys2Proof.Machine.execUsetLt c m a b s
  | .usetLe _ c m a b => Sys2Proof.Machine.execUsetLe c m a b s
  | .usetGt _ c m a b => Sys2Proof.Machine.execUsetGt c m a b s
  | .usetGe _ c m a b => Sys2Proof.Machine.execUsetGe c m a b s
  | .mlog _ d a b f => Sys2Proof.Machine.execMlog d a b f s
  | .cmov _ c d a => Sys2Proof.Machine.execCmov c d a s
  | .shfl _ k d a => Sys2Proof.Machine.execShfl k d a s
  | .shflXor _ imm d a => Sys2Proof.Machine.execShflXor imm d a s
  | .shflUp _ imm d a => Sys2Proof.Machine.execShflUp imm d a s
  | .shflDn _ imm d a => Sys2Proof.Machine.execShflDn imm d a s
  | .shflIdx _ imm d a => Sys2Proof.Machine.execShflIdx imm d a s
  | .vote _ k d a => Sys2Proof.Machine.execVote k d a s
  | .ballot _ sf a => Sys2Proof.Machine.execBallot sf a s
  | .gred _ sf r a => Sys2Proof.Machine.execGred sf r a s
  | .mmov _ r m sf => Sys2Proof.Machine.execMmov r m sf s
  | .mact _ d => Sys2Proof.Machine.execMact d s
  | .sadd _ d a b => Sys2Proof.Machine.execSadd d a b s
  | .ssub _ d a b => Sys2Proof.Machine.execSsub d a b s
  | .smul _ d a b => Sys2Proof.Machine.execSmul d a b s
  | .sand _ d a b => Sys2Proof.Machine.execSand d a b s
  | .sor _ d a b => Sys2Proof.Machine.execSor d a b s
  | .sxor _ d a b => Sys2Proof.Machine.execSxor d a b s
  | .sshl _ d a b => Sys2Proof.Machine.execSshl d a b s
  | .sshr _ d a b => Sys2Proof.Machine.execSshr d a b s
  | .ssar _ d a b => Sys2Proof.Machine.execSsar d a b s
  | .smin _ d a b => Sys2Proof.Machine.execSmin d a b s
  | .smax _ d a b => Sys2Proof.Machine.execSmax d a b s
  | .saddi _ d a imm => Sys2Proof.Machine.execSaddi d a imm s
  | .smovi _ d imm => Sys2Proof.Machine.execSmovi d imm s
  | .smovhi _ d imm => Sys2Proof.Machine.execSmovhi d imm s
  | .sset _ d a b c => Sys2Proof.Machine.execSset d a b c s
  | .vread _ d a v => Sys2Proof.Machine.execVread d a v s
  | .sldc _ d a n imm => Sys2Proof.Machine.execSldc d a n imm s
  | .sldlit _ d imm => Sys2Proof.Machine.execSldlit d imm s
  | .csrr _ d c => Sys2Proof.Machine.execCsrr d c s
  | .csrw _ a c => Sys2Proof.Machine.execCsrw a c s
  | .ld _ n d x sf => Sys2Proof.Machine.execLd n d x sf s
  | .st _ n d x sf => Sys2Proof.Machine.execSt n d x sf s
  | .ldb _ n d x sf => Sys2Proof.Machine.execLdb n d x sf s
  | .ldh _ n d x sf => Sys2Proof.Machine.execLdh n d x sf s
  | .stb _ n d x => Sys2Proof.Machine.execStb n d x s
  | .sth _ n d x => Sys2Proof.Machine.execSth n d x s
  | .ldx _ n d x sf => Sys2Proof.Machine.execLdx n d x sf s
  | .stx _ n d x sf => Sys2Proof.Machine.execStx n d x sf s
  | .pref _ n x sf => Sys2Proof.Machine.execPref n x sf s
  | .evict _ n x sf => Sys2Proof.Machine.execEvict n x sf s
  | .bload _ n sf x => Sys2Proof.Machine.execBload n sf x s
  | .bset _ n a => Sys2Proof.Machine.execBset n a s
  | .aadd _ n d x p => Sys2Proof.Machine.execAadd n d x p s
  | .amin _ n d x p => Sys2Proof.Machine.execAmin n d x p s
  | .amax _ n d x p => Sys2Proof.Machine.execAmax n d x p s
  | .aumin _ n d x p => Sys2Proof.Machine.execAumin n d x p s
  | .aumax _ n d x p => Sys2Proof.Machine.execAumax n d x p s
  | .aand _ n d x p => Sys2Proof.Machine.execAand n d x p s
  | .aor _ n d x p => Sys2Proof.Machine.execAor n d x p s
  | .axor _ n d x p => Sys2Proof.Machine.execAxor n d x p s
  | .axchg _ n d x p => Sys2Proof.Machine.execAxchg n d x p s
  | .acas _ n d x p => Sys2Proof.Machine.execAcas n d x p s
  | .afadd _ n d x p => Sys2Proof.Machine.execAfadd n d x p s
  | .copy _ sf d k a => Sys2Proof.Machine.execCopy sf d k a s
  | .sealBatch _ d => Sys2Proof.Machine.execSealBatch d s
  | .waitb _ a => Sys2Proof.Machine.execWaitb a s
  | .fence _ k p => Sys2Proof.Machine.execFence k p s
  | .append _ u d x => Sys2Proof.Machine.execAppend u d x s
  | .bra _ o => Sys2Proof.Machine.execBra o s
  | .brm _ m o => Sys2Proof.Machine.execBrm m o s
  | .brmn _ m o => Sys2Proof.Machine.execBrmn m o s
  | .brs _ sf o => Sys2Proof.Machine.execBrs sf o s
  | .brsz _ sf o => Sys2Proof.Machine.execBrsz sf o s
  | .call _ o => Sys2Proof.Machine.execCall o s
  | .ret _ => Sys2Proof.Machine.execRet s
  | .jmpi _ a g => Sys2Proof.Machine.execJmpi a g s
  | .calli _ a g => Sys2Proof.Machine.execCalli a g s
  | .lpad _ g => Sys2Proof.Machine.execLpad g s
  | .split _ j => Sys2Proof.Machine.execSplit j s
  | .join _ j => Sys2Proof.Machine.execJoin j s
  | .drop _ j => Sys2Proof.Machine.execDrop j s
  | .bar _ imm => Sys2Proof.Machine.execBar imm s
  | .exit _ => Sys2Proof.Machine.execExit s
  | .trap _ c => Sys2Proof.Machine.execTrap c s
  | .enter _ r => Sys2Proof.Machine.execEnter r s
  | .leave _ => Sys2Proof.Machine.execLeave s
  | .spawn _ sf => Sys2Proof.Machine.execSpawn sf s
  | .chwait _ => Sys2Proof.Machine.execChwait s
  | .yield _ => Sys2Proof.Machine.execYield s
  | .cclr _ g => Sys2Proof.Machine.execCclr g s
  | .lobe _ y g p w => Sys2Proof.Machine.execLobe y g p w s
  | .lmix _ g h w => Sys2Proof.Machine.execLmix g h w s
  | .layer _ g h w => Sys2Proof.Machine.execLayer g h w s
  | .lscl _ g w => Sys2Proof.Machine.execLscl g w s
  | .frame _ g n => Sys2Proof.Machine.execFrame g n s
  | .samp _ g d u => Sys2Proof.Machine.execSamp g d u s
  | .eval _ g d w => Sys2Proof.Machine.execEval g d w s
  | .pdf _ g d w => Sys2Proof.Machine.execPdf g d w s
  | .csave _ g n x => Sys2Proof.Machine.execCsave g n x s
  | .cload _ g n x => Sys2Proof.Machine.execCload g n x s
  | .trace _ k h r => Sys2Proof.Machine.execTrace k h r s
  | .tracep _ k h r => Sys2Proof.Machine.execTracep k h r s
  | .visq _ k v => Sys2Proof.Machine.execVisq k v s
  | .pslot _ d p => Sys2Proof.Machine.execPslot d p s
  | .pfree _ d p => Sys2Proof.Machine.execPfree d p s
  | .qpush _ q sf m => Sys2Proof.Machine.execQpush q sf m s
  | .regrp _ o sf => Sys2Proof.Machine.execRegrp o sf s
  | .tfeed _ sf v f => Sys2Proof.Machine.execTfeed sf v f s
  | .tdrain _ sf d c => Sys2Proof.Machine.execTdrain sf d c s
  | .trel _ sf => Sys2Proof.Machine.execTrel sf s
  | .mma _ x f b a c e => Sys2Proof.Machine.execMma x f b a c e s
  | .mmaPair _ x f b a c e => Sys2Proof.Machine.execMmaPair x f b a c e s
  | .mguid _ x sf => Sys2Proof.Machine.execMguid x sf s
  | .mzero _ x => Sys2Proof.Machine.execMzero x s
  | .mcvt _ x f => Sys2Proof.Machine.execMcvt x f s
  | .mwait _ sf => Sys2Proof.Machine.execMwait sf s
  | .ctab _ a n => Sys2Proof.Machine.execCtab a n s
  | .tlbw _ a => Sys2Proof.Machine.execTlbw a s
  | .tlbi _ k a => Sys2Proof.Machine.execTlbi k a s
  | .hret _ => Sys2Proof.Machine.execHret s
  | .hretEnd _ => Sys2Proof.Machine.execHretEnd s
  | .bkpt _ c => Sys2Proof.Machine.execBkpt c s
  | .snap _ a g => Sys2Proof.Machine.execSnap a g s
  | .hostTailWrite q tail => Sys2Proof.Machine.execHostTailWrite q tail s
  | .launchAdmit fromSpawn n => Sys2Proof.Machine.execLaunchAdmit fromSpawn n s
  | .tailorRun grid => Sys2Proof.Machine.execTailorRun grid s
  | .workgroupPlace grid die core coreU wins => Sys2Proof.Machine.execWorkgroupPlace grid die core coreU wins s
  | .groupFormTimeout isBin grid n => Sys2Proof.Machine.execGroupFormTimeout isBin grid n s
  | .varLatencyComplete grp n => Sys2Proof.Machine.execVarLatencyComplete grp n s
  | .rayWalkComplete grp n => Sys2Proof.Machine.execRayWalkComplete grp n s
  | .visqComplete grp n => Sys2Proof.Machine.execVisqComplete grp n s
  | .copyComplete grp n => Sys2Proof.Machine.execCopyComplete grp n s
  | .patternTableEnter grp => Sys2Proof.Machine.execPatternTableEnter grp s
  | .patternEntryIssue cluster => Sys2Proof.Machine.execPatternEntryIssue cluster s
  | .patternEntryComplete entry => Sys2Proof.Machine.execPatternEntryComplete entry s
  | .storePerformAtHome n => Sys2Proof.Machine.execStorePerformAtHome n s
  | .l1WriteBack core line => Sys2Proof.Machine.execL1WriteBack core line s
  | .leaseExpiry lvl unit line => Sys2Proof.Machine.execLeaseExpiry lvl unit line s
  | .fenceReleaseComplete grp => Sys2Proof.Machine.execFenceReleaseComplete grp s
  | .appendGrant grp => Sys2Proof.Machine.execAppendGrant grp s
  | .groupRetire grp => Sys2Proof.Machine.execGroupRetire grp s
  | .completionRecordWrite grid => Sys2Proof.Machine.execCompletionRecordWrite grid s
  | .workgroupSaveOut wg => Sys2Proof.Machine.execWorkgroupSaveOut wg s
  | .workgroupRestore wg core coreU => Sys2Proof.Machine.execWorkgroupRestore wg core coreU s
  | .taskCommit q => Sys2Proof.Machine.execTaskCommit q s
  | .issueStarvation core quarter => Sys2Proof.Machine.execIssueStarvation core quarter s
  | .frontierAgeLimit grp => Sys2Proof.Machine.execFrontierAgeLimit grp s
  | .tlbMissWalk core => Sys2Proof.Machine.execTlbMissWalk core s
  | .pageReportWrite => Sys2Proof.Machine.execPageReportWrite s
  | .handlerStart core => Sys2Proof.Machine.execHandlerStart core s
  | .preempt ctx => Sys2Proof.Machine.execPreempt ctx s
  | .contextMakeResident ctx cores => Sys2Proof.Machine.execContextMakeResident ctx cores s
  | .hangWatchdog ctx => Sys2Proof.Machine.execHangWatchdog ctx s
  | .eccCorrectable hbm pa => Sys2Proof.Machine.execEccCorrectable hbm pa s
  | .eccUncorrectable site unit hbm pa => Sys2Proof.Machine.execEccUncorrectable site unit hbm pa s
  | .deviceStart rep => Sys2Proof.Machine.execDeviceStart rep s
  | .firmwareReadyTimeout => Sys2Proof.Machine.execFirmwareReadyTimeout s
  | .peerLeaveAnnounce member => Sys2Proof.Machine.execPeerLeaveAnnounce member s
  | .peerSilenceTimeout member => Sys2Proof.Machine.execPeerSilenceTimeout member s
  | .peerJoin member count => Sys2Proof.Machine.execPeerJoin member count s
  | .timeJoinComplete member => Sys2Proof.Machine.execTimeJoinComplete member s
  | .presentCheck => Sys2Proof.Machine.execPresentCheck s
  | .presentInstant => Sys2Proof.Machine.execPresentInstant s
  | .hostCxlMemWrite pa bytes => Sys2Proof.Machine.execHostCxlMemWrite pa bytes s
  | .hostCxlMemRead pa len => Sys2Proof.Machine.execHostCxlMemRead pa len s
  | .sampleRecord grp pc va qtime => Sys2Proof.Machine.execSampleRecord grp pc va qtime s
  | .mbevtWrite w => Sys2Proof.Machine.execMbevtWrite w s
  | .mailboxRegisterWrite off w => Sys2Proof.Machine.execMailboxRegisterWrite off w s
  | .mailboxUnknown => Sys2Proof.Machine.execMailboxUnknown s
  | .ctxCreate => Sys2Proof.Machine.execCtxCreate s
  | .ctxDestroy => Sys2Proof.Machine.execCtxDestroy s
  | .map => Sys2Proof.Machine.execMap s
  | .hemResume => Sys2Proof.Machine.execHemResume s
  | .unmap => Sys2Proof.Machine.execUnmap s
  | .faultRing => Sys2Proof.Machine.execFaultRing s
  | .queueSetup => Sys2Proof.Machine.execQueueSetup s
  | .queueClose => Sys2Proof.Machine.execQueueClose s
  | .poolSetup => Sys2Proof.Machine.execPoolSetup s
  | .queueReset => Sys2Proof.Machine.execQueueReset s
  | .traceArm => Sys2Proof.Machine.execTraceArm s
  | .traceStatus => Sys2Proof.Machine.execTraceStatus s
  | .peerExport => Sys2Proof.Machine.execPeerExport s
  | .peerImport => Sys2Proof.Machine.execPeerImport s
  | .framelock => Sys2Proof.Machine.execFramelock s
  | .frameSource => Sys2Proof.Machine.execFrameSource s
  | .frameStatus => Sys2Proof.Machine.execFrameStatus s
  | .attest => Sys2Proof.Machine.execAttest s
  | .pocketRead => Sys2Proof.Machine.execPocketRead s
  | .dbgAttach => Sys2Proof.Machine.execDbgAttach s
  | .dbgDetach => Sys2Proof.Machine.execDbgDetach s
  | .dbgHalt => Sys2Proof.Machine.execDbgHalt s
  | .dbgResume => Sys2Proof.Machine.execDbgResume s
  | .dbgBreak => Sys2Proof.Machine.execDbgBreak s
  | .dbgWatch => Sys2Proof.Machine.execDbgWatch s
  | .dbgRead => Sys2Proof.Machine.execDbgRead s
  | .dbgWrite => Sys2Proof.Machine.execDbgWrite s
  | .dbgSample => Sys2Proof.Machine.execDbgSample s
  | .dbgEvents => Sys2Proof.Machine.execDbgEvents s
  | .ctxPreempt => Sys2Proof.Machine.execCtxPreempt s
  | .ctxRestore => Sys2Proof.Machine.execCtxRestore s
  | .unitMap => Sys2Proof.Machine.execUnitMap s
  | .illegalEncoding w => Sys2Proof.Machine.execIllegalEncoding w s
  | .fetchFault refused info => Sys2Proof.Machine.execFetchFault refused info s
  | .cxlCacheSnoop pa bytes => Sys2Proof.Machine.execCxlCacheSnoop pa bytes s
  | .peerAccess member win off op => Sys2Proof.Machine.execPeerAccess member win off op s
  | .ideStreamSetup => Sys2Proof.Machine.execIdeStreamSetup s
  | .partitionChange layout => Sys2Proof.Machine.execPartitionChange layout s
  | .thermalClockLimit mhz => Sys2Proof.Machine.execThermalClockLimit mhz s

end Sys2Proof.Machine
end

