-- ==== Sys2Proof/Machine/Place.lean ====
section
/-!
DEFINITION. An issuer with one code word before it, for `State.withFetchWord`: what the front end, a dispatcher and the
walker would otherwise have set up (log entry 3).
-/

namespace Sys2Proof.Machine

/-- The offset of the word in the code: a class 0 or class 14 word and the first word of a clause body. -/
def placePc (w : Word) : Nat := if classOf w = 0 ∨ classOf w = 14 then 0 else 4

/-- The kind of issuer that accepts the word (R61). -/
def placeKind (w : Word) : Issuer :=
  if classOf w = 15 then
    if 21 ≤ bitsOf w 26 22 ∧ bitsOf w 26 22 ≤ 26 then .bobbin
    else if 27 ≤ bitsOf w 26 22 ∧ bitsOf w 26 22 ≤ 29 then .handler
    else .vector
  else .vector

/-- The clause position: none before a header or a pool, else the first word of the body; a hint word leaves room for its
target. -/
def placePos (w : Word) : Option Pos :=
  if classOf w = 0 ∨ classOf w = 14 then none
  else some { hdr := 0, len := if classOf w = 1 then 2 else 1, issued := 0, seta := 0, setb := 1, pri := 0 }

/-- The number of the context, and its code object's declarations. -/
def placeCode : Code :=
  { size := 16, features := ~~~0, vregs := 224, kregs := 8, closures := 4, traceDepth := 4, widths := 7, tiles := 8, accs := 4 }

/-- The issuer: one group of width 8, or one thread. -/
def placeGroup (uid wg : Nat) (w : Word) : Group :=
  let one := decide (placeKind w ≠ .vector)
  { uid := uid, kind := placeKind w, ctx := 1, wg := wg, width := if one then 1 else 8, exist := if one then 1 else 0xFF,
    live := if one then 1 else 0xFF, code := placeCode
    act := some { pc := placePc w, mask := if one then 1 else 0xFF, pos := placePos w } }

/-- The state with the issuer loaded, its workgroup, grid and context, the translation of the code page and the word. -/
def placeWord (w : Word) (s : State) : State :=
  let uid := s.nextId
  let s := { s with
    tape := []
    nextId := uid + 3
    groups := if s.grp.uid = 0 then s.groups else s.grp :: s.groups
    grp := placeGroup uid (uid + 1) w
    wgs := { uid := uid + 1, grid := uid + 2, ctx := 1, ntiles := 8, naccs := 4, scratchSize := 65536 } :: s.wgs
    grids := { uid := uid + 2, ctx := 1, code := placeCode } :: s.grids
    ctxs := { id := 1, resident := true, handlerVa := some 65536 } :: s.ctxs
    tlb := { core := 0, ctx := 1, va := 0, size := 0, pa := 0, perm := 15 } :: s.tlb }
  setHomeBytes (0x100 + placePc w) (toBytes 4 w.toNat) s

end Sys2Proof.Machine
end

