-- ==== Sys2Proof/Machine/Step.lean ====
section
/-!
DEFINITION. One step of the machine: the turn that the schedule names (log entry 1), or an issue slot of the loaded issuer;
and the placing of one instruction where the next step fetches it.
-/

namespace Sys2Proof.Machine

/-- One issue slot of the loaded issuer (R44), when it is the one whose word issues (R119, R265). -/
def issue (s : State) : Host.Outcome State Fault Refusal :=
  if passedOver exec s then .next s
  else match nextInstr s with
  | .idle s => .next s
  | .illegal w s => execIllegalEncoding w s
  | .nothing r info s => execFetchFault r info s
  | .word i before =>
    match exec i before with
    | .next after => .next (noteJoin exec s (afterIssue i before after))
    | .fault r => .fault r
    | .refused r => .refused r

/-- One turn of the schedule. -/
def takeSlot (t : Turn) (s : State) : Host.Outcome State Fault Refusal :=
  match t with
  | .issue uid => issue (loadGroup uid s)
  | .event i => if isEvent i then exec i s else .next s
  | .perform uid n lane => .next (performNth uid n (fun p => decide (p.lane = lane)) s)
  | .peerStore member win off bytes => .next (peerStores member win off bytes s)

/-- Device time goes on to a turn (R340). -/
def advanceTime (due : Nat) (s : State) : State :=
  let s := passTime due s
  { s with time := max s.time due }

/-- The turn of one step: the next one of the schedule, or an issue slot of the loaded issuer. -/
def turn (s : State) : Host.Outcome State Fault Refusal :=
  match s.tape with
  | [] => issue s
  | t :: rest => takeSlot t.what (advanceTime t.due { s with tape := rest })

/-- What every step ends with: the next fetch of a changed code word chooses anew (R51), time that does not count towards a hang is left out
(R337), the check of a frame whose moment the turn has passed is made (R340), and the groups that have become issuable are noted (R265). -/
def stepDone (before after : State) : State :=
  noteReady exec before (noteExcused before (nextFetch (checkLate (max before.time ((before.tape.head?.map fun t => t.due).getD 0)) after)))

/-- One step: a turn, and what every step ends with. -/
def step (s : State) : Host.Outcome State Fault Refusal :=
  match turn s with
  | .next after => .next (stepDone s after)
  | .fault r => .fault r
  | .refused r => .refused r

/-- The state with one instruction where the next step fetches it. -/
def State.withFetchWord (s : State) (_nbits w : Nat) : State := placeWord (BitVec.ofNat 32 w) s

end Sys2Proof.Machine
end

