-- ==== Sys2Proof/Laws/PerInstr.lean ====
section
/-!
SUPPORT. Decoding the word of an instruction gives the instruction back, one lemma for each constructor.
The device steps have no word.
-/

namespace Sys2Proof.Laws.RoundTrip

/-- An instruction that has a word and holds no reserved value is what its word decodes to. -/
def Statement (i : Instr) : Prop :=
  i.wf = true → ∀ w, encode i = some w → decodeWord w = .ok i

theorem layout_div (k : Nat) (v : BitVec k) (q : Nat) :
    (v.toNat + 2 ^ k * q) / 2 ^ k = q := by
  rw [Nat.add_mul_div_left _ _ (Nat.two_pow_pos k), Nat.div_eq_of_lt v.isLt, Nat.zero_add]

/-- The lowest field. -/
@[simp] theorem bitsAt_head (k : Nat) (v : BitVec k) (fs : Layout) : bitsAt (layoutNat (⟨k, v⟩ :: fs)) 0 k = v.toNat := by
  simp [bitsAt, layoutNat, Nat.mod_eq_of_lt v.isLt]

/-- A field above the lowest one. -/
@[simp] theorem bitsAt_tail (k : Nat) (v : BitVec k) (fs : Layout) (lo len : Nat) (h : k ≤ lo) :
    bitsAt (layoutNat (⟨k, v⟩ :: fs)) lo len = bitsAt (layoutNat fs) (lo - k) len := by
  obtain ⟨m, rfl⟩ := Nat.exists_eq_add_of_le h
  simp only [bitsAt, layoutNat, Nat.pow_add, ← Nat.div_div_eq_div_mul, layout_div k v, Nat.add_sub_cancel_left]

@[simp] theorem field_head (k : Nat) (v : BitVec k) (fs : Layout) : field (layoutNat (⟨k, v⟩ :: fs)) 0 k = v := by
  apply BitVec.eq_of_toNat_eq
  simp [field, bitsAt_head]

@[simp] theorem field_tail (k : Nat) (v : BitVec k) (fs : Layout) (lo len : Nat) (h : k ≤ lo) :
    field (layoutNat (⟨k, v⟩ :: fs)) lo len = field (layoutNat fs) (lo - k) len := by
  simp only [field, bitsAt_tail k v fs lo len h]

/-- The total width of a layout. -/
def width : Layout → Nat
  | [] => 0
  | ⟨k, _⟩ :: fs => k + width fs

theorem layoutNat_lt (l : Layout) : layoutNat l < 2 ^ width l := by
  induction l with
  | nil => simp [layoutNat, width]
  | cons f fs ih =>
    obtain ⟨k, v⟩ := f
    have hv := v.isLt
    have h : 2 ^ k * (layoutNat fs + 1) ≤ 2 ^ k * 2 ^ width fs := Nat.mul_le_mul_left _ ih
    simp only [layoutNat, width, Nat.pow_add]
    rw [Nat.mul_add, Nat.mul_one] at h
    omega

theorem of_layout {i : Instr} (l : Layout) (he : layout i = some l) (hw : width l = 32)
    (hd : i.wf = true → decodeNat (layoutNat l) = .ok i) : Statement i := by
  intro hwf w h
  simp only [encode, he, Option.map_some, Option.some.injEq] at h
  subst h
  have hn := layoutNat_lt l
  rw [hw] at hn
  simp only [decodeWord, BitVec.toNat_ofNat, Nat.mod_eq_of_lt hn]
  exact hd hwf

theorem of_none {i : Instr} (h : layout i = none) : Statement i := by
  intro _ w hw
  simp [encode, h] at hw

theorem clauseHeader (w : BitVec 12) (a : BitVec 4) (b : BitVec 4) (l : BitVec 4) (p : BitVec 3) : Statement (.clauseHeader w a b l p) :=
  of_layout _ rfl rfl fun hwf => by
    simp [decodeNat, decodeClass0, accept, hwf, bitsAre]

theorem nop : Statement .nop :=
  of_layout _ rfl rfl fun hwf => by
    simp [decodeNat, decodeClass1, accept, hwf, bitsAre]

theorem ximm (i : BitVec 22) : Statement (.ximm i) :=
  of_layout _ rfl rfl fun hwf => by
    simp [decodeNat, decodeClass1, accept, hwf, bitsAre]

theorem ximmf (i : BitVec 22) : Statement (.ximmf i) :=
  of_layout _ rfl rfl fun hwf => by
    simp [decodeNat, decodeClass1, accept, hwf, bitsAre]

theorem xscl (s : BitVec 6) : Statement (.xscl s) :=
  of_layout _ rfl rfl fun hwf => by
    simp [decodeNat, decodeClass1, accept, hwf, bitsAre]

theorem xrnd (f : BitVec 1) (s : BitVec 1) (e : BitVec 6) (m : BitVec 3) : Statement (.xrnd f s e m) :=
  of_layout _ rfl rfl fun hwf => by
    simp [decodeNat, decodeClass1, accept, hwf, bitsAre]

theorem xevc (p : BitVec 2) : Statement (.xevc p) :=
  of_layout _ rfl rfl fun hwf => by
    simp [decodeNat, decodeClass1, accept, hwf, bitsAre]

theorem xscp (p : BitVec 2) : Statement (.xscp p) :=
  of_layout _ rfl rfl fun hwf => by
    simp [decodeNat, decodeClass1, accept, hwf, bitsAre]

theorem xpart : Statement .xpart :=
  of_layout _ rfl rfl fun hwf => by
    simp [decodeNat, decodeClass1, accept, hwf, bitsAre]

theorem pool (c : BitVec 12) : Statement (.pool c) :=
  of_layout _ rfl rfl fun hwf => by
    simp [decodeNat, decodeClass14, accept, hwf, bitsAre]

theorem fadd (bt : BitVec 1) (d : BitVec 8) (a : BitVec 8) (b : BitVec 8) : Statement (.fadd bt d a b) :=
  of_layout _ rfl rfl fun hwf => by
    simp [decodeNat, decodeClass2, accept, hwf]

theorem fsub (bt : BitVec 1) (d : BitVec 8) (a : BitVec 8) (b : BitVec 8) : Statement (.fsub bt d a b) :=
  of_layout _ rfl rfl fun hwf => by
    simp [decodeNat, decodeClass2, accept, hwf]

theorem fmul (bt : BitVec 1) (d : BitVec 8) (a : BitVec 8) (b : BitVec 8) : Statement (.fmul bt d a b) :=
  of_layout _ rfl rfl fun hwf => by
    simp [decodeNat, decodeClass2, accept, hwf]

theorem fmac (bt : BitVec 1) (d : BitVec 8) (a : BitVec 8) (b : BitVec 8) : Statement (.fmac bt d a b) :=
  of_layout _ rfl rfl fun hwf => by
    simp [decodeNat, decodeClass2, accept, hwf]

theorem fmsb (bt : BitVec 1) (d : BitVec 8) (a : BitVec 8) (b : BitVec 8) : Statement (.fmsb bt d a b) :=
  of_layout _ rfl rfl fun hwf => by
    simp [decodeNat, decodeClass2, accept, hwf]

theorem fmin (bt : BitVec 1) (d : BitVec 8) (a : BitVec 8) (b : BitVec 8) : Statement (.fmin bt d a b) :=
  of_layout _ rfl rfl fun hwf => by
    simp [decodeNat, decodeClass2, accept, hwf]

theorem fmax (bt : BitVec 1) (d : BitVec 8) (a : BitVec 8) (b : BitVec 8) : Statement (.fmax bt d a b) :=
  of_layout _ rfl rfl fun hwf => by
    simp [decodeNat, decodeClass2, accept, hwf]

theorem fcps (bt : BitVec 1) (d : BitVec 8) (a : BitVec 8) (b : BitVec 8) : Statement (.fcps bt d a b) :=
  of_layout _ rfl rfl fun hwf => by
    simp [decodeNat, decodeClass2, accept, hwf]

theorem iadd (bt : BitVec 1) (d : BitVec 8) (a : BitVec 8) (b : BitVec 8) : Statement (.iadd bt d a b) :=
  of_layout _ rfl rfl fun hwf => by
    simp [decodeNat, decodeClass3, accept, hwf]

theorem isub (bt : BitVec 1) (d : BitVec 8) (a : BitVec 8) (b : BitVec 8) : Statement (.isub bt d a b) :=
  of_layout _ rfl rfl fun hwf => by
    simp [decodeNat, decodeClass3, accept, hwf]

theorem imul (bt : BitVec 1) (d : BitVec 8) (a : BitVec 8) (b : BitVec 8) : Statement (.imul bt d a b) :=
  of_layout _ rfl rfl fun hwf => by
    simp [decodeNat, decodeClass3, accept, hwf]

theorem imulh (bt : BitVec 1) (d : BitVec 8) (a : BitVec 8) (b : BitVec 8) : Statement (.imulh bt d a b) :=
  of_layout _ rfl rfl fun hwf => by
    simp [decodeNat, decodeClass3, accept, hwf]

theorem umulh (bt : BitVec 1) (d : BitVec 8) (a : BitVec 8) (b : BitVec 8) : Statement (.umulh bt d a b) :=
  of_layout _ rfl rfl fun hwf => by
    simp [decodeNat, decodeClass3, accept, hwf]

theorem imac (bt : BitVec 1) (d : BitVec 8) (a : BitVec 8) (b : BitVec 8) : Statement (.imac bt d a b) :=
  of_layout _ rfl rfl fun hwf => by
    simp [decodeNat, decodeClass3, accept, hwf]

theorem imin (bt : BitVec 1) (d : BitVec 8) (a : BitVec 8) (b : BitVec 8) : Statement (.imin bt d a b) :=
  of_layout _ rfl rfl fun hwf => by
    simp [decodeNat, decodeClass3, accept, hwf]

theorem imax (bt : BitVec 1) (d : BitVec 8) (a : BitVec 8) (b : BitVec 8) : Statement (.imax bt d a b) :=
  of_layout _ rfl rfl fun hwf => by
    simp [decodeNat, decodeClass3, accept, hwf]

theorem and (bt : BitVec 1) (d : BitVec 8) (a : BitVec 8) (b : BitVec 8) : Statement (.and bt d a b) :=
  of_layout _ rfl rfl fun hwf => by
    simp [decodeNat, decodeClass4, accept, hwf]

theorem or (bt : BitVec 1) (d : BitVec 8) (a : BitVec 8) (b : BitVec 8) : Statement (.or bt d a b) :=
  of_layout _ rfl rfl fun hwf => by
    simp [decodeNat, decodeClass4, accept, hwf]

theorem xor (bt : BitVec 1) (d : BitVec 8) (a : BitVec 8) (b : BitVec 8) : Statement (.xor bt d a b) :=
  of_layout _ rfl rfl fun hwf => by
    simp [decodeNat, decodeClass4, accept, hwf]

theorem andn (bt : BitVec 1) (d : BitVec 8) (a : BitVec 8) (b : BitVec 8) : Statement (.andn bt d a b) :=
  of_layout _ rfl rfl fun hwf => by
    simp [decodeNat, decodeClass4, accept, hwf]

theorem shl (bt : BitVec 1) (d : BitVec 8) (a : BitVec 8) (b : BitVec 8) : Statement (.shl bt d a b) :=
  of_layout _ rfl rfl fun hwf => by
    simp [decodeNat, decodeClass4, accept, hwf]

theorem shr (bt : BitVec 1) (d : BitVec 8) (a : BitVec 8) (b : BitVec 8) : Statement (.shr bt d a b) :=
  of_layout _ rfl rfl fun hwf => by
    simp [decodeNat, decodeClass4, accept, hwf]

theorem sar (bt : BitVec 1) (d : BitVec 8) (a : BitVec 8) (b : BitVec 8) : Statement (.sar bt d a b) :=
  of_layout _ rfl rfl fun hwf => by
    simp [decodeNat, decodeClass4, accept, hwf]

theorem rot (bt : BitVec 1) (d : BitVec 8) (a : BitVec 8) (b : BitVec 8) : Statement (.rot bt d a b) :=
  of_layout _ rfl rfl fun hwf => by
    simp [decodeNat, decodeClass4, accept, hwf]

theorem hadd2 (bt : BitVec 1) (d : BitVec 8) (a : BitVec 8) (b : BitVec 8) : Statement (.hadd2 bt d a b) :=
  of_layout _ rfl rfl fun hwf => by
    simp [decodeNat, decodeClass5, accept, hwf]

theorem hmul2 (bt : BitVec 1) (d : BitVec 8) (a : BitVec 8) (b : BitVec 8) : Statement (.hmul2 bt d a b) :=
  of_layout _ rfl rfl fun hwf => by
    simp [decodeNat, decodeClass5, accept, hwf]

theorem hmac2 (bt : BitVec 1) (d : BitVec 8) (a : BitVec 8) (b : BitVec 8) : Statement (.hmac2 bt d a b) :=
  of_layout _ rfl rfl fun hwf => by
    simp [decodeNat, decodeClass5, accept, hwf]

theorem badd2 (bt : BitVec 1) (d : BitVec 8) (a : BitVec 8) (b : BitVec 8) : Statement (.badd2 bt d a b) :=
  of_layout _ rfl rfl fun hwf => by
    simp [decodeNat, decodeClass5, accept, hwf]

theorem bmul2 (bt : BitVec 1) (d : BitVec 8) (a : BitVec 8) (b : BitVec 8) : Statement (.bmul2 bt d a b) :=
  of_layout _ rfl rfl fun hwf => by
    simp [decodeNat, decodeClass5, accept, hwf]

theorem bmac2 (bt : BitVec 1) (d : BitVec 8) (a : BitVec 8) (b : BitVec 8) : Statement (.bmac2 bt d a b) :=
  of_layout _ rfl rfl fun hwf => by
    simp [decodeNat, decodeClass5, accept, hwf]

theorem umin (bt : BitVec 1) (d : BitVec 8) (a : BitVec 8) (b : BitVec 8) : Statement (.umin bt d a b) :=
  of_layout _ rfl rfl fun hwf => by
    simp [decodeNat, decodeClass5, accept, hwf]

theorem umax (bt : BitVec 1) (d : BitVec 8) (a : BitVec 8) (b : BitVec 8) : Statement (.umax bt d a b) :=
  of_layout _ rfl rfl fun hwf => by
    simp [decodeNat, decodeClass5, accept, hwf]

theorem dadd (bt : BitVec 1) (d : BitVec 8) (a : BitVec 8) (b : BitVec 8) : Statement (.dadd bt d a b) :=
  of_layout _ rfl rfl fun hwf => by
    simp [decodeNat, decodeClass6, accept, hwf]

theorem dmul (bt : BitVec 1) (d : BitVec 8) (a : BitVec 8) (b : BitVec 8) : Statement (.dmul bt d a b) :=
  of_layout _ rfl rfl fun hwf => by
    simp [decodeNat, decodeClass6, accept, hwf]

theorem dmac (bt : BitVec 1) (d : BitVec 8) (a : BitVec 8) (b : BitVec 8) : Statement (.dmac bt d a b) :=
  of_layout _ rfl rfl fun hwf => by
    simp [decodeNat, decodeClass6, accept, hwf]

theorem dot4 (bt : BitVec 1) (d : BitVec 8) (a : BitVec 8) (b : BitVec 8) : Statement (.dot4 bt d a b) :=
  of_layout _ rfl rfl fun hwf => by
    simp [decodeNat, decodeClass6, accept, hwf]

theorem dot8 (bt : BitVec 1) (d : BitVec 8) (a : BitVec 8) (b : BitVec 8) : Statement (.dot8 bt d a b) :=
  of_layout _ rfl rfl fun hwf => by
    simp [decodeNat, decodeClass6, accept, hwf]

theorem hdot2 (bt : BitVec 1) (d : BitVec 8) (a : BitVec 8) (b : BitVec 8) : Statement (.hdot2 bt d a b) :=
  of_layout _ rfl rfl fun hwf => by
    simp [decodeNat, decodeClass6, accept, hwf]

theorem prmt (bt : BitVec 1) (d : BitVec 8) (a : BitVec 8) (b : BitVec 8) : Statement (.prmt bt d a b) :=
  of_layout _ rfl rfl fun hwf => by
    simp [decodeNat, decodeClass6, accept, hwf]

theorem rnd (bt : BitVec 1) (d : BitVec 8) (a : BitVec 8) (b : BitVec 8) : Statement (.rnd bt d a b) :=
  of_layout _ rfl rfl fun hwf => by
    simp [decodeNat, decodeClass6, accept, hwf]

theorem mov (bt : BitVec 1) (m : BitVec 5) (d : BitVec 8) (a : BitVec 8) : Statement (.mov bt m d a) :=
  of_layout _ rfl rfl fun hwf => by
    simp [decodeNat, decodeClass7, accept, hwf]

theorem fneg (bt : BitVec 1) (m : BitVec 5) (d : BitVec 8) (a : BitVec 8) : Statement (.fneg bt m d a) :=
  of_layout _ rfl rfl fun hwf => by
    simp [decodeNat, decodeClass7, accept, hwf]

theorem fabs (bt : BitVec 1) (m : BitVec 5) (d : BitVec 8) (a : BitVec 8) : Statement (.fabs bt m d a) :=
  of_layout _ rfl rfl fun hwf => by
    simp [decodeNat, decodeClass7, accept, hwf]

theorem frcp (bt : BitVec 1) (d : BitVec 8) (a : BitVec 8) : Statement (.frcp bt d a) :=
  of_layout _ rfl rfl fun hwf => by
    simp [decodeNat, decodeClass7, accept, hwf, bitsAre]

theorem frsq (bt : BitVec 1) (d : BitVec 8) (a : BitVec 8) : Statement (.frsq bt d a) :=
  of_layout _ rfl rfl fun hwf => by
    simp [decodeNat, decodeClass7, accept, hwf, bitsAre]

theorem fsqrt (bt : BitVec 1) (d : BitVec 8) (a : BitVec 8) : Statement (.fsqrt bt d a) :=
  of_layout _ rfl rfl fun hwf => by
    simp [decodeNat, decodeClass7, accept, hwf, bitsAre]

theorem fexp2 (bt : BitVec 1) (d : BitVec 8) (a : BitVec 8) : Statement (.fexp2 bt d a) :=
  of_layout _ rfl rfl fun hwf => by
    simp [decodeNat, decodeClass7, accept, hwf, bitsAre]

theorem flog2 (bt : BitVec 1) (d : BitVec 8) (a : BitVec 8) : Statement (.flog2 bt d a) :=
  of_layout _ rfl rfl fun hwf => by
    simp [decodeNat, decodeClass7, accept, hwf, bitsAre]

theorem fsinp (bt : BitVec 1) (d : BitVec 8) (a : BitVec 8) : Statement (.fsinp bt d a) :=
  of_layout _ rfl rfl fun hwf => by
    simp [decodeNat, decodeClass7, accept, hwf, bitsAre]

theorem fcosp (bt : BitVec 1) (d : BitVec 8) (a : BitVec 8) : Statement (.fcosp bt d a) :=
  of_layout _ rfl rfl fun hwf => by
    simp [decodeNat, decodeClass7, accept, hwf, bitsAre]

theorem ftanh (bt : BitVec 1) (d : BitVec 8) (a : BitVec 8) : Statement (.ftanh bt d a) :=
  of_layout _ rfl rfl fun hwf => by
    simp [decodeNat, decodeClass7, accept, hwf, bitsAre]

theorem frint (bt : BitVec 1) (m : BitVec 5) (d : BitVec 8) (a : BitVec 8) : Statement (.frint bt m d a) :=
  of_layout _ rfl rfl fun hwf => by
    simp [decodeNat, decodeClass7, accept, hwf]

theorem ffrac (bt : BitVec 1) (d : BitVec 8) (a : BitVec 8) : Statement (.ffrac bt d a) :=
  of_layout _ rfl rfl fun hwf => by
    simp [decodeNat, decodeClass7, accept, hwf, bitsAre]

theorem fclass (bt : BitVec 1) (m : BitVec 5) (d : BitVec 8) (a : BitVec 8) : Statement (.fclass bt m d a) :=
  of_layout _ rfl rfl fun hwf => by
    simp [decodeNat, decodeClass7, accept, hwf]

theorem cvt (bt : BitVec 1) (m : BitVec 5) (d : BitVec 8) (a : BitVec 8) : Statement (.cvt bt m d a) :=
  of_layout _ rfl rfl fun hwf => by
    simp [decodeNat, decodeClass7, accept, hwf]

theorem qnt (bt : BitVec 1) (f : BitVec 3) (p : BitVec 2) (d : BitVec 8) (a : BitVec 8) : Statement (.qnt bt f p d a) :=
  of_layout _ rfl rfl fun hwf => by
    simp [decodeNat, decodeClass7, accept, hwf]

theorem dqnt (bt : BitVec 1) (f : BitVec 3) (p : BitVec 2) (d : BitVec 8) (a : BitVec 8) : Statement (.dqnt bt f p d a) :=
  of_layout _ rfl rfl fun hwf => by
    simp [decodeNat, decodeClass7, accept, hwf]

theorem popc (bt : BitVec 1) (d : BitVec 8) (a : BitVec 8) : Statement (.popc bt d a) :=
  of_layout _ rfl rfl fun hwf => by
    simp [decodeNat, decodeClass7, accept, hwf, bitsAre]

theorem clz (bt : BitVec 1) (d : BitVec 8) (a : BitVec 8) : Statement (.clz bt d a) :=
  of_layout _ rfl rfl fun hwf => by
    simp [decodeNat, decodeClass7, accept, hwf, bitsAre]

theorem brev (bt : BitVec 1) (d : BitVec 8) (a : BitVec 8) : Statement (.brev bt d a) :=
  of_layout _ rfl rfl fun hwf => by
    simp [decodeNat, decodeClass7, accept, hwf, bitsAre]

theorem bfind (bt : BitVec 1) (d : BitVec 8) (a : BitVec 8) : Statement (.bfind bt d a) :=
  of_layout _ rfl rfl fun hwf => by
    simp [decodeNat, decodeClass7, accept, hwf, bitsAre]

theorem ineg (bt : BitVec 1) (d : BitVec 8) (a : BitVec 8) : Statement (.ineg bt d a) :=
  of_layout _ rfl rfl fun hwf => by
    simp [decodeNat, decodeClass7, accept, hwf, bitsAre]

theorem iabs (bt : BitVec 1) (d : BitVec 8) (a : BitVec 8) : Statement (.iabs bt d a) :=
  of_layout _ rfl rfl fun hwf => by
    simp [decodeNat, decodeClass7, accept, hwf, bitsAre]

theorem dsqrt (bt : BitVec 1) (d : BitVec 8) (a : BitVec 8) : Statement (.dsqrt bt d a) :=
  of_layout _ rfl rfl fun hwf => by
    simp [decodeNat, decodeClass7, accept, hwf, bitsAre]

theorem drcp (bt : BitVec 1) (d : BitVec 8) (a : BitVec 8) : Statement (.drcp bt d a) :=
  of_layout _ rfl rfl fun hwf => by
    simp [decodeNat, decodeClass7, accept, hwf, bitsAre]

theorem iaddi (bt : BitVec 1) (d : BitVec 8) (a : BitVec 8) (i : BitVec 7) : Statement (.iaddi bt d a i) :=
  of_layout _ rfl rfl fun hwf => by
    simp [decodeNat, decodeClass8, accept, hwf]

theorem imuli (bt : BitVec 1) (d : BitVec 8) (a : BitVec 8) (i : BitVec 7) : Statement (.imuli bt d a i) :=
  of_layout _ rfl rfl fun hwf => by
    simp [decodeNat, decodeClass8, accept, hwf]

theorem shli (bt : BitVec 1) (d : BitVec 8) (a : BitVec 8) (n : BitVec 5) : Statement (.shli bt d a n) :=
  of_layout _ rfl rfl fun hwf => by
    simp [decodeNat, decodeClass8, accept, hwf, bitsAre]

theorem shri (bt : BitVec 1) (d : BitVec 8) (a : BitVec 8) (n : BitVec 5) : Statement (.shri bt d a n) :=
  of_layout _ rfl rfl fun hwf => by
    simp [decodeNat, decodeClass8, accept, hwf, bitsAre]

theorem sari (bt : BitVec 1) (d : BitVec 8) (a : BitVec 8) (n : BitVec 5) : Statement (.sari bt d a n) :=
  of_layout _ rfl rfl fun hwf => by
    simp [decodeNat, decodeClass8, accept, hwf, bitsAre]

theorem andi (bt : BitVec 1) (d : BitVec 8) (a : BitVec 8) (i : BitVec 7) : Statement (.andi bt d a i) :=
  of_layout _ rfl rfl fun hwf => by
    simp [decodeNat, decodeClass8, accept, hwf]

theorem ori (bt : BitVec 1) (d : BitVec 8) (a : BitVec 8) (i : BitVec 7) : Statement (.ori bt d a i) :=
  of_layout _ rfl rfl fun hwf => by
    simp [decodeNat, decodeClass8, accept, hwf]

theorem xori (bt : BitVec 1) (d : BitVec 8) (a : BitVec 8) (i : BitVec 7) : Statement (.xori bt d a i) :=
  of_layout _ rfl rfl fun hwf => by
    simp [decodeNat, decodeClass8, accept, hwf]

theorem movi (bt : BitVec 1) (d : BitVec 8) (i : BitVec 7) : Statement (.movi bt d i) :=
  of_layout _ rfl rfl fun hwf => by
    simp [decodeNat, decodeClass8, accept, hwf, bitsAre]

theorem fsetEq (bt : BitVec 1) (c : BitVec 2) (m : BitVec 4) (a : BitVec 8) (b : BitVec 8) : Statement (.fsetEq bt c m a b) :=
  of_layout _ rfl rfl fun hwf => by
    simp [decodeNat, decodeClass9, accept, hwf]

theorem fsetNe (bt : BitVec 1) (c : BitVec 2) (m : BitVec 4) (a : BitVec 8) (b : BitVec 8) : Statement (.fsetNe bt c m a b) :=
  of_layout _ rfl rfl fun hwf => by
    simp [decodeNat, decodeClass9, accept, hwf]

theorem fsetLt (bt : BitVec 1) (c : BitVec 2) (m : BitVec 4) (a : BitVec 8) (b : BitVec 8) : Statement (.fsetLt bt c m a b) :=
  of_layout _ rfl rfl fun hwf => by
    simp [decodeNat, decodeClass9, accept, hwf]

theorem fsetLe (bt : BitVec 1) (c : BitVec 2) (m : BitVec 4) (a : BitVec 8) (b : BitVec 8) : Statement (.fsetLe bt c m a b) :=
  of_layout _ rfl rfl fun hwf => by
    simp [decodeNat, decodeClass9, accept, hwf]

theorem fsetGt (bt : BitVec 1) (c : BitVec 2) (m : BitVec 4) (a : BitVec 8) (b : BitVec 8) : Statement (.fsetGt bt c m a b) :=
  of_layout _ rfl rfl fun hwf => by
    simp [decodeNat, decodeClass9, accept, hwf]

theorem fsetGe (bt : BitVec 1) (c : BitVec 2) (m : BitVec 4) (a : BitVec 8) (b : BitVec 8) : Statement (.fsetGe bt c m a b) :=
  of_layout _ rfl rfl fun hwf => by
    simp [decodeNat, decodeClass9, accept, hwf]

theorem fsetUn (bt : BitVec 1) (c : BitVec 2) (m : BitVec 4) (a : BitVec 8) (b : BitVec 8) : Statement (.fsetUn bt c m a b) :=
  of_layout _ rfl rfl fun hwf => by
    simp [decodeNat, decodeClass9, accept, hwf]

theorem fsetOr (bt : BitVec 1) (c : BitVec 2) (m : BitVec 4) (a : BitVec 8) (b : BitVec 8) : Statement (.fsetOr bt c m a b) :=
  of_layout _ rfl rfl fun hwf => by
    simp [decodeNat, decodeClass9, accept, hwf]

theorem isetEq (bt : BitVec 1) (c : BitVec 2) (m : BitVec 4) (a : BitVec 8) (b : BitVec 8) : Statement (.isetEq bt c m a b) :=
  of_layout _ rfl rfl fun hwf => by
    simp [decodeNat, decodeClass9, accept, hwf]

theorem isetNe (bt : BitVec 1) (c : BitVec 2) (m : BitVec 4) (a : BitVec 8) (b : BitVec 8) : Statement (.isetNe bt c m a b) :=
  of_layout _ rfl rfl fun hwf => by
    simp [decodeNat, decodeClass9, accept, hwf]

theorem isetLt (bt : BitVec 1) (c : BitVec 2) (m : BitVec 4) (a : BitVec 8) (b : BitVec 8) : Statement (.isetLt bt c m a b) :=
  of_layout _ rfl rfl fun hwf => by
    simp [decodeNat, decodeClass9, accept, hwf]

theorem isetLe (bt : BitVec 1) (c : BitVec 2) (m : BitVec 4) (a : BitVec 8) (b : BitVec 8) : Statement (.isetLe bt c m a b) :=
  of_layout _ rfl rfl fun hwf => by
    simp [decodeNat, decodeClass9, accept, hwf]

theorem isetGt (bt : BitVec 1) (c : BitVec 2) (m : BitVec 4) (a : BitVec 8) (b : BitVec 8) : Statement (.isetGt bt c m a b) :=
  of_layout _ rfl rfl fun hwf => by
    simp [decodeNat, decodeClass9, accept, hwf]

theorem isetGe (bt : BitVec 1) (c : BitVec 2) (m : BitVec 4) (a : BitVec 8) (b : BitVec 8) : Statement (.isetGe bt c m a b) :=
  of_layout _ rfl rfl fun hwf => by
    simp [decodeNat, decodeClass9, accept, hwf]

theorem usetLt (bt : BitVec 1) (c : BitVec 2) (m : BitVec 4) (a : BitVec 8) (b : BitVec 8) : Statement (.usetLt bt c m a b) :=
  of_layout _ rfl rfl fun hwf => by
    simp [decodeNat, decodeClass9, accept, hwf]

theorem usetLe (bt : BitVec 1) (c : BitVec 2) (m : BitVec 4) (a : BitVec 8) (b : BitVec 8) : Statement (.usetLe bt c m a b) :=
  of_layout _ rfl rfl fun hwf => by
    simp [decodeNat, decodeClass9, accept, hwf]

theorem usetGt (bt : BitVec 1) (c : BitVec 2) (m : BitVec 4) (a : BitVec 8) (b : BitVec 8) : Statement (.usetGt bt c m a b) :=
  of_layout _ rfl rfl fun hwf => by
    simp [decodeNat, decodeClass9, accept, hwf]

theorem usetGe (bt : BitVec 1) (c : BitVec 2) (m : BitVec 4) (a : BitVec 8) (b : BitVec 8) : Statement (.usetGe bt c m a b) :=
  of_layout _ rfl rfl fun hwf => by
    simp [decodeNat, decodeClass9, accept, hwf]

theorem mlog (bt : BitVec 1) (d : BitVec 4) (a : BitVec 4) (b : BitVec 4) (f : BitVec 3) : Statement (.mlog bt d a b f) :=
  of_layout _ rfl rfl fun hwf => by
    simp [decodeNat, decodeClass9, accept, hwf, bitsAre]

theorem cmov (bt : BitVec 1) (c : BitVec 4) (d : BitVec 8) (a : BitVec 8) : Statement (.cmov bt c d a) :=
  of_layout _ rfl rfl fun hwf => by
    simp [decodeNat, decodeClass9, accept, hwf, bitsAre]

theorem shfl (bt : BitVec 1) (k : BitVec 3) (d : BitVec 8) (a : BitVec 8) : Statement (.shfl bt k d a) :=
  of_layout _ rfl rfl fun hwf => by
    simp [decodeNat, decodeClass9, accept, hwf, bitsAre]

theorem shflXor (bt : BitVec 1) (i : BitVec 6) (d : BitVec 8) (a : BitVec 8) : Statement (.shflXor bt i d a) :=
  of_layout _ rfl rfl fun hwf => by
    simp [decodeNat, decodeClass9, accept, hwf]

theorem shflUp (bt : BitVec 1) (i : BitVec 6) (d : BitVec 8) (a : BitVec 8) : Statement (.shflUp bt i d a) :=
  of_layout _ rfl rfl fun hwf => by
    simp [decodeNat, decodeClass9, accept, hwf]

theorem shflDn (bt : BitVec 1) (i : BitVec 6) (d : BitVec 8) (a : BitVec 8) : Statement (.shflDn bt i d a) :=
  of_layout _ rfl rfl fun hwf => by
    simp [decodeNat, decodeClass9, accept, hwf]

theorem shflIdx (bt : BitVec 1) (i : BitVec 6) (d : BitVec 8) (a : BitVec 8) : Statement (.shflIdx bt i d a) :=
  of_layout _ rfl rfl fun hwf => by
    simp [decodeNat, decodeClass9, accept, hwf]

theorem vote (bt : BitVec 1) (k : BitVec 2) (d : BitVec 4) (a : BitVec 4) : Statement (.vote bt k d a) :=
  of_layout _ rfl rfl fun hwf => by
    simp [decodeNat, decodeClass9, accept, hwf, bitsAre]

theorem ballot (bt : BitVec 1) (s : BitVec 6) (a : BitVec 8) : Statement (.ballot bt s a) :=
  of_layout _ rfl rfl fun hwf => by
    simp [decodeNat, decodeClass9, accept, hwf, bitsAre]

theorem gred (bt : BitVec 1) (s : BitVec 6) (r : BitVec 3) (a : BitVec 8) : Statement (.gred bt s r a) :=
  of_layout _ rfl rfl fun hwf => by
    simp [decodeNat, decodeClass9, accept, hwf, bitsAre]

theorem mmov (bt : BitVec 1) (r : BitVec 1) (m : BitVec 4) (s : BitVec 6) : Statement (.mmov bt r m s) :=
  of_layout _ rfl rfl fun hwf => by
    simp [decodeNat, decodeClass9, accept, hwf, bitsAre]

theorem mact (bt : BitVec 1) (d : BitVec 4) : Statement (.mact bt d) :=
  of_layout _ rfl rfl fun hwf => by
    simp [decodeNat, decodeClass9, accept, hwf, bitsAre]

theorem sadd (bt : BitVec 1) (d : BitVec 6) (a : BitVec 6) (b : BitVec 6) : Statement (.sadd bt d a b) :=
  of_layout _ rfl rfl fun hwf => by
    simp [decodeNat, decodeClass10, accept, hwf, bitsAre]

theorem ssub (bt : BitVec 1) (d : BitVec 6) (a : BitVec 6) (b : BitVec 6) : Statement (.ssub bt d a b) :=
  of_layout _ rfl rfl fun hwf => by
    simp [decodeNat, decodeClass10, accept, hwf, bitsAre]

theorem smul (bt : BitVec 1) (d : BitVec 6) (a : BitVec 6) (b : BitVec 6) : Statement (.smul bt d a b) :=
  of_layout _ rfl rfl fun hwf => by
    simp [decodeNat, decodeClass10, accept, hwf, bitsAre]

theorem sand (bt : BitVec 1) (d : BitVec 6) (a : BitVec 6) (b : BitVec 6) : Statement (.sand bt d a b) :=
  of_layout _ rfl rfl fun hwf => by
    simp [decodeNat, decodeClass10, accept, hwf, bitsAre]

theorem sor (bt : BitVec 1) (d : BitVec 6) (a : BitVec 6) (b : BitVec 6) : Statement (.sor bt d a b) :=
  of_layout _ rfl rfl fun hwf => by
    simp [decodeNat, decodeClass10, accept, hwf, bitsAre]

theorem sxor (bt : BitVec 1) (d : BitVec 6) (a : BitVec 6) (b : BitVec 6) : Statement (.sxor bt d a b) :=
  of_layout _ rfl rfl fun hwf => by
    simp [decodeNat, decodeClass10, accept, hwf, bitsAre]

theorem sshl (bt : BitVec 1) (d : BitVec 6) (a : BitVec 6) (b : BitVec 6) : Statement (.sshl bt d a b) :=
  of_layout _ rfl rfl fun hwf => by
    simp [decodeNat, decodeClass10, accept, hwf, bitsAre]

theorem sshr (bt : BitVec 1) (d : BitVec 6) (a : BitVec 6) (b : BitVec 6) : Statement (.sshr bt d a b) :=
  of_layout _ rfl rfl fun hwf => by
    simp [decodeNat, decodeClass10, accept, hwf, bitsAre]

theorem ssar (bt : BitVec 1) (d : BitVec 6) (a : BitVec 6) (b : BitVec 6) : Statement (.ssar bt d a b) :=
  of_layout _ rfl rfl fun hwf => by
    simp [decodeNat, decodeClass10, accept, hwf, bitsAre]

theorem smin (bt : BitVec 1) (d : BitVec 6) (a : BitVec 6) (b : BitVec 6) : Statement (.smin bt d a b) :=
  of_layout _ rfl rfl fun hwf => by
    simp [decodeNat, decodeClass10, accept, hwf, bitsAre]

theorem smax (bt : BitVec 1) (d : BitVec 6) (a : BitVec 6) (b : BitVec 6) : Statement (.smax bt d a b) :=
  of_layout _ rfl rfl fun hwf => by
    simp [decodeNat, decodeClass10, accept, hwf, bitsAre]

theorem saddi (bt : BitVec 1) (d : BitVec 6) (a : BitVec 6) (i : BitVec 10) : Statement (.saddi bt d a i) :=
  of_layout _ rfl rfl fun hwf => by
    simp [decodeNat, decodeClass10, accept, hwf]

theorem smovi (bt : BitVec 1) (d : BitVec 6) (i : BitVec 16) : Statement (.smovi bt d i) :=
  of_layout _ rfl rfl fun hwf => by
    simp [decodeNat, decodeClass10, accept, hwf]

theorem smovhi (bt : BitVec 1) (d : BitVec 6) (i : BitVec 16) : Statement (.smovhi bt d i) :=
  of_layout _ rfl rfl fun hwf => by
    simp [decodeNat, decodeClass10, accept, hwf]

theorem sset (bt : BitVec 1) (d : BitVec 6) (a : BitVec 6) (b : BitVec 6) (c : BitVec 4) : Statement (.sset bt d a b c) :=
  of_layout _ rfl rfl fun hwf => by
    simp [decodeNat, decodeClass10, accept, hwf]

theorem vread (bt : BitVec 1) (d : BitVec 6) (a : BitVec 6) (v : BitVec 8) : Statement (.vread bt d a v) :=
  of_layout _ rfl rfl fun hwf => by
    simp [decodeNat, decodeClass10, accept, hwf, bitsAre]

theorem sldc (bt : BitVec 1) (d : BitVec 6) (a : BitVec 6) (n : BitVec 5) (i : BitVec 5) : Statement (.sldc bt d a n i) :=
  of_layout _ rfl rfl fun hwf => by
    simp [decodeNat, decodeClass10, accept, hwf]

theorem sldlit (bt : BitVec 1) (d : BitVec 6) (i : BitVec 16) : Statement (.sldlit bt d i) :=
  of_layout _ rfl rfl fun hwf => by
    simp [decodeNat, decodeClass10, accept, hwf]

theorem csrr (bt : BitVec 1) (d : BitVec 6) (c : BitVec 12) : Statement (.csrr bt d c) :=
  of_layout _ rfl rfl fun hwf => by
    simp [decodeNat, decodeClass10, accept, hwf, bitsAre]

theorem csrw (bt : BitVec 1) (a : BitVec 6) (c : BitVec 12) : Statement (.csrw bt a c) :=
  of_layout _ rfl rfl fun hwf => by
    simp [decodeNat, decodeClass10, accept, hwf, bitsAre]

theorem ld (bt : BitVec 1) (n : BitVec 5) (d : BitVec 8) (x : BitVec 8) (s : BitVec 2) : Statement (.ld bt n d x s) :=
  of_layout _ rfl rfl fun hwf => by
    simp [decodeNat, decodeClass11, accept, hwf]

theorem st (bt : BitVec 1) (n : BitVec 5) (d : BitVec 8) (x : BitVec 8) (s : BitVec 2) : Statement (.st bt n d x s) :=
  of_layout _ rfl rfl fun hwf => by
    simp [decodeNat, decodeClass11, accept, hwf]

theorem ldb (bt : BitVec 1) (n : BitVec 5) (d : BitVec 8) (x : BitVec 8) (s : BitVec 2) : Statement (.ldb bt n d x s) :=
  of_layout _ rfl rfl fun hwf => by
    simp [decodeNat, decodeClass11, accept, hwf]

theorem ldh (bt : BitVec 1) (n : BitVec 5) (d : BitVec 8) (x : BitVec 8) (s : BitVec 2) : Statement (.ldh bt n d x s) :=
  of_layout _ rfl rfl fun hwf => by
    simp [decodeNat, decodeClass11, accept, hwf]

theorem stb (bt : BitVec 1) (n : BitVec 5) (d : BitVec 8) (x : BitVec 8) : Statement (.stb bt n d x) :=
  of_layout _ rfl rfl fun hwf => by
    simp [decodeNat, decodeClass11, accept, hwf, bitsAre]

theorem sth (bt : BitVec 1) (n : BitVec 5) (d : BitVec 8) (x : BitVec 8) : Statement (.sth bt n d x) :=
  of_layout _ rfl rfl fun hwf => by
    simp [decodeNat, decodeClass11, accept, hwf, bitsAre]

theorem ldx (bt : BitVec 1) (n : BitVec 5) (d : BitVec 8) (x : BitVec 8) (s : BitVec 2) : Statement (.ldx bt n d x s) :=
  of_layout _ rfl rfl fun hwf => by
    simp [decodeNat, decodeClass11, accept, hwf]

theorem stx (bt : BitVec 1) (n : BitVec 5) (d : BitVec 8) (x : BitVec 8) (s : BitVec 2) : Statement (.stx bt n d x s) :=
  of_layout _ rfl rfl fun hwf => by
    simp [decodeNat, decodeClass11, accept, hwf]

theorem pref (bt : BitVec 1) (n : BitVec 5) (x : BitVec 8) (s : BitVec 2) : Statement (.pref bt n x s) :=
  of_layout _ rfl rfl fun hwf => by
    simp [decodeNat, decodeClass11, accept, hwf, bitsAre]

theorem evict (bt : BitVec 1) (n : BitVec 5) (x : BitVec 8) (s : BitVec 2) : Statement (.evict bt n x s) :=
  of_layout _ rfl rfl fun hwf => by
    simp [decodeNat, decodeClass11, accept, hwf, bitsAre]

theorem bload (bt : BitVec 1) (n : BitVec 5) (s : BitVec 5) (x : BitVec 8) : Statement (.bload bt n s x) :=
  of_layout _ rfl rfl fun hwf => by
    simp [decodeNat, decodeClass11, accept, hwf, bitsAre]

theorem bset (bt : BitVec 1) (n : BitVec 5) (a : BitVec 6) : Statement (.bset bt n a) :=
  of_layout _ rfl rfl fun hwf => by
    simp [decodeNat, decodeClass11, accept, hwf, bitsAre]

theorem aadd (bt : BitVec 1) (n : BitVec 5) (d : BitVec 8) (x : BitVec 8) (p : BitVec 2) : Statement (.aadd bt n d x p) :=
  of_layout _ rfl rfl fun hwf => by
    simp [decodeNat, decodeClass12, accept, hwf]

theorem amin (bt : BitVec 1) (n : BitVec 5) (d : BitVec 8) (x : BitVec 8) (p : BitVec 2) : Statement (.amin bt n d x p) :=
  of_layout _ rfl rfl fun hwf => by
    simp [decodeNat, decodeClass12, accept, hwf]

theorem amax (bt : BitVec 1) (n : BitVec 5) (d : BitVec 8) (x : BitVec 8) (p : BitVec 2) : Statement (.amax bt n d x p) :=
  of_layout _ rfl rfl fun hwf => by
    simp [decodeNat, decodeClass12, accept, hwf]

theorem aumin (bt : BitVec 1) (n : BitVec 5) (d : BitVec 8) (x : BitVec 8) (p : BitVec 2) : Statement (.aumin bt n d x p) :=
  of_layout _ rfl rfl fun hwf => by
    simp [decodeNat, decodeClass12, accept, hwf]

theorem aumax (bt : BitVec 1) (n : BitVec 5) (d : BitVec 8) (x : BitVec 8) (p : BitVec 2) : Statement (.aumax bt n d x p) :=
  of_layout _ rfl rfl fun hwf => by
    simp [decodeNat, decodeClass12, accept, hwf]

theorem aand (bt : BitVec 1) (n : BitVec 5) (d : BitVec 8) (x : BitVec 8) (p : BitVec 2) : Statement (.aand bt n d x p) :=
  of_layout _ rfl rfl fun hwf => by
    simp [decodeNat, decodeClass12, accept, hwf]

theorem aor (bt : BitVec 1) (n : BitVec 5) (d : BitVec 8) (x : BitVec 8) (p : BitVec 2) : Statement (.aor bt n d x p) :=
  of_layout _ rfl rfl fun hwf => by
    simp [decodeNat, decodeClass12, accept, hwf]

theorem axor (bt : BitVec 1) (n : BitVec 5) (d : BitVec 8) (x : BitVec 8) (p : BitVec 2) : Statement (.axor bt n d x p) :=
  of_layout _ rfl rfl fun hwf => by
    simp [decodeNat, decodeClass12, accept, hwf]

theorem axchg (bt : BitVec 1) (n : BitVec 5) (d : BitVec 8) (x : BitVec 8) (p : BitVec 2) : Statement (.axchg bt n d x p) :=
  of_layout _ rfl rfl fun hwf => by
    simp [decodeNat, decodeClass12, accept, hwf]

theorem acas (bt : BitVec 1) (n : BitVec 5) (d : BitVec 8) (x : BitVec 8) (p : BitVec 2) : Statement (.acas bt n d x p) :=
  of_layout _ rfl rfl fun hwf => by
    simp [decodeNat, decodeClass12, accept, hwf]

theorem afadd (bt : BitVec 1) (n : BitVec 5) (d : BitVec 8) (x : BitVec 8) (p : BitVec 2) : Statement (.afadd bt n d x p) :=
  of_layout _ rfl rfl fun hwf => by
    simp [decodeNat, decodeClass12, accept, hwf]

theorem copy (bt : BitVec 1) (s : BitVec 5) (d : BitVec 5) (k : BitVec 6) (a : BitVec 6) : Statement (.copy bt s d k a) :=
  of_layout _ rfl rfl fun hwf => by
    simp [decodeNat, decodeClass12, accept, hwf, bitsAre]

theorem sealBatch (bt : BitVec 1) (d : BitVec 6) : Statement (.sealBatch bt d) :=
  of_layout _ rfl rfl fun hwf => by
    simp [decodeNat, decodeClass12, accept, hwf, bitsAre]

theorem waitb (bt : BitVec 1) (a : BitVec 6) : Statement (.waitb bt a) :=
  of_layout _ rfl rfl fun hwf => by
    simp [decodeNat, decodeClass12, accept, hwf, bitsAre]

theorem fence (bt : BitVec 1) (k : BitVec 2) (p : BitVec 3) : Statement (.fence bt k p) :=
  of_layout _ rfl rfl fun hwf => by
    simp [decodeNat, decodeClass12, accept, hwf, bitsAre]

theorem append (bt : BitVec 1) (u : BitVec 5) (d : BitVec 8) (x : BitVec 8) : Statement (.append bt u d x) :=
  of_layout _ rfl rfl fun hwf => by
    simp [decodeNat, decodeClass12, accept, hwf, bitsAre]

theorem bra (bt : BitVec 1) (o : BitVec 18) : Statement (.bra bt o) :=
  of_layout _ rfl rfl fun hwf => by
    simp [decodeNat, decodeClass13, accept, hwf, bitsAre]

theorem brm (bt : BitVec 1) (m : BitVec 4) (o : BitVec 18) : Statement (.brm bt m o) :=
  of_layout _ rfl rfl fun hwf => by
    simp [decodeNat, decodeClass13, accept, hwf]

theorem brmn (bt : BitVec 1) (m : BitVec 4) (o : BitVec 18) : Statement (.brmn bt m o) :=
  of_layout _ rfl rfl fun hwf => by
    simp [decodeNat, decodeClass13, accept, hwf]

theorem brs (bt : BitVec 1) (s : BitVec 6) (o : BitVec 16) : Statement (.brs bt s o) :=
  of_layout _ rfl rfl fun hwf => by
    simp [decodeNat, decodeClass13, accept, hwf]

theorem brsz (bt : BitVec 1) (s : BitVec 6) (o : BitVec 16) : Statement (.brsz bt s o) :=
  of_layout _ rfl rfl fun hwf => by
    simp [decodeNat, decodeClass13, accept, hwf]

theorem call (bt : BitVec 1) (o : BitVec 18) : Statement (.call bt o) :=
  of_layout _ rfl rfl fun hwf => by
    simp [decodeNat, decodeClass13, accept, hwf, bitsAre]

theorem ret (bt : BitVec 1) : Statement (.ret bt) :=
  of_layout _ rfl rfl fun hwf => by
    simp [decodeNat, decodeClass13, accept, hwf, bitsAre]

theorem jmpi (bt : BitVec 1) (a : BitVec 8) (g : BitVec 8) : Statement (.jmpi bt a g) :=
  of_layout _ rfl rfl fun hwf => by
    simp [decodeNat, decodeClass13, accept, hwf, bitsAre]

theorem calli (bt : BitVec 1) (a : BitVec 8) (g : BitVec 8) : Statement (.calli bt a g) :=
  of_layout _ rfl rfl fun hwf => by
    simp [decodeNat, decodeClass13, accept, hwf, bitsAre]

theorem lpad (bt : BitVec 1) (g : BitVec 8) : Statement (.lpad bt g) :=
  of_layout _ rfl rfl fun hwf => by
    simp [decodeNat, decodeClass13, accept, hwf, bitsAre]

theorem split (bt : BitVec 1) (j : BitVec 3) : Statement (.split bt j) :=
  of_layout _ rfl rfl fun hwf => by
    simp [decodeNat, decodeClass13, accept, hwf, bitsAre]

theorem join (bt : BitVec 1) (j : BitVec 3) : Statement (.join bt j) :=
  of_layout _ rfl rfl fun hwf => by
    simp [decodeNat, decodeClass13, accept, hwf, bitsAre]

theorem drop (bt : BitVec 1) (j : BitVec 3) : Statement (.drop bt j) :=
  of_layout _ rfl rfl fun hwf => by
    simp [decodeNat, decodeClass13, accept, hwf, bitsAre]

theorem bar (bt : BitVec 1) (i : BitVec 4) : Statement (.bar bt i) :=
  of_layout _ rfl rfl fun hwf => by
    simp [decodeNat, decodeClass13, accept, hwf, bitsAre]

theorem exit (bt : BitVec 1) : Statement (.exit bt) :=
  of_layout _ rfl rfl fun hwf => by
    simp [decodeNat, decodeClass13, accept, hwf, bitsAre]

theorem trap (bt : BitVec 1) (c : BitVec 16) : Statement (.trap bt c) :=
  of_layout _ rfl rfl fun hwf => by
    simp [decodeNat, decodeClass13, accept, hwf, bitsAre]

theorem enter (bt : BitVec 1) (r : BitVec 16) : Statement (.enter bt r) :=
  of_layout _ rfl rfl fun hwf => by
    simp [decodeNat, decodeClass13, accept, hwf, bitsAre]

theorem leave (bt : BitVec 1) : Statement (.leave bt) :=
  of_layout _ rfl rfl fun hwf => by
    simp [decodeNat, decodeClass13, accept, hwf, bitsAre]

theorem spawn (bt : BitVec 1) (s : BitVec 6) : Statement (.spawn bt s) :=
  of_layout _ rfl rfl fun hwf => by
    simp [decodeNat, decodeClass13, accept, hwf, bitsAre]

theorem chwait (bt : BitVec 1) : Statement (.chwait bt) :=
  of_layout _ rfl rfl fun hwf => by
    simp [decodeNat, decodeClass13, accept, hwf, bitsAre]

theorem yield (bt : BitVec 1) : Statement (.yield bt) :=
  of_layout _ rfl rfl fun hwf => by
    simp [decodeNat, decodeClass13, accept, hwf, bitsAre]

theorem cclr (bt : BitVec 1) (g : BitVec 2) : Statement (.cclr bt g) :=
  of_layout _ rfl rfl fun hwf => by
    simp [decodeNat, decodeClass15, accept, hwf, bitsAre]

theorem lobe (bt : BitVec 1) (y : BitVec 4) (g : BitVec 2) (p : BitVec 8) (w : BitVec 8) : Statement (.lobe bt y g p w) :=
  of_layout _ rfl rfl fun hwf => by
    simp [decodeNat, decodeClass15, accept, hwf]

theorem lmix (bt : BitVec 1) (g : BitVec 2) (h : BitVec 2) (w : BitVec 8) : Statement (.lmix bt g h w) :=
  of_layout _ rfl rfl fun hwf => by
    simp [decodeNat, decodeClass15, accept, hwf, bitsAre]

theorem layer (bt : BitVec 1) (g : BitVec 2) (h : BitVec 2) (w : BitVec 8) : Statement (.layer bt g h w) :=
  of_layout _ rfl rfl fun hwf => by
    simp [decodeNat, decodeClass15, accept, hwf, bitsAre]

theorem lscl (bt : BitVec 1) (g : BitVec 2) (w : BitVec 8) : Statement (.lscl bt g w) :=
  of_layout _ rfl rfl fun hwf => by
    simp [decodeNat, decodeClass15, accept, hwf, bitsAre]

theorem frame (bt : BitVec 1) (g : BitVec 2) (n : BitVec 8) : Statement (.frame bt g n) :=
  of_layout _ rfl rfl fun hwf => by
    simp [decodeNat, decodeClass15, accept, hwf, bitsAre]

theorem samp (bt : BitVec 1) (g : BitVec 2) (d : BitVec 8) (u : BitVec 8) : Statement (.samp bt g d u) :=
  of_layout _ rfl rfl fun hwf => by
    simp [decodeNat, decodeClass15, accept, hwf, bitsAre]

theorem eval (bt : BitVec 1) (g : BitVec 2) (d : BitVec 8) (w : BitVec 8) : Statement (.eval bt g d w) :=
  of_layout _ rfl rfl fun hwf => by
    simp [decodeNat, decodeClass15, accept, hwf, bitsAre]

theorem pdf (bt : BitVec 1) (g : BitVec 2) (d : BitVec 8) (w : BitVec 8) : Statement (.pdf bt g d w) :=
  of_layout _ rfl rfl fun hwf => by
    simp [decodeNat, decodeClass15, accept, hwf, bitsAre]

theorem csave (bt : BitVec 1) (g : BitVec 2) (n : BitVec 5) (x : BitVec 8) : Statement (.csave bt g n x) :=
  of_layout _ rfl rfl fun hwf => by
    simp [decodeNat, decodeClass15, accept, hwf, bitsAre]

theorem cload (bt : BitVec 1) (g : BitVec 2) (n : BitVec 5) (x : BitVec 8) : Statement (.cload bt g n x) :=
  of_layout _ rfl rfl fun hwf => by
    simp [decodeNat, decodeClass15, accept, hwf, bitsAre]

theorem trace (bt : BitVec 1) (k : BitVec 6) (h : BitVec 8) (r : BitVec 8) : Statement (.trace bt k h r) :=
  of_layout _ rfl rfl fun hwf => by
    simp [decodeNat, decodeClass15, accept, hwf]

theorem tracep (bt : BitVec 1) (k : BitVec 6) (h : BitVec 8) (r : BitVec 8) : Statement (.tracep bt k h r) :=
  of_layout _ rfl rfl fun hwf => by
    simp [decodeNat, decodeClass15, accept, hwf]

theorem visq (bt : BitVec 1) (k : BitVec 6) (v : BitVec 8) : Statement (.visq bt k v) :=
  of_layout _ rfl rfl fun hwf => by
    simp [decodeNat, decodeClass15, accept, hwf, bitsAre]

theorem pslot (bt : BitVec 1) (d : BitVec 8) (p : BitVec 6) : Statement (.pslot bt d p) :=
  of_layout _ rfl rfl fun hwf => by
    simp [decodeNat, decodeClass15, accept, hwf, bitsAre]

theorem pfree (bt : BitVec 1) (d : BitVec 8) (p : BitVec 6) : Statement (.pfree bt d p) :=
  of_layout _ rfl rfl fun hwf => by
    simp [decodeNat, decodeClass15, accept, hwf, bitsAre]

theorem qpush (bt : BitVec 1) (q : BitVec 6) (s : BitVec 8) (m : BitVec 8) : Statement (.qpush bt q s m) :=
  of_layout _ rfl rfl fun hwf => by
    simp [decodeNat, decodeClass15, accept, hwf]

theorem regrp (bt : BitVec 1) (o : BitVec 12) (s : BitVec 8) : Statement (.regrp bt o s) :=
  of_layout _ rfl rfl fun hwf => by
    simp [decodeNat, decodeClass15, accept, hwf, bitsAre]

theorem tfeed (bt : BitVec 1) (s : BitVec 6) (v : BitVec 8) (f : BitVec 8) : Statement (.tfeed bt s v f) :=
  of_layout _ rfl rfl fun hwf => by
    simp [decodeNat, decodeClass15, accept, hwf]

theorem tdrain (bt : BitVec 1) (s : BitVec 6) (d : BitVec 8) (c : BitVec 2) : Statement (.tdrain bt s d c) :=
  of_layout _ rfl rfl fun hwf => by
    simp [decodeNat, decodeClass15, accept, hwf, bitsAre]

theorem trel (bt : BitVec 1) (s : BitVec 6) : Statement (.trel bt s) :=
  of_layout _ rfl rfl fun hwf => by
    simp [decodeNat, decodeClass15, accept, hwf, bitsAre]

theorem mma (bt : BitVec 1) (x : BitVec 6) (f : BitVec 6) (b : BitVec 1) (a : BitVec 1) (c : BitVec 1) (e : BitVec 1) : Statement (.mma bt x f b a c e) :=
  of_layout _ rfl rfl fun hwf => by
    simp [decodeNat, decodeClass15, accept, hwf, bitsAre]

theorem mmaPair (bt : BitVec 1) (x : BitVec 6) (f : BitVec 6) (b : BitVec 1) (a : BitVec 1) (c : BitVec 1) (e : BitVec 1) : Statement (.mmaPair bt x f b a c e) :=
  of_layout _ rfl rfl fun hwf => by
    simp [decodeNat, decodeClass15, accept, hwf, bitsAre]

theorem mguid (bt : BitVec 1) (x : BitVec 6) (s : BitVec 6) : Statement (.mguid bt x s) :=
  of_layout _ rfl rfl fun hwf => by
    simp [decodeNat, decodeClass15, accept, hwf, bitsAre]

theorem mzero (bt : BitVec 1) (x : BitVec 6) : Statement (.mzero bt x) :=
  of_layout _ rfl rfl fun hwf => by
    simp [decodeNat, decodeClass15, accept, hwf, bitsAre]

theorem mcvt (bt : BitVec 1) (x : BitVec 6) (f : BitVec 6) : Statement (.mcvt bt x f) :=
  of_layout _ rfl rfl fun hwf => by
    simp [decodeNat, decodeClass15, accept, hwf, bitsAre]

theorem mwait (bt : BitVec 1) (s : BitVec 6) : Statement (.mwait bt s) :=
  of_layout _ rfl rfl fun hwf => by
    simp [decodeNat, decodeClass15, accept, hwf, bitsAre]

theorem ctab (bt : BitVec 1) (a : BitVec 6) (n : BitVec 5) : Statement (.ctab bt a n) :=
  of_layout _ rfl rfl fun hwf => by
    simp [decodeNat, decodeClass15, accept, hwf, bitsAre]

theorem tlbw (bt : BitVec 1) (a : BitVec 6) : Statement (.tlbw bt a) :=
  of_layout _ rfl rfl fun hwf => by
    simp [decodeNat, decodeClass15, accept, hwf, bitsAre]

theorem tlbi (bt : BitVec 1) (k : BitVec 2) (a : BitVec 6) : Statement (.tlbi bt k a) :=
  of_layout _ rfl rfl fun hwf => by
    simp [decodeNat, decodeClass15, accept, hwf, bitsAre]

theorem hret (bt : BitVec 1) : Statement (.hret bt) :=
  of_layout _ rfl rfl fun hwf => by
    simp [decodeNat, decodeClass15, accept, hwf, bitsAre]

theorem hretEnd (bt : BitVec 1) : Statement (.hretEnd bt) :=
  of_layout _ rfl rfl fun hwf => by
    simp [decodeNat, decodeClass15, accept, hwf, bitsAre]

theorem bkpt (bt : BitVec 1) (c : BitVec 16) : Statement (.bkpt bt c) :=
  of_layout _ rfl rfl fun hwf => by
    simp [decodeNat, decodeClass15, accept, hwf, bitsAre]

theorem snap (bt : BitVec 1) (a : BitVec 6) (g : BitVec 16) : Statement (.snap bt a g) :=
  of_layout _ rfl rfl fun hwf => by
    simp [decodeNat, decodeClass15, accept, hwf]

theorem hostTailWrite (q : Nat) (tail : Nat) : Statement (.hostTailWrite q tail) := of_none rfl
theorem launchAdmit (fromSpawn : Bool) (n : Nat) : Statement (.launchAdmit fromSpawn n) := of_none rfl
theorem tailorRun (grid : Nat) : Statement (.tailorRun grid) := of_none rfl
theorem workgroupPlace (grid : Nat) (die : Nat) (core : Nat) (coreU : Nat) (wins : List Nat) : Statement (.workgroupPlace grid die core coreU wins) := of_none rfl
theorem groupFormTimeout (isBin : Bool) (grid : Nat) (n : Nat) : Statement (.groupFormTimeout isBin grid n) := of_none rfl
theorem varLatencyComplete (grp : Nat) (n : Nat) : Statement (.varLatencyComplete grp n) := of_none rfl
theorem rayWalkComplete (grp : Nat) (n : Nat) : Statement (.rayWalkComplete grp n) := of_none rfl
theorem visqComplete (grp : Nat) (n : Nat) : Statement (.visqComplete grp n) := of_none rfl
theorem copyComplete (grp : Nat) (n : Nat) : Statement (.copyComplete grp n) := of_none rfl
theorem patternTableEnter (grp : Nat) : Statement (.patternTableEnter grp) := of_none rfl
theorem patternEntryIssue (cluster : Nat) : Statement (.patternEntryIssue cluster) := of_none rfl
theorem patternEntryComplete (entry : Nat) : Statement (.patternEntryComplete entry) := of_none rfl
theorem storePerformAtHome (n : Nat) : Statement (.storePerformAtHome n) := of_none rfl
theorem l1WriteBack (core : Nat) (line : Nat) : Statement (.l1WriteBack core line) := of_none rfl
theorem leaseExpiry (lvl : Nat) (unit : Nat) (line : Nat) : Statement (.leaseExpiry lvl unit line) := of_none rfl
theorem fenceReleaseComplete (grp : Nat) : Statement (.fenceReleaseComplete grp) := of_none rfl
theorem appendGrant (grp : Nat) : Statement (.appendGrant grp) := of_none rfl
theorem groupRetire (grp : Nat) : Statement (.groupRetire grp) := of_none rfl
theorem completionRecordWrite (grid : Nat) : Statement (.completionRecordWrite grid) := of_none rfl
theorem workgroupSaveOut (wg : Nat) : Statement (.workgroupSaveOut wg) := of_none rfl
theorem workgroupRestore (wg : Nat) (core : Nat) (coreU : Nat) : Statement (.workgroupRestore wg core coreU) := of_none rfl
theorem taskCommit (q : Nat) : Statement (.taskCommit q) := of_none rfl
theorem issueStarvation (core : Nat) (quarter : Nat) : Statement (.issueStarvation core quarter) := of_none rfl
theorem frontierAgeLimit (grp : Nat) : Statement (.frontierAgeLimit grp) := of_none rfl
theorem tlbMissWalk (core : Nat) : Statement (.tlbMissWalk core) := of_none rfl
theorem pageReportWrite : Statement .pageReportWrite := of_none rfl
theorem handlerStart (core : Nat) : Statement (.handlerStart core) := of_none rfl
theorem preempt (ctx : Nat) : Statement (.preempt ctx) := of_none rfl
theorem contextMakeResident (ctx : Nat) (cores : List (Nat × Nat)) : Statement (.contextMakeResident ctx cores) := of_none rfl
theorem hangWatchdog (ctx : Nat) : Statement (.hangWatchdog ctx) := of_none rfl
theorem eccCorrectable (hbm : Bool) (pa : Nat) : Statement (.eccCorrectable hbm pa) := of_none rfl
theorem eccUncorrectable (site : EccSite) (unit : UnitId) (hbm : Bool) (pa : Nat) : Statement (.eccUncorrectable site unit hbm pa) := of_none rfl
theorem deviceStart (rep : StartReport) : Statement (.deviceStart rep) := of_none rfl
theorem firmwareReadyTimeout : Statement .firmwareReadyTimeout := of_none rfl
theorem peerLeaveAnnounce (member : Nat) : Statement (.peerLeaveAnnounce member) := of_none rfl
theorem peerSilenceTimeout (member : Nat) : Statement (.peerSilenceTimeout member) := of_none rfl
theorem peerJoin (member : Nat) (count : Nat) : Statement (.peerJoin member count) := of_none rfl
theorem timeJoinComplete (member : Nat) : Statement (.timeJoinComplete member) := of_none rfl
theorem presentCheck : Statement .presentCheck := of_none rfl
theorem presentInstant : Statement .presentInstant := of_none rfl
theorem hostCxlMemWrite (pa : Nat) (bytes : List (BitVec 8)) : Statement (.hostCxlMemWrite pa bytes) := of_none rfl
theorem hostCxlMemRead (pa : Nat) (len : Nat) : Statement (.hostCxlMemRead pa len) := of_none rfl
theorem sampleRecord (grp : Nat) (pc : Nat) (va : Nat) (qtime : List (BitVec 32)) : Statement (.sampleRecord grp pc va qtime) := of_none rfl
theorem mbevtWrite (w : BitVec 32) : Statement (.mbevtWrite w) := of_none rfl
theorem mailboxRegisterWrite (off : Nat) (w : BitVec 32) : Statement (.mailboxRegisterWrite off w) := of_none rfl
theorem mailboxUnknown : Statement .mailboxUnknown := of_none rfl
theorem ctxCreate : Statement .ctxCreate := of_none rfl
theorem ctxDestroy : Statement .ctxDestroy := of_none rfl
theorem map : Statement .map := of_none rfl
theorem hemResume : Statement .hemResume := of_none rfl
theorem unmap : Statement .unmap := of_none rfl
theorem faultRing : Statement .faultRing := of_none rfl
theorem queueSetup : Statement .queueSetup := of_none rfl
theorem queueClose : Statement .queueClose := of_none rfl
theorem poolSetup : Statement .poolSetup := of_none rfl
theorem queueReset : Statement .queueReset := of_none rfl
theorem traceArm : Statement .traceArm := of_none rfl
theorem traceStatus : Statement .traceStatus := of_none rfl
theorem peerExport : Statement .peerExport := of_none rfl
theorem peerImport : Statement .peerImport := of_none rfl
theorem framelock : Statement .framelock := of_none rfl
theorem frameSource : Statement .frameSource := of_none rfl
theorem frameStatus : Statement .frameStatus := of_none rfl
theorem attest : Statement .attest := of_none rfl
theorem pocketRead : Statement .pocketRead := of_none rfl
theorem dbgAttach : Statement .dbgAttach := of_none rfl
theorem dbgDetach : Statement .dbgDetach := of_none rfl
theorem dbgHalt : Statement .dbgHalt := of_none rfl
theorem dbgResume : Statement .dbgResume := of_none rfl
theorem dbgBreak : Statement .dbgBreak := of_none rfl
theorem dbgWatch : Statement .dbgWatch := of_none rfl
theorem dbgRead : Statement .dbgRead := of_none rfl
theorem dbgWrite : Statement .dbgWrite := of_none rfl
theorem dbgSample : Statement .dbgSample := of_none rfl
theorem dbgEvents : Statement .dbgEvents := of_none rfl
theorem ctxPreempt : Statement .ctxPreempt := of_none rfl
theorem ctxRestore : Statement .ctxRestore := of_none rfl
theorem unitMap : Statement .unitMap := of_none rfl
theorem illegalEncoding (w : BitVec 32) : Statement (.illegalEncoding w) := of_none rfl
theorem fetchFault (refused : Bool) (info : BitVec 32) : Statement (.fetchFault refused info) := of_none rfl
theorem cxlCacheSnoop (pa : Nat) (bytes : List (BitVec 8)) : Statement (.cxlCacheSnoop pa bytes) := of_none rfl
theorem peerAccess (member : Nat) (win : Nat) (off : Nat) (op : PeerOp) : Statement (.peerAccess member win off op) := of_none rfl
theorem ideStreamSetup : Statement .ideStreamSetup := of_none rfl
theorem partitionChange (layout : List (Nat × Nat)) : Statement (.partitionChange layout) := of_none rfl
theorem thermalClockLimit (mhz : Nat) : Statement (.thermalClockLimit mhz) := of_none rfl

end Sys2Proof.Laws.RoundTrip
end

