-- ==== Sys2Proof/Safety.lean ====
section
/-!
DEFINITION. What claims are stated in: the canonical form of memory, when a word's checks pass, what a completing word may
change beside its effect, and the words of a destination.
-/

namespace Sys2Proof.Machine

/-- The three memories are in canonical form: addresses rise and no entry equals what an unlisted address reads as. -/
def Memory.wf (s : State) : Bool := swf unwritten s.hbm && swf unwritten s.host && swf unwritten s.peer

/-- A run of `n` steps ends in a state: no step of it stops the machine. -/
def runsFor (n : Nat) (s : State) : Prop := ∃ t, core.run n s = .next t

/-- No step request of a handler or of the debugger is in force (R325, R330), so that a word that completes does nothing beside
its own effect. -/
def quiet (s : State) : Bool := !s.grp.hstep && s.grp.dbgSteps.isNone

/-- The checks of R52 all pass for the word. -/
def ready (n : Need) (s : State) : Prop := check n s = .run

/-- A lane that the issuing word acts in (R269). -/
def isActive (s : State) (l : Nat) : Bool := (lanes (active s)).contains l

/-! ### Rounding (R62, R71, R73, R76) -/

/-- The magnitude of a code of a format whose exponent is not bounded (R62, R71). -/
def codeValue (f : Fmt) (k : Nat) : ℚ :=
  if k / 2 ^ f.mb = 0 then (k : ℚ) * 2 ^ (1 - (f.bias : ℤ) - f.mb)
  else (2 ^ f.mb + (k % 2 ^ f.mb : Nat) : ℚ) * 2 ^ (((k / 2 ^ f.mb : Nat) : ℤ) - f.bias - f.mb)

/-- Of the codes `k` and `k + 1`, whose magnitudes are `a < x < b`, the one that a mode chooses for the sign `sg` (R71). -/
def Chosen (c : Ctl) (sg : Bool) (a b x : ℝ) (k r : Nat) : Prop :=
  (c.mode = 0 → (x - a < b - x → r = k) ∧ (b - x < x - a → r = k + 1) ∧ (x - a = b - x → r = if k % 2 = 0 then k else k + 1))
  ∧ (c.mode = 1 → r = k) ∧ (c.mode = 2 → r = if sg then k else k + 1) ∧ (c.mode = 3 → r = if sg then k + 1 else k)
  ∧ (c.mode = 4 → (x - a < b - x → r = k) ∧ (b - x ≤ x - a → r = k + 1))
  ∧ (c.mode = 5 → sg = false → ((x - a) * 2 ^ 32 > c.q * (b - a) → r = k + 1) ∧ ((x - a) * 2 ^ 32 ≤ c.q * (b - a) → r = k))
  ∧ (c.mode = 5 → sg = true → ((b - x) * 2 ^ 32 > c.q * (b - a) → r = k) ∧ ((b - x) * 2 ^ 32 ≤ c.q * (b - a) → r = k + 1))

/-- The code of a result beyond the largest magnitude: the table of R71, and R76 for the formats without infinity. -/
def overflowCode (f : Fmt) (c : Ctl) (sg : Bool) : Nat :=
  let top := f.signed sg f.maxCode
  match f.tops with
  | .ieee => if c.sat ∨ c.mode = 1 ∨ (c.mode = 2 ∧ sg = true) ∨ (c.mode = 3 ∧ sg = false) then top else f.signed sg f.infCode
  | .e4m3 => if c.sat then top else 0x7F
  | .finite => top

/-- `r` is the code of a value of sign `sg` and magnitude `x` rounded once to a format (R71), with SAT and FTZ (R73). -/
def Rounded (f : Fmt) (c : Ctl) (sg : Bool) (x : ℝ) (r : Nat) : Prop :=
  ∃ k n : Nat,
    ((codeValue f k : ℝ) = x ∧ n = k
      ∨ (codeValue f k : ℝ) < x ∧ x < (codeValue f (k + 1) : ℝ) ∧ Chosen c sg (codeValue f k) (codeValue f (k + 1)) x k n)
    ∧ r = if f.maxCode < n then overflowCode f c sg
      else if c.ftz = true ∧ f.wide = true ∧ n < 2 ^ f.mb then f.signed sg 0 else f.signed sg n

/-- The rational value of a finite value; 0 for the others. -/
def FVal.toRat : FVal → ℚ
  | .fin s m e => (if s then -1 else 1 : ℚ) * m * 2 ^ e
  | _ => 0

/-- A finite value. -/
def FVal.isFin : FVal → Bool
  | .fin _ _ _ => true
  | _ => false

/-! ### What a completing word may change beside its effect -/

/-- `h` is `g` but for the place of its paths, for what was kept while a word waited, for the reservations that a clause boundary breaks
(R226) and for the joins that complete there (R293). Every register file, flag, mark, token and result in flight is the same. -/
def samePlaced (g h : Group) : Prop :=
  h = { g with
    act := h.act, frontier := h.frontier, j := h.j, resv := h.resv, arming := h.arming, stall := h.stall, walks := h.walks,
    held := h.held, spawn := h.spawn, noWatch := h.noWatch, noBreak := h.noBreak }

/-- The workgroups without their rounds and turns, which a clause boundary moves in a deterministic context (R198). -/
def timeless (ws : List Workgroup) : List Workgroup := ws.map fun w => { w with round := 0, turn := 0 }

/-- `t` is `u` after the word has completed: every byte of memory reads the same, everything outside the issuer and the turns of
the workgroups is the same, and so is the issuer but for the place of its paths. -/
def Completed (u t : State) : Prop :=
  (∀ a, homeByte t a = homeByte u a) ∧ t = { u with grp := t.grp, wgs := t.wgs } ∧ timeless t.wgs = timeless u.wgs ∧ samePlaced u.grp t.grp

/-- The state after a word: as it stands, or with the trap of a step request (R328). -/
def thenStep (s t : State) : State := if quiet s then t else stepCheck (curPc s) (active s) t

/-- A word's meaning by its need: a check that fails gives its trap, a check that waits leaves the word to issue again, and when
every check passes the word completes with the effect `u`. -/
def Does (i : Instr) (n : Need) (s u : State) : Prop :=
  (∀ r, check n s = .trap r → exec i s = .next (takeTrap r s))
  ∧ (∀ w, check n s = .stall w → exec i s = .next (stallOn w s))
  ∧ (ready n s → ∃ t, exec i s = .next (thenStep s t) ∧ Completed u t)

/-! ### Destinations -/

/-- Word `i` of the V or K registers that a destination code names, in a lane (R37). -/
def dstWord (g : Group) (c i l : Nat) : Word := if c ≤ 0xDF then getV g (c + i) l else getK g (c - 0xE0 + i) l

/-- The destination `d` of `w` words takes the words of `f` in every active lane, and every other register word keeps its value. -/
def Wrote (s : State) (d w : Nat) (f : Nat → List Word) (g : Group) : Prop :=
  (∀ l i, isActive s l = true → i < w → dstWord g d i l = (f l).getD i 0)
  ∧ (∀ c l, c ≤ 0xE7 → l < 64 → ¬(isActive s l = true ∧ d ≤ c ∧ c < d + w) → dstWord g c 0 l = dstWord s.grp c 0 l)

/-- A fixed-latency vector word with destination `d` of `w` words (R84): when its checks pass, every active lane's result, formed
from the state before the word, is in its destination, and nothing else changes. -/
def Writes (i : Instr) (n : Need) (s : State) (d w : Nat) (f : Nat → List Word) : Prop :=
  (∀ r, check n s = .trap r → exec i s = .next (takeTrap r s))
  ∧ (∀ x, check n s = .stall x → exec i s = .next (stallOn x s))
  ∧ (ready n s → ∃ t, exec i s = .next (thenStep s t) ∧ Wrote s d w f t.grp
      ∧ Completed { s with grp := { s.grp with v := t.grp.v, k := t.grp.k } } t)

/-- Mask register `m` takes the bits of `f` in the active lanes and keeps its other bits (R270, R271). -/
def Masked (s : State) (m : Nat) (f : Nat → Bool) (g : Group) : Prop :=
  ∀ l, l < 64 → bit (getM g m) l = if isActive s l then f l else bit (getM s.grp m) l

/-- A word that changes the active lanes of one mask register and nothing else. -/
def SetsMask (i : Instr) (n : Need) (s : State) (m : Nat) (f : Nat → Bool) : Prop :=
  (∀ r, check n s = .trap r → exec i s = .next (takeTrap r s))
  ∧ (∀ x, check n s = .stall x → exec i s = .next (stallOn x s))
  ∧ (ready n s → ∃ t, exec i s = .next (thenStep s t) ∧ Masked s m f t.grp
      ∧ Completed (s.setG (setM m (getM t.grp m))) t)

/-- The active mask is the full mask, or `XPART` stands before the word (R274). -/
def maskIsFull (s : State) : Bool := decide (active s = fullMask s.grp) || (curHints s).part

/-- A word that needs the full mask: without it, it traps `CONVERGE` once its checks have passed (R274); with it, it is as `w` says. -/
def Collective (i : Instr) (n : Need) (s : State) (w : Prop) : Prop :=
  (maskIsFull s = false → ready n s → exec i s = .next (takeTrap { cause := cConverge, mask := active s } s)) ∧ (maskIsFull s = true → w)

/-! ### Memory -/

/-- A byte that has been stored and is not yet performed at its home: one of a pending store, of an atomic in flight, or a dirty byte of a cached line
(R217, R219, R230). -/
def inFlight (s : State) (a : Nat) : Bool :=
  s.stores.any (fun p => decide (p.addr ≤ a) && decide (a < p.addr + (if p.op.isSome then 4 else p.bytes.length)))
  || s.caches.any (fun c => c.dirty.any fun d => decide (128 * c.line + d.1 = a))
  || (allGroups s).any fun g => g.ops.any fun o => o.loads.any fun p => p.isAtomic && decide (p.addr ≤ a) && decide (a < p.addr + 4)

/-- The access of a class 11 or 12 word: the record, the index of each lane, IMMoff, and what R213, R224, R305 and R327 look at. -/
def wordAccess (s : State) (n : BitVec 5) (x : BitVec 8) (size kind : Nat) (stores : Bool) (det : Option Nat) (watch : List Nat) : MemOp :=
  { buf := n.toNat, idx := fun l => getV s.grp x.toNat l, imm := immOff s, size := size, kind := kind, stores := stores, det := det, watch := watch }

/-- Every lane of the word proceeds: its checks find no trap, every page it needs is present, no speculative task has to wait (R205,
R224, R305), and no resolve that a lane drives is pending on its line (R357). `run` is each access in bounds with the address of its place. -/
def proceeds (s : State) (o : MemOp) (run : List (Access × Nat)) : Prop :=
  memCheck s o (lanes (active s)) = .go run [] ∧ tasksWait s (placeOf s.grp o.buf) o.stores run = 0 ∧ runMeets s o.size run = false

/-- An address is among the bytes that the accesses of a word cover at their homes. -/
def covered (pl : Place) (size : Nat) (run : List (Access × Nat)) (a : Nat) : Prop :=
  pl ≠ .scratch ∧ ∃ p ∈ run, p.2 ≤ a ∧ a < p.2 + size

/-- The issuer's registers, path and other parts are the same, but for its reservations, those to come among them, and GWCT, and for the loads
in flight that have been performed: the operations are the same ones, and all as they were when none has a load to perform. -/
def sameIssuer (g h : Group) : Prop :=
  h = { g with resv := h.resv, arming := h.arming, gwct := h.gwct, ops := h.ops }
  ∧ h.ops.map (fun o => o.flag) = g.ops.map (fun o => o.flag) ∧ ((∀ o ∈ g.ops, o.loads = []) → h.ops = g.ops)

/-- Nothing of the issuer's loads, no pending store and no copy of a line is about: what a word reads and writes then is at the homes. -/
def atRest (s : State) : Prop := (∀ o ∈ s.grp.ops, o.loads = []) ∧ s.stores = [] ∧ s.caches = []

/-! ### Control transfers -/

/-- `t` is `u` after its path has left its clause for the entries `es` (R287): the path is gone, its reservations with it (R226), the entries
stand in the frontier, merged where they meet, and nothing else changes. -/
def LeftFor (u : State) (es : List FEntry) (t : State) : Prop :=
  Completed u t ∧ t.grp.act = none ∧ t.grp.resv = [] ∧ t.grp.arming = [] ∧ t.grp.frontier = (es.foldl (fun g e => addEntry e g) u.grp).frontier

/-- A transfer whose check of its targets meets a code word that it cannot read: it waits for the walker, its path parks on an absent page, or
a page that refuses fetches traps `PROTECTION`. -/
def WaitsForCode (i : Instr) (s : State) (x : Option (Nat × Trans)) : Prop :=
  (∀ va, x = some (va, .miss) → exec i s = .next (walkStall va 2 s))
  ∧ (∀ va, x = some (va, .absent) → exec i s = .next (parkPath 2 va s))
  ∧ (∀ va m, x = some (va, .refused m) →
      exec i s = .next (takeTrap { cause := 0x0C, mask := active s, addr := va, info := (m.map fun p => 256 + p).getD 0 } s))

/-- A word with a direct target (R287, R52): it waits for the code words that the check of its target reads, traps on a bad one before any
other check, and else, with every check passed, does `w` of the target's offset. A target below the code is bad, so that there is an offset;
in residual code that checks an original target in its place (R185, R186) the offset is the one its layout gives. -/
def Direct (i : Instr) (n : Need) (off : Int) (s : State) (w : Nat → Prop) : Prop :=
  WaitsForCode i s (waitDirect s off)
  ∧ (∀ r, badDirect s off = some r → exec i s = .next (takeTrap r s))
  ∧ (waitDirect s off = none → badDirect s off = none → ready { n with last := true } s →
      (originalTarget s off = none → (directTarget s off).isSome = true) ∧ w ((directTarget s off).getD 0))

/-- A word whose active lanes name their own targets (R287, R290, R291). `reads`: the issuer has the registers `rs` that give them. A marked one
traps whatever its value, and a pending one is waited for (R42, R364); then the targets are checked, before anything else of the word; then its
other checks; and with every check passed it does `w`. -/
def Indirect (i : Instr) (n : Need) (reads mapped : Bool) (rs : List Reg) (val : Nat → Nat) (s : State) (w : Prop) : Prop :=
  let ls := lanes (active s)
  let noted := rs.any fun r => marked s.grp r && !((curPos s).map fun p => p.own.contains r).getD false
  let found := reads = true ∧ noted = false ∧ rs.any (regPending s.grp) = false
  (reads = false ∨ noted = true → ∃ r, check n s = .trap r ∧ exec i s = .next (takeTrap r s))
  ∧ (reads = true → noted = false → rs.any (regPending s.grp) = true → exec i s = .next (stallOn .token s))
  ∧ (found → WaitsForCode i s (waitTargets s val ls)
    ∧ (waitTargets s val ls = none →
      (∀ r, badLaneTarget s val mapped ls = some r → exec i s = .next (takeTrap r s))
      ∧ (badLaneTarget s val mapped ls = none →
        (∀ r, check n s = .trap r → exec i s = .next (takeTrap r s)) ∧ (∀ x, check n s = .stall x → exec i s = .next (stallOn x s))
        ∧ (ready n s → w))))

/-! ### The mailbox (R303) -/

/-- GO is set with a command's code in `MBCMD`. -/
def asked (code : Nat) (s : State) : Prop := s.started = true ∧ s.mbox.go = true ∧ s.mbox.code = code

/-- A command that is asked for outside minimal mode. -/
def serves (code : Nat) (s : State) : Prop := asked code s ∧ s.minimal = false

/-- A command completes with a status and changes nothing else. -/
def Fails (i : Instr) (s : State) (status : Nat) : Prop := exec i s = .next (complete status 0 s)

/-- A command completes with `OK`, the effect `u` and a result in `MBPAY`. -/
def Ends (i : Instr) (s u : State) (result : List Byte) : Prop := exec i s = .next (complete 0 result.length (putPay result u))

/-- The commands that are not served in minimal mode, with their codes (R302, R330). -/
def mailboxCommands : List (Instr × Nat) :=
  [(.ctxCreate, 0x01), (.ctxDestroy, 0x02), (.map, 0x10), (.hemResume, 0x11), (.unmap, 0x12), (.faultRing, 0x13), (.queueSetup, 0x20),
   (.queueClose, 0x21), (.poolSetup, 0x22), (.queueReset, 0x23), (.traceArm, 0x30), (.traceStatus, 0x31), (.peerExport, 0x40),
   (.peerImport, 0x41), (.framelock, 0x50), (.frameSource, 0x51), (.frameStatus, 0x52), (.pocketRead, 0x70)]
  ++ [(.dbgAttach, 0x80), (.dbgDetach, 0x81), (.dbgHalt, 0x82), (.dbgResume, 0x83), (.dbgBreak, 0x84), (.dbgWatch, 0x85), (.dbgRead, 0x86),
   (.dbgWrite, 0x87), (.dbgSample, 0x88), (.dbgEvents, 0x89), (.ctxPreempt, 0x8A), (.ctxRestore, 0x8B)]

/-- A debugger command that is served, on the attached context `x` (R330). -/
def debugs (code : Nat) (x : Context) (s : State) : Prop := serves code s ∧ findCtx (param s 0) s = some x ∧ x.attached = true

/-! ### Walks through an acceleration structure (R166, R167) -/

/-- How a walk reads its structure: bytes at an offset, no such bytes, or a translation to wait for. -/
abbrev AccRead := Nat → Nat → Except (Option (Nat × Trans)) (List Byte)

/-- The bytes of a node whose box the ray meets. -/
def Visited (rd : AccRead) (h : AccHdr) (r : Ray) (n : Nat) (bs : List Byte) : Prop :=
  rd (h.node + 32 * n) 32 = .ok bs ∧ boxMet r (v3From bs 0) (v3From bs 12) = true

/-- A ray hits a triangle below a node, inside an instance or outside all: through visited nodes, and for an instance with the ray in its
space (R166, R167). -/
inductive Reaches (rd : AccRead) (h : AccHdr) : Option Nat → Ray → Nat → RHit → Prop where
  | left {inst r n bs k} : Visited rd h r n bs → natAt bs 28 / 2 ^ 30 = 0 → Reaches rd h inst r (natAt bs 24) k → Reaches rd h inst r n k
  | right {inst r n bs k} : Visited rd h r n bs → natAt bs 28 / 2 ^ 30 = 0 → Reaches rd h inst r (natAt bs 24 + 1) k → Reaches rd h inst r n k
  | triangle {inst r n bs i ts k} : Visited rd h r n bs → natAt bs 28 / 2 ^ 30 = 1 → i < natAt bs 28 % 2 ^ 30 →
      rd (h.tri + 48 * (natAt bs 24 + i)) 48 = .ok ts →
      triHit r (v3From ts 0) (v3From ts 12) (v3From ts 24) (natAt ts 36) (inst.getD 0xFFFFFFFF) = some k → Reaches rd h inst r n k
  | object {r n bs i os k} : Visited rd h r n bs → natAt bs 28 / 2 ^ 30 = 2 → i < natAt bs 28 % 2 ^ 30 →
      rd (h.inst + 64 * (natAt bs 24 + i)) 64 = .ok os → Reaches rd h (some (natAt os 52)) (instRay os r) (natAt os 48) k → Reaches rd h none r n k

/-- A structure error below a node with so many nodes still to go down (R167): a read outside the record, a reserved KIND or primitive, an instance
inside an instance, or a walk that is too deep. -/
inductive Broken (rd : AccRead) (h : AccHdr) : Nat → Option Nat → Ray → Nat → Prop where
  | node {d inst r n} : rd (h.node + 32 * n) 32 = .error none → Broken rd h d inst r n
  | deep {inst r n bs} : Visited rd h r n bs → Broken rd h 0 inst r n
  | kind {d inst r n bs} : Visited rd h r n bs → natAt bs 28 / 2 ^ 30 = 3 → Broken rd h d inst r n
  | nested {d x r n bs} : Visited rd h r n bs → natAt bs 28 / 2 ^ 30 = 2 → Broken rd h d (some x) r n
  | left {d inst r n bs} : Visited rd h r n bs → natAt bs 28 / 2 ^ 30 = 0 → Broken rd h d inst r (natAt bs 24) → Broken rd h (d + 1) inst r n
  | right {d inst r n bs} : Visited rd h r n bs → natAt bs 28 / 2 ^ 30 = 0 → Broken rd h d inst r (natAt bs 24 + 1) → Broken rd h (d + 1) inst r n
  | noTriangle {d inst r n bs i} : Visited rd h r n bs → natAt bs 28 / 2 ^ 30 = 1 → i < natAt bs 28 % 2 ^ 30 →
      rd (h.tri + 48 * (natAt bs 24 + i)) 48 = .error none → Broken rd h d inst r n
  | primitive {d inst r n bs i ts} : Visited rd h r n bs → natAt bs 28 / 2 ^ 30 = 1 → i < natAt bs 28 % 2 ^ 30 →
      rd (h.tri + 48 * (natAt bs 24 + i)) 48 = .ok ts → 0xFFFFFFFD ≤ natAt ts 36 → Broken rd h d inst r n
  | noObject {d r n bs i} : Visited rd h r n bs → natAt bs 28 / 2 ^ 30 = 2 → i < natAt bs 28 % 2 ^ 30 →
      rd (h.inst + 64 * (natAt bs 24 + i)) 64 = .error none → Broken rd h d none r n
  | object {d r n bs i os} : Visited rd h r n bs → natAt bs 28 / 2 ^ 30 = 2 → i < natAt bs 28 % 2 ^ 30 →
      rd (h.inst + 64 * (natAt bs 24 + i)) 64 = .ok os → Broken rd h d (some (natAt os 52)) (instRay os r) (natAt os 48) →
      Broken rd h (d + 1) none r n

end Sys2Proof.Machine
end

