-- ==== Sys2Proof/Certificates/Slice0/Obligations.lean ====
section
/-!
DEFINITION. The statements for the provers. `Does` and `Writes` (Safety.lean) say of a word what each of its checks comes to,
that it completes when they pass, its effect, and that nothing else changes.
-/

open Sys2Proof Sys2Proof.Machine

/-! ### Vector arithmetic -/

/-- R90, R91: the FP32 words. Each is the exact result of its operands, rounded once under the word's hint; of `FMIN` and `FMAX` the mode and
the seed have no effect. -/
def Sys2Proof.Claims.singleWords : Prop := ∀ (s : State) (bt : BitVec 1) (d a b : BitVec 8),
  let n := vecNeed s d.toNat 1 [(a.toNat, 1), (b.toNat, 1)] true false false [] false
  let still := vecNeed s d.toNat 1 [(a.toNat, 1), (b.toNat, 1)] true false false [] false false
  let c := fun l => ctlOf s l 0
  let x := fun l => fp32.input (c l).ftz (src s a l).toNat
  let y := fun l => fp32.input (c l).ftz (src s b l).toNat
  let z := fun l => fp32.input (c l).ftz (src s d l).toNat
  let r := fun (e : Nat → FVal) (l : Nat) => [BitVec.ofNat 32 (fp32.round (c l) (e l))]
  Writes (.fadd bt d a b) n s d.toNat 1 (r fun l => FVal.sum (c l).mode [x l, y l])
  ∧ Writes (.fsub bt d a b) n s d.toNat 1 (r fun l => FVal.sum (c l).mode [x l, (y l).neg])
  ∧ Writes (.fmul bt d a b) n s d.toNat 1 (r fun l => (x l).mul (y l))
  ∧ Writes (.fmac bt d a b) n s d.toNat 1 (r fun l => FVal.sum (c l).mode [z l, (x l).mul (y l)])
  ∧ Writes (.fmsb bt d a b) n s d.toNat 1 (r fun l => FVal.sum (c l).mode [z l, ((x l).mul (y l)).neg])
  ∧ Writes (.fmin bt d a b) still s d.toNat 1
      (fun l => [BitVec.ofNat 32 (fp32.minMax (c l).ftz false (src s a l).toNat (src s b l).toNat)])
  ∧ Writes (.fmax bt d a b) still s d.toNat 1
      (fun l => [BitVec.ofNat 32 (fp32.minMax (c l).ftz true (src s a l).toNat (src s b l).toNat)])
  ∧ Writes (.fcps bt d a b) (vecNeed s d.toNat 1 [(a.toNat, 1), (b.toNat, 1)] false false false [] false) s d.toNat 1
      (fun l => [(src s a l &&& 0x7FFFFFFF) ||| (src s b l &&& 0x80000000)])

/-- R94, R97: the packed FP16 and BF16 words round each half by itself; `HDOT2` rounds once. -/
def Sys2Proof.Claims.packedWords : Prop := ∀ (s : State) (bt : BitVec 1) (d a b : BitVec 8),
  let n := vecNeed s d.toNat 1 [(a.toNat, 1), (b.toNat, 1)] true false false [] false
  let h := fun (f : Fmt) (q : BitVec 8) (k l : Nat) => f.input (ctlOf s l k).ftz (halfOf (src s q l) k)
  let r := fun (f : Fmt) (e : Nat → Nat → FVal) (l : Nat) =>
    [BitVec.ofNat 32 (f.round (ctlOf s l 0) (e 0 l) + 65536 * f.round (ctlOf s l 1) (e 1 l))]
  let add := fun (f : Fmt) => r f fun k l => FVal.sum (ctlOf s l k).mode [h f a k l, h f b k l]
  let mul := fun (f : Fmt) => r f fun k l => (h f a k l).mul (h f b k l)
  let mac := fun (f : Fmt) => r f fun k l => FVal.sum (ctlOf s l k).mode [h f d k l, (h f a k l).mul (h f b k l)]
  Writes (.hadd2 bt d a b) n s d.toNat 1 (add fp16)
  ∧ Writes (.hmul2 bt d a b) n s d.toNat 1 (mul fp16)
  ∧ Writes (.hmac2 bt d a b) n s d.toNat 1 (mac fp16)
  ∧ Writes (.badd2 bt d a b) n s d.toNat 1 (add bf16)
  ∧ Writes (.bmul2 bt d a b) n s d.toNat 1 (mul bf16)
  ∧ Writes (.bmac2 bt d a b) n s d.toNat 1 (mac bf16)
  ∧ Writes (.hdot2 bt d a b) n s d.toNat 1 (fun l =>
      let c := ctlOf s l 0
      let p := fun k => (fp16.input c.ftz (halfOf (src s a l) k)).mul (fp16.input c.ftz (halfOf (src s b l) k))
      [BitVec.ofNat 32 (fp32.round c (FVal.sum c.mode [fp32.input c.ftz (src s d l).toNat, p 0, p 1]))])

/-- R95: the FP64 words on register pairs. -/
def Sys2Proof.Claims.doubleWords : Prop := ∀ (s : State) (bt : BitVec 1) (d a b : BitVec 8),
  let n := vecNeed s d.toNat 2 [(a.toNat, 2), (b.toNat, 2)] true false false [1] false
  let c := fun l => ctlOf s l 0
  let v := fun (q : BitVec 8) l => fp64.input (c l).ftz (src64 s q l)
  let r := fun (e : Nat → FVal) (l : Nat) => [loWord (fp64.round (c l) (e l)), hiWord (fp64.round (c l) (e l))]
  Writes (.dadd bt d a b) n s d.toNat 2 (r fun l => FVal.sum (c l).mode [v a l, v b l])
  ∧ Writes (.dmul bt d a b) n s d.toNat 2 (r fun l => (v a l).mul (v b l))
  ∧ Writes (.dmac bt d a b) n s d.toNat 2 (r fun l => FVal.sum (c l).mode [v d l, (v a l).mul (v b l)])

/-- R71, R73: a finite value rounded to a format: the code of the rounded magnitude under each mode, with SAT, FTZ and the overflow table, and the
value's own sign; a zero keeps its sign. -/
def Sys2Proof.Claims.roundsOnce (f : Fmt) : Prop := ∀ (c : Ctl) (sg : Bool) (m : Nat) (e : ℤ),
  (0 < m → Rounded f c sg ((m : ℝ) * 2 ^ e) (f.round c (.fin sg m e))) ∧ f.round c (.fin sg 0 e) = f.signed sg 0
  ∧ f.round c (.inf sg) = (match f.tops with
      | .ieee => f.signed sg (if c.sat then f.maxCode else f.infCode)
      | .e4m3 => if c.sat then f.signed sg f.maxCode else 0x7F
      | .finite => f.signed sg f.maxCode)

/-- R62, R73: the wide formats, the exact values of their codes, and subnormal sources under FTZ. -/
def Sys2Proof.Claims.codeValues : Prop :=
  fp64.maxCode = 0x7FEFFFFFFFFFFFFF ∧ fp64.infCode = 0x7FF0000000000000 ∧ fp32.maxCode = 0x7F7FFFFF ∧ fp32.infCode = 0x7F800000
  ∧ fp16.maxCode = 0x7BFF ∧ fp16.infCode = 0x7C00 ∧ bf16.maxCode = 0x7F7F ∧ bf16.infCode = 0x7F80
  ∧ (fp64.mb, fp64.bias) = (52, 1023) ∧ (fp32.mb, fp32.bias) = (23, 127) ∧ (fp16.mb, fp16.bias) = (10, 15) ∧ (bf16.mb, bf16.bias) = (7, 127)
  ∧ ∀ f ∈ [fp64, fp32, fp16, bf16], ∀ (ftz sg : Bool) (k : Nat),
    let v := f.input ftz (f.signed sg k)
    f.wide = true ∧ f.tops = .ieee ∧ f.signed sg k = (if sg then 2 ^ (f.eb + f.mb) + k else k)
    ∧ (k < f.infCode → ∃ m e, v = .fin sg m e ∧ (m * 2 ^ e : ℚ) = if ftz = true ∧ k < 2 ^ f.mb then 0 else codeValue f k)
    ∧ (k = f.infCode → v = .inf sg) ∧ (f.infCode < k → k < 2 ^ (f.eb + f.mb) → v = .nan)

/-- R71, R74: the exact sum and product of finite values, the sign of an exact zero, and where NaN and infinities go. -/
def Sys2Proof.Claims.exactValues : Prop := ∀ (mode : Nat) (l : List FVal) (a b : FVal) (sg : Bool),
  let t := (l.map FVal.toRat).sum
  ((∀ v ∈ l, v.isFin = true) → (FVal.sum mode l).isFin = true ∧ (FVal.sum mode l).toRat = t
    ∧ (t < 0 → (FVal.sum mode l).sign = true) ∧ (0 < t → (FVal.sum mode l).sign = false)
    ∧ (t = 0 → l ≠ [] → (FVal.sum mode l).sign
        = if l.all (FVal.isZero false) then false else if l.all (FVal.isZero true) then true else decide (mode = 3)))
  ∧ (FVal.nan ∈ l ∨ (.inf true ∈ l ∧ .inf false ∈ l) → FVal.sum mode l = .nan)
  ∧ (FVal.nan ∉ l → .inf sg ∈ l → .inf (!sg) ∉ l → FVal.sum mode l = .inf sg)
  ∧ (a.isFin = true → b.isFin = true → (a.mul b).isFin = true ∧ (a.mul b).toRat = a.toRat * b.toRat ∧ (a.mul b).sign = (a.sign != b.sign))
  ∧ (FVal.nan.mul a = .nan ∧ a.mul .nan = .nan ∧ (FVal.inf sg).mul a = (if a.isNan || a.isZero false || a.isZero true then .nan else .inf (sg != a.sign)))
  ∧ (a.mul (.inf sg) = (FVal.inf sg).mul a)

/-- R46, R71 to R73: where the mode, SAT, FTZ and the stochastic value of a rounding come from. -/
def Sys2Proof.Claims.roundingControl : Prop := ∀ (s : State) (l k : Nat),
  ((curHints s).rnd = none → ctlOf s l k = {})
  ∧ ∀ h, (curHints s).rnd = some h →
    let h0 := getS s.grp h.seed.toNat ^^^ BitVec.ofNat 32 (topcOf s.grp (curPc s)) ^^^ (BitVec.ofNat 32 (laneId s.grp l) * 0x9E3779B9)
      ^^^ (BitVec.ofNat 32 k * 0x85EBCA6B)
    let h1 := (h0 ^^^ (h0 >>> 16)) * 0x85EBCA6B
    let h2 := (h1 ^^^ (h1 >>> 13)) * 0xC2B2AE35
    ctlOf s l k = { mode := h.mode.toNat, sat := h.sat, ftz := h.ftz, q := (h2 ^^^ (h2 >>> 16)).toNat }

/-- R71 to R74, R90, R91, R94, R95, R97: the FP32, packed and FP64 words, and the rounding that they share. -/
def Obligations.FloatWordsWriteTheirResults : Prop :=
  Sys2Proof.Claims.singleWords ∧ Sys2Proof.Claims.packedWords ∧ Sys2Proof.Claims.doubleWords
  ∧ (∀ f ∈ [fp64, fp32, fp16, bf16], Sys2Proof.Claims.roundsOnce f) ∧ Sys2Proof.Claims.codeValues ∧ Sys2Proof.Claims.exactValues
  ∧ Sys2Proof.Claims.roundingControl

/-- R92: the INT32 words wrap modulo 2^32. -/
def Sys2Proof.Claims.integerWords : Prop := ∀ (s : State) (bt : BitVec 1) (d a b : BitVec 8),
  let n := vecNeed s d.toNat 1 [(a.toNat, 1), (b.toNat, 1)] false false false [] false
  let x := fun l => src s a l
  let y := fun l => src s b l
  let z := fun l => src s d l
  Writes (.iadd bt d a b) n s d.toNat 1 (fun l => [x l + y l])
  ∧ Writes (.isub bt d a b) n s d.toNat 1 (fun l => [x l - y l])
  ∧ Writes (.imul bt d a b) n s d.toNat 1 (fun l => [x l * y l])
  ∧ Writes (.imulh bt d a b) n s d.toNat 1 (fun l => [(((x l).signExtend 64 * (y l).signExtend 64) >>> 32).setWidth 32])
  ∧ Writes (.umulh bt d a b) n s d.toNat 1 (fun l => [(((x l).zeroExtend 64 * (y l).zeroExtend 64) >>> 32).setWidth 32])
  ∧ Writes (.imac bt d a b) n s d.toNat 1 (fun l => [z l + x l * y l])
  ∧ Writes (.imin bt d a b) n s d.toNat 1 (fun l => [if (x l).toInt ≤ (y l).toInt then x l else y l])
  ∧ Writes (.imax bt d a b) n s d.toNat 1 (fun l => [if (y l).toInt ≤ (x l).toInt then x l else y l])

/-- R93: the bit words, with the shift amount read as an unsigned 32-bit value. -/
def Sys2Proof.Claims.bitWords : Prop := ∀ (s : State) (bt : BitVec 1) (d a b : BitVec 8),
  let n := vecNeed s d.toNat 1 [(a.toNat, 1), (b.toNat, 1)] false false false [] false
  let x := fun l => src s a l
  let y := fun l => src s b l
  Writes (.and bt d a b) n s d.toNat 1 (fun l => [x l &&& y l])
  ∧ Writes (.or bt d a b) n s d.toNat 1 (fun l => [x l ||| y l])
  ∧ Writes (.xor bt d a b) n s d.toNat 1 (fun l => [x l ^^^ y l])
  ∧ Writes (.andn bt d a b) n s d.toNat 1 (fun l => [x l &&& ~~~(y l)])
  ∧ Writes (.shl bt d a b) n s d.toNat 1 (fun l => [x l <<< (y l).toNat])
  ∧ Writes (.shr bt d a b) n s d.toNat 1 (fun l => [x l >>> (y l).toNat])
  ∧ Writes (.sar bt d a b) n s d.toNat 1 (fun l => [(x l).sshiftRight (y l).toNat])
  ∧ Writes (.rot bt d a b) n s d.toNat 1 (fun l => [(x l).rotateLeft ((y l).toNat % 32)])

/-- R94, R96, R98, R99: `UMIN`, `UMAX`, the integer dot products, `PRMT` and `RND`. -/
def Sys2Proof.Claims.pickWords : Prop := ∀ (s : State) (bt : BitVec 1) (d a b : BitVec 8),
  let n := vecNeed s d.toNat 1 [(a.toNat, 1), (b.toNat, 1)] false false false [] false
  let x := fun l => src s a l
  let y := fun l => src s b l
  let z := fun l => src s d l
  let byte := fun (l k : Nat) => if k < 4 then (x l).extractLsb' (8 * k) 8 else (y l).extractLsb' (8 * (k - 4)) 8
  let pick := fun (l j : Nat) =>
    let sel := (z l).extractLsb' (4 * j) 4
    let named := byte l (sel.toNat % 8)
    if sel.getLsbD 3 then (if named.getLsbD 7 then 0xFF#8 else 0#8) else named
  Writes (.umin bt d a b) n s d.toNat 1 (fun l => [if (x l).toNat ≤ (y l).toNat then x l else y l])
  ∧ Writes (.umax bt d a b) n s d.toNat 1 (fun l => [if (y l).toNat ≤ (x l).toNat then x l else y l])
  ∧ Writes (.dot4 bt d a b) n s d.toNat 1 (fun l => [z l + BitVec.ofInt 32 ((List.range 4).map fun i =>
      ((x l).extractLsb' (8 * i) 8).toInt * ((y l).extractLsb' (8 * i) 8).toInt).sum])
  ∧ Writes (.dot8 bt d a b) n s d.toNat 1 (fun l => [z l + BitVec.ofInt 32 ((List.range 8).map fun i =>
      ((x l).extractLsb' (4 * i) 4).toInt * ((y l).extractLsb' (4 * i) 4).toInt).sum])
  ∧ Writes (.prmt bt d a b) n s d.toNat 1 (fun l => [pick l 3 ++ pick l 2 ++ pick l 1 ++ pick l 0])
  ∧ Writes (.rnd bt d a b) n s d.toNat 1 (fun l => [mix (x l ^^^ mix (y l ^^^ 0x5BD1E995))])

/-- R92, R93, R94, R96, R98, R99: the integer, bit, dot-product, permute and random words. -/
def Obligations.IntegerWordsWriteTheirResults : Prop :=
  Sys2Proof.Claims.integerWords ∧ Sys2Proof.Claims.bitWords ∧ Sys2Proof.Claims.pickWords

/-- R99: `RND` hashes the counter under the key with the mix that the rule writes out, in every active lane, and changes nothing else; for a fixed
key the map from counter to result is a bijection on 32-bit values. `rnd v10, v11, v12` is 0x670A_0B0C. -/
def Obligations.RndHashesAndIsABijection : Prop := ∀ (s : State) (bt : BitVec 1) (d a b : BitVec 8) (w key : Word),
  let x1 := (w ^^^ (w >>> 16)) * 0x7FEB352D
  let x2 := (x1 ^^^ (x1 >>> 15)) * 0x846CA68B
  mix w = x2 ^^^ (x2 >>> 16)
  ∧ Writes (.rnd bt d a b) (vecNeed s d.toNat 1 [(a.toNat, 1), (b.toNat, 1)] false false false [] false) s d.toNat 1
      (fun l => [mix (src s a l ^^^ mix (src s b l ^^^ 0x5BD1E995))])
  ∧ (Function.Bijective fun counter : Word => mix (counter ^^^ mix (key ^^^ 0x5BD1E995)))
  ∧ decodeWord 0x670A0B0C = .ok (.rnd 0 10 11 12)

/-- R101, R103, R104: the bit moves in each of their forms, and the FP32 words that round, take a fraction or classify. -/
def Sys2Proof.Claims.moveWords : Prop := ∀ (s : State) (bt : BitVec 1) (m : BitVec 5) (d a : BitVec 8),
  let n := fun (dw aw : Nat) (fs : List Nat) => vecNeed s d.toNat dw [(a.toNat, aw)] false false false fs false
  let w := fun (i l : Nat) => srcWord s a.toNat i l
  Writes (.mov bt 0 d a) (n 1 1 []) s d.toNat 1 (fun l => [w 0 l])
  ∧ Writes (.mov bt 1 d a) (n 2 2 []) s d.toNat 2 (fun l => [w 0 l, w 1 l])
  ∧ Writes (.mov bt 2 d a) (n 4 4 []) s d.toNat 4 (fun l => [w 0 l, w 1 l, w 2 l, w 3 l])
  ∧ Writes (.fneg bt 0 d a) (n 1 1 []) s d.toNat 1 (fun l => [w 0 l ^^^ 0x80000000])
  ∧ Writes (.fneg bt 1 d a) (n 2 2 [1]) s d.toNat 2 (fun l => [w 0 l, w 1 l ^^^ 0x80000000])
  ∧ Writes (.fneg bt 2 d a) (n 1 1 []) s d.toNat 1 (fun l => [w 0 l ^^^ 0x80008000])
  ∧ Writes (.fabs bt 0 d a) (n 1 1 []) s d.toNat 1 (fun l => [w 0 l &&& 0x7FFFFFFF])
  ∧ Writes (.fabs bt 1 d a) (n 2 2 [1]) s d.toNat 2 (fun l => [w 0 l, w 1 l &&& 0x7FFFFFFF])
  ∧ Writes (.fabs bt 2 d a) (n 1 1 []) s d.toNat 1 (fun l => [w 0 l &&& 0x7FFF7FFF])
  ∧ Writes (.frint bt m d a) (n 1 1 []) s d.toNat 1 (fun l => [frint m.toNat (w 0 l)])
  ∧ Writes (.ffrac bt d a) (n 1 1 []) s d.toNat 1 (fun l => [ffrac (w 0 l)])
  ∧ Writes (.fclass bt 0 d a) (n 1 1 []) s d.toNat 1 (fun l => [classMask fp32 (w 0 l).toNat])
  ∧ Writes (.fclass bt 1 d a) (n 1 2 [1]) s d.toNat 1 (fun l => [classMask fp64 (pair64 (w 0 l) (w 1 l))])

/-- R104: exactly one bit of a class mask is set, and it is the bit of the value's class. -/
def Sys2Proof.Claims.classMaskBits : Prop := ∀ x : Word,
  let e := x.extractLsb' 23 8
  let f := x.extractLsb' 0 23
  let neg := x.getLsbD 31
  classMask fp32 x.toNat =
    if e = 255#8 ∧ f ≠ 0 then 1#32 <<< 8
    else if e = 255#8 then (if neg then 1#32 else 1#32 <<< 7)
    else if e ≠ 0 then (if neg then 1#32 <<< 1 else 1#32 <<< 6)
    else if f ≠ 0 then (if neg then 1#32 <<< 2 else 1#32 <<< 5)
    else (if neg then 1#32 <<< 3 else 1#32 <<< 4)

/-- R103: `FRINT` gives the integral value that its mode chooses, with the sign of its operand; `FFRAC` gives what is left above the floor, rounded
down, and +0 for an integral operand. -/
def Sys2Proof.Claims.integralValues : Prop := ∀ (mode : Nat) (x : Word) (sg : Bool) (m k : Nat),
  let code := fun (v : FVal) => BitVec.ofNat 32 (fp32.round {} v)
  (isNan32 x = true → frint mode x = 0x7FC00000 ∧ ffrac x = 0x7FC00000) ∧ (isInf32 x = true → frint mode x = x ∧ ffrac x = 0x7FC00000)
  ∧ (∀ e : Nat, f32 x = .fin sg m e → frint mode x = x ∧ ffrac x = 0)
  ∧ (f32 x = .fin sg m (-(k : Int)) → ∃ r : Nat, frint mode x = code (.fin sg r 0)
      ∧ (m % 2 ^ k = 0 → r = m / 2 ^ k) ∧ (r = m / 2 ^ k ∨ r = m / 2 ^ k + 1)
      ∧ (mode = 0 → 2 * (m % 2 ^ k) < 2 ^ k → r = m / 2 ^ k) ∧ (mode = 0 → 2 ^ k < 2 * (m % 2 ^ k) → r = m / 2 ^ k + 1)
      ∧ (mode = 0 → 2 * (m % 2 ^ k) = 2 ^ k → r % 2 = 0) ∧ (mode = 1 → r = m / 2 ^ k)
      ∧ (mode = 2 → m % 2 ^ k ≠ 0 → r = m / 2 ^ k + (if sg then 0 else 1)) ∧ (mode = 3 → m % 2 ^ k ≠ 0 → r = m / 2 ^ k + (if sg then 1 else 0))
      ∧ (mode = 4 → 2 ^ k ≤ 2 * (m % 2 ^ k) → r = m / 2 ^ k + 1) ∧ (mode = 4 → 2 * (m % 2 ^ k) < 2 ^ k → r = m / 2 ^ k))
  ∧ (f32 x = .fin sg m (-(k : Int)) → ffrac x = BitVec.ofNat 32 (fp32.round { mode := 3 }
      (.fin false (if sg then (2 ^ k - m % 2 ^ k) % 2 ^ k else m % 2 ^ k) (-(k : Int)))))
  ∧ frint 0 0xBE99999A = 0x80000000 ∧ frint 3 0xBE99999A = 0xBF800000 ∧ frint 2 0x00000001 = 0x3F800000
  ∧ ffrac 0xBE800000 = 0x3F400000 ∧ ffrac 0xB0800000 = 0x3F7FFFFF

/-- R101, R103, R104: moves, rounding, fractions and classes. -/
def Obligations.MovesAndClassesWriteTheirResults : Prop :=
  Sys2Proof.Claims.moveWords ∧ Sys2Proof.Claims.classMaskBits ∧ Sys2Proof.Claims.integralValues

/-- R105, R106: `CVT` in each of its 32 forms, with the widths of D and A, feature bit 1, and whether the seed of `XRND` is read. An integer
target saturates to its range; a floating-point one is rounded once, each element of a pair for itself. -/
def Sys2Proof.Claims.conversionWords : Prop := ∀ (s : State) (bt : BitVec 1) (d a : BitVec 8),
  let c := fun (l k : Nat) => ctlOf s l k
  let f := fun (l : Nat) => fp32.input (c l 0).ftz (src s a l).toNat
  let g := fun (l : Nat) => fp64.input (c l 0).ftz (src64 s a l)
  let w := fun (l k : Nat) => fp32.input (c l k).ftz (srcWord s a.toNat k l).toNat
  let h := fun (t : Fmt) (l k i : Nat) => t.input (c l k).ftz ((src s a l).toNat / 2 ^ (16 * i) % 65536)
  let s32 := fun (l : Nat) => FVal.ofInt (src s a l).toInt
  let u32 := fun (l : Nat) => FVal.ofInt ((src s a l).toNat : Int)
  let s64 := fun (l : Nat) => FVal.ofInt (BitVec.ofNat 64 (src64 s a l)).toInt
  let u64 := fun (l : Nat) => FVal.ofInt (src64 s a l : Int)
  let int := fun (lo hi : Int) (v : Nat → FVal) (l : Nat) => (v l).toInt (c l 0) lo hi
  let one := fun (n : Nat → Nat) (l : Nat) => [BitVec.ofNat 32 (n l)]
  let two := fun (n : Nat → Nat) (l : Nat) => [BitVec.ofNat 32 (n l), BitVec.ofNat 32 (n l / 2 ^ 32)]
  let into := fun (t : Fmt) (v : Nat → FVal) (l : Nat) => t.round (c l 0) (v l)
  let halves := fun (t : Fmt) (l : Nat) => [BitVec.ofNat 32 (t.round (c l 0) (w l 0) + 65536 * t.round (c l 1) (w l 1))]
  let pair := fun (t : Fmt) (l : Nat) => [BitVec.ofNat 32 (fp32.round (c l 0) (h t l 0 0)), BitVec.ofNat 32 (fp32.round (c l 1) (h t l 1 1))]
  let is := fun (m : BitVec 5) (dw aw : Nat) (f1 seed : Bool) (r : Nat → List Word) =>
    Writes (.cvt bt m d a) (vecNeed s d.toNat dw [(a.toNat, aw)] true false false (if f1 then [1] else []) false seed) s d.toNat dw r
  let i32 := fun (v : Nat → FVal) (l : Nat) => [BitVec.ofInt 32 (int (-2147483648) 2147483647 v l)]
  let n32 := fun (v : Nat → FVal) (l : Nat) => [BitVec.ofInt 32 (int 0 4294967295 v l)]
  let i64 := fun (v : Nat → FVal) => two fun l => (BitVec.ofInt 64 (int (-9223372036854775808) 9223372036854775807 v l)).toNat
  let n64 := fun (v : Nat → FVal) => two fun l => (BitVec.ofInt 64 (int 0 18446744073709551615 v l)).toNat
  (is 0 1 1 false true (i32 f) ∧ is 1 1 1 false true (n32 f) ∧ is 2 1 1 false true (one (into fp32 s32)) ∧ is 3 1 1 false true (one (into fp32 u32))
    ∧ is 4 1 1 false true (one (into fp16 f)) ∧ is 5 1 1 false true (one (into bf16 f))
    ∧ is 6 1 1 false false (one (into fp32 fun l => h fp16 l 0 0)) ∧ is 7 1 1 false false (one (into fp32 fun l => h bf16 l 0 0))
    ∧ is 8 1 1 false false (one (into fp32 fun l => h fp16 l 0 1)) ∧ is 9 1 1 false false (one (into fp32 fun l => h bf16 l 0 1))
    ∧ is 10 1 2 false true (halves fp16) ∧ is 11 1 2 false true (halves bf16) ∧ is 12 2 1 true false (two (into fp64 f))
    ∧ is 13 1 2 true true (one (into fp32 g)) ∧ is 14 1 2 true true (i32 g) ∧ is 15 1 2 true true (n32 g))
  ∧ (is 16 2 1 true false (two (into fp64 s32)) ∧ is 17 2 1 true false (two (into fp64 u32)) ∧ is 18 2 2 true true (i64 g)
    ∧ is 19 2 2 true true (two (into fp64 s64)) ∧ is 20 2 1 false true (i64 f) ∧ is 21 1 2 false true (one (into fp32 s64))
    ∧ is 22 2 2 true true (n64 g) ∧ is 23 2 2 true true (two (into fp64 u64)) ∧ is 24 2 1 false true (n64 f)
    ∧ is 25 1 2 false true (one (into fp32 u64)) ∧ is 26 2 1 false false (pair fp16) ∧ is 27 2 1 false false (pair bf16)
    ∧ is 28 1 1 false true (one (into fp16 s32)) ∧ is 29 1 1 false true (i32 fun l => h fp16 l 0 0)
    ∧ is 30 2 1 false false (fun l => [src s a l, if (src s a l).toInt < 0 then 0xFFFFFFFF else 0])
    ∧ is 31 2 1 false false (fun l => [src s a l, 0]))

/-- R76: a value rounded to an integer target. NaN gives 0, an infinity and every value outside the range the end of the range, and within it the
magnitude is the one that the mode chooses: the nearer with ties to even (RNE) or away (RNA), the smaller (RTZ), the upper (RUP), the lower (RDN). -/
def Sys2Proof.Claims.integerTargets : Prop := ∀ (c : Ctl) (lo hi : Int) (sg : Bool) (m k : Nat), lo ≤ hi →
  let x := (FVal.fin sg m (-(k : Int))).toInt c lo hi
  FVal.nan.toInt c lo hi = 0 ∧ (FVal.inf true).toInt c lo hi = lo ∧ (FVal.inf false).toInt c lo hi = hi
  ∧ (∀ e : Nat, (FVal.fin sg m (e : Int)).toInt c lo hi = max lo (min hi (if sg then -(m * 2 ^ e : Int) else m * 2 ^ e)))
  ∧ ∃ r : Nat, x = max lo (min hi (if sg then -(r : Int) else r))
    ∧ (m % 2 ^ k = 0 → r = m / 2 ^ k) ∧ (r = m / 2 ^ k ∨ r = m / 2 ^ k + 1)
    ∧ (c.mode = 0 → 2 * (m % 2 ^ k) < 2 ^ k → r = m / 2 ^ k) ∧ (c.mode = 0 → 2 ^ k < 2 * (m % 2 ^ k) → r = m / 2 ^ k + 1)
    ∧ (c.mode = 0 → 2 * (m % 2 ^ k) = 2 ^ k → r % 2 = 0) ∧ (c.mode = 1 → r = m / 2 ^ k)
    ∧ (c.mode = 2 → m % 2 ^ k ≠ 0 → r = m / 2 ^ k + (if sg then 0 else 1)) ∧ (c.mode = 3 → m % 2 ^ k ≠ 0 → r = m / 2 ^ k + (if sg then 1 else 0))
    ∧ (c.mode = 4 → 2 ^ k ≤ 2 * (m % 2 ^ k) → r = m / 2 ^ k + 1) ∧ (c.mode = 4 → 2 * (m % 2 ^ k) < 2 ^ k → r = m / 2 ^ k)

/-- R107, R108: `QNT` puts the code of the rounded value into its position and keeps every other bit of D: a byte, six bits with two zeros above
them, or a nibble. `DQNT` reads the element at its position and gives its exact FP32 value. CP8 is the workgroup's companding table and needs
feature bit 8. -/
def Sys2Proof.Claims.narrowWords : Prop := ∀ (s : State) (bt : BitVec 1) (p : BitVec 2) (d a : BitVec 8),
  let c := fun l => ctlOf s l 0
  let x := fun l => fp32.input (c l).ftz (src s a l).toNat
  let table := ((findWg s.grp.wg s).map fun w => w.compand).getD cpDefault
  let q := fun (f : BitVec 3) (w : Nat) (code : Nat → Nat) => ∀ r : Nat → Word,
    (∀ l i, i < 32 → (r l).getLsbD i =
      if w * p.toNat ≤ i ∧ i < w * p.toNat + w then (code l).testBit (i - w * p.toNat) else (src s d l).getLsbD i) →
    Writes (.qnt bt f p d a) (vecNeed s d.toNat 1 [(a.toNat, 1)] true false false (if f = 0 then [8] else []) false) s d.toNat 1 fun l => [r l]
  let e := fun (w b l : Nat) => (src s a l).toNat / 2 ^ (w * p.toNat) % 2 ^ b
  let u := fun (f : BitVec 3) (v : Nat → FVal) =>
    Writes (.dqnt bt f p d a) (vecNeed s d.toNat 1 [(a.toNat, 1)] false false false (if f = 0 then [8] else []) false) s d.toNat 1
      fun l => [BitVec.ofNat 32 (fp32.round {} (v l))]
  (q 0 8 (fun l => cpEncode (c l) table (x l)) ∧ q 1 8 (fun l => e4m3.round (c l) (x l)) ∧ q 2 8 (fun l => e5m2.round (c l) (x l))
    ∧ q 3 8 (fun l => e3m2.round (c l) (x l)) ∧ q 4 8 (fun l => e2m3.round (c l) (x l)) ∧ q 5 4 (fun l => e2m1.round (c l) (x l))
    ∧ q 6 8 (fun l => (BitVec.ofInt 8 ((x l).toInt (c l) (-128) 127)).toNat) ∧ q 7 4 (fun l => (BitVec.ofInt 4 ((x l).toInt (c l) (-8) 7)).toNat))
  ∧ u 0 (fun l => cpDecode table (e 8 8 l)) ∧ u 1 (fun l => e4m3.decode (e 8 8 l)) ∧ u 2 (fun l => e5m2.decode (e 8 8 l))
  ∧ u 3 (fun l => e3m2.decode (e 8 6 l)) ∧ u 4 (fun l => e2m3.decode (e 8 6 l)) ∧ u 5 (fun l => e2m1.decode (e 4 4 l))
  ∧ u 6 (fun l => FVal.ofInt (BitVec.ofNat 8 (e 8 8 l)).toInt) ∧ u 7 (fun l => FVal.ofInt (BitVec.ofNat 4 (e 4 4 l)).toInt)

/-- R76: where overflow, infinities and NaN go in the narrow formats, and R63: their largest magnitudes. -/
def Sys2Proof.Claims.narrowTops : Prop := ∀ (c : Ctl) (sg : Bool),
  let neg := fun (n w : Nat) => if sg then 2 ^ w + n else n
  e4m3.round c .nan = 0x7F ∧ e5m2.round c .nan = 0x7E ∧ e3m2.round c .nan = 0 ∧ e2m3.round c .nan = 0 ∧ e2m1.round c .nan = 0
  ∧ e4m3.round c (.inf sg) = (if c.sat then neg 0x7E 7 else 0x7F) ∧ e5m2.round c (.inf sg) = neg (if c.sat then 0x7B else 0x7C) 7
  ∧ e3m2.round c (.inf sg) = neg 0x1F 5 ∧ e2m3.round c (.inf sg) = neg 0x1F 5 ∧ e2m1.round c (.inf sg) = neg 0x7 3
  ∧ cpEncode c cpDefault (.inf sg) = neg 0x7F 7 ∧ cpEncode c cpDefault .nan = 0
  ∧ fp16.round c .nan = 0x7E00 ∧ bf16.round c .nan = 0x7FC0 ∧ fp32.round c .nan = 0x7FC00000 ∧ fp64.round c .nan = 0x7FF8000000000000

/-- R76: the worked examples of the narrow formats. -/
def Sys2Proof.Claims.narrowExamples : Prop :=
  (e4m3.maxCode, e5m2.maxCode, e3m2.maxCode, e2m3.maxCode, e2m1.maxCode) = (0x7E, 0x7B, 0x1F, 0x1F, 0x7)
  ∧ (e4m3.mb, e5m2.mb, e3m2.mb, e2m3.mb, e2m1.mb) = (3, 2, 2, 3, 1) ∧ (e4m3.bias, e5m2.bias, e3m2.bias, e2m3.bias, e2m1.bias) = (7, 15, 3, 1, 1)
  ∧ e4m3.round {} (f32 0x3E99999A) = 0x2A ∧ cpEncode {} cpDefault (f32 0x3E99999A) = 0x32 ∧ cpEncode { mode := 1 } cpDefault (f32 0x3E99999A) = 0x31
  ∧ e4m3.round {} (f32 0x43E60000) = 0x7E ∧ e4m3.round {} (f32 0x43E80000) = 0x7E ∧ e4m3.round {} (f32 0x43EB0000) = 0x7F
  ∧ e4m3.round { sat := true } (f32 0x43EB0000) = 0x7E ∧ e4m3.round { mode := 1 } (f32 0x43EB0000) = 0x7E

/-- R105 to R108, R76: the conversions and the narrow formats; the words that the rules write out. -/
def Obligations.ConversionsWriteTheirResults : Prop :=
  Sys2Proof.Claims.conversionWords ∧ Sys2Proof.Claims.integerTargets ∧ Sys2Proof.Claims.narrowWords ∧ Sys2Proof.Claims.narrowTops
  ∧ (∀ f ∈ [e4m3, e5m2, e3m2, e2m3, e2m1], Sys2Proof.Claims.roundsOnce f) ∧ Sys2Proof.Claims.narrowExamples
  ∧ decodeWord 0x71C00201 = .ok (.cvt 0 0 2 1) ∧ decodeWord 0x71E40903 = .ok (.qnt 0 1 0 9 3) ∧ decodeWord 0x72010A09 = .ok (.dqnt 0 0 1 10 9)

/-- R109: the integer unary words. -/
def Sys2Proof.Claims.unaryWords : Prop := ∀ (s : State) (bt : BitVec 1) (d a : BitVec 8),
  let n := vecNeed s d.toNat 1 [(a.toNat, 1)] false false false [] false
  let x := fun l => src s a l
  let top := fun l => ((List.range 32).filter (x l).getLsbD).getLast?
  Writes (.popc bt d a) n s d.toNat 1 (fun l => [BitVec.ofNat 32 ((List.range 32).countP (x l).getLsbD)])
  ∧ Writes (.clz bt d a) n s d.toNat 1 (fun l => [match top l with
      | some i => BitVec.ofNat 32 (31 - i)
      | none => 32])
  ∧ Writes (.brev bt d a) n s d.toNat 1 (fun l => [BitVec.ofFnLE fun i : Fin 32 => (x l).getLsbD (31 - i)])
  ∧ Writes (.bfind bt d a) n s d.toNat 1 (fun l => [match top l with
      | some i => BitVec.ofNat 32 i
      | none => 0xFFFFFFFF])
  ∧ Writes (.ineg bt d a) n s d.toNat 1 (fun l => [0 - x l])
  ∧ Writes (.iabs bt d a) n s d.toNat 1 (fun l => [if (x l).toInt < 0 then 0 - x l else x l])

/-- R111: the immediate words. The immediate is the signed field or, after an `XIMM`, the payload above it. -/
def Sys2Proof.Claims.immediateWords : Prop := ∀ (s : State) (bt : BitVec 1) (d a : BitVec 8) (k : BitVec 7) (q : BitVec 5),
  let n := fun im => vecNeed s d.toNat 1 [(a.toNat, 1)] false true im [] false
  let x := fun l => src s a l
  let i : Word := match (curHints s).imm with
    | some h => BitVec.ofInt 32 (h.toInt * 128 + k.toNat)
    | none => BitVec.ofInt 32 k.toInt
  Writes (.iaddi bt d a k) (n true) s d.toNat 1 (fun l => [x l + i])
  ∧ Writes (.imuli bt d a k) (n true) s d.toNat 1 (fun l => [x l * i])
  ∧ Writes (.shli bt d a q) (n false) s d.toNat 1 (fun l => [x l <<< q.toNat])
  ∧ Writes (.shri bt d a q) (n false) s d.toNat 1 (fun l => [x l >>> q.toNat])
  ∧ Writes (.sari bt d a q) (n false) s d.toNat 1 (fun l => [(x l).sshiftRight q.toNat])
  ∧ Writes (.andi bt d a k) (n true) s d.toNat 1 (fun l => [x l &&& i])
  ∧ Writes (.ori bt d a k) (n true) s d.toNat 1 (fun l => [x l ||| i])
  ∧ Writes (.xori bt d a k) (n true) s d.toNat 1 (fun l => [x l ^^^ i])
  ∧ Writes (.movi bt d k) (vecNeed s d.toNat 1 [((0xF4#8).toNat, 1)] false true true [] false) s d.toNat 1 (fun _ => [i])

/-- R109, R111: the integer unary and the immediate words. -/
def Obligations.UnaryAndImmediateWordsWriteTheirResults : Prop :=
  Sys2Proof.Claims.unaryWords ∧ Sys2Proof.Claims.immediateWords

/-- R78, R73: the special cases, under each SAT; an infinite result is the largest magnitude then. And the exact powers of two of R77. -/
def Sys2Proof.Claims.specialCases : Prop := ∀ (c : Ctl) (sg : Bool) (e : Int) (m k : Nat), c.mode = 0 →
  let zero := FVal.fin sg 0 e
  let below := FVal.fin true (m + 1) e
  let nan := 0x7FC00000
  let inf := if c.sat then 0x7F7FFFFF else 0x7F800000
  let sign := if sg then 2 ^ 31 else 0
  let nan64 := 0x7FF8000000000000
  let inf64 := if c.sat then 0x7FEFFFFFFFFFFFFF else 0x7FF0000000000000
  let sign64 := if sg then 2 ^ 63 else 0
  (∀ f ∈ [recip, rsqrtF, sqrtF, exp2F, log2F, sinPiF, cosPiF, tanhF], f fp32 c .nan = nan)
  ∧ recip fp32 c zero = sign + inf ∧ recip fp32 c (.inf sg) = sign
  ∧ rsqrtF fp32 c zero = sign + inf ∧ rsqrtF fp32 c below = nan ∧ rsqrtF fp32 c (.inf true) = nan ∧ rsqrtF fp32 c (.inf false) = 0
  ∧ sqrtF fp32 c zero = sign ∧ sqrtF fp32 c below = nan ∧ sqrtF fp32 c (.inf true) = nan ∧ sqrtF fp32 c (.inf false) = inf
  ∧ exp2F fp32 c (.inf true) = 0 ∧ exp2F fp32 c (.inf false) = inf ∧ exp2F fp32 c zero = 0x3F800000
  ∧ log2F fp32 c zero = 2 ^ 31 + inf ∧ log2F fp32 c below = nan ∧ log2F fp32 c (.inf true) = nan ∧ log2F fp32 c (.inf false) = inf
  ∧ sinPiF fp32 c zero = sign ∧ sinPiF fp32 c (.inf sg) = nan ∧ (0 < m → sinPiF fp32 c (.fin sg (m * 2 ^ k) (-(k : Int))) = sign)
  ∧ cosPiF fp32 c (.inf sg) = nan ∧ cosPiF fp32 c (.fin sg ((2 * m + 1) * 2 ^ k) (-(k : Int) - 1)) = 0
  ∧ tanhF fp32 c zero = sign ∧ tanhF fp32 c (.inf sg) = sign + 0x3F800000
  ∧ recip fp64 c zero = sign64 + inf64 ∧ recip fp64 c (.inf sg) = sign64 ∧ recip fp64 c .nan = nan64
  ∧ sqrtF fp64 c zero = sign64 ∧ sqrtF fp64 c below = nan64 ∧ sqrtF fp64 c (.inf true) = nan64 ∧ sqrtF fp64 c (.inf false) = inf64 ∧ sqrtF fp64 c .nan = nan64
  -- 2^n of an integer, and the logarithm of a power of two
  ∧ (m ≤ 126 → exp2F fp32 c (.fin sg (m * 2 ^ k) (-(k : Int))) = (if sg then 127 - m else 127 + m) * 2 ^ 23)
  ∧ log2F fp32 c (.fin false (2 ^ k) e) = fp32.round c (FVal.ofInt (k + e))

/-- R77: reciprocals and roots are the exact results rounded once to nearest. -/
def Sys2Proof.Claims.exactRoots : Prop := ∀ (c : Ctl) (sg : Bool) (m : Nat) (e : ℤ), c.mode = 0 → 0 < m →
  let x := (m : ℝ) * 2 ^ e
  (∀ f ∈ [fp32, fp64], Rounded f c sg (1 / x) (recip f c (.fin sg m e)) ∧ Rounded f c false (Real.sqrt x) (sqrtF f c (.fin false m e)))
  ∧ Rounded fp32 c false (1 / Real.sqrt x) (rsqrtF fp32 c (.fin false m e))

/-- R77, R78, R85, R102: a special function is in flight after its word: its flag counts one more, its destination is marked, and its result
for each active lane is what it writes when it completes. Reciprocals and roots are stated to be rounded correctly, and of the others the
special and exact cases; that their fixed-point values round correctly everywhere is log entry 10. -/
def Obligations.SpecialFunctionsLaunch : Prop := Sys2Proof.Claims.specialCases ∧ Sys2Proof.Claims.exactRoots ∧ ∀ (s : State) (bt : BitVec 1) (d a : BitVec 8),
  let n := vecNeed s d.toNat 1 [(a.toNat, 1)] (modeZero s) false false [10] true
  let n64 := vecNeed s d.toNat 2 [(a.toNat, 2)] (modeZero s) false false [1, 10] true
  let c := fun l => ctlOf s l 0
  let u := fun (f : Fmt → Ctl → FVal → Nat) => launchOp (codeRegs s 1 d.toNat) (resultWrites d.toNat
    (fun l => [BitVec.ofNat 32 (f fp32 (c l) (fp32.input (c l).ftz (src s a l).toNat))]) (lanes (active s))) [] s
  let u64 := fun (f : Fmt → Ctl → FVal → Nat) => launchOp (codeRegs s 2 d.toNat) (resultWrites d.toNat
    (fun l => words64 (f fp64 (c l) (fp64.input (c l).ftz (src64 s a l)))) (lanes (active s))) [] s
  Does (.frcp bt d a) n s (u recip) ∧ Does (.frsq bt d a) n s (u rsqrtF) ∧ Does (.fsqrt bt d a) n s (u sqrtF)
  ∧ Does (.fexp2 bt d a) n s (u exp2F) ∧ Does (.flog2 bt d a) n s (u log2F) ∧ Does (.fsinp bt d a) n s (u sinPiF)
  ∧ Does (.fcosp bt d a) n s (u cosPiF) ∧ Does (.ftanh bt d a) n s (u tanhF)
  ∧ Does (.dsqrt bt d a) n64 s (u64 sqrtF) ∧ Does (.drcp bt d a) n64 s (u64 recip)
  ∧ decodeWord 0x70600C03 = .ok (.frcp 0 12 3) ∧ decodeWord 0x70800C03 = .ok (.frsq 0 12 3) ∧ decodeWord 0x70A00C03 = .ok (.fsqrt 0 12 3)
  ∧ decodeWord 0x70C00C03 = .ok (.fexp2 0 12 3) ∧ decodeWord 0x70E00C03 = .ok (.flog2 0 12 3) ∧ decodeWord 0x71000C03 = .ok (.fsinp 0 12 3)
  ∧ decodeWord 0x71200C03 = .ok (.fcosp 0 12 3) ∧ decodeWord 0x71400C03 = .ok (.ftanh 0 12 3) ∧ decodeWord 0x72E00C04 = .ok (.dsqrt 0 12 4)
  ∧ decodeWord 0x73000C04 = .ok (.drcp 0 12 4)

/-- R41, R42: what a variable-latency word leaves behind with an active lane: its flag counts one more, the operation is in
flight, its destinations carry the flag, and no register, byte of memory or other flag changes. Without one it changes nothing. -/
def Obligations.VariableLatencyRaisesItsFlag : Prop :=
  ∀ (s : State) (p : Pos) (regs : List Reg) (ws : List RegWrite) (cs : List (Nat × Nat × Closure)) (ls : List PLoad),
  curPos s = some p →
  let t := launchOp regs ws cs s ls
  (active s = 0 → t = s)
  ∧ (active s ≠ 0 →
      getF t.grp (flagOf p) = getF s.grp (flagOf p) + 1
      ∧ (∀ f, f ≠ flagOf p → getF t.grp f = getF s.grp f)
      ∧ t.grp.ops = s.grp.ops ++ [{ flag := flagOf p, writes := ws, clos := cs, loads := ls }]
      ∧ (∀ r, r ∈ regs → marked t.grp r = true)
      ∧ (∀ r, r ∉ regs → marked t.grp r = marked s.grp r)
      ∧ t = { s with grp := { s.grp with f := t.grp.f, ops := t.grp.ops, marks := t.grp.marks, act := t.grp.act } })

/-! ### Masks and lanes -/

/-- R271: the compares. A compare merges its condition with the bit of `Md` in each active lane. -/
def Obligations.ComparesMergeIntoTheirMask : Prop := ∀ (s : State) (bt : BitVec 1) (c : BitVec 2) (m : BitVec 4) (a b : BitVec 8),
  let n := laneNeed s none [a.toNat, b.toNat] [] false false
  let x := fun l => src s a l
  let y := fun l => src s b l
  let nan := fun l => isNan32 (x l) || isNan32 (y l)
  let merged := fun (cond : Nat → Bool) (l : Nat) =>
    if c = 0 then cond l
    else if c = 1 then bit (getM s.grp m.toNat) l && cond l
    else if c = 2 then bit (getM s.grp m.toNat) l || cond l
    else bit (getM s.grp m.toNat) l && !cond l
  let on := fun (i : Instr) (cond : Nat → Bool) => SetsMask i n s m.toNat (merged cond)
  on (.fsetEq bt c m a b) (fun l => eq32 (x l) (y l)) ∧ on (.fsetNe bt c m a b) (fun l => !eq32 (x l) (y l))
  ∧ on (.fsetLt bt c m a b) (fun l => lt32 (x l) (y l)) ∧ on (.fsetLe bt c m a b) (fun l => le32 (x l) (y l))
  ∧ on (.fsetGt bt c m a b) (fun l => lt32 (y l) (x l)) ∧ on (.fsetGe bt c m a b) (fun l => le32 (y l) (x l))
  ∧ on (.fsetUn bt c m a b) nan ∧ on (.fsetOr bt c m a b) (fun l => !nan l)
  ∧ on (.isetEq bt c m a b) (fun l => decide (x l = y l)) ∧ on (.isetNe bt c m a b) (fun l => decide (x l ≠ y l))
  ∧ on (.isetLt bt c m a b) (fun l => decide ((x l).toInt < (y l).toInt)) ∧ on (.isetLe bt c m a b) (fun l => decide ((x l).toInt ≤ (y l).toInt))
  ∧ on (.isetGt bt c m a b) (fun l => decide ((y l).toInt < (x l).toInt)) ∧ on (.isetGe bt c m a b) (fun l => decide ((y l).toInt ≤ (x l).toInt))
  ∧ on (.usetLt bt c m a b) (fun l => decide ((x l).toNat < (y l).toNat)) ∧ on (.usetLe bt c m a b) (fun l => decide ((x l).toNat ≤ (y l).toNat))
  ∧ on (.usetGt bt c m a b) (fun l => decide ((y l).toNat < (x l).toNat)) ∧ on (.usetGe bt c m a b) (fun l => decide ((y l).toNat ≤ (x l).toNat))
  ∧ decodeWord 0x90820102 = .ok (.fsetLt 0 0 2 1 2) ∧ decodeWord 0x915201F4 = .ok (.fsetGe 0 1 2 1 0xF4) ∧ decodeWord 0x9281F802 = .ok (.isetLt 0 0 1 0xF8 2)

/-- R272, R273: the mask words and the conditional move. -/
def Obligations.MaskWordsWriteTheirResults : Prop :=
  ∀ (s : State) (bt dir : BitVec 1) (d a b : BitVec 4) (f : BitVec 3) (p : BitVec 6) (v w : BitVec 8),
  let n := laneNeed s none [] [] false false
  let x := fun l => bit (getM s.grp a.toNat) l
  let y := fun l => bit (getM s.grp b.toNat) l
  let pairNeed := laneNeed s none [] [p.toNat, p.toNat + 1] false (decide (p.toNat % 2 = 1))
  SetsMask (.mlog bt d a b f) n s d.toNat (fun l =>
      if f = 0 then x l && y l else if f = 1 then x l || y l else if f = 2 then x l != y l else if f = 3 then x l && !y l
      else if f = 4 then !x l else x l)
  ∧ Writes (.cmov bt a v w) (laneNeed s (some v.toNat) [w.toNat] [] false false) s v.toNat 1
      (fun l => [if x l then src s w l else src s v l])
  ∧ Does (.mact bt d) n s (s.setG (setM d.toNat (active s)))
  ∧ (dir = 0 → Does (.mmov bt dir d p) pairNeed s
      (s.setG fun g => setS (p.toNat + 1) ((getM s.grp d.toNat).extractLsb' 32 32) (setS p.toNat ((getM s.grp d.toNat).extractLsb' 0 32) g)))
  ∧ (dir = 1 → Does (.mmov bt dir d p) pairNeed s
      (s.setG (setM d.toNat (getS s.grp (p.toNat + 1) ++ getS s.grp p.toNat))))
  ∧ decodeWord 0x94831200 = .ok (.mlog 0 3 1 2 0) ∧ decodeWord 0x94C10506 = .ok (.cmov 0 1 5 6) ∧ decodeWord 0x97420000 = .ok (.mact 0 2)
  ∧ decodeWord 0x970E2800 = .ok (.mmov 0 0 14 10) ∧ decodeWord 0x97232800 = .ok (.mmov 0 1 3 10)

/-- R274, R276, R277: votes, ballots and group reductions over the active lanes, which must be the full mask unless `XPART` stands
before the word. -/
def Obligations.VotesAndReductionsAreCollective : Prop :=
  ∀ (s : State) (bt : BitVec 1) (k : BitVec 2) (d a : BitVec 4) (q : BitVec 6) (r : BitVec 3) (v : BitVec 8),
  let nv := laneNeed s none [] [] true false
  let nb := laneNeed s none [v.toNat] [q.toNat, q.toNat + 1] true (decide (q.toNat % 2 = 1))
  let ng := laneNeed s none [v.toNat] [q.toNat] true false
  let voted := if k = 0 then (lanes (active s)).any fun l => bit (getM s.grp a.toNat) l
    else (lanes (active s)).all fun l => bit (getM s.grp a.toNat) l
  Collective (.vote bt k d a) nv s (SetsMask (.vote bt k d a) nv s d.toNat (fun _ => voted))
  ∧ Collective (.ballot bt q v) nb s (∀ lo hi : Word,
      (∀ l, l < 64 → bit (hi ++ lo) l = (isActive s l && decide (src s v l ≠ 0))) →
      Does (.ballot bt q v) nb s (s.setG fun g => setS (q.toNat + 1) hi (setS q.toNat lo g)))
  ∧ Collective (.gred bt q r v) ng s (Does (.gred bt q r v) ng s
      (match (lanes (active s)).map (fun l => src s v l) with
        | [] => s
        | x :: xs => s.setG (setS q.toNat (xs.foldl (gredStep r.toNat) x))))
  ∧ decodeWord 0x96521000 = .ok (.vote 0 1 2 1) ∧ decodeWord 0x968A0003 = .ok (.ballot 0 10 3)

/-- R274, R275: the shuffles. A lane whose source lane exists and is active takes that lane's value and a clear bit of `M14`; another keeps
its destination and takes a set bit. The four with an immediate field accept no `IMM` and neither of its hints (R38, R46). -/
def Obligations.ShufflesMoveLanes : Prop :=
  ∀ (s : State) (bt : BitVec 1) (k : BitVec 3) (i : BitVec 6) (d a : BitVec 8),
  let shuffles := fun (w : Instr) (n : Need) (source : Nat → Int) =>
    let from_ := fun (l : Nat) => if 0 ≤ source l ∧ source l < (s.grp.width : Int) ∧ isActive s (source l).toNat = true
      then some (source l).toNat else none
    Collective w n s (ready n s → ∃ t, exec w s = .next (thenStep s t)
      ∧ Wrote s d.toNat 1 (fun l => [match from_ l with
          | some x => src s a x
          | none => src s d l]) t.grp
      ∧ Masked s 14 (fun l => (from_ l).isNone) t.grp
      ∧ Completed { s with grp := { s.grp with v := t.grp.v, k := t.grp.k, m := (setM 14 (getM t.grp 14) s.grp).m } } t)
  let n := laneNeed s (some d.toNat) [a.toNat] [] true false true
  let nk := laneNeed s (some d.toNat) [a.toNat] [] true (decide (k.toNat ≥ s.grp.code.kregs))
  shuffles (.shfl bt k d a) { nk with regs := nk.regs ++ [Reg.k k.toNat] } (fun l => ((getK s.grp k.toNat l).toNat : Int))
  ∧ shuffles (.shflXor bt i d a) n (fun l => ((l ^^^ i.toNat : Nat) : Int))
  ∧ shuffles (.shflUp bt i d a) n (fun l => (l : Int) - i.toNat)
  ∧ shuffles (.shflDn bt i d a) n (fun l => (l : Int) + i.toNat)
  ∧ shuffles (.shflIdx bt i d a) n (fun _ => (i.toNat : Int))
  ∧ decodeWord 0x95100708 = .ok (.shfl 0 2 7 8) ∧ decodeWord 0x95410708 = .ok (.shflXor 0 1 7 8) ∧ decodeWord 0x95810908 = .ok (.shflUp 0 1 9 8)
  ∧ decodeWord 0x95C10908 = .ok (.shflDn 0 1 9 8) ∧ decodeWord 0x96000908 = .ok (.shflIdx 0 0 9 8)

/-! ### Scalars and control registers -/

/-- R278 to R280: the scalar words act on S registers, once for each issue, on every issuer. -/
def Sys2Proof.Claims.scalarWords : Prop := ∀ (s : State) (bt : BitVec 1) (d a b : BitVec 6) (c : BitVec 4),
  let n := scalarNeed [d.toNat, a.toNat, b.toNat] false
  let x := getS s.grp a.toNat
  let y := getS s.grp b.toNat
  let u := fun r => s.setG (setS d.toNat r)
  Does (.sadd bt d a b) n s (u (x + y)) ∧ Does (.ssub bt d a b) n s (u (x - y)) ∧ Does (.smul bt d a b) n s (u (x * y))
  ∧ Does (.sand bt d a b) n s (u (x &&& y)) ∧ Does (.sor bt d a b) n s (u (x ||| y)) ∧ Does (.sxor bt d a b) n s (u (x ^^^ y))
  ∧ Does (.sshl bt d a b) n s (u (x <<< y.toNat)) ∧ Does (.sshr bt d a b) n s (u (x >>> y.toNat))
  ∧ Does (.ssar bt d a b) n s (u (x.sshiftRight y.toNat))
  ∧ Does (.smin bt d a b) n s (u (if x.toInt ≤ y.toInt then x else y))
  ∧ Does (.smax bt d a b) n s (u (if y.toInt ≤ x.toInt then x else y))
  ∧ (c.toNat ≤ 9 → Does (.sset bt d a b c) n s (u (
      let holds := if c = 0 then decide (x = y) else if c = 1 then decide (x ≠ y)
        else if c = 2 then decide (x.toInt < y.toInt) else if c = 3 then decide (x.toInt ≤ y.toInt)
        else if c = 4 then decide (y.toInt < x.toInt) else if c = 5 then decide (y.toInt ≤ x.toInt)
        else if c = 6 then decide (x.toNat < y.toNat) else if c = 7 then decide (x.toNat ≤ y.toNat)
        else if c = 8 then decide (y.toNat < x.toNat) else decide (y.toNat ≤ x.toNat)
      if holds then 1 else 0)))

/-- R279: the scalar immediates, and R281: `VREAD` reads one lane of a V register. -/
def Sys2Proof.Claims.scalarMoves : Prop :=
  ∀ (s : State) (bt : BitVec 1) (d a : BitVec 6) (i : BitVec 10) (j : BitVec 16) (v : BitVec 8),
  let hint := (curHints s).imm
  let u := fun r => s.setG (setS d.toNat r)
  let lane := (getS s.grp a.toNat).toNat
  Does (.saddi bt d a i) (scalarNeed [d.toNat, a.toNat] true) s (u (getS s.grp a.toNat + (match hint with
      | some h => BitVec.ofInt 32 (h.toInt * 1024 + i.toNat)
      | none => BitVec.ofInt 32 i.toInt)))
  ∧ Does (.smovi bt d j) (scalarNeed [d.toNat] true) s (u (match hint with
      | some h => BitVec.ofInt 32 (h.toInt * 65536 + j.toNat)
      | none => BitVec.ofInt 32 j.toInt))
  ∧ Does (.smovhi bt d j) (scalarNeed [d.toNat] true) s (u (j ++ (getS s.grp d.toNat).extractLsb' 0 16))
  ∧ Does (.vread bt d a v)
      { scalarNeed [d.toNat, a.toNat] false with
        bob := false
        operandBad := decide (v.toNat ≥ s.grp.code.vregs)
        early := [.s a.toNat]
        valueBad := decide (lane ≥ s.grp.width) || !bit s.grp.exist lane
        regs := [.s d.toNat, .s a.toNat, .v v.toNat] } s (u (getV s.grp v.toNat lane))

/-- R278 to R281: class 10 without its memory and CSR words. -/
def Obligations.ScalarWordsWriteTheirResults : Prop :=
  Sys2Proof.Claims.scalarWords ∧ Sys2Proof.Claims.scalarMoves

/-- R284, R285, R286: `CSRR` of each register of the map, on every issuer. `TIMEL` keeps the high word of the same time for the next `TIMEH`,
the trap registers read the record of the trap being served, and 0 outside the handler slot. -/
def Sys2Proof.Claims.csrReads : Prop := ∀ (s : State) (bt : BitVec 1) (d : BitVec 6),
  let w := wgOf s
  let word := fun n => BitVec.ofNat 32 n
  let core := if s.grp.kind = .bobbin then 4 * (s.grp.core / 4) else s.grp.core
  let lcore := if (ctxOf s).det = true ∧ s.grp.kind ≠ .handler ∧ s.grp.kind ≠ .walker then w.gid % 256 else core
  let trap := fun (f : TrapRec → Word) =>
    if s.grp.kind = .handler then (((findGroup s.grp.serves s).getD {}).trap.map f).getD 0 else 0
  let region := fun (i : Nat) => (s.grp.regions[i]?.map fun r => r.zeroExtend 32).getD 0xFFFFFFFF
  let map : List (Nat × Word) :=
    [(1, s.grp.timeh.getD (word (s.time / 2 ^ 32))), (2, word lcore), (3, word lcore), (4, word s.grp.ctx), (5, word w.gid),
     (6, word (gridOf s).gridId), (7, word (gridOf s).depth), (0x10, 0x1FFF), (0x11, 0), (0x12, 0), (0x13, 0),
     (0x20, trap fun r => word (r.code * 65536 + (if r.bobbin then 256 else 0) + r.cause)), (0x21, trap fun r => word r.tpc),
     (0x22, trap fun r => word r.topc), (0x23, trap fun r => word r.titer), (0x24, trap fun r => word r.addr),
     (0x25, trap fun r => word (r.addr / 2 ^ 32)), (0x26, trap fun r => r.mask.extractLsb' 0 32),
     (0x27, trap fun r => r.mask.extractLsb' 32 32), (0x28, trap fun r => word r.info)]
    ++ [(0x30, region 0), (0x31, region 1), (0x32, region 2), (0x33, region 3),
     (0x40, if w.ntiles = 0 then 0 else word w.tileBase), (0x41, if w.naccs = 0 then 0 else word w.accBase),
     (0x42, (((allGroups s).find? fun g => decide (g.kind = .bobbin) && decide (g.wg = s.grp.wg) && decide (s.grp.wg ≠ 0)).map
       fun g => word g.mark).getD 0), (0x50, w.flags.zeroExtend 32)]
  Does (.csrr bt d 0) (csrNeed s d.toNat 0 false) s (s.setG fun g => setS d.toNat (word s.time) { g with timeh := some (word (s.time / 2 ^ 32)) })
  ∧ ∀ p ∈ map, Does (.csrr bt d (BitVec.ofNat 12 p.1)) (csrNeed s d.toNat p.1 false) s (s.setG (setS d.toNat p.2))

/-- R325: `CSRR` of each handler register, which reads the issuer that the handler serves. The PC of a lane that has none is free (log entry
2). -/
def Sys2Proof.Claims.handlerReads : Prop := ∀ (s : State) (bt : BitVec 1) (d : BitVec 6),
  let g := s.grp
  let t := (findGroup g.serves s).getD {}
  let word := fun n => BitVec.ofNat 32 n
  let is := fun (n : Nat) (x : Word) => Does (.csrr bt d (BitVec.ofNat 12 n)) (csrNeed s d.toNat n false) s (s.setG (setS d.toNat x))
  let lane := if t.kind = .bobbin then 0 else g.hlane
  let pc := match t.edits.find? fun e => e.1 = lane with
    | some e => some e.2
    | none => (laneEntry t lane).map fun e => e.1
  is 0x100 (word g.hlane) ∧ (∀ p, pc = some p → is 0x102 (word p))
  ∧ (pc = none → Does (.csrr bt d 0x102) (csrNeed s d.toNat 0x102 false) s
      ({ s with free := s.free + 1 }.setG (setS d.toNat (Config.freeValue s.free))))
  ∧ is 0x103 0 ∧ is 0x104 0 ∧ is 0x110 (word g.hvsel)
  ∧ is 0x111 (if g.hvsel ≤ 0xDF then getV t g.hvsel g.hlane else getK t (g.hvsel - 0xE0) g.hlane)
  ∧ (∀ i, i < 64 → is (0x120 + i) (getS t i))
  ∧ (∀ i, i < 16 → is (0x160 + 2 * i) ((getM t i).extractLsb' 0 32) ∧ is (0x161 + 2 * i) ((getM t i).extractLsb' 32 32))
  ∧ (∀ x : Word, (∀ i, i < 32 → x.getLsbD i = (decide (i < 12) && decide (getF t i ≠ 0))) → is 0x181 x)
  ∧ is 0x182 (match (laneEntry t g.hlane).bind fun e => e.2 with
      | some p => word (p.hdr / 4 * 65536 + p.issued % 16 * 16 + p.vl % 16)
      | none => 0)
  ∧ is 0x183 (if t.hstep then 1 else 0) ∧ is 0x188 (word g.hbsel)
  ∧ (∀ i, i < 4 → is (0x189 + i) ((getB t g.hbsel).extractLsb' (32 * i) 32))

/-- R284, R286, R325: writing a control register. A read-only one keeps its value, `FLAGS` bits written 1 are cleared, and a handler's writes
reach its own selectors and the issuer it serves. -/
def Sys2Proof.Claims.csrWrites : Prop := ∀ (s : State) (bt : BitVec 1) (a : BitVec 6),
  let n := fun c => csrNeed s a.toNat c true
  let x := getS s.grp a.toNat
  let g := s.grp
  let t := (findGroup g.serves s).getD {}
  let low := x.zeroExtend 64
  let own := fun (c : Nat) (g' : Group) => Does (.csrw bt a (BitVec.ofNat 12 c)) (n c) s (updGroup g.serves (fun _ => t) { s with grp := g' })
  let its := fun (c : Nat) (t' : Group) => Does (.csrw bt a (BitVec.ofNat 12 c)) (n c) s (updGroup g.serves (fun _ => t') s)
  let lane := if t.kind = .bobbin then 0 else g.hlane
  (∀ c ∈ [0, 1, 2, 3, 4, 5, 6, 7, 0x10, 0x11, 0x12, 0x13, 0x20, 0x21, 0x22, 0x23, 0x24, 0x25, 0x26, 0x27, 0x28, 0x30, 0x31, 0x32, 0x33, 0x40, 0x41, 0x42],
    Does (.csrw bt a (BitVec.ofNat 12 c)) (n c) s s)
  ∧ Does (.csrw bt a 0x50) (n 0x50) s (updWg g.wg (fun w => { w with flags := w.flags &&& ~~~(x.extractLsb' 0 3) }) s)
  ∧ (g.serves ≠ g.uid →
      own 0x100 { g with hlane := x.toNat } ∧ own 0x110 { g with hvsel := x.toNat } ∧ own 0x188 { g with hbsel := x.toNat }
      ∧ its 0x102 (if (laneEntry t lane).isSome then { t with edits := t.edits.filter (fun e => decide (e.1 ≠ lane)) ++ [(lane, x.toNat)] } else t)
      ∧ its 0x103 { t with hexit := t.hexit ||| (low &&& t.live) } ∧ its 0x104 { t with hexit := t.hexit ||| ((low <<< 32) &&& t.live) }
      ∧ its 0x111 (if g.hvsel ≤ 0xDF then setV g.hvsel g.hlane x t else setK (g.hvsel - 0xE0) g.hlane x t)
      ∧ (∀ i, i < 64 → its (0x120 + i) (setS i x t))
      ∧ (∀ i, i < 16 → its (0x160 + 2 * i) (setM i ((getM t i).extractLsb' 32 32 ++ x) t)
          ∧ its (0x161 + 2 * i) (setM i (x ++ (getM t i).extractLsb' 0 32) t))
      ∧ its 0x183 { t with hstep := x.getLsbD 0 }
      ∧ (∀ c ∈ [0x181, 0x182, 0x189, 0x18A, 0x18B, 0x18C], its c t))

/-- R284, R325: which control registers exist. The numbers 0x100 to 0x1FF trap `PRIVILEGED` outside the handler slot, and every number of no
register `ILLEGAL_OPERAND`; for a bobbin thread three of the handler's remain; some values of a handler's selectors are refused when written. -/
def Sys2Proof.Claims.csrNumbers : Prop := ∀ (s : State) (r n : Nat) (wr : Bool),
  let t := (findGroup s.grp.serves s).getD {}
  let x := (getS s.grp r).toNat
  let need := csrNeed s r n wr
  let inMap := n ≤ 7 ∨ (0x10 ≤ n ∧ n ≤ 0x13) ∨ (0x20 ≤ n ∧ n ≤ 0x28) ∨ (0x30 ≤ n ∧ n ≤ 0x33) ∨ (0x40 ≤ n ∧ n ≤ 0x42) ∨ n = 0x50
  let named := fun (v : Nat) => (v ≤ 0xDF ∧ v < t.code.vregs) ∨ (0xE0 ≤ v ∧ v ≤ 0xE7 ∧ v - 0xE0 < t.code.kregs)
  let any := n = 0x102 ∨ (0x120 ≤ n ∧ n ≤ 0x15F) ∨ n = 0x183
  let grp := n = 0x100 ∨ n = 0x103 ∨ n = 0x104 ∨ n = 0x110 ∨ (n = 0x111 ∧ named s.grp.hvsel) ∨ (0x160 ≤ n ∧ n ≤ 0x17F) ∨ n = 0x181 ∨ n = 0x182
    ∨ (0x188 ≤ n ∧ n ≤ 0x18C)
  (need.privBad = true ↔ 0x100 ≤ n ∧ n ≤ 0x1FF ∧ s.grp.kind ≠ .handler)
  ∧ (n < 0x100 ∨ 0x1FF < n → (need.operandBad = false ↔ inMap))
  ∧ (0x100 ≤ n → n ≤ 0x1FF → (need.operandBad = false ↔ any ∨ (t.kind ≠ .bobbin ∧ grp)))
  ∧ (need.valueBad = true → wr = true ∧ 0x100 ≤ n ∧ n ≤ 0x1FF)
  ∧ (need.valueBad = true → need.early = [.s r])
  ∧ (wr = true → (n = 0x100 → (need.valueBad = true ↔ t.width ≤ x)) ∧ (n = 0x110 → (need.valueBad = true ↔ ¬named x))
      ∧ (n = 0x188 → (need.valueBad = true ↔ 31 < x)))

/-- R284 to R286, R325: `CSRR` and `CSRW`. -/
def Obligations.ControlRegistersAreReadAndWritten : Prop :=
  Sys2Proof.Claims.csrReads ∧ Sys2Proof.Claims.handlerReads ∧ Sys2Proof.Claims.csrWrites ∧ Sys2Proof.Claims.csrNumbers
  ∧ decodeWord 0xA4840010 = .ok (.csrr 0 4 0x10) ∧ decodeWord 0xA4C30050 = .ok (.csrw 0 3 0x50)

/-! ### Clauses, hints, checks and traps -/

/-- R40, R42, R39, R267: a header between clauses. With a legal LEN and flag fields it waits while a flag of its WAIT counts; else it
clears the marks of those flags, its path stands at the first body word with an empty last-result file, and the other entries that do not
wait age by one. Inside a body, with LEN 0 or with a reserved flag number it traps. -/
def Sys2Proof.Claims.headerOpens : Prop := ∀ (s : State) (w : BitVec 12) (a b l : BitVec 4) (p : BitVec 3) (e : FEntry),
  s.grp.act = some e → quiet s = true →
  let legal := e.pos = none ∧ l ≠ 0 ∧ (a.toNat < 12 ∨ a.toNat = 15) ∧ (b.toNat < 12 ∨ b.toNat = 15)
  let clear := ∀ f, f < 12 → w.getLsbD f = true → getF s.grp f = 0
  (¬legal → exec (.clauseHeader w a b l p) s = .next (takeTrap { cause := cIllegalEncoding, mask := e.mask } s))
  ∧ (legal → ¬clear → exec (.clauseHeader w a b l p) s = .next (stallOn .flag s))
  ∧ (legal → clear → ∃ t, exec (.clauseHeader w a b l p) s = .next t
      ∧ t.grp.act = some { e with
          pc := e.pc + 4, age := 0, yielded := false
          pos := some { hdr := e.pc, len := l.toNat, issued := 0, seta := a.toNat, setb := b.toNat, pri := p.toNat } }
      ∧ t.grp.marks = s.grp.marks.filter (fun m => !w.getLsbD m.2)
      ∧ t.grp.frontier = s.grp.frontier.map (fun o => if waits s.grp o = false then { o with age := o.age + 1, yielded := false } else o)
      ∧ (∀ x, homeByte t x = homeByte s x)
      ∧ t = { s with grp := { s.grp with
          act := t.grp.act, marks := t.grp.marks, frontier := t.grp.frontier, stall := .none, walks := [], held := none, spawn := none
          noWatch := t.grp.noWatch, noBreak := t.grp.noBreak } })

/-- R45, R46: a hint takes an issue slot of its own and waits for the next word of its clause, and nothing else changes; in the last position of its
clause it traps, and a second one of its kind is noted for the target, where the model notes its trap (log entry 11, DEDUCED). `NOP` has no target:
in a run of hints it takes its slot and the run goes on, to be dropped when such a `NOP` ends it (log entry 11), and elsewhere it completes by
itself. -/
def Obligations.HintsWaitForTheirTarget : Prop := ∀ (s : State) (e : FEntry) (x : BitVec 22) (r : BitVec 6) (f g : BitVec 1) (m : BitVec 3) (q : BitVec 2),
  s.grp.act = some e →
  let kept := fun (i : Instr) (p : Pos) (again : Bool) (h : Hints) => ∃ t, exec i s = .next t
      ∧ t.grp.act = some { e with
          pc := e.pc + 4
          pos := some { p with issued := p.issued + 1, hints := { h with twice := p.hints.twice || again, run := p.hints.run + 1 } } }
      ∧ Completed s t
  let hint := fun (i : Instr) (again : Hints → Bool) (h : Hints → Hints) =>
    (e.pos = none → exec i s = .next (takeTrap { cause := cIllegalEncoding, mask := e.mask } s))
    ∧ ∀ p, e.pos = some p →
      (p.issued + 1 < p.len → kept i p (again p.hints) (h p.hints))
      ∧ (p.len ≤ p.issued + 1 → exec i s = .next (takeTrap { cause := cHintPlacement, mask := e.mask } s))
  (e.pos = none → exec .nop s = .next (takeTrap { cause := cIllegalEncoding, mask := e.mask } s))
  ∧ (∀ p, e.pos = some p →
      (0 < p.hints.run → p.issued + 1 < p.len → kept .nop p false p.hints)
      ∧ (p.hints.run = 0 ∨ p.len ≤ p.issued + 1 → ∃ t, exec .nop s = .next (thenStep s t) ∧ Completed s t
          ∧ (p.issued + 1 < p.len →
              t.grp.act = some { e with pc := e.pc + 4, pos := some { p with issued := p.issued + 1, hints := {}, own := [] } })))
  ∧ hint (.ximm x) (fun h => h.imm.isSome) (fun h => { h with imm := some x })
  ∧ hint (.ximmf x) (fun h => h.immf.isSome) (fun h => { h with immf := some x })
  ∧ hint (.xscl r) (fun h => h.scl.isSome) (fun h => { h with scl := some r })
  ∧ hint (.xrnd f g r m) (fun h => h.rnd.isSome)
      (fun h => { h with rnd := some { mode := m, seed := r, sat := decide (g = 1), ftz := decide (f = 1) } })
  ∧ hint (.xevc q) (fun h => h.evc.isSome) (fun h => { h with evc := some q })
  ∧ hint (.xscp q) (fun h => h.scp.isSome) (fun h => { h with scp := some q })
  ∧ hint .xpart (fun h => h.part) (fun h => { h with part := true })
  ∧ decodeWord 0x10900000 = .ok (.ximmf 0x100000) ∧ decodeWord 0x11000201 = .ok (.xrnd 0 1 0 1) ∧ decodeWord 0x11C00000 = .ok .xpart

/-- R47, R40: where a header is expected, a `POOL` of `c` words sends its path past them; inside a body it traps. -/
def Sys2Proof.Claims.poolIsSkipped : Prop := ∀ (s : State) (c : BitVec 12) (e : FEntry), s.grp.act = some e →
  (e.pos ≠ none → exec (.pool c) s = .next (takeTrap { cause := cIllegalEncoding, mask := e.mask } s))
  ∧ (e.pos = none → ∃ t, exec (.pool c) s = .next t ∧ Completed s t
      ∧ t.grp.frontier = (addEntry { e with pc := e.pc + 4 + 4 * c.toNat } s.grp).frontier ∧ t.grp.act = none)

/-- R40, R42, R47: what stands between clauses. -/
def Obligations.HeaderAndPoolWords : Prop :=
  Sys2Proof.Claims.headerOpens ∧ Sys2Proof.Claims.poolIsSkipped

/-- R52: the order of the checks before a word's own description. `ILLEGAL_TARGET` stands before `ILLEGAL_ENCODING`, that before
`PRIVILEGED`, `HINT_PLACEMENT`, `ILLEGAL_OPERAND` and `HAZARD`; a word runs only when none of them applies and it need not wait. A register
whose value an operand check looks at is checked for its mark and waited for before (the model's choice, log entry 75). -/
def Obligations.ChecksStandInOrder : Prop := ∀ (n : Need) (s : State) (p : Pos),
  curPos s = some p →
  let m := active s
  let trap := fun c => check n s = .trap { cause := c, mask := m }
  let operand := check n s = .trap { cause := 0x02, mask := m, info := n.info }
  let encoding := issuerOk n s.grp.kind = true ∧ hasFeature s.grp 0 = true ∧ (∀ f ∈ n.feats, hasFeature s.grp f = true)
    ∧ (n.last = true → p.issued + 1 = p.len) ∧ (n.first = true → p.issued = 0) ∧ (n.varlat = true → p.seta ≠ 15)
  let privileged := (n.priv = true ∧ s.grp.kind = .vector) ∨ n.privBad = true
  let hints := hintsOk n.hints p.hints = true
  let hazard := fun (rs : List Reg) => ∃ r ∈ rs, marked s.grp r = true ∧ r ∉ p.own
  let pending := fun (rs : List Reg) => ∃ r ∈ rs, regPending s.grp r = true
  let full := n.varlat = true ∧ m ≠ 0 ∧ 255 ≤ getF s.grp (flagOf p)
  (∀ t, n.badTarget = some t → check n s = .trap t)
  ∧ (n.badTarget = none →
      (¬encoding → trap 0x01)
      ∧ (encoding → privileged → trap 0x17)
      ∧ (encoding → ¬privileged → ¬hints → trap 0x05)
      ∧ (encoding → ¬privileged → hints → n.operandBad = true → operand)
      ∧ (encoding → ¬privileged → hints → n.operandBad = false →
          (hazard n.early → trap 0x1B)
          ∧ (¬hazard n.early → pending n.early → check n s = .stall .token)
          ∧ (¬hazard n.early → ¬pending n.early → n.valueBad = true → operand)
          ∧ (¬hazard n.early → ¬pending n.early → n.valueBad = false →
              (hazard n.regs → trap 0x1B)
              ∧ (¬hazard n.regs → pending n.regs → check n s = .stall .token)
              ∧ (¬hazard n.regs → ¬pending n.regs → full → check n s = .stall .flag)
              ∧ (¬hazard n.regs → ¬pending n.regs → ¬full → ready n s))))

/-- R184, R320, R321: the trap of an issuing vector or bobbin word in a context that has a handler and no debugger, when no lane runs a speculative
task. No effect of the word commits: loads and results in flight are written, in residual code the static registers hold their values, the path
stands at the word, the issuer is stopped with the record of R321, the trap waits for the handler slot, and every other part of the machine is as
the loads leave it; without loads in flight memory and everything else are as before. -/
def Sys2Proof.Claims.trapIsRecorded : Prop := ∀ (s : State) (t : TrapReq) (c : Context) (e : FEntry),
  s.grp.act = some e → (s.grp.kind = .vector ∨ s.grp.kind = .bobbin) → findCtx s.grp.ctx s = some c →
  c.handlerVa ≠ none → c.attached = false → specLanes t.mask s = 0 →
  let core := if s.grp.kind = .bobbin then 4 * (s.grp.core / 4) else s.grp.core
  let r := { cause := t.cause, code := t.code, bobbin := decide (s.grp.kind = .bobbin), tpc := e.pc, topc := topcOf s.grp e.pc
             titer := titerOf s.grp e.pc, mask := if s.grp.kind = .bobbin then 0 else t.mask, addr := t.addr, info := t.info
             core := core, slot := if s.grp.kind = .bobbin then 0x100 + s.grp.slot else s.grp.slot : TrapRec }
  let q := performAll s.grp.uid s
  let done := completeOps (restoreStatics e.pc e.mask q.grp)
  let u := takeTrap t s
  u.grp.stop = .trapped ∧ u.grp.trap = some r ∧ u.grp.act = none
  ∧ u.grp.frontier = (addEntry e { s.grp with act := none }).frontier
  ∧ u.grp.v = done.v ∧ u.grp.k = done.k ∧ u.grp.s = done.s ∧ u.grp.f = done.f ∧ u.grp.clos = done.clos ∧ u.grp.ops = []
  ∧ u.grp.m = s.grp.m ∧ u.grp.b = done.b ∧ u.grp.marks = s.grp.marks ∧ u.grp.tokens = s.grp.tokens
  ∧ u.traps = s.traps ++ [(core, s.grp.uid)]
  ∧ (∀ a, homeByte u a = homeByte q a)
  ∧ u = { q with grp := u.grp, traps := u.traps }
  ∧ q.grp = { s.grp with ops := q.grp.ops, resv := q.grp.resv, arming := q.grp.arming, gwct := q.grp.gwct }
  ∧ ((∀ o ∈ s.grp.ops, o.loads = []) → q = s)

/-- R321: the layout of `TCAUSE`: CODE in bits 31 to 16, BOBBIN in bit 8, CAUSE in bits 7 to 0, and 0 in the reserved bits. -/
def Sys2Proof.Claims.trapCauseLayout : Prop := ∀ r : TrapRec, r.code < 65536 → r.cause < 256 →
  let w := trapWord r 0
  (w.extractLsb' 16 16).toNat = r.code ∧ w.getLsbD 8 = r.bobbin ∧ (w.extractLsb' 0 8).toNat = r.cause ∧ w.extractLsb' 9 7 = 0

/-- R184: at a trap in residual code the last point at or before the word names the static registers, and each takes its value, a V or K register
in the lanes of the path (S and B registers are those of the group, log entry 107). Other code has none. -/
def Sys2Proof.Claims.staticsAreRestored : Prop := ∀ (g : Group) (pc k n at_ : Nat) (m : DWord),
  let t := restoreStatics pc m g
  let x : Word := BitVec.ofNat 32 n
  (g.code.residual = none → t = g)
  ∧ ∀ r, g.code.residual = some r →
    ((∀ e ∈ r.restore, pc < e.1) → t = g)
    ∧ (∀ before after, r.restore = before ++ (at_, [(k, n)]) :: after → at_ ≤ pc → (∀ e ∈ after, pc < e.1) →
      (k < 0x100 → (∀ l, l < 64 → getV t k l = if bit m l then x else getV g k l) ∧ t = { g with v := t.v })
      ∧ (0x100 ≤ k → k < 0x200 → (∀ l, l < 64 → getK t (k - 0x100) l = if bit m l then x else getK g (k - 0x100) l) ∧ t = { g with k := t.k })
      ∧ (0x200 ≤ k → k < 0x300 → t = setS (k - 0x200) x g) ∧ (0x300 ≤ k → t = setB (k - 0x300) (BitVec.ofNat 128 n) g))

/-- R184, R320, R321: a precise trap, and the word that reports it. -/
def Obligations.TrapIsRecordedAndWaits : Prop :=
  Sys2Proof.Claims.trapIsRecorded ∧ Sys2Proof.Claims.trapCauseLayout ∧ Sys2Proof.Claims.staticsAreRestored

/-- R328: with `HSTEP` set, or for the last word of a debugger's step, a completing word is followed by `SINGLE_STEP` at the next word, and
`HSTEP` is clear then. An issuer without live lanes does not stop. -/
def Sys2Proof.Claims.stepRequests : Prop := ∀ (t : State) (pc : Nat) (m : DWord),
  (quiet t = true → stepCheck pc m t = t)
  ∧ (t.grp.live = 0 → stepCheck pc m t = t)
  ∧ (t.grp.live ≠ 0 → t.grp.hstep = true → stepCheck pc m t
      = takeTrapAfter { cause := cSingleStep, mask := m } pc (t.setG fun g => { g with hstep := false }))
  ∧ (t.grp.live ≠ 0 → t.grp.hstep = false → ∀ n, t.grp.dbgSteps = some n → n ≤ 1 → stepCheck pc m t
      = takeTrapAfter { cause := cSingleStep, mask := m } pc (t.setG fun g => { g with dbgSteps := none }))
  ∧ (t.grp.live ≠ 0 → t.grp.hstep = false → ∀ n, t.grp.dbgSteps = some (n + 2) → stepCheck pc m t
      = t.setG fun g => { g with dbgSteps := some (n + 1) })

/-- R40, R44: a completing word moves its path to the next word of its clause; after the last word the path goes back to the frontier between
clauses, its reservations are gone, and joins that are complete are over. -/
def Sys2Proof.Claims.pathMoves : Prop := ∀ (u : State) (e : FEntry) (p : Pos),
  quiet u = true → u.grp.act = some e → e.pos = some p →
  (p.issued + 1 < p.len → (finish u).grp.act = some { e with
      pc := e.pc + 4, pos := some { p with issued := p.issued + 1, hints := {}, own := [] } }
    ∧ (finish u).grp.frontier = u.grp.frontier ∧ (finish u).grp.resv = u.grp.resv ∧ (finish u).grp.j = u.grp.j ∧ (finish u).wgs = u.wgs)
  ∧ (p.len ≤ p.issued + 1 → (finish u).grp.act = none ∧ (finish u).grp.resv = [] ∧ (finish u).grp.arming = []
    ∧ (finish u).grp.frontier = (addEntry { e with pc := e.pc + 4, pos := none, age := 0 } u.grp).frontier
    ∧ (finish u).grp.j = (joinCheck (addEntry { e with pc := e.pc + 4, pos := none, age := 0 } { u.grp with act := none })).j)

/-- R39: the last-result file after a result-writing word that is not the last of its clause: the newest entry holds the whole destination in
every lane, and the older ones move down, four at most. -/
def Sys2Proof.Claims.lastResults : Prop := ∀ (s : State) (d w : Nat) (f : Nat → List Word) (p : Pos),
  curPos s = some p →
  let t := writeResult d w f s
  ∃ h : HEntry, curH t = (h :: p.h).take 4 ∧ h.width = w
    ∧ ∀ l i, l < s.grp.width → i < w → w ≤ 4 → d ≤ 0xE7 → sget 0 (4 * l + i) h.vals = dstWord t.grp d i l

/-- R39, R40, R44, R328: what completing a word does to its path, its last results and a pending step. -/
def Obligations.WordsCompleteAsStated : Prop :=
  Sys2Proof.Claims.stepRequests ∧ Sys2Proof.Claims.pathMoves ∧ Sys2Proof.Claims.lastResults

/-! ### Memory words -/

/-- R213, R214: where a lane's access lies. The offset is the index times STRIDE, or the index, plus IMMoff; it is in bounds when it is not
negative and the access ends within the limit; the address is BASE plus the swizzled offset. -/
def Sys2Proof.Claims.accessBounds : Prop := ∀ (r : BufRec) (size : Nat) (imm : Int) (l : Nat) (x : Word),
  let a := accOf r size imm l x
  let off : Int := (if r.stride = 0 then (x.toNat : Int) else x.toNat * r.stride) + imm
  let limit : Nat := if r.stride = 0 then r.extent * 2 ^ r.elem else r.extent * r.stride
  a.lane = l ∧ a.off = off ∧ (a.inb = true ↔ 0 ≤ off ∧ off + size ≤ limit)
  ∧ (0 ≤ off → r.swz = 0 → (a.va : Int) = r.base + off)
  ∧ (0 ≤ off → r.swz ≠ 0 → a.va = r.base + (off.toNat ^^^ (off.toNat / 2 ^ (r.swz + 6) % 8 * 16)))

/-- R224, R200: the order of the traps of a memory word before translation: `DET_VIOLATION`, `MISALIGNED`, `BOUNDS` without CLAMP,
`PROTECTION` of a read-only or constant record. With none of them, translation decides. -/
def Sys2Proof.Claims.memoryTraps : Prop := ∀ (s : State) (o : MemOp) (ls : List Nat),
  let as := memAccs s o ls
  let bad := as.filter fun a => misaligned (bufOf s o.buf a.lane) o.size a
  let oob := as.filter fun a => !a.inb && !(bufOf s o.buf a.lane).clamp
  let fixed := o.stores && ((bufOf s o.buf 0).ro || (bufOf s o.buf 0).konst)
  (∀ r, o.det = some r → memCheck s o ls = .trap { cause := cDetViolation, mask := maskOf ls, info := r })
  ∧ (o.det = none → bad ≠ [] → memCheck s o ls = .trap (accTrap cMisaligned bad (fun a => a.va) 0))
  ∧ (o.det = none → bad = [] → oob ≠ [] →
      memCheck s o ls = .trap (accTrap cBounds oob (fun a => (BitVec.ofInt 64 a.off).toNat) 0))
  ∧ (o.det = none → bad = [] → oob = [] → fixed = true →
      memCheck s o ls = .trap (accTrap cProtection as (fun a => a.va) 0))
  ∧ (o.det = none → bad = [] → oob = [] → fixed = false → memCheck s o ls = memTrans s o (as.filter fun a => a.inb))

/-- R213, R214, R224: what an access names, and the order of its traps. -/
def Obligations.AccessesAreCheckedInOrder : Prop :=
  Sys2Proof.Claims.accessBounds ∧ Sys2Proof.Claims.memoryTraps

/-- R199, R220, R225, R364: a load whose lanes all proceed is in flight after its word. A lane's load is performed at once in a deterministic context,
on the bobbin and for a speculative task (log entry 5), and else at a later moment: the load that is to be performed then is the lane's place, address, size, scope
and policy; a lane out of bounds under CLAMP gets zeros. Registers are as before, and so is every byte of memory but those already in flight. -/
def Sys2Proof.Claims.loadWords : Prop := ∀ (s : State) (bt : BitVec 1) (n : BitVec 5) (d x : BitVec 8) (z : BitVec 2) (run : List (Access × Nat)),
  let loads := fun (i : Instr) (size w : Nat) (e : Extend) =>
    ready (memNeed s (some (d.toNat, w)) x.toNat true) s → proceeds s (wordAccess s n x size 0 false none [0]) run →
    let pl := placeOf s.grp n.toNat
    let later := fun (l : Nat) => (ctxOf s).det = false ∧ s.grp.kind ≠ .bobbin ∧ specTask s s.grp.uid l = none
    let now := run.filter fun p => !defers s p.1.lane
    let kept : List PLoad := (run.filter fun p => defers s p.1.lane).map fun p =>
      { place := pl, lane := p.1.lane, addr := p.2, size := size, scope := scopeOf s n.toNat, evc := evcOf s, reg := .v d.toNat, ext := e }
    let l := loadRun pl (scopeOf s n.toNat) (evcOf s) size d.toNat (extended e size) now (sampled pl run s)
    let clamped := (lanes (active s)).filter fun l => !(run.any fun p => decide (p.1.lane = l))
    let zs := clamped.flatMap fun l => laneWrites d.toNat l (List.replicate w 0)
    (∃ t, exec i s = .next (thenStep s t) ∧ Completed (launchOp (plainRegs w d.toNat) (l.1 ++ zs) [] l.2 kept) t)
    ∧ (∀ l, defers s l = true ↔ later l)
    ∧ ((∀ p ∈ run, later p.1.lane) → l = ([], sampled pl run s))
    ∧ sameIssuer s.grp l.2.grp ∧ (∀ a, inFlight s a = false → homeByte l.2 a = homeByte s a)
  loads (.ld bt n d x z) (4 * szWords z) (szWords z) .words
  ∧ loads (.ldb bt n d x z) 1 1 (if z = 1 then .sign else .zero)
  ∧ loads (.ldh bt n d x z) 2 1 (if z = 1 then .sign else .zero)

/-- R225: how the bytes of a load become register words. -/
def Sys2Proof.Claims.loadedWords : Prop := ∀ b0 b1 b2 b3 : Byte,
  extended .words 4 [b0, b1, b2, b3] = [b3 ++ b2 ++ b1 ++ b0]
  ∧ extended .zero 1 [b0] = [b0.zeroExtend 32] ∧ extended .sign 1 [b0] = [b0.signExtend 32]
  ∧ extended .zero 2 [b0, b1] = [(b1 ++ b0).zeroExtend 32] ∧ extended .sign 2 [b0, b1] = [(b1 ++ b0).signExtend 32]
  ∧ ∀ (n : Nat) (bs : List Byte), extended .words (4 + 4 * n) ([b0, b1, b2, b3] ++ bs) = (b3 ++ b2 ++ b1 ++ b0) :: extended .words (4 * n) bs

/-- R217, R220: a load of a thread returns the bytes of its place: with nothing cached and nothing pending, those at the home; a load that is
performed at a peer that has left the domain returns all ones (R317). -/
def Sys2Proof.Claims.loadReadsHome : Prop := ∀ (s : State) (uid lane core scope evc a n : Nat) (g : Group) (p : PLoad),
  (s.stores = [] → s.caches = [] → specTask s uid lane = none → a % 128 + n ≤ 128 →
    let r := loadBytes uid lane core scope evc a n s
    r.1 = homeBytes s a n ∧ (∀ b, homeByte r.2 b = homeByte s b) ∧ r.2.grp = s.grp ∧ r.2.stores = [])
  ∧ (p.place = .mem → p.how = .plain → p.lost = false → peerGone s p.addr = false → s.stores = [] → s.caches = [] → specTask s g.uid p.lane = none → p.addr % 128 + p.size ≤ 128 →
    (performLoad g p s).1 = loadWrites p.reg p.lane (extended p.ext p.size (homeBytes s p.addr p.size)))
  ∧ (p.place = .mem → (p.lost = true ∨ peerGone s p.addr = true) → p.ext = .words → p.size % 4 = 0 →
    performLoad g p s = (loadWrites p.reg p.lane (List.replicate (p.size / 4) 0xFFFFFFFF), s))

/-- R217, R220, R225, R364: the loads. -/
def Obligations.LoadsComplete : Prop :=
  Sys2Proof.Claims.loadWords ∧ Sys2Proof.Claims.loadedWords ∧ Sys2Proof.Claims.loadReadsHome

/-- R225, R217: a store whose lanes all proceed completes: each lane's bytes, the low bytes of its data words, go to its place in ascending lane
order. Registers are as before; at the homes, only bytes at the addresses the lanes store to, and bytes already in flight, may change. -/
def Sys2Proof.Claims.storeWords : Prop := ∀ (s : State) (bt : BitVec 1) (n : BitVec 5) (d x : BitVec 8) (z : BitVec 2) (run : List (Access × Nat)),
  let stores := fun (i : Instr) (size w : Nat) =>
    ready (memNeed s (some (d.toNat, w)) x.toNat false) s → proceeds s (wordAccess s n x size 1 true none [1]) run →
    ¬(scopeOf s n.toNat = 3 ∧ placeOf s.grp n.toNat = .mem ∧ anySpec s = true) →
    let bytes := fun l => ((List.range w).flatMap fun i => toBytes 4 (getV s.grp (d.toNat + i) l).toNat).take size
    let u := run.foldl (fun t p => laneStore (placeOf s.grp n.toNat) (scopeOf s n.toNat) (evcOf s) p.1.lane p.2 (bytes p.1.lane) t)
      (sampled (placeOf s.grp n.toNat) run s)
    (∃ t, exec i s = .next (thenStep s t) ∧ Completed u t)
    ∧ sameIssuer s.grp u.grp
    ∧ (∀ a, inFlight s a = false → ¬covered (placeOf s.grp n.toNat) size run a → homeByte u a = homeByte s a)
  stores (.st bt n d x z) (4 * szWords z) (szWords z) ∧ stores (.stb bt n d x) 1 1 ∧ stores (.sth bt n d x) 2 1

/-- R199, R211, R215, R220, R364: a lane's store, with no load of the issuer in flight and no task, is pending, whatever its place, and nothing else
changes; under no-allocate and in a deterministic context it is performed at once, after the pending stores of its core to the line. A lane's
window is stored at device scope and the scratchpad at workgroup scope. -/
def Sys2Proof.Claims.laneStores : Prop := ∀ (s : State) (pl : Place) (scope evc lane a : Nat) (bs : List Byte),
  let g := s.grp
  (∀ o ∈ g.ops, o.loads = []) → specTask s g.uid lane = none →
  let p : PStore :=
    { grp := g.uid, lane := lane, addr := if pl = .scratch then 2 ^ 200 + 2 ^ 20 * g.wg + a else a, bytes := bs
      scope := if pl = .mem then scope else if pl = .window then 2 else 0, evc := evc, peer := if pl = .mem then peerOf a else none }
  let u := laneStore pl scope evc lane a bs s
  (evc ≠ 3 → (ctxOf s).det = false → u = { s with stores := s.stores ++ [p] })
  ∧ (evc = 3 ∨ (ctxOf s).det = true → u = performPending g.core p (drainCore g.core (p.addr / 128) s))

/-- R215, R217, R219, R229, R317: where the bytes of a pending store or atomic are once it is performed: dirty in the L1 of its core at scope
workgroup or core, but for no-allocate; at the home at any other; in the workgroup's scratchpad; and nowhere at a peer that has left the domain. An
atomic leaves its operation's value where the old word stood. -/
def Sys2Proof.Claims.performedStores : Prop := ∀ (s : State) (core off : Nat) (p : PStore) (w : Workgroup),
  let t := performPending core p s
  let home := p.addr < 2 ^ 200 ∧ peerGone s p.addr = false
  let here := p.result (homeBytes s p.addr 4)
  (p.op = none → ∀ old, p.result old = p.bytes)
  ∧ (∀ op old, p.op = some op → p.result old = toBytes 4 (atomicNew op (wordOf old) p.operand 0).toNat)
  ∧ (p.addr < 2 ^ 200 → peerGone s p.addr = true → t = s)
  ∧ (home → p.op = none → p.scope ≤ 1 → p.evc ≠ 3 → p.addr % 128 + p.bytes.length ≤ 128 →
      (∃ c, findLine 1 core (p.addr / 128) t = some c ∧ ∀ i, i < p.bytes.length → sfind (p.addr % 128 + i) c.dirty = p.bytes[i]?)
      ∧ ∀ b, homeByte t b = homeByte s b)
  ∧ (home → (2 ≤ p.scope ∨ p.evc = 3) → s.caches = [] → p.addr % 128 + here.length ≤ 128 →
      homeBytes t p.addr here.length = here ∧ ∀ b, ¬(p.addr ≤ b ∧ b < p.addr + here.length) → homeByte t b = homeByte s b)
  ∧ (p.addr = 2 ^ 200 + 2 ^ 20 * w.uid + off → off < 2 ^ 20 → p.op = none → findWg w.uid s = some w → ∃ w', findWg w.uid t = some w'
      ∧ (∀ i, i < p.bytes.length → scratchByte t w' (off + i) = p.bytes.getD i 0)
      ∧ (∀ i, ¬(off ≤ i ∧ i < off + p.bytes.length) → scratchByte t w' i = scratchByte s w i) ∧ ∀ b, homeByte t b = homeByte s b)

/-- R220, R225: the store of one lane completes, and the lane's next load of the same bytes, at whatever scope and policy, reads what its word
stored. -/
def Sys2Proof.Claims.storeReadsBack : Prop := ∀ (s : State) (bt : BitVec 1) (n : BitVec 5) (d x : BitVec 8) (z : BitVec 2) (c : Access) (a scope evc : Nat),
  let pl := placeOf s.grp n.toNat
  let one := fun (i : Instr) (size w : Nat) =>
    ready (memNeed s (some (d.toNat, w)) x.toNat false) s → proceeds s (wordAccess s n x size 1 true none [1]) [(c, a)] → quiet s = true →
    anySpec s = false → taskKey s.grp pl a % 128 + size ≤ 128 → (pl ≠ .scratch → a < 2 ^ 200 ∧ peerGone s a = false) → (pl = .scratch → a < 2 ^ 20) →
    (∀ k ∈ s.caches, ∀ l, k.copy = some l → l.length = 128) →
    ∃ t, exec i s = .next t
      ∧ (placeLoad s.grp pl scope evc c.lane a size t).1
          = ((List.range w).flatMap fun i => toBytes 4 (getV s.grp (d.toNat + i) c.lane).toNat).take size
  one (.st bt n d x z) (4 * szWords z) (szWords z) ∧ one (.stb bt n d x) 1 1 ∧ one (.sth bt n d x) 2 1

/-- R220: a thread's load sees its own earlier store to the same bytes, at whatever scope and policy either was made, wherever the bytes have
got to. -/
def Obligations.OwnStoreIsSeenByOwnLoad : Prop := ∀ (s : State) (lane scope evc scope' evc' a : Nat) (bs : List Byte) (det : Bool),
  let g := s.grp
  specTask s g.uid lane = none → a < 2 ^ 200 → peerGone s a = false → a % 128 + bs.length ≤ 128 → (∀ c ∈ s.caches, ∀ l, c.copy = some l → l.length = 128) →
  let t := storeBytes g.uid lane g.core scope evc a bs det none s
  (loadBytes g.uid lane g.core scope' evc' a bs.length t).1 = bs

/-- R22, R197, R215: the scratchpad. Bytes stored read back, every other byte of the workgroup reads as before, and no home changes. -/
def Sys2Proof.Claims.scratchStores : Prop := ∀ (s : State) (who : Option (Nat × Nat)) (w : Workgroup) (off i : Nat) (bs : List Byte),
  findWg w.uid s = some w →
  let t := scratchStore who w.uid off bs s
  ∃ w', findWg w.uid t = some w'
    ∧ scratchByte t w' i = (if off ≤ i ∧ i < off + bs.length then bs.getD (i - off) 0 else scratchByte s w i)
    ∧ (∀ a, homeByte t a = homeByte s a)

/-- R226: the exclusive words. `LDX` loads each lane's place outside the leases and reserves it, at once or at a later moment as other loads are
(log entry 5); `STX` stores for a lane exactly when its reservation of that place and size is intact, and its bit of `M15` says whether it did. -/
def Sys2Proof.Claims.exclusiveWords : Prop := ∀ (s : State) (bt : BitVec 1) (n : BitVec 5) (d x : BitVec 8) (z : BitVec 2) (run : List (Access × Nat)),
  let w := szWords z
  let pl := placeOf s.grp n.toNat
  let det := exclusiveDet s n.toNat
  let clamped := (lanes (active s)).filter fun l => !(run.any fun p => decide (p.1.lane = l))
  (ready (memNeed s (some (d.toNat, w)) x.toNat true) s → anySpec s = false → proceeds s (wordAccess s n x (4 * w) 0 false det [0]) run →
    let armed := armLanes pl (4 * w) run (sampled pl run s)
    let l := ldxRun pl (4 * w) d.toNat (run.filter fun p => !defers s p.1.lane) armed
    let kept : List PLoad := (run.filter fun p => defers s p.1.lane).map fun p =>
      { place := pl, lane := p.1.lane, addr := p.2, size := 4 * w, scope := 2, evc := 0, reg := .v d.toNat, ext := .words, how := .exclusive }
    (∃ t, exec (.ldx bt n d x z) s = .next (thenStep s t)
      ∧ Completed (launchOp (plainRegs w d.toNat) (l.1 ++ clamped.flatMap fun l => laneWrites d.toNat l (List.replicate w 0)) [] l.2 kept) t)
    ∧ sameIssuer s.grp l.2.grp ∧ (∀ a, inFlight s a = false → homeByte l.2 a = homeByte s a)
    ∧ ((∀ p ∈ run, defers s p.1.lane = true) → l = ([], armed))
    ∧ (atRest s → (∀ p ∈ run, defers s p.1.lane = false) →
        l.1 = run.flatMap (fun p => laneWrites d.toNat p.1.lane (extended .words (4 * w)
          (if pl = .scratch then scratchBytes s (wgOf s) p.2 (4 * w) else homeBytes s p.2 (4 * w))))
        ∧ ∀ p ∈ run, sfind p.1.lane l.2.grp.resv = some { place := resvPlace pl, addr := resvAddr s.grp pl p.2, size := 4 * w }))
  ∧ (ready (memNeed s (some (d.toNat, w)) x.toNat false) s → anySpec s = false → proceeds s (wordAccess s n x (4 * w) 1 true det [1]) run →
    let bytes := fun l => (List.range w).flatMap fun i => toBytes 4 (getV s.grp (d.toNat + i) l).toNat
    let r := stxRun pl (4 * w) bytes run (sampled pl run s)
    (∃ t, exec (.stx bt n d x z) s = .next (thenStep s t) ∧ Completed (r.2.setG (setM 15 (getM t.grp 15))) t
      ∧ Masked s 15 (fun l => r.1.contains l) t.grp)
    ∧ sameIssuer s.grp r.2.grp ∧ (∀ a, inFlight s a = false → ¬covered pl (4 * w) run a → homeByte r.2 a = homeByte s a))

/-- R226: one lane's `LDX` in a place of memory. Performed at once, it gives the lane the words at the home and a reservation; in flight, it does so
when it is performed, and takes the reservation where no clause boundary has come between. The lane's `STX` stores its words and sets its bit of
`M15` when the reservation is intact, and else stores nothing and clears the bit. -/
def Sys2Proof.Claims.exclusiveLane : Prop := ∀ (s : State) (bt : BitVec 1) (n : BitVec 5) (d x : BitVec 8) (z : BitVec 2) (c : Access) (a : Nat),
  let w := szWords z
  let det := exclusiveDet s n.toNat
  let held : Resv := { place := 0, addr := a, size := 4 * w }
  placeOf s.grp n.toNat = .mem → anySpec s = false → quiet s = true → atRest s → peerGone s a = false → a % 128 + 4 * w ≤ 128 →
  (ready (memNeed s (some (d.toNat, w)) x.toNat true) s → proceeds s (wordAccess s n x (4 * w) 0 false det [0]) [(c, a)] →
    ∃ t, exec (.ldx bt n d x z) s = .next t ∧ (∀ b, homeByte t b = homeByte s b)
      ∧ (∀ p, curPos s = some p → p.issued + 1 < p.len → active s = laneBit c.lane → c.lane < 64 →
          ∃ o, t.grp.ops = s.grp.ops ++ [o]
            ∧ (defers s c.lane = false → sfind c.lane t.grp.resv = some held
              ∧ o.writes = laneWrites d.toNat c.lane (extended .words (4 * w) (homeBytes s a (4 * w))) ∧ o.loads = [])
            ∧ (defers s c.lane = true → t.grp.resv = s.grp.resv ∧ sfind c.lane t.grp.arming = some held ∧ o.writes = []
              ∧ o.loads = [{ place := .mem, lane := c.lane, addr := a, size := 4 * w, scope := 2, evc := 0, reg := .v d.toNat, ext := .words
                             how := .exclusive }])))
  ∧ (ready (memNeed s (some (d.toNat, w)) x.toNat false) s → proceeds s (wordAccess s n x (4 * w) 1 true det [1]) [(c, a)] → c.lane < 64 →
    let intact := sfind c.lane s.grp.resv = some held
    ∃ t, exec (.stx bt n d x z) s = .next t ∧ (bit (getM t.grp 15) c.lane = true ↔ intact)
      ∧ (intact → homeBytes t a (4 * w) = (List.range w).flatMap fun i => toBytes 4 (getV s.grp (d.toNat + i) c.lane).toNat)
      ∧ (∀ b, ¬(intact ∧ a ≤ b ∧ b < a + 4 * w) → homeByte t b = homeByte s b))

/-- R226: what an exclusive load reads when it is performed, and when it takes its reservation. -/
def Sys2Proof.Claims.exclusivePerformed : Prop := ∀ (s : State) (g : Group) (p : PLoad),
  p.how = .exclusive → p.place = .mem → p.ext = .words → p.lost = false → peerGone s p.addr = false → s.stores = [] → s.caches = [] →
  let held : Resv := { place := 0, addr := p.addr, size := p.size }
  let r := performLoad g p s
  r.1 = loadWrites p.reg p.lane (extended .words p.size (homeBytes s p.addr p.size)) ∧ (∀ b, homeByte r.2 b = homeByte s b)
  ∧ (s.grp.uid = g.uid → (sfind p.lane s.grp.arming = some held → sfind p.lane r.2.grp.resv = some held)
    ∧ (sfind p.lane s.grp.arming ≠ some held → r.2.grp = s.grp))

/-- R226: `LDX` and `STX`. -/
def Obligations.ExclusiveWordsComplete : Prop :=
  Sys2Proof.Claims.exclusiveWords ∧ Sys2Proof.Claims.exclusiveLane ∧ Sys2Proof.Claims.exclusivePerformed

/-- R226: a store to a line by any other thread breaks the reservations on it; a reservation on another line stays. -/
def Sys2Proof.Claims.storesBreak : Prop := ∀ (s : State) (who : Option (Nat × Nat)) (place line : Nat) (l : Nat) (r : Resv),
  (l, r) ∈ (breakResv who place line s).grp.resv ↔
    (l, r) ∈ s.grp.resv ∧ ¬(r.place = place ∧ lineOf r.addr = line ∧ who ≠ some (s.grp.uid, l))

/-- R197, R199, R211, R215, R217, R219, R225, R226: the stores (of which a later moment is performed at the tape's choice, log entry 5). -/
def Obligations.StoresComplete : Prop :=
  Sys2Proof.Claims.storeWords ∧ Sys2Proof.Claims.laneStores ∧ Sys2Proof.Claims.performedStores ∧ Sys2Proof.Claims.storeReadsBack
  ∧ Sys2Proof.Claims.storesBreak ∧ Sys2Proof.Claims.scratchStores

/-- R211, R227, R228: prefetches change no register and no byte at a home but those in flight; a level 1 prefetch leaves a copy of the line in
the L1 and a level 2 one in the L2; an eviction writes the line back and drops it; a buffer register takes a record that the checks of R216 accept,
from memory or from four S registers. -/
def Sys2Proof.Claims.recordWords : Prop :=
  ∀ (s : State) (bt : BitVec 1) (n b : BitVec 5) (x : BitVec 8) (a : BitVec 6) (z : BitVec 2) (run : List (Access × Nat)) (l : Nat),
  let k := a.toNat
  let pl := placeOf s.grp n.toNat
  let still := fun (u : State) => sameIssuer s.grp u.grp ∧ ∀ a, inFlight s a = false → homeByte u a = homeByte s a
  let s' := sampled pl run s
  (ready (memNeed s none x.toNat false) s → memCheck s { wordAccess s n x 1 3 false none [] with skip := true } (lanes (active s)) = .go run [] →
      tasksWait s pl false run = 0 → runMeets s 1 run = false →
      let u := if pl = .mem then (run.filter fun p => (specTask s s.grp.uid p.1.lane).isNone).foldl (fun t p =>
        prefLine s.grp.core z.toNat (scopeOf s n.toNat) (evcOf s) p.2 t) s' else s'
      (∃ t, exec (.pref bt n x z) s = .next (thenStep s t) ∧ Completed u t) ∧ still u)
  ∧ (∀ scope evc p, scope ≤ 2 → evc ≠ 3 →
      (∃ c bs, findLine 1 s.grp.core (p / 128) (prefLine s.grp.core 0 scope evc p s) = some c ∧ c.copy = some bs)
      ∧ (homedNear s (dieOfCore s.grp.core) (p / 128) = false →
          ∃ c bs, findLine 2 (s.grp.core / 48) (p / 128) (prefLine s.grp.core 1 scope evc p s) = some c ∧ c.copy = some bs)
      ∧ prefLine s.grp.core 2 scope evc p s = s)
  ∧ (ready (memNeed s none x.toNat false) s → proceeds s (wordAccess s n x 1 0 false none []) run →
      let u := if pl = .scratch then s' else run.foldl (fun t p => evictLine s.grp.core z.toNat p.2 t) s'
      (∃ t, exec (.evict bt n x z) s = .next (thenStep s t) ∧ Completed u t) ∧ still u)
  ∧ (∀ p, findLine 1 s.grp.core (p / 128) (evictLine s.grp.core z.toNat p s) = none
      ∧ (z ≠ 0 → findLine 2 (s.grp.core / 48) (p / 128) (evictLine s.grp.core z.toNat p s) = none))
  ∧ (let need := { memNeed s none x.toNat false with hints := { imm := true, evc := true } }
     ready need s → lowLane (active s) = some l →
      (30 ≤ n.toNat → exec (.bload bt n b x) s = .next (takeTrap { cause := 0x02, mask := active s } s))
      ∧ (n.toNat < 30 → memCheck s (wordAccess s b x 16 0 false none [0]) [l] = .go run [] →
        pathWaits s (placeOf s.grp b.toNat) run = 0 → pathMeets s 16 run = false →
        let r := match run with
          | (c, p) :: _ => laneLoad (placeOf s.grp b.toNat) (scopeOf s b.toNat) (evcOf s) c.lane p 16
              (pathReads (placeOf s.grp b.toNat) p (sampled (placeOf s.grp b.toNat) run s))
          | [] => (List.replicate 16 0, s)
        let v := BitVec.ofNat 128 (ofBytes r.1)
        ((recOfBits v).invalid = true → exec (.bload bt n b x) s = .next (takeTrap { cause := 0x02, mask := active s } s))
        ∧ ((recOfBits v).invalid = false → ∃ t, exec (.bload bt n b x) s = .next (thenStep s t) ∧ Completed (r.2.setG (setB n.toNat v)) t)
        ∧ still r.2))
  ∧ (let v := getS s.grp (k + 3) ++ getS s.grp (k + 2) ++ getS s.grp (k + 1) ++ getS s.grp k
     let need : Need := { regs := (((List.range 4).map fun i => k + i).filter fun r => decide (r < 64)).map Reg.s }
     let bad := 30 ≤ n.toNat ∨ 60 < k ∨ (recOfBits v).invalid = true
     (¬bad → Does (.bset bt n a) need s (s.setG (setB n.toNat v)))
     ∧ (bad → ready need s → exec (.bset bt n a) s = .next (takeTrap { cause := 0x02, mask := active s } s)))

/-- R269, R282, R283: the constant loads. `SLDC` reads one word for the group through a record, whatever the mask, at once or at a later moment as
loads are (log entry 5); through the lane window it reads that of the lowest active lane (log entry 19). `SLDLIT` reads a word of the original
code. -/
def Sys2Proof.Claims.constantLoads : Prop := ∀ (s : State) (bt : BitVec 1) (d a : BitVec 6) (n i : BitVec 5) (j : BitVec 16) (c : Access) (p : Nat) (w : Word),
  let l := (lowLane (active s)).getD 0
  let rc := bufOf s n.toNat l
  let index : Int := match (curHints s).imm with
    | some h => (BitVec.ofInt 32 (h.toInt * 32 + i.toNat)).toInt
    | none => i.toNat
  let o : MemOp := { buf := n.toNat, idx := fun _ => getS s.grp a.toNat, imm := if rc.stride = 0 then index else index * rc.stride
                     size := 4, kind := 0, watch := [0] }
  let pl := placeOf s.grp n.toNat
  let field : Int := match (curHints s).imm with
    | some h => (BitVec.ofInt 32 (h.toInt * 65536 + j.toNat)).toInt
    | none => j.toInt
  let target : Int := (topcOf s.grp (curPc s) : Int) + 4 * field
  let kept : PLoad := { place := pl, lane := l, addr := p, size := 4, scope := scopeOf s n.toNat, evc := evcOf s, reg := .s d.toNat }
  (ready (sldcNeed s d a n) s → memCheck s o [l] = .go [(c, p)] [] → pathWaits s pl [(c, p)] = 0 → pathMeets s 4 [(c, p)] = false →
    let s' := (lanes (active s)).foldl (fun t k => drainOwn s.grp.uid k (lineOf (taskKey s.grp pl p)) t) (pathReads pl p (sampled pl [(c, p)] s))
    let r := laneLoad pl (scopeOf s n.toNat) (evcOf s) l p 4 s'
    (defers s l = true → ∃ t, exec (.sldc bt d a n i) s = .next (thenStep s t) ∧ Completed (raiseOp [.s d.toNat] [] [] [kept] s') t)
    ∧ (defers s l = false → ∃ t, exec (.sldc bt d a n i) s = .next (thenStep s t)
        ∧ Completed (raiseOp [.s d.toNat] [{ reg := .s d.toNat, lane := 0, val := wordOf r.1 }] [] [] r.2) t)
    ∧ sameIssuer s.grp r.2.grp ∧ (∀ b, inFlight s b = false → homeByte r.2 b = homeByte s b))
  ∧ (ready (sldcNeed s d a n) s → memCheck s o [l] = .go [] [] →
    ∃ t, exec (.sldc bt d a n i) s = .next (thenStep s t) ∧ Completed (raiseOp [.s d.toNat] [{ reg := .s d.toNat, lane := 0, val := 0 }] [] [] s) t)
  ∧ (ready (scalarNeed [d.toNat] true) s → 0 ≤ target → readOriginal s s.grp target.toNat = .word w →
    ∃ t, exec (.sldlit bt d j) s = .next (thenStep s t) ∧ Completed (s.setG (setS d.toNat w)) t)
  ∧ (ready (scalarNeed [d.toNat] true) s → (target < 0 ∨ readOriginal s s.grp target.toNat = .beyond) →
    exec (.sldlit bt d j) s = .next (takeTrap { cause := 0x0A, mask := active s, addr := (BitVec.ofInt 64 target).toNat } s))

/-- R227, R228, R282, R283: prefetch, eviction, records and constants. -/
def Obligations.RecordCacheAndConstantWordsComplete : Prop :=
  Sys2Proof.Claims.recordWords ∧ Sys2Proof.Claims.constantLoads

/-- R323, R362: lanes that need an absent page park. They leave their path for the hem with the address and the clause position of the word and the
virtual address of the lowest of them, their reservations are gone, each page is reported once for the context, and memory is as before. -/
def Obligations.AbsentPageParksItsLanes : Prop := ∀ (s : State) (kind page : Nat) (pos : Option Pos) (own : List Reg) (ps : List (Nat × Nat)),
  ps ≠ [] →
  let ls := ps.map fun p => p.1
  let t := parkLanes kind pos own ps s
  let gone := removeLanes (maskOf ls) s.grp
  t.grp.act = gone.act ∧ t.grp.frontier = gone.frontier
  ∧ t.grp.resv = s.grp.resv.filter (fun e => !bit (maskOf ls) e.1)
  ∧ t.grp = { s.grp with hem := t.grp.hem, act := t.grp.act, frontier := t.grp.frontier, resv := t.grp.resv, arming := t.grp.arming }
  ∧ t.grp.arming = s.grp.arming.filter (fun e => !bit (maskOf ls) e.1)
  ∧ (∀ a, homeByte t a = homeByte s a)
  ∧ (∀ p ∈ ps, p.1 < 64 → ∃ e ∈ t.grp.hem, bit e.mask p.1 = true ∧ e.page = page64 p.2 ∧ e.pc = curPc s ∧ e.kind = kind)
  ∧ ((∀ p ∈ ps, page64 p.2 = page) →
      t.grp.hem = gone.hem ++ [{
        pc := curPc s, mask := maskOf ls, pos := pos.map fun p => { p with own := p.own ++ own }, va := (ps.head?.map fun p => p.2).getD page
        page := page, kind := kind, edited := (s.grp.act.map fun e => e.edited).getD false
        holds := (ctxOf s).det && decide (s.grp.kind = .vector) && decide (active s &&& ~~~(maskOf ls) = 0) }]
      ∧ (∀ c, findCtx s.grp.ctx s = some c → t.reports =
          if c.reported.contains page then s.reports else s.reports ++ [{ ctx := s.grp.ctx, page := page, kind := kind }]))

/-- R229 to R231: the atomics. Each lane in ascending order replaces the word at its place by its operation's value and, when a V register is named,
the old value is in flight to it; with a code it is none. A lane's returning atomic is performed at once or at a later moment as loads are (log entry
5). At the homes only the words of the lanes and bytes already in flight may change. `ACAS` with a code or without a second register traps. -/
def Sys2Proof.Claims.atomicWords : Prop := ∀ (s : State) (bt : BitVec 1) (n : BitVec 5) (d x : BitVec 8) (p : BitVec 2) (run : List (Access × Nat)),
  let pl := placeOf s.grp n.toNat
  let ret := decide (d.toNat ≤ 0xDF)
  let atomic := fun (i : Instr) (op : AtomicOp) =>
    let need := atomicNeed s d x
    let need := if op = .cas then { need with regs := need.regs ++ [.v (d.toNat + 1)] } else need
    let bad := op = .cas ∧ (ret = false ∨ s.grp.code.vregs ≤ d.toNat + 1)
    (ready need s → bad → exec i s = .next (takeTrap { cause := 0x02, mask := active s } s))
    ∧ (ready need s → ¬bad → anySpec s = false →
      proceeds s (wordAccess s n x 4 1 true (atomicDet s op n (returning d) p) (if ret then [0, 1] else [1])) run →
      let old := fun (l : Nat) => src s d l
      let new := fun (l : Nat) => getV s.grp (d.toNat + 1) l
      let later := fun (q : Access × Nat) => ret && defers s q.1.lane
      let r := atomicRun op pl p.toNat (evcOf s) ret old new (run.filter fun q => !later q) (sampled pl run s)
      let kept : List PLoad := (run.filter later).map fun q =>
        { place := pl, lane := q.1.lane, addr := q.2, size := 4, scope := p.toNat, evc := evcOf s, reg := .v d.toNat
          how := .atomic op (old q.1.lane) (new q.1.lane) }
      let clamped := (lanes (active s)).filter fun l => !(run.any fun q => decide (q.1.lane = l))
      let ws := (r.1.flatMap fun q => laneWrites d.toNat q.1 [q.2]) ++ clamped.flatMap fun l => laneWrites d.toNat l [0]
      let u := if ret then launchOp (plainRegs 1 d.toNat) ws [] r.2 kept else r.2
      (∃ t, exec i s = .next (thenStep s t) ∧ Completed u t)
      ∧ sameIssuer s.grp r.2.grp
      ∧ (∀ a, inFlight s a = false → ¬covered pl 4 run a → homeByte r.2 a = homeByte s a))
  atomic (.aadd bt n d x p) .add ∧ atomic (.amin bt n d x p) .min ∧ atomic (.amax bt n d x p) .max
  ∧ atomic (.aumin bt n d x p) .umin ∧ atomic (.aumax bt n d x p) .umax ∧ atomic (.aand bt n d x p) .and
  ∧ atomic (.aor bt n d x p) .or ∧ atomic (.axor bt n d x p) .xor ∧ atomic (.axchg bt n d x p) .xchg
  ∧ atomic (.acas bt n d x p) .cas ∧ atomic (.afadd bt n d x p) .fadd

/-- R219, R229, R230, R231: one lane's atomic performed in memory, where nothing is pending: the old word is the home's, and the new one stands there
or in the core's L1, but for an `ACAS` whose comparison fails, which stores nothing. A load in flight that is an atomic does the same when it is
performed; a non-returning one is pending. -/
def Sys2Proof.Claims.laneAtomics : Prop := ∀ (s : State) (g : Group) (q : PLoad) (op : AtomicOp) (scope evc lane a : Nat) (x y : Word),
  let old := wordOf (homeBytes s a 4)
  let r := placeAtomic s.grp op .mem scope evc lane a x y s
  atRest s → specTask s s.grp.uid lane = none → peerGone s a = false → a % 128 + 4 ≤ 128 →
  (2 ≤ scope ∨ evc = 3 → r.1 = old
    ∧ (op ≠ .cas ∨ old = x → wordOf (homeBytes r.2 a 4) = atomicNew op old x y)
    ∧ (op = .cas → old ≠ x → ∀ b, homeByte r.2 b = homeByte s b))
  ∧ (scope ≤ 1 → evc ≠ 3 → r.1 = old ∧ (∀ b, homeByte r.2 b = homeByte s b)
    ∧ (op ≠ .cas ∨ old = x → ∃ c, findLine 1 s.grp.core (a / 128) r.2 = some c
        ∧ ∀ i, i < 4 → sfind (a % 128 + i) c.dirty = some ((atomicNew op old x y).extractLsb' (8 * i) 8)))
  ∧ laneAtomic op .mem scope evc lane a true x y s = r
  ∧ (q.how = .atomic op x y → q.lost = false → (q.place = .mem → peerGone s q.addr = false) →
    let p := placeAtomic g op q.place q.scope q.evc q.lane q.addr x y s
    performLoad g q s = (loadWrites q.reg q.lane [p.1], p.2))
  ∧ (evc ≠ 3 → (ctxOf s).det = false → (laneAtomic op .mem scope evc lane a false x y s).2 = { s with stores :=
      [{ grp := s.grp.uid, lane := lane, addr := a, bytes := [], op := some op, operand := x, scope := scope, evc := evc, peer := peerOf a }] })

/-- R230, R231, R79: what an atomic stores for the old word, its operand and, for `ACAS`, the replacement. -/
def Sys2Proof.Claims.atomicValues : Prop := ∀ old x y : Word,
  atomicNew .add old x y = old + x
  ∧ atomicNew .min old x y = (if x.toInt < old.toInt then x else old) ∧ atomicNew .max old x y = (if old.toInt < x.toInt then x else old)
  ∧ atomicNew .umin old x y = (if x.toNat < old.toNat then x else old) ∧ atomicNew .umax old x y = (if old.toNat < x.toNat then x else old)
  ∧ atomicNew .and old x y = old &&& x ∧ atomicNew .or old x y = old ||| x ∧ atomicNew .xor old x y = old ^^^ x
  ∧ atomicNew .xchg old x y = x ∧ atomicNew .cas old x y = (if old = x then y else old) ∧ atomicNew .fadd old x y = fadd32 old x

/-- R229 to R231: the atomics. -/
def Obligations.AtomicsComplete : Prop :=
  Sys2Proof.Claims.atomicWords ∧ Sys2Proof.Claims.laneAtomics ∧ Sys2Proof.Claims.atomicValues

/-- R232 to R237, R245, R357: copies, batches, fences and ordered append. A legal `COPY` with no speculative lane first makes the issuer's stores
performed, then a token is pending; it and a fence wait for the resolves that their lanes drive; `SEAL` gives the next batch its number; `WAITB` waits for it; an acquire performs the lanes' loads, and a release
their loads and stores, and at device scope then waits until device time has passed their GWCT; `APPEND` gives each active lane its slot in
ascending order. -/
def Sys2Proof.Claims.copyWords : Prop :=
  ∀ (s : State) (bt : BitVec 1) (c e : BitVec 5) (k a : BitVec 6) (kind : BitVec 2) (scope : BitVec 3) (d x : BitVec 8),
  let r := a.toNat
  let si := getS s.grp r
  let di := getS s.grp (r + 1)
  let len := getS s.grp (r + 2)
  let m := active s
  let needCopy := { vectorNeed [.s r, .s (r + 1), .s (r + 2), .s k.toNat] false with hints := { evc := true, scp := true } }
  let legal := r ≤ 61 ∧ len.toNat ≤ 16777216
  let needWait := vectorNeed [.s r] false
  let released := releaseLanes s.grp.uid s.grp.exist true s
  let sc := match (curHints s).scp with
    | some p => p.toNat
    | none => (bufOf s e.toNat 0).scope
  (ready needCopy s → m ≠ 0 → ¬legal → exec (.copy bt c e k a) s = .next (takeTrap { cause := 0x02, mask := m } s))
  ∧ (ready needCopy s → m ≠ 0 → legal → ∀ t, copyTrap s c e si di len = some t → exec (.copy bt c e k a) s = .next (takeTrap t s))
  ∧ (ready needCopy s → m ≠ 0 → legal → copyTrap s c e si di len = none → len ≠ 0 → anySpec s = false →
    visqPending s.grp s.grp.exist = false →
    ∃ t, exec (.copy bt c e k a) s = .next (thenStep s t)
      ∧ Completed (startToken k.toNat (.copy (copyBits s c.toNat) (copyBits s e.toNat) (placeOf s.grp c.toNat == .scratch)
          (placeOf s.grp e.toNat == .scratch) si.toNat di.toNat len.toNat sc (evcOf s) (s.grp.sealed + 1)) released) t
      ∧ pendingToken t.grp k.toNat = true)
  ∧ (ready needCopy s → (m = 0 ∨ legal ∧ copyTrap s c e si di len = none ∧ len = 0) →
      ∃ t, exec (.copy bt c e k a) s = .next (thenStep s t) ∧ Completed (s.setG (setS k.toNat 0)) t)
  ∧ Does (.sealBatch bt k) (vectorNeed [.s k.toNat] false) s
      (s.setG fun g => setS k.toNat (BitVec.ofNat 32 (g.sealed + 1)) { g with sealed := g.sealed + 1 })
  ∧ (ready needWait s → s.grp.sealed < si.toNat → exec (.waitb bt a) s = .next (takeTrap { cause := 0x02, mask := m } s))
  ∧ (ready needWait s → si.toNat ≤ s.grp.sealed → batchesDone s.grp si.toNat = true →
      let u := s.setG (seeCopies fun c => decide (c.batch ≤ si.toNat))
      (∃ t, exec (.waitb bt a) s = .next (thenStep s t) ∧ Completed u t)
      ∧ (∀ q ∈ s.grp.copies, q.batch ≤ si.toNat → ∀ l, bit s.grp.exist l = true → q.gwct ≤ sget 0 l u.grp.gwct))
  ∧ (ready needWait s → si.toNat ≤ s.grp.sealed → batchesDone s.grp si.toNat = false → exec (.waitb bt a) s = .next (stallOn .batch s))
  ∧ (ready {} s → m = 0 → ∃ t, exec (.fence bt kind scope) s = .next (thenStep s t) ∧ Completed s t)
  ∧ (ready {} s → m ≠ 0 → visqPending s.grp m = true → exec (.fence bt kind scope) s = .next (stallOn .token s))
  ∧ (ready {} s → m ≠ 0 → visqPending s.grp m = false → kind = 1 → ∃ t, exec (.fence bt kind scope) s = .next (thenStep s t) ∧ Completed (performLanes s.grp.uid m s) t)
  ∧ (ready {} s → m ≠ 0 → visqPending s.grp m = false → kind ≠ 1 → scope.toNat ≤ 1 →
      ∃ t, exec (.fence bt kind scope) s = .next (thenStep s t) ∧ Completed (releaseLanes s.grp.uid m false s) t)
  ∧ (ready {} s → m ≠ 0 → visqPending s.grp m = false → kind ≠ 1 → 2 ≤ scope.toNat →
      let u := releaseLanes s.grp.uid m true s
      let done := ∀ l, bit m l = true → l < 64 → sget 0 l u.grp.gwct = 0 ∨ sget 0 l u.grp.gwct < s.time
      (done → ∃ t, exec (.fence bt kind scope) s = .next (thenStep s t) ∧ Completed u t)
      ∧ (¬done → exec (.fence bt kind scope) s = .next (stallOn .fence u)))
  ∧ (ready (vectorNeed [.v d.toNat, .v x.toNat] (!plainV s 1 d.toNat || !plainV s 1 x.toNat)) s → (ctxOf s).det = false →
      let slots := claimSlots (fun l => getV s.grp x.toNat l) (lanes m) (sget 0 c.toNat (gridOf s).units)
      let u := updGrid (wgOf s).grid (fun g => { g with units := sput 0 c.toNat slots.2 g.units }) s
      ∃ t, exec (.append bt c d x) s = .next (thenStep s t)
        ∧ Wrote s d.toNat 1 (fun l => [((slots.1.find? fun p => p.1 = l).map fun p => p.2).getD 0]) t.grp
        ∧ Completed { u with grp := { s.grp with v := t.grp.v, k := t.grp.k } } t)

/-- R236: an acquire and a release perform the loads in flight of the lanes: none of them is left. Registers and bytes that are not in flight stay. -/
def Sys2Proof.Claims.acquirePerforms : Prop := ∀ (s : State) (m : DWord),
  let t := performLanes s.grp.uid m s
  (∀ o ∈ t.grp.ops, ∀ p ∈ o.loads, p.ofLanes m = false) ∧ sameIssuer s.grp t.grp ∧ (∀ a, inFlight s a = false → homeByte t a = homeByte s a)

/-- R201: the slots of a claim. Lane `l` gets the counter plus the counts of the lower lanes, modulo 2^32, and the counter ends past them all. -/
def Sys2Proof.Claims.appendSlots : Prop := ∀ (count : Nat → Word) (ls : List Nat) (c : Nat), ls.Nodup → c < 2 ^ 32 →
  let sum := fun (l : List Nat) => (l.map fun k => (count k).toNat).sum
  (claimSlots count ls c).2 = (c + sum ls) % 2 ^ 32
  ∧ ∀ (before after : List Nat) (l : Nat), ls = before ++ l :: after →
      ((claimSlots count ls c).1.find? fun p => p.1 = l) = some (l, BitVec.ofNat 32 (c + sum before))

/-- R201, R232 to R237: copies, batches, fences and append. -/
def Obligations.CopyFenceAndAppendComplete : Prop :=
  Sys2Proof.Claims.copyWords ∧ Sys2Proof.Claims.acquirePerforms ∧ Sys2Proof.Claims.appendSlots

/-- R236: after a release, no store of the released threads is pending, and after one at device scope no cached byte of theirs is dirty. -/
def Obligations.ReleasePerformsStores : Prop := ∀ (s : State) (m : DWord),
  let t := releaseLanes s.grp.uid m true s
  (∀ o ∈ t.grp.ops, ∀ p ∈ o.loads, p.ofLanes m = false)
  ∧ (∀ p ∈ t.stores, ¬(p.grp = s.grp.uid ∧ bit m p.lane = true))
  ∧ (∀ c ∈ t.caches, ∀ o ∈ c.owners, o.1 = s.grp.uid → bit m o.2 = true → c.dirty = [])
  ∧ (∀ a, inFlight s a = false → homeByte t a = homeByte s a)

/-! ### Control flow -/

/-- R287 to R290: the direct transfers. Selected lanes go to the target, the others to the next word; `CALL` leaves the original offset of the next
word in `K7` of its lanes. -/
def Sys2Proof.Claims.directWords : Prop := ∀ (s : State) (bt : BitVec 1) (m : BitVec 4) (a : BitVec 6) (o : BitVec 18) (q : BitVec 16),
  let parts := fun (sel : DWord) (p : Nat) => [{ pc := p, mask := active s &&& sel : FEntry }, { pc := curPc s + 4, mask := active s &&& ~~~sel }]
  let goes := fun (i : Instr) (u : State) (sel : DWord) (p : Nat) => ∃ t, exec i s = .next (thenStep s t) ∧ LeftFor u (parts sel p) t
  let off := offsetOf s 18 o
  let mask := getM s.grp m.toNat
  let taken := fun (b : Bool) => if b then active s else (0 : DWord)
  let set := decide (getS s.grp a.toNat ≠ 0)
  let link := s.setG fun g => (lanes (active s)).foldl (fun g l => setK 7 l (BitVec.ofNat 32 (topcOf s.grp (curPc s) + 4)) g) g
  Direct (.bra bt o) (scalarNeed [] true) off s (goes (.bra bt o) s (active s))
  ∧ Direct (.brm bt m o) { hints := { imm := true } } off s (goes (.brm bt m o) s mask)
  ∧ Direct (.brmn bt m o) { hints := { imm := true } } off s (goes (.brmn bt m o) s (~~~mask))
  ∧ Direct (.brs bt a q) (scalarNeed [a.toNat] true) (offsetOf s 16 q) s (goes (.brs bt a q) s (taken set))
  ∧ Direct (.brsz bt a q) (scalarNeed [a.toNat] true) (offsetOf s 16 q) s (goes (.brsz bt a q) s (taken !set))
  ∧ Direct (.call bt o) { hints := { imm := true }, operandBad := decide (s.grp.code.kregs < 8), regs := [.k 7] } off s
      (goes (.call bt o) link (active s))

/-- R287: a branch neither loses nor doubles a lane: what goes to the target and what falls through are disjoint and together the active mask. -/
def Sys2Proof.Claims.partsPartition : Prop := ∀ (s : State) (sel : DWord) (p : Nat),
  match branchParts s sel p with
  | [a, b] => a.mask &&& b.mask = 0 ∧ a.mask ||| b.mask = active s ∧ a.pc = p ∧ b.pc = curPc s + 4
  | _ => False

/-- R287 to R290: transfers with a direct target. -/
def Sys2Proof.Claims.directTransfers : Prop :=
  Sys2Proof.Claims.directWords ∧ Sys2Proof.Claims.partsPartition

/-- R40, R47, R287: what the check of a target finds. It names a clause header exactly when it is a multiple of 4 inside the code, its word is of
class 0 with BT 0, and it lies in no pool of the walk over headers and pools from the start of the code. That BT 1 makes a word no header, and a
class 0 word in the body of a clause one, is log entry 13; how a class 14 word that would trap counts is log entry 99. -/
def Sys2Proof.Claims.targetsAreHeaders : Prop := ∀ (rd : Nat → CodeRead) (t : Nat),
  let size := fun (w : Word) => 4 + 4 * (if classOf w = 0 then bitsOf w 6 3 else if classOf w = 14 then bitsOf w 11 0 else 0)
  (t % 4 ≠ 0 → targetOf rd t = .bad)
  ∧ (t % 4 = 0 → rd t = .beyond → targetOf rd t = .bad)
  ∧ (∀ va x, t % 4 = 0 → rd t = .trans va x → targetOf rd t = .unread va x)
  ∧ (∀ w, t % 4 = 0 → rd t = .word w → (classOf w ≠ 0 ∨ w.getLsbD 27 = true) → targetOf rd t = .bad)
  ∧ (∀ (w : Word) (ps : List Nat) (ws : Nat → Word), t % 4 = 0 → rd t = .word w → classOf w = 0 → w.getLsbD 27 = false →
    -- `ps` are the places of a walk over headers, pools and other words from the start of the code to `t` or past it
    ps.head? = some 0 → (∀ p ∈ ps.dropLast, p < t ∧ rd p = .word (ws p)) → ps.IsChain (fun p q => q = p + size (ws p)) →
    ∀ p, ps.getLast? = some p →
      (t ≤ p → targetOf rd t = if ∃ p ∈ ps.dropLast, classOf (ws p) = 14 ∧ t < p + size (ws p) then .bad else .header)
      -- a word of the walk that cannot be read yet is waited for
      ∧ (∀ va x, p < t → rd p = .trans va x → (x = .miss ∨ x = .absent) → targetOf rd t = .unread va x))

/-- R49, R290, R291, R366: the indirect transfers. Each active lane goes to its own target, in a specialised launch through the entry table;
`CALLI` reads its target before it writes the link; a lane whose landing pad fails its tag traps `CFI_TAG`, once the word after its header can be
read. How a target that cannot be read yet stops the transfer is log entry 12, and that a marked target register traps before the target checks is
log entry 75. -/
def Sys2Proof.Claims.indirectTransfers : Prop := ∀ (s : State) (bt : BitVec 1) (a g : BitVec 8),
  let ls := lanes (active s)
  let dest := fun (t : Nat) => match s.grp.code.residual with
    | none => t
    | some r => match r.entries.find? fun e => e.1 = t with
      | some e => e.2
      | none => r.copy.getD 0 + t
  let parts := fun (val : Nat → Nat) => ls.map fun l => { pc := dest (val l), mask := laneBit l : FEntry }
  let k7 := fun l => (getK s.grp 7 l).toNat
  let va := fun l => (src s a l).toNat
  let need := fun (link : Bool) => { walk := false, hand := false, last := true, hints := operandHints [a.toNat]
                                     operandBad := !srcOk s false 1 a.toNat || (link && decide (s.grp.code.kregs < 8))
                                     regs := codeRegs s 1 a.toNat ++ (if link then [.k 7] else []) : Need }
  let link := s.setG fun g => ls.foldl (fun g l => setK 7 l (BitVec.ofNat 32 (topcOf s.grp (curPc s) + 4)) g) g
  let pad := fun (l : Nat) => readOriginal s s.grp (va l + 4)
  let tagged := fun (l : Nat) (f : Nat) => ∃ w, pad l = .word w ∧ classOf w = 13 ∧ bitsOf w 26 22 = 9 ∧ bitsOf w 21 8 = 0 ∧ bitsOf w 7 0 = f
  let indirect := fun (i : Instr) (isCall : Bool) (u : State) =>
    Indirect i (need isCall) (srcOk s false 1 a.toNat && decide (s.grp.kind ≠ .bobbin)) false (codeRegs s 1 a.toNat) va s
      (WaitsForCode i s (waitPads s va ls)
      ∧ (waitPads s va ls = none →
        (∀ l, ls.find? (fun l => padTag s (va l) != some g.toNat) = some l →
          exec i s = .next (takeTrap { cause := 0x04, mask := lanesWith va (va l) ls, addr := va l, info := (padTag s (va l)).getD 256 } s))
        ∧ ((∀ l ∈ ls, tagged l g.toNat) → ∃ t, exec i s = .next (thenStep s t) ∧ LeftFor u (parts va) t)))
  Indirect (.ret bt) { last := true, regs := [.k 7], operandBad := decide (s.grp.code.kregs < 8) }
    (decide (8 ≤ s.grp.code.kregs) && decide (s.grp.kind ≠ .bobbin)) true [.k 7] k7 s
    (∃ t, exec (.ret bt) s = .next (thenStep s t) ∧ LeftFor s (parts k7) t)
  ∧ indirect (.jmpi bt a g) false s ∧ indirect (.calli bt a g) true link
  ∧ (∀ l f, tagged l f ↔ padTag s (va l) = some f)
  ∧ Does (.lpad bt g) { first := true } s s

/-- R49, R287 to R291, R294: the control transfers. -/
def Obligations.TransfersMoveTheirLanes : Prop :=
  Sys2Proof.Claims.directTransfers ∧ Sys2Proof.Claims.indirectTransfers ∧ Sys2Proof.Claims.targetsAreHeaders

/-- R292, R293: `SPLIT` records the active mask, `DROP` takes its lanes out, and `JOIN` makes the join pending at the next word, where its lanes
wait. A register whose join is pending elsewhere traps `ILLEGAL_OPERAND`. -/
def Sys2Proof.Claims.joinWords : Prop := ∀ (s : State) (bt : BitVec 1) (j : BitVec 3),
  let r := getJ s.grp j.toNat
  let p := curPc s + 4
  let bad := takeTrap { cause := cIllegalOperand, mask := active s, info := j.toNat } s
  let u := if r.mask = 0 then s else s.setG (setJ j.toNat { r with cont := some p })
  (ready {} s → r.cont ≠ none → exec (.split bt j) s = .next bad)
  ∧ (ready {} s → r.cont = none → ∃ t, exec (.split bt j) s = .next (thenStep s t) ∧ Completed (s.setG (setJ j.toNat { mask := active s })) t)
  ∧ Does (.drop bt j) {} s (s.setG fun g => joinStep j.toNat (setJ j.toNat { r with mask := r.mask &&& ~~~(active s) } g))
  ∧ (ready { last := true } s → r.cont ≠ none → r.cont ≠ some p → exec (.join bt j) s = .next bad)
  ∧ (ready { last := true } s → (r.cont = none ∨ r.cont = some p) →
      ∃ t, exec (.join bt j) s = .next (thenStep s t) ∧ LeftFor u [{ pc := p, mask := active s }] t
        ∧ t.grp.j = (joinCheck (addEntry { pc := p, mask := active s } { u.grp with act := none })).j)

/-- R293: a pending join completes, and its register is clear, exactly when every lane it expects stands at its continuation between clauses. -/
def Sys2Proof.Claims.joinCompletes : Prop := ∀ (g : Group) (n m p : Nat), (getJ g n).cont = some p →
  ((getJ g n).mask &&& ~~~(lanesAt g p) = 0 → getJ (joinStep n g) n = {})
  ∧ ((getJ g n).mask &&& ~~~(lanesAt g p) ≠ 0 → joinStep n g = g)
  ∧ (m ≠ n → getJ (joinStep n g) m = getJ g m)

/-- R292, R293: rejoins. -/
def Sys2Proof.Claims.joins : Prop :=
  Sys2Proof.Claims.joinWords ∧ Sys2Proof.Claims.joinCompletes

/-- R295, R234: `BAR` performs the lanes' stores at workgroup scope and sends them to the next word, where they wait, each lane by itself (log entry
18); then the barriers of the workgroup are looked at. It waits for the resolves that its lanes drive (R357). -/
def Sys2Proof.Claims.barWaits : Prop := ∀ (s : State) (bt : BitVec 1) (i : BitVec 4),
  ready { walk := false, hand := false, last := true } s →
  let u := releaseLanes s.grp.uid (active s) false s
  (visqPending s.grp (active s) = true → exec (.bar bt i) s = .next (stallOn .token s))
  ∧ (visqPending s.grp (active s) = false → ∃ t, exec (.bar bt i) s = .next (barrierCheck s.grp.wg (thenStep s t))
    ∧ LeftFor u [{ pc := curPc s + 4, mask := active s, wait := .bar i.toNat s.grp.sealed (active s) }] t)

/-- R245, R295: a barrier lets its threads go on exactly when every live thread of the workgroup has arrived and the batches sealed before have
completed; every thread of the workgroup then observes those copies, so that its GWCT is no earlier than theirs. Registers and memory stay as they
are. -/
def Sys2Proof.Claims.barCompletes : Prop := ∀ (s : State) (wg id : Nat),
  let gs := groupsOfWg wg s
  let all := (∃ g ∈ gs, arrived g id ≠ 0) ∧ ∀ g ∈ gs, g.live &&& ~~~(arrived g id) = 0 ∧ barBatches g id = true
  let t := barrierStep wg id s
  (¬all → t = s)
  ∧ (all → (∀ g ∈ groupsOfWg wg t, arrived g id = 0) ∧ (∀ a, homeByte t a = homeByte s a)
      ∧ (∀ g ∈ gs, ∀ c ∈ g.copies, ∀ e ∈ g.frontier, ∀ n m, e.wait = .bar id n m → c.batch ≤ n →
          ∀ h ∈ groupsOfWg wg t, ∀ l ∈ lanes h.exist, c.gwct ≤ sget 0 l h.gwct)
      ∧ t = { s with grp := { s.grp with frontier := t.grp.frontier, gwct := t.grp.gwct }, groups := t.groups }
      ∧ t.groups.map (fun g => { g with frontier := [], gwct := [] }) = s.groups.map (fun g => { g with frontier := [], gwct := [] }))

/-- R234, R295: barriers. -/
def Sys2Proof.Claims.barriers : Prop :=
  Sys2Proof.Claims.barWaits ∧ Sys2Proof.Claims.barCompletes

/-- R234, R245, R292, R293, R295: rejoins and barriers (arrival lane by lane is log entry 18). -/
def Obligations.JoinsAndBarriersWaitAndComplete : Prop :=
  Sys2Proof.Claims.joins ∧ Sys2Proof.Claims.barriers

/-- R296, R119: `EXIT` ends its threads. The lanes leave the live mask and every rejoin mask, their tasks have exited, and registers and memory
stay; on the bobbin the thread ends, a word of the other side that waits at its rendezvous goes
alone (R143), and its workgroup may retire. -/
def Sys2Proof.Claims.exitWord : Prop := ∀ (s : State) (bt : BitVec 1), quiet s = true →
  ready { bob := true, walk := false, hand := false, last := true } s →
  (s.grp.kind ≠ .bobbin → ∃ t, exec (.exit bt) s = .next t
    ∧ t.grp.live = s.grp.live &&& ~~~(active s) ∧ t.grp.act = none
    ∧ (∀ n, n < 8 → (getJ t.grp n).mask &&& active s = 0)
    ∧ (∀ k ∈ t.tasks, k.grp = s.grp.uid → bit (active s) k.lane = true → k.exited = true)
    ∧ t.grp.v = s.grp.v ∧ t.grp.k = s.grp.k ∧ t.grp.s = s.grp.s ∧ t.grp.m = s.grp.m ∧ t.grp.b = s.grp.b ∧ t.grp.clos = s.grp.clos
    ∧ (∀ a, homeByte t a = homeByte s a))
  ∧ (s.grp.kind = .bobbin → let t := endThread s
    t.grp.live = 0 ∧ t.grp.act = none ∧ t.grp.frontier = [] ∧ (∀ w, findWg s.grp.wg t = some w → w.bobGone = true)
    ∧ (∀ a, homeByte t a = homeByte s a)
    ∧ (waitingPartner s = none → exec (.exit bt) s = .next (retireCheck s.grp.wg t))
    ∧ (∀ p, waitingPartner s = some p → exec (.exit bt) s = .next (retireCheck s.grp.wg (within p.uid goAlone t))))

/-- R247, R297 to R299: `YIELD` and `CHWAIT` send their path to the next word, held back once, or waiting while children run. `SPAWN` by the team leader
makes its stores performed and then waits for the front end with the address of its record; other threads trap `LEADER_ONLY`, and a grid of depth
10 traps `NEST_DEPTH`. -/
def Sys2Proof.Claims.yieldWords : Prop := ∀ (s : State) (bt : BitVec 1) (a : BitVec 6),
  let next : FEntry := { pc := curPc s + 4, mask := active s }
  let need := { vectorNeed [.s a.toNat, .s (a.toNat + 1)] (decide (a.toNat % 2 = 1)) with feats := [12] }
  let va := pair64 (getS s.grp a.toNat) (getS s.grp (a.toNat + 1))
  let u := releaseLanes s.grp.uid (active s) true s
  (ready { walk := false, hand := false, last := true } s →
    ∃ t, exec (.yield bt) s = .next (thenStep s t) ∧ LeftFor s [{ next with yielded := true }] t)
  ∧ (ready { walk := false, hand := false, last := true, feats := [12] } s →
    ∃ t, exec (.chwait bt) s = .next (thenStep s t)
      ∧ ((wgOf s).children ≠ 0 → LeftFor s [{ next with wait := .child }] t)
      ∧ ((wgOf s).children = 0 → LeftFor (acquireWg s.grp.wg s) [next] t))
  -- R247: with a count of 0 it completes at once and acts as an acquire
  ∧ (let q := acquireWg s.grp.wg s
     (∀ o ∈ q.grp.ops, o.loads = []) ∧ sameIssuer s.grp q.grp ∧ ∀ b, inFlight s b = false → homeByte q b = homeByte s b)
  ∧ (ready need s → isLeader s = false → exec (.spawn bt a) s = .next (takeTrap { cause := cLeaderOnly, mask := active s } s))
  ∧ (ready need s → isLeader s = true → 10 ≤ (gridOf s).depth →
      exec (.spawn bt a) s = .next (takeTrap { cause := cNestDepth, mask := active s } s))
  ∧ (ready need s → isLeader s = true → (gridOf s).depth < 10 → va % 128 = 0 → (∃ p, xlate s s.grp va 0 = .ok p) → anySpec s = false →
      visqPending s.grp (active s) = false → (wgOf s).children < 65535 → spawnCopied s va = false → releaseDone u.grp (active s) s.time = true →
      ∃ t, exec (.spawn bt a) s = .next t ∧ t.grp.spawn = some (va, none) ∧ t.grp.stall = .spawn
        ∧ t = { u with grp := { u.grp with spawn := t.grp.spawn, stall := t.grp.stall } }
        ∧ (∀ b, inFlight s b = false → homeByte t b = homeByte s b))
  -- R252: a record that the front end has copied is not read again
  ∧ (∀ r, ready need s → s.grp.spawn = some (va, some r) → exec (.spawn bt a) s = .next (stallOn .spawn s))

/-- R296 to R299: the words that end, yield, spawn and wait for children. -/
def Obligations.ExitYieldAndSpawn : Prop :=
  Sys2Proof.Claims.exitWord ∧ Sys2Proof.Claims.yieldWords

/-- R332: `trap code` takes `TRAP_INSN` with CODE in `TCAUSE`, for the active lanes of its path; it is taken after the word has completed, so the
path stands at the next word. Without a handler the trap is in the pocket of the context, which has ended or only waits to be freed. `trap 0x42` is 0xD3C0_0042. -/
def Obligations.TrapWordTakesItsTrap : Prop := ∀ (s : State) (bt : BitVec 1) (code : BitVec 16) (c : Context) (e : FEntry),
  let takes := fun (i : Instr) (cause : BitVec 8) (lone : Bool) =>
    s.grp.act = some e → e.mask ≠ 0 → ready { bob := true, walk := false, hand := false } s → findCtx s.grp.ctx s = some c →
      (lone = true → c.attached = false) → c.ending = false → specLanes e.mask s = 0 → (s.grp.kind = .vector ∨ s.grp.kind = .bobbin) →
      let tells := fun (r : TrapRec) => (trapWord r 0).extractLsb' 16 16 = code ∧ (trapWord r 0).extractLsb' 0 8 = cause ∧ r.tpc = e.pc
        ∧ (s.grp.kind = .vector → r.mask = e.mask) ∧ r.info = 0
      (c.handlerVa ≠ none → ∃ t r, exec i s = .next t ∧ t.grp.trap = some r ∧ t.grp.stop = .trapped ∧ tells r
        ∧ t.grp.act = none ∧ (∃ f ∈ t.grp.frontier, f.pc = e.pc + 4 ∧ e.mask &&& f.mask = e.mask)
        ∧ t.grp.ops = [] ∧ (∀ a, inFlight s a = false → homeByte t a = homeByte s a))
      ∧ (c.handlerVa = none → ∃ t r, exec i s = .next t ∧ (∀ x, findCtx s.grp.ctx t = some x → x.ending = true)
        ∧ tells r ∧ ∃ p ∈ t.pockets, p.ctx = s.grp.ctx ∧ p.chain = [r])
  takes (.trap bt code) 0x15 false
  ∧ (active s = 0 → Does (.trap bt code) { bob := true, walk := false, hand := false } s s)
  ∧ decodeWord 0xD3C00042 = .ok (.trap 0 0x42)
  -- R333: `bkpt code` takes `BREAKPOINT` of KIND 0 in the same way, when no debugger is attached.
  ∧ takes (.bkpt bt code) 0x13 true
  ∧ (active s = 0 → Does (.bkpt bt code) { bob := true, walk := false, hand := false } s s)
  ∧ decodeWord 0xF7800007 = .ok (.bkpt 0 7)

/-- R334: `ENTER` pushes its region and `LEAVE` pops one, on a stack of eight entries whose bottom one a full push discards. -/
def Sys2Proof.Claims.regionWords : Prop := ∀ (s : State) (bt : BitVec 1) (r : BitVec 16),
  let n : Need := { walk := false, hand := false }
  (active s ≠ 0 → (ctxOf s).attached = false →
    Does (.enter bt r) n s (s.setG fun g => { g with regions := (r :: g.regions).take 8 })
    ∧ Does (.leave bt) n s (s.setG fun g => { g with regions := g.regions.drop 1 }))
  ∧ (active s = 0 → Does (.enter bt r) n s s ∧ Does (.leave bt) n s s)

/-! ### Privileged words and trace records -/

/-- R307, R308, R61: `TLBW` puts its entry in place of those of its core and context that it overlaps, or with V clear only removes them; `TLBI`
removes the entries of the issuer's context on every core, those of one page or all. In user mode both trap `PRIVILEGED`, and a `TLBW` with
a reserved bit, page size 3 or a base that its page size does not divide traps `ILLEGAL_OPERAND`. -/
def Sys2Proof.Claims.tlbWords : Prop := ∀ (s : State) (bt : BitVec 1) (a : BitVec 6) (k : BitVec 2),
  let n := a.toNat
  let w := fun i => getS s.grp (n + i)
  let f := fun (i lo len : Nat) => ((w i).extractLsb' lo len).toNat
  let e : TlbEntry :=
    { core := s.grp.core, ctx := s.grp.ctx, va := f 0 16 16 * 2 ^ 16 + f 1 0 25 * 2 ^ 32, size := f 0 0 2
      pa := f 2 16 16 * 2 ^ 16 + f 3 0 20 * 2 ^ 32, perm := (w 2).extractLsb' 0 4 }
  let bad := decide (f 0 2 14 ≠ 0) || decide (f 1 25 7 ≠ 0) || decide (f 2 4 12 ≠ 0) || decide (f 3 20 12 ≠ 0)
    || decide (e.size = 3) || decide (e.va % pageBytes e.size ≠ 0) || decide (e.pa % pageBytes e.size ≠ 0)
  let words := [.s n, .s (n + 1), .s (n + 2), .s (n + 3)]
  let need := { privNeed [n, n + 1, n + 2, n + 3] with operandBad := decide (n > 60), early := words, valueBad := bad }
  let kept := s.tlb.filter fun x => !(decide (x.core = e.core) && decide (x.ctx = e.ctx) && e.overlaps x)
  let needI := { privNeed (if k = 0 then [n, n + 1] else []) with operandBad := decide (n % 2 = 1) || (decide (k = 1) && decide (n ≠ 0)) }
  let va := pair64 (getS s.grp n) (getS s.grp (n + 1)) % 2 ^ 57
  let uids := (groupsOfCtx s.grp.ctx s).map fun g => g.uid
  let performed := performWhere (fun x => uids.contains x.grp) (performGroups (fun g => decide (g.ctx = s.grp.ctx)) s)
  let gone := fun (x : TlbEntry) => decide (k = 1) || x.covers va
  let walks := s.agentWalks.filter fun x => decide (x.ctx ≠ s.grp.ctx)
  let own := kept.filter fun x => decide (x.core = e.core)
  ((w 2).getLsbD 0 = false ∨ own.length < 256 →
    Does (.tlbw bt a) need s { s with tlb := if (w 2).getLsbD 0 then kept ++ [e] else kept, agentWalks := walks })
  -- R304: a core's TLB of 256 entries that is full loses one of them
  ∧ ((w 2).getLsbD 0 = true → 256 ≤ own.length →
    ∃ v ∈ own, Does (.tlbw bt a) need s { s with tlb := kept.filter (fun x => decide (x ≠ v)) ++ [e], agentWalks := walks, free := s.free + 1 })
  ∧ Does (.tlbi bt k a) needI s
      { performed with
        tlb := performed.tlb.filter (fun x => !(decide (x.ctx = s.grp.ctx) && gone x))
        grids := performed.grids.map fun g => if g.ctx = s.grp.ctx then { g with complTlb := g.complTlb.filter fun x => !gone x } else g
        agentWalks := performed.agentWalks.filter fun x => decide (x.ctx ≠ s.grp.ctx) }
  ∧ performed.tlb = s.tlb
  ∧ (∀ b, inFlight s b = false → homeByte performed b = homeByte s b)

/-- R305, R326: `HRET` ends its routine. A handler's issuer goes on where it stands, with no trap pending; a walker's outcome reaches the issuer
whose access missed, which issues again; it is kept for the access kind that was asked, for a device's own access until its operation ends (log entry
60). `HRET` with `.end` ends the context through the pocket. -/
def Sys2Proof.Claims.returnWords : Prop := ∀ (s : State) (bt : BitVec 1),
  let rest := dropGroups (fun h => decide (h.uid = s.grp.uid)) s
  let page := page64 s.grp.missVa
  let outcome := (getS s.grp 3).toNat
  let same := fun (x : Walked) => x.page = page ∧ x.kind = s.grp.missKind
  (ready (privNeed []) s → s.grp.kind = .handler → ∃ u, exec (.hret bt) s = .next u
    ∧ (∀ h ∈ allGroups u, h.uid ≠ s.grp.uid ∨ h = {})
    ∧ ∀ t, findGroup s.grp.serves rest = some t → t.uid ≠ 0 → t.edits = [] → t.hexit = 0 → t.haltReq = false →
        ∃ h, findGroup t.uid u = some h ∧ h = { t with
          stop := .running, trap := none, act := h.act, frontier := h.frontier, hem := h.hem, j := h.j, gwct := h.gwct, noWatch := h.noWatch
          noBreak := h.noBreak })
  ∧ (ready (privNeed [3]) s → s.grp.kind = .walker → s.grp.serves ≠ 0 → ∃ u, exec (.hret bt) s = .next u
    ∧ u.misses = s.misses.filter (fun m => !(decide (m.core = s.grp.core) && decide (m.ctx = s.grp.ctx) && decide (m.grp = s.grp.serves)
        && decide (page64 m.va = page) && decide (m.kind = s.grp.missKind)))
    ∧ ∀ t, findGroup s.grp.serves rest = some t → findGroup t.uid u = some { t with
        walks := t.walks.filter (fun x => decide (¬same x)) ++ [{ page := page, kind := s.grp.missKind, outcome := outcome }], stall := if t.stall = .walk then .none else t.stall })
  -- the device's own access: outcome 0 with a mapping that is in the TLB needs no record of it
  ∧ (ready (privNeed [3]) s → s.grp.kind = .walker → s.grp.serves = 0 → (∀ x, findCtx s.grp.ctx s = some x → x.ending = false) →
    ∃ u, exec (.hret bt) s = .next u
    ∧ (∀ o, (∃ x ∈ u.agentWalks, x.core = s.grp.core ∧ x.ctx = s.grp.ctx ∧ same x.walked ∧ x.walked.outcome = o) ↔
        o = outcome ∧ ¬(outcome = 0 ∧ (tlbFind s s.grp.core s.grp.ctx s.grp.missVa).isSome = true)))
  ∧ (ready (privNeed []) s → ∃ u, exec (.hretEnd bt) s = .next u
    ∧ ∀ c, findCtx s.grp.ctx s = some c → c.ending = false → (∀ x, findCtx s.grp.ctx u = some x → x.ending = true)
      ∧ (∃ p ∈ u.pockets, p.ctx = s.grp.ctx ∧ p.time = s.time ∧ p.chain = capChain (chainOf s.grp s)) ∧ u.mbox.evt.getLsbD 2 = true)
  -- R339: the chain is the handler's own, and for a walker that of the handler whose access missed
  ∧ (s.grp.kind = .handler → chainOf s.grp s = s.grp.chain)
  ∧ (s.grp.kind = .walker → ∀ h, findGroup s.grp.serves s = some h → chainOf s.grp s = if h.kind = .handler then h.chain else [])

/-- R61, R305, R307, R308, R326: the words of the walker and handler slots. -/
def Obligations.PrivilegedWordsComplete : Prop := Sys2Proof.Claims.tlbWords ∧ Sys2Proof.Claims.returnWords

/-- R312, R335: `SNAP` writes a trace record of 64 bytes at the next place of its context's ring and moves TAIL; with no armed ring it does nothing,
and it never traps for its record. It waits for the translations it needs, and in the walker slot, which no walk can serve, a record whose page is
not in the TLB is dropped and counted (the model's choices, log entry 30). -/
def Sys2Proof.Claims.snapWord : Prop := ∀ (s : State) (bt : BitVec 1) (a : BitVec 6) (g : BitVec 16) (c : Context),
  findCtx s.grp.ctx s = some c →
  let n := scalarNeed [a.toNat] false
  let t := c.trace
  let walker := s.grp.kind = .walker
  let found := fun (va : Nat) => if walker then agentTranslate s s.grp.core s.grp.ctx va 1 else xlate s s.grp va 1
  let ctl := found t.base
  let place := found (t.base + 64 + 64 * (t.tail % (t.size / 64 - 1)))
  let bytes := toBytes 4 (g.toNat * 2 ^ 16 + 1) ++ traceBody s s.grp (curPc s) (getS s.grp a.toNat) ++ List.replicate 24 0
  bytes.length = 64
  ∧ (t.armed = false → Does (.snap bt a g) n s s)
  ∧ (ready n s → t.armed = true → t.suspended = false → ctl = .miss → ¬walker → exec (.snap bt a g) s = .next (walkStall t.base 1 s))
  ∧ (ready n s → t.armed = true → t.suspended = false → ctl ≠ .miss → place = .miss → ¬walker →
      exec (.snap bt a g) s = .next (walkStall (t.base + 64 + 64 * (t.tail % (t.size / 64 - 1))) 1 s))
  ∧ (t.armed = true → t.suspended = false → ctl = .miss ∨ place = .miss → walker →
      Does (.snap bt a g) n s (setTrace s.grp.ctx { t with dropped := t.dropped + 1 } s))
  ∧ (∀ p q, ready n s → t.armed = true → t.suspended = false → ctl = .ok q → place = .ok p → t.tail - t.head < t.size / 64 - 1 →
      let u := traceWrite s.grp.ctx ctl place bytes s
      (∃ x, exec (.snap bt a g) s = .next (thenStep s x) ∧ Completed u x)
      ∧ (∀ d, findCtx s.grp.ctx u = some d → d.trace = { t with tail := t.tail + 1 })
      ∧ (∀ b, (b < p ∨ p + 64 ≤ b) → (b < q + 8 ∨ q + 16 ≤ b) → homeByte u b = homeByte s b)
      ∧ ((∀ x, peerGone s x = false) → q + 16 ≤ p ∨ p + 64 ≤ q + 8 → homeBytes u p 64 = bytes ∧ homeBytes u (q + 8) 8 = toBytes 8 (t.tail + 1)))

/-- R312, R334, R335: the region stack and trace records. -/
def Obligations.RegionAndTraceWords : Prop :=
  Sys2Proof.Claims.regionWords ∧ Sys2Proof.Claims.snapWord

/-! ### Closures -/

/-- R148, R150 to R154: the words that build closures. In every active lane the closure register takes the value that R152 gives; a lane with more
lobes, nodes or layers than R153 allows traps `CLOSURE_LIMIT`, and a bad network lobe `ILLEGAL_OPERAND`. Records 4 to 15 go to the lane's window:
at the homes nothing else changes but what was in flight. -/
def Sys2Proof.Claims.closureWords : Prop :=
  ∀ (s : State) (bt : BitVec 1) (g h : BitVec 2) (y : BitVec 4) (p w n : BitVec 8),
  let ls := lanes (active s)
  let c := fun l => getG s.grp g.toNat l
  let d := fun l => getG s.grp h.toNat l
  let x := fun l => getV s.grp w.toNat l
  let par := fun l k => getV s.grp (p.toNat + k) l
  let built := fun (i : Instr) (f : Nat → Closure) (u : State) => ∃ t, exec i s = .next (thenStep s t)
    ∧ (∀ l r, l < 64 → r < 4 → getG t.grp r l = if r = g.toNat ∧ isActive s l = true then f l else getG s.grp r l)
    ∧ Completed { u with grp := { u.grp with clos := t.grp.clos } } t
  let builds := fun (i : Instr) (need : Need) (limit : Bool) (own : Nat → Option TrapReq) (f : Nat → Closure) =>
    let big := ls.filter fun l => limit && (decide ((f l).lobes.length > 16) || decide ((f l).ncount > 24) || decide ((f l).depth > 4))
    let most := fun l => if (f l).lobes.isEmpty then 0 else max (c l).lobes.length (f l).lobes.length
    let spills := memTrans s { buf := 0, idx := fun _ => 0, size := 1, kind := 1 } (spillAccs s (fun l => [(g.toNat, most l)]) ls)
    let records := fun l => ((f l).lobes.drop 4).flatMap fun k =>
      toBytes 4 (k.depth * 16 + k.type) ++ toBytes 4 k.w.toNat ++ k.params.flatMap fun p => toBytes 4 p.toNat
    let area := fun (run : List (Access × Nat)) (l p : Nat) => isActive s l = true
      ∧ (run.find? fun q => decide (q.1.lane = l) && decide (q.1.va = (ctxOf s).privBase + 18432 * sget 0 l s.grp.win + 384 * g.toNat)).map
          (fun q => q.2) = some p
    (∀ t, ready need s → ls.findSome? own = some t → exec i s = .next (takeTrap t s))
    ∧ (ready need s → ls.findSome? own = none → big ≠ [] → exec i s = .next (takeTrap { cause := cClosureLimit, mask := maskOf big } s))
    ∧ (∀ run, ready need s → ls.findSome? own = none → big = [] → spills = .go run [] →
      let u := spillStores g.toNat f run ls s
      built i f u ∧ sameIssuer s.grp u.grp
      ∧ (∀ a, inFlight s a = false → (∀ l p, area run l p → a < p ∨ p + (records l).length ≤ a) → homeByte u a = homeByte s a)
      ∧ (∀ l p, area run l p → (∀ x, peerGone s x = false) →
          (∀ l' p', area run l' p' → l' ≠ l → p' + (records l').length ≤ p ∨ p + (records l).length ≤ p') →
          atRest s → homeBytes u p (records l).length = records l))
  let none_ := fun (_ : Nat) => (none : Option TrapReq)
  -- HDR.DEPTH is the largest DEPTH of a lobe
  let of := fun (k : Closure) (ls : List Lobe) (n : Nat) => { k with lobes := ls, depth := (ls.map fun l => l.depth).foldl max 0, ncount := n }
  let weight := fun (a : Word) => min32 (max32 a 0) 0x7F7FFFFF
  let scaled := fun (ls : List Lobe) (a : Word) => ls.map fun k => { k with w := weight (fmul32 k.w (weight a)) }
  -- the attenuation of a base under a coat
  let under := fun (ls : List Lobe) (a : Word) =>
    let sum := ls.foldl (fun (q : Word × Word) k => (fadd32 q.1 k.w, fma32 k.w (lobeAlb k) q.2)) ((0 : Word), (0 : Word))
    fmul32 (fsub32 0x3F800000 (if isZero32 sum.1 then 0 else fmul32 sum.2 (rcp32 sum.1))) (min32 (max32 a 0) 0x3F800000)
  builds (.cclr bt g) (closNeed s [g.toNat] [] [] false) false none_ (fun _ => {})
  ∧ builds (.lobe bt y g p w)
      (closNeed s [g.toNat] [(p.toNat, 6), (w.toNat, 1)] [(p.toNat, lobeReads y.toNat), (w.toNat, 1)] false) true
      (netTrap y.toNat p.toNat s)
      (fun l => of (c l) ((c l).lobes ++ [lobeOf y.toNat 0 (weight (x l)) (lobeParams y.toNat (par l))]) ((c l).ncount + 1))
  ∧ builds (.lmix bt g h w) (closNeed s [g.toNat, h.toNat] [(w.toNat, 1)] [(w.toNat, 1)] false) true none_
      (fun l => of (c l) ((c l).lobes ++ scaled (d l).lobes (x l)) ((c l).ncount + (d l).ncount + 1))
  ∧ builds (.layer bt g h w) (closNeed s [g.toNat, h.toNat] [(w.toNat, 1)] [(w.toNat, 1)] false) true none_
      (fun l => of (c l) (((c l).lobes.map fun k => { k with w := fmul32 k.w (under (d l).lobes (x l)), depth := k.depth + 1 }) ++ (d l).lobes)
        ((c l).ncount + (d l).ncount + 1))
  ∧ builds (.lscl bt g w) (closNeed s [g.toNat] [(w.toNat, 1)] [(w.toNat, 1)] false) false none_
      (fun l => of (c l) (scaled (c l).lobes (x l)) (c l).ncount)
  ∧ (ready (closNeed s [g.toNat] [(n.toNat, 9)] [(n.toNat, 9)] false) s → built (.frame bt g n)
      (fun l => (c l).withFrame (frameOf (v3At s n.toNat l) (v3At s (n.toNat + 3) l) (v3At s (n.toNat + 6) l))) s)

/-- R160 to R162: `SAMP`, `EVAL` and `PDF` are in flight with each active lane's result, which reads the networks of its mixture through `B26`.
Registers are as before, and so is every byte of memory but those already in flight. -/
def Sys2Proof.Claims.mixtureWords : Prop := ∀ (s : State) (bt : BitVec 1) (g : BitVec 2) (d u : BitVec 8) (run spill : List (Access × Nat)),
  let ls := lanes (active s)
  let c := fun l => getG s.grp g.toNat l
  let w := fun l => v3At s u.toNat l
  let o : MemOp := { buf := 26, idx := fun _ => 0, size := 2, kind := 0 }
  let draw := fun l => sampDraw (c l) (getV s.grp u.toNat l) (getV s.grp (u.toNat + 1) l) (getV s.grp (u.toNat + 2) l)
  let mixes := fun (i : Instr) (dw : Nat) (dir : Nat → Option V3) (res : (Word → List Word) → Nat → List Word) =>
    let as := ls.flatMap fun l => (netOffsets (c l) (dir l)).flatMap (netAccs s l)
    let r := mixRun g.toNat d.toNat dir res ls (sampled .mem (run.filter fun p => ls.contains p.1.lane) s)
    ready (closNeed s [g.toNat] [(u.toNat, 3), (d.toNat, dw)] [(u.toNat, 3), (d.toNat, dw)] true) s → anySpec s = false → runMeets s 2 run = false →
    memTraps s o ls as = none →
    memTrans s { buf := 0, idx := fun _ => 0, size := 1, kind := 0 } (spillAccs s (fun l => [(g.toNat, (c l).lobes.length)]) ls) = .go spill [] →
    memTrans s o (as.filter fun a => a.inb) = .go run [] →
    (∃ t, exec i s = .next (thenStep s t) ∧ Completed (launchOp (plainRegs dw d.toNat) r.1 [] r.2) t)
    ∧ sameIssuer s.grp r.2.grp ∧ (∀ a, inFlight s a = false → homeByte r.2 a = homeByte s a)
  mixes (.samp bt g d u) 8
    (fun l => match draw l with
      | .dir _ w => some w
      | _ => none)
    (fun net l => sampWords net (c l) (draw l))
  ∧ mixes (.eval bt g d u) 4 (fun l => some (w l))
      (fun net l => [(mixEval net (c l) (w l)).r, (mixEval net (c l) (w l)).g, (mixEval net (c l) (w l)).b, (mixEval net (c l) (w l)).p])
  ∧ mixes (.pdf bt g d u) 1 (fun _ => none) (fun _ l => [mixPdf (c l) (w l)])

/-- R150: the parameters that `LOBE` stores for each type, and the registers that the type reads. -/
def Sys2Proof.Claims.lobeParameters : Prop := ∀ p : Nat → Word,
  let clamp := fun (k : Nat) (lo hi : Word) => min32 (max32 (p k) lo) hi
  let u := fun k => clamp k 0 0x3F800000
  let a := fun k => clamp k 0x3C000000 0x3F800000
  let f := fun k => clamp k 0xFE800000 0x7E800000
  lobeParams 0 p = [u 0, u 1, u 2, 0, 0, 0] ∧ lobeParams 1 p = [u 0, u 1, u 2, a 3, a 4, 0]
  ∧ lobeParams 2 p = [clamp 0 0x3E800000 0x40800000, u 1, u 2, u 3, a 4, 0] ∧ lobeParams 3 p = [u 0, u 1, u 2, a 3, 0, 0]
  ∧ lobeParams 4 p = [p 0, p 1, a 2, a 3, f 4, f 5]
  ∧ (List.range 5).map lobeReads = [3, 5, 5, 4, 6] ∧ (netBad 4 p = true ↔ (p 0).toNat % 2 = 1 ∨ 1 < (p 1).toNat)

/-- R146, R147, R164: the image of a closure is 544 bytes: the frame, the header, and sixteen records of 32 bytes, those past its lobes zero. A
legal closure's image is that closure; one that fails a check of R164, in whatever record, is the empty closure with a zero frame. -/
def Sys2Proof.Claims.imagesReadBack : Prop := ∀ (c : Closure) (bs : List Byte) (j : Nat),
  let at_ := fun (k : Nat) => wordOf (((closureImage c).drop k).take 4)
  let w := fun (k : Nat) => wordOf ((bs.drop (32 + 32 * j + 4 * k)).take 4)
  let legal := c.lobes.length ≤ 16 ∧ c.ncount ≤ 24 ∧ c.depth ≤ 4
    ∧ ∀ l ∈ c.lobes, l.type ≤ 4 ∧ l.depth ≤ 4 ∧ badWeight l.w = false ∧ badParams l = false
  (legal → (closureImage c).length = 544 ∧ closureOfImage (closureImage c) = c
    ∧ at_ 0 = c.nx ∧ at_ 12 = c.theta ∧ at_ 24 = c.oz
    ∧ (at_ 28).toNat = c.lobes.length + 2 ^ 5 * c.ncount + 2 ^ 10 * c.depth + (if c.fvalid then 2 ^ 13 else 0)
    ∧ (∀ k l, c.lobes[k]? = some l → (at_ (32 + 32 * k)).toNat = l.type + 16 * l.depth ∧ at_ (36 + 32 * k) = l.w ∧ at_ (40 + 32 * k) = l.p0)
    ∧ (∀ k, c.lobes.length ≤ k → k < 16 → at_ (32 + 32 * k) = 0))
  ∧ (j < 16 → (bitsOf (w 0) 31 7 ≠ 0 ∨ 4 < bitsOf (w 0) 3 0 ∨ 4 < bitsOf (w 0) 6 4 ∨ isNan32 (w 1) = true ∨ isInf32 (w 1) = true) →
      closureOfImage bs = {})
  ∧ (bitsOf (wordOf ((bs.drop 28).take 4)) 31 14 ≠ 0 ∨ 16 < bitsOf (wordOf ((bs.drop 28).take 4)) 4 0
      ∨ 24 < bitsOf (wordOf ((bs.drop 28).take 4)) 9 5 ∨ 4 < bitsOf (wordOf ((bs.drop 28).take 4)) 12 10 → closureOfImage bs = {})

/-- R164: a closure's image is stored by `CSAVE`, 544 bytes a lane, and `CLOAD` is in flight with the closures of the images that it read. -/
def Sys2Proof.Claims.imageWords : Prop := ∀ (s : State) (bt : BitVec 1) (g : BitVec 2) (n : BitVec 5) (x : BitVec 8) (run spill : List (Access × Nat)),
  let ls := lanes (active s)
  let pl := placeOf s.grp n.toNat
  let o : MemOp := { buf := n.toNat, idx := fun _ => BitVec.ofNat 32 x.toNat, size := 32, kind := 1, stores := true, watch := [1] }
  let oL : MemOp := { buf := n.toNat, idx := fun _ => BitVec.ofNat 32 x.toNat, size := 32, kind := 0, watch := [0] }
  let s' := sampled pl run s
  let as := ls.map fun l => accOf (bufOf s n.toNat l) 544 0 l (getV s.grp x.toNat l)
  let pieces := (as.filter fun a => a.inb).flatMap imagePieces
  let spills := fun (kind : Nat) (f : Nat → Nat) => memTrans s { buf := 0, idx := fun _ => 0, size := 1, kind := kind }
    (spillAccs s (fun l => [(g.toNat, f l)]) ls)
  let bytes := fun (a : Access) =>
    ((closureImage (getG s.grp g.toNat a.lane)).drop (a.off - (accOf (bufOf s n.toNat a.lane) 544 0 a.lane (getV s.grp x.toNat a.lane)).off).toNat).take 32
  (ready (imageNeed s g.toNat n.toNat x.toNat false) s → memTraps s o ls as = none → memTrans s o pieces = .go run [] →
    anySpec s = false → runMeets s 32 run = false → spills 0 (fun l => (getG s.grp g.toNat l).lobes.length) = .go spill [] →
    let u := run.foldl (fun t p => laneStore pl (scopeOf s n.toNat) (evcOf s) p.1.lane p.2 (bytes p.1) t) s'
    (∃ t, exec (.csave bt g n x) s = .next (thenStep s t) ∧ Completed u t)
    ∧ sameIssuer s.grp u.grp ∧ (∀ a, inFlight s a = false → ¬covered pl 32 run a → homeByte u a = homeByte s a))
  ∧ (ready (imageNeed s g.toNat n.toNat x.toNat true) s → memTraps s oL ls as = none → memTrans s oL pieces = .go run [] →
    anySpec s = false → runMeets s 32 run = false →
    let r := imageRun pl (scopeOf s n.toNat) (evcOf s) run s'
    let f := fun l => closureOfImage ((r.1.filter fun p => decide (p.1 = l)).flatMap fun p => p.2)
    spills 1 (fun l => (f l).lobes.length) = .go spill [] →
    let u := spillStores g.toNat f spill ls r.2
    (∃ t, exec (.cload bt g n x) s = .next (thenStep s t) ∧ Completed (launchOp [.g g.toNat] [] (ls.map fun l => (g.toNat, l, f l)) u) t)
    ∧ sameIssuer s.grp u.grp
    ∧ (∀ a, inFlight s a = false → (∀ p ∈ spill, ¬(p.2 ≤ a ∧ a < p.2 + 384)) → homeByte u a = homeByte s a))

/-- R154: the frame that `FRAME` stores. A normal or an outgoing direction whose squared length is 0, infinite or not a number clears it, and the
lobes and counts stay. -/
def Sys2Proof.Claims.frameValues : Prop := ∀ (N T W : V3) (c : Closure),
  let dot := fun (a b : V3) => fma32 a.z b.z (fma32 a.y b.y (fmul32 a.x b.x))
  let times := fun (a : V3) (k : Word) => (⟨fmul32 a.x k, fmul32 a.y k, fmul32 a.z k⟩ : V3)
  let bad := fun (l : Word) => isZero32 l = true ∨ isInf32 l = true ∨ isNan32 l = true
  let minus := fun (x : Word) => x ^^^ 0x80000000
  let n := times N (rsqrt32 (dot N N))
  let sg : Word := if n.z.getLsbD 31 then 0xBF800000 else 0x3F800000
  let a := minus (rcp32 (fadd32 sg n.z))
  let bb := fmul32 (fmul32 n.x n.y) a
  let e1 : V3 := ⟨fma32 (fmul32 (fmul32 sg n.x) n.x) a 0x3F800000, fmul32 sg bb, minus (fmul32 sg n.x)⟩
  let e2 : V3 := ⟨bb, fma32 (fmul32 n.y n.y) a sg, minus n.y⟩
  let th := atan2pi (dot T e2) (dot T e1)
  let cs := cospi32 th
  let sn := sinpi32 th
  let t : V3 := ⟨fma32 sn e2.x (fmul32 cs e1.x), fma32 sn e2.y (fmul32 cs e1.y), fma32 sn e2.z (fmul32 cs e1.z)⟩
  let b : V3 := ⟨fma32 cs e2.x (minus (fmul32 sn e1.x)), fma32 cs e2.y (minus (fmul32 sn e1.y)), fma32 cs e2.z (minus (fmul32 sn e1.z))⟩
  let h := rsqrt32 (dot W W)
  let clear := { c with nx := 0, ny := 0, nz := 0, theta := 0, ox := 0, oy := 0, oz := 0, fvalid := false }
  frameBasis n th = (t, b)
  ∧ (bad (dot N N) ∨ bad (dot W W) → c.withFrame (frameOf N T W) = clear)
  ∧ (¬bad (dot N N) → ¬bad (dot W W) → c.withFrame (frameOf N T W) = { c with
      nx := n.x, ny := n.y, nz := n.z, theta := th, fvalid := true
      ox := fmul32 (dot W t) h, oy := fmul32 (dot W b) h, oz := fmul32 (dot W n) h })

/-- R161, R162: the value of a mixture is the weighted sum over its lobes in their order, over the sum of the weights; `PDF` gives the pdf of
`EVAL`. `SAMP` takes the first lobe whose threshold exceeds the draw, and writes the value and pdf that `EVAL` gives at the direction it writes. -/
def Sys2Proof.Claims.mixtureValues : Prop := ∀ (net : Word → List Word) (c : Closure) (w i : V3) (q0 q1 qs : Word),
  let dot := fun (a b : V3) => fma32 a.z b.z (fma32 a.y b.y (fmul32 a.x b.x))
  let zero : LobeVal := ⟨0, 0, 0, 0⟩
  let basis := frameBasis ⟨c.nx, c.ny, c.nz⟩ c.theta
  let l := dot w w
  let empty := c.fvalid = false ∨ c.lobes = []
  let at_ : V3 := ⟨fmul32 (dot w basis.1) (rsqrt32 l), fmul32 (dot w basis.2) (rsqrt32 l), fmul32 (dot w ⟨c.nx, c.ny, c.nz⟩) (rsqrt32 l)⟩
  let f := fun (k : Lobe) => lobeEval net k ⟨c.ox, c.oy, c.oz⟩ at_
  let total := fun (ls : List Lobe) => ls.foldl (fun (a : Word) k => fadd32 a k.w) 0
  let sum := fun (v : LobeVal → Word) => c.lobes.foldl (fun (a : Word) k => fma32 k.w (v (f k)) a) 0
  let q := rcp32 (total c.lobes)
  let clamped := fun (x : Word) => min32 (max32 x 0) 0x3F7FFFFF
  let edge := fun (j : Nat) => fmul32 (total (c.lobes.take (j + 1))) q
  let picks := fun (k : Nat) => k < c.lobes.length ∧ (∀ j, j < k → lt32 (clamped qs) (edge j) = false)
    ∧ (lt32 (clamped qs) (edge k) = true ∨ k + 1 = c.lobes.length)
  (empty ∨ isZero32 l = true ∨ isInf32 l = true ∨ isNan32 l = true → mixEval net c w = zero)
  ∧ (¬empty → ¬(isZero32 l = true ∨ isInf32 l = true ∨ isNan32 l = true) → mixEval net c w =
      if isZero32 (total c.lobes) then zero
      else ⟨fmul32 (sum fun v => v.r) q, fmul32 (sum fun v => v.g) q, fmul32 (sum fun v => v.b) q, fmul32 (sum fun v => v.p) q⟩)
  ∧ mixPdf c w = (mixEval net c w).p
  ∧ (empty ∨ isZero32 (total c.lobes) = true → sampWords net c (sampDraw c q0 q1 qs) = [0, 0, 0, 0, 0, 0, 0, 0xFFFFFFFF])
  ∧ (¬empty → isZero32 (total c.lobes) = false → ∃ k, picks k
      ∧ ((∃ d, sampDraw c q0 q1 qs = .dir k d ∧ sampWords net c (.dir k d) = [d.x, d.y, d.z, (mixEval net c d).r, (mixEval net c d).g,
            (mixEval net c d).b, (mixEval net c d).p, BitVec.ofNat 32 k])
        ∨ sampDraw c q0 q1 qs = .failed k ∧ sampWords net c (.failed k) = [0, 0, 0, 0, 0, 0, 0, BitVec.ofNat 32 (k + 0x80000000)]))
  -- R156: a MATT lobe
  ∧ (∀ k : Lobe, k.type = 0 →
      let o : V3 := ⟨c.ox, c.oy, c.oz⟩
      let value := fun (p : Word) => fmul32 (fmul32 p 0x3EA2F983) i.z
      (le32 i.z 0 = true ∨ le32 o.z 0 = true → lobeEval net k o i = zero)
      ∧ (le32 i.z 0 = false → le32 o.z 0 = false → lobeEval net k o i = ⟨value k.p0, value k.p1, value k.p2, fmul32 i.z 0x3EA2F983⟩)
      ∧ (le32 o.z 0 = true → lobeSample k o q0 q1 qs = none)
      ∧ (le32 o.z 0 = false → lobeSample k o q0 q1 qs = some ⟨fmul32 (sqrt32 q0) (cospi32 (fadd32 q1 q1)), fmul32 (sqrt32 q0) (sinpi32 (fadd32 q1 q1)),
          sqrt32 (max32 0 (fsub32 0x3F800000 q0))⟩))

/-- R155, R157: the value and the sample of a GLOSS lobe. -/
def Sys2Proof.Claims.glossLobes : Prop := ∀ (net : Word → List Word) (k : Lobe) (o i : V3) (q0 q1 q' : Word), k.type = 1 →
  let one : Word := 0x3F800000
  let dot := fun (a b : V3) => fma32 a.z b.z (fma32 a.y b.y (fmul32 a.x b.x))
  let times := fun (a : V3) (x : Word) => (⟨fmul32 a.x x, fmul32 a.y x, fmul32 a.z x⟩ : V3)
  let unit := fun (a : V3) => times a (rsqrt32 (dot a a))
  let minus := fun (x : Word) => x ^^^ 0x80000000
  let rejects := le32 i.z 0 = true ∨ le32 o.z 0 = true
  let h := unit ⟨fadd32 o.x i.x, fadd32 o.y i.y, fadd32 o.z i.z⟩
  let sx := fmul32 h.x (rcp32 k.p3)
  let sy := fmul32 h.y (rcp32 k.p4)
  let e := fma32 h.z h.z (fma32 sy sy (fmul32 sx sx))
  let D := rcp32 (fmul32 (fmul32 (fmul32 0x40490FDB k.p3) k.p4) (fmul32 e e))
  let lam := fun (v : V3) => fmul32 (fsub32 (sqrt32 (fadd32 one (fmul32 (fma32 (fmul32 k.p4 v.y) (fmul32 k.p4 v.y)
    (fmul32 (fmul32 k.p3 v.x) (fmul32 k.p3 v.x))) (rcp32 (fmul32 v.z v.z))))) one) 0x3F000000
  let G2 := rcp32 (fadd32 (fadd32 one (lam o)) (lam i))
  let m := fsub32 one (max32 0 (dot o h))
  let m5 := fmul32 (fmul32 (fmul32 m m) (fmul32 m m)) m
  let per := rcp32 (fmul32 0x40800000 o.z)
  let f := fun (p : Word) => fmul32 (fma32 (fsub32 one p) m5 p) (fmul32 (fmul32 D G2) per)
  let v := unit ⟨fmul32 k.p3 o.x, fmul32 k.p4 o.y, o.z⟩
  let l := fma32 v.y v.y (fmul32 v.x v.x)
  let t1 : V3 := if lt32 0 l then ⟨minus (fmul32 v.y (rsqrt32 l)), fmul32 v.x (rsqrt32 l), 0⟩ else ⟨one, 0, 0⟩
  let t2 : V3 := ⟨fsub32 (fmul32 v.y t1.z) (fmul32 v.z t1.y), fsub32 (fmul32 v.z t1.x) (fmul32 v.x t1.z), fsub32 (fmul32 v.x t1.y) (fmul32 v.y t1.x)⟩
  let a1 := fmul32 (sqrt32 q0) (cospi32 (fadd32 q1 q1))
  let c := fmul32 (fadd32 one v.z) 0x3F000000
  let a2 := fma32 c (fmul32 (sqrt32 q0) (sinpi32 (fadd32 q1 q1))) (fmul32 (fsub32 one c) (sqrt32 (max32 0 (fsub32 one (fmul32 a1 a1)))))
  let a3 := sqrt32 (max32 0 (fsub32 (fsub32 one (fmul32 a1 a1)) (fmul32 a2 a2)))
  let nn := fun (vc tc uc : Word) => fma32 a3 vc (fma32 a2 uc (fmul32 a1 tc))
  let n := unit ⟨fmul32 k.p3 (nn v.x t1.x t2.x), fmul32 k.p4 (nn v.y t1.y t2.y), max32 0 (nn v.z t1.z t2.z)⟩
  let d := fadd32 (dot o n) (dot o n)
  let w : V3 := ⟨fma32 d n.x (minus o.x), fma32 d n.y (minus o.y), fma32 d n.z (minus o.z)⟩
  let fails := le32 o.z 0 = true ∨ le32 w.z 0 = true ∨ isNan32 w.x = true ∨ isNan32 w.y = true ∨ isNan32 w.z = true
  (rejects → lobeEval net k o i = ⟨0, 0, 0, 0⟩)
  ∧ (¬rejects → lobeEval net k o i = ⟨f k.p0, f k.p1, f k.p2, fmul32 (fmul32 D (rcp32 (fadd32 one (lam o)))) per⟩)
  ∧ (fails → lobeSample k o q0 q1 q' = none) ∧ (¬fails → lobeSample k o q0 q1 q' = some w)

/-- R155, R158: the value and the sample of a CLEAR lobe. Its microfacet normals are those of a GLOSS lobe with α on both axes, and so is a
reflection. A refraction whose `i.z` is not a number succeeds, which is the model's choice (log entry 102). -/
def Sys2Proof.Claims.clearLobes : Prop := ∀ (net : Word → List Word) (k : Lobe) (o i : V3) (q0 q1 q' : Word), k.type = 2 →
  let one : Word := 0x3F800000
  let dot := fun (a b : V3) => fma32 a.z b.z (fma32 a.y b.y (fmul32 a.x b.x))
  let times := fun (a : V3) (x : Word) => (⟨fmul32 a.x x, fmul32 a.y x, fmul32 a.z x⟩ : V3)
  let unit := fun (a : V3) => times a (rsqrt32 (dot a a))
  let minus := fun (x : Word) => x ^^^ 0x80000000
  let mirror := fun (a : V3) => (⟨a.x, a.y, minus a.z⟩ : V3)
  let zero := fun (x : Word) => isZero32 x = true
  let down := lt32 o.z 0 = true
  let n := k.p0
  let al := k.p4
  let D := fun (h : V3) =>
    let e := fma32 h.z h.z (fma32 (fmul32 h.y (rcp32 al)) (fmul32 h.y (rcp32 al)) (fmul32 (fmul32 h.x (rcp32 al)) (fmul32 h.x (rcp32 al))))
    rcp32 (fmul32 (fmul32 (fmul32 0x40490FDB al) al) (fmul32 e e))
  let lam := fun (v : V3) => fmul32 (fsub32 (sqrt32 (fadd32 one (fmul32 (fma32 (fmul32 al v.y) (fmul32 al v.y)
    (fmul32 (fmul32 al v.x) (fmul32 al v.x))) (rcp32 (fmul32 v.z v.z))))) one) 0x3F000000
  let G2 := rcp32 (fadd32 (fadd32 one (lam o)) (lam i))
  let sq := fun (x : Word) => fmul32 x x
  let g2 := fun (c : Word) => fadd32 (fma32 n n (minus one)) (fmul32 c c)
  let Fd := fun (c : Word) =>
    let g := sqrt32 (g2 c)
    if lt32 (g2 c) 0 then one
    else fmul32 (fmul32 0x3F000000 (sq (fmul32 (fsub32 g c) (rcp32 (fadd32 g c)))))
      (fadd32 one (sq (fmul32 (fsub32 (fmul32 c (fadd32 g c)) one) (rcp32 (fadd32 (fmul32 c (fsub32 g c)) one)))))
  let h := unit ⟨fadd32 o.x i.x, fadd32 o.y i.y, fadd32 o.z i.z⟩
  let F := Fd (dot o h)
  let per := rcp32 (fmul32 0x40800000 o.z)
  let v := fmul32 F (fmul32 (fmul32 (D h) G2) per)
  let part := fun (a b : Word) => minus (fadd32 a (fmul32 n b))
  let h0 := unit ⟨part o.x i.x, part o.y i.y, part o.z i.z⟩
  let ht : V3 := if lt32 h0.z 0 then ⟨minus h0.x, minus h0.y, minus h0.z⟩ else h0
  let co := dot o ht
  let ci := dot i ht
  let mag := fun (x : Word) => x &&& 0x7FFFFFFF
  let J := fmul32 (fmul32 (fmul32 n n) (mag ci)) (rcp32 (sq (fadd32 co (fmul32 n ci))))
  let through := fun (x : Word) => fmul32 (fmul32 (fmul32 (D ht) x) (mag co)) (rcp32 o.z)
  let T := fsub32 one (Fd co)
  let f := fun (t : Word) => fmul32 (fmul32 (fmul32 t T) (through G2)) J
  -- the lobe turned over
  let k' := { k with p0 := rcp32 n }
  let gloss := { k with type := 1, p3 := al, p4 := al }
  let m := ggxNormal al al o q0 q1
  let c := dot o m
  let kr := fsub32 (fmul32 c (rcp32 n)) (sqrt32 (fsub32 one (fmul32 (fsub32 one (fmul32 c c)) (rcp32 (fmul32 n n)))))
  let turn := fun (mc oc : Word) => fsub32 (fmul32 kr mc) (fmul32 oc (rcp32 n))
  let w : V3 := ⟨turn m.x o.x, turn m.y o.y, turn m.z o.z⟩
  (zero o.z ∨ zero i.z → lobeEval net k o i = ⟨0, 0, 0, 0⟩)
  ∧ (down → ¬zero i.z → lobeEval net k o i = lobeEval net k' (mirror o) (mirror i))
  ∧ (down → lobeSample k o q0 q1 q' = (lobeSample k' (mirror o) q0 q1 q').map mirror)
  ∧ (¬zero o.z → ¬down → lt32 0 i.z = true → lobeEval net k o i = ⟨v, v, v, fmul32 F (fmul32 (fmul32 (D h) (rcp32 (fadd32 one (lam o)))) per)⟩)
  ∧ (¬zero o.z → ¬down → ¬zero i.z → lt32 0 i.z = false →
      (le32 co 0 = true ∨ le32 0 ci = true → lobeEval net k o i = ⟨0, 0, 0, 0⟩)
      ∧ (le32 co 0 = false → le32 0 ci = false → lobeEval net k o i =
          ⟨f k.p1, f k.p2, f k.p3, fmul32 (fmul32 T (through (rcp32 (fadd32 one (lam o))))) J⟩))
  ∧ (zero o.z → lobeSample k o q0 q1 q' = none)
  ∧ (le32 o.z 0 = false → lt32 q' (Fd c) = true → lobeSample k o q0 q1 q' = lobeSample gloss o q0 q1 q')
  ∧ (le32 o.z 0 = false → lt32 q' (Fd c) = false →
      (lt32 0 w.z = true ∨ zero w.z → lobeSample k o q0 q1 q' = none)
      ∧ (lt32 0 w.z = false → ¬zero w.z → lobeSample k o q0 q1 q' = some w))

/-- R155, R156, R159, R160: the value and the sample of a SHEEN and of a NET lobe. SHEEN is sampled like MATT and has its pdf; NET has the sample and
the pdf of its proxy, and its network reads its weights in their order. -/
def Sys2Proof.Claims.sheenAndNetLobes : Prop := ∀ (net : Word → List Word) (k : Lobe) (o i : V3) (q0 q1 q' : Word),
  let one : Word := 0x3F800000
  let dot := fun (a b : V3) => fma32 a.z b.z (fma32 a.y b.y (fmul32 a.x b.x))
  let rejects := le32 i.z 0 = true ∨ le32 o.z 0 = true
  let matt := { k with type := 0, p0 := one, p1 := one, p2 := one }
  let gloss := { k with type := 1, p0 := one, p1 := one, p2 := one, p3 := k.p2, p4 := k.p3 }
  let proxy := if k.p1 = 0 then matt else gloss
  let hv : V3 := ⟨fadd32 o.x i.x, fadd32 o.y i.y, fadd32 o.z i.z⟩
  let hz := fmul32 hv.z (rsqrt32 (dot hv hv))
  let st := sqrt32 (max32 0 (fsub32 one (fmul32 hz hz)))
  let D := fmul32 (fmul32 (fadd32 0x40000000 (rcp32 k.p3)) (exp2_32 (fmul32 (rcp32 k.p3) (log2_32 st)))) 0x3E22F983
  let V := rcp32 (fmul32 0x40800000 (fsub32 (fadd32 i.z o.z) (fmul32 i.z o.z)))
  let f := fun (p : Word) => fmul32 (fmul32 (fmul32 p D) V) i.z
  let w := fun (j : Nat) => (net k.p0).getD j 0
  let row := fun (at_ n : Nat) (bias : Word) (xs : List Word) => (List.range n).foldl (fun (a : Word) j => fma32 (w (at_ + j)) (xs.getD j 0) a) bias
  let x := [i.x, i.y, i.z, o.x, o.y, o.z, k.p4, k.p5]
  let z1 := (List.range 32).map fun j => max32 0 (row (8 * j) 8 (w (256 + j)) x)
  let z2 := (List.range 32).map fun j => max32 0 (row (288 + 32 * j) 32 (w (1312 + j)) z1)
  let y := fun (j : Nat) => fmul32 (max32 0 (row (1344 + 32 * j) 32 (w (1440 + j)) z2)) i.z
  (k.type = 3 →
    (rejects → lobeEval net k o i = ⟨0, 0, 0, 0⟩) ∧ (¬rejects → lobeEval net k o i = ⟨f k.p0, f k.p1, f k.p2, fmul32 i.z 0x3EA2F983⟩)
    ∧ lobeSample k o q0 q1 q' = lobeSample matt o q0 q1 q')
  ∧ (k.type = 4 →
    (rejects → lobeEval net k o i = ⟨0, 0, 0, 0⟩) ∧ (¬rejects → lobeEval net k o i = ⟨y 0, y 1, y 2, (lobeEval net proxy o i).p⟩)
    ∧ lobePdf k o i = (lobeEval net proxy o i).p ∧ lobeSample k o q0 q1 q' = lobeSample proxy o q0 q1 q')

/-- R154 to R164: the closure words that read a mixture or move an image, and the values of frames, lobes and mixtures. -/
def Sys2Proof.Claims.mixtureAndImageWords : Prop :=
  Sys2Proof.Claims.mixtureWords ∧ Sys2Proof.Claims.imageWords ∧ Sys2Proof.Claims.lobeParameters ∧ Sys2Proof.Claims.imagesReadBack
  ∧ Sys2Proof.Claims.frameValues ∧ Sys2Proof.Claims.mixtureValues ∧ Sys2Proof.Claims.glossLobes ∧ Sys2Proof.Claims.clearLobes
  ∧ Sys2Proof.Claims.sheenAndNetLobes

/-- R150 to R164: the closure words. -/
def Obligations.ClosureAndMixtureWords : Prop :=
  Sys2Proof.Claims.closureWords ∧ Sys2Proof.Claims.mixtureAndImageWords

/-! ### Rays, tiles of visibility, queues -/

/-- R167: a triangle is hit at the exact point where the ray meets it inside its range, and only there; of two hits the one with the least t is
kept, then the lower instance and primitive. A ray that is not valid, and a record too short for the header, give the words of R167. -/
def Sys2Proof.Claims.exactHits : Prop := ∀ (s : State) (r : Ray) (v0 v1 v2 : V3) (prim inst : Nat) (h k : RHit) (T U V D : Int) (any : Bool)
    (b : BufRec) (ws : List Word),
  let o := ivOf r.o
  let d := ivOf r.d
  let p0 := ivOf v0
  let p1 := ivOf v1
  let p2 := ivOf v2
  let finite := ∀ v ∈ [v0, v1, v2, r.o, r.d], finite32 v.x = true ∧ finite32 v.y = true ∧ finite32 v.z = true
  -- the point at T/D on the ray is the one with weights U/D of v1 and V/D of v2
  let meets := fun (t u v den : Int) => ∀ f ∈ [IV.x, IV.y, IV.z], den * (f o - f p0) + t * f d = u * (f p1 - f p0) + v * (f p2 - f p0)
  let inside := fun (t u v den : Int) => 0 < den ∧ meets t u v den ∧ 0 ≤ u ∧ 0 ≤ v ∧ u + v ≤ den
    ∧ (extOf r.tmin).le (.fin t den.toNat) = true ∧ (Ext.fin t den.toNat).le (extOf r.tmax) = true
  let det := (p1.sub p0).dot (d.cross (p2.sub p0))
  let before := fun (x y : RHit) => x.t * y.den < y.t * x.den ∨ (x.t * y.den = y.t * x.den ∧ (x.inst < y.inst ∨ (x.inst = y.inst ∧ x.prim ≤ y.prim)))
  let w := fun j => ws.getD j 0
  let ray : Ray := { o := ⟨w 0, w 1, w 2⟩, tmin := w 3, d := ⟨w 4, w 5, w 6⟩, tmax := w 7 }
  (triHit r v0 v1 v2 prim inst = some h → finite ∧ det ≠ 0 ∧ inside h.t h.u h.v h.den ∧ h.prim = prim ∧ h.inst = inst)
  ∧ (finite → det ≠ 0 → inside T U V D → (triHit r v0 v1 v2 prim inst).isSome = true)
  ∧ (betterHit h k = h ∨ betterHit h k = k) ∧ before (betterHit h k) h ∧ before (betterHit h k) k
  ∧ (invalidRay r = true ↔ ¬(∀ v ∈ [r.o, r.d], finite32 v.x = true ∧ finite32 v.y = true ∧ finite32 v.z = true)
      ∨ (isZero32 r.d.x = true ∧ isZero32 r.d.y = true ∧ isZero32 r.d.z = true) ∨ isNan32 r.tmin = true ∨ isNan32 r.tmax = true ∨ lt32 r.tmax r.tmin = true)
  ∧ (invalidRay ray = true → walkRay s s.grp.core s.grp.ctx none any b ws = .ok ([0x7FC00000, 0, 0, 0xFFFFFFFE, 0], []))
  ∧ (invalidRay ray = false → b.limit < 32 → walkRay s s.grp.core s.grp.ctx none any b ws = .ok ([0x7FC00000, 0, 0, 0xFFFFFFFD, 0], []))

/-- R166, R167: what a walk through boxes, leaves and instances answers when no read of it waits for a translation. `TRACE` answers a structure error
if some place that it visits has one; else the hit before which no triangle that the ray reaches comes, or a miss when it reaches none. `TRACEP`
answers a triangle that the ray reaches, a miss only when it reaches none in a structure without errors, and an error only where there is one. With
values that are not finite a box is not met and a triangle not hit, which is the model's choice (log entry 101). -/
def Sys2Proof.Claims.walkAnswers : Prop := ∀ (s : State) (b : BufRec) (ws : List Word) (hb : List Byte) (rs : List Word) (reads : List (Nat × Nat)),
  let w := fun j => ws.getD j 0
  let ray : Ray := { o := ⟨w 0, w 1, w 2⟩, tmin := w 3, d := ⟨w 4, w 5, w 6⟩, tmax := w 7 }
  let rd := recRead s s.grp.core s.grp.ctx none b
  let h : AccHdr := { node := natAt hb 0, tri := natAt hb 4, inst := natAt hb 8, root := natAt hb 12 }
  let walk := fun (any : Bool) => walkRay s s.grp.core s.grp.ctx none any b ws
  let before := fun (x y : RHit) => x.t * y.den < y.t * x.den ∨ (x.t * y.den = y.t * x.den ∧ (x.inst < y.inst ∨ (x.inst = y.inst ∧ x.prim ≤ y.prim)))
  let isError := rs = [0x7FC00000, 0, 0, 0xFFFFFFFD, 0]
  let isMiss := rs = [0x7F800000, 0, 0, 0xFFFFFFFF, 0xFFFFFFFF]
  let isHit := fun (k : RHit) => rs = [frac32 k.t k.den, frac32 k.u k.den, frac32 k.v k.den, BitVec.ofNat 32 k.prim, BitVec.ofNat 32 k.inst]
  let reached := Reaches rd h none ray h.root
  let broken := Broken rd h 64 none ray h.root
  invalidRay ray = false → rd 0 32 = .ok hb →
    (walk false = .ok (rs, reads) →
      (broken ∧ isError) ∨ (¬broken ∧ (∀ k, ¬reached k) ∧ isMiss) ∨ (¬broken ∧ ∃ k, reached k ∧ isHit k ∧ ∀ j, reached j → before k j))
    ∧ (walk true = .ok (rs, reads) →
      (broken ∧ isError) ∨ (¬broken ∧ (∀ k, ¬reached k) ∧ isMiss) ∨ (∃ k, reached k ∧ isHit k))

/-- R169, R170: exactly one of two triangles claims the samples of an edge that they share in opposite directions; a record that is skipped covers
nothing; and a sample shows the least depth, of equal ones the earlier record. -/
def Sys2Proof.Claims.tileSamples : Prop := ∀ (rs : List VRec) (r : VRec) (px py ax ay bx bY : Int) (z v : Word),
  let area := edgeFn (r.x.getD 0 0) (r.y.getD 0 0) (r.x.getD 1 0) (r.y.getD 1 0) (r.x.getD 2 0) (r.y.getD 2 0)
  edgeFn ax ay bx bY px py = (bx - ax) * (py - ay) - (bY - ay) * (px - ax)
  ∧ edgeFn ax ay bx bY px py = -edgeFn bx bY ax ay px py
  ∧ (¬(ax = bx ∧ ay = bY) → claims ax ay bx bY = !claims bx bY ax ay)
  ∧ (r.vis = 0xFFFFFFFF ∨ area = 0 ∨ (∃ c ∈ r.x ++ r.y, 2 ^ 23 ≤ c.natAbs) → visDepth r px py = none)
  ∧ (visPixel rs px py = none ↔ ∀ q ∈ rs, visDepth q px py = none)
  ∧ (visPixel rs px py = some (z, v) → ∃ pre q post, rs = pre ++ q :: post ∧ q.vis = v ∧ visDepth q px py = some z
      ∧ (∀ o ∈ rs, ∀ w, visDepth o px py = some w → lt32 w z = false)
      ∧ (∀ o ∈ pre, ∀ w, visDepth o px py = some w → isNan32 w = false → lt32 z w = true))

/-- R165 to R170: `TRACE`, `TRACEP` and `VISQ` make their token pending with all that the work needs; a full set of rays traps `TRACE_DEPTH`, a
tile number past 1,023 `ILLEGAL_OPERAND`, and a bad range the trap of R168. That the tile numbers are checked before `CONVERGE` is the model's reading
(log entry 23). A `VISQ` whose ranges meet those of a resolve that its lane has pending waits for it (R357, log entry 105). Without an active lane
`TRACE` leaves a token of 0 and `VISQ` nothing. The answer of a walk is the one of R167, its hits are exact, and so are the samples of a tile. -/
def Obligations.RayWordsStartTheirWork : Prop :=
  Sys2Proof.Claims.exactHits ∧ Sys2Proof.Claims.walkAnswers ∧ Sys2Proof.Claims.tileSamples ∧ ∀ (s : State) (bt : BitVec 1) (k : BitVec 6) (h r : BitVec 8),
  let v := r.toNat
  let m := active s
  let need := { vectorNeed (.s k.toNat :: plainRegs 5 h.toNat ++ plainRegs 8 v)
    (!(decide (h.toNat + 5 ≤ s.grp.code.vregs) && decide (v + 8 ≤ s.grp.code.vregs))) with feats := [3] }
  let rays := (lanes m).map fun l => (l, (List.range 8).map fun i => getV s.grp (v + i) l)
  let inFlightRays := s.grp.tokens.countP fun t => match t.work with
    | .ray _ _ _ _ => true
    | _ => false
  let started := fun (i : Instr) (work : TokenWork) => ∃ t, exec i s = .next (thenStep s t)
    ∧ Completed (s.setG fun g => { g with
        tokens := g.tokens ++ [{ sreg := k.toNat, work := work, lanes := m, pc := curPc s }]
        copies := g.copies.map fun c => if c.sreg = some k.toNat then { c with sreg := none } else c }) t
  let traces := fun (i : Instr) (any : Bool) =>
    (ready need s → m = 0 → ∃ t, exec i s = .next (thenStep s t) ∧ Completed (s.setG (setS k.toNat 0)) t)
    ∧ (ready need s → m ≠ 0 → s.grp.code.traceDepth ≤ inFlightRays → exec i s = .next (takeTrap { cause := cTraceDepth, mask := m } s))
    ∧ (ready need s → m ≠ 0 → inFlightRays < s.grp.code.traceDepth → started i (.ray any h.toNat rays (getB s.grp 29)))
  let needV := { vectorNeed (.s k.toNat :: plainRegs 5 v) (decide (v + 5 > s.grp.code.vregs)) with feats := [3], hints := { part := true } }
  let x := fun (l i : Nat) => (getV s.grp (v + i) l).toNat
  let spans := fun (l : Nat) => spansMeet s.grp l
    [(recOfBits (getB s.grp 27), 48, x l 2, x l 3), (recOfBits (getB s.grp 28), 4, x l 4, 2048)]
  traces (.trace bt k h r) false ∧ traces (.tracep bt k h r) true
  ∧ (ready needV s → lowLane m = none → ∃ t, exec (.visq bt k r) s = .next (thenStep s t) ∧ Completed s t)
  ∧ (∀ l, ready needV s → lowLane m = some l →
      (x l 0 > 1023 ∨ x l 1 > 1023 → exec (.visq bt k r) s = .next (takeTrap { cause := cIllegalOperand, mask := m } s))
      ∧ (x l 0 ≤ 1023 → x l 1 ≤ 1023 → maskIsFull s = false → exec (.visq bt k r) s = .next (takeTrap { cause := cConverge, mask := m } s))
      ∧ (x l 0 ≤ 1023 → x l 1 ≤ 1023 → maskIsFull s = true →
          (∀ t, visqTrap s (x l 2) (x l 3) (x l 4) = some t → exec (.visq bt k r) s = .next (takeTrap t s))
          ∧ (visqTrap s (x l 2) (x l 3) (x l 4) = none → spans l = true → exec (.visq bt k r) s = .next (stallOn .token s))
          ∧ (visqTrap s (x l 2) (x l 3) (x l 4) = none → spans l = false →
              started (.visq bt k r) (.visq l (x l 0) (x l 1) (x l 2) (x l 3) (x l 4) (getB s.grp 27) (getB s.grp 28)))))

/-- R204, R258, R310: an entry takes the lowest free place of its queue's storage, where its payload stands, and the timestamp in a deterministic
context; there the queue is in the order of its timestamps, else in that of the pushes. At the homes nothing else changes. -/
def Sys2Proof.Claims.entriesAreStored : Prop := ∀ (s : State) (qu : Queue) (x : Word) (ts k a : Nat),
  let det := ((findCtx qu.ctx s).getD {}).det
  let bytes := toBytes 4 x.toNat ++ if det then toBytes 4 (BitVec.ofNat 32 ts).toNat else []
  let u := enterQueue qu.num x (BitVec.ofNat 32 ts).toNat s
  let e : QEntry := { payload := x, ts := if det then (BitVec.ofNat 32 ts).toNat else 0, time := s.time, slot := k }
  findQueue qu.num s = some qu → (∀ f ∈ qu.entries, f.slot ≠ k) → (∀ j, j < k → ∃ f ∈ qu.entries, f.slot = j) → (∀ b, peerGone s b = false) →
  (∀ i, i < bytes.length → agentTranslate s (partCore s ((findCtx qu.ctx s).getD {})) qu.ctx (qu.base + 8 * k + i) 1 = .ok (a + i)) →
  (∃ l r, qu.entries = l ++ r ∧ findQueue qu.num u = some { qu with entries := l ++ e :: r } ∧ (det = false → r = []))
  ∧ (det = true → qu.entries.Pairwise (fun f g => entryBefore f g = true) →
      ∀ w, findQueue qu.num u = some w → w.entries.Pairwise (fun f g => entryBefore f g = true))
  ∧ (∀ f g, entryBefore f g = true ↔ f.ts < g.ts ∨ (f.ts = g.ts ∧ f.payload.toNat ≤ g.payload.toNat))
  ∧ homeBytes u a bytes.length = bytes ∧ (∀ b, (b < a ∨ a + bytes.length ≤ b) → homeByte u b = homeByte s b)

/-- R204, R206, R258, R259, R262, R263, R264: the queue words. `QPUSH` enters one entry for each active lane, in ascending order, into an open queue
of the context with room, once what the lanes stored is performed; in a deterministic context a timestamp below an earlier one of the group traps.
`PSLOT` gives each lane the lowest free slot of a pool, all ones when none is left, and `PFREE` gives slots back; `REGRP` moves its threads into
the bin of its target and ends them. -/
def Obligations.QueueWordsMoveEntries : Prop :=
  Sys2Proof.Claims.entriesAreStored
  ∧ ∀ (s : State) (bt : BitVec 1) (q p : BitVec 6) (v t : BitVec 8) (o : BitVec 12) (pool : Pool) (qu : Queue),
  let m := active s
  let ls := lanes m
  let det := (ctxOf s).det
  let n := (getS s.grp q.toNat).toNat % 2 ^ 14
  let ts := fun l => (getV s.grp t.toNat l).toNat
  let need := { vectorNeed (.s q.toNat :: .v v.toNat :: if det then [.v t.toNat] else [])
      (decide (m ≠ 0) && (!plainV s 1 v.toNat || !plainV s 1 t.toNat)) with
    early := [.s q.toNat], valueBad := decide (m ≠ 0) && decide ((getS s.grp q.toNat).toNat ≥ 2 ^ 14) }
  let last := ((s.grp.pushed.find? fun x => x.1 = n).map fun x => x.2).getD 0
  let breaks := det && tsBreaks s n ts ls last
  let u := releaseLanes s.grp.uid m true s
  let w := ls.foldl (fun x l => enterQueue n (getV s.grp v.toNat l) (ts l) x) u
  let pushed := if det then w.setG fun g => { g with
    pushed := g.pushed.filter (fun x => decide (x.1 ≠ n)) ++ [(n, (ls.getLast?.map ts).getD 0)] } else w
  let needP := { vectorNeed [.v v.toNat] (!plainV s 1 v.toNat) with feats := [11] }
  let poolFault := takeTrap { cause := cQueueFault, mask := m, info := p.toNat } s
  let r := takeSlots pool.cap ls pool.taken
  let is := ls.map fun l => (getV s.grp v.toNat l).toNat
  let withTaken := fun (x : List Nat) => updCtx s.grp.ctx (fun c => { c with
    pools := c.pools.map fun k => if k.id = p.toNat then { k with taken := x } else k }) s
  let needR := { vectorNeed [.v v.toNat] (!plainV s 1 v.toNat) with feats := [11], hints := { imm := true }, last := true }
  let gu := gridOf s
  (ready need s → m ≠ 0 → (∀ l, specTask s s.grp.uid l = none) →
    ((pushQueue s n = none → exec (.qpush bt q v t) s = .next (takeTrap { cause := cQueueFault, mask := m, info := n } s))
    ∧ (pushQueue s n = some qu → breaks = true → exec (.qpush bt q v t) s = .next (takeTrap { cause := cDetViolation, mask := m, info := 6 } s))
    ∧ (pushQueue s n = some qu → breaks = false → qu.capacity - qu.entries.length < ls.length →
        exec (.qpush bt q v t) s = .next (stallOn .queue s))
    ∧ (pushQueue s n = some qu → breaks = false → ls.length ≤ qu.capacity - qu.entries.length →
        (∀ va x, queueWaits s qu ls.length = some (va, x) →
          exec (.qpush bt q v t) s = .next (stallOn .queue (agentWait (queueCore s qu) qu.ctx va 1 x s)))
        ∧ (queueWaits s qu ls.length = none → releaseDone u.grp m s.time = false → exec (.qpush bt q v t) s = .next (stallOn .release u))
        ∧ (queueWaits s qu ls.length = none → releaseDone u.grp m s.time = true → ∃ x, exec (.qpush bt q v t) s = .next (thenStep s x)
            ∧ Completed (queueForm n pushed) x))))
  ∧ ((∀ l, taskOf s s.grp.uid l = none) → (tsBreaks s n ts ls last = false ↔ (last :: ls.map ts).IsChain (· ≤ ·)))
  ∧ (ready needP s → poolOf s p.toNat = none →
      exec (.pslot bt v p) s = .next poolFault ∧ exec (.pfree bt v p) s = .next poolFault)
  ∧ (ready needP s → poolOf s p.toNat = some pool → (ctxOf s).det = false →
      ∃ x, exec (.pslot bt v p) s = .next (thenStep s x)
        ∧ Wrote s v.toNat 1 (fun l => [((r.1.find? fun k => k.1 = l).map fun k => k.2).getD 0]) x.grp
        ∧ Completed { withTaken r.2 with
            grp := { s.grp with v := x.grp.v, k := x.grp.k }
            wgs := if r.1.any (fun k => decide (k.2 = 0xFFFFFFFF)) then
                s.wgs.map fun w => if w.uid = s.grp.wg then { w with flags := w.flags ||| 4 } else w
              else s.wgs } x)
  ∧ (ready needP s → poolOf s p.toNat = some pool → (ctxOf s).det = false → (∀ i ∈ is, i < pool.cap ∧ i ∈ pool.taken) → is.Nodup →
      ∃ x, exec (.pfree bt v p) s = .next (thenStep s x) ∧ Completed (withTaken (pool.taken.filter fun i => !is.contains i)) x)
  ∧ (waitDirect s (offsetOf s 12 o) = none → badDirect s (offsetOf s 12 o) = none → ready needR s → m ≠ 0 → quiet s = true →
      (gu.bins.length < 256 ∨ ∃ b ∈ gu.bins, some b.target = directTarget s (offsetOf s 12 o)) → releaseDone u.grp m s.time = true →
      ∃ x, exec (.regrp bt o v) s = .next x ∧ x.grp.live = s.grp.live &&& ~~~m ∧ x.grp.act = none
        ∧ (∀ b, inFlight s b = false → homeByte x b = homeByte s b)
        ∧ (∀ c, findGrid gu.uid s = some gu → (ctxOf s).det = true → directTarget s (offsetOf s 12 o) = some c →
            ∃ y, findGrid gu.uid x = some y ∧ y = { gu with bins := (addToBin c (binEntries s v.toNat) gu).bins }))

/-! ### Tiles and the pattern table -/

/-- R112, R115 to R117, R126 to R128: `TFEED` writes the row of each active lane, element by element from its register image, and only those
rows; `TREL` publishes; `TDRAIN` is in flight with 16 columns of the row of each active lane, or traps `ACC_BUSY` with the number of the entry
that still writes the accumulator. -/
def Sys2Proof.Claims.tileWords : Prop :=
  ∀ (s : State) (bt : BitVec 1) (t : BitVec 6) (v f d : BitVec 8) (c : BitVec 2) (l : Nat),
  let m := active s
  let sel := getS s.grp t.toNat
  let tile := (sel.extractLsb' 0 9).toNat
  let base := (sel.extractLsb' 16 6).toNat
  let acc := (sel.extractLsb' 0 7).toNat
  let high := decide (sel.extractLsb' 22 10 ≠ 0)
  let fw := getV s.grp f.toNat l
  let k := fw.toNat
  let bits := fmtBits k
  let x := getTile (wgOf s) tile
  let image := plainRegs (fmtRegs k) v.toNat
  let code := fun (lane e : Nat) =>
    let per := if bits = 32 then 1 else if bits = 16 then 2 else if bits = 4 then 8 else 4
    (getV s.grp (v.toNat + e / per) lane).toNat / 2 ^ (32 / per * (e % per)) % 2 ^ bits
  let fed := feedRows s v.toNat k base x
  let badF := !fmtValid s.grp.code.features fw || high || decide (sel.extractLsb' 9 7 ≠ 0) || decide ((wgOf s).ntiles ≤ tile)
    || decide (64 < base + s.grp.width) || decide (s.grp.code.vregs < v.toNat + fmtRegs k)
  let needF := { vectorNeed [.s t.toNat, .v f.toNat] (!plainV s 1 f.toNat) with feats := [4], hints := { part := true } }
  let same := ∀ j, isActive s j = true → getV s.grp f.toNat j = fw
  let feeds := fun r => exec (.tfeed bt t v f) s = .next r
  let trap := fun cause => takeTrap { cause := cause, mask := m } s
  let needR := { vectorNeed [.s t.toNat] false with feats := [4] }
  let badR := high || decide (sel.extractLsb' 9 7 ≠ 0) || decide ((wgOf s).ntiles ≤ tile)
  let needD := { vectorNeed (.s t.toNat :: plainRegs 16 d.toNat) (decide (s.grp.code.vregs < d.toNat + 16)) with feats := [4], varlat := true }
  let badD := high || decide (sel.extractLsb' 7 9 ≠ 0) || decide ((wgOf s).naccs ≤ acc) || decide (64 < base + s.grp.width)
  let drained := (lanes m).flatMap fun j => laneWrites d.toNat j ((List.range 16).map fun i => accGet (getAcc (wgOf s) acc) (base + j) (16 * c.toNat + i))
  (ready needF s → m = 0 → ∃ y, feeds (thenStep s y) ∧ Completed s y)
  ∧ (ready needF s → lowLane m = some l → maskIsFull s = false → feeds (trap cConverge))
  ∧ (ready needF s → lowLane m = some l → maskIsFull s = true → ¬same → feeds (trap cFormatDiverge))
  ∧ (ready needF s → lowLane m = some l → maskIsFull s = true → same → badF = true → feeds (trap cIllegalOperand))
  ∧ (ready needF s → lowLane m = some l → maskIsFull s = true → same → badF = false → (∀ r ∈ image, marked s.grp r = false ∧ regPending s.grp r = false) →
      (x.state = 2 → feeds (stallOn .tile s))
      ∧ (x.state = 1 → x.tag ≠ some k → feeds (trap cFormatDiverge))
      ∧ (x.state ≠ 2 → (x.state = 1 → x.tag = some k) →
          ∃ y, feeds (thenStep s y) ∧ Completed (putTile s.grp.wg tile { fed with tag := some k, state := 1 } s) y))
  ∧ (k ≤ 14 → ∀ row, row < 64 →
      (∀ j, isActive s j = true → row = base + j → bit fed.present row = true ∧ ∀ e, e < fmtK k → rowBits fed row / 2 ^ (bits * e) % 2 ^ bits = code j e)
      ∧ ((∀ j, isActive s j = true → row ≠ base + j) → bit fed.present row = bit x.present row ∧ rowBits fed row = rowBits x row))
  ∧ (ready needR s → m ≠ 0 → badR = true → exec (.trel bt t) s = .next (trap cIllegalOperand))
  ∧ (ready needR s → (m = 0 ∨ (badR = false ∧ x.state = 2)) → ∃ y, exec (.trel bt t) s = .next (thenStep s y) ∧ Completed s y)
  ∧ (ready needR s → m ≠ 0 → badR = false → x.state ≠ 2 →
      ∃ y, exec (.trel bt t) s = .next (thenStep s y) ∧ Completed (putTile s.grp.wg tile { x with state := 2 } s) y)
  ∧ (ready needD s → badD = true → exec (.tdrain bt t d c) s = .next (trap cIllegalOperand))
  ∧ (∀ n, ready needD s → badD = false → writerOf s s.grp.wg acc = some n →
      exec (.tdrain bt t d c) s = .next (takeTrap { cause := cAccBusy, mask := m, addr := n, info := acc } s))
  ∧ (ready needD s → badD = false → writerOf s s.grp.wg acc = none →
      ∃ y, exec (.tdrain bt t d c) s = .next (thenStep s y) ∧ Completed (launchOp (plainRegs 16 d.toNat) drained [] s) y)

/-- R121, R122, R129, R131, R132, R137 to R139, R141, R143: the words that enter the pattern table. A legal word enters at once while the table
has room and raises its thread's count, and else is held; a paired word enters alone when its partner is gone, waits for the partner's word at
its rendezvous, and enters with it when both agree; when they do not, both trap `PAIR_DIVERGE` and `TINFO` says in what they differ. The model's own
choices: where an `MMA` meets an `MGUID`, bit 0 of `TINFO` compares the format word with the scale (log entry 84); a lone entry of side U captures
its own companding table (log entry 85); and of two threads the lower slot breaks ties (log entry 86). -/
def Obligations.MatrixWordsEnterTheTable : Prop := ∀ (s : State) (bt : BitVec 1) (x f : BitVec 6) (b r c e : BitVec 1) (p : Group),
  let w := wgOf s
  let sel := getS s.grp x.toNat
  let fw := getS s.grp f.toNat
  let fld := fun lo len => (sel.extractLsb' lo len).toNat
  let C := fld 0 7
  let A := fld 7 9
  let B := fld 16 9
  let src := fld 7 7
  let q := fld 14 2
  let top := decide (fld 25 7 ≠ 0)
  let valid := fmtValid s.grp.code.features fw
  let full := tableFull (clusterOfCore s.grp.core) s
  let pairGrid := (gridOf s).launch.pair
  let chainBad := decide (w.naccs ≤ src) || decide (src = C) || decide (64 ≤ q * fmtK fw.toNat) || fmtIsMx fw.toNat || decide (r = 1)
    || decide (w.ntiles ≤ B)
  let bad := !valid || top || decide (w.naccs ≤ C) || (if c = 1 then chainBad else decide (w.ntiles ≤ A) || decide (w.ntiles ≤ B))
  let pairBad := !pairGrid || !valid || top || decide (c = 1) || decide (C % 2 = 1) || decide (2 * w.naccs ≤ C) || decide (A % 2 = 1)
    || decide (2 * w.ntiles ≤ A) || decide (2 * w.ntiles ≤ B)
  let guidBad := !pairGrid || top || decide (q ≠ 0) || decide (src % 2 = 1) || decide (2 * w.naccs ≤ src) || decide (2 * w.naccs ≤ C)
  let cvtBad := !valid || fmtIsMx fw.toNat || decide (fld 18 14 ≠ 0) || decide (w.naccs ≤ C) || decide (w.ntiles ≤ A)
    || decide (64 ≤ fld 16 2 * fmtK fw.toNat)
  let traps := fun (i : Instr) (n : Need) (no : Bool) => ready n s → no = true → exec i s = .next (takeTrap { cause := cIllegalOperand, mask := active s } s)
  let enters := fun (i : Instr) (en : PEntry) =>
    (full = true → exec i s = .next (stallOn .table (s.setG fun g => { g with held := some (.entry en) })))
    ∧ (full = false → (∃ o, (enterEntry en s).pattern = s.pattern ++ [o] ∧ o.kind = en.kind ∧ o.sel = en.sel ∧ o.val = en.val ∧ o.threads = en.threads)
      ∧ ∃ t, exec i s = .next (thenStep s t) ∧ Completed ((enterEntry en s).setG fun g =>
          { g with count := g.count + 1, pairs := if en.pair then g.pairs + 1 else g.pairs, rendezvous := none }) t)
  let solo := fun (i : Instr) (n : Need) (no : Bool) (en : PEntry) => traps i n no ∧ (ready n s → no = false → enters i en)
  let mine := fun (i : Instr) => (((encode i).getD 0).extractLsb' 0 27).zeroExtend 32
  let paired := fun (i : Instr) (n : Need) (no : Bool) (kind : PKind) (val : Word) (side : Bool) (fl : PEntry → PEntry) =>
    traps i n no
    ∧ (ready n s → no = false → partnerOf s = none →
        (side = false → exec i s = .next (takeTrap { cause := cIllegalOperand, mask := active s } s))
        ∧ (side = true → enters i (fl (pairEntry kind sel val none s))))
    ∧ (ready n s → no = false → partnerOf s = some p →
        (atRendezvous p = false → exec i s = .next (stallOn .pair (s.setG fun g => { g with rendezvous := some (mine i, sel, val) })))
        ∧ (atRendezvous p = true → p.rendezvous = some (mine i, sel, val) →
            let u := s.setG fun g => { g with rendezvous := some (mine i, sel, val) }
            (full = false → exec i s = .next (completeWords (fl (pairEntry kind sel val (some p) s)) u))
            ∧ (full = true → exec i s = .next (stallOn .table (u.setG fun g =>
                { g with held := some (.entry (fl (pairEntry kind sel val (some p) s))) }))))
        ∧ (∀ w' sel' val', atRendezvous p = true → p.rendezvous = some (w', sel', val') → (w', sel', val') ≠ (mine i, sel, val) →
            exec i s = .next (divergeBoth p
              ((if w' ≠ mine i then 4 else 0) + (if sel' ≠ sel then 2 else 0) + (if val' ≠ val then 1 else 0)) s)))
  solo (.mma bt x f b r c e) (bobbinNeed [x.toNat, f.toNat] [4]) bad
      { soloEntry .mma sel fw s with acc := decide (e = 1), chain := decide (c = 1), rela := decide (r = 1), relb := decide (b = 1) }
  ∧ solo (.mzero bt x) (bobbinNeed [x.toNat] [4]) (top || decide (w.naccs ≤ C)) (soloEntry .mzero sel 0 s)
  ∧ solo (.mcvt bt x f) (bobbinNeed [x.toNat, f.toNat] [4]) cvtBad (soloEntry .mcvt sel fw s)
  ∧ paired (.mmaPair bt x f b r c e) (bobbinNeed [x.toNat, f.toNat] [4, 5]) pairBad .mma fw (decide (B % 2 = w.side))
      (fun n => { n with acc := decide (e = 1), rela := decide (r = 1), relb := decide (b = 1) })
  ∧ paired (.mguid bt x f) (bobbinNeed [x.toNat, f.toNat] [4, 5]) guidBad .mguid fw true id

/-- R122, R133, R134: `MWAIT` completes once the watermark has reached its 64-bit number; `CTAB` loads the companding table of its workgroup
from 16 words of `B0`, and a table that is not valid traps `ILLEGAL_OPERAND` and leaves the old one. That a word issued after the `CTAB` uses the
new table is the model's choice (R244, log entry 104). -/
def Sys2Proof.Claims.waitWords : Prop := ∀ (s : State) (bt : BitVec 1) (a : BitVec 6) (run : List (Access × Nat)),
  let n := { bobbinNeed [a.toNat, a.toNat + 1] [4] with operandBad := decide (a.toNat % 2 = 1) }
  let goal := pair64 (getS s.grp a.toNat) (getS s.grp (a.toNat + 1))
  let needC := { bobbinNeed [a.toNat] [4, 8] with operandBad := false }
  let r := bufOf s 0 0
  let as := (List.range 16).map fun i => accOf r 4 (((if r.stride ≠ 0 then r.stride else 1) * i : Nat) : Int) 0 (getS s.grp a.toNat)
  let o : MemOp := { buf := 0, idx := fun _ => 0, size := 4, kind := 0, watch := [0] }
  let t := fun (run : List (Access × Nat)) => tabWords (scopeOf s 0) as (sampled .mem run s)
  (ready n s → goal ≤ s.grp.mark → ∃ u, exec (.mwait bt a) s = .next (thenStep s u) ∧ Completed s u)
  ∧ (ready n s → s.grp.mark < goal → exec (.mwait bt a) s = .next (stallOn .mwait s))
  ∧ (∀ x, ready needC s → memTraps s o [0] as = some x → exec (.ctab bt a 0) s = .next (takeTrap x s))
  ∧ (ready needC s → memTraps s o [0] as = none → memTrans s o (as.filter fun a => a.inb) = .go run [] →
      (cpValid (t run).1 = false → exec (.ctab bt a 0) s = .next (takeTrap { cause := cIllegalOperand, mask := active s } s))
      ∧ (cpValid (t run).1 = true → ∃ u, exec (.ctab bt a 0) s = .next (thenStep s u)
          ∧ Completed (updWg s.grp.wg (fun w => { w with compand := (t run).1 }) (t run).2) u)
      ∧ sameIssuer s.grp (t run).2.grp ∧ (∀ a, inFlight s a = false → homeByte (t run).2 a = homeByte s a))

/-- R112 to R134: tiles, waiting, and the words of the bobbin. -/
def Obligations.TileAndWaitWords : Prop :=
  Sys2Proof.Claims.tileWords ∧ Sys2Proof.Claims.waitWords

/-! ### A step -/

/-- R40, R44, R50, R54: a step in which the schedule names no turn is an issue slot of the loaded issuer. When its unit passes it over for no
other, with its path chosen, unedited and at no breakpoint, the word at its address is fetched through the code object and decoded, and the step is
`exec` of that instruction, after which the word counts as progress of its context and as part of the issue that it joins (R25). A fetch from a
peer's window is noted as a flit of that peer (R316) and changes nothing else. A word that decodes to nothing takes its trap, `ILLEGAL_ENCODING`; of
a transfer with a reserved bit set a bad target comes first (R52). -/
def Obligations.StepRunsTheFetchedWord : Prop := ∀ (s u v : State) (w : Word) (e : FEntry),
  let ends := fun (after : State → State) (o : Host.Outcome State Fault Refusal) => match o with
    | .next t => Host.Outcome.next (stepDone s (after t))
    | .fault r => .fault r
    | .refused r => .refused r
  s.tape = [] → passedOver exec s = false → mayIssue s s.grp = true → takeTurn s = (true, u) → (∀ h ∈ u.grp.hem, h.holds = false) →
  withPath u = some v → v.grp.act = some e → e.edited = false → breakHere v = false → readCode v v.grp e.pc = .word w →
  let f := codeFlit v.grp e.pc v
  (∀ i, decodeWord w = .ok i → step s = ends (fun t => noteJoin exec s (afterIssue i f t)) (exec i f))
  ∧ (∀ r, decodeWord w = .error r → step s = ends id (exec (.illegalEncoding w) f))
  ∧ f = { v with members := f.members } ∧ f.members.map (fun x => { x with flit := 0 }) = v.members.map (fun x => { x with flit := 0 })
  ∧ (∀ x ∈ f.members, x ∈ v.members ∨ x.flit = v.time) ∧ ((∀ a, xlate v v.grp (codeVa v.grp.code (topcOf v.grp e.pc)) 2 = .ok a → peerOf a = none) → f = v)
  ∧ (∀ r, decodeWord w = .error r → r ≠ .moviSource →
      (∀ t ∈ targetWords, ¬(classOf w = t.1 ∧ bitsOf w 26 22 = t.2.1)) →
      exec (.illegalEncoding w) v = .next (takeTrap { cause := cIllegalEncoding, mask := e.mask } v))
  ∧ (∀ r bt o i, decodeWord w = .error r → r ≠ .moviSource → withoutReserved w = some i → (i = .bra bt o ∨ i = .call bt o) →
      (∀ t, badDirect v (offsetOf v 18 o) = some t → exec (.illegalEncoding w) v = .next (takeTrap t v))
      ∧ (waitDirect v (offsetOf v 18 o) = none → badDirect v (offsetOf v 18 o) = none →
        exec (.illegalEncoding w) v = .next (takeTrap { cause := cIllegalEncoding, mask := e.mask } v)))

/-- R50, R183, R304: what the word at an address is: original code is read through the context's translation, four bytes lowest first, up to the
end of the code; in a specialised launch the residual word. A fetch beyond the code traps `ILLEGAL_TARGET`, and a refused one `PROTECTION`. -/
def Sys2Proof.Claims.codeFetch : Prop := ∀ (s : State) (pc a : Nat) (info : Word),
  let c := s.grp.code
  let va := c.va + 256 + pc
  (c.residual = none → c.size ≤ pc / 4 → readCode s s.grp pc = .beyond)
  ∧ (c.residual = none → pc / 4 < c.size → xlate s s.grp va 2 = .ok a → readCode s s.grp pc = .word (fetchedWord s s.grp a))
  ∧ (∀ r w, c.residual = some r → r.words[pc / 4]? = some w → r.unread.contains (pc / 4) = false → topcOf s.grp pc < 4 * c.size →
      readCode s s.grp pc = .word w)
  ∧ exec (.fetchFault false info) s = .next (takeTrap { cause := cIllegalTarget, mask := active s, addr := topcOf s.grp (curPc s) } s)
  ∧ exec (.fetchFault true info) s = .next (takeTrap
      { cause := cProtection, mask := active s, addr := c.va + 256 + topcOf s.grp (curPc s), info := info.toNat } s)

/-- R51: a word that a store has changed while a grid of the code object runs is its new value or its old one, each fetch by itself; any other
word of the object is the one that stands there. -/
def Sys2Proof.Claims.changedCode : Prop := ∀ (s : State) (g : Group) (a : Nat),
  let new := homeByte s (a + 3) ++ homeByte s (a + 2) ++ homeByte s (a + 1) ++ homeByte s a
  (∀ since, codeSince s g = some since →
    let b := fun (i : Nat) => match sfind (a + i) s.old with
      | some (x, t) => if since ≤ t then x else homeByte s (a + i)
      | none => homeByte s (a + i)
    fetchedWord s g a = new ∨ fetchedWord s g a = b 3 ++ b 2 ++ b 1 ++ b 0)
  ∧ (codeSince s g = none → fetchedWord s g a = new)
  ∧ ((∀ i, i < 4 → sfind (a + i) s.old = none) → fetchedWord s g a = new)
  ∧ (∀ since, codeSince s g = some since → (∀ i x t, i < 4 → sfind (a + i) s.old = some (x, t) → t < since) → fetchedWord s g a = new)

/-- Log entry 1: with a turn at the head of the schedule, device time moves on to it and the step is that turn: the event, an issue slot of the
issuer it names, the performing of a load in flight (R364), or a store of a peer's own thread (R240). -/
def Sys2Proof.Claims.nextTurns : Prop := ∀ (s : State) (due : Nat) (rest : List Slot),
  let u := advanceTime due { s with tape := rest }
  let ends := fun (o : Host.Outcome State Fault Refusal) => match o with
    | .next t => Host.Outcome.next (stepDone s t)
    | .fault r => .fault r
    | .refused r => .refused r
  (∀ i, s.tape = { due := due, what := .event i } :: rest → isEvent i = true → step s = ends (exec i u))
  ∧ (∀ uid, s.tape = { due := due, what := .issue uid } :: rest → step s = ends (issue (loadGroup uid u)))
  ∧ (∀ uid n lane, s.tape = { due := due, what := .perform uid n lane } :: rest →
      step s = .next (stepDone s (performNth uid n (fun p => decide (p.lane = lane)) u)))
  ∧ (∀ m win off bs, s.tape = { due := due, what := .peerStore m win off bs } :: rest → step s = .next (stepDone s (peerStores m win off bs u)))
  ∧ u.time = max s.time due ∧ u.tape = rest
  ∧ (s.lock = none ∨ s.present.source = none → u = { s with tape := rest, time := max s.time due })

/-- R51, R265, R337: what every step ends with changes nothing but the moments from which groups are issuable, stalls that have ended, and the time
that does not count towards a hang, when the turn has let no time pass itself. -/
def Sys2Proof.Claims.stepEnds : Prop := ∀ before after : State,
  let t := stepDone before after
  let bare := fun (g : Group) => { g with stall := .none, ready := 0 }
  after.time ≤ max before.time ((before.tape.head?.map fun x => x.due).getD 0) →
  t = { after with grp := t.grp, groups := t.groups, ctxs := t.ctxs, free := t.free }
  ∧ bare t.grp = bare after.grp ∧ t.groups.map bare = after.groups.map bare
  ∧ t.ctxs.map (fun c => { c with lastProgress := 0 }) = after.ctxs.map (fun c => { c with lastProgress := 0 })
  ∧ (after.time = before.time → t.ctxs = after.ctxs) ∧ (after.old = [] → t.free = after.free)
  ∧ (t.grp.stall = after.grp.stall ∨ t.grp.stall = .none) ∧ (after.grp.kind ≠ .vector → t.grp = after.grp)

/-- R25, R119, R265: whose word issues. A vector group's slot passes it over exactly when its quarter chooses another group that would issue and does
not pack with it: one overdue first, then the higher priority, then the older; a bobbin takes its threads in the order of their slots after the
one that issued last. What packs into an issue has the context, the code and the address of the chosen group, and with all that have joined it before
at most 64 lanes; a group whose word has issued beside the chosen one has joined it, once. -/
def Sys2Proof.Claims.slotsAreChosen : Prop := ∀ (s : State) (g h : Group),
  let due := fun (x : Group) => x.ready + (1024 * 1000 + s.clockMhz - 1) / s.clockMhz ≤ s.time
  let older := g.placed < h.placed ∨ (g.placed = h.placed ∧ (g.gidx < h.gidx ∨ (g.gidx = h.gidx ∧ g.slot < h.slot)))
  let rival := fun (x : Group) => x ∈ allGroups s ∧ x.uid ≠ s.grp.uid ∧ x.core = s.grp.core ∧ x.slot / 64 = s.grp.slot / 64
    ∧ goesFirst s x s.grp = true ∧ issuableGroup s x = true ∧ wouldIssue exec s x.uid = true
  let turn := fun (x : Group) => (x.slot + 8 - sget 0 (x.core / 4) s.bobNext) % 8
  let lanesOf := fun (l : List (Nat × Nat)) => (l.map fun x => x.2).sum
  (packs s g h = true → g.ctx = h.ctx ∧ g.code = h.code ∧ lanesOf h.joined + g.width + h.width ≤ 64 ∧ (∀ x ∈ h.joined, x.1 ≠ g.uid)
    ∧ ∃ a b, nextEntry s g = some a ∧ nextEntry s h = some b ∧ a.pc = b.pc)
  ∧ (∀ t k, s.grp.kind = .vector → chosenBefore exec s s.grp = some h → h.uid ≠ s.grp.uid → findGroup h.uid t = some k →
      (∀ x, findGroup s.grp.uid t = some x → x.stall = .none) →
      (findGroup h.uid (noteJoin exec s t)) = some { k with joined := k.joined ++ [(s.grp.uid, s.grp.width)] })
  ∧ (passedOver exec s = true → s.tape = [] → step s = .next (stepDone s s))
  ∧ (goesFirst s g h = true ↔ (due g ∧ ¬due h) ∨ (due g ∧ due h ∧ older) ∨ (¬due g ∧ ¬due h ∧ (h.prio < g.prio ∨ (g.prio = h.prio ∧ older))))
  ∧ (s.grp.kind = .vector → passedOver exec s = true → ∃ x, rival x ∧ packs s s.grp x = false)
  ∧ (s.grp.kind = .vector → (∀ x, ¬rival x) → passedOver exec s = false)
  ∧ (s.grp.kind = .bobbin → (passedOver exec s = true ↔ ∃ x ∈ s.groups, x.kind = .bobbin ∧ x.core / 4 = s.grp.core / 4 ∧ turn x < turn s.grp
      ∧ mayIssue s x = true ∧ wouldIssue exec s x.uid = true))

/-- R25, R42, R48, R51, R52, R119, R265: where a word comes from, and whose turn it is. -/
def Obligations.TurnsAndFetchesFollowTheSpec : Prop :=
  (Sys2Proof.Claims.codeFetch ∧ Sys2Proof.Claims.changedCode)
  ∧ Sys2Proof.Claims.nextTurns ∧ Sys2Proof.Claims.stepEnds ∧ Sys2Proof.Claims.slotsAreChosen

/-! ### The front end and the dispatchers -/

/-- R253, R254, R256, R298: the host's store to TAIL is performed in host memory and, over a working link, seen by the front end, which stops a
queue whose TAIL is out of range and sets bit 63 of its HEAD. The front end copies the next record and HEAD advances, unless the last record
waits under R257. A copied record that fails a check leaves its queue with its completion record written, and one that passes becomes a grid
with the next `GRIDID`; a `SPAWN`'s is a child grid of its workgroup, one level deeper, and counts as a child. -/
def Sys2Proof.Claims.frontEnd : Prop := ∀ (s : State) (q tail : Nat) (qu : Queue) (x : Context) (r : List Byte),
  (findQueue q s = some qu → qu.device = false → tail < 2 ^ 64 →
    let stored := hostMemWrite qu.tailAddr (toBytes 8 tail) s
    let seen := updQueue q (fun o => { o with tail := tail }) stored
    let kept := hostBytes stored qu.tailAddr 8 = toBytes 8 tail
    (qu.tailAddr + 8 ≤ peerBase → (∀ i, i < 8 → isHost s (qu.tailAddr + i) = isHost s qu.tailAddr) → kept)
    ∧ (linkUp s = false ∨ qu.stopped = true → exec (.hostTailWrite q tail) s = .next stored)
    ∧ (linkUp s = true → qu.stopped = false → kept → qu.head ≤ tail → tail ≤ qu.head + qu.n → exec (.hostTailWrite q tail) s = .next seen)
    ∧ (linkUp s = true → qu.stopped = false → kept → (tail < qu.head ∨ qu.head + qu.n < tail) → exec (.hostTailWrite q tail) s
        = .next (updQueue q (fun o => { o with stopped := true }) (hostStore qu.headAddr (toBytes 8 (qu.head + 2 ^ 63)) seen))))
  ∧ (findQueue q s = some qu → qu.device = false → linkUp s = true → servedCtx s qu.ctx = some x →
      (∀ h, qu.copied = none → findGrid qu.last s = some h →
        ((h.launch.coop = true ∧ ∃ p ∈ h.ranges, p.2.1 < p.2.2) ∨ (h.launch.queued = true ∧ h.reserve = [] ∧ h.ended = none)) →
        exec (.launchAdmit false q) s = .next s)
      ∧ (qu.copied = none → qu.stopped = false → qu.head < qu.tail → findGrid qu.last s = none →
          agentRead s (partCore s x) x.id (qu.base + 128 * (qu.head % qu.n)) 0 128 = .ok r →
          exec (.launchAdmit false q) s = exec (.launchAdmit false q) (updQueue q (fun o => { o with copied := some r, head := o.head + 1 })
            (hostStore qu.headAddr (toBytes 8 (qu.head + 1)) (forgetWalks x.id (agentFlits (partCore s x) x.id 0 (qu.base + 128 * (qu.head % qu.n)) 128 s)))))
      ∧ (∀ st u, qu.copied = some r → checkLaunch s x r = .fail st → failLaunch x (launchOf r).compl st (checkFlits x r s) = some u →
          exec (.launchAdmit false q) s = .next (updQueue q (fun o => { o with copied := none, last := 0 }) (forgetWalks x.id u)))
      ∧ (∀ l c, qu.copied = some r → checkLaunch s x r = .good l c → (∀ h ∈ s.grids, h.uid < s.nextId) →
          ∃ t g, exec (.launchAdmit false q) s = .next t ∧ t.gridCount = s.gridCount + 1
            ∧ t.grids = s.grids ++ [g] ∧ g.launch = l ∧ g.gridId = s.gridCount + 1 ∧ g.ctx = x.id ∧ g.depth = 0 ∧ g.parent = 0
            ∧ (∀ o, findQueue q t = some o → o.copied = none ∧ o.last = g.uid)))
  ∧ (∀ g va l c w p, findGroup g.uid s = some g → g.spawn = some (va, some r) → servedCtx s g.ctx = some x → g.stop = .running → g.stall = .spawn →
      s.started = true → s.minimal = false → findWg g.wg s = some w → findGrid w.grid s = some p →
      checkLaunch (updGroup g.uid (fun h => { h with spawn := some (va, some r) }) s) x r = .good l c → (∀ h ∈ s.grids, h.uid < s.nextId) →
      ∃ t k v, exec (.launchAdmit true g.uid) s = .next t ∧ t.grids = s.grids ++ [k] ∧ k.launch = l ∧ k.gridId = s.gridCount + 1
        ∧ k.depth = p.depth + 1 ∧ k.parent = g.wg ∧ findWg g.wg t = some v ∧ v.children = w.children + 1)

/-- R172, R183, R185, R193: a run of the Tailor ends with the residual code of its grid, or asks for the translations of the `CONST` reads that it
needs. A code object of more than 16,384 words keeps its original code (R185); that a launch whose run takes more than 2^64 steps keeps it too
is the model's choice (log entry 65). -/
def Sys2Proof.Claims.tailorRun : Prop := ∀ (s : State) (g : Grid) (x : Context) (ws : List (Option Word)),
  findGrid g.uid s = some g → servedCtx s g.ctx = some x → g.tailorDue = true →
  let f := (List.range g.code.size).foldl (fun s i => agentFlits (partCore s x) x.id 2 (codeVa g.code (4 * i)) 4 s) s
  let c := TRun.scan { s := f, x := x, code := g.code, words := ws.toArray, arg := argRecord g.launch, marked := markedIndexed g
                       queued := g.launch.queued, wgs := g.launch.wgs }
  let walk := tailorWalk c (g.code.ventry - 0x100) tailorBound {}
  let settled := fun (code : Code) => ∃ t h, exec (.tailorRun g.uid) s = .next t ∧ findGrid g.uid t = some h ∧ h.tailorDue = false ∧ h.code = code
    ∧ h.launch = g.launch ∧ (∀ a, homeByte t a = homeByte s a)
  g.ctx = x.id →
  (16384 < g.code.size → settled g.code)
  ∧ (g.code.size ≤ 16384 → readWords s x g.code g.code.size 0 = .ok ws →
      (∀ r n pages, walk = .done (r, n, pages) → settled { g.code with residual := some r })
      ∧ (∀ l, walk = .walks l → exec (.tailorRun g.uid) s = .next (l.foldl (fun s va => agentWait (partCore s x) x.id va 0 .miss s) f))
      ∧ (walk = .long → settled g.code))

/-- R172 to R192, R251 to R254: the front end and Tailor. -/
def Obligations.LaunchesAreAdmittedAndTailored : Prop :=
  Sys2Proof.Claims.frontEnd ∧ Sys2Proof.Claims.tailorRun

/-- R18 to R21, R205: a group starts at its launch's first instruction with the threads it has, `S0` to `S5` as stated and every other S, V, K,
mask, rejoin and closure register 0 but for the values of `K0`, with `B0` the argument record, flags clear and no trap. A task that runs again
has the lane it had. -/
def Sys2Proof.Claims.groupStart : Prop := ∀ (s : State) (w : WgStart) (wg uid i : Nat) (b30 b31 : BitVec 128),
  let g := startGroup s w wg uid i b30 b31
  let l := w.grid.launch
  let n := min l.width (w.threads - i * l.width)
  getS g 0 = BitVec.ofNat 32 w.gid ∧ getS g 1 = BitVec.ofNat 32 i
  ∧ getS g 2 = BitVec.ofNat 32 (w.gid % l.gx) ∧ getS g 3 = BitVec.ofNat 32 (w.gid / l.gx % l.gy) ∧ getS g 4 = BitVec.ofNat 32 (w.gid / (l.gx * l.gy))
  ∧ getS g 5 = BitVec.ofNat 32 (l.gx * l.gy * l.gz) ∧ (∀ r, 6 ≤ r → getS g r = 0)
  ∧ (∀ r j, getV g r j = 0)
  ∧ (w.lanes = [] → (∀ j, j < 64 → getK g 0 j = if j < n then w.vals.getD j 0 else 0) ∧ (∀ r j, 1 ≤ r → w.vals.length ≤ 64 → getK g r j = 0)
      ∧ (n ≤ 64 → ∀ j, j < 64 → bit g.live j = decide (j < n)))
  ∧ (∀ k v, w.lanes = [k] → w.vals = [v] → k < 64 → ∀ j, j < 64 →
      getK g 0 j = (if j = k then v else 0) ∧ bit g.live j = decide (j = k))
  ∧ (∀ r, getM g r = 0) ∧ (∀ r, getJ g r = {}) ∧ (∀ r j, getG g r j = {}) ∧ (∀ r, getF g r = 0) ∧ g.marks = [] ∧ g.tokens = [] ∧ g.ops = []
  ∧ getB g 0 = argRecord l ∧ getB g 30 = b30 ∧ getB g 31 = b31 ∧ (∀ r, r ≠ 0 → r ≠ 30 → r ≠ 31 → getB g r = 0)
  ∧ g.exist = g.live
  ∧ g.frontier = [{ pc := w.start.getD (if w.grid.code.residual.isSome then 0 else w.grid.code.ventry - 256), mask := g.live }]
  ∧ g.act = none ∧ g.stop = .running ∧ g.trap = none

/-- R22, R24, R28 to R31, R135, R202, R203, R256, R257, R261: a turn of a dispatcher gives a binding its reservation, that of a `PAIR` binding room
for both sides (log entry 106), places a cooperative grid whole, or the next workgroup of the die's range, or both sides of its pair in one cluster,
on room that is free on the core, or else the oldest formed group, which takes the reserved room when a cooperative grid holds the others back or no
core of the partition has any. A group that a `PAIR` binding forms from its queue is a pair; that one from a bin, or one that runs again, is not is
the model's choice (log entry 94). A group that has waited 2,000 ns forms. -/
def Sys2Proof.Claims.placement : Prop := ∀ (s : State) (g : Grid) (x : Context) (die core coreU n : Nat) (wins : List Nat) (room : Room),
  findGrid g.uid s = some g → servedCtx s g.ctx = some x →
  let places := fun (t : State) => exec (.workgroupPlace g.uid die core coreU wins) s = .next t
  let base := placeable s g = true ∧ (partDies s x).contains die = true ∧ core / 48 = die ∧ coreU / 48 = die
  let free := coopBlocks s g = false ∧ outranked s g die = false
  let bare := g.launch.queued = true ∧ g.reserve = []
  let side := fun (gid i : Nat) (r : Room) => ({ grid := g, gid := gid, gen := 0, side := i, room := r, threads := g.launch.threads
                                                 wins := (wins.drop (i * g.launch.threads)).take g.launch.threads, start := none, vals := [] } : WgStart)
  let own := g.waiting = [] ∨ (x.det = true ∧ allPlaced g = false)
  (¬base → places s)
  ∧ (base → bare → free → places (reserveRoom g core coreU s))
  ∧ (base → bare ∨ own → ¬free → places s)
  ∧ (base → ¬bare → own → free → g.launch.coop = true → allPlaced g = false → places (placeCoop x g wins s))
  ∧ (∀ k stolen, base → ¬bare → own → free → g.launch.coop = false → dieRange g die = some (k, stolen) → x.det = true → lowestLeft g ≠ some k →
      places (updGrid g.uid (fun h => { h with ranges := stolen }) s))
  ∧ (∀ gid ranges, base → ¬bare → own → free → g.launch.coop = false → g.launch.pair = false →
      takeGid g die = some (gid, ranges) → (x.det = true → lowestLeft g = some gid) → winsOk x wins g.winCount = true →
      roomFor s g g.launch.groups core = some room →
      let w : WgStart := { grid := g, gid := gid, gen := 0, side := 0, room := room, threads := g.launch.threads, wins := wins, start := none, vals := [] }
      places (updGrid g.uid (fun g => { g with ranges := ranges }) (startWg w s.nextId 0 { s with nextId := s.nextId + 1 })))
  ∧ (∀ gid ranges r r2, base → ¬bare → own → free → g.launch.coop = false → g.launch.pair = true →
      takeGid g die = some (gid, ranges) → (x.det = true → lowestLeft g = some gid) → winsOk x wins g.winCount = true →
      pairRooms s g g.launch.groups core coreU = some [r, r2] →
      places (updGrid g.uid (fun g => { g with ranges := ranges }) (startWg (side gid 1 r2) (s.nextId + 1) s.nextId
        (startWg (side gid 0 r) s.nextId (s.nextId + 1) { s with nextId := s.nextId + 2 }))))
  ∧ (∀ r r2, pairRooms s g n core coreU = some [r, r2] → core / 4 = coreU / 4 ∧ r.core = core ∧ r2.core = coreU)
  ∧ (∀ f fs, base → ¬bare → ¬own → g.waiting = f :: fs → (outranked s g die = false ∨ coopBlocks s g = true) →
      places (placeFormed x g f core coreU wins s))
  ∧ (∀ f, pairFormed g f = true ↔ g.launch.pair = true ∧ f.gen = 0 ∧ f.again = false)
  ∧ (∀ f fs, base → ¬bare → ¬own → g.waiting = f :: fs → outranked s g die = true → coopBlocks s g = false → places s)
  ∧ (∀ pair, let kept := g.reserve.take (if pair then 2 else 1)
      let finds := fun x' => formedRooms s x g pair core coreU = x'
      (coopBlocks s g = true → reserveFree s g = true → kept ≠ [] → finds (some (kept, true)))
      ∧ (coopBlocks s g = true → reserveFree s g = false → finds none)
      ∧ (∀ rs, coopBlocks s g = false → roomsFor s g pair 1 core coreU = some rs → finds (some (rs, false)))
      ∧ (coopBlocks s g = false → roomsFor s g pair 1 core coreU = none → anyRooms s g pair 1 ((partDies s x).flatMap dieCores) = true → finds none)
      ∧ (coopBlocks s g = false → anyRooms s g pair 1 ((partDies s x).flatMap dieCores) = false → roomsFor s g pair 1 core coreU = none →
          reserveFree s g = true → kept ≠ [] → finds (some (kept, true))))
  ∧ (∀ b e, x.det = false → b ∈ g.bins → b.target = n → e ∈ b.entries → e.time + 2000 ≤ s.time →
      exec (.groupFormTimeout true g.uid n) s = .next { s with grids := s.grids.map fun h => if h.uid = g.uid then binForm true n 1 h else h })
  ∧ (∀ q e, findQueue n s = some q → q.bound = some g.uid → e ∈ q.entries → e.time + 2000 ≤ s.time →
      let p := readQueue q s
      let r := takeGroup ((findCtx q.ctx s).getD {}).det g p.1
      exec (.groupFormTimeout false g.uid n) s = .next (updQueue n (fun _ => r.2) (updGrid g.uid (fun _ => r.1) p.2))
      ∧ ((∀ e ∈ q.entries, tampered s q e = false) → p = (q, s)))

/-- R18 to R31, R255, R256: placement and the state a group starts with. -/
def Obligations.WorkgroupsArePlacedAndStart : Prop :=
  Sys2Proof.Claims.groupStart ∧ Sys2Proof.Claims.placement

/-! ### What completes by itself -/

/-- R41, R165, R167, R205, R220: an operation in flight has its loads performed, writes its results and its flag counts one less; a ray walk ends
its token with the number of its hits and each lane's five words in its registers, once every translation that it needs is known. -/
def Sys2Proof.Claims.inFlightOps : Prop := ∀ (s : State) (n : Nat) (g : Group),
  findGroup g.uid s = some g →
  (∀ o, g.ops[n]? = some o → ∃ t h q, exec (.varLatencyComplete g.uid n) s = .next t
    ∧ findGroup g.uid (performNth g.uid n (fun _ => true) s) = some h ∧ h = { g with ops := h.ops, gwct := h.gwct, resv := h.resv }
    ∧ h.ops.length = g.ops.length ∧ h.ops[n]? = some q ∧ q.loads = [] ∧ q.flag = o.flag
    ∧ (o.loads = [] → h = g ∧ q = o)
    ∧ findGroup g.uid t = some { completeOp h q with ops := h.ops.eraseIdx n }
    ∧ getF (completeOp h q) o.flag = getF g o.flag - 1 ∧ (∀ f, f ≠ o.flag → getF (completeOp h q) f = getF g f)
    ∧ (∀ a, inFlight s a = false → homeByte t a = homeByte s a))
  ∧ (∀ t any h rays b, liveToken s g.uid n = some (g, t) → t.work = .ray any h rays b →
      let more := fun (p : Nat × List Word × List (Nat × Nat)) => taskOver s g.uid p.1 (readAddrs s g.core g.ctx (recOfBits b) p.2.2) []
      (∀ va tr, walkAll s g any (recOfBits b) rays = .error (va, tr) → exec (.rayWalkComplete g.uid n) s = .next (agentWait g.core g.ctx va 0 tr s))
      ∧ (∀ rs, walkAll s g any (recOfBits b) rays = .ok rs → (∃ p ∈ rs, more p = true) → exec (.rayWalkComplete g.uid n) s = .next s)
      ∧ (∀ rs, walkAll s g any (recOfBits b) rays = .ok rs → (∀ p ∈ rs, more p = false) →
          ∃ u x, exec (.rayWalkComplete g.uid n) s = .next u ∧ findGroup g.uid u = some x ∧ x.tokens = g.tokens.eraseIdx n
            ∧ getS x t.sreg = BitVec.ofNat 32 (rs.countP fun p => decide ((p.2.1.getD 3 0).toNat < 0xFFFFFFFD))
            ∧ x.v = (rs.foldl (fun y p => (laneWrites h p.1 p.2.1).foldl applyWrite y) g).v ∧ (∀ a, homeByte u a = homeByte s a)))

/-- R169 to R171, R205, R357: a tile resolve waits for the translations of its list and of its output, and for its task to be the oldest where its
sets would grow too long. It then ends its token with the number of covered samples, with bit 31 where an access was refused; each output word holds
the visibility word of its sample, or in the second half its depth, of the records that stand in the list; and no other byte of memory has changed.
The token of an aborted task ends with a value that the spec does not state, and nothing is written. -/
def Sys2Proof.Claims.resolves : Prop := ∀ (s : State) (n : Nat) (g : Group) (t : Token),
  findGroup g.uid s = some g → liveToken s g.uid n = some (g, t) →
  (t.work = .void → ∃ u x, exec (.visqComplete g.uid n) s = .next u ∧ findGroup g.uid u = some x ∧ x.tokens = g.tokens.eraseIdx n
    ∧ ∀ a, homeByte u a = homeByte s a)
  ∧ ∀ (l tx ty first count base : Nat) (b27 b28 : BitVec 128), t.work = .visq l tx ty first count base b27 b28 →
    let o := recOfBits b28
    let runs := fun u => exec (.visqComplete g.uid n) s = .next u
    let lists := listAddrs s g (recOfBits b27) first (List.range (insideOf (recOfBits b27) 48 first count))
    let outs := wordAddrs s g.core g.ctx 1 o ((List.range (insideOf o 4 base 2048)).map fun i => (base + i) * o.pitch)
    (∀ va tr, lists = .error (va, tr) → runs (agentWait g.core g.ctx va 0 tr s))
    ∧ (∀ ls va tr, lists = .ok ls → outs = .error (va, tr) → runs (agentWait g.core g.ctx va 1 tr s))
    ∧ ∀ (ls : List (List (Option Nat))) (os : List (Option Nat)), lists = .ok ls → outs = .ok os →
      let whole := ls.filter fun as => as.all Option.isSome
      let grows := taskOver s g.uid l (whole.flatMap fun as => as.filterMap id) (os.filterMap id)
      let refused := decide (whole.length < ls.length) || os.any Option.isNone
      let still := s.stores = [] ∧ s.caches = [] ∧ (∀ op ∈ g.ops, op.loads = []) ∧ specTask s g.uid l = none
        ∧ (∀ p, some p ∈ os ∨ (∃ as ∈ ls, some p ∈ as) → p % 4 = 0 ∧ peerGone s p = false)
      let records := whole.map fun as => vrecOf (as.flatMap fun a => homeBytes s (a.getD 0) 4)
      let sample := fun (i : Nat) => visPixel records ((32 * tx + i % 32 : Nat) * 256 + 128) ((32 * ty + i / 32 : Nat) * 256 + 128)
      let word := fun (i : Nat) => if i < 1024 then ((sample i).map fun q => q.2).getD 0xFFFFFFFF else ((sample (i - 1024)).map fun q => q.1).getD 0x7F800000
      (grows = true → runs s)
      ∧ (grows = false → ∃ u x, runs u ∧ findGroup g.uid u = some x ∧ x.tokens = g.tokens.eraseIdx n
          ∧ (∀ a, inFlight s a = false → (∀ p, some p ∈ os → a < p ∨ p + 4 ≤ a) → homeByte u a = homeByte s a)
          ∧ (still → getS x t.sreg = BitVec.ofNat 32 (((List.range 1024).countP fun i => (sample i).isSome) + if refused then 2 ^ 31 else 0))
          ∧ (still → 2 ≤ o.scope → (∀ (i j p q : Nat), os[i]? = some (some p) → os[j]? = some (some q) → i ≠ j → p + 4 ≤ q ∨ q + 4 ≤ p) →
              ∀ (i p : Nat), os[i]? = some (some p) → homeBytes u p 4 = toBytes 4 (word i).toNat))

/-- R211, R232, R234, R245: a copy that meets no translation to wait for ends its token with the bytes that it has copied, or at a refused one with
its number and bit 31; the group keeps the largest GWCT of its writes with the batch; else it waits and has copied nothing. Every byte of a copy
between two places of memory stands at its destination, and no other byte has changed. -/
def Sys2Proof.Claims.copies : Prop := ∀ (s : State) (n : Nat) (g : Group) (t : Token) (a b : BitVec 128) (sl dl : Bool)
    (si di c sc ev bt gw : Nat) (u : State),
  findGroup g.uid s = some g → liveToken s g.uid n = some (g, t) → t.work = .copy a b sl dl si di c sc ev bt →
  let src := copyEnd s g a sl si ev
  let dst := copyEnd s g b dl di ev
  let run := copyLoop g t.lanes src dst c 0 0 s
  let ends := fun (v : Nat) => ∃ y x, exec (.copyComplete g.uid n) s = .next (barrierCheck g.wg y) ∧ findGroup g.uid y = some x
    ∧ x.tokens = g.tokens.eraseIdx n ∧ getS x t.sreg = BitVec.ofNat 32 v ∧ x.copies = g.copies ++ [{ sreg := some t.sreg, batch := bt, gwct := gw }]
    ∧ ∀ a, homeByte y a = homeByte u a
  let still := s.stores = [] ∧ s.caches = [] ∧ s.tasks = []
  (run = (none, gw, u) → ends c)
  ∧ (∀ i va k p, run = (some ⟨i, va, k, .refused p⟩, gw, u) → ends (i + 2 ^ 31))
  ∧ (∀ i va k, run = (some ⟨i, va, k, .miss⟩, gw, u) → exec (.copyComplete g.uid n) s = .next (agentWait g.core g.ctx va k .miss s))
  ∧ (∀ i va k, run = (some ⟨i, va, k, .absent⟩, gw, u) → exec (.copyComplete g.uid n) s = .next (agentWait g.core g.ctx va k .absent s))
  ∧ (∀ p q : Nat → Nat, still → sl = false → dl = false →
      (∀ i, i < c → src.inside i = true ∧ dst.inside i = true ∧ src.trans s g i 0 = .ok (p i) ∧ dst.trans s g i 1 = .ok (q i) ∧ peerGone s (q i) = false) →
      (∀ i j, i < c → j < c → p i ≠ q j ∧ (i ≠ j → q i ≠ q j)) →
      ∃ w v, run = (none, w, v) ∧ (∀ i, i < c → homeByte v (q i) = homeByte s (p i)) ∧ (∀ a, (∀ i, i < c → a ≠ q i) → homeByte v a = homeByte s a))

/-- R62 to R68, R115, R130: what a code of each format stands for, and what the down-converter makes of an accumulator's word. -/
def Sys2Proof.Claims.elementFormats : Prop := ∀ (t : List Word) (x : Word) (k c : Nat) (f : Fmt),
  let floats := [fp32, fp16, bf16, e4m3, e5m2, e3m2, e2m3, e2m1]
  let int := fun (lo hi : Int) => (f32 x).toInt {} lo hi
  (floats[k]? = some f → fmtDecode t k c = f.decode c ∧ (k ≠ 0 → dconv t k x = f.round {} (f32 x)))
  ∧ dconv t 0 x = x.toNat
  ∧ (c < 256 → fmtDecode t 8 c = FVal.ofInt (BitVec.ofNat 8 c).toInt ∧ fmtDecode t 9 c = FVal.ofInt c)
  ∧ (c < 16 → fmtDecode t 10 c = FVal.ofInt (BitVec.ofNat 4 c).toInt)
  ∧ dconv t 8 x = (BitVec.ofInt 8 (int (-128) 127)).toNat ∧ dconv t 9 x = (int 0 255).toNat ∧ dconv t 10 x = (BitVec.ofInt 4 (int (-8) 7)).toNat
  ∧ fmtDecode t 11 c = e4m3.decode c ∧ fmtDecode t 12 c = e2m3.decode c ∧ fmtDecode t 13 c = e2m1.decode c
  ∧ fmtDecode t 14 c = cpDecode t c ∧ dconv t 14 x = cpEncode {} t (f32 x)

/-- R80, R81, R117, R129 to R132, R136, R139, R141 to R143: what a completed entry leaves. A pass replaces, or with `ACC` adds to, every element of
the rows that its A holds by the exact sum of products rounded once, or the wrapped integer sum, and marks them present; its other rows stay. A
paired entry makes one pass for each side that it has. `MZERO` clears, `MGUID` combines row by row, and `MCVT` publishes its tile. Accumulators that
the entry does not write stay as they are, and so does every tile but the one written and those that are released. -/
def Sys2Proof.Claims.entryResults : Prop := ∀ (s : State) (e : PEntry) (m n k : Nat) (p : Nat × Nat),
  let c := completeEntry e s
  let f := e.val.toNat
  let zero : FVal := .fin false 0 0
  let element := fun (t : Tile) (row k : Nat) =>
    let v := fmtDecode e.compand f (rowBits t row / 2 ^ (fmtBits f * k) % 2 ^ fmtBits f)
    if fmtIsMx f then v.mul (scaleVal (sget 0x7F (8 * row + k / 32) t.scales).toNat) else v
  let row := fun (t : Tile) (j : Nat) => (List.range (fmtK f)).map (element t j)
  let brow := fun (t : Tile) => if bit t.present n then row t n else List.replicate (fmtK f) zero
  let converted := fun (x : Acc) (col : Nat) => dconv e.compand f (accGet x m col)
  let chained := fun (x : Acc) => (List.range (fmtK f)).map fun k =>
    if selQ e.sel * fmtK f + k < 64 then fmtDecode e.compand f (converted x (selQ e.sel * fmtK f + k)) else zero
  let dot := fun (xs ys : List FVal) (x : Word) =>
    if fmtIsInt f then BitVec.ofInt 32 ((List.zipWith (fun a b => intVal a * intVal b) xs ys).sum + if e.acc then x.toInt else 0)
    else rne32 (FVal.sum 0 (List.zipWith FVal.mul xs ys ++ if e.acc then [f32 x] else []))
  let placed := fun (q : Nat × Nat) => (findWg q.1 s).isSome = true
  let keeps := fun (q : Nat × Nat) => bit (accAt c q).pres m = bit (accAt s q).pres m ∧ accGet (accAt c q) m n = accGet (accAt s q) m n
  let pass := fun (present : Bool) (xs : List FVal) (b : Tile) (q : Nat × Nat) => placed q →
    if present then bit (accAt c q).pres m = true ∧ accGet (accAt c q) m n = dot xs (brow b) (accGet (accAt s q) m n) else keeps q
  let own := fun (i : Nat) => (e.wgC, i)
  let cc := accAt s (e.view (selSrc e.sel))
  let cu := accAt s (e.view (selSrc e.sel + 1))
  let pc := e.hasC && bit cc.pres m
  let pu := e.hasU && bit cu.pres m
  let q := bitsOf e.sel 17 16
  let tile := tileAt c (own (selA e.sel))
  m < 64 → n < 64 →
  (e.kind = .mma → e.pair = false → e.chain = false →
    pass (bit (tileAt s (own (selA e.sel))).present m) (row (tileAt s (own (selA e.sel))) m) (tileAt s (own (selB e.sel))) (own (selC e.sel)))
  ∧ (e.kind = .mma → e.pair = false → e.chain = true →
    pass (bit (accAt s (own (selSrc e.sel))).pres m) (chained (accAt s (own (selSrc e.sel)))) (tileAt s (own (selB e.sel))) (own (selC e.sel)))
  ∧ (∀ i, i < 2 → e.kind = .mma → e.pair = true → e.wgC ≠ e.wgU → selC e.sel % 2 = 0 →
    let a := tileAt s (e.view (selA e.sel + i))
    if e.hasSide i then pass (bit a.present m) (row a m) (tileAt s (e.view (selB e.sel))) (e.view (selC e.sel + i)) else keeps (e.view (selC e.sel + i)))
  ∧ (e.kind = .mzero → placed (own (selC e.sel)) → accAt c (own (selC e.sel)) = {})
  ∧ (e.kind = .mguid → p ∈ e.writes → placed p →
    if pc || pu then bit (accAt c p).pres m = true ∧ accGet (accAt c p) m n =
      if pc && pu then fma32 e.val (fsub32 (accGet cc m n) (accGet cu m n)) (accGet cu m n) else if pc then accGet cc m n else accGet cu m n
    else keeps p)
  ∧ (e.kind = .mcvt → placed (own 0) → (tileAt s (own (selA e.sel))).rels = (tileAt s (own (selA e.sel))).relReq →
    tile.state = 2 ∧ tile.tag = some f ∧ bit tile.present m = bit (accAt s (own (selC e.sel))).pres m
    ∧ (k < fmtK f → rowBits tile m / 2 ^ (fmtBits f * k) % 2 ^ fmtBits f =
        (if q * fmtK f + k < 64 then converted (accAt s (own (selC e.sel))) (q * fmtK f + k) else 0) % 2 ^ fmtBits f)
    ∧ (k < 8 → sget 0x7F (8 * m + k) tile.scales = 0x7F))
  ∧ (p ∉ e.writes → accAt c p = accAt s p)
  ∧ (e.dest ≠ some p → tileAt c p = tileAt s p
    ∨ (tileAt s p).rels < (tileAt s p).relReq ∧ tileAt c p = { relReq := (tileAt s p).relReq, rels := (tileAt c p).rels })

/-- R117, R121, R122, R137, R144: with its results an entry's slot is free; its numbers are counted in its threads' watermarks, which rise over all
that have completed; a release that it asked for takes effect once no other entry reads the publication; and a lone entry sets `LONE` of its side
and of its grid, as no other entry does. -/
def Sys2Proof.Claims.entryEnds : Prop := ∀ (s : State) (e : PEntry) (b : Group) (w v : Workgroup) (p : Nat × Nat) (n : Nat),
  let c := completeEntry e s
  let side := e.threads.any fun q => decide (q.1 = w.uid)
  (∀ f, f ∈ c.pattern → f.id ≠ e.id)
  ∧ (∀ f ∈ s.pattern, f.id ≠ e.id → ∃ h ∈ c.pattern, h = { f with saved := h.saved })
  ∧ (bobbinOf b.wg s = some b → (∀ h ∈ allGroups s, h.uid = b.uid → h = b) → ∃ h, findGroup b.uid c = some h ∧ b.mark ≤ h.mark
    ∧ (n ≤ h.mark ∨ n ∈ h.doneAbove ↔ n ≤ b.mark ∨ n ∈ b.doneAbove ∨ (b.wg, n) ∈ e.threads)
    ∧ ((b.wg, n) ∈ e.threads → h.mark + 1 ∉ h.doneAbove)
    ∧ h = { b with mark := h.mark, doneAbove := h.doneAbove })
  ∧ (p ∈ e.released → (findWg p.1 s).isSome = true → (tileAt s p).relReq = (tileAt s p).rels + 1 →
      (∀ f ∈ s.pattern, f.id ≠ e.id → ∀ q ∈ f.tiles, q.1 = p → (tileAt s p).rels < q.2) →
      tileAt c p = { relReq := (tileAt s p).relReq, rels := (tileAt s p).relReq })
  ∧ (findWg w.uid s = some w → findWg w.uid c = some v → v.flags = if e.lone && side then w.flags ||| 1 else w.flags)
  ∧ (∀ g h, findWg w.uid s = some w → side = true → findGrid w.grid s = some g → findGrid w.grid c = some h → e.lone = true → h.lone = true)
  ∧ (e.lone = true ↔ e.pair = true ∧ ¬(e.hasC = true ∧ e.hasU = true))

/-- R117, R121, R122, R137, R138: the oldest entry of a cluster whose operands are there begins; an entry that has begun completes, an `MCVT` once its
tile is EMPTY, after which a workgroup that it was the last operation of retires; and a word that a full table held enters once there is room. The
words of a pair are compared again then, and their entry takes the numbers that its threads have by now. Of two threads the lower slot breaks ties
(log entries 86 and 100). -/
def Sys2Proof.Claims.patternRuns : Prop := ∀ (s : State) (cluster : Nat) (e : PEntry) (g p : Group),
  (oldest ((tableOf cluster s).filter (issuable s)) = some e → ∃ t, exec (.patternEntryIssue cluster) s = .next t
    ∧ t = { s with pattern := s.pattern.map fun f => if f.id = e.id then { f with begun := true } else f }
    ∧ e ∈ s.pattern ∧ ∀ f ∈ s.pattern, f.cluster = cluster → f.saved = false → issuable s f = true →
        e.entered < f.entered ∨ (e.entered = f.entered ∧ e.slot ≤ f.slot))
  ∧ (∀ d, e.dest = some d → (mayComplete s e = true ↔ (tileAt s d).state = 0))
  ∧ (e.dest = none → mayComplete s e = true)
  ∧ (s.pattern.find? (fun f => decide (f.id = e.id) && f.begun && mayComplete s f) = some e → ∃ t, exec (.patternEntryComplete e.id) s = .next t
    ∧ t = retireCheck e.wgU (retireCheck e.wgC (completeEntry e s))
    ∧ (∀ f ∈ t.pattern, f.id ≠ e.id) ∧ (∀ a, homeByte t a = homeByte s a))
  ∧ (findGroup g.uid s = some g → g.held = some (.entry e) → g.stall = .table → g.stop = .running → tableFull e.cluster s = false →
      let u := loadGroup g.uid s
      let runs := fun f => exec (.patternTableEnter g.uid) s = .next (within g.uid f s)
      let info := pairInfo (p.rendezvous.getD (0, 0, 0)) (u.grp.rendezvous.getD (0, 0, 0))
      let o := renewed e p u
      let enters := fun (x : PEntry) => runs (completeWords x)
        ∧ ∃ y, (enterEntry x u).pattern = s.pattern ++ [y] ∧ y.kind = x.kind ∧ y.sel = x.sel ∧ y.val = x.val ∧ y.threads = x.threads
      ((e.hasC && e.hasU) = false → enters e)
      ∧ ((e.hasC && e.hasU) = true → partnerOf u = some p → atRendezvous p = false → runs fun x => x)
      ∧ ((e.hasC && e.hasU) = true → partnerOf u = some p → atRendezvous p = true → info = 0 → enters o)
      ∧ ((e.hasC && e.hasU) = true → partnerOf u = some p → atRendezvous p = true → info ≠ 0 → runs (divergeBoth p info))
      ∧ o.kind = e.kind ∧ o.sel = e.sel ∧ o.val = e.val
      ∧ ((wgOf u).side = 0 → o.threads = [(u.grp.wg, u.grp.count + 1), ((wgOf u).partner, p.count + 1)])
      ∧ ((wgOf u).side ≠ 0 → o.threads = [((wgOf u).partner, p.count + 1), (u.grp.wg, u.grp.count + 1)]))

/-- R202, R217 to R219, R221, R222, R236, R246: a pending store is performed, after the earlier ones of its core to its line: at its home, or with a
workgroup's or core's scope in the L1 of its core, or in the scratchpad; an atomic with the value it finds there, and one to a peer that has left is
dropped. A line's dirty bytes are written back and it is clean; an expired copy leaves its L2; a fence completes once device time has passed its GWCT;
and a claim is granted once every lower workgroup has claimed or retired. -/
def Sys2Proof.Claims.memoryEvents : Prop := ∀ (s : State) (n core line lvl unit : Nat) (g : Group),
  (∀ p, firstPending s n = some p →
    let home := p.addr < taskScratch ∧ ¬(p.scope ≤ 1 ∧ p.evc ≠ 3)
    let runs := fun t => exec (.storePerformAtHome n) s = .next t
    (p.addr < taskScratch → peerGone s p.addr = true → runs { s with stores := s.stores.erase p })
    ∧ (home → p.op = none → peerGone s p.addr = false → p.addr % 128 + p.bytes.length ≤ 128 → ∃ t, runs t
      ∧ homeBytes t p.addr p.bytes.length = p.bytes ∧ t.stores = s.stores.erase p
      ∧ (∀ a, (a < 128 * lineOf p.addr ∨ 128 * lineOf p.addr + 128 ≤ a) → inFlight s a = false → homeByte t a = homeByte s a))
    ∧ (∀ op, home → p.op = some op → peerGone s p.addr = false →
        let old := wordOf (homeBytes (writeBackAt (coreOfGroup p.grp s) (lineOf p.addr) s) p.addr 4)
        ∃ t, runs t ∧ homeBytes t p.addr 4 = toBytes 4 (atomicNew op old p.operand 0).toNat ∧ t.stores = s.stores.erase p)
    ∧ (p.addr < taskScratch → p.scope ≤ 1 → p.evc ≠ 3 → p.op = none → peerGone s p.addr = false → p.addr % 128 + p.bytes.length ≤ 128 →
        ∃ t c, runs t ∧ t.stores = s.stores.erase p ∧ findLine 1 (coreOfGroup p.grp s) (lineOf p.addr) t = some c
          ∧ (∀ i b, p.bytes[i]? = some b → sfind (p.addr % 128 + i) c.dirty = some b) ∧ (∀ a, homeByte t a = homeByte s a))
    ∧ (∀ w, taskScratch ≤ p.addr → p.op = none → findWg ((p.addr - taskScratch) / 2 ^ 20) s = some w →
        ∃ t v, runs t ∧ t.stores = s.stores.erase p ∧ findWg w.uid t = some v ∧ (∀ a, homeByte t a = homeByte s a)
          ∧ ∀ i b, p.bytes[i]? = some b → sfind ((p.addr - taskScratch) % 2 ^ 20 + i) v.scratch = some b))
  ∧ (∃ t, exec (.l1WriteBack core line) s = .next t
    ∧ (∀ c ∈ t.caches, c.lvl = 1 → c.unit = core → c.line = line → c.dirty = [])
    ∧ (∀ a, inFlight s a = false → homeByte t a = homeByte s a))
  ∧ (∃ t, exec (.leaseExpiry lvl unit line) s = .next t ∧ (∀ a, homeByte t a = homeByte s a)
    ∧ (∀ c, findLine lvl unit line s = some c → lvl = 2 → c.expiry ≤ s.time → findLine lvl unit line t = some { c with copy := none })
    ∧ (∀ c, findLine lvl unit line s = some c → (lvl ≠ 2 ∨ s.time < c.expiry) → t = s))
  ∧ (findGroup g.uid s = some g → g.stop = .running → releaseDone g ((g.act.map fun e => e.mask).getD 0) s.time = true →
      (g.stall = .fence → exec (.fenceReleaseComplete g.uid) s = .next (within g.uid finish s))
      ∧ (g.stall = .release → exec (.fenceReleaseComplete g.uid) s = .next (updGroup g.uid (fun h => { h with stall := .none }) s)))
  ∧ (∀ u d x w r, findGroup g.uid s = some g → g.held = some (.claim u d x) → g.stop = .running → g.stall = .append → findWg g.wg s = some w →
      findGrid w.grid s = some r → lowerDone s r u.toNat w = true →
      exec (.appendGrant g.uid) s = .next (within g.uid (fun s => grantClaim u d x (recordClaim u.toNat s)) s))

/-- R41, R117, R121, R122, R129 to R132, R139, R142, R144, R167, R171, R217 to R221, R232: what completes by itself. -/
def Obligations.OperationsInFlightComplete : Prop :=
  Sys2Proof.Claims.inFlightOps ∧ Sys2Proof.Claims.resolves ∧ Sys2Proof.Claims.copies
  ∧ (Sys2Proof.Claims.patternRuns ∧ Sys2Proof.Claims.elementFormats ∧ Sys2Proof.Claims.entryResults ∧ Sys2Proof.Claims.entryEnds)
  ∧ Sys2Proof.Claims.memoryEvents

/-! ### Retirement, saving out, tasks -/

/-- R32, R33, R205, R255: a vector group without live lanes, flags that count or pending tokens retires, with what it stored performed; a retired
grid's completion record is written, STATUS last, once its tasks have committed and device time has passed its last GWCT, and the grid is gone. -/
def Sys2Proof.Claims.retirement : Prop := ∀ (s : State) (g : Group) (r : Grid) (t0 : Nat),
  (findGroup g.uid s = some g → g.uid ≠ 0 →
    (mayRetire g = true ↔ g.kind = .vector ∧ g.live = 0 ∧ g.act = none ∧ g.ops = [] ∧ g.tokens = [])
    ∧ (mayRetire g = false → exec (.groupRetire g.uid) s = .next s)
    ∧ (mayRetire g = true → ∃ t, exec (.groupRetire g.uid) s = .next t ∧ (∀ h ∈ allGroups t, h.uid ≠ g.uid)
        ∧ (∀ p ∈ t.stores, p.grp ≠ g.uid) ∧ (∀ a, inFlight s a = false → homeByte t a = homeByte s a)))
  ∧ (findGrid r.uid s = some r →
    (r.ended = none → exec (.completionRecordWrite r.uid) s = .next s)
    ∧ (r.ended = some t0 → r.gwct ≠ 0 → s.time ≤ r.gwct → exec (.completionRecordWrite r.uid) s = .next s)
    ∧ (∀ k ∈ s.tasks, k.grid = r.uid → exec (.completionRecordWrite r.uid) s = .next s)
    ∧ (∀ u, r.ended = some t0 → (r.gwct = 0 ∨ r.gwct < s.time) → (∀ k ∈ s.tasks, k.grid ≠ r.uid) →
        writeCompletion (partCore s ((findCtx r.ctx s).getD {})) r.ctx r.launch.compl 1 (gridInfo r) r.gridId r.wgDone (r.tstart.getD t0) t0 s = .ok u →
        ∃ t, exec (.completionRecordWrite r.uid) s = .next t ∧ (∀ h ∈ t.grids, h.uid ≠ r.uid) ∧ (∀ q ∈ t.queues, q.bound ≠ some r.uid)
          ∧ (∀ a, inFlight u a = false → homeByte t a = homeByte u a)))

/-- R255: the bytes of a completion record in its order: STATUS, INFO, `GRIDID`, workgroups completed, TSTART, TEND and zeros; the record is 64
bytes at COMPL, and no other byte changes. -/
def Sys2Proof.Claims.completionRecord : Prop := ∀ (s u : State) (core ctx compl status info id done ts te base : Nat),
  writeCompletion core ctx compl status info id done ts te s = .ok u →
  (∀ i, i < 64 → agentTranslate s core ctx (compl + i) 1 = .ok (base + i)) → (∀ i, i < 64 → peerGone s (base + i) = false) →
  homeBytes u base 64 = toBytes 4 status ++ toBytes 4 info ++ toBytes 4 id ++ toBytes 4 done ++ toBytes 8 ts ++ toBytes 8 te ++ List.replicate 32 0
  ∧ (∀ a, a < base ∨ base + 64 ≤ a → homeByte u a = homeByte s a)

/-- R32, R124, R236, R248: a workgroup whose live threads all wait for children leaves its core with its results written, its stores performed
and device time past the GWCT of its threads, and returns to a core that has room once no child is left. -/
def Sys2Proof.Claims.saveOut : Prop := ∀ (s : State) (w : Workgroup) (core coreU : Nat) (x : Context),
  findWg w.uid s = some w → w.uid ≠ 0 →
  (mayLeave s w = false → exec (.workgroupSaveOut w.uid) s = .next s)
  ∧ (mayLeave s w = true → findWg w.partner s = none → ∃ t v, exec (.workgroupSaveOut w.uid) s = .next t ∧ findWg w.uid t = some v
      ∧ v.saved = true ∧ v.savedOut = true ∧ v.room = none
      ∧ (∀ g ∈ allGroups t, g.wg = w.uid → g.act = none ∧ g.ops = [] ∧ (∀ p ∈ t.stores, p.grp ≠ g.uid)
          ∧ ∀ l, sget 0 l g.gwct = 0 ∨ sget 0 l g.gwct < t.time)
      ∧ (∀ a, inFlight s a = false → homeByte t a = homeByte s a))
  ∧ (servedCtx s w.ctx = some x → (w.saved = false ∨ inPartition x core = false) → exec (.workgroupRestore w.uid core coreU) s = .next s)
  ∧ (∀ g r, servedCtx s w.ctx = some x → w.saved = true → w.children = 0 → inPartition x core = true → inPartition x coreU = true →
      findWg w.partner s = none → findGrid w.grid s = some g → roomAgain s g w core = some r →
      ∃ t v, exec (.workgroupRestore w.uid core coreU) s = .next t ∧ findWg w.uid t = some v
        ∧ v.saved = false ∧ v.room = some r ∧ v.core = r.core ∧ v.scratch = w.scratch ∧ v.tiles = w.tiles ∧ v.accs = w.accs)

/-- R204 to R207: while nothing earlier can arrive, the oldest task of an ordered queue commits once it has exited, its copies and resolves are done
and its entries fit; before that it goes on without speculation with its writes applied. Its commit makes what it wrote visible at once and ends the
later tasks that have read a line it wrote. Nothing else commits, and nothing happens while an earlier entry can still arrive. That a task's entries
for bins enter at its commit is the model's choice (log entry 95). -/
def Sys2Proof.Claims.taskCommit : Prop := ∀ (s : State) (q : Nat) (k : Task),
  (oldestTask s q = none → exec (.taskCommit q) s = .next s)
  ∧ (oldestTask s q = some k → k.queue = q ∧ k ∈ s.tasks ∧ (∀ o ∈ uncommitted s q, ¬(o.1 < k.ts ∨ (o.1 = k.ts ∧ o.2.toNat < k.payload.toNat)))
      ∧ (mayArrive s k = true → exec (.taskCommit q) s = .next s)
      ∧ (k.exited = true → mayArrive s k = false → workDone s k = true → pushesFit s k = true →
          (∀ qu va tr, pushesWait s k = some (qu, va, tr) → exec (.taskCommit q) s = .next (agentWait (queueCore s qu) qu.ctx va 1 tr s))
          ∧ (pushesWait s k = none → ∃ t, exec (.taskCommit q) s = .next t ∧ (∀ o ∈ t.tasks, isTask k o = false)
              ∧ (k.spec = true → ∀ o ∈ t.tasks, conflicts k o = false)
              ∧ (∀ c e r, k.regrps = [(c, e)] → findGrid k.grid s = some r → ((findCtx r.ctx s).map fun x => x.det) = some false →
                  ∃ h, findGrid k.grid t = some h ∧ ∃ b ∈ h.bins, b.target = c ∧ e ∈ b.entries)
              ∧ (∀ a b, k.spec = true → k.pushes = [] → k.wset = [(a, b)] → a < taskScratch → peerGone s a = false →
                  (∀ o ∈ s.tasks, conflicts k o = false) → homeByte t a = b ∧ ∀ c ∈ t.caches, c.line = lineOf a → c.copy = none)))
      ∧ (k.spec = true → mayArrive s k = false → (k.exited = false ∨ workDone s k = false ∨ pushesFit s k = false) → ∃ t, exec (.taskCommit q) s = .next t
          ∧ t.tasks.length = s.tasks.length ∧ (∀ o ∈ t.tasks, isTask k o = true → o.spec = false))
      ∧ (k.spec = false → (k.exited = false ∨ workDone s k = false ∨ pushesFit s k = false) → exec (.taskCommit q) s = .next s))

/-- R32, R33, R204 to R206, R255: retirement, saving out and tasks. -/
def Obligations.WorkRetiresAndIsSaved : Prop :=
  Sys2Proof.Claims.retirement ∧ Sys2Proof.Claims.completionRecord ∧ Sys2Proof.Claims.saveOut ∧ Sys2Proof.Claims.taskCommit

/-! ### Turns, routines, pre-emption, the watchdog -/

/-- R265, R267: the oldest vector group of a quarter that has been issuable and not chosen for 1,024 clocks takes the next turn; between clauses
an entry whose age has reached 4,032 is selected. -/
def Sys2Proof.Claims.starvation : Prop := ∀ (s : State) (core quarter : Nat) (g h : Group) (e : FEntry),
  (starved s core quarter = none → exec (.issueStarvation core quarter) s = .next s)
  ∧ (starved s core quarter = some h → exec (.issueStarvation core quarter) s = .next { s with tape := { due := s.time, what := .issue h.uid } :: s.tape }
      ∧ h ∈ allGroups s ∧ h.core = core ∧ issuableGroup s h = true ∧ h.ready + starveNs s ≤ s.time
      ∧ ∀ o ∈ allGroups s, o.core = core → inQuarter quarter o.slot = true → issuableGroup s o = true → o.ready + starveNs s ≤ s.time →
          h.placed ≤ o.placed ∧ (h.placed = o.placed → h.gidx ≤ o.gidx))
  ∧ (findGroup g.uid s = some g → g.act = none → g.stop = .running → selectEntry s g = some e →
      (e.age < 4032 → exec (.frontierAgeLimit g.uid) s = .next s)
      ∧ (4032 ≤ e.age → ∃ t x, exec (.frontierAgeLimit g.uid) s = .next t ∧ findGroup g.uid t = some x ∧ x.act = some e
          ∧ x = { g with act := some e, frontier := x.frontier } ∧ (∀ a, homeByte t a = homeByte s a)))

/-- R304 to R306, R324, R365: the walker slot of a core takes its oldest miss and the handler slot its oldest trap. The routine has one lane at the
first instruction of its code object, the registers of R365, and serves the issuer. A page report is written into the ring at TAIL, which moves,
wherever the ring's memory has its home. -/
def Sys2Proof.Claims.routines : Prop := ∀ (s : State) (core : Nat) (m : Miss) (x : Context) (g : Group) (tr : TrapRec) (c : Code),
  (slotBusy s .walker core = false → s.misses.find? (fun m => decide (m.core = core) && (walkedCtx s m.ctx).isSome) = some m → findCtx m.ctx s = some x →
    linkWaits s x.walkerVa = false → ∃ t w, exec (.tlbMissWalk core) s = .next t ∧ t.groups = s.groups ++ [w] ∧ t = { s with groups := t.groups, nextId := s.nextId + 1 }
      ∧ w.kind = .walker ∧ w.core = core ∧ w.ctx = m.ctx ∧ w.serves = m.grp ∧ w.live = 1 ∧ w.missVa = m.va ∧ w.missKind = m.kind
      ∧ getS w 0 = BitVec.ofNat 32 m.va ∧ getS w 1 = BitVec.ofNat 32 (m.va % 2 ^ 57 / 2 ^ 32) ∧ getS w 2 = BitVec.ofNat 32 m.kind
      ∧ getS w 4 = BitVec.ofNat 32 m.ctx ∧ (∀ r, r ≠ 0 → r ≠ 1 → r ≠ 2 → r ≠ 4 → getS w r = 0))
  ∧ (slotBusy s .handler core = false → (s.traps.find? fun t => match findGroup t.2 s with
        | some g => decide (whoCore g = core) && (servedCtx s g.ctx).isSome
        | none => false) = some (core, g.uid) →
      findGroup g.uid s = some g → g.trap = some tr → findCtx g.ctx s = some x → handlerCode s core x = .ok c →
    ∃ t h, exec (.handlerStart core) s = .next t ∧ t.groups = s.groups ++ [h] ∧ t.traps = s.traps.filter (fun q => decide (q.2 ≠ g.uid))
      ∧ t = { s with groups := t.groups, traps := t.traps, nextId := s.nextId + 1, agentWalks := t.agentWalks, members := t.members }
      ∧ h.kind = .handler ∧ h.core = core ∧ h.ctx = g.ctx ∧ h.serves = g.uid ∧ h.live = 1 ∧ h.trap = some tr ∧ h.hlane = (lowLane tr.mask).getD 0
      ∧ getS h 0 = BitVec.ofNat 32 core ∧ getS h 1 = BitVec.ofNat 32 (slotCode g) ∧ (∀ r, 2 ≤ r → getS h r = 0)
      ∧ h.frontier = [{ pc := c.ventry - 256, mask := 1 }])
  ∧ (∀ f r rs, s.ring = some f → s.reports = r :: rs → linkUp s = true → f.tail - f.head < f.n → f.tail + 1 < 2 ^ 64 →
    ∃ t, exec .pageReportWrite s = .next t ∧ t.reports = rs ∧ t.ring = some { f with tail := f.tail + 1 } ∧ t.mbox.ftail = BitVec.ofNat 32 (f.tail + 1)
      ∧ t.mbox.evt.getLsbD 1 = true
      ∧ (f.base % 32 = 0 → f.base + 32 * f.n ≤ peerBase →
          (∀ i, i < 32 → isHost s (f.base + 32 * (f.tail % f.n) + i) = isHost s (f.base + 32 * (f.tail % f.n))) → ∀ i, i < 32 →
          sget unwritten (f.base + 32 * (f.tail % f.n) + i) t.host = (reportBytes s r).getD i 0))

/-- R265, R267, R304 to R306, R324, R365: starved work and the routines of the walker and handler slots. -/
def Obligations.StarvedWorkAndRoutinesTakeTheirTurns : Prop :=
  Sys2Proof.Claims.starvation ∧ Sys2Proof.Claims.routines

/-- R248, R300, R336, R337, R339: pre-empting a resident context writes its results in flight, performs its stores, lets device time pass the GWCT of
its threads, and frees its rooms and its TLB entries; a context whose workgroups find their rooms is resident again; a context that hangs ends
through the pocket: nothing of it runs any more, and it is gone once its completion records are written. That a pre-emption waits for the
translations of frames that it keeps is the model's reading (log entry 90). -/
def Obligations.ContextsArePreemptedAndRestored : Prop := ∀ (s : State) (x : Context) (cores : List (Nat × Nat)),
  findCtx x.id s = some x → x.id ≠ 0 →
  (x.resident = false → exec (.preempt x.id) s = .next s)
  ∧ (∀ va, x.resident = true → ringWaits x.id s = some va → exec (.preempt x.id) s = .next (agentWait (partCore s x) x.id va 0 .miss s))
  ∧ (x.resident = true → ringWaits x.id s = none → ∃ t, exec (.preempt x.id) s = .next t
      ∧ (∀ y, findCtx x.id t = some y → y.resident = false)
      ∧ (∀ g ∈ allGroups t, g.ctx = x.id → g.act = none ∧ g.ops = [] ∧ (∀ p ∈ t.stores, p.grp ≠ g.uid)
          ∧ ∀ l, sget 0 l g.gwct = 0 ∨ sget 0 l g.gwct < t.time)
      ∧ (∀ w ∈ t.wgs, w.ctx = x.id → w.saved = true ∧ w.room = none)
      ∧ (∀ e ∈ t.tlb, e.ctx ≠ x.id))
  ∧ ((x.resident = true ∨ x.held = true ∨ x.ending = true ∨ 64 ≤ s.ctxs.countP fun c => c.resident) → exec (.contextMakeResident x.id cores) s = .next s)
  ∧ (∀ u, x.resident = false → x.held = false → x.ending = false → (s.ctxs.countP fun c => c.resident) < 64 → placeSaved cores (toPlace x.id s) s = some u →
      ∃ t, exec (.contextMakeResident x.id cores) s = .next t ∧ (∀ y, findCtx x.id t = some y → y.resident = true ∧ y.lastProgress = u.time))
  ∧ (hangs s x = false → exec (.hangWatchdog x.id) s = .next s)
  ∧ (hangs s x = true → x.ending = false → ∃ t, exec (.hangWatchdog x.id) s = .next t
      ∧ (∀ y, findCtx x.id t = some y → y.ending = true ∧ y.resident = false) ∧ (∀ g ∈ allGroups t, g.ctx ≠ x.id ∨ g.uid = 0)
      ∧ (∀ w ∈ t.wgs, w.ctx ≠ x.id) ∧ (∀ r ∈ t.grids, r.ctx ≠ x.id)
      ∧ ∃ p ∈ t.pockets, p.ctx = x.id ∧ p.chain.map (fun r => r.cause) = [0x18])

/-! ### The device -/

/-- R301, R338, R342, R343, R13: a start takes the units that fail out of service and brings the device up, or fails with its reason; the third
failure in a row brings it up in minimal mode with the reason to be read. An image passes verification when its Falcon-1024 signature verifies over
its SHAKE256 digest, and the digests are what a quote measures. An uncorrectable error ends the context that owns it, makes a cache entry invalid,
or restarts the device. Partitions change only while every context keeps its own. That an error in the firmware complex is a failed start with
reason 6, and the order in which a start's reasons are looked at, are the model's reading (log entry 45). -/
def Obligations.DeviceStartsAndRecovers : Prop :=
  ∀ (s : State) (rep : StartReport) (reason : Nat) (c n pa mhz : Nat) (u : UnitId) (hbm : Bool) (x : Context) (layout : List (Nat × Nat)),
  let out := takenOut rep.failed s
  let verified := rep.images.all fun m => decide (m.sig.length ≤ 1280) && Config.falconVerify (shake256 m.bytes 32) m.sig
  let measured := if verified then rep.images.map fun m => (m.ident, ofBytes (shake256 m.bytes 32)) else []
  let keeps := fun (t : State) => t.hbm = s.hbm ∧ t.host = s.host ∧ t.time = s.time ∧ t.ctxs = [] ∧ t.grids = [] ∧ t.wgs = [] ∧ t.groups = [] ∧ t.queues = []
    ∧ t.tlb = [] ∧ t.ide = false
  let fails := fun (t : State) (out : List UnitId) (r : Nat) => keeps t ∧ t.failedStarts = s.failedStarts + 1 ∧ t.out = out ∧ t.unitErrors = []
    ∧ (s.failedStarts < 2 → t.started = false)
    ∧ (2 ≤ s.failedStarts → t.started = true ∧ t.minimal = true ∧ t.mbox.reason = BitVec.ofNat 8 r)
  (s.started = true → exec (.deviceStart rep) s = .next s ∧ exec .firmwareReadyTimeout s = .next s)
  ∧ (s.started = false → startFailure rep out = none → ∃ t, exec (.deviceStart rep) s = .next t ∧ keeps t ∧ t.started = true ∧ t.minimal = false
      ∧ t.failedStarts = 0 ∧ t.out = out ∧ t.unitErrors = [] ∧ t.images = measured)
  ∧ (s.started = false → startFailure rep out = some reason → ∃ t, exec (.deviceStart rep) s = .next t ∧ fails t out reason ∧ t.images = measured)
  ∧ (s.started = false → ∃ t, exec .firmwareReadyTimeout s = .next t ∧ fails t (takenOut [] s) 5)
  ∧ (out.Nodup ∧ ∀ v, v ∈ out ↔ v ∈ s.out ∨ v ∈ rep.failed ∨ 2 ≤ s.unitErrors.countP fun w => w == v)
  ∧ (startFailure rep out = if verified = false then some 1 else if rep.baseOk = false then some 3
      else if (List.range 8).all (fun d => out.contains (.die d)) then some 2 else if (List.range 12).all (fun d => out.contains (.stack d)) then some 4
      else if rep.ready = false then some 5 else none)
  ∧ exec (.eccCorrectable hbm pa) s = .next { s with corrected := s.corrected + 1 }
  ∧ (findCtx c s = some x → x.ending = false → ∃ t, exec (.eccUncorrectable (.context c) u hbm pa) s = .next t ∧ t.unitErrors = s.unitErrors ++ [u]
      ∧ (∀ y, findCtx c t = some y → y.ending = true ∧ y.resident = false) ∧ (∀ w ∈ t.wgs, w.ctx ≠ c) ∧ (∀ r ∈ t.grids, r.ctx ≠ c)
      ∧ ∃ p ∈ t.pockets, p.ctx = c ∧ p.chain.map (fun r => (r.cause, r.addr, r.info)) = [(0x19, pa % 2 ^ 52, if hbm then 1 else 0)])
  ∧ (∃ t, exec (.eccUncorrectable (.fittingEntry n) u hbm pa) s = .next t ∧ ∀ f ∈ t.fits, f.id = n → f.valid = false)
  ∧ (∃ t, exec (.eccUncorrectable .firmware u hbm pa) s = .next t ∧ fails t (takenOut [] { s with unitErrors := s.unitErrors ++ [u] }) 6)
  ∧ (s.started = true → s.minimal = false → layoutOk layout = true → (∀ k ∈ s.ctxs, (k.partBase, k.partSize) ∈ layout) →
      exec (.partitionChange layout) s = .next { s with layout := layout })
  ∧ ((s.started = false ∨ s.minimal = true ∨ layoutOk layout = false ∨ ∃ k ∈ s.ctxs, (k.partBase, k.partSize) ∉ layout) →
      exec (.partitionChange layout) s = .next s)
  ∧ (0 < mhz → exec (.thermalClockLimit mhz) s = .next { s with clockMhz := min mhz 1300 })

/-- R241, R253, R313: over a working link a host write to HBM is performed at the home, after the dirty bytes of its lines and with every device copy
of them gone; a host write to host memory likewise, and one that touches a TAIL line reaches the front end; a read changes nothing. -/
def Sys2Proof.Claims.hostAccesses : Prop := ∀ (s : State) (pa len : Nat) (bytes : List Byte),
  let lines := fun (a : Nat) => lineOf pa ≤ lineOf a ∧ lineOf a ≤ lineOf (pa + bytes.length - 1)
  let allHbm := ∀ i, i < bytes.length → isHost s (pa + i) = false
  let allHost := ∀ i, i < bytes.length → isHost s (pa + i) = true
  let clean := fun (t : State) => ∀ c ∈ t.caches, lines (128 * c.line) → bytes ≠ [] → c.copy = none ∧ c.dirty = []
  let frame := fun (t : State) => ∀ a, a < pa ∨ pa + bytes.length ≤ a → inFlight s a = false → homeByte t a = homeByte s a
  let apart := ∀ q ∈ s.queues, q.device = true ∨ q.stopped = true ∨ q.tailAddr + 8 ≤ pa ∨ pa + bytes.length ≤ q.tailAddr
  (linkUp s = false → exec (.hostCxlMemWrite pa bytes) s = .next s)
  ∧ (¬allHbm → exec (.hostCxlMemWrite pa bytes) s = .next s)
  ∧ (linkUp s = true → allHbm → pa + bytes.length ≤ peerBase → ∃ t, exec (.hostCxlMemWrite pa bytes) s = .next t
      ∧ homeBytes t pa bytes.length = bytes ∧ frame t ∧ clean t)
  ∧ exec (.hostCxlMemRead pa len) s = .next s
  ∧ (linkUp s = false ∨ apart → ∃ t, exec (.cxlCacheSnoop pa bytes) s = .next t ∧ t.queues = s.queues ∧ frame t
      ∧ (pa + bytes.length ≤ peerBase → allHost → homeBytes t pa bytes.length = bytes ∧ clean t)
      ∧ (allHbm → hostBytes t pa bytes.length = bytes))
  ∧ (∀ q, linkUp s = true → s.queues = [q] → q.device = false → q.stopped = false → pa = q.tailAddr → bytes.length = 8 →
      exec (.cxlCacheSnoop pa bytes) s = exec (.hostTailWrite q.num (ofBytes bytes)) s)
  ∧ (s.started = false ∨ s.minimal = true → exec .ideStreamSetup s = .next s)
  ∧ (s.started = true → s.minimal = false → s.queues = [] → exec .ideStreamSetup s = .next { s with ide := true })

/-- R218, R222, R246, R316 to R318: members leave and join a Seam domain, this device's time joins the source's and never goes back, and a peer's
access to an exported window is performed at the home when its grant allows it. The lines that a peer loads are leased to it. What a member that
leaves had here is gone: translations to its windows, copies of its lines, and stores on their way to it; the loads on their way to it are lost. -/
def Sys2Proof.Claims.domain : Prop :=
  ∀ (s : State) (m count win off len : Nat) (x : Member) (e : PeerExport) (c : Context) (bs data : List Byte),
  let window := fun (o : TlbEntry) => s.imports.any fun i =>
    decide (i.member = m) && decide (i.ctx = o.ctx) && decide (i.va < o.va + pageBytes o.size) && decide (o.va < i.va + i.len)
  let lose := fun (p : PLoad) => if decide (p.place = .mem) && decide (peerOf p.addr = some m) then { p with lost := true } else p
  let lost := fun (g : Group) => { g with ops := g.ops.map fun o => { o with loads := o.loads.map lose } }
  let left := { mapGroups lost s with
    members := s.members.map fun (y : Member) => if y.num = m then { y with present := false, joined := false } else y
    tlb := s.tlb.filter fun o => !window o
    agentWalks := []
    stores := s.stores.filter fun p => decide (p.peer ≠ some m)
    caches := s.caches.filter fun c => decide (peerOf (128 * c.line) ≠ some m) }
  (findMember m s = some x → x.present = true → exec (.peerLeaveAnnounce m) s = .next left ∧ memberPresent left m = false)
  ∧ (findMember m s = none ∨ (findMember m s = some x ∧ x.present = false) → exec (.peerLeaveAnnounce m) s = .next s)
  ∧ (findMember m s = some x → x.present = true → x.flit + 20000 ≤ s.time → exec (.peerSilenceTimeout m) s = .next left)
  ∧ (findMember m s = some x → s.time < x.flit + 20000 → exec (.peerSilenceTimeout m) s = .next s)
  ∧ (s.started = true → s.minimal = false → m < 256 → m ≠ s.self → ∃ t, exec (.peerJoin m count) s = .next t
      ∧ findMember m t = some { num := m, present := true, joined := false, flit := s.time })
  ∧ (s.started = true → s.minimal = false → s.self < 256 → s.selfJoined = false → s.joinReady = none → ∃ t, exec (.peerJoin s.self count) s = .next t
      ∧ t.time = max s.time count ∧ t.joinReady = some (max s.time count + (max s.time count - count) - 12))
  ∧ (∀ d, s.joinReady = some d → d ≤ s.time → exec (.timeJoinComplete s.self) s = .next { s with selfJoined := true, joinReady := none })
  ∧ (∀ d, s.joinReady = some d → s.time < d → exec (.timeJoinComplete s.self) s = .next s)
  ∧ (m ≠ s.self → exec (.timeJoinComplete m) s = .next { s with members := s.members.map fun (y : Member) =>
      if y.num = m ∧ y.present then { y with joined := true, flit := s.time } else y })
  ∧ (findMember m s = some x → (x.present = false ∨ x.joined = false ∨ s.selfJoined = false) → ∀ op, exec (.peerAccess m win off op) s = .next s)
  ∧ (findMember m s = some x → x.present = true → x.joined = true → s.selfJoined = true → s.exports.find? (fun o => decide (o.win = win)) = some e →
      findCtx e.ctx s = some c →
      let u := { s with members := s.members.map fun (y : Member) => if y.num = m then { y with flit := s.time } else y }
      (off + len ≤ e.len → e.r = true → agentRead u (partCore s c) c.id (e.va + off) 0 len = .ok data →
        ∃ t, exec (.peerAccess m win off (.load len)) s = .next t ∧ t = { u with free := t.free, leases := t.leases, agentWalks := t.agentWalks }
          ∧ ∀ i a, i < len → (i = 0 ∨ (e.va + off + i) % 128 = 0) → agentTranslate u (partCore s c) c.id (e.va + off + i) 0 = .ok a →
              s.time ≤ sget 0 (lineOf a) t.leases)
      ∧ (∀ t, off + bs.length ≤ e.len → e.w = true → agentWrite (partCore s c) c.id (e.va + off) bs u = .ok t →
        exec (.peerAccess m win off (.store bs)) s = .next (forgetWalks c.id t))
      ∧ (∀ o y z d t, off + 4 ≤ e.len → e.w = true → agentRead u (partCore s c) c.id (e.va + off) 1 4 = .ok d →
        agentWrite (partCore s c) c.id (e.va + off) (toBytes 4 (atomicNew o (wordOf d) y z).toNat) u = .ok t →
        exec (.peerAccess m win off (.atomic o y z)) s = .next (forgetWalks c.id t))
      ∧ ((e.len < off + len ∨ e.r = false) → exec (.peerAccess m win off (.load len)) s = .next u)
      ∧ ((e.len < off + bs.length ∨ e.w = false) → exec (.peerAccess m win off (.store bs)) s = .next u))

/-- R222, R241, R253, R313, R316 to R318: the host link and the Seam domain. -/
def Obligations.DeviceHostAndDomain : Prop :=
  Sys2Proof.Claims.hostAccesses ∧ Sys2Proof.Claims.domain

/-- R319, R340, R341: at each instant of the frame lock the engine presents the frame that its check found complete, or else a cloak or black frame,
and counts it. The check looks at the slots once, at the margin before the instant, and writes TDONE; where the context has been saved or has
ended, it looks at the complete frames that the context left. As device time passes that moment, the check is made. A check that waits for a
translation looks at the memory as it stood at its moment, and one that is not made by its instant finds no frame (log entry 48, DEDUCED); the
complete frames of a saved or ended context are read as it is saved or ends (log entry 90, DEDUCED). -/
def Obligations.FramesArePresentedAtInstants : Prop := ∀ (s : State) (l : FrameLock) (f : FrameSource) (g : GoodFrame) (due va : Nat),
  s.lock = some l → presents s = true → s.present.source = some f → s.present.nextSource = none →
  let i := nextInstant l s.present.lastAt
  let shown := fun (r : Present → Present → Prop) => ∃ t, exec .presentInstant s = .next t ∧ t.present.lastK = i.1 ∧ t.present.lastAt = i.2
    ∧ t.present.decided = none ∧ t.present.checking = none ∧ t.present.source = some f ∧ r s.present t.present
  let here := s.present.gone = false ∧ (s.present.keeping = true ∨ ∃ x, findCtx f.ctx s = some x ∧ x.resident = true)
  let now := s.time < i.2 ∧ (s.time + f.margin = i.2 ∨ s.present.checking = some i.1)
  let core := partCore s ((findCtx f.ctx s).getD {})
  let seen := if s.present.checking = some i.1 then { s with hbm := s.present.seen.1, host := s.present.seen.2.1, peer := s.present.seen.2.2 } else s
  let turns := fun (t : State) => exec .presentCheck s = .next t
  let checked := fun (d : Option GoodFrame) => { s.present with decided := some (i.1, d), checking := none }
  (s.time < i.2 → exec .presentInstant s = .next s)
  ∧ (i.2 ≤ s.time → s.present.decided = some (i.1, some g) →
      shown fun p q => q.frames = p.frames + 1 ∧ q.cloaks = p.cloaks ∧ q.blacks = p.blacks ∧ q.good = some g)
  ∧ (i.2 ≤ s.time → s.present.decided = some (i.1, none) → s.present.good = some g →
      shown fun p q => q.frames = p.frames ∧ q.cloaks = p.cloaks + 1 ∧ q.blacks = p.blacks ∧ q.good = some g)
  ∧ (i.2 ≤ s.time → s.present.decided = some (i.1, none) → s.present.good = none →
      shown fun p q => q.frames = p.frames ∧ q.cloaks = p.cloaks ∧ q.blacks = p.blacks + 1)
  ∧ (s.present.todo = [] → ¬now → exec .presentCheck s = .next s)
  ∧ (s.present.todo = [] → (∃ d, s.present.decided = some (i.1, d)) → exec .presentCheck s = .next s)
  ∧ ((here → frameFor s f i.1 = findSlot s f i.1 (List.range f.slots))
      ∧ (¬here → s.present.kept.find? (fun k => decide (k.k = i.1)) = none → frameFor s f i.1 = .no)
      ∧ (¬here → s.present.kept.find? (fun k => decide (k.k = i.1)) = some g → frameFor s f i.1 = .complete g))
  ∧ (now → s.present.todo = [] → s.present.decided = none →
      (frameFor seen f i.1 = .no → ∃ t, turns t ∧ t = { s with present := checked none, members := t.members, agentWalks := t.agentWalks })
      ∧ (frameFor seen f i.1 = .complete g → ∃ t, turns t ∧ t.present = { checked (some g) with todo := t.present.todo }
          ∧ ∀ p, here → s.agentWalks = [] → p + 8 ≤ peerBase →
            (∀ j, j < 8 → agentPlace s core f.ctx (f.slotVa g.slot + 16 + j) 1 = .ok (p + j)) → homeBytes t p 8 = toBytes 8 s.time)
      ∧ (frameFor seen f i.1 = .miss va → ∃ t, turns t ∧ t.present = { s.present with checking := some i.1, seen := (seen.hbm, seen.host, seen.peer) }))
  ∧ (s.present.decided = none → s.present.checking = none → s.time < i.2 - f.margin → i.2 - f.margin ≤ due → passTime due s = checkFrame f i.1 { s with time := i.2 - f.margin })

/-! ### The mailbox -/

/-- R302, R303, R342: a command runs only when GO is set with its code; in minimal mode all but two complete with `MINIMAL`, and a code that is none
completes with `UNKNOWN`. A completion clears GO, sets `MBSTS`, `MBPAY` and `MBEVT` DONE, and sends DONE's message when it is enabled. -/
def Sys2Proof.Claims.commandsAreServed : Prop := ∀ (s : State) (i : Instr) (code : Nat),
  ((i, code) ∈ mailboxCommands → (¬asked code s → exec i s = .next s) ∧ (asked code s → s.minimal = true → Fails i s 6))
  ∧ (¬asked 0x60 s → exec .attest s = .next s)
  ∧ (asked 0x60 s → s.minimal = true → param s 4 ≠ 0 → Fails .attest s 6)
  ∧ (¬asked 0x90 s → exec .unitMap s = .next s)
  ∧ (asked 0x90 s → Ends .unitMap s s (unitMap s))
  ∧ (asked code s → code ∉ commandCodes → Fails .mailboxUnknown s 1)
  ∧ (asked code s → code ∈ commandCodes → exec .mailboxUnknown s = .next s)

/-- R303: what a completion leaves. -/
def Sys2Proof.Claims.completionIsPosted : Prop := ∀ (s : State) (status : Nat) (r : List Byte), status < 2 ^ 16 → r.length ≤ 4096 →
  let t := complete status r.length (putPay r s)
  t.mbox.go = false ∧ t.mbox.sts = BitVec.ofNat 32 (r.length * 2 ^ 16 + status) ∧ t.mbox.evt.getLsbD 0 = true
  ∧ sgets 0 0 r.length t.mbox.pay = r ∧ (∀ a, r.length ≤ a → sget 0 a t.mbox.pay = sget 0 a s.mbox.pay)
  ∧ (s.mbox.evt.getLsbD 0 = false → t.msi = if s.mbox.ien.getLsbD 0 then s.msi ++ [0] else s.msi)
  ∧ (s.mbox.evt.getLsbD 0 = true → t.msi = s.msi)
  ∧ t = { s with mbox := t.mbox, msi := t.msi } ∧ t.mbox.begun = false ∧ t.mbox.cmd = s.mbox.cmd ∧ t.mbox.ien = s.mbox.ien ∧ t.mbox.ftail = s.mbox.ftail

/-- R303: the registers that the host writes: bits of `MBEVT` written 1 are cleared, a 1 written to GO starts the command in `MBCMD` with the
parameters as `MBPAY` holds them, and read-only registers keep their values. -/
def Sys2Proof.Claims.mailboxRegisters : Prop := ∀ (s : State) (w : Word) (off : Nat), s.started = true →
  exec (.mbevtWrite w) s = .next { s with mbox := { s.mbox with evt := s.mbox.evt &&& ~~~(w.setWidth 6) } }
  ∧ exec (.mailboxRegisterWrite 4 w) s = .next { s with mbox := { s.mbox with cmd := w &&& 0xFFFF } }
  ∧ (s.mbox.go = false → w.getLsbD 0 = true → exec (.mailboxRegisterWrite 8 w) s
      = .next { s with mbox := { s.mbox with go := true, code := s.mbox.cmd.toNat, args := s.mbox.pay } })
  ∧ (s.mbox.go = true ∨ w.getLsbD 0 = false → exec (.mailboxRegisterWrite 8 w) s = .next s)
  ∧ exec (.mailboxRegisterWrite 0x14 w) s = .next { s with mbox := { s.mbox with ien := w.setWidth 6 } }
  ∧ (off % 4 = 0 → 0x1000 ≤ off → off < 0x2000 → ∃ m, exec (.mailboxRegisterWrite off w) s = .next { s with mbox := { s.mbox with pay := m } }
      ∧ sgets 0 (off - 0x1000) 4 m = toBytes 4 w.toNat
      ∧ ∀ a, (a < off - 0x1000 ∨ off - 0x1000 + 4 ≤ a) → sget 0 a m = sget 0 a s.mbox.pay)
  ∧ (off = 0 ∨ off = 0xC ∨ off = 0x18 ∨ off = 0x1C ∨ off % 4 ≠ 0 → exec (.mailboxRegisterWrite off w) s = .next s)

/-- R302, R303, R342: the mailbox. -/
def Obligations.MailboxServesItsCommands : Prop :=
  Sys2Proof.Claims.commandsAreServed ∧ Sys2Proof.Claims.completionIsPosted ∧ Sys2Proof.Claims.mailboxRegisters

/-- R190, R192, R300, R306, R323: the commands that create and destroy contexts and change their mappings. A new context takes the lowest `CTXID`
that no context has, on the partition at the place in the layout that its parameter gives, and a handler address of 0 is no handler (log entries 46
and 52). A destroyed context stops at once, and is gone at once or when what its end waits for has been written (log entry 90); a changed range
leaves no TLB entry and no valid fitting-cache entry of R192; a resumed page parks no lane; `FAULT_RING` sets up the ring. -/
def Sys2Proof.Claims.contextCommands : Prop := ∀ (s : State) (x : Context) (p : Nat × Nat) (id : Nat),
  let base := param s 1
  let len := param s 2
  let remapped := fun (i : Instr) => (rangeOk base len = false → Fails i s 2) ∧ (rangeOk base len = true → ∃ u, Ends i s u []
    ∧ (∀ e ∈ u.tlb, e.ctx = x.id → ¬(e.va < base + len ∧ base < e.va + pageBytes e.size))
    ∧ (∀ f ∈ u.fits, f.ctx = x.id → f.pages.any (pageMeets base len) = true → f.valid = false)
    ∧ (∀ a, inFlight s a = false → homeByte u a = homeByte s a) ∧ u.grids = s.grids ∧ u.wgs = s.wgs ∧ u.queues = s.queues)
  let stopped := fun (u : State) => (∀ g ∈ allGroups u, g.ctx ≠ x.id) ∧ (∀ w ∈ u.wgs, w.ctx ≠ x.id) ∧ (∀ g ∈ u.grids, g.ctx ≠ x.id)
  let gone := fun (u : State) => stopped u ∧ findCtx x.id u = none ∧ (∀ e ∈ u.tlb, e.ctx ≠ x.id) ∧ (∀ q ∈ u.queues, q.ctx ≠ x.id) ∧ (∀ f ∈ u.fits, f.ctx ≠ x.id)
  (serves 1 s → s.layout[param s 0]? = none → Fails .ctxCreate s 2)
  ∧ (serves 1 s → s.layout[param s 0]? = some p → param s 1 ≤ 1 → param s 2 % 65536 = 0 → rangeOk (param s 2) (18432 * param s 3) = true →
      param s 4 % 256 = 0 → param s 4 < 2 ^ 52 → param s 5 % 256 = 0 → param s 5 < 2 ^ 57 →
      (∃ i, i < p.2 ∧ dieWorks s (p.1 + i) = true) →
      (freeId s = none → Fails .ctxCreate s 5)
      ∧ (freeId s = some id → 0 < id ∧ id ≤ 65535 ∧ findCtx id s = none ∧
        Ends .ctxCreate s { s with
            free := s.free + 1, pockets := s.pockets.filter (fun k => decide (k.ctx ≠ id))
            ctxs := s.ctxs ++ [{ id := id, det := decide (param s 1 = 1), partBase := p.1, partSize := p.2, privBase := param s 2, windows := param s 3
                                 walkerVa := param s 4, handlerVa := if param s 5 = 0 then none else some (param s 5)
                                 lastProgress := s.time, keySeed := s.free }] }
          (toBytes 8 id)))
  ∧ (serves 2 s → s.mbox.begun = false → findCtx (param s 0) s = none → Fails .ctxDestroy s 3)
  ∧ (serves 2 s → s.mbox.begun = false → findCtx (param s 0) s = some x → x.id ≠ 0 → x.ending = false →
      (∃ u, (gone u ∧ Ends .ctxDestroy s u [])
        ∨ (stopped u ∧ u.mbox.begun = true ∧ (∀ y, findCtx x.id u = some y → y.ending = true ∧ y.resident = false) ∧ exec .ctxDestroy s = .next u))
      ∧ ((∀ g ∈ s.grids, g.ctx ≠ x.id) → copiedRecords x.id s = [] → sourceOfCtx x.id s = none → ∃ u, gone u ∧ Ends .ctxDestroy s u []))
  ∧ (serves 2 s → s.mbox.begun = true →
      (findCtx (param s 0) s = none → Ends .ctxDestroy s s [])
      ∧ (findCtx (param s 0) s = some x → x.id ≠ 0 → x.ending = true → x.due = [] → framesWait x.id s = none → ∃ u, gone u ∧ Ends .ctxDestroy s u []))
  ∧ (serves 0x10 s → findCtx (param s 0) s = some x → remapped .map)
  ∧ (serves 0x12 s → findCtx (param s 0) s = some x → remapped .unmap)
  ∧ (serves 0x11 s → findCtx (param s 0) s = some x → base % 65536 = 0 → base < 2 ^ 57 → ∃ u, Ends .hemResume s u []
      ∧ (∀ g ∈ allGroups u, g.ctx = x.id → ∀ e ∈ g.hem, e.page ≠ base)
      ∧ (∀ uid g, findGroup uid s = some g → findGroup uid u = some (if g.ctx = x.id then leaveHem base g else g))
      ∧ (∀ y ∈ u.ctxs, y.id = x.id → base ∉ y.reported) ∧ u.tlb = s.tlb ∧ ∀ a, homeByte u a = homeByte s a)
  ∧ (serves 0x13 s → param s 0 % 64 = 0 → param s 0 < 2 ^ 52 → powerIn 64 65536 (param s 1) = true → param s 2 % 8 = 0 → param s 2 < 2 ^ 52 →
      Ends .faultRing s { s with ring := some { base := param s 0, n := param s 1, headAddr := param s 2 }, mbox := { s.mbox with ftail := 0 } } [])

/-- R253, R260, R262, R310: the commands of queues and pools. That a queue which is not free is `BUSY`, that `QUEUE_RESET` looks at TAIL anew and
that `POOL_SETUP` replaces a pool are the model's reading (log entry 54, DEDUCED). -/
def Sys2Proof.Claims.queueCommands : Prop := ∀ (s : State) (x : Context) (q o : Queue),
  let n := param s 0
  let own := ∀ o, findQueue n s = some o → o.ctx = x.id
  let free := (findQueue n s).all fun o => o.device && o.closed && o.entries.isEmpty && o.bound.isNone
  (serves 0x20 s → findCtx (param s 1) s = some x → n < 16384 → queueOf s n x.id (param s 2) = some q →
    ((∃ o, findQueue n s = some o ∧ o.ctx ≠ x.id) → Fails .queueSetup s 3)
    ∧ (own → free = false → Fails .queueSetup s 4)
    ∧ (own → free = true → ∃ u p, Ends .queueSetup s u [] ∧ findQueue n u = some p ∧ p = { q with tail := p.tail, stopped := p.stopped }
        ∧ (∀ m, m ≠ n → findQueue m u = findQueue m s)
        ∧ (q.device = true ∨ linkUp s = false → p = q ∧ u = { s with queues := u.queues })))
  ∧ (serves 0x21 s → (findQueue n s = none ∨ ∃ o, findQueue n s = some o ∧ o.device = false) → Fails .queueClose s 3)
  ∧ (serves 0x21 s → findQueue n s = some o → o.device = true → ∃ u, Ends .queueClose s u [] ∧ findQueue n u = some { o with closed := true }
      ∧ (∀ m, m ≠ n → findQueue m u = findQueue m s) ∧ (o.bound = none → u = { s with queues := u.queues }))
  ∧ (serves 0x22 s → findCtx n s = some x → param s 1 ≤ 63 → 1 ≤ param s 2 → param s 2 ≤ 2 ^ 24 → ∃ u y, Ends .poolSetup s u []
      ∧ findCtx n u = some y ∧ y = { x with pools := y.pools } ∧ u = { s with ctxs := u.ctxs }
      ∧ y.pools = x.pools.filter (fun p => decide (p.id ≠ param s 1)) ++ [{ id := param s 1, cap := param s 2, taken := [] }])
  ∧ (serves 0x23 s → findQueue n s = some o → o.device = false →
      (o.stopped = false → Ends .queueReset s s [])
      ∧ (o.stopped = true → linkUp s = false → ∃ u, Ends .queueReset s u [] ∧ findQueue n u = some { o with stopped := false }
          ∧ u = { s with queues := u.queues })
      ∧ (o.stopped = true → linkUp s = true → Ends .queueReset s
          (seeTail o (hostStore o.headAddr (toBytes 8 o.head) (updQueue n (fun q => { q with stopped := false }) s))) []))

/-- R300, R302: the commands that manage contexts, mappings, queues and pools. -/
def Obligations.ContextAndQueueCommands : Prop := Sys2Proof.Claims.contextCommands ∧ Sys2Proof.Claims.queueCommands

/-- R311, R312, R335: arming a trace buffer starts an empty ring whose control block is written, its status is read back, and a sampled request that
completes writes its record and is due no more. A request that is not sampled, or is still in flight, writes none (log entry 91). -/
def Sys2Proof.Claims.traceCommands : Prop := ∀ (s : State) (x : Context) (g : Group) (pc va : Nat) (qt : List (BitVec 32)) (r : Sample),
  let base := param s 1
  let size := param s 2
  (serves 0x30 s → findCtx (param s 0) s = some x → base % 64 = 0 → size % 64 = 0 → 128 ≤ size → size ≤ 2 ^ 32 → rangeOk base size = true →
    ∀ u, agentWrite (partCore s x) x.id base (toBytes 8 1 ++ List.replicate 56 0) s = .ok u →
      Ends .traceArm s (updCtx x.id (fun y => { y with trace := { base := base, size := size, armed := true } }) u) [])
  ∧ (serves 0x31 s → findCtx (param s 0) s = some x → Ends .traceStatus s s (toBytes 8 x.trace.tail ++ toBytes 8 x.trace.dropped
      ++ toBytes 8 ((if x.trace.armed then 1 else 0) + (if x.trace.suspended then 2 else 0))))
  ∧ (findGroup g.uid s = some g → findCtx g.ctx s = some x →
      let t := x.trace
      let place := agentTranslate s g.core g.ctx (t.base + 64 + 64 * (t.tail % (t.size / 64 - 1))) 1
      let bytes := toBytes 4 2 ++ traceBody s g pc (BitVec.ofNat 32 va) ++ ((List.range 6).flatMap fun i => toBytes 4 (qt.getD i 0).toNat)
      let due := x.samples.find? fun y => decide (y.grp = g.uid) && decide (y.pc = pc) && decide (y.va = va) && requestDone g y s
      (due = none → exec (.sampleRecord g.uid pc va qt) s = .next s)
      ∧ (due = some r → t.armed = false →
          exec (.sampleRecord g.uid pc va qt) s = .next (updCtx g.ctx (fun y => { y with samples := y.samples.erase r }) (forgetWalks g.ctx s)))
      ∧ (∀ c p, due = some r → t.armed = true → t.suspended = false → agentTranslate s g.core g.ctx t.base 1 = .ok c → place = .ok p →
          t.tail - t.head < t.size / 64 - 1 → ∃ u, exec (.sampleRecord g.uid pc va qt) s = .next u
          ∧ (∀ d, findCtx g.ctx u = some d → d.trace = { t with tail := t.tail + 1 } ∧ d.samples = x.samples.erase r)
          ∧ (c + 16 ≤ p ∨ p + 64 ≤ c + 8 → (∀ i, i < 64 → peerGone s (p + i) = false) → homeBytes u p 64 = bytes)))

/-- R317, R319, R341: the commands of peer windows, the frame lock and the frame source. The statuses of windows are log entry 55 (DEDUCED); that a
first frame source serves at once, and when another follows, is log entry 48 (DEDUCED). -/
def Sys2Proof.Claims.windowCommands : Prop := ∀ (s : State) (x : Context) (l : FrameLock) (f : FrameSource),
  (serves 0x40 s → findCtx (param s 0) s = some x → rangeOk (param s 1) (param s 2) = true → 1 ≤ param s 3 → param s 3 ≤ 3 →
    ((∃ e ∈ s.exports, e.win = param s 4 ∧ e.ctx ≠ x.id) → Fails .peerExport s 3)
    ∧ ((∃ e ∈ s.exports, e.win = param s 4) → (∀ e ∈ s.exports, e.win = param s 4 → e.ctx = x.id) → Fails .peerExport s 4)
    ∧ ((∀ e ∈ s.exports, e.win ≠ param s 4) → Ends .peerExport s { s with exports := s.exports ++
        [{ win := param s 4, ctx := x.id, va := param s 1, len := param s 2, r := decide (param s 3 ≠ 2), w := decide (param s 3 ≠ 1) }] } []))
  ∧ (serves 0x41 s → findCtx (param s 0) s = some x → param s 1 ≤ 255 → rangeOk (param s 3) (param s 4) = true →
    (findMember (param s 1) s = none → Fails .peerImport s 3)
    ∧ (findMember (param s 1) s ≠ none → (∀ i ∈ s.imports, i.ctx = x.id → i.va + i.len ≤ param s 3 ∨ param s 3 + param s 4 ≤ i.va) →
        Ends .peerImport s { s with imports := s.imports ++
          [{ ctx := x.id, member := param s 1, win := param s 2, va := param s 3, len := param s 4 }] } []))
  ∧ (serves 0x50 s → (param s 1 < 1000000 ∨ 100000000 < param s 1) → Fails .framelock s 2)
  ∧ (serves 0x50 s → 1000000 ≤ param s 1 → param s 1 ≤ 100000000 → s.lock = none → Ends .framelock s
      { s with lock := some { t0 := param s 0, period := param s 1 }, present := { s.present with lastAt := s.time - 1 } } [])
  ∧ (serves 0x50 s → 1000000 ≤ param s 1 → param s 1 ≤ 100000000 → s.lock = some l → l.next = none → 1 ≤ l.period → ∃ at_,
      Ends .framelock s { s with lock := some { l with next := some (param s 0, param s 1, at_) } } []
      ∧ s.time + l.period ≤ at_ ∧ ∃ k, at_ = param s 0 + k * param s 1 ∧ (0 < k → at_ < s.time + l.period + param s 1))
  ∧ (serves 0x51 s → param s 0 = 0 → Ends .frameSource s { s with present := { lastAt := s.present.lastAt, lastK := s.present.lastK } } [])
  ∧ (serves 0x51 s → findCtx (param s 0) s = some x → param s 0 ≠ 0 → s.lock = some l → sourceOf s x (lockAt l s.time).period = .ok f →
      (s.present.source = none → Ends .frameSource s
        { s with present := { source := some f, lastAt := s.present.lastAt, lastK := s.present.lastK } } [])
      ∧ (s.present.source ≠ none → Ends .frameSource s { s with present := { s.present with nextSource := some (some f) } } []))
  ∧ (serves 0x52 s → Ends .frameStatus s s
      (toBytes 8 s.present.frames ++ toBytes 8 s.present.cloaks ++ toBytes 8 s.present.blacks ++ toBytes 8 s.present.lastK))

/-- R303, R313, R315, R339, R342: `ATTEST` and `POCKET_READ` write into a host buffer that is long enough, once the host has set up IDE streams, and
a shorter one completes with `SHORT_BUFFER` and the length needed, a word of 4 bytes (log entry 51, DEDUCED). That the command waits for the
streams, and writes without them in minimal mode, is log entry 69 (DEDUCED). The quote holds the nonce, the device time, the context, and an entry
for each measured image and code object; the pocket its magic, its context and its chain. -/
def Sys2Proof.Claims.bufferCommands : Prop := ∀ (s : State) (x : Context) (k : Pocket),
  let written := fun (i : Instr) (a len : Nat) (bs : List Byte) => a + len ≤ 2 ^ 52 →
    (len < bs.length → exec i s = .next (complete 7 4 (putPay (toBytes 4 bs.length) s)))
    ∧ (bs.length ≤ len → s.ide = true ∨ s.minimal = true → exec i s = .next (complete 0 bs.length (hostStore a bs s)))
    ∧ (bs.length ≤ len → s.ide = false → s.minimal = false → exec i s = .next s)
  let quoted := fun (hashes : List Nat) => ∃ bs, written .attest (param s 5) (param s 6) bs
    ∧ bs.length = 64 + 48 * (s.images.length + 2 + hashes.length) + 1280
    ∧ bs.take 64 = toBytes 8 (s.images.length + 2 + hashes.length) ++ toBytes 8 0 ++ sgets 0 0 32 s.mbox.args ++ toBytes 8 s.time ++ toBytes 8 (param s 4)
    ∧ (∀ i e, s.images[i]? = some e → (bs.drop (64 + 48 * i)).take 48 = toBytes 16 e.1 ++ toBytes 32 e.2)
    ∧ (∀ i h, hashes[i]? = some h →
        (bs.drop (64 + 48 * (s.images.length + 2 + i))).take 48 = toBytes 16 (Config.measureCode h) ++ toBytes 32 h)
  (asked 0x60 s → param s 4 = 0 → quoted [])
  ∧ (serves 0x60 s → param s 4 ≠ 0 → findCtx (param s 4) s = some x → quoted x.hashes)
  ∧ (serves 0x60 s → param s 4 ≠ 0 → findCtx (param s 4) s = none → Fails .attest s 3)
  ∧ (serves 0x70 s → s.pockets.find? (fun k => decide (k.ctx = param s 0)) = none → Fails .pocketRead s 3)
  ∧ (serves 0x70 s → s.pockets.find? (fun k => decide (k.ctx = param s 0)) = some k → ∃ bs, written .pocketRead (param s 1) (param s 2) bs
      ∧ bs.take 16 = toBytes 4 0x504F434B ++ toBytes 4 (k.ctx * 2 ^ 16 + k.chain.length) ++ toBytes 8 k.time
      ∧ ∀ i r, k.chain[i]? = some r → (bs.drop (16 + 48 * i)).take 48 =
          ((List.range 9).flatMap fun j => toBytes 4 (trapWord r j).toNat) ++ toBytes 4 r.core ++ toBytes 4 r.slot ++ toBytes 4 0)

/-- R302, R303: tracing, windows, frames, quotes and pockets. -/
def Obligations.TraceWindowAndBufferCommands : Prop :=
  Sys2Proof.Claims.traceCommands ∧ Sys2Proof.Claims.windowCommands ∧ Sys2Proof.Claims.bufferCommands

/-! ### The debugger -/

/-- R327, R329, R330, R335, R336: a debugger command on a context that is not attached completes with `NO_OBJECT`. Attaching, breakpoints,
watchpoints and sampling change the context as asked; a halt stops its target and queues its record, a resume lets a halted target go on. That
`DBG_DETACH` clears `HSTEP` as well is the model's reading (log entry 59, DEDUCED). -/
def Sys2Proof.Claims.debugCommands : Prop := ∀ (s : State) (x : Context) (g : Group) (i : Instr) (code : Nat),
  let upd := fun (f : Context → Context) => updCtx x.id f s
  (serves 0x80 s → findCtx (param s 0) s = some x → x.attached = true → Fails .dbgAttach s 4)
  ∧ (serves 0x80 s → findCtx (param s 0) s = some x → x.attached = false → Ends .dbgAttach s (upd fun y => { y with attached := true }) [])
  ∧ ((i, code) ∈ mailboxCommands → 0x81 ≤ code → serves code s → findCtx (param s 0) s = some x → x.attached = false → Fails i s 3)
  ∧ (debugs 0x81 x s → x.id ≠ 0 → ∃ u y, Ends .dbgDetach s u [] ∧ findCtx x.id u = some y ∧ y.attached = false ∧ y.breaks = [] ∧ y.watches = []
      ∧ (∀ h ∈ allGroups u, h.ctx = x.id → h.dbgSteps = none ∧ h.hstep = false ∧ h.haltReq = false))
  ∧ (debugs 0x82 x s → targets s x.id (param s 1) = [g] → param s 1 < 2 ^ 25 → findGroup g.uid s = some g →
      (g.stop = .halted → Ends .dbgHalt s s [])
      ∧ (g.stop = .trapped → Ends .dbgHalt s (updGroup g.uid (fun h => { h with haltReq := true }) s) [])
      ∧ (g.stop = .running → ∃ u h r, Ends .dbgHalt s u [] ∧ findGroup g.uid u = some h ∧ h.stop = .halted ∧ h.act = none ∧ h.trap = some r
          ∧ r.cause = 0 ∧ (∀ y, findCtx x.id u = some y → y.events = x.events ++ [{ target := param s 1, trap := r, time := s.time }])
          ∧ u.mbox.evt.getLsbD 5 = true))
  ∧ (debugs 0x83 x s → targets s x.id (param s 1) = [g] → param s 1 < 2 ^ 25 → param s 2 ≤ 65535 → findGroup g.uid s = some g → g.uid ≠ 0 →
      (g.stop ≠ .halted → Ends .dbgResume s (upd fun y => { y with lastProgress := s.time }) [])
      ∧ (g.stop = .halted → g.haltReq = false → ∃ u h, Ends .dbgResume s u [] ∧ findGroup g.uid u = some h ∧ h.stop = .running ∧ h.trap = none
          ∧ h.dbgSteps = if param s 2 = 0 then none else some (param s 2)))
  ∧ (debugs 0x84 x s → param s 1 ≤ 31 → param s 2 ≤ 1 → param s 3 < (if param s 2 = 1 then 2 ^ 16 else 2 ^ 32) → targetOk (param s 4) = true →
      param s 5 ≤ 1 → Ends .dbgBreak s (upd fun y => { y with
        breaks := y.breaks.filter (fun o => decide (o.num ≠ param s 1))
          ++ if param s 5 = 1 then [{ num := param s 1, kind := param s 2, value := param s 3, target := param s 4 }] else [] }) [])
  ∧ (debugs 0x85 x s → param s 1 ≤ 7 → rangeOk (param s 2) (param s 3) = true → param s 4 ≤ 3 → Ends .dbgWatch s (upd fun y => { y with
        watches := y.watches.filter (fun o => decide (o.num ≠ param s 1))
          ++ if param s 4 = 3 then [] else [{ num := param s 1, lo := param s 2, len := param s 3, kind := param s 4 }] }) [])
  ∧ (debugs 0x88 x s → (param s 1 = 0 ∨ 8 ≤ param s 1 ∧ param s 1 ≤ 20) → Ends .dbgSample s (upd fun y => { y with sampleK := param s 1 }) [])
  ∧ (debugs 0x88 x s → param s 1 ≠ 0 → (param s 1 < 8 ∨ 20 < param s 1) → Fails .dbgSample s 2)

/-- R325, R330, R336: the debugger reads and writes the items of a halted target, takes the stop records, 64 bytes each, and pre-empts and restores
its context. A target that is not halted is `BUSY`. Items without a layout are free bytes, and LANES is a mask whose lowest lane a CSR item takes
(log entry 58, DESIGN CHOICE); `CTX_RESTORE` waits for room (log entry 59), `CTX_PREEMPT` for frames that it keeps (log entry 90), and `DBG_EVENTS`
for the host's streams, with its short length a word (log entries 69 and 51; DEDUCED). -/
def Sys2Proof.Claims.debugItems : Prop := ∀ (s : State) (x : Context) (g : Group) (v : Word),
  let item := param s 2
  let m := BitVec.ofNat 64 (param s 3)
  let one := targets s x.id (param s 1) = [g] ∧ param s 1 < 2 ^ 25
  let held := (findWg g.wg s).getD {}
  let csr := 0x100 ≤ item ∧ item ≤ 0x18C ∧ itemOk g m item = true
  let recs := x.events.flatMap fun r => toBytes 4 x.id ++ toBytes 4 0 ++ toBytes 4 r.target ++ toBytes 4 (tcause r.trap) ++ toBytes 4 r.trap.tpc
    ++ toBytes 4 r.trap.topc ++ toBytes 4 r.trap.titer ++ toBytes 4 r.trap.info ++ toBytes 8 r.trap.mask.toNat ++ toBytes 8 r.time ++ List.replicate 16 0
  (debugs 0x86 x s → one → g.stop ≠ .halted → Fails .dbgRead s 4)
  ∧ (debugs 0x87 x s → one → g.stop ≠ .halted → Fails .dbgWrite s 4)
  ∧ (debugs 0x86 x s → one → g.stop = .halted → csr → handlerRead (asHandler g m) g item = some v → Ends .dbgRead s s (toBytes 8 v.toNat))
  ∧ (debugs 0x86 x s → one → g.stop = .halted → csr → handlerRead (asHandler g m) g item = none →
      ∃ w : Word, Ends .dbgRead s { s with free := s.free + 1 } (toBytes 8 w.toNat))
  ∧ (debugs 0x86 x s → one → g.stop = .halted → item = 0x600 ∨ item = 0x601 ∨ (0x300 ≤ item ∧ item < 0x300 + held.ntiles ∧ item ≤ 0x4FF)
        ∨ (0x500 ≤ item ∧ item < 0x500 + held.naccs ∧ item ≤ 0x57F) →
      ∃ bs, bs.length ≤ 4096 ∧ Ends .dbgRead s s bs)
  ∧ (debugs 0x86 x s → one → g.stop = .halted → 0x200 ≤ item → item ≤ 0x203 → g.kind ≠ .vector ∨ g.code.closures ≤ item - 0x200 → Fails .dbgRead s 2)
  ∧ (debugs 0x86 x s → one → g.stop = .halted → 0x200 ≤ item → item ≤ 0x203 → g.kind = .vector → item - 0x200 < g.code.closures → m &&& ~~~g.exist = 0 →
      ((lanes m).flatMap fun l => closureImage (getG g (item - 0x200) l)).length ≤ 4096 →
      Ends .dbgRead s s ((lanes m).flatMap fun l => closureImage (getG g (item - 0x200) l)))
  ∧ (debugs 0x87 x s → one → g.stop = .halted → csr → param s 4 < 2 ^ 32 → handlerValueBad (asHandler g m) g item (BitVec.ofNat 32 (param s 4)) = false →
      let w := handlerWrite item (BitVec.ofNat 32 (param s 4)) (asHandler g m) g
      Ends .dbgWrite s (updGroup g.uid (fun _ => { w.2 with hvsel := w.1.hvsel, hbsel := w.1.hbsel }) s) [])
  ∧ (debugs 0x89 x s → param s 1 + param s 2 ≤ 2 ^ 52 → recs.length = 64 * x.events.length
      ∧ (recs.length ≤ param s 2 → s.ide = false → exec .dbgEvents s = .next s)
      ∧ (recs.length ≤ param s 2 → s.ide = true → exec .dbgEvents s = .next (complete 0 recs.length
          (hostStore (param s 1) recs (updCtx x.id (fun y => { y with events := [] }) s))))
      ∧ (param s 2 < recs.length → exec .dbgEvents s = .next (complete 7 4 (putPay (toBytes 4 recs.length) s))))
  ∧ (∀ va, debugs 0x8A x s → x.resident = true → ringWaits x.id s = some va →
      exec .ctxPreempt s = .next (agentWait (partCore s x) x.id va 0 .miss s))
  ∧ (debugs 0x8A x s → (x.resident = true → ringWaits x.id s = none) → ∃ u, Ends .ctxPreempt s u [] ∧ ∀ y, findCtx x.id u = some y → y.held = true ∧ y.resident = false)
  ∧ (debugs 0x8B x s → x.resident = false → restoreNow { x with held := false } (updCtx x.id (fun y => { y with held := false }) s) = none →
      exec .ctxRestore s = .next (updCtx x.id (fun y => { y with held := false }) s))
  ∧ (debugs 0x8B x s → x.resident = true → Ends .ctxRestore s (updCtx x.id (fun y => { y with held := false }) s) [])
  ∧ (debugs 0x8B x s → x.resident = false → ∀ u, restoreNow { x with held := false } (updCtx x.id (fun y => { y with held := false }) s) = some u →
      Ends .ctxRestore s u [] ∧ ∀ y, findCtx x.id u = some y → y.resident = true)

/-- R327, R329, R330: the debugger's commands. -/
def Obligations.DebuggerCommands : Prop := Sys2Proof.Claims.debugCommands ∧ Sys2Proof.Claims.debugItems

/-! ### Decoding, reset, the canonical form -/

/-- The encoding tables: every instruction that is well formed is what its own word decodes to, with every operand. -/
def Obligations.DecodingInvertsEncoding : Prop := ∀ i : Instr, Sys2Proof.Laws.RoundTrip.Statement i

/-- What a word decodes to is well formed, and its own encoding is the word: each accepted word has one meaning. -/
def Obligations.EveryAcceptedWordIsItsEncoding : Prop := ∀ (w : BitVec 32) (i : Instr), decodeWord w = .ok i → i.wf = true ∧ encode i = some w

/-- R342: the machine after reset has made no start. The memories list nothing and are in canonical form. -/
def Obligations.ResetState : Prop :=
  State.reset.started = false ∧ State.reset.minimal = false ∧ State.reset.ctxs = [] ∧ State.reset.grids = [] ∧ State.reset.groups = []
  ∧ State.reset.mbox.cap = 4096 ∧ State.reset.mbox.evt = 0 ∧ State.reset.mbox.go = false ∧ State.reset.ide = false ∧ State.reset.hbm = [] ∧ State.reset.host = [] ∧ State.reset.peer = []
  ∧ Memory.wf State.reset = true

/-- The model's own invariant: every step keeps the three memories in canonical form, so that equal memories are equal data. -/
def Obligations.StepsKeepMemoryCanonical : Prop := ∀ s t : State, Memory.wf s = true → step s = .next t → Memory.wf t = true

/-- The encoding tables of each family, on words that the spec writes out beside their assembly. -/
def Obligations.SpecWordsDecode : Prop :=
  decodeWord 0x11000201 = .ok (.xrnd 0 1 0 1) ∧ decodeWord 0x46040506 = .ok (.sar 0 4 5 6) ∧ decodeWord 0x65030405 = .ok (.hdot2 0 3 4 5)
  ∧ decodeWord 0x71630506 = .ok (.frint 0 3 5 6) ∧ decodeWord 0x81018184 = .ok (.shli 0 3 3 4) ∧ decodeWord 0x915201F4 = .ok (.fsetGe 0 1 2 1 0xF4)
  ∧ decodeWord 0x96CC0704 = .ok (.gred 0 12 7 4) ∧ decodeWord 0xA3871052 = .ok (.sset 0 7 4 5 2) ∧ decodeWord 0xB3881418 = .ok (.stx 0 2 5 6 0)
  ∧ decodeWord 0xC48C101E = .ok (.acas 0 3 4 7 2) ∧ decodeWord 0xC58FEA10 = .ok (.copy 0 3 31 20 8) ∧ decodeWord 0xD1C00C2A = .ok (.jmpi 0 0xC 0x2A)
  ∧ decodeWord 0xF2812803 = .ok (.cload 0 1 5 3) ∧ decodeWord 0xF4090C0D = .ok (.qpush 0 9 12 13) ∧ decodeWord 0xF54C341D = .ok (.mmaPair 0 12 13 1 1 0 1)
  ∧ decodeWord 0xF7C50010 = .ok (.snap 0 5 0x10)
end

