-- ==== Sys2Proof/Laws/Sparse.lean ====
section
/-!
SUPPORT. Reading after writing in a sparse map, and its canonical form.
-/

namespace Sys2Proof.Machine

variable {α : Type}

@[simp] theorem sfind_sins (k j : Nat) (v : α) (m : Sparse α) :
    sfind j (sins k v m) = if k = j then some v else sfind j m := by
  induction m with
  | nil => simp [sins, sfind]
  | cons p r ih =>
    obtain ⟨a, x⟩ := p
    simp only [sins]
    by_cases h1 : k < a
    · simp [h1, sfind]
    · by_cases h2 : k = a
      · subst h2
        simp only [lt_irrefl, if_false, if_true, sfind]
        split_ifs <;> rfl
      · simp only [h1, h2, if_false, sfind, ih]
        by_cases h3 : a = j
        · have h4 : k ≠ j := fun h => h2 (h.trans h3.symm)
          simp [h3, h4]
        · simp [h3]

@[simp] theorem sfind_sdel (k j : Nat) (m : Sparse α) : sfind j (sdel k m) = if k = j then none else sfind j m := by
  induction m with
  | nil => simp [sdel, sfind]
  | cons p r ih =>
    obtain ⟨a, x⟩ := p
    simp only [sdel]
    split_ifs <;> simp_all [sfind]

/-- A write reads back, and leaves every other key alone. -/
@[simp] theorem sget_sput [DecidableEq α] (d : α) (k j : Nat) (v : α) (m : Sparse α) :
    sget d j (sput d k v m) = if k = j then v else sget d j m := by
  unfold sget sput
  split_ifs <;> simp_all

theorem sget_sput_same [DecidableEq α] (d : α) (k : Nat) (v : α) (m : Sparse α) : sget d k (sput d k v m) = v := by simp

theorem sget_sput_other [DecidableEq α] (d : α) {k j : Nat} (h : k ≠ j) (v : α) (m : Sparse α) :
    sget d j (sput d k v m) = sget d j m := by simp [h]

@[simp] theorem sget_nil (d : α) (k : Nat) : sget d k ([] : Sparse α) = d := rfl

/-! ### The canonical form -/

/-- Every key of a map lies above a bound. -/
def above (n : Nat) (m : Sparse α) : Prop := ∀ p ∈ m, n < p.1

theorem swf_cons [DecidableEq α] (d : α) (a : Nat) (x : α) (m : Sparse α) :
    swf d ((a, x) :: m) = true ↔ x ≠ d ∧ above a m ∧ swf d m = true := by
  induction m generalizing a x with
  | nil => simp [swf, above]
  | cons p r ih =>
    obtain ⟨b, y⟩ := p
    simp only [swf, Bool.and_eq_true, decide_eq_true_eq]
    constructor
    · rintro ⟨⟨h1, h2⟩, h3⟩
      refine ⟨h1, ?_, h3⟩
      have h4 := ((ih b y).1 h3).2.1
      intro q hq
      rcases List.mem_cons.1 hq with rfl | hq
      · exact h2
      · exact Nat.lt_trans h2 (h4 q hq)
    · rintro ⟨h1, h2, h3⟩
      exact ⟨⟨h1, h2 (b, y) (by simp)⟩, h3⟩

theorem above_sins (n k : Nat) (v : α) (m : Sparse α) (h : n < k) (hm : above n m) : above n (sins k v m) := by
  induction m with
  | nil => simpa [sins, above] using h
  | cons p r ih =>
    obtain ⟨a, x⟩ := p
    have ha : n < a := hm (a, x) (by simp)
    have hr : above n r := fun q hq => hm q (by simp [hq])
    simp only [sins]
    split_ifs <;> intro q hq <;> simp at hq
    · rcases hq with rfl | rfl | hq
      · exact h
      · exact ha
      · exact hr q hq
    · rcases hq with rfl | hq
      · exact h
      · exact hr q hq
    · rcases hq with rfl | hq
      · exact ha
      · exact ih hr q hq

theorem above_sdel (n k : Nat) (m : Sparse α) (hm : above n m) : above n (sdel k m) := by
  induction m with
  | nil => simp [sdel, above]
  | cons p r ih =>
    obtain ⟨a, x⟩ := p
    have hr : above n r := fun q hq => hm q (by simp [hq])
    simp only [sdel]
    split_ifs
    · exact ih hr
    · intro q hq
      rcases List.mem_cons.1 hq with rfl | hq
      · exact hm (a, x) (by simp)
      · exact ih hr q hq

theorem swf_sins [DecidableEq α] (d : α) (k : Nat) (v : α) (m : Sparse α) (hv : v ≠ d) (hm : swf d m = true) :
    swf d (sins k v m) = true := by
  induction m with
  | nil => simp [sins, swf, hv]
  | cons p r ih =>
    obtain ⟨a, x⟩ := p
    obtain ⟨hx, ha, hr⟩ := (swf_cons d a x r).1 hm
    simp only [sins]
    split_ifs with h1 h2
    · refine (swf_cons _ _ _ _).2 ⟨hv, ?_, hm⟩
      intro q hq
      rcases List.mem_cons.1 hq with rfl | hq
      · exact h1
      · exact Nat.lt_trans h1 (ha q hq)
    · subst h2
      exact (swf_cons _ _ _ _).2 ⟨hv, ha, hr⟩
    · exact (swf_cons _ _ _ _).2 ⟨hx, above_sins a k v r (by omega) ha, ih hr⟩

theorem swf_sdel [DecidableEq α] (d : α) (k : Nat) (m : Sparse α) (hm : swf d m = true) : swf d (sdel k m) = true := by
  induction m with
  | nil => simp [sdel, swf]
  | cons p r ih =>
    obtain ⟨a, x⟩ := p
    obtain ⟨hx, ha, hr⟩ := (swf_cons d a x r).1 hm
    simp only [sdel]
    split_ifs
    · exact ih hr
    · exact (swf_cons _ _ _ _).2 ⟨hx, above_sdel a k r ha, ih hr⟩

/-- A write keeps the canonical form. -/
theorem swf_sput [DecidableEq α] (d : α) (k : Nat) (v : α) (m : Sparse α) (hm : swf d m = true) : swf d (sput d k v m) = true := by
  unfold sput
  split_ifs with h
  · exact swf_sdel d k m hm
  · exact swf_sins d k v m h hm

theorem swf_sputs [DecidableEq α] (d : α) (k : Nat) (vs : List α) (m : Sparse α) (hm : swf d m = true) :
    swf d (sputs d k vs m) = true := by
  induction vs generalizing k m with
  | nil => exact hm
  | cons v vs ih => exact ih (k + 1) _ (swf_sput d k v m hm)

/-- Two canonical maps that read alike are one map. -/
theorem swf_ext [DecidableEq α] (d : α) (a b : Sparse α) (ha : swf d a = true) (hb : swf d b = true)
    (h : ∀ k, sget d k a = sget d k b) : a = b := by
  have low : ∀ (m : Sparse α) (n : Nat), above n m → ∀ k, k ≤ n → sfind k m = none := by
    intro m
    induction m with
    | nil => intros; rfl
    | cons p r ih =>
      intro n hm k hk
      have h1 := hm p (by simp)
      have h2 : p.1 ≠ k := by omega
      simp only [sfind, h2, if_false]
      exact ih n (fun q hq => hm q (by simp [hq])) k hk
  induction a generalizing b with
  | nil =>
    cases b with
    | nil => rfl
    | cons p r =>
      obtain ⟨x, y⟩ := p
      have := h x
      simp [sget, sfind] at this
      exact absurd this.symm ((swf_cons d x y r).1 hb).1
  | cons p r ih =>
    obtain ⟨a, x⟩ := p
    obtain ⟨hx, har, hr⟩ := (swf_cons d a x r).1 ha
    cases b with
    | nil =>
      have := h a
      simp [sget, sfind] at this
      exact absurd this hx
    | cons q t =>
      obtain ⟨b, y⟩ := q
      obtain ⟨hy, hbt, ht⟩ := (swf_cons d b y t).1 hb
      have hab : a = b := by
        rcases Nat.lt_trichotomy a b with hlt | heq | hgt
        · have h1 := h a
          have h2 : b ≠ a := by omega
          simp [sget, sfind, h2, low t b hbt a (by omega)] at h1
          exact absurd h1 hx
        · exact heq
        · have h1 := h b
          have h2 : a ≠ b := by omega
          simp [sget, sfind, h2, low r a har b (by omega)] at h1
          exact absurd h1.symm hy
      subst hab
      have hxy : x = y := by simpa [sget, sfind] using h a
      subst hxy
      congr 1
      refine ih t hr ht fun k => ?_
      by_cases hk : a = k
      · subst hk
        simp [sget, low r a har a (le_refl a), low t a hbt a (le_refl a)]
      · simpa [sget, sfind, hk] using h k

end Sys2Proof.Machine
end

