-- ==== Sys2Proof/Laws/State.lean ====
section
/-!
SUPPORT. What the named updates of the state and of an issuer leave alone, one lemma for each field and update, and what they write.
-/

namespace Sys2Proof.Machine

/-! ### Updates of the state -/

@[simp] theorem setG_groups (s : State) (f : Group → Group) : (s.setG f).groups = s.groups := rfl
@[simp] theorem setG_wgs (s : State) (f : Group → Group) : (s.setG f).wgs = s.wgs := rfl
@[simp] theorem setG_grids (s : State) (f : Group → Group) : (s.setG f).grids = s.grids := rfl
@[simp] theorem setG_ctxs (s : State) (f : Group → Group) : (s.setG f).ctxs = s.ctxs := rfl
@[simp] theorem setG_tape (s : State) (f : Group → Group) : (s.setG f).tape = s.tape := rfl
@[simp] theorem setG_free (s : State) (f : Group → Group) : (s.setG f).free = s.free := rfl
@[simp] theorem setG_nextId (s : State) (f : Group → Group) : (s.setG f).nextId = s.nextId := rfl
@[simp] theorem setG_time (s : State) (f : Group → Group) : (s.setG f).time = s.time := rfl
@[simp] theorem setG_clockMhz (s : State) (f : Group → Group) : (s.setG f).clockMhz = s.clockMhz := rfl
@[simp] theorem setG_hbm (s : State) (f : Group → Group) : (s.setG f).hbm = s.hbm := rfl
@[simp] theorem setG_host (s : State) (f : Group → Group) : (s.setG f).host = s.host := rfl
@[simp] theorem setG_peer (s : State) (f : Group → Group) : (s.setG f).peer = s.peer := rfl
@[simp] theorem setG_hostRanges (s : State) (f : Group → Group) : (s.setG f).hostRanges = s.hostRanges := rfl
@[simp] theorem setG_old (s : State) (f : Group → Group) : (s.setG f).old = s.old := rfl
@[simp] theorem setG_stores (s : State) (f : Group → Group) : (s.setG f).stores = s.stores := rfl
@[simp] theorem setG_caches (s : State) (f : Group → Group) : (s.setG f).caches = s.caches := rfl
@[simp] theorem setG_leases (s : State) (f : Group → Group) : (s.setG f).leases = s.leases := rfl
@[simp] theorem setG_tlb (s : State) (f : Group → Group) : (s.setG f).tlb = s.tlb := rfl
@[simp] theorem setG_misses (s : State) (f : Group → Group) : (s.setG f).misses = s.misses := rfl
@[simp] theorem setG_agentWalks (s : State) (f : Group → Group) : (s.setG f).agentWalks = s.agentWalks := rfl
@[simp] theorem setG_traps (s : State) (f : Group → Group) : (s.setG f).traps = s.traps := rfl
@[simp] theorem setG_carve (s : State) (f : Group → Group) : (s.setG f).carve = s.carve := rfl
@[simp] theorem setG_pattern (s : State) (f : Group → Group) : (s.setG f).pattern = s.pattern := rfl
@[simp] theorem setG_queues (s : State) (f : Group → Group) : (s.setG f).queues = s.queues := rfl
@[simp] theorem setG_tasks (s : State) (f : Group → Group) : (s.setG f).tasks = s.tasks := rfl
@[simp] theorem setG_fits (s : State) (f : Group → Group) : (s.setG f).fits = s.fits := rfl
@[simp] theorem setG_mbox (s : State) (f : Group → Group) : (s.setG f).mbox = s.mbox := rfl
@[simp] theorem setG_msi (s : State) (f : Group → Group) : (s.setG f).msi = s.msi := rfl
@[simp] theorem setG_ring (s : State) (f : Group → Group) : (s.setG f).ring = s.ring := rfl
@[simp] theorem setG_reports (s : State) (f : Group → Group) : (s.setG f).reports = s.reports := rfl
@[simp] theorem setG_pockets (s : State) (f : Group → Group) : (s.setG f).pockets = s.pockets := rfl
@[simp] theorem setG_layout (s : State) (f : Group → Group) : (s.setG f).layout = s.layout := rfl
@[simp] theorem setG_started (s : State) (f : Group → Group) : (s.setG f).started = s.started := rfl
@[simp] theorem setG_minimal (s : State) (f : Group → Group) : (s.setG f).minimal = s.minimal := rfl
@[simp] theorem setG_failedStarts (s : State) (f : Group → Group) : (s.setG f).failedStarts = s.failedStarts := rfl
@[simp] theorem setG_out (s : State) (f : Group → Group) : (s.setG f).out = s.out := rfl
@[simp] theorem setG_unitErrors (s : State) (f : Group → Group) : (s.setG f).unitErrors = s.unitErrors := rfl
@[simp] theorem setG_corrected (s : State) (f : Group → Group) : (s.setG f).corrected = s.corrected := rfl
@[simp] theorem setG_images (s : State) (f : Group → Group) : (s.setG f).images = s.images := rfl
@[simp] theorem setG_ide (s : State) (f : Group → Group) : (s.setG f).ide = s.ide := rfl
@[simp] theorem setG_self (s : State) (f : Group → Group) : (s.setG f).self = s.self := rfl
@[simp] theorem setG_selfJoined (s : State) (f : Group → Group) : (s.setG f).selfJoined = s.selfJoined := rfl
@[simp] theorem setG_joinReady (s : State) (f : Group → Group) : (s.setG f).joinReady = s.joinReady := rfl
@[simp] theorem setG_members (s : State) (f : Group → Group) : (s.setG f).members = s.members := rfl
@[simp] theorem setG_exports (s : State) (f : Group → Group) : (s.setG f).exports = s.exports := rfl
@[simp] theorem setG_imports (s : State) (f : Group → Group) : (s.setG f).imports = s.imports := rfl
@[simp] theorem setG_lock (s : State) (f : Group → Group) : (s.setG f).lock = s.lock := rfl
@[simp] theorem setG_present (s : State) (f : Group → Group) : (s.setG f).present = s.present := rfl
@[simp] theorem setG_gridCount (s : State) (f : Group → Group) : (s.setG f).gridCount = s.gridCount := rfl
@[simp] theorem setG_bobNext (s : State) (f : Group → Group) : (s.setG f).bobNext = s.bobNext := rfl

@[simp] theorem updWg_grp (s : State) (u : Nat) (f : Workgroup → Workgroup) : (updWg u f s).grp = s.grp := rfl
@[simp] theorem updWg_groups (s : State) (u : Nat) (f : Workgroup → Workgroup) : (updWg u f s).groups = s.groups := rfl
@[simp] theorem updWg_grids (s : State) (u : Nat) (f : Workgroup → Workgroup) : (updWg u f s).grids = s.grids := rfl
@[simp] theorem updWg_ctxs (s : State) (u : Nat) (f : Workgroup → Workgroup) : (updWg u f s).ctxs = s.ctxs := rfl
@[simp] theorem updWg_tape (s : State) (u : Nat) (f : Workgroup → Workgroup) : (updWg u f s).tape = s.tape := rfl
@[simp] theorem updWg_free (s : State) (u : Nat) (f : Workgroup → Workgroup) : (updWg u f s).free = s.free := rfl
@[simp] theorem updWg_nextId (s : State) (u : Nat) (f : Workgroup → Workgroup) : (updWg u f s).nextId = s.nextId := rfl
@[simp] theorem updWg_time (s : State) (u : Nat) (f : Workgroup → Workgroup) : (updWg u f s).time = s.time := rfl
@[simp] theorem updWg_clockMhz (s : State) (u : Nat) (f : Workgroup → Workgroup) : (updWg u f s).clockMhz = s.clockMhz := rfl
@[simp] theorem updWg_hbm (s : State) (u : Nat) (f : Workgroup → Workgroup) : (updWg u f s).hbm = s.hbm := rfl
@[simp] theorem updWg_host (s : State) (u : Nat) (f : Workgroup → Workgroup) : (updWg u f s).host = s.host := rfl
@[simp] theorem updWg_peer (s : State) (u : Nat) (f : Workgroup → Workgroup) : (updWg u f s).peer = s.peer := rfl
@[simp] theorem updWg_hostRanges (s : State) (u : Nat) (f : Workgroup → Workgroup) : (updWg u f s).hostRanges = s.hostRanges := rfl
@[simp] theorem updWg_old (s : State) (u : Nat) (f : Workgroup → Workgroup) : (updWg u f s).old = s.old := rfl
@[simp] theorem updWg_stores (s : State) (u : Nat) (f : Workgroup → Workgroup) : (updWg u f s).stores = s.stores := rfl
@[simp] theorem updWg_caches (s : State) (u : Nat) (f : Workgroup → Workgroup) : (updWg u f s).caches = s.caches := rfl
@[simp] theorem updWg_leases (s : State) (u : Nat) (f : Workgroup → Workgroup) : (updWg u f s).leases = s.leases := rfl
@[simp] theorem updWg_tlb (s : State) (u : Nat) (f : Workgroup → Workgroup) : (updWg u f s).tlb = s.tlb := rfl
@[simp] theorem updWg_misses (s : State) (u : Nat) (f : Workgroup → Workgroup) : (updWg u f s).misses = s.misses := rfl
@[simp] theorem updWg_agentWalks (s : State) (u : Nat) (f : Workgroup → Workgroup) : (updWg u f s).agentWalks = s.agentWalks := rfl
@[simp] theorem updWg_traps (s : State) (u : Nat) (f : Workgroup → Workgroup) : (updWg u f s).traps = s.traps := rfl
@[simp] theorem updWg_carve (s : State) (u : Nat) (f : Workgroup → Workgroup) : (updWg u f s).carve = s.carve := rfl
@[simp] theorem updWg_pattern (s : State) (u : Nat) (f : Workgroup → Workgroup) : (updWg u f s).pattern = s.pattern := rfl
@[simp] theorem updWg_queues (s : State) (u : Nat) (f : Workgroup → Workgroup) : (updWg u f s).queues = s.queues := rfl
@[simp] theorem updWg_tasks (s : State) (u : Nat) (f : Workgroup → Workgroup) : (updWg u f s).tasks = s.tasks := rfl
@[simp] theorem updWg_fits (s : State) (u : Nat) (f : Workgroup → Workgroup) : (updWg u f s).fits = s.fits := rfl
@[simp] theorem updWg_mbox (s : State) (u : Nat) (f : Workgroup → Workgroup) : (updWg u f s).mbox = s.mbox := rfl
@[simp] theorem updWg_msi (s : State) (u : Nat) (f : Workgroup → Workgroup) : (updWg u f s).msi = s.msi := rfl
@[simp] theorem updWg_ring (s : State) (u : Nat) (f : Workgroup → Workgroup) : (updWg u f s).ring = s.ring := rfl
@[simp] theorem updWg_reports (s : State) (u : Nat) (f : Workgroup → Workgroup) : (updWg u f s).reports = s.reports := rfl
@[simp] theorem updWg_pockets (s : State) (u : Nat) (f : Workgroup → Workgroup) : (updWg u f s).pockets = s.pockets := rfl
@[simp] theorem updWg_layout (s : State) (u : Nat) (f : Workgroup → Workgroup) : (updWg u f s).layout = s.layout := rfl
@[simp] theorem updWg_started (s : State) (u : Nat) (f : Workgroup → Workgroup) : (updWg u f s).started = s.started := rfl
@[simp] theorem updWg_minimal (s : State) (u : Nat) (f : Workgroup → Workgroup) : (updWg u f s).minimal = s.minimal := rfl
@[simp] theorem updWg_failedStarts (s : State) (u : Nat) (f : Workgroup → Workgroup) : (updWg u f s).failedStarts = s.failedStarts := rfl
@[simp] theorem updWg_out (s : State) (u : Nat) (f : Workgroup → Workgroup) : (updWg u f s).out = s.out := rfl
@[simp] theorem updWg_unitErrors (s : State) (u : Nat) (f : Workgroup → Workgroup) : (updWg u f s).unitErrors = s.unitErrors := rfl
@[simp] theorem updWg_corrected (s : State) (u : Nat) (f : Workgroup → Workgroup) : (updWg u f s).corrected = s.corrected := rfl
@[simp] theorem updWg_images (s : State) (u : Nat) (f : Workgroup → Workgroup) : (updWg u f s).images = s.images := rfl
@[simp] theorem updWg_ide (s : State) (u : Nat) (f : Workgroup → Workgroup) : (updWg u f s).ide = s.ide := rfl
@[simp] theorem updWg_self (s : State) (u : Nat) (f : Workgroup → Workgroup) : (updWg u f s).self = s.self := rfl
@[simp] theorem updWg_selfJoined (s : State) (u : Nat) (f : Workgroup → Workgroup) : (updWg u f s).selfJoined = s.selfJoined := rfl
@[simp] theorem updWg_joinReady (s : State) (u : Nat) (f : Workgroup → Workgroup) : (updWg u f s).joinReady = s.joinReady := rfl
@[simp] theorem updWg_members (s : State) (u : Nat) (f : Workgroup → Workgroup) : (updWg u f s).members = s.members := rfl
@[simp] theorem updWg_exports (s : State) (u : Nat) (f : Workgroup → Workgroup) : (updWg u f s).exports = s.exports := rfl
@[simp] theorem updWg_imports (s : State) (u : Nat) (f : Workgroup → Workgroup) : (updWg u f s).imports = s.imports := rfl
@[simp] theorem updWg_lock (s : State) (u : Nat) (f : Workgroup → Workgroup) : (updWg u f s).lock = s.lock := rfl
@[simp] theorem updWg_present (s : State) (u : Nat) (f : Workgroup → Workgroup) : (updWg u f s).present = s.present := rfl
@[simp] theorem updWg_gridCount (s : State) (u : Nat) (f : Workgroup → Workgroup) : (updWg u f s).gridCount = s.gridCount := rfl
@[simp] theorem updWg_bobNext (s : State) (u : Nat) (f : Workgroup → Workgroup) : (updWg u f s).bobNext = s.bobNext := rfl

@[simp] theorem updCtx_grp (s : State) (u : Nat) (f : Context → Context) : (updCtx u f s).grp = s.grp := rfl
@[simp] theorem updCtx_groups (s : State) (u : Nat) (f : Context → Context) : (updCtx u f s).groups = s.groups := rfl
@[simp] theorem updCtx_wgs (s : State) (u : Nat) (f : Context → Context) : (updCtx u f s).wgs = s.wgs := rfl
@[simp] theorem updCtx_grids (s : State) (u : Nat) (f : Context → Context) : (updCtx u f s).grids = s.grids := rfl
@[simp] theorem updCtx_tape (s : State) (u : Nat) (f : Context → Context) : (updCtx u f s).tape = s.tape := rfl
@[simp] theorem updCtx_free (s : State) (u : Nat) (f : Context → Context) : (updCtx u f s).free = s.free := rfl
@[simp] theorem updCtx_nextId (s : State) (u : Nat) (f : Context → Context) : (updCtx u f s).nextId = s.nextId := rfl
@[simp] theorem updCtx_time (s : State) (u : Nat) (f : Context → Context) : (updCtx u f s).time = s.time := rfl
@[simp] theorem updCtx_clockMhz (s : State) (u : Nat) (f : Context → Context) : (updCtx u f s).clockMhz = s.clockMhz := rfl
@[simp] theorem updCtx_hbm (s : State) (u : Nat) (f : Context → Context) : (updCtx u f s).hbm = s.hbm := rfl
@[simp] theorem updCtx_host (s : State) (u : Nat) (f : Context → Context) : (updCtx u f s).host = s.host := rfl
@[simp] theorem updCtx_peer (s : State) (u : Nat) (f : Context → Context) : (updCtx u f s).peer = s.peer := rfl
@[simp] theorem updCtx_hostRanges (s : State) (u : Nat) (f : Context → Context) : (updCtx u f s).hostRanges = s.hostRanges := rfl
@[simp] theorem updCtx_old (s : State) (u : Nat) (f : Context → Context) : (updCtx u f s).old = s.old := rfl
@[simp] theorem updCtx_stores (s : State) (u : Nat) (f : Context → Context) : (updCtx u f s).stores = s.stores := rfl
@[simp] theorem updCtx_caches (s : State) (u : Nat) (f : Context → Context) : (updCtx u f s).caches = s.caches := rfl
@[simp] theorem updCtx_leases (s : State) (u : Nat) (f : Context → Context) : (updCtx u f s).leases = s.leases := rfl
@[simp] theorem updCtx_tlb (s : State) (u : Nat) (f : Context → Context) : (updCtx u f s).tlb = s.tlb := rfl
@[simp] theorem updCtx_misses (s : State) (u : Nat) (f : Context → Context) : (updCtx u f s).misses = s.misses := rfl
@[simp] theorem updCtx_agentWalks (s : State) (u : Nat) (f : Context → Context) : (updCtx u f s).agentWalks = s.agentWalks := rfl
@[simp] theorem updCtx_traps (s : State) (u : Nat) (f : Context → Context) : (updCtx u f s).traps = s.traps := rfl
@[simp] theorem updCtx_carve (s : State) (u : Nat) (f : Context → Context) : (updCtx u f s).carve = s.carve := rfl
@[simp] theorem updCtx_pattern (s : State) (u : Nat) (f : Context → Context) : (updCtx u f s).pattern = s.pattern := rfl
@[simp] theorem updCtx_queues (s : State) (u : Nat) (f : Context → Context) : (updCtx u f s).queues = s.queues := rfl
@[simp] theorem updCtx_tasks (s : State) (u : Nat) (f : Context → Context) : (updCtx u f s).tasks = s.tasks := rfl
@[simp] theorem updCtx_fits (s : State) (u : Nat) (f : Context → Context) : (updCtx u f s).fits = s.fits := rfl
@[simp] theorem updCtx_mbox (s : State) (u : Nat) (f : Context → Context) : (updCtx u f s).mbox = s.mbox := rfl
@[simp] theorem updCtx_msi (s : State) (u : Nat) (f : Context → Context) : (updCtx u f s).msi = s.msi := rfl
@[simp] theorem updCtx_ring (s : State) (u : Nat) (f : Context → Context) : (updCtx u f s).ring = s.ring := rfl
@[simp] theorem updCtx_reports (s : State) (u : Nat) (f : Context → Context) : (updCtx u f s).reports = s.reports := rfl
@[simp] theorem updCtx_pockets (s : State) (u : Nat) (f : Context → Context) : (updCtx u f s).pockets = s.pockets := rfl
@[simp] theorem updCtx_layout (s : State) (u : Nat) (f : Context → Context) : (updCtx u f s).layout = s.layout := rfl
@[simp] theorem updCtx_started (s : State) (u : Nat) (f : Context → Context) : (updCtx u f s).started = s.started := rfl
@[simp] theorem updCtx_minimal (s : State) (u : Nat) (f : Context → Context) : (updCtx u f s).minimal = s.minimal := rfl
@[simp] theorem updCtx_failedStarts (s : State) (u : Nat) (f : Context → Context) : (updCtx u f s).failedStarts = s.failedStarts := rfl
@[simp] theorem updCtx_out (s : State) (u : Nat) (f : Context → Context) : (updCtx u f s).out = s.out := rfl
@[simp] theorem updCtx_unitErrors (s : State) (u : Nat) (f : Context → Context) : (updCtx u f s).unitErrors = s.unitErrors := rfl
@[simp] theorem updCtx_corrected (s : State) (u : Nat) (f : Context → Context) : (updCtx u f s).corrected = s.corrected := rfl
@[simp] theorem updCtx_images (s : State) (u : Nat) (f : Context → Context) : (updCtx u f s).images = s.images := rfl
@[simp] theorem updCtx_ide (s : State) (u : Nat) (f : Context → Context) : (updCtx u f s).ide = s.ide := rfl
@[simp] theorem updCtx_self (s : State) (u : Nat) (f : Context → Context) : (updCtx u f s).self = s.self := rfl
@[simp] theorem updCtx_selfJoined (s : State) (u : Nat) (f : Context → Context) : (updCtx u f s).selfJoined = s.selfJoined := rfl
@[simp] theorem updCtx_joinReady (s : State) (u : Nat) (f : Context → Context) : (updCtx u f s).joinReady = s.joinReady := rfl
@[simp] theorem updCtx_members (s : State) (u : Nat) (f : Context → Context) : (updCtx u f s).members = s.members := rfl
@[simp] theorem updCtx_exports (s : State) (u : Nat) (f : Context → Context) : (updCtx u f s).exports = s.exports := rfl
@[simp] theorem updCtx_imports (s : State) (u : Nat) (f : Context → Context) : (updCtx u f s).imports = s.imports := rfl
@[simp] theorem updCtx_lock (s : State) (u : Nat) (f : Context → Context) : (updCtx u f s).lock = s.lock := rfl
@[simp] theorem updCtx_present (s : State) (u : Nat) (f : Context → Context) : (updCtx u f s).present = s.present := rfl
@[simp] theorem updCtx_gridCount (s : State) (u : Nat) (f : Context → Context) : (updCtx u f s).gridCount = s.gridCount := rfl
@[simp] theorem updCtx_bobNext (s : State) (u : Nat) (f : Context → Context) : (updCtx u f s).bobNext = s.bobNext := rfl

@[simp] theorem updGrid_grp (s : State) (u : Nat) (f : Grid → Grid) : (updGrid u f s).grp = s.grp := rfl
@[simp] theorem updGrid_groups (s : State) (u : Nat) (f : Grid → Grid) : (updGrid u f s).groups = s.groups := rfl
@[simp] theorem updGrid_wgs (s : State) (u : Nat) (f : Grid → Grid) : (updGrid u f s).wgs = s.wgs := rfl
@[simp] theorem updGrid_ctxs (s : State) (u : Nat) (f : Grid → Grid) : (updGrid u f s).ctxs = s.ctxs := rfl
@[simp] theorem updGrid_tape (s : State) (u : Nat) (f : Grid → Grid) : (updGrid u f s).tape = s.tape := rfl
@[simp] theorem updGrid_free (s : State) (u : Nat) (f : Grid → Grid) : (updGrid u f s).free = s.free := rfl
@[simp] theorem updGrid_nextId (s : State) (u : Nat) (f : Grid → Grid) : (updGrid u f s).nextId = s.nextId := rfl
@[simp] theorem updGrid_time (s : State) (u : Nat) (f : Grid → Grid) : (updGrid u f s).time = s.time := rfl
@[simp] theorem updGrid_clockMhz (s : State) (u : Nat) (f : Grid → Grid) : (updGrid u f s).clockMhz = s.clockMhz := rfl
@[simp] theorem updGrid_hbm (s : State) (u : Nat) (f : Grid → Grid) : (updGrid u f s).hbm = s.hbm := rfl
@[simp] theorem updGrid_host (s : State) (u : Nat) (f : Grid → Grid) : (updGrid u f s).host = s.host := rfl
@[simp] theorem updGrid_peer (s : State) (u : Nat) (f : Grid → Grid) : (updGrid u f s).peer = s.peer := rfl
@[simp] theorem updGrid_hostRanges (s : State) (u : Nat) (f : Grid → Grid) : (updGrid u f s).hostRanges = s.hostRanges := rfl
@[simp] theorem updGrid_old (s : State) (u : Nat) (f : Grid → Grid) : (updGrid u f s).old = s.old := rfl
@[simp] theorem updGrid_stores (s : State) (u : Nat) (f : Grid → Grid) : (updGrid u f s).stores = s.stores := rfl
@[simp] theorem updGrid_caches (s : State) (u : Nat) (f : Grid → Grid) : (updGrid u f s).caches = s.caches := rfl
@[simp] theorem updGrid_leases (s : State) (u : Nat) (f : Grid → Grid) : (updGrid u f s).leases = s.leases := rfl
@[simp] theorem updGrid_tlb (s : State) (u : Nat) (f : Grid → Grid) : (updGrid u f s).tlb = s.tlb := rfl
@[simp] theorem updGrid_misses (s : State) (u : Nat) (f : Grid → Grid) : (updGrid u f s).misses = s.misses := rfl
@[simp] theorem updGrid_agentWalks (s : State) (u : Nat) (f : Grid → Grid) : (updGrid u f s).agentWalks = s.agentWalks := rfl
@[simp] theorem updGrid_traps (s : State) (u : Nat) (f : Grid → Grid) : (updGrid u f s).traps = s.traps := rfl
@[simp] theorem updGrid_carve (s : State) (u : Nat) (f : Grid → Grid) : (updGrid u f s).carve = s.carve := rfl
@[simp] theorem updGrid_pattern (s : State) (u : Nat) (f : Grid → Grid) : (updGrid u f s).pattern = s.pattern := rfl
@[simp] theorem updGrid_queues (s : State) (u : Nat) (f : Grid → Grid) : (updGrid u f s).queues = s.queues := rfl
@[simp] theorem updGrid_tasks (s : State) (u : Nat) (f : Grid → Grid) : (updGrid u f s).tasks = s.tasks := rfl
@[simp] theorem updGrid_fits (s : State) (u : Nat) (f : Grid → Grid) : (updGrid u f s).fits = s.fits := rfl
@[simp] theorem updGrid_mbox (s : State) (u : Nat) (f : Grid → Grid) : (updGrid u f s).mbox = s.mbox := rfl
@[simp] theorem updGrid_msi (s : State) (u : Nat) (f : Grid → Grid) : (updGrid u f s).msi = s.msi := rfl
@[simp] theorem updGrid_ring (s : State) (u : Nat) (f : Grid → Grid) : (updGrid u f s).ring = s.ring := rfl
@[simp] theorem updGrid_reports (s : State) (u : Nat) (f : Grid → Grid) : (updGrid u f s).reports = s.reports := rfl
@[simp] theorem updGrid_pockets (s : State) (u : Nat) (f : Grid → Grid) : (updGrid u f s).pockets = s.pockets := rfl
@[simp] theorem updGrid_layout (s : State) (u : Nat) (f : Grid → Grid) : (updGrid u f s).layout = s.layout := rfl
@[simp] theorem updGrid_started (s : State) (u : Nat) (f : Grid → Grid) : (updGrid u f s).started = s.started := rfl
@[simp] theorem updGrid_minimal (s : State) (u : Nat) (f : Grid → Grid) : (updGrid u f s).minimal = s.minimal := rfl
@[simp] theorem updGrid_failedStarts (s : State) (u : Nat) (f : Grid → Grid) : (updGrid u f s).failedStarts = s.failedStarts := rfl
@[simp] theorem updGrid_out (s : State) (u : Nat) (f : Grid → Grid) : (updGrid u f s).out = s.out := rfl
@[simp] theorem updGrid_unitErrors (s : State) (u : Nat) (f : Grid → Grid) : (updGrid u f s).unitErrors = s.unitErrors := rfl
@[simp] theorem updGrid_corrected (s : State) (u : Nat) (f : Grid → Grid) : (updGrid u f s).corrected = s.corrected := rfl
@[simp] theorem updGrid_images (s : State) (u : Nat) (f : Grid → Grid) : (updGrid u f s).images = s.images := rfl
@[simp] theorem updGrid_ide (s : State) (u : Nat) (f : Grid → Grid) : (updGrid u f s).ide = s.ide := rfl
@[simp] theorem updGrid_self (s : State) (u : Nat) (f : Grid → Grid) : (updGrid u f s).self = s.self := rfl
@[simp] theorem updGrid_selfJoined (s : State) (u : Nat) (f : Grid → Grid) : (updGrid u f s).selfJoined = s.selfJoined := rfl
@[simp] theorem updGrid_joinReady (s : State) (u : Nat) (f : Grid → Grid) : (updGrid u f s).joinReady = s.joinReady := rfl
@[simp] theorem updGrid_members (s : State) (u : Nat) (f : Grid → Grid) : (updGrid u f s).members = s.members := rfl
@[simp] theorem updGrid_exports (s : State) (u : Nat) (f : Grid → Grid) : (updGrid u f s).exports = s.exports := rfl
@[simp] theorem updGrid_imports (s : State) (u : Nat) (f : Grid → Grid) : (updGrid u f s).imports = s.imports := rfl
@[simp] theorem updGrid_lock (s : State) (u : Nat) (f : Grid → Grid) : (updGrid u f s).lock = s.lock := rfl
@[simp] theorem updGrid_present (s : State) (u : Nat) (f : Grid → Grid) : (updGrid u f s).present = s.present := rfl
@[simp] theorem updGrid_gridCount (s : State) (u : Nat) (f : Grid → Grid) : (updGrid u f s).gridCount = s.gridCount := rfl
@[simp] theorem updGrid_bobNext (s : State) (u : Nat) (f : Grid → Grid) : (updGrid u f s).bobNext = s.bobNext := rfl

@[simp] theorem updQueue_grp (s : State) (u : Nat) (f : Queue → Queue) : (updQueue u f s).grp = s.grp := rfl
@[simp] theorem updQueue_groups (s : State) (u : Nat) (f : Queue → Queue) : (updQueue u f s).groups = s.groups := rfl
@[simp] theorem updQueue_wgs (s : State) (u : Nat) (f : Queue → Queue) : (updQueue u f s).wgs = s.wgs := rfl
@[simp] theorem updQueue_grids (s : State) (u : Nat) (f : Queue → Queue) : (updQueue u f s).grids = s.grids := rfl
@[simp] theorem updQueue_ctxs (s : State) (u : Nat) (f : Queue → Queue) : (updQueue u f s).ctxs = s.ctxs := rfl
@[simp] theorem updQueue_tape (s : State) (u : Nat) (f : Queue → Queue) : (updQueue u f s).tape = s.tape := rfl
@[simp] theorem updQueue_free (s : State) (u : Nat) (f : Queue → Queue) : (updQueue u f s).free = s.free := rfl
@[simp] theorem updQueue_nextId (s : State) (u : Nat) (f : Queue → Queue) : (updQueue u f s).nextId = s.nextId := rfl
@[simp] theorem updQueue_time (s : State) (u : Nat) (f : Queue → Queue) : (updQueue u f s).time = s.time := rfl
@[simp] theorem updQueue_clockMhz (s : State) (u : Nat) (f : Queue → Queue) : (updQueue u f s).clockMhz = s.clockMhz := rfl
@[simp] theorem updQueue_hbm (s : State) (u : Nat) (f : Queue → Queue) : (updQueue u f s).hbm = s.hbm := rfl
@[simp] theorem updQueue_host (s : State) (u : Nat) (f : Queue → Queue) : (updQueue u f s).host = s.host := rfl
@[simp] theorem updQueue_peer (s : State) (u : Nat) (f : Queue → Queue) : (updQueue u f s).peer = s.peer := rfl
@[simp] theorem updQueue_hostRanges (s : State) (u : Nat) (f : Queue → Queue) : (updQueue u f s).hostRanges = s.hostRanges := rfl
@[simp] theorem updQueue_old (s : State) (u : Nat) (f : Queue → Queue) : (updQueue u f s).old = s.old := rfl
@[simp] theorem updQueue_stores (s : State) (u : Nat) (f : Queue → Queue) : (updQueue u f s).stores = s.stores := rfl
@[simp] theorem updQueue_caches (s : State) (u : Nat) (f : Queue → Queue) : (updQueue u f s).caches = s.caches := rfl
@[simp] theorem updQueue_leases (s : State) (u : Nat) (f : Queue → Queue) : (updQueue u f s).leases = s.leases := rfl
@[simp] theorem updQueue_tlb (s : State) (u : Nat) (f : Queue → Queue) : (updQueue u f s).tlb = s.tlb := rfl
@[simp] theorem updQueue_misses (s : State) (u : Nat) (f : Queue → Queue) : (updQueue u f s).misses = s.misses := rfl
@[simp] theorem updQueue_agentWalks (s : State) (u : Nat) (f : Queue → Queue) : (updQueue u f s).agentWalks = s.agentWalks := rfl
@[simp] theorem updQueue_traps (s : State) (u : Nat) (f : Queue → Queue) : (updQueue u f s).traps = s.traps := rfl
@[simp] theorem updQueue_carve (s : State) (u : Nat) (f : Queue → Queue) : (updQueue u f s).carve = s.carve := rfl
@[simp] theorem updQueue_pattern (s : State) (u : Nat) (f : Queue → Queue) : (updQueue u f s).pattern = s.pattern := rfl
@[simp] theorem updQueue_tasks (s : State) (u : Nat) (f : Queue → Queue) : (updQueue u f s).tasks = s.tasks := rfl
@[simp] theorem updQueue_fits (s : State) (u : Nat) (f : Queue → Queue) : (updQueue u f s).fits = s.fits := rfl
@[simp] theorem updQueue_mbox (s : State) (u : Nat) (f : Queue → Queue) : (updQueue u f s).mbox = s.mbox := rfl
@[simp] theorem updQueue_msi (s : State) (u : Nat) (f : Queue → Queue) : (updQueue u f s).msi = s.msi := rfl
@[simp] theorem updQueue_ring (s : State) (u : Nat) (f : Queue → Queue) : (updQueue u f s).ring = s.ring := rfl
@[simp] theorem updQueue_reports (s : State) (u : Nat) (f : Queue → Queue) : (updQueue u f s).reports = s.reports := rfl
@[simp] theorem updQueue_pockets (s : State) (u : Nat) (f : Queue → Queue) : (updQueue u f s).pockets = s.pockets := rfl
@[simp] theorem updQueue_layout (s : State) (u : Nat) (f : Queue → Queue) : (updQueue u f s).layout = s.layout := rfl
@[simp] theorem updQueue_started (s : State) (u : Nat) (f : Queue → Queue) : (updQueue u f s).started = s.started := rfl
@[simp] theorem updQueue_minimal (s : State) (u : Nat) (f : Queue → Queue) : (updQueue u f s).minimal = s.minimal := rfl
@[simp] theorem updQueue_failedStarts (s : State) (u : Nat) (f : Queue → Queue) : (updQueue u f s).failedStarts = s.failedStarts := rfl
@[simp] theorem updQueue_out (s : State) (u : Nat) (f : Queue → Queue) : (updQueue u f s).out = s.out := rfl
@[simp] theorem updQueue_unitErrors (s : State) (u : Nat) (f : Queue → Queue) : (updQueue u f s).unitErrors = s.unitErrors := rfl
@[simp] theorem updQueue_corrected (s : State) (u : Nat) (f : Queue → Queue) : (updQueue u f s).corrected = s.corrected := rfl
@[simp] theorem updQueue_images (s : State) (u : Nat) (f : Queue → Queue) : (updQueue u f s).images = s.images := rfl
@[simp] theorem updQueue_ide (s : State) (u : Nat) (f : Queue → Queue) : (updQueue u f s).ide = s.ide := rfl
@[simp] theorem updQueue_self (s : State) (u : Nat) (f : Queue → Queue) : (updQueue u f s).self = s.self := rfl
@[simp] theorem updQueue_selfJoined (s : State) (u : Nat) (f : Queue → Queue) : (updQueue u f s).selfJoined = s.selfJoined := rfl
@[simp] theorem updQueue_joinReady (s : State) (u : Nat) (f : Queue → Queue) : (updQueue u f s).joinReady = s.joinReady := rfl
@[simp] theorem updQueue_members (s : State) (u : Nat) (f : Queue → Queue) : (updQueue u f s).members = s.members := rfl
@[simp] theorem updQueue_exports (s : State) (u : Nat) (f : Queue → Queue) : (updQueue u f s).exports = s.exports := rfl
@[simp] theorem updQueue_imports (s : State) (u : Nat) (f : Queue → Queue) : (updQueue u f s).imports = s.imports := rfl
@[simp] theorem updQueue_lock (s : State) (u : Nat) (f : Queue → Queue) : (updQueue u f s).lock = s.lock := rfl
@[simp] theorem updQueue_present (s : State) (u : Nat) (f : Queue → Queue) : (updQueue u f s).present = s.present := rfl
@[simp] theorem updQueue_gridCount (s : State) (u : Nat) (f : Queue → Queue) : (updQueue u f s).gridCount = s.gridCount := rfl
@[simp] theorem updQueue_bobNext (s : State) (u : Nat) (f : Queue → Queue) : (updQueue u f s).bobNext = s.bobNext := rfl

@[simp] theorem setHostBytes_grp (s : State) (a : Nat) (bs : List Byte) : (setHostBytes a bs s).grp = s.grp := rfl
@[simp] theorem setHostBytes_groups (s : State) (a : Nat) (bs : List Byte) : (setHostBytes a bs s).groups = s.groups := rfl
@[simp] theorem setHostBytes_wgs (s : State) (a : Nat) (bs : List Byte) : (setHostBytes a bs s).wgs = s.wgs := rfl
@[simp] theorem setHostBytes_grids (s : State) (a : Nat) (bs : List Byte) : (setHostBytes a bs s).grids = s.grids := rfl
@[simp] theorem setHostBytes_ctxs (s : State) (a : Nat) (bs : List Byte) : (setHostBytes a bs s).ctxs = s.ctxs := rfl
@[simp] theorem setHostBytes_tape (s : State) (a : Nat) (bs : List Byte) : (setHostBytes a bs s).tape = s.tape := rfl
@[simp] theorem setHostBytes_free (s : State) (a : Nat) (bs : List Byte) : (setHostBytes a bs s).free = s.free := rfl
@[simp] theorem setHostBytes_nextId (s : State) (a : Nat) (bs : List Byte) : (setHostBytes a bs s).nextId = s.nextId := rfl
@[simp] theorem setHostBytes_time (s : State) (a : Nat) (bs : List Byte) : (setHostBytes a bs s).time = s.time := rfl
@[simp] theorem setHostBytes_clockMhz (s : State) (a : Nat) (bs : List Byte) : (setHostBytes a bs s).clockMhz = s.clockMhz := rfl
@[simp] theorem setHostBytes_hbm (s : State) (a : Nat) (bs : List Byte) : (setHostBytes a bs s).hbm = s.hbm := rfl
@[simp] theorem setHostBytes_peer (s : State) (a : Nat) (bs : List Byte) : (setHostBytes a bs s).peer = s.peer := rfl
@[simp] theorem setHostBytes_hostRanges (s : State) (a : Nat) (bs : List Byte) : (setHostBytes a bs s).hostRanges = s.hostRanges := rfl
@[simp] theorem setHostBytes_old (s : State) (a : Nat) (bs : List Byte) : (setHostBytes a bs s).old = s.old := rfl
@[simp] theorem setHostBytes_stores (s : State) (a : Nat) (bs : List Byte) : (setHostBytes a bs s).stores = s.stores := rfl
@[simp] theorem setHostBytes_caches (s : State) (a : Nat) (bs : List Byte) : (setHostBytes a bs s).caches = s.caches := rfl
@[simp] theorem setHostBytes_leases (s : State) (a : Nat) (bs : List Byte) : (setHostBytes a bs s).leases = s.leases := rfl
@[simp] theorem setHostBytes_tlb (s : State) (a : Nat) (bs : List Byte) : (setHostBytes a bs s).tlb = s.tlb := rfl
@[simp] theorem setHostBytes_misses (s : State) (a : Nat) (bs : List Byte) : (setHostBytes a bs s).misses = s.misses := rfl
@[simp] theorem setHostBytes_agentWalks (s : State) (a : Nat) (bs : List Byte) : (setHostBytes a bs s).agentWalks = s.agentWalks := rfl
@[simp] theorem setHostBytes_traps (s : State) (a : Nat) (bs : List Byte) : (setHostBytes a bs s).traps = s.traps := rfl
@[simp] theorem setHostBytes_carve (s : State) (a : Nat) (bs : List Byte) : (setHostBytes a bs s).carve = s.carve := rfl
@[simp] theorem setHostBytes_pattern (s : State) (a : Nat) (bs : List Byte) : (setHostBytes a bs s).pattern = s.pattern := rfl
@[simp] theorem setHostBytes_queues (s : State) (a : Nat) (bs : List Byte) : (setHostBytes a bs s).queues = s.queues := rfl
@[simp] theorem setHostBytes_tasks (s : State) (a : Nat) (bs : List Byte) : (setHostBytes a bs s).tasks = s.tasks := rfl
@[simp] theorem setHostBytes_fits (s : State) (a : Nat) (bs : List Byte) : (setHostBytes a bs s).fits = s.fits := rfl
@[simp] theorem setHostBytes_mbox (s : State) (a : Nat) (bs : List Byte) : (setHostBytes a bs s).mbox = s.mbox := rfl
@[simp] theorem setHostBytes_msi (s : State) (a : Nat) (bs : List Byte) : (setHostBytes a bs s).msi = s.msi := rfl
@[simp] theorem setHostBytes_ring (s : State) (a : Nat) (bs : List Byte) : (setHostBytes a bs s).ring = s.ring := rfl
@[simp] theorem setHostBytes_reports (s : State) (a : Nat) (bs : List Byte) : (setHostBytes a bs s).reports = s.reports := rfl
@[simp] theorem setHostBytes_pockets (s : State) (a : Nat) (bs : List Byte) : (setHostBytes a bs s).pockets = s.pockets := rfl
@[simp] theorem setHostBytes_layout (s : State) (a : Nat) (bs : List Byte) : (setHostBytes a bs s).layout = s.layout := rfl
@[simp] theorem setHostBytes_started (s : State) (a : Nat) (bs : List Byte) : (setHostBytes a bs s).started = s.started := rfl
@[simp] theorem setHostBytes_minimal (s : State) (a : Nat) (bs : List Byte) : (setHostBytes a bs s).minimal = s.minimal := rfl
@[simp] theorem setHostBytes_failedStarts (s : State) (a : Nat) (bs : List Byte) : (setHostBytes a bs s).failedStarts = s.failedStarts := rfl
@[simp] theorem setHostBytes_out (s : State) (a : Nat) (bs : List Byte) : (setHostBytes a bs s).out = s.out := rfl
@[simp] theorem setHostBytes_unitErrors (s : State) (a : Nat) (bs : List Byte) : (setHostBytes a bs s).unitErrors = s.unitErrors := rfl
@[simp] theorem setHostBytes_corrected (s : State) (a : Nat) (bs : List Byte) : (setHostBytes a bs s).corrected = s.corrected := rfl
@[simp] theorem setHostBytes_images (s : State) (a : Nat) (bs : List Byte) : (setHostBytes a bs s).images = s.images := rfl
@[simp] theorem setHostBytes_ide (s : State) (a : Nat) (bs : List Byte) : (setHostBytes a bs s).ide = s.ide := rfl
@[simp] theorem setHostBytes_self (s : State) (a : Nat) (bs : List Byte) : (setHostBytes a bs s).self = s.self := rfl
@[simp] theorem setHostBytes_selfJoined (s : State) (a : Nat) (bs : List Byte) : (setHostBytes a bs s).selfJoined = s.selfJoined := rfl
@[simp] theorem setHostBytes_joinReady (s : State) (a : Nat) (bs : List Byte) : (setHostBytes a bs s).joinReady = s.joinReady := rfl
@[simp] theorem setHostBytes_members (s : State) (a : Nat) (bs : List Byte) : (setHostBytes a bs s).members = s.members := rfl
@[simp] theorem setHostBytes_exports (s : State) (a : Nat) (bs : List Byte) : (setHostBytes a bs s).exports = s.exports := rfl
@[simp] theorem setHostBytes_imports (s : State) (a : Nat) (bs : List Byte) : (setHostBytes a bs s).imports = s.imports := rfl
@[simp] theorem setHostBytes_lock (s : State) (a : Nat) (bs : List Byte) : (setHostBytes a bs s).lock = s.lock := rfl
@[simp] theorem setHostBytes_present (s : State) (a : Nat) (bs : List Byte) : (setHostBytes a bs s).present = s.present := rfl
@[simp] theorem setHostBytes_gridCount (s : State) (a : Nat) (bs : List Byte) : (setHostBytes a bs s).gridCount = s.gridCount := rfl
@[simp] theorem setHostBytes_bobNext (s : State) (a : Nat) (bs : List Byte) : (setHostBytes a bs s).bobNext = s.bobNext := rfl

@[simp] theorem setG_grp (s : State) (f : Group → Group) : (s.setG f).grp = f s.grp := rfl
@[simp] theorem drawFree_grp (s : State) : (drawFree s).2.grp = s.grp := rfl
@[simp] theorem drawFree_groups (s : State) : (drawFree s).2.groups = s.groups := rfl
@[simp] theorem drawFree_wgs (s : State) : (drawFree s).2.wgs = s.wgs := rfl
@[simp] theorem drawFree_grids (s : State) : (drawFree s).2.grids = s.grids := rfl
@[simp] theorem drawFree_ctxs (s : State) : (drawFree s).2.ctxs = s.ctxs := rfl
@[simp] theorem drawFree_tape (s : State) : (drawFree s).2.tape = s.tape := rfl
@[simp] theorem drawFree_nextId (s : State) : (drawFree s).2.nextId = s.nextId := rfl
@[simp] theorem drawFree_time (s : State) : (drawFree s).2.time = s.time := rfl
@[simp] theorem drawFree_clockMhz (s : State) : (drawFree s).2.clockMhz = s.clockMhz := rfl
@[simp] theorem drawFree_hbm (s : State) : (drawFree s).2.hbm = s.hbm := rfl
@[simp] theorem drawFree_host (s : State) : (drawFree s).2.host = s.host := rfl
@[simp] theorem drawFree_peer (s : State) : (drawFree s).2.peer = s.peer := rfl
@[simp] theorem drawFree_hostRanges (s : State) : (drawFree s).2.hostRanges = s.hostRanges := rfl
@[simp] theorem drawFree_old (s : State) : (drawFree s).2.old = s.old := rfl
@[simp] theorem drawFree_stores (s : State) : (drawFree s).2.stores = s.stores := rfl
@[simp] theorem drawFree_caches (s : State) : (drawFree s).2.caches = s.caches := rfl
@[simp] theorem drawFree_leases (s : State) : (drawFree s).2.leases = s.leases := rfl
@[simp] theorem drawFree_tlb (s : State) : (drawFree s).2.tlb = s.tlb := rfl
@[simp] theorem drawFree_misses (s : State) : (drawFree s).2.misses = s.misses := rfl
@[simp] theorem drawFree_agentWalks (s : State) : (drawFree s).2.agentWalks = s.agentWalks := rfl
@[simp] theorem drawFree_traps (s : State) : (drawFree s).2.traps = s.traps := rfl
@[simp] theorem drawFree_carve (s : State) : (drawFree s).2.carve = s.carve := rfl
@[simp] theorem drawFree_pattern (s : State) : (drawFree s).2.pattern = s.pattern := rfl
@[simp] theorem drawFree_queues (s : State) : (drawFree s).2.queues = s.queues := rfl
@[simp] theorem drawFree_tasks (s : State) : (drawFree s).2.tasks = s.tasks := rfl
@[simp] theorem drawFree_fits (s : State) : (drawFree s).2.fits = s.fits := rfl
@[simp] theorem drawFree_mbox (s : State) : (drawFree s).2.mbox = s.mbox := rfl
@[simp] theorem drawFree_msi (s : State) : (drawFree s).2.msi = s.msi := rfl
@[simp] theorem drawFree_ring (s : State) : (drawFree s).2.ring = s.ring := rfl
@[simp] theorem drawFree_reports (s : State) : (drawFree s).2.reports = s.reports := rfl
@[simp] theorem drawFree_pockets (s : State) : (drawFree s).2.pockets = s.pockets := rfl
@[simp] theorem drawFree_layout (s : State) : (drawFree s).2.layout = s.layout := rfl
@[simp] theorem drawFree_started (s : State) : (drawFree s).2.started = s.started := rfl
@[simp] theorem drawFree_minimal (s : State) : (drawFree s).2.minimal = s.minimal := rfl
@[simp] theorem drawFree_failedStarts (s : State) : (drawFree s).2.failedStarts = s.failedStarts := rfl
@[simp] theorem drawFree_out (s : State) : (drawFree s).2.out = s.out := rfl
@[simp] theorem drawFree_unitErrors (s : State) : (drawFree s).2.unitErrors = s.unitErrors := rfl
@[simp] theorem drawFree_corrected (s : State) : (drawFree s).2.corrected = s.corrected := rfl
@[simp] theorem drawFree_images (s : State) : (drawFree s).2.images = s.images := rfl
@[simp] theorem drawFree_ide (s : State) : (drawFree s).2.ide = s.ide := rfl
@[simp] theorem drawFree_self (s : State) : (drawFree s).2.self = s.self := rfl
@[simp] theorem drawFree_selfJoined (s : State) : (drawFree s).2.selfJoined = s.selfJoined := rfl
@[simp] theorem drawFree_joinReady (s : State) : (drawFree s).2.joinReady = s.joinReady := rfl
@[simp] theorem drawFree_members (s : State) : (drawFree s).2.members = s.members := rfl
@[simp] theorem drawFree_exports (s : State) : (drawFree s).2.exports = s.exports := rfl
@[simp] theorem drawFree_imports (s : State) : (drawFree s).2.imports = s.imports := rfl
@[simp] theorem drawFree_lock (s : State) : (drawFree s).2.lock = s.lock := rfl
@[simp] theorem drawFree_present (s : State) : (drawFree s).2.present = s.present := rfl
@[simp] theorem drawFree_gridCount (s : State) : (drawFree s).2.gridCount = s.gridCount := rfl
@[simp] theorem drawFree_bobNext (s : State) : (drawFree s).2.bobNext = s.bobNext := rfl
@[simp] theorem drawFree_fst (s : State) : (drawFree s).1 = s.free := rfl
@[simp] theorem drawFree_free (s : State) : (drawFree s).2.free = s.free + 1 := rfl
@[simp] theorem fresh_grp (s : State) : (fresh s).2.grp = s.grp := rfl
@[simp] theorem fresh_groups (s : State) : (fresh s).2.groups = s.groups := rfl
@[simp] theorem fresh_wgs (s : State) : (fresh s).2.wgs = s.wgs := rfl
@[simp] theorem fresh_grids (s : State) : (fresh s).2.grids = s.grids := rfl
@[simp] theorem fresh_ctxs (s : State) : (fresh s).2.ctxs = s.ctxs := rfl
@[simp] theorem fresh_tape (s : State) : (fresh s).2.tape = s.tape := rfl
@[simp] theorem fresh_free (s : State) : (fresh s).2.free = s.free := rfl
@[simp] theorem fresh_time (s : State) : (fresh s).2.time = s.time := rfl
@[simp] theorem fresh_clockMhz (s : State) : (fresh s).2.clockMhz = s.clockMhz := rfl
@[simp] theorem fresh_hbm (s : State) : (fresh s).2.hbm = s.hbm := rfl
@[simp] theorem fresh_host (s : State) : (fresh s).2.host = s.host := rfl
@[simp] theorem fresh_peer (s : State) : (fresh s).2.peer = s.peer := rfl
@[simp] theorem fresh_hostRanges (s : State) : (fresh s).2.hostRanges = s.hostRanges := rfl
@[simp] theorem fresh_old (s : State) : (fresh s).2.old = s.old := rfl
@[simp] theorem fresh_stores (s : State) : (fresh s).2.stores = s.stores := rfl
@[simp] theorem fresh_caches (s : State) : (fresh s).2.caches = s.caches := rfl
@[simp] theorem fresh_leases (s : State) : (fresh s).2.leases = s.leases := rfl
@[simp] theorem fresh_tlb (s : State) : (fresh s).2.tlb = s.tlb := rfl
@[simp] theorem fresh_misses (s : State) : (fresh s).2.misses = s.misses := rfl
@[simp] theorem fresh_agentWalks (s : State) : (fresh s).2.agentWalks = s.agentWalks := rfl
@[simp] theorem fresh_traps (s : State) : (fresh s).2.traps = s.traps := rfl
@[simp] theorem fresh_carve (s : State) : (fresh s).2.carve = s.carve := rfl
@[simp] theorem fresh_pattern (s : State) : (fresh s).2.pattern = s.pattern := rfl
@[simp] theorem fresh_queues (s : State) : (fresh s).2.queues = s.queues := rfl
@[simp] theorem fresh_tasks (s : State) : (fresh s).2.tasks = s.tasks := rfl
@[simp] theorem fresh_fits (s : State) : (fresh s).2.fits = s.fits := rfl
@[simp] theorem fresh_mbox (s : State) : (fresh s).2.mbox = s.mbox := rfl
@[simp] theorem fresh_msi (s : State) : (fresh s).2.msi = s.msi := rfl
@[simp] theorem fresh_ring (s : State) : (fresh s).2.ring = s.ring := rfl
@[simp] theorem fresh_reports (s : State) : (fresh s).2.reports = s.reports := rfl
@[simp] theorem fresh_pockets (s : State) : (fresh s).2.pockets = s.pockets := rfl
@[simp] theorem fresh_layout (s : State) : (fresh s).2.layout = s.layout := rfl
@[simp] theorem fresh_started (s : State) : (fresh s).2.started = s.started := rfl
@[simp] theorem fresh_minimal (s : State) : (fresh s).2.minimal = s.minimal := rfl
@[simp] theorem fresh_failedStarts (s : State) : (fresh s).2.failedStarts = s.failedStarts := rfl
@[simp] theorem fresh_out (s : State) : (fresh s).2.out = s.out := rfl
@[simp] theorem fresh_unitErrors (s : State) : (fresh s).2.unitErrors = s.unitErrors := rfl
@[simp] theorem fresh_corrected (s : State) : (fresh s).2.corrected = s.corrected := rfl
@[simp] theorem fresh_images (s : State) : (fresh s).2.images = s.images := rfl
@[simp] theorem fresh_ide (s : State) : (fresh s).2.ide = s.ide := rfl
@[simp] theorem fresh_self (s : State) : (fresh s).2.self = s.self := rfl
@[simp] theorem fresh_selfJoined (s : State) : (fresh s).2.selfJoined = s.selfJoined := rfl
@[simp] theorem fresh_joinReady (s : State) : (fresh s).2.joinReady = s.joinReady := rfl
@[simp] theorem fresh_members (s : State) : (fresh s).2.members = s.members := rfl
@[simp] theorem fresh_exports (s : State) : (fresh s).2.exports = s.exports := rfl
@[simp] theorem fresh_imports (s : State) : (fresh s).2.imports = s.imports := rfl
@[simp] theorem fresh_lock (s : State) : (fresh s).2.lock = s.lock := rfl
@[simp] theorem fresh_present (s : State) : (fresh s).2.present = s.present := rfl
@[simp] theorem fresh_gridCount (s : State) : (fresh s).2.gridCount = s.gridCount := rfl
@[simp] theorem fresh_bobNext (s : State) : (fresh s).2.bobNext = s.bobNext := rfl
@[simp] theorem fresh_fst (s : State) : (fresh s).1 = s.nextId := rfl
@[simp] theorem fresh_nextId (s : State) : (fresh s).2.nextId = s.nextId + 1 := rfl

@[simp] theorem setHomeByte_grp (a : Nat) (x : Byte) (s : State) : (setHomeByte a x s).grp = s.grp := by unfold setHomeByte; split_ifs <;> rfl
@[simp] theorem setHomeByte_groups (a : Nat) (x : Byte) (s : State) : (setHomeByte a x s).groups = s.groups := by unfold setHomeByte; split_ifs <;> rfl
@[simp] theorem setHomeByte_wgs (a : Nat) (x : Byte) (s : State) : (setHomeByte a x s).wgs = s.wgs := by unfold setHomeByte; split_ifs <;> rfl
@[simp] theorem setHomeByte_grids (a : Nat) (x : Byte) (s : State) : (setHomeByte a x s).grids = s.grids := by unfold setHomeByte; split_ifs <;> rfl
@[simp] theorem setHomeByte_ctxs (a : Nat) (x : Byte) (s : State) : (setHomeByte a x s).ctxs = s.ctxs := by unfold setHomeByte; split_ifs <;> rfl
@[simp] theorem setHomeByte_tape (a : Nat) (x : Byte) (s : State) : (setHomeByte a x s).tape = s.tape := by unfold setHomeByte; split_ifs <;> rfl
@[simp] theorem setHomeByte_free (a : Nat) (x : Byte) (s : State) : (setHomeByte a x s).free = s.free := by unfold setHomeByte; split_ifs <;> rfl
@[simp] theorem setHomeByte_nextId (a : Nat) (x : Byte) (s : State) : (setHomeByte a x s).nextId = s.nextId := by unfold setHomeByte; split_ifs <;> rfl
@[simp] theorem setHomeByte_time (a : Nat) (x : Byte) (s : State) : (setHomeByte a x s).time = s.time := by unfold setHomeByte; split_ifs <;> rfl
@[simp] theorem setHomeByte_clockMhz (a : Nat) (x : Byte) (s : State) : (setHomeByte a x s).clockMhz = s.clockMhz := by unfold setHomeByte; split_ifs <;> rfl
@[simp] theorem setHomeByte_hostRanges (a : Nat) (x : Byte) (s : State) : (setHomeByte a x s).hostRanges = s.hostRanges := by unfold setHomeByte; split_ifs <;> rfl
@[simp] theorem setHomeByte_old (a : Nat) (x : Byte) (s : State) : (setHomeByte a x s).old = s.old := by unfold setHomeByte; split_ifs <;> rfl
@[simp] theorem setHomeByte_stores (a : Nat) (x : Byte) (s : State) : (setHomeByte a x s).stores = s.stores := by unfold setHomeByte; split_ifs <;> rfl
@[simp] theorem setHomeByte_caches (a : Nat) (x : Byte) (s : State) : (setHomeByte a x s).caches = s.caches := by unfold setHomeByte; split_ifs <;> rfl
@[simp] theorem setHomeByte_leases (a : Nat) (x : Byte) (s : State) : (setHomeByte a x s).leases = s.leases := by unfold setHomeByte; split_ifs <;> rfl
@[simp] theorem setHomeByte_tlb (a : Nat) (x : Byte) (s : State) : (setHomeByte a x s).tlb = s.tlb := by unfold setHomeByte; split_ifs <;> rfl
@[simp] theorem setHomeByte_misses (a : Nat) (x : Byte) (s : State) : (setHomeByte a x s).misses = s.misses := by unfold setHomeByte; split_ifs <;> rfl
@[simp] theorem setHomeByte_agentWalks (a : Nat) (x : Byte) (s : State) : (setHomeByte a x s).agentWalks = s.agentWalks := by unfold setHomeByte; split_ifs <;> rfl
@[simp] theorem setHomeByte_traps (a : Nat) (x : Byte) (s : State) : (setHomeByte a x s).traps = s.traps := by unfold setHomeByte; split_ifs <;> rfl
@[simp] theorem setHomeByte_carve (a : Nat) (x : Byte) (s : State) : (setHomeByte a x s).carve = s.carve := by unfold setHomeByte; split_ifs <;> rfl
@[simp] theorem setHomeByte_pattern (a : Nat) (x : Byte) (s : State) : (setHomeByte a x s).pattern = s.pattern := by unfold setHomeByte; split_ifs <;> rfl
@[simp] theorem setHomeByte_queues (a : Nat) (x : Byte) (s : State) : (setHomeByte a x s).queues = s.queues := by unfold setHomeByte; split_ifs <;> rfl
@[simp] theorem setHomeByte_tasks (a : Nat) (x : Byte) (s : State) : (setHomeByte a x s).tasks = s.tasks := by unfold setHomeByte; split_ifs <;> rfl
@[simp] theorem setHomeByte_fits (a : Nat) (x : Byte) (s : State) : (setHomeByte a x s).fits = s.fits := by unfold setHomeByte; split_ifs <;> rfl
@[simp] theorem setHomeByte_mbox (a : Nat) (x : Byte) (s : State) : (setHomeByte a x s).mbox = s.mbox := by unfold setHomeByte; split_ifs <;> rfl
@[simp] theorem setHomeByte_msi (a : Nat) (x : Byte) (s : State) : (setHomeByte a x s).msi = s.msi := by unfold setHomeByte; split_ifs <;> rfl
@[simp] theorem setHomeByte_ring (a : Nat) (x : Byte) (s : State) : (setHomeByte a x s).ring = s.ring := by unfold setHomeByte; split_ifs <;> rfl
@[simp] theorem setHomeByte_reports (a : Nat) (x : Byte) (s : State) : (setHomeByte a x s).reports = s.reports := by unfold setHomeByte; split_ifs <;> rfl
@[simp] theorem setHomeByte_pockets (a : Nat) (x : Byte) (s : State) : (setHomeByte a x s).pockets = s.pockets := by unfold setHomeByte; split_ifs <;> rfl
@[simp] theorem setHomeByte_layout (a : Nat) (x : Byte) (s : State) : (setHomeByte a x s).layout = s.layout := by unfold setHomeByte; split_ifs <;> rfl
@[simp] theorem setHomeByte_started (a : Nat) (x : Byte) (s : State) : (setHomeByte a x s).started = s.started := by unfold setHomeByte; split_ifs <;> rfl
@[simp] theorem setHomeByte_minimal (a : Nat) (x : Byte) (s : State) : (setHomeByte a x s).minimal = s.minimal := by unfold setHomeByte; split_ifs <;> rfl
@[simp] theorem setHomeByte_failedStarts (a : Nat) (x : Byte) (s : State) : (setHomeByte a x s).failedStarts = s.failedStarts := by unfold setHomeByte; split_ifs <;> rfl
@[simp] theorem setHomeByte_out (a : Nat) (x : Byte) (s : State) : (setHomeByte a x s).out = s.out := by unfold setHomeByte; split_ifs <;> rfl
@[simp] theorem setHomeByte_unitErrors (a : Nat) (x : Byte) (s : State) : (setHomeByte a x s).unitErrors = s.unitErrors := by unfold setHomeByte; split_ifs <;> rfl
@[simp] theorem setHomeByte_corrected (a : Nat) (x : Byte) (s : State) : (setHomeByte a x s).corrected = s.corrected := by unfold setHomeByte; split_ifs <;> rfl
@[simp] theorem setHomeByte_images (a : Nat) (x : Byte) (s : State) : (setHomeByte a x s).images = s.images := by unfold setHomeByte; split_ifs <;> rfl
@[simp] theorem setHomeByte_ide (a : Nat) (x : Byte) (s : State) : (setHomeByte a x s).ide = s.ide := by unfold setHomeByte; split_ifs <;> rfl
@[simp] theorem setHomeByte_self (a : Nat) (x : Byte) (s : State) : (setHomeByte a x s).self = s.self := by unfold setHomeByte; split_ifs <;> rfl
@[simp] theorem setHomeByte_selfJoined (a : Nat) (x : Byte) (s : State) : (setHomeByte a x s).selfJoined = s.selfJoined := by unfold setHomeByte; split_ifs <;> rfl
@[simp] theorem setHomeByte_joinReady (a : Nat) (x : Byte) (s : State) : (setHomeByte a x s).joinReady = s.joinReady := by unfold setHomeByte; split_ifs <;> rfl
@[simp] theorem setHomeByte_members (a : Nat) (x : Byte) (s : State) : (setHomeByte a x s).members = s.members := by unfold setHomeByte; split_ifs <;> rfl
@[simp] theorem setHomeByte_exports (a : Nat) (x : Byte) (s : State) : (setHomeByte a x s).exports = s.exports := by unfold setHomeByte; split_ifs <;> rfl
@[simp] theorem setHomeByte_imports (a : Nat) (x : Byte) (s : State) : (setHomeByte a x s).imports = s.imports := by unfold setHomeByte; split_ifs <;> rfl
@[simp] theorem setHomeByte_lock (a : Nat) (x : Byte) (s : State) : (setHomeByte a x s).lock = s.lock := by unfold setHomeByte; split_ifs <;> rfl
@[simp] theorem setHomeByte_present (a : Nat) (x : Byte) (s : State) : (setHomeByte a x s).present = s.present := by unfold setHomeByte; split_ifs <;> rfl
@[simp] theorem setHomeByte_gridCount (a : Nat) (x : Byte) (s : State) : (setHomeByte a x s).gridCount = s.gridCount := by unfold setHomeByte; split_ifs <;> rfl
@[simp] theorem setHomeByte_bobNext (a : Nat) (x : Byte) (s : State) : (setHomeByte a x s).bobNext = s.bobNext := by unfold setHomeByte; split_ifs <;> rfl

@[simp] theorem updGroup_wgs (u : Nat) (f : Group → Group) (s : State) : (updGroup u f s).wgs = s.wgs := by unfold updGroup; split_ifs <;> rfl
@[simp] theorem updGroup_grids (u : Nat) (f : Group → Group) (s : State) : (updGroup u f s).grids = s.grids := by unfold updGroup; split_ifs <;> rfl
@[simp] theorem updGroup_ctxs (u : Nat) (f : Group → Group) (s : State) : (updGroup u f s).ctxs = s.ctxs := by unfold updGroup; split_ifs <;> rfl
@[simp] theorem updGroup_tape (u : Nat) (f : Group → Group) (s : State) : (updGroup u f s).tape = s.tape := by unfold updGroup; split_ifs <;> rfl
@[simp] theorem updGroup_free (u : Nat) (f : Group → Group) (s : State) : (updGroup u f s).free = s.free := by unfold updGroup; split_ifs <;> rfl
@[simp] theorem updGroup_nextId (u : Nat) (f : Group → Group) (s : State) : (updGroup u f s).nextId = s.nextId := by unfold updGroup; split_ifs <;> rfl
@[simp] theorem updGroup_time (u : Nat) (f : Group → Group) (s : State) : (updGroup u f s).time = s.time := by unfold updGroup; split_ifs <;> rfl
@[simp] theorem updGroup_clockMhz (u : Nat) (f : Group → Group) (s : State) : (updGroup u f s).clockMhz = s.clockMhz := by unfold updGroup; split_ifs <;> rfl
@[simp] theorem updGroup_hbm (u : Nat) (f : Group → Group) (s : State) : (updGroup u f s).hbm = s.hbm := by unfold updGroup; split_ifs <;> rfl
@[simp] theorem updGroup_host (u : Nat) (f : Group → Group) (s : State) : (updGroup u f s).host = s.host := by unfold updGroup; split_ifs <;> rfl
@[simp] theorem updGroup_peer (u : Nat) (f : Group → Group) (s : State) : (updGroup u f s).peer = s.peer := by unfold updGroup; split_ifs <;> rfl
@[simp] theorem updGroup_hostRanges (u : Nat) (f : Group → Group) (s : State) : (updGroup u f s).hostRanges = s.hostRanges := by unfold updGroup; split_ifs <;> rfl
@[simp] theorem updGroup_old (u : Nat) (f : Group → Group) (s : State) : (updGroup u f s).old = s.old := by unfold updGroup; split_ifs <;> rfl
@[simp] theorem updGroup_stores (u : Nat) (f : Group → Group) (s : State) : (updGroup u f s).stores = s.stores := by unfold updGroup; split_ifs <;> rfl
@[simp] theorem updGroup_caches (u : Nat) (f : Group → Group) (s : State) : (updGroup u f s).caches = s.caches := by unfold updGroup; split_ifs <;> rfl
@[simp] theorem updGroup_leases (u : Nat) (f : Group → Group) (s : State) : (updGroup u f s).leases = s.leases := by unfold updGroup; split_ifs <;> rfl
@[simp] theorem updGroup_tlb (u : Nat) (f : Group → Group) (s : State) : (updGroup u f s).tlb = s.tlb := by unfold updGroup; split_ifs <;> rfl
@[simp] theorem updGroup_misses (u : Nat) (f : Group → Group) (s : State) : (updGroup u f s).misses = s.misses := by unfold updGroup; split_ifs <;> rfl
@[simp] theorem updGroup_agentWalks (u : Nat) (f : Group → Group) (s : State) : (updGroup u f s).agentWalks = s.agentWalks := by unfold updGroup; split_ifs <;> rfl
@[simp] theorem updGroup_traps (u : Nat) (f : Group → Group) (s : State) : (updGroup u f s).traps = s.traps := by unfold updGroup; split_ifs <;> rfl
@[simp] theorem updGroup_carve (u : Nat) (f : Group → Group) (s : State) : (updGroup u f s).carve = s.carve := by unfold updGroup; split_ifs <;> rfl
@[simp] theorem updGroup_pattern (u : Nat) (f : Group → Group) (s : State) : (updGroup u f s).pattern = s.pattern := by unfold updGroup; split_ifs <;> rfl
@[simp] theorem updGroup_queues (u : Nat) (f : Group → Group) (s : State) : (updGroup u f s).queues = s.queues := by unfold updGroup; split_ifs <;> rfl
@[simp] theorem updGroup_tasks (u : Nat) (f : Group → Group) (s : State) : (updGroup u f s).tasks = s.tasks := by unfold updGroup; split_ifs <;> rfl
@[simp] theorem updGroup_fits (u : Nat) (f : Group → Group) (s : State) : (updGroup u f s).fits = s.fits := by unfold updGroup; split_ifs <;> rfl
@[simp] theorem updGroup_mbox (u : Nat) (f : Group → Group) (s : State) : (updGroup u f s).mbox = s.mbox := by unfold updGroup; split_ifs <;> rfl
@[simp] theorem updGroup_msi (u : Nat) (f : Group → Group) (s : State) : (updGroup u f s).msi = s.msi := by unfold updGroup; split_ifs <;> rfl
@[simp] theorem updGroup_ring (u : Nat) (f : Group → Group) (s : State) : (updGroup u f s).ring = s.ring := by unfold updGroup; split_ifs <;> rfl
@[simp] theorem updGroup_reports (u : Nat) (f : Group → Group) (s : State) : (updGroup u f s).reports = s.reports := by unfold updGroup; split_ifs <;> rfl
@[simp] theorem updGroup_pockets (u : Nat) (f : Group → Group) (s : State) : (updGroup u f s).pockets = s.pockets := by unfold updGroup; split_ifs <;> rfl
@[simp] theorem updGroup_layout (u : Nat) (f : Group → Group) (s : State) : (updGroup u f s).layout = s.layout := by unfold updGroup; split_ifs <;> rfl
@[simp] theorem updGroup_started (u : Nat) (f : Group → Group) (s : State) : (updGroup u f s).started = s.started := by unfold updGroup; split_ifs <;> rfl
@[simp] theorem updGroup_minimal (u : Nat) (f : Group → Group) (s : State) : (updGroup u f s).minimal = s.minimal := by unfold updGroup; split_ifs <;> rfl
@[simp] theorem updGroup_failedStarts (u : Nat) (f : Group → Group) (s : State) : (updGroup u f s).failedStarts = s.failedStarts := by unfold updGroup; split_ifs <;> rfl
@[simp] theorem updGroup_out (u : Nat) (f : Group → Group) (s : State) : (updGroup u f s).out = s.out := by unfold updGroup; split_ifs <;> rfl
@[simp] theorem updGroup_unitErrors (u : Nat) (f : Group → Group) (s : State) : (updGroup u f s).unitErrors = s.unitErrors := by unfold updGroup; split_ifs <;> rfl
@[simp] theorem updGroup_corrected (u : Nat) (f : Group → Group) (s : State) : (updGroup u f s).corrected = s.corrected := by unfold updGroup; split_ifs <;> rfl
@[simp] theorem updGroup_images (u : Nat) (f : Group → Group) (s : State) : (updGroup u f s).images = s.images := by unfold updGroup; split_ifs <;> rfl
@[simp] theorem updGroup_ide (u : Nat) (f : Group → Group) (s : State) : (updGroup u f s).ide = s.ide := by unfold updGroup; split_ifs <;> rfl
@[simp] theorem updGroup_self (u : Nat) (f : Group → Group) (s : State) : (updGroup u f s).self = s.self := by unfold updGroup; split_ifs <;> rfl
@[simp] theorem updGroup_selfJoined (u : Nat) (f : Group → Group) (s : State) : (updGroup u f s).selfJoined = s.selfJoined := by unfold updGroup; split_ifs <;> rfl
@[simp] theorem updGroup_joinReady (u : Nat) (f : Group → Group) (s : State) : (updGroup u f s).joinReady = s.joinReady := by unfold updGroup; split_ifs <;> rfl
@[simp] theorem updGroup_members (u : Nat) (f : Group → Group) (s : State) : (updGroup u f s).members = s.members := by unfold updGroup; split_ifs <;> rfl
@[simp] theorem updGroup_exports (u : Nat) (f : Group → Group) (s : State) : (updGroup u f s).exports = s.exports := by unfold updGroup; split_ifs <;> rfl
@[simp] theorem updGroup_imports (u : Nat) (f : Group → Group) (s : State) : (updGroup u f s).imports = s.imports := by unfold updGroup; split_ifs <;> rfl
@[simp] theorem updGroup_lock (u : Nat) (f : Group → Group) (s : State) : (updGroup u f s).lock = s.lock := by unfold updGroup; split_ifs <;> rfl
@[simp] theorem updGroup_present (u : Nat) (f : Group → Group) (s : State) : (updGroup u f s).present = s.present := by unfold updGroup; split_ifs <;> rfl
@[simp] theorem updGroup_gridCount (u : Nat) (f : Group → Group) (s : State) : (updGroup u f s).gridCount = s.gridCount := by unfold updGroup; split_ifs <;> rfl
@[simp] theorem updGroup_bobNext (u : Nat) (f : Group → Group) (s : State) : (updGroup u f s).bobNext = s.bobNext := by unfold updGroup; split_ifs <;> rfl

/-! ### Updates of an issuer -/

@[simp] theorem setV_uid (g : Group) (r l : Nat) (x : Word) : (setV r l x g).uid = g.uid := rfl
@[simp] theorem setV_kind (g : Group) (r l : Nat) (x : Word) : (setV r l x g).kind = g.kind := rfl
@[simp] theorem setV_ctx (g : Group) (r l : Nat) (x : Word) : (setV r l x g).ctx = g.ctx := rfl
@[simp] theorem setV_wg (g : Group) (r l : Nat) (x : Word) : (setV r l x g).wg = g.wg := rfl
@[simp] theorem setV_gidx (g : Group) (r l : Nat) (x : Word) : (setV r l x g).gidx = g.gidx := rfl
@[simp] theorem setV_width (g : Group) (r l : Nat) (x : Word) : (setV r l x g).width = g.width := rfl
@[simp] theorem setV_exist (g : Group) (r l : Nat) (x : Word) : (setV r l x g).exist = g.exist := rfl
@[simp] theorem setV_live (g : Group) (r l : Nat) (x : Word) : (setV r l x g).live = g.live := rfl
@[simp] theorem setV_core (g : Group) (r l : Nat) (x : Word) : (setV r l x g).core = g.core := rfl
@[simp] theorem setV_slot (g : Group) (r l : Nat) (x : Word) : (setV r l x g).slot = g.slot := rfl
@[simp] theorem setV_prio (g : Group) (r l : Nat) (x : Word) : (setV r l x g).prio = g.prio := rfl
@[simp] theorem setV_placed (g : Group) (r l : Nat) (x : Word) : (setV r l x g).placed = g.placed := rfl
@[simp] theorem setV_ready (g : Group) (r l : Nat) (x : Word) : (setV r l x g).ready = g.ready := rfl
@[simp] theorem setV_joined (g : Group) (r l : Nat) (x : Word) : (setV r l x g).joined = g.joined := rfl
@[simp] theorem setV_k (g : Group) (r l : Nat) (x : Word) : (setV r l x g).k = g.k := rfl
@[simp] theorem setV_s (g : Group) (r l : Nat) (x : Word) : (setV r l x g).s = g.s := rfl
@[simp] theorem setV_m (g : Group) (r l : Nat) (x : Word) : (setV r l x g).m = g.m := rfl
@[simp] theorem setV_j (g : Group) (r l : Nat) (x : Word) : (setV r l x g).j = g.j := rfl
@[simp] theorem setV_b (g : Group) (r l : Nat) (x : Word) : (setV r l x g).b = g.b := rfl
@[simp] theorem setV_f (g : Group) (r l : Nat) (x : Word) : (setV r l x g).f = g.f := rfl
@[simp] theorem setV_marks (g : Group) (r l : Nat) (x : Word) : (setV r l x g).marks = g.marks := rfl
@[simp] theorem setV_act (g : Group) (r l : Nat) (x : Word) : (setV r l x g).act = g.act := rfl
@[simp] theorem setV_frontier (g : Group) (r l : Nat) (x : Word) : (setV r l x g).frontier = g.frontier := rfl
@[simp] theorem setV_hem (g : Group) (r l : Nat) (x : Word) : (setV r l x g).hem = g.hem := rfl
@[simp] theorem setV_regions (g : Group) (r l : Nat) (x : Word) : (setV r l x g).regions = g.regions := rfl
@[simp] theorem setV_timeh (g : Group) (r l : Nat) (x : Word) : (setV r l x g).timeh = g.timeh := rfl
@[simp] theorem setV_ops (g : Group) (r l : Nat) (x : Word) : (setV r l x g).ops = g.ops := rfl
@[simp] theorem setV_tokens (g : Group) (r l : Nat) (x : Word) : (setV r l x g).tokens = g.tokens := rfl
@[simp] theorem setV_sealed (g : Group) (r l : Nat) (x : Word) : (setV r l x g).sealed = g.sealed := rfl
@[simp] theorem setV_copies (g : Group) (r l : Nat) (x : Word) : (setV r l x g).copies = g.copies := rfl
@[simp] theorem setV_resv (g : Group) (r l : Nat) (x : Word) : (setV r l x g).resv = g.resv := rfl
@[simp] theorem setV_arming (g : Group) (r l : Nat) (x : Word) : (setV r l x g).arming = g.arming := rfl
@[simp] theorem setV_gwct (g : Group) (r l : Nat) (x : Word) : (setV r l x g).gwct = g.gwct := rfl
@[simp] theorem setV_clos (g : Group) (r l : Nat) (x : Word) : (setV r l x g).clos = g.clos := rfl
@[simp] theorem setV_win (g : Group) (r l : Nat) (x : Word) : (setV r l x g).win = g.win := rfl
@[simp] theorem setV_stop (g : Group) (r l : Nat) (x : Word) : (setV r l x g).stop = g.stop := rfl
@[simp] theorem setV_trap (g : Group) (r l : Nat) (x : Word) : (setV r l x g).trap = g.trap := rfl
@[simp] theorem setV_stall (g : Group) (r l : Nat) (x : Word) : (setV r l x g).stall = g.stall := rfl
@[simp] theorem setV_walks (g : Group) (r l : Nat) (x : Word) : (setV r l x g).walks = g.walks := rfl
@[simp] theorem setV_code (g : Group) (r l : Nat) (x : Word) : (setV r l x g).code = g.code := rfl
@[simp] theorem setV_argRec (g : Group) (r l : Nat) (x : Word) : (setV r l x g).argRec = g.argRec := rfl
@[simp] theorem setV_hstep (g : Group) (r l : Nat) (x : Word) : (setV r l x g).hstep = g.hstep := rfl
@[simp] theorem setV_haltReq (g : Group) (r l : Nat) (x : Word) : (setV r l x g).haltReq = g.haltReq := rfl
@[simp] theorem setV_dbgSteps (g : Group) (r l : Nat) (x : Word) : (setV r l x g).dbgSteps = g.dbgSteps := rfl
@[simp] theorem setV_noWatch (g : Group) (r l : Nat) (x : Word) : (setV r l x g).noWatch = g.noWatch := rfl
@[simp] theorem setV_noBreak (g : Group) (r l : Nat) (x : Word) : (setV r l x g).noBreak = g.noBreak := rfl
@[simp] theorem setV_pushed (g : Group) (r l : Nat) (x : Word) : (setV r l x g).pushed = g.pushed := rfl
@[simp] theorem setV_count (g : Group) (r l : Nat) (x : Word) : (setV r l x g).count = g.count := rfl
@[simp] theorem setV_mark (g : Group) (r l : Nat) (x : Word) : (setV r l x g).mark = g.mark := rfl
@[simp] theorem setV_doneAbove (g : Group) (r l : Nat) (x : Word) : (setV r l x g).doneAbove = g.doneAbove := rfl
@[simp] theorem setV_pairs (g : Group) (r l : Nat) (x : Word) : (setV r l x g).pairs = g.pairs := rfl
@[simp] theorem setV_rendezvous (g : Group) (r l : Nat) (x : Word) : (setV r l x g).rendezvous = g.rendezvous := rfl
@[simp] theorem setV_serves (g : Group) (r l : Nat) (x : Word) : (setV r l x g).serves = g.serves := rfl
@[simp] theorem setV_missVa (g : Group) (r l : Nat) (x : Word) : (setV r l x g).missVa = g.missVa := rfl
@[simp] theorem setV_missKind (g : Group) (r l : Nat) (x : Word) : (setV r l x g).missKind = g.missKind := rfl
@[simp] theorem setV_hlane (g : Group) (r l : Nat) (x : Word) : (setV r l x g).hlane = g.hlane := rfl
@[simp] theorem setV_hvsel (g : Group) (r l : Nat) (x : Word) : (setV r l x g).hvsel = g.hvsel := rfl
@[simp] theorem setV_hbsel (g : Group) (r l : Nat) (x : Word) : (setV r l x g).hbsel = g.hbsel := rfl
@[simp] theorem setV_edits (g : Group) (r l : Nat) (x : Word) : (setV r l x g).edits = g.edits := rfl
@[simp] theorem setV_hexit (g : Group) (r l : Nat) (x : Word) : (setV r l x g).hexit = g.hexit := rfl
@[simp] theorem setV_chain (g : Group) (r l : Nat) (x : Word) : (setV r l x g).chain = g.chain := rfl
@[simp] theorem setV_spawn (g : Group) (r l : Nat) (x : Word) : (setV r l x g).spawn = g.spawn := rfl
@[simp] theorem setV_held (g : Group) (r l : Nat) (x : Word) : (setV r l x g).held = g.held := rfl

@[simp] theorem setK_uid (g : Group) (r l : Nat) (x : Word) : (setK r l x g).uid = g.uid := rfl
@[simp] theorem setK_kind (g : Group) (r l : Nat) (x : Word) : (setK r l x g).kind = g.kind := rfl
@[simp] theorem setK_ctx (g : Group) (r l : Nat) (x : Word) : (setK r l x g).ctx = g.ctx := rfl
@[simp] theorem setK_wg (g : Group) (r l : Nat) (x : Word) : (setK r l x g).wg = g.wg := rfl
@[simp] theorem setK_gidx (g : Group) (r l : Nat) (x : Word) : (setK r l x g).gidx = g.gidx := rfl
@[simp] theorem setK_width (g : Group) (r l : Nat) (x : Word) : (setK r l x g).width = g.width := rfl
@[simp] theorem setK_exist (g : Group) (r l : Nat) (x : Word) : (setK r l x g).exist = g.exist := rfl
@[simp] theorem setK_live (g : Group) (r l : Nat) (x : Word) : (setK r l x g).live = g.live := rfl
@[simp] theorem setK_core (g : Group) (r l : Nat) (x : Word) : (setK r l x g).core = g.core := rfl
@[simp] theorem setK_slot (g : Group) (r l : Nat) (x : Word) : (setK r l x g).slot = g.slot := rfl
@[simp] theorem setK_prio (g : Group) (r l : Nat) (x : Word) : (setK r l x g).prio = g.prio := rfl
@[simp] theorem setK_placed (g : Group) (r l : Nat) (x : Word) : (setK r l x g).placed = g.placed := rfl
@[simp] theorem setK_ready (g : Group) (r l : Nat) (x : Word) : (setK r l x g).ready = g.ready := rfl
@[simp] theorem setK_joined (g : Group) (r l : Nat) (x : Word) : (setK r l x g).joined = g.joined := rfl
@[simp] theorem setK_v (g : Group) (r l : Nat) (x : Word) : (setK r l x g).v = g.v := rfl
@[simp] theorem setK_s (g : Group) (r l : Nat) (x : Word) : (setK r l x g).s = g.s := rfl
@[simp] theorem setK_m (g : Group) (r l : Nat) (x : Word) : (setK r l x g).m = g.m := rfl
@[simp] theorem setK_j (g : Group) (r l : Nat) (x : Word) : (setK r l x g).j = g.j := rfl
@[simp] theorem setK_b (g : Group) (r l : Nat) (x : Word) : (setK r l x g).b = g.b := rfl
@[simp] theorem setK_f (g : Group) (r l : Nat) (x : Word) : (setK r l x g).f = g.f := rfl
@[simp] theorem setK_marks (g : Group) (r l : Nat) (x : Word) : (setK r l x g).marks = g.marks := rfl
@[simp] theorem setK_act (g : Group) (r l : Nat) (x : Word) : (setK r l x g).act = g.act := rfl
@[simp] theorem setK_frontier (g : Group) (r l : Nat) (x : Word) : (setK r l x g).frontier = g.frontier := rfl
@[simp] theorem setK_hem (g : Group) (r l : Nat) (x : Word) : (setK r l x g).hem = g.hem := rfl
@[simp] theorem setK_regions (g : Group) (r l : Nat) (x : Word) : (setK r l x g).regions = g.regions := rfl
@[simp] theorem setK_timeh (g : Group) (r l : Nat) (x : Word) : (setK r l x g).timeh = g.timeh := rfl
@[simp] theorem setK_ops (g : Group) (r l : Nat) (x : Word) : (setK r l x g).ops = g.ops := rfl
@[simp] theorem setK_tokens (g : Group) (r l : Nat) (x : Word) : (setK r l x g).tokens = g.tokens := rfl
@[simp] theorem setK_sealed (g : Group) (r l : Nat) (x : Word) : (setK r l x g).sealed = g.sealed := rfl
@[simp] theorem setK_copies (g : Group) (r l : Nat) (x : Word) : (setK r l x g).copies = g.copies := rfl
@[simp] theorem setK_resv (g : Group) (r l : Nat) (x : Word) : (setK r l x g).resv = g.resv := rfl
@[simp] theorem setK_arming (g : Group) (r l : Nat) (x : Word) : (setK r l x g).arming = g.arming := rfl
@[simp] theorem setK_gwct (g : Group) (r l : Nat) (x : Word) : (setK r l x g).gwct = g.gwct := rfl
@[simp] theorem setK_clos (g : Group) (r l : Nat) (x : Word) : (setK r l x g).clos = g.clos := rfl
@[simp] theorem setK_win (g : Group) (r l : Nat) (x : Word) : (setK r l x g).win = g.win := rfl
@[simp] theorem setK_stop (g : Group) (r l : Nat) (x : Word) : (setK r l x g).stop = g.stop := rfl
@[simp] theorem setK_trap (g : Group) (r l : Nat) (x : Word) : (setK r l x g).trap = g.trap := rfl
@[simp] theorem setK_stall (g : Group) (r l : Nat) (x : Word) : (setK r l x g).stall = g.stall := rfl
@[simp] theorem setK_walks (g : Group) (r l : Nat) (x : Word) : (setK r l x g).walks = g.walks := rfl
@[simp] theorem setK_code (g : Group) (r l : Nat) (x : Word) : (setK r l x g).code = g.code := rfl
@[simp] theorem setK_argRec (g : Group) (r l : Nat) (x : Word) : (setK r l x g).argRec = g.argRec := rfl
@[simp] theorem setK_hstep (g : Group) (r l : Nat) (x : Word) : (setK r l x g).hstep = g.hstep := rfl
@[simp] theorem setK_haltReq (g : Group) (r l : Nat) (x : Word) : (setK r l x g).haltReq = g.haltReq := rfl
@[simp] theorem setK_dbgSteps (g : Group) (r l : Nat) (x : Word) : (setK r l x g).dbgSteps = g.dbgSteps := rfl
@[simp] theorem setK_noWatch (g : Group) (r l : Nat) (x : Word) : (setK r l x g).noWatch = g.noWatch := rfl
@[simp] theorem setK_noBreak (g : Group) (r l : Nat) (x : Word) : (setK r l x g).noBreak = g.noBreak := rfl
@[simp] theorem setK_pushed (g : Group) (r l : Nat) (x : Word) : (setK r l x g).pushed = g.pushed := rfl
@[simp] theorem setK_count (g : Group) (r l : Nat) (x : Word) : (setK r l x g).count = g.count := rfl
@[simp] theorem setK_mark (g : Group) (r l : Nat) (x : Word) : (setK r l x g).mark = g.mark := rfl
@[simp] theorem setK_doneAbove (g : Group) (r l : Nat) (x : Word) : (setK r l x g).doneAbove = g.doneAbove := rfl
@[simp] theorem setK_pairs (g : Group) (r l : Nat) (x : Word) : (setK r l x g).pairs = g.pairs := rfl
@[simp] theorem setK_rendezvous (g : Group) (r l : Nat) (x : Word) : (setK r l x g).rendezvous = g.rendezvous := rfl
@[simp] theorem setK_serves (g : Group) (r l : Nat) (x : Word) : (setK r l x g).serves = g.serves := rfl
@[simp] theorem setK_missVa (g : Group) (r l : Nat) (x : Word) : (setK r l x g).missVa = g.missVa := rfl
@[simp] theorem setK_missKind (g : Group) (r l : Nat) (x : Word) : (setK r l x g).missKind = g.missKind := rfl
@[simp] theorem setK_hlane (g : Group) (r l : Nat) (x : Word) : (setK r l x g).hlane = g.hlane := rfl
@[simp] theorem setK_hvsel (g : Group) (r l : Nat) (x : Word) : (setK r l x g).hvsel = g.hvsel := rfl
@[simp] theorem setK_hbsel (g : Group) (r l : Nat) (x : Word) : (setK r l x g).hbsel = g.hbsel := rfl
@[simp] theorem setK_edits (g : Group) (r l : Nat) (x : Word) : (setK r l x g).edits = g.edits := rfl
@[simp] theorem setK_hexit (g : Group) (r l : Nat) (x : Word) : (setK r l x g).hexit = g.hexit := rfl
@[simp] theorem setK_chain (g : Group) (r l : Nat) (x : Word) : (setK r l x g).chain = g.chain := rfl
@[simp] theorem setK_spawn (g : Group) (r l : Nat) (x : Word) : (setK r l x g).spawn = g.spawn := rfl
@[simp] theorem setK_held (g : Group) (r l : Nat) (x : Word) : (setK r l x g).held = g.held := rfl

@[simp] theorem setS_uid (g : Group) (r : Nat) (x : Word) : (setS r x g).uid = g.uid := rfl
@[simp] theorem setS_kind (g : Group) (r : Nat) (x : Word) : (setS r x g).kind = g.kind := rfl
@[simp] theorem setS_ctx (g : Group) (r : Nat) (x : Word) : (setS r x g).ctx = g.ctx := rfl
@[simp] theorem setS_wg (g : Group) (r : Nat) (x : Word) : (setS r x g).wg = g.wg := rfl
@[simp] theorem setS_gidx (g : Group) (r : Nat) (x : Word) : (setS r x g).gidx = g.gidx := rfl
@[simp] theorem setS_width (g : Group) (r : Nat) (x : Word) : (setS r x g).width = g.width := rfl
@[simp] theorem setS_exist (g : Group) (r : Nat) (x : Word) : (setS r x g).exist = g.exist := rfl
@[simp] theorem setS_live (g : Group) (r : Nat) (x : Word) : (setS r x g).live = g.live := rfl
@[simp] theorem setS_core (g : Group) (r : Nat) (x : Word) : (setS r x g).core = g.core := rfl
@[simp] theorem setS_slot (g : Group) (r : Nat) (x : Word) : (setS r x g).slot = g.slot := rfl
@[simp] theorem setS_prio (g : Group) (r : Nat) (x : Word) : (setS r x g).prio = g.prio := rfl
@[simp] theorem setS_placed (g : Group) (r : Nat) (x : Word) : (setS r x g).placed = g.placed := rfl
@[simp] theorem setS_ready (g : Group) (r : Nat) (x : Word) : (setS r x g).ready = g.ready := rfl
@[simp] theorem setS_joined (g : Group) (r : Nat) (x : Word) : (setS r x g).joined = g.joined := rfl
@[simp] theorem setS_v (g : Group) (r : Nat) (x : Word) : (setS r x g).v = g.v := rfl
@[simp] theorem setS_k (g : Group) (r : Nat) (x : Word) : (setS r x g).k = g.k := rfl
@[simp] theorem setS_m (g : Group) (r : Nat) (x : Word) : (setS r x g).m = g.m := rfl
@[simp] theorem setS_j (g : Group) (r : Nat) (x : Word) : (setS r x g).j = g.j := rfl
@[simp] theorem setS_b (g : Group) (r : Nat) (x : Word) : (setS r x g).b = g.b := rfl
@[simp] theorem setS_f (g : Group) (r : Nat) (x : Word) : (setS r x g).f = g.f := rfl
@[simp] theorem setS_marks (g : Group) (r : Nat) (x : Word) : (setS r x g).marks = g.marks := rfl
@[simp] theorem setS_act (g : Group) (r : Nat) (x : Word) : (setS r x g).act = g.act := rfl
@[simp] theorem setS_frontier (g : Group) (r : Nat) (x : Word) : (setS r x g).frontier = g.frontier := rfl
@[simp] theorem setS_hem (g : Group) (r : Nat) (x : Word) : (setS r x g).hem = g.hem := rfl
@[simp] theorem setS_regions (g : Group) (r : Nat) (x : Word) : (setS r x g).regions = g.regions := rfl
@[simp] theorem setS_timeh (g : Group) (r : Nat) (x : Word) : (setS r x g).timeh = g.timeh := rfl
@[simp] theorem setS_ops (g : Group) (r : Nat) (x : Word) : (setS r x g).ops = g.ops := rfl
@[simp] theorem setS_tokens (g : Group) (r : Nat) (x : Word) : (setS r x g).tokens = g.tokens := rfl
@[simp] theorem setS_sealed (g : Group) (r : Nat) (x : Word) : (setS r x g).sealed = g.sealed := rfl
@[simp] theorem setS_copies (g : Group) (r : Nat) (x : Word) : (setS r x g).copies = g.copies := rfl
@[simp] theorem setS_resv (g : Group) (r : Nat) (x : Word) : (setS r x g).resv = g.resv := rfl
@[simp] theorem setS_arming (g : Group) (r : Nat) (x : Word) : (setS r x g).arming = g.arming := rfl
@[simp] theorem setS_gwct (g : Group) (r : Nat) (x : Word) : (setS r x g).gwct = g.gwct := rfl
@[simp] theorem setS_clos (g : Group) (r : Nat) (x : Word) : (setS r x g).clos = g.clos := rfl
@[simp] theorem setS_win (g : Group) (r : Nat) (x : Word) : (setS r x g).win = g.win := rfl
@[simp] theorem setS_stop (g : Group) (r : Nat) (x : Word) : (setS r x g).stop = g.stop := rfl
@[simp] theorem setS_trap (g : Group) (r : Nat) (x : Word) : (setS r x g).trap = g.trap := rfl
@[simp] theorem setS_stall (g : Group) (r : Nat) (x : Word) : (setS r x g).stall = g.stall := rfl
@[simp] theorem setS_walks (g : Group) (r : Nat) (x : Word) : (setS r x g).walks = g.walks := rfl
@[simp] theorem setS_code (g : Group) (r : Nat) (x : Word) : (setS r x g).code = g.code := rfl
@[simp] theorem setS_argRec (g : Group) (r : Nat) (x : Word) : (setS r x g).argRec = g.argRec := rfl
@[simp] theorem setS_hstep (g : Group) (r : Nat) (x : Word) : (setS r x g).hstep = g.hstep := rfl
@[simp] theorem setS_haltReq (g : Group) (r : Nat) (x : Word) : (setS r x g).haltReq = g.haltReq := rfl
@[simp] theorem setS_dbgSteps (g : Group) (r : Nat) (x : Word) : (setS r x g).dbgSteps = g.dbgSteps := rfl
@[simp] theorem setS_noWatch (g : Group) (r : Nat) (x : Word) : (setS r x g).noWatch = g.noWatch := rfl
@[simp] theorem setS_noBreak (g : Group) (r : Nat) (x : Word) : (setS r x g).noBreak = g.noBreak := rfl
@[simp] theorem setS_pushed (g : Group) (r : Nat) (x : Word) : (setS r x g).pushed = g.pushed := rfl
@[simp] theorem setS_count (g : Group) (r : Nat) (x : Word) : (setS r x g).count = g.count := rfl
@[simp] theorem setS_mark (g : Group) (r : Nat) (x : Word) : (setS r x g).mark = g.mark := rfl
@[simp] theorem setS_doneAbove (g : Group) (r : Nat) (x : Word) : (setS r x g).doneAbove = g.doneAbove := rfl
@[simp] theorem setS_pairs (g : Group) (r : Nat) (x : Word) : (setS r x g).pairs = g.pairs := rfl
@[simp] theorem setS_rendezvous (g : Group) (r : Nat) (x : Word) : (setS r x g).rendezvous = g.rendezvous := rfl
@[simp] theorem setS_serves (g : Group) (r : Nat) (x : Word) : (setS r x g).serves = g.serves := rfl
@[simp] theorem setS_missVa (g : Group) (r : Nat) (x : Word) : (setS r x g).missVa = g.missVa := rfl
@[simp] theorem setS_missKind (g : Group) (r : Nat) (x : Word) : (setS r x g).missKind = g.missKind := rfl
@[simp] theorem setS_hlane (g : Group) (r : Nat) (x : Word) : (setS r x g).hlane = g.hlane := rfl
@[simp] theorem setS_hvsel (g : Group) (r : Nat) (x : Word) : (setS r x g).hvsel = g.hvsel := rfl
@[simp] theorem setS_hbsel (g : Group) (r : Nat) (x : Word) : (setS r x g).hbsel = g.hbsel := rfl
@[simp] theorem setS_edits (g : Group) (r : Nat) (x : Word) : (setS r x g).edits = g.edits := rfl
@[simp] theorem setS_hexit (g : Group) (r : Nat) (x : Word) : (setS r x g).hexit = g.hexit := rfl
@[simp] theorem setS_chain (g : Group) (r : Nat) (x : Word) : (setS r x g).chain = g.chain := rfl
@[simp] theorem setS_spawn (g : Group) (r : Nat) (x : Word) : (setS r x g).spawn = g.spawn := rfl
@[simp] theorem setS_held (g : Group) (r : Nat) (x : Word) : (setS r x g).held = g.held := rfl

@[simp] theorem setM_uid (g : Group) (r : Nat) (x : DWord) : (setM r x g).uid = g.uid := rfl
@[simp] theorem setM_kind (g : Group) (r : Nat) (x : DWord) : (setM r x g).kind = g.kind := rfl
@[simp] theorem setM_ctx (g : Group) (r : Nat) (x : DWord) : (setM r x g).ctx = g.ctx := rfl
@[simp] theorem setM_wg (g : Group) (r : Nat) (x : DWord) : (setM r x g).wg = g.wg := rfl
@[simp] theorem setM_gidx (g : Group) (r : Nat) (x : DWord) : (setM r x g).gidx = g.gidx := rfl
@[simp] theorem setM_width (g : Group) (r : Nat) (x : DWord) : (setM r x g).width = g.width := rfl
@[simp] theorem setM_exist (g : Group) (r : Nat) (x : DWord) : (setM r x g).exist = g.exist := rfl
@[simp] theorem setM_live (g : Group) (r : Nat) (x : DWord) : (setM r x g).live = g.live := rfl
@[simp] theorem setM_core (g : Group) (r : Nat) (x : DWord) : (setM r x g).core = g.core := rfl
@[simp] theorem setM_slot (g : Group) (r : Nat) (x : DWord) : (setM r x g).slot = g.slot := rfl
@[simp] theorem setM_prio (g : Group) (r : Nat) (x : DWord) : (setM r x g).prio = g.prio := rfl
@[simp] theorem setM_placed (g : Group) (r : Nat) (x : DWord) : (setM r x g).placed = g.placed := rfl
@[simp] theorem setM_ready (g : Group) (r : Nat) (x : DWord) : (setM r x g).ready = g.ready := rfl
@[simp] theorem setM_joined (g : Group) (r : Nat) (x : DWord) : (setM r x g).joined = g.joined := rfl
@[simp] theorem setM_v (g : Group) (r : Nat) (x : DWord) : (setM r x g).v = g.v := rfl
@[simp] theorem setM_k (g : Group) (r : Nat) (x : DWord) : (setM r x g).k = g.k := rfl
@[simp] theorem setM_s (g : Group) (r : Nat) (x : DWord) : (setM r x g).s = g.s := rfl
@[simp] theorem setM_j (g : Group) (r : Nat) (x : DWord) : (setM r x g).j = g.j := rfl
@[simp] theorem setM_b (g : Group) (r : Nat) (x : DWord) : (setM r x g).b = g.b := rfl
@[simp] theorem setM_f (g : Group) (r : Nat) (x : DWord) : (setM r x g).f = g.f := rfl
@[simp] theorem setM_marks (g : Group) (r : Nat) (x : DWord) : (setM r x g).marks = g.marks := rfl
@[simp] theorem setM_act (g : Group) (r : Nat) (x : DWord) : (setM r x g).act = g.act := rfl
@[simp] theorem setM_frontier (g : Group) (r : Nat) (x : DWord) : (setM r x g).frontier = g.frontier := rfl
@[simp] theorem setM_hem (g : Group) (r : Nat) (x : DWord) : (setM r x g).hem = g.hem := rfl
@[simp] theorem setM_regions (g : Group) (r : Nat) (x : DWord) : (setM r x g).regions = g.regions := rfl
@[simp] theorem setM_timeh (g : Group) (r : Nat) (x : DWord) : (setM r x g).timeh = g.timeh := rfl
@[simp] theorem setM_ops (g : Group) (r : Nat) (x : DWord) : (setM r x g).ops = g.ops := rfl
@[simp] theorem setM_tokens (g : Group) (r : Nat) (x : DWord) : (setM r x g).tokens = g.tokens := rfl
@[simp] theorem setM_sealed (g : Group) (r : Nat) (x : DWord) : (setM r x g).sealed = g.sealed := rfl
@[simp] theorem setM_copies (g : Group) (r : Nat) (x : DWord) : (setM r x g).copies = g.copies := rfl
@[simp] theorem setM_resv (g : Group) (r : Nat) (x : DWord) : (setM r x g).resv = g.resv := rfl
@[simp] theorem setM_arming (g : Group) (r : Nat) (x : DWord) : (setM r x g).arming = g.arming := rfl
@[simp] theorem setM_gwct (g : Group) (r : Nat) (x : DWord) : (setM r x g).gwct = g.gwct := rfl
@[simp] theorem setM_clos (g : Group) (r : Nat) (x : DWord) : (setM r x g).clos = g.clos := rfl
@[simp] theorem setM_win (g : Group) (r : Nat) (x : DWord) : (setM r x g).win = g.win := rfl
@[simp] theorem setM_stop (g : Group) (r : Nat) (x : DWord) : (setM r x g).stop = g.stop := rfl
@[simp] theorem setM_trap (g : Group) (r : Nat) (x : DWord) : (setM r x g).trap = g.trap := rfl
@[simp] theorem setM_stall (g : Group) (r : Nat) (x : DWord) : (setM r x g).stall = g.stall := rfl
@[simp] theorem setM_walks (g : Group) (r : Nat) (x : DWord) : (setM r x g).walks = g.walks := rfl
@[simp] theorem setM_code (g : Group) (r : Nat) (x : DWord) : (setM r x g).code = g.code := rfl
@[simp] theorem setM_argRec (g : Group) (r : Nat) (x : DWord) : (setM r x g).argRec = g.argRec := rfl
@[simp] theorem setM_hstep (g : Group) (r : Nat) (x : DWord) : (setM r x g).hstep = g.hstep := rfl
@[simp] theorem setM_haltReq (g : Group) (r : Nat) (x : DWord) : (setM r x g).haltReq = g.haltReq := rfl
@[simp] theorem setM_dbgSteps (g : Group) (r : Nat) (x : DWord) : (setM r x g).dbgSteps = g.dbgSteps := rfl
@[simp] theorem setM_noWatch (g : Group) (r : Nat) (x : DWord) : (setM r x g).noWatch = g.noWatch := rfl
@[simp] theorem setM_noBreak (g : Group) (r : Nat) (x : DWord) : (setM r x g).noBreak = g.noBreak := rfl
@[simp] theorem setM_pushed (g : Group) (r : Nat) (x : DWord) : (setM r x g).pushed = g.pushed := rfl
@[simp] theorem setM_count (g : Group) (r : Nat) (x : DWord) : (setM r x g).count = g.count := rfl
@[simp] theorem setM_mark (g : Group) (r : Nat) (x : DWord) : (setM r x g).mark = g.mark := rfl
@[simp] theorem setM_doneAbove (g : Group) (r : Nat) (x : DWord) : (setM r x g).doneAbove = g.doneAbove := rfl
@[simp] theorem setM_pairs (g : Group) (r : Nat) (x : DWord) : (setM r x g).pairs = g.pairs := rfl
@[simp] theorem setM_rendezvous (g : Group) (r : Nat) (x : DWord) : (setM r x g).rendezvous = g.rendezvous := rfl
@[simp] theorem setM_serves (g : Group) (r : Nat) (x : DWord) : (setM r x g).serves = g.serves := rfl
@[simp] theorem setM_missVa (g : Group) (r : Nat) (x : DWord) : (setM r x g).missVa = g.missVa := rfl
@[simp] theorem setM_missKind (g : Group) (r : Nat) (x : DWord) : (setM r x g).missKind = g.missKind := rfl
@[simp] theorem setM_hlane (g : Group) (r : Nat) (x : DWord) : (setM r x g).hlane = g.hlane := rfl
@[simp] theorem setM_hvsel (g : Group) (r : Nat) (x : DWord) : (setM r x g).hvsel = g.hvsel := rfl
@[simp] theorem setM_hbsel (g : Group) (r : Nat) (x : DWord) : (setM r x g).hbsel = g.hbsel := rfl
@[simp] theorem setM_edits (g : Group) (r : Nat) (x : DWord) : (setM r x g).edits = g.edits := rfl
@[simp] theorem setM_hexit (g : Group) (r : Nat) (x : DWord) : (setM r x g).hexit = g.hexit := rfl
@[simp] theorem setM_chain (g : Group) (r : Nat) (x : DWord) : (setM r x g).chain = g.chain := rfl
@[simp] theorem setM_spawn (g : Group) (r : Nat) (x : DWord) : (setM r x g).spawn = g.spawn := rfl
@[simp] theorem setM_held (g : Group) (r : Nat) (x : DWord) : (setM r x g).held = g.held := rfl

@[simp] theorem setJ_uid (g : Group) (r : Nat) (x : JReg) : (setJ r x g).uid = g.uid := rfl
@[simp] theorem setJ_kind (g : Group) (r : Nat) (x : JReg) : (setJ r x g).kind = g.kind := rfl
@[simp] theorem setJ_ctx (g : Group) (r : Nat) (x : JReg) : (setJ r x g).ctx = g.ctx := rfl
@[simp] theorem setJ_wg (g : Group) (r : Nat) (x : JReg) : (setJ r x g).wg = g.wg := rfl
@[simp] theorem setJ_gidx (g : Group) (r : Nat) (x : JReg) : (setJ r x g).gidx = g.gidx := rfl
@[simp] theorem setJ_width (g : Group) (r : Nat) (x : JReg) : (setJ r x g).width = g.width := rfl
@[simp] theorem setJ_exist (g : Group) (r : Nat) (x : JReg) : (setJ r x g).exist = g.exist := rfl
@[simp] theorem setJ_live (g : Group) (r : Nat) (x : JReg) : (setJ r x g).live = g.live := rfl
@[simp] theorem setJ_core (g : Group) (r : Nat) (x : JReg) : (setJ r x g).core = g.core := rfl
@[simp] theorem setJ_slot (g : Group) (r : Nat) (x : JReg) : (setJ r x g).slot = g.slot := rfl
@[simp] theorem setJ_prio (g : Group) (r : Nat) (x : JReg) : (setJ r x g).prio = g.prio := rfl
@[simp] theorem setJ_placed (g : Group) (r : Nat) (x : JReg) : (setJ r x g).placed = g.placed := rfl
@[simp] theorem setJ_ready (g : Group) (r : Nat) (x : JReg) : (setJ r x g).ready = g.ready := rfl
@[simp] theorem setJ_joined (g : Group) (r : Nat) (x : JReg) : (setJ r x g).joined = g.joined := rfl
@[simp] theorem setJ_v (g : Group) (r : Nat) (x : JReg) : (setJ r x g).v = g.v := rfl
@[simp] theorem setJ_k (g : Group) (r : Nat) (x : JReg) : (setJ r x g).k = g.k := rfl
@[simp] theorem setJ_s (g : Group) (r : Nat) (x : JReg) : (setJ r x g).s = g.s := rfl
@[simp] theorem setJ_m (g : Group) (r : Nat) (x : JReg) : (setJ r x g).m = g.m := rfl
@[simp] theorem setJ_b (g : Group) (r : Nat) (x : JReg) : (setJ r x g).b = g.b := rfl
@[simp] theorem setJ_f (g : Group) (r : Nat) (x : JReg) : (setJ r x g).f = g.f := rfl
@[simp] theorem setJ_marks (g : Group) (r : Nat) (x : JReg) : (setJ r x g).marks = g.marks := rfl
@[simp] theorem setJ_act (g : Group) (r : Nat) (x : JReg) : (setJ r x g).act = g.act := rfl
@[simp] theorem setJ_frontier (g : Group) (r : Nat) (x : JReg) : (setJ r x g).frontier = g.frontier := rfl
@[simp] theorem setJ_hem (g : Group) (r : Nat) (x : JReg) : (setJ r x g).hem = g.hem := rfl
@[simp] theorem setJ_regions (g : Group) (r : Nat) (x : JReg) : (setJ r x g).regions = g.regions := rfl
@[simp] theorem setJ_timeh (g : Group) (r : Nat) (x : JReg) : (setJ r x g).timeh = g.timeh := rfl
@[simp] theorem setJ_ops (g : Group) (r : Nat) (x : JReg) : (setJ r x g).ops = g.ops := rfl
@[simp] theorem setJ_tokens (g : Group) (r : Nat) (x : JReg) : (setJ r x g).tokens = g.tokens := rfl
@[simp] theorem setJ_sealed (g : Group) (r : Nat) (x : JReg) : (setJ r x g).sealed = g.sealed := rfl
@[simp] theorem setJ_copies (g : Group) (r : Nat) (x : JReg) : (setJ r x g).copies = g.copies := rfl
@[simp] theorem setJ_resv (g : Group) (r : Nat) (x : JReg) : (setJ r x g).resv = g.resv := rfl
@[simp] theorem setJ_arming (g : Group) (r : Nat) (x : JReg) : (setJ r x g).arming = g.arming := rfl
@[simp] theorem setJ_gwct (g : Group) (r : Nat) (x : JReg) : (setJ r x g).gwct = g.gwct := rfl
@[simp] theorem setJ_clos (g : Group) (r : Nat) (x : JReg) : (setJ r x g).clos = g.clos := rfl
@[simp] theorem setJ_win (g : Group) (r : Nat) (x : JReg) : (setJ r x g).win = g.win := rfl
@[simp] theorem setJ_stop (g : Group) (r : Nat) (x : JReg) : (setJ r x g).stop = g.stop := rfl
@[simp] theorem setJ_trap (g : Group) (r : Nat) (x : JReg) : (setJ r x g).trap = g.trap := rfl
@[simp] theorem setJ_stall (g : Group) (r : Nat) (x : JReg) : (setJ r x g).stall = g.stall := rfl
@[simp] theorem setJ_walks (g : Group) (r : Nat) (x : JReg) : (setJ r x g).walks = g.walks := rfl
@[simp] theorem setJ_code (g : Group) (r : Nat) (x : JReg) : (setJ r x g).code = g.code := rfl
@[simp] theorem setJ_argRec (g : Group) (r : Nat) (x : JReg) : (setJ r x g).argRec = g.argRec := rfl
@[simp] theorem setJ_hstep (g : Group) (r : Nat) (x : JReg) : (setJ r x g).hstep = g.hstep := rfl
@[simp] theorem setJ_haltReq (g : Group) (r : Nat) (x : JReg) : (setJ r x g).haltReq = g.haltReq := rfl
@[simp] theorem setJ_dbgSteps (g : Group) (r : Nat) (x : JReg) : (setJ r x g).dbgSteps = g.dbgSteps := rfl
@[simp] theorem setJ_noWatch (g : Group) (r : Nat) (x : JReg) : (setJ r x g).noWatch = g.noWatch := rfl
@[simp] theorem setJ_noBreak (g : Group) (r : Nat) (x : JReg) : (setJ r x g).noBreak = g.noBreak := rfl
@[simp] theorem setJ_pushed (g : Group) (r : Nat) (x : JReg) : (setJ r x g).pushed = g.pushed := rfl
@[simp] theorem setJ_count (g : Group) (r : Nat) (x : JReg) : (setJ r x g).count = g.count := rfl
@[simp] theorem setJ_mark (g : Group) (r : Nat) (x : JReg) : (setJ r x g).mark = g.mark := rfl
@[simp] theorem setJ_doneAbove (g : Group) (r : Nat) (x : JReg) : (setJ r x g).doneAbove = g.doneAbove := rfl
@[simp] theorem setJ_pairs (g : Group) (r : Nat) (x : JReg) : (setJ r x g).pairs = g.pairs := rfl
@[simp] theorem setJ_rendezvous (g : Group) (r : Nat) (x : JReg) : (setJ r x g).rendezvous = g.rendezvous := rfl
@[simp] theorem setJ_serves (g : Group) (r : Nat) (x : JReg) : (setJ r x g).serves = g.serves := rfl
@[simp] theorem setJ_missVa (g : Group) (r : Nat) (x : JReg) : (setJ r x g).missVa = g.missVa := rfl
@[simp] theorem setJ_missKind (g : Group) (r : Nat) (x : JReg) : (setJ r x g).missKind = g.missKind := rfl
@[simp] theorem setJ_hlane (g : Group) (r : Nat) (x : JReg) : (setJ r x g).hlane = g.hlane := rfl
@[simp] theorem setJ_hvsel (g : Group) (r : Nat) (x : JReg) : (setJ r x g).hvsel = g.hvsel := rfl
@[simp] theorem setJ_hbsel (g : Group) (r : Nat) (x : JReg) : (setJ r x g).hbsel = g.hbsel := rfl
@[simp] theorem setJ_edits (g : Group) (r : Nat) (x : JReg) : (setJ r x g).edits = g.edits := rfl
@[simp] theorem setJ_hexit (g : Group) (r : Nat) (x : JReg) : (setJ r x g).hexit = g.hexit := rfl
@[simp] theorem setJ_chain (g : Group) (r : Nat) (x : JReg) : (setJ r x g).chain = g.chain := rfl
@[simp] theorem setJ_spawn (g : Group) (r : Nat) (x : JReg) : (setJ r x g).spawn = g.spawn := rfl
@[simp] theorem setJ_held (g : Group) (r : Nat) (x : JReg) : (setJ r x g).held = g.held := rfl

@[simp] theorem setB_uid (g : Group) (r : Nat) (x : BitVec 128) : (setB r x g).uid = g.uid := rfl
@[simp] theorem setB_kind (g : Group) (r : Nat) (x : BitVec 128) : (setB r x g).kind = g.kind := rfl
@[simp] theorem setB_ctx (g : Group) (r : Nat) (x : BitVec 128) : (setB r x g).ctx = g.ctx := rfl
@[simp] theorem setB_wg (g : Group) (r : Nat) (x : BitVec 128) : (setB r x g).wg = g.wg := rfl
@[simp] theorem setB_gidx (g : Group) (r : Nat) (x : BitVec 128) : (setB r x g).gidx = g.gidx := rfl
@[simp] theorem setB_width (g : Group) (r : Nat) (x : BitVec 128) : (setB r x g).width = g.width := rfl
@[simp] theorem setB_exist (g : Group) (r : Nat) (x : BitVec 128) : (setB r x g).exist = g.exist := rfl
@[simp] theorem setB_live (g : Group) (r : Nat) (x : BitVec 128) : (setB r x g).live = g.live := rfl
@[simp] theorem setB_core (g : Group) (r : Nat) (x : BitVec 128) : (setB r x g).core = g.core := rfl
@[simp] theorem setB_slot (g : Group) (r : Nat) (x : BitVec 128) : (setB r x g).slot = g.slot := rfl
@[simp] theorem setB_prio (g : Group) (r : Nat) (x : BitVec 128) : (setB r x g).prio = g.prio := rfl
@[simp] theorem setB_placed (g : Group) (r : Nat) (x : BitVec 128) : (setB r x g).placed = g.placed := rfl
@[simp] theorem setB_ready (g : Group) (r : Nat) (x : BitVec 128) : (setB r x g).ready = g.ready := rfl
@[simp] theorem setB_joined (g : Group) (r : Nat) (x : BitVec 128) : (setB r x g).joined = g.joined := rfl
@[simp] theorem setB_v (g : Group) (r : Nat) (x : BitVec 128) : (setB r x g).v = g.v := rfl
@[simp] theorem setB_k (g : Group) (r : Nat) (x : BitVec 128) : (setB r x g).k = g.k := rfl
@[simp] theorem setB_s (g : Group) (r : Nat) (x : BitVec 128) : (setB r x g).s = g.s := rfl
@[simp] theorem setB_m (g : Group) (r : Nat) (x : BitVec 128) : (setB r x g).m = g.m := rfl
@[simp] theorem setB_j (g : Group) (r : Nat) (x : BitVec 128) : (setB r x g).j = g.j := rfl
@[simp] theorem setB_f (g : Group) (r : Nat) (x : BitVec 128) : (setB r x g).f = g.f := rfl
@[simp] theorem setB_marks (g : Group) (r : Nat) (x : BitVec 128) : (setB r x g).marks = g.marks := rfl
@[simp] theorem setB_act (g : Group) (r : Nat) (x : BitVec 128) : (setB r x g).act = g.act := rfl
@[simp] theorem setB_frontier (g : Group) (r : Nat) (x : BitVec 128) : (setB r x g).frontier = g.frontier := rfl
@[simp] theorem setB_hem (g : Group) (r : Nat) (x : BitVec 128) : (setB r x g).hem = g.hem := rfl
@[simp] theorem setB_regions (g : Group) (r : Nat) (x : BitVec 128) : (setB r x g).regions = g.regions := rfl
@[simp] theorem setB_timeh (g : Group) (r : Nat) (x : BitVec 128) : (setB r x g).timeh = g.timeh := rfl
@[simp] theorem setB_ops (g : Group) (r : Nat) (x : BitVec 128) : (setB r x g).ops = g.ops := rfl
@[simp] theorem setB_tokens (g : Group) (r : Nat) (x : BitVec 128) : (setB r x g).tokens = g.tokens := rfl
@[simp] theorem setB_sealed (g : Group) (r : Nat) (x : BitVec 128) : (setB r x g).sealed = g.sealed := rfl
@[simp] theorem setB_copies (g : Group) (r : Nat) (x : BitVec 128) : (setB r x g).copies = g.copies := rfl
@[simp] theorem setB_resv (g : Group) (r : Nat) (x : BitVec 128) : (setB r x g).resv = g.resv := rfl
@[simp] theorem setB_arming (g : Group) (r : Nat) (x : BitVec 128) : (setB r x g).arming = g.arming := rfl
@[simp] theorem setB_gwct (g : Group) (r : Nat) (x : BitVec 128) : (setB r x g).gwct = g.gwct := rfl
@[simp] theorem setB_clos (g : Group) (r : Nat) (x : BitVec 128) : (setB r x g).clos = g.clos := rfl
@[simp] theorem setB_win (g : Group) (r : Nat) (x : BitVec 128) : (setB r x g).win = g.win := rfl
@[simp] theorem setB_stop (g : Group) (r : Nat) (x : BitVec 128) : (setB r x g).stop = g.stop := rfl
@[simp] theorem setB_trap (g : Group) (r : Nat) (x : BitVec 128) : (setB r x g).trap = g.trap := rfl
@[simp] theorem setB_stall (g : Group) (r : Nat) (x : BitVec 128) : (setB r x g).stall = g.stall := rfl
@[simp] theorem setB_walks (g : Group) (r : Nat) (x : BitVec 128) : (setB r x g).walks = g.walks := rfl
@[simp] theorem setB_code (g : Group) (r : Nat) (x : BitVec 128) : (setB r x g).code = g.code := rfl
@[simp] theorem setB_argRec (g : Group) (r : Nat) (x : BitVec 128) : (setB r x g).argRec = g.argRec := rfl
@[simp] theorem setB_hstep (g : Group) (r : Nat) (x : BitVec 128) : (setB r x g).hstep = g.hstep := rfl
@[simp] theorem setB_haltReq (g : Group) (r : Nat) (x : BitVec 128) : (setB r x g).haltReq = g.haltReq := rfl
@[simp] theorem setB_dbgSteps (g : Group) (r : Nat) (x : BitVec 128) : (setB r x g).dbgSteps = g.dbgSteps := rfl
@[simp] theorem setB_noWatch (g : Group) (r : Nat) (x : BitVec 128) : (setB r x g).noWatch = g.noWatch := rfl
@[simp] theorem setB_noBreak (g : Group) (r : Nat) (x : BitVec 128) : (setB r x g).noBreak = g.noBreak := rfl
@[simp] theorem setB_pushed (g : Group) (r : Nat) (x : BitVec 128) : (setB r x g).pushed = g.pushed := rfl
@[simp] theorem setB_count (g : Group) (r : Nat) (x : BitVec 128) : (setB r x g).count = g.count := rfl
@[simp] theorem setB_mark (g : Group) (r : Nat) (x : BitVec 128) : (setB r x g).mark = g.mark := rfl
@[simp] theorem setB_doneAbove (g : Group) (r : Nat) (x : BitVec 128) : (setB r x g).doneAbove = g.doneAbove := rfl
@[simp] theorem setB_pairs (g : Group) (r : Nat) (x : BitVec 128) : (setB r x g).pairs = g.pairs := rfl
@[simp] theorem setB_rendezvous (g : Group) (r : Nat) (x : BitVec 128) : (setB r x g).rendezvous = g.rendezvous := rfl
@[simp] theorem setB_serves (g : Group) (r : Nat) (x : BitVec 128) : (setB r x g).serves = g.serves := rfl
@[simp] theorem setB_missVa (g : Group) (r : Nat) (x : BitVec 128) : (setB r x g).missVa = g.missVa := rfl
@[simp] theorem setB_missKind (g : Group) (r : Nat) (x : BitVec 128) : (setB r x g).missKind = g.missKind := rfl
@[simp] theorem setB_hlane (g : Group) (r : Nat) (x : BitVec 128) : (setB r x g).hlane = g.hlane := rfl
@[simp] theorem setB_hvsel (g : Group) (r : Nat) (x : BitVec 128) : (setB r x g).hvsel = g.hvsel := rfl
@[simp] theorem setB_hbsel (g : Group) (r : Nat) (x : BitVec 128) : (setB r x g).hbsel = g.hbsel := rfl
@[simp] theorem setB_edits (g : Group) (r : Nat) (x : BitVec 128) : (setB r x g).edits = g.edits := rfl
@[simp] theorem setB_hexit (g : Group) (r : Nat) (x : BitVec 128) : (setB r x g).hexit = g.hexit := rfl
@[simp] theorem setB_chain (g : Group) (r : Nat) (x : BitVec 128) : (setB r x g).chain = g.chain := rfl
@[simp] theorem setB_spawn (g : Group) (r : Nat) (x : BitVec 128) : (setB r x g).spawn = g.spawn := rfl
@[simp] theorem setB_held (g : Group) (r : Nat) (x : BitVec 128) : (setB r x g).held = g.held := rfl

@[simp] theorem setF_uid (g : Group) (r x : Nat) : (setF r x g).uid = g.uid := rfl
@[simp] theorem setF_kind (g : Group) (r x : Nat) : (setF r x g).kind = g.kind := rfl
@[simp] theorem setF_ctx (g : Group) (r x : Nat) : (setF r x g).ctx = g.ctx := rfl
@[simp] theorem setF_wg (g : Group) (r x : Nat) : (setF r x g).wg = g.wg := rfl
@[simp] theorem setF_gidx (g : Group) (r x : Nat) : (setF r x g).gidx = g.gidx := rfl
@[simp] theorem setF_width (g : Group) (r x : Nat) : (setF r x g).width = g.width := rfl
@[simp] theorem setF_exist (g : Group) (r x : Nat) : (setF r x g).exist = g.exist := rfl
@[simp] theorem setF_live (g : Group) (r x : Nat) : (setF r x g).live = g.live := rfl
@[simp] theorem setF_core (g : Group) (r x : Nat) : (setF r x g).core = g.core := rfl
@[simp] theorem setF_slot (g : Group) (r x : Nat) : (setF r x g).slot = g.slot := rfl
@[simp] theorem setF_prio (g : Group) (r x : Nat) : (setF r x g).prio = g.prio := rfl
@[simp] theorem setF_placed (g : Group) (r x : Nat) : (setF r x g).placed = g.placed := rfl
@[simp] theorem setF_ready (g : Group) (r x : Nat) : (setF r x g).ready = g.ready := rfl
@[simp] theorem setF_joined (g : Group) (r x : Nat) : (setF r x g).joined = g.joined := rfl
@[simp] theorem setF_v (g : Group) (r x : Nat) : (setF r x g).v = g.v := rfl
@[simp] theorem setF_k (g : Group) (r x : Nat) : (setF r x g).k = g.k := rfl
@[simp] theorem setF_s (g : Group) (r x : Nat) : (setF r x g).s = g.s := rfl
@[simp] theorem setF_m (g : Group) (r x : Nat) : (setF r x g).m = g.m := rfl
@[simp] theorem setF_j (g : Group) (r x : Nat) : (setF r x g).j = g.j := rfl
@[simp] theorem setF_b (g : Group) (r x : Nat) : (setF r x g).b = g.b := rfl
@[simp] theorem setF_marks (g : Group) (r x : Nat) : (setF r x g).marks = g.marks := rfl
@[simp] theorem setF_act (g : Group) (r x : Nat) : (setF r x g).act = g.act := rfl
@[simp] theorem setF_frontier (g : Group) (r x : Nat) : (setF r x g).frontier = g.frontier := rfl
@[simp] theorem setF_hem (g : Group) (r x : Nat) : (setF r x g).hem = g.hem := rfl
@[simp] theorem setF_regions (g : Group) (r x : Nat) : (setF r x g).regions = g.regions := rfl
@[simp] theorem setF_timeh (g : Group) (r x : Nat) : (setF r x g).timeh = g.timeh := rfl
@[simp] theorem setF_ops (g : Group) (r x : Nat) : (setF r x g).ops = g.ops := rfl
@[simp] theorem setF_tokens (g : Group) (r x : Nat) : (setF r x g).tokens = g.tokens := rfl
@[simp] theorem setF_sealed (g : Group) (r x : Nat) : (setF r x g).sealed = g.sealed := rfl
@[simp] theorem setF_copies (g : Group) (r x : Nat) : (setF r x g).copies = g.copies := rfl
@[simp] theorem setF_resv (g : Group) (r x : Nat) : (setF r x g).resv = g.resv := rfl
@[simp] theorem setF_arming (g : Group) (r x : Nat) : (setF r x g).arming = g.arming := rfl
@[simp] theorem setF_gwct (g : Group) (r x : Nat) : (setF r x g).gwct = g.gwct := rfl
@[simp] theorem setF_clos (g : Group) (r x : Nat) : (setF r x g).clos = g.clos := rfl
@[simp] theorem setF_win (g : Group) (r x : Nat) : (setF r x g).win = g.win := rfl
@[simp] theorem setF_stop (g : Group) (r x : Nat) : (setF r x g).stop = g.stop := rfl
@[simp] theorem setF_trap (g : Group) (r x : Nat) : (setF r x g).trap = g.trap := rfl
@[simp] theorem setF_stall (g : Group) (r x : Nat) : (setF r x g).stall = g.stall := rfl
@[simp] theorem setF_walks (g : Group) (r x : Nat) : (setF r x g).walks = g.walks := rfl
@[simp] theorem setF_code (g : Group) (r x : Nat) : (setF r x g).code = g.code := rfl
@[simp] theorem setF_argRec (g : Group) (r x : Nat) : (setF r x g).argRec = g.argRec := rfl
@[simp] theorem setF_hstep (g : Group) (r x : Nat) : (setF r x g).hstep = g.hstep := rfl
@[simp] theorem setF_haltReq (g : Group) (r x : Nat) : (setF r x g).haltReq = g.haltReq := rfl
@[simp] theorem setF_dbgSteps (g : Group) (r x : Nat) : (setF r x g).dbgSteps = g.dbgSteps := rfl
@[simp] theorem setF_noWatch (g : Group) (r x : Nat) : (setF r x g).noWatch = g.noWatch := rfl
@[simp] theorem setF_noBreak (g : Group) (r x : Nat) : (setF r x g).noBreak = g.noBreak := rfl
@[simp] theorem setF_pushed (g : Group) (r x : Nat) : (setF r x g).pushed = g.pushed := rfl
@[simp] theorem setF_count (g : Group) (r x : Nat) : (setF r x g).count = g.count := rfl
@[simp] theorem setF_mark (g : Group) (r x : Nat) : (setF r x g).mark = g.mark := rfl
@[simp] theorem setF_doneAbove (g : Group) (r x : Nat) : (setF r x g).doneAbove = g.doneAbove := rfl
@[simp] theorem setF_pairs (g : Group) (r x : Nat) : (setF r x g).pairs = g.pairs := rfl
@[simp] theorem setF_rendezvous (g : Group) (r x : Nat) : (setF r x g).rendezvous = g.rendezvous := rfl
@[simp] theorem setF_serves (g : Group) (r x : Nat) : (setF r x g).serves = g.serves := rfl
@[simp] theorem setF_missVa (g : Group) (r x : Nat) : (setF r x g).missVa = g.missVa := rfl
@[simp] theorem setF_missKind (g : Group) (r x : Nat) : (setF r x g).missKind = g.missKind := rfl
@[simp] theorem setF_hlane (g : Group) (r x : Nat) : (setF r x g).hlane = g.hlane := rfl
@[simp] theorem setF_hvsel (g : Group) (r x : Nat) : (setF r x g).hvsel = g.hvsel := rfl
@[simp] theorem setF_hbsel (g : Group) (r x : Nat) : (setF r x g).hbsel = g.hbsel := rfl
@[simp] theorem setF_edits (g : Group) (r x : Nat) : (setF r x g).edits = g.edits := rfl
@[simp] theorem setF_hexit (g : Group) (r x : Nat) : (setF r x g).hexit = g.hexit := rfl
@[simp] theorem setF_chain (g : Group) (r x : Nat) : (setF r x g).chain = g.chain := rfl
@[simp] theorem setF_spawn (g : Group) (r x : Nat) : (setF r x g).spawn = g.spawn := rfl
@[simp] theorem setF_held (g : Group) (r x : Nat) : (setF r x g).held = g.held := rfl

@[simp] theorem setGr_uid (g : Group) (r l : Nat) (x : Closure) : (setGr r l x g).uid = g.uid := rfl
@[simp] theorem setGr_kind (g : Group) (r l : Nat) (x : Closure) : (setGr r l x g).kind = g.kind := rfl
@[simp] theorem setGr_ctx (g : Group) (r l : Nat) (x : Closure) : (setGr r l x g).ctx = g.ctx := rfl
@[simp] theorem setGr_wg (g : Group) (r l : Nat) (x : Closure) : (setGr r l x g).wg = g.wg := rfl
@[simp] theorem setGr_gidx (g : Group) (r l : Nat) (x : Closure) : (setGr r l x g).gidx = g.gidx := rfl
@[simp] theorem setGr_width (g : Group) (r l : Nat) (x : Closure) : (setGr r l x g).width = g.width := rfl
@[simp] theorem setGr_exist (g : Group) (r l : Nat) (x : Closure) : (setGr r l x g).exist = g.exist := rfl
@[simp] theorem setGr_live (g : Group) (r l : Nat) (x : Closure) : (setGr r l x g).live = g.live := rfl
@[simp] theorem setGr_core (g : Group) (r l : Nat) (x : Closure) : (setGr r l x g).core = g.core := rfl
@[simp] theorem setGr_slot (g : Group) (r l : Nat) (x : Closure) : (setGr r l x g).slot = g.slot := rfl
@[simp] theorem setGr_prio (g : Group) (r l : Nat) (x : Closure) : (setGr r l x g).prio = g.prio := rfl
@[simp] theorem setGr_placed (g : Group) (r l : Nat) (x : Closure) : (setGr r l x g).placed = g.placed := rfl
@[simp] theorem setGr_ready (g : Group) (r l : Nat) (x : Closure) : (setGr r l x g).ready = g.ready := rfl
@[simp] theorem setGr_joined (g : Group) (r l : Nat) (x : Closure) : (setGr r l x g).joined = g.joined := rfl
@[simp] theorem setGr_v (g : Group) (r l : Nat) (x : Closure) : (setGr r l x g).v = g.v := rfl
@[simp] theorem setGr_k (g : Group) (r l : Nat) (x : Closure) : (setGr r l x g).k = g.k := rfl
@[simp] theorem setGr_s (g : Group) (r l : Nat) (x : Closure) : (setGr r l x g).s = g.s := rfl
@[simp] theorem setGr_m (g : Group) (r l : Nat) (x : Closure) : (setGr r l x g).m = g.m := rfl
@[simp] theorem setGr_j (g : Group) (r l : Nat) (x : Closure) : (setGr r l x g).j = g.j := rfl
@[simp] theorem setGr_b (g : Group) (r l : Nat) (x : Closure) : (setGr r l x g).b = g.b := rfl
@[simp] theorem setGr_f (g : Group) (r l : Nat) (x : Closure) : (setGr r l x g).f = g.f := rfl
@[simp] theorem setGr_marks (g : Group) (r l : Nat) (x : Closure) : (setGr r l x g).marks = g.marks := rfl
@[simp] theorem setGr_act (g : Group) (r l : Nat) (x : Closure) : (setGr r l x g).act = g.act := rfl
@[simp] theorem setGr_frontier (g : Group) (r l : Nat) (x : Closure) : (setGr r l x g).frontier = g.frontier := rfl
@[simp] theorem setGr_hem (g : Group) (r l : Nat) (x : Closure) : (setGr r l x g).hem = g.hem := rfl
@[simp] theorem setGr_regions (g : Group) (r l : Nat) (x : Closure) : (setGr r l x g).regions = g.regions := rfl
@[simp] theorem setGr_timeh (g : Group) (r l : Nat) (x : Closure) : (setGr r l x g).timeh = g.timeh := rfl
@[simp] theorem setGr_ops (g : Group) (r l : Nat) (x : Closure) : (setGr r l x g).ops = g.ops := rfl
@[simp] theorem setGr_tokens (g : Group) (r l : Nat) (x : Closure) : (setGr r l x g).tokens = g.tokens := rfl
@[simp] theorem setGr_sealed (g : Group) (r l : Nat) (x : Closure) : (setGr r l x g).sealed = g.sealed := rfl
@[simp] theorem setGr_copies (g : Group) (r l : Nat) (x : Closure) : (setGr r l x g).copies = g.copies := rfl
@[simp] theorem setGr_resv (g : Group) (r l : Nat) (x : Closure) : (setGr r l x g).resv = g.resv := rfl
@[simp] theorem setGr_arming (g : Group) (r l : Nat) (x : Closure) : (setGr r l x g).arming = g.arming := rfl
@[simp] theorem setGr_gwct (g : Group) (r l : Nat) (x : Closure) : (setGr r l x g).gwct = g.gwct := rfl
@[simp] theorem setGr_win (g : Group) (r l : Nat) (x : Closure) : (setGr r l x g).win = g.win := rfl
@[simp] theorem setGr_stop (g : Group) (r l : Nat) (x : Closure) : (setGr r l x g).stop = g.stop := rfl
@[simp] theorem setGr_trap (g : Group) (r l : Nat) (x : Closure) : (setGr r l x g).trap = g.trap := rfl
@[simp] theorem setGr_stall (g : Group) (r l : Nat) (x : Closure) : (setGr r l x g).stall = g.stall := rfl
@[simp] theorem setGr_walks (g : Group) (r l : Nat) (x : Closure) : (setGr r l x g).walks = g.walks := rfl
@[simp] theorem setGr_code (g : Group) (r l : Nat) (x : Closure) : (setGr r l x g).code = g.code := rfl
@[simp] theorem setGr_argRec (g : Group) (r l : Nat) (x : Closure) : (setGr r l x g).argRec = g.argRec := rfl
@[simp] theorem setGr_hstep (g : Group) (r l : Nat) (x : Closure) : (setGr r l x g).hstep = g.hstep := rfl
@[simp] theorem setGr_haltReq (g : Group) (r l : Nat) (x : Closure) : (setGr r l x g).haltReq = g.haltReq := rfl
@[simp] theorem setGr_dbgSteps (g : Group) (r l : Nat) (x : Closure) : (setGr r l x g).dbgSteps = g.dbgSteps := rfl
@[simp] theorem setGr_noWatch (g : Group) (r l : Nat) (x : Closure) : (setGr r l x g).noWatch = g.noWatch := rfl
@[simp] theorem setGr_noBreak (g : Group) (r l : Nat) (x : Closure) : (setGr r l x g).noBreak = g.noBreak := rfl
@[simp] theorem setGr_pushed (g : Group) (r l : Nat) (x : Closure) : (setGr r l x g).pushed = g.pushed := rfl
@[simp] theorem setGr_count (g : Group) (r l : Nat) (x : Closure) : (setGr r l x g).count = g.count := rfl
@[simp] theorem setGr_mark (g : Group) (r l : Nat) (x : Closure) : (setGr r l x g).mark = g.mark := rfl
@[simp] theorem setGr_doneAbove (g : Group) (r l : Nat) (x : Closure) : (setGr r l x g).doneAbove = g.doneAbove := rfl
@[simp] theorem setGr_pairs (g : Group) (r l : Nat) (x : Closure) : (setGr r l x g).pairs = g.pairs := rfl
@[simp] theorem setGr_rendezvous (g : Group) (r l : Nat) (x : Closure) : (setGr r l x g).rendezvous = g.rendezvous := rfl
@[simp] theorem setGr_serves (g : Group) (r l : Nat) (x : Closure) : (setGr r l x g).serves = g.serves := rfl
@[simp] theorem setGr_missVa (g : Group) (r l : Nat) (x : Closure) : (setGr r l x g).missVa = g.missVa := rfl
@[simp] theorem setGr_missKind (g : Group) (r l : Nat) (x : Closure) : (setGr r l x g).missKind = g.missKind := rfl
@[simp] theorem setGr_hlane (g : Group) (r l : Nat) (x : Closure) : (setGr r l x g).hlane = g.hlane := rfl
@[simp] theorem setGr_hvsel (g : Group) (r l : Nat) (x : Closure) : (setGr r l x g).hvsel = g.hvsel := rfl
@[simp] theorem setGr_hbsel (g : Group) (r l : Nat) (x : Closure) : (setGr r l x g).hbsel = g.hbsel := rfl
@[simp] theorem setGr_edits (g : Group) (r l : Nat) (x : Closure) : (setGr r l x g).edits = g.edits := rfl
@[simp] theorem setGr_hexit (g : Group) (r l : Nat) (x : Closure) : (setGr r l x g).hexit = g.hexit := rfl
@[simp] theorem setGr_chain (g : Group) (r l : Nat) (x : Closure) : (setGr r l x g).chain = g.chain := rfl
@[simp] theorem setGr_spawn (g : Group) (r l : Nat) (x : Closure) : (setGr r l x g).spawn = g.spawn := rfl
@[simp] theorem setGr_held (g : Group) (r l : Nat) (x : Closure) : (setGr r l x g).held = g.held := rfl

end Sys2Proof.Machine
end

