-- ==== Sys2Proof/Laws/Memory.lean ====
section
/-!
SUPPORT. Reading and writing memory at its home, and that every memory operation keeps the canonical form.
-/

namespace Sys2Proof.Machine

theorem Memory.wf_iff (s : State) :
    Memory.wf s = true ↔ swf unwritten s.hbm = true ∧ swf unwritten s.host = true ∧ swf unwritten s.peer = true := by
  simp [Memory.wf, and_assoc]

theorem Memory.wf_of_eq {s t : State} (h1 : t.hbm = s.hbm) (h2 : t.host = s.host) (h3 : t.peer = s.peer) :
    Memory.wf t = Memory.wf s := by simp [Memory.wf, h1, h2, h3]

@[simp] theorem hbmSize_setHomeByte (a : Nat) (x : Byte) (s : State) : hbmSize (setHomeByte a x s) = hbmSize s := by
  unfold hbmSize setHomeByte; split_ifs <;> rfl

@[simp] theorem isHost_setHomeByte (a b : Nat) (x : Byte) (s : State) : isHost (setHomeByte a x s) b = isHost s b := by
  unfold isHost; rw [hbmSize_setHomeByte]; unfold setHomeByte; split_ifs <;> rfl

theorem setHomeByte_peer (a : Nat) (x : Byte) (s : State) :
    (setHomeByte a x s).peer = if a ≥ peerBase then sput unwritten (a - peerBase) x s.peer else s.peer := by
  unfold setHomeByte; split_ifs <;> rfl

theorem setHomeByte_host (a : Nat) (x : Byte) (s : State) :
    (setHomeByte a x s).host = if a ≥ peerBase then s.host else if isHost s a then sput unwritten a x s.host else s.host := by
  unfold setHomeByte; split_ifs <;> rfl

theorem setHomeByte_hbm (a : Nat) (x : Byte) (s : State) :
    (setHomeByte a x s).hbm = if a ≥ peerBase then s.hbm else if isHost s a then s.hbm else sput unwritten a x s.hbm := by
  unfold setHomeByte; split_ifs <;> rfl

/-- A byte written at its home reads back, and every other byte reads as before. -/
@[simp] theorem homeByte_setHomeByte (a b : Nat) (x : Byte) (s : State) :
    homeByte (setHomeByte a x s) b = if a = b then x else homeByte s b := by
  unfold homeByte
  rw [isHost_setHomeByte, setHomeByte_peer, setHomeByte_host, setHomeByte_hbm]
  by_cases hb : b ≥ peerBase
  · by_cases ha : a ≥ peerBase
    · have h : (a - peerBase = b - peerBase) ↔ a = b := by omega
      simp only [hb, ha, if_true, sget_sput, h]
    · have h : a ≠ b := by omega
      simp [hb, ha, h]
  · by_cases ha : a ≥ peerBase
    · have h : a ≠ b := by omega
      simp [hb, ha, h]
    · by_cases h : a = b
      · subst h
        by_cases hh : isHost s a = true <;> simp [hb, hh]
      · by_cases hh : isHost s a = true <;> by_cases hk : isHost s b = true <;> simp [hb, ha, h, hh, hk]

theorem setHomeByte_wf (a : Nat) (x : Byte) (s : State) (h : Memory.wf s = true) : Memory.wf (setHomeByte a x s) = true := by
  obtain ⟨h1, h2, h3⟩ := (Memory.wf_iff s).1 h
  unfold setHomeByte
  split_ifs
  · exact (Memory.wf_iff _).2 ⟨h1, h2, swf_sput _ _ _ _ h3⟩
  · exact (Memory.wf_iff _).2 ⟨h1, swf_sput _ _ _ _ h2, h3⟩
  · exact (Memory.wf_iff _).2 ⟨swf_sput _ _ _ _ h1, h2, h3⟩

theorem setHomeBytes_wf (a : Nat) (bs : List Byte) (s : State) (h : Memory.wf s = true) : Memory.wf (setHomeBytes a bs s) = true := by
  induction bs generalizing a s with
  | nil => exact h
  | cons b bs ih => exact ih (a + 1) _ (setHomeByte_wf a b s h)

theorem setHostBytes_wf (a : Nat) (bs : List Byte) (s : State) (h : Memory.wf s = true) : Memory.wf (setHostBytes a bs s) = true := by
  obtain ⟨h1, h2, h3⟩ := (Memory.wf_iff s).1 h
  exact (Memory.wf_iff _).2 ⟨h1, swf_sputs _ _ _ _ h2, h3⟩

/-- Bytes outside a run of written bytes read as before. -/
theorem homeByte_setHomeBytes (a b : Nat) (bs : List Byte) (s : State) (h : b < a ∨ a + bs.length ≤ b) :
    homeByte (setHomeBytes a bs s) b = homeByte s b := by
  induction bs generalizing a s with
  | nil => rfl
  | cons x xs ih =>
    simp only [setHomeBytes, List.length_cons] at *
    rw [ih (a + 1) _ (by omega), homeByte_setHomeByte, if_neg (by omega)]

/-- A run of written bytes reads back. -/
theorem homeBytes_setHomeBytes (a : Nat) (bs : List Byte) (s : State) : homeBytes (setHomeBytes a bs s) a bs.length = bs := by
  induction bs generalizing a s with
  | nil => rfl
  | cons x xs ih =>
    simp only [setHomeBytes, List.length_cons, homeBytes]
    rw [ih (a + 1), homeByte_setHomeBytes _ _ _ _ (by omega), homeByte_setHomeByte, if_pos rfl]

theorem reset_wf : Memory.wf State.reset = true := by decide

end Sys2Proof.Machine
end

