-- ==== Sys2Proof/Laws/Homes.lean ====
section
/-!
SUPPORT. The shared operations that perform stores keep the canonical form of memory.
-/

namespace Sys2Proof.Machine

theorem foldl_wf {α : Type} (f : State → α → State) (h : ∀ s a, Memory.wf s = true → Memory.wf (f s a) = true) (l : List α) (s : State)
    (hs : Memory.wf s = true) : Memory.wf (l.foldl f s) = true := by
  induction l generalizing s with
  | nil => exact hs
  | cons a l ih => exact ih _ (h s a hs)

theorem updGroup_wf (uid : Nat) (f : Group → Group) (s : State) : Memory.wf (updGroup uid f s) = Memory.wf s := by
  unfold updGroup; split <;> rfl

theorem raiseGwct_wf (who : Option (Nat × Nat)) (t : Nat) (s : State) : Memory.wf (raiseGwct who t s) = Memory.wf s := by
  unfold raiseGwct; split
  · rfl
  · exact updGroup_wf _ _ _

theorem noteOld_wf (a : Nat) (bs : List Byte) (s : State) : Memory.wf (noteOld a bs s) = Memory.wf s := by
  induction bs generalizing a s with
  | nil => rfl
  | cons b bs ih => unfold noteOld; rw [ih]; split_ifs <;> rfl

theorem flitFrom_wf (a : Nat) (s : State) : Memory.wf (flitFrom a s) = Memory.wf s := by
  unfold flitFrom; split <;> rfl

theorem noteTask_wf (who : Option (Nat × Nat)) (a : Nat) (bs : List Byte) (s : State) : Memory.wf (noteTask who a bs s) = Memory.wf s := rfl

theorem performStore_wf (who : Option (Nat × Nat)) (core a : Nat) (bs : List Byte) (s : State) (h : Memory.wf s = true) :
    Memory.wf (performStore who core a bs s) = true := by
  have hb : Memory.wf (setHomeBytes a bs (noteOld a bs s)) = true := setHomeBytes_wf a bs _ (by rw [noteOld_wf]; exact h)
  unfold performStore
  split_ifs
  · exact h
  · rw [flitFrom_wf]
    exact (raiseGwct_wf _ _ _).trans hb
  · exact (raiseGwct_wf _ _ _).trans hb

theorem writeBackLine_wf (c : CLine) (s : State) (h : Memory.wf s = true) : Memory.wf (writeBackLine c s) = true := by
  unfold writeBackLine
  split
  · exact h
  · exact foldl_wf _ (fun s o hs => by rw [raiseGwct_wf]; exact hs) _ _ (foldl_wf _ (fun s d hs => performStore_wf _ _ _ _ _ hs) _ _ h)

theorem writeBackWhere_wf (p : CLine → Bool) (s : State) (h : Memory.wf s = true) : Memory.wf (writeBackWhere p s) = true :=
  foldl_wf _ (fun s c hs => writeBackLine_wf c s hs) _ _ h

theorem putLine_wf (c : CLine) (s : State) : Memory.wf (putLine c s) = Memory.wf s := by
  unfold putLine; split <;> rfl

theorem fillLine_wf (lvl unit line expiry evc : Nat) (bytes : List Byte) (s : State) :
    Memory.wf (fillLine lvl unit line expiry evc bytes s) = Memory.wf s := putLine_wf _ _

theorem keepLine_wf (core line evc : Nat) (s : State) : Memory.wf (keepLine core line evc s) = Memory.wf s := by
  unfold keepLine; split <;> rfl

theorem grantLease_wf (line : Nat) (s : State) : Memory.wf (grantLease line s).2 = Memory.wf s := by
  unfold grantLease; split <;> rfl

theorem readHome_wf (core : Nat) (lease : Bool) (evc a n : Nat) (s : State) (h : Memory.wf s = true) :
    Memory.wf (readHome core lease evc a n s).2 = true := by
  have hw : Memory.wf (flitFrom a (writeBackAt core (lineOf a) s)) = true := (flitFrom_wf a _).trans (writeBackWhere_wf _ s h)
  unfold readHome
  dsimp only
  split
  · rw [fillLine_wf]
    split
    · rw [grantLease_wf]; exact hw
    · rw [fillLine_wf, grantLease_wf]; exact hw
  · exact hw

theorem holds_wf (c : CLine) (s : State) : Memory.wf (holds c s).2 = Memory.wf s := by
  unfold holds; split <;> rfl

theorem readL2_wf (core evc a n : Nat) (s : State) (h : Memory.wf s = true) : Memory.wf (readL2 core evc a n s).2 = true := by
  unfold readL2
  dsimp only
  split
  · exact readHome_wf _ _ _ _ _ _ h
  · have hh := (holds_wf ‹CLine› s).trans h
    split
    · split
      · rw [fillLine_wf]; exact hh
      · exact readHome_wf _ _ _ _ _ _ hh
    · exact readHome_wf _ _ _ _ _ _ hh

theorem readCopy_wf (core scope evc a n : Nat) (s : State) (h : Memory.wf s = true) : Memory.wf (readCopy core scope evc a n s).2 = true := by
  unfold readCopy
  split
  · exact readHome_wf _ _ _ _ _ _ h
  · split
    · split
      · exact readHome_wf _ _ _ _ _ _ h
      · exact readL2_wf _ _ _ _ _ h
    · split
      · exact h
      · dsimp only
        have hh := (holds_wf ‹CLine› s).trans h
        split
        · split
          · exact hh
          · split
            · exact readHome_wf _ _ _ _ _ _ hh
            · exact readL2_wf _ _ _ _ _ hh
        · split
          · exact readHome_wf _ _ _ _ _ _ hh
          · exact readL2_wf _ _ _ _ _ hh

/-- A load changes no byte's canonical form: it may write back, fill, keep and drop copies. -/
theorem readMem_wf (core scope evc a n : Nat) (s : State) (h : Memory.wf s = true) : Memory.wf (readMem core scope evc a n s).2 = true :=
  (keepLine_wf _ _ _ _).trans (readCopy_wf _ _ _ _ _ _ h)

theorem storeL1_wf (uid lane core evc a : Nat) (bs : List Byte) (s : State) : Memory.wf (storeL1 uid lane core evc a bs s) = Memory.wf s :=
  putLine_wf _ _

theorem scratchStore_wf (who : Option (Nat × Nat)) (wg off : Nat) (bs : List Byte) (s : State) :
    Memory.wf (scratchStore who wg off bs s) = Memory.wf s := rfl

theorem performPending_wf (core : Nat) (p : PStore) (s : State) (h : Memory.wf s = true) : Memory.wf (performPending core p s) = true := by
  unfold performPending
  dsimp only
  split
  · exact h
  · split
    · exact h
    · split
      · split <;> rw [storeL1_wf]
        · exact h
        · exact readMem_wf _ _ _ _ _ _ h
      · exact performStore_wf _ _ _ _ _ ((keepLine_wf _ _ _ _).trans (writeBackWhere_wf _ s h))

theorem performWhere_wf (p : PStore → Bool) (s : State) (h : Memory.wf s = true) : Memory.wf (performWhere p s) = true :=
  foldl_wf _ (fun s x hs => performPending_wf _ x s hs) _ _ h

theorem drainOwn_wf (uid lane line : Nat) (s : State) (h : Memory.wf s = true) : Memory.wf (drainOwn uid lane line s) = true :=
  performWhere_wf _ s h

theorem drainCore_wf (core line : Nat) (s : State) (h : Memory.wf s = true) : Memory.wf (drainCore core line s) = true :=
  performWhere_wf _ s h

theorem releaseAll_wf (p : Nat → Bool) (s : State) (h : Memory.wf s = true) : Memory.wf (releaseAll p s) = true :=
  writeBackWhere_wf _ _ (performWhere_wf _ s h)

theorem agentStore_wf (a : Nat) (bs : List Byte) (s : State) (h : Memory.wf s = true) : Memory.wf (agentStore a bs s) = true :=
  foldl_wf _ (fun _ _ hs => performStore_wf _ _ _ _ _ hs) _ _ h

theorem hostStore_wf (a : Nat) (bs : List Byte) (s : State) (h : Memory.wf s = true) : Memory.wf (hostStore a bs s) = true :=
  foldl_wf _ (fun s p hs => by
    split
    · exact performStore_wf _ _ _ _ _ hs
    · exact setHostBytes_wf _ _ _ hs) _ _ h

/-! ### Loads -/

theorem storeHome_wf (uid lane core a : Nat) (bs : List Byte) (s : State) (h : Memory.wf s = true) :
    Memory.wf (storeHome uid lane core a bs s) = true :=
  performStore_wf _ _ _ _ _ (writeBackWhere_wf _ _ (drainCore_wf _ _ _ h))

theorem loadHome_wf (uid lane core a n : Nat) (s : State) (h : Memory.wf s = true) : Memory.wf (loadHome uid lane core a n s).2 = true :=
  (flitFrom_wf a _).trans (writeBackWhere_wf _ _ (drainOwn_wf _ _ _ _ h))

theorem updTask_wf (uid lane : Nat) (f : Task → Task) (s : State) : Memory.wf (updTask uid lane f s) = Memory.wf s := rfl

theorem taskRead_wf (uid lane key : Nat) (bs : List Byte) (s : State) : Memory.wf (taskRead uid lane key bs s).2 = Memory.wf s := by
  unfold taskRead; split <;> rfl

theorem loadBytes_wf (uid lane core scope evc a n : Nat) (s : State) (h : Memory.wf s = true) :
    Memory.wf (loadBytes uid lane core scope evc a n s).2 = true := by
  unfold loadBytes
  dsimp only
  split
  · rw [taskRead_wf]; exact writeBackWhere_wf _ _ (drainOwn_wf _ _ _ _ h)
  · exact readMem_wf _ _ _ _ _ _ (drainOwn_wf _ _ _ _ h)

theorem issueStore_wf (core : Nat) (p : PStore) (det : Bool) (s : State) (h : Memory.wf s = true) :
    Memory.wf (issueStore core p det s) = true := by
  unfold issueStore
  split
  · exact performPending_wf _ _ _ (drainCore_wf _ _ _ h)
  · exact h

theorem storeBytes_wf (uid lane core scope evc a : Nat) (bs : List Byte) (det : Bool) (peer : Option Nat) (s : State) (h : Memory.wf s = true) :
    Memory.wf (storeBytes uid lane core scope evc a bs det peer s) = true := by
  unfold storeBytes
  split
  · exact h
  · exact issueStore_wf _ _ _ _ h

/-- The load of a lane at its place keeps the canonical form. -/
theorem placeLoad_wf (g : Group) (pl : Place) (scope evc lane a n : Nat) (s : State) (h : Memory.wf s = true) :
    Memory.wf (placeLoad g pl scope evc lane a n s).2 = true := by
  unfold placeLoad
  cases pl <;> dsimp only
  · exact loadBytes_wf _ _ _ _ _ _ _ _ h
  · rw [taskRead_wf]; exact drainOwn_wf _ _ _ _ h
  · rw [taskRead_wf]; exact loadHome_wf _ _ _ _ _ _ h

/-- The store of a lane at its place keeps the canonical form. -/
theorem placeStore_wf (g : Group) (pl : Place) (scope evc lane a : Nat) (bs : List Byte) (det : Bool) (s : State) (h : Memory.wf s = true) :
    Memory.wf (placeStore g pl scope evc lane a bs det s) = true := by
  unfold placeStore
  cases pl <;> exact storeBytes_wf _ _ _ _ _ _ _ _ _ _ h

theorem placeExclusive_wf (g : Group) (pl : Place) (lane a n : Nat) (s : State) (h : Memory.wf s = true) :
    Memory.wf (placeExclusive g pl lane a n s).2 = true := by
  unfold placeExclusive
  cases pl <;> dsimp only
  · exact loadHome_wf _ _ _ _ _ _ h
  · exact drainOwn_wf _ _ _ _ h
  · exact loadHome_wf _ _ _ _ _ _ h

theorem placeNow_wf (g : Group) (pl : Place) (lane a : Nat) (bs : List Byte) (s : State) (h : Memory.wf s = true) :
    Memory.wf (placeNow g pl lane a bs s) = true := by
  unfold placeNow
  cases pl <;> dsimp only
  · exact storeHome_wf _ _ _ _ _ _ h
  · exact drainCore_wf _ _ _ h
  · exact storeHome_wf _ _ _ _ _ _ h

theorem atomicPut_wf (op : AtomicOp) (x y : Word) (put : List Byte → State → State) (touch : State → State) (r : List Byte × State)
    (hp : ∀ bs s, Memory.wf s = true → Memory.wf (put bs s) = true) (ht : ∀ s, Memory.wf s = true → Memory.wf (touch s) = true)
    (h : Memory.wf r.2 = true) : Memory.wf (atomicPut op x y put touch r).2 = true := by
  unfold atomicPut
  dsimp only
  split
  · exact hp _ _ h
  · exact ht _ h

/-- An atomic performed at its place keeps the canonical form. -/
theorem placeAtomic_wf (g : Group) (op : AtomicOp) (pl : Place) (scope evc lane a : Nat) (x y : Word) (s : State) (h : Memory.wf s = true) :
    Memory.wf (placeAtomic g op pl scope evc lane a x y s).2 = true := by
  have hd := drainCore_wf g.core (lineOf (taskKey g pl a)) s h
  unfold placeAtomic
  cases pl <;> dsimp only
  · split
    · exact atomicPut_wf _ _ _ _ _ _ (fun bs s hs => (storeL1_wf _ _ _ _ _ _ _).trans hs) (fun s hs => hs)
        (loadBytes_wf _ _ _ _ _ _ _ _ hd)
    · exact atomicPut_wf _ _ _ _ _ _ (fun bs s hs => placeNow_wf _ _ _ _ _ _ hs) (fun s hs => placeNow_wf _ _ _ _ _ _ hs)
        (placeExclusive_wf _ _ _ _ _ _ ((keepLine_wf _ _ _ _).trans hd))
  · exact atomicPut_wf _ _ _ _ _ _ (fun bs s hs => placeNow_wf _ _ _ _ _ _ hs) (fun s hs => placeNow_wf _ _ _ _ _ _ hs)
      (placeExclusive_wf _ _ _ _ _ _ hd)
  · exact atomicPut_wf _ _ _ _ _ _ (fun bs s hs => placeNow_wf _ _ _ _ _ _ hs) (fun s hs => placeNow_wf _ _ _ _ _ _ hs)
      (placeExclusive_wf _ _ _ _ _ _ hd)

theorem loadWords_wf (g : Group) (p : PLoad) (s : State) (h : Memory.wf s = true) : Memory.wf (loadWords g p s).2 = true := by
  unfold loadWords
  split
  · exact placeAtomic_wf _ _ _ _ _ _ _ _ _ _ h
  · dsimp only; rw [updGroup_wf]; exact placeExclusive_wf _ _ _ _ _ _ h
  · exact placeLoad_wf _ _ _ _ _ _ _ _ h

theorem performLoad_wf (g : Group) (p : PLoad) (s : State) (h : Memory.wf s = true) : Memory.wf (performLoad g p s).2 = true := by
  unfold performLoad
  split
  · exact h
  · exact loadWords_wf _ _ _ h

theorem performOp_wf (g : Group) (q : PLoad → Bool) (o : VarOp) (s : State) (h : Memory.wf s = true) : Memory.wf (performOp g q o s).2 = true := by
  unfold performOp
  dsimp only
  generalize ([] : List RegWrite) = w
  generalize o.loads.filter q = l
  induction l generalizing w s with
  | nil => exact h
  | cons p l ih => exact ih _ (performLoad_wf g p s h) _

theorem performOps_wf (g : Group) (q : Nat → PLoad → Bool) (n : Nat) (l : List VarOp) (s : State) (h : Memory.wf s = true) :
    Memory.wf (performOps g q n l s).2 = true := by
  induction l generalizing n s with
  | nil => exact h
  | cons o r ih => exact ih _ _ (performOp_wf g (q n) o s h)

/-- Performing the loads in flight keeps the canonical form. -/
theorem performLoads_wf (uid : Nat) (q : Nat → PLoad → Bool) (s : State) (h : Memory.wf s = true) : Memory.wf (performLoads uid q s) = true := by
  unfold performLoads
  split
  · exact h
  · split
    · exact h
    · dsimp only; rw [updGroup_wf]; exact performOps_wf _ _ _ _ _ h

/-! ### Writes of the host -/

theorem hostLine_wf (p : Nat × List Byte) (s : State) (h : Memory.wf s = true) : Memory.wf (hostLine p s) = true :=
  performStore_wf _ _ _ _ _ (writeBackWhere_wf _ s h)

theorem hostMemWrite_wf (pa : Nat) (bs : List Byte) (s : State) (h : Memory.wf s = true) : Memory.wf (hostMemWrite pa bs s) = true :=
  foldl_wf _ (fun s p hs => by
    split
    · exact hostLine_wf p s hs
    · exact setHostBytes_wf _ _ _ hs) _ _ h

theorem peerStores_wf (member win off : Nat) (bs : List Byte) (s : State) (h : Memory.wf s = true) :
    Memory.wf (peerStores member win off bs s) = true :=
  foldl_wf _ (fun s (p : Nat × List Byte) hs =>
    (Memory.wf_of_eq rfl rfl rfl : Memory.wf (breakResv none 0 (lineOf p.1) (setHomeBytes p.1 p.2 (noteOld p.1 p.2 s))) = _).trans
      (setHomeBytes_wf _ _ _ (by rw [noteOld_wf]; exact hs))) _ _ h

/-! ### Writes of the device -/

theorem storeEach_wf (as : List Nat) (bs : List Byte) (s : State) (h : Memory.wf s = true) : Memory.wf (storeEach as bs s) = true := by
  induction as generalizing bs s with
  | nil => unfold storeEach; exact h
  | cons a as ih => cases bs with
    | nil => unfold storeEach; exact h
    | cons b bs => unfold storeEach; exact ih _ _ (performStore_wf _ _ _ _ _ h)

theorem agentWrite_wf (core ctx va : Nat) (bs : List Byte) (s t : State) (h : Memory.wf s = true) (ht : agentWrite core ctx va bs s = .ok t) :
    Memory.wf t = true := by
  unfold agentWrite at ht
  split at ht
  · cases ht; exact storeEach_wf _ _ _ h
  · cases ht

theorem setEvt_wf (i : Nat) (s : State) : Memory.wf (setEvt i s) = Memory.wf s := by
  unfold setEvt
  dsimp only
  split_ifs <;> rfl

end Sys2Proof.Machine
end

