-- ==== Sys2Proof/Laws/Ops.lean ====
section
/-!
SUPPORT. What a word can come to (R52), what completing it leaves alone, and what a vector result writes.
-/

namespace Sys2Proof.Machine

theorem samePlaced.rfl' (g : Group) : samePlaced g g := rfl

theorem samePlaced.trans {a b c : Group} (h : samePlaced a b) (k : samePlaced b c) : samePlaced a c := by
  unfold samePlaced at *; rw [k, h]

theorem joinStep_placed (n : Nat) (g : Group) : samePlaced g (joinStep n g) := by
  unfold joinStep; split
  · rfl
  · split_ifs <;> rfl

theorem foldl_placed (l : List Nat) (g : Group) : samePlaced g (l.foldl (fun g n => joinStep n g) g) := by
  induction l generalizing g with
  | nil => rfl
  | cons n l ih => exact (joinStep_placed n g).trans (ih _)

theorem joinCheck_placed (g : Group) : samePlaced g (joinCheck g) := foldl_placed _ g

theorem addEntry_placed (e : FEntry) (g : Group) : samePlaced g (addEntry e g) := by
  unfold addEntry; split_ifs <;> rfl

theorem homeByte_congr {s t : State} (h1 : t.hbm = s.hbm) (h2 : t.host = s.host) (h3 : t.peer = s.peer)
    (h4 : t.hostRanges = s.hostRanges) (h5 : t.out = s.out) (a : Nat) : homeByte t a = homeByte s a := by
  unfold homeByte isHost hbmSize workingStacks unitOut; rw [h1, h2, h3, h4, h5]

theorem Completed.of {u t : State} (h : t = { u with grp := t.grp, wgs := t.wgs }) (hw : timeless t.wgs = timeless u.wgs)
    (hg : samePlaced u.grp t.grp) : Completed u t := by
  refine ⟨fun a => ?_, h, hw, hg⟩
  rw [h]; rfl

theorem Completed.rfl' (u : State) : Completed u u := .of rfl rfl rfl

theorem Completed.trans {a b c : State} (h : Completed a b) (k : Completed b c) : Completed a c := by
  obtain ⟨_, h2, h3, h4⟩ := h
  obtain ⟨_, k2, k3, k4⟩ := k
  refine .of ?_ (k3.trans h3) (h4.trans k4)
  rw [k2, h2]

theorem timeless_updWg (u : Nat) (f : Workgroup → Workgroup) (s : State)
    (hf : ∀ w : Workgroup, { f w with round := 0, turn := 0 } = { w with round := 0, turn := 0 }) :
    timeless (updWg u f s).wgs = timeless s.wgs := by
  simp only [timeless, updWg, List.map_map]
  apply List.map_congr_left
  intro w _
  simp only [Function.comp]
  split_ifs
  · exact hf w
  · rfl

theorem nextTurn_completed (g : Group) (s : State) : Completed s (nextTurn g s) := by
  unfold nextTurn
  split_ifs
  · exact .of rfl (timeless_updWg _ _ _ fun _ => rfl) rfl
  · exact .of rfl (timeless_updWg _ _ _ fun _ => rfl) rfl
  · exact .rfl' s

theorem setG_completed (s : State) (f : Group → Group) (h : samePlaced s.grp (f s.grp)) : Completed s (s.setG f) :=
  .of rfl rfl h

/-- The issuer whose path has gone back to the frontier between clauses. -/
def backOnFrontier (e : FEntry) (g : Group) : Group := addEntry { e with pos := none, age := 0 } { g with act := none, resv := [], arming := [] }

theorem backOnFrontier_placed (e : FEntry) (g : Group) : samePlaced g (backOnFrontier e g) :=
  samePlaced.trans (b := { g with act := none, resv := [], arming := [] }) rfl (addEntry_placed _ _)

theorem endClause_some {s : State} {e : FEntry} (h : s.grp.act = some e) :
    endClause s = nextTurn (backOnFrontier e s.grp) { s with grp := joinCheck (backOnFrontier e s.grp) } := by
  unfold endClause; rw [h]; rfl

theorem withGrp_completed (s : State) (g : Group) (h : samePlaced s.grp g) : Completed s { s with grp := g } := .of rfl rfl h

/-- The end of a clause only moves paths, joins, reservations and turns. -/
theorem endClause_completed (s : State) : Completed s (endClause s) := by
  cases hact : s.grp.act with
  | none => unfold endClause; rw [hact]; exact .rfl' s
  | some e =>
    rw [endClause_some hact]
    exact (withGrp_completed s _ ((backOnFrontier_placed e s.grp).trans (joinCheck_placed _))).trans (nextTurn_completed _ _)

theorem setAct_completed (s : State) (f : FEntry → FEntry) : Completed s (s.setAct f) :=
  setG_completed s (fun g => { g with act := g.act.map f }) rfl

theorem setActive_completed (s : State) (e : Option FEntry) : Completed s (s.setG fun g => { g with act := e }) :=
  setG_completed s (fun g => { g with act := e }) rfl

theorem advance_completed (s : State) : Completed s (advance s) := by
  unfold advance
  cases hact : s.grp.act with
  | none => exact .rfl' s
  | some e =>
    cases hpos : e.pos with
    | none => simp only [hpos]; exact setAct_completed s _
    | some p =>
      simp only [hpos]
      split_ifs
      · exact (setActive_completed s _).trans (endClause_completed _)
      · exact setActive_completed s _

theorem settle_completed (s : State) : Completed s (settle s) :=
  setG_completed s (fun g => spend s { g with stall := .none, walks := [], held := none, spawn := none }) rfl

theorem moved_completed (s : State) : Completed s (advance (settle s)) := (settle_completed s).trans (advance_completed _)

theorem Completed.quiet {u t : State} (h : Completed u t) : quiet t = quiet u := by
  rw [Machine.quiet, Machine.quiet, h.2.2.2]

/-- With no step request, the check after a word finds nothing. -/
theorem stepCheck_quiet (pc : Nat) (m : DWord) (t : State) (h : quiet t = true) : stepCheck pc m t = t := by
  simp only [quiet, Bool.and_eq_true, Bool.not_eq_true', Option.isNone_iff_eq_none] at h
  unfold stepCheck
  simp [h.1, h.2]

/-- A word that completes: its effect, its path moved, then the check of a step request. -/
theorem finish_completes {s u : State} (hq : quiet u = quiet s) (hp : curPc u = curPc s) (hm : active u = active s) :
    ∃ t, finish u = thenStep s t ∧ Completed u t := by
  refine ⟨advance (settle u), ?_, moved_completed u⟩
  unfold finish thenStep
  split_ifs with h
  · exact stepCheck_quiet _ _ _ (by rw [(moved_completed u).quiet, hq, h])
  · rw [hp, hm]

theorem word_trap {n : Need} {s : State} {r : TrapReq} (f : State → State) (h : check n s = .trap r) : word n f s = takeTrap r s := by
  simp [word, h]

theorem word_stall {n : Need} {s : State} {w : Stall} (f : State → State) (h : check n s = .stall w) : word n f s = stallOn w s := by
  simp [word, h]

theorem word_run {n : Need} {s : State} (f : State → State) (h : ready n s) : word n f s = f s := by
  unfold ready at h; simp [word, h]

/-- Every word whose effect ends in `finish u` does what `Does` says. -/
theorem Does.of_word {i : Instr} {n : Need} {s u : State} (f : State → State) (he : exec i s = .next (word n f s))
    (hf : ready n s → f s = finish u) (hq : quiet u = quiet s) (hp : curPc u = curPc s) (hm : active u = active s) : Does i n s u := by
  refine ⟨fun r h => by rw [he, word_trap f h], fun w h => by rw [he, word_stall f h], fun h => ?_⟩
  obtain ⟨t, ht, hc⟩ := finish_completes (s := s) hq hp hm
  exact ⟨t, by rw [he, word_run f h, hf h, ht], hc⟩

end Sys2Proof.Machine
end

