-- ==== Sys2Proof/Laws/Vector.lean ====
section
/-!
SUPPORT. What a vector result writes: every active lane of its destination, and nothing else.
-/

namespace Sys2Proof.Machine

/-- A destination range that lies inside the codes of one register file. -/
def rangeIn (c w : Nat) : Prop := c + w ≤ 0xE0 ∨ (0xE0 ≤ c ∧ c + w ≤ 0xE8)

theorem rangeIn_of_dstOk {s : State} {w c : Nat} (hw : w = 1 ∨ w = 2 ∨ w = 4) (h : dstOk s w c = true) : rangeIn c w := by
  simp only [dstOk, regRangeOk, Bool.and_eq_true, decide_eq_true_eq] at h
  obtain ⟨h1, h2⟩ := h
  unfold rangeIn
  split_ifs at h2 with hc
  · simp only [Bool.and_eq_true, decide_eq_true_eq] at h2
    rcases hw with rfl | rfl | rfl <;> omega
  · simp only [Bool.and_eq_true, decide_eq_true_eq] at h2
    rcases hw with rfl | rfl | rfl <;> omega

theorem dstWord_shift {g : Group} {c i w l : Nat} (h : rangeIn c w) (hi : i < w) : dstWord g c i l = dstWord g (c + i) 0 l := by
  unfold rangeIn at h
  unfold dstWord
  by_cases h1 : c ≤ 0xDF
  · rw [if_pos h1, if_pos (by omega), Nat.add_zero]
  · have h2 : c - 0xE0 + i = c + i - 0xE0 := by omega
    rw [if_neg h1, if_neg (by omega), Nat.add_zero, h2]

@[simp] theorem getV_setV (g : Group) (r l q k : Nat) (x : Word) :
    getV (setV r l x g) q k = if 64 * r + l = 64 * q + k then x else getV g q k := by simp [getV, setV]
@[simp] theorem getK_setK (g : Group) (r l q k : Nat) (x : Word) :
    getK (setK r l x g) q k = if 64 * r + l = 64 * q + k then x else getK g q k := by simp [getK, setK]
@[simp] theorem getV_setK (g : Group) (r l q k : Nat) (x : Word) : getV (setK r l x g) q k = getV g q k := rfl
@[simp] theorem getK_setV (g : Group) (r l q k : Nat) (x : Word) : getK (setV r l x g) q k = getK g q k := rfl

/-- One word written: its register word in its lane takes the value, and no other does. -/
theorem dstWord_setDstWord {g : Group} {c i w l c' l' : Nat} (x : Word) (h : rangeIn c w) (hi : i < w) (hl : l < 64) (hl' : l' < 64)
    (hc : c' ≤ 0xE7) : dstWord (setDstWord c i l x g) c' 0 l' = if c' = c + i ∧ l' = l then x else dstWord g c' 0 l' := by
  unfold rangeIn at h
  unfold dstWord setDstWord
  by_cases h1 : c ≤ 0xDF <;> by_cases h2 : c' ≤ 0xDF <;> simp only [h1, h2, if_true, if_false, getV_setV, getK_setK, getV_setK, getK_setV]
  · by_cases h3 : c' = c + i ∧ l' = l
    · rw [if_pos h3, if_pos (by omega)]
    · rw [if_neg h3, if_neg (by omega)]
  · rw [if_neg (by omega)]
  · rw [if_neg (by omega)]
  · by_cases h3 : c' = c + i ∧ l' = l
    · rw [if_pos h3, if_pos (by omega)]
    · rw [if_neg h3, if_neg (by omega)]

theorem dstWord_setDst {c w l c' l' : Nat} (h : rangeIn c w) (hl : l < 64) (hl' : l' < 64) (hc : c' ≤ 0xE7) :
    ∀ (xs : List Word) (i : Nat) (g : Group), i + xs.length ≤ w →
      dstWord (setDst c l i xs g) c' 0 l' =
        if l' = l ∧ c + i ≤ c' ∧ c' < c + i + xs.length then xs.getD (c' - (c + i)) 0 else dstWord g c' 0 l' := by
  intro xs
  induction xs with
  | nil => intro i g _; rw [setDst, if_neg (by simp)]
  | cons x xs ih =>
    intro i g hi
    simp only [List.length_cons] at hi
    rw [setDst, ih (i + 1) _ (by omega), dstWord_setDstWord x h (by omega) hl hl' hc]
    simp only [List.length_cons]
    by_cases h1 : l' = l ∧ c + (i + 1) ≤ c' ∧ c' < c + (i + 1) + xs.length
    · rw [if_pos h1, if_pos (by omega)]
      have : c' - (c + i) = (c' - (c + (i + 1))) + 1 := by omega
      rw [this]; rfl
    · rw [if_neg h1]
      by_cases h2 : c' = c + i ∧ l' = l
      · rw [if_pos h2, if_pos (by omega)]
        have : c' - (c + i) = 0 := by omega
        rw [this]; rfl
      · rw [if_neg h2, if_neg (by omega)]

theorem dstWord_setLanes {c w c' l' : Nat} (f : Nat → List Word) (h : rangeIn c w) (hl' : l' < 64) (hc : c' ≤ 0xE7) :
    ∀ (ls : List Nat) (g : Group), (∀ l ∈ ls, l < 64) → (∀ l ∈ ls, (f l).length = w) → ls.Nodup →
      dstWord (setLanes c f ls g) c' 0 l' =
        if l' ∈ ls ∧ c ≤ c' ∧ c' < c + w then (f l').getD (c' - c) 0 else dstWord g c' 0 l' := by
  intro ls
  induction ls with
  | nil => intro g _ _ _; simp [setLanes]
  | cons l ls ih =>
    intro g h64 hlen hnd
    have hw := hlen l (by simp)
    rw [setLanes, ih _ (fun k hk => h64 k (by simp [hk])) (fun k hk => hlen k (by simp [hk])) (List.nodup_cons.1 hnd).2,
      dstWord_setDst h (h64 l (by simp)) hl' hc _ _ _ (by omega)]
    have hni := (List.nodup_cons.1 hnd).1
    by_cases h1 : l' ∈ ls ∧ c ≤ c' ∧ c' < c + w
    · rw [if_pos h1, if_pos ⟨by simp [h1.1], h1.2⟩]
    · rw [if_neg h1]
      by_cases h2 : l' = l ∧ c ≤ c' ∧ c' < c + w
      · rw [if_pos (by rw [hw]; omega), if_pos ⟨by simp [h2.1], h2.2⟩, h2.1]; rfl
      · rw [if_neg (by rw [hw]; omega), if_neg]
        rintro ⟨h3, h4⟩
        rcases List.mem_cons.1 h3 with h5 | h5
        · exact h2 ⟨h5, h4⟩
        · exact h1 ⟨h5, h4⟩

theorem mem_lanes (m : DWord) (l : Nat) : l ∈ lanes m ↔ l < 64 ∧ bit m l = true := by simp [lanes]
theorem lanes_nodup (m : DWord) : (lanes m).Nodup := List.Nodup.filter _ List.nodup_range
theorem lanes_lt (m : DWord) : ∀ l ∈ lanes m, l < 64 := fun l h => ((mem_lanes m l).1 h).1
theorem isActive_iff (s : State) (l : Nat) : isActive s l = true ↔ l ∈ lanes (active s) := by simp [isActive]

/-- A group in which only V and K registers, and the place of its paths, differ. -/
theorem setLanes_vk (c : Nat) (f : Nat → List Word) (ls : List Nat) (g : Group) :
    setLanes c f ls g = { g with v := (setLanes c f ls g).v, k := (setLanes c f ls g).k } := by
  have one : ∀ (i l : Nat) (x : Word) (g : Group), setDstWord c i l x g = { g with v := (setDstWord c i l x g).v, k := (setDstWord c i l x g).k } := by
    intro i l x g; unfold setDstWord; split_ifs <;> rfl
  have two : ∀ (l : Nat) (xs : List Word) (i : Nat) (g : Group), setDst c l i xs g = { g with v := (setDst c l i xs g).v, k := (setDst c l i xs g).k } := by
    intro l xs
    induction xs with
    | nil => intro i g; rfl
    | cons x xs ih => intro i g; rw [setDst, ih, one]
  induction ls generalizing g with
  | nil => rfl
  | cons l ls ih => rw [setLanes, ih, two]

/-- A group whose V and K registers alone may differ is known by those. -/
theorem dstWord_placed {g h : Group} (k : samePlaced g h) (c i l : Nat) : dstWord h c i l = dstWord g c i l := by
  unfold samePlaced at k; rw [k]; rfl

theorem pushH_completed (e : HEntry) (s : State) : Completed s (pushH e s) := setAct_completed s _

theorem Wrote.of_placed {s : State} {d w : Nat} {f : Nat → List Word} {g h : Group} (k : samePlaced g h) (x : Wrote s d w f g) :
    Wrote s d w f h :=
  ⟨fun l i a b => by rw [dstWord_placed k]; exact x.1 l i a b, fun c l a b e => by rw [dstWord_placed k]; exact x.2 c l a b e⟩

theorem setLanes_wrote {s : State} {d w : Nat} (f : Nat → List Word) (h : rangeIn d w) (hf : ∀ l, isActive s l = true → (f l).length = w) :
    Wrote s d w f (setLanes d f (lanes (active s)) s.grp) := by
  have h64 := lanes_lt (active s)
  have hlen : ∀ l ∈ lanes (active s), (f l).length = w := fun l hl => hf l ((isActive_iff s l).2 hl)
  refine ⟨fun l i ha hi => ?_, fun c l hc hl hn => ?_⟩
  · have hm := (isActive_iff s l).1 ha
    have hr := h
    unfold rangeIn at hr
    rw [dstWord_shift h hi, dstWord_setLanes f h (h64 l hm) (by omega) _ _ h64 hlen (lanes_nodup _),
      if_pos ⟨hm, by omega, by omega⟩]
    congr 1; omega
  · rw [dstWord_setLanes f h hl hc _ _ h64 hlen (lanes_nodup _), if_neg]
    rintro ⟨h1, h2⟩
    exact hn ⟨(isActive_iff s l).2 h1, h2⟩

/-- A result written and the last-result file shifted. -/
theorem writeResult_spec {s : State} {d w : Nat} (f : Nat → List Word) (h : rangeIn d w)
    (hf : ∀ l, isActive s l = true → (f l).length = w) :
    Wrote s d w f (writeResult d w f s).grp
      ∧ Completed { s with grp := { s.grp with v := (writeResult d w f s).grp.v, k := (writeResult d w f s).grp.k } } (writeResult d w f s) := by
  have hp := pushH_completed (hEntry d w (s.setG (setLanes d f (lanes (active s))))) (s.setG (setLanes d f (lanes (active s))))
  refine ⟨(setLanes_wrote f h hf).of_placed hp.2.2.2, ?_⟩
  have hv : (writeResult d w f s).grp.v = (setLanes d f (lanes (active s)) s.grp).v := by
    change (pushH _ _).grp.v = _; rw [hp.2.2.2]; rfl
  have hk : (writeResult d w f s).grp.k = (setLanes d f (lanes (active s)) s.grp).k := by
    change (pushH _ _).grp.k = _; rw [hp.2.2.2]; rfl
  rw [hv, hk, ← setLanes_vk]
  exact hp

theorem setPos_active (s : State) (f : Pos → Pos) : active (s.setPos f) = active s := by
  unfold active State.setPos State.setAct; cases h : s.grp.act <;> simp [h]

theorem setPos_curPc (s : State) (f : Pos → Pos) : curPc (s.setPos f) = curPc s := by
  unfold curPc State.setPos State.setAct; cases h : s.grp.act <;> simp [h]

theorem setLanes_act (c : Nat) (f : Nat → List Word) (ls : List Nat) (g : Group) : (setLanes c f ls g).act = g.act := by
  rw [setLanes_vk]

theorem writeResult_active (d w : Nat) (f : Nat → List Word) (s : State) : active (writeResult d w f s) = active s := by
  unfold writeResult pushH; rw [setPos_active]; unfold active; rw [setG_grp, setLanes_act]

theorem writeResult_curPc (d w : Nat) (f : Nat → List Word) (s : State) : curPc (writeResult d w f s) = curPc s := by
  unfold writeResult pushH; rw [setPos_curPc]; unfold curPc; rw [setG_grp, setLanes_act]

theorem writeResult_quiet (d w : Nat) (f : Nat → List Word) (s : State) : quiet (writeResult d w f s) = quiet s := by
  unfold writeResult
  rw [(pushH_completed _ _).quiet, quiet, quiet, setG_grp, setLanes_vk]

/-- A word whose effect is a result in `d`, and more that leaves V and K alone. -/
theorem Writes.of_word {i : Instr} {n : Need} {s : State} {d w : Nat} {f : Nat → List Word} (body : State → State)
    (he : exec i s = .next (word n body s)) (hb : ready n s → body s = finish (writeResult d w f s))
    (hw : w = 1 ∨ w = 2 ∨ w = 4) (hd : ready n s → dstOk s w d = true) (hf : ∀ l, isActive s l = true → (f l).length = w) :
    Writes i n s d w f := by
  refine ⟨fun r h => by rw [he, word_trap _ h], fun x h => by rw [he, word_stall _ h], fun h => ?_⟩
  obtain ⟨t, ht, hc⟩ := finish_completes (s := s) (u := writeResult d w f s) (writeResult_quiet ..) (writeResult_curPc ..) (writeResult_active ..)
  obtain ⟨hwr, hcp⟩ := writeResult_spec f (rangeIn_of_dstOk hw (hd h)) hf
  refine ⟨t, by rw [he, word_run _ h, hb h, ht], hwr.of_placed hc.2.2.2, ?_⟩
  have hv : t.grp.v = (writeResult d w f s).grp.v := by rw [hc.2.2.2]
  have hk : t.grp.k = (writeResult d w f s).grp.k := by rw [hc.2.2.2]
  rw [hv, hk]
  exact hcp.trans hc

theorem ready_operand {n : Need} {s : State} (h : ready n s) : n.operandBad = false := by
  unfold ready check at h
  cases hb : n.operandBad
  · rfl
  · simp only [hb] at h
    split at h <;> [cases h; skip]
    split at h <;> [cases h; skip]
    split_ifs at h

theorem dstOk_of_vecNeed {s : State} {d dw : Nat} {srcs : List (Nat × Nat)} {r fl im vl : Bool} {fs : List Nat}
    (h : ready (vecNeed s d dw srcs r fl im fs vl) s) : dstOk s dw d = true := by
  have := ready_operand h
  simp only [vecNeed, Bool.not_eq_false', Bool.and_eq_true] at this
  exact this.1

/-- A fixed-latency vector word writes what its function gives (R84). -/
theorem Writes.of_vecFixed {i : Instr} {s : State} {n : Need} {d dw : Nat} {srcs : List (Nat × Nat)} {r fl im vl : Bool} {fs : List Nat}
    {g : Nat → List Word} (f : State → Nat → List Word) (he : exec i s = .next (vecFixed n d dw f s))
    (hn : n = vecNeed s d dw srcs r fl im fs vl)
    (hg : ∀ l, f s l = g l) (hw : dw = 1 ∨ dw = 2 ∨ dw = 4) (hf : ∀ l, (g l).length = dw) :
    Writes i (vecNeed s d dw srcs r fl im fs vl) s d dw g := by
  obtain rfl : f s = g := funext hg
  subst hn
  exact .of_word _ he (fun _ => rfl) hw dstOk_of_vecNeed fun l _ => hf l

/-- A word of classes 2 to 6 writes what its function gives of the destination's old value and its sources. -/
theorem Writes.of_vec3 {i : Instr} {s : State} {rnd : Bool} {d a b : BitVec 8} {g : Nat → Word}
    (f : State → Nat → Word → Word → Word → Word) (he : exec i s = .next (vec3 rnd d a b f s))
    (hg : ∀ l, f s l (src s d l) (src s a l) (src s b l) = g l) :
    Writes i (vecNeed s d.toNat 1 [(a.toNat, 1), (b.toNat, 1)] rnd false false [] false) s d.toNat 1 (fun l => [g l]) :=
  .of_vecFixed _ he rfl (fun l => congrArg (fun x => [x]) (hg l)) (.inl rfl) fun _ => rfl

/-- A word of class 7 with 32-bit operands. -/
theorem Writes.of_vec2 {i : Instr} {s : State} {rnd : Bool} {d a : BitVec 8} {g : Nat → Word}
    (f : State → Nat → Word → Word) (he : exec i s = .next (vec2 rnd d a f s)) (hg : ∀ l, f s l (src s a l) = g l) :
    Writes i (vecNeed s d.toNat 1 [(a.toNat, 1)] rnd false false [] false) s d.toNat 1 (fun l => [g l]) :=
  .of_vecFixed _ he rfl (fun l => congrArg (fun x => [x]) (hg l)) (.inl rfl) fun _ => rfl

/-- A word of class 8. -/
theorem Writes.of_vecImm {i : Instr} {s : State} {h : Bool} {d a : BitVec 8} {g : Nat → Word}
    (f : State → Word → Word) (he : exec i s = .next (vecImm h d a f s)) (hg : ∀ l, f s (src s a l) = g l) :
    Writes i (vecNeed s d.toNat 1 [(a.toNat, 1)] false true h [] false) s d.toNat 1 (fun l => [g l]) :=
  .of_vecFixed _ he rfl (fun l => congrArg (fun x => [x]) (hg l)) (.inl rfl) fun _ => rfl

/-! ### Variable latency -/

theorem raiseOp_active (r : List Reg) (w : List RegWrite) (c : List (Nat × Nat × Closure)) (l : List PLoad) (s : State) :
    active (raiseOp r w c l s) = active s := by
  unfold raiseOp; split
  · rfl
  · rw [setPos_active]; rfl

theorem launchOp_active (r : List Reg) (w : List RegWrite) (c : List (Nat × Nat × Closure)) (s : State) (l : List PLoad) :
    active (launchOp r w c s l) = active s := by
  unfold launchOp; split_ifs
  · rfl
  · exact raiseOp_active _ _ _ _ _

theorem raiseOp_curPc (r : List Reg) (w : List RegWrite) (c : List (Nat × Nat × Closure)) (l : List PLoad) (s : State) :
    curPc (raiseOp r w c l s) = curPc s := by
  unfold raiseOp; split
  · rfl
  · rw [setPos_curPc]; rfl

theorem launchOp_curPc (r : List Reg) (w : List RegWrite) (c : List (Nat × Nat × Closure)) (s : State) (l : List PLoad) :
    curPc (launchOp r w c s l) = curPc s := by
  unfold launchOp; split_ifs
  · rfl
  · exact raiseOp_curPc _ _ _ _ _

theorem raiseOp_quiet (r : List Reg) (w : List RegWrite) (c : List (Nat × Nat × Closure)) (l : List PLoad) (s : State) :
    quiet (raiseOp r w c l s) = quiet s := by
  unfold raiseOp; split
  · rfl
  · rfl

theorem launchOp_quiet (r : List Reg) (w : List RegWrite) (c : List (Nat × Nat × Closure)) (s : State) (l : List PLoad) :
    quiet (launchOp r w c s l) = quiet s := by
  unfold launchOp; split_ifs
  · rfl
  · exact raiseOp_quiet _ _ _ _ _

/-- A variable-latency vector word puts its results in flight (R41, R85). -/
theorem Does.of_vecVar {i : Instr} {n m : Need} {s : State} {d dw : Nat} {g : Nat → List Word} (f : State → Nat → List Word)
    (he : exec i s = .next (vecVar m d dw f s)) (hn : m = n) (hg : ∀ l, f s l = g l) :
    Does i n s (launchOp (codeRegs s dw d) (resultWrites d g (lanes (active s))) [] s) := by
  obtain rfl : f s = g := funext hg
  subst hn
  exact .of_word _ he (fun _ => rfl) (launchOp_quiet ..) (launchOp_curPc ..) (launchOp_active ..)

end Sys2Proof.Machine
end

