-- ==== Sys2Proof/Laws/Masks.lean ====
section
/-!
SUPPORT. What the words that write masks, S registers and other registers of the issuer do.
-/

namespace Sys2Proof.Machine

theorem bit_laneBit (k l : Nat) (hl : l < 64) : bit (laneBit k) l = decide (l = k) := by
  simp only [bit, laneBit, BitVec.getLsbD_ofNat, Nat.testBit_two_pow, hl, decide_true, Bool.true_and]
  simp [eq_comm]

theorem bit_setBit (m : DWord) (k l : Nat) (b : Bool) (hl : l < 64) :
    bit (setBit m k b) l = if l = k then b else bit m l := by
  have h := bit_laneBit k l hl
  unfold bit at h ⊢
  unfold setBit
  cases b <;> by_cases hk : l = k <;> simp [hk, hl] at h ⊢ <;> simp_all

theorem bit_putBits (f : Nat → Bool) (l : Nat) (hl : l < 64) : ∀ (ls : List Nat) (m : DWord),
    bit (putBits f ls m) l = if l ∈ ls then f l else bit m l := by
  intro ls
  induction ls with
  | nil => intro m; simp [putBits]
  | cons k ls ih =>
    intro m
    rw [putBits, ih, bit_setBit _ _ _ _ hl]
    by_cases h1 : l ∈ ls
    · simp [h1]
    · by_cases h2 : l = k
      · simp [h2]
      · simp [h1, h2]

@[simp] theorem getM_setM (g : Group) (r q : Nat) (x : DWord) : getM (setM r x g) q = if r = q then x else getM g q := by simp [getM, setM]
@[simp] theorem getS_setS (g : Group) (r q : Nat) (x : Word) : getS (setS r x g) q = if r = q then x else getS g q := by simp [getS, setS]
@[simp] theorem getF_setF (g : Group) (r q : Nat) (x : Nat) : getF (setF r x g) q = if r = q then x else getF g q := by simp [getF, setF]
@[simp] theorem getJ_setJ (g : Group) (r q : Nat) (x : JReg) : getJ (setJ r x g) q = if r = q then x else getJ g q := by simp [getJ, setJ]
@[simp] theorem getB_setB (g : Group) (r q : Nat) (x : BitVec 128) : getB (setB r x g) q = if r = q then x else getB g q := by simp [getB, setB]

theorem putMask_masked (s : State) (m : Nat) (f : Nat → Bool) : Masked s m f (putMask m f s).grp := by
  intro l hl
  have h : (putMask m f s).grp = setM m (putBits f (lanes (active s)) (getM s.grp m)) s.grp := rfl
  rw [h, getM_setM, if_pos rfl, bit_putBits f l hl]
  by_cases h1 : l ∈ lanes (active s)
  · rw [if_pos h1, if_pos ((isActive_iff s l).2 h1)]
  · rw [if_neg h1, if_neg fun h2 => h1 ((isActive_iff s l).1 h2)]

theorem Masked.of_placed {s : State} {m : Nat} {f : Nat → Bool} {g h : Group} (k : samePlaced g h) (x : Masked s m f g) : Masked s m f h := by
  intro l hl
  have : getM h m = getM g m := by unfold samePlaced at k; rw [k]; rfl
  rw [this]; exact x l hl

/-- A word whose effect ends in a change of one mask register does what `SetsMask` says. -/
theorem SetsMask.of_word {i : Instr} {n : Need} {s : State} {m : Nat} {f : Nat → Bool} (body : State → State)
    (he : exec i s = .next (word n body s)) (hb : ready n s → body s = finish (putMask m f s)) : SetsMask i n s m f := by
  refine ⟨fun r h => by rw [he, word_trap _ h], fun x h => by rw [he, word_stall _ h], fun h => ?_⟩
  obtain ⟨t, ht, hc⟩ := finish_completes (s := s) (u := putMask m f s) rfl rfl rfl
  refine ⟨t, by rw [he, word_run _ h, hb h, ht], (putMask_masked s m f).of_placed hc.2.2.2, ?_⟩
  have hm : getM t.grp m = getM (putMask m f s).grp m := by rw [hc.2.2.2]; rfl
  have hu : s.setG (setM m (getM t.grp m)) = putMask m f s := by
    rw [hm]; unfold putMask; rw [setG_grp, getM_setM, if_pos rfl]
  rw [hu]; exact hc

theorem collective_full {s : State} (body : State → State) (h : maskIsFull s = true) : collective body s = body s := by
  unfold collective maskIsFull at *
  simp only [Bool.or_eq_true, decide_eq_true_eq] at h
  rw [if_neg]
  rintro ⟨h1, h2⟩
  rcases h with h | h
  · exact h1 h
  · simp [h2] at h

theorem collective_part {s : State} (body : State → State) (h : maskIsFull s = false) : collective body s = trapOwn cConverge s := by
  unfold collective maskIsFull at *
  simp only [Bool.or_eq_false_iff, decide_eq_false_iff_not] at h
  rw [if_pos h]

theorem Collective.of_word {i : Instr} {n : Need} {s : State} {w : Prop} (body : State → State)
    (he : exec i s = .next (word n (collective body) s)) (hw : maskIsFull s = true → w) : Collective i n s w :=
  ⟨fun h hr => by rw [he, word_run _ hr, collective_part _ h]; rfl, hw⟩

/-- A word whose effect is a change of the issuer that keeps the path and the step requests. -/
theorem Does.of_setG {i : Instr} {n : Need} {s : State} (f : State → State) (k : Group → Group) (he : exec i s = .next (word n f s))
    (hf : ready n s → f s = finish (s.setG k)) (hact : (k s.grp).act = s.grp.act) (hh : (k s.grp).hstep = s.grp.hstep)
    (hd : (k s.grp).dbgSteps = s.grp.dbgSteps) : Does i n s (s.setG k) := by
  refine .of_word f he hf ?_ ?_ ?_
  · simp [quiet, hh, hd]
  · simp [curPc, hact]
  · simp [active, hact]

end Sys2Proof.Machine
end

