-- ==== Sys2Proof/Tests/Slice0.lean ====
section
/-!
SUPPORT. Tests: words of the spec and what they decode to, ill-formed terms that are refused, worked values of the spec, and for every statement
states and operands that meet its hypotheses.
-/

namespace Sys2Proof.Tests

set_option Elab.async false

open Sys2Proof Sys2Proof.Machine

/-! ### Helpers -/

/-- The machine after reset with an instruction placed before its issuer. -/
def on (i : Instr) : State := placeWord ((encode i).getD 0) State.reset

/-- The state after an instruction. -/
def after (i : Instr) (s : State) : State := match exec i s with
  | .next t => t
  | .fault _ => s
  | .refused _ => s

/-- The state after a step. -/
def stepped (s : State) : State := match step s with
  | .next t => t
  | .fault _ => s
  | .refused _ => s

/-- An instruction placed, with a value in each lane of a V register. -/
def fill (r : Nat) (x : Word) (s : State) : State := s.setG fun g => (List.range 8).foldl (fun g l => setV r l x g) g

/-- A record of 4,096 bytes at 0x1000 with system scope in a buffer register: no cached copy serves it. -/
def record (n : Nat) (s : State) : State := s.setG (setB n 0x10000600000000001000)

/-- A value in an S register. -/
def scal (r : Nat) (x : Word) (s : State) : State := s.setG (setS r x)

/-- Every lane proceeds. -/
def goes (m : MemGo) : Bool := match m with
  | .go _ [] => true
  | _ => false

/-- A word completes: no trap is pending, and its path has moved or ended. -/
def completes (i : Instr) (s : State) : Bool :=
  let t := after i s
  t.grp.trap.isNone && decide (t.grp.stall = .none) && decide (t.grp.act ≠ s.grp.act)

/-! ### Decoding: words that the spec writes out -/

theorem test_decode_class1 : decodeWord 0x11000201 = .ok (.xrnd 0 1 0 1) ∧ decodeWord 0x11C00000 = .ok .xpart := by decide
theorem test_decode_class4_to_6 : decodeWord 0x46040506 = .ok (.sar 0 4 5 6) ∧ decodeWord 0x62080406 = .ok (.dmac 0 8 4 6)
    ∧ decodeWord 0x65030405 = .ok (.hdot2 0 3 4 5) ∧ decodeWord 0x670A0B0C = .ok (.rnd 0 10 11 12) := by decide
theorem test_decode_class7 : decodeWord 0x700005FE = .ok (.mov 0 0 5 0xFE) ∧ decodeWord 0x70010402 = .ok (.mov 0 1 4 2)
    ∧ decodeWord 0x70200101 = .ok (.fneg 0 0 1 1) ∧ decodeWord 0x71630506 = .ok (.frint 0 3 5 6) ∧ decodeWord 0x71800506 = .ok (.ffrac 0 5 6)
    ∧ decodeWord 0x71A00708 = .ok (.fclass 0 0 7 8) ∧ decodeWord 0x72200304 = .ok (.popc 0 3 4) := by decide
theorem test_decode_class8 : decodeWord 0x81018184 = .ok (.shli 0 3 3 4) ∧ decodeWord 0x840A7A7F = .ok (.movi 0 20 0x7F) := by decide
theorem test_decode_class9 : decodeWord 0x90820102 = .ok (.fsetLt 0 0 2 1 2) ∧ decodeWord 0x915201F4 = .ok (.fsetGe 0 1 2 1 0xF4)
    ∧ decodeWord 0x9281F802 = .ok (.isetLt 0 0 1 0xF8 2) ∧ decodeWord 0x94831200 = .ok (.mlog 0 3 1 2 0) ∧ decodeWord 0x94C10506 = .ok (.cmov 0 1 5 6)
    ∧ decodeWord 0x97420000 = .ok (.mact 0 2) ∧ decodeWord 0x970E2800 = .ok (.mmov 0 0 14 10) ∧ decodeWord 0x97232800 = .ok (.mmov 0 1 3 10)
    ∧ decodeWord 0x96521000 = .ok (.vote 0 1 2 1) ∧ decodeWord 0x968A0003 = .ok (.ballot 0 10 3) ∧ decodeWord 0x96CC0704 = .ok (.gred 0 12 7 4) := by
  decide
theorem test_decode_shuffles : decodeWord 0x95100708 = .ok (.shfl 0 2 7 8) ∧ decodeWord 0x95410708 = .ok (.shflXor 0 1 7 8)
    ∧ decodeWord 0x95810908 = .ok (.shflUp 0 1 9 8) ∧ decodeWord 0x95C10908 = .ok (.shflDn 0 1 9 8) ∧ decodeWord 0x96000908 = .ok (.shflIdx 0 0 9 8) := by decide
theorem test_decode_scalars : decodeWord 0xA0031050 = .ok (.sadd 0 3 4 5) ∧ decodeWord 0xA2C61BFF = .ok (.saddi 0 6 6 0x3FF) ∧ decodeWord 0xA34C0001 = .ok (.smovhi 0 12 1) := by decide
theorem test_decode_class10 : decodeWord 0xA3871052 = .ok (.sset 0 7 4 5 2) ∧ decodeWord 0xA3C8240C = .ok (.vread 0 8 9 3)
    ∧ decodeWord 0xA4062001 = .ok (.sldc 0 6 8 0 1) ∧ decodeWord 0xA444000C = .ok (.sldlit 0 4 12) ∧ decodeWord 0xA4840010 = .ok (.csrr 0 4 0x010)
    ∧ decodeWord 0xA4C30050 = .ok (.csrw 0 3 0x050) := by decide
theorem test_decode_class11_12 : decodeWord 0xB3081018 = .ok (.ldx 0 2 4 6 0) ∧ decodeWord 0xB3881418 = .ok (.stx 0 2 5 6 0)
    ∧ decodeWord 0xC00C101E = .ok (.aadd 0 3 4 7 2) ∧ decodeWord 0xC00F841E = .ok (.aadd 0 3 0xE1 7 2) ∧ decodeWord 0xC48C101E = .ok (.acas 0 3 4 7 2)
    ∧ decodeWord 0xC58FEA10 = .ok (.copy 0 3 31 20 8) ∧ decodeWord 0xC7000013 = .ok (.fence 0 2 3) ∧ decodeWord 0xC794181C = .ok (.append 0 5 6 7) := by
  decide
theorem test_decode_class13 : decodeWord 0xD1800000 = .ok (.ret 0) ∧ decodeWord 0xD1C00C2A = .ok (.jmpi 0 12 0x2A)
    ∧ decodeWord 0xD2000C2A = .ok (.calli 0 12 0x2A) ∧ decodeWord 0xD3400000 = .ok (.bar 0 0) ∧ decodeWord 0xD4880000 = .ok (.spawn 0 8)
    ∧ decodeWord 0xD3C00042 = .ok (.trap 0 0x42) ∧ decodeWord 0xD4000003 = .ok (.enter 0 3) := by decide
theorem test_decode_class15 : decodeWord 0xF2402803 = .ok (.csave 0 0 5 3) ∧ decodeWord 0xF2812803 = .ok (.cload 0 1 5 3)
    ∧ decodeWord 0xF2D40800 = .ok (.trace 0 20 8 0) ∧ decodeWord 0xF3150800 = .ok (.tracep 0 21 8 0) ∧ decodeWord 0xF3561000 = .ok (.visq 0 22 16)
    ∧ decodeWord 0xF4090C0D = .ok (.qpush 0 9 12 13) ∧ decodeWord 0xF3801403 = .ok (.pslot 0 20 3) ∧ decodeWord 0xF3C01403 = .ok (.pfree 0 20 3) := by
  decide
theorem test_decode_tiles : decodeWord 0xF48A1008 = .ok (.tfeed 0 10 16 8) ∧ decodeWord 0xF50A0000 = .ok (.trel 0 10)
    ∧ decodeWord 0xF4CC3000 = .ok (.tdrain 0 12 48 0) ∧ decodeWord 0xF54C3419 = .ok (.mma 0 12 13 1 1 0 1)
    ∧ decodeWord 0xF54C341D = .ok (.mmaPair 0 12 13 1 1 0 1) ∧ decodeWord 0xF58E3C00 = .ok (.mguid 0 14 15) ∧ decodeWord 0xF5CC0000 = .ok (.mzero 0 12)
    ∧ decodeWord 0xF60E3400 = .ok (.mcvt 0 14 13) ∧ decodeWord 0xF6540000 = .ok (.mwait 0 20) ∧ decodeWord 0xF6860000 = .ok (.ctab 0 6 0) := by decide
theorem test_decode_system : decodeWord 0xF7002000 = .ok (.tlbi 0 0 8) ∧ decodeWord 0xF7100000 = .ok (.tlbi 0 1 0) ∧ decodeWord 0xF7400000 = .ok (.hret 0)
    ∧ decodeWord 0xF7400001 = .ok (.hretEnd 0) ∧ decodeWord 0xF7800007 = .ok (.bkpt 0 7) ∧ decodeWord 0xF7C50010 = .ok (.snap 0 5 0x10) := by decide
theorem test_decode_by_the_table : decodeTableWord 32 0xF5CC0000 = some (.mzero 0 12) := by decide

/-- Reserved bits and reserved opcodes are no instruction (R54). -/
theorem test_decode_reserved : (decodeWord 0xD1800001).toOption = none ∧ (decodeWord 0xF5CC0001).toOption = none ∧ (decodeWord 0x7FFFFFFF).toOption = none := by
  decide

/-! ### Ill-formed terms: one for each check -/

theorem test_wf_xrnd : (Instr.xrnd 0 0 1 1).wf = false ∧ (Instr.xrnd 0 0 0 6).wf = false ∧ (Instr.xrnd 0 0 1 5).wf = true := by decide
theorem test_wf_moves : (Instr.mov 0 3 1 2).wf = false ∧ (Instr.fneg 0 3 1 2).wf = false ∧ (Instr.fabs 0 3 1 2).wf = false := by decide
theorem test_wf_rounding : (Instr.frint 0 5 1 2).wf = false ∧ (Instr.fclass 0 2 1 2).wf = false := by decide
theorem test_wf_masks : (Instr.mlog 0 1 2 3 6).wf = false ∧ (Instr.vote 0 2 1 2).wf = false ∧ (Instr.sset 0 1 2 3 10).wf = false := by decide
theorem test_wf_memory : (Instr.ld 0 1 2 3 3).wf = false ∧ (Instr.st 0 1 2 3 3).wf = false ∧ (Instr.ldb 0 1 2 3 2).wf = false
    ∧ (Instr.ldh 0 1 2 3 2).wf = false ∧ (Instr.ldx 0 1 2 3 2).wf = false ∧ (Instr.stx 0 1 2 3 2).wf = false := by decide
theorem test_wf_caches : (Instr.pref 0 1 2 3).wf = false ∧ (Instr.evict 0 1 2 3).wf = false := by decide
theorem test_wf_system : (Instr.fence 0 3 0).wf = false ∧ (Instr.fence 0 0 4).wf = false ∧ (Instr.lobe 0 5 0 1 2).wf = false
    ∧ (Instr.tlbi 0 2 0).wf = false := by decide

/-! ### Worked values of the spec -/

/-- R109: with `V4` = 0xF1, `POPC` gives 5, `CLZ` 24 and `BFIND` 7. -/
theorem test_unary_values : getV (after (.popc 0 3 4) (fill 4 0xF1 (on (.popc 0 3 4)))).grp 3 0 = 5
    ∧ getV (after (.clz 0 3 4) (fill 4 0xF1 (on (.clz 0 3 4)))).grp 3 7 = 24
    ∧ getV (after (.bfind 0 3 4) (fill 4 0xF1 (on (.bfind 0 3 4)))).grp 3 1 = 7 := by decide +kernel
/-- R109: 0x8000_0000 is its own absolute value. -/
theorem test_iabs_wraps : getV (after (.iabs 0 3 4) (fill 4 0x80000000 (on (.iabs 0 3 4)))).grp 3 0 = 0x80000000 := by decide +kernel
/-- R92: a sum wraps. -/
theorem test_iadd_wraps : getV (after (.iadd 0 3 4 4) (fill 4 0x80000001 (on (.iadd 0 3 4 4)))).grp 3 2 = 2 := by decide +kernel
/-- R91: 1 + 2 = 3 in FP32. -/
theorem test_fadd_value : getV (after (.fadd 0 3 4 5) (fill 5 0x40000000 (fill 4 0x3F800000 (on (.fadd 0 3 4 5))))).grp 3 0 = 0x40400000 := by
  decide +kernel
/-- R93: a shift by 32 or more leaves nothing, or the sign. -/
theorem test_wide_shifts : getV (after (.shl 0 3 4 5) (fill 5 32 (fill 4 1 (on (.shl 0 3 4 5))))).grp 3 0 = 0
    ∧ getV (after (.sar 0 3 4 5) (fill 5 40 (fill 4 0x80000000 (on (.sar 0 3 4 5))))).grp 3 0 = 0xFFFFFFFF := by decide +kernel
/-- R110: `MOVI` extends its sign. -/
theorem test_movi_sign : getV (after (.movi 0 20 0x7F) (on (.movi 0 20 0x7F))).grp 20 3 = 0xFFFFFFFF := by decide +kernel
/-- R46: an `XIMM` of 3 before an IMM7 of 0x2D is 0x1AD. -/
theorem test_ximm_value : getV (after (.movi 0 20 0x2D) ((on (.movi 0 20 0x2D)).setPos fun p => { p with hints := { imm := some 3 } })).grp 20 0 = 0x1AD := by
  decide +kernel
/-- R37: a lane that is not active keeps its destination. -/
theorem test_inactive_lane_keeps : getV (after (.movi 0 20 1) ((fill 20 9 (on (.movi 0 20 1))).setG fun g => { g with act := g.act.map fun e => { e with mask := 0xFE } })).grp 20 0 = 9 := by
  decide +kernel
/-- R279: `SADD` takes S registers; R278: it runs on the handler's issuer too. -/
theorem test_sadd_value : getS (after (.sadd 0 7 8 9) (scal 9 5 (scal 8 0xFFFFFFFF (on (.sadd 0 7 8 9))))).grp 7 = 4 := by decide +kernel

/-! ### Every word completes at some state -/

/-- The vector words. -/
theorem test_complete_floats : ([.fadd 0 1 2 3, .fsub 0 1 2 3, .fmul 0 1 2 3, .fmac 0 1 2 3, .fmsb 0 1 2 3, .fmin 0 1 2 3, .fmax 0 1 2 3, .fcps 0 1 2 3,
    .hadd2 0 1 2 3, .hmul2 0 1 2 3, .hmac2 0 1 2 3, .badd2 0 1 2 3, .bmul2 0 1 2 3, .bmac2 0 1 2 3, .hdot2 0 1 2 3, .dadd 0 4 6 8, .dmul 0 4 6 8,
    .dmac 0 4 6 8] : List Instr).all (fun i => completes i (on i)) = true := by decide +kernel
theorem test_complete_integers : ([.iadd 0 1 2 3, .isub 0 1 2 3, .imul 0 1 2 3, .imulh 0 1 2 3, .umulh 0 1 2 3, .imac 0 1 2 3, .imin 0 1 2 3, .imax 0 1 2 3,
    .and 0 1 2 3, .or 0 1 2 3, .xor 0 1 2 3, .andn 0 1 2 3, .shl 0 1 2 3, .shr 0 1 2 3, .sar 0 1 2 3, .rot 0 1 2 3, .umin 0 1 2 3, .umax 0 1 2 3,
    .dot4 0 1 2 3, .dot8 0 1 2 3, .prmt 0 1 2 3, .rnd 0 1 2 3] : List Instr).all (fun i => completes i (on i)) = true := by decide +kernel
theorem test_complete_unary : ([.mov 0 0 1 2, .mov 0 1 4 2, .mov 0 2 4 8, .fneg 0 0 1 2, .fneg 0 1 4 2, .fneg 0 2 1 2, .fabs 0 0 1 2, .fabs 0 1 4 2,
    .fabs 0 2 1 2, .frint 0 4 1 2, .ffrac 0 1 2, .fclass 0 0 1 2, .fclass 0 1 1 2, .cvt 0 0 1 2, .qnt 0 0 0 1 2, .dqnt 0 1 0 1 2, .popc 0 1 2, .clz 0 1 2,
    .brev 0 1 2, .bfind 0 1 2, .ineg 0 1 2, .iabs 0 1 2] : List Instr).all (fun i => completes i (on i)) = true := by decide +kernel
theorem test_complete_specials : ([.frcp 0 1 2, .frsq 0 1 2, .fsqrt 0 1 2, .fexp2 0 1 2, .flog2 0 1 2, .fsinp 0 1 2, .fcosp 0 1 2, .ftanh 0 1 2,
    .dsqrt 0 4 2, .drcp 0 4 2] : List Instr).all (fun i => completes i (on i)) = true := by decide +kernel
theorem test_complete_immediates : ([.iaddi 0 1 2 3, .imuli 0 1 2 3, .shli 0 1 2 3, .shri 0 1 2 3, .sari 0 1 2 3, .andi 0 1 2 3, .ori 0 1 2 3, .xori 0 1 2 3,
    .movi 0 1 3] : List Instr).all (fun i => completes i (on i)) = true := by decide +kernel
theorem test_complete_masks : ([.fsetEq 0 0 1 2 3, .fsetNe 0 1 1 2 3, .fsetLt 0 2 1 2 3, .fsetLe 0 3 1 2 3, .fsetGt 0 0 1 2 3, .fsetGe 0 0 1 2 3,
    .fsetUn 0 0 1 2 3, .fsetOr 0 0 1 2 3, .isetEq 0 0 1 2 3, .isetNe 0 0 1 2 3, .isetLt 0 0 1 2 3, .isetLe 0 0 1 2 3, .isetGt 0 0 1 2 3, .isetGe 0 0 1 2 3,
    .usetLt 0 0 1 2 3, .usetLe 0 0 1 2 3, .usetGt 0 0 1 2 3, .usetGe 0 0 1 2 3, .mlog 0 1 2 3 5, .cmov 0 1 2 3, .mact 0 2, .mmov 0 0 14 10, .mmov 0 1 3 10,
    .shfl 0 0 1 2, .shflXor 0 1 3 2, .shflUp 0 1 3 2, .shflDn 0 1 3 2, .shflIdx 0 1 3 2, .vote 0 0 1 2, .vote 0 1 1 2, .ballot 0 10 3,
    .gred 0 12 7 4] : List Instr).all (fun i => completes i (on i)) = true := by decide +kernel
theorem test_complete_scalars : ([.sadd 0 7 8 9, .ssub 0 7 8 9, .smul 0 7 8 9, .sand 0 7 8 9, .sor 0 7 8 9, .sxor 0 7 8 9, .sshl 0 7 8 9, .sshr 0 7 8 9,
    .ssar 0 7 8 9, .smin 0 7 8 9, .smax 0 7 8 9, .saddi 0 7 8 9, .smovi 0 7 9, .smovhi 0 7 9, .sset 0 7 8 9 9, .vread 0 8 9 3, .csrr 0 4 0x000,
    .csrw 0 3 0x050] : List Instr).all (fun i => completes i (on i)) = true := by decide +kernel
theorem test_complete_control : ([.nop, .ximm 1, .ximmf 1, .xscl 1, .xrnd 0 0 0 1, .xevc 1, .xscp 1, .xpart, .lpad 0 1, .split 0 1, .drop 0 1, .join 0 1,
    .exit 0, .yield 0, .chwait 0, .enter 0 3, .leave 0, .fence 0 0 1, .fence 0 1 2, .sealBatch 0 5, .waitb 0 5, .snap 0 5 1, .bra 0 0, .brm 0 1 0,
    .brmn 0 1 0, .brs 0 6 0, .brsz 0 6 0, .call 0 0, .clauseHeader 0 0 0 1 0, .pool 1, .bset 0 2 8] : List Instr).all
    (fun i => completes i (on i)) = true := by decide +kernel

/-- One lane alone issues. -/
def lone (s : State) : State := s.setG fun g => { g with act := g.act.map fun e => { e with mask := 1 } }

theorem test_complete_loads : ([.ld 0 2 4 6 0, .ldb 0 2 4 6 1, .ldh 0 2 4 6 0, .ldx 0 2 4 6 0, .bload 0 3 2 6, .sldc 0 6 8 2 0] : List Instr).all
    (fun i => completes i (lone (record 2 (on i)))) = true := by decide +kernel
theorem test_complete_stores : ([.st 0 2 4 6 2, .stb 0 2 4 6, .sth 0 2 4 6, .stx 0 2 4 6 0, .pref 0 2 6 1, .evict 0 2 6 1] : List Instr).all
    (fun i => completes i (record 2 (on i))) = true := by decide +kernel
theorem test_complete_atomics : ([.aadd 0 2 4 7 3, .amin 0 2 4 7 3, .amax 0 2 4 7 3, .aumin 0 2 4 7 3, .aumax 0 2 4 7 3, .aand 0 2 4 7 3, .aor 0 2 4 7 3,
    .axor 0 2 4 7 3, .axchg 0 2 4 7 3, .acas 0 2 4 7 3, .afadd 0 2 4 7 3] : List Instr).all (fun i => completes i (record 2 (on i))) = true := by
  decide +kernel
theorem test_complete_copies : ([.copy 0 2 2 20 8, .append 0 5 6 7, .sldlit 0 4 1] : List Instr).all
    (fun i => completes i (record 2 (scal 10 16 (on i)))) = true := by decide +kernel
theorem test_complete_closures : ([.cclr 0 0, .lobe 0 0 0 8 20, .lmix 0 0 1 20, .layer 0 0 1 20, .lscl 0 0 20, .frame 0 0 8, .samp 0 0 8 20, .eval 0 0 8 20,
    .pdf 0 0 8 20, .csave 0 0 2 6] : List Instr).all (fun i => completes i (record 2 (record 26 (on i)))) = true := by decide +kernel

/-- Records of `VISQ`: four elements of 48 bytes, and 2,048 words for its output. -/
def visible (s : State) : State := s.setG fun g => setB 28 (4096 + 2048 * 2 ^ 64 + 4 * 2 ^ 96) (setB 27 (4096 + 4 * 2 ^ 64 + 48 * 2 ^ 96) g)

theorem test_complete_rays : ([.trace 0 20 8 16, .tracep 0 21 8 16, .visq 0 22 16] : List Instr).all (fun i => completes i (visible (on i))) = true := by
  decide +kernel

/-- A landing pad with tag 0x2A as the first word of the clause at offset 0. -/
def padded (s : State) : State := setHomeBytes 0x104 (toBytes 4 (((encode (.lpad 0 0x2A)).getD 0).toNat)) s

theorem test_complete_transfers : ([.jmpi 0 12 0x2A, .calli 0 12 0x2A, .ret 0, .bar 0 0] : List Instr).all (fun i => completes i (padded (on i))) = true := by
  decide +kernel

/-- A program queue of context 1 with room, a pool, and a workgroup whose leader issues. -/
def queued (s : State) : State :=
  { s with
    queues := [{ num := 3, ctx := 1, device := true, capacity := 64 }]
    ctxs := s.ctxs.map fun c => { c with pools := [{ id := 3, cap := 64, taken := [0] }] } }

theorem test_complete_queues : ([.qpush 0 9 12 13, .pslot 0 20 3, .pfree 0 20 3] : List Instr).all
    (fun i => completes i (lone (queued (scal 9 3 (on i))))) = true := by decide +kernel
theorem test_complete_regrp : (after (.regrp 0 0 12) (on (.regrp 0 0 12))).grp.live = 0
    ∧ (after (.regrp 0 0 12) (on (.regrp 0 0 12))).grids.map (fun g => g.bins.length) = [1] := by decide +kernel
theorem test_complete_spawn : (after (.spawn 0 8) (lone (on (.spawn 0 8)))).grp.spawn = some (0, none)
    ∧ (after (.spawn 0 8) (lone (on (.spawn 0 8)))).grp.stall = .spawn := by decide +kernel
theorem test_complete_tiles : ([.tfeed 0 10 16 8, .trel 0 10, .tdrain 0 12 48 0] : List Instr).all (fun i => completes i (on i)) = true := by decide +kernel
theorem test_complete_bobbin : ([.mma 0 12 13 0 0 0 0, .mzero 0 12, .mcvt 0 14 13, .mwait 0 20] : List Instr).all
    (fun i => completes i (scal 14 0 (on i))) = true := by decide +kernel
/-- The words of a paired launch: side U goes on alone when its partner is gone. -/
def paired (s : State) : State :=
  { s with
    grids := s.grids.map fun g => { g with launch := { g.launch with pair := true } }
    wgs := s.wgs.map fun w => { w with side := 1 } }

theorem test_complete_pairs : completes (.mmaPair 0 12 13 0 0 0 0) (scal 12 0x10000 (paired (on (.mmaPair 0 12 13 0 0 0 0)))) = true
    ∧ completes (.mguid 0 12 13) (paired (on (.mguid 0 12 13))) = true := by decide +kernel

/-- A companding table of sixteen steps of 1 in memory, one word in each line from 0x1000 on, reached through `B0`. -/
def tabled (s : State) : State :=
  let bases : List Nat := [0, 0x4800, 0x4C00, 0x4E00, 0x5000, 0x5100, 0x5200, 0x5300, 0x5400, 0x5480, 0x5500, 0x5580, 0x5600, 0x5680, 0x5700, 0x5780]
  (List.range 16).foldl (fun s i => setHomeBytes (0x1000 + 128 * i) (toBytes 4 (0x3C000000 + bases.getD i 0)) s)
    (s.setG (setB 0 (4096 + 3 * 2 ^ 57 + 16 * 2 ^ 64 + 128 * 2 ^ 96)))

theorem test_ctab_valid : cpValid (tabWords 3 ((List.range 16).map fun i => accOf (bufOf (tabled (on (.ctab 0 12 0))) 0 0) 4 (128 * i : Nat) 0 0)
    (tabled (on (.ctab 0 12 0)))).1 = true := by decide +kernel
theorem test_complete_ctab : completes (.ctab 0 12 0) (tabled (on (.ctab 0 12 0))) = true := by decide +kernel
theorem test_complete_system : ([.tlbw 0 12, .tlbi 0 1 0] : List Instr).all (fun i => completes i (on i)) = true := by decide +kernel
theorem test_hret_ends_the_routine : (allGroups (after (.hret 0) (on (.hret 0)))).all (fun g => decide (g.kind ≠ .handler)) = true := by decide +kernel
theorem test_hret_end_ends_the_context : (after (.hretEnd 0) (on (.hretEnd 0))).ctxs = [] ∧ (after (.hretEnd 0) (on (.hretEnd 0))).pockets.length = 1 := by
  decide +kernel
theorem test_trap_is_taken : ((after (.trap 0 0x42) (on (.trap 0 0x42))).grp.trap.map fun r => trapWord r 0) = some 0x00420015 := by decide +kernel
theorem test_bkpt_is_taken : ((after (.bkpt 0 7) (on (.bkpt 0 7))).grp.trap.map fun r => trapWord r 0) = some 0x00070013 := by decide +kernel
theorem test_trap_without_handler : let s := { on (.trap 0 1) with ctxs := [{ id := 1, resident := true }] }
    (after (.trap 0 1) s).ctxs = [] ∧ (after (.trap 0 1) s).pockets.map (fun p => p.ctx) = [1] := by decide +kernel

/-! ### States that meet the hypotheses of the statements -/

/-- R22 to R31: every check passes, so the `ready` of the word statements is met by a state of each kind of issuer. -/
theorem test_ready_vector : check (vecNeed (on (.fadd 0 1 2 3)) 1 1 [(2, 1), (3, 1)] true false false [] false) (on (.fadd 0 1 2 3)) = .run := by decide
theorem test_ready_special : check (vecNeed (on (.frcp 0 1 2)) 1 1 [(2, 1)] (modeZero (on (.frcp 0 1 2))) false false [10] true) (on (.frcp 0 1 2)) = .run
    ∧ active (on (.frcp 0 1 2)) ≠ 0 := by decide
theorem test_ready_scalar_on_bobbin : check (bobbinNeed [12] [4]) (on (.mzero 0 12)) = .run ∧ (on (.mzero 0 12)).grp.kind = .bobbin := by decide
theorem test_ready_privileged : check (privNeed [3]) (on (.hret 0)) = .run ∧ (on (.hret 0)).grp.kind = .handler := by decide
theorem test_collective_full : maskIsFull (on (.vote 0 0 1 2)) = true ∧ check (laneNeed (on (.vote 0 0 1 2)) none [] [] true false) (on (.vote 0 0 1 2)) = .run := by
  decide
theorem test_collective_partial : maskIsFull (lone (on (.vote 0 0 1 2))) = false
    ∧ check (laneNeed (lone (on (.vote 0 0 1 2))) none [] [] true false) (lone (on (.vote 0 0 1 2))) = .run := by decide
theorem test_mmov_directions : check (laneNeed (on (.mmov 0 0 14 10)) none [] [10, 11] false false) (on (.mmov 0 0 14 10)) = .run
    ∧ check (laneNeed (on (.mmov 0 1 14 10)) none [] [10, 11] false false) (on (.mmov 0 1 14 10)) = .run := by decide
theorem test_csr_kinds : isHandlerCsr 0x010 = false ∧ isHandlerCsr 0x101 = true ∧ isHandlerCsr 0x050 = false := by decide

/-- A handler that serves issuer 9, which a trap has stopped. -/
def handling (s : State) : State :=
  let r : TrapRec := { cause := 2, code := 0, bobbin := false, tpc := 8, topc := 8, titer := 0, mask := 1, addr := 0, info := 0, core := 0, slot := 0 }
  { s with
    grp := { s.grp with serves := 9, trap := some r }
    groups := [{ uid := 9, ctx := 1, width := 8, exist := 0xFF, live := 0xFF, stop := .trapped, trap := some r, code := placeCode,
                 frontier := [{ pc := 8, mask := 0xFF }] }] }

theorem test_handler_reads_its_csr : handlerRead (handling (on (.hret 0))).grp (served (handling (on (.hret 0)))) 0x102 ≠ none
    ∧ check (csrNeed (handling (on (.hret 0))) 4 0x102 false) (handling (on (.hret 0))) = .run
    ∧ (handling (on (.hret 0))).grp.serves ≠ (handling (on (.hret 0))).grp.uid := by decide
theorem test_hret_resumes : ((findGroup 9 (after (.hret 0) (handling (on (.hret 0))))).map fun g => (g.stop, g.trap)) = some (.running, none) := by decide +kernel
theorem test_header_waits : let s := on (.clauseHeader 1 0 1 1 0)
    (s.grp.act.map fun e => e.pos) = some none ∧ quiet s = true
    ∧ (after (.clauseHeader 1 0 1 1 0) (s.setG fun g => { g with f := [(0, 1)] })).grp.stall = .flag := by decide
theorem test_header_illegal : ((after (.clauseHeader 0 12 1 1 0) (on (.clauseHeader 0 12 1 1 0))).grp.trap.map fun r => r.cause) = some 1
    ∧ ((after (.clauseHeader 0 0 1 0 0) (on (.clauseHeader 0 0 1 0 0))).grp.trap.map fun r => r.cause) = some 1 := by decide
theorem test_hint_has_a_target : ((on (.ximm 3)).grp.act.bind fun e => e.pos.map fun p => decide (p.issued + 1 < p.len)) = some true := by decide
theorem test_hint_without_target : ((after .xpart ((on .xpart).setPos fun p => { p with len := 1 })).grp.trap.map fun r => r.cause) = some 5 := by decide
theorem test_checks_have_a_position : (curPos (on (.fadd 0 1 2 3))).isSome = true := by decide
theorem test_trap_hypotheses : let s := on (.fadd 0 1 2 3)
    s.grp.act ≠ none ∧ s.grp.kind = .vector ∧ ((findCtx s.grp.ctx s).map fun c => (c.handlerVa.isSome, c.attached)) = some (true, false)
    ∧ specLanes 0xFF s = 0 := by decide
theorem test_last_word_of_clause : ((on (.fadd 0 1 2 3)).grp.act.bind fun e => e.pos.map fun p => decide (p.len ≤ p.issued + 1)) = some true
    ∧ quiet (on (.fadd 0 1 2 3)) = true := by decide

/-! ### Memory -/

def access (i : Instr) : MemGo := memCheck (record 2 (on i)) (wordAccess (record 2 (on i)) 2 6 4 0 false none [0]) (lanes (active (record 2 (on i))))

theorem test_loads_proceed : check (memNeed (record 2 (on (.ld 0 2 4 6 0))) (some (4, 1)) 6 true) (record 2 (on (.ld 0 2 4 6 0))) = .run
    ∧ goes (access (.ld 0 2 4 6 0)) = true ∧ anySpec (record 2 (on (.ld 0 2 4 6 0))) = false := by decide
theorem test_stores_proceed : let s := record 2 (on (.st 0 2 4 6 0))
    check (memNeed s (some (4, 1)) 6 false) s = .run ∧ goes (memCheck s (wordAccess s 2 6 4 1 true none [1]) (lanes (active s))) = true := by decide
theorem test_exclusives_proceed : let s := record 2 (on (.stx 0 2 4 6 0))
    goes (memCheck s (wordAccess s 2 6 4 1 true (exclusiveDet s 2) [1]) (lanes (active s))) = true := by decide
theorem test_atomics_proceed : let s := record 2 (on (.acas 0 2 4 7 0))
    goes (memCheck s (wordAccess s 2 7 4 1 true (atomicDet s .cas 2 true 0) [1]) (lanes (active s))) = true ∧ check (atomicNeed s 4 7) s = .run := by
  decide
theorem test_scratch_proceeds : let s := on (.st 0 31 4 6 0)
    placeOf s.grp 31 = .scratch ∧ (findWg 2 s).isSome = true := by decide
theorem test_out_of_bounds : ((after (.ld 0 3 4 6 0) (on (.ld 0 3 4 6 0))).grp.trap.map fun r => r.cause) = some 0xA := by decide +kernel
theorem test_misaligned : ((after (.ld 0 2 4 6 0) (fill 6 2 (record 2 (on (.ld 0 2 4 6 0))))).grp.trap.map fun r => r.cause) = some 0xD := by decide +kernel
theorem test_read_only : let s := (on (.st 0 2 4 6 0)).setG (setB 2 (0x10000000000000001000 + 2 ^ 63))
    ((after (.st 0 2 4 6 0) s).grp.trap.map fun r => r.cause) = some 0xC := by decide +kernel
theorem test_own_store_hypotheses : specTask (on (.ld 0 2 4 6 0)) 1 0 = none ∧ (on (.ld 0 2 4 6 0)).caches = [] ∧ 0x1000 % 128 + 4 ≤ 128 := by decide
theorem test_bload_refuses : (recOfBits (1 <<< 120)).invalid = true ∧ (recOfBits 0).invalid = false := by decide
theorem test_constant_beyond : ((after (.sldlit 0 4 0x7FFF) (on (.sldlit 0 4 0x7FFF))).grp.trap.map fun r => r.cause) = some 0xA := by decide +kernel
theorem test_append_slots : claimSlots (fun l => BitVec.ofNat 32 (l + 1)) [0, 1, 2] 5 = ([(0, 5), (1, 6), (2, 8)], 11) := by decide
theorem test_copy_hypotheses : let s := record 2 (scal 10 16 (on (.copy 0 2 2 20 8)))
    copyTrap s 2 2 0 0 16 = none ∧ anySpec s = false ∧ active s ≠ 0 ∧ batchesDone s.grp 0 = true := by decide
theorem test_copy_traps : copyTrap (on (.copy 0 2 2 20 8)) 2 2 0 0 16 ≠ none := by decide
theorem test_waitb_waits : batchesDone { on (.waitb 0 5) |>.grp with sealed := 1, tokens := [{ sreg := 3, work := .copy 0 0 false false 0 0 1 0 0 1 }] } 1 = false := by
  decide
theorem test_release_waits : releaseDone { uid := 1, gwct := [(0, 5)] } 1 5 = false ∧ releaseDone { uid := 1, gwct := [(0, 5)] } 1 6 = true := by decide

/-! ### Control flow -/

theorem test_branch_hypotheses : waitDirect (on (.bra 0 0)) 0 = none ∧ badDirect (on (.bra 0 0)) 0 = none
    ∧ check { scalarNeed [] true with last := true } (on (.bra 0 0)) = .run ∧ directTarget (on (.bra 0 0)) 0 = some 8 := by decide
theorem test_branch_beyond : (badDirect (on (.bra 0 100)) 400).isSome = true := by decide
theorem test_call_hypotheses : check { hints := { imm := true }, operandBad := false, regs := [.k 7], last := true } (on (.call 0 0)) = .run := by decide
theorem test_jump_hypotheses : let s := padded (on (.jmpi 0 12 0x2A))
    waitTargets s (fun l => (src s 12 l).toNat) (lanes (active s)) = none ∧ badPad s 0x2A (fun l => (src s 12 l).toNat) (lanes (active s)) = none
    ∧ srcOk s false 1 12 = true := by decide
theorem test_jump_bad_tag : (badPad (padded (on (.jmpi 0 12 0x2B))) 0x2B (fun _ => 0) [0]).isSome = true := by decide
theorem test_join_hypotheses : (getJ (on (.join 0 1)).grp 1).cont = none ∧ check { last := true } (on (.join 0 1)) = .run := by decide
theorem test_join_pending_traps : ((after (.join 0 1) ((on (.join 0 1)).setG (setJ 1 { mask := 1, cont := some 64 }))).grp.trap.map fun r => (r.cause, r.info))
    = some (2, 1) := by decide +kernel
theorem test_join_completes : let g : Group := { uid := 1, live := 3, frontier := [{ pc := 64, mask := 3 }], j := [(1, { mask := 3, cont := some 64 })] }
    getJ (joinStep 1 g) 1 = {} ∧ joinStep 1 { g with frontier := [] } = { g with frontier := [] } := by decide
theorem test_barrier_completes : let s := on (.bar 0 0)
    (after (.bar 0 0) s).grp.frontier.map (fun e => e.wait) = [.none] := by decide +kernel
theorem test_barrier_waits : let s := (on (.bar 0 0)).setG fun g => { g with act := g.act.map fun e => { e with mask := 1 }, frontier := [{ pc := 64, mask := 0xFE }] }
    ((after (.bar 0 0) s).grp.frontier.map fun e => decide (e.wait = .none)) = [true, false]
    ∨ ((after (.bar 0 0) s).grp.frontier.map fun e => decide (e.wait = .none)) = [false, true] := by decide +kernel
theorem test_exit_on_bobbin : let s := { on (.mzero 0 12) with wgs := [{ uid := 2, grid := 3, ctx := 1 }] }
    check { bob := true, walk := false, hand := false, last := true } s = .run ∧ s.grp.kind = .bobbin ∧ quiet s = true := by decide
/-- A thread of side U that waits at its rendezvous while side C is about to end. -/
def parted : State :=
  let s := on (.mzero 0 12)
  { s with
    wgs := [{ uid := 2, grid := 3, ctx := 1, partner := 5 }, { uid := 5, grid := 3, ctx := 1, side := 1, partner := 2, naccs := 4, ntiles := 8 }]
    grids := s.grids.map fun g => { g with launch := { g.launch with pair := true } }
    groups := [{ uid := 9, kind := .bobbin, ctx := 1, wg := 5, exist := 1, live := 1, stall := .pair, act := some { pc := 4, mask := 1, pos := placePos 0 }
                 rendezvous := some (22 * 2 ^ 22 + 12 * 2 ^ 16 + 13 * 2 ^ 10, 0x10000, 0) }] }

/-- R143: the word that waits at its rendezvous forms its entry at the `EXIT` of the other side. -/
theorem test_exit_lets_the_partner_go : (waitingPartner parted).isSome = true
    ∧ ((after (.exit 0) parted).pattern.map fun e => (e.hasC, e.hasU)) = [(false, true)] := by decide +kernel
theorem test_spawn_hypotheses : isLeader (lone (on (.spawn 0 8))) = true ∧ isLeader (on (.spawn 0 8)) = false
    ∧ check { vectorNeed [.s 8, .s 9] false with feats := [12] } (on (.spawn 0 8)) = .run := by decide
theorem test_spawn_depth : ((after (.spawn 0 8) { lone (on (.spawn 0 8)) with grids := [{ uid := 3, ctx := 1, depth := 10 }] }).grp.trap.map fun r => r.cause)
    = some 0x12 := by decide +kernel
theorem test_no_active_lane : active ((on (.enter 0 3)).setG fun g => { g with act := g.act.map fun e => { e with mask := 0 } }) = 0 := by decide
theorem test_region_stack : (after (.enter 0 3) (on (.enter 0 3))).grp.regions = [3] ∧ (ctxOf (on (.enter 0 3))).attached = false := by decide

/-! ### A device that runs, for the front end, the events and the commands -/

/-- The started device with a host link and context 1, whose page 0 is present for every access. -/
def up : State :=
  { started := true, ide := true, time := 10000
    ctxs := [{ id := 1, resident := true, windows := 1024, walkerVa := 4096, handlerVa := some 4096 }]
    tlb := [{ core := 0, ctx := 1, va := 0, size := 0, pa := 0, perm := 15 }] }

/-- Context 1 of a state. -/
def one (s : State) : Context := (findCtx 1 s).getD {}

/-- The state after an instruction that no issuer decodes. -/
def ev (i : Instr) (s : State) : State := after i s

/-- A host queue of context 1 with its record ring at 0x2000. -/
def withQueue (q : Queue) : State := { up with queues := [q] }
def ring1 : Queue := { num := 5, ctx := 1, device := false, base := 0x2000, n := 4, tailAddr := 0x8000, headAddr := 0x8040 }

theorem test_tail_seen : let s := withQueue ring1
    linkUp s = true ∧ ring1.head ≤ 4 ∧ 4 ≤ ring1.head + ring1.n ∧ (findQueue 5 (ev (.hostTailWrite 5 4) s)).map (fun q => (q.tail, q.stopped)) = some (4, false) := by
  decide +kernel
theorem test_tail_out_of_range : (findQueue 5 (ev (.hostTailWrite 5 5) (withQueue ring1))).map (fun q => (q.tail, q.stopped)) = some (5, true) := by
  decide +kernel
theorem test_tail_without_link : linkUp { withQueue ring1 with ide := false } = false ∧ (withQueue { ring1 with stopped := true }).queues.length = 1 := by decide

/-- A launch record: code at 0x1000, one workgroup of `n` lanes, its completion record at 0x3000. -/
def launchRecord (n : Nat) : List Byte :=
  toBytes 8 0x1000 ++ toBytes 4 1 ++ toBytes 4 1 ++ toBytes 4 1 ++ toBytes 2 n ++ toBytes 2 1 ++ toBytes 2 1 ++ List.replicate 30 0 ++ toBytes 8 0x3000
    ++ List.replicate 64 0

/-- A code object of one word, a clause header, at 0x1000. -/
def codeObject (s : State) : State :=
  setHomeBytes 0x1100 (toBytes 4 0x00007FB8) (setHomeBytes 0x10D8 (toBytes 4 1 ++ List.replicate 4 0 ++ toBytes 4 1)
    (setHomeBytes 0x1000 (toBytes 4 0x4D485231 ++ toBytes 4 0 ++ toBytes 4 1 ++ List.replicate 12 0 ++ toBytes 4 1 ++ toBytes 4 0x100 ++ toBytes 4 0
      ++ toBytes 4 8 ++ toBytes 4 0 ++ toBytes 2 0x0100) s))

theorem test_launch_is_good : (match checkLaunch (codeObject up) (one up) (launchRecord 8) with
    | .good l c => decide (l.threads = 8 ∧ c.size = 1 ∧ c.ventry = 0x100)
    | _ => false) = true := by decide +kernel
theorem test_launch_fails : checkLaunch (codeObject up) (one up) (launchRecord 0) = .fail 0x10 ∧ checkLaunch up (one up) (launchRecord 8) = .fail 0x11
    ∧ (failLaunch (one up) 0x3000 0x10 up).isSome = true := by decide +kernel
theorem test_launch_is_admitted : let s := { codeObject up with queues := [{ ring1 with copied := some (launchRecord 8) }] }
    (ev (.launchAdmit false 5) s).gridCount = 1 ∧ (ev (.launchAdmit false 5) s).grids.map (fun g => (g.gridId, g.ctx, g.depth)) = [(1, 1, 0)] := by
  decide +kernel
theorem test_launch_needs_its_context : (servedCtx up 1).isSome = true ∧ servedCtx up 2 = none := by decide

/-- A grid whose Tailor run is due. -/
def grid7 : Grid := { uid := 7, ctx := 1, launch := { gx := 2, wx := 8, tailor := true }, code := { va := 0x1000, size := 1, ventry := 0x100 }, tailorDue := true
                      ranges := [(0, 0, 2)] }
theorem test_tailor_runs : let s := { codeObject up with grids := [grid7] }
    (findGrid 7 s).map (fun g => g.tailorDue) = some true ∧ (servedCtx s 1).isSome = true
    ∧ (match readWords s (one s) grid7.code 1 0 with
      | .ok ws => decide (ws = [some 0x00007FB8])
      | .error _ => false) = true := by decide +kernel
theorem test_tailor_code_too_long : let s := { up with grids := [{ grid7 with code := { grid7.code with size := 16385 } }] }
    (findGrid 7 (ev (.tailorRun 7) s)).map (fun g => (g.tailorDue, g.code.residual.isSome)) = some (false, false) := by decide +kernel

/-! ### Placement -/

/-- A grid of two workgroups of eight threads, ready to be placed on die 0. -/
def ready7 : Grid := { grid7 with launch := { gx := 2, wx := 8 }, tailorDue := false }
def placing (g : Grid) : State := { up with grids := [g] }

theorem test_place_ordinary : let s := placing ready7
    placeable s ready7 = true ∧ (partDies s (one s)).contains 0 = true ∧ coopBlocks s ready7 = false ∧ outranked s ready7 0 = false
    ∧ takeGid ready7 0 = some (0, [(0, 1, 2)]) ∧ (roomFor s ready7 ready7.launch.groups 0).isSome = true
    ∧ ready7.winCount = 8 ∧ winsOk (one s) [0, 1, 2, 3, 4, 5, 6, 7] 8 = true := by decide +kernel
theorem test_placed_groups_start : let t := ev (.workgroupPlace 7 0 0 0 [0, 1, 2, 3, 4, 5, 6, 7]) (placing ready7)
    (t.wgs.map fun w => (w.gid, w.x, w.y, w.z), (allGroups t).filter (fun g => decide (g.ctx = 1)) |>.map fun g => (g.live, getS g 5)) = ([(0, 0, 0, 0)], [(0xFF, 2)]) := by
  decide +kernel
theorem test_place_other_die : placeable (placing grid7) grid7 = false ∧ ¬(384 / 48 = 0) := by decide
theorem test_place_formed : let g := { ready7 with waiting := [{ gid := 0, gen := 1, start := some 64, vals := [3, 4] }] }
    placeable (placing g) g = true ∧ coopBlocks (placing g) g = false ∧ outranked (placing g) g 0 = false := by decide +kernel
theorem test_place_cooperative : let g := { ready7 with launch := { ready7.launch with coop := true } }
    placeable (placing g) g = true ∧ allPlaced g = false ∧ coopBlocks (placing g) g = false ∧ outranked (placing g) g 0 = false := by decide +kernel
theorem test_reserve : let g := { ready7 with launch := { ready7.launch with queued := true, queue := 3 }, ranges := [] }
    placeable (placing g) g = true ∧ g.reserve = [] ∧ coopBlocks (placing g) g = false ∧ outranked (placing g) g 0 = false := by decide +kernel
theorem test_bin_timeout : let g := { ready7 with bins := [{ target := 2, entries := [{ val := 9, time := 100, gen := 0, gid := 0, round := 0, gidx := 0, lane := 0, id := 1, side := 0 }] }] }
    (one (placing g)).det = false ∧ ((ev (.groupFormTimeout true 7 2) (placing g)).grids.map fun h => h.waiting.length) = [1] := by decide +kernel
theorem test_queue_timeout : let g := { ready7 with launch := { ready7.launch with queued := true, queue := 3 }, ranges := [] }
    let s := { placing g with queues := [{ num := 3, ctx := 1, device := true, capacity := 64, bound := some 7, entries := [{ payload := 5, ts := 0, time := 8000 }] }] }
    8000 + 2000 ≤ s.time ∧ ((ev (.groupFormTimeout false 7 3) s).grids.map fun h => h.waiting.length) = [1] := by decide +kernel

/-! ### What completes by itself -/

/-- An issuer of context 1 on core 0 that does not issue. -/
def other : Group := { uid := 9, ctx := 1, wg := 2, width := 8, exist := 0xFF, live := 0xFF, frontier := [{ pc := 64, mask := 0xFF }] }
def beside (g : Group) : State := { up with groups := [g], wgs := [{ uid := 2, grid := 3, ctx := 1 }], grids := [{ uid := 3, ctx := 1 }] }

theorem test_operation_completes : let g := { other with f := [(4, 1)], ops := [{ flag := 4, writes := [{ reg := .v 3, lane := 0, val := 7 }] }] }
    ((findGroup 9 (ev (.varLatencyComplete 9 0) (beside g))).map fun h => (h.ops.length, getF h 4, getV h 3 0)) = some (0, 0, 7) := by decide +kernel
theorem test_walk_completes : let g := { other with tokens := [{ sreg := 20, work := .ray false 16 [] 0 }] }
    (liveToken (beside g) 9 0).isSome = true ∧ (match walkAll (beside g) g false (recOfBits 0) [] with
      | .ok rs => decide (rs = [])
      | .error _ => false) = true := by decide
theorem test_tile_resolve_completes : let g := { other with tokens := [{ sreg := 20, work := .visq 0 0 0 0 0 0 0 0 }] }
    ((liveToken (beside g) 9 0).map fun p => p.2.sreg) = some 20 ∧ ((findGroup 9 (ev (.visqComplete 9 0) (beside g))).map fun h => h.tokens.length) = some 0 := by
  decide +kernel
theorem test_copy_completes : let b := 4096 + 64 * 2 ^ 64 + 4 * 2 ^ 96
    let g := { other with tokens := [{ sreg := 20, work := .copy b b false false 0 4 4 2 0 1 }] }
    (liveToken (beside g) 9 0).isSome = true ∧ ((findGroup 9 (ev (.copyComplete 9 0) (beside g))).map fun h => (h.tokens.length, getS h 20)) = some (0, 4) := by
  decide +kernel

/-- A pattern-table entry of the workgroup. -/
def entry1 : PEntry := { id := 30, kind := .mzero, cluster := 0, pair := false, wgC := 2, wgU := 0, hasC := true, hasU := false, seqC := 0, seqU := 0, sel := 0, val := 0 }
theorem test_entry_issues : let s := { beside other with pattern := [entry1] }
    oldest ((tableOf 0 s).filter (issuable s)) = some entry1 ∧ (ev (.patternEntryIssue 0) s).pattern.map (fun e => e.begun) = [true] := by decide +kernel
theorem test_entry_completes : (ev (.patternEntryComplete 30) { beside other with pattern := [{ entry1 with begun := true }] }).pattern = [] := by decide +kernel
theorem test_entry_enters : let g := { other with kind := .bobbin, held := some (.entry entry1), stall := .table, act := some { pc := 4, mask := 1 } }
    tableFull 0 (beside g) = false ∧ (ev (.patternTableEnter 9) (beside g)).pattern.length = 1 := by decide +kernel

/-- A pending store of two bytes. -/
def pending1 : PStore := { grp := 9, lane := 0, addr := 0x1000, bytes := [1, 2], scope := 2 }
theorem test_store_performs : firstPending { beside other with stores := [pending1] } 0 = some pending1
    ∧ homeBytes (ev (.storePerformAtHome 0) { beside other with stores := [pending1] }) 0x1000 2 = [1, 2] := by decide +kernel
theorem test_lease_expires : let s := { beside other with caches := [{ lvl := 2, unit := 0, line := 32, copy := some (List.replicate 128 0), expiry := 5 }] }
    ((findLine 2 0 32 s).map fun c => decide (c.expiry ≤ s.time)) = some true
    ∧ (ev (.leaseExpiry 2 0 32) s).caches.map (fun c => c.copy) = [none] := by decide +kernel
theorem test_lease_holds : let s := { beside other with caches := [{ lvl := 2, unit := 0, line := 32, expiry := 20000 }, { lvl := 1, unit := 0, line := 32 }] }
    (findLine 2 0 32 s).isSome = true ∧ (findLine 1 0 32 s).isSome = true := by decide
theorem test_fence_completes : let g := { other with stall := .fence, gwct := [(0, 5)], act := some { pc := 4, mask := 1, pos := placePos 0xC7000013 } }
    releaseDone g 1 10000 = true ∧ releaseDone { g with stall := .release } 1 10000 = true
    ∧ ((findGroup 9 (ev (.fenceReleaseComplete 9) (beside g))).map fun h => decide (h.stall = .none)) = some true := by decide +kernel
theorem test_append_is_granted : let g := { other with stall := .append, held := some (.claim 5 6 7), act := some { pc := 4, mask := 1 } }
    lowerDone (beside g) { uid := 3, ctx := 1 } 5 { uid := 2, grid := 3, ctx := 1 } = true
    ∧ lowerDone (beside g) { uid := 3, ctx := 1 } 5 { uid := 2, grid := 3, ctx := 1, gid := 1 } = false
    ∧ (findGroup 9 (beside g)).isSome = true := by decide

/-! ### Retirement, saving out, tasks -/

theorem test_group_retires : mayRetire { other with live := 0 } = true ∧ mayRetire other = false
    ∧ (ev (.groupRetire 9) (beside { other with live := 0, frontier := [] })).groups = [] := by decide +kernel
theorem test_completion_record : let s := { up with grids := [{ uid := 3, ctx := 1, launch := { compl := 0x3000 }, gridId := 4, wgDone := 2, ended := some 9000 }] }
    (ev (.completionRecordWrite 3) s).grids = [] ∧ homeBytes (ev (.completionRecordWrite 3) s) 0x3000 12 = [1, 0, 0, 0, 0, 0, 0, 0, 4, 0, 0, 0] := by
  decide +kernel
theorem test_completion_waits : let r : Grid := { uid := 3, ctx := 1, ended := some 9000, gwct := 20000 }
    r.ended ≠ none ∧ r.gwct ≠ 0 ∧ up.time ≤ r.gwct ∧ ({ uid := 3 } : Grid).ended = none := by decide
theorem test_completion_translates : (List.range 64).all (fun i => agentTranslate up 0 1 (0x3000 + i) 1 == .ok (0x3000 + i)) = true := by decide +kernel

/-- A workgroup on core 0 whose only path waits for children. -/
def parent1 (s : State) : State :=
  { s with
    groups := [{ other with frontier := [{ pc := 64, mask := 0xFF, wait := .child }] }]
    wgs := [{ uid := 2, grid := 3, ctx := 1, children := 1, room := some {} }] }
theorem test_workgroup_leaves : let s := parent1 (beside other)
    mayLeave s ((findWg 2 s).getD {}) = true ∧ findWg 0 s = none ∧ mayLeave (beside other) ((findWg 2 (beside other)).getD {}) = false
    ∧ ((findWg 2 (ev (.workgroupSaveOut 2) s)).map fun w => (w.saved, w.savedOut, w.room.isNone)) = some (true, true, true) := by decide +kernel
theorem test_workgroup_returns : let s := { beside other with wgs := [{ uid := 2, grid := 3, ctx := 1, saved := true, savedOut := true }] }
    inPartition (one s) 0 = true ∧ inPartition (one s) 48 = false ∧ (roomAgain s { uid := 3, ctx := 1 } ((findWg 2 s).getD {}) 0).isSome = true
    ∧ ((findWg 2 (ev (.workgroupRestore 2 0 0) s)).map fun w => w.saved) = some false := by decide +kernel

/-- A task of the ordered queue 3. -/
def task1 : Task := { queue := 3, ts := 5, payload := 1, grp := 9, lane := 0 }
def tasked (k : Task) (g : Group) : State :=
  { beside g with queues := [{ num := 3, ctx := 1, device := true, capacity := 64 }], tasks := [k] }
theorem test_task_commits : let s := tasked { task1 with exited := true } { other with live := 0 }
    oldestTask s 3 = some { task1 with exited := true } ∧ mayArrive s task1 = false ∧ pushesFit s task1 = true ∧ (ev (.taskCommit 3) s).tasks = [] := by decide +kernel
theorem test_task_goes_on : let s := tasked task1 other
    oldestTask s 3 = some task1 ∧ (ev (.taskCommit 3) s).tasks.map (fun t => t.spec) = [false] ∧ oldestTask s 4 = none := by decide +kernel
theorem test_task_as_oldest : oldestTask (tasked { task1 with spec := false } other) 3 = some { task1 with spec := false } := by decide

/-! ### Turns and routines -/

theorem test_starved : let s := { beside { other with ready := 0 } with wgs := [{ uid := 2, grid := 3, ctx := 1, room := some {} }] }
    issuableGroup s { other with ready := 0 } = true ∧ starved s 0 0 = some { other with ready := 0 } ∧ starved s 1 0 = none := by decide +kernel
theorem test_age_limit : let g := { other with frontier := [{ pc := 64, mask := 0xFF, age := 4032 }] }
    selectEntry (beside g) g = some { pc := 64, mask := 0xFF, age := 4032 } ∧ selectEntry (beside other) other = some { pc := 64, mask := 0xFF }
    ∧ ((findGroup 9 (ev (.frontierAgeLimit 9) (beside g))).bind fun h => h.act.map fun e => e.pc) = some 64 := by decide +kernel
theorem test_walker_starts : let s := { beside other with misses := [{ core := 0, ctx := 1, grp := 9, va := 0x70000, kind := 1 }] }
    slotBusy s .walker 0 = false ∧ ((ev (.tlbMissWalk 0) s).groups.map fun g => (g.kind, g.missVa)) = [(.vector, 0), (.walker, 0x70000)] := by decide +kernel
theorem test_handler_starts : let r : TrapRec := { cause := 2, code := 0, bobbin := false, tpc := 8, topc := 8, titer := 0, mask := 1, addr := 0, info := 0, core := 0, slot := 0 }
    let s := { codeObject (beside { other with stop := .trapped, trap := some r }) with traps := [(0, 9)] }
    slotBusy s .handler 0 = false ∧ (match handlerCode s 0 (one s) with
      | .ok c => decide (c.ventry = 0x100)
      | .error _ => false) = true
    ∧ ((ev (.handlerStart 0) s).groups.map fun g => (g.kind, g.serves)) = [(.vector, 0), (.handler, 9)] ∧ (ev (.handlerStart 0) s).traps = [] := by decide +kernel
theorem test_page_report : let s := { up with ring := some { base := 0x10000, n := 64, headAddr := 0x9000 }, reports := [{ ctx := 1, page := 0x70000, kind := 1 }] }
    (ev .pageReportWrite s).reports = [] ∧ (ev .pageReportWrite s).mbox.ftail = 1 ∧ linkUp s = true := by decide +kernel

/-! ### Pre-emption, restoring, the watchdog -/

theorem test_preempt : (up.ctxs.map fun c => c.resident) = [true] ∧ ((ev (.preempt 1) (beside other)).ctxs.map fun c => c.resident) = [false] := by decide +kernel
theorem test_resident_again : let s := { up with ctxs := [{ id := 1 }] }
    (s.ctxs.countP fun c => c.resident) < 64 ∧ (placeSaved [] (toPlace 1 s) s).isSome = true
    ∧ ((ev (.contextMakeResident 1 []) s).ctxs.map fun c => c.resident) = [true] := by decide +kernel
theorem test_hang : let s := { beside other with time := 3000000000 }
    hangs s (one s) = true ∧ hangs up (one up) = false ∧ (ev (.hangWatchdog 1) s).ctxs = [] := by decide +kernel

/-! ### The device -/

def goodReport : StartReport := { baseOk := true, failed := [.core 3], ready := true }

theorem test_device_starts : startFailure goodReport [.core 3] = none
    ∧ ((ev (.deviceStart goodReport) State.reset).started, (ev (.deviceStart goodReport) State.reset).out) = (true, [.core 3]) := by decide
/-- R315: a signature of more than 1,280 bytes is none. -/
def forged : StartReport := { goodReport with images := [{ ident := 1, bytes := [5], sig := List.replicate 1281 0 }] }
theorem test_start_fails : startFailure forged [.core 3] = some 1 ∧ (ev (.deviceStart forged) { failedStarts := 2 }).minimal = true
    ∧ (ev (.deviceStart forged) { failedStarts := 2 }).out = [.core 3] := by decide +kernel
theorem test_units_are_taken_out : takenOut [.core 3] { out := [.die 1, .core 3], unitErrors := [.stack 2, .stack 2, .stack 4] } = [.die 1, .core 3, .stack 2] := by
  decide
theorem test_start_failures : startFailure { goodReport with baseOk := false } [] = some 3 ∧ startFailure { goodReport with ready := false } [] = some 5
    ∧ startFailure goodReport ((List.range 8).map .die) = some 2 ∧ startFailure goodReport ((List.range 12).map .stack) = some 4 := by decide
theorem test_firmware_late : State.reset.started = false ∧ (ev .firmwareReadyTimeout State.reset).failedStarts = 1
    ∧ (ev .firmwareReadyTimeout { failedStarts := 2 }).mbox.reason = 5 := by decide
theorem test_ecc_ends_the_context : (findCtx 1 up).isSome = true ∧ (ev (.eccUncorrectable (.context 1) (.stack 2) true 77) up).ctxs = []
    ∧ ((ev (.eccUncorrectable (.context 1) (.stack 2) true 77) up).pockets.map fun p => p.chain.map fun r => (r.cause, r.addr, r.info)) = [[(0x19, 77, 1)]] := by
  decide +kernel
theorem test_partitions : layoutOk [(0, 4), (4, 4)] = true ∧ layoutOk [(0, 4), (3, 2)] = false ∧ (ev (.partitionChange [(0, 1), (4, 4)]) up).layout = [(0, 1), (4, 4)]
    ∧ (ev (.partitionChange [(0, 4)]) up).layout = [(0, 8)] := by decide +kernel

theorem test_host_write : linkUp up = true ∧ isHost up 0x1000 = false
    ∧ homeBytes (ev (.hostCxlMemWrite 0x1000 [5, 6]) up) 0x1000 2 = [5, 6] := by decide +kernel
theorem test_host_write_without_link : linkUp State.reset = false ∧ hostBytes (ev (.cxlCacheSnoop 0x1000 [5, 6]) State.reset) 0x1000 2 = [5, 6] := by decide +kernel
theorem test_ide_streams : (ev .ideStreamSetup { up with ide := false }).ide = true ∧ up.queues = [] := by decide

/-- Member 3 of the domain, which this device has joined. -/
def joined : State := { up with selfJoined := true, members := [{ num := 3, joined := true, flit := 100 }] }
theorem test_member_leaves : ((ev (.peerLeaveAnnounce 3) joined).members.map fun m => (m.present, m.joined)) = [(false, false)]
    ∧ (findMember 3 joined).map (fun m => m.present) = some true := by decide +kernel
theorem test_member_silent : ((ev (.peerSilenceTimeout 3) { joined with time := 20100 }).members.map fun m => m.present) = [false]
    ∧ ((ev (.peerSilenceTimeout 3) { joined with time := 20099 }).members.map fun m => m.present) = [true] := by decide +kernel
theorem test_member_joins : ((ev (.peerJoin 4 0) up).members.map fun m => (m.num, m.present, m.joined)) = [(4, true, false)] ∧ up.self ≠ 4 := by decide
theorem test_own_join : (ev (.peerJoin 0 20000) up).time = 20000 ∧ up.selfJoined = false ∧ up.joinReady = none
    ∧ (ev (.timeJoinComplete 0) { up with joinReady := some 10000 }).selfJoined = true
    ∧ (ev (.timeJoinComplete 0) { up with joinReady := some 10001 }).selfJoined = false := by decide

/-- Window 6 of context 1, exported for reads and writes. -/
def exported : State := { joined with exports := [{ win := 6, ctx := 1, va := 0x1000, len := 64, r := true, w := true }] }
theorem test_peer_access : homeBytes (ev (.peerAccess 3 6 4 (.store [9])) exported) 0x1004 1 = [9]
    ∧ (match agentRead exported 0 1 0x1004 0 4 with
      | .ok _ => true
      | .error _ => false) = true
    ∧ homeBytes (ev (.peerAccess 3 6 64 (.store [9])) exported) 0x1040 1 = [0] := by decide +kernel
theorem test_peer_access_refused : (findMember 3 { joined with selfJoined := false }).isSome = true
    ∧ (exported.exports.map fun e => { e with w := false }).map (fun e => e.w) = [false] := by decide

/-! ### Presentation -/

/-- A source of two slots of one pixel, presented every millisecond. -/
def source1 : FrameSource := { ctx := 1, base := 0, slots := 2, w := 1, h := 1, fmt := 0, margin := 100000, toPeer := false, win := 0, dest := 0x4000 }
def frames (p : Present) (t : Nat) : State := { up with time := t, tlb := up.tlb ++ [{ core := 0, ctx := 1, va := 65536, size := 0, pa := 65536, perm := 15 }], lock := some { t0 := 0, period := 1000000 }, present := { p with source := some source1, lastAt := 10 } }
def good1 : GoodFrame := { slot := 0, k := 0, colour := [1, 2, 3, 4], depth := [0, 0, 0, 0], motion := [0, 0, 0, 0] }

theorem test_next_instant : nextInstant { t0 := 0, period := 1000000 } 10 = (1, 1000000) ∧ presents (frames {} 1000000) = true := by decide
theorem test_frame : ((ev .presentInstant (frames { decided := some (1, some good1) } 1000000)).present.frames,
    (ev .presentInstant (frames { decided := some (1, none), good := some good1 } 1000000)).present.cloaks,
    (ev .presentInstant (frames { decided := some (1, none) } 1000000)).present.blacks) = (1, 1, 1) := by decide +kernel
theorem test_frame_not_yet : (ev .presentInstant (frames {} 999999)).present.lastK = 0 ∧ (ev .presentCheck (frames {} 800000)).present.decided = none := by decide +kernel
theorem test_frame_check : findSlot (frames {} 900000) source1 1 [0, 1] = .no ∧ (ev .presentCheck (frames {} 900000)).present.decided = some (1, none) := by decide +kernel
theorem test_frame_complete : let s := setHomeBytes 0 [2, 0, 0, 0, 0, 0, 0, 0, 1] (frames {} 900000)
    (match findSlot s source1 1 [0, 1] with
      | .complete g => decide (g.slot = 0)
      | _ => false) = true ∧ ((ev .presentCheck s).present.decided.map fun d => d.1) = some 1 := by decide +kernel

/-! ### The mailbox -/

/-- A command with its parameters. -/
def ask (code : Nat) (ps : List Nat) (s : State) : State :=
  let pay := sputs 0 0 (ps.flatMap (toBytes 8)) s.mbox.pay
  { s with mbox := { s.mbox with cmd := BitVec.ofNat 32 code, pay := pay, go := true, code := code, args := pay } }
/-- The status that a command's completion leaves. -/
def sts (i : Instr) (s : State) : Nat × Bool := let m := (ev i s).mbox; (m.sts.toNat % 65536, m.go)

/-- R302, R303: commands that are asked for are served; the parameters are the slots of `MBPAY`. -/
theorem test_asked : let s := ask 1 [7, 2 ^ 40] up
    s.started = true ∧ s.mbox.go = true ∧ s.mbox.code = 1 ∧ s.minimal = false ∧ param s 0 = 7 ∧ param s 1 = 2 ^ 40 := by decide +kernel
theorem test_not_asked : (ev .map (ask 1 [] up)).mbox.go = true ∧ (ev .map State.reset) = State.reset := by decide +kernel
theorem test_minimal : sts .map { ask 0x10 [] up with minimal := true } = (6, false) ∧ sts .attest { ask 0x60 [0, 0, 0, 0, 1] up with minimal := true } = (6, false) := by
  decide +kernel
theorem test_unknown : sts .mailboxUnknown (ask 0x99 [] up) = (1, false) ∧ sts .mailboxUnknown (ask 1 [] up) = (0, true) ∧ sts .unitMap (ask 0x90 [] up) = (0, false) := by
  decide +kernel
theorem test_registers : (ev (.mbevtWrite 3) { up with mbox := { evt := 7 } }).mbox.evt = 4 ∧ (ev (.mailboxRegisterWrite 4 0x12345) up).mbox.cmd = 0x2345
    ∧ (let m := (ev (.mailboxRegisterWrite 8 1) { up with mbox := { cmd := 0x52, pay := [(1, 7)] } }).mbox; (m.go, m.code, m.args)) = (true, 0x52, [(1, 7)]) ∧ (ev (.mailboxRegisterWrite 0x14 0xFF) up).mbox.ien = 0x3F
    ∧ sgets 0 0 4 (ev (.mailboxRegisterWrite 0x1000 0x01020304) up).mbox.pay = [4, 3, 2, 1] ∧ ev (.mailboxRegisterWrite 0xC 1) up = up := by decide +kernel
theorem test_completion_message : (complete 0 0 { up with mbox := { ien := 1 } }).msi = [0] ∧ (complete 0 0 { up with mbox := { ien := 1, evt := 1 } }).msi = [] := by
  decide

theorem test_ctx_create : sts .ctxCreate (ask 1 [1] up) = (2, false) ∧ sts .ctxCreate (ask 1 [0, 0, 0x10000, 64, 0x1000, 0] up) = (0, false)
    ∧ (ev .ctxCreate (ask 1 [0, 0, 0x10000, 64, 0x1000, 0] up)).ctxs.map (fun c => c.id) = [1, 2] ∧ freeId up = some 2 := by decide +kernel
theorem test_ctx_destroy : sts .ctxDestroy (ask 2 [9] up) = (3, false) ∧ (ev .ctxDestroy (ask 2 [1] up)).ctxs = [] := by decide +kernel
theorem test_mappings : sts .map (ask 0x10 [1, 0, 0x10000] up) = (0, false) ∧ (ev .map (ask 0x10 [1, 0, 0x10000] up)).tlb = []
    ∧ sts .unmap (ask 0x12 [1, 2 ^ 57, 1] up) = (2, false) ∧ sts .unmap (ask 0x12 [1, 0, 1] up) = (0, false) := by decide +kernel
theorem test_hem_resume : let s := beside { other with hem := [{ pc := 64, mask := 1, pos := none, page := 0x10000, va := 0x10010, kind := 0 }] }
    ((ev .hemResume (ask 0x11 [1, 0x10000] s)).groups.map fun g => g.hem.length) = [0] := by decide +kernel
theorem test_fault_ring : sts .faultRing (ask 0x13 [0x10000, 64, 0x9000] up) = (0, false) ∧ powerIn 64 65536 64 = true := by decide +kernel

theorem test_queue_setup : (queueOf (ask 0x20 [5, 1, 1, 64] up) 5 1 1).isSome = true ∧ findQueue 5 up = none := by decide +kernel
theorem test_queue_setup_busy : (findQueue 5 (withQueue ring1)).all (fun o => o.device && o.closed && o.entries.isEmpty && o.bound.isNone) = false := by decide
theorem test_queue_close : sts .queueClose (ask 0x21 [5] (withQueue ring1)) = (3, false)
    ∧ ((ev .queueClose (ask 0x21 [3] { up with queues := [{ num := 3, ctx := 1, device := true }] })).queues.map fun q => q.closed) = [true] := by decide +kernel
theorem test_pool_setup : ((ev .poolSetup (ask 0x22 [1, 3, 64] up)).ctxs.map fun c => c.pools.map fun p => (p.id, p.cap)) = [[(3, 64)]] := by decide +kernel
theorem test_queue_reset : sts .queueReset (ask 0x23 [5] (withQueue ring1)) = (0, false)
    ∧ ((ev .queueReset (ask 0x23 [5] { withQueue { ring1 with stopped := true } with ide := false })).queues.map fun q => q.stopped) = [false] := by decide +kernel

/-- Context 1 with a field set. -/
def with1 (f : Context → Context) : State := { up with ctxs := up.ctxs.map f }
theorem test_trace_arm : ((ev .traceArm (ask 0x30 [1, 0x4000, 128] up)).ctxs.map fun c => (c.trace.base, c.trace.size, c.trace.armed)) = [(0x4000, 128, true)]
    ∧ homeBytes (ev .traceArm (ask 0x30 [1, 0x4000, 128] up)) 0x4000 1 = [1] := by decide +kernel
theorem test_trace_status : (ev .traceStatus (ask 0x31 [1] (with1 fun c => { c with trace := { tail := 2, dropped := 3, armed := true } }))).mbox.sts = 0x180000 := by
  decide +kernel
theorem test_sample : let s := { beside other with ctxs := up.ctxs.map fun c => { c with sampleK := 8, samples := [{ grp := 9, pc := 64, va := 0 }], trace := { base := 0x4000, size := 128, armed := true } } }
    (match agentTranslate s 0 1 0x4000 1, agentTranslate s 0 1 0x4040 1 with
      | .ok a, .ok b => decide (a = 0x4000 ∧ b = 0x4040)
      | _, _ => false) = true
    ∧ ((ev (.sampleRecord 9 64 0 []) s).ctxs.map fun c => c.trace.tail) = [1]
    ∧ ((ev (.sampleRecord 9 64 0 []) { s with ctxs := up.ctxs }).ctxs.map fun c => c.trace.tail) = [0] := by decide +kernel
theorem test_windows : sts .peerExport (ask 0x40 [1, 0x1000, 64, 3, 6] up) = (0, false) ∧ sts .peerExport (ask 0x40 [1, 0x1000, 64, 3, 6] exported) = (4, false)
    ∧ sts .peerImport (ask 0x41 [1, 3, 6, 0x100000, 64] joined) = (0, false) ∧ sts .peerImport (ask 0x41 [1, 4, 6, 0x100000, 64] joined) = (3, false) := by
  decide +kernel
theorem test_framelock : sts .framelock (ask 0x50 [0, 999999] up) = (2, false) ∧ sts .framelock (ask 0x50 [0, 1000000] up) = (0, false)
    ∧ ((ev .framelock (ask 0x50 [0, 2000000] (frames {} 0))).lock.map fun l => l.next.isSome) = some true := by decide +kernel
theorem test_frame_source : let ps := [1, 0, 2, 1, 1, 0, 100000, 0, 0x4000]
    (match sourceOf (ask 0x51 ps up) (one up) 1000000 with
      | .ok f => decide (f = source1)
      | .error _ => false) = true
    ∧ (ev .frameSource (ask 0x51 ps { up with lock := some { t0 := 0, period := 1000000 } })).present.source = some source1
    ∧ (ev .frameSource (ask 0x51 ps (frames {} 0))).present.nextSource = some (some source1)
    ∧ (ev .frameSource (ask 0x51 [0] (frames {} 0))).present.source = none ∧ sts .frameStatus (ask 0x52 [] up) = (0, false) := by decide +kernel
theorem test_attest : sts .attest (ask 0x60 [0, 0, 0, 0, 0, 0x9000, 0] up) = (7, false) ∧ sts .attest (ask 0x60 [0, 0, 0, 0, 9] up) = (3, false)
    ∧ 0x9000 + 0 ≤ 2 ^ 52 := by decide +kernel
theorem test_pocket_read : let p : Pocket := { ctx := 1, time := 5, chain := [] }
    sts .pocketRead (ask 0x70 [2] { up with pockets := [p] }) = (3, false) ∧ sts .pocketRead (ask 0x70 [1, 0x9000, 0] { up with pockets := [p] }) = (7, false) := by
  decide +kernel

/-! ### The debugger -/

/-- The state with context 1 attached, and an issuer at SLOT 0 of core 0. -/
def attached (g : Group) : State := let s := beside g; { s with ctxs := s.ctxs.map fun c => { c with attached := true } }
def haltRec : TrapRec := { cause := 0, code := 0, bobbin := false, tpc := 64, topc := 64, titer := 0, mask := 0xFF, addr := 0, info := 0, core := 0, slot := 0 }
def halted1 : Group := { other with stop := .halted, trap := some haltRec }

theorem test_attach : sts .dbgAttach (ask 0x80 [1] up) = (0, false) ∧ sts .dbgAttach (ask 0x80 [1] (attached other)) = (4, false) := by decide +kernel
theorem test_not_attached : sts .dbgHalt (ask 0x82 [1, 0] up) = (3, false) ∧ (.dbgHalt, 0x82) ∈ mailboxCommands := by decide +kernel
theorem test_detach : ((ev .dbgDetach (ask 0x81 [1] (attached halted1))).ctxs.map fun c => c.attached) = [false] := by decide +kernel
theorem test_target : targets (attached other) 1 0 = [other] ∧ targets (attached halted1) 1 0 = [halted1] ∧ targetOk 0 = true := by decide +kernel
theorem test_halt : ((ev .dbgHalt (ask 0x82 [1, 0] (attached other))).groups.map fun g => decide (g.stop = .halted)) = [true]
    ∧ ((ev .dbgHalt (ask 0x82 [1, 0] (attached { other with stop := .trapped, trap := some haltRec }))).groups.map fun g => g.haltReq) = [true]
    ∧ sts .dbgHalt (ask 0x82 [1, 0] (attached halted1)) = (0, false) := by decide +kernel
theorem test_resume : ((ev .dbgResume (ask 0x83 [1, 0, 5] (attached halted1))).groups.map fun g => (decide (g.stop = .running), g.dbgSteps)) = [(true, some 5)]
    ∧ sts .dbgResume (ask 0x83 [1, 0, 0] (attached other)) = (0, false) ∧ halted1.haltReq = false := by decide +kernel
theorem test_breaks : ((ev .dbgBreak (ask 0x84 [1, 2, 0, 64, 0, 1] (attached other))).ctxs.map fun c => c.breaks.map fun b => (b.num, b.value)) = [[(2, 64)]]
    ∧ ((ev .dbgWatch (ask 0x85 [1, 2, 64, 4, 1] (attached other))).ctxs.map fun c => c.watches.map fun b => (b.num, b.lo)) = [[(2, 64)]] := by decide +kernel
theorem test_sampling : sts .dbgSample (ask 0x88 [1, 8] (attached other)) = (0, false) ∧ sts .dbgSample (ask 0x88 [1, 7] (attached other)) = (2, false) := by
  decide +kernel
theorem test_items : sts .dbgRead (ask 0x86 [1, 0, 0x100, 1] (attached other)) = (4, false) ∧ sts .dbgWrite (ask 0x87 [1, 0, 0x100, 1, 0] (attached other)) = (4, false)
    ∧ itemOk halted1 1 0x120 = true ∧ (handlerRead (asHandler halted1 1) halted1 0x120).isSome = true
    ∧ sts .dbgRead (ask 0x86 [1, 0, 0x120, 1] (attached halted1)) = (0, false) := by decide +kernel
theorem test_item_written : ((ev .dbgWrite (ask 0x87 [1, 0, 0x120, 1, 7] (attached halted1))).groups.map fun g => getS g 0) = [7]
    ∧ handlerValueBad (asHandler halted1 1) halted1 0x120 7 = false := by decide +kernel
theorem test_closure_item : let g := { halted1 with code := { closures := 1 } }
    0x200 - 0x200 < g.code.closures ∧ (1 : DWord) &&& ~~~g.exist = 0 ∧ sts .dbgRead (ask 0x86 [1, 0, 0x200, 1] (attached g)) = (0, false) := by decide +kernel
theorem test_events : let s := with1 fun c => { c with attached := true, events := [{ target := 0, trap := haltRec, time := 3 }] }
    (ev .dbgEvents (ask 0x89 [1, 0x9000, 64] s)).mbox.sts = 0x400000 ∧ ((ev .dbgEvents (ask 0x89 [1, 0x9000, 64] s)).ctxs.map fun c => c.events.length) = [0]
    ∧ sts .dbgEvents (ask 0x89 [1, 0x9000, 63] s) = (7, false) := by decide +kernel
theorem test_held : ((ev .ctxPreempt (ask 0x8A [1] (attached other))).ctxs.map fun c => (c.held, c.resident)) = [(true, false)]
    ∧ sts .ctxRestore (ask 0x8B [1] (attached other)) = (0, false) := by decide +kernel
theorem test_restored : let s := ask 0x8B [1] (with1 fun c => { c with attached := true, held := true, resident := false })
    (restoreNow { one s with held := false } (updCtx 1 (fun y => { y with held := false }) s)).isSome = true
    ∧ ((ev .ctxRestore s).ctxs.map fun c => (c.held, c.resident)) = [(false, true)] := by decide +kernel

/-! ### A step -/

/-- A word placed after reset meets everything that an issue slot asks for, and its step is its instruction. -/
theorem test_step_hypotheses : let s := State.reset.withFetchWord 32 0x10000000
    s.tape = [] ∧ mayIssue s s.grp = true ∧ (takeTurn s).1 = true ∧ ((withPath (takeTurn s).2).map fun v => (breakHere v, v.grp.act.map fun e => e.edited))
      = some (false, some false) := by decide +kernel
theorem test_step_fetches : ((withPath (State.reset.withFetchWord 32 0x10000000)).map fun v => readCode v v.grp (curPc v)) = some (.word 0x10000000) := by
  decide +kernel
theorem test_step_runs : let s := State.reset.withFetchWord 32 0xA30A0005
    decodeWord 0xA30A0005 = .ok (.smovi 0 10 5) ∧ getS (stepped s).grp 10 = 5 := by decide +kernel
theorem test_step_illegal : let s := State.reset.withFetchWord 32 0x7FFFFFFF
    ((stepped s).grp.trap.map fun r => r.cause) = some 1 := by decide +kernel
theorem test_turn_is_an_event : let s := { up with tape := [{ due := 20000, what := .event .ideStreamSetup }] }
    isEvent .ideStreamSetup = true ∧ (stepped s).time = 20000 ∧ (stepped s).tape = [] := by decide +kernel
theorem test_turn_is_an_issue_slot : let s := { up with tape := [{ due := 0, what := .issue 9 }], groups := [other] }
    (stepped s).tape = [] ∧ (stepped s).grp.uid = 9 := by decide +kernel
theorem test_fetch_beyond : (on (.fadd 0 1 2 3)).grp.code.residual = none ∧ readCode (on (.fadd 0 1 2 3)) (on (.fadd 0 1 2 3)).grp 0x100000 = .beyond := by decide +kernel
theorem test_fetch_residual : let g := { other with code := { size := 4, residual := some { words := [5], orig := [0], titer := [0] } } }
    readCode (beside g) g 0 = .word 5 ∧ topcOf g 0 < 16 := by decide +kernel
theorem test_reset_is_canonical : Memory.wf State.reset = true := by decide
theorem test_step_keeps_the_form : Memory.wf (stepped (record 2 (lone (on (.st 0 2 4 6 0))))) = true ∧ Memory.wf (on (.st 0 2 4 6 0)) = true := by decide +kernel

/-! ### Further states that meet hypotheses: words -/

/-- R105 to R108: every conversion and every narrow format completes. -/
theorem test_complete_conversions : ((List.range 32).all fun m => completes (.cvt 0 (BitVec.ofNat 5 m) 4 6) (on (.cvt 0 (BitVec.ofNat 5 m) 4 6))) = true
    ∧ ((List.range 8).all fun f => completes (.qnt 0 (BitVec.ofNat 3 f) 0 1 2) (on (.qnt 0 (BitVec.ofNat 3 f) 0 1 2))
        && completes (.dqnt 0 (BitVec.ofNat 3 f) 0 1 2) (on (.dqnt 0 (BitVec.ofNat 3 f) 0 1 2))) = true := by decide +kernel
/-- R325: the PC of a lane that has ended is none. -/
theorem test_lane_without_pc : (laneEntry { uid := 9, width := 8, exist := 0xFF, live := 0xFE, frontier := [{ pc := 8, mask := 0xFE }] } 0).map (fun e => e.1) = none := by
  decide
theorem test_nop_in_a_run : let s := (on .nop).setPos fun p => { p with hints := { imm := some 3, run := 1 } }
    (s.grp.act.bind fun e => e.pos.map fun p => decide (0 < p.hints.run ∧ p.issued + 1 < p.len)) = some true := by decide
/-- R52: each check before a word's own description can be the first that fails. -/
theorem test_checks_fail : let s := on (.fadd 0 1 2 3)
    let m := s.setG fun g => { g with marks := [(.s 3, 2)] }
    let k := s.setG fun g => { g with tokens := [{ sreg := 3, work := .ray false 0 [] 0 }] }
    check {} (s.setG fun g => { g with code := { g.code with features := 0 } }) = .trap { cause := 1, mask := 0xFF } ∧ check { privBad := true } s = .trap { cause := 0x17, mask := 0xFF }
    ∧ check {} ((on .nop).setPos fun p => { p with hints := { scl := some 1 } }) = .trap { cause := 5, mask := 0xFF, info := 0 }
    ∧ check { early := [.s 3], valueBad := true } m = .trap { cause := 0x1B, mask := 0xFF } ∧ check { early := [.s 3], valueBad := true } k = .stall .token
    ∧ check { early := [.s 3], valueBad := true } s = .trap { cause := 2, mask := 0xFF } ∧ check { regs := [.s 3] } m = .trap { cause := 0x1B, mask := 0xFF }
    ∧ check { regs := [.s 3] } k = .stall .token
    ∧ check { varlat := true } ((on (.frcp 0 1 2)).setG fun g => { g with f := (List.range 12).map fun i => (i, 255) }) = .stall .flag := by decide +kernel
theorem test_step_requests : ((stepCheck 8 1 ((on .nop).setG fun g => { g with hstep := true })).grp.trap.map fun r => r.cause) = some 0x16
    ∧ ((stepCheck 8 1 ((on .nop).setG fun g => { g with dbgSteps := some 1 })).grp.trap.map fun r => r.cause) = some 0x16
    ∧ (stepCheck 8 1 ((on .nop).setG fun g => { g with dbgSteps := some 2 })).grp.dbgSteps = some 1 := by decide +kernel

/-- Lane 0 alone accesses record 2. -/
def solo (i : Instr) : State := lone (record 2 (on i))
/-- A word's accesses are those of one lane, which proceeds. -/
def oneGoes (m : MemGo) (a : Nat) : Bool := match m with
  | .go [(c, p)] [] => decide (c.lane = 0 ∧ p = a)
  | _ => false

theorem test_det_violation : let s := { solo (.ld 0 2 4 6 0) with ctxs := (solo (.ld 0 2 4 6 0)).ctxs.map fun c => { c with det := true } }
    exclusiveDet s 2 ≠ none := by decide
/-- One lane's store, exclusive load and exclusive store; nothing is in flight, cached or pending. -/
theorem test_one_lane : let a := fun (i : Instr) (k : Nat) (st : Bool) => memCheck (solo i) (wordAccess (solo i) 2 6 4 k st none [k]) (lanes (active (solo i)))
    oneGoes (a (.st 0 2 4 6 0) 1 true) 0x1000 = true ∧ oneGoes (a (.ldx 0 2 4 6 0) 0 false) 0x1000 = true ∧ placeOf (solo (.ldx 0 2 4 6 0)).grp 2 = .mem
    ∧ (solo (.ldx 0 2 4 6 0)).grp.ops = [] ∧ (solo (.ldx 0 2 4 6 0)).stores = [] ∧ (solo (.ldx 0 2 4 6 0)).caches = []
    ∧ anySpec (solo (.ldx 0 2 4 6 0)) = false ∧ quiet (solo (.ldx 0 2 4 6 0)) = true ∧ peerGone (solo (.ldx 0 2 4 6 0)) 0x1000 = false
    ∧ active (solo (.ldx 0 2 4 6 0)) = laneBit 0 := by decide +kernel
/-- R226: an intact reservation makes `STX` store, a lost one does not. -/
theorem test_exclusive_lane : let s := fill 4 7 ((solo (.stx 0 2 4 6 0)).setG fun g => { g with resv := [(0, { place := 0, addr := 0x1000, size := 4 })] })
    homeBytes (after (.stx 0 2 4 6 0) s) 0x1000 1 = [7] ∧ bit (getM (after (.stx 0 2 4 6 0) s).grp 15) 0 = true
    ∧ bit (getM (after (.stx 0 2 4 6 0) (solo (.stx 0 2 4 6 0))).grp 15) 0 = false := by decide +kernel
/-- R317: the window of a member that has left. -/
theorem test_peer_gone : peerGone { selfJoined := true, members := [{ num := 3, present := false }] } (peerAddr 3 6 4) = true
    ∧ peerGone { selfJoined := true, members := [{ num := 3, joined := true }] } (peerAddr 3 6 4) = false ∧ (performLoad {} { place := .mem, lane := 0, addr := peerAddr 3 6 4, size := 4, scope := 2, evc := 0, reg := .v 1 } { selfJoined := true, members := [] }).1.map (fun w => w.val) = [0xFFFFFFFF] := by decide
theorem test_stores_at_scopes : let s := solo (.st 0 2 4 6 0)
    (laneStore .mem 1 0 0 0x1000 [5] s).stores.map (fun p => (p.scope, p.bytes)) = [(1, [5])] ∧ (laneStore .scratch 1 0 0 64 [5] s).stores.map (fun p => p.scope) = [0]
    ∧ homeByte (laneStore .mem 2 3 0 0x1000 [5] s) 0x1000 = 5 ∧ (laneStore .window 1 0 0 0x1000 [5] s).stores.map (fun p => p.scope) = [2]
    ∧ (ctxOf s).det = false := by decide +kernel
/-- R217, R219: where the bytes are once a store is performed. -/
theorem test_stores_are_performed : let s := solo (.st 0 2 4 6 0)
    let p : PStore := { grp := s.grp.uid, lane := 0, addr := 0x1000, bytes := [5], scope := 1 }
    (performPending 0 p s).caches.map (fun c => c.dirty) = [[(0, 5)]] ∧ homeByte (performPending 0 { p with scope := 2 } s) 0x1000 = 5
    ∧ homeByte (performPending 0 { p with evc := 3 } s) 0x1000 = 5 ∧ homeByte (performPending 0 { p with scope := 3, op := some .add, operand := 7 } s) 0x1000 = 7
    ∧ (performPending 0 { p with addr := 2 ^ 200 + 2 ^ 20 * 2 + 64, scope := 0 } s).wgs.map (fun w => (w.uid, w.scratch)) = [(2, [(64, 5)])]
    ∧ performPending 0 { p with addr := peerAddr 3 6 4, peer := some 3 } s = s := by decide +kernel
/-- R208, R211: a line of the host has its home at no base die. -/
theorem test_prefetch_levels : let s := { solo (.pref 0 2 6 1) with hostRanges := [(0x1000, 128)] }
    homedNear s s.grp.core 32 = false ∧ (match memCheck s { wordAccess s 2 6 1 3 false none [] with skip := true } (lanes (active s)) with
      | .go [_] [] => true
      | _ => false) = true ∧ taskWaits s 0 0 false = false := by decide +kernel
/-- R216: a record with a reserved bit set in S registers, and one from memory. -/
theorem test_bad_records : let s := scal 11 0x01000000 (on (.bset 0 2 8))
    ((after (.bset 0 2 8) s).grp.trap.map fun r => r.cause) = some 2
    ∧ ((after (.bload 0 3 2 6) (setHomeBytes 0x100F [1] (solo (.bload 0 3 2 6)))).grp.trap.map fun r => r.cause) = some 2 := by decide +kernel
/-- R282: a group-wide load of one lane's record, at a later moment or at once, and one that CLAMP keeps out of bounds. -/
theorem test_constant_loads : let o := fun (s : State) => { buf := 2, idx := fun _ => getS s.grp 8, imm := 0, size := 4, kind := 0, watch := [0] : MemOp }
    let s := solo (.sldc 0 6 8 2 0)
    let c := s.setG (setB 2 (0x1000 + 2 ^ 62))
    oneGoes (memCheck s (o s) [0]) 0x1000 = true ∧ defers s 0 = true ∧ taskWaits s 0 0x1000 false = false
    ∧ defers { s with ctxs := s.ctxs.map fun c => { c with det := true } } 0 = false
    ∧ memCheck c (o c) [0] = .go [] [] := by decide +kernel
theorem test_one_atomic : let s := solo (.aadd 0 2 4 7 3)
    (laneAtomic .add .mem 2 0 0 0x1000 true 5 0 s).1 = 0 ∧ homeBytes (laneAtomic .add .mem 2 0 0 0x1000 true 5 0 s).2 0x1000 1 = [5]
    ∧ (laneAtomic .cas .mem 2 0 0 0x1000 true 5 1 s).2.hbm = s.hbm ∧ (laneAtomic .add .mem 2 0 0 0x1000 false 5 0 s).2.stores.length = 1
    ∧ specTask s s.grp.uid 0 = none := by decide +kernel

/-- R232: a copy of no byte; R236: a release that must wait for device time, and an acquire. -/
theorem test_fences_and_copies : let s := on (.fence 0 0 2)
    (after (.fence 0 0 2) { s with grp := { s.grp with gwct := [(0, s.time + 5)] } }).grp.stall = .fence ∧ completes (.fence 0 1 2) (on (.fence 0 1 2)) = true
    ∧ completes (.copy 0 2 2 20 8) (record 2 (on (.copy 0 2 2 20 8))) = true := by decide +kernel
theorem test_waitb_observes : let s := (on (.waitb 0 5)).setG fun g => { g with sealed := 1, copies := [{ sreg := none, batch := 1, gwct := 9 }] }
    batchesDone s.grp 1 = true ∧ sget 0 3 (after (.waitb 0 5) (scal 5 1 s)).grp.gwct = 9 := by decide +kernel

/-- Code whose words are a header of one body word, that word, a pool of two words, and a header. -/
def somePools : Nat → CodeRead := fun p =>
  if p = 0 then .word 0x00007F88 else if p = 8 then .word 0xE0000002 else if p = 12 ∨ p = 20 ∨ p = 36 then .word 0x00007F88
  else if p = 32 then .trans 32 .miss else .word 0xF0000000
theorem test_targets : targetOf somePools 2 = .bad ∧ targetOf somePools 20 = .header ∧ targetOf somePools 12 = .bad ∧ targetOf somePools 4 = .bad
    ∧ targetOf somePools 32 = .unread 32 .miss ∧ targetOf somePools 36 = .unread 32 .miss ∧ targetOf (fun _ => .beyond) 0 = .bad := by decide
theorem test_pads : let s := padded (on (.jmpi 0 12 0x2A))
    waitPads s (fun l => (src s 12 l).toNat) (lanes (active s)) = none ∧ padTag s 0 = some 0x2A ∧ padTag s 4 = none := by decide
theorem test_indirect_by_table : let r : Residual := { entries := [(8, 24)], copy := some 400 }
    mapIndirect { code := { residual := some r } } 8 = 24 ∧ mapIndirect { code := { residual := some r } } 12 = 412 := by decide

/-- R298: the front end takes the record of the leader, whose stores are performed. -/
theorem test_spawn_proceeds : let s := lone (on (.spawn 0 8))
    (match xlate s s.grp 0 0 with
      | .ok _ => true
      | _ => false) = true ∧ (wgOf s).children = 0 ∧ spawnCopied s 0 = false ∧ (gridOf s).depth < 10 ∧ s.grp.gwct = [] ∧ anySpec s = false := by decide
theorem test_spawn_copied : let s := (lone (on (.spawn 0 8))).setG fun g => { g with spawn := some (0, some []) }
    (after (.spawn 0 8) s).grp.spawn = some (0, some []) ∧ (after (.spawn 0 8) s).grp.stall = .spawn := by decide +kernel

/-- R304: a TLB of 256 entries is full. -/
def fullTlb (s : State) : State := { s with tlb := (List.range 256).map fun i => { core := s.grp.core, ctx := s.grp.ctx, va := 2 ^ 33 + 65536 * i, size := 0, pa := 0, perm := 15 } }
theorem test_tlbw_words : let s := scal 14 1 (on (.tlbw 0 12))
    check { privNeed [12, 13, 14, 15] with early := [.s 12, .s 13, .s 14, .s 15] } s = .run
    ∧ ((fullTlb s).tlb.countP fun x => decide (x.core = s.grp.core)) = 256 ∧ (getS s.grp 14).getLsbD 0 = true := by decide +kernel

/-- A walker's routine on core 0 that serves issuer 9, or the device itself. -/
def walking (n : Nat) : State := (on (.hret 0)).setG fun g => { g with kind := .walker, serves := n, missVa := 0x70000 }
theorem test_walker_returns : check (privNeed [3]) (walking 9) = .run
    ∧ ((findGroup 9 (after (.hret 0) { walking 9 with groups := [{ uid := 9, ctx := 1, stall := .walk }] })).map fun g => (g.walks, decide (g.stall = .none)))
      = some ([{ page := 0x70000, kind := 0, outcome := 0 }], true)
    ∧ (after (.hret 0) (scal 3 1 (walking 0))).agentWalks.map (fun a => (a.walked.page, a.walked.outcome)) = [(0x70000, 1)] := by decide +kernel

/-- Context 1 with an armed ring of one record whose pages are in the TLB, or are not. -/
def traced (base : Nat) (s : State) : State := { s with ctxs := s.ctxs.map fun c => { c with trace := { base := base, size := 128, armed := true } } }
theorem test_snap_places : let s := traced 0x4000 (on (.snap 0 5 1))
    (findCtx s.grp.ctx s).isSome = true ∧ xlate s s.grp 0x4000 1 = .ok 0x4000 ∧ xlate s s.grp 0x4040 1 = .ok 0x4040
    ∧ ((after (.snap 0 5 1) s).ctxs.map fun c => c.trace.tail) = [1]
    ∧ (after (.snap 0 5 1) (traced 0x90000000 (on (.snap 0 5 1)))).grp.stall = .walk
    ∧ ((after (.snap 0 5 1) (traced 0x90000000 ((on (.snap 0 5 1)).setG fun g => { g with kind := .walker }))).ctxs.map fun c => c.trace.dropped) = [1] := by
  decide +kernel

/-! ### Closures, rays, queues, tiles -/

/-- A closure of sixteen lobes in every lane of `G0`, and a network lobe of an odd object. -/
def lobed (n : Nat) (s : State) : State := s.setG fun g =>
  (List.range 8).foldl (fun g l => setGr 0 l { lobes := List.replicate n { type := 0, depth := 0, w := 0, p0 := 0, p1 := 0, p2 := 0, p3 := 0, p4 := 0, p5 := 0 } } g) g
theorem test_closure_limits : ((after (.lobe 0 0 0 8 20) (lobed 16 (on (.lobe 0 0 0 8 20)))).grp.trap.map fun r => r.cause) = some 0xF
    ∧ (netTrap 4 8 (fill 8 1 (on (.lobe 0 4 0 8 20))) 0).isSome = true ∧ netTrap 0 8 (on (.lobe 0 0 0 8 20)) 0 = none := by decide +kernel
theorem test_spilled_records : let s := lone (lobed 4 (on (.lobe 0 0 0 8 20)))
    (match memTrans s { buf := 0, idx := fun _ => 0, size := 1, kind := 1 } (spillAccs s (fun _ => [(0, 5)]) (lanes (active s))) with
      | .go run [] => decide (run ≠ [])
      | _ => false) = true ∧ completes (.lobe 0 0 0 8 20) s = true := by decide +kernel
theorem test_cload_completes : completes (.cload 0 0 2 6) (record 2 (on (.cload 0 0 2 6))) = true := by decide +kernel
theorem test_images : (let c : Closure := { nx := 5, depth := 1, ncount := 2 }
    closureOfImage (closureImage c) = c) ∧ closureOfImage (List.replicate 28 0 ++ [0, 0, 1, 0] ++ List.replicate 512 0) = {} := by decide +kernel
theorem test_rays_stop : ((after (.trace 0 20 8 16) ((on (.trace 0 20 8 16)).setG fun g => { g with code := { g.code with traceDepth := 0 } })).grp.trap.map fun r => r.cause)
      = some 0xE
    ∧ ((after (.visq 0 22 16) (fill 16 1024 (visible (on (.visq 0 22 16))))).grp.trap.map fun r => r.cause) = some 2
    ∧ ((after (.visq 0 22 16) (lone (visible (on (.visq 0 22 16))))).grp.trap.map fun r => r.cause) = some 6 := by decide +kernel

theorem test_entry_is_stored : let s := { up with queues := [{ num := 3, ctx := 1, device := true, base := 0x5000, capacity := 64 }] }
    (List.range 4).all (fun i => agentTranslate s (partCore s (one s)) 1 (0x5000 + i) 1 == .ok (0x5000 + i)) = true
    ∧ homeBytes (enterQueue 3 7 0 s) 0x5000 4 = [7, 0, 0, 0] := by decide +kernel
/-- A push finds no queue, a full one, one whose storage is not translated, or room. -/
def pushing (q : Queue) : State := { lone (scal 9 3 (on (.qpush 0 9 12 13))) with queues := [q] }
def queue3 : Queue := { num := 3, ctx := 1, device := true, capacity := 64 }
theorem test_pushes : pushQueue (pushing { queue3 with closed := true }) 3 = none ∧ pushQueue (pushing queue3) 3 = some queue3
    ∧ (after (.qpush 0 9 12 13) (pushing { queue3 with capacity := 0 })).grp.stall = .queue
    ∧ (queueWaits (pushing { queue3 with base := 2 ^ 40 }) { queue3 with base := 2 ^ 40 } 1).isSome = true ∧ queueWaits (pushing queue3) queue3 1 = none
    ∧ (after (.qpush 0 9 12 13) ((pushing queue3).setG fun g => { g with gwct := [(0, 10 ^ 9)] })).grp.stall = .release := by decide +kernel
theorem test_push_breaks_order : tsBreaks (pushing queue3) 3 (fun _ => 4) [0] 5 = true ∧ tsBreaks (pushing queue3) 3 (fun _ => 5) [0] 5 = false := by decide
theorem test_pool_is_missing : let s := on (.pslot 0 20 9)
    poolOf s 9 = none ∧ ((after (.pslot 0 20 9) s).grp.trap.map fun r => r.cause) = some 0x1A := by decide +kernel
theorem test_slot_is_freed : ((after (.pfree 0 20 3) (lone (queued (on (.pfree 0 20 3))))).ctxs.map fun c => c.pools.map fun p => p.taken) = [[[]]] := by
  decide +kernel
theorem test_regrp_hypotheses : let s := on (.regrp 0 0 12)
    waitDirect s 0 = none ∧ badDirect s 0 = none ∧ directTarget s 0 = some 8 ∧ (gridOf s).bins = [] ∧ quiet s = true := by decide

/-- Tile 0 in a state of its own, and entry 1's writer of accumulator 0. -/
def tiled (x : Tile) (s : State) : State := putTile s.grp.wg 0 x s
theorem test_feeds_stop : let i := Instr.tfeed 0 10 16 8
    (after i (tiled { state := 2 } (on i))).grp.stall = .tile ∧ ((after i (tiled { state := 1, tag := some 3 } (on i))).grp.trap.map fun r => r.cause) = some 7
    ∧ ((after i (lone (on i))).grp.trap.map fun r => r.cause) = some 6 ∧ ((after i (scal 10 0x400000 (on i))).grp.trap.map fun r => r.cause) = some 2 := by
  decide +kernel
theorem test_tiles_stop : completes (.trel 0 10) (tiled { state := 2 } (on (.trel 0 10))) = true
    ∧ ((after (.trel 0 10) (scal 10 0x400000 (on (.trel 0 10)))).grp.trap.map fun r => r.cause) = some 2
    ∧ ((after (.tdrain 0 12 48 0) { on (.tdrain 0 12 48 0) with pattern := [{ id := 30, kind := .mzero, cluster := 0, pair := false, wgC := 2, wgU := 2, hasC := true, hasU := false, seqC := 4, seqU := 0, sel := 0, val := 0 }] }).grp.trap.map fun r => (r.cause, r.addr)) = some (9, 4) := by decide +kernel

/-! ### Matrix words, turns, the front end -/

/-- Side U issues a paired word while side C's thread 9 waits at its rendezvous with the word, selector and value given. -/
def meeting (i : Instr) (r : Word × Word × Word) : State :=
  let s := scal 12 0x10000 (paired (on i))
  { s with
    wgs := (s.wgs.map fun w => { w with partner := 5 }) ++ [{ uid := 5, grid := 3, ctx := 1, partner := 2, naccs := 4, ntiles := 8 }]
    groups := s.groups ++ [{ uid := 9, kind := .bobbin, ctx := 1, wg := 5, slot := 1, exist := 1, live := 1, stall := .pair, act := some { pc := 4, mask := 1, pos := placePos 0 }
                             rendezvous := some r }] }
/-- The low 27 bits of a word. -/
def low27 (i : Instr) : Word := (((encode i).getD 0).extractLsb' 0 27).zeroExtend 32
theorem test_partners_agree : let i := Instr.mmaPair 0 12 13 0 0 0 0
    let s := meeting i (low27 i, 0x10000, 0)
    (partnerOf s).map (fun p => (p.uid, atRendezvous p)) = some (9, true) ∧ (after i s).pattern.map (fun e => (e.hasC, e.hasU)) = [(true, true)]
    ∧ ((after i (meeting i (low27 i, 0x20000, 0))).groups.map fun g => g.trap.map fun r => (r.cause, r.info)) = [some (8, 2)] := by decide +kernel
theorem test_partner_not_there : let i := Instr.mmaPair 0 12 13 0 0 0 0
    let s := meeting i (0, 0, 0)
    let s := { s with groups := s.groups.map fun g => { g with stall := .none, rendezvous := none } }
    (after i s).grp.stall = .pair ∧ ((after i { s with wgs := s.wgs.map fun w => { w with side := 0, partner := 0 } }).grp.trap.map fun r => r.cause) = some 2 := by
  decide +kernel
theorem test_table_is_full : let s := { on (.mzero 0 12) with pattern := (List.range 64).map fun i => { entry1 with id := i } }
    tableFull 0 s = true ∧ (after (.mzero 0 12) s).grp.stall = .table ∧ ((after (.mzero 0 12) (scal 12 (2 ^ 25) (on (.mzero 0 12)))).grp.trap.map fun r => r.cause) = some 2 := by
  decide +kernel
theorem test_mwait_waits : (after (.mwait 0 20) (scal 20 1 (on (.mwait 0 20)))).grp.stall = .mwait
    ∧ ((after (.ctab 0 12 0) ((on (.ctab 0 12 0)).setG (setB 0 0x1000))).grp.trap.map fun r => r.cause) = some 0xD := by decide +kernel

/-- The step of a word that no other issuer displaces. -/
theorem test_step_is_not_passed_over : let s := State.reset.withFetchWord 32 0x10000000
    passedOver exec s = false ∧ (takeTurn s).2.grp.hem = [] := by decide +kernel
/-- R25: a group of a higher class in the same quarter goes first. -/
theorem test_passed_over : let s := State.reset.withFetchWord 32 0xA30A0005
    let s := { s with groups := s.groups ++ [{ s.grp with uid := 99, slot := 1, prio := 5, hstep := true, width := 64 }] }
    passedOver exec s = true := by decide +kernel
theorem test_reserved_transfer : withoutReserved 0xD0200000 = some (.bra 0 0) ∧ (decodeWord 0xD0200000).toOption = none
    ∧ (withoutReserved 0x7FFFFFFF) = none := by decide
theorem test_code_changed : let s := { beside other with old := [(0x1100, 7, 50)], grids := [{ uid := 3, ctx := 1, admitted := 20 }] }
    codeSince s other = some 20 ∧ sfind 0x1100 s.old = some (7, 50) ∧ codeSince s { other with ctx := 2 } = none ∧ sfind 0x1101 s.old = none := by decide
/-- R220, R240: a load that is performed, and a peer's own store. -/
theorem test_other_turns : let g := { other with ops := [{ flag := 4, writes := [], loads := [{ place := .mem, lane := 0, addr := 0x1000, size := 4, scope := 3, evc := 0, reg := .v 3 }] }] }
    ((findGroup 9 (stepped { beside g with tape := [{ due := 0, what := .perform 9 0 0 }] })).map fun h => h.ops.map fun o => (o.loads.length, o.writes.length)) = some [(0, 1)]
    ∧ homeByte (stepped { beside other with selfJoined := true, members := [{ num := 3, joined := true }], tape := [{ due := 0, what := .peerStore 3 6 4 [9] }] })
        (peerAddr 3 6 4) = 9 := by decide +kernel

/-- R253, R257: the front end copies a record, unless the last record of the queue still waits. -/
theorem test_record_is_copied : let q := { ring1 with tail := 1 }
    (match agentRead (withQueue q) (partCore up (one up)) 1 0x2000 0 128 with
      | .ok r => decide (r.length = 128)
      | .error _ => false) = true
    ∧ ((findQueue 5 (ev (.launchAdmit false 5) (withQueue q))).map fun o => o.head) = some 1
    ∧ ev (.launchAdmit false 5) { withQueue { q with last := 7 } with grids := [{ uid := 7, ctx := 1, launch := { coop := true }, ranges := [(0, 0, 2)] }] }
      = { withQueue { q with last := 7 } with grids := [{ uid := 7, ctx := 1, launch := { coop := true }, ranges := [(0, 0, 2)] }] } := by decide +kernel
theorem test_child_is_admitted : let g := { other with stall := .spawn, spawn := some (0x6000, some (launchRecord 8)) }
    let s := { codeObject (beside g) with nextId := 20 }
    let t := ev (.launchAdmit true 9) s
    (t.grids.map fun k => (k.depth, k.parent)) = [(0, 0), (1, 2)] ∧ (findWg 2 t).map (fun w => w.children) = some 1 := by decide +kernel
/-- R252: words that a page of the launch's record must be read from wait for a walk. -/
theorem test_group_start_again : let w : WgStart := { grid := ready7, gid := 1, gen := 0, side := 0, room := {}, threads := 8, wins := [], start := none, vals := [6], lanes := [3] }
    getK (startGroup up w 2 9 0 0 0) 0 3 = 6 ∧ (startGroup up w 2 9 0 0 0).live = 8 := by decide +kernel
/-- R256, R200: in a deterministic context a stolen range waits for the lower workgroups. -/
theorem test_det_steal : let g := { ready7 with ranges := [(0, 0, 0), (1, 0, 4)] }
    (match dieRange g 0 with
      | some (k, _) => decide (lowestLeft g ≠ some k)
      | none => false) = true := by decide +kernel

/-- Formed groups of grid 7, and a cooperative grid that waits. -/
def formed7 : Grid := { ready7 with ranges := [], launch := { ready7.launch with queued := true, queue := 3 }, waiting := [{ gid := 0, gen := 1, start := some 64, vals := [3] }], reserve := [{ core := 3 }] }
def coop8 : Grid := { ready7 with uid := 8, launch := { ready7.launch with coop := true } }
theorem test_formed_rooms : let s := placing formed7
    let c := { s with grids := [formed7, coop8] }
    coopBlocks s formed7 = false ∧ (roomFor s formed7 1 0).isSome = true ∧ formedRooms s (one s) formed7 false 0 0 = (roomFor s formed7 1 0).map (fun r => ([r], false))
    ∧ coopBlocks c formed7 = true ∧ formedRooms c (one c) formed7 false 0 0 = some ([{ core := 3 }], true)
    ∧ formedRooms { c with wgs := [{ uid := 2, grid := 7, ctx := 1, reserve := true }] } (one c) formed7 false 0 0 = none := by decide +kernel
theorem test_queue_untampered : let q := { queue3 with base := 0x5000, bound := some 7, entries := [{ payload := 5, ts := 0, time := 8000 }] }
    tampered (setHomeBytes 0x5000 [5] up) q { payload := 5, ts := 0, time := 8000 } = false ∧ tampered up q { payload := 5, ts := 0, time := 8000 } = true := by
  decide +kernel

/-! ### Events -/

theorem test_ray_walk_waits : let g := { other with tokens := [{ sreg := 20, work := .ray false 16 [(0, [0, 0, 0, 0, 0, 0, 0x3F800000, 0x7F800000])] (2 ^ 40 + 64 * 2 ^ 64 + 4 * 2 ^ 96) }] }
    (liveToken (beside g) 9 0).isSome = true ∧ (match walkAll (beside g) g false (recOfBits (2 ^ 40 + 64 * 2 ^ 64 + 4 * 2 ^ 96)) [(0, [0, 0, 0, 0, 0, 0, 0x3F800000, 0x7F800000])] with
      | .error (_, .miss) => true
      | _ => false) = true := by decide +kernel
/-- R205: a task that has written 256 lines writes no further one. -/
theorem test_task_is_over : taskOver (tasked { task1 with wset := (List.range 256).map fun i => (128 * i, 0) } other) 9 0 [] [128 * 2000] = true
    ∧ taskOver (tasked task1 other) 9 0 [0] [] = false := by decide +kernel
/-- A copy that is to load from a page without a mapping, or with a refused one, or to store to a page without one. -/
def copying (src dst : BitVec 128) (t : State) : Option CopyStop :=
  (copyLoop other 0xFF (copyEnd t other src false 0 0) (copyEnd t other dst false 4 0) 4 0 0 t).1
theorem test_copies_stop : let b : BitVec 128 := 4096 + 64 * 2 ^ 64 + 4 * 2 ^ 96
    let far : BitVec 128 := 2 ^ 40 + 64 * 2 ^ 64 + 4 * 2 ^ 96
    let s := beside other
    copying far b s = some ⟨0, 2 ^ 40, 0, .miss⟩ ∧ copying b far s = some ⟨0, 2 ^ 40 + 16, 1, .miss⟩ ∧ copying b b s = none
    ∧ copying b b { s with tlb := s.tlb.map fun e => { e with perm := 0 } } = some ⟨0, 4096, 0, .refused none⟩
    ∧ copying far b { s with agentWalks := [{ core := 0, ctx := 1, walked := { page := 2 ^ 40, kind := 0, outcome := 1 } }] } = some ⟨0, 2 ^ 40, 0, .absent⟩ := by decide +kernel

/-- R117: an `MCVT` completes once its tile is EMPTY. -/
theorem test_tile_is_awaited : let e := { entry1 with kind := .mcvt, begun := true }
    let s := fun (n : Nat) => { beside other with wgs := [{ uid := 2, grid := 3, ctx := 1, ntiles := 1, tiles := [(0, { state := n })] }] }
    e.dest = some (2, 0) ∧ mayComplete (s 0) e = true ∧ mayComplete (s 1) e = false ∧ entry1.dest = none := by decide +kernel
/-- R138: an entry of a pair that the full table held is compared again as it enters. -/
theorem test_held_pair : let i := Instr.mmaPair 0 12 13 0 0 0 0
    let s := fun (r : Word × Word × Word) => let t := meeting i r
      t.setG fun g => { g with stall := .table, held := some (.entry { entry1 with pair := true, hasU := true, wgC := 5, wgU := 2 }), rendezvous := some (low27 i, 0x10000, 0) }
    let u := s (low27 i, 0x10000, 0)
    (partnerOf (loadGroup u.grp.uid u)).map (fun p => p.uid) = some 9 ∧ (ev (.patternTableEnter u.grp.uid) u).pattern.length = 1
    ∧ (ev (.patternTableEnter u.grp.uid) (s (low27 i, 0x20000, 0))).pattern.length = 0 := by decide +kernel

/-- R219: an atomic that is performed with what the home holds, and a store to a member that has left. -/
theorem test_pending_kinds : let p := { pending1 with bytes := [], op := some .add, operand := 5 }
    homeBytes (ev (.storePerformAtHome 0) { beside other with stores := [p] }) 0x1000 1 = [5]
    ∧ (ev (.storePerformAtHome 0) { beside other with stores := [{ pending1 with addr := peerAddr 3 6 4, peer := some 3 }] }).stores = [] := by decide +kernel
theorem test_tasks_keep_the_record : let s := { tasked { task1 with grid := 3 } other with grids := [{ uid := 3, ctx := 1, ended := some 9000 }] }
    ev (.completionRecordWrite 3) s = s := by decide +kernel
/-- R248: device time passes the GWCT of what leaves its core. -/
theorem test_time_passes : let s := parent1 (beside other)
    let s := { s with groups := s.groups.map fun g => { g with gwct := [(0, 20000)] } }
    (ev (.workgroupSaveOut 2) s).time = 20001 ∧ ((ev (.preempt 1) (beside { other with gwct := [(0, 20000)] })).time) = 20001 := by decide +kernel
/-- R205: a task that wrote a byte makes it visible; one whose entries need a translation waits. -/
theorem test_task_writes : let k := { task1 with exited := true, wset := [(0x1000, 7)] }
    homeByte (ev (.taskCommit 3) (tasked k { other with live := 0 })) 0x1000 = 7 ∧ 0x1000 < taskScratch
    ∧ (let s := tasked { task1 with exited := true, pushes := [(3, 1, 9)] } { other with live := 0 }
       let s := { s with queues := s.queues.map fun q => { q with base := 2 ^ 40 } }
       (pushesWait s { task1 with pushes := [(3, 1, 9)] }).isSome = true ∧ (ev (.taskCommit 3) s).misses.length = 1) := by decide +kernel

/-- R313: the host writes its own memory; a write to a TAIL is the front end's. -/
theorem test_host_memory : let s := { withQueue ring1 with hostRanges := [(0x8000, 4096)] }
    isHost s 0x8800 = true ∧ homeBytes (ev (.cxlCacheSnoop 0x8800 [5]) s) 0x8800 1 = [5] ∧ (ev (.cxlCacheSnoop 0x8800 [5]) s).queues = s.queues
    ∧ ((findQueue 5 (ev (.cxlCacheSnoop 0x8000 (toBytes 8 4)) s)).map fun q => q.tail) = some 4 := by decide +kernel
theorem test_peer_load_takes_leases : (ev (.peerAccess 3 6 4 (.load 4)) exported).free ≠ exported.free
    ∧ (match agentWrite 0 1 0x1004 (toBytes 4 7) exported with
      | .ok t => decide (ev (.peerAccess 3 6 4 (.atomic .add 7 0)) { exported with members := [{ num := 3, joined := true, flit := 10000 }] }
          = { t with members := [{ num := 3, joined := true, flit := 10000 }] })
      | .error _ => false) = true := by decide +kernel
/-- R340: frames that a context left, a check that waits, and a check that time passes. -/
theorem test_frames_kept : let g := { good1 with k := 1 }
    let s := frames { kept := [g], gone := true } 900000
    frameFor s source1 1 = .complete g ∧ frameFor s source1 2 = .no
    ∧ (match frameFor { frames {} 900000 with tlb := [] } source1 1 with
      | .miss _ => true
      | _ => false) = true ∧ (ev .presentCheck { frames {} 900000 with tlb := [] }).present.checking = some 1 := by decide +kernel
theorem test_check_is_passed : (passTime 950000 (frames {} 10)).time = 900000 ∧ (passTime 950000 (frames {} 10)).present.decided = some (1, none) := by decide +kernel
theorem test_go_is_set : ev (.mailboxRegisterWrite 8 1) { up with mbox := { go := true } } = { up with mbox := { go := true } } := by decide +kernel
theorem test_queue_reset_sees_tail : ((findQueue 5 (ev .queueReset (ask 0x23 [5] (hostMemWrite 0x8000 (toBytes 8 4) (withQueue { ring1 with stopped := true }))))).map
    fun q => (q.tail, q.stopped)) = some (4, false) := by decide +kernel
theorem test_sample_is_dropped : let s := { beside other with ctxs := up.ctxs.map fun c => { c with samples := [{ grp := 9, pc := 64, va := 0 }] } }
    ((ev (.sampleRecord 9 64 0 []) s).ctxs.map fun c => c.samples) = [[]] := by decide +kernel
theorem toBytes_length (n v : Nat) : (toBytes n v).length = n := by
  induction n generalizing v with
  | zero => rfl
  | succ n h => simp [toBytes, h]
/-- R315: a quote that fits its buffer. -/
theorem test_quote_fits : (quote { up with ide := false } 0 (List.replicate 32 0) []).length ≤ 2000 := by
  simp only [quote, quoteBody, quoteEntries, up, List.length_append, List.length_take, List.length_replicate, toBytes_length, List.flatMap_cons,
    List.flatMap_nil, List.map_nil, List.append_nil, List.nil_append]
  omega
theorem test_events_need_streams : let s := { attached other with ide := false }
    (ev .dbgEvents (ask 0x89 [1, 0x9000, 64] s)).mbox.go = true ∧ (ev .dbgEvents (ask 0x89 [1, 0x9000, 64] (attached other))).mbox.go = false := by decide +kernel
theorem test_closure_item_refused : sts .dbgRead (ask 0x86 [1, 0, 0x200, 1] (attached halted1)) = (2, false) := by decide +kernel
theorem test_no_pc_item : let g := { halted1 with live := 0xFE, frontier := [{ pc := 64, mask := 0xFE }] }
    itemOk g 1 0x102 = true ∧ handlerRead (asHandler g 1) g 0x102 = none := by decide +kernel

/-- R175: code that reads a constant record whose page is in no TLB: the run waits for its walk. -/
def constReader : State :=
  let is : List Instr := [.smovi 1 9 0x100, .smovhi 1 9 0x2000, .smovi 1 10 64, .bset 1 2 8, .sldc 1 6 8 2 0]
  let ws := [0x000027A8] ++ is.map (fun i => (encode i).getD 0) ++ [0x00087F88, (encode (.exit 0)).getD 0]
  let c : Code := { va := 0x1000, size := 8, ventry := 0x100, vregs := 8, features := BitVec.allOnes 128 }
  { setHomeBytes 0x1100 (ws.flatMap fun w => toBytes 4 w.toNat) up with grids := [{ grid7 with code := c }] }
theorem test_tailor_waits : (ev (.tailorRun 7) constReader).misses.map (fun m => m.va) = [2 ^ 40]
    ∧ (findGrid 7 (ev (.tailorRun 7) constReader)).map (fun g => g.tailorDue) = some true := by decide +kernel

/-! ### Values of frames, mixtures, hits and samples -/

/-- The examples of R103. -/
theorem test_frint_ffrac : frint 0 0xBE99999A = 0x80000000 ∧ frint 3 0xBE99999A = 0xBF800000 ∧ frint 2 0x00000001 = 0x3F800000
    ∧ ffrac 0xBE800000 = 0x3F400000 ∧ ffrac 0xB0800000 = 0x3F7FFFFF := by decide +kernel

/-- Operands of each kind of R103: no number, an infinity, an integral value, and one with a fraction. -/
theorem test_integral_operands : isNan32 0x7FC00001 = true ∧ isInf32 0xFF800000 = true ∧ f32 0x4B800001 = .fin false 8388609 (1 : Nat)
    ∧ f32 0xC0200000 = .fin true 10485760 (-(22 : Nat)) := by decide +kernel

/-- R78 and R102: `FRCP` of +0 with SAT; R77: 2^3. -/
theorem test_special_cases : recip fp32 { sat := true } (.fin false 0 0) = 0x7F7FFFFF ∧ exp2F fp32 {} (.fin false 3 (-(0 : Nat))) = 130 * 2 ^ 23
    ∧ ({ sat := true } : Ctl).mode = 0 := by decide +kernel

def upward : V3 := ⟨0, 0, 0x3F800000⟩
def sideward : V3 := ⟨0x3F800000, 0, 0⟩

/-- R154: a normal along z, a tangent along x, and a direction along the normal. -/
theorem test_frame_along_axes : frameOf upward sideward upward = some (upward, 0, upward) := by decide +kernel

theorem test_frame_without_normal : isZero32 (dot3 ⟨0, 0, 0⟩ ⟨0, 0, 0⟩) = true ∧ frameOf ⟨0, 0, 0⟩ sideward upward = none := by decide +kernel

/-- A closure with one MATT lobe of weight 1 and albedo 1. -/
def matt : Closure := { nx := 0, ny := 0, nz := 0x3F800000, oz := 0x3F800000, fvalid := true, ncount := 1
                        lobes := [{ type := 0, w := 0x3F800000, p0 := 0x3F800000, depth := 0, p1 := 0, p2 := 0, p3 := 0, p4 := 0, p5 := 0 }] }

/-- R156, R161: straight up, a MATT lobe has the value 1/π in its first channel, and the pdf 1/π. -/
theorem test_mixture_of_one : mixEval (fun _ => []) matt upward = ⟨0x3EA2F983, 0, 0, 0x3EA2F983⟩ ∧ matt.lobes ≠ []
    ∧ isZero32 (dot3 upward upward) = false := by decide +kernel

/-- R162: q0 of 0 draws the direction straight up from lobe 0. -/
theorem test_draw_of_one : sampDraw matt 0 0 0 = .dir 0 upward := by decide +kernel

/-- A ray along z through the unit triangle in the plane z = 0. -/
def straight : Ray := { o := ⟨0x3E800000, 0x3E800000, 0xBF800000⟩, d := upward, tmin := 0, tmax := 0x7F800000 }

/-- R167: it is hit at t = 1 with the weights 1/4 and 1/4. -/
theorem test_triangle_is_hit : (triHit straight ⟨0, 0, 0⟩ sideward ⟨0, 0x3F800000, 0⟩ 7 9).map (fun h =>
      (frac32 h.t h.den, frac32 h.u h.den, frac32 h.v h.den, h.prim, h.inst)) = some (0x3F800000, 0x3E800000, 0x3E800000, 7, 9)
    ∧ invalidRay straight = false := by decide +kernel

/-- R167: a range that ends before the triangle. -/
theorem test_triangle_out_of_range : triHit { straight with tmax := 0x3F000000 } ⟨0, 0, 0⟩ sideward ⟨0, 0x3F800000, 0⟩ 7 9 = none
    ∧ invalidRay { straight with tmin := 0x7FC00000 } = true := by decide +kernel

/-- R169, R170: a triangle of four pixels, at depths 1 and 2. -/
def patch (z : Word) (vis : Word) : VRec := { x := [0, 0, 1024], y := [0, 1024, 0], z := [z, z, z], vis := vis }

theorem test_nearer_sample : visPixel [patch 0x40000000 5, patch 0x3F800000 6, patch 0x3F800000 7] 128 128 = some (0x3F800000, 6)
    ∧ visPixel [patch 0x3F800000 0xFFFFFFFF] 128 128 = none := by decide +kernel

/-! ### Further states that meet hypotheses -/

/-- R73: an overflow and a tie; R74: the sign of an exact zero. -/
theorem test_rounding : fp16.round {} (.fin false 65520 0) = 0x7C00 ∧ fp16.round { mode := 1 } (.fin false 65520 0) = 0x7BFF
    ∧ fp16.round {} (.fin false 2049 0) = 0x6800 ∧ fp16.round {} (.fin true 2051 0) = 0xE802 ∧ (FVal.sum 3 [.fin false 1 0, .fin true 1 0]).sign = true
    ∧ (FVal.sum 0 [.fin false 1 0, .fin true 1 0]).sign = false ∧ fp32.input true (fp32.signed true 5) = .fin true 0 0 := by decide +kernel
theorem test_rounding_hint : let s := (on (.fadd 0 1 2 3)).setPos fun p => { p with hints := { rnd := some { mode := 2, sat := true, ftz := false, seed := 7 } } }
    (curHints s).rnd.isSome = true ∧ (ctlOf s 0 0).mode = 2 ∧ (ctlOf s 0 0).sat = true := by decide +kernel

/-- R184: a point that gives a register of each kind its value, and one that lies past the trap. -/
def pointed (k n : Nat) : Group := { other with code := { residual := some { restore := [(4, []), (8, [(k, n)]), (40, [])] } } }
theorem test_statics : getV (restoreStatics 8 1 (pointed 5 7)) 5 0 = 7 ∧ getV (restoreStatics 8 1 (pointed 5 7)) 5 1 = 0
    ∧ getK (restoreStatics 12 1 (pointed 0x105 7)) 5 0 = 7 ∧ getS (restoreStatics 8 1 (pointed 0x205 7)) 5 = 7 ∧ getB (restoreStatics 8 1 (pointed 0x305 7)) 5 = 7
    ∧ restoreStatics 0 1 (pointed 5 7) = pointed 5 7 ∧ restoreStatics 40 1 (pointed 5 7) = pointed 5 7 := by decide +kernel

/-- R317: a load that was lost. R226: an exclusive load takes its reservation as it is performed, if no boundary has come. -/
def reading (k : LoadKind) : PLoad := { place := .mem, lane := 0, addr := 0x1000, size := 4, scope := 2, evc := 0, reg := .v 3, how := k }
theorem test_loads_of_each_kind : let s := (beside other)
    let t := { s with grp := { other with arming := [(0, { place := 0, addr := 0x1000, size := 4 })] }, groups := [] }
    (performLoad other { reading .plain with lost := true } s).1.map (fun w => w.val) = [0xFFFFFFFF]
    ∧ (performLoad t.grp (reading .exclusive) t).2.grp.resv = [(0, { place := 0, addr := 0x1000, size := 4 })]
    ∧ (performLoad s.grp (reading .exclusive) s).2.grp.resv = []
    ∧ homeBytes (performLoad other (reading (.atomic .add 5 0)) s).2 0x1000 1 = [5] := by decide +kernel
/-- R199: in a deterministic context a lane's load and its atomic at workgroup scope are performed at once. -/
theorem test_det_is_at_once : let s := (on (.ldx 0 2 4 6 0)).setG (setB 2 0x10000000000000001000)
    let s := lone { s with ctxs := s.ctxs.map fun c => { c with det := true } }
    exclusiveDet s 2 = none ∧ defers s 0 = false ∧ anySpec s = false
    ∧ ((after (.ldx 0 2 4 6 0) s).grp.ops.map fun o => (o.loads.length, o.writes.length)) = [(0, 1)]
    ∧ ((after (.ldx 0 2 4 6 0) (solo (.ldx 0 2 4 6 0))).grp.ops.map fun o => (o.loads.length, o.writes.length)) = [(1, 0)]
    ∧ (after (.ldx 0 2 4 6 0) ((solo (.ldx 0 2 4 6 0)).setPos fun p => { p with len := 9 })).grp.arming.length = 1 := by decide +kernel

/-- R357: a resolve that lane 0 has pending, on the records of `visible`. -/
def resolving (s : State) : State := (visible s).setG fun g => { g with tokens := [{ sreg := 3, work := .visq 0 0 0 0 4 0 (getB g 27) (getB g 28) }] }
theorem test_resolve_is_awaited : let f := resolving (on (.fence 0 0 1))
    visqPending f.grp 1 = true ∧ visqPending f.grp 2 = false ∧ (after (.fence 0 0 1) f).grp.stall = .token
    ∧ (after (.bar 0 0) (padded (resolving (on (.bar 0 0))))).grp.stall = .token ∧ visqMeets f.grp 0 0x1000 4 = true ∧ visqMeets f.grp 0 0x9000 4 = false
    ∧ visqMeets f.grp 1 0x1000 4 = false ∧ (after (.visq 0 22 16) (resolving (on (.visq 0 22 16)))).grp.stall = .token := by decide +kernel

/-- R52, R216, R230: operands of the word itself that trap after the registers. -/
theorem test_own_operands : ((after (.bset 0 30 8) (on (.bset 0 30 8))).grp.trap.map fun r => r.cause) = some 2
    ∧ ((after (.bset 0 2 61) (on (.bset 0 2 61))).grp.trap.map fun r => r.cause) = some 2
    ∧ ((after (.bload 0 30 2 6) (solo (.bload 0 30 2 6))).grp.trap.map fun r => r.cause) = some 2
    ∧ ((after (.acas 0 2 0xE1 7 2) (record 2 (on (.acas 0 2 0xE1 7 2)))).grp.trap.map fun r => r.cause) = some 2 := by decide +kernel
/-- R269: `SLDC` without an active lane still loads. -/
theorem test_sldc_without_lanes : let s := (solo (.sldc 0 6 8 2 0)).setG fun g => { g with act := g.act.map fun e => { e with mask := 0 } }
    active s = 0 ∧ ((after (.sldc 0 6 8 2 0) s).grp.ops.length) = 1 := by decide +kernel
/-- R247: `CHWAIT` with a count of 0 is an acquire. -/
theorem test_chwait_acquires : let s := (on (.chwait 0)).setG fun g => { g with ops := [{ flag := 4, writes := [], loads := [{ reading .plain with scope := 3 }] }], f := [(4, 1)] }
    ((after (.chwait 0) s).grp.ops.map fun o => o.loads.length) = [0] := by decide +kernel

/-- R157 to R160: lobes of each type, above and below the surface. -/
def lobe1 (t : Nat) : Lobe := { type := t, w := 0x3F800000, p0 := 0x3F000000, depth := 0, p1 := 0x3F000000, p2 := 0x3F000000, p3 := 0x3F000000, p4 := 0x3F000000, p5 := 0 }
def slanted : V3 := ⟨0, 0x3F19999A, 0x3F4CCCCD⟩
def below (v : V3) : V3 := ⟨v.x, v.y, v.z ^^^ 0x80000000⟩
theorem test_lobes_reject : lobeEval (fun _ => []) (lobe1 1) upward (below upward) = ⟨0, 0, 0, 0⟩ ∧ lobeEval (fun _ => []) (lobe1 3) (below upward) upward = ⟨0, 0, 0, 0⟩
    ∧ lobeEval (fun _ => []) (lobe1 4) upward (below upward) = ⟨0, 0, 0, 0⟩ ∧ lobeEval (fun _ => []) (lobe1 2) sideward upward = ⟨0, 0, 0, 0⟩
    ∧ lobeSample (lobe1 1) (below upward) 0 0 0 = none ∧ lobeSample (lobe1 2) sideward 0 0 0 = none := by decide +kernel
theorem test_lobes_have_values : (lobeEval (fun _ => []) (lobe1 1) upward slanted).p ≠ 0 ∧ (lobeSample (lobe1 1) upward 0 0 0).isSome = true
    ∧ (lobeEval (fun _ => []) (lobe1 3) upward slanted).p = fmul32 0x3F4CCCCD 0x3EA2F983
    ∧ le32 slanted.z 0 = false ∧ lt32 0 slanted.z = true ∧ lt32 (below slanted).z 0 = true := by decide +kernel

/-- R166: a header, one node of the unit square in the plane z = 0, and the triangle of `straight`; KIND and the number of the primitive vary. -/
def tree (kind prim : Nat) : List Byte :=
  let f := fun (l : List Nat) => l.flatMap (toBytes 4)
  f [32, 64, 112, 0, 0, 0, 0, 0] ++ f [0, 0, 0, 0x3F800000, 0x3F800000, 0, 0, kind * 2 ^ 30 + 1]
    ++ f [0, 0, 0, 0x3F800000, 0, 0, 0, 0x3F800000, 0, prim, 0, 0]
def walked (any : Bool) (bs : List Byte) (tmax : Word) : List Word :=
  match walkRay (setHomeBytes 0x1000 bs up) 0 1 none any (recOfBits (4096 + 112 * 2 ^ 64))
      [0x3E800000, 0x3E800000, 0xBF800000, 0, 0, 0, 0x3F800000, tmax] with
  | .ok (ws, _) => ws
  | .error _ => []
theorem test_walks : walked false (tree 1 7) 0x7F800000 = [0x3F800000, 0x3E800000, 0x3E800000, 7, 0xFFFFFFFF]
    ∧ walked true (tree 1 7) 0x7F800000 = [0x3F800000, 0x3E800000, 0x3E800000, 7, 0xFFFFFFFF]
    ∧ walked false (tree 1 7) 0x3F000000 = [0x7F800000, 0, 0, 0xFFFFFFFF, 0xFFFFFFFF] ∧ walked false (tree 3 7) 0x7F800000 = [0x7FC00000, 0, 0, 0xFFFFFFFD, 0]
    ∧ walked true (tree 1 0xFFFFFFFD) 0x7F800000 = [0x7FC00000, 0, 0, 0xFFFFFFFD, 0] ∧ walked true (tree 2 7) 0x7F800000 = [0x7FC00000, 0, 0, 0xFFFFFFFD, 0] := by
  decide +kernel

/-- R205: the token of an aborted task, and a walk and a resolve that would read too much for a speculative one. -/
theorem test_void_token : let g := { other with tokens := [{ sreg := 20, work := .void }] }
    (liveToken (beside g) 9 0).isSome = true ∧ ((findGroup 9 (ev (.visqComplete 9 0) (beside g))).map fun h => h.tokens.length) = some 0 := by decide +kernel
/-- R170: a resolve of one record that covers the samples of its tile at depth 1. -/
def resolvable : State :=
  let f := fun (l : List Nat) => l.flatMap (toBytes 4)
  let g := { other with tokens := [{ sreg := 20, work := .visq 0 0 0 0 1 0 (4096 + 1 * 2 ^ 64 + 48 * 2 ^ 96) (8192 + 2 * 2 ^ 57 + 2048 * 2 ^ 64 + 4 * 2 ^ 96), lanes := 1 }] }
  setHomeBytes 0x1000 (f [0, 0, 0x3F800000, 0, 1024, 0x3F800000, 1024, 0, 0x3F800000, 5, 0, 0]) (beside g)
theorem test_resolve_hypotheses : let g := (resolvable.groups.head?).getD {}
    let b27 : BitVec 128 := 4096 + 1 * 2 ^ 64 + 48 * 2 ^ 96
    resolvable.stores = [] ∧ resolvable.caches = [] ∧ specTask resolvable 9 0 = none ∧ insideOf (recOfBits b27) 48 0 1 = 1
    ∧ (match listAddrs resolvable g (recOfBits b27) 0 [0] with
      | .ok [as] => decide (as.length = 10) && as.all Option.isSome
      | _ => false) = true := by decide +kernel
/-- R232: the bytes of a copy lie inside both records and apart. -/
theorem test_copy_places : let s := beside other
    let b : BitVec 128 := 4096 + 64 * 2 ^ 64 + 4 * 2 ^ 96
    let src := copyEnd s other b false 0 0
    let dst := copyEnd s other b false 4 0
    (List.range 4).all (fun i => src.inside i && dst.inside i && decide (src.trans s other i 0 = .ok (0x1000 + i)) && decide (dst.trans s other i 1 = .ok (0x1010 + i)))
      = true ∧ s.stores = [] ∧ s.caches = [] ∧ s.tasks = [] := by decide +kernel

/-- A workgroup with two tiles of 8-bit codes and an accumulator. -/
def tiles2 (s : State) : State :=
  { s with wgs := [{ uid := 2, grid := 3, ctx := 1, ntiles := 4, naccs := 4
                     tiles := [(0, { state := 2, present := 1, tag := some 8, data := [(0, 0xFE)] }), (1, { state := 2, present := 1, tag := some 8, data := [(0, 3)] })] }] }
def mma1 : PEntry := { entry1 with kind := .mma, sel := 2 ^ 16, val := 8, begun := true }
/-- R129: minus 2 times 3, alone and added to what is there; R132: the entry clears it again. -/
theorem test_entry_values : let s := { tiles2 (beside other) with pattern := [mma1] }
    let t := completeEntry mma1 s
    accGet (accAt t (2, 0)) 0 0 = 0xFFFFFFFA ∧ bit (accAt t (2, 0)).pres 0 = true ∧ bit (accAt t (2, 0)).pres 1 = false
    ∧ accGet (accAt (completeEntry { mma1 with acc := true } t) (2, 0)) 0 0 = 0xFFFFFFF4 ∧ accAt (completeEntry { mma1 with kind := .mzero } t) (2, 0) = {}
    ∧ mma1.writes.contains (2, 0) = true ∧ mma1.writes.contains (2, 1) = false := by decide +kernel
/-- R136, R139: the sides of a pair, both or one alone; R144. -/
theorem test_pair_entries : let s := tiles2 (beside other)
    let s := { s with wgs := s.wgs ++ s.wgs.map fun w => { w with uid := 5, side := 1, partner := 2 } }
    let e : PEntry := { mma1 with pair := true, wgU := 5, hasU := true, sel := 2 ^ 17 }
    let l := { e with hasU := false }
    accGet (accAt (completeEntry e s) (2, 0)) 0 0 = 0xFFFFFFFA ∧ accGet (accAt (completeEntry e s) (5, 0)) 0 0 = 0xFFFFFFFA ∧ e.lone = false
    ∧ accAt (completeEntry l s) (5, 0) = {} ∧ l.lone = true ∧ (completeEntry l s).wgs.map (fun w => w.flags) = [1, 0] := by decide +kernel
/-- R141, R142: a conversion publishes its tile, and guidance takes the side that is there. -/
theorem test_entry_kinds : let s := tiles2 (beside other)
    let t := completeEntry mma1 s
    let c : PEntry := { mma1 with kind := .mcvt, sel := 2 * 2 ^ 7, val := 9 }
    let m : PEntry := { mma1 with kind := .mguid, pair := true, wgU := 5, sel := 1 }
    (tileAt (completeEntry c t) (2, 2)).state = 2 ∧ (tileAt (completeEntry c t) (2, 2)).tag = some 9 ∧ c.dest = some (2, 2)
    ∧ accGet (accAt (completeEntry { m with sel := 2 } t) (2, 1)) 0 0 = accGet (accAt t (2, 0)) 0 0 ∧ bit (accAt t (2, 0)).pres 0 = true := by decide +kernel
/-- R117, R122: a release that the entry asked for, and the numbers of a bobbin thread. -/
theorem test_entry_ends : let b := { other with kind := .bobbin, uid := 11, wg := 2, mark := 0, doneAbove := [2] }
    let s := { tiles2 (beside b) with pattern := [] }
    let s := { s with wgs := s.wgs.map fun w => { w with tiles := w.tiles.map fun p => if p.1 = 0 then (0, { p.2 with relReq := 1 }) else p } }
    let e := { mma1 with seqC := 1, rela := true }
    ((findGroup 11 (completeEntry e s)).map fun g => (g.mark, g.doneAbove)) = some (2, []) ∧ tileAt (completeEntry e s) (2, 0) = { relReq := 1, rels := 1 }
    ∧ e.released.contains (2, 0) = true := by decide +kernel

/-- R217: stores of a workgroup's scope and of the scratchpad are performed. -/
theorem test_near_stores : let s := beside other
    (ev (.storePerformAtHome 0) { s with stores := [{ pending1 with scope := 1 }] }).caches.map (fun c => c.dirty) = [[(0, 1), (1, 2)]]
    ∧ ((findWg 2 (ev (.storePerformAtHome 0) { s with stores := [{ pending1 with scope := 0, addr := taskScratch + 2 * 2 ^ 20 + 8 }] })).map fun w => w.scratch)
      = some [(8, 1), (9, 2)] := by decide +kernel
/-- R205, R207: a task whose copy is pending does not commit, and one whose entry for a bin waits enters it at its commit. -/
theorem test_task_kinds : let k := { task1 with exited := true, grid := 3 }
    let e : BinEntry := { val := 9, time := 100, gen := 0, gid := 0, round := 0, gidx := 0, lane := 0, id := 1, side := 0 }
    workDone (tasked k { other with tokens := [{ sreg := 3, work := .void, lanes := 1 }] }) k = false
    ∧ ((findGrid 3 (ev (.taskCommit 3) (tasked { k with regrps := [(64, e)] } { other with live := 0 }))).map fun g => g.bins.map fun b => (b.target, b.entries.length))
      = some [(64, 1)]
    ∧ (let s := tasked k other; mayArrive { s with groups := s.groups ++ [{ other with uid := 12 }] } k) = true := by
  decide +kernel
/-- R306: a page report whose ring stands in HBM. -/
theorem test_report_in_hbm : let s := { up with ring := some { base := 0x10000, n := 64, headAddr := 0x9000 }, reports := [{ ctx := 1, page := 0x70000, kind := 1 }] }
    isHost s 0x10000 = false ∧ (sgets 0 0x10000 32 (ev .pageReportWrite s).host) = reportBytes s { ctx := 1, page := 0x70000, kind := 1 } := by decide +kernel
/-- R340: a save of the frame source's context waits for the slots that it keeps. -/
theorem test_save_waits : let s := { frames {} 900000 with tlb := [] }
    ringWaits 1 s = some 0 ∧ (ev (.preempt 1) s).misses.length = 1 ∧ ringWaits 1 up = none ∧ (ev .ctxPreempt (ask 0x8A [1] { s with ctxs := (attached other).ctxs })).misses.length = 1 := by
  decide +kernel
/-- R28, R30: a pair of workgroups in one cluster, of the grid's range or formed from its queue. -/
theorem test_pairs_are_placed : let g := { ready7 with launch := { ready7.launch with pair := true } }
    let w := (List.range 16)
    (pairRooms (placing g) g 1 0 1).isSome = true ∧ pairRooms (placing g) g 1 0 4 = none
    ∧ ((ev (.workgroupPlace 7 0 0 1 w) (placing g)).wgs.map fun w => (w.side, decide (w.partner = 0))) = [(0, false), (1, false)]
    ∧ pairFormed g { gid := 0, gen := 0, start := none, vals := [1] } = true ∧ pairFormed g { gid := 0, gen := 1, start := some 4, vals := [1] } = false := by
  decide +kernel
/-- R340: a check whose translation has come looks at the memory of its moment, and `TDONE` is written. -/
theorem test_check_has_waited : let s := setHomeBytes 0 [2, 0, 0, 0, 0, 0, 0, 0, 1] (frames { checking := some 1 } 950000)
    (ev .presentCheck s).present.decided = some (1, none)
    ∧ ((ev .presentCheck { s with present := { s.present with seen := (s.hbm, s.host, s.peer) } }).present.decided.map fun d => d.2.isSome) = some true
    ∧ homeBytes (ev .presentCheck { s with present := { s.present with seen := (s.hbm, s.host, s.peer) } }) 16 8 = toBytes 8 950000 := by decide +kernel
/-- R254, R300: the end of a context whose completion record waits for a translation. -/
theorem test_destroy_waits : let s := { beside other with grids := [{ uid := 3, ctx := 1, launch := { compl := 2 ^ 40 } }] }
    let t := ev .ctxDestroy (ask 2 [1] s)
    t.ctxs.map (fun c => (c.ending, c.resident, c.due.length)) = [(true, false, 1)] ∧ t.mbox.begun = true ∧ t.groups = [] ∧ t.misses.length = 1
    ∧ (ev .ctxDestroy { t with tlb := [{ core := 0, ctx := 1, va := 2 ^ 40, size := 0, pa := 0, perm := 15 }] }).ctxs = []
    ∧ copiedRecords 1 up = [] ∧ sourceOfCtx 1 up = none := by decide +kernel
/-- R303: a queue and a window of another context. -/
theorem test_not_its_own : let s := { exported with ctxs := exported.ctxs ++ [{ id := 2 }], queues := [queue3] }
    sts .queueSetup (ask 0x20 [3, 2, 1, 64] s) = (3, false) ∧ sts .queueSetup (ask 0x20 [3, 1, 1, 64] s) = (4, false)
    ∧ sts .peerExport (ask 0x40 [2, 0x1000, 64, 3, 6] s) = (3, false) := by decide +kernel
/-- R330: a context without room to come back to. -/
theorem test_restore_waits : let s := ask 0x8B [1] { with1 (fun c => { c with attached := true, resident := false }) with
        ctxs := (with1 fun c => { c with attached := true, resident := false }).ctxs ++ (List.range 64).map fun i => { id := i + 2, resident := true } }
    (ev .ctxRestore s).mbox.go = true := by decide +kernel
/-- R335: a sampled request that is still in flight. -/
theorem test_sample_waits : let g := { other with ops := [{ flag := 4, writes := [], loads := [reading .plain] }] }
    let x : Sample := { grp := 9, pc := 64, va := 0, key := some 0x1000 }
    requestDone g x (beside g) = false ∧ requestDone other x (beside other) = true := by decide +kernel
/-- R316: a word that stands in the window of a peer. -/
theorem test_code_from_a_peer : peerOf (peerAddr 3 6 4) = some 3 ∧ ((flitFrom (peerAddr 3 6 4) joined).members.map fun m => m.flit) = [10000] := by decide +kernel
/-- R25: a second group at the same word joins the issue. -/
theorem test_word_joins : let s := State.reset.withFetchWord 32 0xA30A0005
    let h := { s.grp with uid := 99, slot := 4 }
    let t := { s with groups := s.groups ++ [h] }
    packs t t.grp h = true ∧ packs t t.grp { h with joined := [(5, 64)] } = false := by decide +kernel

end Sys2Proof.Tests
end

/-! ### The ledger: what a context's end is about

Stopping a context performs loads and stores, completes entries of the pattern table and asks for translations. None of this touches what
`ledger` keeps of a state, one lemma for each operation. -/

namespace Sys2Proof.Machine

/-- What a context's standing is: its number, whether it is ending, whether it is resident. -/
def Context.standing (c : Context) : Nat × Bool × Bool := (c.id, c.ending, c.resident)

/-- The errors of units, the pockets, the standing of every context, and whose the workgroups and the grids are. -/
structure Ledger where
  unitErrors : List UnitId
  pockets : List Pocket
  ctxs : List (Nat × Bool × Bool)
  wgs : List Nat
  grids : List Nat

/-- The ledger of a state. -/
def ledger (s : State) : Ledger :=
  { unitErrors := s.unitErrors, pockets := s.pockets, ctxs := s.ctxs.map Context.standing
    wgs := s.wgs.map fun w => w.ctx, grids := s.grids.map fun g => g.ctx }

theorem ledger_foldl {α : Type} (f : State → α → State) (h : ∀ s a, ledger (f s a) = ledger s) (l : List α) (s : State) :
    ledger (l.foldl f s) = ledger s := by
  induction l generalizing s with
  | nil => rfl
  | cons a l ih => exact (ih _).trans (h s a)

/-! ### Updates by name -/

/-- Changing some members of a list leaves what a function reads of them all, if it leaves it of each. -/
theorem map_update {α β : Type} (p : α → β) (c : α → Prop) [DecidablePred c] (f : α → α) (h : ∀ a, p (f a) = p a) (l : List α) :
    (l.map fun a => if c a then f a else a).map p = l.map p := by
  rw [List.map_map]
  refine List.map_congr_left fun a _ => ?_
  simp only [Function.comp_apply]
  split
  · exact h a
  · rfl

theorem ledger_updGroup (uid : Nat) (f : Group → Group) (s : State) : ledger (updGroup uid f s) = ledger s := by
  unfold updGroup; split <;> rfl

theorem ledger_mapGroups (f : Group → Group) (s : State) : ledger (mapGroups f s) = ledger s := rfl

theorem ledger_updWg (uid : Nat) (f : Workgroup → Workgroup) (s : State)
    (h : ∀ w, (f w).ctx = w.ctx := by intro; rfl) : ledger (updWg uid f s) = ledger s := by
  simp [ledger, updWg, map_update (fun w : Workgroup => w.ctx) _ f h]

theorem ledger_updGrid (uid : Nat) (f : Grid → Grid) (s : State)
    (h : ∀ g, (f g).ctx = g.ctx := by intro; rfl) : ledger (updGrid uid f s) = ledger s := by
  simp [ledger, updGrid, map_update (fun g : Grid => g.ctx) _ f h]

theorem ledger_updCtx (id : Nat) (f : Context → Context) (s : State)
    (h : ∀ c, (f c).standing = c.standing := by intro; rfl) : ledger (updCtx id f s) = ledger s := by
  simp [ledger, updCtx, map_update Context.standing _ f h]

theorem ledger_setEvt (i : Nat) (s : State) : ledger (setEvt i s) = ledger s := by
  unfold setEvt; dsimp only; split_ifs <;> rfl

/-! ### Stores at the home -/

theorem ledger_setHomeByte (a : Nat) (b : Byte) (s : State) : ledger (setHomeByte a b s) = ledger s := by
  unfold setHomeByte; split_ifs <;> rfl

theorem ledger_setHomeBytes (a : Nat) (bs : List Byte) (s : State) : ledger (setHomeBytes a bs s) = ledger s := by
  induction bs generalizing a s with
  | nil => rfl
  | cons b bs ih => exact (ih _ _).trans (ledger_setHomeByte a b s)

theorem ledger_noteOld (a : Nat) (bs : List Byte) (s : State) : ledger (noteOld a bs s) = ledger s := by
  induction bs generalizing a s with
  | nil => rfl
  | cons b bs ih => unfold noteOld; rw [ih]; split <;> rfl

theorem ledger_flitFrom (a : Nat) (s : State) : ledger (flitFrom a s) = ledger s := by
  unfold flitFrom; split <;> rfl

theorem ledger_raiseGwct (who : Option (Nat × Nat)) (t : Nat) (s : State) : ledger (raiseGwct who t s) = ledger s := by
  unfold raiseGwct; split
  · rfl
  · exact ledger_updGroup _ _ _

theorem ledger_performStore (who : Option (Nat × Nat)) (core a : Nat) (bs : List Byte) (s : State) :
    ledger (performStore who core a bs s) = ledger s := by
  have hb : ledger (setHomeBytes a bs (noteOld a bs s)) = ledger s := (ledger_setHomeBytes _ _ _).trans (ledger_noteOld _ _ _)
  unfold performStore
  split_ifs
  · rfl
  · exact (ledger_flitFrom _ _).trans ((ledger_raiseGwct _ _ _).trans hb)
  · exact (ledger_raiseGwct _ _ _).trans hb

theorem ledger_writeBackLine (c : CLine) (s : State) : ledger (writeBackLine c s) = ledger s := by
  unfold writeBackLine
  split
  · rfl
  · exact (ledger_foldl _ (fun _ _ => ledger_raiseGwct _ _ _) _ _).trans (ledger_foldl _ (fun _ _ => ledger_performStore _ _ _ _ _) _ _)

theorem ledger_writeBackWhere (p : CLine → Bool) (s : State) : ledger (writeBackWhere p s) = ledger s :=
  ledger_foldl _ (fun s c => ledger_writeBackLine c s) _ _

theorem ledger_writeBackAt (core line : Nat) (s : State) : ledger (writeBackAt core line s) = ledger s := ledger_writeBackWhere _ s

/-! ### Copies and loads -/

theorem ledger_putLine (c : CLine) (s : State) : ledger (putLine c s) = ledger s := by
  unfold putLine; split <;> rfl

theorem ledger_fillLine (lvl unit line expiry evc : Nat) (bytes : List Byte) (s : State) :
    ledger (fillLine lvl unit line expiry evc bytes s) = ledger s := ledger_putLine _ _

theorem ledger_keepLine (core line evc : Nat) (s : State) : ledger (keepLine core line evc s) = ledger s := by
  unfold keepLine; split <;> rfl

theorem ledger_grantLease (line : Nat) (s : State) : ledger (grantLease line s).2 = ledger s := by
  unfold grantLease; split <;> rfl

theorem ledger_holds (c : CLine) (s : State) : ledger (holds c s).2 = ledger s := by
  unfold holds; split <;> rfl

theorem ledger_readHome (core : Nat) (lease : Bool) (evc a n : Nat) (s : State) : ledger (readHome core lease evc a n s).2 = ledger s := by
  have hw : ledger (flitFrom a (writeBackAt core (lineOf a) s)) = ledger s := (ledger_flitFrom _ _).trans (ledger_writeBackWhere _ _)
  have hl := (ledger_grantLease (lineOf a) (flitFrom a (writeBackAt core (lineOf a) s))).trans hw
  unfold readHome
  dsimp only
  split
  · rw [ledger_fillLine]
    split
    · exact hl
    · exact (ledger_fillLine _ _ _ _ _ _ _).trans hl
  · exact hw

theorem ledger_readL2 (core evc a n : Nat) (s : State) : ledger (readL2 core evc a n s).2 = ledger s := by
  unfold readL2
  dsimp only
  split
  · exact ledger_readHome _ _ _ _ _ _
  · rename_i c _
    have hh := ledger_holds c s
    split
    · split
      · exact (ledger_fillLine _ _ _ _ _ _ _).trans hh
      · exact (ledger_readHome _ _ _ _ _ _).trans hh
    · exact (ledger_readHome _ _ _ _ _ _).trans hh

theorem ledger_readCopy (core scope evc a n : Nat) (s : State) : ledger (readCopy core scope evc a n s).2 = ledger s := by
  have miss : ∀ t : State, ledger t = ledger s →
      ledger (if scope ≤ 1 then readHome core true evc a n t else readL2 core evc a n t).2 = ledger s := by
    intro t ht
    split
    · exact (ledger_readHome _ _ _ _ _ _).trans ht
    · exact (ledger_readL2 _ _ _ _ _).trans ht
  unfold readCopy
  dsimp only
  split
  · exact ledger_readHome _ _ _ _ _ _
  · split
    · exact miss s rfl
    · rename_i c _
      split
      · rfl
      · have hh := ledger_holds c s
        split
        · split
          · exact hh
          · exact miss _ hh
        · exact miss _ hh

theorem ledger_readMem (core scope evc a n : Nat) (s : State) : ledger (readMem core scope evc a n s).2 = ledger s :=
  (ledger_keepLine _ _ _ _).trans (ledger_readCopy _ _ _ _ _ _)

theorem ledger_storeL1 (uid lane core evc a : Nat) (bs : List Byte) (s : State) : ledger (storeL1 uid lane core evc a bs s) = ledger s :=
  ledger_putLine _ _

theorem ledger_noteTask (who : Option (Nat × Nat)) (a : Nat) (bs : List Byte) (s : State) : ledger (noteTask who a bs s) = ledger s := rfl

theorem ledger_breakResv (who : Option (Nat × Nat)) (place line : Nat) (s : State) : ledger (breakResv who place line s) = ledger s := rfl

theorem ledger_scratchStore (who : Option (Nat × Nat)) (wg off : Nat) (bs : List Byte) (s : State) :
    ledger (scratchStore who wg off bs s) = ledger s := by
  unfold scratchStore
  rw [ledger_breakResv, ledger_updWg _ _ _ (by intro; rfl)]

theorem ledger_performPending (core : Nat) (p : PStore) (s : State) : ledger (performPending core p s) = ledger s := by
  unfold performPending
  dsimp only
  split
  · exact ledger_scratchStore _ _ _ _ _
  · split
    · rfl
    · split
      · split
        · exact ledger_storeL1 _ _ _ _ _ _ _
        · exact (ledger_storeL1 _ _ _ _ _ _ _).trans (ledger_readMem _ _ _ _ _ _)
      · exact (ledger_performStore _ _ _ _ _).trans ((ledger_keepLine _ _ _ _).trans (ledger_writeBackWhere _ _))

theorem ledger_performWhere (p : PStore → Bool) (s : State) : ledger (performWhere p s) = ledger s :=
  ledger_foldl _ (fun s x => ledger_performPending _ x s) _ _

theorem ledger_drainOwn (uid lane line : Nat) (s : State) : ledger (drainOwn uid lane line s) = ledger s := ledger_performWhere _ s
theorem ledger_drainCore (core line : Nat) (s : State) : ledger (drainCore core line s) = ledger s := ledger_performWhere _ s

theorem ledger_releaseAll (p : Nat → Bool) (s : State) : ledger (releaseAll p s) = ledger s :=
  (ledger_writeBackWhere _ _).trans (ledger_performWhere _ _)

theorem ledger_taskRead (uid lane key : Nat) (bs : List Byte) (s : State) : ledger (taskRead uid lane key bs s).2 = ledger s := by
  unfold taskRead; split <;> rfl

theorem ledger_loadBytes (uid lane core scope evc a n : Nat) (s : State) : ledger (loadBytes uid lane core scope evc a n s).2 = ledger s := by
  unfold loadBytes
  dsimp only
  split
  · exact (ledger_taskRead _ _ _ _ _).trans ((ledger_writeBackAt _ _ _).trans (ledger_drainOwn _ _ _ _))
  · exact (ledger_readMem _ _ _ _ _ _).trans (ledger_drainOwn _ _ _ _)

theorem ledger_loadHome (uid lane core a n : Nat) (s : State) : ledger (loadHome uid lane core a n s).2 = ledger s :=
  (ledger_flitFrom a _).trans ((ledger_writeBackAt _ _ _).trans (ledger_drainOwn _ _ _ _))

theorem ledger_storeHome (uid lane core a : Nat) (bs : List Byte) (s : State) : ledger (storeHome uid lane core a bs s) = ledger s :=
  (ledger_performStore _ _ _ _ _).trans ((ledger_writeBackAt _ _ _).trans (ledger_drainCore _ _ _))

theorem ledger_placeLoad (g : Group) (pl : Place) (scope evc lane a n : Nat) (s : State) :
    ledger (placeLoad g pl scope evc lane a n s).2 = ledger s := by
  cases pl with
  | mem => exact ledger_loadBytes _ _ _ _ _ _ _ _
  | scratch => exact (ledger_taskRead _ _ _ _ _).trans (ledger_drainOwn _ _ _ s)
  | window => exact (ledger_taskRead _ _ _ _ _).trans (ledger_loadHome _ _ _ _ n _)

theorem ledger_placeExclusive (g : Group) (pl : Place) (lane a n : Nat) (s : State) : ledger (placeExclusive g pl lane a n s).2 = ledger s := by
  cases pl with
  | mem => exact ledger_loadHome _ _ _ _ _ _
  | scratch => exact ledger_drainOwn _ _ _ _
  | window => exact ledger_loadHome _ _ _ _ _ _

theorem ledger_placeNow (g : Group) (pl : Place) (lane a : Nat) (bs : List Byte) (s : State) : ledger (placeNow g pl lane a bs s) = ledger s := by
  cases pl with
  | mem => exact ledger_storeHome _ _ _ _ _ _
  | scratch => exact (ledger_scratchStore _ _ _ _ _).trans (ledger_drainCore _ _ _)
  | window => exact ledger_storeHome _ _ _ _ _ _

theorem ledger_atomicPut (op : AtomicOp) (x y : Word) (put : List Byte → State → State) (touch : State → State) (r : List Byte × State)
    (hp : ∀ bs s, ledger (put bs s) = ledger s) (ht : ∀ s, ledger (touch s) = ledger s) :
    ledger (atomicPut op x y put touch r).2 = ledger r.2 := by
  unfold atomicPut
  dsimp only
  split
  · exact hp _ _
  · exact ht _

/-- An atomic that is performed at its place beyond the L1. -/
theorem ledger_atomicNow (g : Group) (op : AtomicOp) (pl : Place) (lane a : Nat) (x y : Word) (s : State) :
    ledger (atomicPut op x y (placeNow g pl lane a) (placeNow g pl lane a []) (placeExclusive g pl lane a 4 s)).2 = ledger s :=
  (ledger_atomicPut op x y _ _ _ (ledger_placeNow g pl lane a) (ledger_placeNow g pl lane a [])).trans (ledger_placeExclusive g pl lane a 4 s)

/-- An atomic that is performed in the L1 of its core. -/
theorem ledger_atomicL1 (g : Group) (op : AtomicOp) (scope evc lane a : Nat) (x y : Word) (s : State) :
    ledger (atomicPut op x y (fun bs s => storeL1 g.uid lane g.core evc a bs (noteTask (some (g.uid, lane)) a bs s))
      (breakResv (some (g.uid, lane)) 0 (lineOf a)) (loadBytes g.uid lane g.core scope evc a 4 s)).2 = ledger s := by
  rw [ledger_atomicPut, ledger_loadBytes]
  · intro bs s
    rw [ledger_storeL1, ledger_noteTask]
  · exact ledger_breakResv _ _ _

theorem ledger_placeAtomic (g : Group) (op : AtomicOp) (pl : Place) (scope evc lane a : Nat) (x y : Word) (s : State) :
    ledger (placeAtomic g op pl scope evc lane a x y s).2 = ledger s := by
  have hd := ledger_drainCore g.core (lineOf (taskKey g pl a)) s
  unfold placeAtomic
  cases pl with
  | mem =>
    dsimp only
    split
    · exact (ledger_atomicL1 _ _ _ _ _ _ _ _ _).trans hd
    · exact (ledger_atomicNow _ _ _ _ _ _ _ _).trans ((ledger_keepLine _ _ _ _).trans hd)
  | scratch => exact (ledger_atomicNow _ _ _ _ _ _ _ _).trans hd
  | window => exact (ledger_atomicNow _ _ _ _ _ _ _ _).trans hd

theorem ledger_loadWords (g : Group) (p : PLoad) (s : State) : ledger (loadWords g p s).2 = ledger s := by
  unfold loadWords
  split
  · exact ledger_placeAtomic _ _ _ _ _ _ _ _ _ _
  · exact (ledger_updGroup _ _ _).trans (ledger_placeExclusive _ _ _ _ _ _)
  · exact ledger_placeLoad _ _ _ _ _ _ _ _

theorem ledger_performLoad (g : Group) (p : PLoad) (s : State) : ledger (performLoad g p s).2 = ledger s := by
  unfold performLoad
  split
  · rfl
  · exact ledger_loadWords _ _ _

theorem ledger_performOp (g : Group) (q : PLoad → Bool) (o : VarOp) (s : State) : ledger (performOp g q o s).2 = ledger s := by
  unfold performOp
  dsimp only
  generalize ([] : List RegWrite) = w
  generalize o.loads.filter q = l
  induction l generalizing w s with
  | nil => rfl
  | cons p l ih => exact (ih _ _).trans (ledger_performLoad g p s)

theorem ledger_performOps (g : Group) (q : Nat → PLoad → Bool) (n : Nat) (l : List VarOp) (s : State) :
    ledger (performOps g q n l s).2 = ledger s := by
  induction l generalizing n s with
  | nil => rfl
  | cons o r ih => exact (ih _ _).trans (ledger_performOp g (q n) o s)

theorem ledger_performLoads (uid : Nat) (q : Nat → PLoad → Bool) (s : State) : ledger (performLoads uid q s) = ledger s := by
  unfold performLoads
  split
  · rfl
  · split
    · rfl
    · exact (ledger_updGroup _ _ _).trans (ledger_performOps _ _ _ _ _)

theorem ledger_performGroups (p : Group → Bool) (s : State) : ledger (performGroups p s) = ledger s := by
  refine ledger_foldl _ (fun s g => ?_) _ _
  split
  · exact ledger_performLoads _ _ _
  · rfl

/-! ### Entries of the pattern table -/

theorem ledger_putAcc (wg i : Nat) (a : Acc) (s : State) : ledger (putAcc wg i a s) = ledger s := ledger_updWg _ _ _
theorem ledger_putTile (wg i : Nat) (t : Tile) (s : State) : ledger (putTile wg i t s) = ledger s := ledger_updWg _ _ _

theorem ledger_entryEffect (e : PEntry) (s : State) : ledger (entryEffect e s) = ledger s := by
  have side : ∀ (i : Nat) (s : State), ledger (if e.hasSide i then
      doPass e (tileRow e.compand e.val.toNat (tileAt s (e.view (selA e.sel + i)))) (e.view (selC e.sel + i)) s else s) = ledger s := by
    intro i s
    split
    · exact ledger_putAcc _ _ _ _
    · rfl
  unfold entryEffect
  split
  · exact ledger_foldl _ (fun _ _ => ledger_putAcc _ _ _ _) _ _
  · split
    · exact ledger_putTile _ _ _ _
    · rfl
  · exact ledger_foldl _ (fun _ _ => ledger_putAcc _ _ _ _) _ _
  · split
    · exact (side 1 _).trans (side 0 s)
    · exact ledger_putAcc _ _ _ _

theorem ledger_releaseStep (p : Nat × Nat) (s : State) : ledger (releaseStep p s) = ledger s := by
  unfold releaseStep
  dsimp only
  split
  · exact ledger_putTile _ _ _ _
  · rfl

theorem ledger_releaseSteps (wg : Nat) (s : State) : ledger (releaseSteps wg s) = ledger s :=
  ledger_foldl _ (fun _ _ => ledger_releaseStep _ _) _ _

theorem ledger_markDone (wg seq : Nat) (s : State) : ledger (markDone wg seq s) = ledger s := by
  unfold markDone
  split
  · rfl
  · exact ledger_updGroup _ _ _

theorem ledger_reenterAll (s : State) : ledger (reenterAll s) = ledger s := by
  refine ledger_foldl _ (fun s e => ?_) _ _
  unfold reenter
  split <;> rfl

theorem ledger_noteLone (e : PEntry) (s : State) :
    ledger (e.threads.foldl (fun s p => updWg p.1 (fun w => { w with flags := w.flags ||| 1 })
      (updGrid (wgAt p.1 s).grid (fun g => { g with lone := true }) s)) s) = ledger s :=
  ledger_foldl _ (fun _ _ => (ledger_updWg _ _ _).trans (ledger_updGrid _ _ _)) _ _

theorem ledger_completeEntry (e : PEntry) (s : State) : ledger (completeEntry e s) = ledger s := by
  have numbered : ∀ t : State, ledger (e.threads.foldl (fun s p => markDone p.1 p.2 s) t) = ledger t :=
    ledger_foldl _ (fun _ _ => ledger_markDone _ _ _) _
  have released : ∀ t : State, ledger (releaseSteps e.wgU (releaseSteps e.wgC t)) = ledger t := fun t =>
    (ledger_releaseSteps _ _).trans (ledger_releaseSteps _ _)
  have removed : ledger { entryEffect e s with pattern := (entryEffect e s).pattern.filter fun f => decide (f.id ≠ e.id) } = ledger s :=
    ledger_entryEffect e s
  have done := (released _).trans ((numbered _).trans removed)
  unfold completeEntry
  dsimp only
  rw [ledger_updCtx _ _ _ (by intro; rfl), ledger_reenterAll]
  split
  · exact (ledger_noteLone e _).trans done
  · exact done

theorem ledger_begunWith (f : PEntry → State → State) (p : PEntry → Bool) (hf : ∀ e s, ledger (f e s) = ledger s) (s : State) :
    ledger (begunWith f p s) = ledger s := by
  refine ledger_foldl _ (fun s e => ?_) _ _
  split
  · exact hf e s
  · rfl

/-! ### Stopping a context's work -/

theorem ledger_unclaim (g : Group) (s : State) : ledger (unclaim g s) = ledger s := by
  unfold unclaim
  split
  · exact ledger_updWg _ _ _
  · rfl

theorem ledger_passGwct (p : Group → Bool) (q : Grid → Bool) (s : State) : ledger (passGwct p q s) = ledger s := rfl

/-- Stopping the work of a context ends nothing: contexts, pockets, workgroups and grids stay. -/
theorem ledger_stopWork (f : PEntry → State → State) (hf : ∀ e s, ledger (f e s) = ledger s) (id : Nat) (s : State) :
    ledger (stopWork f id s) = ledger s := by
  unfold stopWork
  dsimp only
  rw [ledger_passGwct, ledger_releaseAll, ledger_begunWith _ _ hf, ledger_mapGroups, ledger_performGroups]
  exact ledger_foldl _ (fun s g => ledger_unclaim g s) _ _

theorem ledger_stopAndComplete (id : Nat) (s : State) : ledger (stopWork completeEntry id s) = ledger s :=
  ledger_stopWork _ ledger_completeEntry id s

/-! ### Completion records, reports and frames -/

theorem ledger_storeEach (as : List Nat) (bs : List Byte) (s : State) : ledger (storeEach as bs s) = ledger s := by
  induction as generalizing bs s with
  | nil => simp only [storeEach]
  | cons a as ih =>
    cases bs with
    | nil => rfl
    | cons b bs => exact (ih _ _).trans (ledger_performStore _ _ _ _ _)

theorem ledger_agentWrite {core ctx va : Nat} {bs : List Byte} {s t : State} (h : agentWrite core ctx va bs s = .ok t) : ledger t = ledger s := by
  unfold agentWrite at h
  split at h
  · cases h; exact ledger_storeEach _ _ _
  · cases h

theorem ledger_writeCompletion {core ctx compl status info gridId wgDone tstart tend : Nat} {s t : State}
    (h : writeCompletion core ctx compl status info gridId wgDone tstart tend s = .ok t) : ledger t = ledger s := by
  unfold writeCompletion at h
  split at h
  · cases h
  · exact (ledger_agentWrite h).trans (ledger_agentWrite ‹_›)

theorem ledger_withEntry {core : Nat} {e : Option TlbEntry} {f : State → Except (Nat × Trans) State}
    (hf : ∀ u v, f u = .ok v → ledger v = ledger u) {s t : State} (h : withEntry core e f s = .ok t) : ledger t = ledger s := by
  unfold withEntry at h
  split at h
  · exact hf _ _ h
  · split at h
    · cases h; rename_i u hu; exact (hf _ u hu).trans rfl
    · cases h

theorem ledger_reportPage (id va kind : Nat) (s : State) : ledger (reportPage id va kind s) = ledger s := by
  unfold reportPage
  split
  · rfl
  · split
    · rfl
    · exact (ledger_updCtx id (fun c => { c with reported := c.reported ++ [page64 va] }) s :)

theorem ledger_askWalk (core ctx grp va kind : Nat) (s : State) : ledger (askWalk core ctx grp va kind s) = ledger s := by
  unfold askWalk; split <;> rfl

theorem ledger_agentWait (core ctx va kind : Nat) (t : Trans) (s : State) : ledger (agentWait core ctx va kind t s) = ledger s := by
  unfold agentWait
  split
  · split
    · rfl
    · exact ledger_askWalk _ _ _ _ _ _
  · exact ledger_reportPage _ _ _ _
  · rfl

theorem ledger_writeDue (core ctx : Nat) (rs : List EndRec) (s : State) : ledger (writeDue core ctx rs s).2 = ledger s := by
  induction rs generalizing s with
  | nil => rfl
  | cons r rs ih =>
    unfold writeDue
    split
    · exact (ih _).trans (ledger_withEntry (fun _ _ => ledger_writeCompletion) ‹_›)
    · exact (ih _).trans (ledger_agentWait _ _ _ _ _ _)
    · exact ih _

theorem ledger_agentFlits (core ctx kind va n : Nat) (s : State) : ledger (agentFlits core ctx kind va n s) = ledger s := by
  induction n generalizing va s with
  | zero => simp only [agentFlits]
  | succ n ih =>
    unfold agentFlits
    split
    · exact (ih _ _).trans (ledger_flitFrom _ _)
    · rfl

theorem ledger_ringFlits (f : FrameSource) (slots : List Nat) (done : List GoodFrame) (s : State) : ledger (ringFlits f slots done s) = ledger s :=
  (ledger_foldl _ (fun _ _ => ledger_agentFlits _ _ _ _ _ _) _ _).trans (ledger_foldl _ (fun _ _ => ledger_agentFlits _ _ _ _ _ _) _ _)

theorem ledger_noteKeeping (id : Nat) (s : State) : ledger (noteKeeping id s) = ledger s := by
  unfold noteKeeping; split <;> rfl

theorem ledger_keepFrames (id : Nat) (gone : Bool) (s : State) : ledger (keepFrames id gone s) = ledger s := by
  unfold keepFrames
  dsimp only
  split
  · rfl
  · split
    · exact ledger_ringFlits _ _ _ _
    · rfl

end Sys2Proof.Machine

/-! ### The end of a context -/

namespace Sys2Proof.Machine

/-- No workgroup and no grid is a context's, and where the context still stands it is ending and not resident. -/
structure Ledger.Ended (id : Nat) (l : Ledger) : Prop where
  ctxs : ∀ c ∈ l.ctxs, c.1 = id → c.2 = (true, false)
  wgs : id ∉ l.wgs
  grids : id ∉ l.grids

theorem findCtx_id {id : Nat} {s : State} {x : Context} (h : findCtx id s = some x) : x.id = id := by
  simpa using List.find?_some h

theorem findCtx_standing (id : Nat) (s : State) :
    (findCtx id s).map Context.standing = (ledger s).ctxs.find? fun c => decide (c.1 = id) := by
  simp only [findCtx, ledger, List.find?_map]
  rfl

/-- A context that stands in a state stands as it did in every state with the same ledger. -/
theorem findCtx_of_ledger {id : Nat} {s t : State} {x : Context} (h : ledger t = ledger s) (hx : findCtx id s = some x) :
    ∃ y, findCtx id t = some y ∧ y.standing = x.standing := by
  have hy := findCtx_standing id t
  rw [h, ← findCtx_standing, hx] at hy
  simpa using hy

theorem Ledger.Ended.findCtx {id : Nat} {s : State} {y : Context} (h : (ledger s).Ended id) (hy : findCtx id s = some y) :
    y.ending = true ∧ y.resident = false := by
  have hm : y.standing ∈ (ledger s).ctxs := List.mem_map_of_mem (List.mem_of_find?_eq_some hy)
  simpa [Context.standing] using h.ctxs _ hm (findCtx_id hy)

theorem Ledger.Ended.wg_ne {id : Nat} {s : State} (h : (ledger s).Ended id) : ∀ w ∈ s.wgs, w.ctx ≠ id := fun _ hw he =>
  h.wgs (List.mem_map.2 ⟨_, hw, he⟩)

theorem Ledger.Ended.grid_ne {id : Nat} {s : State} (h : (ledger s).Ended id) : ∀ g ∈ s.grids, g.ctx ≠ id := fun _ hg he =>
  h.grids (List.mem_map.2 ⟨_, hg, he⟩)

/-- What no step of a context's end changes: the errors of units, and the pockets. -/
structure SameLog (s t : State) : Prop where
  unitErrors : t.unitErrors = s.unitErrors
  pockets : t.pockets = s.pockets

theorem SameLog.of_ledger {s t : State} (h : ledger t = ledger s) : SameLog s t :=
  ⟨congrArg Ledger.unitErrors h, congrArg Ledger.pockets h⟩

theorem SameLog.trans {a b c : State} (h : SameLog a b) (k : SameLog b c) : SameLog a c :=
  ⟨k.unitErrors.trans h.unitErrors, k.pockets.trans h.pockets⟩

theorem updCtx_sameLog (id : Nat) (f : Context → Context) (s : State) : SameLog s (updCtx id f s) := ⟨rfl, rfl⟩

theorem dropContext_ended (id : Nat) (s : State) : (ledger (dropContext id s)).Ended id := by
  unfold dropContext
  rw [ledger_reenterAll]
  constructor
  · intro c hc
    obtain ⟨d, hd, rfl⟩ := List.mem_map.1 hc
    exact fun hid => absurd hid (of_decide_eq_true (List.mem_filter.1 hd).2)
  · simp [ledger, freeContext]
  · simp [ledger, freeContext]

theorem dropContext_sameLog (id : Nat) (s : State) : SameLog s (dropContext id s) :=
  (show SameLog s (freeContext id s) from ⟨rfl, rfl⟩).trans (.of_ledger (ledger_reenterAll _))

/-- Finishing a context's end keeps it ended, whether it is freed now or waits for a translation. -/
theorem finishEnd_ended {id : Nat} {s : State} (h : (ledger s).Ended id) :
    (ledger (finishEnd id s)).Ended id ∧ SameLog s (finishEnd id s) := by
  unfold finishEnd
  split
  · exact ⟨h, ⟨rfl, rfl⟩⟩
  · rename_i x _
    dsimp only
    generalize hw : writeDue (partCore s x) id x.due s = w
    have hu : ledger (updCtx id (fun y => { y with due := w.1 }) w.2) = ledger s :=
      (ledger_updCtx _ _ _).trans (hw ▸ ledger_writeDue _ _ _ _)
    split
    · have ha := (ledger_agentWait (partCore s x) id ‹Nat› 0 .miss _).trans hu
      exact ⟨ha ▸ h, .of_ledger ha⟩
    · split
      · exact ⟨dropContext_ended _ _, (SameLog.of_ledger ((ledger_keepFrames id true _).trans hu)).trans (dropContext_sameLog _ _)⟩
      · exact ⟨hu ▸ h, .of_ledger hu⟩

/-- A context that is marked as ending and not resident has ended, when it has no workgroup and no grid. -/
theorem updCtx_ended {id : Nat} {f : Context → Context} {s : State} (hf : ∀ c, c.id = id → (f c).standing = (id, true, false))
    (hw : id ∉ (ledger s).wgs) (hg : id ∉ (ledger s).grids) : (ledger (updCtx id f s)).Ended id := by
  refine ⟨fun c hc hid => ?_, hw, hg⟩
  obtain ⟨d, hd, rfl⟩ := List.mem_map.1 hc
  obtain ⟨b, -, rfl⟩ := List.mem_map.1 hd
  by_cases hb : b.id = id
  · simp [hb, hf b hb]
  · rw [if_neg hb] at hid
    exact absurd hid hb

/-- Once a context's work has ended, none of its workgroups and grids is left, and it is ending and not resident. -/
theorem endWork_ended (x : Context) (s : State) : (ledger (endWork x s)).Ended x.id ∧ SameLog s (endWork x s) := by
  have keeping : ∀ u : State, ledger (if x.resident then noteKeeping x.id u else u) = ledger u := by
    intro u
    split
    · exact ledger_noteKeeping _ _
    · rfl
  unfold endWork
  dsimp only
  refine ⟨updCtx_ended (fun c hc => by simp [Context.standing, hc]) ?_ ?_, ?_⟩
  · rw [keeping]
    simp [ledger]
  · rw [keeping]
    simp [ledger]
  · refine SameLog.trans ?_ (updCtx_sameLog _ _ _)
    refine SameLog.trans ?_ (.of_ledger (keeping _))
    exact ⟨rfl, rfl⟩

/-- A context that is not ending yet ends. -/
theorem endContext_ended {id : Nat} {s : State} {x : Context} (hx : findCtx id s = some x) (he : x.ending = false) :
    (ledger (endContext id s)).Ended id ∧ SameLog s (endContext id s) := by
  have hid := findCtx_id hx
  have hs := ledger_stopAndComplete id s
  obtain ⟨hw, lw⟩ := endWork_ended x (stopWork completeEntry id s)
  rw [hid] at hw
  obtain ⟨hf, lf⟩ := finishEnd_ended hw
  have hend : endContext id s = finishEnd id (endWork x (stopWork completeEntry id s)) := by
    simp [endContext, hx, he, Option.filter]
  rw [hend]
  exact ⟨hf, (SameLog.of_ledger hs).trans (lw.trans lf)⟩

/-- A pocket is written in place of an older one of its context (R339); its `STATE` takes a free number. -/
def putPocket (p : Pocket) (s : State) : State :=
  { s with free := s.free + 1, pockets := s.pockets.filter (fun q => decide (q.ctx ≠ p.ctx)) ++ [p] }

theorem findCtx_putPocket (id : Nat) (p : Pocket) (s : State) : findCtx id (putPocket p s) = findCtx id s := rfl
theorem putPocket_unitErrors (p : Pocket) (s : State) : (putPocket p s).unitErrors = s.unitErrors := rfl
theorem mem_putPocket (p : Pocket) (s : State) : p ∈ (putPocket p s).pockets := List.mem_append_right _ (List.mem_singleton_self p)

theorem endThroughPocket_eq {id : Nat} {s : State} {x : Context} (chain : List TrapRec) (hx : findCtx id s = some x) (he : x.ending = false) :
    endThroughPocket id chain s = endContext id (setEvt 2 (putPocket
      { ctx := id, time := s.time, chain := capChain chain, seed := (stopWork completeEntry id s).free } (stopWork completeEntry id s))) := by
  simp [endThroughPocket, hx, he, drawFree, putPocket]

/-- R337, R339: a context that is not ending yet ends through the pocket, which holds its chain. -/
theorem endThroughPocket_ends {id : Nat} {s : State} {x : Context} (chain : List TrapRec) (hx : findCtx id s = some x)
    (he : x.ending = false) :
    (ledger (endThroughPocket id chain s)).Ended id ∧ (endThroughPocket id chain s).unitErrors = s.unitErrors
      ∧ ∃ p ∈ (endThroughPocket id chain s).pockets, p.ctx = id ∧ p.chain = capChain chain := by
  have hs := ledger_stopAndComplete id s
  obtain ⟨y, hy, hst⟩ := findCtx_of_ledger hs hx
  rw [endThroughPocket_eq chain hx he]
  generalize stopWork completeEntry id s = w at hs hy ⊢
  generalize hp : ({ ctx := id, time := s.time, chain := capChain chain, seed := w.free } : Pocket) = p
  have hu := ledger_setEvt 2 (putPocket p w)
  obtain ⟨z, hz, hzt⟩ := findCtx_of_ledger hu ((findCtx_putPocket id p w).trans hy)
  have hze : z.ending = false := (congrArg (fun c => c.2.1) (hzt.trans hst)).trans he
  obtain ⟨ended, errors, pockets⟩ := endContext_ended hz hze
  have stopped := SameLog.of_ledger hs
  have told := SameLog.of_ledger hu
  refine ⟨ended, ?_, p, ?_, hp ▸ rfl, hp ▸ rfl⟩
  · rw [errors, told.unitErrors, putPocket_unitErrors, stopped.unitErrors]
  · rw [pockets, told.pockets]
    exact mem_putPocket p w

end Sys2Proof.Machine

/-! ### Starts, failed starts and soft errors -/

namespace Sys2Proof.Machine

/-- One step of `takenOut`: a list of units takes one that it does not hold yet. -/
def addOnce (l : List UnitId) (u : UnitId) : List UnitId := if l.contains u then l else l ++ [u]

theorem mem_addOnce (l : List UnitId) (u v : UnitId) : v ∈ addOnce l u ↔ v ∈ l ∨ v = u := by
  unfold addOnce
  split
  · rename_i h
    have hu : u ∈ l := by simpa using h
    exact ⟨.inl, fun hv => hv.elim id fun e => e ▸ hu⟩
  · simp

theorem addOnce_nodup {l : List UnitId} (h : l.Nodup) (u : UnitId) : (addOnce l u).Nodup := by
  unfold addOnce
  split
  · exact h
  · rename_i hu
    exact List.concat_eq_append ▸ h.concat (by simpa using hu)

theorem mem_foldl_addOnce (us l : List UnitId) (v : UnitId) : v ∈ us.foldl addOnce l ↔ v ∈ l ∨ v ∈ us := by
  induction us generalizing l with
  | nil => simp
  | cons u us ih => rw [List.foldl_cons, ih, mem_addOnce, List.mem_cons, or_assoc]

theorem foldl_addOnce_nodup (us : List UnitId) {l : List UnitId} (h : l.Nodup) : (us.foldl addOnce l).Nodup := by
  induction us generalizing l with
  | nil => exact h
  | cons u us ih => exact ih (addOnce_nodup h u)

theorem takenOut_eq (failed : List UnitId) (s : State) : takenOut failed s = (s.out ++ failed ++ errorUnits s).foldl addOnce [] := rfl

theorem takenOut_nodup (failed : List UnitId) (s : State) : (takenOut failed s).Nodup := foldl_addOnce_nodup _ List.nodup_nil

/-- R343: a unit with more than one uncorrectable error since the last start. -/
theorem mem_errorUnits (s : State) (v : UnitId) : v ∈ errorUnits s ↔ 2 ≤ s.unitErrors.countP fun w => w == v := by
  have hc : s.unitErrors.countP (fun w => w == v) = (s.unitErrors.filter fun w => w == v).length := List.countP_eq_length_filter
  simp only [errorUnits, List.mem_filter, decide_eq_true_eq, hc]
  refine ⟨fun h => h.2, fun h => ⟨?_, h⟩⟩
  obtain ⟨w, hw⟩ := List.exists_mem_of_length_pos (show 0 < (s.unitErrors.filter fun w => w == v).length by omega)
  obtain ⟨hm, he⟩ := List.mem_filter.1 hw
  exact eq_of_beq he ▸ hm

/-- R343: what is out of service from a start on. -/
theorem mem_takenOut (failed : List UnitId) (s : State) (v : UnitId) :
    v ∈ takenOut failed s ↔ v ∈ s.out ∨ v ∈ failed ∨ 2 ≤ s.unitErrors.countP fun w => w == v := by
  rw [takenOut_eq, mem_foldl_addOnce, ← mem_errorUnits]
  simp only [List.not_mem_nil, false_or, List.mem_append, or_assoc]

/-- The device has gone down (R338, R342): the memories and the time stay, and nothing of a context, its work or its translations does. -/
def WentDown (s t : State) : Prop :=
  t.hbm = s.hbm ∧ t.host = s.host ∧ t.time = s.time ∧ t.ctxs = [] ∧ t.grids = [] ∧ t.wgs = [] ∧ t.groups = [] ∧ t.queues = []
    ∧ t.tlb = [] ∧ t.ide = false

/-- A start has failed for a reason (R342, R343): with the third in a row the device comes up in minimal mode. -/
def StartFailed (s t : State) (out : List UnitId) (reason : Nat) : Prop :=
  WentDown s t ∧ t.failedStarts = s.failedStarts + 1 ∧ t.out = out ∧ t.unitErrors = []
    ∧ (s.failedStarts < 2 → t.started = false)
    ∧ (2 ≤ s.failedStarts → t.started = true ∧ t.minimal = true ∧ t.mbox.reason = BitVec.ofNat 8 reason)

theorem deviceDown_wentDown (s : State) : WentDown s (deviceDown s) := ⟨rfl, rfl, rfl, rfl, rfl, rfl, rfl, rfl, rfl, rfl⟩

/-- The first two failures in a row leave the device down. -/
theorem failStart_early {s : State} (reason : Nat) (failed : List UnitId) (h : s.failedStarts < 2) :
    failStart reason failed s = { deviceDown { s with out := takenOut failed s, unitErrors := [] } with failedStarts := s.failedStarts + 1 } :=
  if_neg (by omega)

/-- From the third failure in a row on the device is in minimal mode. -/
theorem failStart_minimal {s : State} (reason : Nat) (failed : List UnitId) (h : 2 ≤ s.failedStarts) :
    failStart reason failed s = { deviceDown { s with out := takenOut failed s, unitErrors := [] } with
      failedStarts := s.failedStarts + 1, started := true, minimal := true, mbox := { ({} : Mailbox) with reason := BitVec.ofNat 8 reason } } :=
  if_pos (by omega)

theorem failStart_startFailed (reason : Nat) (failed : List UnitId) (s : State) :
    StartFailed s (failStart reason failed s) (takenOut failed s) reason := by
  have down := deviceDown_wentDown s
  rcases Nat.lt_or_ge s.failedStarts 2 with h | h
  · rw [failStart_early reason failed h]
    exact ⟨down, rfl, rfl, rfl, fun _ => rfl, fun k => absurd k (by omega)⟩
  · rw [failStart_minimal reason failed h]
    exact ⟨down, rfl, rfl, rfl, fun k => absurd k (by omega), fun _ => ⟨rfl, rfl, rfl⟩⟩

theorem failStart_images (reason : Nat) (failed : List UnitId) (s : State) : (failStart reason failed s).images = s.images := by
  rcases Nat.lt_or_ge s.failedStarts 2 with h | h
  · rw [failStart_early reason failed h]; rfl
  · rw [failStart_minimal reason failed h]; rfl

/-- The digests of the images that a start has verified (R314). -/
def measuredImages (rep : StartReport) : List (Nat × Nat) :=
  if imagesVerify rep then rep.images.map fun m => (m.ident, ofBytes (imageDigest m)) else []

theorem exec_deviceStart_started {s : State} (rep : StartReport) (h : s.started = true) : exec (.deviceStart rep) s = .next s := by
  change execDeviceStart rep s = _
  simp [execDeviceStart, h]

theorem exec_firmwareReadyTimeout_started {s : State} (h : s.started = true) : exec .firmwareReadyTimeout s = .next s := by
  change execFirmwareReadyTimeout s = _
  simp [execFirmwareReadyTimeout, h]

theorem exec_firmwareReadyTimeout_down {s : State} (h : s.started = false) : exec .firmwareReadyTimeout s = .next (failStart 5 [] s) := by
  change execFirmwareReadyTimeout s = _
  simp [execFirmwareReadyTimeout, h]

/-- A start that nothing speaks against brings the device up without the units that failed (R342, R343). -/
theorem exec_deviceStart_succeeds {s : State} {rep : StartReport} (h : s.started = false) (hr : startFailure rep (takenOut rep.failed s) = none) :
    exec (.deviceStart rep) s = .next { deviceDown { s with images := measuredImages rep } with
      started := true, failedStarts := 0, out := takenOut rep.failed s, unitErrors := [] } := by
  change execDeviceStart rep s = _
  unfold execDeviceStart
  rw [if_neg (by simp [h])]
  dsimp only
  split
  · rename_i hsome
    exact nomatch hr.symm.trans hsome
  · rfl

theorem exec_deviceStart_fails {s : State} {rep : StartReport} {reason : Nat} (h : s.started = false)
    (hr : startFailure rep (takenOut rep.failed s) = some reason) :
    exec (.deviceStart rep) s = .next (failStart reason rep.failed { s with images := measuredImages rep }) := by
  change execDeviceStart rep s = _
  unfold execDeviceStart
  rw [if_neg (by simp [h])]
  dsimp only
  split
  · rename_i hsome
    cases hr.symm.trans hsome
    rfl
  · rename_i hnone
    exact nomatch hr.symm.trans hnone

/-- The order in which a start's reasons are looked at (log entry 45). -/
theorem startFailure_eq (rep : StartReport) (out : List UnitId) :
    startFailure rep out = if imagesVerify rep = false then some 1 else if rep.baseOk = false then some 3
      else if (List.range 8).all (fun d => out.contains (.die d)) then some 2 else if (List.range 12).all (fun d => out.contains (.stack d)) then some 4
      else if rep.ready = false then some 5 else none := by
  simp only [startFailure, Bool.not_eq_true']

/-- R191, R338: no entry of the fitting cache with the number is valid any more. -/
theorem dropFit_invalid (n : Nat) (s : State) : ∀ f ∈ (dropFit n s).fits, f.id = n → f.valid = false := by
  intro f hf hid
  obtain ⟨e, -, rfl⟩ := List.mem_map.1 (List.mem_filter.1 hf).1
  by_cases he : e.id = n
  · simp [he]
  · rw [if_neg he] at hid
    exact absurd hid he

theorem exec_eccUncorrectable_context {c : Nat} {s : State} {x : Context} (u : UnitId) (hbm : Bool) (pa : Nat) (hx : findCtx c s = some x) :
    exec (.eccUncorrectable (.context c) u hbm pa) s =
      .next (endThroughPocket c [bareRec cEcc (pa % 2 ^ 52) (if hbm then 1 else 0)] { s with unitErrors := s.unitErrors ++ [u] }) := by
  change execEccUncorrectable (.context c) u hbm pa s = _
  have hx' : findCtx c { s with unitErrors := s.unitErrors ++ [u] } = some x := hx
  simp [execEccUncorrectable, hx']

/-- R338: an uncorrectable error in what a context owns ends it, with one record of the error in its pocket. -/
theorem eccUncorrectable_ends {c : Nat} {s : State} {x : Context} (u : UnitId) (hbm : Bool) (pa : Nat) (hx : findCtx c s = some x)
    (he : x.ending = false) :
    ∃ t, exec (.eccUncorrectable (.context c) u hbm pa) s = .next t ∧ t.unitErrors = s.unitErrors ++ [u]
      ∧ (∀ y, findCtx c t = some y → y.ending = true ∧ y.resident = false) ∧ (∀ w ∈ t.wgs, w.ctx ≠ c) ∧ (∀ r ∈ t.grids, r.ctx ≠ c)
      ∧ ∃ p ∈ t.pockets, p.ctx = c ∧ p.chain.map (fun r => (r.cause, r.addr, r.info)) = [(0x19, pa % 2 ^ 52, if hbm then 1 else 0)] := by
  obtain ⟨ended, errors, p, hp, hc, hch⟩ := endThroughPocket_ends (s := { s with unitErrors := s.unitErrors ++ [u] })
    [bareRec cEcc (pa % 2 ^ 52) (if hbm then 1 else 0)] hx he
  refine ⟨_, exec_eccUncorrectable_context u hbm pa hx, errors, fun y => ended.findCtx, ended.wg_ne, ended.grid_ne, p, hp, hc, ?_⟩
  rw [hch]
  rfl

/-- A device that runs takes a valid layout in which every context has its own partition (R301). -/
def takesLayout (s : State) (layout : List (Nat × Nat)) : Bool :=
  s.started && !s.minimal && layoutOk layout && s.ctxs.all fun c => layout.contains (c.partBase, c.partSize)

theorem takesLayout_iff (s : State) (layout : List (Nat × Nat)) : takesLayout s layout = true ↔
    s.started = true ∧ s.minimal = false ∧ layoutOk layout = true ∧ ∀ k ∈ s.ctxs, (k.partBase, k.partSize) ∈ layout := by
  simp [takesLayout, and_assoc]

theorem exec_partitionChange (s : State) (layout : List (Nat × Nat)) :
    exec (.partitionChange layout) s = .next (if takesLayout s layout then { s with layout := layout } else s) := rfl

theorem exec_partitionChange_taken {s : State} {layout : List (Nat × Nat)} (hs : s.started = true) (hm : s.minimal = false)
    (hl : layoutOk layout = true) (hc : ∀ k ∈ s.ctxs, (k.partBase, k.partSize) ∈ layout) :
    exec (.partitionChange layout) s = .next { s with layout := layout } := by
  rw [exec_partitionChange, if_pos ((takesLayout_iff s layout).2 ⟨hs, hm, hl, hc⟩)]

theorem exec_partitionChange_kept {s : State} {layout : List (Nat × Nat)}
    (h : s.started = false ∨ s.minimal = true ∨ layoutOk layout = false ∨ ∃ k ∈ s.ctxs, (k.partBase, k.partSize) ∉ layout) :
    exec (.partitionChange layout) s = .next s := by
  have hno : ¬takesLayout s layout = true := by
    rw [takesLayout_iff]
    rintro ⟨hs, hm, hl, hc⟩
    rcases h with h | h | h | ⟨k, hk, hout⟩
    · exact nomatch h.symm.trans hs
    · exact nomatch h.symm.trans hm
    · exact nomatch h.symm.trans hl
    · exact hout (hc k hk)
  rw [exec_partitionChange, if_neg hno]

/-- R13: the clock is at most 1.3 GHz, and a limit of at least 1 MHz is taken as it is. -/
theorem exec_thermalClockLimit {mhz : Nat} (s : State) (h : 0 < mhz) :
    exec (.thermalClockLimit mhz) s = .next { s with clockMhz := min mhz 1300 } := by
  have hmax : max 1 (min mhz 1300) = min mhz 1300 := by omega
  change execThermalClockLimit mhz s = _
  rw [execThermalClockLimit, hmax]

/-- Settles O49: the starts by what `execDeviceStart` and `failStart` come to, the end of a context by `endThroughPocket_ends`, whose steps keep the
ledger. -/
theorem deviceStartsAndRecovers : Obligations.DeviceStartsAndRecovers := by
  intro s rep reason c n pa mhz u hbm x layout
  refine ⟨fun h => ⟨exec_deviceStart_started rep h, exec_firmwareReadyTimeout_started h⟩, fun h hr => ?_, fun h hr => ?_, fun h => ?_,
    ⟨takenOut_nodup _ _, mem_takenOut _ _⟩, startFailure_eq _ _, rfl, eccUncorrectable_ends u hbm pa, ?_, ?_,
    exec_partitionChange_taken, exec_partitionChange_kept, exec_thermalClockLimit s⟩
  · exact ⟨_, exec_deviceStart_succeeds h hr, deviceDown_wentDown s, rfl, rfl, rfl, rfl, rfl, rfl⟩
  · exact ⟨_, exec_deviceStart_fails h hr, failStart_startFailed reason rep.failed _, failStart_images _ _ _⟩
  · exact ⟨_, exec_firmwareReadyTimeout_down h, failStart_startFailed 5 [] s⟩
  · exact ⟨_, rfl, dropFit_invalid n _⟩
  · exact ⟨_, rfl, failStart_startFailed 6 [] _⟩

end Sys2Proof.Machine

/-! ### A store that a later load does not read back -/

namespace Sys2Proof.Machine

/-- One lane stands before `STB B2, V4, V6` with a record of the default scope at 0x1000, whose line lies in the L1 of its core with two
dirty bytes. The list of the dirty bytes does not rise: byte 7 stands before byte 0. -/
def unsortedLine : State :=
  let s := placeWord ((encode (.stb 0 2 4 6)).getD 0) State.reset
  { s.setG fun g => setB 2 0x10000000000000001000 { g with act := g.act.map fun e => { e with mask := 1 } } with
    caches := [{ lvl := 1, unit := 0, line := 32, dirty := [(7, 1), (0, 5)] }] }

/-- The access of the lane. -/
def unsortedAccess : Access := { lane := 0, off := 0, inb := true, va := 0x1000 }

/-- What the lane's load of the byte at system scope gives after an outcome. -/
def readBack (o : Host.Outcome State Fault Refusal) : Option (List Byte) := match o with
  | .next t => some (placeLoad unsortedLine.grp .mem 3 0 0 0x1000 1 t).1
  | _ => none

theorem unsortedLine_ready : ready (memNeed unsortedLine (some (4, 1)) 6 false) unsortedLine := by unfold ready; decide +kernel

theorem unsortedLine_proceeds :
    proceeds unsortedLine (wordAccess unsortedLine 2 6 1 1 true none [1]) [(unsortedAccess, 0x1000)] := by
  unfold proceeds; decide +kernel

/-- The word stores 0 over byte 0, which the write-back writes first; the entry that the list still holds for byte 0 is written last. -/
theorem unsortedLine_readBack : readBack (exec (.stb 0 2 4 6) unsortedLine) = some [5] := by decide +kernel

theorem unsortedLine_not_readBack {t : State} (h : exec (.stb 0 2 4 6) unsortedLine = .next t) :
    (placeLoad unsortedLine.grp .mem 3 0 0 0x1000 1 t).1 ≠ [0] := by
  have hr := unsortedLine_readBack
  rw [h] at hr
  rw [Option.some.inj hr]
  decide

theorem not_storeReadsBack : ¬ Sys2Proof.Claims.storeReadsBack := by
  intro h
  obtain ⟨-, byteStore, -⟩ := h unsortedLine 0 2 4 6 0 unsortedAccess 0x1000 3 0
  obtain ⟨t, ht, hread⟩ := byteStore unsortedLine_ready unsortedLine_proceeds (by decide) (by decide +kernel) (by decide)
    (fun _ => by decide +kernel) (fun hp => absurd hp (by decide)) (by decide)
  exact unsortedLine_not_readBack ht hread

/-- Refutes O24: in `storeReadsBack` nothing is said of the dirty bytes of a cached line, whose list a state may hold out of order. A store
then leaves an older entry for its byte behind the new one, the write-back of the line performs them in the order of the list, and the thread's
next load at system scope reads the older byte. -/
theorem not_storesComplete : ¬ Obligations.StoresComplete := fun ⟨_, _, _, readsBack, _, _⟩ => not_storeReadsBack readsBack

end Sys2Proof.Machine

/-! ### The state a group starts with -/

namespace Sys2Proof.Machine

/-- Values written one after the other at rising keys: each key of the run has its value, and every other key keeps its own. -/
theorem sget_zip_range' (vals : List Word) (a n j : Nat) (m : Sparse Word) :
    sget 0 j (((List.range' a n).zip vals).foldl (fun k p => sput 0 p.1 p.2 k) m) =
      if a ≤ j ∧ j < a + n ∧ j < a + vals.length then vals.getD (j - a) 0 else sget 0 j m := by
  induction vals generalizing a n m with
  | nil => rw [List.zip_nil_right, List.foldl_nil, if_neg (by simp only [List.length_nil]; omega)]
  | cons v vs ih =>
    cases n with
    | zero => rw [List.range'_zero, List.zip_nil_left, List.foldl_nil, if_neg (by omega)]
    | succ n =>
      rw [List.range'_succ, List.zip_cons_cons, List.foldl_cons, ih, sget_sput, List.length_cons]
      by_cases hj : a = j
      · subst hj
        rw [if_neg (by omega), if_pos rfl, if_pos (by omega), Nat.sub_self]
        rfl
      · rw [if_neg hj]
        by_cases hin : a + 1 ≤ j ∧ j < a + 1 + n ∧ j < a + 1 + vs.length
        · obtain ⟨k, hk⟩ : ∃ k, j - a = k + 1 := ⟨j - a - 1, by omega⟩
          rw [if_pos hin, if_pos (by omega), hk, show j - (a + 1) = k by omega]
          rfl
        · rw [if_neg hin, if_neg (by omega)]

theorem sget_zip_range (vals : List Word) (n j : Nat) :
    sget 0 j (((List.range n).zip vals).foldl (fun k p => sput 0 p.1 p.2 k) []) =
      if j < n ∧ j < vals.length then vals.getD j 0 else 0 := by
  rw [List.range_eq_range', sget_zip_range']
  simp

theorem bit_firstLanes {n j : Nat} (hj : j < 64) : bit (firstLanes n) j = decide (j < n) := by
  simp only [bit, firstLanes, BitVec.getLsbD_ofNat, Nat.testBit_two_pow_sub_one, hj, decide_true, Bool.true_and]

theorem maskOf_singleton (k : Nat) : maskOf [k] = laneBit k := by simp [maskOf]

/-- The S registers of a group that starts (R20). -/
theorem sget_startS (l : Launch) (gid i r : Nat) :
    sget 0 r (startS l gid i) =
      BitVec.ofNat 32 ([gid, i, gid % l.gx, gid / l.gx % l.gy, gid / (l.gx * l.gy), l.wgs].getD r 0) := by
  simp only [startS, coordsOf, indexed, List.foldl_cons, List.foldl_nil, sget_sput, sget_nil]
  match r with
  | 0 | 1 | 2 | 3 | 4 | 5 => rfl
  | r + 6 => simp

section

variable (s : State) (w : WgStart) (wg uid i : Nat) (b30 b31 : BitVec 128)

theorem startGroup_getS (r : Nat) : getS (startGroup s w wg uid i b30 b31) r = sget 0 r (startS w.grid.launch w.gid i) := rfl

theorem startGroup_getB (r : Nat) : getB (startGroup s w wg uid i b30 b31) r =
    if 31 = r then b31 else if 30 = r then b30 else if 0 = r then argRecord w.grid.launch else 0 := by
  change sget 0 r (sput 0 31 b31 (sput 0 30 b30 (sput 0 0 (argRecord w.grid.launch) []))) = _
  simp only [sget_sput, sget_nil]

/-- R20: `K0` of a group whose lanes are the first ones. -/
theorem startGroup_getK (h : w.lanes = []) (r j : Nat) : getK (startGroup s w wg uid i b30 b31) r j =
    if 64 * r + j < min w.grid.launch.width (w.threads - i * w.grid.launch.width) ∧ 64 * r + j < w.vals.length
    then w.vals.getD (64 * r + j) 0 else 0 := by
  have hk : (startGroup s w wg uid i b30 b31).k =
      ((List.range (min w.grid.launch.width (w.threads - i * w.grid.launch.width))).zip w.vals).foldl (fun k p => sput 0 p.1 p.2 k) [] := by
    simp only [startGroup, h, List.isEmpty_nil, if_true]
  rw [getK, hk, sget_zip_range]

theorem startGroup_live (h : w.lanes = []) :
    (startGroup s w wg uid i b30 b31).live = firstLanes (min w.grid.launch.width (w.threads - i * w.grid.launch.width)) := by
  simp only [startGroup, h, List.isEmpty_nil, if_true]

/-- R205: the one lane of a task that runs again. -/
theorem startGroup_again {k : Nat} {v : Word} (hl : w.lanes = [k]) (hv : w.vals = [v]) {j : Nat} (hj : j < 64) :
    getK (startGroup s w wg uid i b30 b31) 0 j = (if j = k then v else 0) ∧ bit (startGroup s w wg uid i b30 b31).live j = decide (j = k) := by
  have hkk : (startGroup s w wg uid i b30 b31).k = sput 0 k v [] := by
    simp only [startGroup, hl, hv, List.isEmpty_cons, Bool.false_eq_true, if_false, List.zip_cons_cons, List.zip_nil_left, List.foldl_cons,
      List.foldl_nil]
  have hlive : (startGroup s w wg uid i b30 b31).live = laneBit k := by
    simp only [startGroup, hl, List.isEmpty_cons, Bool.false_eq_true, if_false, maskOf_singleton]
  refine ⟨?_, ?_⟩
  · rw [getK, hkk, sget_sput, sget_nil, Nat.mul_zero, Nat.zero_add]
    simp only [@eq_comm _ k]
  · rw [hlive, bit_laneBit k j hj]

end

theorem groupStart : Sys2Proof.Claims.groupStart := by
  intro s w wg uid i b30 b31 g l n
  refine ⟨?_, ?_, ?_, ?_, ?_, ?_, fun r hr => ?_, fun _ _ => rfl, fun hl => ⟨fun j hj => ?_, fun r j hr hv => ?_, fun _ j hj => ?_⟩,
    fun k v hl hv _ j hj => startGroup_again s w wg uid i b30 b31 hl hv hj, fun _ => rfl, fun _ => rfl, fun _ _ => rfl, fun _ => rfl,
    rfl, rfl, rfl, startGroup_getB .., startGroup_getB .., startGroup_getB .., fun r h0 h30 h31 => ?_, rfl, rfl, rfl, rfl, rfl⟩
  · exact sget_startS ..
  · exact sget_startS ..
  · exact sget_startS ..
  · exact sget_startS ..
  · exact sget_startS ..
  · exact sget_startS ..
  · refine (sget_startS ..).trans ?_
    rw [List.getD_eq_default _ _ hr]
    rfl
  · refine (startGroup_getK s w wg uid i b30 b31 hl 0 j).trans ?_
    rw [Nat.mul_zero, Nat.zero_add]
    by_cases hjn : j < n
    · by_cases hjv : j < w.vals.length
      · rw [if_pos ⟨hjn, hjv⟩, if_pos hjn]
      · rw [if_neg (fun h => hjv h.2), if_pos hjn, List.getD_eq_default _ _ (by omega)]
    · rw [if_neg (fun h => hjn h.1), if_neg hjn]
  · refine (startGroup_getK s w wg uid i b30 b31 hl r j).trans ?_
    rw [if_neg (by omega)]
  · refine (congrArg (bit · j) (startGroup_live s w wg uid i b30 b31 hl)).trans ?_
    exact bit_firstLanes hj
  · refine (startGroup_getB ..).trans ?_
    rw [if_neg (Ne.symm h31), if_neg (Ne.symm h30), if_neg (Ne.symm h0)]

end Sys2Proof.Machine

/-! ### A turn of a dispatcher -/

namespace Sys2Proof.Machine

/-- The turn is one of a die of the grid's partition, on cores of that die, and the grid's work may be placed. -/
def onDie (s : State) (g : Grid) (x : Context) (die core coreU : Nat) : Prop :=
  placeable s g = true ∧ (partDies s x).contains die = true ∧ core / 48 = die ∧ coreU / 48 = die

/-- A binding without its reservation (R261). -/
def unreserved (g : Grid) : Prop := g.launch.queued = true ∧ g.reserve = []

/-- The grid's own workgroups are next: no group has formed, or the context is deterministic and some of them are left (R202, R256). -/
def ownNext (g : Grid) (x : Context) : Prop := g.waiting = [] ∨ (x.det = true ∧ allPlaced g = false)

/-- Neither a cooperative grid nor a launch that goes first holds the grid back (R257). -/
def unblocked (s : State) (g : Grid) (die : Nat) : Prop := coopBlocks s g = false ∧ outranked s g die = false

theorem blocked_iff (s : State) (g : Grid) (die : Nat) : (coopBlocks s g || outranked s g die) = true ↔ ¬unblocked s g die := by
  simp only [unblocked, Bool.or_eq_true, not_and_or, Bool.not_eq_false]

/-- The turn of a grid whose oldest formed group is next. -/
def formedTurn (x : Context) (g : Grid) (die core coreU : Nat) (wins : List Nat) (s : State) : State :=
  match g.waiting with
  | f :: _ => if outranked s g die && !coopBlocks s g then s else placeFormed x g f core coreU wins s
  | [] => s

section

variable {s : State} {g : Grid} {x : Context} {die core coreU : Nat} {wins : List Nat}

/-- The turn of a grid whose context is served, by what the dispatcher finds. -/
theorem exec_workgroupPlace (hg : findGrid g.uid s = some g) (hx : servedCtx s g.ctx = some x) :
    exec (.workgroupPlace g.uid die core coreU wins) s = .next (
      if !placeable s g || !(partDies s x).contains die || decide (core / 48 ≠ die) || decide (coreU / 48 ≠ die) then s
      else if g.launch.queued && g.reserve.isEmpty then (if coopBlocks s g || outranked s g die then s else reserveRoom g core coreU s)
      else if g.waiting.isEmpty || (x.det && !allPlaced g) then
        if coopBlocks s g || outranked s g die then s
        else if g.launch.coop then (if allPlaced g then s else placeCoop x g wins s)
        else placeNext x g die core coreU wins s
      else formedTurn x g die core coreU wins s) := by
  change execWorkgroupPlace g.uid die core coreU wins s = _
  unfold execWorkgroupPlace
  rw [hg]
  dsimp only
  rw [hx]
  rfl

theorem elsewhere_iff : (!placeable s g || !(partDies s x).contains die || decide (core / 48 ≠ die) || decide (coreU / 48 ≠ die)) = true
    ↔ ¬onDie s g x die core coreU := by
  simp only [onDie, Bool.or_eq_true, Bool.not_eq_true', decide_eq_true_eq, not_and_or, Bool.not_eq_true, ne_eq, or_assoc]

theorem unreserved_iff : (g.launch.queued && g.reserve.isEmpty) = true ↔ unreserved g := by
  simp only [unreserved, Bool.and_eq_true, List.isEmpty_iff]

theorem ownNext_iff : (g.waiting.isEmpty || (x.det && !allPlaced g)) = true ↔ ownNext g x := by
  simp only [ownNext, Bool.or_eq_true, Bool.and_eq_true, List.isEmpty_iff, Bool.not_eq_true']

theorem exec_workgroupPlace_elsewhere (hg : findGrid g.uid s = some g) (hx : servedCtx s g.ctx = some x) (h : ¬onDie s g x die core coreU) :
    exec (.workgroupPlace g.uid die core coreU wins) s = .next s := by
  rw [exec_workgroupPlace hg hx, if_pos (elsewhere_iff.2 h)]

theorem exec_workgroupPlace_unreserved (hg : findGrid g.uid s = some g) (hx : servedCtx s g.ctx = some x) (h : onDie s g x die core coreU)
    (hb : unreserved g) : exec (.workgroupPlace g.uid die core coreU wins) s =
      .next (if coopBlocks s g || outranked s g die then s else reserveRoom g core coreU s) := by
  rw [exec_workgroupPlace hg hx, if_neg fun k => elsewhere_iff.1 k h, if_pos (unreserved_iff.2 hb)]

theorem exec_workgroupPlace_own (hg : findGrid g.uid s = some g) (hx : servedCtx s g.ctx = some x) (h : onDie s g x die core coreU)
    (hb : ¬unreserved g) (ho : ownNext g x) : exec (.workgroupPlace g.uid die core coreU wins) s = .next (
      if coopBlocks s g || outranked s g die then s
      else if g.launch.coop then (if allPlaced g then s else placeCoop x g wins s)
      else placeNext x g die core coreU wins s) := by
  rw [exec_workgroupPlace hg hx, if_neg fun k => elsewhere_iff.1 k h, if_neg fun k => hb (unreserved_iff.1 k), if_pos (ownNext_iff.2 ho)]

theorem exec_workgroupPlace_formed {f : Formed} {fs : List Formed} (hg : findGrid g.uid s = some g) (hx : servedCtx s g.ctx = some x)
    (h : onDie s g x die core coreU) (hb : ¬unreserved g) (ho : ¬ownNext g x) (hf : g.waiting = f :: fs) :
    exec (.workgroupPlace g.uid die core coreU wins) s =
      .next (if outranked s g die && !coopBlocks s g then s else placeFormed x g f core coreU wins s) := by
  rw [exec_workgroupPlace hg hx, if_neg fun k => elsewhere_iff.1 k h, if_neg fun k => hb (unreserved_iff.1 k),
    if_neg fun k => ho (ownNext_iff.1 k), formedTurn, hf]

theorem exec_workgroupPlace_blocked (hg : findGrid g.uid s = some g) (hx : servedCtx s g.ctx = some x) (h : onDie s g x die core coreU)
    (ho : unreserved g ∨ ownNext g x) (hn : ¬unblocked s g die) : exec (.workgroupPlace g.uid die core coreU wins) s = .next s := by
  by_cases hb : unreserved g
  · rw [exec_workgroupPlace_unreserved hg hx h hb, if_pos ((blocked_iff s g die).2 hn)]
  · rw [exec_workgroupPlace_own hg hx h hb (ho.resolve_left hb), if_pos ((blocked_iff s g die).2 hn)]

/-- The grid's own next workgroup, when nothing holds it back. -/
theorem exec_workgroupPlace_next (hg : findGrid g.uid s = some g) (hx : servedCtx s g.ctx = some x) (h : onDie s g x die core coreU)
    (hb : ¬unreserved g) (ho : ownNext g x) (hn : unblocked s g die) (hc : g.launch.coop = false) :
    exec (.workgroupPlace g.uid die core coreU wins) s = .next (placeNext x g die core coreU wins s) := by
  rw [exec_workgroupPlace_own hg hx h hb ho, if_neg fun k => (blocked_iff s g die).1 k hn, if_neg (by simp [hc])]

/-- R256: in a deterministic context the die keeps what it has stolen and places nothing before the lowest number that is left. -/
theorem placeNext_waits {k : Nat} {stolen : List (Nat × Nat × Nat)} (hd : dieRange g die = some (k, stolen)) (hx : x.det = true)
    (hk : lowestLeft g ≠ some k) : placeNext x g die core coreU wins s = updGrid g.uid (fun h => { h with ranges := stolen }) s := by
  simp [placeNext, takeGid, hd, hx, hk]

/-- R256: the next workgroup of the die's range is placed when its windows are free and it has room. -/
theorem placeNext_places {gid : Nat} {ranges : List (Nat × Nat × Nat)} {t : State} (ht : takeGid g die = some (gid, ranges))
    (hd : x.det = true → lowestLeft g = some gid) (hw : winsOk x wins g.winCount = true) (hp : placeOwn g gid core coreU wins s = some t) :
    placeNext x g die core coreU wins s = updGrid g.uid (fun h => { h with ranges := ranges }) t := by
  have hlow : ¬(x.det && decide (lowestLeft g ≠ some gid)) = true := by
    rw [Bool.and_eq_true, decide_eq_true_eq]
    exact fun ⟨h, hne⟩ => hne (hd h)
  simp only [placeNext, ht]
  rw [if_neg hlow, if_neg (by simp [hw]), hp]

theorem winsOk_length {n : Nat} (h : winsOk x wins n = true) : wins.length = n := by
  simp only [winsOk, Bool.and_eq_true, decide_eq_true_eq] at h
  exact h.1.1

theorem placeOwn_single {gid : Nat} {room : Room} (hp : g.launch.pair = false) (hw : winsOk x wins g.winCount = true)
    (hr : roomFor s g g.launch.groups core = some room) :
    placeOwn g gid core coreU wins s = some (startWg { grid := g, gid := gid, gen := 0, side := 0, room := room, threads := g.launch.threads
                                                       wins := wins, start := none, vals := [] } s.nextId 0 { s with nextId := s.nextId + 1 }) := by
  have hlen : wins.length = g.launch.threads := by simpa [Grid.winCount, hp] using winsOk_length hw
  have hall : (wins.drop (0 * g.launch.threads)).take g.launch.threads = wins := by
    rw [Nat.zero_mul, List.drop_zero, List.take_of_length_le (Nat.le_of_eq hlen)]
  simp only [placeOwn, roomsFor, hp, hr, Bool.false_eq_true, if_false, Option.map_some, startRooms, fresh, hall]

theorem placeOwn_pair {gid : Nat} {r r2 : Room} (hp : g.launch.pair = true) (hr : pairRooms s g g.launch.groups core coreU = some [r, r2]) :
    let side := fun (i : Nat) (r : Room) => ({ grid := g, gid := gid, gen := 0, side := i, room := r, threads := g.launch.threads
                                               wins := (wins.drop (i * g.launch.threads)).take g.launch.threads, start := none, vals := [] } : WgStart)
    placeOwn g gid core coreU wins s = some (startWg (side 1 r2) (s.nextId + 1) s.nextId
      (startWg (side 0 r) s.nextId (s.nextId + 1) { s with nextId := s.nextId + 2 })) := by
  simp only [placeOwn, roomsFor, hp, hr, if_true, Option.map_some, startRooms, fresh]

/-! ### Rooms -/

theorem roomFor_core {n : Nat} {r : Room} (h : roomFor s g n core = some r) : r.core = core := by
  unfold roomFor at h
  split at h
  · cases h
  · split at h
    · cases h; rfl
    · cases h

/-- R28, R135: the sides of a pair have their rooms on the cores of one cluster. -/
theorem pairRooms_cores {n : Nat} {r r2 : Room} (h : pairRooms s g n core coreU = some [r, r2]) :
    core / 4 = coreU / 4 ∧ r.core = core ∧ r2.core = coreU := by
  unfold pairRooms at h
  split at h
  · cases h
  · rename_i hc
    obtain ⟨q, hq, h⟩ := Option.bind_eq_some_iff.1 h
    obtain ⟨q2, hq2, h⟩ := Option.map_eq_some_iff.1 h
    cases h
    exact ⟨not_not.1 hc, roomFor_core hq, roomFor_core hq2⟩

/-- The rooms of the reservation that a formed group can take. -/
def reservedRooms (s : State) (g : Grid) (pair : Bool) : Option (List Room × Bool) :=
  let kept := g.reserve.take (if pair then 2 else 1)
  if reserveFree s g && !kept.isEmpty then some (kept, true) else none

theorem reservedRooms_free {pair : Bool} (h : reserveFree s g = true) (hk : g.reserve.take (if pair then 2 else 1) ≠ []) :
    reservedRooms s g pair = some (g.reserve.take (if pair then 2 else 1), true) := by
  unfold reservedRooms
  rw [if_pos]
  rw [Bool.and_eq_true, Bool.not_eq_true', List.isEmpty_eq_false_iff]
  exact ⟨h, hk⟩

theorem reservedRooms_taken {pair : Bool} (h : reserveFree s g = false) : reservedRooms s g pair = none := by
  simp [reservedRooms, h]

theorem formedRooms_eq (s : State) (x : Context) (g : Grid) (pair : Bool) (core coreU : Nat) : formedRooms s x g pair core coreU =
    if coopBlocks s g then reservedRooms s g pair
    else match roomsFor s g pair 1 core coreU with
      | some rs => some (rs, false)
      | none => if anyRooms s g pair 1 ((partDies s x).flatMap dieCores) then none else reservedRooms s g pair := rfl

/-- R257: a cooperative grid that waits leaves a formed group the reserved room alone. -/
theorem formedRooms_blocked {pair : Bool} (h : coopBlocks s g = true) : formedRooms s x g pair core coreU = reservedRooms s g pair := by
  rw [formedRooms_eq, if_pos h]

theorem formedRooms_room {pair : Bool} {rs : List Room} (h : coopBlocks s g = false) (hr : roomsFor s g pair 1 core coreU = some rs) :
    formedRooms s x g pair core coreU = some (rs, false) := by
  rw [formedRooms_eq, if_neg (by simp [h]), hr]

/-- R261: without room at the cores, a formed group takes the reserved room when no core of the partition has any. -/
theorem formedRooms_noRoom {pair : Bool} (h : coopBlocks s g = false) (hr : roomsFor s g pair 1 core coreU = none) :
    formedRooms s x g pair core coreU =
      if anyRooms s g pair 1 ((partDies s x).flatMap dieCores) then none else reservedRooms s g pair := by
  rw [formedRooms_eq, if_neg (by simp [h]), hr]

theorem pairFormed_iff (g : Grid) (f : Formed) : pairFormed g f = true ↔ g.launch.pair = true ∧ f.gen = 0 ∧ f.again = false := by
  simp only [pairFormed, Bool.and_eq_true, decide_eq_true_eq, Bool.not_eq_true', and_assoc]

end

/-! ### Groups that form by age -/

theorem findCtx_of_served {s : State} {id : Nat} {x : Context} (h : servedCtx s id = some x) : findCtx id s = some x :=
  (Option.filter_eq_some_iff.1 h).1

/-- R31: the group of a bin with an entry that has waited 2,000 ns. -/
theorem exec_groupFormTimeout_bin {s : State} {g : Grid} {x : Context} {n : Nat} {b : Bin} {e : BinEntry} (hg : findGrid g.uid s = some g)
    (hx : findCtx g.ctx s = some x) (hd : x.det = false) (hb : b ∈ g.bins) (hn : b.target = n) (he : e ∈ b.entries)
    (ht : e.time + 2000 ≤ s.time) : exec (.groupFormTimeout true g.uid n) s = .next (updGrid g.uid (binForm true n 1) s) := by
  have aged : (g.bins.any fun b => decide (b.target = n) && b.entries.any fun e => decide (e.time + 2000 ≤ s.time)) = true := by
    refine List.any_eq_true.2 ⟨b, hb, ?_⟩
    rw [Bool.and_eq_true, decide_eq_true_eq]
    exact ⟨hn, List.any_eq_true.2 ⟨e, he, decide_eq_true ht⟩⟩
  change execGroupFormTimeout true g.uid n s = _
  simp [execGroupFormTimeout, hg, hx, hd, aged]

theorem mem_indexed {α : Type} {a : α} : ∀ {l : List α} (n : Nat), a ∈ l → ∃ i, (i, a) ∈ indexed n l
  | b :: l, n, h => by
    rcases List.mem_cons.1 h with rfl | h
    · exact ⟨n, List.mem_cons_self⟩
    · obtain ⟨i, hi⟩ := mem_indexed (n + 1) h
      exact ⟨i, List.mem_cons_of_mem _ hi⟩

theorem readQueue_untampered {s : State} {q : Queue} (h : ∀ e ∈ q.entries, tampered s q e = false) : readQueue q s = (q, s) := by
  rw [readQueue, if_neg]
  rw [List.any_eq_true]
  rintro ⟨e, he, ht⟩
  exact absurd (h e he) (by simp [ht])

theorem readQueue_ctx (q : Queue) (s : State) : (readQueue q s).1.ctx = q.ctx := by
  unfold readQueue; split <;> rfl

/-- What a program has stored in a queue's storage leaves the times of its entries. -/
theorem readQueue_time {s : State} {q : Queue} {e : QEntry} (he : e ∈ q.entries) : ∃ f ∈ (readQueue q s).1.entries, f.time = e.time := by
  unfold readQueue
  split
  · obtain ⟨i, hi⟩ := mem_indexed s.free he
    exact ⟨_, List.mem_map_of_mem hi, rfl⟩
  · exact ⟨e, he, rfl⟩

/-- R30: the group of a binding whose queue has an entry that has waited 2,000 ns. -/
theorem exec_groupFormTimeout_queue {s : State} {g : Grid} {q : Queue} {e : QEntry} {n : Nat} (hg : findGrid g.uid s = some g)
    (hq : findQueue n s = some q) (hb : q.bound = some g.uid) (he : e ∈ q.entries) (ht : e.time + 2000 ≤ s.time) :
    exec (.groupFormTimeout false g.uid n) s =
      .next (updQueue n (fun _ => (takeGroup ((findCtx q.ctx s).getD {}).det g (readQueue q s).1).2)
        (updGrid g.uid (fun _ => (takeGroup ((findCtx q.ctx s).getD {}).det g (readQueue q s).1).1) (readQueue q s).2)) := by
  obtain ⟨f, hf, hft⟩ := readQueue_time (s := s) he
  have aged : ((readQueue q s).1.entries.any fun e => decide (e.time + 2000 ≤ s.time)) = true :=
    List.any_eq_true.2 ⟨f, hf, decide_eq_true (hft ▸ ht)⟩
  change execGroupFormTimeout false g.uid n s = _
  simp [execGroupFormTimeout, formQueue, hq, hb, hg, queueAged, aged, readQueue_ctx]

/-! ### Placement -/

theorem placement : Sys2Proof.Claims.placement := by
  intro s g x die core coreU n wins room hg hx
  refine ⟨exec_workgroupPlace_elsewhere hg hx, fun hd hb hn => ?_, exec_workgroupPlace_blocked hg hx, fun hd hb ho hn hc hl => ?_,
    fun k stolen hd hb ho hn hc hr hdet hk => ?_, fun gid ranges hd hb ho hn hc hp ht hl hw hr => ?_,
    fun gid ranges r r2 hd hb ho hn hc hp ht hl hw hr => ?_, fun r r2 => pairRooms_cores, fun f fs hd hb ho hf hn => ?_, pairFormed_iff g,
    fun f fs hd hb ho hf hr hc => ?_, fun pair => ⟨fun hc hf hk => ?_, fun hc hf => ?_, fun rs => formedRooms_room, fun hc hr ha => ?_,
      fun hc ha hr hf hk => ?_⟩,
    fun b e hdet => exec_groupFormTimeout_bin hg (findCtx_of_served hx) hdet,
    fun q e hq hb he ht => ⟨exec_groupFormTimeout_queue hg hq hb he ht, readQueue_untampered⟩⟩
  · rw [exec_workgroupPlace_unreserved hg hx hd hb, if_neg fun k => (blocked_iff s g die).1 k hn]
  · rw [exec_workgroupPlace_own hg hx hd hb ho, if_neg fun k => (blocked_iff s g die).1 k hn, if_pos hc, if_neg (by simp [hl])]
  · rw [exec_workgroupPlace_next hg hx hd hb ho hn hc, placeNext_waits hr hdet hk]
  · rw [exec_workgroupPlace_next hg hx hd hb ho hn hc, placeNext_places ht hl hw (placeOwn_single hp hw hr)]
  · rw [exec_workgroupPlace_next hg hx hd hb ho hn hc, placeNext_places ht hl hw (placeOwn_pair hp hr)]
  · rw [exec_workgroupPlace_formed hg hx hd hb ho hf, if_neg]
    rcases hn with h | h <;> simp [h]
  · rw [exec_workgroupPlace_formed hg hx hd hb ho hf, if_pos (by simp [hr, hc])]
  · exact (formedRooms_blocked hc).trans (reservedRooms_free hf hk)
  · exact (formedRooms_blocked hc).trans (reservedRooms_taken hf)
  · exact (formedRooms_noRoom hc hr).trans (if_pos ha)
  · exact ((formedRooms_noRoom hc hr).trans (if_neg (by simp [ha]))).trans (reservedRooms_free hf hk)

/-- Settles O44: the start of a group field by field, and a dispatcher's turn by the equation of each branch. -/
theorem workgroupsArePlacedAndStart : Obligations.WorkgroupsArePlacedAndStart := ⟨groupStart, placement⟩

end Sys2Proof.Machine

/-! ### The frame of a store

Performing a store changes memory, the copies of lines, reservations, GWCTs, and what is noted of the bytes that tasks have stored. Nothing else of a
state changes: two states with the same `storeFrame` agree in all the rest. -/

namespace Sys2Proof.Machine

/-- An issuer without its reservations and GWCTs. -/
def bareGroup (g : Group) : Group := { g with resv := [], gwct := [] }

/-- A task without the bytes it has stored since it is no longer speculative. -/
def bareTask (t : Task) : Task := if t.spec then t else { t with wset := [] }

/-- A workgroup without the bytes of its scratchpad. -/
def bareWg (w : Workgroup) : Workgroup := { w with scratch := [] }

/-- A member without the time of its last flit. -/
def bareMember (m : Member) : Member := { m with flit := 0 }

/-- What no performing of a store changes. -/
def storeFrame (s : State) : State :=
  { s with
    grp := bareGroup s.grp, groups := s.groups.map bareGroup, wgs := s.wgs.map bareWg, tasks := s.tasks.map bareTask
    members := s.members.map bareMember, free := 0, hbm := [], host := [], peer := [], old := [], stores := [], caches := [], leases := [] }

/-- A frame without the loads in flight and what tasks have read and stored. -/
def loosen (s : State) : State :=
  { s with
    grp := { s.grp with ops := [] }, groups := s.groups.map fun g => { g with ops := [] }
    tasks := s.tasks.map fun t => { t with wset := [], rset := [] } }

/-- What no performing of a load changes. -/
def loadFrame (s : State) : State := loosen (storeFrame s)

theorem storeFrame_mapGroups (f : Group → Group) (s : State) (h : ∀ g, bareGroup (f g) = bareGroup g) :
    storeFrame (mapGroups f s) = storeFrame s := by
  have hm : (s.groups.map f).map bareGroup = s.groups.map bareGroup := by
    rw [List.map_map]
    exact List.map_congr_left fun g _ => h g
  simp only [storeFrame, mapGroups, h, hm]

theorem storeFrame_updGroup (uid : Nat) (f : Group → Group) (s : State) (h : ∀ g, bareGroup (f g) = bareGroup g) :
    storeFrame (updGroup uid f s) = storeFrame s := by
  unfold updGroup
  split
  · simp only [storeFrame, h]
  · simp only [storeFrame, map_update bareGroup _ f h]

theorem storeFrame_updWg (uid : Nat) (f : Workgroup → Workgroup) (s : State) (h : ∀ w, bareWg (f w) = bareWg w) :
    storeFrame (updWg uid f s) = storeFrame s := by
  simp only [storeFrame, updWg, map_update bareWg _ f h]

theorem storeFrame_setHomeByte (a : Nat) (b : Byte) (s : State) : storeFrame (setHomeByte a b s) = storeFrame s := by
  unfold setHomeByte; split_ifs <;> rfl

theorem storeFrame_setHomeBytes (a : Nat) (bs : List Byte) (s : State) : storeFrame (setHomeBytes a bs s) = storeFrame s := by
  induction bs generalizing a s with
  | nil => rfl
  | cons b bs ih => exact (ih _ _).trans (storeFrame_setHomeByte a b s)

theorem storeFrame_noteOld (a : Nat) (bs : List Byte) (s : State) : storeFrame (noteOld a bs s) = storeFrame s := by
  induction bs generalizing a s with
  | nil => rfl
  | cons b bs ih => unfold noteOld; rw [ih]; split <;> rfl

theorem storeFrame_flitFrom (a : Nat) (s : State) : storeFrame (flitFrom a s) = storeFrame s := by
  unfold flitFrom
  split
  · rfl
  · simp only [storeFrame, map_update bareMember _ (fun m => { m with flit := s.time }) fun _ => rfl]

theorem storeFrame_raiseGwct (who : Option (Nat × Nat)) (t : Nat) (s : State) : storeFrame (raiseGwct who t s) = storeFrame s := by
  unfold raiseGwct
  split
  · rfl
  · exact storeFrame_updGroup _ _ _ fun _ => rfl

theorem storeFrame_breakResv (who : Option (Nat × Nat)) (place line : Nat) (s : State) : storeFrame (breakResv who place line s) = storeFrame s :=
  storeFrame_mapGroups _ _ fun _ => rfl

theorem storeFrame_noteTask (who : Option (Nat × Nat)) (a : Nat) (bs : List Byte) (s : State) : storeFrame (noteTask who a bs s) = storeFrame s := by
  simp only [storeFrame, noteTask, List.map_map]
  congr 1
  refine List.map_congr_left fun t _ => ?_
  simp only [Function.comp_apply]
  split
  · rename_i h
    simp [bareTask, h.2]
  · rfl

/-! ### What a frame tells -/

theorem allGroups_of_storeFrame {s t : State} (h : storeFrame t = storeFrame s) : (allGroups t).map bareGroup = (allGroups s).map bareGroup :=
  (congrArg (fun u : State => u.grp :: u.groups) h :)

/-- Each issuer is one of the earlier state but for its reservations and GWCTs. -/
theorem mem_allGroups_of_storeFrame {s t : State} (h : storeFrame t = storeFrame s) {g : Group} (hg : g ∈ allGroups t) :
    ∃ k ∈ allGroups s, bareGroup k = bareGroup g := by
  have hm : bareGroup g ∈ (allGroups s).map bareGroup := allGroups_of_storeFrame h ▸ List.mem_map_of_mem hg
  exact List.mem_map.1 hm

theorem mem_allGroups_of_loadFrame {s t : State} (h : loadFrame t = loadFrame s) {g : Group} (hg : g ∈ allGroups t) :
    ∃ k ∈ allGroups s, k.uid = g.uid ∧ k.wg = g.wg := by
  have ha : (allGroups t).map (fun k => (k.uid, k.wg)) = (allGroups s).map fun k => (k.uid, k.wg) := by
    have hf := congrArg (fun u : State => (allGroups u).map fun k => (k.uid, k.wg)) h
    simpa [loadFrame, loosen, storeFrame, allGroups, Function.comp_def, bareGroup] using hf
  have hm : (g.uid, g.wg) ∈ (allGroups s).map fun k => (k.uid, k.wg) := ha ▸ List.mem_map_of_mem hg
  obtain ⟨k, hk, he⟩ := List.mem_map.1 hm
  exact ⟨k, hk, congrArg Prod.fst he, congrArg Prod.snd he⟩

theorem findGroup_uid {uid : Nat} {s : State} {g : Group} (h : findGroup uid s = some g) : g ∈ allGroups s ∧ g.uid = uid := by
  unfold findGroup at h
  split at h
  · cases h
    exact ⟨List.mem_cons_self, ‹_›⟩
  · exact ⟨List.mem_cons_of_mem _ (List.mem_of_find?_eq_some h), by simpa using List.find?_some h⟩

theorem memberPresent_of_loadFrame {s t : State} (h : loadFrame t = loadFrame s) (m : Nat) : memberPresent t m = memberPresent s m := by
  have hp : ∀ u : State, memberPresent u m = ((loadFrame u).selfJoined && (loadFrame u).members.any fun x => decide (x.num = m) && x.present && x.joined) := by
    intro u
    simp only [memberPresent, loadFrame, loosen, storeFrame, List.any_map]
    rfl
  rw [hp, hp, h]

theorem peerGone_of_loadFrame {s t : State} (h : loadFrame t = loadFrame s) (a : Nat) : peerGone t a = peerGone s a := by
  unfold peerGone
  split
  · rw [memberPresent_of_loadFrame h]
  · rfl

theorem loadFrame_of_storeFrame {s t : State} (h : storeFrame t = storeFrame s) : loadFrame t = loadFrame s := congrArg loosen h

end Sys2Proof.Machine

/-! ### Bytes in flight, and the homes beside them

`Within D s`: every byte that is in flight towards a home lies in `D`. An operation that performs what is in flight changes the homes in `D` alone, and
leaves what is still in flight within `D`. -/

namespace Sys2Proof.Machine

/-- The bytes that a pending store or atomic writes. -/
def PStore.len (p : PStore) : Nat := if p.op.isSome then 4 else p.bytes.length

/-- A pending store writes no home outside `D`; one with a scratchpad key writes none. -/
def PStore.inside (D : Nat → Prop) (p : PStore) : Prop := p.addr < taskScratch → ∀ i, i < p.len → D (p.addr + i)

/-- A load in flight writes no home outside `D`. -/
def PLoad.inside (D : Nat → Prop) (p : PLoad) : Prop := p.isAtomic = true → ∀ i, i < 4 → D (p.addr + i)

/-- The dirty bytes of a cached line lie in `D`. -/
def CLine.inside (D : Nat → Prop) (c : CLine) : Prop := ∀ d ∈ c.dirty, D (128 * c.line + d.1)

structure Within (D : Nat → Prop) (s : State) : Prop where
  stores : ∀ p ∈ s.stores, p.inside D
  dirty : ∀ c ∈ s.caches, c.inside D
  loads : ∀ g ∈ allGroups s, ∀ o ∈ g.ops, ∀ p ∈ o.loads, p.inside D

theorem within_true (s : State) : Within (fun _ => True) s :=
  ⟨fun _ _ _ _ _ => trivial, fun _ _ _ _ => trivial, fun _ _ _ _ _ _ _ _ _ => trivial⟩

/-- What is in flight lies within the bytes that `inFlight` names. -/
theorem within_inFlight (s : State) : Within (fun a => inFlight s a = true) s := by
  refine ⟨fun p hp _ i hi => ?_, fun c hc d hd => ?_, fun g hg o ho p hp ha i hi => ?_⟩
  · have hany : (s.stores.any fun q => decide (q.addr ≤ p.addr + i) && decide (p.addr + i < q.addr + q.len)) = true :=
      List.any_eq_true.2 ⟨p, hp, by simp; omega⟩
    exact Bool.or_eq_true_iff.2 (.inl (Bool.or_eq_true_iff.2 (.inl hany)))
  · have hany : (s.caches.any fun k => k.dirty.any fun e => decide (128 * k.line + e.1 = 128 * c.line + d.1)) = true :=
      List.any_eq_true.2 ⟨c, hc, List.any_eq_true.2 ⟨d, hd, by simp⟩⟩
    exact Bool.or_eq_true_iff.2 (.inl (Bool.or_eq_true_iff.2 (.inr hany)))
  · refine Bool.or_eq_true_iff.2 (.inr (List.any_eq_true.2 ⟨g, hg, List.any_eq_true.2 ⟨o, ho, List.any_eq_true.2 ⟨p, hp, ?_⟩⟩⟩))
    simp [ha]
    omega

/-- `t` comes from `s` by performing what is in flight within `D`: what `f` tells of a state is the same, what is left in flight lies within
`D`, no store has become pending, and every home outside `D` is as before. -/
structure Kept (f : State → State) (D : Nat → Prop) (s t : State) : Prop where
  frame : f t = f s
  flight : Within D t
  pending : ∀ p ∈ t.stores, p ∈ s.stores
  home : ∀ a, ¬D a → homeByte t a = homeByte s a

section

variable {f : State → State} {D : Nat → Prop} {r s t : State}

theorem Kept.refl (h : Within D s) : Kept f D s s := ⟨rfl, h, fun _ hp => hp, fun _ _ => rfl⟩

theorem Kept.trans (h : Kept f D r s) (k : Kept f D s t) : Kept f D r t :=
  ⟨k.frame.trans h.frame, k.flight, fun p hp => h.pending p (k.pending p hp), fun a ha => (k.home a ha).trans (h.home a ha)⟩

/-- One operation after another. -/
theorem Kept.then {op : State → State} (h : Kept f D r s) (k : ∀ {s}, Within D s → Kept f D s (op s)) : Kept f D r (op s) :=
  h.trans (k h.flight)

theorem Kept.foldl {α : Type} {g : State → α → State} {l : List α} (hg : ∀ s, ∀ a ∈ l, Within D s → Kept f D s (g s a)) (h : Within D s) :
    Kept f D s (l.foldl g s) := by
  induction l generalizing s with
  | nil => exact .refl h
  | cons a l ih =>
    have k := hg s a List.mem_cons_self h
    exact k.trans (ih (fun s b hb => hg s b (List.mem_cons_of_mem _ hb)) k.flight)

theorem Kept.loosened (h : Kept storeFrame D s t) : Kept loadFrame D s t := ⟨loadFrame_of_storeFrame h.frame, h.flight, h.pending, h.home⟩

/-- The loads in flight of a state with the same frame are the same. -/
theorem loads_of_storeFrame (hf : storeFrame t = storeFrame s) (h : Within D s) : ∀ g ∈ allGroups t, ∀ o ∈ g.ops, ∀ p ∈ o.loads, p.inside D := by
  intro g hg
  obtain ⟨k, hk, he⟩ := mem_allGroups_of_storeFrame hf hg
  have hops : g.ops = k.ops := (congrArg Group.ops he).symm
  rw [hops]
  exact h.loads k hk

/-- A change of the cached lines whose dirty bytes stay in `D`. -/
theorem Kept.ofCaches (hf : storeFrame t = storeFrame s) (hs : t.stores = s.stores) (hc : ∀ c ∈ t.caches, c.inside D)
    (hh : ∀ a, homeByte t a = homeByte s a) (h : Within D s) : Kept storeFrame D s t :=
  ⟨hf, ⟨fun p hp => h.stores p (hs ▸ hp), hc, loads_of_storeFrame hf h⟩, fun _ hp => hs ▸ hp, fun a _ => hh a⟩

/-- A change beside stores, cached lines and homes. -/
theorem Kept.beside (hf : storeFrame t = storeFrame s) (hs : t.stores = s.stores) (hc : t.caches = s.caches)
    (hh : ∀ a, homeByte t a = homeByte s a) (h : Within D s) : Kept storeFrame D s t :=
  .ofCaches hf hs (hc ▸ h.dirty) hh h

/-! ### Stores at the home -/

/-- What is noted of the bytes before a store leaves pending stores, copies and homes. -/
theorem noteOld_beside (a : Nat) (bs : List Byte) (s : State) :
    (noteOld a bs s).stores = s.stores ∧ (noteOld a bs s).caches = s.caches ∧ ∀ c, homeByte (noteOld a bs s) c = homeByte s c := by
  induction bs generalizing a s with
  | nil => exact ⟨rfl, rfl, fun _ => rfl⟩
  | cons b bs ih =>
    unfold noteOld
    split
    · exact ih _ _
    · exact ih (a + 1) { s with old := sins a (homeByte s a, s.time) s.old }

theorem noteOld_kept (a : Nat) (bs : List Byte) (h : Within D s) : Kept storeFrame D s (noteOld a bs s) := by
  obtain ⟨hs, hc, hh⟩ := noteOld_beside a bs s
  exact .beside (storeFrame_noteOld _ _ _) hs hc hh h

theorem setHomeBytes_stores (a : Nat) (bs : List Byte) (s : State) : (setHomeBytes a bs s).stores = s.stores := by
  induction bs generalizing a s with
  | nil => rfl
  | cons b bs ih => exact (ih _ _).trans (setHomeByte_stores a b s)

theorem setHomeBytes_caches (a : Nat) (bs : List Byte) (s : State) : (setHomeBytes a bs s).caches = s.caches := by
  induction bs generalizing a s with
  | nil => rfl
  | cons b bs ih => exact (ih _ _).trans (setHomeByte_caches a b s)

theorem setHomeBytes_kept {a : Nat} {bs : List Byte} (hD : ∀ i, i < bs.length → D (a + i)) (h : Within D s) :
    Kept storeFrame D s (setHomeBytes a bs s) := by
  have hf := storeFrame_setHomeBytes a bs s
  have hw : Within D (setHomeBytes a bs s) :=
    ⟨setHomeBytes_stores a bs s ▸ h.stores, setHomeBytes_caches a bs s ▸ h.dirty, loads_of_storeFrame hf h⟩
  refine ⟨hf, hw, fun p hp => setHomeBytes_stores a bs s ▸ hp, fun c hc => homeByte_setHomeBytes _ _ _ _ ?_⟩
  by_contra hin
  exact hc (by have := hD (c - a) (by omega); rwa [show a + (c - a) = c by omega] at this)

theorem countFlit_kept (h : Within D s) : Kept storeFrame D s { s with free := s.free + 1 } := .beside rfl rfl rfl (fun _ => rfl) h

theorem flitFrom_kept (a : Nat) (h : Within D s) : Kept storeFrame D s (flitFrom a s) := by
  refine .beside (storeFrame_flitFrom a s) ?_ ?_ (fun _ => ?_) h <;> (unfold flitFrom; split <;> rfl)

theorem homeByte_updGroup (uid : Nat) (f : Group → Group) (s : State) (a : Nat) : homeByte (updGroup uid f s) a = homeByte s a :=
  homeByte_congr (updGroup_hbm ..) (updGroup_host ..) (updGroup_peer ..) (updGroup_hostRanges ..) (updGroup_out ..) a

theorem raiseGwct_kept (who : Option (Nat × Nat)) (t : Nat) (h : Within D s) : Kept storeFrame D s (raiseGwct who t s) := by
  have hf := storeFrame_raiseGwct who t s
  unfold raiseGwct at hf ⊢
  split at hf
  · exact .refl h
  · exact .beside hf (updGroup_stores ..) (updGroup_caches ..) (homeByte_updGroup _ _ _) h

theorem breakResv_kept (who : Option (Nat × Nat)) (place line : Nat) (h : Within D s) : Kept storeFrame D s (breakResv who place line s) :=
  .beside (storeFrame_breakResv _ _ _ _) rfl rfl (fun _ => rfl) h

theorem noteTask_kept (who : Option (Nat × Nat)) (a : Nat) (bs : List Byte) (h : Within D s) : Kept storeFrame D s (noteTask who a bs s) :=
  .beside (storeFrame_noteTask _ _ _ _) rfl rfl (fun _ => rfl) h

/-- A change of each cached line that makes no byte dirty. -/
theorem mapCaches_kept {k : CLine → CLine} (hk : ∀ c, (k c).line = c.line ∧ ∀ d ∈ (k c).dirty, d ∈ c.dirty) (h : Within D s) :
    Kept storeFrame D s { s with caches := s.caches.map k } := by
  refine .ofCaches rfl rfl (fun c hc => ?_) (fun _ => rfl) h
  obtain ⟨c, hm, rfl⟩ := List.mem_map.1 hc
  obtain ⟨hl, hd⟩ := hk c
  intro d hdk
  rw [hl]
  exact h.dirty c hm d (hd d hdk)

theorem patchLine_cleans (host : Bool) (core line off : Nat) (bs : List Byte) (c : CLine) :
    (patchLine host core line off bs c).line = c.line ∧ ∀ d ∈ (patchLine host core line off bs c).dirty, d ∈ c.dirty := by
  unfold patchLine
  split
  · exact ⟨rfl, fun d hd => (List.mem_filter.1 hd).1⟩
  · split <;> exact ⟨rfl, fun d hd => hd⟩

theorem performStore_kept {who : Option (Nat × Nat)} {core a : Nat} {bs : List Byte} (hD : ∀ i, i < bs.length → D (a + i)) (h : Within D s) :
    Kept storeFrame D s (performStore who core a bs s) := by
  unfold performStore
  dsimp only
  split
  · exact .refl h
  · have stored := (((noteOld_kept a bs h).then (setHomeBytes_kept hD)).then (noteTask_kept who a bs)).then
      (mapCaches_kept (patchLine_cleans (hostHomed (noteTask who a bs (setHomeBytes a bs (noteOld a bs s))) a) core (lineOf a) (a % 128) bs))
    have raised := fun n => (stored.then (breakResv_kept who 0 (lineOf a))).then (raiseGwct_kept who n)
    split
    · exact ((raised _).then countFlit_kept).then (flitFrom_kept a)
    · exact raised _

/-! ### Write-backs -/

theorem writeBackLine_kept {c : CLine} (hc : c.inside D) (h : Within D s) : Kept storeFrame D s (writeBackLine c s) := by
  unfold writeBackLine
  dsimp only
  split
  · exact .refl h
  · have stored := Kept.foldl (f := storeFrame) (l := c.dirty)
      (g := fun s d => performStore (match c.owners with | [o] => some o | _ => none) c.unit (128 * c.line + d.1) [d.2] s)
      (fun s d hd hs => performStore_kept (fun i hi => by simpa [show i = 0 by simpa using hi] using hc d hd) hs) h
    exact stored.trans (.foldl (fun s o _ hs => raiseGwct_kept _ _ hs) stored.flight)

theorem writeBackWhere_kept (p : CLine → Bool) (h : Within D s) : Kept storeFrame D s (writeBackWhere p s) := by
  have cleaned : Kept storeFrame D s { s with caches := s.caches.map fun c => if p c then cleanLine c else c } := by
    refine mapCaches_kept (fun c => ?_) h
    split
    · exact ⟨rfl, fun d hd => absurd hd List.not_mem_nil⟩
    · exact ⟨rfl, fun d hd => hd⟩
  exact cleaned.trans (.foldl (fun s c hc hs => writeBackLine_kept (h.dirty c (List.mem_filter.1 hc).1) hs) cleaned.flight)

theorem writeBackAt_kept (core line : Nat) (h : Within D s) : Kept storeFrame D s (writeBackAt core line s) := writeBackWhere_kept _ h

end

end Sys2Proof.Machine

/-! ### Reads of the copies, and the stores performed one by one -/

namespace Sys2Proof.Machine

section

variable {D : Nat → Prop} {s t : State}

theorem drawFree_kept (h : Within D s) : Kept storeFrame D s (drawFree s).2 := .beside rfl rfl rfl (fun _ => rfl) h

theorem putLine_kept {c : CLine} (hc : c.inside D) (h : Within D s) : Kept storeFrame D s (putLine c s) := by
  unfold putLine
  split
  · refine .ofCaches rfl rfl (fun d hd => ?_) (fun _ => rfl) h
    obtain ⟨e, he, rfl⟩ := List.mem_map.1 hd
    split_ifs
    · exact hc
    · exact h.dirty e he
  · refine .ofCaches rfl rfl (fun d hd => ?_) (fun _ => rfl) h
    rcases List.mem_append.1 hd with hd | hd
    · exact h.dirty d hd
    · rwa [List.mem_singleton.1 hd]

/-- The entry of a line that a cache holds, or a new one, is within what is in flight. -/
theorem inside_lineEntry (lvl unit line : Nat) (h : Within D s) :
    CLine.inside D ((findLine lvl unit line s).getD { lvl := lvl, unit := unit, line := line }) := by
  cases hl : findLine lvl unit line s with
  | none => exact fun d hd => absurd hd List.not_mem_nil
  | some c => exact h.dirty c (List.mem_of_find?_eq_some hl)

theorem lineEntry_line (lvl unit line : Nat) (s : State) :
    ((findLine lvl unit line s).getD { lvl := lvl, unit := unit, line := line }).line = line := by
  cases hl : findLine lvl unit line s with
  | none => rfl
  | some c =>
    have hc := List.find?_some hl
    simp only [Bool.and_eq_true, decide_eq_true_eq] at hc
    exact hc.2

theorem fillLine_kept (lvl unit line expiry evc : Nat) (bytes : List Byte) (h : Within D s) :
    Kept storeFrame D s (fillLine lvl unit line expiry evc bytes s) :=
  putLine_kept (inside_lineEntry lvl unit line h) h

theorem grantLease_kept (line : Nat) (h : Within D s) : Kept storeFrame D s (grantLease line s).2 := by
  unfold grantLease
  split
  · exact .refl h
  · exact .beside rfl rfl rfl (fun _ => rfl) h

theorem holds_kept (c : CLine) (h : Within D s) : Kept storeFrame D s (holds c s).2 := by
  unfold holds
  split
  · exact .refl h
  · exact drawFree_kept h

theorem refreshLine_kept (core line : Nat) (bytes : List Byte) (h : Within D s) : Kept storeFrame D s (refreshLine core line bytes s) := by
  refine mapCaches_kept (fun c => ?_) h
  split <;> exact ⟨rfl, fun _ hd => hd⟩

theorem keepLine_kept (core line evc : Nat) (h : Within D s) : Kept storeFrame D s (keepLine core line evc s) := by
  unfold keepLine
  split
  · refine mapCaches_kept (fun c => ?_) h
    split <;> exact ⟨rfl, fun _ hd => hd⟩
  · exact .refl h

theorem readHome_kept (core : Nat) (lease : Bool) (evc a n : Nat) (h : Within D s) : Kept storeFrame D s (readHome core lease evc a n s).2 := by
  have read := (writeBackAt_kept core (lineOf a) h).then (flitFrom_kept a)
  unfold readHome
  dsimp only
  split
  · have granted := read.then (grantLease_kept (lineOf a))
    split
    · exact granted.then (fillLine_kept _ _ _ _ _ _)
    · exact (granted.then (fillLine_kept _ _ _ _ _ _)).then (fillLine_kept _ _ _ _ _ _)
  · exact read.then (refreshLine_kept _ _ _)

theorem readL2_kept (core evc a n : Nat) (h : Within D s) : Kept storeFrame D s (readL2 core evc a n s).2 := by
  unfold readL2
  dsimp only
  split
  · exact readHome_kept _ _ _ _ _ h
  · have held := holds_kept ‹CLine› h
    split
    · split
      · exact held.then (fillLine_kept _ _ _ _ _ _)
      · exact held.then (readHome_kept _ _ _ _ _)
    · exact held.then (readHome_kept _ _ _ _ _)

theorem readCopy_kept (core scope evc a n : Nat) (h : Within D s) : Kept storeFrame D s (readCopy core scope evc a n s).2 := by
  unfold readCopy
  split
  · exact readHome_kept _ _ _ _ _ h
  · split
    · split
      · exact readHome_kept _ _ _ _ _ h
      · exact readL2_kept _ _ _ _ h
    · rename_i c _
      have held := holds_kept c h
      split
      · exact .refl h
      · dsimp only
        split
        · split
          · exact held
          · split
            · exact held.then (readHome_kept _ _ _ _ _)
            · exact held.then (readL2_kept _ _ _ _)
        · split
          · exact held.then (readHome_kept _ _ _ _ _)
          · exact held.then (readL2_kept _ _ _ _)

theorem readMem_kept (core scope evc a n : Nat) (h : Within D s) : Kept storeFrame D s (readMem core scope evc a n s).2 :=
  (readCopy_kept core scope evc a n h).then (keepLine_kept _ _ _)

/-! ### Stores at their places -/

theorem length_toBytes (n v : Nat) : (toBytes n v).length = n := by
  induction n generalizing v with
  | zero => rfl
  | succ n ih => exact congrArg (· + 1) (ih _)

/-- A key of a map after an insertion is the new one or was one before. -/
theorem mem_sins {α : Type} {k : Nat} {v : α} : ∀ {m : Sparse α} {d : Nat × α}, d ∈ sins k v m → d = (k, v) ∨ d ∈ m
  | [], d, h => .inl (List.mem_singleton.1 h)
  | (b, x) :: r, d, h => by
    unfold sins at h
    split_ifs at h
    · exact List.mem_cons.1 h
    · exact (List.mem_cons.1 h).imp_right (List.mem_cons_of_mem _)
    · rcases List.mem_cons.1 h with h | h
      · exact .inr (h ▸ List.mem_cons_self)
      · exact (mem_sins h).imp_right (List.mem_cons_of_mem _)

theorem bound_of_mem_indexed {α : Type} : ∀ {l : List α} {n : Nat} {p : Nat × α}, p ∈ indexed n l → p.1 < n + l.length
  | a :: l, n, p, h => by
    rcases List.mem_cons.1 h with rfl | h
    · simp
    · have := bound_of_mem_indexed h
      simp only [List.length_cons]
      omega

/-- The bytes of a map after those of a list are inserted from a key on. -/
theorem mem_foldl_sins {off : Nat} {l : List (Nat × Byte)} {m : Sparse Byte} {d : Nat × Byte}
    (h : d ∈ l.foldl (fun m p => sins (off + p.1) p.2 m) m) : d ∈ m ∨ ∃ p ∈ l, d.1 = off + p.1 := by
  induction l generalizing m with
  | nil => exact .inl h
  | cons q l ih =>
    rcases ih h with h | ⟨p, hp, he⟩
    · rcases mem_sins h with rfl | h
      · exact .inr ⟨q, List.mem_cons_self, rfl⟩
      · exact .inl h
    · exact .inr ⟨p, List.mem_cons_of_mem _ hp, he⟩

theorem storeL1_kept {uid lane core evc a : Nat} {bs : List Byte} (hD : ∀ i, i < bs.length → D (a + i)) (h : Within D s) :
    Kept storeFrame D s (storeL1 uid lane core evc a bs s) := by
  refine (putLine_kept (fun d hd => ?_) h).then (breakResv_kept _ _ _)
  rcases mem_foldl_sins hd with hd | ⟨p, hp, he⟩
  · exact inside_lineEntry 1 core (lineOf a) h d hd
  · have hi := bound_of_mem_indexed hp
    have hl := lineEntry_line 1 core (lineOf a) s
    have hda := hD p.1 (by omega)
    dsimp only at hl ⊢
    rw [hl, he, lineOf]
    rwa [show 128 * (a / 128) + (a % 128 + p.1) = a + p.1 by omega]

theorem scratchStore_kept (who : Option (Nat × Nat)) (wg off : Nat) (bs : List Byte) (h : Within D s) :
    Kept storeFrame D s (scratchStore who wg off bs s) := by
  refine Kept.trans (s := updWg wg _ s) (.beside (storeFrame_updWg _ _ _ ?_) rfl rfl (fun _ => rfl) h)
    (breakResv_kept who 1 (lineOf (scratchKey wg off)) ⟨h.stores, h.dirty, h.loads⟩)
  exact fun _ => rfl

theorem length_result {p : PStore} (old : List Byte) : (p.result old).length = p.len := by
  unfold PStore.result PStore.len
  cases p.op with
  | none => rfl
  | some op => exact length_toBytes _ _

theorem performPending_kept {core : Nat} {p : PStore} (hp : p.inside D) (h : Within D s) : Kept storeFrame D s (performPending core p s) := by
  unfold performPending
  dsimp only
  split
  · exact (noteTask_kept _ _ _ h).then (scratchStore_kept _ _ _ _)
  · have hD : ∀ old : List Byte, ∀ i, i < (p.result old).length → D (p.addr + i) := fun old i hi => hp (by omega) i (length_result old ▸ hi)
    split
    · exact .refl h
    · split
      · split
        · exact (noteTask_kept _ _ _ h).then (storeL1_kept (hD _))
        · exact ((readMem_kept _ _ _ _ _ h).then (noteTask_kept _ _ _)).then (storeL1_kept (hD _))
      · exact ((writeBackAt_kept _ _ h).then (keepLine_kept _ _ _)).then (performStore_kept (hD _))

/-! ### The pending stores that are performed together -/

theorem mem_splitStores {core : Nat → Nat} {p : PStore → Bool} {x : PStore} :
    ∀ {l : List PStore}, x ∈ (splitStores core p l).1 ∨ x ∈ (splitStores core p l).2 → x ∈ l
  | [], h => h.elim id id
  | y :: l, h => by
    unfold splitStores at h
    dsimp only at h
    split_ifs at h
    · rcases h with h | h
      · exact (List.mem_cons.1 h).elim (fun e => e ▸ List.mem_cons_self) fun h => List.mem_cons_of_mem _ (mem_splitStores (.inl h))
      · exact List.mem_cons_of_mem _ (mem_splitStores (.inr h))
    · rcases h with h | h
      · exact List.mem_cons_of_mem _ (mem_splitStores (.inl h))
      · exact (List.mem_cons.1 h).elim (fun e => e ▸ List.mem_cons_self) fun h => List.mem_cons_of_mem _ (mem_splitStores (.inr h))

/-- No store that is to be performed stays. -/
theorem not_due_of_stays {core : Nat → Nat} {p : PStore → Bool} {x : PStore} : ∀ {l : List PStore}, x ∈ (splitStores core p l).2 → p x = false
  | y :: l, h => by
    unfold splitStores at h
    dsimp only at h
    split_ifs at h with hy
    · exact not_due_of_stays h
    · rcases List.mem_cons.1 h with rfl | h
      · exact (Bool.or_eq_false_iff.1 (Bool.not_eq_true _ ▸ hy)).1
      · exact not_due_of_stays h

/-- The stores that stay are taken first, and what is due is performed then. -/
theorem performWhere_kept (p : PStore → Bool) (h : Within D s) :
    Kept storeFrame D s (performWhere p s) ∧ ∀ x ∈ (performWhere p s).stores, p x = false := by
  have stay : Kept storeFrame D s { s with stores := (splitStores (fun u => coreOfGroup u s) p s.stores).2 } :=
    ⟨rfl, ⟨fun x hx => h.stores x (mem_splitStores (.inr hx)), h.dirty, h.loads⟩, fun x hx => mem_splitStores (.inr hx), fun _ _ => rfl⟩
  have done := Kept.foldl (f := storeFrame) (l := (splitStores (fun u => coreOfGroup u s) p s.stores).1)
    (g := fun s x => performPending (coreOfGroup x.grp s) x s)
    (fun s x hx hs => performPending_kept (h.stores x (mem_splitStores (.inl hx))) hs) stay.flight
  exact ⟨stay.trans done, fun x hx => not_due_of_stays (done.pending x hx)⟩

theorem drainOwn_kept (uid lane line : Nat) (h : Within D s) : Kept storeFrame D s (drainOwn uid lane line s) := (performWhere_kept _ h).1

theorem drainCore_kept (core line : Nat) (h : Within D s) : Kept storeFrame D s (drainCore core line s) := (performWhere_kept _ h).1

theorem releaseAll_kept (p : Nat → Bool) (h : Within D s) : Kept storeFrame D s (releaseAll p s) :=
  (performWhere_kept (fun x => p x.grp) h).1.then (writeBackWhere_kept fun c => c.owners.any fun o => p o.1)

/-- R236: nothing that the chosen issuers stored is pending after their release. -/
theorem releaseAll_stores (p : Nat → Bool) (h : Within D s) : ∀ x ∈ (releaseAll p s).stores, p x.grp = false := by
  obtain ⟨stored, gone⟩ := performWhere_kept (fun x => p x.grp) h
  exact fun x hx => gone x ((writeBackWhere_kept (fun c => c.owners.any fun o => p o.1) stored.flight).pending x hx)

theorem storeHome_kept {uid lane core a : Nat} {bs : List Byte} (hD : ∀ i, i < bs.length → D (a + i)) (h : Within D s) :
    Kept storeFrame D s (storeHome uid lane core a bs s) :=
  ((drainCore_kept _ _ h).then (writeBackAt_kept _ _)).then (performStore_kept hD)

theorem placeNow_kept {g : Group} {pl : Place} {lane a : Nat} {bs : List Byte} (hD : pl ≠ .scratch → ∀ i, i < bs.length → D (a + i)) (h : Within D s) :
    Kept storeFrame D s (placeNow g pl lane a bs s) := by
  cases pl with
  | scratch => exact ((drainCore_kept _ _ h).then (noteTask_kept _ _ _)).then (scratchStore_kept _ _ _ _)
  | window => exact storeHome_kept (hD (by decide)) h
  | mem => exact storeHome_kept (hD (by decide)) h

end

end Sys2Proof.Machine

/-! ### Loads in flight -/

namespace Sys2Proof.Machine

section

variable {D : Nat → Prop} {s t : State}

/-- An issuer of a state with one of them changed is one of the state, or the change of one. -/
theorem mem_allGroups_updGroup {uid : Nat} {f : Group → Group} {g : Group} (h : g ∈ allGroups (updGroup uid f s)) :
    g ∈ allGroups s ∨ ∃ k ∈ allGroups s, k.uid = uid ∧ g = f k := by
  unfold updGroup at h
  split_ifs at h with hu
  · rcases List.mem_cons.1 h with rfl | h
    · exact .inr ⟨s.grp, List.mem_cons_self, hu, rfl⟩
    · exact .inl (List.mem_cons_of_mem _ h)
  · rcases List.mem_cons.1 h with rfl | h
    · exact .inl List.mem_cons_self
    · obtain ⟨k, hk, he⟩ := List.mem_map.1 h
      split_ifs at he with hku
      · exact .inr ⟨k, List.mem_cons_of_mem _ hk, hku, he.symm⟩
      · exact .inl (he ▸ List.mem_cons_of_mem _ hk)

/-- An issuer without what the performing of loads may change. -/
def looseGroup (g : Group) : Group := { bareGroup g with ops := [] }

theorem loadFrame_updGroup (uid : Nat) (f : Group → Group) (s : State) (h : ∀ g, looseGroup (f g) = looseGroup g) :
    loadFrame (updGroup uid f s) = loadFrame s := by
  have hm : ∀ l : List Group, (l.map bareGroup).map (fun g : Group => { g with ops := [] }) = l.map looseGroup := fun l => by
    rw [List.map_map]
    rfl
  have hg : ({ bareGroup (f s.grp) with ops := [] } : Group) = { bareGroup s.grp with ops := [] } := h s.grp
  unfold updGroup
  split
  · simp only [loadFrame, loosen, storeFrame, hg]
  · simp only [loadFrame, loosen, storeFrame, hm, map_update looseGroup _ f h]

/-- A change of an issuer beside its loads in flight. -/
theorem updGroup_kept {f : Group → Group} {uid : Nat} (hf : ∀ g, looseGroup (f g) = looseGroup g)
    (hl : ∀ g ∈ allGroups s, g.uid = uid → ∀ o ∈ (f g).ops, ∀ p ∈ o.loads, p.inside D) (h : Within D s) : Kept loadFrame D s (updGroup uid f s) := by
  refine ⟨loadFrame_updGroup uid f s hf, ⟨?_, ?_, fun g hg => ?_⟩, fun p hp => updGroup_stores uid f s ▸ hp, fun a _ => homeByte_updGroup uid f s a⟩
  · exact updGroup_stores uid f s ▸ h.stores
  · exact updGroup_caches uid f s ▸ h.dirty
  · rcases mem_allGroups_updGroup hg with hg | ⟨k, hk, hu, rfl⟩
    · exact h.loads g hg
    · exact hl k hk hu

theorem loadFrame_updTask (uid lane : Nat) (f : Task → Task) (s : State)
    (h : ∀ t : Task, ({ f t with wset := [], rset := [] } : Task) = { t with wset := [], rset := [] }) : loadFrame (updTask uid lane f s) = loadFrame s := by
  have hb : ∀ t : Task, ({ bareTask t with wset := [], rset := [] } : Task) = { t with wset := [], rset := [] } := by
    intro t
    unfold bareTask
    split <;> rfl
  simp only [loadFrame, loosen, storeFrame, updTask, List.map_map]
  congr 1
  refine List.map_congr_left fun t _ => ?_
  simp only [Function.comp_apply, hb]
  split
  · exact h t
  · rfl

theorem taskRead_kept (uid lane key : Nat) (bs : List Byte) (h : Within D s) : Kept loadFrame D s (taskRead uid lane key bs s).2 := by
  unfold taskRead
  split
  · exact .refl h
  · refine ⟨loadFrame_updTask _ _ _ _ fun t => ?_, ⟨h.stores, h.dirty, h.loads⟩, fun _ hp => hp, fun _ _ => rfl⟩
    split <;> rfl

theorem loadBytes_kept (uid lane core scope evc a n : Nat) (h : Within D s) : Kept loadFrame D s (loadBytes uid lane core scope evc a n s).2 := by
  have own := (drainOwn_kept uid lane (lineOf a) h).loosened
  unfold loadBytes
  dsimp only
  split
  · exact (own.then fun h => (writeBackAt_kept core (lineOf a) h).loosened).then (taskRead_kept _ _ _ _)
  · exact own.then fun h => (readMem_kept _ _ _ _ _ h).loosened

theorem loadHome_kept (uid lane core a n : Nat) (h : Within D s) : Kept storeFrame D s (loadHome uid lane core a n s).2 :=
  (((drainOwn_kept uid lane (lineOf a) h).then (writeBackAt_kept core (lineOf a))).then (flitFrom_kept a)).then (refreshLine_kept _ _ _)

theorem placeLoad_kept (g : Group) (pl : Place) (scope evc lane a n : Nat) (h : Within D s) :
    Kept loadFrame D s (placeLoad g pl scope evc lane a n s).2 := by
  cases pl with
  | mem => exact loadBytes_kept _ _ _ _ _ _ _ h
  | scratch => exact (drainOwn_kept _ _ _ h).loosened.then (taskRead_kept _ _ _ _)
  | window => exact (loadHome_kept _ _ _ _ n h).loosened.then (taskRead_kept _ _ _ _)

theorem placeExclusive_kept (g : Group) (pl : Place) (lane a n : Nat) (h : Within D s) : Kept storeFrame D s (placeExclusive g pl lane a n s).2 := by
  cases pl with
  | mem => exact loadHome_kept _ _ _ _ _ h
  | scratch => exact drainOwn_kept _ _ _ h
  | window => exact loadHome_kept _ _ _ _ _ h

theorem atomicPut_kept {op : AtomicOp} {x y : Word} {put : List Byte → State → State} {touch : State → State} {r : List Byte × State}
    (hp : ∀ bs s, bs.length = 4 → Within D s → Kept loadFrame D s (put bs s)) (ht : ∀ s, Within D s → Kept loadFrame D s (touch s))
    (h : Within D r.2) : Kept loadFrame D r.2 (atomicPut op x y put touch r).2 := by
  unfold atomicPut
  dsimp only
  split
  · exact hp _ _ (length_toBytes _ _) h
  · exact ht _ h

/-- An atomic that is performed at its place beyond the L1. -/
theorem atomicNow_kept {g : Group} {op : AtomicOp} {pl : Place} {lane a : Nat} {x y : Word} (hD : ∀ i, i < 4 → D (a + i)) (h : Within D s) :
    Kept loadFrame D s (atomicPut op x y (placeNow g pl lane a) (placeNow g pl lane a []) (placeExclusive g pl lane a 4 s)).2 := by
  have read := (placeExclusive_kept g pl lane a 4 h).loosened
  refine read.trans (atomicPut_kept (fun bs s hbs hs => ?_) (fun s hs => ?_) read.flight)
  · exact (placeNow_kept (fun _ i hi => hD i (hbs ▸ hi)) hs).loosened
  · exact (placeNow_kept (bs := []) (fun _ i hi => absurd hi (Nat.not_lt_zero i)) hs).loosened

/-- An atomic that is performed in the L1 of its core. -/
theorem atomicL1_kept {g : Group} {op : AtomicOp} {scope evc lane a : Nat} {x y : Word} (hD : ∀ i, i < 4 → D (a + i)) (h : Within D s) :
    Kept loadFrame D s (atomicPut op x y (fun bs s => storeL1 g.uid lane g.core evc a bs (noteTask (some (g.uid, lane)) a bs s))
      (breakResv (some (g.uid, lane)) 0 (lineOf a)) (loadBytes g.uid lane g.core scope evc a 4 s)).2 := by
  have read := loadBytes_kept g.uid lane g.core scope evc a 4 h
  refine read.trans (atomicPut_kept (fun bs s hbs hs => ?_) (fun s hs => ?_) read.flight)
  · exact ((noteTask_kept _ _ _ hs).then (storeL1_kept fun i hi => hD i (hbs ▸ hi))).loosened
  · exact (breakResv_kept _ _ _ hs).loosened

theorem placeAtomic_kept {g : Group} {op : AtomicOp} {pl : Place} {scope evc lane a : Nat} {x y : Word} (hD : ∀ i, i < 4 → D (a + i))
    (h : Within D s) : Kept loadFrame D s (placeAtomic g op pl scope evc lane a x y s).2 := by
  have drained := (drainCore_kept g.core (lineOf (taskKey g pl a)) h).loosened
  unfold placeAtomic
  cases pl with
  | scratch => exact drained.then (atomicNow_kept hD)
  | window => exact drained.then (atomicNow_kept hD)
  | mem =>
    dsimp only
    split
    · exact drained.then (atomicL1_kept hD)
    · exact (drained.then fun h => (keepLine_kept _ _ _ h).loosened).then (atomicNow_kept hD)

theorem loadWords_kept {g : Group} {p : PLoad} (hp : p.inside D) (h : Within D s) : Kept loadFrame D s (loadWords g p s).2 := by
  unfold loadWords
  split
  · rename_i op x y hh
    exact placeAtomic_kept (hp (by unfold PLoad.isAtomic; rw [hh])) h
  · have read := (placeExclusive_kept g p.place p.lane p.addr p.size h).loosened
    refine read.trans (updGroup_kept (fun k => ?_) (fun k hk _ => ?_) read.flight)
    · unfold takeResv; split <;> rfl
    · rw [show (takeResv p.lane (resvOf g p.place p.addr p.size) k).ops = k.ops by unfold takeResv; split <;> rfl]
      exact read.flight.loads k hk
  · exact placeLoad_kept _ _ _ _ _ _ _ h

theorem performLoad_kept {g : Group} {p : PLoad} (hp : p.inside D) (h : Within D s) : Kept loadFrame D s (performLoad g p s).2 := by
  unfold performLoad
  split
  · exact .refl h
  · exact loadWords_kept hp h

theorem performOp_kept {g : Group} {q : PLoad → Bool} {o : VarOp} (ho : ∀ p ∈ o.loads, p.inside D) (h : Within D s) :
    Kept loadFrame D s (performOp g q o s).2 := by
  have hl : ∀ (l : List PLoad) (w : List RegWrite) (s : State), (∀ p ∈ l, p.inside D) → Within D s →
      Kept loadFrame D s (l.foldl (fun r p => (r.1 ++ (performLoad g p r.2).1, (performLoad g p r.2).2)) (w, s)).2 := by
    intro l
    induction l with
    | nil => exact fun w s _ hs => .refl hs
    | cons p l ih =>
      intro w s hp hs
      have one := performLoad_kept (g := g) (hp p List.mem_cons_self) hs
      exact one.trans (ih _ _ (fun p' hp' => hp p' (List.mem_cons_of_mem _ hp')) one.flight)
  exact hl _ _ _ (fun p hp => ho p (List.mem_filter.1 hp).1) h

/-- The loads that an operation keeps in flight are among its own. -/
theorem performOps_loads (g : Group) (q : Nat → PLoad → Bool) (n : Nat) (l : List VarOp) (s : State) :
    ∀ o ∈ (performOps g q n l s).1, ∃ o' ∈ l, ∀ p ∈ o.loads, p ∈ o'.loads := by
  induction l generalizing n s with
  | nil => exact fun o ho => absurd ho List.not_mem_nil
  | cons o' l ih =>
    intro o ho
    rcases List.mem_cons.1 ho with rfl | ho
    · exact ⟨o', List.mem_cons_self, fun p hp => (List.mem_filter.1 hp).1⟩
    · obtain ⟨o₂, h₂, hs⟩ := ih _ _ o ho
      exact ⟨o₂, List.mem_cons_of_mem _ h₂, hs⟩

theorem performOps_kept {g : Group} {q : Nat → PLoad → Bool} (n : Nat) {l : List VarOp} (hl : ∀ o ∈ l, ∀ p ∈ o.loads, p.inside D) (h : Within D s) :
    Kept loadFrame D s (performOps g q n l s).2 := by
  induction l generalizing n s with
  | nil => exact .refl h
  | cons o l ih =>
    have one := performOp_kept (g := g) (q := q n) (hl o List.mem_cons_self) h
    exact one.trans (ih _ (fun o' ho' => hl o' (List.mem_cons_of_mem _ ho')) one.flight)

theorem performLoads_kept (uid : Nat) (q : Nat → PLoad → Bool) (h : Within D s) : Kept loadFrame D s (performLoads uid q s) := by
  unfold performLoads
  split
  · exact .refl h
  · rename_i g hg
    split
    · exact .refl h
    · have hops := h.loads g (findGroup_uid hg).1
      have done := performOps_kept (g := g) (q := dueLoads g.ops q) 0 hops h
      refine done.trans (updGroup_kept (fun _ => rfl) (fun _ _ _ o ho => ?_) done.flight)
      obtain ⟨o', ho', hs⟩ := performOps_loads _ _ _ _ _ o ho
      exact fun p hp => hops o' ho' p (hs p hp)

theorem performGroups_kept (p : Group → Bool) (h : Within D s) : Kept loadFrame D s (performGroups p s) := by
  refine .foldl (fun s g _ hs => ?_) h
  split
  · exact performLoads_kept _ _ hs
  · exact .refl hs

theorem acquireWg_kept (wg : Nat) (h : Within D s) : Kept loadFrame D s (acquireWg wg s) := performGroups_kept _ h

end

end Sys2Proof.Machine

/-! ### Work beside memory

`Aside s t`: what an operation does that touches no memory. Issuers may go, none comes but an empty one, no operation begins; a workgroup with children
stays; the grids are the same ones. -/

namespace Sys2Proof.Machine

/-- The memory of a state: the homes, the pending stores and the cached lines. -/
def memory (s : State) : State :=
  { hbm := s.hbm, host := s.host, peer := s.peer, hostRanges := s.hostRanges, out := s.out, stores := s.stores, caches := s.caches }

/-- An issuer of no thread. -/
def Group.blank (g : Group) : Prop := g.uid = 0 ∧ g.wg = 0 ∧ g.ops = []

/-- An issuer that comes from another: the same one, with no operation in flight that the other has not. -/
def Group.heir (k h : Group) : Prop := h.uid = k.uid ∧ h.wg = k.wg ∧ ∀ o ∈ h.ops, o ∈ k.ops

structure Aside (s t : State) : Prop where
  memory : memory t = memory s
  groups : ∀ h ∈ allGroups t, h.blank ∨ ∃ k ∈ allGroups s, k.heir h
  parents : ∀ u w, findWg u s = some w → w.children ≠ 0 → ∃ v, findWg u t = some v ∧ v.children ≠ 0
  grids : t.grids.map (fun g => g.uid) = s.grids.map fun g => g.uid
  queues : t.queues = s.queues

theorem homeByte_of_memory {s t : State} (h : memory t = memory s) (a : Nat) : homeByte t a = homeByte s a :=
  homeByte_congr (congrArg State.hbm h :) (congrArg State.host h :) (congrArg State.peer h :) (congrArg State.hostRanges h :) (congrArg State.out h :) a

theorem Group.heir_refl (g : Group) : g.heir g := ⟨rfl, rfl, fun _ ho => ho⟩

section

variable {r s t : State}

/-- What leaves the issuers and the workgroups. -/
theorem Aside.ofSame (hm : Machine.memory t = Machine.memory s) (hg : allGroups t = allGroups s) (hw : t.wgs = s.wgs)
    (hr : t.grids.map (fun g => g.uid) = s.grids.map fun g => g.uid) (hq : t.queues = s.queues) : Aside s t :=
  ⟨hm, fun h hh => .inr ⟨h, hg ▸ hh, h.heir_refl⟩, fun u w hu hc => ⟨w, by rw [findWg, hw]; exact hu, hc⟩, hr, hq⟩

theorem Aside.refl (s : State) : Aside s s := .ofSame rfl rfl rfl rfl rfl

theorem Aside.trans (h : Aside r s) (k : Aside s t) : Aside r t := by
  refine ⟨k.memory.trans h.memory, fun g hg => ?_, fun u w hu hc => ?_, k.grids.trans h.grids, k.queues.trans h.queues⟩
  · rcases k.groups g hg with hb | ⟨g', hg', hu, hw, ho⟩
    · exact .inl hb
    · rcases h.groups g' hg' with ⟨bu, bw, bo⟩ | ⟨g'', hg'', hu', hw', ho'⟩
      · exact .inl ⟨hu.trans bu, hw.trans bw, List.eq_nil_iff_forall_not_mem.2 fun o hm => absurd (bo ▸ ho o hm) List.not_mem_nil⟩
      · exact .inr ⟨g'', hg'', hu.trans hu', hw.trans hw', fun o hm => ho' o (ho o hm)⟩
  · obtain ⟨v, hv, hvc⟩ := h.parents u w hu hc
    exact k.parents u v hv hvc

theorem Aside.foldl {α : Type} {f : State → α → State} (hf : ∀ s a, Aside s (f s a)) (l : List α) (s : State) : Aside s (l.foldl f s) := by
  induction l generalizing s with
  | nil => exact .refl s
  | cons a l ih => exact (hf s a).trans (ih _)

/-! ### The updates by name -/

/-- The member that an identity finds, after a change of each member that keeps its identity. -/
theorem find?_map_id {α : Type} (id : α → Nat) {k : α → α} (hk : ∀ a, id (k a) = id a) (u : Nat) (l : List α) :
    (l.map k).find? (fun a => decide (id a = u)) = (l.find? fun a => decide (id a = u)).map k := by
  rw [List.find?_map]
  congr 2
  funext a
  simp [hk]

theorem findWg_updWg {f : Workgroup → Workgroup} (hf : ∀ w, (f w).uid = w.uid) (uid u : Nat) (s : State) :
    findWg u (updWg uid f s) = (findWg u s).map fun w => if w.uid = uid then f w else w :=
  find?_map_id (fun w : Workgroup => w.uid) (fun w => by split <;> simp [hf]) u s.wgs

theorem findWg_uid {u : Nat} {w : Workgroup} (h : findWg u s = some w) : w.uid = u := by
  simpa using List.find?_some h

theorem updWg_aside {f : Workgroup → Workgroup} (hf : ∀ w, (f w).uid = w.uid ∧ (f w).children = w.children) (uid : Nat) (s : State) :
    Aside s (updWg uid f s) := by
  refine ⟨rfl, fun g hg => .inr ⟨g, hg, g.heir_refl⟩, fun u w hu hc => ?_, rfl, rfl⟩
  refine ⟨_, by rw [findWg_updWg fun w => (hf w).1, hu]; rfl, ?_⟩
  beta_reduce
  split
  · rwa [(hf w).2]
  · exact hc

theorem uids_updGrid {f : Grid → Grid} {uid : Nat} (hf : ∀ g ∈ s.grids, g.uid = uid → (f g).uid = g.uid) :
    (updGrid uid f s).grids.map (fun g => g.uid) = s.grids.map fun g => g.uid := by
  simp only [updGrid, List.map_map]
  refine List.map_congr_left fun g hg => ?_
  simp only [Function.comp_apply]
  split
  · exact hf g hg ‹_›
  · rfl

theorem updGrid_aside {f : Grid → Grid} {uid : Nat} (hf : ∀ g ∈ s.grids, g.uid = uid → (f g).uid = g.uid) : Aside s (updGrid uid f s) :=
  .ofSame rfl rfl rfl (uids_updGrid hf) rfl

theorem mapGroups_aside {f : Group → Group} (hf : ∀ g : Group, g.heir (f g)) (s : State) : Aside s (mapGroups f s) := by
  refine ⟨rfl, fun h hh => .inr ?_, fun u w hu hc => ⟨w, hu, hc⟩, rfl, rfl⟩
  rcases List.mem_cons.1 hh with rfl | hh
  · exact ⟨s.grp, List.mem_cons_self, hf _⟩
  · obtain ⟨k, hk, rfl⟩ := List.mem_map.1 hh
    exact ⟨k, List.mem_cons_of_mem _ hk, hf k⟩

theorem memory_updGroup (uid : Nat) (f : Group → Group) (s : State) : memory (updGroup uid f s) = memory s := by
  unfold updGroup; split <;> rfl

theorem updGroup_aside {f : Group → Group} (hf : ∀ g : Group, g.heir (f g)) (uid : Nat) (s : State) : Aside s (updGroup uid f s) := by
  refine ⟨memory_updGroup uid f s, fun h hh => .inr ?_, fun u w hu hc => ⟨w, ?_, hc⟩, ?_, updGroup_queues ..⟩
  · rcases mem_allGroups_updGroup hh with hh | ⟨k, hk, _, rfl⟩
    · exact ⟨h, hh, h.heir_refl⟩
    · exact ⟨k, hk, hf k⟩
  · rwa [findWg, updGroup_wgs]
  · rw [updGroup_grids]

theorem mem_allGroups_dropGroups {p : Group → Bool} {h : Group} (hh : h ∈ allGroups (dropGroups p s)) :
    h = {} ∨ h ∈ allGroups s ∧ p h = false := by
  rcases List.mem_cons.1 hh with rfl | hh
  · simp only [dropGroups]
    split
    · exact .inl rfl
    · exact .inr ⟨List.mem_cons_self, Bool.eq_false_iff.2 ‹_›⟩
  · obtain ⟨hm, hp⟩ := List.mem_filter.1 hh
    exact .inr ⟨List.mem_cons_of_mem _ hm, by simpa using hp⟩

theorem dropGroups_aside (p : Group → Bool) (s : State) : Aside s (dropGroups p s) := by
  refine ⟨rfl, fun h hh => ?_, fun u w hu hc => ⟨w, hu, hc⟩, rfl, rfl⟩
  rcases mem_allGroups_dropGroups hh with rfl | ⟨hm, _⟩
  · exact .inl ⟨rfl, rfl, rfl⟩
  · exact .inr ⟨h, hm, h.heir_refl⟩

/-! ### Barriers and children -/

theorem raiseAll_heir (n : Nat) (g : Group) : g.heir (raiseAll n g) := by
  unfold raiseAll
  split
  · exact g.heir_refl
  · exact ⟨rfl, rfl, fun _ ho => ho⟩

theorem barrierCheck_aside (wg : Nat) (s : State) : Aside s (barrierCheck wg s) := by
  refine .foldl (fun s i => ?_) _ s
  unfold barrierStep
  dsimp only
  split
  · refine mapGroups_aside (fun g => ?_) s
    split
    · exact raiseAll_heir _ g
    · exact g.heir_refl
  · exact .refl s

theorem childCheck_aside (wg : Nat) (s : State) : Aside s (childCheck wg s) := by
  unfold childCheck
  split
  · exact .refl s
  · split
    · refine mapGroups_aside (fun g => ?_) s
      split
      · exact ⟨rfl, rfl, fun _ ho => ho⟩
      · exact g.heir_refl
    · exact .refl s

/-! ### The end of workgroups and grids -/

theorem detBins_uid (s : State) (last : Bool) (n : Nat) (g : Grid) : (detBins s last n g).uid = g.uid := by
  induction n generalizing last g with
  | zero => rfl
  | succ n ih =>
    unfold detBins
    dsimp only
    split
    · rfl
    · exact ih _ _

theorem findGrid_uid {u : Nat} {g : Grid} (h : findGrid u s = some g) : g.uid = u := by
  simpa using List.find?_some h

theorem detBinForm_aside (grid : Nat) (s : State) : Aside s (detBinForm grid s) := by
  unfold detBinForm
  split
  · exact .refl s
  · rename_i g hg
    exact updGrid_aside fun h _ hu => (detBins_uid ..).trans ((findGrid_uid hg).trans hu.symm)

theorem gridCheck_aside (grid : Nat) (s : State) : Aside s (gridCheck grid s) := by
  unfold gridCheck
  split
  · exact .refl s
  · split
    · exact updGrid_aside (by intros; rfl)
    · exact .refl s

theorem gridEnd_aside (grid : Nat) (s : State) : Aside s (gridEnd grid s) := by
  unfold gridEnd
  dsimp only
  split
  · exact (detBinForm_aside grid s).trans (gridCheck_aside grid _)
  · exact gridCheck_aside grid s

/-- A workgroup without children goes. -/
theorem filterWgs_aside {w : Workgroup} (hw : findWg w.uid s = some w) (hc : w.children = 0) :
    Aside s { s with wgs := s.wgs.filter fun x => decide (x.uid ≠ w.uid) } := by
  refine ⟨rfl, fun g hg => .inr ⟨g, hg, g.heir_refl⟩, fun u v hu hv => ⟨v, ?_, hv⟩, rfl, rfl⟩
  have hne : u ≠ w.uid := by
    rintro rfl
    rw [hw] at hu
    exact hv (Option.some.inj hu ▸ hc)
  rw [findWg, List.find?_filter]
  rw [← hu, findWg]
  congr 1
  funext x
  by_cases hx : x.uid = u
  · simp [hx, hne]
  · simp [hx]

theorem updCtx_aside (id : Nat) (f : Context → Context) (s : State) : Aside s (updCtx id f s) := .ofSame rfl rfl rfl rfl rfl

theorem retireWg_aside {w : Workgroup} (hw : findWg w.uid s = some w) (hc : w.children = 0) : Aside s (retireWg w s) := by
  have dropped := dropGroups_aside (fun g => decide (g.wg = w.uid) && decide (g.kind = .bobbin)) s
  have gone := dropped.trans (filterWgs_aside hw hc)
  have freed := gone.trans (updCtx_aside w.ctx (fun x => { x with winUsed := x.winUsed.filter fun j => !w.wins.contains j }) _)
  exact (freed.trans (updGrid_aside (by intros; rfl))).trans (gridEnd_aside w.grid _)

theorem wgDone_children {w : Workgroup} (h : wgDone s w = true) : w.children = 0 := by
  simp only [wgDone, Bool.and_eq_true, decide_eq_true_eq] at h
  exact h.1.1.2

theorem retireCheck_aside (wg : Nat) (s : State) : Aside s (retireCheck wg s) := by
  unfold retireCheck
  split
  · exact .refl s
  · rename_i w hw
    split
    · exact retireWg_aside (findWg_uid hw ▸ hw) (wgDone_children ‹_›)
    · exact .refl s

/-! ### Entries of the pattern table -/

theorem putAcc_aside (wg i : Nat) (a : Acc) (s : State) : Aside s (putAcc wg i a s) := updWg_aside (by intro; exact ⟨rfl, rfl⟩) wg s

theorem putTile_aside (wg i : Nat) (a : Tile) (s : State) : Aside s (putTile wg i a s) := updWg_aside (by intro; exact ⟨rfl, rfl⟩) wg s

theorem entryEffect_aside (e : PEntry) (s : State) : Aside s (entryEffect e s) := by
  have side : ∀ (i : Nat) (s : State), Aside s (if e.hasSide i then
      doPass e (tileRow e.compand e.val.toNat (tileAt s (e.view (selA e.sel + i)))) (e.view (selC e.sel + i)) s else s) := by
    intro i s
    split
    · exact putAcc_aside _ _ _ _
    · exact .refl s
  unfold entryEffect
  split
  · exact .foldl (fun _ _ => putAcc_aside _ _ _ _) _ s
  · split
    · exact putTile_aside _ _ _ _
    · exact .refl s
  · exact .foldl (fun _ _ => putAcc_aside _ _ _ _) _ s
  · split
    · exact (side 0 s).trans (side 1 _)
    · exact putAcc_aside _ _ _ _

theorem releaseSteps_aside (wg : Nat) (s : State) : Aside s (releaseSteps wg s) := by
  refine .foldl (fun s i => ?_) _ s
  unfold releaseStep
  dsimp only
  split
  · exact putTile_aside _ _ _ _
  · exact .refl s

theorem raiseMark_heir (n : Nat) (g : Group) : g.heir (raiseMark n g) := by
  induction n generalizing g with
  | zero => exact g.heir_refl
  | succ n ih =>
    unfold raiseMark
    split
    · exact ih _
    · exact g.heir_refl

theorem markDone_aside (wg seq : Nat) (s : State) : Aside s (markDone wg seq s) := by
  unfold markDone
  split
  · exact .refl s
  · exact updGroup_aside (fun g => raiseMark_heir _ { g with doneAbove := g.doneAbove ++ [seq] }) _ s

/-- A change of the pattern table. -/
theorem pattern_aside (l : List PEntry) (s : State) : Aside s { s with pattern := l } := .ofSame rfl rfl rfl rfl rfl

theorem reenterAll_aside (s : State) : Aside s (reenterAll s) := by
  refine .foldl (fun s e => ?_) _ s
  unfold reenter
  split
  · exact pattern_aside _ s
  · exact .refl s

theorem noteLone_aside (wg : Nat) (s : State) :
    Aside s (updWg wg (fun w => { w with flags := w.flags ||| 1 }) (updGrid (wgAt wg s).grid (fun g => { g with lone := true }) s)) :=
  (updGrid_aside (by intros; rfl)).trans (updWg_aside (by intro; exact ⟨rfl, rfl⟩) _ _)

theorem completeEntry_aside (e : PEntry) (s : State) : Aside s (completeEntry e s) := by
  have removed := (entryEffect_aside e s).trans (pattern_aside ((entryEffect e s).pattern.filter fun f => decide (f.id ≠ e.id)) _)
  have numbered := removed.trans (.foldl (fun s (p : Nat × Nat) => markDone_aside p.1 p.2 s) e.threads _)
  have released := numbered.trans ((releaseSteps_aside e.wgC _).trans (releaseSteps_aside e.wgU _))
  unfold completeEntry
  dsimp only
  split
  · exact (released.trans (.foldl (fun s (p : Nat × Nat) => noteLone_aside p.1 s) e.threads _)).trans ((reenterAll_aside _).trans (updCtx_aside _ _ _))
  · exact released.trans ((reenterAll_aside _).trans (updCtx_aside _ _ _))

theorem completeBegun_aside (p : PEntry → Bool) (s : State) : Aside s (completeBegun p s) := by
  have effects : ∀ (e : PEntry) (s : State), Aside s (completeEntryEffects e s) := fun e s =>
    ((completeEntry_aside e s).trans (retireCheck_aside e.wgC _)).trans (retireCheck_aside e.wgU _)
  refine Aside.trans (.foldl (fun s e => ?_) s.pattern s) (pattern_aside _ _)
  split
  · exact effects e s
  · exact .refl s

theorem unclaim_aside (g : Group) (s : State) : Aside s (unclaim g s) := by
  unfold unclaim
  split
  · exact updWg_aside (by intro; exact ⟨rfl, rfl⟩) _ s
  · exact .refl s

/-! ### What is in flight, beside memory -/

/-- An operation beside memory keeps what is in flight and the homes; it leaves no frame. -/
theorem Aside.kept {D : Nat → Prop} (k : Aside s t) (h : Within D s) : Kept (fun _ => {}) D s t := by
  have hs : t.stores = s.stores := (congrArg State.stores k.memory :)
  have hc : t.caches = s.caches := (congrArg State.caches k.memory :)
  refine ⟨rfl, ⟨hs ▸ h.stores, hc ▸ h.dirty, fun g hg o ho => ?_⟩, fun p hp => hs ▸ hp, fun a _ => homeByte_of_memory k.memory a⟩
  rcases k.groups g hg with ⟨_, _, hb⟩ | ⟨g', hg', _, _, hops⟩
  · exact absurd (hb ▸ ho) List.not_mem_nil
  · exact h.loads g' hg' o (hops o ho)

end

/-- What is kept in flight, whatever the frame. -/
theorem Kept.frameless {f : State → State} {D : Nat → Prop} {s t : State} (h : Kept f D s t) : Kept (fun _ => {}) D s t :=
  ⟨rfl, h.flight, h.pending, h.home⟩

theorem Kept.aside {f : State → State} {D : Nat → Prop} {r s t : State} (h : Kept f D r s) (k : Aside s t) : Kept (fun _ => {}) D r t :=
  h.frameless.trans (k.kept h.flight)

end Sys2Proof.Machine

/-! ### Groups and grids retire (R32, R33, R205, R255) -/

namespace Sys2Proof.Machine

section

variable {D : Nat → Prop} {s t u : State} {g : Group} {r : Grid}

theorem mayRetire_iff (g : Group) : mayRetire g = true ↔ g.kind = .vector ∧ g.live = 0 ∧ g.act = none ∧ g.ops = [] ∧ g.tokens = [] := by
  simp [mayRetire, and_assoc]

/-- What the homes read of no byte in flight stays. -/
theorem Kept.homes {f : State → State} (h : Kept f (fun a => inFlight s a = true) s t) (a : Nat) (ha : inFlight s a = false) :
    homeByte t a = homeByte s a := h.home a (by rw [ha]; exact Bool.false_ne_true)

/-- A group that retires is gone with its stores performed. -/
theorem retireGroup_gone (hu : g.uid ≠ 0) (h : Within D s) :
    Kept (fun _ => {}) D s (retireGroup g s) ∧ (∀ h ∈ allGroups (retireGroup g s), h.uid ≠ g.uid) ∧ ∀ p ∈ (retireGroup g s).stores, p.grp ≠ g.uid := by
  have released := releaseAll_kept (fun u => decide (u = g.uid)) h
  have clean := releaseAll_stores (fun u => decide (u = g.uid)) h
  unfold retireGroup
  dsimp only
  generalize releaseAll (fun u => decide (u = g.uid)) s = s1 at *
  generalize hs2 : updGrid _ _ s1 = s2
  have noted : Aside s1 s2 := hs2 ▸ updGrid_aside (by intros; rfl)
  have dropped := dropGroups_aside (fun h => decide (h.uid = g.uid)) s2
  have ended := (barrierCheck_aside g.wg (dropGroups (fun h => decide (h.uid = g.uid)) s2)).trans (retireCheck_aside g.wg _)
  have kept := released.aside ((noted.trans dropped).trans ended)
  refine ⟨kept, fun h hh => ?_, fun p hp => ?_⟩
  · rcases ended.groups h hh with ⟨h0, _, _⟩ | ⟨k, hk, hku, _, _⟩
    · exact h0 ▸ hu.symm
    · rw [hku]
      rcases mem_allGroups_dropGroups hk with rfl | ⟨_, hd⟩
      · exact hu.symm
      · exact of_decide_eq_false hd
  · exact of_decide_eq_false (clean p ((((noted.trans dropped).trans ended).kept released.flight).pending p hp))

theorem group_retires (hg : findGroup g.uid s = some g) (hu : g.uid ≠ 0) (hm : mayRetire g = true) :
    ∃ t, exec (.groupRetire g.uid) s = .next t ∧ (∀ h ∈ allGroups t, h.uid ≠ g.uid) ∧ (∀ p ∈ t.stores, p.grp ≠ g.uid)
      ∧ ∀ a, inFlight s a = false → homeByte t a = homeByte s a := by
  obtain ⟨kept, gone, clean⟩ := retireGroup_gone hu (within_inFlight s)
  refine ⟨retireGroup g s, ?_, gone, clean, kept.homes⟩
  show execGroupRetire g.uid s = _
  simp [execGroupRetire, hg, hm, hu]

/-- The grid leaves the lists of grids, queues and uncached entries. -/
def delist (g : Grid) (s : State) : State :=
  let grids := s.grids.filter fun h => decide (h.uid ≠ g.uid)
  { s with
    grids := grids
    queues := s.queues.map fun (q : Queue) => if q.bound = some g.uid then { q with bound := none } else q
    fits := s.fits.filter fun f => f.cached || grids.any fun h => decide (h.fit = some f.id) }

theorem closeGrid_eq (g : Grid) (s : State) : closeGrid g s = if g.parent = 0 then delist g s
    else retireCheck g.parent (childDone g.parent (updWg g.parent (fun w => { w with children := w.children - 1 }) (delist g s))) := rfl

theorem childCheck_lists (wg : Nat) (s : State) : (childCheck wg s).grids = s.grids ∧ (childCheck wg s).queues = s.queues := by
  unfold childCheck
  split
  · exact ⟨rfl, rfl⟩
  · split <;> exact ⟨rfl, rfl⟩

theorem childDone_kept (wg : Nat) (h : Within D s) :
    Kept (fun _ => {}) D s (childDone wg s) ∧ (childDone wg s).grids = s.grids ∧ (childDone wg s).queues = s.queues := by
  unfold childDone
  split
  · exact ⟨.refl h, rfl, rfl⟩
  · split
    · have acquired := acquireWg_kept wg h
      obtain ⟨hg, hq⟩ := childCheck_lists wg (acquireWg wg s)
      exact ⟨acquired.aside (childCheck_aside wg _), hg.trans (congrArg State.grids acquired.frame :),
        hq.trans (congrArg State.queues acquired.frame :)⟩
    · exact ⟨.refl h, rfl, rfl⟩

/-- A grid that leaves is listed no more, and no queue is bound to it. -/
theorem closeGrid_gone (g : Grid) (h : Within D s) :
    Kept (fun _ => {}) D s (closeGrid g s) ∧ (∀ h ∈ (closeGrid g s).grids, h.uid ≠ g.uid) ∧ ∀ q ∈ (closeGrid g s).queues, q.bound ≠ some g.uid := by
  have listed : ∀ h ∈ (delist g s).grids, h.uid ≠ g.uid := fun h hh => of_decide_eq_true (List.mem_filter.1 hh).2
  have bound : ∀ q ∈ (delist g s).queues, q.bound ≠ some g.uid := by
    intro q hq
    obtain ⟨k, _, rfl⟩ := List.mem_map.1 hq
    split
    · exact fun e => nomatch e
    · assumption
  have kept : Kept (fun _ => {}) D s (delist g s) := ⟨rfl, ⟨h.stores, h.dirty, h.loads⟩, fun _ hp => hp, fun _ _ => rfl⟩
  rw [closeGrid_eq]
  split
  · exact ⟨kept, listed, bound⟩
  · generalize hs1 : updWg g.parent (fun w => { w with children := w.children - 1 }) (delist g s) = s1
    have fewer : Kept (fun _ => {}) D (delist g s) s1 := hs1 ▸ ⟨rfl, ⟨kept.flight.stores, kept.flight.dirty, kept.flight.loads⟩, fun _ hp => hp, fun _ _ => rfl⟩
    obtain ⟨told, hg, hq⟩ := childDone_kept g.parent fewer.flight
    have ended := retireCheck_aside g.parent (childDone g.parent s1)
    refine ⟨((kept.trans fewer).trans told).aside ended, fun k hk => ?_, fun q hq' => bound q ?_⟩
    · have hm : k.uid ∈ (delist g s).grids.map fun h => h.uid := by
        have := List.mem_map_of_mem (f := fun h : Grid => h.uid) hk
        rwa [ended.grids, hg, ← hs1] at this
      obtain ⟨k', hk', he⟩ := List.mem_map.1 hm
      exact he ▸ listed k' hk'
    · rwa [ended.queues, hq, ← hs1] at hq'

theorem exec_completionRecordWrite (u : Nat) (s : State) : exec (.completionRecordWrite u) s = execCompletionRecordWrite u s := rfl

end

/-- R32, R33, R205, R255: the claim on retirement. -/
theorem retirement : Claims.retirement := by
  intro s g r t0
  refine ⟨fun hg hu => ⟨mayRetire_iff g, fun hm => ?_, group_retires hg hu⟩, fun hr => ⟨fun he => ?_, fun he h0 ht => ?_, fun k hk hkg => ?_, ?_⟩⟩
  · show execGroupRetire g.uid s = _
    simp [execGroupRetire, hg, hm]
  · simp [exec_completionRecordWrite, execCompletionRecordWrite, hr, he]
  · simp [exec_completionRecordWrite, execCompletionRecordWrite, hr, he, h0, ht]
  · have hany : (s.tasks.any fun t => decide (t.grid = r.uid)) = true := List.any_eq_true.2 ⟨k, hk, decide_eq_true hkg⟩
    cases he : r.ended <;> simp [exec_completionRecordWrite, execCompletionRecordWrite, hr, he, hany]
  · intro u he ht hk hw
    obtain ⟨kept, gone, unbound⟩ := closeGrid_gone r (within_inFlight u)
    refine ⟨closeGrid r u, ?_, gone, unbound, kept.homes⟩
    have hnone : (s.tasks.any fun t => decide (t.grid = r.uid)) = false := List.any_eq_false.2 fun k hm => by simpa using hk k hm
    have hpast : (decide (r.gwct ≠ 0) && decide (s.time ≤ r.gwct)) = false := by
      rcases ht with ht | ht
      · simp [ht]
      · simp [Nat.not_le.2 ht]
    simp only [exec_completionRecordWrite, execCompletionRecordWrite, hr, he, hnone, hpast, hw, Bool.or_self, if_neg Bool.false_ne_true]

end Sys2Proof.Machine

/-! ### Completion records (R255) -/

namespace Sys2Proof.Machine

section

variable {s t u : State}

/-- A store changes no translation for an engine of the device. -/
theorem agentTranslate_of_storeFrame (h : storeFrame t = storeFrame s) (core ctx va kind : Nat) :
    agentTranslate t core ctx va kind = agentTranslate s core ctx va kind := by
  have hw : t.agentWalks = s.agentWalks := (congrArg State.agentWalks h :)
  have htlb : t.tlb = s.tlb := (congrArg State.tlb h :)
  have himp : t.imports = s.imports := (congrArg State.imports h :)
  have hm := memberPresent_of_loadFrame (loadFrame_of_storeFrame h)
  simp only [agentTranslate, translate, tlbTrans, tlbFind, importOf, absentMember, hw, htlb, himp, hm]

theorem homeByte_flitFrom (a : Nat) (s : State) (c : Nat) : homeByte (flitFrom a s) c = homeByte s c := by
  unfold flitFrom; split <;> rfl

theorem homeByte_raiseGwct (who : Option (Nat × Nat)) (n : Nat) (s : State) (c : Nat) : homeByte (raiseGwct who n s) c = homeByte s c := by
  unfold raiseGwct
  split
  · rfl
  · exact homeByte_updGroup _ _ _ c

/-- A byte that is stored at a home that can be reached reads back, and every other byte reads as before. -/
theorem homeByte_performStore {a : Nat} (h : peerGone s a = false) (who : Option (Nat × Nat)) (core : Nat) (b : Byte) (c : Nat) :
    homeByte (performStore who core a [b] s) c = if a = c then b else homeByte s c := by
  have stored : homeByte (noteTask who a [b] (setHomeBytes a [b] (noteOld a [b] s))) c = if a = c then b else homeByte s c := by
    show homeByte (setHomeByte a b (noteOld a [b] s)) c = _
    rw [homeByte_setHomeByte, (noteOld_beside a [b] s).2.2]
  unfold performStore
  rw [h, if_neg Bool.false_ne_true]
  dsimp only
  generalize hs : noteTask who a [b] (setHomeBytes a [b] (noteOld a [b] s)) = s1 at stored
  have raised : ∀ n l, homeByte (raiseGwct who n (breakResv who 0 (lineOf a) { s1 with caches := l })) c = homeByte s1 c := fun n l =>
    homeByte_raiseGwct _ _ _ c
  split
  · exact (homeByte_flitFrom _ _ c).trans ((raised _ _).trans stored)
  · exact (raised _ _).trans stored

/-- Bytes stored one by one at consecutive homes read back, and every other byte reads as before. -/
theorem storeEach_run (bs : List Byte) (base : Nat) (s : State) (h : ∀ i, i < bs.length → peerGone s (base + i) = false) :
    storeFrame (storeEach (List.range' base bs.length) bs s) = storeFrame s
      ∧ homeBytes (storeEach (List.range' base bs.length) bs s) base bs.length = bs
      ∧ ∀ c, c < base ∨ base + bs.length ≤ c → homeByte (storeEach (List.range' base bs.length) bs s) c = homeByte s c := by
  induction bs generalizing base s with
  | nil => exact ⟨rfl, rfl, fun _ _ => rfl⟩
  | cons b bs ih =>
    have hf : storeFrame (performStore none 1000 base [b] s) = storeFrame s :=
      (performStore_kept (D := fun _ => True) (fun _ _ => trivial) (within_true s)).frame
    have hb : ∀ c, homeByte (performStore none 1000 base [b] s) c = if base = c then b else homeByte s c :=
      homeByte_performStore (h 0 (Nat.succ_pos _)) none 1000 b
    obtain ⟨frame, run, rest⟩ := ih (base + 1) (performStore none 1000 base [b] s) fun i hi => by
      rw [peerGone_of_loadFrame (loadFrame_of_storeFrame hf), Nat.add_assoc, Nat.add_comm 1]
      exact h (i + 1) (Nat.succ_lt_succ hi)
    simp only [List.length_cons, List.range'_succ, storeEach, homeBytes]
    refine ⟨frame.trans hf, ?_, fun c hc => ?_⟩
    · rw [run, rest base (.inl (Nat.lt_succ_self base)), hb, if_pos rfl]
    · rw [rest c (by omega), hb, if_neg (by omega)]

/-- The places of an engine's bytes where consecutive addresses lie at consecutive homes. -/
theorem agentWriteAddrs_run {core ctx n : Nat} : ∀ {va base : Nat} {as : List Nat}, agentWriteAddrs s core ctx va n = .ok as →
    (∀ i, i < n → agentTranslate s core ctx (va + i) 1 = .ok (base + i)) → as = List.range' base n := by
  induction n with
  | zero => exact fun h _ => (Except.ok.inj h).symm
  | succ n ih =>
    intro va base as h ht
    have h0 : agentTranslate s core ctx va 1 = .ok base := ht 0 (Nat.succ_pos n)
    simp only [agentWriteAddrs, agentPlace, h0] at h
    split_ifs at h
    dsimp only at h
    split at h
    · rename_i as' hrec
      have hrun := ih hrec (base := base + 1) fun i hi => by
        rw [Nat.add_right_comm va, Nat.add_right_comm base]
        exact ht (i + 1) (Nat.succ_lt_succ hi)
      rw [← Except.ok.inj h, hrun, List.range'_succ]
    · exact nomatch h

/-- What an engine writes at consecutive homes that can be reached. -/
theorem agentWrite_run {core ctx va base : Nat} {bs : List Byte} (h : agentWrite core ctx va bs s = .ok u)
    (ht : ∀ i, i < bs.length → agentTranslate s core ctx (va + i) 1 = .ok (base + i))
    (hp : ∀ i, i < bs.length → peerGone s (base + i) = false) :
    storeFrame u = storeFrame s ∧ homeBytes u base bs.length = bs ∧ ∀ c, c < base ∨ base + bs.length ≤ c → homeByte u c = homeByte s c := by
  unfold agentWrite at h
  split at h
  · rename_i as ha
    rw [← Except.ok.inj h, agentWriteAddrs_run ha ht]
    exact storeEach_run bs base s hp
  · exact nomatch h

theorem homeBytes_add (s : State) (a m n : Nat) : homeBytes s a (m + n) = homeBytes s a m ++ homeBytes s (a + m) n := by
  induction m generalizing a with
  | zero => simp [homeBytes]
  | succ m ih =>
    rw [Nat.succ_add, homeBytes, homeBytes, ih, List.cons_append, Nat.add_assoc, Nat.add_comm 1 m]

theorem homeBytes_congr {a n : Nat} (h : ∀ i, i < n → homeByte t (a + i) = homeByte s (a + i)) : homeBytes t a n = homeBytes s a n := by
  induction n generalizing a with
  | zero => rfl
  | succ n ih =>
    rw [homeBytes, homeBytes, ← Nat.add_zero a, h 0 (Nat.succ_pos n), ih fun i hi => ?_]
    rw [Nat.add_zero, Nat.add_assoc, Nat.add_comm 1]
    exact h (i + 1) (Nat.succ_lt_succ hi)

theorem length_completionTail (info gridId done ts te : Nat) : (completionTail info gridId done ts te).length = 60 := by
  simp [completionTail, length_toBytes]

end

/-- R255: the claim on the bytes of a completion record. -/
theorem completionRecord : Claims.completionRecord := by
  intro s u core ctx compl status info id done ts te base hw ht hp
  unfold writeCompletion at hw
  split at hw
  · exact nomatch hw
  · rename_i v hv
    have hl := length_completionTail info id done ts te
    obtain ⟨frame, tail, rest⟩ := agentWrite_run (base := base + 4) hv
      (fun i hi => by rw [Nat.add_assoc, Nat.add_assoc]; exact ht (4 + i) (by omega)) fun i hi => by rw [Nat.add_assoc]; exact hp (4 + i) (by omega)
    obtain ⟨_, head, rest'⟩ := agentWrite_run (base := base) hw
      (fun i hi => by rw [agentTranslate_of_storeFrame frame]; exact ht i (by rw [length_toBytes] at hi; omega))
      fun i hi => by rw [peerGone_of_loadFrame (loadFrame_of_storeFrame frame)]; exact hp i (by rw [length_toBytes] at hi; omega)
    rw [hl] at tail rest
    rw [length_toBytes] at head rest'
    have kept : homeBytes u (base + 4) 60 = completionTail info id done ts te :=
      (homeBytes_congr fun i _ => rest' _ (by omega)).trans tail
    refine ⟨?_, fun a ha => (rest' a (by omega)).trans (rest a (by omega))⟩
    rw [homeBytes_add u base 4 60, head, kept]
    simp only [completionTail, List.append_assoc]

end Sys2Proof.Machine

/-! ### Workgroups leave their cores and return (R32, R124, R236, R248) -/

namespace Sys2Proof.Machine

/-! ### An issuer that halts -/

/-- Whose issuer it is. -/
def Group.owner (g : Group) : Nat × Nat := (g.uid, g.wg)

theorem owner_foldl {α : Type} {f : Group → α → Group} (hf : ∀ g a, (f g a).owner = g.owner) (l : List α) (g : Group) : (l.foldl f g).owner = g.owner := by
  induction l generalizing g with
  | nil => rfl
  | cons a l ih => exact (ih _).trans (hf g a)

theorem owner_completeOp (g : Group) (o : VarOp) : (completeOp g o).owner = g.owner := by
  have closed := owner_foldl (f := fun (g : Group) (c : Nat × Nat × Closure) => setGr c.1 c.2.1 c.2.2 g) (fun _ _ => rfl) o.clos
  have written := owner_foldl (f := applyWrite) (fun g w => by unfold applyWrite; split <;> rfl) o.writes g
  exact (closed _).trans written

theorem owner_stopPath (g : Group) : (stopPath g).owner = g.owner := by
  have ops : (completeOps g).owner = g.owner := owner_foldl owner_completeOp g.ops g
  unfold stopPath
  dsimp only
  split
  · exact ops
  · unfold addEntry
    split <;> exact ops

theorem owner_haltPath (g : Group) : (haltPath g).owner = g.owner := owner_stopPath _

/-- R320, R336: an issuer that halts stands between words with its results written. -/
theorem stopPath_idle (g : Group) : (stopPath g).act = none ∧ (stopPath g).ops = [] := by
  unfold stopPath
  dsimp only
  split
  · exact ⟨‹_›, rfl⟩
  · unfold addEntry
    split <;> exact ⟨rfl, rfl⟩

/-! ### What a frame tells of workgroups -/

section

variable {D : Nat → Prop} {s t : State} {w : Workgroup}

theorem findWg_of_loadFrame (h : loadFrame t = loadFrame s) (u : Nat) : (findWg u t).map bareWg = (findWg u s).map bareWg := by
  have bare : ∀ r : State, (findWg u r).map bareWg = (r.wgs.map bareWg).find? fun w => decide (w.uid = u) := fun r =>
    (find?_map_id (k := bareWg) (fun w : Workgroup => w.uid) (fun _ => rfl) u r.wgs).symm
  rw [bare, bare, show t.wgs.map bareWg = s.wgs.map bareWg from congrArg State.wgs h]

theorem found_of_loadFrame (h : loadFrame t = loadFrame s) {u : Nat} (hu : ∃ v, findWg u s = some v) : ∃ v, findWg u t = some v := by
  obtain ⟨v, hv⟩ := hu
  have hb := findWg_of_loadFrame h u
  rw [hv] at hb
  obtain ⟨v', hv', _⟩ := Option.map_eq_some_iff.1 hb
  exact ⟨v', hv'⟩

/-! ### The issuers of a workgroup that leaves -/

/-- The state in which the issuers of a workgroup are halted, before what they stored is performed. -/
def haltWg (wg : Nat) (s : State) : State :=
  let s := completeBegun (fun e => decide (e.wgC = wg) || decide (e.wgU = wg)) s
  let s := (allGroups s).foldl (fun s g => if g.wg = wg then unclaim g s else s) s
  let s := performGroups (fun g => decide (g.wg = wg)) s
  mapGroups (fun g => if g.wg = wg then haltPath g else g) s

/-- The numbers of a workgroup's issuers. -/
def uidsOfWg (wg : Nat) (s : State) : List Nat := ((allGroups s).filter fun g => decide (g.wg = wg)).map fun g => g.uid

theorem settleWg_eq (wg : Nat) (s : State) : settleWg wg s = releaseAll (fun u => (uidsOfWg wg s).contains u) (haltWg wg s) := rfl

theorem mem_uidsOfWg {wg : Nat} {g : Group} (hg : g ∈ allGroups s) (hw : g.wg = wg) : g.uid ∈ uidsOfWg wg s :=
  List.mem_map_of_mem (List.mem_filter.2 ⟨hg, decide_eq_true hw⟩)

theorem haltOne_heir (wg : Nat) (g : Group) : g.heir (if g.wg = wg then haltPath g else g) := by
  have hown := owner_haltPath g
  split
  · refine ⟨congrArg Prod.fst hown, congrArg Prod.snd hown, fun o ho => ?_⟩
    rw [haltPath, (stopPath_idle _).2] at ho
    exact absurd ho List.not_mem_nil
  · exact g.heir_refl

/-- What halting a workgroup's issuers does: what is in flight is kept, the workgroup stays, and its issuers stand between words. -/
theorem haltWg_idle (hw : findWg w.uid s = some w) (hu : w.uid ≠ 0) (hc : w.children ≠ 0) (h : Within D s) :
    Kept (fun _ => {}) D s (haltWg w.uid s) ∧ (∃ v, findWg w.uid (haltWg w.uid s) = some v)
      ∧ ∀ g ∈ allGroups (haltWg w.uid s), g.wg = w.uid → g.act = none ∧ g.ops = [] ∧ g.uid ∈ uidsOfWg w.uid s := by
  unfold haltWg
  dsimp only
  generalize hs1 : completeBegun (fun e => decide (e.wgC = w.uid) || decide (e.wgU = w.uid)) s = s1
  have begun : Aside s s1 := hs1 ▸ completeBegun_aside _ s
  generalize hs2 : (allGroups s1).foldl (fun s g => if g.wg = w.uid then unclaim g s else s) s1 = s2
  have unclaimed : Aside s1 s2 := by
    refine hs2 ▸ .foldl (fun s g => ?_) _ s1
    split
    · exact unclaim_aside g s
    · exact .refl s
  have early := begun.trans unclaimed
  have loaded := performGroups_kept (fun g => decide (g.wg = w.uid)) (early.kept h).flight
  have halted := mapGroups_aside (haltOne_heir w.uid) (performGroups (fun g => decide (g.wg = w.uid)) s2)
  refine ⟨((early.kept h).trans loaded.frameless).aside halted, ?_, fun g hg hgw => ?_⟩
  · obtain ⟨v, hv, _⟩ := early.parents w.uid w hw hc
    exact found_of_loadFrame loaded.frame ⟨v, hv⟩
  · have hin : ∃ k ∈ allGroups (performGroups (fun g => decide (g.wg = w.uid)) s2), g = if k.wg = w.uid then haltPath k else k := by
      rcases List.mem_cons.1 hg with rfl | hg
      · exact ⟨_, List.mem_cons_self, rfl⟩
      · obtain ⟨k, hk, rfl⟩ := List.mem_map.1 hg
        exact ⟨k, List.mem_cons_of_mem _ hk, rfl⟩
    obtain ⟨k, hk, rfl⟩ := hin
    obtain ⟨hku, hkw, _⟩ := haltOne_heir w.uid k
    have hwg : k.wg = w.uid := hkw.symm.trans hgw
    obtain ⟨k', hk', hu', hw'⟩ := mem_allGroups_of_loadFrame loaded.frame hk
    have huid : k.uid ∈ uidsOfWg w.uid s := by
      rcases early.groups k' hk' with ⟨_, h0, _⟩ | ⟨k'', hk'', hu'', hw'', _⟩
      · exact absurd ((hwg.symm.trans hw'.symm).trans h0) hu
      · rw [← hu', hu'']
        exact mem_uidsOfWg hk'' (hw''.symm.trans (hw'.trans hwg))
    rw [hku]
    rw [if_pos hwg]
    exact ⟨(stopPath_idle _).1, (stopPath_idle _).2, huid⟩

theorem settleWg_settled (hw : findWg w.uid s = some w) (hu : w.uid ≠ 0) (hc : w.children ≠ 0) (h : Within D s) :
    Kept (fun _ => {}) D s (settleWg w.uid s) ∧ (∃ v, findWg w.uid (settleWg w.uid s) = some v)
      ∧ ∀ g ∈ allGroups (settleWg w.uid s), g.wg = w.uid → g.act = none ∧ g.ops = [] ∧ ∀ p ∈ (settleWg w.uid s).stores, p.grp ≠ g.uid := by
  obtain ⟨halted, found, idle⟩ := haltWg_idle hw hu hc h
  have released := releaseAll_kept (fun u => (uidsOfWg w.uid s).contains u) halted.flight
  have clean := releaseAll_stores (fun u => (uidsOfWg w.uid s).contains u) halted.flight
  rw [settleWg_eq]
  refine ⟨halted.trans released.frameless, found_of_loadFrame released.loosened.frame found, fun g hg hgw => ?_⟩
  obtain ⟨k, hk, he⟩ := mem_allGroups_of_storeFrame released.frame hg
  obtain ⟨hact, hops, huid⟩ := idle k hk ((congrArg Group.wg he).trans hgw)
  refine ⟨(congrArg Group.act he).symm.trans hact, (congrArg Group.ops he).symm.trans hops, fun p hp hpg => ?_⟩
  have hkg : k.uid = g.uid := (congrArg Group.uid he :)
  have hp' := clean p hp
  rw [hpg, ← hkg, List.contains_iff_mem.2 huid] at hp'
  exact Bool.noConfusion hp'

/-! ### Device time passes their GWCTs -/

theorem le_foldl_max {α : Type} (f : α → Nat) (l : List α) (n : Nat) : n ≤ l.foldl (fun n a => max n (f a)) n := by
  induction l generalizing n with
  | nil => exact Nat.le_refl n
  | cons a l ih => exact (Nat.le_max_left n (f a)).trans (ih _)

theorem le_foldl_max_of_mem {α : Type} (f : α → Nat) {l : List α} {a : α} (ha : a ∈ l) (n : Nat) : f a ≤ l.foldl (fun n a => max n (f a)) n := by
  induction l generalizing n with
  | nil => exact absurd ha List.not_mem_nil
  | cons b l ih =>
    rcases List.mem_cons.1 ha with rfl | ha
    · exact (Nat.le_max_right n (f a)).trans (le_foldl_max f l _)
    · exact ih ha _

theorem le_maxOf {l : List Nat} {n : Nat} (h : n ∈ l) : n ≤ maxOf l := le_foldl_max_of_mem (fun n => n) h 0

/-- A value of a map is its default or stands in it. -/
theorem sget_mem (l : Nat) (m : Sparse Nat) : sget 0 l m = 0 ∨ ∃ p ∈ m, p.2 = sget 0 l m := by
  induction m with
  | nil => exact .inl rfl
  | cons p m ih =>
    obtain ⟨k, v⟩ := p
    unfold sget sfind
    split
    · exact .inr ⟨_, List.mem_cons_self, rfl⟩
    · exact ih.imp_right fun ⟨p, hp, he⟩ => ⟨p, List.mem_cons_of_mem _ hp, he⟩

theorem sget_le_groupGwct (g : Group) (l : Nat) : sget 0 l g.gwct ≤ groupGwct g := by
  rcases sget_mem l g.gwct with h | ⟨p, hp, he⟩
  · rw [h]
    exact Nat.zero_le _
  · exact he ▸ le_foldl_max_of_mem (fun p : Nat × Nat => p.2) hp _

/-- R236: device time is past the GWCT of every thread that has one. -/
theorem gwct_passed (p : Group → Bool) (q : Grid → Bool) {g : Group} (hg : g ∈ allGroups s) (hp : p g = true) (l : Nat) :
    sget 0 l g.gwct = 0 ∨ sget 0 l g.gwct < (passGwct p q s).time := by
  have hle := (sget_le_groupGwct g l).trans (le_maxOf (List.mem_append_left ((s.grids.filter q).map fun g => g.gwct)
    (List.mem_map_of_mem (f := groupGwct) (List.mem_filter.2 ⟨hg, hp⟩))))
  unfold passGwct
  dsimp only
  split <;> omega

/-! ### Leaving a core -/

/-- Entries that re-enter leave everything but the pattern table. -/
theorem reenterAll_fields (s : State) : ∃ l, reenterAll s = { s with pattern := l } := by
  have step : ∀ (l : List PEntry) (s : State), ∃ m, l.foldl reenter s = { s with pattern := m } := by
    intro l
    induction l with
    | nil => exact fun s => ⟨s.pattern, rfl⟩
    | cons e l ih =>
      intro s
      obtain ⟨m, hm⟩ := ih (reenter s e)
      refine ⟨m, hm.trans ?_⟩
      unfold reenter
      split <;> rfl
  exact step s.pattern s

/-- What a workgroup that has been saved out has become. -/
def savedWg (w : Workgroup) : Workgroup := { w with saved := true, room := none, reserve := false, savedOut := true }

/-- The rest of a saving out, once the workgroup's issuers are settled. -/
def leaveSettled (wg : Nat) (s : State) : State :=
  let s := passGwct (fun g => decide (g.wg = wg)) (fun g => decide (g.uid = ((findWg wg s).getD {}).grid)) s
  let s := updWg wg (fun w => { w with saved := true, room := none, reserve := false }) s
  updWg wg (fun w => { w with savedOut := true })
    (reenterAll { s with pattern := s.pattern.map fun e => if e.wgC = wg ∨ e.wgU = wg then { e with saved := true } else e })

theorem saveOut_eq (wg : Nat) (s : State) : saveOut wg s = leaveSettled wg (settleWg wg s) := rfl

theorem leaveSettled_fields (wg : Nat) (s : State) : ∃ n l, leaveSettled wg s =
    { s with time := n, pattern := l, wgs := s.wgs.map fun w => if w.uid = wg then savedWg w else w }
      ∧ ∀ g ∈ allGroups s, g.wg = wg → ∀ l, sget 0 l g.gwct = 0 ∨ sget 0 l g.gwct < n := by
  have passed := fun g (hg : g ∈ allGroups s) (hw : g.wg = wg) =>
    gwct_passed (fun g => decide (g.wg = wg)) (fun r => decide (r.uid = ((findWg wg s).getD {}).grid)) hg (decide_eq_true hw)
  unfold leaveSettled
  dsimp only
  obtain ⟨l, hl⟩ := reenterAll_fields _
  refine ⟨_, l, ?_, passed⟩
  rw [hl]
  simp only [updWg, passGwct, List.map_map]
  congr 1
  refine List.map_congr_left fun w _ => ?_
  simp only [Function.comp_apply]
  by_cases hu : w.uid = wg <;> simp [hu, savedWg]

theorem saveOut_saved (hw : findWg w.uid s = some w) (hu : w.uid ≠ 0) (hc : w.children ≠ 0) :
    ∃ v, findWg w.uid (saveOut w.uid s) = some v ∧ v.saved = true ∧ v.savedOut = true ∧ v.room = none
      ∧ (∀ g ∈ allGroups (saveOut w.uid s), g.wg = w.uid → g.act = none ∧ g.ops = [] ∧ (∀ p ∈ (saveOut w.uid s).stores, p.grp ≠ g.uid)
          ∧ ∀ l, sget 0 l g.gwct = 0 ∨ sget 0 l g.gwct < (saveOut w.uid s).time)
      ∧ ∀ a, inFlight s a = false → homeByte (saveOut w.uid s) a = homeByte s a := by
  obtain ⟨kept, ⟨v, hv⟩, idle⟩ := settleWg_settled hw hu hc (within_inFlight s)
  rw [saveOut_eq]
  generalize settleWg w.uid s = s1 at kept hv idle ⊢
  obtain ⟨n, l, hl, passed⟩ := leaveSettled_fields w.uid s1
  rw [hl]
  refine ⟨savedWg v, ?_, rfl, rfl, rfl, fun g hg hgw => ?_, fun a ha => kept.homes a ha⟩
  · have hmap := findWg_updWg (f := savedWg) (fun _ => rfl) w.uid w.uid s1
    rwa [hv, Option.map_some, if_pos (findWg_uid hv)] at hmap
  · obtain ⟨hact, hops, hst⟩ := idle g hg hgw
    exact ⟨hact, hops, hst, passed g hg hgw⟩

/-! ### Returning to a core -/

theorem wgs_foldl {α : Type} {f : State → α → State} (hf : ∀ s a, (f s a).wgs = s.wgs) (l : List α) (s : State) : (l.foldl f s).wgs = s.wgs := by
  induction l generalizing s with
  | nil => rfl
  | cons a l ih => exact (ih _).trans (hf s a)

theorem wgs_noteOld (a : Nat) (bs : List Byte) (s : State) : (noteOld a bs s).wgs = s.wgs := by
  induction bs generalizing a s with
  | nil => rfl
  | cons b bs ih => unfold noteOld; rw [ih]; split <;> rfl

theorem wgs_setHomeBytes (a : Nat) (bs : List Byte) (s : State) : (setHomeBytes a bs s).wgs = s.wgs := by
  induction bs generalizing a s with
  | nil => rfl
  | cons b bs ih => exact (ih _ _).trans (setHomeByte_wgs a b s)

theorem wgs_raiseGwct (who : Option (Nat × Nat)) (n : Nat) (s : State) : (raiseGwct who n s).wgs = s.wgs := by
  unfold raiseGwct
  split
  · rfl
  · exact updGroup_wgs _ _ _

theorem wgs_flitFrom (a : Nat) (s : State) : (flitFrom a s).wgs = s.wgs := by
  unfold flitFrom; split <;> rfl

/-- A store at a home changes no workgroup. -/
theorem wgs_performStore (who : Option (Nat × Nat)) (core a : Nat) (bs : List Byte) (s : State) : (performStore who core a bs s).wgs = s.wgs := by
  have stored : (noteTask who a bs (setHomeBytes a bs (noteOld a bs s))).wgs = s.wgs := (wgs_setHomeBytes _ _ _).trans (wgs_noteOld _ _ _)
  unfold performStore
  dsimp only
  split
  · rfl
  · split
    · exact (wgs_flitFrom _ _).trans ((wgs_raiseGwct _ _ _).trans stored)
    · exact (wgs_raiseGwct _ _ _).trans stored

theorem wgs_writeBackWhere (p : CLine → Bool) (s : State) : (writeBackWhere p s).wgs = s.wgs := by
  refine (wgs_foldl (f := fun s c => writeBackLine c s) (fun s c => ?_) _ _).trans rfl
  unfold writeBackLine
  dsimp only
  split
  · rfl
  · exact (wgs_foldl (fun _ _ => wgs_raiseGwct _ _ _) _ _).trans (wgs_foldl (fun _ _ => wgs_performStore _ _ _ _ _) _ _)

theorem wgs_setCarve (l : Launch) (core : Nat) (s : State) : (setCarve l core s).wgs = s.wgs := by
  unfold setCarve
  split
  · rfl
  · exact wgs_writeBackWhere _ s

theorem wgs_childCheck (wg : Nat) (s : State) : (childCheck wg s).wgs = s.wgs := by
  unfold childCheck
  split
  · rfl
  · split <;> rfl

/-- What a workgroup that returns to its room has become. -/
def returnedWg (r : Room) (w : Workgroup) : Workgroup :=
  { w with saved := false, savedOut := false, room := some r, core := r.core, tileBase := r.tileBase, accBase := r.accBase }

theorem findWg_congr (h : t.wgs = s.wgs) (u : Nat) : findWg u t = findWg u s := by rw [findWg, findWg, h]

theorem findWg_returned (hw : findWg w.uid s = some w) (r : Room) :
    findWg w.uid (childCheck w.uid (reenterAll (returnTo w r s))) = some (returnedWg r w) := by
  have carved : (freshCopies r.core (setCarve ((findGrid w.grid s).getD {}).launch r.core s)).wgs = s.wgs := wgs_setCarve _ _ s
  have placed : (returnTo w r s).wgs = (updWg w.uid (returnedWg r) s).wgs := by
    show List.map _ (freshCopies r.core (setCarve ((findGrid w.grid s).getD {}).launch r.core s)).wgs = _
    rw [carved]
    rfl
  obtain ⟨l, hl⟩ := reenterAll_fields (returnTo w r s)
  have all : (childCheck w.uid (reenterAll (returnTo w r s))).wgs = (updWg w.uid (returnedWg r) s).wgs :=
    (wgs_childCheck _ _).trans (hl ▸ placed)
  rw [findWg_congr all, findWg_updWg (f := returnedWg r) (fun _ => rfl), hw, Option.map_some, if_pos rfl]

end

/-- R32, R124, R236, R248: the claim on saving out and returning. -/
theorem saveOutClaim : Claims.saveOut := by
  intro s w core coreU x hw hu
  refine ⟨fun hm => ?_, fun hm hp => ?_, fun hx hn => ?_, fun g r hx hsv hc hin hinU hp hg hr => ?_⟩
  · show execWorkgroupSaveOut w.uid s = _
    simp [execWorkgroupSaveOut, hw, hm]
  · have hc : w.children ≠ 0 := by
      simp only [mayLeave, Bool.and_eq_true, decide_eq_true_eq] at hm
      exact hm.1.1.2
    obtain ⟨v, hv⟩ := saveOut_saved hw hu hc
    refine ⟨saveOut w.uid s, v, ?_, hv⟩
    show execWorkgroupSaveOut w.uid s = _
    simp [execWorkgroupSaveOut, hw, hm, hp]
  · show execWorkgroupRestore w.uid core coreU s = _
    rcases hn with hn | hn <;> simp [execWorkgroupRestore, hw, hx, hn]
  · refine ⟨_, returnedWg r w, ?_, findWg_returned hw r, rfl, rfl, rfl, rfl, rfl, rfl⟩
    show execWorkgroupRestore w.uid core coreU s = _
    simp [execWorkgroupRestore, restoreWg, hw, hx, hsv, hc, hin, hinU, hp, hg, hr]

end Sys2Proof.Machine

/-! ### Tasks commit in order (R204 to R207) -/

namespace Sys2Proof.Machine

/-! ### What applying a task's writes leaves -/

/-- A grid without its last GWCT. -/
def bareGrid (g : Grid) : Grid := { g with gwct := 0 }

/-- What no applying of a task's writes changes. -/
def taskFrame (s : State) : State := { storeFrame s with grids := s.grids.map bareGrid }

section

variable {r s t u : State} {k o : Task}

theorem taskFrame_of_storeFrame (h : storeFrame t = storeFrame s) : taskFrame t = taskFrame s :=
  (congrArg (fun u : State => { u with grids := u.grids.map bareGrid }) h :)

/-- What keeps all that is in flight keeps the frame. -/
theorem Kept.taskFrame (h : Kept storeFrame (fun _ => True) s t) : taskFrame t = Machine.taskFrame s := taskFrame_of_storeFrame h.frame

theorem taskFrame_gridGwct (k : Task) (a : Nat) (s : State) : taskFrame (gridGwct k a s) = taskFrame s := by
  have hg : (gridGwct k a s).grids.map bareGrid = s.grids.map bareGrid :=
    map_update bareGrid _ (fun g => { g with gwct := max g.gwct (gwctOf s a) }) (fun _ => rfl) s.grids
  show ({ storeFrame s with grids := (gridGwct k a s).grids.map bareGrid } : State) = { storeFrame s with grids := s.grids.map bareGrid }
  rw [hg]

theorem taskFrame_foldl {α : Type} {f : State → α → State} (hf : ∀ s a, taskFrame (f s a) = taskFrame s) (l : List α) (s : State) :
    taskFrame (l.foldl f s) = taskFrame s := by
  induction l generalizing s with
  | nil => rfl
  | cons a l ih => exact (ih _).trans (hf s a)

theorem taskFrame_dropCopies (line : Nat) (s : State) : taskFrame (dropCopies line s) = taskFrame s := rfl

theorem taskFrame_writeBackAt (core line : Nat) (s : State) : taskFrame (writeBackAt core line s) = taskFrame s :=
  (writeBackAt_kept core line (within_true s)).taskFrame

theorem taskFrame_applyByte (k : Task) (a : Nat) (b : Byte) (s : State) : taskFrame (applyByte k a b s) = taskFrame s := by
  unfold applyByte
  dsimp only
  split
  · exact (scratchStore_kept _ _ _ _ (within_true s)).taskFrame
  · split
    · rfl
    · calc taskFrame _ = taskFrame (writeBackAt _ _ _) := (performStore_kept (fun _ _ => trivial) (within_true _)).taskFrame
        _ = taskFrame (gridGwct k a _) := taskFrame_writeBackAt _ _ _
        _ = taskFrame (drainCore _ _ s) := taskFrame_gridGwct _ _ _
        _ = taskFrame s := (drainCore_kept _ _ (within_true s)).taskFrame

theorem taskFrame_applyTask (k : Task) (s : State) : taskFrame (applyTask k s) = taskFrame s :=
  taskFrame_foldl (f := fun s (w : Nat × Byte) => applyByte k w.1 w.2 s) (fun s w => taskFrame_applyByte k w.1 w.2 s) k.wset s

theorem taskFrame_settleTask (k : Task) (s : State) : taskFrame (settleTask k s) = taskFrame s := by
  have done := (performWhere_kept (fun x => decide (x.grp = k.grp) && decide (x.lane = k.lane)) (within_true s)).1.taskFrame
  refine (taskFrame_foldl (fun s line => ?_) _ _).trans done
  exact (taskFrame_dropCopies _ _).trans ((taskFrame_gridGwct _ _ _).trans (taskFrame_writeBackAt _ _ s))

/-! ### Tasks but for the bytes they have stored -/

/-- Tasks that differ at most in what they have stored since they are not speculative. -/
structure Task.same (k o : Task) : Prop where
  grp : o.grp = k.grp
  lane : o.lane = k.lane
  queue : o.queue = k.queue
  ts : o.ts = k.ts
  payload : o.payload = k.payload
  grid : o.grid = k.grid
  pushes : o.pushes = k.pushes
  regrps : o.regrps = k.regrps
  spec : o.spec = k.spec
  whole : k.spec = true → o = k

theorem Task.same_of_bare (h : bareTask o = bareTask k) : k.same o := by
  have fields : ∀ x : Task, (bareTask x).grp = x.grp ∧ (bareTask x).lane = x.lane ∧ (bareTask x).queue = x.queue ∧ (bareTask x).ts = x.ts
      ∧ (bareTask x).payload = x.payload ∧ (bareTask x).grid = x.grid ∧ (bareTask x).pushes = x.pushes ∧ (bareTask x).regrps = x.regrps
      ∧ (bareTask x).spec = x.spec := fun x => by
    unfold bareTask
    split <;> exact ⟨rfl, rfl, rfl, rfl, rfl, rfl, rfl, rfl, rfl⟩
  obtain ⟨k1, k2, k3, k4, k5, k6, k7, k8, k9⟩ := fields k
  obtain ⟨o1, o2, o3, o4, o5, o6, o7, o8, o9⟩ := fields o
  rw [h] at o1 o2 o3 o4 o5 o6 o7 o8 o9
  have hspec : o.spec = k.spec := o9.symm.trans k9
  refine ⟨o1.symm.trans k1, o2.symm.trans k2, o3.symm.trans k3, o4.symm.trans k4, o5.symm.trans k5, o6.symm.trans k6, o7.symm.trans k7,
    o8.symm.trans k8, hspec, fun hs => ?_⟩
  rwa [bareTask, bareTask, if_pos hs, if_pos (hspec.trans hs)] at h

theorem isTask_of_same {k' o' : Task} (hk : k.same k') (ho : o.same o') : isTask k' o' = isTask k o := by
  simp only [isTask, hk.grp, hk.lane, hk.queue, hk.ts, hk.payload, ho.grp, ho.lane, ho.queue, ho.ts, ho.payload]

theorem Task.same_refl (k : Task) : k.same k := same_of_bare rfl

theorem conflicts_of_same {o' : Task} (ho : o.same o') : conflicts k o' = conflicts k o := by
  by_cases hs : o.spec = true
  · rw [ho.whole hs]
  · simp [conflicts, ho.spec, hs]

/-! ### What goes on from a state -/

/-- `t` comes from `s` with the same contexts, no new task, and its grids with their bins. -/
structure Onward (s t : State) : Prop where
  ctxs : t.ctxs = s.ctxs
  tasks : ∀ o ∈ t.tasks, ∃ o' ∈ s.tasks, o'.same o
  grids : ∀ u r, findGrid u s = some r → ∃ r', findGrid u t = some r' ∧ r'.ctx = r.ctx ∧ r'.bins = r.bins

theorem Onward.ofSame (hc : t.ctxs = s.ctxs) (ht : t.tasks = s.tasks) (hg : t.grids = s.grids) : Onward s t :=
  ⟨hc, fun o ho => ⟨o, ht ▸ ho, o.same_refl⟩, fun u r hr => ⟨r, by rw [findGrid, hg]; exact hr, rfl, rfl⟩⟩

theorem Onward.refl (s : State) : Onward s s := .ofSame rfl rfl rfl

theorem Task.same.trans {k o q : Task} (h : k.same o) (h' : o.same q) : k.same q :=
  ⟨h'.grp.trans h.grp, h'.lane.trans h.lane, h'.queue.trans h.queue, h'.ts.trans h.ts, h'.payload.trans h.payload, h'.grid.trans h.grid,
    h'.pushes.trans h.pushes, h'.regrps.trans h.regrps, h'.spec.trans h.spec, fun hs => (h'.whole (h.spec.trans hs)).trans (h.whole hs)⟩

theorem Onward.trans (h : Onward r s) (h' : Onward s t) : Onward r t := by
  refine ⟨h'.ctxs.trans h.ctxs, fun o ho => ?_, fun u g hg => ?_⟩
  · obtain ⟨o', ho', hs'⟩ := h'.tasks o ho
    obtain ⟨o'', ho'', hs''⟩ := h.tasks o' ho'
    exact ⟨o'', ho'', hs''.trans hs'⟩
  · obtain ⟨g', hg', hc', hb'⟩ := h.grids u g hg
    obtain ⟨g'', hg'', hc'', hb''⟩ := h'.grids u g' hg'
    exact ⟨g'', hg'', hc''.trans hc', hb''.trans hb'⟩

theorem Onward.foldl {α : Type} {f : State → α → State} (hf : ∀ s a, Onward s (f s a)) (l : List α) (s : State) : Onward s (l.foldl f s) := by
  induction l generalizing s with
  | nil => exact .refl s
  | cons a l ih => exact (hf s a).trans (ih _)

theorem findGrid_map {f : Grid → Grid} (hf : ∀ g, (f g).uid = g.uid) (hg : t.grids = s.grids.map f) (u : Nat) :
    findGrid u t = (findGrid u s).map f := by
  rw [findGrid, hg]
  exact find?_map_id (fun g : Grid => g.uid) hf u s.grids

theorem Onward.ofTaskFrame (h : taskFrame t = taskFrame s) : Onward s t := by
  refine ⟨(congrArg State.ctxs h :), fun o ho => ?_, fun u r hr => ?_⟩
  · have hm : bareTask o ∈ s.tasks.map bareTask := (show t.tasks.map bareTask = s.tasks.map bareTask from congrArg State.tasks h) ▸ List.mem_map_of_mem ho
    obtain ⟨o', ho', he⟩ := List.mem_map.1 hm
    exact ⟨o', ho', Task.same_of_bare he.symm⟩
  · have bare : ∀ x : State, (findGrid u x).map bareGrid = findGrid u (taskFrame x) := fun x => (findGrid_map (f := bareGrid) (fun _ => rfl) rfl u).symm
    have hb : (findGrid u t).map bareGrid = some (bareGrid r) := by rw [bare, h, ← bare, hr, Option.map_some]
    obtain ⟨r', hr', he⟩ := Option.map_eq_some_iff.1 hb
    exact ⟨r', hr', (congrArg Grid.ctx he :), (congrArg Grid.bins he :)⟩

/-- A change of a grid that keeps its bins. -/
theorem updGrid_onward {f : Grid → Grid} (hf : ∀ g : Grid, (f g).uid = g.uid ∧ (f g).ctx = g.ctx ∧ (f g).bins = g.bins) (uid : Nat) (s : State) :
    Onward s (updGrid uid f s) := by
  refine ⟨rfl, fun o ho => ⟨o, ho, o.same_refl⟩, fun u r hr => ?_⟩
  refine ⟨if r.uid = uid then f r else r, ?_, ?_⟩
  · rw [findGrid_map (f := fun g => if g.uid = uid then f g else g) (fun g => by split <;> simp [hf]) rfl, hr, Option.map_some]
  · split
    · exact (hf r).2
    · exact ⟨rfl, rfl⟩

theorem updGroup_onward (uid : Nat) (f : Group → Group) (s : State) : Onward s (updGroup uid f s) :=
  .ofSame (updGroup_ctxs ..) (updGroup_tasks ..) (updGroup_grids ..)

theorem barrierCheck_onward (wg : Nat) (s : State) : Onward s (barrierCheck wg s) := by
  refine .foldl (fun s i => ?_) _ s
  unfold barrierStep
  dsimp only
  split <;> exact .ofSame rfl rfl rfl

/-- A task that is aborted: the others stay. -/
theorem abortTask_onward (k : Task) (s : State) : Onward s (abortTask k s) := by
  have filtered : Onward s { s with tasks := s.tasks.filter fun o => !isTask k o } :=
    ⟨rfl, fun o ho => ⟨o, (List.mem_filter.1 ho).1, o.same_refl⟩, fun u r hr => ⟨r, hr, rfl, rfl⟩⟩
  have voided := filtered.trans (updGroup_onward k.grp (voidVisq k.lane) _)
  have again := fun s => updGrid_onward (f := runAgain k) (fun _ => ⟨rfl, rfl, rfl⟩) k.grid s
  unfold abortTask
  dsimp only
  split
  · exact voided.trans (again _)
  · split
    · exact voided.trans (again _)
    · exact ((voided.trans (updGroup_onward _ _ _)).trans (barrierCheck_onward _ _)).trans (again _)

theorem tasks_barrierCheck (wg : Nat) (s : State) : (barrierCheck wg s).tasks = s.tasks := by
  unfold barrierCheck
  generalize List.range 16 = l
  induction l generalizing s with
  | nil => rfl
  | cons i l ih =>
    refine (ih _).trans ?_
    unfold barrierStep
    dsimp only
    split <;> rfl

theorem tasks_abortTask (k : Task) (s : State) : (abortTask k s).tasks = s.tasks.filter fun o => !isTask k o := by
  unfold abortTask
  dsimp only [updGrid]
  split
  · exact updGroup_tasks _ _ _
  · split
    · exact updGroup_tasks _ _ _
    · exact (tasks_barrierCheck _ _).trans ((updGroup_tasks _ _ _).trans (updGroup_tasks _ _ _))

/-- No task that is aborted is left. -/
theorem not_aborted {l : List Task} {s : State} (ho : o ∈ (l.foldl (fun s k => abortTask k s) s).tasks) : o ∈ s.tasks ∧ ∀ k ∈ l, isTask k o = false := by
  induction l generalizing s with
  | nil => exact ⟨ho, fun _ hk => absurd hk List.not_mem_nil⟩
  | cons k l ih =>
    obtain ⟨hm, hl⟩ := ih ho
    rw [tasks_abortTask] at hm
    obtain ⟨hm, hk⟩ := List.mem_filter.1 hm
    refine ⟨hm, fun k' hk' => ?_⟩
    rcases List.mem_cons.1 hk' with rfl | hk'
    · simpa using hk
    · exact hl k' hk'

/-! ### Entries of queues and bins -/

theorem storeFrame_storeEach (as : List Nat) (bs : List Byte) (s : State) : storeFrame (storeEach as bs s) = storeFrame s := by
  induction as generalizing bs s with
  | nil => rfl
  | cons a as ih =>
    cases bs with
    | nil => rfl
    | cons b bs => exact (ih _ _).trans (performStore_kept (D := fun _ => True) (fun _ _ => trivial) (within_true s)).frame

theorem storeFrame_agentWrite {core ctx va : Nat} {bs : List Byte} (h : agentWrite core ctx va bs s = .ok t) : storeFrame t = storeFrame s := by
  unfold agentWrite at h
  split at h
  · exact Except.ok.inj h ▸ storeFrame_storeEach _ _ _
  · exact nomatch h

theorem enterQueue_onward (qn : Nat) (payload : Word) (ts : Nat) (s : State) : Onward s (enterQueue qn payload ts s) := by
  unfold enterQueue
  split
  · exact .refl s
  · dsimp only
    generalize hw : agentWrite _ _ _ _ s = w
    cases w with
    | error e => exact .ofSame rfl rfl rfl
    | ok u => exact (Onward.ofTaskFrame (taskFrame_of_storeFrame (storeFrame_agentWrite hw))).trans (.ofSame rfl rfl rfl)

theorem takeGroups_grid (det : Bool) (n : Nat) (g : Grid) (q : Queue) :
    (takeGroups det n g q).1.uid = g.uid ∧ (takeGroups det n g q).1.ctx = g.ctx ∧ (takeGroups det n g q).1.bins = g.bins := by
  induction n generalizing g q with
  | zero => exact ⟨rfl, rfl, rfl⟩
  | succ n ih =>
    unfold takeGroups
    split
    · exact ih _ _
    · exact ⟨rfl, rfl, rfl⟩

/-- The grid that an identity finds, replaced by one with the same identity, context and bins. -/
theorem replaceGrid_onward {g g' : Grid} (hg : findGrid g.uid s = some g) (h : g'.uid = g.uid ∧ g'.ctx = g.ctx ∧ g'.bins = g.bins) :
    Onward s (updGrid g.uid (fun _ => g') s) := by
  refine ⟨rfl, fun o ho => ⟨o, ho, o.same_refl⟩, fun u r hr => ?_⟩
  refine ⟨if r.uid = g.uid then g' else r, ?_, ?_⟩
  · rw [findGrid_map (f := fun r => if r.uid = g.uid then g' else r) (fun r => ?_) rfl, hr, Option.map_some]
    split
    · exact h.1.trans (Eq.symm ‹_›)
    · rfl
  · split
    · rename_i hu
      rw [← findGrid_uid hr, hu] at hr
      rw [hg] at hr
      exact Option.some.inj hr ▸ h.2
    · exact ⟨rfl, rfl⟩

theorem readQueue_onward (q : Queue) (s : State) : Onward s (readQueue q s).2 ∧ memory (readQueue q s).2 = memory s := by
  unfold readQueue
  split
  · exact ⟨.ofSame rfl rfl rfl, rfl⟩
  · exact ⟨.refl s, rfl⟩

theorem queueForm_onward (qn : Nat) (s : State) : Onward s (queueForm qn s) := by
  unfold queueForm formQueue
  split
  · exact .refl s
  · split
    · exact .refl s
    · rename_i q _ _ g hg
      obtain ⟨u, _, hu⟩ := Option.bind_eq_some_iff.1 hg
      have read := (readQueue_onward q s).1
      have hs : (readQueue q s).2.grids = s.grids := by unfold readQueue; split <;> rfl
      have found : findGrid g.uid (readQueue q s).2 = some g := by rw [findGrid, hs, findGrid_uid hu]; exact hu
      have formed := takeGroups_grid ((findCtx (readQueue q s).1.ctx (readQueue q s).2).getD {}).det ((readQueue q s).1.entries.length + 1) g
        (readQueue q s).1
      exact (read.trans (replaceGrid_onward found formed)).trans (.ofSame rfl rfl rfl)

theorem memory_queueForm (qn : Nat) (s : State) : memory (queueForm qn s) = memory s := by
  unfold queueForm formQueue
  split
  · rfl
  · split
    · rfl
    · exact (readQueue_onward _ s).2

theorem memory_foldl {α : Type} {f : State → α → State} (hf : ∀ s a, memory (f s a) = memory s) (l : List α) (s : State) :
    memory (l.foldl f s) = memory s := by
  induction l generalizing s with
  | nil => rfl
  | cons a l ih => exact (ih _).trans (hf s a)

/-- R31: entries that enter a bin stand in it. -/
theorem mem_addToBin (target : Nat) (es : List BinEntry) (g : Grid) : ∃ b ∈ (addToBin target es g).bins, b.target = target ∧ ∀ e ∈ es, e ∈ b.entries := by
  unfold addToBin
  split
  · rename_i h
    obtain ⟨b, hb, ht⟩ := List.any_eq_true.1 h
    have htar : b.target = target := of_decide_eq_true ht
    exact ⟨_, List.mem_map_of_mem hb, by rw [if_pos htar]; exact ⟨htar, fun e he => List.mem_append_right _ he⟩⟩
  · exact ⟨_, List.mem_append_right _ List.mem_cons_self, rfl, fun _ he => he⟩

theorem tasks_gridEnd (grid : Nat) (s : State) : (gridEnd grid s).tasks = s.tasks := by
  have formed : (detBinForm grid s).tasks = s.tasks := by unfold detBinForm; split <;> rfl
  have checked : ∀ s, (gridCheck grid s).tasks = s.tasks := fun s => by
    unfold gridCheck
    split
    · rfl
    · split <;> rfl
  unfold gridEnd
  dsimp only
  split
  · exact (checked _).trans formed
  · exact checked s

/-- Outside deterministic mode the end of a grid keeps its bins. -/
theorem gridEnd_onward {grid : Nat} {g : Grid} {x : Context} (hg : findGrid grid s = some g) (hx : findCtx g.ctx s = some x) (hd : x.det = false) :
    Onward s (gridEnd grid s) := by
  have hdet : ((findGrid grid s).bind fun g => findCtx g.ctx s) = some x := by rw [hg]; exact hx
  unfold gridEnd
  rw [hdet]
  simp only [Option.map_some, hd, Option.getD_some, if_neg Bool.false_ne_true]
  unfold gridCheck
  split
  · exact .refl s
  · split
    · exact updGrid_onward (by intro; exact ⟨rfl, rfl, rfl⟩) _ s
    · exact .refl s

/-! ### The oldest task -/

/-- The first member that satisfies a condition is the first that satisfies a narrower one that it satisfies. -/
theorem find?_narrower {α : Type} {p q : α → Bool} {a : α} {l : List α} (h : l.find? p = some a) (hq : q a = true) (hpq : ∀ b, q b = true → p b = true) :
    l.find? q = some a := by
  obtain ⟨_, xs, ys, rfl, hx⟩ := List.find?_eq_some_iff_append.1 h
  refine List.find?_eq_some_iff_append.2 ⟨hq, xs, ys, rfl, fun b hb => ?_⟩
  have hpb := hx b hb
  simp only [Bool.not_eq_true'] at hpb ⊢
  by_contra hqb
  rw [hpq b (by simpa using hqb)] at hpb
  exact Bool.noConfusion hpb

theorem isTask_self (k : Task) : isTask k k = true := by simp [isTask]

theorem isTask_iff : isTask k o = true ↔ o.grp = k.grp ∧ o.lane = k.lane ∧ o.queue = k.queue ∧ o.ts = k.ts ∧ o.payload = k.payload := by
  simp [isTask, and_assoc]

/-- R204: the oldest task is one of its queue, nothing uncommitted goes before it, and it is the first of its identity. -/
theorem oldestTask_spec {q : Nat} (h : oldestTask s q = some k) :
    k.queue = q ∧ k ∈ s.tasks ∧ (∀ o ∈ uncommitted s q, ¬(o.1 < k.ts ∨ (o.1 = k.ts ∧ o.2.toNat < k.payload.toNat)))
      ∧ s.tasks.find? (isTask k) = some k := by
  unfold oldestTask at h
  have hm := List.mem_of_find?_eq_some h
  obtain ⟨hm, hq⟩ := List.mem_filter.1 hm
  have hfirst := List.find?_some h
  rw [List.find?_filter] at h
  refine ⟨of_decide_eq_true hq, hm, fun o ho => ?_, ?_⟩
  · have hnone : ((uncommitted s q).any fun o => taskBefore o (k.ts, k.payload)) = false := by simpa only [Bool.not_eq_true'] using hfirst
    simpa [taskBefore] using List.any_eq_false.1 hnone o ho
  · refine find?_narrower h (isTask_self k) fun b hb => ?_
    obtain ⟨_, _, hbq, hbt, hbp⟩ := isTask_iff.1 hb
    rw [hbq, hbt, hbp]
    exact decide_eq_true ⟨hq, hfirst⟩

/-- The record of a task after its writes are applied. -/
theorem find?_isTask (h : taskFrame t = taskFrame s) (hk : s.tasks.find? (isTask k) = some k) : ∃ k', t.tasks.find? (isTask k) = some k' ∧ k.same k' := by
  have hp : isTask k ∘ bareTask = isTask k := by
    funext o
    unfold Function.comp bareTask
    split <;> rfl
  have bare : ∀ x : State, (x.tasks.find? (isTask k)).map bareTask = (x.tasks.map bareTask).find? (isTask k) := fun x => by
    rw [List.find?_map, hp]
  have hb : (t.tasks.find? (isTask k)).map bareTask = some (bareTask k) := by
    rw [bare, show t.tasks.map bareTask = s.tasks.map bareTask from congrArg State.tasks h, ← bare, hk, Option.map_some]
  obtain ⟨k', hk', he⟩ := Option.map_eq_some_iff.1 hb
  exact ⟨k', hk', Task.same_of_bare he⟩

end

end Sys2Proof.Machine

/-! ### A task's commit -/

namespace Sys2Proof.Machine

section

variable {s t : State} {k o : Task}

/-- The tasks at a commit: the later ones that read what the task wrote are aborted, and the task itself ends. -/
def endTask (k : Task) (s : State) : State :=
  let s := (s.tasks.filter (conflicts k)).foldl (fun s u => abortTask u s) s
  { s with tasks := s.tasks.filter fun u => !isTask k u }

/-- The entries of queues and bins that a task has held back enter (R205, log entry 95). -/
def enterEntries (k : Task) (s : State) : State :=
  updGrid k.grid (fun g => k.regrps.foldl (fun g p => addToBin p.1 [p.2] g) g)
    (k.pushes.foldl (fun s p => enterQueue p.1 p.2.1 p.2.2 s) s)

/-- Groups form from the queues that a commit may have filled (R30). -/
def formGroups (k : Task) (s : State) : State := (k.queue :: k.pushes.map fun p => p.1).foldl (fun s q => queueForm q s) s

/-- The state in which a task's writes are visible (R205). -/
def writesVisible (k : Task) (s : State) : State := if k.spec then applyTask k s else settleTask k s

/-- The rest of a commit, once the task's writes are visible. -/
def finishTask (k : Task) (s : State) : State := gridEnd k.grid (formGroups k (enterEntries k (endTask k s)))

theorem commit_eq {k' : Task} (h : (writesVisible k s).tasks.find? (isTask k) = some k') : commit k s = finishTask k' (writesVisible k s) := by
  have named : commit k s = finishTask (((writesVisible k s).tasks.find? (isTask k)).getD k) (writesVisible k s) := rfl
  rw [named, h, Option.getD_some]

theorem taskFrame_writesVisible (k : Task) (s : State) : taskFrame (writesVisible k s) = taskFrame s := by
  unfold writesVisible
  split
  · exact taskFrame_applyTask k s
  · exact taskFrame_settleTask k s

theorem enterQueues_onward (k : Task) (s : State) : Onward s (k.pushes.foldl (fun s p => enterQueue p.1 p.2.1 p.2.2 s) s) :=
  .foldl (f := fun s (p : Nat × Word × Nat) => enterQueue p.1 p.2.1 p.2.2 s) (fun s p => enterQueue_onward p.1 p.2.1 p.2.2 s) k.pushes s

theorem formGroups_onward (k : Task) (s : State) : Onward s (formGroups k s) := .foldl (fun s q => queueForm_onward q s) _ s

theorem endTask_onward (k : Task) (s : State) : Onward s (endTask k s) := by
  have aborted := Onward.foldl (fun s u => abortTask_onward u s) (s.tasks.filter (conflicts k)) s
  exact aborted.trans ⟨rfl, fun o ho => ⟨o, (List.mem_filter.1 ho).1, o.same_refl⟩, fun u r hr => ⟨r, hr, rfl, rfl⟩⟩

/-- R205: neither the task itself is left at its end, nor a task that has read a line it wrote. -/
theorem mem_endTask (ho : o ∈ (endTask k s).tasks) : o ∈ s.tasks ∧ isTask k o = false ∧ conflicts k o = false := by
  obtain ⟨hm, hk⟩ := List.mem_filter.1 ho
  obtain ⟨hs, hl⟩ := not_aborted hm
  refine ⟨hs, by simpa using hk, ?_⟩
  by_contra hc
  have := hl o (List.mem_filter.2 ⟨hs, by simpa using hc⟩)
  rw [isTask_self] at this
  exact Bool.noConfusion this

/-- The tasks after a commit are earlier ones that neither are the task nor have read a line it wrote. -/
theorem mem_commit {k' : Task} (h : (writesVisible k s).tasks.find? (isTask k) = some k') (ho : o ∈ (commit k s).tasks) :
    ∃ o' : Task, o'.same o ∧ isTask k' o' = false ∧ conflicts k' o' = false := by
  rw [commit_eq h, finishTask, tasks_gridEnd] at ho
  obtain ⟨o₁, h₁, s₁⟩ := (formGroups_onward k' _).tasks o ho
  obtain ⟨o₂, h₂, s₂⟩ := (enterQueues_onward k' _).tasks o₁ h₁
  obtain ⟨_, hi, hc⟩ := mem_endTask h₂
  exact ⟨o₂, s₂.trans s₁, hi, hc⟩

theorem mem_enterEntries {k : Task} {g : Grid} {c : Nat} {e : BinEntry} (hr : k.regrps = [(c, e)]) (hg : findGrid k.grid s = some g) :
    ∃ g', findGrid k.grid (enterEntries k s) = some g' ∧ g'.ctx = g.ctx ∧ ∃ b ∈ g'.bins, b.target = c ∧ e ∈ b.entries := by
  obtain ⟨g₁, hg₁, hc₁, _⟩ := (enterQueues_onward k s).grids _ _ hg
  have entered : ∀ g, (addToBin c [e] g).uid = g.uid ∧ (addToBin c [e] g).ctx = g.ctx := fun g => by
    unfold addToBin
    split <;> exact ⟨rfl, rfl⟩
  refine ⟨addToBin c [e] g₁, ?_, (entered g₁).2.trans hc₁, ?_⟩
  · unfold enterEntries
    rw [hr, findGrid_map (s := k.pushes.foldl (fun s p => enterQueue p.1 p.2.1 p.2.2 s) s)
      (f := fun g => if g.uid = k.grid then addToBin c [e] g else g) (fun g => ?_) rfl k.grid, hg₁, Option.map_some, if_pos (findGrid_uid hg₁)]
    split
    · exact (entered g).1
    · rfl
  · obtain ⟨b, hb, ht, he⟩ := mem_addToBin c [e] g₁
    exact ⟨b, hb, ht, he e List.mem_cons_self⟩

/-- R205: outside deterministic mode the entry for a bin that a task held back stands in its bin after the commit. -/
theorem commit_bins {g : Grid} {x : Context} {c : Nat} {e : BinEntry} {k' : Task} (h : (writesVisible k s).tasks.find? (isTask k) = some k')
    (hk : k.same k') (hr : k.regrps = [(c, e)]) (hg : findGrid k.grid s = some g) (hx : findCtx g.ctx s = some x) (hd : x.det = false) :
    ∃ g', findGrid k.grid (commit k s) = some g' ∧ ∃ b ∈ g'.bins, b.target = c ∧ e ∈ b.entries := by
  have before := (Onward.ofTaskFrame (taskFrame_writesVisible k s)).trans (endTask_onward k' _)
  rw [commit_eq h, finishTask, ← hk.grid]
  obtain ⟨g₁, hg₁, hc₁, _⟩ := before.grids _ _ hg
  rw [← hk.grid] at hg₁
  obtain ⟨g₂, hg₂, hc₂, b, hb, ht, he⟩ := mem_enterEntries (hk.regrps.trans hr) hg₁
  have formed := formGroups_onward k' (enterEntries k' (endTask k' (writesVisible k s)))
  obtain ⟨g₃, hg₃, hc₃, hb₃⟩ := formed.grids _ _ hg₂
  have hctx : findCtx g₃.ctx (formGroups k' (enterEntries k' (endTask k' (writesVisible k s)))) = some x := by
    rw [hc₃, hc₂, hc₁, findCtx, formed.ctxs, ← hx]
    exact congrArg _ ((enterQueues_onward k' _).ctxs.trans before.ctxs)
  obtain ⟨g₄, hg₄, _, hb₄⟩ := (gridEnd_onward hg₃ hctx hd).grids _ _ hg₃
  exact ⟨g₄, hg₄, b, by rwa [hb₄, hb₃], ht, he⟩

/-! ### What a commit makes visible -/

theorem peerGone_gridGwct (k : Task) (a : Nat) (s : State) (c : Nat) : peerGone (gridGwct k a s) c = peerGone s c := rfl

/-- R205: a byte that is applied at a home that can be reached stands there, and no core keeps a copy of its line. -/
theorem applyByte_visible {a : Nat} {b : Byte} (ha : a < taskScratch) (hp : peerGone s a = false) :
    homeByte (applyByte k a b s) a = b ∧ ∀ c ∈ (applyByte k a b s).caches, c.line = lineOf a → c.copy = none := by
  unfold applyByte
  dsimp only
  rw [if_neg (Nat.not_le.2 ha), hp, if_neg Bool.false_ne_true]
  generalize coreOfTask k s = core
  have drained := (drainCore_kept core (lineOf a) (within_true s)).loosened.frame
  have back := (writeBackAt_kept core (lineOf a) (within_true (gridGwct k a (drainCore core (lineOf a) s)))).loosened.frame
  have hp' : peerGone (writeBackAt core (lineOf a) (gridGwct k a (drainCore core (lineOf a) s))) a = false :=
    (peerGone_of_loadFrame back a).trans ((peerGone_gridGwct k a _ a).trans ((peerGone_of_loadFrame drained a).trans hp))
  refine ⟨(homeByte_performStore hp' _ core b a).trans (if_pos rfl), fun c hc hl => ?_⟩
  obtain ⟨d, _, rfl⟩ := List.mem_map.1 hc
  split
  · rfl
  · rename_i hd
    rw [if_neg hd] at hl
    exact absurd hl hd

theorem memory_commit {k' : Task} (h : (writesVisible k s).tasks.find? (isTask k) = some k') (hp : k'.pushes = [])
    (hc : ∀ o ∈ (writesVisible k s).tasks, conflicts k' o = false) : memory (commit k s) = memory (writesVisible k s) := by
  have none : (writesVisible k s).tasks.filter (conflicts k') = [] := List.filter_eq_nil_iff.2 fun o ho => by simp [hc o ho]
  have ended : memory (endTask k' (writesVisible k s)) = memory (writesVisible k s) := by
    unfold endTask
    rw [none]
    rfl
  have entered : memory (enterEntries k' (endTask k' (writesVisible k s))) = memory (endTask k' (writesVisible k s)) := by
    unfold enterEntries
    rw [hp]
    rfl
  have formed := memory_foldl (fun s q => memory_queueForm q s) (k'.queue :: k'.pushes.map fun p => p.1)
    (enterEntries k' (endTask k' (writesVisible k s)))
  rw [commit_eq h, finishTask]
  exact (gridEnd_aside _ _).memory.trans (formed.trans (entered.trans ended))

/-- A speculative task whose only write is a byte of memory makes it visible at once when it commits. -/
theorem commit_visible {a : Nat} {b : Byte} (hf : s.tasks.find? (isTask k) = some k) (hs : k.spec = true) (hpu : k.pushes = [])
    (hw : k.wset = [(a, b)]) (ha : a < taskScratch) (hp : peerGone s a = false) (hc : ∀ o ∈ s.tasks, conflicts k o = false) :
    homeByte (commit k s) a = b ∧ ∀ c ∈ (commit k s).caches, c.line = lineOf a → c.copy = none := by
  obtain ⟨k', hk', hsame⟩ := find?_isTask (taskFrame_writesVisible k s) hf
  obtain rfl := hsame.whole hs
  have visible : writesVisible k' s = applyByte k' a b s := by
    rw [writesVisible, if_pos hs, applyTask, hw]
    rfl
  have quiet : ∀ o ∈ (writesVisible k' s).tasks, conflicts k' o = false := fun o ho => by
    obtain ⟨o', ho', hso⟩ := (Onward.ofTaskFrame (taskFrame_writesVisible k' s)).tasks o ho
    exact (conflicts_of_same hso).trans (hc o' ho')
  have same := memory_commit hk' hpu quiet
  rw [visible] at same
  obtain ⟨hbyte, hcopy⟩ := applyByte_visible (k := k') (b := b) ha hp
  exact ⟨(homeByte_of_memory same a).trans hbyte, fun c hcc => hcopy c ((congrArg State.caches same :) ▸ hcc)⟩

/-! ### A task that runs on -/

theorem tasks_promote (k : Task) (s : State) :
    (promote k s).tasks = (applyTask k s).tasks.map fun u => if isTask k u then { u with spec := false } else u := updGroup_tasks _ _ _

theorem promote_tasks (k : Task) (s : State) :
    (promote k s).tasks.length = s.tasks.length ∧ ∀ o ∈ (promote k s).tasks, isTask k o = true → o.spec = false := by
  have bare : (applyTask k s).tasks.map bareTask = s.tasks.map bareTask := (congrArg State.tasks (taskFrame_applyTask k s) :)
  rw [tasks_promote]
  refine ⟨?_, fun o ho hi => ?_⟩
  · rw [List.length_map, ← List.length_map bareTask, bare, List.length_map]
  · obtain ⟨u, _, rfl⟩ := List.mem_map.1 ho
    split
    · rfl
    · rename_i hu
      rw [if_neg hu] at hi
      exact absurd hi hu

theorem exec_taskCommit (q : Nat) (s : State) : exec (.taskCommit q) s = execTaskCommit q s := rfl

end

/-- R204 to R207: the claim on tasks. -/
theorem taskCommitClaim : Claims.taskCommit := by
  intro s q k
  refine ⟨fun hn => by simp [exec_taskCommit, execTaskCommit, hn], fun hk => ?_⟩
  obtain ⟨hq, hm, hfirst, hfind⟩ := oldestTask_spec hk
  refine ⟨hq, hm, hfirst, fun ha => by simp [exec_taskCommit, execTaskCommit, hk, ha], fun hx ha hd hf => ⟨fun qu va tr hw => ?_, fun hw => ?_⟩,
    fun hs ha hn => ⟨promote k s, ?_, promote_tasks k s⟩, fun hs hn => ?_⟩
  · simp [exec_taskCommit, execTaskCommit, hk, ha, hx, hd, hf, hw]
  · obtain ⟨k', hk', hsame⟩ := find?_isTask (taskFrame_writesVisible k s) hfind
    refine ⟨commit k s, by simp [exec_taskCommit, execTaskCommit, hk, ha, hx, hd, hf, hw], fun o ho => ?_, fun hs o ho => ?_,
      fun c e r hr hg hdet => ?_, fun a b hs hpu hws hta hp hc => commit_visible hfind hs hpu hws hta hp hc⟩
    · obtain ⟨o', hso, hi, _⟩ := mem_commit hk' ho
      rw [← hi, isTask_of_same hsame o'.same_refl, isTask_of_same k.same_refl hso]
    · obtain ⟨o', hso, _, hc⟩ := mem_commit hk' ho
      rw [← hc, hsame.whole hs]
      exact conflicts_of_same hso
    · obtain ⟨x, hxc, hxd⟩ := Option.map_eq_some_iff.1 hdet
      exact commit_bins hk' hsame hr hg hxc hxd
  · rcases hn with hn | hn | hn <;> simp [exec_taskCommit, execTaskCommit, hk, ha, hn, hs]
  · have hn' : (k.exited && workDone s k && pushesFit s k) = false := by rcases hn with hn | hn | hn <;> simp [hn]
    simp [exec_taskCommit, execTaskCommit, hk, hn', hs]

/-- Settles O46, claim by claim: what performs pending work keeps a frame (`Kept`), and what ends work touches no memory (`Aside`). -/
theorem workRetiresAndIsSaved : Obligations.WorkRetiresAndIsSaved := ⟨retirement, completionRecord, saveOutClaim, taskCommitClaim⟩

end Sys2Proof.Machine

/-! ### O45: a copy of a host-homed line does not expire -/

namespace Sys2Proof.Machine

section

/-- A line whose home is the host (R241), with a copy in an L2. Such a copy has no lease, so that its expiry stands in the past. -/
def hostCopy : CLine := { lvl := 2, unit := 0, line := 0, copy := some [] }

def hostCacheState : State := { hostRanges := [(0, 128)], caches := [hostCopy] }

theorem exec_leaseExpiry (lvl unit line : Nat) (s : State) : exec (.leaseExpiry lvl unit line) s = execLeaseExpiry lvl unit line s := rfl

/-- R241: no lease keeps a host's copy coherent, so that the event finds it usable and leaves it. -/
theorem hostCopy_stays : exec (.leaseExpiry 2 0 0) hostCacheState = .next hostCacheState := by
  have found : findLine 2 0 0 hostCacheState = some hostCopy := by decide
  have usable : hostCopy.usable hostCacheState = true := by decide
  rw [exec_leaseExpiry, execLeaseExpiry, found]
  simp [usable]

theorem not_memoryEvents : ¬ Claims.memoryEvents := by
  intro h
  obtain ⟨-, -, ⟨t, ht, -, gone, -⟩, -⟩ := h hostCacheState 0 0 0 2 0 {}
  obtain rfl : hostCacheState = t := by simpa [hostCopy_stays] using ht
  exact absurd (gone hostCopy (by decide) rfl (by decide)) (by decide)

end

/-- Refutes O45: the claim has every copy of an L2 whose expiry has passed dropped, and a copy of a line whose home is the host, which
has no lease (R241), stays. -/
theorem not_operationsInFlightComplete : ¬ Obligations.OperationsInFlightComplete := fun ⟨_, _, _, _, h⟩ => not_memoryEvents h

end Sys2Proof.Machine

/-! ### O8: what a variable-latency word leaves behind -/

namespace Sys2Proof.Machine

section

/-- The registers that an operation marks: those that no earlier operation has marked. -/
theorem marked_newMarks (g : Group) (regs : List Reg) (f : Nat) (r : Reg) (ms : List (Reg × Nat))
    (h : ms = g.marks ++ (regs.filter fun r => !marked g r).map fun r => (r, f)) :
    (ms.any fun m => m.1 = r) = (marked g r || decide (r ∈ regs)) := by
  subst h
  rw [List.any_append]
  change (marked g r || _) = _
  cases hm : marked g r
  · rw [Bool.false_or, Bool.eq_iff_iff]
    simp [List.any_map, hm]
  · rfl

theorem raiseOp_of_pos {s : State} {p : Pos} (hp : curPos s = some p) (regs : List Reg) (ws : List RegWrite) (cs : List (Nat × Nat × Closure))
    (ls : List PLoad) :
    raiseOp regs ws cs ls s = { s with grp := { s.grp with
      f := sput 0 (flagOf p) (getF s.grp (flagOf p) + 1) s.grp.f
      ops := s.grp.ops ++ [{ flag := flagOf p, writes := ws, clos := cs, loads := ls }]
      marks := s.grp.marks ++ (regs.filter fun r => !marked s.grp r).map fun r => (r, flagOf p)
      act := s.grp.act.map fun e => { e with pos := e.pos.map fun p => { p with vl := p.vl + 1 } } } } := by
  unfold raiseOp
  rw [hp]
  rfl

end

/-- Settles O8: an operation is one update of the issuer's flags, operations, marks and clause position. -/
theorem variableLatencyRaisesItsFlag : Obligations.VariableLatencyRaisesItsFlag := by
  intro s p regs ws cs ls hp t
  refine ⟨fun h => if_pos h, fun h => ?_⟩
  have raised : t = raiseOp regs ws cs ls s := if_neg h
  rw [raised, raiseOp_of_pos hp]
  have marks := fun r => marked_newMarks s.grp regs (flagOf p) r _ rfl
  refine ⟨?_, fun f hf => ?_, rfl, fun r hr => ?_, fun r hr => ?_, rfl⟩
  · simp [getF]
  · simp [getF, hf.symm]
  · exact (marks r).trans (by simp [hr])
  · exact (marks r).trans (by simp [hr])

end Sys2Proof.Machine

/-! ### O17: a full flag stops a word of the group with no active lane -/

namespace Sys2Proof.Machine

section

/-- A path without an active lane, at a body word of a clause whose flag counts 255. -/
def fullFlagPath : State :=
  { grp := { code := { features := 1 }, f := [(0, 255)]
             act := some { pc := 4, mask := 0, pos := some { hdr := 0, len := 4, issued := 0, seta := 0, setb := 15, pri := 0 } } } }

/-- `SLDC` reads a constant once for the group, whatever the mask (R41, R269, R282), so that it waits for its flag. -/
theorem fullFlagPath_waits : check (sldcNeed fullFlagPath 0 0 0) fullFlagPath = .stall .flag := by decide

end

/-- Refutes O17: without an active lane the statement lets no flag stop a word. An `SLDC` raises its flag whatever the mask (R41), and waits for a
flag that counts 255. -/
theorem not_checksStandInOrder : ¬ Obligations.ChecksStandInOrder := by
  intro h
  obtain ⟨-, checks⟩ := h (sldcNeed fullFlagPath 0 0 0) fullFlagPath _ rfl
  obtain ⟨-, -, -, -, operands⟩ := checks rfl
  obtain ⟨-, -, -, values⟩ := operands (by decide) (by decide) rfl rfl
  obtain ⟨-, -, -, runs⟩ := values (by decide) (by decide) rfl
  exact absurd (fullFlagPath_waits.symm.trans (runs (by decide) (by decide) (by decide))) (by decide)

end Sys2Proof.Machine

/-! ### How a path moves, and what its joins look at (R40, R293) -/

namespace Sys2Proof.Machine

section

variable {s u : State} {g h : Group} {e : FEntry} {p : Pos}

theorem active_of_act (h : s.grp.act = some e) : active s = e.mask := by simp [active, h]
theorem curPc_of_act (h : s.grp.act = some e) : curPc s = e.pc := by simp [curPc, h]
theorem curPos_of_act (h : s.grp.act = some e) : curPos s = e.pos := by simp [curPos, h]

theorem trapOwn_of_act (c : Nat) (h : s.grp.act = some e) : trapOwn c s = takeTrap { cause := c, mask := e.mask } s := by
  rw [trapOwn, active_of_act h]

/-- What `settle` leaves: only what held the issuer, or was kept for one issue of the word, is over. -/
theorem settle_eq (s : State) : settle s = { s with grp := { s.grp with
    stall := .none, walks := [], held := none, spawn := none, noWatch := (settle s).grp.noWatch, noBreak := (settle s).grp.noBreak } } := rfl

/-- The entry that stands at the next word of its clause. -/
def nextWord (e : FEntry) (p : Pos) : FEntry :=
  { e with pc := e.pc + 4, pos := some { p with issued := p.issued + 1, hints := {}, own := [] } }

theorem advance_inside (ha : s.grp.act = some e) (hp : e.pos = some p) (h : p.issued + 1 < p.len) :
    advance s = { s with grp := { s.grp with act := some (nextWord e p) } } := by
  simp only [advance, ha, hp]
  exact if_neg (by omega)

theorem advance_last (ha : s.grp.act = some e) (hp : e.pos = some p) (h : p.len ≤ p.issued + 1) :
    advance s = endClause { s with grp := { s.grp with act := some (nextWord e p) } } := by
  simp only [advance, ha, hp]
  exact if_pos h

theorem finish_quiet (h : quiet u = true) : finish u = advance (settle u) :=
  stepCheck_quiet _ _ _ (by rw [(moved_completed u).quiet, h])

/-- A word that completes in the issuer it began in: its path moved, then the check of a step request. -/
theorem finish_eq_thenStep (s : State) : finish s = thenStep s (advance (settle s)) := by
  unfold thenStep
  split_ifs with h
  · exact finish_quiet h
  · rfl

/-! Joins -/

theorem joinStep_frontier (n : Nat) (g : Group) : (joinStep n g).frontier = g.frontier := by
  unfold joinStep
  split
  · rfl
  · split_ifs <;> rfl

theorem joinStep_act (n : Nat) (g : Group) : (joinStep n g).act = g.act := by
  unfold joinStep
  split
  · rfl
  · split_ifs <;> rfl

/-- A join is decided by the rejoin registers and the entries of the frontier. -/
theorem joinStep_j (n : Nat) (hj : g.j = h.j) (hf : g.frontier = h.frontier) : (joinStep n g).j = (joinStep n h).j := by
  have reg : getJ g n = getJ h n := by simp only [getJ, hj]
  have at_ : ∀ q, lanesAt g q = lanesAt h q := fun q => by simp only [lanesAt, hf]
  unfold joinStep
  rw [reg]
  split
  · exact hj
  · rw [at_]
    split_ifs
    · simp only [setJ, hj]
    · exact hj

theorem joinSteps_frontier (ns : List Nat) (g : Group) : (ns.foldl (fun g n => joinStep n g) g).frontier = g.frontier := by
  induction ns generalizing g with
  | nil => rfl
  | cons n ns ih => exact (ih _).trans (joinStep_frontier n g)

theorem joinSteps_act (ns : List Nat) (g : Group) : (ns.foldl (fun g n => joinStep n g) g).act = g.act := by
  induction ns generalizing g with
  | nil => rfl
  | cons n ns ih => exact (ih _).trans (joinStep_act n g)

theorem joinSteps_j (ns : List Nat) (hj : g.j = h.j) (hf : g.frontier = h.frontier) :
    (ns.foldl (fun g n => joinStep n g) g).j = (ns.foldl (fun g n => joinStep n g) h).j := by
  induction ns generalizing g h with
  | nil => exact hj
  | cons n ns ih => exact ih (joinStep_j n hj hf) (by rw [joinStep_frontier, joinStep_frontier, hf])

@[simp] theorem joinCheck_frontier (g : Group) : (joinCheck g).frontier = g.frontier := joinSteps_frontier _ g
@[simp] theorem joinCheck_act (g : Group) : (joinCheck g).act = g.act := joinSteps_act _ g

theorem joinCheck_j (hj : g.j = h.j) (hf : g.frontier = h.frontier) : (joinCheck g).j = (joinCheck h).j := joinSteps_j _ hj hf

theorem addEntry_frontier (hf : g.frontier = h.frontier) : (addEntry e g).frontier = (addEntry e h).frontier := by
  unfold addEntry
  split_ifs
  · exact hf
  · simp only [hf]

theorem addEntry_only (e : FEntry) (g : Group) : addEntry e g = { g with frontier := (addEntry e g).frontier } := by
  unfold addEntry
  split_ifs <;> rfl

theorem joinStep_only (n : Nat) (g : Group) : ∃ j, joinStep n g = { g with j := j } := by
  unfold joinStep
  split
  · exact ⟨_, rfl⟩
  · split_ifs <;> exact ⟨_, rfl⟩

theorem joinSteps_only (ns : List Nat) (g : Group) : ∃ j, ns.foldl (fun g n => joinStep n g) g = { g with j := j } := by
  induction ns generalizing g with
  | nil => exact ⟨_, rfl⟩
  | cons n ns ih =>
    obtain ⟨i, hi⟩ := joinStep_only n g
    obtain ⟨j, hj⟩ := ih { g with j := i }
    exact ⟨j, by rw [List.foldl_cons, hi, hj]⟩

theorem addEntry_j (e : FEntry) (g : Group) : (addEntry e g).j = g.j := by rw [addEntry_only]
theorem addEntry_act (e : FEntry) (g : Group) : (addEntry e g).act = g.act := by rw [addEntry_only]

theorem joinCheck_only (g : Group) : joinCheck g = { g with j := (joinCheck g).j } := by
  obtain ⟨j, hj⟩ := joinSteps_only (List.range 8) g
  rw [show joinCheck g = { g with j := j } from hj]

theorem nextTurn_grp (g : Group) (s : State) : (nextTurn g s).grp = s.grp := by
  unfold nextTurn
  split_ifs <;> rfl

/-- The issuer at the end of a clause: its path stands in the frontier between clauses, no reservation is left, and joins are looked at. -/
theorem endClause_grp (h : s.grp.act = some e) : (endClause s).grp = joinCheck (backOnFrontier e s.grp) := by
  rw [endClause_some h, nextTurn_grp]

theorem backOnFrontier_eq (e : FEntry) (g : Group) : backOnFrontier e g = { g with
    act := none, resv := [], arming := [], frontier := (addEntry { e with pos := none, age := 0 } g).frontier } := by
  unfold backOnFrontier addEntry
  split_ifs <;> rfl

theorem joined_eq (e : FEntry) (g : Group) : joinCheck (backOnFrontier e g) = { g with
    act := none, resv := [], arming := [], frontier := (addEntry { e with pos := none, age := 0 } g).frontier
    j := (joinCheck (backOnFrontier e g)).j } := by
  have h := joinCheck_only (backOnFrontier e g)
  generalize (joinCheck (backOnFrontier e g)).j = j at h ⊢
  exact h.trans (congrArg (fun k : Group => { k with j := j }) (backOnFrontier_eq e g))

end

end Sys2Proof.Machine

/-! ### O19: completing a word -/

namespace Sys2Proof.Machine

section

theorem stepRequests : Claims.stepRequests := by
  intro t pc m
  refine ⟨stepCheck_quiet pc m t, fun h => if_pos h, fun hl hs => ?_, fun hl hs n hn h => ?_, fun hl hs n hn => ?_⟩
  · rw [stepCheck, if_neg hl, if_pos hs]
  · rw [stepCheck, if_neg hl, hs, if_neg Bool.false_ne_true, hn]
    exact if_pos h
  · rw [stepCheck, if_neg hl, hs, if_neg Bool.false_ne_true, hn]
    exact if_neg (by omega)

theorem pathMoves : Claims.pathMoves := by
  intro u e p hq ha hp
  rw [finish_quiet hq]
  have ha' : (settle u).grp.act = some e := ha
  refine ⟨fun h => ?_, fun h => ?_⟩
  · rw [advance_inside ha' hp h]
    exact ⟨rfl, rfl, rfl, rfl, rfl⟩
  · rw [advance_last ha' hp h, endClause_grp (e := nextWord e p) rfl]
    refine ⟨?_, ?_, ?_, ?_, ?_⟩
    · rw [joined_eq]
    · rw [joined_eq]
    · rw [joined_eq]
    · rw [joined_eq]
      exact addEntry_frontier rfl
    · rw [backOnFrontier_eq]
      exact joinCheck_j (addEntry_j _ { u.grp with act := none }).symm (addEntry_frontier rfl)

/-- The words of one lane in an entry of the last-result file. -/
theorem sget_laneWords (f : Nat → Word) (l w q : Nat) (m : Sparse Word) :
    sget 0 q ((List.range w).foldl (fun m i => sput 0 (4 * l + i) (f i) m) m) = if 4 * l ≤ q ∧ q < 4 * l + w then f (q - 4 * l) else sget 0 q m := by
  induction w with
  | zero => rw [if_neg (by omega)]; rfl
  | succ w ih =>
    rw [List.range_succ, List.foldl_append, List.foldl_cons, List.foldl_nil, sget_sput, ih]
    by_cases h : q = 4 * l + w
    · rw [if_pos h.symm, if_pos (by omega)]
      congr 1
      omega
    · rw [if_neg (Ne.symm h)]
      exact if_congr (by omega) rfl rfl

/-- The words of all lanes: word `i` of lane `l` stands at place `4 * l + i`. -/
theorem sget_allWords (f : Nat → Nat → Word) {w l i : Nat} (hw : w ≤ 4) (hi : i < w) (n : Nat) (hl : l < n) :
    sget 0 (4 * l + i) ((List.range n).foldl (fun m l => (List.range w).foldl (fun m i => sput 0 (4 * l + i) (f l i) m) m) []) = f l i := by
  induction n with
  | zero => exact absurd hl (Nat.not_lt_zero l)
  | succ n ih =>
    rw [List.range_succ, List.foldl_append, List.foldl_cons, List.foldl_nil, sget_laneWords]
    by_cases h : l = n
    · subst h
      rw [if_pos (by omega), Nat.add_sub_cancel_left]
    · rw [if_neg (by omega)]
      exact ih (by omega)

theorem srcWord_eq_dstWord (s : State) {c : Nat} (hc : c ≤ 0xE7) (i l : Nat) : srcWord s c i l = dstWord s.grp c i l := by
  unfold srcWord dstWord
  split_ifs <;> rfl

theorem hEntry_word {s : State} {c w l i : Nat} (hc : c ≤ 0xE7) (hl : l < s.grp.width) (hi : i < w) (hw : w ≤ 4) :
    sget 0 (4 * l + i) (hEntry c w s).vals = dstWord s.grp c i l :=
  (sget_allWords (fun l i => srcWord s c i l) hw hi s.grp.width hl).trans (srcWord_eq_dstWord s hc i l)

theorem curH_pushH {s : State} {p : Pos} (x : HEntry) (h : curPos s = some p) : curH (pushH x s) = (x :: p.h).take 4 := by
  unfold curPos at h
  obtain ⟨e, ha, hp⟩ := Option.bind_eq_some_iff.1 h
  simp [curH, curPos, pushH, State.setPos, State.setAct, ha, hp]

theorem lastResults : Claims.lastResults := by
  intro s d w f p hp t
  have written := setLanes_vk d f (lanes (active s)) s.grp
  have hpos : curPos (s.setG (setLanes d f (lanes (active s)))) = some p := by
    rw [← hp, curPos, curPos, setG_grp, written]
  have width : (s.setG (setLanes d f (lanes (active s)))).grp.width = s.grp.width := by rw [setG_grp, written]
  refine ⟨hEntry d w (s.setG (setLanes d f (lanes (active s)))), curH_pushH _ hpos, rfl, fun l i hl hi hw hd => ?_⟩
  rw [hEntry_word hd (width.symm ▸ hl) hi hw]
  exact (dstWord_placed (pushH_completed _ _).2.2.2 d i l).symm

end

/-- Settles O19: the step check is three cases, the path's move two, and a last result is read back word by word. -/
theorem wordsCompleteAsStated : Obligations.WordsCompleteAsStated := ⟨stepRequests, pathMoves, lastResults⟩

end Sys2Proof.Machine

/-! ### O16: headers and pools -/

namespace Sys2Proof.Machine

section

variable {s : State} {e : FEntry}

theorem waitClear_iff (g : Group) (w : BitVec 12) : waitClear g w = true ↔ ∀ f, f < 12 → w.getLsbD f = true → getF g f = 0 := by
  simp only [waitClear, List.all_eq_true, List.mem_range, Bool.or_eq_true, Bool.not_eq_true', decide_eq_true_eq]
  exact forall₂_congr fun f _ => by cases w.getLsbD f <;> simp

theorem reservedFlag_eq_false_iff (n : BitVec 4) : reservedFlag n = false ↔ n.toNat < 12 ∨ n.toNat = 15 := by
  have := n.isLt
  simp only [reservedFlag, Bool.and_eq_false_iff, decide_eq_false_iff_not]
  omega

/-- The fields of a header are legal where it stands between clauses (R40). -/
def headerRefused (s : State) (a b l : BitVec 4) : Bool := (curPos s).isSome || reservedFlag a || reservedFlag b || decide (l = 0)

theorem headerRefused_eq_false_iff (ha : s.grp.act = some e) (a b l : BitVec 4) :
    headerRefused s a b l = false ↔ e.pos = none ∧ l ≠ 0 ∧ (a.toNat < 12 ∨ a.toNat = 15) ∧ (b.toNat < 12 ∨ b.toNat = 15) := by
  simp only [headerRefused, Bool.or_eq_false_iff, Option.isSome_eq_false_iff, Option.isNone_iff_eq_none, curPos_of_act ha,
    reservedFlag_eq_false_iff, decide_eq_false_iff_not, ne_eq]
  tauto

/-- The issuer's path has opened a clause: the marks of the flags that were waited on are gone, and the other entries have aged. -/
def clauseOpened (w : BitVec 12) (a b l : BitVec 4) (p : BitVec 3) (s : State) : State :=
  ((settle s).setG fun g => clearMarks w (ageOthers g)).setAct fun e =>
    { e with pc := curPc s + 4, age := 0, yielded := false, pos := some (openClause (curPc s) a b l p) }

theorem clauseOpened_eq (w : BitVec 12) (a b l : BitVec 4) (p : BitVec 3) (s : State) : clauseOpened w a b l p s = { s with grp := { s.grp with
    act := s.grp.act.map fun e => { e with pc := curPc s + 4, age := 0, yielded := false, pos := some (openClause (curPc s) a b l p) }
    marks := s.grp.marks.filter fun m => !w.getLsbD m.2
    frontier := (ageOthers (settle s).grp).frontier
    stall := .none, walks := [], held := none, spawn := none, noWatch := (settle s).grp.noWatch, noBreak := (settle s).grp.noBreak } } := by
  have h := settle_eq s
  unfold clauseOpened
  generalize (settle s).grp.noWatch = nw at h ⊢
  generalize (settle s).grp.noBreak = nb at h ⊢
  rw [h]
  simp only [State.setAct, State.setG, clearMarks, ageOthers]

theorem clauseOpened_quiet (w : BitVec 12) (a b l : BitVec 4) (p : BitVec 3) (s : State) : quiet (clauseOpened w a b l p s) = quiet s := by
  rw [clauseOpened_eq, quiet, quiet]

theorem clauseOpened_act (w : BitVec 12) (a b l : BitVec 4) (p : BitVec 3) (ha : s.grp.act = some e) :
    (clauseOpened w a b l p s).grp.act = some { e with pc := e.pc + 4, age := 0, yielded := false, pos := some (openClause e.pc a b l p) } := by
  rw [clauseOpened_eq, ha, curPc_of_act ha]
  rfl

theorem waits_congr {g h : Group} (hj : g.j = h.j) : waits g = waits h := by
  funext e
  unfold waits joinWaits getJ
  rw [hj]

theorem clauseOpened_frontier (w : BitVec 12) (a b l : BitVec 4) (p : BitVec 3) (s : State) : (clauseOpened w a b l p s).grp.frontier
    = s.grp.frontier.map fun e => if waits s.grp e = false then { e with age := e.age + 1, yielded := false } else e := by
  have same : waits (settle s).grp = waits s.grp := waits_congr rfl
  rw [clauseOpened_eq, ← same]
  rfl

theorem exec_clauseHeader (w : BitVec 12) (a b l : BitVec 4) (p : BitVec 3) (s : State) : exec (.clauseHeader w a b l p) s = .next (
    if headerRefused s a b l = true then trapOwn cIllegalEncoding s
    else if (!waitClear s.grp w) = true then stallOn .flag s
    else stepCheck (curPc s) (active s) (clauseOpened w a b l p s)) := rfl

theorem headerOpens : Claims.headerOpens := by
  intro s w a b l p e ha hq
  dsimp only
  rw [← headerRefused_eq_false_iff ha, ← waitClear_iff, exec_clauseHeader]
  refine ⟨fun h => ?_, fun h hc => ?_, fun h hc => ?_⟩
  · rw [if_pos (Bool.not_eq_false _ ▸ h), trapOwn_of_act _ ha]
  · rw [h, if_neg Bool.false_ne_true, if_pos (by simpa using hc)]
  · rw [h, if_neg Bool.false_ne_true, hc, if_neg (by decide), stepCheck_quiet _ _ _ ((clauseOpened_quiet ..).trans hq)]
    refine ⟨_, rfl, clauseOpened_act w a b l p ha, ?_, clauseOpened_frontier .., ?_, ?_⟩
    · rw [clauseOpened_eq]
    · intro x
      rw [clauseOpened_eq]
      rfl
    · rw [clauseOpened_eq]

theorem exec_pool (c : BitVec 12) (s : State) : exec (.pool c) s = execPool c s := rfl

theorem pool_inside (c : BitVec 12) (ha : s.grp.act = some e) (hp : e.pos ≠ none) :
    exec (.pool c) s = .next (takeTrap { cause := cIllegalEncoding, mask := e.mask } s) := by
  rw [exec_pool, execPool, curPos_of_act ha, if_pos (Option.isSome_iff_ne_none.2 hp), trapOwn_of_act _ ha]

/-- The path past a pool. -/
def poolPassed (c : BitVec 12) (e : FEntry) (s : State) : State :=
  { settle s with grp := joinCheck (addEntry { e with pc := e.pc + 4 + 4 * c.toNat } { (settle s).grp with act := none }) }

theorem pool_between (c : BitVec 12) (ha : s.grp.act = some e) (hp : e.pos = none) : exec (.pool c) s = .next (poolPassed c e s) := by
  rw [exec_pool]
  simp [execPool, poolPassed, curPos_of_act ha, hp, ha]

theorem poolIsSkipped : Claims.poolIsSkipped := by
  intro s c e ha
  refine ⟨pool_inside c ha, fun hp => ⟨_, pool_between c ha hp, ?_, ?_, ?_⟩⟩
  · refine (settle_completed s).trans (withGrp_completed _ _ ?_)
    exact samePlaced.trans (b := { (settle s).grp with act := none }) rfl ((addEntry_placed _ _).trans (joinCheck_placed _))
  · exact (joinCheck_frontier _).trans (addEntry_frontier (h := s.grp) rfl)
  · exact (joinCheck_act _).trans (addEntry_act _ _)

end

/-- Settles O16, claim by claim: a header, a pool. -/
theorem headerAndPoolWords : Obligations.HeaderAndPoolWords := ⟨headerOpens, poolIsSkipped⟩

end Sys2Proof.Machine

/-! ### O15: hints -/

namespace Sys2Proof.Machine

section

variable {s : State} {e : FEntry} {p : Pos}

/-- A hint that stands before a word of its clause keeps its payload in the path, which goes on by one word. -/
theorem keepHints_act (h : Hints) (ha : s.grp.act = some e) : (keepHints p h s).grp.act = some { e with
    pc := e.pc + 4, pos := some { p with issued := p.issued + 1, hints := { h with run := p.hints.run + 1 } } } := by
  simp [keepHints, State.setAct, ha]

theorem keepHints_completed (p : Pos) (h : Hints) (s : State) : Completed s (keepHints p h s) :=
  (setG_completed s (fun g => { g with stall := .none, walks := [] }) rfl).trans (setAct_completed _ _)

theorem hintWord_outside (again : Hints → Bool) (upd : Hints → Hints) (ha : s.grp.act = some e) (hp : e.pos = none) :
    hintWord again upd s = takeTrap { cause := cIllegalEncoding, mask := e.mask } s := by
  rw [hintWord, curPos_of_act ha, hp]
  exact trapOwn_of_act _ ha

theorem hintWord_inside (again : Hints → Bool) (upd : Hints → Hints) (ha : s.grp.act = some e) (hp : e.pos = some p) (h : p.issued + 1 < p.len) :
    hintWord again upd s = keepHints p { upd p.hints with twice := p.hints.twice || again p.hints } s := by
  rw [hintWord, curPos_of_act ha, hp]
  exact if_neg (by omega)

theorem hintWord_last (again : Hints → Bool) (upd : Hints → Hints) (ha : s.grp.act = some e) (hp : e.pos = some p) (h : p.len ≤ p.issued + 1) :
    hintWord again upd s = takeTrap { cause := cHintPlacement, mask := e.mask } s := by
  rw [hintWord, curPos_of_act ha, hp]
  exact (if_pos h).trans (trapOwn_of_act _ ha)

theorem exec_ximm (i : BitVec 22) (s : State) :
    exec (.ximm i) s = .next (hintWord (fun h => h.imm.isSome) (fun h => { h with imm := some i }) s) := rfl
theorem exec_ximmf (i : BitVec 22) (s : State) :
    exec (.ximmf i) s = .next (hintWord (fun h => h.immf.isSome) (fun h => { h with immf := some i }) s) := rfl
theorem exec_xscl (r : BitVec 6) (s : State) :
    exec (.xscl r) s = .next (hintWord (fun h => h.scl.isSome) (fun h => { h with scl := some r }) s) := rfl
theorem exec_xrnd (f sat : BitVec 1) (e : BitVec 6) (m : BitVec 3) (s : State) :
    exec (.xrnd f sat e m) s = .next (hintWord (fun h => h.rnd.isSome)
      (fun h => { h with rnd := some { mode := m, seed := e, sat := decide (sat = 1), ftz := decide (f = 1) } }) s) := rfl
theorem exec_xevc (q : BitVec 2) (s : State) :
    exec (.xevc q) s = .next (hintWord (fun h => h.evc.isSome) (fun h => { h with evc := some q }) s) := rfl
theorem exec_xscp (q : BitVec 2) (s : State) :
    exec (.xscp q) s = .next (hintWord (fun h => h.scp.isSome) (fun h => { h with scp := some q }) s) := rfl
theorem exec_xpart (s : State) : exec .xpart s = .next (hintWord (fun h => h.part) (fun h => { h with part := true }) s) := rfl
theorem exec_nop (s : State) : exec .nop s = execNop s := rfl

/-- A hint word outside a clause, before another word of its clause, and at the end of it. -/
theorem hintWord_does {i : Instr} (again : Hints → Bool) (upd : Hints → Hints) (hi : exec i s = .next (hintWord again upd s))
    (ha : s.grp.act = some e) :
    (e.pos = none → exec i s = .next (takeTrap { cause := cIllegalEncoding, mask := e.mask } s))
    ∧ ∀ p, e.pos = some p →
      (p.issued + 1 < p.len → ∃ t, exec i s = .next t
        ∧ t.grp.act = some { e with
            pc := e.pc + 4
            pos := some { p with
              issued := p.issued + 1
              hints := { upd p.hints with twice := p.hints.twice || again p.hints, run := p.hints.run + 1 } } }
        ∧ Completed s t)
      ∧ (p.len ≤ p.issued + 1 → exec i s = .next (takeTrap { cause := cHintPlacement, mask := e.mask } s)) := by
  refine ⟨fun hp => by rw [hi, hintWord_outside again upd ha hp], fun p hp => ⟨fun h => ?_, fun h => by rw [hi, hintWord_last again upd ha hp h]⟩⟩
  exact ⟨_, by rw [hi, hintWord_inside again upd ha hp h], keepHints_act _ ha, keepHints_completed _ _ _⟩

theorem nop_outside (ha : s.grp.act = some e) (hp : e.pos = none) :
    exec .nop s = .next (takeTrap { cause := cIllegalEncoding, mask := e.mask } s) := by
  rw [exec_nop, execNop, curPos_of_act ha, hp]
  exact congrArg _ (trapOwn_of_act _ ha)

theorem nop_inRun (ha : s.grp.act = some e) (hp : e.pos = some p) (hr : 0 < p.hints.run) (hl : p.issued + 1 < p.len) :
    exec .nop s = .next (keepHints p p.hints s) := by
  rw [exec_nop, execNop, curPos_of_act ha, hp]
  exact congrArg _ (if_neg (by omega))

theorem nop_alone (ha : s.grp.act = some e) (hp : e.pos = some p) (h : p.hints.run = 0 ∨ p.len ≤ p.issued + 1) :
    exec .nop s = .next (thenStep s (advance (settle s))) := by
  rw [← finish_eq_thenStep, exec_nop, execNop, curPos_of_act ha, hp]
  exact congrArg _ (if_pos h)

end

/-- Settles O15: the seven hints are one word with their payloads, and `NOP` has its three cases. -/
theorem hintsWaitForTheirTarget : Obligations.HintsWaitForTheirTarget := by
  intro s e x r f g m q ha
  refine ⟨nop_outside ha, fun p hp => ⟨fun hr hl => ?_, fun h => ?_⟩,
    hintWord_does _ _ (exec_ximm x s) ha, hintWord_does _ _ (exec_ximmf x s) ha, hintWord_does _ _ (exec_xscl r s) ha,
    hintWord_does _ _ (exec_xrnd f g r m s) ha, hintWord_does _ _ (exec_xevc q s) ha, hintWord_does _ _ (exec_xscp q s) ha,
    hintWord_does _ _ (exec_xpart s) ha,
    by decide +kernel, by decide +kernel, by decide +kernel⟩
  · refine ⟨_, nop_inRun ha hp hr hl, ?_, keepHints_completed _ _ _⟩
    rw [keepHints_act _ ha, Bool.or_false]
  · refine ⟨_, nop_alone ha hp h, moved_completed s, fun hl => ?_⟩
    rw [advance_inside (s := settle s) ha hp hl]
    rfl

end Sys2Proof.Machine

/-! ### O41: a step runs the word it fetches -/

namespace Sys2Proof.Machine

section

variable {s u v : State} {w : Word} {e : FEntry}

theorem setAct_edited (ha : v.grp.act = some e) (he : e.edited = false) : (v.setAct fun e => { e with edited := false }) = v := by
  have same : ({ e with edited := false } : FEntry) = e := by rw [← he]
  have acts : v.grp.act.map (fun e => { e with edited := false }) = v.grp.act := by rw [ha, Option.map_some, same]
  exact congrArg (fun a => { v with grp := { v.grp with act := a } }) acts

/-- A path that no handler has moved and that stands at no breakpoint is fetched (R44, R326). -/
theorem issuePath_unmoved (ha : v.grp.act = some e) (he : e.edited = false) (hb : breakHere v = false) : issuePath v = fetchWord v := by
  simp [issuePath, setAct_edited ha he, ha, he, hb]

theorem fetchWord_word (ha : v.grp.act = some e) (hr : readCode v v.grp e.pc = .word w) : fetchWord v = decoded w (codeFlit v.grp e.pc v) := by
  simp only [fetchWord, curPc_of_act ha, hr]

theorem nextInstr_chosen (hm : mayIssue s s.grp = true) (ht : takeTurn s = (true, u)) (hh : ∀ h ∈ u.grp.hem, h.holds = false)
    (hp : withPath u = some v) : nextInstr s = issuePath v := by
  have free : u.grp.hem.any (fun e => e.holds) = false := List.any_eq_false.2 fun h hh' => by simp [hh h hh']
  simp [nextInstr, hm, ht, free, hp]

theorem exec_illegalEncoding (w : Word) (s : State) : exec (.illegalEncoding w) s = execIllegalEncoding w s := rfl

/-- What a step makes of its turn. -/
def stepEnd (s : State) : Host.Outcome State Fault Refusal → Host.Outcome State Fault Refusal
  | .next t => .next (stepDone s t)
  | .fault r => .fault r
  | .refused r => .refused r

theorem step_of_turn {o : Host.Outcome State Fault Refusal} (h : turn s = o) : step s = stepEnd s o := by
  unfold step
  rw [h]
  cases o <;> rfl

/-- What a slot makes of the word that it has run. -/
def issued (i : Instr) (s u : State) : Host.Outcome State Fault Refusal → Host.Outcome State Fault Refusal
  | .next after => .next (noteJoin exec s (afterIssue i u after))
  | .fault r => .fault r
  | .refused r => .refused r

theorem issue_word {i : Instr} (hp : passedOver exec s = false) (hn : nextInstr s = decoded w u) (hd : decodeWord w = .ok i) :
    issue s = issued i s u (exec i u) := by
  rw [issue, hp, if_neg Bool.false_ne_true, hn, decoded, hd]
  rfl

theorem issue_illegal {r : Reject} (hp : passedOver exec s = false) (hn : nextInstr s = decoded w u) (hd : decodeWord w = .error r) :
    issue s = exec (.illegalEncoding w) u := by
  rw [issue, hp, if_neg Bool.false_ne_true, hn, decoded, hd]
  rfl

/-! The flit of a fetch (R316) -/

/-- Two states that differ in when flits arrived from the peers, each at a time. -/
def flitsOnly (s t : State) : Prop :=
  t = { s with members := t.members } ∧ t.members.map (fun x => { x with flit := 0 }) = s.members.map (fun x => { x with flit := 0 })
  ∧ ∀ x ∈ t.members, x ∈ s.members ∨ x.flit = s.time

theorem flitsOnly_self (s : State) : flitsOnly s s := ⟨rfl, rfl, fun _ h => .inl h⟩

theorem flitsOnly_flitFrom (a : Nat) (s : State) : flitsOnly s (flitFrom a s) := by
  unfold flitFrom
  split
  · exact flitsOnly_self s
  · rename_i m _
    refine ⟨rfl, ?_, fun x hx => ?_⟩
    · rw [List.map_map]
      refine List.map_congr_left fun x _ => ?_
      simp only [Function.comp]
      split_ifs <;> rfl
    · obtain ⟨y, hy, rfl⟩ := List.mem_map.1 hx
      split_ifs
      · exact .inr rfl
      · exact .inl hy

theorem flitFrom_home {a : Nat} (h : peerOf a = none) (s : State) : flitFrom a s = s := by rw [flitFrom, h]

theorem flitsOnly_originalFlit (g : Group) (pc : Nat) (s : State) : flitsOnly s (originalFlit g pc s) := by
  unfold originalFlit
  split_ifs
  · exact flitsOnly_self s
  · split
    · exact flitsOnly_flitFrom _ s
    · exact flitsOnly_self s

theorem originalFlit_home {g : Group} {pc : Nat} (h : ∀ a, xlate s g (codeVa g.code pc) 2 = .ok a → peerOf a = none) : originalFlit g pc s = s := by
  unfold originalFlit
  split_ifs
  · rfl
  · split
    · exact flitFrom_home (h _ ‹_›) s
    · rfl

theorem topcOf_original {g : Group} (h : g.code.residual = none) (pc : Nat) : topcOf g pc = pc := by rw [topcOf, h]

theorem flitsOnly_codeFlit (g : Group) (pc : Nat) (s : State) : flitsOnly s (codeFlit g pc s) := by
  unfold codeFlit
  split
  · split_ifs
    · exact flitsOnly_originalFlit _ _ s
    · exact flitsOnly_self s
  · exact flitsOnly_originalFlit _ _ s

theorem codeFlit_home {g : Group} {pc : Nat} (h : ∀ a, xlate s g (codeVa g.code (topcOf g pc)) 2 = .ok a → peerOf a = none) :
    codeFlit g pc s = s := by
  unfold codeFlit
  split
  · split_ifs
    · exact originalFlit_home h
    · rfl
  · exact originalFlit_home (topcOf_original ‹_› pc ▸ h)

/-! Words that decode to nothing (R52, R54) -/

theorem exec_illegalEncoding_target {r : Reject} (hd : decodeWord w = .error r) (hr : r ≠ .moviSource) (v : State) :
    exec (.illegalEncoding w) v = .next (illegalWord w v) := by
  rw [exec_illegalEncoding, execIllegalEncoding, hd]
  cases r with
  | moviSource => exact absurd rfl hr
  | _ => rfl

theorem withoutReserved_none (h : ∀ t ∈ targetWords, ¬(classOf w = t.1 ∧ bitsOf w 26 22 = t.2.1)) : withoutReserved w = none := by
  have none : (targetWords.find? fun t => decide (classOf w = t.1) && decide (bitsOf w 26 22 = t.2.1)) = none :=
    List.find?_eq_none.2 fun t ht => by simpa using h t ht
  rw [withoutReserved, none]
  rfl

/-- A word that no issuer accepts, and whose target is good, traps `ILLEGAL_ENCODING`. -/
theorem check_noIssuer (l : Bool) (s : State) : check { noIssuer with last := l } s = .trap { cause := cIllegalEncoding, mask := active s } := by
  unfold check
  cases hp : curPos s with
  | none => rfl
  | some p =>
    have refused : encodingOk { noIssuer with last := l } s.grp p = false := by
      have no : issuerOk { noIssuer with last := l } s.grp.kind = false := by cases s.grp.kind <;> rfl
      simp [encodingOk, no]
    simp [noIssuer] at refused ⊢
    simp [refused]

theorem waitDirect_of_bad {off : Int} {t : TrapReq} (h : badDirect s off = some t) : waitDirect s off = none := by
  unfold badDirect at h
  unfold waitDirect
  cases hc : (directCheck s off).2 with
  | unread va tr => simp [hc] at h
  | _ => rfl

/-- A word with a direct target by the outcomes of its target's check. -/
theorem directWord_unread {n : Need} {off : Int} {x : Nat × Trans} (body : Nat → State → State) (h : waitDirect s off = some x) :
    directWord n off body s = unreadTarget x s := by rw [directWord, h]

theorem directWord_read {n : Need} {off : Int} (body : Nat → State → State) (h : waitDirect s off = none) :
    directWord n off body s = word { n with badTarget := badDirect s off, last := true } (body ((directTarget s off).getD 0)) s := by rw [directWord, h]

theorem check_badTarget {n : Need} {t : TrapReq} (h : n.badTarget = some t) : check n s = .trap t := by rw [check, h]

theorem directWord_bad {n : Need} {off : Int} {t : TrapReq} (body : Nat → State → State) (h : badDirect s off = some t) :
    directWord n off body s = takeTrap t s := by
  rw [directWord_read body (waitDirect_of_bad h)]
  exact word_trap _ (check_badTarget h)

theorem illegalWord_direct {bt : BitVec 1} {o : BitVec 18} {i : Instr} (h : withoutReserved w = some i) (hi : i = .bra bt o ∨ i = .call bt o) :
    illegalWord w v = directWord noIssuer (offsetOf v 18 o) (fun _ s => s) v := by
  rcases hi with rfl | rfl <;> rw [illegalWord, h]

end

/-- Settles O41: the slot's conditions lead to the fetch, the word's decoding to `exec`, and a fetch's flit is all it leaves behind. -/
theorem stepRunsTheFetchedWord : Obligations.StepRunsTheFetchedWord := by
  intro s u v w e ends htape hpass hmay hturn hhem hpath ha he hb hr f
  have next : nextInstr s = decoded w f := by
    rw [nextInstr_chosen hmay hturn hhem hpath, issuePath_unmoved ha he hb, fetchWord_word ha hr]
  have slot : turn s = issue s := by rw [turn, htape]
  obtain ⟨rest, times, moments⟩ := flitsOnly_codeFlit v.grp e.pc v
  refine ⟨fun i hi => ?_, fun r hd => ?_, rest, times, moments, codeFlit_home, fun r hd hm ht => ?_,
    fun r bt o i hd hm hw hi => ⟨fun t hbad => ?_, fun hwait hbad => ?_⟩⟩
  · refine (step_of_turn (slot.trans (issue_word hpass next hi))).trans ?_
    cases exec i f <;> rfl
  · refine (step_of_turn (slot.trans (issue_illegal hpass next hd))).trans ?_
    cases exec (.illegalEncoding w) f <;> rfl
  · rw [exec_illegalEncoding_target hd hm, illegalWord, withoutReserved_none ht]
    exact congrArg Host.Outcome.next (trapOwn_of_act _ ha)
  · rw [exec_illegalEncoding_target hd hm, illegalWord_direct hw hi, directWord_bad _ hbad]
  · rw [exec_illegalEncoding_target hd hm, illegalWord_direct hw hi, directWord_read _ hwait, hbad, ← active_of_act ha]
    exact congrArg Host.Outcome.next (word_trap _ (check_noIssuer true v))

end Sys2Proof.Machine

/-! ### Transfers: how a path leaves its clause (R287, R290) -/

namespace Sys2Proof.Machine

section

variable {s u : State} {g h : Group} {e : FEntry} {es : List FEntry}

theorem addEntries_only (es : List FEntry) (g : Group) :
    es.foldl (fun g e => addEntry e g) g = { g with frontier := (es.foldl (fun g e => addEntry e g) g).frontier } := by
  have placed : ∃ f, es.foldl (fun g e => addEntry e g) g = { g with frontier := f } := by
    induction es generalizing g with
    | nil => exact ⟨_, rfl⟩
    | cons e es ih =>
      obtain ⟨f, hf⟩ := ih (addEntry e g)
      exact ⟨f, by rw [List.foldl_cons, hf, addEntry_only]⟩
  obtain ⟨f, hf⟩ := placed
  rw [hf]

theorem addEntries_frontier (es : List FEntry) (hf : g.frontier = h.frontier) :
    (es.foldl (fun g e => addEntry e g) g).frontier = (es.foldl (fun g e => addEntry e g) h).frontier := by
  induction es generalizing g h with
  | nil => exact hf
  | cons e es ih => exact ih (addEntry_frontier hf)

/-- The issuer whose lanes stand in the frontier as the listed entries. -/
def leftAs (es : List FEntry) (g : Group) : Group := es.foldl (fun g e => addEntry e g) { g with act := none, resv := [], arming := [] }

theorem leftAs_eq (es : List FEntry) (g : Group) : leftAs es g = { g with
    act := none, resv := [], arming := [], frontier := (es.foldl (fun g e => addEntry e g) g).frontier } := by
  have same := addEntries_frontier (g := { g with act := none, resv := [], arming := [] }) (h := g) es rfl
  exact (addEntries_only es _).trans (congrArg (fun f => { g with act := none, resv := [], arming := [], frontier := f }) same)

theorem leaveTo_some (es : List FEntry) (ha : s.grp.act = some e) :
    leaveTo es s = nextTurn (leftAs es s.grp) { s with grp := joinCheck (leftAs es s.grp) } := by
  simp only [leaveTo, ha]
  rfl

theorem leftAs_joined (es : List FEntry) (g : Group) : ∃ j, joinCheck (leftAs es g) = { g with
    act := none, resv := [], arming := [], frontier := (es.foldl (fun g e => addEntry e g) g).frontier, j := j } := by
  have h := joinCheck_only (leftAs es g)
  generalize (joinCheck (leftAs es g)).j = j at h
  exact ⟨j, h.trans (congrArg (fun k : Group => { k with j := j }) (leftAs_eq es g))⟩

/-- A path that leaves its clause: it is gone, and its lanes stand in the frontier. -/
theorem leaveTo_left (es : List FEntry) (ha : u.grp.act = some e) : LeftFor u es (leaveTo es (settle u)) := by
  have ha' : (settle u).grp.act = some e := ha
  obtain ⟨j, hj⟩ := leftAs_joined es (settle u).grp
  rw [leaveTo_some es ha']
  have moved : Completed (settle u) { settle u with grp := joinCheck (leftAs es (settle u).grp) } := withGrp_completed _ _ (by rw [hj]; rfl)
  refine ⟨(settle_completed u).trans (moved.trans (nextTurn_completed _ _)), ?_, ?_, ?_, ?_⟩
  · rw [nextTurn_grp, hj]
  · rw [nextTurn_grp, hj]
  · rw [nextTurn_grp, hj]
  · rw [nextTurn_grp, hj]
    exact addEntries_frontier es rfl

/-- A transfer's effect: its path leaves its clause, then a step may end. -/
theorem transfer_leaves (es : List FEntry) (hq : quiet u = quiet s) (ha : u.grp.act = s.grp.act) (he : s.grp.act = some e) :
    ∃ t, transfer es u = thenStep s t ∧ LeftFor u es t := by
  have left := leaveTo_left es (ha.trans he)
  refine ⟨_, ?_, left⟩
  have pc : curPc u = curPc s := by rw [curPc, curPc, ha]
  have mask : active u = active s := by rw [active, active, ha]
  unfold transfer thenStep
  split_ifs with h
  · exact stepCheck_quiet _ _ _ (by rw [left.1.quiet, hq, h])
  · rw [pc, mask]

/-- A word whose checks pass has a path. -/
theorem act_of_ready {n : Need} (h : ready n s) : ∃ e, s.grp.act = some e := by
  cases ha : s.grp.act with
  | some e => exact ⟨e, rfl⟩
  | none =>
    have no : curPos s = none := by rw [curPos, ha]; rfl
    unfold ready check at h
    cases hb : n.badTarget <;> simp [hb, no] at h

theorem setLink_eq (s : State) : setLink s = { s with grp := { s.grp with k := (setLink s).grp.k } } := by
  have placed : ∀ (ls : List Nat) (x : Word) (g : Group), ∃ k, ls.foldl (fun g l => setK 7 l x g) g = { g with k := k } := by
    intro ls x
    induction ls with
    | nil => exact fun g => ⟨_, rfl⟩
    | cons l ls ih =>
      intro g
      obtain ⟨k, hk⟩ := ih (setK 7 l x g)
      exact ⟨k, by rw [List.foldl_cons, hk]; rfl⟩
  obtain ⟨k, hk⟩ := placed (lanes (active s)) (BitVec.ofNat 32 (linkOf s)) s.grp
  have h : setLink s = { s with grp := { s.grp with k := k } } := congrArg (fun g => { s with grp := g }) hk
  rw [h]

theorem setLink_quiet (s : State) : quiet (setLink s) = quiet s := by rw [setLink_eq, quiet, quiet]
theorem setLink_act (s : State) : (setLink s).grp.act = s.grp.act := by rw [setLink_eq]

/-- A check of targets that cannot read a code word does what R287 says. -/
theorem WaitsForCode.of_unread {i : Instr} {x : Option (Nat × Trans)} (h : ∀ y, x = some y → exec i s = .next (unreadTarget y s)) :
    WaitsForCode i s x := by
  refine ⟨fun va hx => h _ hx, fun va hx => h _ hx, fun va m hx => (h _ hx).trans ?_⟩
  cases m <;> rfl

end

/-! ### Words with a direct target -/

section

variable {s : State} {off : Int}

theorem directTarget_isSome (hb : badDirect s off = none) (ho : originalTarget s off = none) : (directTarget s off).isSome = true := by
  unfold directTarget
  by_cases neg : (curPc s : Int) + 4 + 4 * off < 0
  · simp [badDirect, directCheck, ho, neg] at hb
  · simp [neg]

/-- A word made by `directWord` is as `Direct` says: the check of the target, then the word's own checks, then its body. -/
theorem Direct.of_word {i : Instr} {n : Need} {w : Nat → Prop} (body : Nat → State → State) (he : exec i s = .next (directWord n off body s))
    (hn : n.badTarget = none) (hw : ∀ t, ready { n with last := true } s → exec i s = .next (body t s) → w t) : Direct i n off s w := by
  refine ⟨.of_unread fun y hy => by rw [he, directWord_unread body hy], fun r hr => by rw [he, directWord_bad body hr], fun hwait hbad hr =>
    ⟨directTarget_isSome hbad, hw _ hr ?_⟩⟩
  have same : ({ n with badTarget := none, last := true } : Need) = { n with last := true } := by rw [hn]
  rw [he, directWord_read body hwait, hbad, same, word_run _ hr]

/-- A direct transfer: its lanes go to the target or to the next word. -/
theorem Direct.of_transfer {i : Instr} {n : Need} {u : State} {parts : Nat → List FEntry} (body : Nat → State → State)
    (he : exec i s = .next (directWord n off body s)) (hn : n.badTarget = none) (hb : ∀ t, body t s = transfer (parts t) u)
    (hq : quiet u = quiet s) (ha : u.grp.act = s.grp.act) :
    Direct i n off s fun t => ∃ t', exec i s = .next (thenStep s t') ∧ LeftFor u (parts t) t' := by
  refine .of_word body he hn fun t hr hx => ?_
  obtain ⟨e, hact⟩ := act_of_ready hr
  obtain ⟨t', ht, left⟩ := transfer_leaves (parts t) hq ha hact
  exact ⟨t', by rw [hx, hb, ht], left⟩

theorem exec_bra (bt : BitVec 1) (o : BitVec 18) (s : State) : exec (.bra bt o) s = execBra o s := rfl
theorem exec_brm (bt : BitVec 1) (m : BitVec 4) (o : BitVec 18) (s : State) : exec (.brm bt m o) s = execBrm m o s := rfl
theorem exec_brmn (bt : BitVec 1) (m : BitVec 4) (o : BitVec 18) (s : State) : exec (.brmn bt m o) s = execBrmn m o s := rfl
theorem exec_brs (bt : BitVec 1) (a : BitVec 6) (o : BitVec 16) (s : State) : exec (.brs bt a o) s = execBrs a o s := rfl
theorem exec_brsz (bt : BitVec 1) (a : BitVec 6) (o : BitVec 16) (s : State) : exec (.brsz bt a o) s = execBrsz a o s := rfl
theorem exec_call (bt : BitVec 1) (o : BitVec 18) (s : State) : exec (.call bt o) s = execCall o s := rfl

theorem directWords : Claims.directWords := by
  intro s bt m a o q
  refine ⟨.of_transfer _ (exec_bra bt o s) rfl (fun _ => rfl) rfl rfl, .of_transfer _ (exec_brm bt m o s) rfl (fun _ => rfl) rfl rfl,
    .of_transfer _ (exec_brmn bt m o s) rfl (fun _ => rfl) rfl rfl, .of_transfer _ (exec_brs bt a q s) rfl (fun t => ?_) rfl rfl,
    .of_transfer _ (exec_brsz bt a q s) rfl (fun t => ?_) rfl rfl,
    .of_transfer _ (exec_call bt o s) rfl (fun _ => rfl) (setLink_quiet s) (setLink_act s)⟩
  · cases hset : decide (getS s.grp a.toNat ≠ 0) <;> simp [branchParts]
  · cases hset : decide (getS s.grp a.toNat ≠ 0) <;> simp [branchParts]

theorem partsPartition : Claims.partsPartition := by
  intro s sel p
  refine ⟨?_, ?_, rfl, rfl⟩
  · ext i
    simp
    tauto
  · ext i
    cases h : sel[i] <;> simp [h]

end

/-! ### What the check of a target finds -/

section

variable {rd : Nat → CodeRead} {t : Nat} {ws : Nat → Word}

/-- The bytes that the walk passes at a word (R40, R47): a clause, a pool, or the word alone. -/
def wordSpan (w : Word) : Nat := 4 + 4 * (if classOf w = 0 then bitsOf w 6 3 else if classOf w = 14 then bitsOf w 11 0 else 0)

/-- The word at an address is a pool that the target lies in. -/
def poolCovers (t q : Nat) (w : Word) : Prop := classOf w = 14 ∧ t < q + wordSpan w

theorem wordSpan_ge (w : Word) : 4 ≤ wordSpan w := Nat.le_add_right _ _

/-- The walk at a word before the target: it ends in a pool that covers the target, and else goes past the word. -/
theorem inPool_word {q fuel : Nat} {w : Word} (hq : q < t) (hw : rd q = .word w) :
    (poolCovers t q w → inPool rd t (fuel + 1) q = .bad) ∧ (¬poolCovers t q w → inPool rd t (fuel + 1) q = inPool rd t fuel (q + wordSpan w)) := by
  rw [inPool, if_neg (Nat.not_le.2 hq), hw]
  unfold poolCovers wordSpan
  by_cases header : classOf w = 0
  · simp [header, Nat.add_assoc]
  · by_cases pool : classOf w = 14
    · simp only [pool, if_pos, true_and, Nat.add_assoc]
      exact ⟨fun h => if_pos h, fun h => if_neg h⟩
    · simp [header, pool]

theorem inPool_end {p : Nat} (hp : t ≤ p) (fuel : Nat) : inPool rd t fuel p = .header := by
  cases fuel with
  | zero => rfl
  | succ fuel => rw [inPool, if_pos hp]

theorem inPool_unread {p va fuel : Nat} {x : Trans} (hp : p < t) (hr : rd p = .trans va x) (hx : x = .miss ∨ x = .absent) :
    inPool rd t (fuel + 1) p = .unread va x := by
  rw [inPool, if_neg (Nat.not_le.2 hp), hr]
  rcases hx with rfl | rfl <;> rfl

/-- `qs` are the places that a walk from `q` goes to, before the last one over words that stand before the target. -/
def Walk (rd : Nat → CodeRead) (t : Nat) (ws : Nat → Word) (ps : List Nat) : Prop :=
  (∀ p ∈ ps.dropLast, p < t ∧ rd p = .word (ws p)) ∧ ps.IsChain fun p q => q = p + wordSpan (ws p)

theorem Walk.cons {q r : Nat} {ps : List Nat} (h : Walk rd t ws (q :: r :: ps)) :
    q < t ∧ rd q = .word (ws q) ∧ r = q + wordSpan (ws q) ∧ Walk rd t ws (r :: ps) := by
  obtain ⟨words, chain⟩ := h
  rw [List.dropLast_cons_cons] at words
  obtain ⟨next, rest⟩ := List.isChain_cons_cons.1 chain
  obtain ⟨hq, hw⟩ := words q List.mem_cons_self
  exact ⟨hq, hw, next, fun p hp => words p (List.mem_cons_of_mem _ hp), rest⟩

/-- Each place of a walk lies 4 bytes or more behind the one before. -/
theorem Walk.length_le {ps : List Nat} : ∀ {q : Nat}, Walk rd t ws (q :: ps) → ps = [] ∨ q + 4 * ps.length < t + 4 := by
  induction ps with
  | nil => exact fun _ => .inl rfl
  | cons r ps ih =>
    intro q h
    obtain ⟨hq, -, hr, rest⟩ := h.cons
    have step := wordSpan_ge (ws q)
    rcases ih rest with rfl | more
    · right; simp only [List.length_cons, List.length_nil]; omega
    · right; simp only [List.length_cons]; omega

theorem inPool_walk {ps : List Nat} : ∀ {q fuel : Nat}, Walk rd t ws (q :: ps) → ps.length < fuel → ∀ p, (q :: ps).getLast? = some p →
    (t ≤ p → (∃ x ∈ (q :: ps).dropLast, poolCovers t x (ws x)) → inPool rd t fuel q = .bad)
    ∧ (t ≤ p → (¬∃ x ∈ (q :: ps).dropLast, poolCovers t x (ws x)) → inPool rd t fuel q = .header)
    ∧ ∀ va x, p < t → rd p = .trans va x → (x = .miss ∨ x = .absent) → inPool rd t fuel q = .unread va x := by
  induction ps with
  | nil =>
    intro q fuel _ hf p hp
    obtain ⟨fuel, rfl⟩ := Nat.exists_eq_succ_of_ne_zero (Nat.ne_of_gt hf)
    obtain rfl : q = p := by simpa using hp
    exact ⟨fun _ h => by simp at h, fun h _ => inPool_end h _, fun va x h hr hx => inPool_unread h hr hx⟩
  | cons r ps ih =>
    intro q fuel h hf p hp
    obtain ⟨fuel, rfl⟩ := Nat.exists_eq_succ_of_ne_zero (Nat.ne_of_gt (Nat.zero_lt_of_lt hf))
    obtain ⟨hq, hw, hr, rest⟩ := h.cons
    rw [List.getLast?_cons_cons] at hp
    obtain ⟨bad, header, unread⟩ := ih rest (Nat.lt_of_succ_lt_succ hf) p hp
    obtain ⟨covered, passed⟩ := inPool_word (fuel := fuel) hq hw
    rw [List.dropLast_cons_cons]
    by_cases cover : poolCovers t q (ws q)
    · have beyond : t ≤ p := by
        have far : t < r := hr ▸ cover.2
        cases ps with
        | nil => simp at hp; omega
        | cons r' ps => exact absurd rest.cons.1 (by omega)
      exact ⟨fun _ _ => covered cover, fun _ h => absurd ⟨q, List.mem_cons_self, cover⟩ h, fun va x h => absurd h (by omega)⟩
    · rw [passed cover, ← hr]
      refine ⟨fun ht hx => bad ht ?_, fun ht hx => header ht ?_, unread⟩
      · obtain ⟨x, hx, hc⟩ := hx
        rcases List.mem_cons.1 hx with rfl | hx
        · exact absurd hc cover
        · exact ⟨x, hx, hc⟩
      · exact fun ⟨x, hx', hc⟩ => hx ⟨x, List.mem_cons_of_mem _ hx', hc⟩

theorem targetOf_header {w : Word} (h4 : t % 4 = 0) (hr : rd t = .word w) (hc : classOf w = 0) (hb : w.getLsbD 27 = false) :
    targetOf rd t = inPool rd t (t / 4 + 1) 0 := by
  rw [targetOf, if_neg (not_not.2 h4), hr]
  exact if_pos ⟨hc, hb⟩

theorem targetsAreHeaders : Claims.targetsAreHeaders := by
  intro rd t
  refine ⟨fun h => if_pos h, fun h hr => ?_, fun va x h hr => ?_, fun w h hr hw => ?_, fun w ps ws h hr hc hb h0 words chain p hp => ?_⟩
  · rw [targetOf, if_neg (not_not.2 h), hr]
  · rw [targetOf, if_neg (not_not.2 h), hr]
  · rw [targetOf, if_neg (not_not.2 h), hr]
    refine if_neg fun ⟨zero, clear⟩ => ?_
    rcases hw with hw | hw
    · exact hw zero
    · exact Bool.false_ne_true (clear.symm.trans hw)
  · obtain ⟨ps, rfl⟩ : ∃ qs, ps = 0 :: qs := by
      cases ps with
      | nil => simp at h0
      | cons q qs => exact ⟨qs, by rw [Option.some.inj h0]⟩
    have walk : Walk rd t ws (0 :: ps) := ⟨words, chain⟩
    have fuel : ps.length < t / 4 + 1 := by
      rcases walk.length_le with rfl | short
      · simp
      · omega
    obtain ⟨bad, header, unread⟩ := inPool_walk walk fuel p hp
    rw [targetOf_header h hr hc hb]
    refine ⟨fun ht => ?_, unread⟩
    by_cases hx : ∃ x ∈ (0 :: ps).dropLast, poolCovers t x (ws x)
    · exact (bad ht hx).trans (if_pos hx).symm
    · exact (header ht hx).trans (if_neg hx).symm

end

/-! ### Words whose lanes name their targets -/

section

variable {s : State}

/-- A word that the checks of R52 refuse for its place, its operands or a marked register, when no operand check reads a value. -/
theorem check_refuses {n : Need} (he : n.early = []) (hv : n.valueBad = false)
    (h : ∀ p, curPos s = some p → encodingOk n s.grp p = false ∨ n.operandBad = true ∨ n.regs.any (hazardous s.grp p) = true) :
    ∃ r, check n s = .trap r := by
  unfold check
  cases n.badTarget with
  | some t => exact ⟨t, rfl⟩
  | none =>
    cases hp : curPos s with
    | none => exact ⟨_, rfl⟩
    | some p =>
      simp only [he, hv, List.any_nil, Bool.false_eq_true, if_false]
      split_ifs with h1 h2 h3 h4 h5 h6 h7
      · exact ⟨_, rfl⟩
      · exact ⟨_, rfl⟩
      · exact ⟨_, rfl⟩
      · exact ⟨_, rfl⟩
      · exact ⟨_, rfl⟩
      all_goals rcases h p hp with h | h | h <;> simp_all

/-- A register of the list carries a mark that no earlier issue of the word set (R42, R323). -/
def anyNoted (s : State) (rs : List Reg) : Bool := rs.any fun r => marked s.grp r && !((curPos s).map fun p => p.own.contains r).getD false

theorem anyNoted_eq (s : State) (rs : List Reg) : rs.any (hazardous s.grp
    ((curPos s).getD { hdr := 0, len := 0, issued := 0, seta := 0, setb := 0, pri := 0 })) = anyNoted s rs := by
  unfold anyNoted hazardous
  cases curPos s <;> rfl

theorem anyNoted_of_pos {p : Pos} (hp : curPos s = some p) (rs : List Reg) : rs.any (hazardous s.grp p) = anyNoted s rs := by
  rw [← anyNoted_eq, hp]
  rfl

theorem laneTargetWord_skip {n : Need} {ok mapped : Bool} {rs : List Reg} {val : Nat → Nat} (body : State → State)
    (h : ok = false ∨ anyNoted s rs = true) : laneTargetWord n ok mapped rs val body s = word n body s := by
  have reg : targetReg s ok rs = .skip := by
    rw [targetReg, anyNoted_eq]
    exact if_pos (by rcases h with h | h <;> simp [h])
  simp only [laneTargetWord, reg]

theorem laneTargetWord_pending {n : Need} {mapped : Bool} {rs : List Reg} {val : Nat → Nat} (body : State → State)
    (hn : anyNoted s rs = false) (hp : rs.any (regPending s.grp) = true) : laneTargetWord n true mapped rs val body s = stallOn .token s := by
  have reg : targetReg s true rs = .pending := by
    rw [targetReg, anyNoted_eq, hn]
    simp [hp]
  simp only [laneTargetWord, reg]

theorem targetReg_read {rs : List Reg} (hn : anyNoted s rs = false) (hp : rs.any (regPending s.grp) = false) : targetReg s true rs = .read := by
  rw [targetReg, anyNoted_eq, hn]
  simp [hp]

theorem laneTargetWord_unread {n : Need} {mapped : Bool} {rs : List Reg} {val : Nat → Nat} {y : Nat × Trans} (body : State → State)
    (hr : targetReg s true rs = .read) (hw : waitTargets s val (lanes (active s)) = some y) :
    laneTargetWord n true mapped rs val body s = unreadTarget y s := by simp only [laneTargetWord, hr, hw]

theorem laneTargetWord_checked {n : Need} {mapped : Bool} {rs : List Reg} {val : Nat → Nat} (body : State → State)
    (hr : targetReg s true rs = .read) (hw : waitTargets s val (lanes (active s)) = none) : laneTargetWord n true mapped rs val body s =
      word { n with badTarget := badLaneTarget s val mapped (lanes (active s)) } body s := by simp only [laneTargetWord, hr, hw]

/-- A word made by `laneTargetWord` is as `Indirect` says: its target registers, the check of the targets, the word's own checks, its body. -/
theorem Indirect.of_word {i : Instr} {n : Need} {reads mapped : Bool} {rs : List Reg} {val : Nat → Nat} {w : Prop} (body : State → State)
    (he : exec i s = .next (laneTargetWord n reads mapped rs val body s)) (hb : n.badTarget = none) (hearly : n.early = []) (hv : n.valueBad = false)
    (hrs : ∀ r ∈ rs, r ∈ n.regs) (hreads : reads = false → ∀ p, encodingOk n s.grp p = false ∨ n.operandBad = true)
    (hw : ready n s → exec i s = .next (body s) → w) : Indirect i n reads mapped rs val s w := by
  refine ⟨fun h => ?_, fun hr hn hp => by rw [he, hr, laneTargetWord_pending body hn hp], fun ⟨hr, hn, hp⟩ => ?_⟩
  · obtain ⟨r, hr⟩ : ∃ r, check n s = .trap r := check_refuses hearly hv fun p hp => by
      rcases h with h | h
      · rcases hreads h p with h | h
        · exact .inl h
        · exact .inr (.inl h)
      · obtain ⟨x, hx, hm⟩ := List.any_eq_true.1 ((anyNoted_of_pos hp rs).trans h)
        exact .inr (.inr (List.any_eq_true.2 ⟨x, hrs x hx, hm⟩))
    exact ⟨r, hr, by rw [he, laneTargetWord_skip body h, word_trap _ hr]⟩
  · subst hr
    have reg := targetReg_read hn hp
    refine ⟨.of_unread fun y hy => by rw [he, laneTargetWord_unread body reg hy], fun hwait => ?_⟩
    have checked := laneTargetWord_checked (n := n) (mapped := mapped) body reg hwait
    refine ⟨fun r hbad => by rw [he, checked, word_trap _ (check_badTarget hbad)], fun hbad => ?_⟩
    have same : ({ n with badTarget := none } : Need) = n := by rw [← hb]
    simp only [hbad, same] at checked
    exact ⟨fun r h => by rw [he, checked, word_trap _ h], fun x h => by rw [he, checked, word_stall _ h],
      fun h => hw h (by rw [he, checked, word_run _ h])⟩

/-- Where an active lane of an indirect transfer goes (R366). -/
def indirectDest (g : Group) (t : Nat) : Nat := match g.code.residual with
  | none => t
  | some r => match r.entries.find? fun e => e.1 = t with
    | some e => e.2
    | none => r.copy.getD 0 + t

theorem mapIndirect_eq (g : Group) (t : Nat) : mapIndirect g t = indirectDest g t := by
  unfold mapIndirect mapTarget indirectDest
  cases g.code.residual with
  | none => rfl
  | some r => cases h : r.entries.find? fun e => e.1 = t <;> simp [h]

theorem indirectParts_eq (s : State) (val : Nat → Nat) :
    indirectParts s val = (lanes (active s)).map fun l => { pc := indirectDest s.grp (val l), mask := laneBit l } := by
  simp only [indirectParts, mapIndirect_eq]

theorem exec_ret (bt : BitVec 1) (s : State) : exec (.ret bt) s = execRet s := rfl
theorem exec_jmpi (bt : BitVec 1) (a g : BitVec 8) (s : State) : exec (.jmpi bt a g) s = execJmpi a g s := rfl
theorem exec_calli (bt : BitVec 1) (a g : BitVec 8) (s : State) : exec (.calli bt a g) s = execCalli a g s := rfl
theorem exec_lpad (bt : BitVec 1) (g : BitVec 8) (s : State) : exec (.lpad bt g) s = execLpad g s := rfl

theorem encodingOk_bobbin {n : Need} (hn : n.bob = false) (hk : s.grp.kind = .bobbin) (p : Pos) : encodingOk n s.grp p = false := by
  simp [encodingOk, issuerOk, hk, hn]

/-- The landing pad at a target is read and has a tag (R49). -/
theorem padTag_eq_some_iff (t f : Nat) : padTag s t = some f ↔
    ∃ w, readOriginal s s.grp (t + 4) = .word w ∧ classOf w = 13 ∧ bitsOf w 26 22 = 9 ∧ bitsOf w 21 8 = 0 ∧ bitsOf w 7 0 = f := by
  unfold padTag
  cases readOriginal s s.grp (t + 4) with
  | word w =>
    simp only [Option.ite_none_right_eq_some, Option.some.injEq, CodeRead.word.injEq, exists_eq_left', and_assoc]
  | _ => simp

theorem badPad_eq (s : State) (tag : Nat) (val : Nat → Nat) (ls : List Nat) :
    badPad s tag val ls = (ls.find? fun l => padTag s (val l) != some tag).map fun l =>
      { cause := 0x04, mask := lanesWith val (val l) ls, addr := val l, info := (padTag s (val l)).getD 256 } := by
  unfold badPad
  congr 1
  funext l
  cases padTag s (val l) <;> rfl

/-- The need of `JMPI` and `CALLI` with an operand that cannot be read (R61, R290). -/
theorem indirectNeed_refuses {link : Bool} {a : BitVec 8} (h : indirectReads a s = false) (p : Pos) :
    encodingOk (indirectNeed link a s) s.grp p = false ∨ (indirectNeed link a s).operandBad = true := by
  simp only [indirectReads, Bool.and_eq_false_iff, decide_eq_false_iff_not, not_not] at h
  rcases h with h | h
  · exact .inr (by simp [indirectNeed, h])
  · exact .inl (encodingOk_bobbin rfl h p)

theorem retNeed_refuses (h : retReads s = false) (p : Pos) : encodingOk (retNeed s) s.grp p = false ∨ (retNeed s).operandBad = true := by
  simp only [retReads, Bool.and_eq_false_iff, decide_eq_false_iff_not, not_not] at h
  rcases h with h | h
  · exact .inr (by simp [retNeed]; omega)
  · exact .inl (encodingOk_bobbin rfl h p)

/-- The landing pads of an indirect transfer, and where it goes when they have its tag. -/
def PadsThenGoes (i : Instr) (s u : State) (a g : BitVec 8) : Prop :=
  let ls := lanes (active s)
  let va := indirectVal s a
  WaitsForCode i s (waitPads s va ls)
  ∧ (waitPads s va ls = none →
    (∀ l, ls.find? (fun l => padTag s (va l) != some g.toNat) = some l →
      exec i s = .next (takeTrap { cause := 0x04, mask := lanesWith va (va l) ls, addr := va l, info := (padTag s (va l)).getD 256 } s))
    ∧ ((∀ l ∈ ls, ∃ w, readOriginal s s.grp (va l + 4) = .word w ∧ classOf w = 13 ∧ bitsOf w 26 22 = 9 ∧ bitsOf w 21 8 = 0 ∧ bitsOf w 7 0 = g.toNat) →
        ∃ t, exec i s = .next (thenStep s t) ∧ LeftFor u (ls.map fun l => { pc := indirectDest s.grp (va l), mask := laneBit l }) t))

theorem indirect_of_word {i : Instr} {link : Bool} {a g : BitVec 8} {u : State} (he : exec i s = .next (indirectWord link a g s))
    (hu : u = if link then setLink s else s) : Indirect i (indirectNeed link a s) (indirectReads a s) false (codeRegs s 1 a.toNat) (indirectVal s a) s
      (PadsThenGoes i s u a g) := by
  refine .of_word _ he rfl rfl rfl (fun r hr => List.mem_append_left _ hr) indirectNeed_refuses fun hr hx => ?_
  obtain ⟨e, ha⟩ := act_of_ready hr
  refine ⟨.of_unread fun y hy => by rw [hx, hy], fun hpads => ?_⟩
  rw [hpads] at hx
  simp only [badPad_eq] at hx
  refine ⟨fun l hl => by rw [hx, hl]; rfl, fun hall => ?_⟩
  have clean : (lanes (active s)).find? (fun l => padTag s (indirectVal s a l) != some g.toNat) = none :=
    List.find?_eq_none.2 fun l hl => by simp [(padTag_eq_some_iff _ _).2 (hall l hl)]
  have sameQuiet : quiet u = quiet s := by rw [hu]; split_ifs; exacts [setLink_quiet s, rfl]
  have sameAct : u.grp.act = s.grp.act := by rw [hu]; split_ifs; exacts [setLink_act s, rfl]
  obtain ⟨t, ht, left⟩ := transfer_leaves (indirectParts s (indirectVal s a)) sameQuiet sameAct ha
  rw [indirectParts_eq] at left
  exact ⟨t, by rw [hx, clean, ← ht, hu]; rfl, left⟩

theorem indirectTransfers : Claims.indirectTransfers := by
  intro s bt a g
  refine ⟨?_, ?_, ?_, ?_, ?_⟩
  · refine .of_word _ (exec_ret bt s) rfl rfl rfl (fun r hr => hr) retNeed_refuses fun hr hx => ?_
    obtain ⟨e, ha⟩ := act_of_ready hr
    obtain ⟨t, ht, left⟩ := transfer_leaves (indirectParts s (retVal s)) rfl rfl ha
    rw [indirectParts_eq] at left
    exact ⟨t, by rw [hx, ← ht], left⟩
  · exact indirect_of_word (exec_jmpi bt a g s) rfl
  · exact indirect_of_word (exec_calli bt a g s) rfl
  · exact fun l f => (padTag_eq_some_iff _ _).symm
  · exact .of_word finish (exec_lpad bt g s) (fun _ => rfl) rfl rfl rfl

end

/-- Settles O30: `directWord` and `laneTargetWord` are read off once as `Direct` and `Indirect`, and the check of a target is an induction over the walk. -/
theorem transfersMoveTheirLanes : Obligations.TransfersMoveTheirLanes := ⟨⟨directWords, partsPartition⟩, indirectTransfers, targetsAreHeaders⟩

end Sys2Proof.Machine

/-! ### O42: where a word is fetched -/

namespace Sys2Proof.Machine

section

variable {s : State} {g : Group}

theorem readOriginal_beyond {pc : Nat} (h : g.code.size ≤ pc / 4) : readOriginal s g pc = .beyond := if_pos h

theorem readOriginal_translated {pc a : Nat} (h : pc / 4 < g.code.size) (ht : xlate s g (codeVa g.code pc) 2 = .ok a) :
    readOriginal s g pc = .word (fetchedWord s g a) := by
  rw [readOriginal, if_neg (Nat.not_le.2 h), ht]

theorem readCode_original (h : g.code.residual = none) (pc : Nat) : readCode s g pc = readOriginal s g pc := by rw [readCode, h]

theorem readCode_residual {r : Residual} {pc : Nat} {w : Word} (h : g.code.residual = some r) (hw : r.words[pc / 4]? = some w)
    (hu : r.unread.contains (pc / 4) = false) (ht : topcOf g pc < 4 * g.code.size) : readCode s g pc = .word w := by
  simp only [readCode, h, hw, hu]
  exact if_neg (Nat.not_le.2 ht)

theorem exec_fetchFault (refused : Bool) (info : Word) (s : State) : exec (.fetchFault refused info) s = execFetchFault refused info s := rfl

theorem codeFetch : Claims.codeFetch := by
  intro s pc a info
  exact ⟨fun h hs => (readCode_original h pc).trans (readOriginal_beyond hs),
    fun h hs ht => (readCode_original h pc).trans (readOriginal_translated hs ht),
    fun r w h hw hu ht => readCode_residual h hw hu ht, exec_fetchFault false info s, exec_fetchFault true info s⟩

/-! The bytes of a fetched word (R51) -/

/-- A little-endian word is its bytes put together, the highest first. -/
theorem wordOf_four (a b c d : Byte) : wordOf [a, b, c, d] = d ++ c ++ b ++ a := by
  have ha := a.isLt
  have hb := b.isLt
  have hc := c.isLt
  have hd := d.isLt
  refine BitVec.eq_of_toNat_eq ?_
  rw [BitVec.toNat_append, BitVec.toNat_append, BitVec.toNat_append, ← Nat.shiftLeft_add_eq_or_of_lt ha, ← Nat.shiftLeft_add_eq_or_of_lt hb,
    ← Nat.shiftLeft_add_eq_or_of_lt hc]
  simp only [wordOf, ofBytes, BitVec.toNat_ofNat, Nat.shiftLeft_eq]
  omega

/-- The word that stands at an address. -/
theorem wordOf_homeBytes (s : State) (a : Nat) :
    wordOf (homeBytes s a 4) = homeByte s (a + 3) ++ homeByte s (a + 2) ++ homeByte s (a + 1) ++ homeByte s a :=
  wordOf_four (homeByte s a) (homeByte s (a + 1)) (homeByte s (a + 2)) (homeByte s (a + 3))

/-- The word that stood at an address before the last stores since a time. -/
theorem wordOf_oldBytes (s : State) (since a : Nat) : wordOf ((List.range 4).map fun i => oldByte s since (a + i)) =
    oldByte s since (a + 3) ++ oldByte s since (a + 2) ++ oldByte s since (a + 1) ++ oldByte s since (a + 0) :=
  wordOf_four (oldByte s since (a + 0)) (oldByte s since (a + 1)) (oldByte s since (a + 2)) (oldByte s since (a + 3))

theorem oldByte_unstored {since a : Nat} (h : sfind a s.old = none) : oldByte s since a = homeByte s a := by rw [oldByte, h]

theorem oldByte_earlier {since a : Nat} (h : ∀ x t, sfind a s.old = some (x, t) → t < since) : oldByte s since a = homeByte s a := by
  unfold oldByte
  split
  · exact if_neg (Nat.not_le.2 (h _ _ ‹_›))
  · rfl

/-- A fetch finds the new word or the old one. -/
theorem fetchedWord_cases (s : State) (g : Group) (a : Nat) : fetchedWord s g a = wordOf (homeBytes s a 4)
    ∨ ∃ since, codeSince s g = some since ∧ fetchedWord s g a = wordOf ((List.range 4).map fun i => oldByte s since (a + i)) := by
  unfold fetchedWord
  dsimp only
  split
  · exact .inl rfl
  · cases codeSince s g with
    | none => exact .inl rfl
    | some since =>
      dsimp only
      split
      · exact .inr ⟨since, rfl, rfl⟩
      · exact .inl rfl

/-- A fetch finds the word that stands there when no byte of it has an older value since the grids of the code object run. -/
theorem fetchedWord_same {a : Nat} (h : ∀ since, codeSince s g = some since → ∀ i, i < 4 → oldByte s since (a + i) = homeByte s (a + i)) :
    fetchedWord s g a = wordOf (homeBytes s a 4) := by
  rcases fetchedWord_cases s g a with new | ⟨since, hs, old⟩
  · exact new
  · rw [old, wordOf_oldBytes, h since hs 3 (by decide), h since hs 2 (by decide), h since hs 1 (by decide), h since hs 0 (by decide), wordOf_homeBytes]
    rfl

theorem changedCode : Claims.changedCode := by
  intro s g a
  dsimp only
  rw [← wordOf_homeBytes]
  refine ⟨fun since hs => ?_, fun h => ?_, fun h => ?_, fun since hs h => ?_⟩
  · rcases fetchedWord_cases s g a with new | ⟨since', hs', old⟩
    · exact .inl new
    · obtain rfl : since' = since := Option.some.inj (hs'.symm.trans hs)
      exact .inr (old.trans (wordOf_oldBytes s since' a))
  · exact fetchedWord_same fun since hs => absurd (h.symm.trans hs) (by simp)
  · exact fetchedWord_same fun since _ i hi => oldByte_unstored (h i hi)
  · exact fetchedWord_same fun since' hs' i hi => oldByte_earlier fun x t hx => by
      obtain rfl : since' = since := Option.some.inj (hs'.symm.trans hs)
      exact h i x t hi hx

end

end Sys2Proof.Machine

/-! ### O42: turns, and what every step ends with -/

namespace Sys2Proof.Machine

section

variable {s t : State}

/-- What the engines leave: the time and the schedule. -/
def sameClock (s t : State) : Prop := t.time = s.time ∧ t.tape = s.tape

theorem sameClock.trans {a b c : State} (h : sameClock a b) (k : sameClock b c) : sameClock a c := ⟨k.1.trans h.1, k.2.trans h.2⟩

theorem sameClock_of_storeFrame (h : storeFrame t = storeFrame s) : sameClock s t := ⟨(congrArg State.time h :), (congrArg State.tape h :)⟩

theorem sameClock_foldl {α : Type} {f : State → α → State} (h : ∀ s a, sameClock s (f s a)) (l : List α) (s : State) : sameClock s (l.foldl f s) := by
  induction l generalizing s with
  | nil => exact ⟨rfl, rfl⟩
  | cons a l ih => exact (h s a).trans (ih _)

theorem sameClock_setPresent (f : Present → Present) (s : State) : sameClock s (setPresent f s) := ⟨rfl, rfl⟩

theorem sameClock_forgetWalks (ctx : Nat) (s : State) : sameClock s (forgetWalks ctx s) := ⟨rfl, rfl⟩

theorem sameClock_askWalk (core ctx grp va kind : Nat) (s : State) : sameClock s (askWalk core ctx grp va kind s) := by
  unfold askWalk
  split_ifs <;> exact ⟨rfl, rfl⟩

theorem sameClock_agentMiss (core ctx va kind : Nat) (s : State) : sameClock s (agentWait core ctx va kind .miss s) := by
  unfold agentWait
  dsimp only
  split
  · exact ⟨rfl, rfl⟩
  · exact sameClock_askWalk ..

theorem sameClock_agentFlits (core ctx kind n : Nat) : ∀ (va : Nat) (s : State), sameClock s (agentFlits core ctx kind va n s) := by
  induction n with
  | zero => exact fun va s => by rw [agentFlits]; exact ⟨rfl, rfl⟩
  | succ n ih =>
    intro va s
    rw [agentFlits]
    split
    · exact (sameClock_of_storeFrame (storeFrame_flitFrom _ s)).trans (ih _ _)
    · exact ⟨rfl, rfl⟩

theorem sameClock_ringFlits (f : FrameSource) (slots : List Nat) (done : List GoodFrame) (s : State) : sameClock s (ringFlits f slots done s) :=
  (sameClock_foldl (fun _ _ => sameClock_agentFlits ..) slots s).trans (sameClock_foldl (fun _ _ => sameClock_agentFlits ..) done _)

theorem sameClock_checkedFlits (f : FrameSource) (r : SlotRead) (s : State) : sameClock s (checkedFlits f r s) := by
  unfold checkedFlits
  split_ifs
  · exact ⟨rfl, rfl⟩
  · split <;> exact sameClock_ringFlits ..

theorem storeFrame_slotWork {f : FrameSource} {w : SlotWork} (h : slotWork f w s = .ok t) : storeFrame t = storeFrame s := by
  cases w with
  | put i off v => exact storeFrame_agentWrite h
  | free i k =>
    simp only [slotWork] at h
    split at h
    · split_ifs at h
      · exact storeFrame_agentWrite h
      · rw [Except.ok.inj h]
    · simp at h

theorem sameClock_doWork (f : FrameSource) (w : SlotWork) (s : State) : sameClock s (doWork f w s) := by
  unfold doWork
  split_ifs
  · exact ⟨rfl, rfl⟩
  · split
    · refine (sameClock_of_storeFrame (storeFrame_slotWork ‹_›)).trans (.trans ?_ (sameClock_forgetWalks _ _))
      split
      · exact sameClock_ringFlits ..
      · exact ⟨rfl, rfl⟩
    · exact (sameClock_setPresent _ s).trans (sameClock_agentMiss ..)
    · exact sameClock_forgetWalks _ _

/-- The check of a frame takes no time and leaves the schedule. -/
theorem sameClock_checkFrame (f : FrameSource) (k : Nat) (s : State) : sameClock s (checkFrame f k s) := by
  unfold checkFrame
  refine (sameClock_checkedFlits f (frameFor (asChecked k s) f k) s).trans ?_
  dsimp only
  split
  · exact (sameClock_setPresent _ _).trans (sameClock_agentMiss ..)
  · exact (sameClock_forgetWalks _ _).trans (sameClock_setPresent _ _)
  · exact ((sameClock_forgetWalks _ _).trans (sameClock_setPresent _ _)).trans (sameClock_doWork ..)

/-- The check of a frame is made at its own moment, on the way to a turn. -/
theorem checkBetween_clock (due : Nat) (s : State) : (checkBetween s.time due s).tape = s.tape
    ∧ ((checkBetween s.time due s).time = s.time ∨ s.time ≤ (checkBetween s.time due s).time ∧ (checkBetween s.time due s).time ≤ due) := by
  unfold checkBetween
  split
  · dsimp only
    split_ifs with h
    · rename_i l f _ _
      simp only [Bool.and_eq_true, decide_eq_true_eq] at h
      obtain ⟨⟨-, later⟩, intime⟩ := h
      obtain ⟨time, tape⟩ := sameClock_checkFrame f (nextInstant l s.present.lastAt).1
        { s with time := (nextInstant l s.present.lastAt).2 - f.margin }
      refine ⟨tape, .inr ?_⟩
      rw [time]
      exact ⟨later.le, intime⟩
    · exact ⟨rfl, .inl rfl⟩
  · exact ⟨rfl, .inl rfl⟩

theorem advanceTime_clock (due : Nat) (s : State) : (advanceTime due s).time = max s.time due ∧ (advanceTime due s).tape = s.tape := by
  obtain ⟨tape, time⟩ := checkBetween_clock due s
  refine ⟨?_, tape⟩
  change max (checkBetween s.time due s).time due = max s.time due
  rcases time with h | ⟨h, k⟩
  · rw [h]
  · rw [Nat.max_eq_right k, Nat.max_eq_right (h.trans k)]

/-- Without an engine that presents frames, only the time goes on. -/
theorem advanceTime_idle {due : Nat} (h : s.lock = none ∨ s.present.source = none) : advanceTime due s = { s with time := max s.time due } := by
  have idle : checkBetween s.time due s = s := by
    unfold checkBetween
    split
    · rename_i hl hf
      rcases h with h | h
      · exact absurd (h.symm.trans hl) (by simp)
      · exact absurd (h.symm.trans hf) (by simp)
    · rfl
  rw [advanceTime, passTime, idle]

theorem turn_scheduled {x : Slot} {rest : List Slot} (h : s.tape = x :: rest) :
    turn s = takeSlot x.what (advanceTime x.due { s with tape := rest }) := by rw [turn, h]

theorem nextTurns : Claims.nextTurns := by
  intro s due rest
  obtain ⟨time, tape⟩ := advanceTime_clock due { s with tape := rest }
  refine ⟨fun i h hi => ?_, fun uid h => ?_, fun uid n lane h => ?_, fun m win off bs h => ?_, time, tape, fun h => ?_⟩
  · exact step_of_turn ((turn_scheduled h).trans (if_pos hi))
  · exact step_of_turn (turn_scheduled h)
  · exact step_of_turn (turn_scheduled h)
  · exact step_of_turn (turn_scheduled h)
  · exact advanceTime_idle (s := { s with tape := rest }) h

/-! What every step ends with -/

theorem checkLate_intime {from_ : Nat} (h : s.time ≤ from_) : checkLate from_ s = s := if_pos h

theorem nextFetch_eq (s : State) : nextFetch s = { s with free := (nextFetch s).free } := by
  unfold nextFetch
  split_ifs <;> rfl

theorem skipTime_same (before : State) (d time : Nat) (c : Context) : { skipTime before d time c with lastProgress := 0 } = { c with lastProgress := 0 } := by
  unfold skipTime
  split
  · split_ifs <;> rfl
  · rfl

theorem noteExcused_eq (before s : State) : noteExcused before s = { s with ctxs := (noteExcused before s).ctxs } := by
  unfold noteExcused
  split_ifs <;> rfl

theorem noteExcused_ctxs (before s : State) :
    (noteExcused before s).ctxs.map (fun c => { c with lastProgress := 0 }) = s.ctxs.map fun c => { c with lastProgress := 0 } := by
  unfold noteExcused
  split_ifs
  · rfl
  · rw [List.map_map]
    exact List.map_congr_left fun c _ => skipTime_same ..

variable {run : Instr → State → Host.Outcome State Fault Refusal}

/-- A group whose stall has ended is noted as issuable; nothing else of it changes (R265). -/
theorem groupReady_only (before after : State) (g : Group) :
    { groupReady run before after g with stall := .none, ready := 0 } = { g with stall := .none, ready := 0 }
    ∧ ((groupReady run before after g).stall = g.stall ∨ (groupReady run before after g).stall = .none) := by
  unfold groupReady
  split_ifs
  · exact ⟨rfl, .inl rfl⟩
  · exact ⟨rfl, .inr rfl⟩
  · exact ⟨rfl, .inl rfl⟩
  · exact ⟨rfl, .inl rfl⟩
  · exact ⟨rfl, .inl rfl⟩

/-- The state at the end of a step, before the groups are noted. -/
def counted (before s : State) : State := noteExcused before (nextFetch s)

theorem counted_eq (before s : State) : counted before s = { s with ctxs := (counted before s).ctxs, free := (nextFetch s).free } :=
  (noteExcused_eq before (nextFetch s)).trans (congrArg (fun u => { u with ctxs := (counted before s).ctxs }) (nextFetch_eq s))

theorem counted_ctxs (before s : State) :
    (counted before s).ctxs.map (fun c => { c with lastProgress := 0 }) = s.ctxs.map fun c => { c with lastProgress := 0 } := by
  rw [counted, noteExcused_ctxs, nextFetch_eq]

theorem counted_sameTime {before s : State} (h : s.time = before.time) : (counted before s).ctxs = s.ctxs := by
  have time : (nextFetch s).time ≤ before.time := by rw [nextFetch_eq, ← h]
  rw [counted, noteExcused, if_pos time, nextFetch_eq]

theorem nextFetch_free (h : s.old = []) : (nextFetch s).free = s.free := by rw [nextFetch, h]; rfl

/-- What the noting of the groups leaves of a state. -/
theorem mapGroups_parts {u : State} {C : List Context} {N : Nat} (f : Group → Group) (hu : u = { s with ctxs := C, free := N }) :
    mapGroups f u = { s with grp := f s.grp, groups := s.groups.map f, ctxs := C, free := N } := by rw [hu, mapGroups]

theorem stepDone_intime {before after : State} (h : after.time ≤ max before.time ((before.tape.head?.map fun x => x.due).getD 0)) :
    stepDone before after = { after with
      grp := groupReady exec before (counted before after) after.grp
      groups := after.groups.map (groupReady exec before (counted before after))
      ctxs := (counted before after).ctxs
      free := (nextFetch after).free } := by
  rw [stepDone, checkLate_intime h]
  exact mapGroups_parts _ (counted_eq before after)

theorem stepEnds : Claims.stepEnds := by
  intro before after t bare intime
  have done : t = _ := stepDone_intime intime
  have only := groupReady_only (run := exec) before (counted before after)
  rw [done]
  refine ⟨rfl, (only _).1, ?_, counted_ctxs before after, counted_sameTime, nextFetch_free, (only _).2, fun h => if_pos h⟩
  rw [List.map_map]
  exact List.map_congr_left fun g _ => (only g).1

end

end Sys2Proof.Machine

/-! ### O42: whose turn it is -/

namespace Sys2Proof.Machine

section

variable {s t : State} {g h : Group}

theorem findGroup_updGroup {f : Group → Group} (hf : ∀ g, (f g).uid = g.uid) (uid u : Nat) (s : State) :
    findGroup u (updGroup uid f s) = (findGroup u s).map fun g => if g.uid = uid then f g else g := by
  have kept : ∀ g : Group, (if g.uid = uid then f g else g).uid = g.uid := fun g => by split <;> simp [hf]
  unfold findGroup updGroup
  by_cases loaded : s.grp.uid = uid
  · rw [if_pos loaded]
    simp only [hf]
    by_cases here : s.grp.uid = u
    · rw [if_pos here, if_pos here, Option.map_some, if_pos loaded]
    · rw [if_neg here, if_neg here]
      cases hx : s.groups.find? fun g => decide (g.uid = u) with
      | none => rfl
      | some x =>
        have hu : x.uid = u := by simpa using List.find?_some hx
        rw [Option.map_some, if_neg fun hxu => here (loaded.trans (hxu.symm.trans hu))]
  · rw [if_neg loaded]
    by_cases here : s.grp.uid = u
    · rw [if_pos here, if_pos here, Option.map_some, if_neg loaded]
    · rw [if_neg here, if_neg here]
      exact find?_map_id (fun g : Group => g.uid) kept u s.groups

theorem findGroup_updGroup_self {f : Group → Group} {u : Nat} (hf : ∀ g, (f g).uid = g.uid) (h : findGroup u s = some g) :
    findGroup u (updGroup u f s) = some (f g) := by rw [findGroup_updGroup hf, h, Option.map_some, if_pos (findGroup_uid h).2]

theorem findGroup_updGroup_other {f : Group → Group} {uid u : Nat} (hf : ∀ g, (f g).uid = g.uid) (hne : uid ≠ u) (s : State) :
    findGroup u (updGroup uid f s) = findGroup u s := by
  rw [findGroup_updGroup hf]
  cases h : findGroup u s with
  | none => rfl
  | some g => rw [Option.map_some, if_neg fun hg => hne (hg.symm.trans (findGroup_uid h).2)]

/-- The better of the first so far and a group, by the quarter's order. -/
def better (s : State) (b : Option Group) (g : Group) : Option Group := match b with
  | none => some g
  | some h => if goesFirst s g h then some g else some h

theorem firstGroup_eq (s : State) (gs : List Group) : firstGroup s gs = gs.foldl (better s) none := rfl

theorem better_cases (s : State) (b : Option Group) (g : Group) : better s b g = some g ∨ ∃ h, b = some h ∧ better s b g = some h := by
  cases b with
  | none => exact .inl rfl
  | some h =>
    unfold better
    dsimp only
    split_ifs
    · exact .inl rfl
    · exact .inr ⟨h, rfl, rfl⟩

theorem better_foldl (s : State) (gs : List Group) (b : Option Group) :
    gs.foldl (better s) b = b ∨ ∃ g ∈ gs, gs.foldl (better s) b = some g := by
  induction gs generalizing b with
  | nil => exact .inl rfl
  | cons g gs ih =>
    rcases ih (better s b g) with h | ⟨x, hx, h⟩
    · rcases better_cases s b g with k | ⟨y, hb, k⟩
      · exact .inr ⟨g, List.mem_cons_self, h.trans k⟩
      · exact .inl (h.trans (k.trans hb.symm))
    · exact .inr ⟨x, List.mem_cons_of_mem _ hx, h⟩

theorem mem_of_firstGroup {gs : List Group} (h : firstGroup s gs = some g) : g ∈ gs := by
  rw [firstGroup_eq] at h
  rcases better_foldl s gs none with k | ⟨x, hx, k⟩
  · exact absurd (k.symm.trans h) (by simp)
  · obtain rfl : x = g := Option.some.inj (k.symm.trans h)
    exact hx

theorem goesFirst_iff (s : State) (g h : Group) : goesFirst s g h = true ↔
    (overdue s g = true ∧ ¬overdue s h = true) ∨ (overdue s g = true ∧ overdue s h = true ∧ olderThan g h = true)
    ∨ (¬overdue s g = true ∧ ¬overdue s h = true ∧ (h.prio < g.prio ∨ (g.prio = h.prio ∧ olderThan g h = true))) := by
  unfold goesFirst
  cases overdue s g <;> cases overdue s h <;> simp

theorem olderThan_iff (g h : Group) : olderThan g h = true ↔
    g.placed < h.placed ∨ (g.placed = h.placed ∧ (g.gidx < h.gidx ∨ (g.gidx = h.gidx ∧ g.slot < h.slot))) := by simp [olderThan]

theorem overdue_iff (s : State) (g : Group) : overdue s g = true ↔ g.ready + (1024 * 1000 + s.clockMhz - 1) / s.clockMhz ≤ s.time := by
  simp [overdue, starveNs]

/-- The lanes that have joined an issue, with those of two groups. -/
theorem joinedLanes (l : List (Nat × Nat)) (n : Nat) : l.foldl (fun n x => n + x.2) n = (l.map fun x => x.2).sum + n := by
  induction l generalizing n with
  | nil => simp
  | cons x l ih =>
    rw [List.foldl_cons, ih, List.map_cons, List.sum_cons]
    omega

theorem packs_spec (hp : packs s g h = true) : g.ctx = h.ctx ∧ g.code = h.code ∧ (h.joined.map fun x => x.2).sum + g.width + h.width ≤ 64
    ∧ (∀ x ∈ h.joined, x.1 ≠ g.uid) ∧ ∃ a b, nextEntry s g = some a ∧ nextEntry s h = some b ∧ a.pc = b.pc := by
  simp only [packs, Bool.and_eq_true, decide_eq_true_eq, Bool.not_eq_true', joinedLanes, List.any_eq_false] at hp
  obtain ⟨⟨⟨⟨⟨ctx, code⟩, -⟩, lanes⟩, once⟩, entries⟩ := hp
  refine ⟨ctx, code, by omega, once, ?_⟩
  cases ha : nextEntry s g with
  | none => simp [ha] at entries
  | some a =>
    cases hb : nextEntry s h with
    | none => simp [ha, hb] at entries
    | some b =>
      simp only [ha, hb, Bool.and_eq_true, decide_eq_true_eq] at entries
      exact ⟨a, b, rfl, rfl, entries.1⟩

/-- The groups that the quarter of a group may choose before it: those of its quarter that go first and would issue (R265). -/
def isRival (run : Instr → State → Host.Outcome State Fault Refusal) (s : State) (g x : Group) : Prop :=
  x ∈ allGroups s ∧ x.uid ≠ g.uid ∧ x.core = g.core ∧ x.slot / 64 = g.slot / 64
  ∧ goesFirst s x g = true ∧ issuableGroup s x = true ∧ wouldIssue run s x.uid = true

variable {run : Instr → State → Host.Outcome State Fault Refusal}

theorem mem_rivals (x : Group) : x ∈ ((allGroups s).filter fun h =>
    decide (h.uid ≠ g.uid) && sameQuarter g h && goesFirst s h g && readyNow run s h) ↔ isRival run s g x := by
  simp only [List.mem_filter, sameQuarter, readyNow, Bool.and_eq_true, decide_eq_true_eq, isRival, and_assoc, eq_comm (a := g.core),
    eq_comm (a := g.slot / 64)]

theorem isRival_of_chosenBefore (hc : chosenBefore run s g = some h) : isRival run s g h := (mem_rivals h).1 (mem_of_firstGroup hc)

theorem chosenBefore_none (h : ∀ x, ¬isRival run s g x) : chosenBefore run s g = none := by
  cases hx : chosenBefore run s g with
  | none => rfl
  | some x => exact absurd (isRival_of_chosenBefore hx) (h x)

theorem passedOver_vector (hk : s.grp.kind = .vector) : passedOver run s = true ↔ ∃ x, chosenBefore run s s.grp = some x ∧ packs s s.grp x = false := by
  simp only [passedOver, hk]
  cases chosenBefore run s s.grp <;> simp

theorem passedOver_bobbin (hk : s.grp.kind = .bobbin) : passedOver run s = true ↔ ∃ x ∈ s.groups, x.kind = .bobbin ∧ x.core / 4 = s.grp.core / 4
    ∧ bobOrder s x < bobOrder s s.grp ∧ mayIssue s x = true ∧ wouldIssue run s x.uid = true := by
  simp only [passedOver, hk, List.any_eq_true, Bool.and_eq_true, decide_eq_true_eq, and_assoc]

/-- The chosen group takes note of a group that has issued beside it (R25). -/
theorem noteJoin_joins {k : Group} (hk : s.grp.kind = .vector) (hc : chosenBefore run s s.grp = some h) (hu : h.uid ≠ s.grp.uid)
    (ht : findGroup h.uid t = some k) (free : ∀ x, findGroup s.grp.uid t = some x → x.stall = .none) :
    findGroup h.uid (noteJoin run s t) = some { k with joined := k.joined ++ [(s.grp.uid, s.grp.width)] } := by
  have issued : ((findGroup s.grp.uid t).map fun x => decide (x.stall ≠ .none)).getD false = false := by
    cases hx : findGroup s.grp.uid t with
    | none => rfl
    | some x => simp [free x hx]
  simp only [noteJoin, hk, issued, hc]
  rw [if_neg (by decide)]
  refine findGroup_updGroup_self (fun _ => rfl) ((findGroup_updGroup_other ?_ hu.symm t).trans ht)
  exact fun _ => rfl

theorem step_passedOver (hp : passedOver exec s = true) (ht : s.tape = []) : step s = .next (stepDone s s) := by
  have slot : turn s = .next s := by rw [turn, ht]; exact if_pos hp
  exact step_of_turn slot

theorem slotsAreChosen : Claims.slotsAreChosen := by
  intro s g h
  refine ⟨packs_spec, fun t k hk hc hu ht free => noteJoin_joins hk hc hu ht free, step_passedOver, ?_, fun hk hp => ?_, fun hk hn => ?_, passedOver_bobbin⟩
  · rw [goesFirst_iff, overdue_iff, overdue_iff, olderThan_iff]
  · obtain ⟨x, hx, hpacks⟩ := (passedOver_vector hk).1 hp
    exact ⟨x, isRival_of_chosenBefore hx, hpacks⟩
  · have none := chosenBefore_none (run := exec) (s := s) (g := s.grp) hn
    exact Bool.eq_false_iff.2 fun hp => by
      obtain ⟨x, hx, -⟩ := (passedOver_vector hk).1 hp
      exact absurd (none.symm.trans hx) (by simp)

end

/-- Settles O42, claim by claim: the fetch and the bytes of a changed word, the turn and its time, the end of a step, the choice of the quarter. -/
theorem turnsAndFetchesFollowTheSpec : Obligations.TurnsAndFetchesFollowTheSpec := ⟨⟨codeFetch, changedCode⟩, nextTurns, stepEnds, slotsAreChosen⟩

end Sys2Proof.Machine

/-! ### Decoding and encoding (R54 to R60) -/

namespace Sys2Proof.Laws.RoundTrip

/-- Settles O56: one lemma for each constructor, in the order of the opcode table, is a case of the recursor of `Instr`. -/
theorem decodingInvertsEncoding : Obligations.DecodingInvertsEncoding := @Instr.rec Statement
  clauseHeader nop ximm ximmf xscl xrnd xevc xscp xpart pool fadd fsub fmul fmac fmsb fmin fmax fcps iadd isub imul imulh umulh imac imin imax and or
  xor andn shl shr sar rot hadd2 hmul2 hmac2 badd2 bmul2 bmac2 umin umax dadd dmul dmac dot4 dot8 hdot2 prmt rnd mov fneg fabs frcp frsq fsqrt fexp2
  flog2 fsinp fcosp ftanh frint ffrac fclass cvt qnt dqnt popc clz brev bfind ineg iabs dsqrt drcp iaddi imuli shli shri sari andi ori xori movi
  fsetEq fsetNe fsetLt fsetLe fsetGt fsetGe fsetUn fsetOr isetEq isetNe isetLt isetLe isetGt isetGe usetLt usetLe usetGt usetGe mlog cmov shfl shflXor
  shflUp shflDn shflIdx vote ballot gred mmov mact sadd ssub smul sand sor sxor sshl sshr ssar smin smax saddi smovi smovhi sset vread sldc sldlit
  csrr csrw ld st ldb ldh stb sth ldx stx pref evict bload bset aadd amin amax aumin aumax aand aor axor axchg acas afadd copy sealBatch waitb fence
  append bra brm brmn brs brsz call ret jmpi calli lpad split join drop bar exit trap enter leave spawn chwait yield cclr lobe lmix layer lscl frame
  samp eval pdf csave cload trace tracep visq pslot pfree qpush regrp tfeed tdrain trel mma mmaPair mguid mzero mcvt mwait ctab tlbw tlbi hret hretEnd
  bkpt snap hostTailWrite launchAdmit tailorRun workgroupPlace groupFormTimeout varLatencyComplete rayWalkComplete visqComplete copyComplete
  patternTableEnter patternEntryIssue patternEntryComplete storePerformAtHome l1WriteBack leaseExpiry fenceReleaseComplete appendGrant groupRetire
  completionRecordWrite workgroupSaveOut workgroupRestore taskCommit issueStarvation frontierAgeLimit tlbMissWalk pageReportWrite handlerStart preempt
  contextMakeResident hangWatchdog eccCorrectable eccUncorrectable deviceStart firmwareReadyTimeout peerLeaveAnnounce peerSilenceTimeout peerJoin
  timeJoinComplete presentCheck presentInstant hostCxlMemWrite hostCxlMemRead sampleRecord mbevtWrite mailboxRegisterWrite mailboxUnknown ctxCreate
  ctxDestroy map hemResume unmap faultRing queueSetup queueClose poolSetup queueReset traceArm traceStatus peerExport peerImport framelock frameSource
  frameStatus attest pocketRead dbgAttach dbgDetach dbgHalt dbgResume dbgBreak dbgWatch dbgRead dbgWrite dbgSample dbgEvents ctxPreempt ctxRestore
  unitMap illegalEncoding fetchFault cxlCacheSnoop peerAccess ideStreamSetup partitionChange thermalClockLimit

theorem decodeWord_of_encode {i : Instr} {w : BitVec 32} (hwf : i.wf = true) (hw : encode i = some w) : decodeWord w = .ok i :=
  decodingInvertsEncoding i hwf w hw

/-- Settles O60: each word is the encoding of the well-formed instruction beside it. -/
theorem specWordsDecode : Obligations.SpecWordsDecode := by
  unfold Obligations.SpecWordsDecode
  and_intros
  all_goals exact decodeWord_of_encode rfl rfl

/-! A layout is read back from the bits of a number. -/

/-- The fields of a layout that starts at bit `lo` are the bits of a number. -/
@[simp] def Reads (n : Nat) : Nat → Layout → Prop
  | _, [] => True
  | lo, ⟨k, v⟩ :: fs => bitsAt n lo k = v.toNat ∧ Reads n (lo + k) fs

theorem bitsAt_add (n lo k w : Nat) : bitsAt n lo (k + w) = bitsAt n lo k + 2 ^ k * bitsAt n (lo + k) w := by
  simp only [bitsAt, Nat.pow_add, ← Nat.div_div_eq_div_mul, Nat.mod_mul]

/-- The number of a layout is the run of bits that it reads. -/
theorem layoutNat_of_reads {n lo : Nat} {l : Layout} (h : Reads n lo l) : layoutNat l = bitsAt n lo (width l) := by
  induction l generalizing lo with
  | nil => simp [layoutNat, width, bitsAt, Nat.mod_one]
  | cons f fs ih =>
    obtain ⟨k, v⟩ := f
    obtain ⟨head, tail⟩ := h
    rw [layoutNat, width, bitsAt_add, ih tail, head]

@[simp] theorem toNat_field (n lo len : Nat) : (field n lo len).toNat = bitsAt n lo len := by simp [field, bitsAt]

@[simp] theorem bitsAre_iff (n lo len v : Nat) : bitsAre n lo len v = true ↔ bitsAt n lo len = v := by simp [bitsAre]

/-- A bit that is not 0 is 1. -/
theorem bitsAt_one {n lo : Nat} (h : ¬bitsAre n lo 1 0 = true) : bitsAt n lo 1 = 1 :=
  (Nat.mod_two_eq_zero_or_one _).resolve_left fun zero => h ((bitsAre_iff _ _ _ _).2 zero)

/-- A number means a well-formed instruction whose word's fields are its bits. -/
structure Means (n : Nat) (i : Instr) : Prop where
  wf : i.wf = true
  fields : ∃ l, layout i = some l ∧ width l = 32 ∧ Reads n 0 l

theorem Means.encode_eq {w : BitVec 32} {i : Instr} (h : Means w.toNat i) : encode i = some w := by
  obtain ⟨-, l, hl, hw, hr⟩ := h
  have whole : layoutNat l = w.toNat := by
    rw [layoutNat_of_reads hr, hw]
    simp only [bitsAt, Nat.pow_zero, Nat.div_one, Nat.mod_eq_of_lt w.isLt]
  simp [encode, hl, whole]

/-- Whatever instruction a table answers for a number, the number means it. -/
def Sound (n : Nat) (r : Except Reject Instr) : Prop := ∀ i, r = .ok i → Means n i

theorem sound_error (n : Nat) (e : Reject) : Sound n (.error e) := nofun

/-- A row of a table is sound when the bits of the number, its reserved ones being zero, are the fields of the row's instruction. -/
theorem sound_accept {n : Nat} {zero : Bool} {i : Instr} {l : Layout} (hl : layout i = some l) (hw : width l = 32)
    (hr : zero = true → Reads n 0 l) : Sound n (accept zero i) := by
  intro j h
  unfold accept at h
  split_ifs at h with hz hi
  obtain rfl : i = j := Except.ok.inj h
  exact ⟨hi, l, hl, hw, hr hz⟩

theorem sound_if {n : Nat} {c : Bool} {r : Except Reject Instr} {e : Reject} (h : c = true → Sound n r) :
    Sound n (if c then r else .error e) := by
  split_ifs with hc
  · exact h hc
  · exact sound_error n e

/-! The tables of the classes. In each row the class, the opcode and the reserved zeros give the bits that are no operand. -/

section

variable {n : Nat}

theorem decodeClass0_sound (hc : bitsAt n 28 4 = 0) : Sound n (decodeClass0 n) :=
  sound_if fun bt => sound_accept rfl rfl fun _ => by simp_all

theorem decodeClass1_sound (hc : bitsAt n 28 4 = 1) : Sound n (decodeClass1 n) := by
  refine sound_if fun bt => ?_
  split
  case h_9 => exact sound_error n _
  all_goals exact sound_accept rfl rfl fun zero => by simp_all

theorem decodeClass2_sound (hc : bitsAt n 28 4 = 2) : Sound n (decodeClass2 n) := by
  unfold decodeClass2
  split
  case h_9 => exact sound_error n _
  all_goals exact sound_accept rfl rfl fun zero => by simp_all

theorem decodeClass3_sound (hc : bitsAt n 28 4 = 3) : Sound n (decodeClass3 n) := by
  unfold decodeClass3
  split
  case h_9 => exact sound_error n _
  all_goals exact sound_accept rfl rfl fun zero => by simp_all

theorem decodeClass4_sound (hc : bitsAt n 28 4 = 4) : Sound n (decodeClass4 n) := by
  unfold decodeClass4
  split
  case h_9 => exact sound_error n _
  all_goals exact sound_accept rfl rfl fun zero => by simp_all

theorem decodeClass5_sound (hc : bitsAt n 28 4 = 5) : Sound n (decodeClass5 n) := by
  unfold decodeClass5
  split
  case h_9 => exact sound_error n _
  all_goals exact sound_accept rfl rfl fun zero => by simp_all

theorem decodeClass6_sound (hc : bitsAt n 28 4 = 6) : Sound n (decodeClass6 n) := by
  unfold decodeClass6
  split
  case h_9 => exact sound_error n _
  all_goals exact sound_accept rfl rfl fun zero => by simp_all

theorem decodeClass7_sound (hc : bitsAt n 28 4 = 7) : Sound n (decodeClass7 n) := by
  unfold decodeClass7
  split
  case h_26 => exact sound_error n _
  all_goals exact sound_accept rfl rfl fun zero => by simp_all

theorem decodeClass8_sound (hc : bitsAt n 28 4 = 8) : Sound n (decodeClass8 n) := by
  unfold decodeClass8
  split
  case h_10 => exact sound_error n _
  case h_9 op => exact sound_if fun source => sound_accept rfl rfl fun _ => by simp_all
  all_goals exact sound_accept rfl rfl fun zero => by simp_all

theorem decodeClass9_sound (hc : bitsAt n 28 4 = 9) : Sound n (decodeClass9 n) := by
  unfold decodeClass9
  split
  case h_31 => exact sound_error n _
  all_goals exact sound_accept rfl rfl fun zero => by simp_all

theorem decodeClass10_sound (hc : bitsAt n 28 4 = 10) : Sound n (decodeClass10 n) := by
  unfold decodeClass10
  split
  case h_21 => exact sound_error n _
  all_goals exact sound_accept rfl rfl fun zero => by simp_all

theorem decodeClass11_sound (hc : bitsAt n 28 4 = 11) : Sound n (decodeClass11 n) := by
  unfold decodeClass11
  split
  case h_13 => exact sound_error n _
  all_goals exact sound_accept rfl rfl fun zero => by simp_all

theorem decodeClass12_sound (hc : bitsAt n 28 4 = 12) : Sound n (decodeClass12 n) := by
  unfold decodeClass12
  split
  case h_17 => exact sound_error n _
  all_goals exact sound_accept rfl rfl fun zero => by simp_all

theorem decodeClass13_sound (hc : bitsAt n 28 4 = 13) : Sound n (decodeClass13 n) := by
  unfold decodeClass13
  split
  case h_22 => exact sound_error n _
  all_goals exact sound_accept rfl rfl fun zero => by simp_all

theorem decodeClass14_sound (hc : bitsAt n 28 4 = 14) : Sound n (decodeClass14 n) :=
  sound_if fun bt => sound_accept rfl rfl fun zero => by simp_all

/-- Two rows of class 15 hold two instructions each, told apart by one bit: `MMA` without and with `.pair`, `HRET` without and with `.end`. -/
theorem decodeClass15_sound (hc : bitsAt n 28 4 = 15) : Sound n (decodeClass15 n) := by
  unfold decodeClass15
  split
  case h_33 => exact sound_error n _
  case h_22 op =>
    split
    · exact sound_accept rfl rfl fun zero => by simp_all
    · have pair := bitsAt_one ‹_›
      exact sound_accept rfl rfl fun zero => by simp_all
  case h_30 op =>
    refine sound_if fun act => ?_
    split
    · exact sound_accept rfl rfl fun zero => by simp_all
    · have ends := bitsAt_one ‹_›
      exact sound_accept rfl rfl fun zero => by simp_all
  all_goals exact sound_accept rfl rfl fun zero => by simp_all

theorem decodeNat_sound (n : Nat) : Sound n (decodeNat n) := by
  unfold decodeNat
  split
  case h_1 hc => exact decodeClass0_sound hc
  case h_2 hc => exact decodeClass1_sound hc
  case h_3 hc => exact decodeClass2_sound hc
  case h_4 hc => exact decodeClass3_sound hc
  case h_5 hc => exact decodeClass4_sound hc
  case h_6 hc => exact decodeClass5_sound hc
  case h_7 hc => exact decodeClass6_sound hc
  case h_8 hc => exact decodeClass7_sound hc
  case h_9 hc => exact decodeClass8_sound hc
  case h_10 hc => exact decodeClass9_sound hc
  case h_11 hc => exact decodeClass10_sound hc
  case h_12 hc => exact decodeClass11_sound hc
  case h_13 hc => exact decodeClass12_sound hc
  case h_14 hc => exact decodeClass13_sound hc
  case h_15 hc => exact decodeClass14_sound hc
  case h_16 hc => exact decodeClass15_sound hc
  case h_17 => exact sound_error n _

end

/-- Settles O57: every table is sound, and an instruction that a word means is encoded by that word. -/
theorem everyAcceptedWordIsItsEncoding : Obligations.EveryAcceptedWordIsItsEncoding := by
  intro w i h
  have means := decodeNat_sound w.toNat i h
  exact ⟨means.wf, means.encode_eq⟩

end Sys2Proof.Laws.RoundTrip

/-! ### O34: a handler with the number of no issuer -/

namespace Sys2Proof.Machine

section

/-- A line in the L1 of core 0 with a dirty byte of a thread of issuer 0. -/
def ownedLine : CLine := { lvl := 1, unit := 0, line := 0, dirty := [(0, 1)], owners := [(0, 0)] }

/-- A load of that line at system scope, still to be performed. -/
def systemLoad : VarOp :=
  { flag := 0, writes := [], loads := [{ place := .mem, lane := 0, addr := 0, size := 4, scope := 3, evc := 0, reg := .v 0 }] }

/-- A handler stands before `HRET`. Its number is 0, which no issuer that the device starts has, and which an emptied issuer place takes. The
group that it serves has the load in flight and is to halt for the debugger when it resumes (R330). -/
def zeroHandler : State :=
  { time := 1, caches := [ownedLine]
    grp := { kind := .handler, serves := 1, code := { features := 1 }
             act := some { pc := 4, mask := 1, pos := some { hdr := 0, len := 1, issued := 0, seta := 15, setb := 15, pri := 0 } } }
    groups := [{ uid := 1, stop := .trapped, haltReq := true, ops := [systemLoad] }] }

/-- The issuer that stands loaded after an outcome. -/
def loadedIssuer (o : Host.Outcome State Fault Refusal) : Option Group := match o with
  | .next u => some u.grp
  | _ => none

theorem zeroHandler_ready : ready (privNeed []) zeroHandler := by unfold ready; decide

/-- The halt performs the load (R320), which writes the line back first, and the store's GWCT goes to the owner of the byte (R219): the empty
issuer in the handler's place. -/
theorem zeroHandler_leaves : loadedIssuer (exec (.hret 0) zeroHandler) = some { gwct := [(0, 1)] } := by decide +kernel

theorem not_returnWords : ¬ Sys2Proof.Claims.returnWords := by
  intro h
  obtain ⟨handlerReturns, -⟩ := h zeroHandler 0
  obtain ⟨u, hu, gone, -⟩ := handlerReturns zeroHandler_ready rfl
  have left := zeroHandler_leaves
  rw [hu] at left
  obtain hg : u.grp = { gwct := [(0, 1)] } := Option.some.inj left
  have empty := gone u.grp List.mem_cons_self
  rw [hg] at empty
  exact absurd empty (by decide)

end

/-- Refutes O34: the claim of `HRET` has every issuer that bears the handler's number afterwards be the empty one, and does not ask for that
number to be other than 0. A handler of number 0 leaves the empty issuer, which has that number, with the GWCT of a store that its group's halt
performs. -/
theorem not_privilegedWordsComplete : ¬ Obligations.PrivilegedWordsComplete := fun ⟨_, returns⟩ => not_returnWords returns

end Sys2Proof.Machine

/-! ### Rounding once (R71, R73) -/

namespace Sys2Proof.Machine

section

/-- The spacing of the codes about m · 2^e, as a power of two: that of its binade, or that of the subnormals. -/
def spacing (f : Fmt) (m : Nat) (e : ℤ) : ℤ := max ((Nat.log2 m : ℤ) + e) (1 - (f.bias : ℤ)) - f.mb

/-- The binade of m · 2^e, counted from the subnormals. -/
def binade (f : Fmt) (m : Nat) (e : ℤ) : Nat := (spacing f m e + f.mb + f.bias - 1).toNat

theorem binade_cast (f : Fmt) (m : Nat) (e : ℤ) : (binade f m e : ℤ) + 1 - f.bias - f.mb = spacing f m e := by
  unfold binade spacing
  omega

/-- Within a binade and at its end, the codes are the multiples of its spacing. -/
theorem codeValue_multiple {f : Fmt} {b n : Nat} (low : b = 0 ∨ 2 ^ f.mb ≤ n) (high : n ≤ 2 ^ (f.mb + 1)) :
    codeValue f (b * 2 ^ f.mb + n) = n * 2 ^ ((b : ℤ) + 1 - f.bias - f.mb) := by
  have pos : 0 < 2 ^ f.mb := Nat.two_pow_pos _
  rw [Nat.pow_succ] at high
  unfold codeValue
  rw [Nat.mul_comm b, Nat.mul_add_div pos, Nat.mul_add_mod]
  rcases Nat.lt_or_ge n (2 ^ f.mb) with sub | norm
  · obtain rfl : b = 0 := low.resolve_right (by omega)
    simp [Nat.div_eq_of_lt sub]
  · rcases Nat.lt_or_ge n (2 ^ f.mb * 2) with inside | last
    · have quot : n / 2 ^ f.mb = 1 := Nat.div_eq_of_lt_le (by omega) (by omega)
      have rest : 2 ^ f.mb + n % 2 ^ f.mb = n := by
        have := Nat.div_add_mod n (2 ^ f.mb)
        rw [quot] at this
        omega
      rw [quot, if_neg (by omega)]
      have same : ((b + 1 : ℕ) : ℤ) - f.bias - f.mb = (b : ℤ) + 1 - f.bias - f.mb := by push_cast; ring
      rw [same]
      exact congrArg (· * _) (by exact_mod_cast rest)
    · obtain rfl : n = 2 ^ f.mb * 2 := by omega
      rw [Nat.mul_div_cancel_left _ pos, Nat.mul_mod_right, if_neg (by omega)]
      have next : ((b + 2 : ℕ) : ℤ) - f.bias - f.mb = ((b : ℤ) + 1 - f.bias - f.mb) + 1 := by push_cast; ring
      rw [next, zpow_add_one₀ (by norm_num)]
      push_cast
      ring

/-- The significand m, moved to the spacing of its binade, has the bits of the format. -/
theorem significand_bounds (f : Fmt) (m : Nat) (e : ℤ) :
    (binade f m e = 0 ∨ (Nat.log2 m : ℤ) + e - spacing f m e = f.mb) ∧ (Nat.log2 m : ℤ) + e - spacing f m e ≤ f.mb := by
  unfold binade spacing
  omega

theorem log2_bounds {m : Nat} (hm : 0 < m) : 2 ^ Nat.log2 m ≤ m ∧ m < 2 ^ (Nat.log2 m + 1) :=
  ⟨Nat.log2_self_le (by omega), Nat.lt_log2_self⟩

/-- A significand that need not be cut. -/
theorem roundMag_of_exact {f : Fmt} {c : Ctl} {sg sticky : Bool} {m : Nat} {e : ℤ} (hm : 0 < m) (h : spacing f m e - e ≤ 0) :
    f.roundMag c sg m e sticky = binade f m e * 2 ^ f.mb + m * 2 ^ (-(spacing f m e - e)).toNat := by
  unfold Fmt.roundMag
  rw [if_neg (by omega)]
  exact if_pos h

/-- A significand that is cut: the multiple of the spacing below it, or the next one. -/
theorem roundMag_of_cut {f : Fmt} {c : Ctl} {sg sticky : Bool} {m : Nat} {e : ℤ} (hm : 0 < m) (h : 0 < spacing f m e - e) :
    f.roundMag c sg m e sticky = binade f m e * 2 ^ f.mb + m / 2 ^ (spacing f m e - e).toNat
      + if roundsUp c sg (decide (m / 2 ^ (spacing f m e - e).toNat % 2 = 1)) (m % 2 ^ (spacing f m e - e).toNat) (2 ^ (spacing f m e - e).toNat) sticky
        then 1 else 0 := by
  unfold Fmt.roundMag
  rw [if_neg (by omega)]
  exact if_neg (not_le.2 h)

theorem roundsUp_exact (c : Ctl) (sg odd : Bool) (den : Nat) : roundsUp c sg odd 0 den false = false := by simp [roundsUp]

section

variable {c : Ctl} {sg sticky : Bool} {a b x u part : ℝ} {den rem k : Nat}

/-- A magnitude `x` between two neighbours lies `rem` of `den` steps of the size `u` above the lower one, and a part of a step more if `sticky`. -/
structure Between (a b x u part : ℝ) (den rem : Nat) (sticky : Bool) : Prop where
  step : 0 < u
  rem_le : rem ≤ den
  even : den % 2 = 0
  below : x - a = (rem + part) * u
  above : b - x = (den - (rem + part)) * u
  part_nonneg : 0 ≤ part
  part_lt : part < 1
  sticky_iff : sticky = true ↔ 0 < part

theorem Between.lt_iff (h : Between a b x u part den rem sticky) : x - a < b - x ↔ 2 * rem < den := by
  have even := h.even
  rw [h.below, h.above, mul_lt_mul_iff_left₀ h.step]
  constructor
  · intro hl
    have : (2 * rem : ℝ) < den := by linarith [h.part_nonneg]
    exact_mod_cast this
  · intro hl
    have : (2 * rem + 2 : ℝ) ≤ den := by exact_mod_cast (by omega : 2 * rem + 2 ≤ den)
    linarith [h.part_lt]

theorem Between.eq_iff (h : Between a b x u part den rem sticky) : x - a = b - x ↔ 2 * rem = den ∧ sticky = false := by
  have even := h.even
  rw [h.below, h.above, mul_left_inj' h.step.ne']
  constructor
  · intro he
    have low : (2 * rem : ℝ) ≤ den := by linarith [h.part_nonneg]
    have high : (den : ℝ) < 2 * rem + 2 := by linarith [h.part_lt]
    have tie : 2 * rem = den := by
      have := (by exact_mod_cast low : 2 * rem ≤ den)
      have := (by exact_mod_cast high : den < 2 * rem + 2)
      omega
    have real : (2 * rem : ℝ) = den := by exact_mod_cast tie
    refine ⟨tie, Bool.eq_false_iff.2 fun hs => ?_⟩
    linarith [h.sticky_iff.1 hs]
  · rintro ⟨tie, hs⟩
    have real : (2 * rem : ℝ) = den := by exact_mod_cast tie
    have none : part = 0 := le_antisymm (not_lt.1 fun hp => by simp [h.sticky_iff.2 hp] at hs) h.part_nonneg
    rw [none]
    linarith

theorem Between.gt_iff (h : Between a b x u part den rem sticky) : b - x < x - a ↔ den < 2 * rem ∨ 2 * rem = den ∧ sticky = true := by
  rw [← not_le, le_iff_lt_or_eq, h.lt_iff, h.eq_iff]
  cases sticky <;> simp <;> omega

/-- The choice of `roundsUp` is the one of R71. A part below the last step is known only to be there, which decides every mode but the
stochastic one. -/
theorem Between.chosen (h : Between a b x u part den rem sticky) (nonzero : rem ≠ 0 ∨ sticky = true) (exact : c.mode = 5 → part = 0) :
    Chosen c sg a b x k (k + if roundsUp c sg (decide (k % 2 = 1)) rem den sticky then 1 else 0) := by
  have cut : (decide (rem = 0) && !sticky) = false := by
    rcases nonzero with hr | hs
    · simp [hr]
    · simp [hs]
  have ge : b - x ≤ x - a ↔ den ≤ 2 * rem := by rw [← not_lt, h.lt_iff, not_lt]
  have gap : b - a = den * u := by linarith [h.below, h.above]
  have ratio : ∀ y z q : ℕ, (q : ℝ) * (z * u) < y * u * 2 ^ 32 ↔ q * z < y * 2 ^ 32 := fun y z q => by
    rw [show (y : ℝ) * u * 2 ^ 32 = y * 2 ^ 32 * u by ring, ← mul_assoc, mul_lt_mul_iff_left₀ h.step]
    norm_cast
  unfold roundsUp
  rw [cut]
  refine ⟨fun hm => ?_, fun hm => ?_, fun hm => ?_, fun hm => ?_, fun hm => ?_, fun hm hsg => ?_, fun hm hsg => ?_⟩
  · simp only [hm]
    rw [h.lt_iff, h.gt_iff, h.eq_iff]
    refine ⟨fun hl => ?_, fun hg => ?_, fun he => ?_⟩
    · simp; omega
    · rcases hg with hg | ⟨hg, hs⟩
      · simp [hg]
      · simp [hg, hs]
    · rcases Nat.mod_two_eq_zero_or_one k with hk | hk <;> simp [he.1, he.2, hk]
  · simp [hm]
  · cases sg <;> simp [hm]
  · cases sg <;> simp [hm]
  · simp only [hm]
    rw [h.lt_iff, ge]
    refine ⟨fun hl => ?_, fun hg => ?_⟩
    · simp [hl]
    · simp [hg]
  · obtain rfl := exact hm
    have hs : sticky = false := Bool.eq_false_iff.2 fun hs => lt_irrefl _ (h.sticky_iff.1 hs)
    simp only [hm, hsg, hs]
    rw [h.below, gap, add_zero, gt_iff_lt, ← not_lt, ratio]
    exact ⟨fun hg => by simpa using hg, fun hl => by simpa using hl⟩
  · obtain rfl := exact hm
    have hs : sticky = false := Bool.eq_false_iff.2 fun hs => lt_irrefl _ (h.sticky_iff.1 hs)
    have sub : (den - (rem + 0) : ℝ) = ((den - rem : ℕ) : ℝ) := by push_cast [h.rem_le]; ring
    simp only [hm, hsg, hs]
    rw [h.above, gap, sub, gt_iff_lt, ← not_lt, ratio]
    exact ⟨fun hg => by simpa using hg, fun hl => by simpa using hl⟩

end

section

variable {f : Fmt} {c : Ctl} {sg sticky : Bool} {m : Nat} {e : ℤ} {x part : ℝ}

/-- A magnitude lies `part` of a step above `m` steps of 2^e, and `sticky` says whether it lies above them at all. -/
structure Measured (m : Nat) (e : ℤ) (part : ℝ) (sticky : Bool) (x : ℝ) : Prop where
  eq : x = (m + part) * 2 ^ e
  part_nonneg : 0 ≤ part
  part_lt : part < 1
  sticky_iff : sticky = true ↔ 0 < part

theorem Measured.exact (m : Nat) (e : ℤ) : Measured m e 0 false (m * 2 ^ e) := ⟨by rw [add_zero], le_rfl, one_pos, by simp⟩

theorem Measured.part_eq (h : Measured m e part false x) : part = 0 :=
  le_antisymm (not_lt.1 fun hp => Bool.false_ne_true (h.sticky_iff.2 hp)) h.part_nonneg

/-- What R71 asks of the code that a magnitude rounds to, before SAT, FTZ and overflow. -/
def NearCode (f : Fmt) (c : Ctl) (sg : Bool) (x : ℝ) (n : Nat) : Prop :=
  ∃ k : Nat, (codeValue f k : ℝ) = x ∧ n = k
    ∨ (codeValue f k : ℝ) < x ∧ x < (codeValue f (k + 1) : ℝ) ∧ Chosen c sg (codeValue f k) (codeValue f (k + 1)) x k n

/-- A multiple of the spacing as a real number. -/
theorem codeValue_multiple_real {n : Nat} (low : binade f m e = 0 ∨ 2 ^ f.mb ≤ n) (high : n ≤ 2 ^ (f.mb + 1)) :
    (codeValue f (binade f m e * 2 ^ f.mb + n) : ℝ) = n * 2 ^ spacing f m e := by
  rw [codeValue_multiple low high, binade_cast]
  push_cast
  rfl

theorem roundMag_near_of_exact (hm : 0 < m) (h : spacing f m e - e ≤ 0) (hx : x = m * 2 ^ e) : NearCode f c sg x (f.roundMag c sg m e sticky) := by
  obtain ⟨t, ht⟩ : ∃ t : ℕ, (-(spacing f m e - e)).toNat = t ∧ e = t + spacing f m e := ⟨_, rfl, by omega⟩
  obtain ⟨norm, small⟩ := significand_bounds f m e
  obtain ⟨lo, hi⟩ := log2_bounds hm
  refine ⟨_, .inl ⟨?_, roundMag_of_exact hm h⟩⟩
  rw [ht.1, codeValue_multiple_real, hx]
  · nth_rw 2 [ht.2]
    rw [zpow_add₀ (by norm_num), zpow_natCast]
    push_cast
    ring
  · refine norm.imp id fun hn => ?_
    calc 2 ^ f.mb = 2 ^ Nat.log2 m * 2 ^ t := by rw [← pow_add]; congr 1; omega
      _ ≤ m * 2 ^ t := Nat.mul_le_mul_right _ lo
  · calc m * 2 ^ t ≤ 2 ^ (Nat.log2 m + 1) * 2 ^ t := Nat.mul_le_mul_right _ hi.le
      _ = 2 ^ (Nat.log2 m + 1 + t) := (pow_add ..).symm
      _ ≤ 2 ^ (f.mb + 1) := Nat.pow_le_pow_right two_pos (by omega)

theorem roundMag_near_of_cut (hmb : 0 < f.mb) (hm : 0 < m) (h : 0 < spacing f m e - e) (hx : Measured m e part sticky x)
    (exact : c.mode = 5 → part = 0) : NearCode f c sg x (f.roundMag c sg m e sticky) := by
  obtain ⟨t, ht, he, hpos⟩ : ∃ t : ℕ, (spacing f m e - e).toNat = t ∧ spacing f m e = t + e ∧ 0 < t := ⟨_, rfl, by omega, by omega⟩
  obtain ⟨norm, small⟩ := significand_bounds f m e
  obtain ⟨lo, hi⟩ := log2_bounds hm
  have cut := roundMag_of_cut (f := f) (c := c) (sg := sg) (sticky := sticky) hm h
  rw [ht] at cut
  have den : 0 < 2 ^ t := Nat.two_pow_pos t
  have split := Nat.div_add_mod m (2 ^ t)
  have low : binade f m e = 0 ∨ 2 ^ f.mb ≤ m / 2 ^ t := norm.imp id fun hn => by
    rw [Nat.le_div_iff_mul_le den, ← pow_add]
    exact (Nat.pow_le_pow_right two_pos (by omega)).trans lo
  have high : m / 2 ^ t < 2 ^ (f.mb + 1) := by
    rw [Nat.div_lt_iff_lt_mul den, ← pow_add]
    exact hi.trans_le (Nat.pow_le_pow_right two_pos (by omega))
  have atLow := codeValue_multiple_real low high.le
  have atHigh := codeValue_multiple_real (n := m / 2 ^ t + 1) (low.imp id fun h => h.trans (Nat.le_succ _)) high
  have size : (2 : ℝ) ^ spacing f m e = (2 ^ t : ℕ) * 2 ^ e := by
    rw [he, zpow_add₀ (by norm_num), zpow_natCast]
    push_cast
    rfl
  have whole : (m : ℝ) = (m / 2 ^ t : ℕ) * (2 ^ t : ℕ) + (m % 2 ^ t : ℕ) := by
    rw [mul_comm]
    exact_mod_cast split.symm
  have parity : m / 2 ^ t % 2 = (binade f m e * 2 ^ f.mb + m / 2 ^ t) % 2 := by
    rw [Nat.add_mod, Nat.mul_mod, Nat.pow_mod, Nat.mod_self, Nat.zero_pow hmb, Nat.zero_mod, Nat.mul_zero, Nat.zero_mod, Nat.zero_add, Nat.mod_mod]
  rw [← add_assoc] at atHigh
  rw [parity] at cut
  generalize binade f m e * 2 ^ f.mb + m / 2 ^ t = k at *
  have step : (0 : ℝ) < 2 ^ e := zpow_pos two_pos e
  have steps : (0 : ℝ) < (2 ^ t : ℕ) := by exact_mod_cast den
  have rest : ((m % 2 ^ t : ℕ) : ℝ) + 1 ≤ (2 ^ t : ℕ) := by exact_mod_cast Nat.mod_lt m den
  have between : Between (codeValue f k) (codeValue f (k + 1)) x (2 ^ e) part (2 ^ t) (m % 2 ^ t) sticky := by
    refine ⟨step, (Nat.mod_lt m den).le, ?_, ?_, ?_, hx.part_nonneg, hx.part_lt, hx.sticky_iff⟩
    · rw [Nat.pow_mod, Nat.mod_self, Nat.zero_pow hpos, Nat.zero_mod]
    · rw [atLow, hx.eq, size, whole]
      ring
    · rw [atHigh, hx.eq, size, whole]
      push_cast
      ring
  refine ⟨k, ?_⟩
  by_cases exactly : m % 2 ^ t = 0 ∧ sticky = false
  · obtain ⟨hr, rfl⟩ := exactly
    refine .inl ⟨?_, ?_⟩
    · have := between.below
      rw [hr, hx.part_eq] at this
      simp at this
      linarith
    · rw [cut, hr, roundsUp_exact]
      rfl
  · have nonzero : m % 2 ^ t ≠ 0 ∨ sticky = true := by
      by_contra hn
      push Not at hn
      exact exactly ⟨hn.1, Bool.eq_false_iff.2 hn.2⟩
    have positive : 0 < ((m % 2 ^ t : ℕ) : ℝ) + part := by
      rcases nonzero with hr | hs
      · have : (0 : ℝ) < (m % 2 ^ t : ℕ) := by exact_mod_cast Nat.pos_of_ne_zero hr
        linarith [hx.part_nonneg]
      · have := hx.sticky_iff.1 hs
        positivity
    refine .inr ⟨?_, ?_, ?_⟩
    · have := between.below
      nlinarith [mul_pos positive step]
    · have := between.above
      have room : 0 < ((2 ^ t : ℕ) : ℝ) - ((m % 2 ^ t : ℕ) + part) := by linarith [hx.part_lt]
      nlinarith [mul_pos room step]
    · rw [cut]
      exact between.chosen nonzero exact

/-- R71: the code that a magnitude rounds to. Where `sticky` holds, the significand has a bit to be cut. -/
theorem roundMag_near (hmb : 0 < f.mb) (hm : 0 < m) (hx : Measured m e part sticky x) (exact : c.mode = 5 → part = 0)
    (cut : sticky = true → f.mb < Nat.log2 m) : NearCode f c sg x (f.roundMag c sg m e sticky) := by
  rcases le_or_gt (spacing f m e - e) 0 with h | h
  · have hs : sticky = false := by
      refine Bool.eq_false_iff.2 fun hs => ?_
      have := cut hs
      unfold spacing at h
      omega
    subst hs
    exact roundMag_near_of_exact hm h (by rw [hx.eq, hx.part_eq, add_zero])
  · exact roundMag_near_of_cut hmb hm h hx exact

theorem overflow_eq (h : f.tops = .e4m3 → f.signBit = 128) : f.overflow c sg = overflowCode f c sg := by
  unfold Fmt.overflow overflowCode Fmt.infinite Fmt.nanCode
  cases ht : f.tops with
  | ieee =>
    cases hs : c.sat
    · rcases c with ⟨mode, _, _, _⟩
      rcases mode with _ | _ | _ | _ | _ <;> cases sg <;> simp
    · simp
  | e4m3 => simp [h ht]
  | finite => rfl

/-- R71, R73: a magnitude rounded once. -/
theorem roundFin_rounded (ht : f.tops = .e4m3 → f.signBit = 128) (hmb : 0 < f.mb) (hm : 0 < m) (hx : Measured m e part sticky x)
    (exact : c.mode = 5 → part = 0) (cut : sticky = true → f.mb < Nat.log2 m) : Rounded f c sg x (f.roundFin c sg m e sticky) := by
  obtain ⟨k, near⟩ := roundMag_near (sg := sg) hmb hm hx exact cut
  refine ⟨k, _, near, ?_⟩
  unfold Fmt.roundFin
  rw [overflow_eq ht]
  simp [and_assoc]

end

section

variable (f : Fmt) (c : Ctl) (sg sticky : Bool) (e : ℤ)

theorem roundFin_zero : f.roundFin c sg 0 e sticky = f.signed sg 0 := by
  simp [Fmt.roundFin, Fmt.roundMag]

theorem round_inf (h : f.tops = .e4m3 → f.nanCode = 0x7F) : f.round c (.inf sg) = match f.tops with
    | .ieee => f.signed sg (if c.sat then f.maxCode else f.infCode)
    | .e4m3 => if c.sat then f.signed sg f.maxCode else 0x7F
    | .finite => f.signed sg f.maxCode := by
  simp only [Fmt.round, Fmt.infinite]
  cases ht : f.tops with
  | ieee => rfl
  | e4m3 => simp only [h ht]
  | finite => rfl

/-- A format with a fraction whose NaN, where it is E4M3, is that of E4M3 rounds as R71 says. -/
theorem roundsOnce_of (hmb : 0 < f.mb) (h : f.tops = .e4m3 → f.signBit = 128) : Sys2Proof.Claims.roundsOnce f := by
  intro c sg m e
  refine ⟨fun hm => ?_, roundFin_zero f c sg false e, round_inf f c sg fun ht => ?_⟩
  · exact roundFin_rounded h hmb hm (.exact m e) (fun _ => rfl) fun hs => absurd hs Bool.false_ne_true
  · simp [Fmt.nanCode, ht, h ht]

end

end

end Sys2Proof.Machine

/-! ### Exact sums and products (R71, R74) -/

namespace Sys2Proof.Machine

section

variable {l : List FVal} {v : FVal} {e : ℤ}

/-- The common scale of a sum stands at or below every addend but zeros. -/
theorem exps_le : ∀ {l : List FVal} {s : Bool} {m : Nat} {d : ℤ}, FVal.fin s m d ∈ l → m ≠ 0 → ∃ k, FVal.exps l = some k ∧ k ≤ d
  | .nan :: r, s, m, d, h, nz => exps_le (l := r) (by simpa using h) nz
  | .inf _ :: r, s, m, d, h, nz => exps_le (l := r) (by simpa using h) nz
  | .fin s' m' d' :: r, s, m, d, h, nz => by
    unfold FVal.exps
    rcases List.mem_cons.1 h with heq | h
    · obtain ⟨rfl, rfl, rfl⟩ := FVal.fin.inj heq
      rw [if_neg nz]
      cases FVal.exps r with
      | none => exact ⟨_, rfl, le_rfl⟩
      | some k => exact ⟨_, rfl, min_le_left _ _⟩
    · obtain ⟨k, hk, le⟩ := exps_le h nz
      rw [hk]
      split_ifs
      · exact ⟨k, rfl, le⟩
      · exact ⟨_, rfl, (min_le_right _ _).trans le⟩

theorem toRat_fin (s : Bool) (m : Nat) (d : ℤ) : (FVal.fin s m d).toRat = (if s then -1 else 1) * m * 2 ^ d := rfl

/-- A finite value as a multiple of a scale at or below it. -/
theorem toRat_eq_scaled {s : Bool} {m : Nat} {d : ℤ} (h : m ≠ 0 → e ≤ d) : (FVal.fin s m d).toRat
    = ((if m = 0 then 0 else if s then -((m * 2 ^ (d - e).toNat : Nat) : ℤ) else ((m * 2 ^ (d - e).toNat : Nat) : ℤ) : ℤ) : ℚ) * 2 ^ e := by
  rw [toRat_fin]
  rcases eq_or_ne m 0 with rfl | nz
  · simp
  · have move : (2 : ℚ) ^ d = 2 ^ (d - e).toNat * 2 ^ e := by
      rw [← zpow_natCast, ← zpow_add₀ (by norm_num)]
      congr 1
      have := h nz
      omega
    rw [if_neg nz, move]
    cases s
    · simp; ring
    · simp; ring

/-- Finite addends add up to the scaled integer sum. -/
theorem sum_toRat_eq_scaled (fin : ∀ v ∈ l, v.isFin = true) (scale : ∀ s m d, FVal.fin s m d ∈ l → m ≠ 0 → e ≤ d) :
    (l.map FVal.toRat).sum = (FVal.scaled e l : ℚ) * 2 ^ e := by
  induction l with
  | nil => simp [FVal.scaled]
  | cons v l ih =>
    have rest := ih (fun w hw => fin w (List.mem_cons_of_mem _ hw)) fun s m d h => scale s m d (List.mem_cons_of_mem _ h)
    cases v with
    | nan => exact absurd (fin _ List.mem_cons_self) (by simp [FVal.isFin])
    | inf _ => exact absurd (fin _ List.mem_cons_self) (by simp [FVal.isFin])
    | fin s m d =>
      rw [List.map_cons, List.sum_cons, rest, toRat_eq_scaled (scale s m d List.mem_cons_self), ← add_mul, ← Int.cast_add]
      rfl

/-! What a sum of values gives, by what stands among them. -/

theorem isNan_iff : v.isNan = true ↔ v = .nan := by cases v <;> simp [FVal.isNan]
theorem isInf_iff {s : Bool} : v.isInf s = true ↔ v = .inf s := by
  cases v <;> simp [FVal.isInf]
  exact eq_comm

theorem any_isNan : l.any FVal.isNan = true ↔ .nan ∈ l := by simp [isNan_iff]
theorem any_isInf (s : Bool) : l.any (FVal.isInf s) = true ↔ .inf s ∈ l := by simp [isInf_iff]

theorem sum_of_nan (mode : Nat) (h : .nan ∈ l) : FVal.sum mode l = .nan := if_pos (any_isNan.2 h)

theorem sum_of_infinities (mode : Nat) (neg : .inf true ∈ l) (pos : .inf false ∈ l) : FVal.sum mode l = .nan := by
  unfold FVal.sum
  rw [if_pos ((any_isInf false).2 pos), if_pos ((any_isInf true).2 neg), ite_self]

theorem sum_of_infinity (mode : Nat) {sg : Bool} (nan : .nan ∉ l) (inf : .inf sg ∈ l) (other : .inf (!sg) ∉ l) : FVal.sum mode l = .inf sg := by
  unfold FVal.sum
  rw [if_neg (mt any_isNan.1 nan)]
  cases sg
  · rw [if_pos ((any_isInf false).2 inf), if_neg (mt (any_isInf true).1 other)]
  · rw [if_neg (mt (any_isInf false).1 other), if_pos ((any_isInf true).2 inf)]

/-- The sign of an exact zero (R71). -/
def zeroSign (mode : Nat) (l : List FVal) : Bool :=
  if l.all (FVal.isZero false) then false else if l.all (FVal.isZero true) then true else decide (mode = 3)

/-- The scaled integer sum of finite addends. -/
def scaledSum (l : List FVal) : ℤ := FVal.scaled ((FVal.exps l).getD 0) l

theorem sum_of_finite (mode : Nat) (fin : ∀ v ∈ l, v.isFin = true) : FVal.sum mode l =
    if scaledSum l = 0 then .fin (zeroSign mode l) 0 0 else .fin (decide (scaledSum l < 0)) (scaledSum l).natAbs ((FVal.exps l).getD 0) := by
  have nan : .nan ∉ l := fun h => absurd (fin _ h) (by simp [FVal.isFin])
  have inf : ∀ s, .inf s ∉ l := fun s h => absurd (fin _ h) (by simp [FVal.isFin])
  unfold FVal.sum zeroSign
  rw [if_neg (mt any_isNan.1 nan), if_neg (mt (any_isInf false).1 (inf false)), if_neg (mt (any_isInf true).1 (inf true))]
  simp only [scaledSum, ← apply_ite (fun b => FVal.fin b 0 0)]
  rfl

theorem toRat_of_int (t e : ℤ) : (FVal.fin (decide (t < 0)) t.natAbs e).toRat = t * 2 ^ e := by
  rw [toRat_fin]
  have abs : ((t.natAbs : ℕ) : ℚ) = |(t : ℚ)| := by rw [Nat.cast_natAbs, Int.cast_abs]
  rw [abs]
  rcases lt_or_ge t 0 with neg | pos
  · have : (t : ℚ) < 0 := by exact_mod_cast neg
    simp [neg, abs_of_neg this]
  · have : (0 : ℚ) ≤ t := by exact_mod_cast pos
    simp [not_lt.2 pos, abs_of_nonneg this]

/-- R71: a sum of finite values is exact, and carries its sign. -/
theorem sum_exact (mode : Nat) (fin : ∀ v ∈ l, v.isFin = true) :
    let t := (l.map FVal.toRat).sum
    (FVal.sum mode l).isFin = true ∧ (FVal.sum mode l).toRat = t ∧ (t < 0 → (FVal.sum mode l).sign = true)
      ∧ (0 < t → (FVal.sum mode l).sign = false) ∧ (t = 0 → (FVal.sum mode l).sign = zeroSign mode l) := by
  have scale : ∀ s m d, FVal.fin s m d ∈ l → m ≠ 0 → (FVal.exps l).getD 0 ≤ d := fun s m d h nz => by
    obtain ⟨k, hk, le⟩ := exps_le h nz
    rw [hk]
    exact le
  have total : (l.map FVal.toRat).sum = (scaledSum l : ℚ) * 2 ^ ((FVal.exps l).getD 0) := sum_toRat_eq_scaled fin scale
  have unit : (0 : ℚ) < 2 ^ ((FVal.exps l).getD 0) := zpow_pos two_pos _
  intro t
  have neg : t < 0 ↔ scaledSum l < 0 := by
    rw [show t = _ from total]
    exact ⟨fun h => by exact_mod_cast neg_of_mul_neg_left h unit.le, fun h => mul_neg_of_neg_of_pos (by exact_mod_cast h) unit⟩
  have pos : 0 < t ↔ 0 < scaledSum l := by
    rw [show t = _ from total, mul_pos_iff_of_pos_right unit]
    exact_mod_cast Iff.rfl
  have zero : t = 0 ↔ scaledSum l = 0 := by
    rw [show t = _ from total, mul_eq_zero_iff_right unit.ne']
    exact_mod_cast Iff.rfl
  rw [neg, pos, zero, sum_of_finite mode fin]
  split_ifs with hz
  · refine ⟨rfl, ?_, fun h => absurd hz h.ne, fun h => absurd hz h.ne', fun _ => rfl⟩
    rw [zero.2 hz]
    simp [FVal.toRat]
  · refine ⟨rfl, (toRat_of_int _ _).trans total.symm, fun h => decide_eq_true h, fun h => decide_eq_false h.not_gt, fun h => absurd h hz⟩

end

section

variable {a b : FVal}

theorem mul_exact (ha : a.isFin = true) (hb : b.isFin = true) :
    (a.mul b).isFin = true ∧ (a.mul b).toRat = a.toRat * b.toRat ∧ (a.mul b).sign = (a.sign != b.sign) := by
  cases a with
  | nan => exact absurd ha Bool.false_ne_true
  | inf _ => exact absurd ha Bool.false_ne_true
  | fin s m d =>
    cases b with
    | nan => exact absurd hb Bool.false_ne_true
    | inf _ => exact absurd hb Bool.false_ne_true
    | fin t n k =>
      refine ⟨rfl, ?_, rfl⟩
      simp only [FVal.mul, FVal.toRat]
      rw [zpow_add₀ (by norm_num)]
      cases s <;> cases t <;> simp <;> ring

theorem mul_nan (a : FVal) : a.mul .nan = .nan := by cases a <;> rfl

theorem inf_mul (sg : Bool) (a : FVal) :
    (FVal.inf sg).mul a = if a.isNan || a.isZero false || a.isZero true then .nan else .inf (sg != a.sign) := by
  cases a with
  | nan => rfl
  | inf s => rfl
  | fin s m d => cases s <;> simp [FVal.mul, FVal.isNan, FVal.isZero, FVal.sign]

theorem mul_inf (sg : Bool) (a : FVal) : a.mul (.inf sg) = (FVal.inf sg).mul a := by
  cases a with
  | nan => rfl
  | inf s => cases s <;> cases sg <;> rfl
  | fin s m d => cases s <;> cases sg <;> rfl

end

theorem exactValues : Sys2Proof.Claims.exactValues := by
  intro mode l a b sg t
  refine ⟨fun fin => ?_, fun h => ?_, sum_of_infinity mode, mul_exact, ⟨rfl, mul_nan a, inf_mul sg a⟩, mul_inf sg a⟩
  · obtain ⟨finite, value, neg, pos, zero⟩ := sum_exact mode fin
    exact ⟨finite, value, neg, pos, fun h _ => zero h⟩
  · rcases h with nan | ⟨neg, pos⟩
    · exact sum_of_nan mode nan
    · exact sum_of_infinities mode neg pos

end Sys2Proof.Machine

/-! ### Codes of the wide formats (R62, R73) -/

namespace Sys2Proof.Machine

section

variable {f : Fmt} {k : Nat} (sg ftz : Bool)

theorem signBit_eq (f : Fmt) : f.signBit = 2 ^ f.eb * 2 ^ f.mb := Nat.pow_add ..

theorem infCode_lt_signBit (f : Fmt) : f.infCode < f.signBit := by
  rw [signBit_eq, Fmt.infCode]
  exact Nat.mul_lt_mul_of_pos_right (by have := Nat.two_pow_pos f.eb; omega) (Nat.two_pow_pos _)

theorem signed_mod (hk : k < f.signBit) : f.signed sg k % f.signBit = k := by
  cases sg
  · exact Nat.mod_eq_of_lt hk
  · exact (Nat.add_mod_left ..).trans (Nat.mod_eq_of_lt hk)

theorem signed_sign (hk : k < f.signBit) : decide (f.signed sg k / f.signBit % 2 = 1) = sg := by
  have pos : 0 < f.signBit := by omega
  cases sg
  · simp [Fmt.signed, Nat.div_eq_of_lt hk]
  · simp [Fmt.signed, Nat.add_div_left _ pos, Nat.div_eq_of_lt hk]

/-- The value of a code below that of infinity. -/
def finiteValue (f : Fmt) (sg : Bool) (k : Nat) : FVal :=
  if k / 2 ^ f.mb = 0 then .fin sg (k % 2 ^ f.mb) (1 - (f.bias : ℤ) - f.mb)
  else .fin sg (2 ^ f.mb + k % 2 ^ f.mb) (((k / 2 ^ f.mb : Nat) : ℤ) - f.bias - f.mb)

theorem decode_signed (ht : f.tops = .ieee) (hk : k < f.signBit) : f.decode (f.signed sg k) =
    if k / 2 ^ f.mb = 2 ^ f.eb - 1 then (if k % 2 ^ f.mb = 0 then .inf sg else .nan) else finiteValue f sg k := by
  unfold Fmt.decode
  dsimp only
  rw [signed_mod sg hk, signed_sign sg hk, ht]
  rfl

theorem decode_finite (ht : f.tops = .ieee) (hk : k < f.infCode) : f.decode (f.signed sg k) = finiteValue f sg k := by
  rw [decode_signed sg ht (hk.trans (infCode_lt_signBit f)), if_neg]
  exact (Nat.div_lt_of_lt_mul (by rwa [Nat.mul_comm])).ne

theorem decode_infCode (ht : f.tops = .ieee) : f.decode (f.signed sg f.infCode) = .inf sg := by
  rw [decode_signed sg ht (infCode_lt_signBit f), Fmt.infCode, Nat.mul_div_left _ (Nat.two_pow_pos _), Nat.mul_mod_left, if_pos rfl, if_pos rfl]

theorem decode_nan (ht : f.tops = .ieee) (hi : f.infCode < k) (hk : k < f.signBit) : f.decode (f.signed sg k) = .nan := by
  have pos : 0 < 2 ^ f.mb := Nat.two_pow_pos _
  rw [signBit_eq, Nat.mul_comm] at hk
  have lt : k / 2 ^ f.mb < 2 ^ f.eb := Nat.div_lt_of_lt_mul hk
  have ge : 2 ^ f.eb - 1 ≤ k / 2 ^ f.mb := (Nat.le_div_iff_mul_le pos).2 hi.le
  have top : k / 2 ^ f.mb = 2 ^ f.eb - 1 := by omega
  rw [decode_signed sg ht (by rwa [signBit_eq, Nat.mul_comm]), if_pos top, if_neg]
  intro none
  have := Nat.div_add_mod k (2 ^ f.mb)
  rw [top, none, Nat.add_zero, Nat.mul_comm] at this
  exact hi.ne this

/-- A finite code stands for its own magnitude, or under FTZ for a zero when it is subnormal. -/
theorem input_finite (ht : f.tops = .ieee) (hw : f.wide = true) (hk : k < f.infCode) :
    ∃ m e, f.input ftz (f.signed sg k) = .fin sg m e ∧ (m * 2 ^ e : ℚ) = if ftz = true ∧ k < 2 ^ f.mb then 0 else codeValue f k := by
  have sub : k / 2 ^ f.mb = 0 ↔ k < 2 ^ f.mb := Nat.div_eq_zero_iff_lt (Nat.two_pow_pos _)
  unfold Fmt.input codeValue
  rw [decode_finite sg ht hk, finiteValue, hw]
  by_cases h : k < 2 ^ f.mb
  · rw [if_pos (sub.2 h), if_pos (sub.2 h), Nat.mod_eq_of_lt h]
    cases ftz
    · exact ⟨k, 1 - (f.bias : ℤ) - f.mb, by simp, by simp⟩
    · exact ⟨0, 0, by simp [h], by simp [h]⟩
  · rw [if_neg (mt sub.1 h), if_neg (mt sub.1 h)]
    exact ⟨2 ^ f.mb + k % 2 ^ f.mb, ((k / 2 ^ f.mb : ℕ) : ℤ) - f.bias - f.mb, by simp, by simp [h]⟩

theorem input_of_decode {n : Nat} {v : FVal} (h : f.decode n = v) (hv : v.isFin = false) : f.input ftz n = v := by
  unfold Fmt.input
  rw [h]
  cases v with
  | nan => rfl
  | inf _ => rfl
  | fin _ _ _ => exact absurd hv Bool.noConfusion

end

/-- R62, R73: what the codes of a wide format read as. -/
theorem codes_read {f : Fmt} (hw : f.wide = true) (ht : f.tops = .ieee) (ftz sg : Bool) (k : Nat) :
    let v := f.input ftz (f.signed sg k)
    f.wide = true ∧ f.tops = .ieee ∧ f.signed sg k = (if sg then 2 ^ (f.eb + f.mb) + k else k)
    ∧ (k < f.infCode → ∃ m e, v = .fin sg m e ∧ (m * 2 ^ e : ℚ) = if ftz = true ∧ k < 2 ^ f.mb then 0 else codeValue f k)
    ∧ (k = f.infCode → v = .inf sg) ∧ (f.infCode < k → k < 2 ^ (f.eb + f.mb) → v = .nan) := by
  refine ⟨hw, ht, rfl, input_finite sg ftz ht hw, fun h => ?_, fun hi hk => ?_⟩
  · subst h
    exact input_of_decode ftz (decode_infCode sg ht) rfl
  · exact input_of_decode ftz (decode_nan sg ht hi hk) rfl

theorem codeValues : Sys2Proof.Claims.codeValues := by
  refine ⟨by decide, by decide, by decide, by decide, by decide, by decide, by decide, by decide, by decide, by decide, by decide, by decide, ?_⟩
  intro f hf
  have wide : f.wide = true ∧ f.tops = .ieee := by
    revert f
    decide
  exact codes_read wide.1 wide.2

/-! ### The control of a rounding (R46, R71 to R73) -/

theorem roundingControl : Sys2Proof.Claims.roundingControl := by
  intro s l k
  refine ⟨fun h => ?_, fun h hh => ?_⟩
  · simp only [ctlOf, h]
  · simp only [ctlOf, hh]
    rfl

/-- The hint gives one FTZ, SAT and mode for every element of a word. -/
theorem ctlOf_ftz (s : State) (l k : Nat) : (ctlOf s l k).ftz = (ctlOf s l 0).ftz := by
  unfold ctlOf
  split <;> rfl

/-! ### The FP32, packed and FP64 words (R90, R91, R94, R95, R97) -/

section

variable {s : State} {n : Need} {d dw : Nat} {srcs : List (Nat × Nat)} {r fl im vl seed : Bool} {fs : List Nat}

theorem dstOk_of_need (h : ready (vecNeed s d dw srcs r fl im fs vl seed) s) : dstOk s dw d = true := by
  have := ready_operand h
  simp only [vecNeed, Bool.not_eq_false', Bool.and_eq_true] at this
  exact this.1

/-- A fixed-latency word writes what its function gives, whether or not it reads a seed. -/
theorem Writes.of_fixed {i : Instr} {g : Nat → List Word} (f : State → Nat → List Word) (he : exec i s = .next (vecFixed n d dw f s))
    (hn : n = vecNeed s d dw srcs r fl im fs vl seed) (hw : dw = 1 ∨ dw = 2 ∨ dw = 4) (hg : ∀ l, f s l = g l) (hf : ∀ l, (g l).length = dw) :
    Writes i n s d dw g := by
  obtain rfl : f s = g := funext hg
  subst hn
  exact .of_word _ he (fun _ => rfl) hw dstOk_of_need fun l _ => hf l

end

theorem singleWords : Sys2Proof.Claims.singleWords := by
  intro s bt d a b n still c x y z r
  refine ⟨?_, ?_, ?_, ?_, ?_, ?_, ?_, ?_⟩
  · exact .of_vec3 _ rfl fun _ => rfl
  · exact .of_vec3 _ rfl fun _ => rfl
  · exact .of_vec3 _ rfl fun _ => rfl
  · exact .of_vec3 _ rfl fun _ => rfl
  · exact .of_vec3 _ rfl fun _ => rfl
  · exact .of_fixed _ rfl rfl (.inl rfl) (fun _ => rfl) fun _ => rfl
  · exact .of_fixed _ rfl rfl (.inl rfl) (fun _ => rfl) fun _ => rfl
  · exact .of_vec3 _ rfl fun _ => rfl

theorem packedWords : Sys2Proof.Claims.packedWords := by
  intro s bt d a b n h r add mul mac
  refine ⟨?_, ?_, ?_, ?_, ?_, ?_, ?_⟩ <;> exact .of_vec3 _ rfl fun _ => rfl

theorem doubleWords : Sys2Proof.Claims.doubleWords := by
  intro s bt d a b n c v r
  refine ⟨?_, ?_, ?_⟩ <;> exact .of_vecFixed _ rfl rfl (fun _ => rfl) (.inr (.inl rfl)) fun _ => rfl

theorem wideFormats_roundOnce : ∀ f ∈ [fp64, fp32, fp16, bf16], Sys2Proof.Claims.roundsOnce f := by
  intro f hf
  have shape : 0 < f.mb ∧ f.tops ≠ .e4m3 := by
    revert f
    decide
  exact roundsOnce_of f shape.1 fun ht => absurd ht shape.2

/-- Settles O1: a significand is cut between two neighbouring codes, whose choice is R71's; sums and products are exact by their integer
significands; and each word's result is what its function gives in a lane. -/
theorem floatWordsWriteTheirResults : Obligations.FloatWordsWriteTheirResults :=
  ⟨singleWords, packedWords, doubleWords, wideFormats_roundOnce, codeValues, exactValues, roundingControl⟩

end Sys2Proof.Machine

/-! ### Conversions (R105, R106) -/

namespace Sys2Proof.Machine

section

theorem signed_of_bits {k : Nat} (hk : 0 < k) (n : Nat) : signedOf k n = (BitVec.ofNat k n).toInt := by
  obtain ⟨j, rfl⟩ : ∃ j, k = j + 1 := ⟨k - 1, by omega⟩
  unfold signedOf
  have half : 2 * (n % 2 ^ (j + 1)) < 2 ^ (j + 1) ↔ n % 2 ^ (j + 1) < 2 ^ j := by
    rw [Nat.pow_succ]
    omega
  simp only [BitVec.toInt_eq_toNat_cond, BitVec.toNat_ofNat, half, Nat.add_sub_cancel]

theorem signed_of_word (x : Word) : signedOf 32 x.toNat = x.toInt := by
  rw [signed_of_bits (by decide), BitVec.ofNat_toNat, BitVec.setWidth_eq]

theorem word_of_int (i : ℤ) : BitVec.ofNat 32 (BitVec.ofInt 32 i).toNat = BitVec.ofInt 32 i := by
  rw [BitVec.ofNat_toNat, BitVec.setWidth_eq]

theorem word_low (x : Word) : x.toNat / 2 ^ (32 * 0) % 2 ^ 32 = x.toNat := by
  have := x.isLt
  omega

theorem pair_low (lo hi : Word) : pair64 lo hi / 2 ^ (32 * 0) % 2 ^ 32 = lo.toNat := by
  have := lo.isLt
  unfold pair64
  omega

theorem pair_high (lo hi : Word) : pair64 lo hi / 2 ^ (32 * 1) % 2 ^ 32 = hi.toNat := by
  have := lo.isLt
  have := hi.isLt
  unfold pair64
  omega

end

section

variable {f : Fmt} {k : Nat} (sg : Bool)

theorem signed_lt (h : k < f.signBit) : f.signed sg k < 2 * f.signBit := by
  unfold Fmt.signed
  split_ifs <;> omega

theorem maxCode_lt (f : Fmt) : f.maxCode < f.signBit := by
  have pos : 0 < f.signBit := Nat.two_pow_pos _
  have inf := infCode_lt_signBit f
  unfold Fmt.infCode at inf
  unfold Fmt.maxCode
  split <;> omega

theorem nanCode_lt (hmb : 0 < f.mb) : f.nanCode < f.signBit := by
  have pos : 0 < f.signBit := Nat.two_pow_pos _
  unfold Fmt.nanCode
  split
  · have half : 2 ^ f.mb = 2 * 2 ^ (f.mb - 1) := by rw [← pow_succ']; congr 1; omega
    have := Nat.two_pow_pos (f.mb - 1)
    have one : 1 ≤ 2 ^ f.eb := Nat.two_pow_pos _
    rw [signBit_eq, Fmt.infCode, Nat.sub_mul, one_mul]
    have : 2 ^ f.mb ≤ 2 ^ f.eb * 2 ^ f.mb := Nat.le_mul_of_pos_left _ one
    omega
  · omega
  · exact pos

theorem infinite_lt (hmb : 0 < f.mb) (sat : Bool) : f.infinite sat sg < 2 * f.signBit := by
  have max := signed_lt sg (maxCode_lt f)
  have inf := signed_lt sg (infCode_lt_signBit f)
  have nan := nanCode_lt hmb
  unfold Fmt.infinite
  split
  · split_ifs <;> omega
  · split_ifs <;> omega
  · exact max

/-- A code rounded to a format fits its bits. -/
theorem round_lt (hmb : 0 < f.mb) (c : Ctl) (v : FVal) : f.round c v < 2 * f.signBit := by
  have max := fun sg => signed_lt sg (maxCode_lt f)
  have nan := nanCode_lt hmb
  cases v with
  | nan => exact nan.trans (by omega)
  | inf s => exact infinite_lt s hmb _
  | fin s m e =>
    have inf := infinite_lt s hmb c.sat
    have zero := signed_lt (f := f) (k := 0) s (Nat.two_pow_pos _)
    have lim := maxCode_lt f
    simp only [Fmt.round, Fmt.roundFin]
    split_ifs
    · unfold Fmt.overflow
      dsimp only
      split
      · split_ifs
        · exact max s
        · exact inf
      · exact inf
    · exact zero
    · exact signed_lt s (by omega)

end

section

variable {s : State} {m : BitVec 5} {d a : BitVec 8} {dw aw : Nat} {fs : List Nat} {seed : Bool}

/-- The shape of a conversion: the widths of D and A, the feature bits, and whether it is exact for every source (R105, R106). -/
def cvtShape (m : Nat) : Nat × Nat × List Nat × Bool := (cvtD m, cvtA m, cvtF1 m, cvtExact m)

/-- The source number of a conversion. -/
def cvtSource (s : State) (a : BitVec 8) (aw l : Nat) : Nat := if aw = 2 then src64 s a l else (src s a l).toNat

theorem cvtSource_word (s : State) (a : BitVec 8) (l : Nat) : cvtSource s a 1 l = (src s a l).toNat := rfl
theorem cvtSource_pair (s : State) (a : BitVec 8) (l : Nat) : cvtSource s a 2 l = pair64 (srcWord s a.toNat 0 l) (srcWord s a.toNat 1 l) := rfl

theorem cvt_exec (bt : BitVec 1) (shape : cvtShape m.toNat = (dw, aw, fs, !seed)) : exec (.cvt bt m d a) s =
    .next (vecFixed (vecNeed s d.toNat dw [(a.toNat, aw)] true false false fs false seed) d.toNat dw
      (fun s l => (List.range dw).map fun i => BitVec.ofNat 32 (convert m.toNat (ctlOf s l) (cvtSource s a aw l) / 2 ^ (32 * i))) s) := by
  obtain ⟨rfl, rfl, rfl, exact⟩ : cvtD m.toNat = dw ∧ cvtA m.toNat = aw ∧ cvtF1 m.toNat = fs ∧ cvtExact m.toNat = !seed := by
    simpa [cvtShape] using shape
  obtain rfl : seed = !cvtExact m.toNat := by rw [exact, Bool.not_not]
  rfl

variable (bt : BitVec 1) (k : Nat) {r q : Nat → Word} (hk : m.toNat = k)
include hk

/-- A conversion to one word. -/
theorem cvt_writes_one (shape : cvtShape k = (1, aw, fs, !seed)) (value : ∀ l, BitVec.ofNat 32 (convert k (ctlOf s l) (cvtSource s a aw l)) = r l) :
    Writes (.cvt bt m d a) (vecNeed s d.toNat 1 [(a.toNat, aw)] true false false fs false seed) s d.toNat 1 fun l => [r l] := by
  subst hk
  refine .of_fixed _ (cvt_exec bt shape) rfl (.inl rfl) (fun l => ?_) fun _ => rfl
  rw [← value l]
  simp [List.range_succ]

/-- A conversion to a pair. -/
theorem cvt_writes_two (shape : cvtShape k = (2, aw, fs, !seed)) (low : ∀ l, BitVec.ofNat 32 (convert k (ctlOf s l) (cvtSource s a aw l)) = r l)
    (high : ∀ l, BitVec.ofNat 32 (convert k (ctlOf s l) (cvtSource s a aw l) / 2 ^ 32) = q l) :
    Writes (.cvt bt m d a) (vecNeed s d.toNat 2 [(a.toNat, aw)] true false false fs false seed) s d.toNat 2 fun l => [r l, q l] := by
  subst hk
  refine .of_fixed _ (cvt_exec bt shape) rfl (.inr (.inl rfl)) (fun l => ?_) fun _ => rfl
  rw [← low l, ← high l]
  simp [List.range_succ]

/-- A conversion to one number of two words. -/
theorem cvt_writes_pair {v : Nat → Nat} (shape : cvtShape k = (2, aw, fs, !seed)) (value : ∀ l, convert k (ctlOf s l) (cvtSource s a aw l) = v l) :
    Writes (.cvt bt m d a) (vecNeed s d.toNat 2 [(a.toNat, aw)] true false false fs false seed) s d.toNat 2
      fun l => [BitVec.ofNat 32 (v l), BitVec.ofNat 32 (v l / 2 ^ 32)] :=
  cvt_writes_two bt k hk shape (fun l => congrArg _ (value l)) fun l => congrArg (fun n => BitVec.ofNat 32 (n / 2 ^ 32)) (value l)

end

section

theorem signed_of_pair (n : Nat) : signedOf 64 n = (BitVec.ofNat 64 n).toInt := signed_of_bits (by decide) n

/-- The low and the high word of two codes side by side. -/
theorem pair_of_codes {x : Nat} (hx : x < 2 ^ 32) (y : Nat) :
    BitVec.ofNat 32 (x + 2 ^ 32 * y) = BitVec.ofNat 32 x ∧ BitVec.ofNat 32 ((x + 2 ^ 32 * y) / 2 ^ 32) = BitVec.ofNat 32 y := by
  constructor
  · apply BitVec.eq_of_toNat_eq
    simp
  · congr 1
    omega

theorem extended_low (x : Word) : BitVec.ofNat 32 (BitVec.ofInt 64 x.toInt).toNat = x := by
  apply BitVec.eq_of_toNat_eq
  have := x.isLt
  simp [BitVec.toInt_eq_toNat_cond]
  split_ifs <;> omega

theorem extended_high (x : Word) : BitVec.ofNat 32 ((BitVec.ofInt 64 x.toInt).toNat / 2 ^ 32) = if x.toInt < 0 then 0xFFFFFFFF else 0 := by
  apply BitVec.eq_of_toNat_eq
  have := x.isLt
  simp [BitVec.toInt_eq_toNat_cond]
  split_ifs <;> simp <;> omega

end

theorem conversionWords : Sys2Proof.Claims.conversionWords := by
  intro s bt d a c f g w h s32 u32 s64 u64 int one two into halves pair is i32 n32 i64 n64
  have flush : ∀ (t : Fmt) (l n : Nat), t.input (c l 1).ftz n = t.input (c l 0).ftz n := fun t l n => congrArg (t.input · n) (ctlOf_ftz s l 1)
  have fits := fun c v => round_lt (f := fp32) (by decide) c v
  refine ⟨⟨?_, ?_, ?_, ?_, ?_, ?_, ?_, ?_, ?_, ?_, ?_, ?_, ?_, ?_, ?_, ?_⟩, ⟨?_, ?_, ?_, ?_, ?_, ?_, ?_, ?_, ?_, ?_, ?_, ?_, ?_, ?_, ?_, ?_⟩⟩
  · exact cvt_writes_one bt 0 rfl rfl fun l => by simp only [convert, cvtSource_word, word_of_int, word_low]; rfl
  · exact cvt_writes_one bt 1 rfl rfl fun l => by simp only [convert, cvtSource_word, word_of_int, word_low]; rfl
  · exact cvt_writes_one bt 2 rfl rfl fun l => by simp only [convert, cvtSource_word, signed_of_word]; rfl
  · exact cvt_writes_one bt 3 rfl rfl fun l => by simp only [convert, cvtSource_word, word_low]; rfl
  · exact cvt_writes_one bt 4 rfl rfl fun l => by simp only [convert, cvtSource_word, word_low]; rfl
  · exact cvt_writes_one bt 5 rfl rfl fun l => by simp only [convert, cvtSource_word, word_low]; rfl
  · exact cvt_writes_one bt 6 rfl rfl fun _ => rfl
  · exact cvt_writes_one bt 7 rfl rfl fun _ => rfl
  · exact cvt_writes_one bt 8 rfl rfl fun _ => rfl
  · exact cvt_writes_one bt 9 rfl rfl fun _ => rfl
  · exact cvt_writes_one bt 10 rfl rfl fun l => by simp only [convert, cvtSource_pair, pair_low, pair_high, w, flush]; rfl
  · exact cvt_writes_one bt 11 rfl rfl fun l => by simp only [convert, cvtSource_pair, pair_low, pair_high, w, flush]; rfl
  · exact cvt_writes_pair bt 12 rfl rfl fun l => by simp only [convert, cvtSource_word, word_low]; rfl
  · exact cvt_writes_one bt 13 rfl rfl fun _ => rfl
  · exact cvt_writes_one bt 14 rfl rfl fun _ => word_of_int _
  · exact cvt_writes_one bt 15 rfl rfl fun _ => word_of_int _
  · exact cvt_writes_pair bt 16 rfl rfl fun l => by simp only [convert, cvtSource_word, signed_of_word]; rfl
  · exact cvt_writes_pair bt 17 rfl rfl fun l => by simp only [convert, cvtSource_word, word_low]; rfl
  · exact cvt_writes_pair bt 18 rfl rfl fun _ => rfl
  · exact cvt_writes_pair bt 19 rfl rfl fun l => by simp only [convert, signed_of_pair]; rfl
  · exact cvt_writes_pair bt 20 rfl rfl fun l => by simp only [convert, cvtSource_word, word_low]; rfl
  · exact cvt_writes_one bt 21 rfl rfl fun l => by simp only [convert, signed_of_pair]; rfl
  · exact cvt_writes_pair bt 22 rfl rfl fun _ => rfl
  · exact cvt_writes_pair bt 23 rfl rfl fun _ => rfl
  · exact cvt_writes_pair bt 24 rfl rfl fun l => by simp only [convert, cvtSource_word, word_low]; rfl
  · exact cvt_writes_one bt 25 rfl rfl fun _ => rfl
  · refine cvt_writes_two bt 26 rfl rfl (fun l => (pair_of_codes (fits _ _) _).1) fun l => ?_
    simp only [h, flush]
    exact (pair_of_codes (fits _ _) _).2
  · refine cvt_writes_two bt 27 rfl rfl (fun l => (pair_of_codes (fits _ _) _).1) fun l => ?_
    simp only [h, flush]
    exact (pair_of_codes (fits _ _) _).2
  · exact cvt_writes_one bt 28 rfl rfl fun l => by simp only [convert, cvtSource_word, signed_of_word]; rfl
  · exact cvt_writes_one bt 29 rfl rfl fun l => word_of_int _
  · refine cvt_writes_two bt 30 rfl rfl (fun l => ?_) fun l => ?_ <;> simp only [convert, cvtSource_word, signed_of_word]
    · exact extended_low _
    · exact extended_high _
  · refine cvt_writes_two bt 31 rfl rfl (fun l => ?_) fun l => ?_ <;> simp only [convert, cvtSource_word, word_low]
    · exact (BitVec.ofNat_toNat ..).trans (BitVec.setWidth_eq _)
    · exact congrArg _ (Nat.div_eq_of_lt (BitVec.isLt _))

end Sys2Proof.Machine

/-! ### Integer targets (R76) -/

namespace Sys2Proof.Machine

section

variable (c : Ctl) (sg : Bool) (m k : Nat)

/-- An integer cut to a range. -/
theorem toInt_fin (lo hi : ℤ) (h : lo ≤ hi) (e : ℤ) :
    (FVal.fin sg m e).toInt c lo hi = max lo (min hi (if sg then -(roundNat c sg m e : ℤ) else roundNat c sg m e)) := by
  simp only [FVal.toInt]
  generalize (if sg then -(roundNat c sg m e : ℤ) else (roundNat c sg m e : ℤ)) = v
  split_ifs <;> omega

theorem roundNat_whole (e : Nat) : roundNat c sg m e = m * 2 ^ e := if_pos (Int.natCast_nonneg e)

/-- A fraction is cut: to the integer below it, or the next one. -/
theorem roundNat_cut : roundNat c sg m (-(k : ℤ)) =
    m / 2 ^ k + if roundsUp c sg (decide (m / 2 ^ k % 2 = 1)) (m % 2 ^ k) (2 ^ k) false then 1 else 0 := by
  rcases Nat.eq_zero_or_pos k with rfl | pos
  · simp [roundNat, shiftUp, Nat.mod_one, roundsUp_exact]
  · have fraction : ¬-(k : ℤ) ≥ 0 := by omega
    simp only [roundNat, if_neg fraction, neg_neg, Int.toNat_natCast]

/-- R76: the magnitude that each mode chooses for `m` / 2^`k`. -/
theorem roundNat_chosen : ∃ r : Nat, roundNat c sg m (-(k : ℤ)) = r
    ∧ (m % 2 ^ k = 0 → r = m / 2 ^ k) ∧ (r = m / 2 ^ k ∨ r = m / 2 ^ k + 1)
    ∧ (c.mode = 0 → 2 * (m % 2 ^ k) < 2 ^ k → r = m / 2 ^ k) ∧ (c.mode = 0 → 2 ^ k < 2 * (m % 2 ^ k) → r = m / 2 ^ k + 1)
    ∧ (c.mode = 0 → 2 * (m % 2 ^ k) = 2 ^ k → r % 2 = 0) ∧ (c.mode = 1 → r = m / 2 ^ k)
    ∧ (c.mode = 2 → m % 2 ^ k ≠ 0 → r = m / 2 ^ k + (if sg then 0 else 1)) ∧ (c.mode = 3 → m % 2 ^ k ≠ 0 → r = m / 2 ^ k + (if sg then 1 else 0))
    ∧ (c.mode = 4 → 2 ^ k ≤ 2 * (m % 2 ^ k) → r = m / 2 ^ k + 1) ∧ (c.mode = 4 → 2 * (m % 2 ^ k) < 2 ^ k → r = m / 2 ^ k) := by
  refine ⟨_, roundNat_cut c sg m k, ?_⟩
  have pos : 0 < 2 ^ k := Nat.two_pow_pos k
  generalize 2 ^ k = den at *
  generalize hr : m % den = rem
  generalize m / den = n
  unfold roundsUp
  refine ⟨fun h => ?_, ?_, fun hm h => ?_, fun hm h => ?_, fun hm h => ?_, fun hm => ?_, fun hm h => ?_, fun hm h => ?_, fun hm h => ?_, fun hm h => ?_⟩
  · simp [h]
  · split <;> simp
  · simp [hm, not_lt.2 h.le, h.ne]
  · simp [hm, h, show rem ≠ 0 by omega]
  · rcases Nat.mod_two_eq_zero_or_one n with hn | hn <;> simp [hm, h, hn, show rem ≠ 0 by omega, Nat.add_mod]
  · simp [hm]
  · cases sg <;> simp [hm, h]
  · cases sg <;> simp [hm, h]
  · simp [hm, h, show rem ≠ 0 by omega]
  · simp [hm, h]

end

theorem integerTargets : Sys2Proof.Claims.integerTargets := by
  intro c lo hi sg m k hle x
  obtain ⟨r, hr, chosen⟩ := roundNat_chosen c sg m k
  refine ⟨rfl, rfl, rfl, fun e => ?_, r, ?_, chosen⟩
  · rw [toInt_fin _ _ _ _ _ hle, roundNat_whole]
    push_cast
    rfl
  · rw [← hr]
    exact toInt_fin _ _ _ _ _ hle _

/-! ### The narrow formats (R76, R107, R108) -/

section

variable (c : Ctl) (t : List Word) (v : FVal)

theorem cpEncode_lt : cpEncode c t v < 256 := by
  unfold cpEncode
  split
  · decide
  · split_ifs <;> omega
  · dsimp only
    split_ifs <;> omega

/-- The width of an element's position. -/
def narrowWidth (f : Nat) : Nat := if qntIs4 f then 4 else 8

/-- R107: every code fits the position it is put in. -/
theorem quantise_lt (f : BitVec 3) : quantise c t f.toNat v < 2 ^ narrowWidth f.toNat := by
  have six : ∀ f : Fmt, 0 < f.mb → 2 * f.signBit = 64 → f.round c v < 256 := fun f hmb h => (round_lt hmb c v).trans_le (by omega)
  match f with
  | 0 => exact cpEncode_lt c t v
  | 1 => exact round_lt (f := e4m3) (by decide) c v
  | 2 => exact round_lt (f := e5m2) (by decide) c v
  | 3 => exact six e3m2 (by decide) (by decide)
  | 4 => exact six e2m3 (by decide) (by decide)
  | 5 => exact round_lt (f := e2m1) (by decide) c v
  | 6 => exact BitVec.isLt _
  | 7 => exact BitVec.isLt _

/-- R107: a code placed in a register, bit by bit. -/
theorem placeNarrow_getLsbD {f p code : Nat} {d : Word} {i : Nat} (hc : code < 2 ^ narrowWidth f) (hi : i < 32) :
    (placeNarrow f p code d).getLsbD i =
      if narrowWidth f * p ≤ i ∧ i < narrowWidth f * p + narrowWidth f then code.testBit (i - narrowWidth f * p) else d.getLsbD i := by
  have place : placeNarrow f p code d = (d &&& ~~~(BitVec.ofNat 32 ((2 ^ narrowWidth f - 1) * 2 ^ (narrowWidth f * p))))
      ||| BitVec.ofNat 32 (code * 2 ^ (narrowWidth f * p)) := rfl
  rw [place]
  generalize narrowWidth f = w at *
  rw [BitVec.getLsbD_or, BitVec.getLsbD_and, BitVec.getLsbD_not, BitVec.getLsbD_ofNat, BitVec.getLsbD_ofNat, Nat.testBit_mul_two_pow,
    Nat.testBit_mul_two_pow, Nat.testBit_two_pow_sub_one]
  by_cases low : w * p ≤ i
  · by_cases high : i < w * p + w
    · have : i - w * p < w := by omega
      simp [hi, low, high, this]
    · have above : code.testBit (i - w * p) = false := Nat.testBit_lt_two_pow (hc.trans_le (Nat.pow_le_pow_right two_pos (by omega)))
      have : ¬ i - w * p < w := by omega
      simp [hi, low, high, this, above]
  · simp [hi, low]

end

section

variable {s : State} {bt : BitVec 1} {f : BitVec 3} {p : BitVec 2} {d a : BitVec 8}

theorem compandOf_eq (s : State) : compandOf s = ((findWg s.grp.wg s).map fun w => w.compand).getD cpDefault := by
  unfold compandOf
  cases findWg s.grp.wg s <;> rfl

/-- What `QNT` rounds its source to in a lane. -/
def qntCode (s : State) (f : BitVec 3) (a : BitVec 8) (l : Nat) : Nat :=
  quantise (ctlOf s l 0) (compandOf s) f.toNat (fp32.input (ctlOf s l 0).ftz (src s a l).toNat)

theorem qnt_writes {w : Nat} {code : Nat → Nat} (hw : narrowWidth f.toNat = w) (hcode : ∀ l, qntCode s f a l = code l) {r : Nat → Word}
    (bits : ∀ l i, i < 32 → (r l).getLsbD i =
      if w * p.toNat ≤ i ∧ i < w * p.toNat + w then (code l).testBit (i - w * p.toNat) else (src s d l).getLsbD i) :
    Writes (.qnt bt f p d a) (vecNeed s d.toNat 1 [(a.toNat, 1)] true false false (if f = 0 then [8] else []) false) s d.toNat 1 fun l => [r l] := by
  refine .of_vecFixed _ rfl rfl (fun l => ?_) (.inl rfl) fun _ => rfl
  have fits : qntCode s f a l < 2 ^ narrowWidth f.toNat := quantise_lt _ _ _ f
  have placed : placeNarrow f.toNat p.toNat (qntCode s f a l) (src s d l) = r l := by
    refine BitVec.eq_of_getLsbD_eq fun i hi => ?_
    rw [placeNarrow_getLsbD fits hi, bits l i hi, hcode, hw]
  exact congrArg (fun x => [x]) placed

theorem dqnt_writes {v : Nat → FVal} (hv : ∀ l, readNarrow (compandOf s) f.toNat p.toNat (src s a l) = v l) :
    Writes (.dqnt bt f p d a) (vecNeed s d.toNat 1 [(a.toNat, 1)] false false false (if f = 0 then [8] else []) false) s d.toNat 1
      fun l => [BitVec.ofNat 32 (fp32.round {} (v l))] :=
  .of_vecFixed _ rfl rfl (fun l => congrArg (fun v => [rne32 v]) (hv l)) (.inl rfl) fun _ => rfl

theorem signed_of_element {k : Nat} (hk : 0 < k) (n : Nat) : FVal.ofInt (signedOf k n) = FVal.ofInt (BitVec.ofNat k (n % 2 ^ k)).toInt := by
  rw [signed_of_bits hk]
  congr 2
  exact BitVec.eq_of_toNat_eq (by simp)

end

theorem narrowWords : Sys2Proof.Claims.narrowWords := by
  intro s bt p d a c x table q e u
  have companded : compandOf s = table := compandOf_eq s
  refine ⟨⟨?_, ?_, ?_, ?_, ?_, ?_, ?_, ?_⟩, ?_, ?_, ?_, ?_, ?_, ?_, ?_, ?_⟩
  · have code : ∀ l, qntCode s 0 a l = cpEncode (c l) table (x l) := fun l => congrArg (fun t => cpEncode (c l) t (x l)) companded
    exact fun r bits => qnt_writes rfl code bits
  · exact fun r bits => qnt_writes rfl (fun _ => rfl) bits
  · exact fun r bits => qnt_writes rfl (fun _ => rfl) bits
  · exact fun r bits => qnt_writes rfl (fun _ => rfl) bits
  · exact fun r bits => qnt_writes rfl (fun _ => rfl) bits
  · exact fun r bits => qnt_writes rfl (fun _ => rfl) bits
  · exact fun r bits => qnt_writes rfl (fun _ => rfl) bits
  · exact fun r bits => qnt_writes rfl (fun _ => rfl) bits
  · exact dqnt_writes fun l => congrArg (fun t => cpDecode t (e 8 8 l)) companded
  · exact dqnt_writes fun _ => rfl
  · exact dqnt_writes fun _ => rfl
  · exact dqnt_writes fun _ => rfl
  · exact dqnt_writes fun _ => rfl
  · exact dqnt_writes fun _ => rfl
  · exact dqnt_writes fun l => signed_of_element (by decide) _
  · exact dqnt_writes fun l => signed_of_element (by decide) _

theorem narrowTops : Sys2Proof.Claims.narrowTops := by
  rintro ⟨mode, sat, ftz, q⟩ sg neg
  cases sat <;> cases sg <;> exact ⟨rfl, rfl, rfl, rfl, rfl, rfl, rfl, rfl, rfl, rfl, rfl, rfl, rfl, rfl, rfl, rfl⟩

theorem narrowExamples : Sys2Proof.Claims.narrowExamples := by
  unfold Sys2Proof.Claims.narrowExamples
  decide +kernel

theorem narrowFormats_roundOnce : ∀ f ∈ [e4m3, e5m2, e3m2, e2m3, e2m1], Sys2Proof.Claims.roundsOnce f := by
  intro f hf
  have shape : 0 < f.mb ∧ (f.tops = .e4m3 → f.signBit = 128) := by
    revert f
    decide
  exact roundsOnce_of f shape.1 shape.2

/-- Settles O5: a conversion is one number of its shape, rounded once; an integer target is the neighbour that the mode chooses, cut to its range;
and a narrow code fits the position that `QNT` puts it in. -/
theorem conversionsWriteTheirResults : Obligations.ConversionsWriteTheirResults :=
  ⟨conversionWords, integerTargets, narrowWords, narrowTops, narrowFormats_roundOnce, narrowExamples, by decide, by decide, by decide⟩

end Sys2Proof.Machine

/-! ### Reciprocals and roots (R77) -/

namespace Sys2Proof.Machine

section

variable {f : Fmt} {c : Ctl} {sg sticky : Bool} {n : Nat} {e : ℤ} {x y : ℝ}

/-- A magnitude whose integer part is known. -/
theorem Measured.of_floor (low : (n : ℝ) ≤ y) (high : y < n + 1) (hs : sticky = true ↔ (n : ℝ) ≠ y) (hx : x = y * 2 ^ e) :
    Measured n e (y - n) sticky x := by
  refine ⟨by rw [hx, add_sub_cancel], sub_nonneg.2 low, by linarith, ?_⟩
  rw [hs, sub_pos]
  exact ⟨fun h => lt_of_le_of_ne low h, ne_of_lt⟩

/-- A result rounded to nearest from an integer part of more bits than the format has. -/
theorem rounded_of_floor (ht : f.tops ≠ .e4m3) (hmb : 0 < f.mb) (mode : c.mode = 0) (low : (n : ℝ) ≤ y) (high : y < n + 1)
    (hs : sticky = true ↔ (n : ℝ) ≠ y) (hx : x = y * 2 ^ e) (bits : 2 ^ (f.mb + 1) ≤ n) : Rounded f c sg x (f.roundFin c sg n e sticky) := by
  have pos : 0 < n := (Nat.two_pow_pos _).trans_le bits
  refine roundFin_rounded (fun h => absurd h ht) hmb pos (.of_floor low high hs hx) (fun h => absurd (mode.symm.trans h) (by decide)) fun _ => ?_
  exact (Nat.le_log2 pos.ne').2 bits

/-- R77: the reciprocal is the exact quotient rounded once. -/
theorem recip_rounded {m : Nat} (ht : f.tops ≠ .e4m3) (hmb : 0 < f.mb ∧ f.mb ≤ 52) (mode : c.mode = 0) (hm : 0 < m) :
    Rounded f c sg (1 / (m * 2 ^ e)) (recip f c (.fin sg m e)) := by
  have quotient : recip f c (.fin sg m e) =
      f.roundFin c sg (2 ^ (Nat.log2 m + 130) / m) (-(e + (Nat.log2 m + 130 : ℕ))) (decide (2 ^ (Nat.log2 m + 130) % m ≠ 0)) :=
    if_neg hm.ne'
  have bits : 2 ^ 129 * m ≤ 2 ^ (Nat.log2 m + 130) := by
    rw [show Nat.log2 m + 130 = 129 + (Nat.log2 m + 1) by omega, pow_add]
    exact Nat.mul_le_mul_left _ (log2_bounds hm).2.le
  rw [quotient]
  generalize Nat.log2 m + 130 = k at *
  have split : (2 : ℝ) ^ k = m * (2 ^ k / m : ℕ) + (2 ^ k % m : ℕ) := by exact_mod_cast (Nat.div_add_mod (2 ^ k) m).symm
  have mpos : (0 : ℝ) < m := by exact_mod_cast hm
  have rest : ((2 ^ k % m : ℕ) : ℝ) < m := by exact_mod_cast Nat.mod_lt _ hm
  refine rounded_of_floor ht hmb.1 mode (y := 2 ^ k / m) ?_ ?_ ?_ ?_ ?_
  · rw [le_div_iff₀ mpos, split]
    have : (0 : ℝ) ≤ (2 ^ k % m : ℕ) := Nat.cast_nonneg _
    linarith
  · rw [div_lt_iff₀ mpos, split]
    linarith
  · rw [decide_eq_true_iff, ne_eq, ne_eq, eq_div_iff mpos.ne', split, not_iff_not]
    constructor
    · intro h
      rw [h]
      push_cast
      ring
    · intro h
      have : ((2 ^ k % m : ℕ) : ℝ) = 0 := by linarith
      exact_mod_cast this
  · rw [neg_add, zpow_add₀ (by norm_num), zpow_neg, zpow_neg, zpow_natCast]
    field_simp
  · rw [Nat.le_div_iff_mul_le hm]
    exact (Nat.mul_le_mul_right _ (Nat.pow_le_pow_right two_pos (by omega))).trans bits

/-! The integer root, bit by bit. -/

theorem isqrtAux_spec : ∀ {k n r : Nat}, r * r ≤ n → n < (r + 2 ^ k) * (r + 2 ^ k) →
    isqrtAux k n r * isqrtAux k n r ≤ n ∧ n < (isqrtAux k n r + 1) * (isqrtAux k n r + 1)
  | 0, n, r, low, high => ⟨low, high⟩
  | k + 1, n, r, low, high => by
    have double : r + 2 ^ (k + 1) = r + 2 ^ k + 2 ^ k := by rw [pow_succ]; omega
    rw [double] at high
    unfold isqrtAux
    dsimp only
    split_ifs with h
    · exact isqrtAux_spec h high
    · exact isqrtAux_spec low (not_le.1 h)

theorem isqrt_eq_sqrt (n : Nat) : isqrt n = Nat.sqrt n := by
  have high : n < (0 + 2 ^ (Nat.log2 n / 2 + 1)) * (0 + 2 ^ (Nat.log2 n / 2 + 1)) := by
    rw [Nat.zero_add, ← pow_add]
    exact Nat.lt_log2_self.trans_le (Nat.pow_le_pow_right two_pos (by omega))
  exact Nat.eq_sqrt.2 (isqrtAux_spec (Nat.zero_le _) high)

/-- The integer part of a root. -/
theorem root_rounded {z : ℝ} (ht : f.tops ≠ .e4m3) (hmb : 0 < f.mb ∧ f.mb ≤ 52) (mode : c.mode = 0) (low : (n : ℝ) * n ≤ z)
    (high : z < (n + 1) * (n + 1)) (hs : sticky = true ↔ (n : ℝ) * n ≠ z) (hx : x = Real.sqrt z * 2 ^ e) (bits : 2 ^ 53 ≤ n) :
    Rounded f c sg x (f.roundFin c sg n e sticky) := by
  have nonneg : (0 : ℝ) ≤ n := Nat.cast_nonneg n
  have zpos : 0 ≤ z := (mul_nonneg nonneg nonneg).trans low
  refine rounded_of_floor ht hmb.1 mode (Real.le_sqrt_of_sq_le (by rw [pow_two]; exact low)) ?_ ?_ hx ?_
  · rw [Real.sqrt_lt' (by positivity), pow_two]
    exact high
  · rw [hs, not_iff_not, eq_comm (a := (n : ℝ)), Real.sqrt_eq_iff_mul_self_eq zpos nonneg]
    exact eq_comm
  · exact (Nat.pow_le_pow_right two_pos (by omega)).trans bits

theorem sqrt_bounds (n : Nat) : ((Nat.sqrt n : ℕ) : ℝ) * (Nat.sqrt n : ℕ) ≤ n ∧ (n : ℝ) < ((Nat.sqrt n : ℕ) + 1) * ((Nat.sqrt n : ℕ) + 1) :=
  ⟨by exact_mod_cast Nat.sqrt_le n, by exact_mod_cast Nat.lt_succ_sqrt n⟩

theorem le_sqrt_of_le {k : Nat} (h : 2 ^ (2 * k) ≤ n) : 2 ^ k ≤ Nat.sqrt n := by
  rw [Nat.le_sqrt, ← pow_add, ← two_mul]
  exact h

theorem sqrt_mul_pow {z : ℝ} (hz : 0 ≤ z) (j : ℤ) : Real.sqrt (z * 2 ^ (2 * j)) = Real.sqrt z * 2 ^ j := by
  rw [Real.sqrt_mul hz, two_mul, zpow_add₀ (by norm_num), Real.sqrt_mul_self (by positivity)]

variable {m : Nat}

theorem sqrtF_fin (hm : 0 < m) : ∃ (k : ℕ) (j : ℤ), 140 ≤ k ∧ e = k + 2 * j ∧ sqrtF f c (.fin false m e) =
    f.roundFin c false (Nat.sqrt (m * 2 ^ k)) j (decide (Nat.sqrt (m * 2 ^ k) * Nat.sqrt (m * 2 ^ k) ≠ m * 2 ^ k)) := by
  have half : ∃ (k : ℕ) (j : ℤ), (if e % 2 = 0 then 140 else 141) = k ∧ (e - k) / 2 = j ∧ 140 ≤ k ∧ e = k + 2 * j := by
    split_ifs with h
    · exact ⟨140, (e - 140) / 2, rfl, rfl, le_rfl, by push_cast; omega⟩
    · exact ⟨141, (e - 141) / 2, rfl, rfl, by decide, by push_cast; omega⟩
  obtain ⟨k, j, hk, hj, big, he⟩ := half
  refine ⟨k, j, big, he, ?_⟩
  simp only [sqrtF, if_neg hm.ne', hk, hj, isqrt_eq_sqrt, Bool.false_eq_true, if_false]

/-- R77: the root is the exact one rounded once. -/
theorem sqrtF_rounded (ht : f.tops ≠ .e4m3) (hmb : 0 < f.mb ∧ f.mb ≤ 52) (mode : c.mode = 0) (hm : 0 < m) :
    Rounded f c false (Real.sqrt (m * 2 ^ e)) (sqrtF f c (.fin false m e)) := by
  obtain ⟨k, j, big, he, root⟩ := sqrtF_fin (f := f) (c := c) (e := e) hm
  rw [root]
  obtain ⟨low, high⟩ := sqrt_bounds (m * 2 ^ k)
  refine root_rounded ht hmb mode low high (by rw [decide_eq_true_iff]; exact_mod_cast Iff.rfl) ?_ (le_sqrt_of_le ?_)
  · rw [← sqrt_mul_pow (Nat.cast_nonneg _), he, zpow_add₀ (by norm_num), zpow_natCast]
    push_cast
    rw [mul_assoc]
  · exact (Nat.pow_le_pow_right two_pos (by omega)).trans (Nat.le_mul_of_pos_left _ hm)

theorem rsqrtF_fin (hm : 0 < m) (e : ℤ) : ∃ (m' : ℕ) (j : ℤ), 0 < m' ∧ (m : ℝ) * 2 ^ e = m' * 2 ^ (2 * j) ∧ rsqrtF f c (.fin false m e) =
    f.roundFin c false (Nat.sqrt (2 ^ (2 * (Nat.log2 m' + 140)) / m')) (-j - (Nat.log2 m' + 140 : ℕ))
      (decide (Nat.sqrt (2 ^ (2 * (Nat.log2 m' + 140)) / m') * Nat.sqrt (2 ^ (2 * (Nat.log2 m' + 140)) / m') * m' ≠ 2 ^ (2 * (Nat.log2 m' + 140)))) := by
  by_cases h : e % 2 = 0
  · refine ⟨m, e / 2, hm, by congr 2; omega, ?_⟩
    simp only [rsqrtF, if_neg hm.ne', if_pos h, isqrt_eq_sqrt, Bool.false_eq_true, if_false]
  · refine ⟨2 * m, (e - 1) / 2, by omega, ?_, ?_⟩
    · rw [show 2 * ((e - 1) / 2) = e - 1 by omega, zpow_sub_one₀ (by norm_num)]
      push_cast
      field_simp
    · simp only [rsqrtF, if_neg hm.ne', if_neg h, isqrt_eq_sqrt, Bool.false_eq_true, if_false]

/-- R77: the reciprocal root is the exact one rounded once. -/
theorem rsqrtF_rounded (ht : f.tops ≠ .e4m3) (hmb : 0 < f.mb ∧ f.mb ≤ 52) (mode : c.mode = 0) (hm : 0 < m) (e : ℤ) :
    Rounded f c false (1 / Real.sqrt (m * 2 ^ e)) (rsqrtF f c (.fin false m e)) := by
  obtain ⟨m', j, hm', same, root⟩ := rsqrtF_fin (f := f) (c := c) hm e
  have bits : 2 ^ (2 * 60) * m' ≤ 2 ^ (2 * (Nat.log2 m' + 140)) := by
    calc 2 ^ (2 * 60) * m' ≤ 2 ^ (2 * 60) * 2 ^ (Nat.log2 m' + 1) := Nat.mul_le_mul_left _ (log2_bounds hm').2.le
      _ = 2 ^ (2 * 60 + (Nat.log2 m' + 1)) := (pow_add ..).symm
      _ ≤ 2 ^ (2 * (Nat.log2 m' + 140)) := Nat.pow_le_pow_right two_pos (by omega)
  rw [root, same]
  generalize Nat.log2 m' + 140 = k at *
  have mpos : (0 : ℝ) < m' := by exact_mod_cast hm'
  obtain ⟨low, high⟩ := sqrt_bounds (2 ^ (2 * k) / m')
  have floor : (((2 ^ (2 * k) / m' : ℕ) : ℕ) : ℝ) ≤ 2 ^ (2 * k) / m' := by
    rw [le_div_iff₀ mpos]
    exact_mod_cast Nat.div_mul_le_self _ _
  have next : (2 : ℝ) ^ (2 * k) / m' < (Nat.sqrt (2 ^ (2 * k) / m') + 1) * (Nat.sqrt (2 ^ (2 * k) / m') + 1) := by
    rw [div_lt_iff₀ mpos]
    have := (Nat.div_lt_iff_lt_mul hm').1 (Nat.lt_succ_sqrt (2 ^ (2 * k) / m'))
    exact_mod_cast this
  refine root_rounded ht hmb mode (z := 2 ^ (2 * k) / m') (low.trans floor) next ?_ ?_ (le_sqrt_of_le (k := 53) ?_)
  · rw [decide_eq_true_iff, ne_eq, ne_eq, eq_div_iff mpos.ne']
    exact_mod_cast Iff.rfl
  · have inv : (1 : ℝ) / (m' * 2 ^ (2 * j)) = 2 ^ (2 * k) / m' * 2 ^ (2 * (-j - (k : ℤ))) := by
      rw [show (2 : ℤ) * (-j - k) = -(2 * j) - (2 * k : ℕ) by push_cast; ring, zpow_sub₀ (by norm_num), zpow_neg, zpow_natCast]
      field_simp
    rw [← Real.sqrt_one, ← Real.sqrt_div zero_le_one, inv, sqrt_mul_pow (by positivity)]
  · rw [Nat.le_div_iff_mul_le hm']
    exact (Nat.mul_le_mul_right _ (Nat.pow_le_pow_right two_pos (by decide))).trans bits

end

theorem exactRoots : Sys2Proof.Claims.exactRoots := by
  intro c sg m e mode hm x
  have shape : ∀ f ∈ [fp32, fp64], f.tops ≠ .e4m3 ∧ 0 < f.mb ∧ f.mb ≤ 52 := by decide
  refine ⟨fun f hf => ⟨?_, ?_⟩, rsqrtF_rounded (by decide) (by decide) mode hm e⟩
  · exact recip_rounded (shape f hf).1 (shape f hf).2 mode hm
  · exact sqrtF_rounded (shape f hf).1 (shape f hf).2 mode hm

end Sys2Proof.Machine

/-! ### The special cases of the special functions (R78) -/

namespace Sys2Proof.Machine

section

variable (f : Fmt) (c : Ctl) (sg : Bool)

/-- A power of two among the normal magnitudes is a code with a zero fraction. -/
theorem roundFin_one {w : ℤ} {b : Nat} (hb : (b : ℤ) = w + f.bias) (hpos : 0 < b) (hmax : b * 2 ^ f.mb ≤ f.maxCode) :
    f.roundFin c sg 1 w false = f.signed sg (b * 2 ^ f.mb) := by
  have at_ : spacing f 1 w = w - f.mb := by
    have : Nat.log2 1 = 0 := by decide
    unfold spacing
    omega
  have bin : binade f 1 w = b - 1 := by
    unfold binade
    omega
  have mag : f.roundMag c sg 1 w false = b * 2 ^ f.mb := by
    rw [roundMag_of_exact one_pos (by omega), bin, at_, show (-(w - f.mb - w)).toNat = f.mb by omega, one_mul, ← Nat.succ_mul]
    congr 1
    omega
  unfold Fmt.roundFin
  dsimp only
  rw [mag, if_neg (by omega), if_neg]
  have : ¬ b * 2 ^ f.mb < 2 ^ f.mb := not_lt.2 (Nat.le_mul_of_pos_left _ hpos)
  simp only [this, decide_false, Bool.and_false, Bool.false_eq_true, not_false_eq_true]

theorem infinite_fp32 : fp32.infinite c.sat sg = (if sg then 2 ^ 31 else 0) + if c.sat then 0x7F7FFFFF else 0x7F800000 := by
  cases hs : c.sat <;> cases sg <;> rfl

theorem infinite_fp64 : fp64.infinite c.sat sg = (if sg then 2 ^ 63 else 0) + if c.sat then 0x7FEFFFFFFFFFFFFF else 0x7FF0000000000000 := by
  cases hs : c.sat <;> cases sg <;> rfl

theorem signed_eq (n : Nat) : f.signed sg n = (if sg then f.signBit else 0) + n := by
  cases sg
  · exact (Nat.zero_add n).symm
  · rfl

/-- A multiple of π/2 at which the sine is zero. -/
theorem sinPiQ_zero (zero flip : Bool) (n den : Nat) : sinPiQ f c zero flip (n * den % (2 * den)) den = f.signed zero 0 := by
  have turn : n * den % (2 * den) = n % 2 * den := Nat.mul_mod_mul_right ..
  rw [turn]
  unfold sinPiQ
  rcases Nat.mod_two_eq_zero_or_one n with h | h
  · simp [h]
  · simp [h]

theorem sinPiF_int {m : Nat} (hm : 0 < m) (k : Nat) : sinPiF f c (.fin sg (m * 2 ^ k) (-(k : ℤ))) = f.signed sg 0 := by
  have pos : 0 < 2 ^ k := Nat.two_pow_pos k
  have := sinPiQ_zero f c sg sg m (2 ^ k)
  simp only [sinPiF, neg_neg, Int.toNat_natCast]
  rw [if_neg (Nat.mul_pos hm pos).ne', show (-(k : ℤ)).toNat = 0 by omega, pow_zero, mul_one, this]

theorem cosPiF_half (m k : Nat) : cosPiF f c (.fin sg ((2 * m + 1) * 2 ^ k) (-(k : ℤ) - 1)) = f.signed false 0 := by
  have zero := sinPiQ_zero f c false false (m + 1) (2 * 2 ^ (k + 1))
  have quarter : 2 * ((2 * m + 1) * 2 ^ k) + 2 * 2 ^ (k + 1) / 2 = (m + 1) * (2 * 2 ^ (k + 1)) := by
    rw [Nat.mul_div_cancel_left _ two_pos, pow_succ]
    ring
  simp only [cosPiF]
  rw [show (-(k : ℤ) - 1).toNat = 0 by omega, show (-(-(k : ℤ) - 1)).toNat = k + 1 by omega, pow_zero, mul_one, quarter, zero]

theorem log2_mul_pow {m : Nat} (hm : 0 < m) (k : Nat) : Nat.log2 (m * 2 ^ k) = Nat.log2 m + k := by
  rw [Nat.log2_eq_iff (by positivity)]
  obtain ⟨lo, hi⟩ := log2_bounds hm
  constructor
  · rw [pow_add]
    exact Nat.mul_le_mul_right _ lo
  · rw [show Nat.log2 m + k + 1 = Nat.log2 m + 1 + k by omega, pow_add]
    exact Nat.mul_lt_mul_of_pos_right hi (Nat.two_pow_pos k)

/-- 2 to an integer power below 2^11 is the power itself. -/
theorem exp2F_int {m : Nat} (hm : 0 < m) (hmax : m < 2 ^ 11) (k : Nat) :
    exp2F f c (.fin sg (m * 2 ^ k) (-(k : ℤ))) = f.roundFin c false 1 (if sg then -(m : ℤ) else m) false := by
  have pos : 0 < 2 ^ k := Nat.two_pow_pos k
  have small : Nat.log2 m < 11 := (Nat.log2_lt hm.ne').2 hmax
  simp only [exp2F, neg_neg, Int.toNat_natCast]
  rw [if_neg (Nat.mul_pos hm pos).ne', log2_mul_pow hm, if_neg (by push_cast; omega), show (-(k : ℤ)).toNat = 0 by omega, pow_zero, mul_one,
    Nat.mul_mod_left, ← Int.natCast_div, Nat.mul_div_cancel _ pos]
  cases sg <;> simp

theorem log2F_power (k : Nat) (e : ℤ) : log2F f c (.fin false (2 ^ k) e) = f.round c (FVal.ofInt (k + e)) := by
  simp [log2F, Nat.log2_two_pow]

theorem exp2F_zero (e : ℤ) : exp2F f c (.fin sg 0 e) = f.roundFin c false 1 0 false := by simp [exp2F]

end

theorem specialCases : Sys2Proof.Claims.specialCases := by
  intro c sg e m k mode zero below nan inf sign nan64 inf64 sign64
  have one : ∀ s, fp32.roundFin c s 1 0 false = (if s then 2 ^ 31 else 0) + 0x3F800000 := fun s =>
    (roundFin_one fp32 c s (b := 127) rfl (by decide) (by decide)).trans (signed_eq fp32 s _)
  have minus : fp32.infinite c.sat true = 2 ^ 31 + inf := infinite_fp32 c true
  have plus : fp32.infinite c.sat false = inf := (infinite_fp32 c false).trans (Nat.zero_add _)
  have plus64 : fp64.infinite c.sat false = inf64 := (infinite_fp64 c false).trans (Nat.zero_add _)
  have zeros : fp32.signed sg 0 = sign := signed_eq fp32 sg 0
  have zeros64 : fp64.signed sg 0 = sign64 := signed_eq fp64 sg 0
  refine ⟨?_, infinite_fp32 c sg, zeros, infinite_fp32 c sg, rfl, rfl, rfl, zeros, rfl, rfl, plus, rfl, plus, ?_, minus, rfl, rfl, plus, zeros, rfl,
    fun hm => ?_, rfl, ?_, zeros, ?_, infinite_fp64 c sg, zeros64, rfl, zeros64, rfl, rfl, plus64, rfl, fun hm => ?_, ?_⟩
  · intro f hf
    fin_cases hf <;> rfl
  · exact (exp2F_zero fp32 c sg e).trans ((one false).trans (Nat.zero_add _))
  · exact (sinPiF_int fp32 c sg hm k).trans zeros
  · exact cosPiF_half fp32 c sg m k
  · exact one sg
  · have power : exp2F fp32 c (.fin sg (m * 2 ^ k) (-(k : ℤ))) = fp32.roundFin c false 1 (if sg then -(m : ℤ) else m) false := by
      rcases Nat.eq_zero_or_pos m with rfl | pos
      · rw [Nat.zero_mul, exp2F_zero, Nat.cast_zero, neg_zero, ite_self]
      · exact exp2F_int fp32 c sg pos (by omega) k
    rw [power]
    have code : ∀ b : Nat, (b : ℤ) = (if sg then -(m : ℤ) else m) + 127 → 0 < b → b ≤ 254 →
        fp32.roundFin c false 1 (if sg then -(m : ℤ) else m) false = b * 2 ^ 23 := fun b hb pos le =>
      roundFin_one fp32 c false hb pos (show b * 2 ^ 23 ≤ 0x7F7FFFFF by omega)
    apply code <;> cases sg <;> simp <;> omega
  · exact log2F_power fp32 c k e

end Sys2Proof.Machine

/-! ### Special functions in flight (R85, R102) -/

namespace Sys2Proof.Machine

/-- Settles O7: quotients and roots are known by their integer parts, which have more bits than the format, and whether anything is left; the
special cases are the definition's own branches; and each word puts its function's results in flight. -/
theorem specialFunctionsLaunch : Obligations.SpecialFunctionsLaunch := by
  refine ⟨specialCases, exactRoots, ?_⟩
  intro s bt d a n n64 c u u64
  have single : ∀ {i : Instr} (f : Fmt → Ctl → FVal → Nat), exec i s = .next (specialWord d a f s) → Does i n s (u f) :=
    fun _ he => .of_vecVar _ he rfl fun _ => rfl
  have double : ∀ {i : Instr} (f : Fmt → Ctl → FVal → Nat), exec i s = .next (specialWord64 d a f s) → Does i n64 s (u64 f) :=
    fun _ he => .of_vecVar _ he rfl fun _ => rfl
  exact ⟨single recip rfl, single rsqrtF rfl, single sqrtF rfl, single exp2F rfl, single log2F rfl, single sinPiF rfl, single cosPiF rfl,
    single tanhF rfl, double sqrtF rfl, double recip rfl, by decide⟩

end Sys2Proof.Machine

/-! ### Atomics: what a run of them leaves (R229 to R231) -/

namespace Sys2Proof.Machine

/-- What performing an atomic leaves of a state, the operations in flight among it, but for tasks. -/
def opsFrame (s : State) : State := { storeFrame s with tasks := [] }

section

variable {D E : Nat → Prop} {f : State → State} {s t u : State} {g h k : Group}

theorem Kept.ofStores (h : Kept storeFrame D s t) : Kept opsFrame D s t :=
  ⟨congrArg (fun u : State => { u with tasks := [] }) h.frame, h.flight, h.pending, h.home⟩

theorem taskRead_ops (uid lane key : Nat) (bs : List Byte) (h : Within D s) : Kept opsFrame D s (taskRead uid lane key bs s).2 := by
  unfold taskRead
  split
  · exact .refl h
  · exact ⟨rfl, ⟨h.stores, h.dirty, h.loads⟩, fun _ hp => hp, fun _ _ => rfl⟩

theorem loadBytes_ops (uid lane core scope evc a n : Nat) (h : Within D s) : Kept opsFrame D s (loadBytes uid lane core scope evc a n s).2 := by
  have own := (drainOwn_kept uid lane (lineOf a) h).ofStores
  unfold loadBytes
  dsimp only
  split
  · exact (own.then fun h => (writeBackAt_kept core (lineOf a) h).ofStores).then (taskRead_ops _ _ _ _)
  · exact own.then fun h => (readMem_kept _ _ _ _ _ h).ofStores

theorem atomicPut_ops {op : AtomicOp} {x y : Word} {put : List Byte → State → State} {touch : State → State} {r : List Byte × State}
    (read : Kept opsFrame D s r.2) (hp : ∀ bs t, bs.length = 4 → Within D t → Kept storeFrame D t (put bs t))
    (ht : ∀ t, Within D t → Kept storeFrame D t (touch t)) : Kept opsFrame D s (atomicPut op x y put touch r).2 := by
  unfold atomicPut
  dsimp only
  split
  · exact read.then fun h => (hp _ _ (length_toBytes _ _) h).ofStores
  · exact read.then fun h => (ht _ h).ofStores

section

variable {op : AtomicOp} {pl : Place} {lane a : Nat} {x y : Word} (hD : pl ≠ .scratch → ∀ i, i < 4 → D (a + i))
include hD

/-- An atomic performed at its place beyond the L1. One in the scratchpad writes no home. -/
theorem atomicNow_ops (h : Within D s) :
    Kept opsFrame D s (atomicPut op x y (placeNow g pl lane a) (placeNow g pl lane a []) (placeExclusive g pl lane a 4 s)).2 :=
  atomicPut_ops (placeExclusive_kept g pl lane a 4 h).ofStores (fun _ _ hbs ht => placeNow_kept (fun hpl i hi => hD hpl i (hbs ▸ hi)) ht)
    fun _ ht => placeNow_kept (bs := []) (fun _ i hi => absurd hi (Nat.not_lt_zero i)) ht

theorem placeAtomic_ops {scope evc : Nat} (h : Within D s) : Kept opsFrame D s (placeAtomic g op pl scope evc lane a x y s).2 := by
  have drained := (drainCore_kept g.core (lineOf (taskKey g pl a)) h).ofStores
  unfold placeAtomic
  cases pl with
  | scratch => exact drained.then (atomicNow_ops hD)
  | window => exact drained.then (atomicNow_ops hD)
  | mem =>
    dsimp only
    split
    · refine drained.then fun h => atomicPut_ops (loadBytes_ops _ _ _ _ _ _ _ h) (fun bs t hbs ht => ?_) fun t ht => breakResv_kept _ _ _ ht
      exact (noteTask_kept _ _ _ ht).then (storeL1_kept fun i hi => hD (by decide) i (hbs ▸ hi))
    · exact (drained.then fun h => (keepLine_kept _ _ _ h).ofStores).then (atomicNow_ops hD)

end

/-! The issuer of the atomics. -/

theorem sameIssuer.refl (g : Group) : sameIssuer g g := ⟨rfl, rfl, fun _ => rfl⟩

theorem sameIssuer.trans (a : sameIssuer g h) (b : sameIssuer h k) : sameIssuer g k := by
  obtain ⟨same, flags, idle⟩ := a
  obtain ⟨same', flags', idle'⟩ := b
  refine ⟨by rw [same', same], flags'.trans flags, fun none => ?_⟩
  have still := idle none
  exact (idle' (still ▸ none)).trans still

theorem sameIssuer.of_loose (loose : looseGroup h = looseGroup g) (flags : h.ops.map (fun o => o.flag) = g.ops.map fun o => o.flag)
    (idle : (∀ o ∈ g.ops, o.loads = []) → h.ops = g.ops) : sameIssuer g h := by
  have arming : h.arming = g.arming := by
    change (looseGroup h).arming = (looseGroup g).arming
    rw [loose]
  refine ⟨?_, flags, idle⟩
  calc h = { looseGroup h with resv := h.resv, gwct := h.gwct, ops := h.ops } := rfl
    _ = { looseGroup g with resv := h.resv, gwct := h.gwct, ops := h.ops } := by rw [loose]
    _ = _ := by rw [arming]; rfl

/-- `t` comes from `s` by some of an issuer's accesses: what is in flight lies within `D`, the homes outside `D` are as before, and the issuer is
the same. -/
structure Accessed (D : Nat → Prop) (s t : State) : Prop where
  flight : Within D t
  home : ∀ a, ¬D a → homeByte t a = homeByte s a
  issuer : sameIssuer s.grp t.grp

theorem Accessed.refl (h : Within D s) : Accessed D s s := ⟨h, fun _ _ => rfl, .refl _⟩

theorem Accessed.trans (a : Accessed D s t) (b : Accessed D t u) : Accessed D s u :=
  ⟨b.flight, fun c hc => (b.home c hc).trans (a.home c hc), a.issuer.trans b.issuer⟩

theorem Accessed.ofOps (h : Kept opsFrame D s t) : Accessed D s t := by
  have frame : bareGroup t.grp = bareGroup s.grp := congrArg State.grp h.frame
  have ops : (bareGroup t.grp).ops = (bareGroup s.grp).ops := by rw [frame]
  exact ⟨h.flight, h.home, .of_loose (congrArg (fun g : Group => { g with ops := [] }) frame) (congrArg _ ops) fun _ => ops⟩

theorem performOps_flags (g : Group) (q : Nat → PLoad → Bool) (n : Nat) (l : List VarOp) (s : State) :
    (performOps g q n l s).1.map (fun o => o.flag) = l.map fun o => o.flag := by
  induction l generalizing n s with
  | nil => rfl
  | cons o l ih => exact congrArg (o.flag :: ·) (ih _ _)

theorem findGroup_own (s : State) : findGroup s.grp.uid s = some s.grp := if_pos rfl

theorem performLoads_idle (q : Nat → PLoad → Bool) (idle : ∀ o ∈ s.grp.ops, o.loads = []) : performLoads s.grp.uid q s = s := by
  have none : (s.grp.ops.all fun o => o.loads.isEmpty) = true := List.all_eq_true.2 fun o ho => by rw [idle o ho]; rfl
  simp only [performLoads, findGroup_own, none, if_true]

/-- The issuer's own loads are performed: its operations are the same ones. -/
theorem performLoads_accessed (q : Nat → PLoad → Bool) (h : Within D s) : Accessed D s (performLoads s.grp.uid q s) := by
  have kept := performLoads_kept s.grp.uid q h
  have loose : looseGroup (performLoads s.grp.uid q s).grp = looseGroup s.grp := congrArg State.grp kept.frame
  refine ⟨kept.flight, kept.home, .of_loose loose ?_ fun idle => by rw [performLoads_idle q idle]⟩
  unfold performLoads
  rw [findGroup_own]
  dsimp only
  split
  · rfl
  · have done := performOps_kept (g := s.grp) (q := dueLoads s.grp.ops q) 0 (h.loads s.grp List.mem_cons_self) h
    have uid : (performOps s.grp (dueLoads s.grp.ops q) 0 s.grp.ops s).2.grp.uid = s.grp.uid := by
      change (loadFrame (performOps s.grp (dueLoads s.grp.ops q) 0 s.grp.ops s).2).grp.uid = (loadFrame s).grp.uid
      rw [done.frame]
    unfold updGroup
    rw [if_pos uid]
    exact performOps_flags ..

theorem Within.mono (h : Within D s) (hDE : ∀ a, D a → E a) : Within E s :=
  ⟨fun p hp hlt i hi => hDE _ (h.stores p hp hlt i hi), fun c hc d hd => hDE _ (h.dirty c hc d hd),
    fun g hg o ho p hp ha i hi => hDE _ (h.loads g hg o ho p hp ha i hi)⟩

section

variable {op : AtomicOp} {pl : Place} {scope evc lane a : Nat} {ret : Bool} {x y : Word}

/-- R219, R230: one lane's atomic, whether it is performed now or is pending after it. -/
theorem laneAtomic_accessed (hD : pl ≠ .scratch → ∀ i, i < 4 → D (a + i)) (h : Within D s) :
    Accessed D s (laneAtomic op pl scope evc lane a ret x y s).2 := by
  have loads : Accessed D s (performAt s.grp.uid lane pl (lineOf a) s) := performLoads_accessed _ h
  unfold laneAtomic
  dsimp only
  split
  · exact loads.trans (.ofOps (placeAtomic_ops hD loads.flight))
  · refine ⟨⟨fun p hp => ?_, loads.flight.dirty, loads.flight.loads⟩, loads.home, loads.issuer⟩
    rcases List.mem_append.1 hp with hp | hp
    · exact loads.flight.stores p hp
    · obtain rfl := List.mem_singleton.1 hp
      cases pl with
      | scratch => exact fun lt => absurd lt (by simp [taskKey])
      | mem => exact fun _ i hi => hD (by decide) i hi
      | window => exact fun _ i hi => hD (by decide) i hi

/-- The atomics of the lanes, one after another. -/
theorem atomicRun_accessed {x y : Nat → Word} (run : List (Access × Nat))
    (hD : ∀ q ∈ run, pl ≠ .scratch → ∀ i, i < 4 → D (q.2 + i)) (h : Within D s) :
    Accessed D s (atomicRun op pl scope evc ret x y run s).2 := by
  induction run generalizing s with
  | nil => exact .refl h
  | cons q run ih =>
    have one : Accessed D s (laneAtomic op pl scope evc q.1.lane q.2 ret (x q.1.lane) (y q.1.lane) s).2 :=
      laneAtomic_accessed (hD q List.mem_cons_self) h
    exact one.trans (ih (fun q hq => hD q (List.mem_cons_of_mem _ hq)) one.flight)

theorem atomicRun_lanes {x y : Nat → Word} (run : List (Access × Nat)) (s : State) :
    (atomicRun op pl scope evc ret x y run s).1.map (fun q => q.1) = run.map fun q => q.1.lane := by
  induction run generalizing s with
  | nil => rfl
  | cons q run ih => exact congrArg (q.1.lane :: ·) (ih _)

end

theorem sampled_accessed (pl : Place) (run : List (Access × Nat)) (h : Within D s) : Accessed D s (sampled pl run s) := by
  unfold sampled takeSamples
  split
  · exact .refl h
  · split
    · exact .refl h
    · exact ⟨⟨h.stores, h.dirty, h.loads⟩, fun _ _ => rfl, .refl _⟩

end

end Sys2Proof.Machine

/-! ### Atomic words -/

namespace Sys2Proof.Machine

section

variable {s t u : State} {run : List (Access × Nat)} {o : MemOp}

theorem sameIssuer.quiet (h : sameIssuer s.grp t.grp) : quiet t = quiet s := by
  obtain ⟨same, -, -⟩ := h
  rw [Machine.quiet, Machine.quiet, same]

theorem sameIssuer.act (h : sameIssuer s.grp t.grp) : t.grp.act = s.grp.act := by
  obtain ⟨same, -, -⟩ := h
  rw [same]

/-- A memory word whose lanes all proceed. -/
theorem memWord_of_proceeds (h : proceeds s o run) (body : List (Access × Nat) → List (Nat × Nat) → State → State) :
    memWord o o.stores body s = body run [] (sampled (placeOf s.grp o.buf) run s) := by
  obtain ⟨go, tasks, meets⟩ := h
  simp only [memWord, go, tasks, meets]
  rfl

theorem afterPark_of_act {e : FEntry} (h : s.grp.act = some e) : afterPark s = finish s := by
  simp [afterPark, h]

theorem lanes_eq_nil {m : DWord} (h : lanes m = []) : m = 0 := by
  refine BitVec.eq_of_getLsbD_eq fun i hi => ?_
  by_contra hb
  have set : bit m i = true := by simpa [bit] using hb
  have : i ∈ lanes m := (mem_lanes m i).2 ⟨hi, set⟩
  rw [h] at this
  exact List.not_mem_nil this

theorem launchOp_act {e : FEntry} (h : u.grp.act = some e) (regs : List Reg) (ws : List RegWrite) (cs : List (Nat × Nat × Closure)) (ls : List PLoad) :
    ∃ e, (launchOp regs ws cs u ls).grp.act = some e := by
  unfold launchOp raiseOp
  split
  · exact ⟨e, h⟩
  · split
    · exact ⟨e, h⟩
    · exact ⟨_, congrArg (Option.map _) h⟩

theorem laneWrites_ne_nil (d l : Nat) (w : Word) (ws : List Word) : laneWrites d l (w :: ws) ≠ [] := by simp [laneWrites, indexed]

/-- A variable-latency result with no parked lane, where each active lane has a write or a load: with no active lane it is none. -/
theorem loadFinish_launches {d w kind : Nat} {ws zs : List RegWrite} {ls : List PLoad} {pos : Option Pos} {e : FEntry} (act : u.grp.act = some e)
    (some : ws = [] → zs = [] → ls = [] → active u = 0) :
    loadFinish kind d w ws zs [] pos u ls = finish (launchOp (plainRegs w d) (ws ++ zs) [] u ls) := by
  unfold loadFinish
  split_ifs with none
  · simp only [Bool.and_eq_true, List.isEmpty_iff] at none
    obtain ⟨⟨hw, hz⟩, hl⟩ := none
    rw [launchOp, if_pos (some hw hz hl)]
    exact afterPark_of_act act
  · obtain ⟨e, he⟩ := launchOp_act act (plainRegs w d) (ws ++ zs) [] ls
    exact afterPark_of_act he

end

section

variable {s : State} {op : AtomicOp} {n : BitVec 5} {d x : BitVec 8} {p : BitVec 2} {run : List (Access × Nat)}

/-- What an atomic word needs; `ACAS` has a second register. -/
def atomicNeeds (op : AtomicOp) (s : State) (d x : BitVec 8) : Need :=
  let need := atomicNeed s d x
  if op = .cas then { need with regs := need.regs ++ [.v (d.toNat + 1)] } else need

/-- `ACAS` with a code, or without a second register. -/
def casBad (op : AtomicOp) (s : State) (d : BitVec 8) : Prop := op = .cas ∧ (returning d = false ∨ s.grp.code.vregs ≤ d.toNat + 1)

/-- The access of an atomic word. -/
def atomicAccess (op : AtomicOp) (s : State) (n : BitVec 5) (d x : BitVec 8) (p : BitVec 2) : MemOp :=
  wordAccess s n x 4 1 true (atomicDet s op n (returning d) p) (if returning d then [0, 1] else [1])

/-- A lane's atomic that is performed later. -/
def atomicLater (s : State) (d : BitVec 8) (q : Access × Nat) : Bool := returning d && defers s q.1.lane

/-- The atomics of the lanes that are not performed later. -/
def atomicsNow (op : AtomicOp) (s : State) (n : BitVec 5) (d : BitVec 8) (p : BitVec 2) (run : List (Access × Nat)) : List (Nat × Word) × State :=
  atomicRun op (placeOf s.grp n.toNat) p.toNat (evcOf s) (returning d) (fun l => src s d l) (fun l => getV s.grp (d.toNat + 1) l)
    (run.filter fun q => !atomicLater s d q) (sampled (placeOf s.grp n.toNat) run s)

/-- Those that are. -/
def atomicsKept (op : AtomicOp) (s : State) (n : BitVec 5) (d : BitVec 8) (p : BitVec 2) (run : List (Access × Nat)) : List PLoad :=
  atomicsLater op (placeOf s.grp n.toNat) p.toNat (evcOf s) d.toNat (fun l => src s d l) (fun l => getV s.grp (d.toNat + 1) l)
    (run.filter (atomicLater s d))

/-- The register writes of a returning atomic: the old values, and 0 for the lanes out of bounds under CLAMP. -/
def atomicWrites (op : AtomicOp) (s : State) (n : BitVec 5) (d : BitVec 8) (p : BitVec 2) (run : List (Access × Nat)) : List RegWrite :=
  ((atomicsNow op s n d p run).1.flatMap fun q => laneWrites d.toNat q.1 [q.2])
    ++ ((lanes (active s)).filter fun l => !(run.any fun q => decide (q.1.lane = l))).flatMap fun l => laneWrites d.toNat l [0]

/-- The state after an atomic word's effect. -/
def atomicEffect (op : AtomicOp) (s : State) (n : BitVec 5) (d : BitVec 8) (p : BitVec 2) (run : List (Access × Nat)) : State :=
  if returning d then launchOp (plainRegs 1 d.toNat) (atomicWrites op s n d p run) [] (atomicsNow op s n d p run).2 (atomicsKept op s n d p run)
  else (atomicsNow op s n d p run).2

theorem atomicNeeds_eq (op : AtomicOp) (s : State) (d x : BitVec 8) : ({ atomicNeed s d x with
    regs := (atomicNeed s d x).regs ++ (if decide (op = .cas) then [.v (d.toNat + 1)] else []) } : Need) = atomicNeeds op s d x := by
  unfold atomicNeeds
  by_cases h : op = .cas <;> simp [h]

theorem atomicWord_bad (hr : ready (atomicNeeds op s d x) s) (bad : casBad op s d) :
    atomicWord op n d x p (decide (op = .cas)) s = takeTrap { cause := 0x02, mask := active s } s := by
  obtain ⟨rfl, why⟩ := bad
  have cond : (decide (AtomicOp.cas = .cas) && (!returning d || decide (d.toNat + 1 ≥ s.grp.code.vregs))) = true := by
    rcases why with h | h <;> simp [h]
  unfold atomicWord
  dsimp only
  rw [atomicNeeds_eq, word_run _ hr]
  exact if_pos cond

/-- The homes that an atomic word may change: of bytes in flight, and of its lanes' words. -/
def atomicHomes (s : State) (n : BitVec 5) (run : List (Access × Nat)) (a : Nat) : Prop :=
  inFlight s a = true ∨ covered (placeOf s.grp n.toNat) 4 run a

theorem atomicsNow_accessed (op : AtomicOp) (s : State) (n : BitVec 5) (d : BitVec 8) (p : BitVec 2) (run : List (Access × Nat)) :
    Accessed (atomicHomes s n run) s (atomicsNow op s n d p run).2 := by
  have start := sampled_accessed (placeOf s.grp n.toNat) run ((within_inFlight s).mono fun a => Or.inl (b := covered (placeOf s.grp n.toNat) 4 run a))
  refine start.trans (atomicRun_accessed _ (fun q hq hpl i hi => .inr ⟨hpl, q, (List.mem_filter.1 hq).1, ?_, ?_⟩) start.flight) <;> omega

theorem flatMap_laneWrites {α : Type} {l : List α} {lane : α → Nat} {w : α → Word} {d : Nat} (h : (l.flatMap fun a => laneWrites d (lane a) [w a]) = []) :
    l = [] :=
  List.eq_nil_iff_forall_not_mem.2 fun a ha => laneWrites_ne_nil _ _ _ _ (List.flatMap_eq_nil_iff.1 h a ha)

/-- Each active lane of an atomic word has a write or a load. -/
theorem atomic_lane_waits (hw : ((atomicsNow op s n d p run).1.flatMap fun q => laneWrites d.toNat q.1 [q.2]) = [])
    (hz : ((clampLanes s run []).flatMap fun l => laneWrites d.toNat l [0]) = []) (hl : atomicsKept op s n d p run = []) : active s = 0 := by
  have now : run.filter (fun q => !atomicLater s d q) = [] := by
    have none := atomicRun_lanes (op := op) (pl := placeOf s.grp n.toNat) (scope := p.toNat) (evc := evcOf s) (ret := returning d)
      (x := fun l => src s d l) (y := fun l => getV s.grp (d.toNat + 1) l) (run.filter fun q => !atomicLater s d q) (sampled (placeOf s.grp n.toNat) run s)
    rw [show (atomicRun _ _ _ _ _ _ _ _ _).1 = [] from flatMap_laneWrites hw] at none
    exact List.map_eq_nil_iff.1 none.symm
  have later : run.filter (atomicLater s d) = [] := List.map_eq_nil_iff.1 hl
  obtain rfl : run = [] := List.eq_nil_iff_forall_not_mem.2 fun q hq => by
    have notNow := List.filter_eq_nil_iff.1 now q hq
    have notLater := List.filter_eq_nil_iff.1 later q hq
    simp [notLater] at notNow
  have clamped := flatMap_laneWrites hz
  exact lanes_eq_nil (by simpa [clampLanes] using clamped)

theorem atomicWord_proceeds (hr : ready (atomicNeeds op s d x) s) (good : ¬casBad op s d) (hs : anySpec s = false)
    (hp : proceeds s (atomicAccess op s n d x p) run) : atomicWord op n d x p (decide (op = .cas)) s = finish (atomicEffect op s n d p run) := by
  have cond : (decide (op = .cas) && (!returning d || decide (d.toNat + 1 ≥ s.grp.code.vregs))) = false := by
    by_contra h
    refine good ?_
    simpa [casBad, imp_iff_not_or] using h
  have same := (atomicsNow_accessed op s n d p run).issuer
  obtain ⟨e, he⟩ := act_of_ready hr
  have act : (atomicsNow op s n d p run).2.grp.act = some e := same.act.trans he
  have mask : active (atomicsNow op s n d p run).2 = active s := by rw [active, active, same.act]
  unfold atomicWord
  dsimp only
  rw [atomicNeeds_eq, word_run _ hr, cond, hs, if_neg Bool.false_ne_true, if_neg Bool.false_ne_true]
  refine (memWord_of_proceeds hp _).trans ?_
  unfold atomicEffect
  split_ifs with ret
  · refine (loadFinish_launches act fun hw hz hl => mask.trans (atomic_lane_waits (op := op) (p := p) hw hz hl)).trans ?_
    simp only [clampLanes, List.any_nil, Bool.not_false, Bool.and_true]
    rfl
  · exact afterPark_of_act act

/-- What an atomic word does when its lanes proceed. -/
theorem atomicWord_completes (hr : ready (atomicNeeds op s d x) s) (good : ¬casBad op s d) (hs : anySpec s = false)
    (hp : proceeds s (atomicAccess op s n d x p) run) : ∃ t, atomicWord op n d x p (decide (op = .cas)) s = thenStep s t
      ∧ Completed (atomicEffect op s n d p run) t := by
  have same := (atomicsNow_accessed op s n d p run).issuer
  rw [atomicWord_proceeds hr good hs hp]
  have pc : curPc (atomicsNow op s n d p run).2 = curPc s := by rw [curPc, curPc, same.act]
  have mask : active (atomicsNow op s n d p run).2 = active s := by rw [active, active, same.act]
  refine finish_completes ?_ ?_ ?_ <;> unfold atomicEffect <;> split_ifs
  · exact (launchOp_quiet ..).trans same.quiet
  · exact same.quiet
  · exact (launchOp_curPc ..).trans pc
  · exact pc
  · exact (launchOp_active ..).trans mask
  · exact mask

end

theorem atomicWords : Sys2Proof.Claims.atomicWords := by
  intro s bt n d x p run pl ret atomic
  have all : ∀ i op, exec i s = .next (atomicWord op n d x p (decide (op = .cas)) s) → atomic i op := by
    intro i op he
    change _ ∧ _
    refine ⟨fun hr hb => by rw [he, atomicWord_bad hr hb], fun hr good hs hp => ?_⟩
    have ends := atomicsNow_accessed op s n d p run
    obtain ⟨t, ht, done⟩ := atomicWord_completes hr good hs hp
    refine ⟨⟨t, by rw [he, ht], done⟩, ends.issuer, fun a free outside => ends.home a ?_⟩
    rintro (flying | inside)
    · exact Bool.false_ne_true (free.symm.trans flying)
    · exact outside inside
  exact ⟨all _ .add rfl, all _ .min rfl, all _ .max rfl, all _ .umin rfl, all _ .umax rfl, all _ .and rfl, all _ .or rfl, all _ .xor rfl,
    all _ .xchg rfl, all _ .cas rfl, all _ .fadd rfl⟩

end Sys2Proof.Machine

/-! ### One lane's atomic where nothing is pending -/

namespace Sys2Proof.Machine

/-! What performing and writing back do where nothing is pending and no cache holds a line. -/

section

variable {s : State}

theorem performWhere_empty (p : PStore → Bool) (stores : s.stores = []) : performWhere p s = s := by
  simp only [performWhere, stores, splitStores]
  cases s
  cases stores
  rfl

theorem drainCore_empty (core line : Nat) (stores : s.stores = []) : drainCore core line s = s := performWhere_empty _ stores

theorem drainOwn_empty (uid lane line : Nat) (stores : s.stores = []) : drainOwn uid lane line s = s := performWhere_empty _ stores

/-- A change of each cached line. -/
theorem mapCaches_empty (f : CLine → CLine) (caches : s.caches = []) : { s with caches := s.caches.map f } = s := by
  cases s
  cases caches
  rfl

theorem writeBackAt_empty (core line : Nat) (caches : s.caches = []) : writeBackAt core line s = s := by
  simp only [writeBackAt, writeBackWhere, mapCaches_empty _ caches]
  rw [caches]
  rfl

theorem keepLine_empty (core line evc : Nat) (caches : s.caches = []) : keepLine core line evc s = s := by
  unfold keepLine
  split
  · exact mapCaches_empty _ caches
  · rfl

theorem refreshLine_empty (core line : Nat) (bytes : List Byte) (caches : s.caches = []) : refreshLine core line bytes s = s :=
  mapCaches_empty _ caches

theorem performAt_idle (lane : Nat) (pl : Place) (line : Nat) (idle : ∀ o ∈ s.grp.ops, o.loads = []) : performAt s.grp.uid lane pl line s = s :=
  performLoads_idle _ idle

end

/-! Words and their bytes. -/

theorem toBytes_four (w : Word) : toBytes 4 w.toNat = (List.range 4).map fun i => w.extractLsb' (8 * i) 8 := by
  have byte : ∀ v i, v = w.toNat / 2 ^ (8 * i) → BitVec.ofNat 8 v = w.extractLsb' (8 * i) 8 := fun v i h =>
    BitVec.eq_of_toNat_eq (by rw [BitVec.toNat_ofNat, BitVec.extractLsb'_toNat, Nat.shiftRight_eq_div_pow, h])
  simp only [toBytes, List.range, List.range.loop, List.map_cons, List.map_nil, List.cons.injEq, and_true]
  exact ⟨byte _ 0 (by omega), byte _ 1 (by omega), byte _ 2 (by omega), byte _ 3 (by omega)⟩

theorem wordOf_toBytes (w : Word) : wordOf (toBytes 4 w.toNat) = w := by
  refine BitVec.eq_of_toNat_eq ?_
  have lt := w.isLt
  simp only [wordOf, toBytes, ofBytes, BitVec.toNat_ofNat]
  omega

/-! What a store leaves at the homes and in the L1. -/

section

variable {s : State} {a : Nat}

theorem homeByte_performStore_bytes (here : peerGone s a = false) (who : Option (Nat × Nat)) (core : Nat) (bs : List Byte) (c : Nat) :
    homeByte (performStore who core a bs s) c = homeByte (setHomeBytes a bs (noteOld a bs s)) c := by
  unfold performStore
  rw [here, if_neg Bool.false_ne_true]
  dsimp only
  split
  · exact (homeByte_flitFrom _ _ c).trans (homeByte_raiseGwct _ _ _ c)
  · exact homeByte_raiseGwct _ _ _ c

/-- The bytes stored at a home that can be reached read back. -/
theorem homeBytes_performStore (here : peerGone s a = false) (who : Option (Nat × Nat)) (core : Nat) (bs : List Byte) :
    homeBytes (performStore who core a bs s) a bs.length = bs :=
  (homeBytes_congr fun _ _ => homeByte_performStore_bytes here who core bs _).trans (homeBytes_setHomeBytes a bs _)

/-- A store of no byte. -/
theorem homeByte_performStore_nil (here : peerGone s a = false) (who : Option (Nat × Nat)) (core c : Nat) :
    homeByte (performStore who core a [] s) c = homeByte s c := homeByte_performStore_bytes here who core [] c

theorem sfind_foldl_sins {α : Type} (o k : Nat) (l : List α) (n : Nat) (m : Sparse α) (h : k < l.length) :
    sfind (o + (n + k)) ((indexed n l).foldl (fun m p => sins (o + p.1) p.2 m) m) = l[k]? := by
  have before : ∀ (l : List α) (n j : Nat) (m : Sparse α), j < n →
      sfind (o + j) ((indexed n l).foldl (fun m p => sins (o + p.1) p.2 m) m) = sfind (o + j) m := by
    intro l
    induction l with
    | nil => exact fun _ _ _ _ => rfl
    | cons b l ih =>
      intro n j m lt
      simp only [indexed, List.foldl_cons]
      rw [ih _ _ _ (by omega), sfind_sins, if_neg (by omega)]
  induction l generalizing n k m with
  | nil => exact absurd h (Nat.not_lt_zero k)
  | cons b l ih =>
    simp only [indexed, List.foldl_cons]
    cases k with
    | zero => rw [before _ _ _ _ (by omega), Nat.add_zero, sfind_sins, if_pos rfl]; rfl
    | succ k =>
      rw [show n + (k + 1) = n + 1 + k by omega, ih _ _ _ (Nat.lt_of_succ_lt_succ h)]
      rfl

/-- The line that a cache now holds. -/
theorem findLine_putLine {lvl unit line : Nat} {c : CLine} (key : c.lvl = lvl ∧ c.unit = unit ∧ c.line = line) (s : State) :
    findLine lvl unit line (putLine c s) = some c := by
  obtain ⟨rfl, rfl, rfl⟩ := key
  unfold putLine
  split
  · obtain ⟨d, hd⟩ := Option.isSome_iff_exists.1 ‹_›
    have isd : d.lvl = c.lvl ∧ d.unit = c.unit ∧ d.line = c.line := by simpa [and_assoc] using List.find?_some hd
    have same : ((fun e : CLine => decide (e.lvl = c.lvl) && decide (e.unit = c.unit) && decide (e.line = c.line)) ∘
        fun e => if e.lvl = c.lvl ∧ e.unit = c.unit ∧ e.line = c.line then c else e)
        = fun e => decide (e.lvl = c.lvl) && decide (e.unit = c.unit) && decide (e.line = c.line) := by
      funext e
      by_cases he : e.lvl = c.lvl ∧ e.unit = c.unit ∧ e.line = c.line
      · simp [he]
      · simp only [Function.comp_apply, if_neg he]
    rw [findLine, List.find?_map, same]
    exact (congrArg _ hd).trans (congrArg some (if_pos isd))
  · rename_i missing
    have none : findLine c.lvl c.unit c.line s = none := by simpa using missing
    rw [findLine, List.find?_append, show List.find? _ s.caches = Option.none from none]
    simp

theorem lineEntry_key (lvl unit line : Nat) (s : State) : ((findLine lvl unit line s).getD { lvl := lvl, unit := unit, line := line }).lvl = lvl
    ∧ ((findLine lvl unit line s).getD { lvl := lvl, unit := unit, line := line }).unit = unit
    ∧ ((findLine lvl unit line s).getD { lvl := lvl, unit := unit, line := line }).line = line := by
  cases hl : findLine lvl unit line s with
  | none => exact ⟨rfl, rfl, rfl⟩
  | some c => simpa [and_assoc] using List.find?_some hl

theorem findLine_breakResv (lvl unit line : Nat) (who : Option (Nat × Nat)) (pl l : Nat) (s : State) :
    findLine lvl unit line (breakResv who pl l s) = findLine lvl unit line s := rfl

/-- The bytes of a word stored in the L1 are dirty there. -/
theorem storeL1_dirty (uid lane core evc a : Nat) (w : Word) (s : State) :
    ∃ c, findLine 1 core (lineOf a) (storeL1 uid lane core evc a (toBytes 4 w.toNat) s) = some c
      ∧ ∀ i, i < 4 → sfind (a % 128 + i) c.dirty = some (w.extractLsb' (8 * i) 8) := by
  unfold storeL1
  dsimp only
  rw [findLine_breakResv]
  refine ⟨_, findLine_putLine ?key s, fun i hi => ?_⟩
  case key => exact lineEntry_key 1 core (lineOf a) s
  have stored := sfind_foldl_sins (a % 128) i (toBytes 4 w.toNat) 0 ((findLine 1 core (lineOf a) s).getD { lvl := 1, unit := core, line := lineOf a }).dirty
    (by rwa [length_toBytes])
  rw [Nat.zero_add] at stored
  refine stored.trans ?_
  rw [toBytes_four, List.getElem?_map, List.getElem?_range hi]
  rfl

theorem homeByte_putLine (c : CLine) (s : State) (b : Nat) : homeByte (putLine c s) b = homeByte s b := by
  unfold putLine
  split <;> rfl

theorem homeByte_storeL1 (uid lane core evc a : Nat) (bs : List Byte) (s : State) (b : Nat) :
    homeByte (storeL1 uid lane core evc a bs s) b = homeByte s b := homeByte_putLine _ s b

theorem homeByte_grantLease (line : Nat) (s : State) (b : Nat) : homeByte (grantLease line s).2 b = homeByte s b := by
  unfold grantLease
  split <;> rfl

end

/-! What is read where nothing is pending and no cache holds a line. -/

section

variable {s : State} {a : Nat}

/-- Bytes of one line. -/
theorem homeBytes_ofLine (s : State) {a n : Nat} (line : a % 128 + n ≤ 128) :
    ((homeBytes s (128 * lineOf a) 128).drop (a % 128)).take n = homeBytes s a n := by
  have length : ∀ m b, (homeBytes s b m).length = m := by
    intro m
    induction m with
    | zero => exact fun _ => rfl
    | succ m ih => exact fun b => congrArg Nat.succ (ih _)
  have split : 128 = a % 128 + (n + (128 - (a % 128 + n))) := by omega
  have place : 128 * lineOf a + a % 128 = a := Nat.div_add_mod a 128
  rw [split, homeBytes_add, ← split, List.drop_left' (length _ _), place, homeBytes_add, List.take_left' (length _ _)]

theorem homeByte_readHome (core evc n : Nat) (lease : Bool) (caches : s.caches = []) (b : Nat) :
    homeByte (readHome core lease evc a n s).2 b = homeByte s b := by
  unfold readHome
  dsimp only
  rw [writeBackAt_empty _ _ caches]
  split
  · have granted := (homeByte_grantLease (lineOf a) (flitFrom a s) b).trans (homeByte_flitFrom a s b)
    split
    · exact (homeByte_putLine _ _ b).trans granted
    · exact (homeByte_putLine _ _ b).trans ((homeByte_putLine _ _ b).trans granted)
  · exact homeByte_flitFrom a s b

theorem readHome_bytes (core evc n : Nat) (lease : Bool) (caches : s.caches = []) :
    (readHome core lease evc a n s).1 = ((homeBytes s (128 * lineOf a) 128).drop (a % 128)).take n := by
  unfold readHome
  dsimp only
  rw [writeBackAt_empty _ _ caches]
  split <;> rfl

/-- A load at workgroup or core scope finds the bytes of the home. -/
theorem loadBytes_empty {uid lane core scope evc n : Nat} (stores : s.stores = []) (caches : s.caches = []) (plain : specTask s uid lane = none)
    (near : scope ≤ 1) (cached : evc ≠ 3) (line : a % 128 + n ≤ 128) :
    (loadBytes uid lane core scope evc a n s).1 = homeBytes s a n ∧ ∀ b, homeByte (loadBytes uid lane core scope evc a n s).2 b = homeByte s b := by
  have copy : readCopy core scope evc a n s = readHome core true evc a n s := by
    unfold readCopy
    rw [if_neg (by omega), findLine, caches]
    exact if_pos near
  have keep : ∀ t b, homeByte (keepLine core (lineOf a) evc t) b = homeByte t b := by
    intro t b
    unfold keepLine
    split <;> rfl
  have load : loadBytes uid lane core scope evc a n s
      = ((readHome core true evc a n s).1, keepLine core (lineOf a) evc (readHome core true evc a n s).2) := by
    unfold loadBytes
    dsimp only
    rw [drainOwn_empty _ _ _ stores, plain]
    dsimp only
    rw [readMem, copy]
  rw [load]
  exact ⟨(readHome_bytes core evc n true caches).trans (homeBytes_ofLine s line),
    fun b => (keep _ b).trans (homeByte_readHome core evc n true caches b)⟩

theorem loadHome_empty (uid lane core a n : Nat) (stores : s.stores = []) (caches : s.caches = []) :
    loadHome uid lane core a n s = (homeBytes s a n, flitFrom a s) := by
  have kept : (flitFrom a s).caches = [] := by
    unfold flitFrom
    split <;> exact caches
  unfold loadHome
  dsimp only
  rw [drainOwn_empty _ _ _ stores, writeBackAt_empty _ _ caches, refreshLine_empty _ _ _ kept]

theorem storeHome_empty (uid lane core a : Nat) (bs : List Byte) (stores : s.stores = []) (caches : s.caches = []) :
    storeHome uid lane core a bs s = performStore (some (uid, lane)) core a bs s := by
  unfold storeHome
  rw [drainCore_empty _ _ stores, writeBackAt_empty _ _ caches]

end

/-! The atomic itself. -/

section

variable {s : State} {op : AtomicOp} {scope evc lane a : Nat} {x y : Word}

theorem peerGone_flitFrom (a : Nat) (s : State) (c : Nat) : peerGone (flitFrom a s) c = peerGone s c :=
  peerGone_of_loadFrame (loadFrame_of_storeFrame (storeFrame_flitFrom a s)) c

theorem flitFrom_empty (stores : s.stores = []) (caches : s.caches = []) : (flitFrom a s).stores = [] ∧ (flitFrom a s).caches = [] := by
  unfold flitFrom
  split <;> exact ⟨stores, caches⟩

/-- Beyond the L1 an atomic reads its home and stores there. -/
theorem placeAtomic_home (stores : s.stores = []) (caches : s.caches = []) (far : 2 ≤ scope ∨ evc = 3) :
    placeAtomic s.grp op .mem scope evc lane a x y s
      = atomicPut op x y (fun bs => performStore (some (s.grp.uid, lane)) s.grp.core a bs) (performStore (some (s.grp.uid, lane)) s.grp.core a [])
          (homeBytes s a 4, flitFrom a s) := by
  obtain ⟨stores', caches'⟩ := flitFrom_empty (a := a) stores caches
  have put : ∀ bs, storeHome s.grp.uid lane s.grp.core a bs (flitFrom a s) = performStore (some (s.grp.uid, lane)) s.grp.core a bs (flitFrom a s) :=
    fun bs => storeHome_empty _ _ _ _ bs stores' caches'
  unfold placeAtomic
  dsimp only
  rw [drainCore_empty _ _ stores, if_neg (by omega), keepLine_empty _ _ _ caches]
  simp only [placeExclusive, loadHome_empty _ _ _ _ _ stores caches, atomicPut, placeNow, put]

theorem placeAtomic_far (stores : s.stores = []) (caches : s.caches = []) (here : peerGone s a = false) (far : 2 ≤ scope ∨ evc = 3) :
    let old := wordOf (homeBytes s a 4)
    let r := placeAtomic s.grp op .mem scope evc lane a x y s
    r.1 = old ∧ (op ≠ .cas ∨ old = x → wordOf (homeBytes r.2 a 4) = atomicNew op old x y)
      ∧ (op = .cas → old ≠ x → ∀ b, homeByte r.2 b = homeByte s b) := by
  have here' : peerGone (flitFrom a s) a = false := (peerGone_flitFrom a s a).trans here
  dsimp only
  rw [placeAtomic_home stores caches far]
  refine ⟨rfl, fun stored => ?_, fun hop hne b => ?_⟩
  · have yes : atomicStores op (wordOf (homeBytes s a 4)) x = true := by simpa [atomicStores] using stored
    have read := homeBytes_performStore here' (some (s.grp.uid, lane)) s.grp.core (toBytes 4 (atomicNew op (wordOf (homeBytes s a 4)) x y).toNat)
    rw [length_toBytes] at read
    simp only [atomicPut, yes, if_true]
    rw [read, wordOf_toBytes]
  · have no : atomicStores op (wordOf (homeBytes s a 4)) x = false := by simp [atomicStores, hop, hne]
    simp only [atomicPut, no, if_neg Bool.false_ne_true]
    exact (homeByte_performStore_nil here' _ _ b).trans (homeByte_flitFrom a s b)

theorem placeAtomic_near (stores : s.stores = []) (caches : s.caches = []) (plain : specTask s s.grp.uid lane = none) (line : a % 128 + 4 ≤ 128)
    (near : scope ≤ 1) (cached : evc ≠ 3) :
    let old := wordOf (homeBytes s a 4)
    let r := placeAtomic s.grp op .mem scope evc lane a x y s
    r.1 = old ∧ (∀ b, homeByte r.2 b = homeByte s b)
      ∧ (op ≠ .cas ∨ old = x → ∃ c, findLine 1 s.grp.core (a / 128) r.2 = some c
        ∧ ∀ i, i < 4 → sfind (a % 128 + i) c.dirty = some ((atomicNew op old x y).extractLsb' (8 * i) 8)) := by
  obtain ⟨read, homes⟩ := loadBytes_empty (core := s.grp.core) stores caches plain near cached line
  have same : ∀ bs t, (∀ b, homeByte t b = homeByte s b) → ∀ b,
      homeByte (storeL1 s.grp.uid lane s.grp.core evc a bs (noteTask (some (s.grp.uid, lane)) a bs t)) b = homeByte s b :=
    fun bs t ht b => (homeByte_storeL1 _ _ _ _ _ _ _ b).trans (ht b)
  unfold placeAtomic
  dsimp only
  rw [drainCore_empty _ _ stores, if_pos ⟨near, cached⟩]
  simp only [atomicPut, read]
  refine ⟨trivial, fun b => ?_, fun stored => ?_⟩
  · split
    · exact same _ _ homes b
    · exact homes b
  · have yes : atomicStores op (wordOf (homeBytes s a 4)) x = true := by simpa [atomicStores] using stored
    rw [yes, if_pos rfl]
    exact storeL1_dirty _ _ _ _ _ _ _

/-- A load in flight that is an atomic. -/
theorem performLoad_atomic {g : Group} {q : PLoad} (how : q.how = .atomic op x y) (found : q.lost = false)
    (here : q.place = .mem → peerGone s q.addr = false) :
    performLoad g q s = (loadWrites q.reg q.lane [(placeAtomic g op q.place q.scope q.evc q.lane q.addr x y s).1],
      (placeAtomic g op q.place q.scope q.evc q.lane q.addr x y s).2) := by
  have reach : ¬(q.place = .mem ∧ (q.lost || peerGone s q.addr) = true) := by
    rintro ⟨mem, gone⟩
    rw [found, here mem] at gone
    exact Bool.false_ne_true gone
  rw [performLoad, if_neg reach]
  simp only [loadWords, how]

end

/-! Assembled as the claims state them. -/

theorem laneAtomics : Sys2Proof.Claims.laneAtomics := by
  intro s g q op scope evc lane a x y old r rest plain here line
  obtain ⟨idle, stores, caches⟩ := rest
  have at_once : performAt s.grp.uid lane .mem (lineOf a) s = s := performAt_idle _ _ _ idle
  refine ⟨placeAtomic_far stores caches here, placeAtomic_near stores caches plain line, ?_, performLoad_atomic, fun hevc det => ?_⟩
  · unfold laneAtomic
    rw [at_once]
    rfl
  · have pending : (false || (ctxOf s).det || evc == 3) = false := by simp [det, hevc]
    unfold laneAtomic
    rw [at_once]
    simp only [pending, if_neg Bool.false_ne_true, stores, List.nil_append]
    rfl

theorem atomicValues : Sys2Proof.Claims.atomicValues := by
  intro old x y
  have least : atomicNew .min old x y = if x.toInt < old.toInt then x else old := by
    simp only [atomicNew, ← not_lt, ite_not]
  have greatest : atomicNew .max old x y = if old.toInt < x.toInt then x else old := by
    simp only [atomicNew, ge_iff_le, ← not_lt, ite_not]
  have lowest : atomicNew .umin old x y = if x.toNat < old.toNat then x else old := by
    simp only [atomicNew, BitVec.le_def, ← not_lt, ite_not]
  have highest : atomicNew .umax old x y = if old.toNat < x.toNat then x else old := by
    simp only [atomicNew, ge_iff_le, BitVec.le_def, ← not_lt, ite_not]
  exact ⟨rfl, least, greatest, lowest, highest, rfl, rfl, rfl, rfl, rfl, rfl⟩

/-- Settles O27: an atomic word waits, traps or runs its lanes in ascending order, and a run of lanes keeps the issuer and the homes beside its own
words; where nothing is pending, one lane's atomic reads its home and stores there or in the L1. -/
theorem atomicsComplete : Obligations.AtomicsComplete := ⟨atomicWords, laneAtomics, atomicValues⟩

end Sys2Proof.Machine

/-! ### `RND` (R99) -/

namespace Sys2Proof.Machine

section

variable {w : Nat}

/-- A word is known by its exclusive or with its own upper bits: a difference would be equal to a shift of itself. -/
theorem xorShift_injective {k : Nat} (hk : 0 < k) : Function.Injective fun x : BitVec w => x ^^^ (x >>> k) := by
  intro x y (h : x ^^^ (x >>> k) = y ^^^ (y >>> k))
  have shifted : x ^^^ y = (x ^^^ y) >>> k := by
    rw [BitVec.ushiftRight_xor_distrib, ← BitVec.xor_eq_zero_iff]
    calc x ^^^ y ^^^ (x >>> k ^^^ y >>> k) = (x ^^^ (x >>> k)) ^^^ (y ^^^ (y >>> k)) := by ac_rfl
      _ = 0#w := by rw [h, BitVec.xor_self]
  have zero : x ^^^ y = 0#w := by
    apply BitVec.eq_of_toNat_eq
    have fixed := congrArg BitVec.toNat shifted
    rw [BitVec.toNat_ushiftRight, Nat.shiftRight_eq_div_pow] at fixed
    refine Nat.eq_zero_of_not_pos fun pos => ?_
    exact (Nat.div_lt_self pos (Nat.one_lt_two_pow hk.ne')).ne fixed.symm
  exact BitVec.xor_eq_zero_iff.1 zero

theorem mul_injective_of_inverse {c c' : BitVec w} (h : c * c' = 1#w) : Function.Injective fun x : BitVec w => x * c :=
  Function.LeftInverse.injective (g := fun x => x * c') fun x => by
    dsimp only
    rw [BitVec.mul_assoc, h, BitVec.mul_one]

end

theorem mix_bijective : Function.Bijective mix := by
  refine Finite.injective_iff_bijective.1 ?_
  have first : Function.Injective fun x : Word => x * 0x7FEB352D := mul_injective_of_inverse (c' := 0x1D69E2A5) (by decide)
  have second : Function.Injective fun x : Word => x * 0x846CA68B := mul_injective_of_inverse (c' := 0x43021123) (by decide)
  have upper : Function.Injective fun x : Word => x ^^^ (x >>> 16) := xorShift_injective (by decide)
  have middle : Function.Injective fun x : Word => x ^^^ (x >>> 15) := xorShift_injective (by decide)
  exact upper.comp (second.comp (middle.comp (first.comp upper)))

theorem xor_bijective (key : Word) : Function.Bijective fun counter : Word => counter ^^^ key :=
  Function.Involutive.bijective fun counter => by
    rw [BitVec.xor_assoc, BitVec.xor_self, BitVec.xor_zero]

theorem rnd_writes (s : State) (bt : BitVec 1) (d a b : BitVec 8) :
    Writes (.rnd bt d a b) (vecNeed s d.toNat 1 [(a.toNat, 1), (b.toNat, 1)] false false false [] false) s d.toNat 1
      (fun l => [mix (src s a l ^^^ mix (src s b l ^^^ 0x5BD1E995))]) :=
  .of_vec3 _ rfl fun _ => rfl

/-- Settles O3: each step of the mix is injective, the multiplications since their factors are odd, so that the mix is a bijection of the words. -/
theorem rndHashesAndIsABijection : Obligations.RndHashesAndIsABijection := by
  intro s bt d a b w key x1 x2
  exact ⟨rfl, rnd_writes s bt d a b, mix_bijective.comp (xor_bijective _), by decide⟩

end Sys2Proof.Machine

/-! ### Integer, bit, dot-product and permute words (R92 to R98) -/

namespace Sys2Proof.Machine

/-! High words of products (R92). -/

section

variable (x y : Word)

/-- The upper word of an integer's two's complement in 64 bits. -/
theorem highWord_of_int (p : ℤ) : BitVec.ofInt 32 (p / 2 ^ 32) = ((BitVec.ofInt 64 p) >>> 32).setWidth 32 := by
  apply BitVec.eq_of_toNat_eq
  simp only [BitVec.toNat_ofInt, BitVec.toNat_setWidth, BitVec.toNat_ushiftRight, Nat.shiftRight_eq_div_pow]
  omega

theorem highWord_signed : BitVec.ofInt 32 (x.toInt * y.toInt / 2 ^ 32) = ((x.signExtend 64 * y.signExtend 64) >>> 32).setWidth 32 := by
  rw [highWord_of_int, BitVec.ofInt_mul]
  rfl

theorem highWord_unsigned : BitVec.ofNat 32 (x.toNat * y.toNat / 2 ^ 32) = ((x.zeroExtend 64 * y.zeroExtend 64) >>> 32).setWidth 32 := by
  have product : x.zeroExtend 64 * y.zeroExtend 64 = BitVec.ofInt 64 (x.toNat * y.toNat : ℕ) := by
    rw [BitVec.ofInt_natCast, BitVec.ofNat_mul, BitVec.ofNat_toNat, BitVec.ofNat_toNat]
  rw [product, ← highWord_of_int, ← BitVec.ofInt_natCast]
  rfl

end

/-! Shifts by an amount that need not be below 32 (R93). -/

section

variable (x : Word) (n : Nat)

theorem shl32_eq : shl32 x n = x <<< n := by
  unfold shl32
  split_ifs with h
  · exact (BitVec.shiftLeft_eq_zero h).symm
  · rfl

theorem shr32_eq : shr32 x n = x >>> n := by
  unfold shr32
  split_ifs with h
  · exact (BitVec.ushiftRight_eq_zero h).symm
  · rfl

theorem sar32_eq : sar32 x n = x.sshiftRight n := by
  rcases Nat.lt_or_ge n 32 with small | large
  · exact if_neg (not_le.2 small)
  · have spread : x.sshiftRight n = if x.getLsbD 31 then BitVec.allOnes 32 else 0 := by
      refine BitVec.eq_of_getLsbD_eq fun i hi => ?_
      rw [BitVec.getLsbD_sshiftRight, if_neg (by omega), BitVec.msb_eq_getLsbD_last]
      cases x.getLsbD 31
      · simp
      · rw [if_pos rfl, BitVec.getLsbD_allOnes]
        simp [hi]
    exact (if_pos large).trans spread.symm

end

/-! Fields of a word as numbers (R96, R98). -/

section

variable (x y z : Word)

theorem signed_of_field (k i : Nat) (hk : 0 < k) : signedOf k (x.toNat / 2 ^ i) = (x.extractLsb' i k).toInt := by
  rw [signed_of_bits hk, ← Nat.shiftRight_eq_div_pow]
  rfl

theorem dotSum_eq {k : Nat} (hk : 0 < k) (n : Nat) : dotSum k x y n =
    ((List.range n).map fun i => (x.extractLsb' (k * i) k).toInt * (y.extractLsb' (k * i) k).toInt).sum := by
  induction n with
  | zero => rfl
  | succ n ih =>
    rw [dotSum, ih, signed_of_field x k _ hk, signed_of_field y k _ hk]
    simp [List.range_succ]

/-- The byte that a selector's number names: of A, then of B. -/
def namedByte (c : Nat) : BitVec 8 := if c < 4 then x.extractLsb' (8 * c) 8 else y.extractLsb' (8 * (c - 4)) 8

theorem namedByte_toNat {c : Nat} (hc : c < 8) : (namedByte x y c).toNat = (x.toNat + 2 ^ 32 * y.toNat) / 2 ^ (8 * c) % 256 := by
  have := x.isLt
  unfold namedByte
  split_ifs with low
  · rw [BitVec.extractLsb'_toNat, Nat.shiftRight_eq_div_pow]
    interval_cases c <;> omega
  · rw [BitVec.extractLsb'_toNat, Nat.shiftRight_eq_div_pow]
    interval_cases c <;> omega

/-- The byte that a selector gives: the named one, or its sign in every bit. -/
def pickedByte (sel : BitVec 4) : BitVec 8 :=
  if sel.getLsbD 3 then (if (namedByte x y (sel.toNat % 8)).getLsbD 7 then 0xFF#8 else 0#8) else namedByte x y (sel.toNat % 8)

theorem prmtByte_eq (j : Nat) : prmtByte z x y j = (pickedByte x y (z.extractLsb' (4 * j) 4)).toNat := by
  have sel : (z.extractLsb' (4 * j) 4).toNat = z.toNat / 2 ^ (4 * j) % 16 := by
    rw [BitVec.extractLsb'_toNat, Nat.shiftRight_eq_div_pow]
  unfold prmtByte pickedByte
  dsimp only
  rw [BitVec.getLsbD_succ_last, BitVec.getLsbD_succ_last, ← sel, ← namedByte_toNat x y (Nat.mod_lt _ (by decide))]
  generalize z.extractLsb' (4 * j) 4 = c
  generalize namedByte x y (c.toNat % 8) = named
  simp only [decide_eq_true_eq]
  rcases Nat.lt_or_ge c.toNat 8 with plain | sign
  · rw [if_pos plain, if_neg (show ¬2 ^ 3 ≤ c.toNat by omega)]
  · rw [if_neg (not_lt.2 sign), if_pos (show 2 ^ 3 ≤ c.toNat from sign)]
    exact (apply_ite BitVec.toNat (2 ^ 7 ≤ named.toNat) 0xFF#8 0#8).symm

/-- Four bytes side by side. -/
theorem bytes_append (b0 b1 b2 b3 : BitVec 8) :
    BitVec.ofNat 32 (b0.toNat + 2 ^ 8 * b1.toNat + 2 ^ 16 * b2.toNat + 2 ^ 24 * b3.toNat) = b3 ++ b2 ++ b1 ++ b0 := by
  apply BitVec.eq_of_toNat_eq
  rw [BitVec.toNat_append, BitVec.toNat_append, BitVec.toNat_append]
  rw [← Nat.shiftLeft_add_eq_or_of_lt b2.isLt, ← Nat.shiftLeft_add_eq_or_of_lt b1.isLt, ← Nat.shiftLeft_add_eq_or_of_lt b0.isLt]
  simp only [BitVec.toNat_ofNat, Nat.shiftLeft_eq]
  omega

end

theorem integerWords : Sys2Proof.Claims.integerWords := by
  intro s bt d a b n x y z
  refine ⟨?_, ?_, ?_, ?_, ?_, ?_, ?_, ?_⟩
  · exact .of_vec3 _ rfl fun _ => rfl
  · exact .of_vec3 _ rfl fun _ => rfl
  · exact .of_vec3 _ rfl fun _ => rfl
  · exact .of_vec3 _ rfl fun l => highWord_signed (x l) (y l)
  · exact .of_vec3 _ rfl fun l => highWord_unsigned (x l) (y l)
  · exact .of_vec3 _ rfl fun _ => rfl
  · exact .of_vec3 _ rfl fun _ => rfl
  · exact .of_vec3 _ rfl fun _ => rfl

theorem bitWords : Sys2Proof.Claims.bitWords := by
  intro s bt d a b n x y
  refine ⟨?_, ?_, ?_, ?_, ?_, ?_, ?_, ?_⟩
  · exact .of_vec3 _ rfl fun _ => rfl
  · exact .of_vec3 _ rfl fun _ => rfl
  · exact .of_vec3 _ rfl fun _ => rfl
  · exact .of_vec3 _ rfl fun _ => rfl
  · exact .of_vec3 _ rfl fun l => shl32_eq (x l) (y l).toNat
  · exact .of_vec3 _ rfl fun l => shr32_eq (x l) (y l).toNat
  · exact .of_vec3 _ rfl fun l => sar32_eq (x l) (y l).toNat
  · exact .of_vec3 _ rfl fun _ => rfl

theorem pickWords : Sys2Proof.Claims.pickWords := by
  intro s bt d a b n x y z byte pick
  refine ⟨?_, ?_, ?_, ?_, ?_, rnd_writes s bt d a b⟩
  · exact .of_vec3 _ rfl fun _ => rfl
  · exact .of_vec3 _ rfl fun _ => rfl
  · exact .of_vec3 _ rfl fun l => by rw [dotSum_eq (src s a l) (src s b l) (by decide)]
  · exact .of_vec3 _ rfl fun l => by rw [dotSum_eq (src s a l) (src s b l) (by decide)]
  · refine .of_vec3 _ rfl fun l => ?_
    rw [prmtByte_eq, prmtByte_eq, prmtByte_eq, prmtByte_eq]
    exact bytes_append (pick l 0) (pick l 1) (pick l 2) (pick l 3)

/-- Settles O2: high words are those of the two's complement product, shifts by 32 or more leave no bit or only the sign, and the fields of a word are
its quotients by powers of two. -/
theorem integerWordsWriteTheirResults : Obligations.IntegerWordsWriteTheirResults := ⟨integerWords, bitWords, pickWords⟩

end Sys2Proof.Machine

/-! ### Integer unary and immediate words (R109, R111) -/

namespace Sys2Proof.Machine

section

variable (x : Word)

theorem popcount_eq (n : Nat) : popcount x n = (List.range n).countP x.getLsbD := by
  induction n with
  | zero => rfl
  | succ n ih => rw [popcount, ih, List.range_succ, List.countP_append, List.countP_singleton]

/-- The highest set bit of a word, where it has one. -/
def topBit : Option Nat := ((List.range 32).filter x.getLsbD).getLast?

theorem topBit_zero : topBit 0 = none := by
  unfold topBit
  rw [List.getLast?_eq_none_iff, List.filter_eq_nil_iff]
  intro i _
  simp

/-- No bit of a word is set above its logarithm. -/
theorem topBit_of_ne_zero {x : Word} (hx : x ≠ 0) : topBit x = some (Nat.log2 x.toNat) := by
  have nz : x.toNat ≠ 0 := fun h => hx (BitVec.eq_of_toNat_eq h)
  have small : Nat.log2 x.toNat < 32 := (Nat.log2_lt nz).2 x.isLt
  have set : x.getLsbD (Nat.log2 x.toNat) = true := Nat.testBit_log2 nz
  have above : ∀ i, Nat.log2 x.toNat < i → x.getLsbD i = false := fun i hi =>
    Nat.testBit_lt_two_pow (Nat.lt_log2_self.trans_le (Nat.pow_le_pow_right two_pos hi))
  generalize Nat.log2 x.toNat = k at *
  have cut : List.range 32 = List.range k ++ [k] ++ (List.range (31 - k)).map (k + 1 + ·) := by
    rw [← List.range_succ, ← List.range_add]
    congr 1
    omega
  have rest : ((List.range (31 - k)).map (k + 1 + ·)).filter x.getLsbD = [] := by
    rw [List.filter_eq_nil_iff]
    intro i hi
    obtain ⟨j, -, rfl⟩ := List.mem_map.1 hi
    simp [above (k + 1 + j) (by omega)]
  unfold topBit
  rw [cut, List.filter_append, List.filter_append, rest, List.append_nil, List.filter_singleton, set]
  exact List.getLast?_concat

/-- What is given by the logarithm of a word other than 0 is given by its highest bit. -/
theorem of_topBit {α : Type} (zero : α) (found : Nat → α) :
    (if x = 0 then zero else found (Nat.log2 x.toNat)) = (topBit x).elim zero found := by
  split_ifs with h
  · rw [h, topBit_zero, Option.elim_none]
  · rw [topBit_of_ne_zero h, Option.elim_some]

theorem clz_eq : (if x = 0 then 32 else BitVec.ofNat 32 (31 - Nat.log2 x.toNat)) = match topBit x with
    | some i => BitVec.ofNat 32 (31 - i)
    | none => 32#32 :=
  (of_topBit x 32 fun i => BitVec.ofNat 32 (31 - i)).trans (by cases topBit x <;> rfl)

theorem bfind_eq : (if x = 0 then 0xFFFFFFFF else BitVec.ofNat 32 (Nat.log2 x.toNat)) = match topBit x with
    | some i => BitVec.ofNat 32 i
    | none => 0xFFFFFFFF#32 :=
  (of_topBit x 0xFFFFFFFF fun i => BitVec.ofNat 32 i).trans (by cases topBit x <;> rfl)

theorem reverse_eq : x.reverse = BitVec.ofFnLE fun i : Fin 32 => x.getLsbD (31 - i) := by
  refine BitVec.eq_of_getLsbD_eq fun i hi => ?_
  rw [BitVec.getLsbD_reverse, BitVec.getMsbD_eq_getLsbD, BitVec.getLsbD_ofFnLE, dif_pos hi]
  simp [hi]

theorem sign_iff : x.getLsbD 31 = true ↔ x.toInt < 0 := by
  rw [BitVec.getLsbD_succ_last, decide_eq_true_iff, BitVec.toInt_neg_iff]
  omega

end

theorem unaryWords : Sys2Proof.Claims.unaryWords := by
  intro s bt d a n x top
  refine ⟨?_, ?_, ?_, ?_, ?_, ?_⟩
  · exact .of_vec2 _ rfl fun l => by rw [popcount_eq]
  · exact .of_vec2 _ rfl fun l => clz_eq (x l)
  · exact .of_vec2 _ rfl fun l => reverse_eq (x l)
  · exact .of_vec2 _ rfl fun l => bfind_eq (x l)
  · exact .of_vec2 _ rfl fun _ => rfl
  · exact .of_vec2 _ rfl fun l => if_congr (sign_iff (x l)) rfl rfl

/-- R111: an `XIMM` payload stands above the seven bits of the field. -/
theorem payload_above_field {w : Nat} (h : BitVec w) (k : BitVec 7) :
    h.signExtend 32 <<< 7 ||| k.zeroExtend 32 = BitVec.ofInt 32 (h.toInt * 128 + k.toNat) := by
  have apart : h.signExtend 32 <<< 7 &&& k.zeroExtend 32 = 0#32 := by
    refine BitVec.eq_of_getLsbD_eq fun i hi => ?_
    rw [BitVec.getLsbD_and, BitVec.getLsbD_shiftLeft, BitVec.getLsbD_setWidth]
    rcases Nat.lt_or_ge i 7 with low | high
    · simp [low]
    · simp [BitVec.getLsbD_of_ge k i high]
  have upper : h.signExtend 32 <<< 7 = BitVec.ofInt 32 (h.toInt * 128) := by
    rw [BitVec.ofInt_mul, BitVec.shiftLeft_eq_mul_twoPow]
    rfl
  rw [← BitVec.add_eq_or_of_and_eq_zero _ _ apart, upper, BitVec.ofInt_add, BitVec.ofInt_natCast, BitVec.ofNat_toNat]

theorem imm7_eq (s : State) (k : BitVec 7) : imm7 s k = match (curHints s).imm with
    | some h => BitVec.ofInt 32 (h.toInt * 128 + k.toNat)
    | none => BitVec.ofInt 32 k.toInt := by
  unfold imm7 effImm
  cases (curHints s).imm with
  | some h => exact payload_above_field h k
  | none => rfl

theorem immediateWords : Sys2Proof.Claims.immediateWords := by
  intro s bt d a k q n x i
  have imm : imm7 s k = i := imm7_eq s k
  refine ⟨?_, ?_, ?_, ?_, ?_, ?_, ?_, ?_, ?_⟩
  · exact .of_vecImm _ rfl fun l => congrArg (x l + ·) imm
  · exact .of_vecImm _ rfl fun l => congrArg (x l * ·) imm
  · exact .of_vecImm _ rfl fun l => shl32_eq (x l) q.toNat
  · exact .of_vecImm _ rfl fun l => shr32_eq (x l) q.toNat
  · exact .of_vecImm _ rfl fun l => sar32_eq (x l) q.toNat
  · exact .of_vecImm _ rfl fun l => congrArg (x l &&& ·) imm
  · exact .of_vecImm _ rfl fun l => congrArg (x l ||| ·) imm
  · exact .of_vecImm _ rfl fun l => congrArg (x l ^^^ ·) imm
  · exact .of_vecImm _ rfl fun _ => imm

/-- Settles O6: the highest set bit is the logarithm, and a payload stands above the field without a carry. -/
theorem unaryAndImmediateWordsWriteTheirResults : Obligations.UnaryAndImmediateWordsWriteTheirResults := ⟨unaryWords, immediateWords⟩

end Sys2Proof.Machine

/-! ### Moves, rounding, fractions and classes (R101, R103, R104) -/

namespace Sys2Proof.Machine

/-- A class 7 word that does not round writes what its function gives. -/
theorem Writes.of_bitWord {i : Instr} {s : State} {d a : BitVec 8} {dw aw : Nat} {fs : List Nat} {g : Nat → List Word}
    (f : State → Nat → List Word) (he : exec i s = .next (bitWord d a dw aw fs f s)) (hg : ∀ l, f s l = g l)
    (hw : dw = 1 ∨ dw = 2 ∨ dw = 4) (hf : ∀ l, (g l).length = dw) :
    Writes i (vecNeed s d.toNat dw [(a.toNat, aw)] false false false fs false) s d.toNat dw g :=
  .of_vecFixed f he rfl hg hw hf

/-! `FNEG` and `FABS` in their three forms. -/

section

variable {i : Instr} {s : State} {d a : BitVec 8} {one two : Word → Word}

theorem signWord_single : signWord 0 d a one two s = bitWord d a 1 1 [] (fun s l => [one (src s a l)]) s := rfl

theorem signWord_pair : signWord 1 d a one two s = bitWord d a 2 2 [1] (fun s l => [srcWord s a.toNat 0 l, one (srcWord s a.toNat 1 l)]) s := rfl

theorem signWord_halves : signWord 2 d a one two s = bitWord d a 1 1 [] (fun s l => [two (src s a l)]) s := rfl

variable (one two)

theorem Writes.of_sign_single (he : exec i s = .next (signWord 0 d a one two s)) :
    Writes i (vecNeed s d.toNat 1 [(a.toNat, 1)] false false false [] false) s d.toNat 1 fun l => [one (srcWord s a.toNat 0 l)] :=
  .of_bitWord _ (he.trans (congrArg _ signWord_single)) (fun _ => rfl) (.inl rfl) fun _ => rfl

theorem Writes.of_sign_pair (he : exec i s = .next (signWord 1 d a one two s)) :
    Writes i (vecNeed s d.toNat 2 [(a.toNat, 2)] false false false [1] false) s d.toNat 2
      fun l => [srcWord s a.toNat 0 l, one (srcWord s a.toNat 1 l)] :=
  .of_bitWord _ (he.trans (congrArg _ signWord_pair)) (fun _ => rfl) (.inr (.inl rfl)) fun _ => rfl

theorem Writes.of_sign_halves (he : exec i s = .next (signWord 2 d a one two s)) :
    Writes i (vecNeed s d.toNat 1 [(a.toNat, 1)] false false false [] false) s d.toNat 1 fun l => [two (srcWord s a.toNat 0 l)] :=
  .of_bitWord _ (he.trans (congrArg _ signWord_halves)) (fun _ => rfl) (.inl rfl) fun _ => rfl

end

theorem moveWords : Sys2Proof.Claims.moveWords := by
  intro s bt m d a n w
  refine ⟨?_, ?_, ?_, ?_, ?_, ?_, ?_, ?_, ?_, ?_, ?_, ?_, ?_⟩
  · exact .of_bitWord _ rfl (fun _ => rfl) (.inl rfl) fun _ => rfl
  · exact .of_bitWord _ rfl (fun _ => rfl) (.inr (.inl rfl)) fun _ => rfl
  · exact .of_bitWord _ rfl (fun _ => rfl) (.inr (.inr rfl)) fun _ => rfl
  · exact .of_sign_single (· ^^^ 0x80000000) (· ^^^ 0x80008000) rfl
  · exact .of_sign_pair (· ^^^ 0x80000000) (· ^^^ 0x80008000) rfl
  · exact .of_sign_halves (· ^^^ 0x80000000) (· ^^^ 0x80008000) rfl
  · exact .of_sign_single (· &&& 0x7FFFFFFF) (· &&& 0x7FFF7FFF) rfl
  · exact .of_sign_pair (· &&& 0x7FFFFFFF) (· &&& 0x7FFF7FFF) rfl
  · exact .of_sign_halves (· &&& 0x7FFFFFFF) (· &&& 0x7FFF7FFF) rfl
  · exact .of_vec2 _ rfl fun _ => rfl
  · exact .of_vec2 _ rfl fun _ => rfl
  · exact .of_bitWord _ rfl (fun _ => rfl) (.inl rfl) fun _ => rfl
  · exact .of_bitWord _ rfl (fun _ => rfl) (.inl rfl) fun _ => rfl

/-! An FP32 word is its sign and its magnitude code (R62). -/

section

variable (x : Word)

/-- The magnitude code of an FP32 word. -/
def magnitude : Nat := x.toNat % 2 ^ 31

theorem magnitude_lt : magnitude x < fp32.signBit := Nat.mod_lt _ (by decide)

theorem signed_magnitude : fp32.signed (x.getLsbD 31) (magnitude x) = x.toNat := by
  have := x.isLt
  rw [BitVec.getLsbD_succ_last]
  unfold magnitude
  rcases Nat.lt_or_ge x.toNat (2 ^ 31) with plus | minus
  · rw [decide_eq_false (not_le.2 plus), Nat.mod_eq_of_lt plus]
    rfl
  · rw [decide_eq_true minus]
    show 2 ^ 31 + x.toNat % 2 ^ 31 = x.toNat
    omega

theorem f32_eq : f32 x = if magnitude x / 2 ^ 23 = 255 then (if magnitude x % 2 ^ 23 = 0 then .inf (x.getLsbD 31) else .nan)
    else if magnitude x / 2 ^ 23 = 0 then .fin (x.getLsbD 31) (magnitude x % 2 ^ 23) (1 - 127 - 23)
    else .fin (x.getLsbD 31) (2 ^ 23 + magnitude x % 2 ^ 23) (((magnitude x / 2 ^ 23 : ℕ) : ℤ) - 127 - 23) := by
  unfold f32
  rw [← signed_magnitude x]
  exact decode_signed _ rfl (magnitude_lt x)

theorem exponent_eq_iff (k : BitVec 8) : x.extractLsb' 23 8 = k ↔ magnitude x / 2 ^ 23 = k.toNat := by
  have field : (x.extractLsb' 23 8).toNat = magnitude x / 2 ^ 23 := by
    rw [BitVec.extractLsb'_toNat, Nat.shiftRight_eq_div_pow, magnitude]
    omega
  rw [← field, BitVec.toNat_inj]

theorem fraction_eq_zero_iff : x.extractLsb' 0 23 = 0 ↔ magnitude x % 2 ^ 23 = 0 := by
  have field : (x.extractLsb' 0 23).toNat = magnitude x % 2 ^ 23 := by
    rw [BitVec.extractLsb'_toNat, Nat.shiftRight_zero, magnitude]
    omega
  rw [← field, ← BitVec.toNat_inj]
  rfl

end

/-! The class of a value, kind by kind (R104). -/

section

variable {f : Fmt} {code m : Nat} {e : ℤ} {sg : Bool}

theorem classMask_nan (h : f.decode code = .nan) : classMask f code = 0x100 := by
  unfold classMask
  rw [h]

theorem classMask_inf (h : f.decode code = .inf sg) : classMask f code = if sg then 0x001 else 0x080 := by
  unfold classMask
  rw [h]

theorem classMask_fin (h : f.decode code = .fin sg m e) : classMask f code =
    if m = 0 then (if sg then 0x008 else 0x010) else if m < 2 ^ f.mb then (if sg then 0x004 else 0x020) else (if sg then 0x002 else 0x040) := by
  unfold classMask
  rw [h]

end

theorem classMaskBits : Sys2Proof.Claims.classMaskBits := by
  intro x e f neg
  have value := f32_eq x
  have infinite : e = 255#8 ↔ magnitude x / 2 ^ 23 = 255 := exponent_eq_iff x 255
  have subnormal : e = 0 ↔ magnitude x / 2 ^ 23 = 0 := exponent_eq_iff x 0
  have whole : f = 0 ↔ magnitude x % 2 ^ 23 = 0 := fraction_eq_zero_iff x
  have small : magnitude x % 2 ^ 23 < 2 ^ 23 := Nat.mod_lt _ (by decide)
  simp only [ne_eq, infinite, subnormal, whole]
  generalize magnitude x / 2 ^ 23 = E at *
  generalize magnitude x % 2 ^ 23 = F at *
  rcases eq_or_ne E 255 with rfl | finite
  · rw [if_pos rfl] at value
    rcases eq_or_ne F 0 with rfl | nz
    · rw [if_pos rfl] at value
      rw [classMask_inf value]
      simp [neg]
    · rw [if_neg nz] at value
      rw [classMask_nan value]
      simp [nz]
  · rw [if_neg finite] at value
    rcases eq_or_ne E 0 with rfl | normal
    · rw [if_pos rfl] at value
      rw [classMask_fin value]
      rcases eq_or_ne F 0 with rfl | nz
      · simp [neg]
      · simp [nz, neg, fp32, show F < 8388608 from small]
    · rw [if_neg normal] at value
      rw [classMask_fin value]
      simp [finite, normal, neg, fp32]

/-! Whole and zero operands (R103). -/

section

variable {f : Fmt} {c : Ctl} {sg : Bool} {m : Nat}

/-- A whole number is exact when its bits are those of the format and zeros below them. -/
theorem roundMag_whole (bits : Nat.log2 m = f.mb) (hm : 0 < m) (hbias : 0 < f.bias) (j : Nat) :
    f.roundMag c sg (m * 2 ^ j) 0 false = (j + f.mb + f.bias - 1) * 2 ^ f.mb + m := by
  have pos : 0 < 2 ^ j := Nat.two_pow_pos j
  have unit : spacing f (m * 2 ^ j) 0 = j := by
    unfold spacing
    rw [log2_mul_pow hm, bits]
    omega
  have place : binade f (m * 2 ^ j) 0 = j + f.mb + f.bias - 1 := by
    unfold binade
    rw [unit]
    omega
  rcases Nat.eq_zero_or_pos j with rfl | cut
  · rw [roundMag_of_exact (by omega) (by omega), place, unit]
    simp
  · rw [roundMag_of_cut (by positivity) (by omega), place, unit, sub_zero, Int.toNat_natCast, Nat.mul_div_cancel _ pos, Nat.mul_mod_left,
      roundsUp_exact]
    rfl

end

section

variable {x : Word} {sg : Bool} {m : Nat} {e : ℤ}

/-- A finite FP32 word is subnormal or normal. -/
theorem magnitude_of_fin (h : f32 x = .fin sg m e) : x.toNat = fp32.signed sg (magnitude x)
    ∧ (magnitude x < 2 ^ 23 ∧ m = magnitude x ∧ e < 0
      ∨ magnitude x < 255 * 2 ^ 23 ∧ magnitude x + 2 ^ 23 = magnitude x / 2 ^ 23 * 2 ^ 23 + m ∧ 2 ^ 23 ≤ m ∧ m < 2 ^ 24
        ∧ e + 150 = (magnitude x / 2 ^ 23 : ℕ)) := by
  have value := f32_eq x
  have code := signed_magnitude x
  have lt : magnitude x < 2 ^ 31 := magnitude_lt x
  rw [h] at value
  split_ifs at value with top low
  · obtain ⟨rfl, frac, exponent⟩ := FVal.fin.inj value
    exact ⟨code.symm, .inl (by omega)⟩
  · obtain ⟨rfl, frac, exponent⟩ := FVal.fin.inj value
    exact ⟨code.symm, .inr (by omega)⟩

/-- A zero keeps its sign through a rounding. -/
theorem rne32_zero (h : f32 x = .fin sg 0 e) : rne32 (.fin sg 0 0) = x := by
  obtain ⟨code, kind⟩ := magnitude_of_fin h
  have zero : magnitude x = 0 := by omega
  rw [zero, ← roundFin_zero fp32 {} sg false 0] at code
  exact (congrArg (BitVec.ofNat 32) code.symm).trans (by simp)

/-- A whole FP32 value is normal. -/
theorem normal_of_whole {j : Nat} (h : f32 x = .fin sg m j) :
    2 ^ 23 ≤ m ∧ m < 2 ^ 24 ∧ x.toNat = fp32.signed sg ((j + 149) * 2 ^ 23 + m) ∧ (j + 149) * 2 ^ 23 + m < 255 * 2 ^ 23 := by
  obtain ⟨code, kind⟩ := magnitude_of_fin h
  have same : (j + 149) * 2 ^ 23 + m = magnitude x := by omega
  rw [same]
  exact ⟨by omega, by omega, code, by omega⟩

/-- A whole FP32 value rounds to itself. -/
theorem rne32_whole {j : Nat} (h : f32 x = .fin sg m j) : rne32 (.fin sg (m * 2 ^ j) 0) = x := by
  obtain ⟨low, high, code, max⟩ := normal_of_whole h
  have pos : 0 < m := by omega
  have bits : Nat.log2 m = 23 := (Nat.log2_eq_iff pos.ne').2 ⟨low, high⟩
  have mag : fp32.roundMag {} sg (m * 2 ^ j) 0 false = (j + 149) * 2 ^ 23 + m := by
    rw [roundMag_whole bits pos (by decide) j]
    rfl
  have rounded : fp32.roundFin {} sg (m * 2 ^ j) 0 false = x.toNat := by
    unfold Fmt.roundFin
    have fits : ¬(j + 149) * 2 ^ 23 + m > fp32.maxCode := not_lt.2 (Nat.le_sub_one_of_lt max)
    dsimp only
    rw [mag, if_neg fits, code]
    rfl
  exact (congrArg (BitVec.ofNat 32) rounded).trans (by simp)

end

/-! `FRINT` and `FFRAC` by the kind of their operand (R103). -/

section

variable {x : Word} {sg : Bool} {m k : Nat}

theorem frint_fin {e : ℤ} (mode : Nat) (h : f32 x = .fin sg m e) : frint mode x = rne32 (.fin sg (roundNat { mode := mode } sg m e) 0) := by
  unfold frint
  rw [h]
  dsimp only
  split_ifs with zero
  · subst zero
    have none : roundNat { mode := mode } sg 0 e = 0 := by
      unfold roundNat shiftUp
      simp [roundsUp_exact]
    rw [none, rne32_zero h]
  · rfl

theorem frint_whole {j : Nat} (mode : Nat) (h : f32 x = .fin sg m j) : frint mode x = x := by
  rw [frint_fin mode h, roundNat_whole, rne32_whole h]

theorem ffrac_whole {j : Nat} (h : f32 x = .fin sg m j) : ffrac x = 0 := by
  unfold ffrac
  rw [h]
  exact if_pos (Int.natCast_nonneg j)

theorem ffrac_fraction (h : f32 x = .fin sg m (-(k : ℤ))) : ffrac x = BitVec.ofNat 32 (fp32.round { mode := 3 }
    (.fin false (if sg then (2 ^ k - m % 2 ^ k) % 2 ^ k else m % 2 ^ k) (-(k : ℤ)))) := by
  have pos : 0 < 2 ^ k := Nat.two_pow_pos k
  have zero : fp32.round { mode := 3 } (.fin false 0 (-(k : ℤ))) = 0 := roundFin_zero fp32 { mode := 3 } false false (-(k : ℤ))
  rcases Nat.eq_zero_or_pos k with rfl | fraction
  · rw [ffrac_whole (j := 0) h]
    simp only [pow_zero, Nat.mod_one, ite_self, zero]
    rfl
  · unfold ffrac
    rw [h]
    simp only [neg_neg, Int.toNat_natCast]
    rw [if_neg (by omega)]
    rcases eq_or_ne (m % 2 ^ k) 0 with whole | part
    · rw [if_pos whole, whole, Nat.sub_zero, Nat.mod_self, ite_self, zero]
      rfl
    · have less : 2 ^ k - m % 2 ^ k < 2 ^ k := by omega
      rw [if_neg part, Nat.mod_eq_of_lt less]
      rfl

end

theorem integralExamples : frint 0 0xBE99999A = 0x80000000 ∧ frint 3 0xBE99999A = 0xBF800000 ∧ frint 2 0x00000001 = 0x3F800000
    ∧ ffrac 0xBE800000 = 0x3F400000 ∧ ffrac 0xB0800000 = 0x3F7FFFFF := by
  decide +kernel

theorem integralValues : Sys2Proof.Claims.integralValues := by
  intro mode x sg m k code
  refine ⟨fun h => ?_, fun h => ?_, fun j h => ⟨frint_whole mode h, ffrac_whole h⟩, fun h => ?_, ffrac_fraction, integralExamples⟩
  · have value : f32 x = .nan := isNan_iff.1 h
    simp only [frint, ffrac, value, and_self]
  · have value : ∃ s, f32 x = .inf s := by
      unfold isInf32 at h
      rw [Bool.or_eq_true, isInf_iff, isInf_iff] at h
      exact h.elim (⟨_, ·⟩) (⟨_, ·⟩)
    obtain ⟨s, value⟩ := value
    simp only [frint, ffrac, value, and_self]
  · obtain ⟨r, hr, chosen⟩ := roundNat_chosen { mode := mode } sg m k
    exact ⟨r, by rw [frint_fin mode h, hr]; rfl, chosen⟩

/-- Settles O4: a word is its sign and its magnitude code, which gives its class; a whole value is its own rounding, and of a fraction the mode chooses
one of the two neighbours. -/
theorem movesAndClassesWriteTheirResults : Obligations.MovesAndClassesWriteTheirResults := ⟨moveWords, classMaskBits, integralValues⟩

end Sys2Proof.Machine

/-! ### O32: a record that the front end has copied goes before the leader's trap -/

namespace Sys2Proof.Machine

section

/-- Lane 1 of a group, whose team leader is lane 0, stands at `SPAWN` with the record at address 0, of which the front end holds a copy. -/
def copiedSpawn : State :=
  { ctxs := [{ id := 1, handlerVa := some 0 }], wgs := [{ uid := 2, ctx := 1 }]
    grp := { uid := 3, ctx := 1, wg := 2, exist := 3, live := 3, code := { features := 0x1001 }, spawn := some (0, some [])
             act := some { pc := 4, mask := 2, pos := some { hdr := 0, len := 1, issued := 0, seta := 15, setb := 15, pri := 0 } } } }

theorem copiedSpawn_ready : ready { vectorNeed [.s 0, .s 1] false with feats := [12] } copiedSpawn := by unfold ready; decide

/-- The word waits for its launch (R252), and takes no trap. -/
theorem copiedSpawn_waits : exec (.spawn 0 0) copiedSpawn = .next (stallOn .spawn copiedSpawn) := by rfl

/-- `LEADER_ONLY` would wait for the handler slot. -/
theorem copiedSpawn_leaderOnly : (takeTrap { cause := cLeaderOnly, mask := active copiedSpawn } copiedSpawn).traps = [(0, 3)] := by decide

theorem not_yieldWords : ¬ Sys2Proof.Claims.yieldWords := by
  intro h
  obtain ⟨-, -, -, leaderOnly, -⟩ := h copiedSpawn 0 0
  have both := copiedSpawn_waits.symm.trans (leaderOnly copiedSpawn_ready (by decide))
  have traps : [] = (takeTrap { cause := cLeaderOnly, mask := active copiedSpawn } copiedSpawn).traps :=
    congrArg State.traps (Host.Outcome.next.inj both)
  exact absurd (traps.trans copiedSpawn_leaderOnly) (by decide)

end

/-- Refutes O32: the claim of `SPAWN` has every thread but the team leader trap `LEADER_ONLY`, and also lets every word whose record the front end
has copied wait without a trap (R252). A thread that is not the leader and stands at such a word only waits. -/
theorem not_exitYieldAndSpawn : ¬ Obligations.ExitYieldAndSpawn := fun ⟨_, yields⟩ => not_yieldWords yields

end Sys2Proof.Machine

/-! ### Fields of a selector (R125), and what a completing word leaves -/

namespace Sys2Proof.Machine

section

variable {s u : State} {i : Instr}

/-- Bits [hi : lo] of a word are its field of that many bits. -/
theorem bitsOf_field (w : Word) {hi lo len : Nat} (h : hi + 1 - lo = len) : bitsOf w hi lo = (w.extractLsb' lo len).toNat := by
  rw [bitsOf, h, BitVec.extractLsb'_toNat, Nat.shiftRight_eq_div_pow]

theorem decide_field (w : Word) {hi lo len : Nat} (h : hi + 1 - lo = len) : decide (bitsOf w hi lo ≠ 0) = decide (w.extractLsb' lo len ≠ 0) := by
  refine decide_eq_decide.2 (not_congr ?_)
  rw [bitsOf_field w h, ← BitVec.toNat_inj]
  rfl

/-- A word that finishes a state with the same path and step requests. -/
theorem completes_of_finish (he : exec i s = .next (finish u)) (hq : quiet u = quiet s) (hp : curPc u = curPc s) (hm : active u = active s) :
    ∃ t, exec i s = .next (thenStep s t) ∧ Completed u t := by
  obtain ⟨t, ht, done⟩ := finish_completes hq hp hm
  exact ⟨t, by rw [he, ht], done⟩

theorem sameIssuer.curPc (h : sameIssuer s.grp u.grp) : curPc u = curPc s := by rw [Machine.curPc, Machine.curPc, h.act]
theorem sameIssuer.active (h : sameIssuer s.grp u.grp) : active u = active s := by rw [Machine.active, Machine.active, h.act]

end

end Sys2Proof.Machine

/-! ### `MWAIT` and `CTAB` (R133, R134) -/

namespace Sys2Proof.Machine

section

variable {D : Nat → Prop} {s : State}

/-- A lane's load from translated memory, after the loads of its thread there. -/
theorem laneLoad_accessed (scope evc lane p n : Nat) (h : Within D s) : Accessed D s (laneLoad .mem scope evc lane p n s).2 := by
  have own : Accessed D s (performAt s.grp.uid lane .mem (lineOf p) s) := performLoads_accessed _ h
  exact own.trans (.ofOps (loadBytes_ops _ _ _ _ _ _ _ own.flight))

theorem tabWords_accessed (scope : Nat) (as : List Access) (h : Within D s) : Accessed D s (tabWords scope as s).2 := by
  induction as generalizing s with
  | nil => exact .refl h
  | cons a as ih =>
    unfold tabWords
    dsimp only
    split
    · rename_i p _
      have one := laneLoad_accessed scope 0 0 p 4 h
      exact one.trans (ih one.flight)
    · exact ih h

theorem exec_mwait (bt : BitVec 1) (a : BitVec 6) (s : State) : exec (.mwait bt a) s = execMwait a s := rfl
theorem exec_ctab (bt : BitVec 1) (a : BitVec 6) (n : BitVec 5) (s : State) : exec (.ctab bt a n) s = execCtab a n s := rfl

/-- The sixteen words that `CTAB` names in a record (R134). -/
def tabAccesses (s : State) (a : BitVec 6) : List Access :=
  let r := bufOf s 0 0
  (List.range 16).map fun i => accOf r 4 (((if r.stride ≠ 0 then r.stride else 1) * i : Nat) : Int) 0 (getS s.grp a.toNat)

/-- Each word of the table is a read of `B0`. -/
def tabRead : MemOp := { buf := 0, idx := fun _ => 0, size := 4, kind := 0, watch := [0] }

/-- The table that `CTAB` reads, with the state after the reads. -/
def readTab (a : BitVec 6) (run : List (Access × Nat)) (s : State) : List Word × State :=
  tabWords (scopeOf s 0) (tabAccesses s a) (sampled .mem run s)

theorem readTab_accessed (a : BitVec 6) (run : List (Access × Nat)) (s : State) :
    Accessed (fun b => inFlight s b = true) s (readTab a run s).2 := by
  have start := sampled_accessed .mem run (within_inFlight s)
  exact start.trans (tabWords_accessed _ _ start.flight)

def tabNeed (a : BitVec 6) : Need := { bobbinNeed [a.toNat] [4, 8] with operandBad := false }

theorem ctab_traps {bt : BitVec 1} {a : BitVec 6} {x : TrapReq} (hr : ready (tabNeed a) s) (ht : memTraps s tabRead [0] (tabAccesses s a) = some x) :
    exec (.ctab bt a 0) s = .next (takeTrap x s) := by
  rw [exec_ctab]
  refine congrArg Host.Outcome.next ((word_run (n := tabNeed a) _ hr).trans ?_)
  rw [tabRead, tabAccesses] at ht
  simp only [ht]

section

variable {bt : BitVec 1} {a : BitVec 6} {run : List (Access × Nat)} (hr : ready (tabNeed a) s)
  (ht : memTraps s tabRead [0] (tabAccesses s a) = none) (hg : memTrans s tabRead ((tabAccesses s a).filter fun a => a.inb) = .go run [])
include hr ht hg

/-- A table that is not valid is not taken. -/
theorem ctab_invalid (invalid : cpValid (readTab a run s).1 = false) : exec (.ctab bt a 0) s = .next (trapOwn cIllegalOperand s) := by
  refine (exec_ctab bt a 0 s).trans (congrArg Host.Outcome.next ((word_run (n := tabNeed a) _ hr).trans ?_))
  rw [tabRead, tabAccesses] at ht hg
  simp only [ht, hg]
  exact if_pos (congrArg not invalid)

theorem ctab_valid (valid : cpValid (readTab a run s).1 = true) : exec (.ctab bt a 0) s =
    .next (finish (updWg s.grp.wg (fun w => { w with compand := (readTab a run s).1 }) (readTab a run s).2)) := by
  refine (exec_ctab bt a 0 s).trans (congrArg Host.Outcome.next ((word_run (n := tabNeed a) _ hr).trans ?_))
  rw [tabRead, tabAccesses] at ht hg
  simp only [ht, hg]
  exact if_neg (ne_true_of_eq_false (congrArg not valid))

end

theorem waitWords : Sys2Proof.Claims.waitWords := by
  intro s bt a run
  refine ⟨fun hr hm => ?_, fun hr hm => ?_, fun x hr ht => ctab_traps hr ht, fun hr ht hg => ?_⟩
  · refine completes_of_finish (congrArg Host.Outcome.next ?_) rfl rfl rfl
    exact (word_run _ hr).trans (if_pos hm)
  · exact congrArg Host.Outcome.next ((word_run _ hr).trans (if_neg (Nat.not_le.2 hm)))
  · have accessed := readTab_accessed a run s
    exact ⟨fun invalid => ctab_invalid hr ht hg invalid,
      fun valid => completes_of_finish (ctab_valid hr ht hg valid) accessed.issuer.quiet accessed.issuer.curPc accessed.issuer.active,
      accessed.issuer, fun b hb => accessed.home b (Bool.eq_false_iff.1 hb)⟩

end

end Sys2Proof.Machine

/-! ### Rows of a tile (R112, R116) -/

namespace Sys2Proof.Machine

section

variable {α : Type}

theorem sget_sputs [DecidableEq α] (d : α) (vs : List α) (k j : Nat) (m : Sparse α) :
    sget d j (sputs d k vs m) = if k ≤ j ∧ j < k + vs.length then vs.getD (j - k) d else sget d j m := by
  induction vs generalizing k m with
  | nil => rw [if_neg (by simp)]; rfl
  | cons v vs ih =>
    rw [sputs, ih, sget_sput, List.length_cons]
    rcases Nat.lt_trichotomy j k with h | rfl | h
    · rw [if_neg (by omega), if_neg (by omega), if_neg (by omega)]
    · rw [if_neg (by omega), if_pos rfl, if_pos (by omega), Nat.sub_self]
      rfl
    · obtain ⟨n, rfl⟩ := Nat.exists_eq_add_of_lt h
      rw [if_neg (by omega : ¬k = k + n + 1), show k + n + 1 - (k + 1) = n by omega, show k + n + 1 - k = n + 1 by omega, List.getD_cons_succ]
      exact if_congr (by omega) rfl rfl

theorem sgets_eq_map (d : α) (n k : Nat) (m : Sparse α) : sgets d k n m = (List.range n).map fun i => sget d (k + i) m := by
  induction n generalizing k with
  | zero => rfl
  | succ n ih =>
    rw [sgets, ih, List.range_succ_eq_map, List.map_cons, List.map_map]
    congr 2
    funext i
    simp only [Function.comp_apply]
    congr 1
    omega

/-- A run of keys reads back the values that were written to it. -/
theorem sgets_sputs_same [DecidableEq α] (d : α) (vs : List α) (k : Nat) (m : Sparse α) : sgets d k vs.length (sputs d k vs m) = vs := by
  rw [sgets_eq_map]
  refine List.ext_getElem (by simp) fun i h _ => ?_
  have hi : i < vs.length := by simpa using h
  rw [List.getElem_map, List.getElem_range, sget_sputs, if_pos (by omega), Nat.add_sub_cancel_left, List.getD_eq_getElem _ _ hi]

/-- A run of keys beside the ones written reads as before. -/
theorem sgets_sputs_apart [DecidableEq α] (d : α) (vs : List α) {k j n : Nat} (h : j + n ≤ k ∨ k + vs.length ≤ j) (m : Sparse α) :
    sgets d j n (sputs d k vs m) = sgets d j n m := by
  rw [sgets_eq_map, sgets_eq_map]
  refine List.map_congr_left fun i hi => ?_
  rw [sget_sputs, if_neg (by have := List.mem_range.1 hi; omega)]

end

theorem ofBytes_toBytes (n v : Nat) : ofBytes (toBytes n v) = v % 256 ^ n := by
  induction n generalizing v with
  | zero => simp [toBytes, ofBytes, Nat.mod_one]
  | succ n ih =>
    rw [toBytes, ofBytes, ih, BitVec.toNat_ofNat, pow_succ' 256 n]
    exact (Nat.mod_mul (x := v) (a := 256) (b := 256 ^ n)).symm

theorem ofBytes_toBytes_of_lt {n v : Nat} (h : v < 2 ^ (8 * n)) : ofBytes (toBytes n v) = v :=
  (ofBytes_toBytes n v).trans (Nat.mod_eq_of_lt (h.trans_eq (pow_mul 2 8 n)))

/-! Codes packed into a row. -/

theorem packCodes_lt (b : Nat) (cs : List Nat) : packCodes b cs < 2 ^ (b * cs.length) := by
  induction cs with
  | nil => simp [packCodes]
  | cons c cs ih =>
    have digit : c % 2 ^ b < 2 ^ b := Nat.mod_lt _ (Nat.two_pow_pos b)
    rw [packCodes, List.length_cons, Nat.mul_succ, Nat.add_comm (b * cs.length), pow_add]
    calc c % 2 ^ b + 2 ^ b * packCodes b cs < 2 ^ b * (packCodes b cs + 1) := by rw [Nat.mul_succ]; omega
      _ ≤ 2 ^ b * 2 ^ (b * cs.length) := Nat.mul_le_mul_left _ ih

theorem packCodes_lt_of_le {b n : Nat} {cs : List Nat} (h : b * cs.length ≤ n) : packCodes b cs < 2 ^ n :=
  (packCodes_lt b cs).trans_le (Nat.pow_le_pow_right (by decide) h)

/-- Each code is read back from its place. -/
theorem packCodes_digit (b : Nat) {cs : List Nat} {e : Nat} (he : e < cs.length) : packCodes b cs / 2 ^ (b * e) % 2 ^ b = cs[e] % 2 ^ b := by
  induction cs generalizing e with
  | nil => exact absurd he (Nat.not_lt_zero e)
  | cons c cs ih =>
    have digit : c % 2 ^ b < 2 ^ b := Nat.mod_lt _ (Nat.two_pow_pos b)
    cases e with
    | zero => simp [packCodes]
    | succ e =>
      have tail : (c % 2 ^ b + 2 ^ b * packCodes b cs) / 2 ^ b = packCodes b cs := by
        rw [Nat.add_mul_div_left _ _ (Nat.two_pow_pos b), Nat.div_eq_of_lt digit, Nat.zero_add]
      rw [packCodes, Nat.mul_succ, Nat.add_comm (b * e), pow_add, ← Nat.div_div_eq_div_mul, tail, ih (Nat.lt_of_succ_lt_succ he)]
      rfl

section

variable {row row' : Nat} {codes : List Nat} {f : Nat} {scales : List Byte} {t : Tile}

theorem rowBits_putRow_same (h : fmtBits f * codes.length ≤ 768) : rowBits (putRow row codes f scales true t) row = packCodes (fmtBits f) codes := by
  have read := sgets_sputs_same (0 : Byte) (toBytes 96 (packCodes (fmtBits f) codes)) (96 * row) t.data
  rw [length_toBytes] at read
  exact (congrArg ofBytes read).trans (ofBytes_toBytes_of_lt (packCodes_lt_of_le (n := 8 * 96) h))

theorem rowBits_putRow_other (h : row' ≠ row) : rowBits (putRow row codes f scales true t) row' = rowBits t row' :=
  congrArg ofBytes (sgets_sputs_apart _ _ (by rw [length_toBytes]; omega) _)

theorem present_putRow (h : row' < 64) : bit (putRow row codes f scales true t).present row' = if row' = row then true else bit t.present row' :=
  bit_setBit _ _ _ _ h

end

section

variable {f base row : Nat} {codes : Nat → List Nat} {scales : Nat → List Byte}

/-- The rows of some lanes written into a tile. -/
def putRows (f base : Nat) (codes : Nat → List Nat) (scales : Nat → List Byte) (ls : List Nat) (t : Tile) : Tile :=
  ls.foldl (fun t l => putRow (base + l) (codes l) f (scales l) true t) t

theorem putRows_other {ls : List Nat} (t : Tile) (hrow : row < 64) (h : ∀ j ∈ ls, row ≠ base + j) :
    bit (putRows f base codes scales ls t).present row = bit t.present row ∧ rowBits (putRows f base codes scales ls t) row = rowBits t row := by
  induction ls generalizing t with
  | nil => exact ⟨rfl, rfl⟩
  | cons l ls ih =>
    have apart := h l List.mem_cons_self
    obtain ⟨present, bits⟩ := ih (putRow (base + l) (codes l) f (scales l) true t) fun j hj => h j (List.mem_cons_of_mem l hj)
    exact ⟨present.trans ((present_putRow hrow).trans (if_neg apart)), bits.trans (rowBits_putRow_other apart)⟩

theorem putRows_same {ls : List Nat} (t : Tile) {j : Nat} (hrow : base + j < 64) (hj : j ∈ ls) (small : fmtBits f * (codes j).length ≤ 768) :
    bit (putRows f base codes scales ls t).present (base + j) = true
      ∧ rowBits (putRows f base codes scales ls t) (base + j) = packCodes (fmtBits f) (codes j) := by
  induction ls generalizing t with
  | nil => exact absurd hj List.not_mem_nil
  | cons l ls ih =>
    by_cases later : j ∈ ls
    · exact ih _ later
    · obtain rfl : j = l := (List.mem_cons.1 hj).resolve_right later
      obtain ⟨present, bits⟩ := putRows_other (f := f) (codes := codes) (scales := scales) (putRow (base + j) (codes j) f (scales j) true t) hrow
        fun k hk same => later (by rwa [Nat.add_left_cancel same])
      exact ⟨present.trans ((present_putRow hrow).trans (if_pos rfl)), bits.trans (rowBits_putRow_same small)⟩

end

/-! ### The rows that `TFEED` writes (R126) -/

section

variable {s : State} {v k base row : Nat}

theorem feedRows_eq (s : State) (v k base : Nat) (x : Tile) : feedRows s v k base x =
    putRows k base (fun l => (List.range (fmtK k)).map fun e => imageCode s v k e l) (imageScales s v k) (lanes (active s)) x := rfl

/-- A row of each format has 768 bits (R112, R115). -/
theorem fmt_row_bits (hk : k ≤ 14) : fmtBits k * fmtK k = 768 := by
  interval_cases k <;> rfl

theorem fmtBits_cases (k : Nat) : fmtBits k = 32 ∨ fmtBits k = 16 ∨ fmtBits k = 6 ∨ fmtBits k = 4 ∨ fmtBits k = 8 := by
  unfold fmtBits
  split <;> simp

/-- The codes that one register word of a row's image holds. -/
def codesPerWord (bits : Nat) : Nat := if bits = 32 then 1 else if bits = 16 then 2 else if bits = 4 then 8 else 4

/-- R116: the code of an element in the register image of a row, for every size of element. -/
theorem imageCode_eq (s : State) (v k e l : Nat) : imageCode s v k e l % 2 ^ fmtBits k =
    (getV s.grp (v + e / codesPerWord (fmtBits k)) l).toNat / 2 ^ (32 / codesPerWord (fmtBits k) * (e % codesPerWord (fmtBits k))) % 2 ^ fmtBits k := by
  unfold imageCode codesPerWord
  rcases fmtBits_cases k with h | h | h | h | h
  · simp [h, Nat.mod_one]
  · simp [h]
  · simp [h]
  · simp [h]
  · simp [h]

theorem feedRows_row (hk : k ≤ 14) (x : Tile) {j : Nat} (hj : isActive s j = true) (hrow : base + j < 64) :
    bit (feedRows s v k base x).present (base + j) = true
      ∧ ∀ e, e < fmtK k → rowBits (feedRows s v k base x) (base + j) / 2 ^ (fmtBits k * e) % 2 ^ fmtBits k = imageCode s v k e j % 2 ^ fmtBits k := by
  rw [feedRows_eq]
  obtain ⟨present, bits⟩ := putRows_same (scales := imageScales s v k) (codes := fun l => (List.range (fmtK k)).map fun e => imageCode s v k e l) x hrow
    ((isActive_iff s j).1 hj) (by rw [List.length_map, List.length_range, fmt_row_bits hk])
  refine ⟨present, fun e he => ?_⟩
  rw [bits, packCodes_digit _ (by simpa using he), List.getElem_map, List.getElem_range]

theorem feedRows_others (x : Tile) (hrow : row < 64) (h : ∀ j, isActive s j = true → row ≠ base + j) :
    bit (feedRows s v k base x).present row = bit x.present row ∧ rowBits (feedRows s v k base x) row = rowBits x row := by
  rw [feedRows_eq]
  exact putRows_other x hrow fun j hj => h j ((isActive_iff s j).2 hj)

end

end Sys2Proof.Machine

/-! ### `TFEED`, `TREL` and `TDRAIN` (R126 to R128) -/

namespace Sys2Proof.Machine

section

variable {s : State} {bt : BitVec 1} {t : BitVec 6} {v f d : BitVec 8} {c : BitVec 2} {l : Nat}

theorem selectorBad_tile (w : Word) : selectorBad 9 w = (decide (w.extractLsb' 22 10 ≠ 0) || decide (w.extractLsb' 9 7 ≠ 0)) := by
  rw [selectorBad, decide_field w (len := 10) rfl, decide_field w (len := 7) rfl]

theorem selectorBad_drain (w : Word) : selectorBad 7 w = (decide (w.extractLsb' 22 10 ≠ 0) || decide (w.extractLsb' 7 9 ≠ 0)) := by
  rw [selectorBad, decide_field w (len := 10) rfl, decide_field w (len := 9) rfl]

/-! The tile, the first row and the accumulator that a selector names (R125). -/

def selTile (w : Word) : Nat := (w.extractLsb' 0 9).toNat
def selRow (w : Word) : Nat := (w.extractLsb' 16 6).toNat
def selAcc (w : Word) : Nat := (w.extractLsb' 0 7).toNat

theorem bitsOf_selTile (w : Word) : bitsOf w 8 0 = selTile w := bitsOf_field w rfl
theorem bitsOf_selRow (w : Word) : bitsOf w 21 16 = selRow w := bitsOf_field w rfl
theorem bitsOf_selAcc (w : Word) : bitsOf w 6 0 = selAcc w := bitsOf_field w rfl

theorem lowLane_eq_none_iff (m : DWord) : lowLane m = none ↔ m = 0 := by
  rw [lowLane, List.head?_eq_none_iff]
  exact ⟨lanes_eq_nil, fun h => by subst h; decide⟩

/-! `TFEED`. -/

def tfeedNeed (s : State) (t : BitVec 6) (f : BitVec 8) : Need :=
  { vectorNeed [.s t.toNat, .v f.toNat] (!plainV s 1 f.toNat) with feats := [4], hints := { part := true } }

theorem exec_tfeed (bt : BitVec 1) (t : BitVec 6) (v f : BitVec 8) (s : State) : exec (.tfeed bt t v f) s = execTfeed t v f s := rfl

theorem tfeed_noLane (hr : ready (tfeedNeed s t f) s) (hm : active s = 0) : exec (.tfeed bt t v f) s = .next (finish s) := by
  refine (exec_tfeed bt t v f s).trans (congrArg Host.Outcome.next ((word_run (n := tfeedNeed s t f) _ hr).trans ?_))
  simp only [(lowLane_eq_none_iff _).2 hm]

/-- `TFEED` in a path with lanes is collective, and looks at its format words first. -/
theorem tfeed_lanes (hr : ready (tfeedNeed s t f) s) (hl : lowLane (active s) = some l) : exec (.tfeed bt t v f) s =
    .next (collective (fun s => if !((lanes (active s)).filter fun k => decide (getV s.grp f.toNat k ≠ getV s.grp f.toNat l)).isEmpty
      then trapOwn cFormatDiverge s else feedWith t.toNat v.toNat (getV s.grp f.toNat l) s) s) := by
  refine (exec_tfeed bt t v f s).trans (congrArg Host.Outcome.next ((word_run (n := tfeedNeed s t f) _ hr).trans ?_))
  simp only [hl]

theorem formats_differ_iff (s : State) (f : Nat) (w : Word) : (!((lanes (active s)).filter fun k => decide (getV s.grp f k ≠ w)).isEmpty) = true ↔
    ¬∀ j, isActive s j = true → getV s.grp f j = w := by
  simp [isActive, List.filter_eq_nil_iff]

theorem tfeed_parted (hr : ready (tfeedNeed s t f) s) (hl : lowLane (active s) = some l) (hp : maskIsFull s = false) :
    exec (.tfeed bt t v f) s = .next (trapOwn cConverge s) := by
  rw [tfeed_lanes hr hl, collective_part _ hp]

theorem tfeed_diverges (hr : ready (tfeedNeed s t f) s) (hl : lowLane (active s) = some l) (hp : maskIsFull s = true)
    (hd : ¬∀ j, isActive s j = true → getV s.grp f.toNat j = getV s.grp f.toNat l) : exec (.tfeed bt t v f) s = .next (trapOwn cFormatDiverge s) := by
  rw [tfeed_lanes hr hl, collective_full _ hp]
  exact congrArg Host.Outcome.next (if_pos ((formats_differ_iff s f.toNat _).2 hd))

theorem tfeed_agrees (hr : ready (tfeedNeed s t f) s) (hl : lowLane (active s) = some l) (hp : maskIsFull s = true)
    (hs : ∀ j, isActive s j = true → getV s.grp f.toNat j = getV s.grp f.toNat l) :
    exec (.tfeed bt t v f) s = .next (feedWith t.toNat v.toNat (getV s.grp f.toNat l) s) := by
  rw [tfeed_lanes hr hl, collective_full _ hp]
  exact congrArg Host.Outcome.next (if_neg fun h => (formats_differ_iff s f.toNat _).1 h hs)

/-! The rest of `TFEED`'s checks, once its format word is known. -/

section

variable {r n : Nat} {fw : Word}

/-- R126: a format, a selector, a tile, rows or registers that `TFEED` does not accept. -/
def feedBad (s : State) (r n : Nat) (fw : Word) : Bool :=
  let sel := getS s.grp r
  !fmtValid s.grp.code.features fw || decide (sel.extractLsb' 22 10 ≠ 0) || decide (sel.extractLsb' 9 7 ≠ 0) || decide ((wgOf s).ntiles ≤ selTile sel)
    || decide (64 < selRow sel + s.grp.width) || decide (s.grp.code.vregs < n + fmtRegs fw.toNat)

theorem feedBad_eq (s : State) (r n : Nat) (fw : Word) : (!fmtValid s.grp.code.features fw || selectorBad 9 (getS s.grp r)
    || decide (bitsOf (getS s.grp r) 8 0 ≥ (wgOf s).ntiles) || decide (bitsOf (getS s.grp r) 21 16 + s.grp.width > 64)
    || decide (n + fmtRegs fw.toNat > s.grp.code.vregs)) = feedBad s r n fw := by
  rw [selectorBad_tile, bitsOf_selTile, bitsOf_selRow, ← Bool.or_assoc]
  rfl

theorem feedWith_bad (h : feedBad s r n fw = true) : feedWith r n fw s = trapOwn cIllegalOperand s :=
  if_pos ((feedBad_eq s r n fw).trans h)

/-- The tile that `TFEED` writes. -/
def fedTile (s : State) (r : Nat) : Tile := getTile (wgOf s) (selTile (getS s.grp r))

/-- With legal operands and an image that can be read, the state of the tile decides (R117, R126). -/
theorem feedWith_reads (good : feedBad s r n fw = false)
    (clean : ∀ q ∈ plainRegs (fmtRegs fw.toNat) n, marked s.grp q = false ∧ regPending s.grp q = false) : feedWith r n fw s =
    if (fedTile s r).state = 2 then stallOn .tile s
    else if (fedTile s r).state = 1 ∧ (fedTile s r).tag ≠ some fw.toNat then trapOwn cFormatDiverge s
    else finish (putTile s.grp.wg (selTile (getS s.grp r))
      { feedRows s n fw.toNat (selRow (getS s.grp r)) (fedTile s r) with tag := some fw.toNat, state := 1 } s) := by
  refine (if_neg ?_).trans ((if_neg fun any => ?_).trans ((if_neg fun any => ?_).trans ?_))
  · exact ne_true_of_eq_false ((feedBad_eq s r n fw).trans good)
  · obtain ⟨q, hq, noted⟩ := List.any_eq_true.1 any
    obtain ⟨mark, -⟩ := clean q hq
    cases hp : curPos s <;> simp [hp, hazardous, mark] at noted
  · obtain ⟨q, hq, waits⟩ := List.any_eq_true.1 any
    exact ne_true_of_eq_false (clean q hq).2 waits
  · rw [bitsOf_selTile, bitsOf_selRow]
    rfl

end

/-! `TREL`. -/

def trelNeed (t : BitVec 6) : Need := { vectorNeed [.s t.toNat] false with feats := [4] }

/-- R127: a selector or a tile that `TREL` does not accept. -/
def relBad (s : State) (sel : Word) : Bool :=
  decide (sel.extractLsb' 22 10 ≠ 0) || decide (sel.extractLsb' 9 7 ≠ 0) || decide ((wgOf s).ntiles ≤ selTile sel)

theorem exec_trel (bt : BitVec 1) (t : BitVec 6) (s : State) : exec (.trel bt t) s = execTrel t s := rfl

theorem trel_ready (hr : ready (trelNeed t) s) : exec (.trel bt t) s = .next (
    if active s = 0 then finish s
    else if relBad s (getS s.grp t.toNat) = true then trapOwn cIllegalOperand s
    else finish (if (fedTile s t.toNat).state = 2 then s
      else putTile s.grp.wg (selTile (getS s.grp t.toNat)) { fedTile s t.toNat with state := 2 } s)) := by
  refine (exec_trel bt t s).trans (congrArg Host.Outcome.next ((word_run (n := trelNeed t) _ hr).trans ?_))
  dsimp only
  rw [selectorBad_tile, bitsOf_selTile]
  rfl

/-! `TDRAIN`. -/

def tdrainNeed (s : State) (t : BitVec 6) (d : BitVec 8) : Need :=
  { vectorNeed (.s t.toNat :: plainRegs 16 d.toNat) (decide (s.grp.code.vregs < d.toNat + 16)) with feats := [4], varlat := true }

/-- R128: a selector, an accumulator or rows that `TDRAIN` does not accept. -/
def drainBad (s : State) (sel : Word) : Bool :=
  decide (sel.extractLsb' 22 10 ≠ 0) || decide (sel.extractLsb' 7 9 ≠ 0) || decide ((wgOf s).naccs ≤ selAcc sel) || decide (64 < selRow sel + s.grp.width)

/-- What `TDRAIN` puts in flight: 16 columns of the row of each active lane. -/
def drainedWrites (s : State) (sel : Word) (d : BitVec 8) (c : BitVec 2) : List RegWrite :=
  (lanes (active s)).flatMap fun j =>
    laneWrites d.toNat j ((List.range 16).map fun i => accGet (getAcc (wgOf s) (selAcc sel)) (selRow sel + j) (16 * c.toNat + i))

theorem exec_tdrain (bt : BitVec 1) (t : BitVec 6) (d : BitVec 8) (c : BitVec 2) (s : State) : exec (.tdrain bt t d c) s = execTdrain t d c s := rfl

section

variable (hr : ready (tdrainNeed s t d) s)
include hr

theorem tdrain_bad (bad : drainBad s (getS s.grp t.toNat) = true) : exec (.tdrain bt t d c) s = .next (trapOwn cIllegalOperand s) := by
  refine (exec_tdrain bt t d c s).trans (congrArg Host.Outcome.next ((word_run (n := tdrainNeed s t d) _ hr).trans ?_))
  dsimp only
  rw [selectorBad_drain, bitsOf_selAcc, bitsOf_selRow]
  exact if_pos bad

theorem tdrain_good (good : drainBad s (getS s.grp t.toNat) = false) : exec (.tdrain bt t d c) s =
    .next (match writerOf s s.grp.wg (selAcc (getS s.grp t.toNat)) with
      | some n => takeTrap { cause := cAccBusy, mask := active s, addr := n, info := selAcc (getS s.grp t.toNat) } s
      | none => finish (launchOp (plainRegs 16 d.toNat) (drainedWrites s (getS s.grp t.toNat) d c) [] s)) := by
  refine (exec_tdrain bt t d c s).trans (congrArg Host.Outcome.next ((word_run (n := tdrainNeed s t d) _ hr).trans ?_))
  dsimp only
  rw [selectorBad_drain, bitsOf_selAcc, bitsOf_selRow]
  exact if_neg (ne_true_of_eq_false good)

end

end

end Sys2Proof.Machine

/-! ### O40 -/

namespace Sys2Proof.Machine

theorem tileWords : Sys2Proof.Claims.tileWords := by
  intro s bt t v f d c l
  refine ⟨fun hr hm => completes_of_finish (tfeed_noLane hr hm) rfl rfl rfl, fun hr hl hp => tfeed_parted hr hl hp,
    fun hr hl hp hd => tfeed_diverges hr hl hp hd,
    fun hr hl hp hs bad => (tfeed_agrees hr hl hp hs).trans (congrArg Host.Outcome.next (feedWith_bad bad)),
    fun hr hl hp hs good clean => ?feeds, fun hk row hrow => ?rows, fun hr hm bad => ?_, fun hr h => ?_, fun hr hm good hx => ?_,
    fun hr bad => tdrain_bad hr bad, fun n hr good busy => ?_, fun hr good free => ?_⟩
  case feeds =>
    have fed := (tfeed_agrees (bt := bt) (v := v) hr hl hp hs).trans (congrArg Host.Outcome.next (feedWith_reads good clean))
    refine ⟨fun full => fed.trans (congrArg Host.Outcome.next (if_pos full)), fun filling other => fed.trans (congrArg Host.Outcome.next ?_),
      fun notFull same => ?_⟩
    · exact (if_neg fun full => absurd (filling.symm.trans full) (by decide)).trans (if_pos ⟨filling, other⟩)
    · refine completes_of_finish (fed.trans (congrArg Host.Outcome.next ?_)) rfl rfl rfl
      exact (if_neg notFull).trans (if_neg fun h => h.2 (same h.1))
  case rows =>
    refine ⟨fun j hj at_ => ?_, feedRows_others _ hrow⟩
    subst at_
    obtain ⟨present, codes⟩ := feedRows_row (v := v.toNat) hk _ hj hrow
    exact ⟨present, fun e he => (codes e he).trans (imageCode_eq s v.toNat _ e j)⟩
  · exact (trel_ready hr).trans (congrArg Host.Outcome.next ((if_neg hm).trans (if_pos bad)))
  · refine completes_of_finish ((trel_ready hr).trans (congrArg Host.Outcome.next ?_)) rfl rfl rfl
    rcases h with none | ⟨good, published⟩
    · exact if_pos none
    · by_cases none : active s = 0
      · exact if_pos none
      · exact (if_neg none).trans ((if_neg (ne_true_of_eq_false good)).trans (congrArg finish (if_pos published)))
  · refine completes_of_finish ((trel_ready hr).trans (congrArg Host.Outcome.next ?_)) rfl rfl rfl
    exact (if_neg hm).trans ((if_neg (ne_true_of_eq_false good)).trans (congrArg finish (if_neg hx)))
  · rw [tdrain_good hr good, show writerOf s s.grp.wg (selAcc (getS s.grp t.toNat)) = some n from busy]
    rfl
  · refine completes_of_finish ?_ (launchOp_quiet ..) (launchOp_curPc ..) (launchOp_active ..)
    rw [tdrain_good hr good, show writerOf s s.grp.wg (selAcc (getS s.grp t.toNat)) = none from free]
    rfl

/-- Settles O40: each word's checks in the order of its rule, and the state that it finishes when they pass. A row that `TFEED` writes reads back the
codes of its lane's image, and a word of `CTAB`'s table is a load of the bobbin. -/
theorem tileAndWaitWords : Obligations.TileAndWaitWords := ⟨tileWords, waitWords⟩

end Sys2Proof.Machine

/-! ### The pattern table: a word that enters alone (R121, R129, R131, R132) -/

namespace Sys2Proof.Machine

section

variable {s : State} {i : Instr} {e : PEntry}

theorem selC_eq (w : Word) : selC w = (w.extractLsb' 0 7).toNat := bitsOf_field w rfl
theorem selA_eq (w : Word) : selA w = (w.extractLsb' 7 9).toNat := bitsOf_field w rfl
theorem selB_eq (w : Word) : selB w = (w.extractLsb' 16 9).toNat := bitsOf_field w rfl
theorem selSrc_eq (w : Word) : selSrc w = (w.extractLsb' 7 7).toNat := bitsOf_field w rfl
theorem selQ_eq (w : Word) : selQ w = (w.extractLsb' 14 2).toNat := bitsOf_field w rfl
theorem selTop_eq (w : Word) : bitsOf w 31 25 = (w.extractLsb' 25 7).toNat := bitsOf_field w rfl

theorem requestReleases_frame (l : List (Nat × Nat)) (s : State) :
    let t := l.foldl (fun s p => putTile p.1 p.2 { tileAt s p with relReq := (tileAt s p).relReq + 1 } s) s
    t.grp = s.grp ∧ t.pattern = s.pattern := by
  induction l generalizing s with
  | nil => exact ⟨rfl, rfl⟩
  | cons p l ih => exact ih _

/-- An entry that enters leaves the issuer alone. -/
theorem enterEntry_grp (e : PEntry) (s : State) : (enterEntry e s).grp = s.grp := (requestReleases_frame _ _).1

/-- It stands last in the table, with the operation and the threads that its word gave it. -/
theorem enterEntry_pattern (e : PEntry) (s : State) : ∃ o, (enterEntry e s).pattern = s.pattern ++ [o] ∧ o.kind = e.kind ∧ o.sel = e.sel ∧ o.val = e.val
    ∧ o.threads = e.threads :=
  ⟨_, (requestReleases_frame _ _).2, rfl, rfl, rfl, rfl⟩

/-- The issuer once its word stands in the table. -/
def entered (pair : Bool) (g : Group) : Group := { g with count := g.count + 1, pairs := if pair then g.pairs + 1 else g.pairs, rendezvous := none }

theorem completeWords_alone (alone : (e.hasC && e.hasU) = false) (s : State) :
    completeWords e s = finish ((enterEntry e s).setG (entered e.pair)) := by
  simp only [completeWords, alone, if_neg Bool.false_ne_true]
  rfl

/-- R121, R122: a word enters the table at once while there is room, and raises its thread's count; else it is held. -/
def EntersTable (i : Instr) (e : PEntry) (s : State) : Prop :=
  (tableFull (clusterOfCore s.grp.core) s = true → exec i s = .next (stallOn .table (s.setG fun g => { g with held := some (.entry e) })))
  ∧ (tableFull (clusterOfCore s.grp.core) s = false →
    (∃ o, (enterEntry e s).pattern = s.pattern ++ [o] ∧ o.kind = e.kind ∧ o.sel = e.sel ∧ o.val = e.val ∧ o.threads = e.threads)
    ∧ ∃ t, exec i s = .next (thenStep s t) ∧ Completed ((enterEntry e s).setG (entered e.pair)) t)

theorem EntersTable.of_enterOr (he : exec i s = .next (enterOr e s)) (here : e.cluster = clusterOfCore s.grp.core)
    (alone : (e.hasC && e.hasU) = false) : EntersTable i e s := by
  have same := enterEntry_grp e s
  refine ⟨fun full => ?_, fun room => ⟨enterEntry_pattern e s, completes_of_finish ?_ ?_ ?_ ?_⟩⟩
  · rw [he, enterOr, here, full]
    rfl
  · rw [he, enterOr, here, room, ← completeWords_alone alone]
    rfl
  · rw [quiet, quiet, setG_grp, same]
    rfl
  · rw [curPc, curPc, setG_grp, same]
    rfl
  · rw [active, active, setG_grp, same]
    rfl

/-- A word that traps on operands it does not accept, and else enters the table alone. -/
def EntersAlone (i : Instr) (n : Need) (bad : Bool) (e : PEntry) (s : State) : Prop :=
  (ready n s → bad = true → exec i s = .next (takeTrap { cause := cIllegalOperand, mask := active s } s))
  ∧ (ready n s → bad = false → EntersTable i e s)

theorem EntersAlone.of_word {n : Need} {bad : Bool} (body : State → State) (he : exec i s = .next (word n body s))
    (hb : body s = if bad = true then trapOwn cIllegalOperand s else enterOr e s) (here : e.cluster = clusterOfCore s.grp.core)
    (alone : (e.hasC && e.hasU) = false) : EntersAlone i n bad e s := by
  refine ⟨fun hr h => ?_, fun hr h => .of_enterOr ?_ here alone⟩
  · rw [he, word_run _ hr, hb, if_pos h]
    rfl
  · rw [he, word_run _ hr, hb, if_neg (ne_true_of_eq_false h)]

theorem exec_mma (bt : BitVec 1) (x f : BitVec 6) (b a c e : BitVec 1) (s : State) : exec (.mma bt x f b a c e) s = execMma x f b a c e s := rfl
theorem exec_mzero (bt : BitVec 1) (x : BitVec 6) (s : State) : exec (.mzero bt x) s = execMzero x s := rfl
theorem exec_mcvt (bt : BitVec 1) (x f : BitVec 6) (s : State) : exec (.mcvt bt x f) s = execMcvt x f s := rfl

end

end Sys2Proof.Machine

/-! ### A paired word: alone, at its rendezvous, or with its partner's (R137, R138, R143) -/

namespace Sys2Proof.Machine

section

variable {s : State} {p : Group} {kind : PKind} {w sel val : Word} {bTile : Option Nat} {fl : PEntry → PEntry}

/-- The B tile that a paired word names, if it names one, is of the issuer's own side (R139, R143). -/
def ownSide (bTile : Option Nat) (s : State) : Bool := match bTile with
  | some b => decide (b % 2 = (wgOf s).side)
  | none => true

theorem pairWord_absent (h : partnerOf s = none) : pairWord kind w sel val bTile fl s =
    if ownSide bTile s = true then enterOr (fl (pairEntry kind sel val none s)) s else trapOwn cIllegalOperand s := by
  cases bTile with
  | none => simp [pairWord, h, ownSide]
  | some b => by_cases hb : b % 2 = (wgOf s).side <;> simp [pairWord, h, ownSide, hb]

/-- The issuer with its word at its rendezvous. -/
def meeting (w sel val : Word) (s : State) : State := s.setG fun g => { g with rendezvous := some (w, sel, val) }

section

variable (h : partnerOf s = some p)
include h

theorem pairWord_early (early : atRendezvous p = false) : pairWord kind w sel val bTile fl s = stallOn .pair (meeting w sel val s) := by
  simp only [pairWord, h, early]
  rfl

theorem pairWord_agrees (there : atRendezvous p = true) (same : p.rendezvous = some (w, sel, val)) :
    pairWord kind w sel val bTile fl s = enterOr (fl (pairEntry kind sel val (some p) s)) (meeting w sel val s) := by
  simp [pairWord, h, there, same, pairInfo, meeting]

theorem pairWord_differs {w' sel' val' : Word} (there : atRendezvous p = true) (its : p.rendezvous = some (w', sel', val'))
    (differ : (w', sel', val') ≠ (w, sel, val)) :
    pairWord kind w sel val bTile fl s = divergeBoth p (pairInfo (w', sel', val') (w, sel, val)) s := by
  have info : pairInfo (w', sel', val') (w, sel, val) ≠ 0 := by
    intro none
    simp only [pairInfo] at none
    refine differ ?_
    split_ifs at none with h1 h2 h3 <;> simp_all
  simp only [pairWord, h, there, its, if_true, Option.getD_some]
  exact if_pos info

end

/-- The bits of a word below `BT` (R138). -/
def belowBt (i : Instr) : Word := (((encode i).getD 0).extractLsb' 0 27).zeroExtend 32

/-- R137, R138, R143: a paired word traps on operands that it does not accept; enters alone, from its own side, when its partner is gone; waits at
its rendezvous; and meets its partner's word there, to enter with it, to be held, or to trap with it. -/
def MeetsPartner (i : Instr) (n : Need) (bad : Bool) (kind : PKind) (sel val : Word) (side : Bool) (fl : PEntry → PEntry) (p : Group) (s : State) : Prop :=
  (ready n s → bad = true → exec i s = .next (takeTrap { cause := cIllegalOperand, mask := active s } s))
  ∧ (ready n s → bad = false → partnerOf s = none →
      (side = false → exec i s = .next (takeTrap { cause := cIllegalOperand, mask := active s } s))
      ∧ (side = true → EntersTable i (fl (pairEntry kind sel val none s)) s))
  ∧ (ready n s → bad = false → partnerOf s = some p →
      (atRendezvous p = false → exec i s = .next (stallOn .pair (meeting (belowBt i) sel val s)))
      ∧ (atRendezvous p = true → p.rendezvous = some (belowBt i, sel, val) →
          (tableFull (clusterOfCore s.grp.core) s = false →
            exec i s = .next (completeWords (fl (pairEntry kind sel val (some p) s)) (meeting (belowBt i) sel val s)))
          ∧ (tableFull (clusterOfCore s.grp.core) s = true → exec i s = .next (stallOn .table ((meeting (belowBt i) sel val s).setG fun g =>
              { g with held := some (.entry (fl (pairEntry kind sel val (some p) s))) }))))
      ∧ (∀ w' sel' val', atRendezvous p = true → p.rendezvous = some (w', sel', val') → (w', sel', val') ≠ (belowBt i, sel, val) →
          exec i s = .next (divergeBoth p (pairInfo (w', sel', val') (belowBt i, sel, val)) s)))

theorem pairEntry_lone (side : Bool) : ((side || (none : Option Group).isSome) && (!side || (none : Option Group).isSome)) = false := by
  cases side <;> rfl

theorem MeetsPartner.of_word {i : Instr} {n : Need} {bad side : Bool} (body : State → State) (he : exec i s = .next (word n body s))
    (hb : body s = if bad = true then trapOwn cIllegalOperand s else pairWord kind (belowBt i) sel val bTile fl s) (hside : ownSide bTile s = side)
    (hfl : ∀ e, (fl e).cluster = e.cluster ∧ (fl e).hasC = e.hasC ∧ (fl e).hasU = e.hasU) : MeetsPartner i n bad kind sel val side fl p s := by
  have trap : ready n s → bad = true → exec i s = .next (trapOwn cIllegalOperand s) := fun hr h => by rw [he, word_run _ hr, hb, if_pos h]
  have goes : ready n s → bad = false → exec i s = .next (pairWord kind (belowBt i) sel val bTile fl s) := fun hr h => by
    rw [he, word_run _ hr, hb, if_neg (ne_true_of_eq_false h)]
  have here : ∀ q, (fl (pairEntry kind sel val q s)).cluster = clusterOfCore s.grp.core := fun q => (hfl _).1
  subst hside
  refine ⟨trap, fun hr h absent => ⟨fun other => ?_, fun own => .of_enterOr ?_ (here none) ?_⟩, fun hr h present =>
    ⟨fun early => ?_, fun there same => ?_, fun w' sel' val' there its differ => ?_⟩⟩
  · rw [goes hr h, pairWord_absent absent, if_neg (ne_true_of_eq_false other)]
    rfl
  · rw [goes hr h, pairWord_absent absent, if_pos own]
  · obtain ⟨-, hasC, hasU⟩ := hfl (pairEntry kind sel val none s)
    rw [hasC, hasU]
    exact pairEntry_lone (decide ((wgOf s).side = 0))
  · rw [goes hr h, pairWord_early present early]
  · have agrees := (goes hr h).trans (congrArg Host.Outcome.next (pairWord_agrees (fl := fl) present there same))
    refine ⟨fun room => agrees.trans (congrArg Host.Outcome.next (if_neg ?_)), fun full => agrees.trans (congrArg Host.Outcome.next (if_pos ?_))⟩
    · rw [here]
      exact ne_true_of_eq_false room
    · rw [here]
      exact full
  · rw [goes hr h, pairWord_differs present there its differ]

/-! The words' numbers below `BT`. -/

theorem belowBt_eq {i : Instr} {n m b : Nat} (h : encode i = some (BitVec.ofNat 32 n)) (hm : m < 2 ^ 27) (hn : n = m + 2 ^ 27 * b) :
    belowBt i = BitVec.ofNat 32 m := by
  refine BitVec.eq_of_toNat_eq ?_
  rw [belowBt, h, Option.getD_some, BitVec.toNat_setWidth, BitVec.extractLsb'_toNat, Nat.shiftRight_zero, BitVec.toNat_ofNat, BitVec.toNat_ofNat]
  omega

theorem belowBt_mmaPair (bt : BitVec 1) (x f : BitVec 6) (b a c e : BitVec 1) : belowBt (.mmaPair bt x f b a c e) =
    BitVec.ofNat 32 (21 * 2 ^ 22 + x.toNat * 2 ^ 16 + f.toNat * 2 ^ 10 + b.toNat * 16 + a.toNat * 8 + 4 + c.toNat * 2 + e.toNat) := by
  refine belowBt_eq (b := bt.toNat + 2 * 15) rfl (by omega) ?_
  simp only [layoutNat, BitVec.toNat_ofNat]
  omega

theorem belowBt_mguid (bt : BitVec 1) (x k : BitVec 6) : belowBt (.mguid bt x k) =
    BitVec.ofNat 32 (22 * 2 ^ 22 + x.toNat * 2 ^ 16 + k.toNat * 2 ^ 10) := by
  refine belowBt_eq (b := bt.toNat + 2 * 15) rfl (by omega) ?_
  simp only [layoutNat, BitVec.toNat_ofNat]
  omega

theorem exec_mmaPair (bt : BitVec 1) (x f : BitVec 6) (b a c e : BitVec 1) (s : State) :
    exec (.mmaPair bt x f b a c e) s = execMmaPair x f b a c e s := rfl
theorem exec_mguid (bt : BitVec 1) (x k : BitVec 6) (s : State) : exec (.mguid bt x k) s = execMguid x k s := rfl

end

end Sys2Proof.Machine

/-! ### The operands that the words do not accept, and the words -/

namespace Sys2Proof.Machine

section

variable (s : State) (sel fw : Word)

/-- R129: a format, a selector, an accumulator or a tile that `MMA` does not accept; with `ACHAIN` also a source accumulator, a column, a format with
scales or a release. -/
def mmaRefuses (r c : BitVec 1) : Bool :=
  let fld := fun lo len => (sel.extractLsb' lo len).toNat
  let w := wgOf s
  !fmtValid s.grp.code.features fw || decide (fld 25 7 ≠ 0) || decide (w.naccs ≤ fld 0 7)
    || (if c = 1 then decide (w.naccs ≤ fld 7 7) || decide (fld 7 7 = fld 0 7) || decide (64 ≤ fld 14 2 * fmtK fw.toNat) || fmtIsMx fw.toNat
          || decide (r = 1) || decide (w.ntiles ≤ fld 16 9)
        else decide (w.ntiles ≤ fld 7 9) || decide (w.ntiles ≤ fld 16 9))

theorem mmaBad_eq (r c : BitVec 1) : mmaBad s sel fw (decide (r = 1)) (decide (c = 1)) = mmaRefuses s sel fw r c := by
  simp only [mmaBad, mmaRefuses, selC_eq, selA_eq, selB_eq, selSrc_eq, selQ_eq, selTop_eq, ge_iff_le, decide_eq_true_eq]

/-- R131: a selector or an accumulator that `MZERO` does not accept. -/
def mzeroRefuses : Bool := decide ((sel.extractLsb' 25 7).toNat ≠ 0) || decide ((wgOf s).naccs ≤ (sel.extractLsb' 0 7).toNat)

theorem mzeroBad_eq : (decide (bitsOf sel 31 25 ≠ 0) || decide (selC sel ≥ (wgOf s).naccs)) = mzeroRefuses s sel := by
  simp only [mzeroRefuses, selC_eq, selTop_eq, ge_iff_le]

/-- R132: a format, a selector, an accumulator, a tile or a column that `MCVT` does not accept. -/
def mcvtRefuses : Bool :=
  let fld := fun lo len => (sel.extractLsb' lo len).toNat
  !fmtValid s.grp.code.features fw || fmtIsMx fw.toNat || decide (fld 18 14 ≠ 0) || decide ((wgOf s).naccs ≤ fld 0 7)
    || decide ((wgOf s).ntiles ≤ fld 7 9) || decide (64 ≤ fld 16 2 * fmtK fw.toNat)

theorem mcvtBad_eq : (!fmtValid s.grp.code.features fw || fmtIsMx fw.toNat || decide (bitsOf sel 31 18 ≠ 0) || decide (selC sel ≥ (wgOf s).naccs)
    || decide (selA sel ≥ (wgOf s).ntiles) || decide (bitsOf sel 17 16 * fmtK fw.toNat ≥ 64)) = mcvtRefuses s sel fw := by
  simp only [mcvtRefuses, selC_eq, selA_eq, ge_iff_le, bitsOf_field sel (rfl : 31 + 1 - 18 = 14), bitsOf_field sel (rfl : 17 + 1 - 16 = 2)]

/-- R139: a grid without pairs, and what a paired `MMA` does not accept. -/
def mmaPairRefuses (c : BitVec 1) : Bool :=
  let fld := fun lo len => (sel.extractLsb' lo len).toNat
  let w := wgOf s
  !(gridOf s).launch.pair || !fmtValid s.grp.code.features fw || decide (fld 25 7 ≠ 0) || decide (c = 1) || decide (fld 0 7 % 2 = 1)
    || decide (2 * w.naccs ≤ fld 0 7) || decide (fld 7 9 % 2 = 1) || decide (2 * w.ntiles ≤ fld 7 9) || decide (2 * w.ntiles ≤ fld 16 9)

theorem mmaPairBad_eq (c : BitVec 1) : mmaPairBad s sel fw (decide (c = 1)) = mmaPairRefuses s sel fw c := by
  simp only [mmaPairBad, mmaPairRefuses, selC_eq, selA_eq, selB_eq, selTop_eq, ge_iff_le]

/-- R141: a grid without pairs, and a selector or an accumulator that `MGUID` does not accept. -/
def mguidRefuses : Bool :=
  let fld := fun lo len => (sel.extractLsb' lo len).toNat
  !(gridOf s).launch.pair || decide (fld 25 7 ≠ 0) || decide (fld 14 2 ≠ 0) || decide (fld 7 7 % 2 = 1)
    || decide (2 * (wgOf s).naccs ≤ fld 7 7) || decide (2 * (wgOf s).naccs ≤ fld 0 7)

theorem mguidBad_eq : (!(gridOf s).launch.pair || decide (bitsOf sel 31 25 ≠ 0) || decide (selQ sel ≠ 0) || decide (selSrc sel % 2 = 1)
    || decide (selSrc sel ≥ 2 * (wgOf s).naccs) || decide (selC sel ≥ 2 * (wgOf s).naccs)) = mguidRefuses s sel := by
  simp only [mguidRefuses, selC_eq, selSrc_eq, selQ_eq, selTop_eq, ge_iff_le]

end

section

variable (bt : BitVec 1) (x f : BitVec 6) (b r c e : BitVec 1) (p : Group) (s : State)

theorem mma_entersAlone : EntersAlone (.mma bt x f b r c e) (bobbinNeed [x.toNat, f.toNat] [4])
    (mmaRefuses s (getS s.grp x.toNat) (getS s.grp f.toNat) r c)
    { soloEntry .mma (getS s.grp x.toNat) (getS s.grp f.toNat) s with
      acc := decide (e = 1), chain := decide (c = 1), rela := decide (r = 1), relb := decide (b = 1) } s :=
  .of_word _ (exec_mma bt x f b r c e s) (by rw [← mmaBad_eq]) rfl rfl

theorem mzero_entersAlone : EntersAlone (.mzero bt x) (bobbinNeed [x.toNat] [4]) (mzeroRefuses s (getS s.grp x.toNat))
    (soloEntry .mzero (getS s.grp x.toNat) 0 s) s :=
  .of_word _ (exec_mzero bt x s) (by rw [← mzeroBad_eq]) rfl rfl

theorem mcvt_entersAlone : EntersAlone (.mcvt bt x f) (bobbinNeed [x.toNat, f.toNat] [4])
    (mcvtRefuses s (getS s.grp x.toNat) (getS s.grp f.toNat)) (soloEntry .mcvt (getS s.grp x.toNat) (getS s.grp f.toNat) s) s :=
  .of_word _ (exec_mcvt bt x f s) (by rw [← mcvtBad_eq]) rfl rfl

theorem mmaPair_meetsPartner : MeetsPartner (.mmaPair bt x f b r c e) (bobbinNeed [x.toNat, f.toNat] [4, 5])
    (mmaPairRefuses s (getS s.grp x.toNat) (getS s.grp f.toNat) c) .mma (getS s.grp x.toNat) (getS s.grp f.toNat)
    (decide (((getS s.grp x.toNat).extractLsb' 16 9).toNat % 2 = (wgOf s).side))
    (fun n => { n with acc := decide (e = 1), rela := decide (r = 1), relb := decide (b = 1) }) p s := by
  refine .of_word (bTile := some (selB (getS s.grp x.toNat))) _ (exec_mmaPair bt x f b r c e s) ?_ ?_ fun _ => ⟨rfl, rfl, rfl⟩
  · rw [belowBt_mmaPair, ← mmaPairBad_eq]
  · rw [selB_eq]
    rfl

theorem mguid_meetsPartner : MeetsPartner (.mguid bt x f) (bobbinNeed [x.toNat, f.toNat] [4, 5]) (mguidRefuses s (getS s.grp x.toNat)) .mguid
    (getS s.grp x.toNat) (getS s.grp f.toNat) true id p s := by
  refine .of_word (bTile := none) _ (exec_mguid bt x f s) ?_ rfl fun _ => ⟨rfl, rfl, rfl⟩
  rw [belowBt_mguid, ← mguidBad_eq]

end

/-- Settles O39: the unpaired words enter the table alone, and the paired ones as their partner's word lets them. -/
theorem matrixWordsEnterTheTable : Obligations.MatrixWordsEnterTheTable := by
  intro s bt x f b r c e p
  exact ⟨mma_entersAlone bt x f b r c e s, mzero_entersAlone bt x s, mcvt_entersAlone bt x f s, mmaPair_meetsPartner bt x f b r c e p s,
    mguid_meetsPartner bt x f p s⟩

end Sys2Proof.Machine

/-! ### The order of FP32 values (R62, R271) -/

namespace Sys2Proof.Machine

/-- A value on the extended line; a NaN has no place there. -/
noncomputable def FVal.line : FVal → EReal
  | .nan => 0
  | .inf s => if s then ⊥ else ⊤
  | v => ((v.toRat : ℝ) : EReal)

section

variable {v w : FVal} {a b c : Word}

theorem toRat_neg (v : FVal) : v.neg.toRat = -v.toRat := by
  cases v with
  | nan => simp [FVal.neg, FVal.toRat]
  | inf s => simp [FVal.neg, FVal.toRat]
  | fin s m e => cases s <;> simp [FVal.neg, FVal.toRat]

theorem isFin_neg (v : FVal) : v.neg.isFin = v.isFin := by cases v <;> rfl

/-- The relation of two finite values is the sign of their exact difference. -/
theorem cmp_finite (hv : v.isFin = true) (hw : w.isFin = true) :
    v.cmp w = if v.toRat < w.toRat then .lt else if w.toRat < v.toRat then .gt else .eq := by
  have fin : ∀ x ∈ [v, w.neg], x.isFin = true := by simp [hv, isFin_neg, hw]
  obtain ⟨finite, value, neg, pos, -⟩ := sum_exact 0 fin
  have difference : ([v, w.neg].map FVal.toRat).sum = v.toRat - w.toRat := by simp [toRat_neg, sub_eq_add_neg]
  rw [difference] at value neg pos
  have unfolded : v.cmp w = match FVal.sum 0 [v, w.neg] with
      | .fin s m _ => if m = 0 then .eq else if s then .lt else .gt
      | _ => .eq := by
    cases v with
    | nan => cases hv
    | inf s => cases hv
    | fin s m e =>
      cases w with
      | nan => cases hw
      | inf t => cases hw
      | fin t n k => rfl
  rw [unfolded]
  generalize FVal.sum 0 [v, w.neg] = d at *
  cases d with
  | nan => cases finite
  | inf s => cases finite
  | fin s m e =>
    have zero : m = 0 ↔ v.toRat - w.toRat = 0 := by
      rw [← value, toRat_fin]
      cases s <;> simp [zpow_ne_zero]
    rcases lt_trichotomy v.toRat w.toRat with lt | eq | gt
    · have : s = true := neg (by linarith)
      have : m ≠ 0 := fun h => by linarith [zero.1 h]
      simp_all
    · have : m = 0 := zero.2 (by linarith)
      simp_all
    · have : s = false := pos (by linarith)
      have : m ≠ 0 := fun h => by linarith [zero.1 h]
      simp_all [not_lt.2 gt.le]

/-- The relation of two values that are no NaN is that of their places on the extended line. -/
theorem cmp_eq (hv : v.isNan = false) (hw : w.isNan = false) :
    v.cmp w = if v.line < w.line then .lt else if w.line < v.line then .gt else .eq := by
  cases v with
  | nan => cases hv
  | inf s => 
    cases w with
    | nan => cases hw
    | inf t => cases s <;> cases t <;> simp [FVal.cmp, FVal.line]
    | fin t n k => cases s <;> simp [FVal.cmp, FVal.line]
  | fin s m e =>
    cases w with
    | nan => cases hw
    | inf t => cases t <;> simp [FVal.cmp, FVal.line]
    | fin t n k => 
      rw [cmp_finite rfl rfl]
      simp [FVal.line]

theorem lt32_iff : lt32 a b = true ↔ isNan32 a = false ∧ isNan32 b = false ∧ (f32 a).line < (f32 b).line := by
  unfold lt32
  cases ha : isNan32 a
  · cases hb : isNan32 b
    · rw [cmp_eq ha hb]
      split_ifs <;> simp_all
    · simp
  · simp

theorem le32_iff : le32 a b = true ↔ isNan32 a = false ∧ isNan32 b = false ∧ (f32 a).line ≤ (f32 b).line := by
  unfold le32
  cases ha : isNan32 a
  · cases hb : isNan32 b
    · rw [cmp_eq ha hb]
      split_ifs with lt gt
      · simp [lt.le]
      · simp [gt]
      · simp [not_lt.1 gt]
    · simp
  · simp

end

end Sys2Proof.Machine

/-! ### The samples of a tile (R169, R170) -/

namespace Sys2Proof.Machine

section

variable {rs : List VRec} {r : VRec} {px py : ℤ} {b : Option (Word × Word)}

/-- The record that a sample shows is the one shown before, or the next one where its depth is less. -/
def showNext (b : Option (Word × Word)) (d : Option Word) (vis : Word) : Option (Word × Word) :=
  match d with
  | none => b
  | some z => match b with
    | none => some (z, vis)
    | some (bz, bv) => if lt32 z bz then some (z, vis) else some (bz, bv)

theorem visPixel_append (rs : List VRec) (r : VRec) (px py : ℤ) :
    visPixel (rs ++ [r]) px py = showNext (visPixel rs px py) (visDepth r px py) r.vis := List.foldl_append

/-- What a sample shows of some records: none of them covers it, or one at the least depth, of equal ones the first. -/
def Shown (rs : List VRec) (px py : ℤ) : Option (Word × Word) → Prop
  | none => ∀ q ∈ rs, visDepth q px py = none
  | some (z, v) => ∃ pre q post, rs = pre ++ q :: post ∧ q.vis = v ∧ visDepth q px py = some z
      ∧ (∀ o ∈ rs, ∀ w, visDepth o px py = some w → lt32 w z = false)
      ∧ (∀ o ∈ pre, ∀ w, visDepth o px py = some w → isNan32 w = false → lt32 z w = true)

/-- A depth below another that nothing goes before: what is not before the other is not before it. -/
theorem lt32_false_of_lt {x z w : Word} (below : lt32 x z = true) (first : lt32 w z = false) : lt32 w x = false := by
  obtain ⟨-, nz, lt⟩ := lt32_iff.1 below
  by_contra h
  obtain ⟨nw, -, lt'⟩ := lt32_iff.1 (Bool.not_eq_false _ ▸ h)
  exact absurd (lt32_iff.2 ⟨nw, nz, lt'.trans lt⟩) (by simp [first])

theorem lt32_of_lt {x z w : Word} (below : lt32 x z = true) (first : lt32 w z = false) (number : isNan32 w = false) : lt32 x w = true := by
  obtain ⟨nx, nz, lt⟩ := lt32_iff.1 below
  refine lt32_iff.2 ⟨nx, number, lt.trans_le (not_lt.1 fun h => ?_)⟩
  exact absurd (lt32_iff.2 ⟨number, nz, h⟩) (by simp [first])

theorem lt32_irrefl (z : Word) : lt32 z z = false := by
  by_contra h
  obtain ⟨-, -, lt⟩ := lt32_iff.1 (Bool.not_eq_false _ ▸ h)
  exact lt.false

/-- No record covers the sample at a depth below `z`: one record more. -/
theorem least_append {z : Word} (rest : ∀ o ∈ rs, ∀ w, visDepth o px py = some w → lt32 w z = false)
    (last : ∀ w, visDepth r px py = some w → lt32 w z = false) : ∀ o ∈ rs ++ [r], ∀ w, visDepth o px py = some w → lt32 w z = false := by
  intro o ho
  rcases List.mem_append.1 ho with ho | ho
  · exact rest o ho
  · obtain rfl := List.mem_singleton.1 ho
    exact last

/-- The last record is the one shown. -/
theorem shown_last {x : Word} (depth : visDepth r px py = some x) (least : ∀ o ∈ rs, ∀ w, visDepth o px py = some w → lt32 w x = false)
    (first : ∀ o ∈ rs, ∀ w, visDepth o px py = some w → isNan32 w = false → lt32 x w = true) : Shown (rs ++ [r]) px py (some (x, r.vis)) := by
  refine ⟨rs, r, [], rfl, rfl, depth, least_append least fun w hw => ?_, first⟩
  obtain rfl := Option.some.inj (depth.symm.trans hw)
  exact lt32_irrefl x

/-- The last record leaves what is shown. -/
theorem shown_kept {z v : Word} (shown : Shown rs px py (some (z, v))) (above : ∀ w, visDepth r px py = some w → lt32 w z = false) :
    Shown (rs ++ [r]) px py (some (z, v)) := by
  obtain ⟨pre, q, post, split, vis, depth, least, first⟩ := shown
  exact ⟨pre, q, post ++ [r], by simp [split], vis, depth, least_append least above, first⟩

theorem visPixel_shown (rs : List VRec) (px py : ℤ) : Shown rs px py (visPixel rs px py) := by
  induction rs using List.reverseRecOn with
  | nil => exact fun _ h => absurd h List.not_mem_nil
  | append_singleton rs r ih =>
    rw [visPixel_append]
    generalize visPixel rs px py = b at ih
    cases hd : visDepth r px py with
    | none =>
      cases b with
      | none => exact fun q hq => (List.mem_append.1 hq).elim (ih q) fun h => List.mem_singleton.1 h ▸ hd
      | some p => exact shown_kept ih fun w hw => absurd hw (by simp [hd])
    | some x =>
      cases b with
      | none => exact shown_last hd (fun o ho w hw => absurd hw (by simp [ih o ho])) fun o ho w hw => absurd hw (by simp [ih o ho])
      | some p =>
        obtain ⟨z, v⟩ := p
        unfold showNext
        dsimp only
        split_ifs with below
        · obtain ⟨-, -, -, -, -, -, least, -⟩ := ih
          exact shown_last hd (fun o ho w hw => lt32_false_of_lt below (least o ho w hw)) fun o ho w hw => lt32_of_lt below (least o ho w hw)
        · exact shown_kept ih fun w hw => Option.some.inj (hd.symm.trans hw) ▸ Bool.not_eq_true _ ▸ below

theorem visPixel_eq_none : visPixel rs px py = none ↔ ∀ q ∈ rs, visDepth q px py = none := by
  have shown := visPixel_shown rs px py
  cases h : visPixel rs px py with
  | none =>
    rw [h] at shown
    exact iff_of_true rfl shown
  | some p =>
    rw [h] at shown
    obtain ⟨pre, q, post, split, -, depth, -, -⟩ := shown
    refine iff_of_false (Option.some_ne_none _) fun none => ?_
    exact absurd depth (by simp [none q (by simp [split])])

/-- An edge is claimed by exactly one of its two directions. -/
theorem claims_reverse {ax ay bx bY : ℤ} (ne : ¬(ax = bx ∧ ay = bY)) : claims ax ay bx bY = !claims bx bY ax ay := by
  rw [Bool.eq_not_iff]
  intro h
  have := congrArg (· = true) h
  simp only [claims, Bool.or_eq_true, Bool.and_eq_true, decide_eq_true_eq, eq_iff_iff] at this
  omega

theorem edgeFn_reverse (ax ay bx bY px py : ℤ) : edgeFn ax ay bx bY px py = -edgeFn bx bY ax ay px py := by
  unfold edgeFn
  ring

/-- R169: a record of no visibility, without an area, or with a corner beyond the range covers nothing. -/
theorem visDepth_skipped (skip : r.vis = 0xFFFFFFFF ∨ edgeFn (r.x.getD 0 0) (r.y.getD 0 0) (r.x.getD 1 0) (r.y.getD 1 0) (r.x.getD 2 0) (r.y.getD 2 0) = 0
    ∨ ∃ c ∈ r.x ++ r.y, 2 ^ 23 ≤ c.natAbs) (px py : ℤ) : visDepth r px py = none := by
  refine if_pos ?_
  rcases skip with vis | area | big
  · simp [vis]
  · simp only [area, decide_true, Bool.or_true]
  · simp only [Bool.or_eq_true, List.any_eq_true, decide_eq_true_eq]
    exact .inl (.inl big)

end

theorem tileSamples : Sys2Proof.Claims.tileSamples := by
  intro rs r px py ax ay bx bY z v area
  refine ⟨rfl, edgeFn_reverse .., claims_reverse, fun skip => visDepth_skipped skip px py, visPixel_eq_none, fun h => ?_⟩
  have shown := visPixel_shown rs px py
  rwa [h] at shown

end Sys2Proof.Machine

/-! ### Where a ray meets a triangle (R167) -/

namespace Sys2Proof.Machine

section

variable {o p₀ p₁ p₂ d : IV} {t u v n T U V N : ℤ}

/-- The ray has at `t / n` the point whose weights are `u / n` for the corner `p₁` and `v / n` for `p₂`. -/
def Meets (o d p₀ p₁ p₂ : IV) (t u v n : ℤ) : Prop :=
  ∀ f ∈ [IV.x, IV.y, IV.z], n * (f o - f p₀) + t * f d = u * (f p₁ - f p₀) + v * (f p₂ - f p₀)

theorem meets_iff : Meets o d p₀ p₁ p₂ t u v n ↔ n * (o.x - p₀.x) + t * d.x = u * (p₁.x - p₀.x) + v * (p₂.x - p₀.x)
    ∧ n * (o.y - p₀.y) + t * d.y = u * (p₁.y - p₀.y) + v * (p₂.y - p₀.y)
    ∧ n * (o.z - p₀.z) + t * d.z = u * (p₁.z - p₀.z) + v * (p₂.z - p₀.z) := by simp [Meets]

/-- Cramer's rule. -/
theorem meets_cramer (o d p₀ p₁ p₂ : IV) : Meets o d p₀ p₁ p₂ ((p₂.sub p₀).dot ((o.sub p₀).cross (p₁.sub p₀)))
    ((o.sub p₀).dot (d.cross (p₂.sub p₀))) (d.dot ((o.sub p₀).cross (p₁.sub p₀))) ((p₁.sub p₀).dot (d.cross (p₂.sub p₀))) := by
  simp only [meets_iff, IV.dot, IV.cross, IV.sub]
  refine ⟨?_, ?_, ?_⟩ <;> ring

theorem Meets.mul (h : Meets o d p₀ p₁ p₂ t u v n) (g : ℤ) : Meets o d p₀ p₁ p₂ (g * t) (g * u) (g * v) (g * n) := by
  intro f hf
  linear_combination g * h f hf

/-- The solution is the only one, up to its denominator. -/
theorem Meets.unique (h : Meets o d p₀ p₁ p₂ T U V N) :
    N * (p₂.sub p₀).dot ((o.sub p₀).cross (p₁.sub p₀)) = T * (p₁.sub p₀).dot (d.cross (p₂.sub p₀))
    ∧ N * (o.sub p₀).dot (d.cross (p₂.sub p₀)) = U * (p₁.sub p₀).dot (d.cross (p₂.sub p₀))
    ∧ N * d.dot ((o.sub p₀).cross (p₁.sub p₀)) = V * (p₁.sub p₀).dot (d.cross (p₂.sub p₀)) := by
  obtain ⟨hx, hy, hz⟩ := meets_iff.1 h
  have along : ∀ m : IV, N * m.dot (o.sub p₀) + T * m.dot d = U * m.dot (p₁.sub p₀) + V * m.dot (p₂.sub p₀) := fun m => by
    simp only [IV.dot, IV.sub]
    linear_combination m.x * hx + m.y * hy + m.z * hz
  have alongT := along ((p₁.sub p₀).cross (p₂.sub p₀))
  have alongU := along (d.cross (p₂.sub p₀))
  have alongV := along ((p₁.sub p₀).cross d)
  simp only [IV.dot, IV.cross, IV.sub] at alongT alongU alongV ⊢
  exact ⟨by linear_combination alongT, by linear_combination alongU, by linear_combination alongV⟩

end

section

variable {r : Ray} {v0 v1 v2 : V3} {prim inst : ℕ} {h k : RHit} {t u v n T U V N : ℤ}

/-- A solution inside a triangle and inside the range of a ray. -/
def InsideTri (r : Ray) (t u v : ℤ) (den : ℕ) : Prop :=
  0 ≤ u ∧ 0 ≤ v ∧ u + v ≤ den ∧ (extOf r.tmin).le (.fin t den) = true ∧ (Ext.fin t den).le (extOf r.tmax) = true

/-- All coordinates of the triangle and of the ray are finite. -/
def finiteTri (r : Ray) (v0 v1 v2 : V3) : Prop :=
  ∀ v ∈ [v0, v1, v2, r.o, r.d], finite32 v.x = true ∧ finite32 v.y = true ∧ finite32 v.z = true

/-- The determinant of the edges and the direction. -/
def triDet (r : Ray) (v0 v1 v2 : V3) : ℤ :=
  ((ivOf v1).sub (ivOf v0)).dot ((ivOf r.d).cross ((ivOf v2).sub (ivOf v0)))

/-- The solution of Cramer's rule, with a positive denominator. -/
def triSolution (r : Ray) (v0 v1 v2 : V3) (prim inst : ℕ) : RHit :=
  let e₁ := (ivOf v1).sub (ivOf v0)
  let e₂ := (ivOf v2).sub (ivOf v0)
  let a := (ivOf r.o).sub (ivOf v0)
  let g : ℤ := if triDet r v0 v1 v2 < 0 then -1 else 1
  { t := g * e₂.dot (a.cross e₁), u := g * a.dot ((ivOf r.d).cross e₂), v := g * (ivOf r.d).dot (a.cross e₁)
    den := (triDet r v0 v1 v2).natAbs, prim := prim, inst := inst }

theorem finiteTri_iff :
    ([v0, v1, v2, r.o, r.d].all fun v => finite32 v.x && finite32 v.y && finite32 v.z) = true ↔ finiteTri r v0 v1 v2 := by
  simp only [List.all_eq_true, Bool.and_eq_true, and_assoc, finiteTri]

theorem triHit_unfold (r : Ray) (v0 v1 v2 : V3) (prim inst : ℕ) :
    let k := triSolution r v0 v1 v2 prim inst
    triHit r v0 v1 v2 prim inst
      = if !([v0, v1, v2, r.o, r.d].all fun v => finite32 v.x && finite32 v.y && finite32 v.z) || decide (triDet r v0 v1 v2 = 0) then none
        else if 0 ≤ k.u ∧ 0 ≤ k.v ∧ k.u + k.v ≤ k.den ∧ (extOf r.tmin).le (.fin k.t k.den) = true ∧ (Ext.fin k.t k.den).le (extOf r.tmax) = true then
          some k
        else none := rfl

/-- R167: a triangle is hit where the solution lies inside it and inside the range. -/
theorem triHit_eq_some : triHit r v0 v1 v2 prim inst = some h ↔ finiteTri r v0 v1 v2 ∧ triDet r v0 v1 v2 ≠ 0
    ∧ InsideTri r h.t h.u h.v h.den ∧ h = triSolution r v0 v1 v2 prim inst := by
  have good : ¬(!([v0, v1, v2, r.o, r.d].all fun v => finite32 v.x && finite32 v.y && finite32 v.z) || decide (triDet r v0 v1 v2 = 0)) = true
      ↔ finiteTri r v0 v1 v2 ∧ triDet r v0 v1 v2 ≠ 0 := by
    rw [Bool.or_eq_true, not_or, Bool.not_eq_true', Bool.not_eq_false, decide_eq_true_eq, finiteTri_iff]
  rw [triHit_unfold]
  constructor
  · intro found
    split_ifs at found with bad inside
    obtain rfl := Option.some.inj found
    obtain ⟨finite, det⟩ := good.1 bad
    exact ⟨finite, det, inside, rfl⟩
  · rintro ⟨finite, det, inside, rfl⟩
    exact (if_neg (good.2 ⟨finite, det⟩)).trans (if_pos inside)

theorem triSolution_den (h : triDet r v0 v1 v2 ≠ 0) (prim inst : ℕ) : 0 < (triSolution r v0 v1 v2 prim inst).den := Int.natAbs_pos.2 h

theorem sign_mul_triDet (r : Ray) (v0 v1 v2 : V3) :
    (if triDet r v0 v1 v2 < 0 then -1 else 1) * triDet r v0 v1 v2 = ((triDet r v0 v1 v2).natAbs : ℤ) := by
  split <;> omega

/-- The solution meets the triangle's plane where the ray does. -/
theorem triSolution_meets (r : Ray) (v0 v1 v2 : V3) (prim inst : ℕ) :
    let k := triSolution r v0 v1 v2 prim inst
    Meets (ivOf r.o) (ivOf r.d) (ivOf v0) (ivOf v1) (ivOf v2) k.t k.u k.v k.den := by
  have solved := (meets_cramer (ivOf r.o) (ivOf r.d) (ivOf v0) (ivOf v1) (ivOf v2)).mul
    (if triDet r v0 v1 v2 < 0 then -1 else 1)
  rwa [show ((ivOf v1).sub (ivOf v0)).dot ((ivOf r.d).cross ((ivOf v2).sub (ivOf v0))) = triDet r v0 v1 v2 from rfl, sign_mul_triDet] at solved

/-- Any solution is the one of Cramer's rule in other terms. -/
theorem triSolution_unique (prim inst : ℕ) (h : Meets (ivOf r.o) (ivOf r.d) (ivOf v0) (ivOf v1) (ivOf v2) T U V N) :
    let k := triSolution r v0 v1 v2 prim inst
    k.t * N = T * k.den ∧ k.u * N = U * k.den ∧ k.v * N = V * k.den := by
  obtain ⟨ht, hu, hv⟩ := h.unique
  simp only [triSolution, ← sign_mul_triDet]
  refine ⟨?_, ?_, ?_⟩
  · exact (by ring : _ = _ * (N * _)).trans ((congrArg _ ht).trans (by unfold triDet; ring))
  · exact (by ring : _ = _ * (N * _)).trans ((congrArg _ hu).trans (by unfold triDet; ring))
  · exact (by ring : _ = _ * (N * _)).trans ((congrArg _ hv).trans (by unfold triDet; ring))

/-- Two fractions with positive denominators that are equal lie in the same ranges. -/
theorem Ext.le_fin_congr {x : Ext} {t T : ℤ} {n N : ℕ} (hn : 0 < n) (hN : 0 < N) (eq : t * N = T * n) : x.le (.fin t n) = x.le (.fin T N) := by
  cases x with
  | ninf => rfl
  | pinf => rfl
  | fin a b =>
    have pn : (0 : ℤ) < n := by exact_mod_cast hn
    have pN : (0 : ℤ) < N := by exact_mod_cast hN
    simp only [Ext.le, decide_eq_decide]
    calc a * n ≤ t * b ↔ a * n * N ≤ t * b * N := (mul_le_mul_iff_of_pos_right pN).symm
      _ ↔ a * N * n ≤ T * b * n := by rw [show a * n * N = a * N * n by ring, show t * b * N = T * b * n by linear_combination b * eq]
      _ ↔ a * N ≤ T * b := mul_le_mul_iff_of_pos_right pn

theorem Ext.fin_le_congr {x : Ext} {t T : ℤ} {n N : ℕ} (hn : 0 < n) (hN : 0 < N) (eq : t * N = T * n) : (Ext.fin t n).le x = (Ext.fin T N).le x := by
  cases x with
  | ninf => rfl
  | pinf => rfl
  | fin a b =>
    have pn : (0 : ℤ) < n := by exact_mod_cast hn
    have pN : (0 : ℤ) < N := by exact_mod_cast hN
    simp only [Ext.le, decide_eq_decide]
    calc t * b ≤ a * n ↔ t * b * N ≤ a * n * N := (mul_le_mul_iff_of_pos_right pN).symm
      _ ↔ T * b * n ≤ a * N * n := by rw [show a * n * N = a * N * n by ring, show t * b * N = T * b * n by linear_combination b * eq]
      _ ↔ T * b ≤ a * N := mul_le_mul_iff_of_pos_right pn

theorem InsideTri.congr {n N : ℕ} (hn : 0 < n) (hN : 0 < N) (ht : t * N = T * n) (hu : u * N = U * n) (hv : v * N = V * n)
    (i : InsideTri r T U V N) : InsideTri r t u v n := by
  obtain ⟨first, second, third, low, high⟩ := i
  have pn : (0 : ℤ) < n := by exact_mod_cast hn
  have pN : (0 : ℤ) < N := by exact_mod_cast hN
  refine ⟨?_, ?_, ?_, Ext.le_fin_congr hn hN ht ▸ low, Ext.fin_le_congr hn hN ht ▸ high⟩
  · exact nonneg_of_mul_nonneg_left (hu ▸ mul_nonneg first pn.le) pN
  · exact nonneg_of_mul_nonneg_left (hv ▸ mul_nonneg second pn.le) pN
  · refine le_of_mul_le_mul_right ?_ pN
    calc (u + v) * N = (U + V) * n := by linear_combination hu + hv
      _ ≤ N * n := mul_le_mul_of_nonneg_right third pn.le
      _ = n * N := mul_comm _ _

/-- R167: a triangle is hit at every point inside it and inside the range. -/
theorem triHit_isSome (prim inst : ℕ) (finite : finiteTri r v0 v1 v2) (det : triDet r v0 v1 v2 ≠ 0) (pos : 0 < N)
    (meets : Meets (ivOf r.o) (ivOf r.d) (ivOf v0) (ivOf v1) (ivOf v2) T U V N)
    (inside : InsideTri r T U V N.toNat) : (triHit r v0 v1 v2 prim inst).isSome = true := by
  obtain ⟨m, rfl⟩ := Int.eq_ofNat_of_zero_le pos.le
  obtain ⟨ht, hu, hv⟩ := triSolution_unique prim inst meets
  have solved := InsideTri.congr (triSolution_den det prim inst) (by exact_mod_cast pos) ht hu hv inside
  rw [triHit_eq_some.2 ⟨finite, det, solved, rfl⟩]
  rfl

/-- A hit goes before another or beside it: its t is less, or equal and its object and primitive are the lower ones. -/
def RHit.before (x y : RHit) : Prop := x.t * y.den < y.t * x.den ∨ (x.t * y.den = y.t * x.den ∧ (x.inst < y.inst ∨ (x.inst = y.inst ∧ x.prim ≤ y.prim)))

theorem RHit.before_refl (x : RHit) : x.before x := .inr ⟨rfl, .inr ⟨rfl, le_rfl⟩⟩

/-- Of two hits the one that goes before the other is kept. -/
theorem betterHit_cases (h k : RHit) : betterHit h k = h ∧ h.before k ∨ betterHit h k = k ∧ k.before h := by
  unfold betterHit RHit.before
  dsimp only
  split_ifs <;> simp only [true_and] <;> omega

end

end Sys2Proof.Machine

/-! ### Rays that traverse nothing (R167) -/

namespace Sys2Proof.Machine

section

variable {r : Ray}

/-- R167: what makes a ray traverse nothing. -/
theorem invalidRay_iff : invalidRay r = true ↔ ¬(∀ v ∈ [r.o, r.d], finite32 v.x = true ∧ finite32 v.y = true ∧ finite32 v.z = true)
    ∨ (isZero32 r.d.x = true ∧ isZero32 r.d.y = true ∧ isZero32 r.d.z = true) ∨ isNan32 r.tmin = true ∨ isNan32 r.tmax = true
    ∨ lt32 r.tmax r.tmin = true := by
  simp only [invalidRay, Bool.or_eq_true, Bool.and_eq_true, Bool.not_eq_true', Bool.eq_false_iff, ne_eq, List.forall_mem_cons, List.not_mem_nil,
    false_implies, implies_true, and_true, and_assoc, or_assoc]

end

/-- The ray of eight words. -/
def rayOf (ws : List Word) : Ray :=
  { o := ⟨ws.getD 0 0, ws.getD 1 0, ws.getD 2 0⟩, tmin := ws.getD 3 0, d := ⟨ws.getD 4 0, ws.getD 5 0, ws.getD 6 0⟩, tmax := ws.getD 7 0 }

section

variable (s : State) (core ctx : ℕ) (t : Option Task) (any : Bool) {b : BufRec} {ws : List Word}

theorem walkRay_invalid (b : BufRec) (h : invalidRay (rayOf ws) = true) :
    walkRay s core ctx t any b ws = .ok ([0x7FC00000, 0, 0, 0xFFFFFFFE, 0], []) := if_pos h

theorem walkRay_short (h : invalidRay (rayOf ws) = false) (short : b.limit < 32) :
    walkRay s core ctx t any b ws = .ok ([0x7FC00000, 0, 0, 0xFFFFFFFD, 0], []) := by
  have out : recRead s core ctx t b 0 32 = .error none := if_pos (by omega)
  refine (if_neg (by simpa [rayOf] using h)).trans ?_
  simp only [WalkAcc.read, out]
  rfl

end

theorem exactHits : Sys2Proof.Claims.exactHits := by
  intro s r v0 v1 v2 prim inst h k T U V D any b ws o d p0 p1 p2 finite meets inside det before w ray
  refine ⟨fun hit => ?_, fun fin ne ⟨pos, met, ins⟩ => ?_, ?_, ?_, ?_, invalidRay_iff, walkRay_invalid s _ _ none any b, walkRay_short s _ _ none any⟩
  · obtain ⟨fin, ne, ins, rfl⟩ := triHit_eq_some.1 hit
    have pos : (0 : ℤ) < (triSolution r v0 v1 v2 prim inst).den := by exact_mod_cast triSolution_den ne prim inst
    exact ⟨fin, ne, ⟨pos, triSolution_meets r v0 v1 v2 prim inst, ins⟩, rfl, rfl⟩
  · obtain ⟨N, rfl⟩ := Int.eq_ofNat_of_zero_le pos.le
    exact triHit_isSome prim inst fin ne pos met ins
  · exact (betterHit_cases h k).imp And.left And.left
  · rcases betterHit_cases h k with ⟨e, -⟩ | ⟨e, first⟩
    · rw [e]; exact h.before_refl
    · rw [e]; exact first
  · rcases betterHit_cases h k with ⟨e, first⟩ | ⟨e, -⟩
    · rw [e]; exact first
    · rw [e]; exact k.before_refl

end Sys2Proof.Machine

/-! ### What a walk through a structure answers (R166, R167) -/

namespace Sys2Proof.Machine

section

variable {any : Bool} {E E' E₁ E₂ : Prop} {R R' R₁ R₂ : RHit → Prop} {best b c : WalkAcc} {x : Except WalkStop WalkAcc} {k : RHit}

theorem RHit.before_trans {x y z : RHit} (hx : 0 < x.den) (hy : 0 < y.den) (hz : 0 < z.den) (h : x.before y) (h' : y.before z) : x.before z := by
  have px : (0 : ℤ) < x.den := by exact_mod_cast hx
  have py : (0 : ℤ) < y.den := by exact_mod_cast hy
  have pz : (0 : ℤ) < z.den := by exact_mod_cast hz
  have scaled : ∀ p q : ℤ, p * y.den < q * y.den ↔ p < q := fun p q => mul_lt_mul_iff_of_pos_right py
  have fst : x.t * z.den * y.den = x.t * y.den * z.den := by ring
  have mid : y.t * x.den * z.den = y.t * z.den * x.den := by ring
  have lst : z.t * x.den * y.den = z.t * y.den * x.den := by ring
  rcases h with lt | ⟨eq, key⟩
  · refine .inl ((scaled _ _).1 ?_)
    have step : x.t * y.den * z.den < y.t * x.den * z.den := mul_lt_mul_of_pos_right lt pz
    have next : y.t * z.den * x.den ≤ z.t * y.den * x.den := by
      rcases h' with lt' | ⟨eq', -⟩
      · exact mul_le_mul_of_nonneg_right lt'.le px.le
      · rw [eq']
    omega
  · have same : x.t * y.den * z.den = y.t * x.den * z.den := by rw [eq]
    rcases h' with lt' | ⟨eq', key'⟩
    · refine .inl ((scaled _ _).1 ?_)
      have next : y.t * z.den * x.den < z.t * y.den * x.den := mul_lt_mul_of_pos_right lt' px
      omega
    · have same' : y.t * z.den * x.den = z.t * y.den * x.den := by rw [eq']
      refine .inr ⟨mul_right_cancel₀ py.ne' (by omega), ?_⟩
      omega

/-- What a walk from `best` answers where `E` says that a place on its way is in error, and `R` which hits lie there: an error only with `E`; a hit
that it had or one of `R`; and unless it stops at a hit, all places are in order and none of `R` goes before its hit. -/
def Answers (any : Bool) (E : Prop) (R : RHit → Prop) (best : WalkAcc) : Except WalkStop WalkAcc → Prop
  | .error (.bad _) => E
  | .error (.wait _ _) => True
  | .ok b => (∀ k, b.hit = some k → best.hit = some k ∨ R k)
    ∧ (∀ k, best.hit = some k → ∃ j, b.hit = some j ∧ (any = false → j.before k))
    ∧ (b.hit = none ∨ any = false → ¬E ∧ ∀ k, R k → ∃ j, b.hit = some j ∧ j.before k)

/-- The hits of a walk have positive denominators. -/
def WalkAcc.proper (a : WalkAcc) : Prop := ∀ k, a.hit = some k → 0 < k.den

theorem Answers.congr (h : Answers any E R best x) (hE : E ↔ E') (hR : ∀ k, R k ↔ R' k) : Answers any E' R' best x := by
  obtain rfl := propext hE
  obtain rfl := funext fun k => propext (hR k)
  exact h

theorem Answers.proper (h : Answers any E R best (.ok b)) (hR : ∀ k, R k → 0 < k.den) (hb : best.proper) : b.proper :=
  fun k hk => (h.1 k hk).elim (hb k) (hR k)

/-- Nothing more is to be done: what is left has no error and no hit, or the walk has the hit that it looks for. -/
theorem answers_done (hb : b.hit = best.hit) (h : any = true ∧ best.hit.isSome = true ∨ ¬E ∧ ∀ k, ¬R k) : Answers any E R best (.ok b) := by
  refine ⟨fun k hk => .inl (hb ▸ hk), fun k hk => ⟨k, hb ▸ hk, fun _ => k.before_refl⟩, fun onward => ?_⟩
  rcases h with ⟨found, some⟩ | ⟨fine, none⟩
  · rcases onward with none | all
    · rw [hb] at none
      simp [none] at some
    · exact absurd (found.symm.trans all) (by decide)
  · exact ⟨fine, fun k hk => absurd hk (none k)⟩

/-- A read on the way of a walk, noted or not, leaves its hit. -/
theorem Answers.of_hit_eq {best' : WalkAcc} (h : Answers any E R best' x) (eq : best'.hit = best.hit) : Answers any E R best x := by
  cases x with
  | error e => cases e <;> exact h
  | ok b =>
    obtain ⟨old, kept, all⟩ := h
    exact ⟨eq ▸ old, eq ▸ kept, all⟩

/-- One part of a walk after another. -/
theorem Answers.seq {f : WalkAcc → Except WalkStop WalkAcc} (hb : best.proper) (h₁ : ∀ k, R₁ k → 0 < k.den) (h₂ : ∀ k, R₂ k → 0 < k.den)
    (first : Answers any E₁ R₁ best x) (second : ∀ b, x = .ok b → Answers any E₂ R₂ b (f b)) :
    Answers any (E₁ ∨ E₂) (fun k => R₁ k ∨ R₂ k) best (x.bind f) := by
  cases x with
  | error e =>
    cases e with
    | bad l => exact .inl first
    | wait va t => trivial
  | ok b =>
    have next := second b rfl
    have hb' : b.proper := first.proper h₁ hb
    change Answers any _ _ best (f b)
    generalize f b = y at next
    cases y with
    | error e =>
      cases e with
      | bad l => exact .inr next
      | wait va t => trivial
    | ok c =>
      have hc : c.proper := next.proper h₂ hb'
      obtain ⟨old, kept, all⟩ := first
      obtain ⟨old', kept', all'⟩ := next
      -- a hit that does not come before another leaves that order with the later walk
      have later : ∀ k, 0 < k.den → any = false → (∃ j, b.hit = some j ∧ j.before k) → ∃ i, c.hit = some i ∧ i.before k := by
        rintro k pos every ⟨j, hj, before⟩
        obtain ⟨i, hi, before'⟩ := kept' j hj
        exact ⟨i, hi, RHit.before_trans (hc i hi) (hb' j hj) pos (before' every) before⟩
      refine ⟨fun k hk => ?_, fun k hk => ?_, fun onward => ?_⟩
      · rcases old' k hk with h | h
        · exact (old k h).imp_right .inl
        · exact .inr (.inr h)
      · obtain ⟨j, hj, before⟩ := kept k hk
        obtain ⟨i, hi, -⟩ := kept' j hj
        refine ⟨i, hi, fun every => ?_⟩
        obtain ⟨i', hi', before'⟩ := later k (hb k hk) every ⟨j, hj, before every⟩
        exact Option.some.inj (hi.symm.trans hi') ▸ before'
      · obtain ⟨fine', all'⟩ := all' onward
        have unhit : c.hit = none → b.hit = none := fun none => by
          cases hj : b.hit with
          | none => rfl
          | some j =>
            obtain ⟨i, hi, -⟩ := kept' j hj
            exact absurd (none.symm.trans hi) (by simp)
        obtain ⟨fine, all⟩ := all (onward.imp_left unhit)
        refine ⟨fun h => h.elim fine fine', fun k hk => hk.elim (fun hk => ?_) (all' k)⟩
        obtain ⟨j, hj, before⟩ := all k hk
        rcases onward with none | every
        · exact absurd ((unhit none).symm.trans hj) (by simp)
        · exact later k (h₁ k hk) every ⟨j, hj, before⟩

/-- Items one after another. -/
theorem answers_foldStop {α : Type} {f : WalkAcc → α → Except WalkStop WalkAcc} {E : α → Prop} {R : α → RHit → Prop}
    (hR : ∀ a k, R a k → 0 < k.den) (l : List α) (item : ∀ a b, WalkAcc.proper b → Answers any (E a) (R a) b (f b a)) {best : WalkAcc}
    (hb : best.proper) : Answers any (∃ a ∈ l, E a) (fun k => ∃ a ∈ l, R a k) best (foldStop f l best) := by
  induction l generalizing best with
  | nil => exact answers_done rfl (.inr ⟨by simp, by simp⟩)
  | cons a l ih =>
    have first := item a best hb
    have both := Answers.seq (f := fun b => foldStop f l b) (E₂ := ∃ a ∈ l, E a) (R₂ := fun k => ∃ a ∈ l, R a k) hb (hR a)
      (fun k ⟨a, _, h⟩ => hR a k h) first fun b hx => ih ((hx ▸ first).proper (hR a) hb)
    have unfolded : foldStop f (a :: l) best = (f best a).bind fun b => foldStop f l b := by
      rw [foldStop]
      cases f best a <;> rfl
    rw [unfolded]
    exact both.congr (by simp) (by simp)

/-- One more hit, or none. -/
theorem answers_keepHit {new : Option RHit} (hE : ¬E) (hR : ∀ k, R k ↔ new = some k) (missing : any = true → best.hit = none) (hb : b.hit = best.hit) :
    Answers any E R best (.ok { b with hit := keepHit any b.hit new }) := by
  cases new with
  | none =>
    refine answers_done ?_ (.inr ⟨hE, fun k hk => absurd ((hR k).1 hk) (by simp)⟩)
    cases hh : b.hit <;> simp [keepHit, ← hb, hh]
  | some n =>
    cases ho : best.hit with
    | none =>
      refine ⟨fun k hk => .inr ((hR k).2 ?_), fun k hk => absurd (ho.symm.trans hk) (by simp), fun _ => ⟨hE, fun k hk => ?_⟩⟩
      · simpa [keepHit, hb, ho] using hk
      · obtain rfl := Option.some.inj ((hR k).1 hk)
        exact ⟨n, by simp [keepHit, hb, ho], n.before_refl⟩
    | some o =>
      have every : any = false := by
        cases any with
        | false => rfl
        | true => exact absurd ((missing rfl).symm.trans ho) (by simp)
      have kept : keepHit any b.hit (some n) = some (betterHit o n) := by simp [keepHit, hb, ho, every]
      have choice := betterHit_cases o n
      refine ⟨fun k hk => ?_, fun k hk => ?_, fun _ => ⟨hE, fun k hk => ?_⟩⟩
      · obtain rfl := Option.some.inj (kept.symm.trans hk)
        rcases choice with ⟨e, -⟩ | ⟨e, -⟩
        · exact .inl (ho.trans (congrArg some e.symm))
        · exact .inr ((hR _).2 (congrArg some e.symm))
      · obtain rfl := Option.some.inj (ho.symm.trans hk)
        refine ⟨_, kept, fun _ => ?_⟩
        rcases choice with ⟨e, -⟩ | ⟨e, before⟩
        · rw [e]; exact o.before_refl
        · rw [e]; exact before
      · obtain rfl := Option.some.inj ((hR k).1 hk)
        refine ⟨_, kept, ?_⟩
        rcases choice with ⟨e, before⟩ | ⟨e, -⟩
        · rw [e]; exact before
        · rw [e]; exact n.before_refl

end

section

variable {rd : AccRead} {h : AccHdr} {any : Bool} {best : WalkAcc} {inst : Option ℕ} {r : Ray} {n d : ℕ} {bs : List Byte} {k : RHit}

/-- A read of a walk, and what it does with the bytes. -/
theorem answers_read {E : Prop} {R : RHit → Prop} {off len : ℕ} {f : List Byte × WalkAcc → Except WalkStop WalkAcc}
    (bad : rd off len = .error none → E) (rest : ∀ bs, rd off len = .ok bs → Answers any E R best (f (bs, best.note off len))) :
    Answers any E R best ((best.read rd off len).bind f) := by
  unfold WalkAcc.read
  cases hr : rd off len with
  | ok bs => exact rest bs hr
  | error e =>
    cases e with
    | none => exact bad hr
    | some p => trivial

/-- A triangle of a leaf is in error. -/
def BadTri (rd : AccRead) (h : AccHdr) (i : ℕ) : Prop :=
  rd (h.tri + 48 * i) 48 = .error none ∨ ∃ ts, rd (h.tri + 48 * i) 48 = .ok ts ∧ 0xFFFFFFFD ≤ natAt ts 36

/-- A triangle of a leaf is hit. -/
def HitTri (rd : AccRead) (h : AccHdr) (inst : ℕ) (r : Ray) (i : ℕ) (k : RHit) : Prop :=
  ∃ ts, rd (h.tri + 48 * i) 48 = .ok ts ∧ triHit r (v3From ts 0) (v3From ts 12) (v3From ts 24) (natAt ts 36) inst = some k

/-- An object of a leaf cannot be read, or is in error below its root. -/
def BadObject (rd : AccRead) (h : AccHdr) (d : ℕ) (r : Ray) (i : ℕ) : Prop :=
  rd (h.inst + 64 * i) 64 = .error none
    ∨ ∃ os, rd (h.inst + 64 * i) 64 = .ok os ∧ Broken rd h d (some (natAt os 52)) (instRay os r) (natAt os 48)

/-- A hit in an object. -/
def HitObject (rd : AccRead) (h : AccHdr) (r : Ray) (i : ℕ) (k : RHit) : Prop :=
  ∃ os, rd (h.inst + 64 * i) 64 = .ok os ∧ Reaches rd h (some (natAt os 52)) (instRay os r) (natAt os 48) k

theorem walkTri_answers (inst : ℕ) (r : Ray) (i : ℕ) (best : WalkAcc) :
    Answers any (BadTri rd h i) (HitTri rd h inst r i) best (walkTri rd h any inst r best i) := by
  have unfolded : walkTri rd h any inst r best i = if any && best.hit.isSome then .ok best
      else (best.read rd (h.tri + 48 * i) 48).bind fun p => if natAt p.1 36 ≥ 0xFFFFFFFD then .error p.2.bad
        else .ok { p.2 with hit := keepHit any p.2.hit (triHit r (v3From p.1 0) (v3From p.1 12) (v3From p.1 24) (natAt p.1 36) inst) } := by
    unfold walkTri
    cases best.read rd (h.tri + 48 * i) 48 <;> rfl
  rw [unfolded]
  split_ifs with found
  · exact answers_done rfl (.inl (Bool.and_eq_true_iff.1 found))
  · refine answers_read Or.inl fun ts hr => ?_
    have missing : any = true → best.hit = none := fun ha => by simpa [ha] using found
    split_ifs with reserved
    · exact .inr ⟨ts, hr, reserved⟩
    · refine answers_keepHit ?_ (fun k => ?_) missing rfl
      · rintro (none | ⟨ts', hr', high⟩)
        · exact absurd (hr.symm.trans none) nofun
        · obtain rfl := Except.ok.inj (hr.symm.trans hr')
          exact reserved high
      · refine ⟨fun ⟨ts', hr', hit⟩ => ?_, fun hit => ⟨ts, hr, hit⟩⟩
        obtain rfl := Except.ok.inj (hr.symm.trans hr')
        exact hit

/-! What lies below a node, as the walk takes it apart. -/

theorem reaches_den (hk : Reaches rd h inst r n k) : 0 < k.den := by
  induction hk with
  | left _ _ _ ih => exact ih
  | right _ _ _ ih => exact ih
  | triangle _ _ _ _ hit =>
    obtain ⟨-, det, -, rfl⟩ := triHit_eq_some.1 hit
    exact triSolution_den det _ _
  | object _ _ _ _ _ ih => exact ih

theorem Visited.unique {bs' : List Byte} (hv : Visited rd h r n bs) (hv' : Visited rd h r n bs') : bs' = bs :=
  Except.ok.inj (hv'.1.symm.trans hv.1)

/-- A node whose box the ray does not meet has nothing below it. -/
theorem not_below_missed (hr : rd (h.node + 32 * n) 32 = .ok bs) (missed : boxMet r (v3From bs 0) (v3From bs 12) = false) :
    ¬Broken rd h d inst r n ∧ ∀ k, ¬Reaches rd h inst r n k := by
  have none : ∀ bs', ¬Visited rd h r n bs' := fun bs' hv => by
    obtain rfl := Except.ok.inj (hr.symm.trans hv.1)
    exact Bool.false_ne_true (missed.symm.trans hv.2)
  refine ⟨fun hb => ?_, fun k hk => ?_⟩
  · cases hb with
    | node hn => exact absurd (hr.symm.trans hn) nofun
    | deep hv => exact none _ hv
    | kind hv => exact none _ hv
    | nested hv => exact none _ hv
    | left hv => exact none _ hv
    | right hv => exact none _ hv
    | noTriangle hv => exact none _ hv
    | primitive hv => exact none _ hv
    | noObject hv => exact none _ hv
    | object hv => exact none _ hv
  · cases hk with
    | left hv => exact none _ hv
    | right hv => exact none _ hv
    | triangle hv => exact none _ hv
    | object hv => exact none _ hv

theorem natAt_lt (bs : List Byte) (j : ℕ) : natAt bs j < 2 ^ 32 := by
  have bound : ∀ l : List Byte, ofBytes l < 256 ^ l.length := by
    intro l
    induction l with
    | nil => simp [ofBytes]
    | cons b l ih =>
      have := b.isLt
      simp only [ofBytes, List.length_cons, pow_succ]
      omega
  exact (bound _).trans_le ((Nat.pow_le_pow_right (by norm_num) (List.length_take_le ..)).trans (by norm_num))

/-- The kind of a node, and the number of items of a leaf (R166). -/
def nodeKind (bs : List Byte) : ℕ := natAt bs 28 / 2 ^ 30
def itemCount (bs : List Byte) : ℕ := natAt bs 28 % 2 ^ 30

theorem nodeKind_lt (bs : List Byte) : nodeKind bs < 4 := by
  have := natAt_lt bs 28
  unfold nodeKind
  omega

/-- The items of a leaf's header that a walk looks at: no record holds more than `most`. -/
def leafItems (most : ℕ) (bs : List Byte) : List ℕ := (List.range (min (itemCount bs) most)).map fun i => natAt bs 24 + i

section

variable {most limit size base : ℕ}

/-- What is not found beyond a record is not found among the items that a walk looks at either. -/
theorem exists_leafItems_of_outside {P : ℕ → Prop} (pos : 0 < most) (beyond : ∀ i, most ≤ i + 1 → P (natAt bs 24 + i)) :
    (∃ j ∈ leafItems most bs, P j) ↔ ∃ i, i < itemCount bs ∧ P (natAt bs 24 + i) := by
  simp only [leafItems, List.mem_map, List.mem_range, exists_exists_and_eq_and]
  constructor
  · rintro ⟨i, lt, hi⟩
    exact ⟨i, lt.trans_le (min_le_left _ _), hi⟩
  · rintro ⟨i, lt, hi⟩
    by_cases few : itemCount bs ≤ most
    · exact ⟨i, by omega, hi⟩
    · exact ⟨most - 1, by omega, beyond _ (by omega)⟩

theorem exists_leafItems_of_inside {P : ℕ → Prop} (beyond : ∀ i, most ≤ i + 1 → ¬P (natAt bs 24 + i)) :
    (∃ j ∈ leafItems most bs, P j) ↔ ∃ i, i < itemCount bs ∧ P (natAt bs 24 + i) := by
  simp only [leafItems, List.mem_map, List.mem_range, exists_exists_and_eq_and]
  constructor
  · rintro ⟨i, lt, hi⟩
    exact ⟨i, lt.trans_le (min_le_left _ _), hi⟩
  · rintro ⟨i, lt, hi⟩
    have : i < most := by
      by_contra out
      exact beyond i (by omega) hi
    exact ⟨i, by omega, hi⟩

end

/-- Where a structure error stands below a node that the ray meets. -/
theorem broken_iff (hv : Visited rd h r n bs) : Broken rd h (d + 1) inst r n ↔
    (nodeKind bs = 0 ∧ (Broken rd h d inst r (natAt bs 24) ∨ Broken rd h d inst r (natAt bs 24 + 1)))
    ∨ (nodeKind bs = 1 ∧ ∃ i, i < itemCount bs ∧ BadTri rd h (natAt bs 24 + i))
    ∨ (nodeKind bs = 2 ∧ (inst.isSome = true ∨ inst = none ∧ ∃ i, i < itemCount bs ∧ BadObject rd h d r (natAt bs 24 + i)))
    ∨ nodeKind bs = 3 := by
  constructor
  · intro hb
    cases hb with
    | node hn => exact absurd (hv.1.symm.trans hn) nofun
    | kind hv' kind => obtain rfl := hv.unique hv'; exact .inr (.inr (.inr kind))
    | nested hv' kind => obtain rfl := hv.unique hv'; exact .inr (.inr (.inl ⟨kind, .inl rfl⟩))
    | left hv' kind hb => obtain rfl := hv.unique hv'; exact .inl ⟨kind, .inl hb⟩
    | right hv' kind hb => obtain rfl := hv.unique hv'; exact .inl ⟨kind, .inr hb⟩
    | noTriangle hv' kind lt hr => obtain rfl := hv.unique hv'; exact .inr (.inl ⟨kind, _, lt, .inl hr⟩)
    | primitive hv' kind lt hr high => obtain rfl := hv.unique hv'; exact .inr (.inl ⟨kind, _, lt, .inr ⟨_, hr, high⟩⟩)
    | noObject hv' kind lt hr => obtain rfl := hv.unique hv'; exact .inr (.inr (.inl ⟨kind, .inr ⟨rfl, _, lt, .inl hr⟩⟩))
    | object hv' kind lt hr hb => obtain rfl := hv.unique hv'; exact .inr (.inr (.inl ⟨kind, .inr ⟨rfl, _, lt, .inr ⟨_, hr, hb⟩⟩⟩))
  · rintro (⟨kind, hb | hb⟩ | ⟨kind, i, lt, hr | ⟨ts, hr, high⟩⟩ | ⟨kind, nested | ⟨rfl, i, lt, hr | ⟨os, hr, hb⟩⟩⟩ | kind)
    · exact .left hv kind hb
    · exact .right hv kind hb
    · exact .noTriangle hv kind lt hr
    · exact .primitive hv kind lt hr high
    · obtain ⟨x, rfl⟩ := Option.isSome_iff_exists.1 nested
      exact .nested hv kind
    · exact .noObject hv kind lt hr
    · exact .object hv kind lt hr hb
    · exact .kind hv kind

/-- Where a hit lies below a node that the ray meets. -/
theorem reaches_iff (hv : Visited rd h r n bs) : Reaches rd h inst r n k ↔
    (nodeKind bs = 0 ∧ (Reaches rd h inst r (natAt bs 24) k ∨ Reaches rd h inst r (natAt bs 24 + 1) k))
    ∨ (nodeKind bs = 1 ∧ ∃ i, i < itemCount bs ∧ HitTri rd h (inst.getD 0xFFFFFFFF) r (natAt bs 24 + i) k)
    ∨ (nodeKind bs = 2 ∧ inst = none ∧ ∃ i, i < itemCount bs ∧ HitObject rd h r (natAt bs 24 + i) k) := by
  constructor
  · intro hk
    cases hk with
    | left hv' kind hk => obtain rfl := hv.unique hv'; exact .inl ⟨kind, .inl hk⟩
    | right hv' kind hk => obtain rfl := hv.unique hv'; exact .inl ⟨kind, .inr hk⟩
    | triangle hv' kind lt hr hit => obtain rfl := hv.unique hv'; exact .inr (.inl ⟨kind, _, lt, _, hr, hit⟩)
    | object hv' kind lt hr hk => obtain rfl := hv.unique hv'; exact .inr (.inr ⟨kind, rfl, _, lt, _, hr, hk⟩)
  · rintro (⟨kind, hk | hk⟩ | ⟨kind, i, lt, ts, hr, hit⟩ | ⟨kind, rfl, i, lt, os, hr, hk⟩)
    · exact .left hv kind hk
    · exact .right hv kind hk
    · exact .triangle hv kind lt hr hit
    · exact .object hv kind lt hr hk

end

/-! The walk itself. -/

section

variable (rd : AccRead) (h : AccHdr) (any : Bool) (most : ℕ) {limit : ℕ}

/-- One object of a leaf. -/
def walkObject (d : ℕ) (r : Ray) (b : WalkAcc) (i : ℕ) : Except WalkStop WalkAcc :=
  if any && b.hit.isSome then .ok b
  else (b.read rd (h.inst + 64 * i) 64).bind fun p => walkNode rd h any most d (some (natAt p.1 52)) (instRay p.1 r) (natAt p.1 48) p.2

/-- The walk below a node that the ray meets, by its kind. -/
def walkBelow (d : ℕ) (inst : Option ℕ) (r : Ray) (bs : List Byte) (b : WalkAcc) : Except WalkStop WalkAcc :=
  if nodeKind bs = 0 then (walkNode rd h any most d inst r (natAt bs 24) b).bind fun b => walkNode rd h any most d inst r (natAt bs 24 + 1) b
  else if nodeKind bs = 1 then foldStop (walkTri rd h any (inst.getD 0xFFFFFFFF) r) (leafItems most bs) b
  else if nodeKind bs = 2 then (if inst.isSome then .error b.bad else foldStop (walkObject rd h any most d r) (leafItems most bs) b)
  else .error b.bad

/-- The walk at a node: its box, then what lies below it. -/
def walkAt (below : List Byte → WalkAcc → Except WalkStop WalkAcc) (r : Ray) (n : ℕ) (best : WalkAcc) : Except WalkStop WalkAcc :=
  if any && best.hit.isSome then .ok best
  else (best.read rd (h.node + 32 * n) 32).bind fun p =>
    if !boxMet r (v3From p.1 0) (v3From p.1 12) then .ok p.2 else below p.1 p.2

theorem walkNode_zero (inst : Option ℕ) (r : Ray) (n : ℕ) (best : WalkAcc) :
    walkNode rd h any most 0 inst r n best = walkAt rd h any (fun _ b => .error b.bad) r n best := by
  have unfolded : walkNode rd h any most 0 inst r n best = if any && best.hit.isSome then .ok best
      else match best.read rd (h.node + 32 * n) 32 with
        | .error e => .error e
        | .ok (bs, b) => if !boxMet r (v3From bs 0) (v3From bs 12) then .ok b else .error b.bad := by
    delta walkNode
    rfl
  rw [unfolded, walkAt]
  cases best.read rd (h.node + 32 * n) 32 <;> rfl

theorem walkNode_succ (d : ℕ) (inst : Option ℕ) (r : Ray) (n : ℕ) (best : WalkAcc) :
    walkNode rd h any most (d + 1) inst r n best = walkAt rd h any (walkBelow rd h any most d inst r) r n best := by
  have unfolded : walkNode rd h any most (d + 1) inst r n best = if any && best.hit.isSome then .ok best
      else match best.read rd (h.node + 32 * n) 32 with
        | .error e => .error e
        | .ok (bs, b) => if !boxMet r (v3From bs 0) (v3From bs 12) then .ok b
          else if natAt bs 28 / 2 ^ 30 = 0 then
            match walkNode rd h any most d inst r (natAt bs 24) b with
            | .error e => .error e
            | .ok b => walkNode rd h any most d inst r (natAt bs 24 + 1) b
          else if natAt bs 28 / 2 ^ 30 = 1 then foldStop (walkTri rd h any (inst.getD 0xFFFFFFFF) r) (leafItems most bs) b
          else if natAt bs 28 / 2 ^ 30 = 2 then
            (if inst.isSome then .error b.bad
              else foldStop (fun b i => if any && b.hit.isSome then .ok b
                else match b.read rd (h.inst + 64 * i) 64 with
                  | .error e => .error e
                  | .ok (os, b) => walkNode rd h any most d (some (natAt os 52)) (instRay os r) (natAt os 48) b) (leafItems most bs) b)
          else .error b.bad := by
    delta walkNode
    rfl
  have branch : ∀ bs (x : Except WalkStop WalkAcc), (match x with
      | .error e => .error e
      | .ok b => walkNode rd h any most d inst r (natAt bs 24 + 1) b) = x.bind fun b => walkNode rd h any most d inst r (natAt bs 24 + 1) b := by
    intro bs x
    cases x <;> rfl
  have object : (fun (b : WalkAcc) (i : ℕ) => if any && b.hit.isSome then Except.ok b
      else match b.read rd (h.inst + 64 * i) 64 with
        | .error e => .error e
        | .ok (os, b) => walkNode rd h any most d (some (natAt os 52)) (instRay os r) (natAt os 48) b) = walkObject rd h any most d r := by
    funext b i
    unfold walkObject
    cases b.read rd (h.inst + 64 * i) 64 <;> rfl
  rw [unfolded, walkAt, object]
  cases best.read rd (h.node + 32 * n) 32 with
  | error e => rfl
  | ok p =>
    simp only [branch]
    rfl

variable {rd} {h} {any} {most}

theorem walkObject_answers {d : ℕ} (below : ∀ inst r n best, WalkAcc.proper best →
      Answers any (Broken rd h d inst r n) (Reaches rd h inst r n) best (walkNode rd h any most d inst r n best))
    (r : Ray) (i : ℕ) (best : WalkAcc) (hb : best.proper) :
    Answers any (BadObject rd h d r i) (HitObject rd h r i) best (walkObject rd h any most d r best i) := by
  unfold walkObject
  split_ifs with found
  · exact answers_done rfl (.inl (Bool.and_eq_true_iff.1 found))
  · refine answers_read Or.inl fun os hr => ?_
    have inside := below (some (natAt os 52)) (instRay os r) (natAt os 48) (best.note (h.inst + 64 * i) 64) hb
    refine (inside.of_hit_eq rfl).congr ⟨fun hbad => .inr ⟨os, hr, hbad⟩, ?_⟩ fun k => ⟨fun hk => ⟨os, hr, hk⟩, ?_⟩
    · rintro (none | ⟨os', hr', hbad⟩)
      · exact absurd (hr.symm.trans none) nofun
      · obtain rfl := Except.ok.inj (hr.symm.trans hr')
        exact hbad
    · rintro ⟨os', hr', hk⟩
      obtain rfl := Except.ok.inj (hr.symm.trans hr')
      exact hk

section

variable (outside : ∀ off len, limit < off + len → rd off len = .error none) (many : limit < 48 * most)
include outside many

theorem badTri_beyond {ref i : ℕ} (beyond : most ≤ i + 1) : BadTri rd h (ref + i) := .inl (outside _ _ (by omega))

theorem not_hitTri_beyond {ref i inst : ℕ} {r : Ray} {k : RHit} (beyond : most ≤ i + 1) : ¬HitTri rd h inst r (ref + i) k :=
  fun ⟨_, hr, _⟩ => absurd (hr.symm.trans (outside _ _ (by omega))) nofun

theorem badObject_beyond {ref i d : ℕ} {r : Ray} (beyond : most ≤ i + 1) : BadObject rd h d r (ref + i) := .inl (outside _ _ (by omega))

theorem not_hitObject_beyond {ref i : ℕ} {r : Ray} {k : RHit} (beyond : most ≤ i + 1) : ¬HitObject rd h r (ref + i) k :=
  fun ⟨_, hr, _⟩ => absurd (hr.symm.trans (outside _ _ (by omega))) nofun

theorem walkBelow_answers {d : ℕ} (below : ∀ inst r n best, WalkAcc.proper best →
      Answers any (Broken rd h d inst r n) (Reaches rd h inst r n) best (walkNode rd h any most d inst r n best))
    {inst : Option ℕ} {r : Ray} {n : ℕ} {bs : List Byte} {best : WalkAcc} (hv : Visited rd h r n bs) (hb : best.proper) :
    Answers any (Broken rd h (d + 1) inst r n) (Reaches rd h inst r n) best (walkBelow rd h any most d inst r bs best) := by
  have kinds := nodeKind_lt bs
  have pos : 0 < most := by omega
  unfold walkBelow
  split_ifs with inner leaf object nested
  · have both := (below inst r (natAt bs 24) best hb).seq hb (fun _ => reaches_den) (fun _ => reaches_den) fun b hx =>
      below inst r (natAt bs 24 + 1) b ((hx ▸ below inst r (natAt bs 24) best hb).proper (fun _ => reaches_den) hb)
    exact both.congr (by simp [broken_iff hv, inner]) fun k => by simp [reaches_iff hv, inner]
  · have items := answers_foldStop (fun i k ⟨ts, _, hit⟩ => by
      obtain ⟨-, det, -, rfl⟩ := triHit_eq_some.1 hit
      exact triSolution_den det _ _) (leafItems most bs) (fun i b _ => walkTri_answers (rd := rd) (h := h) (any := any) (inst.getD 0xFFFFFFFF) r i b) hb
    refine items.congr ?_ fun k => ?_
    · rw [exists_leafItems_of_outside pos fun i => badTri_beyond outside many]
      simp [broken_iff hv, leaf]
    · rw [exists_leafItems_of_inside fun i => not_hitTri_beyond outside many]
      simp [reaches_iff hv, leaf]
  · exact (broken_iff hv).2 (.inr (.inr (.inl ⟨object, .inl nested⟩)))
  · obtain rfl : inst = none := by simpa using nested
    have items := answers_foldStop (fun i k ⟨os, _, hk⟩ => reaches_den hk) (leafItems most bs) (walkObject_answers below r) hb
    refine items.congr ?_ fun k => ?_
    · rw [exists_leafItems_of_outside pos fun i => badObject_beyond outside many]
      simp [broken_iff hv, object]
    · rw [exists_leafItems_of_inside fun i => not_hitObject_beyond outside many]
      simp [reaches_iff hv, object]
  · exact (broken_iff hv).2 (.inr (.inr (.inr (by omega))))

/-- A walk answers what lies below its node. -/
theorem walkNode_answers (d : ℕ) (inst : Option ℕ) (r : Ray) (n : ℕ) (best : WalkAcc) (hb : best.proper) :
    Answers any (Broken rd h d inst r n) (Reaches rd h inst r n) best (walkNode rd h any most d inst r n best) := by
  have node : ∀ d inst r n best below, (∀ bs, Visited rd h r n bs →
        Answers any (Broken rd h d inst r n) (Reaches rd h inst r n) (best.note (h.node + 32 * n) 32) (below bs (best.note (h.node + 32 * n) 32))) →
      Answers any (Broken rd h d inst r n) (Reaches rd h inst r n) best (walkAt rd h any below r n best) := by
    intro d inst r n best below met
    unfold walkAt
    split_ifs with found
    · exact answers_done rfl (.inl (Bool.and_eq_true_iff.1 found))
    · refine answers_read Broken.node fun bs hr => ?_
      split_ifs with missed
      · exact answers_done rfl (.inr (not_below_missed hr (by simpa using missed)))
      · exact (met bs ⟨hr, by simpa using missed⟩).of_hit_eq rfl
  induction d generalizing inst r n best with
  | zero =>
    rw [walkNode_zero]
    exact node 0 inst r n best _ fun bs hv => .deep hv
  | succ d ih =>
    rw [walkNode_succ]
    exact node (d + 1) inst r n best _ fun bs hv => walkBelow_answers outside many (fun inst r n best hb => ih inst r n best hb) hv hb

end

end

end Sys2Proof.Machine

/-! ### The words of a walk (R167) -/

namespace Sys2Proof.Machine

/-- The header of R166 in its bytes. -/
def hdrOf (bs : List Byte) : AccHdr := { node := natAt bs 0, tri := natAt bs 4, inst := natAt bs 8, root := natAt bs 12 }

/-- The five words of a walk that has ended in order. -/
def walkWords (hit : Option RHit) : List Word := match hit with
  | none => [0x7F800000, 0, 0, 0xFFFFFFFF, 0xFFFFFFFF]
  | some k => [frac32 k.t k.den, frac32 k.u k.den, frac32 k.v k.den, BitVec.ofNat 32 k.prim, BitVec.ofNat 32 k.inst]

section

variable {s : State} {core ctx : ℕ} {t : Option Task} {any : Bool} {b : BufRec} {ws : List Word} {hb : List Byte} {rs : List Word} {reads : List (ℕ × ℕ)}

/-- What a walk's end gives of its ray. -/
def walkEnd (x : Except WalkStop WalkAcc) : Except (ℕ × Trans) (List Word × List (ℕ × ℕ)) := match x with
  | .error (.bad l) => .ok ([0x7FC00000, 0, 0, 0xFFFFFFFD, 0], l)
  | .error (.wait va t) => .error (va, t)
  | .ok a => .ok (walkWords a.hit, a.reads)

theorem walkRay_walks (valid : invalidRay (rayOf ws) = false) (header : recRead s core ctx t b 0 32 = .ok hb) : walkRay s core ctx t any b ws
    = walkEnd (walkNode (recRead s core ctx t b) (hdrOf hb) any (b.limit / 48 + 1) 64 none (rayOf ws) (hdrOf hb).root (WalkAcc.note {} 0 32)) := by
  have start : WalkAcc.read (recRead s core ctx t b) {} 0 32 = .ok (hb, WalkAcc.note {} 0 32) := by rw [WalkAcc.read, header]
  refine (if_neg (by simpa [rayOf] using valid)).trans ?_
  rw [start]
  change (match walkNode (recRead s core ctx t b) (hdrOf hb) any (b.limit / 48 + 1) 64 none (rayOf ws) (hdrOf hb).root (WalkAcc.note {} 0 32) with
    | .error (.bad l) => _
    | .error (.wait va t) => _
    | .ok { hit := none, reads := l } => _
    | .ok { hit := some h, reads := l } => _) = _
  cases walkNode (recRead s core ctx t b) (hdrOf hb) any (b.limit / 48 + 1) 64 none (rayOf ws) (hdrOf hb).root (WalkAcc.note {} 0 32) with
  | error e => cases e <;> rfl
  | ok a =>
    obtain ⟨hit, l⟩ := a
    cases hit <;> rfl

/-- A ray's words are those of an error, or of a walk's hit. -/
theorem walkRay_answers (valid : invalidRay (rayOf ws) = false) (header : recRead s core ctx t b 0 32 = .ok hb)
    (ended : walkRay s core ctx t any b ws = .ok (rs, reads)) :
    (Broken (recRead s core ctx t b) (hdrOf hb) 64 none (rayOf ws) (hdrOf hb).root ∧ rs = [0x7FC00000, 0, 0, 0xFFFFFFFD, 0])
    ∨ ∃ a, rs = walkWords a.hit ∧ Answers any (Broken (recRead s core ctx t b) (hdrOf hb) 64 none (rayOf ws) (hdrOf hb).root)
        (Reaches (recRead s core ctx t b) (hdrOf hb) none (rayOf ws) (hdrOf hb).root) {} (.ok a) := by
  have walk := (walkNode_answers (rd := recRead s core ctx t b) (h := hdrOf hb) (any := any) (most := b.limit / 48 + 1) (limit := b.limit)
    (fun off len out => if_pos (by omega)) (by omega) 64 none (rayOf ws) (hdrOf hb).root (WalkAcc.note {} 0 32) nofun).of_hit_eq
    (best := {}) rfl
  rw [walkRay_walks valid header] at ended
  generalize walkNode _ _ _ _ _ _ _ _ _ = x at walk ended
  cases x with
  | error e =>
    cases e with
    | bad l =>
      obtain ⟨rfl, -⟩ := Prod.mk.inj (Except.ok.inj ended)
      exact .inl ⟨walk, rfl⟩
    | wait va t => cases ended
  | ok a =>
    obtain ⟨rfl, -⟩ := Prod.mk.inj (Except.ok.inj ended)
    exact .inr ⟨a, rfl, walk⟩

end

theorem walkAnswers : Sys2Proof.Claims.walkAnswers := by
  intro s b ws hb rs reads w ray rd h walk before isError isMiss isHit reached broken valid header
  refine ⟨fun ended => ?_, fun ended => ?_⟩
  · rcases walkRay_answers valid header ended with error | ⟨a, words, old, -, all⟩
    · exact .inl error
    · obtain ⟨fine, first⟩ := all (.inr rfl)
      cases hit : a.hit with
      | none =>
        refine .inr (.inl ⟨fine, fun k hk => ?_, words.trans (by rw [hit]; rfl)⟩)
        obtain ⟨j, hj, -⟩ := first k hk
        exact absurd (hit.symm.trans hj) nofun
      | some k =>
        refine .inr (.inr ⟨fine, k, (old k hit).resolve_left nofun, words.trans (by rw [hit]; rfl), fun j hj => ?_⟩)
        obtain ⟨i, hi, order⟩ := first j hj
        exact Option.some.inj (hi.symm.trans hit) ▸ order
  · rcases walkRay_answers valid header ended with error | ⟨a, words, old, -, all⟩
    · exact .inl error
    · cases hit : a.hit with
      | none =>
        obtain ⟨fine, first⟩ := all (.inl hit)
        refine .inr (.inl ⟨fine, fun k hk => ?_, words.trans (by rw [hit]; rfl)⟩)
        obtain ⟨j, hj, -⟩ := first k hk
        exact absurd (hit.symm.trans hj) nofun
      | some k => exact .inr (.inr ⟨k, (old k hit).resolve_left nofun, words.trans (by rw [hit]; rfl)⟩)

end Sys2Proof.Machine

/-! ### `TRACE`, `TRACEP` and `VISQ` start their work (R165, R168) -/

namespace Sys2Proof.Machine

section

variable {s : State} {n : Need} {body : State → State}

/-- A word that ends in `finish` of a change of the issuer which keeps the path and the step requests. -/
theorem word_setG_completes (k : Group → Group) (hr : ready n s) (hf : body s = finish (s.setG k)) (act : (k s.grp).act = s.grp.act)
    (hstep : (k s.grp).hstep = s.grp.hstep) (steps : (k s.grp).dbgSteps = s.grp.dbgSteps) :
    ∃ t, word n body s = thenStep s t ∧ Completed (s.setG k) t := by
  rw [word_run _ hr, hf]
  refine finish_completes ?_ ?_ ?_
  · simp [quiet, hstep, steps]
  · simp [curPc, act]
  · simp [active, act]

end

section

variable (s : State) (any : Bool) (k : BitVec 6) (h r : BitVec 8)

/-- What `TRACE` and `TRACEP` need. -/
def traceNeed : Need :=
  { vectorNeed (.s k.toNat :: plainRegs 5 h.toNat ++ plainRegs 8 r.toNat)
    (!(decide (h.toNat + 5 ≤ s.grp.code.vregs) && decide (r.toNat + 8 ≤ s.grp.code.vregs))) with feats := [3] }

/-- The rays of the active lanes. -/
def traceRays : List (ℕ × List Word) := (lanes (active s)).map fun l => (l, (List.range 8).map fun i => getV s.grp (r.toNat + i) l)

/-- The walks that are pending. -/
def pendingRays : ℕ := s.grp.tokens.countP fun t => match t.work with
  | .ray _ _ _ _ => true
  | _ => false

/-- A token of a walk is one with hit registers. -/
theorem pendingRays_eq : (s.grp.tokens.filter fun t => !(tokenV t).isEmpty).length = pendingRays s := by
  unfold pendingRays
  rw [List.countP_eq_length_filter]
  congr 1
  refine List.filter_congr fun t _ => ?_
  cases hw : t.work <;> simp [tokenV, hw]

/-- What `TRACE` and `TRACEP` do once their checks have passed. -/
def rayBody : State :=
  if active s = 0 then finish (s.setG (setS k.toNat 0))
  else if (s.grp.tokens.filter fun t => !(tokenV t).isEmpty).length ≥ s.grp.code.traceDepth then trapOwn cTraceDepth s
  else finish (startToken k.toNat (.ray any h.toNat (traceRays s r) (getB s.grp 29)) s)

theorem traceWord_eq : traceWord any k h r s = word (traceNeed s k h r) (fun s => rayBody s any k h r) s := rfl

variable {s} {k} {h} {r}

theorem traceWord_idle (hr : ready (traceNeed s k h r) s) (idle : active s = 0) :
    ∃ t, traceWord any k h r s = thenStep s t ∧ Completed (s.setG (setS k.toNat 0)) t :=
  word_setG_completes (body := fun s => rayBody s any k h r) _ hr (if_pos idle) rfl rfl rfl

theorem traceWord_full (hr : ready (traceNeed s k h r) s) (some : active s ≠ 0) (full : s.grp.code.traceDepth ≤ pendingRays s) :
    traceWord any k h r s = takeTrap { cause := cTraceDepth, mask := active s } s := by
  rw [traceWord_eq, word_run _ hr, rayBody, if_neg some, pendingRays_eq]
  exact if_pos full

theorem traceWord_starts (hr : ready (traceNeed s k h r) s) (some : active s ≠ 0) (room : pendingRays s < s.grp.code.traceDepth) :
    ∃ t, traceWord any k h r s = thenStep s t ∧ Completed (startToken k.toNat (.ray any h.toNat (traceRays s r) (getB s.grp 29)) s) t := by
  refine word_setG_completes (body := fun s => rayBody s any k h r) _ hr ?_ rfl rfl rfl
  rw [rayBody, if_neg some, pendingRays_eq]
  exact if_neg (not_le.2 room)

end

section

variable {s : State} {k : BitVec 6} {v : BitVec 8} {l : ℕ}

/-- What `VISQ` needs. -/
def visqNeed (s : State) (k : BitVec 6) (v : BitVec 8) : Need :=
  { vectorNeed (.s k.toNat :: plainRegs 5 v.toNat) (decide (v.toNat + 5 > s.grp.code.vregs)) with feats := [3], hints := { part := true } }

/-- The five values of `VISQ`, of the lowest active lane. -/
def visqArg (s : State) (v : BitVec 8) (l i : ℕ) : ℕ := (getV s.grp (v.toNat + i) l).toNat

/-- The ranges that a resolve reads and writes meet those of one that its lane has pending. -/
def visqMeetsPending (s : State) (v : BitVec 8) (l : ℕ) : Bool :=
  spansMeet s.grp l [(recOfBits (getB s.grp 27), 48, visqArg s v l 2, visqArg s v l 3), (recOfBits (getB s.grp 28), 4, visqArg s v l 4, 2048)]

/-- What `VISQ` does once its tile numbers are good and its path is whole. -/
def visqBody (k : BitVec 6) (v : BitVec 8) (l : ℕ) (s : State) : State :=
  match visqTrap s (visqArg s v l 2) (visqArg s v l 3) (visqArg s v l 4) with
  | some t => takeTrap t s
  | none => if visqMeetsPending s v l then stallOn .token s
    else finish (startToken k.toNat (.visq l (visqArg s v l 0) (visqArg s v l 1) (visqArg s v l 2) (visqArg s v l 3) (visqArg s v l 4)
      (getB s.grp 27) (getB s.grp 28)) s)

theorem visqBody_trap {t : TrapReq} (trap : visqTrap s (visqArg s v l 2) (visqArg s v l 3) (visqArg s v l 4) = some t) :
    visqBody k v l s = takeTrap t s := by
  unfold visqBody
  rw [trap]

theorem visqBody_good (good : visqTrap s (visqArg s v l 2) (visqArg s v l 3) (visqArg s v l 4) = none) :
    visqBody k v l s = if visqMeetsPending s v l then stallOn .token s
      else finish (startToken k.toNat (.visq l (visqArg s v l 0) (visqArg s v l 1) (visqArg s v l 2) (visqArg s v l 3) (visqArg s v l 4)
        (getB s.grp 27) (getB s.grp 28)) s) := by
  unfold visqBody
  rw [good]

theorem exec_visq_idle (bt : BitVec 1) (hr : ready (visqNeed s k v) s) (idle : lowLane (active s) = none) : exec (.visq bt k v) s = .next (finish s) := by
  refine congrArg Host.Outcome.next ((word_run _ hr).trans ?_)
  dsimp only
  rw [idle]

theorem exec_visq (bt : BitVec 1) (hr : ready (visqNeed s k v) s) (low : lowLane (active s) = some l) : exec (.visq bt k v) s
    = .next (if visqArg s v l 0 > 1023 ∨ visqArg s v l 1 > 1023 then trapOwn cIllegalOperand s else collective (visqBody k v l) s) := by
  refine congrArg Host.Outcome.next ((word_run _ hr).trans ?_)
  dsimp only
  rw [low]
  rfl

end

/-- Settles O37: hits, walks and samples by their own lemmas; each word runs its checks and leaves its work pending. -/
theorem rayWordsStartTheirWork : Obligations.RayWordsStartTheirWork := by
  refine ⟨exactHits, walkAnswers, tileSamples, ?_⟩
  intro s bt k h r v m need rays inFlightRays started traces needV x spans
  have trace : ∀ i any, exec i s = .next (traceWord any k h r s) → traces i any := by
    intro i any he
    refine ⟨fun hr idle => ?_, fun hr some full => ?_, fun hr some room => ?_⟩
    · obtain ⟨t, ht, done⟩ := traceWord_idle any hr idle
      exact ⟨t, he.trans (congrArg _ ht), done⟩
    · exact he.trans (congrArg _ (traceWord_full any hr some full))
    · obtain ⟨t, ht, done⟩ := traceWord_starts any hr some room
      exact ⟨t, he.trans (congrArg _ ht), done⟩
  have near : ∀ {l}, ready needV s → lowLane m = some l → x l 0 ≤ 1023 → x l 1 ≤ 1023 →
      exec (.visq bt k r) s = .next (collective (visqBody k r l) s) := by
    intro l hr low hx hy
    exact (exec_visq bt hr low).trans (congrArg _ (if_neg (not_or.2 ⟨not_lt.2 hx, not_lt.2 hy⟩)))
  refine ⟨trace _ false rfl, trace _ true rfl, fun hr idle => ?_, fun l hr low => ⟨fun far => ?_, fun hx hy part => ?_, fun hx hy whole => ?_⟩⟩
  · obtain ⟨t, ht, done⟩ := finish_completes (s := s) (u := s) rfl rfl rfl
    exact ⟨t, (exec_visq_idle bt hr idle).trans (congrArg _ ht), done⟩
  · exact (exec_visq bt hr low).trans (congrArg _ (if_pos far))
  · exact (near hr low hx hy).trans (congrArg _ (collective_part _ part))
  · have ran := (near hr low hx hy).trans (congrArg _ (collective_full _ whole))
    refine ⟨fun t trap => ran.trans (congrArg _ (visqBody_trap trap)), fun good meets => ?_, fun good clear => ?_⟩
    · exact ran.trans (congrArg _ ((visqBody_good good).trans (if_pos meets)))
    · obtain ⟨t, ht, done⟩ := finish_completes (s := s) (u := startToken k.toNat (.visq l (x l 0) (x l 1) (x l 2) (x l 3) (x l 4)
        (getB s.grp 27) (getB s.grp 28)) s) rfl rfl rfl
      have free : visqMeetsPending s r l ≠ true := fun meets => Bool.false_ne_true (clear.symm.trans meets)
      exact ⟨t, ran.trans (congrArg _ (((visqBody_good good).trans (if_neg free)).trans ht)), done⟩

end Sys2Proof.Machine

/-! ### The values of lobes and frames (R150, R154 to R160) -/

namespace Sys2Proof.Machine

theorem lobeParameters : Sys2Proof.Claims.lobeParameters := by
  intro p clamp u a f
  refine ⟨rfl, rfl, rfl, rfl, rfl, rfl, ?_⟩
  simp [netBad, Bool.or_eq_true]

section

variable {a b : Word} {o i : V3}

/-- `copysign` of 1. -/
theorem sign_one (z : Word) : (fone &&& 0x7FFFFFFF#32) ||| (z &&& 0x80000000#32) = if z.getLsbD 31 then 0xBF800000 else 0x3F800000 := by
  have top : z &&& 0x80000000#32 = if z.getLsbD 31 then 0x80000000#32 else 0#32 := by
    rw [show (0x80000000#32) = BitVec.twoPow 32 31 by decide, BitVec.and_twoPow]
  rw [top]
  split <;> decide

/-- The directions of a one-sided lobe are not both above the surface. -/
theorem below_iff : below o i = true ↔ le32 i.z 0 = true ∨ le32 o.z 0 = true := by rw [below, Bool.or_eq_true]

theorem badLength_iff : badLength a = true ↔ isZero32 a = true ∨ isInf32 a = true ∨ isNan32 a = true := by
  rw [badLength, Bool.or_eq_true, Bool.or_eq_true, or_assoc]

theorem frameOf_bad (N T W : V3) (h : badLength (dot3 N N) = true ∨ badLength (dot3 W W) = true) : frameOf N T W = none := by
  unfold frameOf
  dsimp only
  split_ifs with hN hW
  · rfl
  · rfl
  · exact absurd h (by simp [hN, hW])

theorem frameOf_good {N T W n e1 e2 t b : V3} {th : Word} (hN : badLength (dot3 N N) = false) (hW : badLength (dot3 W W) = false)
    (normal : N.scale (rsqrt32 (dot3 N N)) = n) (base : frameBase n = (e1, e2)) (angle : atan2pi (dot3 T e2) (dot3 T e1) = th)
    (basis : frameBasis n th = (t, b)) : frameOf N T W =
      some (n, th, ⟨fmul32 (dot3 W t) (rsqrt32 (dot3 W W)), fmul32 (dot3 W b) (rsqrt32 (dot3 W W)), fmul32 (dot3 W n) (rsqrt32 (dot3 W W))⟩) := by
  unfold frameOf
  dsimp only
  rw [hN, hW, normal, base]
  dsimp only
  rw [angle, basis]
  rfl

end

theorem frameValues : Sys2Proof.Claims.frameValues := by
  intro N T W c dot times bad minus n sg a bb e1 e2 th cs sn t b h clear
  have base : frameBase n = (e1, e2) := by
    have sign := sign_one n.z
    simp only [frameBase, sign]
    rfl
  have basis : frameBasis n th = (t, b) := by
    rw [frameBasis, base]
    rfl
  refine ⟨basis, fun hbad => ?_, fun hN hW => ?_⟩
  · rw [frameOf_bad N T W (hbad.imp badLength_iff.2 badLength_iff.2)]
    rfl
  · rw [frameOf_good (Bool.eq_false_iff.2 (mt badLength_iff.1 hN)) (Bool.eq_false_iff.2 (mt badLength_iff.1 hW)) rfl base rfl basis]
    rfl

section

variable {net : Word → List Word} {k : Lobe} {o i : V3}

theorem mattEval_below (p0 p1 p2 : Word) (h : below o i = true) : mattEval p0 p1 p2 o i = lobeZero := if_pos h
theorem glossEval_below (p0 p1 p2 ax ay : Word) (h : below o i = true) : glossEval p0 p1 p2 ax ay o i = lobeZero := if_pos h
theorem sheenEval_below (p0 p1 p2 rho : Word) (h : below o i = true) : sheenEval p0 p1 p2 rho o i = lobeZero := if_pos h

theorem lobeEval_matt (h : k.type = 0) : lobeEval net k o i = mattEval k.p0 k.p1 k.p2 o i := by
  simp only [lobeEval, h]
theorem lobeEval_gloss (h : k.type = 1) : lobeEval net k o i = glossEval k.p0 k.p1 k.p2 k.p3 k.p4 o i := by
  simp only [lobeEval, h]
theorem lobeEval_clear (h : k.type = 2) : lobeEval net k o i = clearEval k.p0 k.p1 k.p2 k.p3 k.p4 o i := by
  simp only [lobeEval, h]
theorem lobeEval_sheen (h : k.type = 3) : lobeEval net k o i = sheenEval k.p0 k.p1 k.p2 k.p3 o i := by
  simp only [lobeEval, h]

theorem lobeEval_net (h : 4 ≤ k.type) : lobeEval net k o i = if below o i then lobeZero
    else ⟨(netValue (net k.p0) o i k.p4 k.p5).1, (netValue (net k.p0) o i k.p4 k.p5).2.1, (netValue (net k.p0) o i k.p4 k.p5).2.2,
      (netProxy k o i).p⟩ := by
  obtain ⟨m, hm⟩ := Nat.exists_eq_add_of_le' h
  unfold lobeEval
  rw [hm]
  rfl

variable {q0 q1 q' : Word}

theorem lobeSample_matt (h : k.type = 0) : lobeSample k o q0 q1 q' = mattSample o q0 q1 := by
  simp only [lobeSample, h]
theorem lobeSample_gloss (h : k.type = 1) : lobeSample k o q0 q1 q' = glossSample k.p3 k.p4 o q0 q1 := by
  simp only [lobeSample, h]
theorem lobeSample_clear (h : k.type = 2) : lobeSample k o q0 q1 q' = clearSample k.p0 k.p4 o q0 q1 q' := by
  simp only [lobeSample, h]
theorem lobeSample_sheen (h : k.type = 3) : lobeSample k o q0 q1 q' = mattSample o q0 q1 := by
  simp only [lobeSample, h]
theorem lobeSample_net (h : k.type = 4) : lobeSample k o q0 q1 q' = if k.p1 = 0 then mattSample o q0 q1 else glossSample k.p2 k.p3 o q0 q1 := by
  simp only [lobeSample, h]

theorem reflectAbout_eq (o m : V3) : reflectAbout o m =
    let d := fadd32 (dot3 o m) (dot3 o m)
    let w : V3 := ⟨fma32 d m.x (neg32 o.x), fma32 d m.y (neg32 o.y), fma32 d m.z (neg32 o.z)⟩
    if le32 w.z 0 = true ∨ isNan32 w.x = true ∨ isNan32 w.y = true ∨ isNan32 w.z = true then none else some w := by
  unfold reflectAbout V3.hasNan
  dsimp only
  simp only [Bool.or_eq_true, or_assoc]

end

theorem glossLobes : Sys2Proof.Claims.glossLobes := by
  intro net k o i q0 q1 q' hk one dot times unit minus rejects h sx sy e D lam G2 m m5 per f v l t1 t2 a1 c a2 a3 nn n d w fails
  refine ⟨fun rej => ?_, fun rej => ?_, fun bad => ?_, fun good => ?_⟩
  · exact (lobeEval_gloss hk).trans (glossEval_below _ _ _ _ _ (below_iff.2 rej))
  · exact (lobeEval_gloss hk).trans (if_neg (mt below_iff.1 rej))
  · rw [lobeSample_gloss hk]
    rcases bad with down | bad
    · exact if_pos down
    · unfold glossSample
      split_ifs
      · rfl
      · rw [reflectAbout_eq]
        exact if_pos bad
  · obtain ⟨up, good⟩ := not_or.1 good
    rw [lobeSample_gloss hk, glossSample, if_neg up, reflectAbout_eq]
    exact if_neg good

end Sys2Proof.Machine

/-! ### The value and the sample of a CLEAR lobe (R158) -/

namespace Sys2Proof.Machine

section

variable {x : Word}

theorem magnitude_neg32 (x : Word) : magnitude (neg32 x) = magnitude x := by
  have flip : (neg32 x).toNat = x.toNat ^^^ 2 ^ 31 := BitVec.toNat_xor ..
  rw [magnitude, flip, Nat.xor_mod_two_pow, Nat.mod_self, Nat.xor_zero, magnitude]

theorem sign_neg32 (x : Word) : (neg32 x).getLsbD 31 = !x.getLsbD 31 := by
  rw [neg32, BitVec.getLsbD_xor]
  exact Bool.xor_true _

theorem f32_neg32 (x : Word) : f32 (neg32 x) = (f32 x).neg := by
  rw [f32_eq, f32_eq, magnitude_neg32, sign_neg32]
  split_ifs <;> rfl

theorem isZero32_neg32 (x : Word) : isZero32 (neg32 x) = isZero32 x := by
  unfold isZero32
  rw [f32_neg32]
  cases f32 x with
  | nan => rfl
  | inf s => rfl
  | fin s m e => cases s <;> simp [FVal.neg, FVal.isZero, Bool.or_comm]

theorem line_neg (v : FVal) : v.neg.line = -v.line := by
  cases v with
  | nan => simp [FVal.neg, FVal.line]
  | inf s => cases s <;> simp [FVal.neg, FVal.line]
  | fin s m e =>
    show (((FVal.fin s m e).neg.toRat : ℝ) : EReal) = _
    rw [toRat_neg]
    simp [FVal.line]

theorem line_zero : (f32 0).line = 0 := by
  rw [f32_eq]
  simp [magnitude, FVal.line, FVal.toRat]

theorem line_of_isZero32 (h : isZero32 x = true) : (f32 x).line = 0 := by
  unfold isZero32 at h
  cases value : f32 x with
  | nan => simp [value, FVal.isZero] at h
  | inf s => simp [value, FVal.isZero] at h
  | fin s m e =>
    have : m = 0 := by cases s <;> simpa [value, FVal.isZero] using h
    simp [FVal.line, FVal.toRat, this]

theorem isNan32_of_isZero32 (h : isZero32 x = true) : isNan32 x = false := by
  unfold isZero32 at h
  unfold isNan32
  cases value : f32 x with
  | nan => simp [value, FVal.isZero] at h
  | inf s => rfl
  | fin s m e => rfl

theorem isNan32_zero : isNan32 0 = false := by decide

theorem isZero32_of_negative (h : lt32 x 0 = true) : isZero32 x = false := by
  by_contra zero
  obtain ⟨-, -, lt⟩ := lt32_iff.1 h
  rw [line_of_isZero32 (Bool.eq_true_of_not_eq_false zero), line_zero] at lt
  exact lt.false

theorem isZero32_of_positive (h : lt32 0 x = true) : isZero32 x = false := by
  by_contra zero
  obtain ⟨-, -, lt⟩ := lt32_iff.1 h
  rw [line_of_isZero32 (Bool.eq_true_of_not_eq_false zero), line_zero] at lt
  exact lt.false

theorem neg32_not_negative (h : lt32 x 0 = true) : lt32 (neg32 x) 0 = false := by
  by_contra both
  obtain ⟨-, -, lt⟩ := lt32_iff.1 h
  obtain ⟨-, -, lt'⟩ := lt32_iff.1 (Bool.eq_true_of_not_eq_false both)
  rw [f32_neg32, line_neg, line_zero, EReal.neg_lt_zero] at lt'
  rw [line_zero] at lt
  exact lt.asymm lt'

/-- A direction that is above the surface, or whose height is not a number. -/
theorem not_zero_not_negative (h : le32 x 0 = false) : isZero32 x = false ∧ lt32 x 0 = false := by
  constructor
  · by_contra zero
    have zero := Bool.eq_true_of_not_eq_false zero
    have : le32 x 0 = true := le32_iff.2 ⟨isNan32_of_isZero32 zero, isNan32_zero, (line_of_isZero32 zero).trans_le line_zero.ge⟩
    exact Bool.false_ne_true (h.symm.trans this)
  · by_contra down
    obtain ⟨number, -, lt⟩ := lt32_iff.1 (Bool.eq_true_of_not_eq_false down)
    have : le32 x 0 = true := le32_iff.2 ⟨number, isNan32_zero, lt.le⟩
    exact Bool.false_ne_true (h.symm.trans this)

end

section

variable {n t0 t1 t2 al : Word} {o i : V3} {q0 q1 q' : Word}

theorem isZero32_mirror : isZero32 o.mirror.z = isZero32 o.z := isZero32_neg32 o.z

theorem mirror_not_negative (h : lt32 o.z 0 = true) : lt32 o.mirror.z 0 = false := neg32_not_negative h

theorem clearEval_zero (h : isZero32 o.z = true ∨ isZero32 i.z = true) : clearEval n t0 t1 t2 al o i = lobeZero :=
  if_pos (by rwa [Bool.or_eq_true])

theorem clearEval_down (ho : lt32 o.z 0 = true) (hi : isZero32 i.z = false) :
    clearEval n t0 t1 t2 al o i = clearEvalUp (rcp32 n) t0 t1 t2 al o.mirror i.mirror := by
  rw [clearEval, isZero32_of_negative ho, hi, ho]
  rfl

theorem clearEval_up (ho : isZero32 o.z = false) (up : lt32 o.z 0 = false) (hi : isZero32 i.z = false) :
    clearEval n t0 t1 t2 al o i = clearEvalUp n t0 t1 t2 al o i := by
  rw [clearEval, ho, hi, up]
  rfl

theorem clearSample_down (ho : lt32 o.z 0 = true) :
    clearSample n al o q0 q1 q' = (clearSampleUp (rcp32 n) al o.mirror q0 q1 q').map V3.mirror := by
  rw [clearSample, isZero32_of_negative ho, ho]
  rfl

theorem clearSample_up (ho : isZero32 o.z = false) (up : lt32 o.z 0 = false) :
    clearSample n al o q0 q1 q' = clearSampleUp n al o q0 q1 q' := by
  rw [clearSample, ho, up]
  rfl

end

theorem clearLobes : Sys2Proof.Claims.clearLobes := by
  intro net k o i q0 q1 q' hk one dot times unit minus mirror zero down n al D lam G2 sq g2 Fd h F per v part h0 ht co ci mag J through T f
    k' gloss m c kr turn w
  have mirrored : ∀ a, mirror a = a.mirror := fun _ => rfl
  have value := fun a b => lobeEval_clear (net := net) (k := k) (o := a) (i := b) hk
  have value' := fun a b => lobeEval_clear (net := net) (k := k') (o := a) (i := b) hk
  have sample := fun a => lobeSample_clear (k := k) (o := a) (q0 := q0) (q1 := q1) (q' := q') hk
  have sample' := fun a => lobeSample_clear (k := k') (o := a) (q0 := q0) (q1 := q1) (q' := q') hk
  refine ⟨fun hz => ?_, fun ho hi => ?_, fun ho => ?_, fun ho up hi => ?_, fun ho up hi low => ⟨fun miss => ?_, fun hco hci => ?_⟩, fun hz => ?_,
    fun hle hF => ?_, fun hle hF => ⟨fun bad => ?_, fun lt nz => ?_⟩⟩
  · exact (value o i).trans (clearEval_zero hz)
  · rw [value, value', mirrored, mirrored, clearEval_down ho (Bool.eq_false_iff.2 hi)]
    exact (clearEval_up (isZero32_mirror.trans (isZero32_of_negative ho)) (mirror_not_negative ho)
      (isZero32_mirror.trans (Bool.eq_false_iff.2 hi))).symm
  · rw [sample, sample', mirrored, clearSample_down ho, ← clearSample_up (isZero32_mirror.trans (isZero32_of_negative ho)) (mirror_not_negative ho)]
    rfl
  · rw [value, clearEval_up (Bool.eq_false_iff.2 ho) (Bool.eq_false_iff.2 up) (isZero32_of_positive hi)]
    exact if_pos hi
  · rw [value, clearEval_up (Bool.eq_false_iff.2 ho) (Bool.eq_false_iff.2 up) (Bool.eq_false_iff.2 hi)]
    exact (if_neg (Bool.eq_false_iff.1 low)).trans (if_pos (by rwa [Bool.or_eq_true]))
  · rw [value, clearEval_up (Bool.eq_false_iff.2 ho) (Bool.eq_false_iff.2 up) (Bool.eq_false_iff.2 hi)]
    refine (if_neg (Bool.eq_false_iff.1 low)).trans (if_neg ?_)
    rw [Bool.or_eq_true, not_or]
    exact ⟨Bool.eq_false_iff.1 hco, Bool.eq_false_iff.1 hci⟩
  · exact (sample o).trans (if_pos hz)
  · obtain ⟨hz, up⟩ := not_zero_not_negative hle
    rw [sample, clearSample_up hz up, lobeSample_gloss rfl, glossSample, if_neg (Bool.eq_false_iff.1 hle)]
    exact if_pos hF
  · obtain ⟨hz, up⟩ := not_zero_not_negative hle
    rw [sample, clearSample_up hz up]
    exact (if_neg (Bool.eq_false_iff.1 hF)).trans (if_pos (by rwa [Bool.or_eq_true]))
  · obtain ⟨hz, up⟩ := not_zero_not_negative hle
    rw [sample, clearSample_up hz up]
    refine (if_neg (Bool.eq_false_iff.1 hF)).trans (if_neg ?_)
    rw [Bool.or_eq_true, not_or]
    exact ⟨Bool.eq_false_iff.1 lt, nz⟩

end Sys2Proof.Machine

/-! ### The values of SHEEN, NET and MATT lobes, and of mixtures (R156, R159 to R162) -/

namespace Sys2Proof.Machine

section

variable {net : Word → List Word} {k : Lobe} {o i : V3}

/-- A unit of a network is the fold of its inputs in their order. -/
theorem netUnit_eq (w : Nat → Word) : ∀ (bias : Word) (n : Nat) (xs : List Word),
    netUnit w bias n xs = (List.range xs.length).foldl (fun a j => fma32 (w (n + j)) (xs.getD j 0) a) bias
  | _, _, [] => rfl
  | bias, n, x :: xs => by
    rw [netUnit, netUnit_eq w _ (n + 1) xs, List.length_cons, List.range_succ_eq_map, List.foldl_cons, List.foldl_map]
    simp only [Nat.succ_eq_add_one, ← Nat.add_assoc, Nat.add_right_comm]
    rfl

theorem netUnit_row (w : List Word) (start n : Nat) (bias : Word) (xs : List Word) (h : xs.length = n) :
    netUnit (fun k => w.getD (start + k) 0) bias 0 xs
      = (List.range n).foldl (fun a j => fma32 (w.getD (start + j) 0) (xs.getD j 0) a) bias := by
  rw [netUnit_eq, h]
  simp only [Nat.zero_add]

theorem netProxy_below (h : below o i = true) : netProxy k o i = lobeZero := by
  unfold netProxy
  split
  · exact mattEval_below _ _ _ h
  · exact glossEval_below _ _ _ _ _ h

/-- The pdf of a lobe does not depend on the networks, and is that of its value. -/
theorem lobePdf_eq : lobePdf k o i = (lobeEval net k o i).p := by
  unfold lobePdf
  split_ifs with h4
  · rw [lobeEval_net h4.ge]
    split_ifs with hb
    · rw [netProxy_below hb]
    · rfl
  · rcases Nat.lt_or_ge k.type 4 with low | high
    · interval_cases h : k.type
      · rw [lobeEval_matt h, lobeEval_matt h]
      · rw [lobeEval_gloss h, lobeEval_gloss h]
      · rw [lobeEval_clear h, lobeEval_clear h]
      · rw [lobeEval_sheen h, lobeEval_sheen h]
    · rw [lobeEval_net high, lobeEval_net high]
      split_ifs <;> rfl

end

theorem sheenAndNetLobes : Sys2Proof.Claims.sheenAndNetLobes := by
  intro net k o i q0 q1 q' one dot rejects matt gloss proxy hv hz st D V f w row x z1 z2 y
  refine ⟨fun hk => ⟨fun rej => ?_, fun rej => ?_, ?_⟩, fun hk => ?_⟩
  · exact (lobeEval_sheen hk).trans (sheenEval_below _ _ _ _ (below_iff.2 rej))
  · exact (lobeEval_sheen hk).trans (if_neg (mt below_iff.1 rej))
  · rw [lobeSample_sheen hk, lobeSample_matt rfl]
  · have proxied : lobeEval net proxy o i = netProxy k o i := by
      rw [netProxy, apply_ite (fun l => lobeEval net l o i), lobeEval_matt rfl, lobeEval_gloss rfl]
      rfl
    have layer1 : (List.range 32).map (fun j => max32 0 (netUnit (fun k => w (8 * j + k)) (w (256 + j)) 0 x)) = z1 :=
      List.map_congr_left fun j _ => congrArg _ (netUnit_row _ _ _ _ _ rfl)
    have layer2 : (List.range 32).map (fun j => max32 0 (netUnit (fun k => w (288 + 32 * j + k)) (w (1312 + j)) 0 z1)) = z2 :=
      List.map_congr_left fun j _ => congrArg _ (netUnit_row _ _ _ _ _ (by simp [z1]))
    have out : ∀ j, fmul32 (max32 0 (netUnit (fun k => w (1344 + 32 * j + k)) (w (1440 + j)) 0 z2)) i.z = y j := fun j =>
      congrArg (fun u => fmul32 (max32 0 u) i.z) (netUnit_row _ _ _ _ _ (by simp [z2]))
    have value : netValue (net k.p0) o i k.p4 k.p5 = (y 0, y 1, y 2) := by
      rw [← out, ← out, ← out, ← layer2, ← layer1]
      rfl
    refine ⟨fun rej => ?_, fun rej => ?_, ?_, ?_⟩
    · exact (lobeEval_net hk.ge).trans (if_pos (below_iff.2 rej))
    · rw [lobeEval_net hk.ge, if_neg (mt below_iff.1 rej), value, proxied]
    · rw [lobePdf, if_pos hk, proxied]
    · rw [lobeSample_net hk, apply_ite (fun l => lobeSample l o q0 q1 q'), lobeSample_matt rfl, lobeSample_gloss rfl]

/-! A mixture (R161): its direction in the frame, and its sums. -/

section

variable {c : Closure} {w : V3}

theorem mixDir_none (h : (c.fvalid = false ∨ c.lobes = []) ∨ badLength (dot3 w w) = true) : mixDir c w = none := by
  unfold mixDir
  split_ifs with empty
  · rfl
  · exact if_pos (h.resolve_left empty)

theorem mixDir_some (ok : ¬(c.fvalid = false ∨ c.lobes = [])) (h : badLength (dot3 w w) = false) :
    mixDir c w = some ⟨fmul32 (dot3 w (frameBasis c.n c.theta).1) (rsqrt32 (dot3 w w)), fmul32 (dot3 w (frameBasis c.n c.theta).2) (rsqrt32 (dot3 w w)),
      fmul32 (dot3 w c.n) (rsqrt32 (dot3 w w))⟩ := by
  unfold mixDir
  rw [if_neg ok]
  exact if_neg (Bool.eq_false_iff.1 h)

theorem mixFold_eq (f : Lobe → LobeVal) : ∀ (ls : List Lobe) (W : Word) (v : LobeVal),
    mixFold f ls W v = (ls.foldl (fun a k => fadd32 a k.w) W,
      ⟨ls.foldl (fun a k => fma32 k.w (f k).r a) v.r, ls.foldl (fun a k => fma32 k.w (f k).g a) v.g,
        ls.foldl (fun a k => fma32 k.w (f k).b a) v.b, ls.foldl (fun a k => fma32 k.w (f k).p a) v.p⟩)
  | [], _, _ => rfl
  | _ :: ls, _, _ => mixFold_eq f ls _ _

theorem mixAt_eq (f : Lobe → V3 → V3 → LobeVal) (c : Closure) (i : V3) : mixAt f c i =
    if isZero32 (sumWeights c.lobes) then lobeZero else
      ⟨fmul32 (c.lobes.foldl (fun a k => fma32 k.w (f k c.o i).r a) 0) (rcp32 (sumWeights c.lobes)),
        fmul32 (c.lobes.foldl (fun a k => fma32 k.w (f k c.o i).g a) 0) (rcp32 (sumWeights c.lobes)),
        fmul32 (c.lobes.foldl (fun a k => fma32 k.w (f k c.o i).b a) 0) (rcp32 (sumWeights c.lobes)),
        fmul32 (c.lobes.foldl (fun a k => fma32 k.w (f k c.o i).p a) 0) (rcp32 (sumWeights c.lobes))⟩ := by
  unfold mixAt
  rw [mixFold_eq]
  rfl

/-- The pdf of a mixture does not depend on the values of its lobes. -/
theorem mixPdf_eq (net : Word → List Word) : mixPdf c w = (mixEval net c w).p := by
  unfold mixPdf mixEval
  cases mixDir c w with
  | none => rfl
  | some i =>
    show (mixAt _ c i).p = (mixAt _ c i).p
    simp only [mixAt_eq, lobePdf_eq (net := net)]
    split_ifs <;> rfl

/-! The draw of a lobe (R162). -/

theorem length_thresholds (q : Word) : ∀ (ls : List Lobe) (S : Word), (thresholds q ls S).length = ls.length
  | [], _ => rfl
  | _ :: ls, _ => congrArg (· + 1) (length_thresholds q ls _)

theorem thresholds_getElem? (q : Word) : ∀ (ls : List Lobe) (S : Word) {j : Nat}, j < ls.length →
    (thresholds q ls S)[j]? = some (fmul32 ((ls.take (j + 1)).foldl (fun a k => fadd32 a k.w) S) q)
  | _ :: _, _, 0, _ => rfl
  | _ :: ls, _, _ + 1, h => thresholds_getElem? q ls _ (Nat.lt_of_succ_lt_succ h)

theorem find?_indexed {α : Type} (p : α → Bool) : ∀ (n : Nat) (l : List α),
    ((indexed n l).find? fun q => p q.2).map Prod.fst = (l.findIdx? p).map (n + ·)
  | _, [] => rfl
  | n, a :: l => by
    rw [indexed, List.find?_cons, List.findIdx?_cons]
    cases p a
    · rw [find?_indexed p (n + 1) l]
      simp [Function.comp_def, Nat.add_comm, Nat.add_left_comm]
    · rfl

theorem pickLobe_eq (cs : List Word) (x : Word) : pickLobe cs x = (cs.findIdx? (lt32 x)).getD (cs.length - 1) := by
  have found := find?_indexed (lt32 x) 0 cs
  simp only [Nat.zero_add, Option.map_id'] at found
  rw [← found, pickLobe]
  cases (indexed 0 cs).find? fun q => lt32 x q.2 <;> rfl

/-- The lobe drawn is the first whose threshold exceeds the draw, or the last lobe. -/
theorem pickLobe_first {cs : List Word} (x : Word) (h : cs ≠ []) : pickLobe cs x < cs.length
    ∧ (∀ j y, j < pickLobe cs x → cs[j]? = some y → lt32 x y = false)
    ∧ ((∃ y, cs[pickLobe cs x]? = some y ∧ lt32 x y = true) ∨ pickLobe cs x + 1 = cs.length) := by
  have pos := List.length_pos_iff.2 h
  rw [pickLobe_eq]
  cases found : cs.findIdx? (lt32 x) with
  | none =>
    rw [List.findIdx?_eq_none_iff] at found
    refine ⟨by simpa, fun j y _ hy => found y (List.mem_of_getElem? hy), .inr ?_⟩
    show cs.length - 1 + 1 = cs.length
    omega
  | some k =>
    obtain ⟨lt, exceeds, first⟩ := List.findIdx?_eq_some_iff_getElem.1 found
    refine ⟨lt, fun j y hj hy => ?_, .inl ⟨cs[k], List.getElem?_eq_getElem lt, exceeds⟩⟩
    obtain ⟨hlt, rfl⟩ := List.getElem?_eq_some_iff.1 hy
    exact Bool.eq_false_iff.2 (first j hj)

theorem sampDraw_nothing {q0 q1 qs : Word} (h : (c.fvalid = false ∨ c.lobes = []) ∨ isZero32 (sumWeights c.lobes) = true) :
    sampDraw c q0 q1 qs = .nothing := if_pos (or_assoc.1 h)

/-- A draw from a mixture takes the lobe of its thresholds, and gives a direction or fails. -/
theorem sampDraw_some {q0 q1 qs : Word} (ok : ¬(c.fvalid = false ∨ c.lobes = [])) (nz : isZero32 (sumWeights c.lobes) = false) :
    (∃ d, sampDraw c q0 q1 qs = .dir (pickLobe (thresholds (rcp32 (sumWeights c.lobes)) c.lobes 0) (clampu qs)) d)
      ∨ sampDraw c q0 q1 qs = .failed (pickLobe (thresholds (rcp32 (sumWeights c.lobes)) c.lobes 0) (clampu qs)) := by
  have go : ¬(c.fvalid = false ∨ c.lobes = [] ∨ isZero32 (sumWeights c.lobes) = true) := by
    rw [← or_assoc, not_or]
    exact ⟨ok, Bool.eq_false_iff.1 nz⟩
  unfold sampDraw
  dsimp only
  rw [if_neg go]
  split
  · exact .inr rfl
  · exact .inl ⟨_, rfl⟩

end

theorem mixtureValues : Sys2Proof.Claims.mixtureValues := by
  intro net c w i q0 q1 qs dot zero basis l empty at_ f total sum q clamped edge picks
  refine ⟨fun h => ?_, fun ok len => ?_, mixPdf_eq net, fun h => ?_, fun ok nz => ?_, fun k hk => ?_⟩
  · rw [mixEval, mixDir_none (h.imp_right badLength_iff.2)]
    rfl
  · rw [mixEval, mixDir_some ok (Bool.eq_false_iff.2 (mt badLength_iff.1 len))]
    exact mixAt_eq _ _ _
  · rw [sampDraw_nothing h]
    rfl
  · refine ⟨pickLobe (thresholds q c.lobes 0) (clamped qs), ?_, ?_⟩
    · have some : thresholds q c.lobes 0 ≠ [] := by
        rw [ne_eq, ← List.length_eq_zero_iff, length_thresholds, List.length_eq_zero_iff]
        exact (not_or.1 ok).2
      obtain ⟨lt, first, last⟩ := pickLobe_first (clamped qs) some
      rw [length_thresholds] at lt last
      refine ⟨lt, fun j hj => first j _ hj (thresholds_getElem? q _ _ (hj.trans lt)), last.imp_left fun ⟨y, hy, exceeds⟩ => ?_⟩
      rw [thresholds_getElem? q _ _ lt, Option.some_inj] at hy
      rwa [← hy] at exceeds
    · rcases sampDraw_some (q0 := q0) (q1 := q1) (qs := qs) ok nz with ⟨d, drawn⟩ | failed
      · exact .inl ⟨d, drawn, rfl⟩
      · exact .inr ⟨failed, rfl⟩
  · refine ⟨fun rej => ?_, fun hi ho => ?_, fun ho => ?_, fun ho => ?_⟩
    · exact (lobeEval_matt hk).trans (mattEval_below _ _ _ (below_iff.2 rej))
    · exact (lobeEval_matt hk).trans (if_neg (mt below_iff.1 (not_or.2 ⟨Bool.eq_false_iff.1 hi, Bool.eq_false_iff.1 ho⟩)))
    · exact (lobeSample_matt hk).trans (if_pos ho)
    · exact (lobeSample_matt hk).trans (if_neg (Bool.eq_false_iff.1 ho))

end Sys2Proof.Machine

/-! ### The image of a closure (R146, R147, R164) -/

namespace Sys2Proof.Machine

section

variable {c : Closure} {l : Lobe}

/-- The words of a lobe's record. -/
def recordWords (l : Lobe) : List Nat := [l.depth * 16 + l.type, l.w.toNat, l.p0.toNat, l.p1.toNat, l.p2.toNat, l.p3.toNat, l.p4.toNat, l.p5.toNat]

/-- The header word of a closure. -/
def headerWord (c : Closure) : Nat := (if c.fvalid then 2 ^ 13 else 0) + c.depth * 2 ^ 10 + c.ncount * 2 ^ 5 + c.lobes.length

/-- The words of a closure's frame. -/
def frameWords (c : Closure) : List Nat := [c.nx.toNat, c.ny.toNat, c.nz.toNat, c.theta.toNat, c.ox.toNat, c.oy.toNat, c.oz.toNat, headerWord c]

/-- The sixteen records of an image: those of the lobes, and zeros. -/
def imageRecords (c : Closure) : List (List Nat) := c.lobes.map recordWords ++ List.replicate (16 - c.lobes.length) (List.replicate 8 0)

theorem length_recordWords (l : Lobe) : (recordWords l).length = 8 := rfl

theorem length_frameWords (c : Closure) : (frameWords c).length = 8 := rfl

theorem eight_of_mem_imageRecords {r : List Nat} (h : r ∈ imageRecords c) : r.length = 8 := by
  rcases List.mem_append.1 h with lobe | pad
  · obtain ⟨l, -, rfl⟩ := List.mem_map.1 lobe
    exact length_recordWords l
  · rw [List.eq_of_mem_replicate pad, List.length_replicate]

theorem lobeBytes_eq (l : Lobe) : lobeBytes l = (recordWords l).flatMap (toBytes 4) := rfl

theorem frameBytes_eq (c : Closure) : frameBytes c = (frameWords c).flatMap (toBytes 4) := rfl

theorem zeroBytes_eq (n : Nat) : List.replicate (32 * n) (0 : Byte) = (List.replicate n (List.replicate 8 0)).flatten.flatMap (toBytes 4) := by
  induction n with
  | zero => rfl
  | succ n ih =>
    rw [List.replicate_succ, List.flatten_cons, List.flatMap_append, ← ih, Nat.mul_succ, Nat.add_comm, List.replicate_add]
    rfl

theorem closureImage_eq (c : Closure) : closureImage c = (frameWords c ++ (imageRecords c).flatten).flatMap (toBytes 4) := by
  have lobes : c.lobes.flatMap lobeBytes = (c.lobes.map recordWords).flatten.flatMap (toBytes 4) := by
    rw [← List.flatMap_def, List.flatMap_assoc]
    rfl
  rw [closureImage, zeroBytes_eq, frameBytes_eq, lobes, imageRecords, List.flatten_append, List.flatMap_append, List.flatMap_append,
    List.append_assoc]

theorem length_flatMap_toBytes (n : Nat) (ws : List Nat) : (ws.flatMap (toBytes n)).length = ws.length * n := by
  simp [List.length_flatMap, length_toBytes]

theorem length_flatten_of_eight : ∀ {rs : List (List Nat)}, (∀ r ∈ rs, r.length = 8) → rs.flatten.length = 8 * rs.length
  | [], _ => rfl
  | r :: rs, h => by
    obtain ⟨first, rest⟩ := List.forall_mem_cons.1 h
    rw [List.flatten_cons, List.length_append, first, length_flatten_of_eight rest, List.length_cons]
    omega

theorem length_imageRecords (h : c.lobes.length ≤ 16) : (imageRecords c).length = 16 := by
  simp [imageRecords, h]

theorem length_closureImage (h : c.lobes.length ≤ 16) : (closureImage c).length = 544 := by
  rw [closureImage_eq, length_flatMap_toBytes, List.length_append, length_frameWords, length_flatten_of_eight fun _ => eight_of_mem_imageRecords,
    length_imageRecords h]

/-- A word of bytes that were written word by word. -/
theorem imgWord_flatMap : ∀ (ws : List Nat) (k : Nat), imgWord (ws.flatMap (toBytes 4)) (4 * k) = BitVec.ofNat 32 (ws.getD k 0)
  | [], k => by simp [imgWord, wordOf, ofBytes]
  | n :: ws, 0 => by
    show wordOf ((toBytes 4 n ++ ws.flatMap (toBytes 4)).take 4) = BitVec.ofNat 32 n
    rw [List.take_left' (length_toBytes 4 n), wordOf, ofBytes_toBytes]
    exact BitVec.eq_of_toNat_eq (by simp)
  | n :: ws, k + 1 => by
    have rest := imgWord_flatMap ws k
    unfold imgWord at rest ⊢
    rw [List.flatMap_cons, Nat.mul_succ, Nat.add_comm, ← List.drop_drop, List.drop_left' (length_toBytes 4 n), rest]
    rfl

theorem getD_flatten_of_eight {m : Nat} (hm : m < 8) : ∀ {rs : List (List Nat)} (j : Nat), (∀ r ∈ rs, r.length = 8) →
    rs.flatten.getD (8 * j + m) 0 = (rs.getD j []).getD m 0
  | [], _, _ => by simp
  | r :: rs, 0, h => by
    rw [List.flatten_cons, List.getD_append _ _ _ _ (by rw [h r List.mem_cons_self]; omega)]
    simp
  | r :: rs, j + 1, h => by
    obtain ⟨first, rest⟩ := List.forall_mem_cons.1 h
    rw [List.flatten_cons, List.getD_append_right _ _ _ _ (by rw [first]; omega), first, show 8 * (j + 1) + m - 8 = 8 * j + m by omega,
      getD_flatten_of_eight hm j rest]
    rfl

/-- The words of the frame of an image. -/
theorem imgWord_frame {k : Nat} (hk : k < 8) : imgWord (closureImage c) (4 * k) = BitVec.ofNat 32 ((frameWords c).getD k 0) := by
  rw [closureImage_eq, imgWord_flatMap, List.getD_append _ _ _ _ hk]

/-- The words of a record of an image. -/
theorem imgWord_record {m : Nat} (j : Nat) (hm : m < 8) :
    imgWord (closureImage c) (32 + 32 * j + 4 * m) = BitVec.ofNat 32 (((imageRecords c).getD j []).getD m 0) := by
  rw [closureImage_eq, show 32 + 32 * j + 4 * m = 4 * (8 + (8 * j + m)) by ring, imgWord_flatMap,
    List.getD_append_right _ _ _ _ (by rw [length_frameWords]; omega), length_frameWords, Nat.add_sub_cancel_left,
    getD_flatten_of_eight hm j fun _ => eight_of_mem_imageRecords]

theorem imageRecords_lobe {j : Nat} (h : c.lobes[j]? = some l) : (imageRecords c).getD j [] = recordWords l := by
  obtain ⟨lt, rfl⟩ := List.getElem?_eq_some_iff.1 h
  rw [imageRecords, List.getD_append _ _ _ _ (by rwa [List.length_map])]
  simp [lt]

theorem imageRecords_zero {j : Nat} (h : c.lobes.length ≤ j) (hj : j < 16) : (imageRecords c).getD j [] = List.replicate 8 0 := by
  rw [imageRecords, List.getD_append_right _ _ _ _ (by rwa [List.length_map]), List.length_map]
  exact List.getD_replicate _ (by omega)

/-- A closure that a word may hold: its limits are those of R153, and each of its lobes passes the checks of R164. -/
def Closure.Legal (c : Closure) : Prop := c.lobes.length ≤ 16 ∧ c.ncount ≤ 24 ∧ c.depth ≤ 4
  ∧ ∀ l ∈ c.lobes, l.type ≤ 4 ∧ l.depth ≤ 4 ∧ badWeight l.w = false ∧ badParams l = false

theorem bitsOf_ofNat {n hi lo : Nat} (h : n < 2 ^ 32) : bitsOf (BitVec.ofNat 32 n) hi lo = n / 2 ^ lo % 2 ^ (hi + 1 - lo) := by
  rw [bitsOf, BitVec.toNat_ofNat, Nat.mod_eq_of_lt h]

/-- The lobe whose words stand in a record. -/
theorem imgLobe_of_record {bs : List Byte} {j : Nat} (ht : l.type < 16) (hd : l.depth < 8)
    (h : ∀ m < 8, imgWord bs (32 + 32 * j + 4 * m) = BitVec.ofNat 32 ((recordWords l).getD m 0)) : imgLobe bs j = l := by
  have head : imgWord bs (32 + 32 * j + 4 * 0) = BitVec.ofNat 32 (l.depth * 16 + l.type) := h 0 (by decide)
  have word : ∀ m (w : Word), m < 8 → (recordWords l).getD m 0 = w.toNat → imgWord bs (32 + 32 * j + 4 * m) = w := fun m w hm eq => by
    rw [h m hm, eq, BitVec.ofNat_toNat, BitVec.setWidth_eq]
  have type : bitsOf (BitVec.ofNat 32 (l.depth * 16 + l.type)) 3 0 = l.type := by rw [bitsOf_ofNat] <;> omega
  have depth : bitsOf (BitVec.ofNat 32 (l.depth * 16 + l.type)) 6 4 = l.depth := by rw [bitsOf_ofNat] <;> omega
  unfold imgLobe
  dsimp only
  rw [head, type, depth, word 1 l.w (by decide) rfl, word 2 l.p0 (by decide) rfl, word 3 l.p1 (by decide) rfl, word 4 l.p2 (by decide) rfl,
    word 5 l.p3 (by decide) rfl, word 6 l.p4 (by decide) rfl, word 7 l.p5 (by decide) rfl]
  rfl

/-- A record that holds a lobe passes the checks of R164 where the lobe does. -/
theorem badRecord_of_lobe {bs : List Byte} {j : Nat} (ht : l.type ≤ 4) (hd : l.depth ≤ 4) (hw : badWeight l.w = false) (hp : badParams l = false)
    (h : ∀ m < 8, imgWord bs (32 + 32 * j + 4 * m) = BitVec.ofNat 32 ((recordWords l).getD m 0)) : badRecord bs j = false := by
  have head : imgWord bs (32 + 32 * j) = BitVec.ofNat 32 (l.depth * 16 + l.type) := h 0 (by decide)
  have clear : bitsOf (BitVec.ofNat 32 (l.depth * 16 + l.type)) 31 7 = 0 := by rw [bitsOf_ofNat] <;> omega
  unfold badRecord
  dsimp only
  rw [imgLobe_of_record (by omega) (by omega) h, head, clear, hw, hp]
  simp [ht, hd]

/-- The lobe of a record of zeros. -/
def zeroLobe : Lobe := lobeOf 0 0 0 []

theorem recordWords_zeroLobe : recordWords zeroLobe = List.replicate 8 0 := rfl

theorem badWeight_zeroLobe : badWeight zeroLobe.w = false := by decide

theorem badParams_zeroLobe : badParams zeroLobe = false := by decide

/-- No record of a legal closure's image fails the checks of R164. -/
theorem badRecord_closureImage (h : c.Legal) {j : Nat} (hj : j < 16) : badRecord (closureImage c) j = false := by
  obtain ⟨-, -, -, lobes⟩ := h
  rcases Nat.lt_or_ge j c.lobes.length with lt | ge
  · obtain ⟨ht, hd, hw, hp⟩ := lobes c.lobes[j] (List.getElem_mem lt)
    refine badRecord_of_lobe ht hd hw hp fun m hm => ?_
    rw [imgWord_record j hm, imageRecords_lobe (List.getElem?_eq_getElem lt)]
  · refine badRecord_of_lobe (l := zeroLobe) (by decide) (by decide) badWeight_zeroLobe badParams_zeroLobe fun m hm => ?_
    rw [imgWord_record j hm, imageRecords_zero ge hj, recordWords_zeroLobe]

theorem imgLobe_closureImage (h : c.Legal) {j : Nat} (lt : j < c.lobes.length) : imgLobe (closureImage c) j = c.lobes[j] := by
  obtain ⟨-, -, -, lobes⟩ := h
  obtain ⟨ht, hd, -⟩ := lobes c.lobes[j] (List.getElem_mem lt)
  refine imgLobe_of_record (by omega) (by omega) fun m hm => ?_
  rw [imgWord_record j hm, imageRecords_lobe (List.getElem?_eq_getElem lt)]

/-- The fields of a header word. -/
theorem headerWord_fields (hl : c.lobes.length ≤ 16) (hn : c.ncount ≤ 24) (hd : c.depth ≤ 4) :
    let h := BitVec.ofNat 32 (headerWord c)
    h.toNat = headerWord c ∧ bitsOf h 31 14 = 0 ∧ bitsOf h 4 0 = c.lobes.length ∧ bitsOf h 9 5 = c.ncount ∧ bitsOf h 12 10 = c.depth
      ∧ h.getLsbD 13 = c.fvalid := by
  intro h
  have small : headerWord c < 2 ^ 14 := by unfold headerWord; split <;> omega
  have wide : headerWord c < 2 ^ 32 := by omega
  have value : h.toNat = headerWord c := by rw [BitVec.toNat_ofNat, Nat.mod_eq_of_lt wide]
  refine ⟨value, ?_, ?_, ?_, ?_, ?_⟩
  · rw [bitsOf, value]
    omega
  · rw [bitsOf, value, headerWord]
    split <;> omega
  · rw [bitsOf, value, headerWord]
    split <;> omega
  · rw [bitsOf, value, headerWord]
    split <;> omega
  · rw [BitVec.getLsbD, value, Nat.testBit_eq_decide_div_mod_eq, headerWord]
    cases c.fvalid <;> simp <;> omega

/-- A legal closure's image is that closure. -/
theorem closureOfImage_closureImage (h : c.Legal) : closureOfImage (closureImage c) = c := by
  obtain ⟨hl, hn, hd, lobes⟩ := h
  obtain ⟨-, clear, count, nodes, depth, valid⟩ := headerWord_fields hl hn hd
  have word : ∀ k (w : Word), k < 8 → (frameWords c).getD k 0 = w.toNat → imgWord (closureImage c) (4 * k) = w := fun k w hk eq => by
    rw [imgWord_frame hk, eq, BitVec.ofNat_toNat, BitVec.setWidth_eq]
  have head : imgWord (closureImage c) 28 = BitVec.ofNat 32 (headerWord c) := imgWord_frame (k := 7) (by decide)
  have good : (List.range 16).any (badRecord (closureImage c)) = false :=
    List.any_eq_false.2 fun j hj => Bool.eq_false_iff.1 (badRecord_closureImage ⟨hl, hn, hd, lobes⟩ (List.mem_range.1 hj))
  have records : (List.range c.lobes.length).map (imgLobe (closureImage c)) = c.lobes := by
    refine List.ext_getElem (by simp) fun j _ lt => ?_
    rw [List.getElem_map, List.getElem_range, imgLobe_closureImage ⟨hl, hn, hd, lobes⟩ lt]
  unfold closureOfImage
  dsimp only
  rw [head, clear, count, nodes, depth, valid, good, records]
  refine (if_neg (by simp; omega)).trans ?_
  rw [word 0 c.nx (by decide) rfl, word 1 c.ny (by decide) rfl,
    word 2 c.nz (by decide) rfl, word 3 c.theta (by decide) rfl, word 4 c.ox (by decide) rfl, word 5 c.oy (by decide) rfl,
    word 6 c.oz (by decide) rfl]

/-- An image whose header or one of whose records fails a check of R164. -/
theorem closureOfImage_bad {bs : List Byte} (h : bitsOf (imgWord bs 28) 31 14 ≠ 0 ∨ 16 < bitsOf (imgWord bs 28) 4 0
    ∨ 24 < bitsOf (imgWord bs 28) 9 5 ∨ 4 < bitsOf (imgWord bs 28) 12 10 ∨ (List.range 16).any (badRecord bs) = true) : closureOfImage bs = {} :=
  if_pos h

end

theorem imagesReadBack : Sys2Proof.Claims.imagesReadBack := by
  intro c bs j at_ w legal
  refine ⟨fun h => ?_, fun hj bad => ?_, fun bad => ?_⟩
  · obtain ⟨hl, hn, hd, lobes⟩ := h
    have word : ∀ (n : Nat) (w : Word), n = w.toNat → BitVec.ofNat 32 n = w := fun n w eq => by
      rw [eq, BitVec.ofNat_toNat, BitVec.setWidth_eq]
    have record : ∀ k l, c.lobes[k]? = some l → ∀ m < 8, at_ (32 + 32 * k + 4 * m) = BitVec.ofNat 32 ((recordWords l).getD m 0) :=
      fun k l hk m hm => by rw [← imageRecords_lobe hk]; exact imgWord_record k hm
    refine ⟨length_closureImage hl, closureOfImage_closureImage ⟨hl, hn, hd, lobes⟩, ?_, ?_, ?_, ?_, fun k l hk => ⟨?_, ?_, ?_⟩, fun k ge lt => ?_⟩
    · exact (imgWord_frame (k := 0) (by decide)).trans (word _ c.nx rfl)
    · exact (imgWord_frame (k := 3) (by decide)).trans (word _ c.theta rfl)
    · exact (imgWord_frame (k := 6) (by decide)).trans (word _ c.oz rfl)
    · obtain ⟨value, -⟩ := headerWord_fields hl hn hd
      have head : at_ 28 = BitVec.ofNat 32 (headerWord c) := imgWord_frame (k := 7) (by decide)
      rw [head, value, headerWord]
      ring
    · obtain ⟨ht, hd, -⟩ := lobes l (List.mem_of_getElem? hk)
      have head : at_ (32 + 32 * k) = BitVec.ofNat 32 (l.depth * 16 + l.type) := record k l hk 0 (by decide)
      rw [head, BitVec.toNat_ofNat]
      omega
    · rw [show 36 + 32 * k = 32 + 32 * k + 4 * 1 by ring, record k l hk 1 (by decide)]
      exact word _ l.w rfl
    · rw [show 40 + 32 * k = 32 + 32 * k + 4 * 2 by ring, record k l hk 2 (by decide)]
      exact word _ l.p0 rfl
    · have head : at_ (32 + 32 * k) = BitVec.ofNat 32 (((imageRecords c).getD k []).getD 0 0) := imgWord_record (m := 0) k (by decide)
      rw [head, imageRecords_zero ge lt]
      rfl
  · refine closureOfImage_bad (.inr (.inr (.inr (.inr (List.any_eq_true.2 ⟨j, List.mem_range.2 hj, ?_⟩)))))
    have head : imgWord bs (32 + 32 * j) = w 0 := rfl
    have weight : (imgLobe bs j).w = w 1 := rfl
    have type : (imgLobe bs j).type = bitsOf (w 0) 3 0 := rfl
    have depth : (imgLobe bs j).depth = bitsOf (w 0) 6 4 := rfl
    unfold badRecord badWeight
    dsimp only
    rw [head, weight, type, depth]
    rcases bad with high | type | depth | nan | inf
    · simp [high]
    · simp [type]
    · simp [depth]
    · simp [nan]
    · simp [inf]
  · exact closureOfImage_bad (bad.imp_right (Or.imp_right (Or.imp_right Or.inl)))

end Sys2Proof.Machine

/-! ### What loads, stores and spills leave (R148, R217, R220) -/

namespace Sys2Proof.Machine

section

variable {D : Nat → Prop} {s t u : State} {g : Group} {pl : Place} {scope evc lane a n : Nat} {bs : List Byte}

theorem placeLoad_ops (h : Within D s) : Kept opsFrame D s (placeLoad g pl scope evc lane a n s).2 := by
  cases pl with
  | mem => exact loadBytes_ops _ _ _ _ _ _ _ h
  | scratch => exact (drainOwn_kept _ _ _ h).ofStores.then (taskRead_ops _ _ _ _)
  | window => exact (loadHome_kept _ _ _ _ n h).ofStores.then (taskRead_ops _ _ _ _)

theorem performAt_accessed (lane : Nat) (pl : Place) (line : Nat) (h : Within D s) : Accessed D s (performAt s.grp.uid lane pl line s) :=
  performLoads_accessed _ h

theorem loadAt_accessed (h : Within D s) : Accessed D s (laneLoad pl scope evc lane a n s).2 :=
  (performAt_accessed lane pl (lineOf a) h).trans (.ofOps (placeLoad_ops (performAt_accessed lane pl (lineOf a) h).flight))

theorem taskWrite_ops (uid lane key : Nat) (bs : List Byte) (h : Within D s) : Kept opsFrame D s (taskWrite uid lane key bs s) :=
  ⟨rfl, ⟨h.stores, h.dirty, h.loads⟩, fun _ hp => hp, fun _ _ => rfl⟩

/-- A store that becomes pending, or is performed at once. -/
theorem issueStore_accessed {core : Nat} {p : PStore} {det : Bool} (hp : p.inside D) (h : Within D s) : Accessed D s (issueStore core p det s) := by
  unfold issueStore
  split
  · exact .ofOps ((drainCore_kept _ _ h).then (performPending_kept hp)).ofStores
  · refine ⟨⟨fun q hq => ?_, h.dirty, h.loads⟩, fun _ _ => rfl, .refl _⟩
    rcases List.mem_append.1 hq with old | new
    · exact h.stores q old
    · exact List.mem_singleton.1 new ▸ hp

theorem storeBytes_accessed {uid core : Nat} {det : Bool} {peer : Option Nat} (hD : a < taskScratch → ∀ i < bs.length, D (a + i)) (h : Within D s) :
    Accessed D s (storeBytes uid lane core scope evc a bs det peer s) := by
  unfold storeBytes
  split
  · exact .ofOps (taskWrite_ops _ _ _ _ h)
  · exact issueStore_accessed hD h

/-- A store to a place changes the homes of its own bytes; one to the scratchpad changes none. -/
theorem laneStore_accessed (hD : pl ≠ .scratch → ∀ i < bs.length, D (a + i)) (h : Within D s) : Accessed D s (laneStore pl scope evc lane a bs s) := by
  refine (performAt_accessed lane pl (lineOf a) h).trans ?_
  have after := (performAt_accessed lane pl (lineOf a) h).flight
  cases pl with
  | mem => exact storeBytes_accessed (fun _ => hD (by decide)) after
  | window => exact storeBytes_accessed (fun _ => hD (by decide)) after
  | scratch => exact storeBytes_accessed (fun low => absurd low (by simp [taskKey])) after

/-- Changes one after another. -/
theorem Accessed.foldl {α : Type} {f : State → α → State} : ∀ {l : List α} {s : State}, (∀ s, ∀ a ∈ l, Within D s → Accessed D s (f s a)) →
    Within D s → Accessed D s (l.foldl f s)
  | [], _, _, h => .refl h
  | a :: l, s, hf, h => by
    have first := hf s a List.mem_cons_self h
    exact first.trans (.foldl (fun s b hb => hf s b (List.mem_cons_of_mem _ hb)) first.flight)

/-! Bytes that may cross lines. -/

theorem splitLines_nil (fuel a : Nat) : splitLines fuel a [] = [] := by cases fuel <;> rfl

theorem splitLines_succ (fuel a : Nat) (h : bs ≠ []) :
    splitLines (fuel + 1) a bs = (a, bs.take (128 - a % 128)) :: splitLines fuel (a + (128 - a % 128)) (bs.drop (128 - a % 128)) :=
  if_neg (by simpa using h)

/-- The pieces of a run of bytes lie within it. -/
theorem mem_splitLines : ∀ {fuel a : Nat} {bs : List Byte} {q : Nat × List Byte}, q ∈ splitLines fuel a bs → a ≤ q.1 ∧ q.1 + q.2.length ≤ a + bs.length
  | 0, _, _, _, h => absurd h List.not_mem_nil
  | fuel + 1, a, bs, q, h => by
    by_cases none : bs = []
    · rw [none, splitLines_nil] at h
      exact absurd h List.not_mem_nil
    · rw [splitLines_succ fuel a none] at h
      rcases List.mem_cons.1 h with rfl | rest
      · exact ⟨le_rfl, Nat.add_le_add_left (List.length_take_le' ..) a⟩
      · rcases Nat.lt_or_ge bs.length (128 - a % 128) with short | long
        · rw [List.drop_of_length_le short.le, splitLines_nil] at rest
          exact absurd rest List.not_mem_nil
        · have inside := mem_splitLines rest
          rw [List.length_drop] at inside
          omega

/-- The bytes of a thread's window, stored line by line at the home at once (R148). -/
def storeAcross (uid lane core a : Nat) (bs : List Byte) (s : State) : State :=
  (splitLines (bs.length + 1) a bs).foldl (fun t q => storeHome uid lane core q.1 q.2 t) s

theorem storeAcross_kept {uid core : Nat} (hD : ∀ i < bs.length, D (a + i)) (h : Within D s) : Kept storeFrame D s (storeAcross uid lane core a bs s) :=
  Kept.foldl (fun t q hq ht => storeHome_kept (fun i hi => by
    obtain ⟨low, high⟩ := mem_splitLines hq
    have inside := hD (q.1 + i - a) (by omega)
    rwa [show a + (q.1 + i - a) = q.1 + i by omega] at inside) ht) h

/-- Where a closure's records 4 to 15 go in a lane's window (R148). -/
def spillPlace (s : State) (g : Nat) (run : List (Access × Nat)) (l : Nat) : Option Nat :=
  (run.find? fun p => decide (p.1.lane = l) && decide (p.1.va = spillBase s g l)).map fun p => p.2

/-- The bytes of records 4 to 15. -/
def spilled (c : Closure) : List Byte := (c.lobes.drop 4).flatMap lobeBytes

/-- One lane's spill. -/
def spillLane (s : State) (g : Nat) (f : Nat → Closure) (run : List (Access × Nat)) (t : State) (l : Nat) : State :=
  match spillPlace s g run l with
  | some p => storeAcross s.grp.uid l s.grp.core p (spilled (f l)) t
  | none => t

theorem spillStores_eq (g : Nat) (f : Nat → Closure) (run : List (Access × Nat)) (ls : List Nat) (s : State) :
    spillStores g f run ls s = ls.foldl (spillLane s g f run) s := by
  unfold spillStores
  refine congrArg (fun k => List.foldl k s ls) (funext fun t => funext fun l => ?_)
  dsimp only
  unfold spillLane spillPlace
  split
  · rename_i found
    rw [found]
    rfl
  · rename_i found
    rw [found]
    rfl

/-- Spills change the homes of their own bytes. -/
theorem spillStores_kept {f : Nat → Closure} {run : List (Access × Nat)} {ls : List Nat} {r : Nat}
    (hD : ∀ l ∈ ls, ∀ p, spillPlace s r run l = some p → ∀ i < (spilled (f l)).length, D (p + i)) (h : Within D s) :
    Kept storeFrame D s (spillStores r f run ls s) := by
  rw [spillStores_eq]
  refine Kept.foldl (fun t l hl ht => ?_) h
  unfold spillLane
  split
  · exact storeAcross_kept (hD l hl _ ‹_›) ht
  · exact .refl ht

theorem length_lobeBytes (l : Lobe) : (lobeBytes l).length = 32 := by
  rw [lobeBytes_eq, length_flatMap_toBytes, length_recordWords]

theorem length_spilled (c : Closure) : (spilled c).length = 32 * (c.lobes.length - 4) := by
  simp [spilled, List.length_flatMap, length_lobeBytes, Nat.mul_comm]

end

end Sys2Proof.Machine

/-! ### A spill where nothing is pending (R148) -/

namespace Sys2Proof.Machine

/-- Nothing is pending, no cache holds a line, and every home can be reached. -/
structure Still (s : State) : Prop where
  stores : s.stores = []
  caches : s.caches = []
  here : ∀ a, peerGone s a = false

section

variable {s t : State} {uid lane core a c : Nat} {bs : List Byte}

theorem performStore_caches (who : Option (Nat × Nat)) (core a : Nat) (bs : List Byte) (h : s.caches = []) : (performStore who core a bs s).caches = [] := by
  obtain ⟨-, noted, -⟩ := noteOld_beside a bs s
  have written : (setHomeBytes a bs (noteOld a bs s)).caches = [] := by rw [setHomeBytes_caches, noted, h]
  have raised : ∀ n (u : State), (raiseGwct who n u).caches = u.caches := fun n u => by
    unfold raiseGwct
    split
    · rfl
    · exact updGroup_caches _ _ _
  have crossed : ∀ u : State, (flitFrom a u).caches = u.caches := fun u => by
    unfold flitFrom
    split <;> rfl
  unfold performStore
  split_ifs
  · exact h
  · rw [crossed]
    dsimp only
    rw [raised]
    exact List.map_eq_nil_iff.2 written
  · rw [raised]
    exact List.map_eq_nil_iff.2 written

theorem Still.storeHome (h : Still s) (uid lane core a : Nat) (bs : List Byte) : Still (storeHome uid lane core a bs s) := by
  have kept := storeHome_kept (D := fun _ => True) (uid := uid) (lane := lane) (core := core) (a := a) (bs := bs) (fun _ _ => trivial) (within_true s)
  refine ⟨List.eq_nil_iff_forall_not_mem.2 fun p hp => ?_, ?_, fun b => ?_⟩
  · exact List.not_mem_nil (h.stores ▸ kept.pending p hp)
  · rw [storeHome_empty _ _ _ _ _ h.stores h.caches]
    exact performStore_caches _ _ _ _ h.caches
  · exact (peerGone_of_loadFrame (loadFrame_of_storeFrame kept.frame) b).trans (h.here b)

theorem Still.homeByte_storeHome (h : Still s) (c : Nat) :
    homeByte (Machine.storeHome uid lane core a bs s) c = homeByte (setHomeBytes a bs (noteOld a bs s)) c := by
  rw [storeHome_empty _ _ _ _ _ h.stores h.caches]
  exact homeByte_performStore_bytes (h.here a) _ _ _ c

theorem Still.homeByte_outside (h : Still s) (out : c < a ∨ a + bs.length ≤ c) : homeByte (Machine.storeHome uid lane core a bs s) c = homeByte s c := by
  obtain ⟨-, -, noted⟩ := noteOld_beside a bs s
  rw [h.homeByte_storeHome, homeByte_setHomeBytes _ _ _ _ out, noted]

theorem Still.homeBytes_stored (h : Still s) : homeBytes (Machine.storeHome uid lane core a bs s) a bs.length = bs :=
  (homeBytes_congr fun _ _ => h.homeByte_storeHome _).trans (homeBytes_setHomeBytes a bs _)

/-- Bytes that cross lines: they stand at the home, and no other byte has changed. -/
theorem Still.splitLines (uid lane core : Nat) : ∀ (fuel a : Nat) (bs : List Byte) {s : State}, Still s → bs.length < fuel →
    let t := (splitLines fuel a bs).foldl (fun t q => Machine.storeHome uid lane core q.1 q.2 t) s
    Still t ∧ homeBytes t a bs.length = bs ∧ ∀ c, c < a ∨ a + bs.length ≤ c → homeByte t c = homeByte s c
  | 0, _, _, _, _, lt => absurd lt (Nat.not_lt_zero _)
  | fuel + 1, a, bs, s, h, lt => by
    by_cases none : bs = []
    · rw [none, splitLines_nil]
      exact ⟨h, rfl, fun _ _ => rfl⟩
    · rw [splitLines_succ fuel a none, List.foldl_cons]
      have some : 0 < bs.length := List.length_pos_iff.2 none
      generalize hn : 128 - a % 128 = n
      have hstep : 0 < n := by omega
      have first := h.storeHome uid lane core a (bs.take n)
      obtain ⟨still, reads, outside⟩ := Still.splitLines uid lane core fuel (a + n) (bs.drop n) first (by rw [List.length_drop]; omega)
      refine ⟨still, ?_, fun c hc => ?_⟩
      · have head : homeBytes (Machine.storeHome uid lane core a (bs.take n) s) a (bs.take n).length = bs.take n := h.homeBytes_stored
        have cut : bs.length = (bs.take n).length + (bs.drop n).length := by rw [List.length_take, List.length_drop]; omega
        rw [cut, homeBytes_add, homeBytes_congr fun i hi => outside _ (.inl (by rw [List.length_take] at hi; omega)), head]
        rcases Nat.lt_or_ge bs.length n with short | long
        · rw [List.drop_of_length_le short.le, List.take_of_length_le short.le]
          exact List.append_nil _
        · rw [List.length_take_of_le long, reads, List.take_append_drop]
      · rcases Nat.lt_or_ge bs.length n with short | long
        · rw [List.drop_of_length_le short.le, splitLines_nil]
          exact h.homeByte_outside (by rw [List.length_take]; omega)
        · rw [List.length_drop] at outside
          rw [outside c (by omega)]
          exact h.homeByte_outside (by rw [List.length_take]; omega)

theorem Still.storeAcross (h : Still s) (uid lane core a : Nat) (bs : List Byte) :
    Still (storeAcross uid lane core a bs s) ∧ homeBytes (storeAcross uid lane core a bs s) a bs.length = bs
      ∧ ∀ c, c < a ∨ a + bs.length ≤ c → homeByte (storeAcross uid lane core a bs s) c = homeByte s c :=
  Still.splitLines uid lane core (bs.length + 1) a bs h (Nat.lt_succ_self _)

section

variable {r : Nat} {f : Nat → Closure} {run : List (Access × Nat)}

theorem Still.spillLane (h : Still t) (l : Nat) : Still (spillLane s r f run t l) := by
  unfold Machine.spillLane
  split
  · exact (h.storeAcross ..).1
  · exact h

/-- A spill changes only its own bytes. -/
theorem Still.spillLane_outside (h : Still t) {l c : Nat} (out : ∀ p, spillPlace s r run l = some p → c < p ∨ p + (spilled (f l)).length ≤ c) :
    homeByte (Machine.spillLane s r f run t l) c = homeByte t c := by
  unfold Machine.spillLane
  split
  · obtain ⟨-, -, outside⟩ := h.storeAcross s.grp.uid l s.grp.core ‹Nat› (spilled (f l))
    exact outside c (out _ ‹_›)
  · rfl

theorem Still.spills (l' : List Nat) (h : Still t) : Still (l'.foldl (Machine.spillLane s r f run) t) := by
  induction l' generalizing t with
  | nil => exact h
  | cons l ls ih => exact ih (h.spillLane l)

theorem Still.spills_outside {c : Nat} : ∀ {ls : List Nat} {t : State}, Still t →
    (∀ l ∈ ls, ∀ p, spillPlace s r run l = some p → c < p ∨ p + (spilled (f l)).length ≤ c) →
    homeByte (ls.foldl (Machine.spillLane s r f run) t) c = homeByte t c
  | [], _, _, _ => rfl
  | l :: _, _, h, out => (Still.spills_outside (h.spillLane l) fun l' hl' => out l' (List.mem_cons_of_mem _ hl')).trans
      (h.spillLane_outside (out l List.mem_cons_self))

/-- The records of a lane whose area meets no other lane's stand in its window after the spills. -/
theorem Still.spilled_reads {l p : Nat} {ls : List Nat} (h : Still s) (nodup : ls.Nodup) (hl : l ∈ ls) (place : spillPlace s r run l = some p)
    (apart : ∀ l' ∈ ls, ∀ p', spillPlace s r run l' = some p' → l' ≠ l → p' + (spilled (f l')).length ≤ p ∨ p + (spilled (f l)).length ≤ p') :
    homeBytes (spillStores r f run ls s) p (spilled (f l)).length = spilled (f l) := by
  obtain ⟨pre, post, rfl⟩ := List.append_of_mem hl
  have others : ∀ l' ∈ post, l' ≠ l := fun l' hl' eq => by
    obtain ⟨-, rest, -⟩ := List.nodup_append.1 nodup
    exact (List.nodup_cons.1 rest).1 (eq ▸ hl')
  have before := h.spills (s := s) (r := r) (f := f) (run := run) pre
  have mine : Machine.spillLane s r f run (pre.foldl (Machine.spillLane s r f run) s) l
      = Machine.storeAcross s.grp.uid l s.grp.core p (spilled (f l)) (pre.foldl (Machine.spillLane s r f run) s) := by
    rw [Machine.spillLane, place]
  obtain ⟨-, reads, -⟩ := before.storeAcross s.grp.uid l s.grp.core p (spilled (f l))
  rw [spillStores_eq, List.foldl_append, List.foldl_cons, ← mine] at *
  refine (homeBytes_congr fun i hi => ?_).trans reads
  refine Still.spills_outside (before.spillLane l) fun l' hl' p' place' => ?_
  rcases apart l' (List.mem_append_right _ (List.mem_cons_of_mem _ hl')) p' place' (others l' hl') with low | high
  · exact .inr (by omega)
  · exact .inl (by omega)

end

end

end Sys2Proof.Machine

/-! ### The words that build closures (R148, R150 to R154) -/

namespace Sys2Proof.Machine

section

variable {s u : State} {n : Need} {body : State → State} {r : Nat} {f : Nat → Closure} {ls : List Nat}

/-- A closure register with the closures of some lanes. -/
def setClosures (r : Nat) (f : Nat → Closure) (ls : List Nat) (g : Group) : Group := ls.foldl (fun q l => setGr r l (f l) q) g

theorem setClosures_clos (r : Nat) (f : Nat → Closure) (ls : List Nat) (g : Group) : setClosures r f ls g = { g with clos := (setClosures r f ls g).clos } := by
  induction ls generalizing g with
  | nil => rfl
  | cons l ls ih => exact ih (setGr r l (f l) g)

theorem getG_setGr (r l : Nat) (x : Closure) (g : Group) (r' l' : Nat) (hl : l < 64) (hl' : l' < 64) :
    getG (setGr r l x g) r' l' = if r' = r ∧ l' = l then x else getG g r' l' := by
  refine (sget_sput _ _ _ _ _).trans (if_congr ?_ rfl rfl)
  omega

theorem getG_setClosures (r : Nat) (f : Nat → Closure) (r' l' : Nat) (hl' : l' < 64) : ∀ (ls : List Nat) (g : Group), (∀ l ∈ ls, l < 64) →
    getG (setClosures r f ls g) r' l' = if r' = r ∧ l' ∈ ls then f l' else getG g r' l'
  | [], g, _ => by simp [setClosures]
  | l :: ls, g, h => by
    obtain ⟨hl, rest⟩ := List.forall_mem_cons.1 h
    have next := getG_setClosures r f r' l' hl' ls (setGr r l (f l) g) rest
    refine next.trans ?_
    rw [getG_setGr r l (f l) g r' l' hl hl']
    by_cases same : r' = r ∧ l' = l
    · obtain ⟨rfl, rfl⟩ := same
      simp
    · rw [if_neg same]
      refine if_congr ?_ rfl rfl
      rw [List.mem_cons]
      tauto

/-- A word that ends by writing the active lanes' closures over a state with the same issuer. -/
theorem setClosures_completes (hr : ready n s) (same : sameIssuer s.grp u.grp) (hf : body s = finish (u.setG (setClosures r f (lanes (active s))))) :
    ∃ t, word n body s = thenStep s t
      ∧ (∀ l r', l < 64 → r' < 4 → getG t.grp r' l = if r' = r ∧ isActive s l = true then f l else getG s.grp r' l)
      ∧ Completed { u with grp := { u.grp with clos := t.grp.clos } } t := by
  have shape := setClosures_clos r f (lanes (active s)) u.grp
  rw [word_run _ hr, hf]
  obtain ⟨t, ht, done⟩ := finish_completes (s := s) (u := u.setG (setClosures r f (lanes (active s))))
    (by rw [State.setG, shape]; exact same.quiet) (by rw [State.setG, shape]; exact same.curPc) (by rw [State.setG, shape]; exact same.active)
  obtain ⟨-, -, -, placed⟩ := id done
  have clos : t.grp.clos = (setClosures r f (lanes (active s)) u.grp).clos := by
    unfold samePlaced at placed
    rw [placed]
    rfl
  have before : u.grp.clos = s.grp.clos := by
    obtain ⟨eq, -, -⟩ := same
    rw [eq]
  refine ⟨t, ht, fun l r' hl _ => ?_, ?_⟩
  · have read := getG_setClosures r f r' l hl (lanes (active s)) u.grp fun l hl => ((mem_lanes _ _).1 hl).1
    rw [getG, ← clos] at read
    refine read.trans (if_congr (and_congr_right' (isActive_iff s l).symm) rfl ?_)
    rw [getG, before, getG]
  · rwa [clos, ← shape]

end

section

variable {s : State} {n : Need} {r : Nat} {limit : Bool} {own : State → Nat → Option TrapReq} {f : State → Nat → Closure}
  {run : List (Access × Nat)}

/-- The lanes whose closure exceeds the limits of R153. -/
def overLimit (s : State) (limit : Bool) (f : Nat → Closure) : List Nat := (lanes (active s)).filter fun l => limit && closureOver (f l)

/-- The translation of the spills of a word that builds closures. -/
def buildSpills (s : State) (r : Nat) (f : Nat → Closure) : MemGo :=
  memTrans s { buf := 0, idx := fun _ => 0, size := 1, kind := 1 }
    (spillAccs s (fun l => [(r, if (f l).lobes.isEmpty then 0 else max (getG s.grp r l).lobes.length (f l).lobes.length)]) (lanes (active s)))

theorem buildWord_own {t : TrapReq} (hr : ready n s) (trap : (lanes (active s)).findSome? (own s) = some t) :
    buildWord n r limit own f s = takeTrap t s := by
  rw [buildWord, word_run _ hr]
  dsimp only
  rw [trap]

theorem buildWord_over (hr : ready n s) (fine : (lanes (active s)).findSome? (own s) = none) (big : overLimit s limit (f s) ≠ []) :
    buildWord n r limit own f s = takeTrap { cause := cClosureLimit, mask := maskOf (overLimit s limit (f s)) } s := by
  rw [buildWord, word_run _ hr]
  dsimp only
  rw [fine]
  exact if_pos (by simpa [overLimit] using big)

/-- The closures are built, and their records go to the windows. -/
theorem buildWord_builds (hr : ready n s) (fine : (lanes (active s)).findSome? (own s) = none) (small : overLimit s limit (f s) = [])
    (go : buildSpills s r (f s) = .go run []) : ∃ t, buildWord n r limit own f s = thenStep s t
      ∧ (∀ l r', l < 64 → r' < 4 → getG t.grp r' l = if r' = r ∧ isActive s l = true then f s l else getG s.grp r' l)
      ∧ Completed { spillStores r (f s) run (lanes (active s)) s with
          grp := { (spillStores r (f s) run (lanes (active s)) s).grp with clos := t.grp.clos } } t := by
  have kept := spillStores_kept (f := f s) (run := run) (ls := lanes (active s)) (r := r) (D := fun _ => True) (fun _ _ _ _ _ _ => trivial) (within_true s)
  refine setClosures_completes hr (Accessed.ofOps kept.ofStores).issuer ?_
  unfold buildSpills at go
  unfold overLimit at small
  dsimp only
  rw [fine, small]
  unfold withSpill
  rw [go]
  rfl

/-- The homes that the active lanes' spills may change: of bytes in flight, and of their own records. -/
def spillHomes (s : State) (r : Nat) (f : Nat → Closure) (run : List (Access × Nat)) (a : Nat) : Prop :=
  inFlight s a = true ∨ ∃ l p, isActive s l = true ∧ spillPlace s r run l = some p ∧ p ≤ a ∧ a < p + (spilled (f l)).length

theorem spillStores_accessed (s : State) (r : Nat) (f : Nat → Closure) (run : List (Access × Nat)) :
    Accessed (spillHomes s r f run) s (spillStores r f run (lanes (active s)) s) :=
  .ofOps (spillStores_kept (fun l hl p place i hi => .inr ⟨l, p, (isActive_iff s l).2 hl, place, by omega, by omega⟩)
    ((within_inFlight s).mono fun _ => Or.inl)).ofStores

end

end Sys2Proof.Machine

namespace Sys2Proof.Machine

theorem withLobes_eq (c : Closure) (ls : List Lobe) (n : Nat) :
    c.withLobes ls n = { c with lobes := ls, depth := (ls.map fun l => l.depth).foldl max 0, ncount := n } := by
  rw [List.foldl_map]
  rfl

/-- The frame that `FRAME` gives a lane. -/
def framed (s : State) (g n l : Nat) : Closure := (getG s.grp g l).withFrame (frameOf (v3At s n l) (v3At s (n + 3) l) (v3At s (n + 6) l))

theorem exec_frame (bt : BitVec 1) (g : BitVec 2) (n : BitVec 8) (s : State) : exec (.frame bt g n) s
    = .next (word (closNeed s [g.toNat] [(n.toNat, 9)] [(n.toNat, 9)] false)
        (fun s => finish (s.setG (setClosures g.toNat (framed s g.toNat n.toNat) (lanes (active s))))) s) := rfl

theorem closureWords : Sys2Proof.Claims.closureWords := by
  intro s bt g h y p w n ls c d x par built builds none_ of weight scaled under
  have all : ∀ i need limit own f F, exec i s = .next (buildWord need g.toNat limit own f s) → f s = F → builds i need limit (own s) F := by
    intro i need limit own f F he hF
    subst hF
    refine ⟨fun t hr trap => by rw [he, buildWord_own hr trap], fun hr fine big => by rw [he, buildWord_over hr fine big]; rfl,
      fun run hr fine small go => ?_⟩
    obtain ⟨t, ht, lanes_, done⟩ := buildWord_builds hr fine small go
    have ends := spillStores_accessed s g.toNat (f s) run
    refine ⟨⟨t, by rw [he, ht], lanes_, done⟩, ends.issuer, fun a free out => ends.home a ?_, fun l q area here apart rest => ?_⟩
    · rintro (flying | ⟨l, q, act, place, low, high⟩)
      · exact Bool.false_ne_true (free.symm.trans flying)
      · rcases out l q ⟨act, place⟩ with before | after
        · omega
        · exact absurd high (not_lt.2 after)
    · obtain ⟨act, place⟩ := area
      obtain ⟨-, stores, caches⟩ := rest
      exact Still.spilled_reads ⟨stores, caches, here⟩ (lanes_nodup _) ((isActive_iff s l).1 act) place
        fun l' hl' q' place' => apart l' q' ⟨(isActive_iff s l').2 hl', place'⟩
  refine ⟨all (.cclr bt g) _ false (fun _ => none_) _ _ rfl rfl, all (.lobe bt y g p w) _ true (netTrap y.toNat p.toNat) _ _ rfl ?_,
    all (.lmix bt g h w) _ true (fun _ => none_) _ _ rfl ?_, all (.layer bt g h w) _ true (fun _ => none_) _ _ rfl ?_,
    all (.lscl bt g w) _ false (fun _ => none_) _ _ rfl ?_, fun hr => ?_⟩
  · exact funext fun l => withLobes_eq _ _ _
  · exact funext fun l => withLobes_eq _ _ _
  · exact funext fun l => withLobes_eq _ _ _
  · exact funext fun l => withLobes_eq _ _ _
  · obtain ⟨t, ht, lanes_, done⟩ := setClosures_completes (f := framed s g.toNat n.toNat) (r := g.toNat)
      (body := fun s => finish (s.setG (setClosures g.toNat (framed s g.toNat n.toNat) (lanes (active s))))) hr (.refl _) rfl
    exact ⟨t, by rw [exec_frame, ht], lanes_, done⟩

end Sys2Proof.Machine

/-! ### The words that read a mixture (R160 to R162) -/

namespace Sys2Proof.Machine

section

variable {D : Nat → Prop} {s : State}

theorem netWeights_accessed (l : Nat) (as : List Access) (h : Within D s) : Accessed D s (netWeights l as s).2 := by
  induction as generalizing s with
  | nil => exact .refl h
  | cons a as ih =>
    unfold netWeights
    dsimp only
    split
    · have one := laneLoad_accessed (scopeOf s 26) 0 l ‹Nat› 2 h
      exact one.trans (ih one.flight)
    · exact ih h

theorem netTable_accessed (l : Nat) (offs : List Word) (h : Within D s) : Accessed D s (netTable l offs s).2 := by
  induction offs generalizing s with
  | nil => exact .refl h
  | cons off offs ih =>
    have one := netWeights_accessed l (netAccs s l off) h
    unfold netTable
    dsimp only
    exact one.trans (ih one.flight)

variable {g d : Nat} {dir : Nat → Option V3} {res : (Word → List Word) → Nat → List Word}

theorem mixRun_accessed (ls : List Nat) (h : Within D s) : Accessed D s (mixRun g d dir res ls s).2 := by
  induction ls generalizing s with
  | nil => exact .refl h
  | cons l ls ih =>
    have one := netTable_accessed l (netOffsets (getG s.grp g l) (dir l)) h
    exact one.trans (ih one.flight)

/-- Each lane of a mixture word has a write. -/
theorem mixRun_writes (some : ∀ net l, res net l ≠ []) {ls : List Nat} (none : (mixRun g d dir res ls s).1 = []) : ls = [] := by
  cases ls with
  | nil => rfl
  | cons l ls =>
    obtain ⟨first, -⟩ := List.append_eq_nil_iff.1 none
    obtain ⟨w, ws, eq⟩ := List.exists_cons_of_ne_nil (some (netOf (netTable l (netOffsets (getG s.grp g l) (dir l)) s).1) l)
    rw [eq] at first
    exact absurd first (laneWrites_ne_nil _ _ _ _)

/-- No lane waits with a speculative task where none has one. -/
theorem taskOver_of_noSpec (hs : anySpec s = false) {l : Nat} (hl : l ∈ lanes (active s)) (reads writes : List Nat) :
    taskOver s s.grp.uid l reads writes = false := by
  have none : specTask s s.grp.uid l = none := by
    have := List.any_eq_false.1 hs l hl
    simpa using this
  rw [taskOver, none]

end

section

variable {s : State} {n : Need} {g d dw : Nat} {dir : State → Nat → Option V3} {res : State → (Word → List Word) → Nat → List Word}
  {run spill : List (Access × Nat)}

/-- The reads of `B26` (R160). -/
def netRead : MemOp := { buf := 26, idx := fun _ => 0, size := 2, kind := 0 }

/-- The accesses of the networks of the active lanes' mixtures. -/
def mixAccs (s : State) (g : Nat) (dir : Nat → Option V3) : List Access :=
  (lanes (active s)).flatMap fun l => (netOffsets (getG s.grp g l) (dir l)).flatMap (netAccs s l)

/-- The translation of the fills of a closure register. -/
def fills (s : State) (g : Nat) : MemGo :=
  memTrans s { buf := 0, idx := fun _ => 0, size := 1, kind := 0 } (spillAccs s (fun l => [(g, (getG s.grp g l).lobes.length)]) (lanes (active s)))

/-- The lanes' results, with the state after their reads. -/
def mixed (s : State) (g d : Nat) (dir : Nat → Option V3) (res : (Word → List Word) → Nat → List Word) (run : List (Access × Nat)) :
    List RegWrite × State :=
  mixRun g d dir res (lanes (active s)) (sampled .mem (run.filter fun p => (lanes (active s)).contains p.1.lane) s)

theorem mixed_accessed (s : State) (g d : Nat) (dir : Nat → Option V3) (res : (Word → List Word) → Nat → List Word) (run : List (Access × Nat)) :
    Accessed (fun a => inFlight s a = true) s (mixed s g d dir res run).2 := by
  have start := sampled_accessed .mem (run.filter fun p => (lanes (active s)).contains p.1.lane) (within_inFlight s)
  exact start.trans (mixRun_accessed _ start.flight)

/-- What a mixture word comes to when its checks pass, every page is there and no task waits. -/
theorem mixWord_proceeds (hr : ready n s) (hs : anySpec s = false) (meets : runMeets s 2 run = false)
    (fine : memTraps s netRead (lanes (active s)) (mixAccs s g (dir s)) = none) (filled : fills s g = .go spill [])
    (go : memTrans s netRead ((mixAccs s g (dir s)).filter fun a => a.inb) = .go run []) :
    mixWord n g d dw dir res s
      = loadFinish 0 d dw (mixed s g d (dir s) (res s) run).1 [] [] (curPos s) (mixed s g d (dir s) (res s) run).2 := by
  have tasks : (lanes (active s)).filter (fun l => taskOver s s.grp.uid l ((run.filter fun p => decide (p.1.lane = l)).map fun p => p.2) []) = [] :=
    List.filter_eq_nil_iff.2 fun l hl => by rw [taskOver_of_noSpec hs hl]; exact Bool.false_ne_true
  unfold mixAccs netRead at fine go
  unfold fills at filled
  rw [mixWord, word_run _ hr]
  dsimp only
  rw [fine]
  unfold withSpill
  dsimp only
  rw [filled]
  dsimp only
  rw [go]
  simp only [List.any_nil, Bool.not_false, List.filter_true]
  rw [tasks, if_neg (show ¬maskOf [] ≠ 0 from fun h => h rfl), meets]
  rfl

theorem mixWord_completes (hr : ready n s) (hs : anySpec s = false) (meets : runMeets s 2 run = false)
    (fine : memTraps s netRead (lanes (active s)) (mixAccs s g (dir s)) = none) (filled : fills s g = .go spill [])
    (go : memTrans s netRead ((mixAccs s g (dir s)).filter fun a => a.inb) = .go run []) (some : ∀ net l, res s net l ≠ []) :
    ∃ t, mixWord n g d dw dir res s = thenStep s t
      ∧ Completed (launchOp (plainRegs dw d) (mixed s g d (dir s) (res s) run).1 [] (mixed s g d (dir s) (res s) run).2) t := by
  have same := (mixed_accessed s g d (dir s) (res s) run).issuer
  obtain ⟨e, he⟩ := act_of_ready hr
  rw [mixWord_proceeds hr hs meets fine filled go, loadFinish_launches (same.act.trans he) fun none _ _ => by
    rw [same.active]
    have idle := mixRun_writes some none
    rw [active] at idle ⊢
    exact lanes_eq_nil idle, List.append_nil]
  exact finish_completes ((launchOp_quiet ..).trans same.quiet) ((launchOp_curPc ..).trans same.curPc) ((launchOp_active ..).trans same.active)

end

theorem sampWords_ne_nil (net : Word → List Word) (c : Closure) (d : Drawn) : sampWords net c d ≠ [] := by
  cases d <;> exact List.cons_ne_nil _ _

theorem mixtureWords : Sys2Proof.Claims.mixtureWords := by
  intro s bt g d u run spill ls c w o draw mixes
  have all : ∀ i dw dir res, exec i s = .next (mixWord (closNeed s [g.toNat] [(u.toNat, 3), (d.toNat, dw)] [(u.toNat, 3), (d.toNat, dw)] true)
      g.toNat d.toNat dw dir res s) → (∀ net l, res s net l ≠ []) → mixes i dw (dir s) (res s) := by
    intro i dw dir res he some hr hs meets fine filled go
    obtain ⟨t, ht, done⟩ := mixWord_completes (d := d.toNat) (dw := dw) hr hs meets fine filled go some
    have ends := mixed_accessed s g.toNat d.toNat (dir s) (res s) run
    exact ⟨⟨t, by rw [he, ht], done⟩, ends.issuer, fun a free => ends.home a (Bool.eq_false_iff.1 free)⟩
  refine ⟨all (.samp bt g d u) 8 (fun s l => match sampDraw (getG s.grp g.toNat l) (getV s.grp u.toNat l) (getV s.grp (u.toNat + 1) l)
      (getV s.grp (u.toNat + 2) l) with
      | .dir _ w => some w
      | _ => none) (fun s net l => sampWords net (getG s.grp g.toNat l) (sampDraw (getG s.grp g.toNat l) (getV s.grp u.toNat l)
        (getV s.grp (u.toNat + 1) l) (getV s.grp (u.toNat + 2) l))) rfl fun _ _ => sampWords_ne_nil _ _ _, ?_, ?_⟩
  · exact all (.eval bt g d u) 4 (fun s l => some (v3At s u.toNat l)) (fun s net l =>
      let v := mixEval net (getG s.grp g.toNat l) (v3At s u.toNat l)
      [v.r, v.g, v.b, v.p]) rfl fun _ _ => List.cons_ne_nil _ _
  · exact all (.pdf bt g d u) 1 (fun _ _ => none) (fun s _ l => [mixPdf (getG s.grp g.toNat l) (v3At s u.toNat l)]) rfl
      fun _ _ => List.cons_ne_nil _ _

end Sys2Proof.Machine

/-! ### The words that move an image (R164) -/

namespace Sys2Proof.Machine

/-! What a word reads of a state whose requests have been sampled (R335) is as before. -/

section

variable (pl : Place) (run : List (Access × Nat)) (s : State)

/-- Sampling touches the contexts alone, and in them no window. -/
theorem sampled_ctxs : ∃ cs, sampled pl run s = { s with ctxs := cs } ∧ (ctxOf { s with ctxs := cs }).privBase = (ctxOf s).privBase := by
  unfold sampled takeSamples
  split
  · exact ⟨s.ctxs, rfl, rfl⟩
  · rename_i x found
    split
    · exact ⟨s.ctxs, rfl, rfl⟩
    · refine ⟨_, rfl, ?_⟩
      have kept : ∀ (f : Context → Context), (∀ c, (f c).id = c.id ∧ (f c).privBase = c.privBase) →
          (((s.ctxs.map f).find? fun c => c.id = s.grp.ctx).getD {}).privBase = ((s.ctxs.find? fun c => c.id = s.grp.ctx).getD {}).privBase := by
        intro f hf
        rw [List.find?_map]
        have same : ((fun c : Context => decide (c.id = s.grp.ctx)) ∘ f) = fun c => decide (c.id = s.grp.ctx) :=
          funext fun c => by simp [(hf c).1]
        rw [same]
        cases s.ctxs.find? fun c => decide (c.id = s.grp.ctx) with
        | none => rfl
        | some c => exact (hf c).2
      exact kept _ fun c => by split <;> exact ⟨rfl, rfl⟩

theorem sampled_grp : (sampled pl run s).grp = s.grp := by
  obtain ⟨cs, eq, -⟩ := sampled_ctxs pl run s
  rw [eq]

theorem bufOf_sampled (n l : Nat) : bufOf (sampled pl run s) n l = bufOf s n l := by
  obtain ⟨cs, eq, priv⟩ := sampled_ctxs pl run s
  rw [eq]
  unfold bufOf
  rw [priv]
  rfl

theorem scopeOf_sampled (n : Nat) : scopeOf (sampled pl run s) n = scopeOf s n := by
  unfold scopeOf curHints curPos
  rw [sampled_grp, bufOf_sampled]

theorem evcOf_sampled : evcOf (sampled pl run s) = evcOf s := by
  unfold evcOf curHints curPos
  rw [sampled_grp]

theorem active_sampled : active (sampled pl run s) = active s := by
  unfold active
  rw [sampled_grp]

theorem spillAccs_sampled (use : Nat → List (Nat × Nat)) (ls : List Nat) : spillAccs (sampled pl run s) use ls = spillAccs s use ls := by
  obtain ⟨cs, eq, priv⟩ := sampled_ctxs pl run s
  have base : ∀ g l, spillBase (sampled pl run s) g l = spillBase s g l := fun g l => by
    unfold spillBase
    rw [eq, priv]
  simp only [spillAccs, spillAddrs, base]

/-- A spill's translation, which meets no watchpoint. -/
theorem memTrans_sampled (kind : Nat) (as : List Access) :
    memTrans (sampled pl run s) { buf := 0, idx := fun _ => 0, size := 1, kind := kind } as
      = memTrans s { buf := 0, idx := fun _ => 0, size := 1, kind := kind } as := by
  obtain ⟨cs, eq, -⟩ := sampled_ctxs pl run s
  rw [eq]
  rfl

end

section

variable {s : State} {o : MemOp} {as : List Access} {run parked : List (Access × Nat)}

theorem mem_splitAccs {p : Access × Nat} : ∀ {ts : List (Access × Trans)}, p ∈ (splitAccs ts).1 → ∃ t, (p.1, t) ∈ ts
  | [], h => absurd h List.not_mem_nil
  | (a, t) :: r, h => by
    have later : p ∈ (splitAccs r).1 → ∃ u, (p.1, u) ∈ (a, t) :: r := fun h => by
      obtain ⟨u, hu⟩ := mem_splitAccs h
      exact ⟨u, List.mem_cons_of_mem _ hu⟩
    unfold splitAccs at h
    cases t with
    | ok q =>
      rcases List.mem_cons.1 h with rfl | h
      · exact ⟨_, List.mem_cons_self⟩
      · exact later h
    | miss => exact later h
    | refused m => exact later h
    | absent => exact later h

/-- The accesses that proceed are some of those asked for. -/
theorem mem_of_memTrans {parked : List (Nat × Nat)} (go : memTrans s o as = .go run parked) {p : Access × Nat} (hp : p ∈ run) : p.1 ∈ as := by
  have split : splitGo o.skip (as.map fun a => (a, accTrans s o a)) = .go run parked := by
    unfold memTrans at go
    dsimp only at go
    split at go
    · cases go
    · split at go
      · cases go
      · split at go
        · exact go
        · split at go
          · cases go
          · exact go
  unfold splitGo at split
  obtain ⟨rfl, -⟩ := MemGo.go.inj split
  obtain ⟨t, ht⟩ := mem_splitAccs (List.mem_filter.1 hp).1
  obtain ⟨a, ha, eq⟩ := List.mem_map.1 ht
  obtain ⟨rfl, -⟩ := Prod.mk.inj eq
  exact ha

/-- The pieces of the active lanes' images. -/
def askedPieces (s : State) (o : MemOp) : List Access := ((imageAccs s o.buf (o.idx 0).toNat (lanes (active s))).filter fun a => a.inb).flatMap imagePieces

theorem lane_of_mem_askedPieces {a : Access} (h : a ∈ askedPieces s o) : a.lane ∈ lanes (active s) := by
  obtain ⟨whole, hw, hp⟩ := List.mem_flatMap.1 h
  obtain ⟨l, hl, rfl⟩ := List.mem_map.1 (List.mem_filter.1 hw).1
  obtain ⟨k, -, rfl⟩ := List.mem_map.1 hp
  exact hl

/-- An image word whose lanes all proceed. -/
theorem imageWord_proceeds (hs : anySpec s = false) (meets : runMeets s o.size run = false)
    (fine : memTraps s o (lanes (active s)) (imageAccs s o.buf (o.idx 0).toNat (lanes (active s))) = none)
    (go : memTrans s o (askedPieces s o) = .go run []) (body : List (Access × Nat) → List (Nat × Nat) → State → State) :
    imageWord o s body = body run [] (sampled (placeOf s.grp o.buf) run s) := by
  have free : ∀ p ∈ run, ∀ reads writes, taskOver s s.grp.uid p.1.lane reads writes = false := fun p hp =>
    taskOver_of_noSpec hs (lane_of_mem_askedPieces (mem_of_memTrans go hp))
  unfold askedPieces at go
  unfold imageWord
  dsimp only
  rw [fine]
  dsimp only
  rw [go]
  dsimp only
  rw [List.filter_eq_nil_iff.2 fun p hp => by rw [free p hp, free p hp, ite_self]; exact Bool.false_ne_true,
    List.map_nil, if_neg (show ¬maskOf [] ≠ 0 from fun h => h rfl), meets]
  rfl

end

section

variable {s : State} {g q x : Nat} {run spill : List (Access × Nat)}

/-- The bytes of a lane's closure image that a piece holds. -/
def imageBytes (s : State) (g q x : Nat) (a : Access) : List Byte :=
  ((closureImage (getG s.grp g a.lane)).drop (a.off - (accOf (bufOf s q a.lane) 544 0 a.lane (getV s.grp x a.lane)).off).toNat).take 32

/-- The state after `CSAVE` has stored the lanes' images. -/
def saved (s : State) (g q x : Nat) (run : List (Access × Nat)) : State :=
  run.foldl (fun t p => laneStore (placeOf s.grp q) (scopeOf s q) (evcOf s) p.1.lane p.2 (imageBytes s g q x p.1) t) (sampled (placeOf s.grp q) run s)

theorem saved_accessed (s : State) (g q x : Nat) (run : List (Access × Nat)) :
    Accessed (fun a => inFlight s a = true ∨ covered (placeOf s.grp q) 32 run a) s (saved s g q x run) := by
  have start := sampled_accessed (placeOf s.grp q) run ((within_inFlight s).mono fun a => Or.inl (b := covered (placeOf s.grp q) 32 run a))
  refine start.trans (Accessed.foldl (fun t p hp ht => laneStore_accessed (fun hpl i hi => .inr ⟨hpl, p, hp, Nat.le_add_right _ _, ?_⟩) ht) start.flight)
  have short : (imageBytes s g q x p.1).length ≤ 32 := List.length_take_le ..
  omega

theorem imageRun_accessed {D : Nat → Prop} {t : State} (pl : Place) (scope evc : Nat) (run : List (Access × Nat)) (h : Within D t) :
    Accessed D t (imageRun pl scope evc run t).2 := by
  induction run generalizing t with
  | nil => exact .refl h
  | cons p run ih =>
    have one : Accessed D t (laneLoad pl scope evc p.1.lane p.2 32 t).2 := loadAt_accessed h
    exact one.trans (ih one.flight)

/-- The pieces of the images that `CLOAD` reads, with the state after it. -/
def imagesRead (s : State) (q : Nat) (run : List (Access × Nat)) : List (Nat × List Byte) × State :=
  imageRun (placeOf s.grp q) (scopeOf s q) (evcOf s) run (sampled (placeOf s.grp q) run s)

/-- The state after `CLOAD` has read the images and spilled their closures. -/
def loaded (s : State) (g q : Nat) (run spill : List (Access × Nat)) : State :=
  spillStores g (imageOf (imagesRead s q run).1) spill (lanes (active s)) (imagesRead s q run).2

/-- The homes that `CLOAD` may change: of bytes in flight, and of the spill areas. -/
def loadHomes (s : State) (spill : List (Access × Nat)) (a : Nat) : Prop := inFlight s a = true ∨ ∃ p ∈ spill, p.2 ≤ a ∧ a < p.2 + 384

theorem length_closureOfImage (bs : List Byte) : (closureOfImage bs).lobes.length ≤ 16 := by
  unfold closureOfImage
  dsimp only
  split
  · exact Nat.zero_le _
  · rename_i fine
    simp only [not_or, not_lt] at fine
    rw [List.length_map, List.length_range]
    omega

theorem loaded_accessed (s : State) (g q : Nat) (run spill : List (Access × Nat)) : Accessed (loadHomes s spill) s (loaded s g q run spill) := by
  have start := sampled_accessed (placeOf s.grp q) run ((within_inFlight s).mono fun a => Or.inl (b := ∃ p ∈ spill, p.2 ≤ a ∧ a < p.2 + 384))
  have read := start.trans (imageRun_accessed (placeOf s.grp q) (scopeOf s q) (evcOf s) run start.flight)
  refine read.trans (.ofOps (spillStores_kept (fun l _ p place i hi => ?_) read.flight).ofStores)
  obtain ⟨a, found, rfl⟩ := Option.map_eq_some_iff.1 place
  have short := length_closureOfImage (((imagesRead s q run).1.filter fun p => decide (p.1 = l)).flatMap fun p => p.2)
  rw [length_spilled] at hi
  exact .inr ⟨a, List.mem_of_find?_eq_some found, Nat.le_add_right _ _, by unfold imageOf at hi; omega⟩

end

section

variable {s : State} {bt : BitVec 1} {g : BitVec 2} {n : BitVec 5} {x : BitVec 8} {run spill : List (Access × Nat)}

/-- The access of `CSAVE`. -/
def saveOp (n : BitVec 5) (x : BitVec 8) : MemOp :=
  { buf := n.toNat, idx := fun _ => BitVec.ofNat 32 x.toNat, size := 32, kind := 1, stores := true, watch := [1] }

/-- The access of `CLOAD`. -/
def loadOp (n : BitVec 5) (x : BitVec 8) : MemOp := { buf := n.toNat, idx := fun _ => BitVec.ofNat 32 x.toNat, size := 32, kind := 0, watch := [0] }

theorem index_toNat (x : BitVec 8) : (BitVec.ofNat 32 x.toNat).toNat = x.toNat := by
  have := x.isLt
  rw [BitVec.toNat_ofNat]
  omega

theorem csave_completes (hr : ready (imageNeed s g.toNat n.toNat x.toNat false) s) (hs : anySpec s = false) (meets : runMeets s 32 run = false)
    (fine : memTraps s (saveOp n x) (lanes (active s)) (imageAccs s n.toNat x.toNat (lanes (active s))) = none)
    (go : memTrans s (saveOp n x) (((imageAccs s n.toNat x.toNat (lanes (active s))).filter fun a => a.inb).flatMap imagePieces) = .go run [])
    (filled : fills s g.toNat = .go spill []) :
    ∃ t, exec (.csave bt g n x) s = .next (thenStep s t) ∧ Completed (saved s g.toNat n.toNat x.toNat run) t := by
  have same := (saved_accessed s g.toNat n.toNat x.toNat run).issuer
  obtain ⟨e, he⟩ := act_of_ready hr
  obtain ⟨t, ht, done⟩ := finish_completes same.quiet same.curPc same.active
  rw [← index_toNat x] at fine go
  refine ⟨t, congrArg Host.Outcome.next ?_, done⟩
  rw [← ht, ← afterPark_of_act (same.act.trans he), word_run _ hr]
  dsimp only
  rw [if_neg (by rw [hs]; simp)]
  refine (imageWord_proceeds (o := saveOp n x) hs meets fine go _).trans ?_
  unfold fills at filled
  unfold withSpill
  simp only [spillAccs_sampled, memTrans_sampled, sampled_grp, active_sampled]
  rw [filled]
  simp only [scopeOf_sampled, evcOf_sampled, bufOf_sampled]
  rfl

theorem cload_completes (hr : ready (imageNeed s g.toNat n.toNat x.toNat true) s) (hs : anySpec s = false) (meets : runMeets s 32 run = false)
    (fine : memTraps s (loadOp n x) (lanes (active s)) (imageAccs s n.toNat x.toNat (lanes (active s))) = none)
    (go : memTrans s (loadOp n x) (((imageAccs s n.toNat x.toNat (lanes (active s))).filter fun a => a.inb).flatMap imagePieces) = .go run [])
    (spills : memTrans s { buf := 0, idx := fun _ => 0, size := 1, kind := 1 }
      (spillAccs s (fun l => [(g.toNat, (imageOf (imagesRead s n.toNat run).1 l).lobes.length)]) (lanes (active s))) = .go spill []) :
    ∃ t, exec (.cload bt g n x) s = .next (thenStep s t) ∧ Completed (launchOp [.g g.toNat] []
      ((lanes (active s)).map fun l => (g.toNat, l, imageOf (imagesRead s n.toNat run).1 l)) (loaded s g.toNat n.toNat run spill)) t := by
  have same := (loaded_accessed s g.toNat n.toNat run spill).issuer
  obtain ⟨e, he⟩ := act_of_ready hr
  obtain ⟨t, ht, done⟩ := finish_completes ((launchOp_quiet ..).trans same.quiet) ((launchOp_curPc ..).trans same.curPc)
    ((launchOp_active ..).trans same.active)
  rw [← index_toNat x] at fine go
  refine ⟨t, congrArg Host.Outcome.next ?_, done⟩
  rw [← ht, word_run _ hr]
  refine (imageWord_proceeds (o := loadOp n x) hs meets fine go _).trans ?_
  unfold imagesRead at spills
  unfold withSpill
  simp only [spillAccs_sampled, memTrans_sampled, sampled_grp, active_sampled, scopeOf_sampled, evcOf_sampled, List.any_nil, Bool.not_false,
    List.filter_true]
  have place : (loadOp n x).buf = n.toNat := rfl
  rw [place, spills]
  change (if (lanes (active s)).isEmpty then afterPark (loaded s g.toNat n.toNat run spill)
    else afterPark (launchOp [.g g.toNat] [] ((lanes (active s)).map fun l => (g.toNat, l, imageOf (imagesRead s n.toNat run).1 l))
      (loaded s g.toNat n.toNat run spill))) = _
  split
  · have none : active (loaded s g.toNat n.toNat run spill) = 0 := same.active.trans (lanes_eq_nil (List.isEmpty_iff.1 ‹_›))
    rw [launchOp, if_pos none]
    exact afterPark_of_act (same.act.trans he)
  · obtain ⟨e', he'⟩ := launchOp_act (same.act.trans he) [.g g.toNat] []
      ((lanes (active s)).map fun l => (g.toNat, l, imageOf (imagesRead s n.toNat run).1 l)) []
    exact afterPark_of_act he'

end

theorem imageWords : Sys2Proof.Claims.imageWords := by
  intro s bt g n x run spill ls pl o oL s' as pieces spills bytes
  refine ⟨fun hr fine go hs meets filled => ?_, fun hr fine go hs meets filled => ?_⟩
  · have ends := saved_accessed s g.toNat n.toNat x.toNat run
    refine ⟨csave_completes hr hs meets fine go filled, ends.issuer, fun a free out => ends.home a ?_⟩
    rintro (flying | inside)
    · exact Bool.false_ne_true (free.symm.trans flying)
    · exact out inside
  · have ends := loaded_accessed s g.toNat n.toNat run spill
    refine ⟨cload_completes hr hs meets fine go filled, ends.issuer, fun a free out => ends.home a ?_⟩
    rintro (flying | ⟨p, hp, inside⟩)
    · exact Bool.false_ne_true (free.symm.trans flying)
    · exact out p hp inside

theorem mixtureAndImageWords : Sys2Proof.Claims.mixtureAndImageWords :=
  ⟨mixtureWords, imageWords, lobeParameters, imagesReadBack, frameValues, mixtureValues, glossLobes, clearLobes, sheenAndNetLobes⟩

/-- Settles O36. The words end by writing closures, by launching results or by storing images, over a state that comes from theirs by accesses of the
issuer: spills and reads change only the homes of their own bytes and of what was in flight. The values are those of the model's sequences, with the
folds of networks and mixtures written out; an image's words are read back one by one. -/
theorem closureAndMixtureWords : Obligations.ClosureAndMixtureWords := ⟨closureWords, mixtureAndImageWords⟩

end Sys2Proof.Machine

/-! ### O53: the front end's copies of the translations that a `MAP` changes -/

namespace Sys2Proof.Machine

section

theorem setEvt_grids (i : Nat) (s : State) : (setEvt i s).grids = s.grids := by
  unfold setEvt
  dsimp only
  split_ifs <;> rfl

theorem complete_grids (status len : Nat) (s : State) : (complete status len s).grids = s.grids := setEvt_grids 0 _

theorem grids_of_ends {i : Instr} {s t u : State} {r : List Byte} (ends : Ends i s u r) (runs : exec i s = .next t) : t.grids = u.grids := by
  rw [← Host.Outcome.next.inj (ends.symm.trans runs)]
  exact complete_grids 0 r.length (putPay r u)

/-- The context of the command. -/
def mappedCtx : Context := { id := 1, resident := true }

/-- A grid of the context, whose completion record lies in page 0, as the front end translated it at admission (R254). -/
def mappedGrid : Grid := { uid := 3, ctx := 1, complTlb := some { core := 0, ctx := 1, va := 0, size := 0, pa := 0, perm := 15 } }

/-- The host asks for `MAP` of the 64 KiB from address 0 on in context 1. -/
def mapOfPage0 : State :=
  { started := true, ctxs := [mappedCtx], grids := [mappedGrid], mbox := { go := true, code := 0x10, args := [(0, 1), (18, 1)] } }

/-- The command's effect on page 0 (R308). -/
def page0Changed : State := mappingChanged 1 0 65536 mapOfPage0

theorem mapOfPage0_ends : Ends .map mapOfPage0 page0Changed [] := by rfl

theorem page0Changed_grids : page0Changed.grids = [{ mappedGrid with complTlb := none }] := by decide +kernel

theorem not_contextCommands : ¬ Sys2Proof.Claims.contextCommands := by
  intro h
  obtain ⟨-, -, -, -, -, map, -⟩ := h mapOfPage0 mappedCtx (0, 0) 0
  obtain ⟨-, inside⟩ := map ⟨⟨rfl, rfl, rfl⟩, rfl⟩ (by decide)
  obtain ⟨u, ends, -, -, -, kept, -⟩ := inside (by decide)
  have grids : (complete 0 0 (putPay [] page0Changed)).grids = mapOfPage0.grids := (grids_of_ends ends mapOfPage0_ends).trans kept
  rw [complete_grids] at grids
  exact absurd (page0Changed_grids.symm.trans grids) (by decide)

end

/-- Refutes O53: the claims of `MAP` and `UNMAP` have every grid stay as it is. The effect of `TLBI` also takes the front end's copies of the
range's translations (R308), so that a grid whose completion record lies in the range has none afterwards. -/
theorem not_contextAndQueueCommands : ¬ Obligations.ContextAndQueueCommands := fun ⟨contexts, _⟩ => not_contextCommands contexts

end Sys2Proof.Machine

/-! ### O43: a `SPAWN` that ends its context -/

namespace Sys2Proof.Machine

section

/-- The front end takes up the record of a `SPAWN` (R298). -/
theorem exec_launchAdmit_spawn {s : State} {g : Group} {x : Context} {n va : Nat} {copied : Option (List Byte)} (started : s.started = true)
    (full : s.minimal = false) (found : findGroup n s = some g) (record : g.spawn = some (va, copied)) (served : servedCtx s g.ctx = some x)
    (running : g.stop = .running) (waits : g.stall = .spawn) : exec (.launchAdmit true n) s = .next (admitSpawn x g va copied s) := by
  change execLaunchAdmit true n s = _
  simp only [execLaunchAdmit, started, full, found, record, served, running, waits, Bool.not_true, Bool.or_self, Bool.false_eq_true, and_self,
    if_true, if_false]

/-- A launch record (R251): one workgroup of eight lanes runs the code at 0x1000, with its completion record at 0x3000. -/
def childRecord : List Byte :=
  toBytes 8 0x1000 ++ [1, 1, 1].flatMap (toBytes 4) ++ [8, 1, 1].flatMap (toBytes 2) ++ List.replicate 30 0 ++ toBytes 8 0x3000
    ++ List.replicate 64 0

/-- The header of a code object of one word (R50): feature bit 0, and `VENTRY` at the word. -/
def childHeader : List Byte :=
  toBytes 4 0x4D485231 ++ [0, 1, 0, 0, 0, 1, 0x100, 0, 8, 0].flatMap (toBytes 4) ++ toBytes 4 0x0100 ++ List.replicate 168 0
    ++ toBytes 8 1 ++ toBytes 4 1 ++ List.replicate 28 0

/-- A context without a handler. -/
def bareCtx : Context := { id := 1, resident := true, windows := 1024, walkerVa := 4096 }

/-- A group waits at `SPAWN` for the front end, which has copied its record; it is to stop after the word (R328). -/
def steppedSpawn : Group :=
  { uid := 9, ctx := 1, wg := 2, live := 0xFF, hstep := true, stall := .spawn, spawn := some (0, some childRecord) }

/-- The group runs in the only grid, over the code object of its child. -/
def spawning : State :=
  { started := true, ctxs := [bareCtx], grp := steppedSpawn, wgs := [{ uid := 2, grid := 3, ctx := 1 }], grids := [{ uid := 3, ctx := 1 }]
    nextId := 20, tlb := [{ core := 0, ctx := 1, va := 0, size := 0, pa := 0, perm := 15 }]
    hbm := sputs unwritten 0x1000 (childHeader ++ toBytes 4 0x00007FB8) [] }

/-- The record passes its checks. -/
theorem spawning_good : checkLaunch (updGroup 9 (fun h => { h with spawn := some (0, some childRecord) }) spawning) bareCtx childRecord
    = .good (launchOf childRecord) (codeOf 0x1000 childHeader) := by decide +kernel

/-- The state once the child is admitted and the word is complete. -/
def spawnEnded : State := admitSpawn bareCtx steppedSpawn 0 (some childRecord) spawning

theorem spawning_admits : exec (.launchAdmit true 9) spawning = .next spawnEnded :=
  exec_launchAdmit_spawn rfl rfl rfl rfl rfl rfl rfl

/-- `SINGLE_STEP` has no handler, and the context has ended through the pocket. -/
theorem spawnEnded_grids : spawnEnded.grids = [] := by decide +kernel

theorem not_frontEnd : ¬ Sys2Proof.Claims.frontEnd := by
  intro h
  obtain ⟨-, -, spawned⟩ := h spawning 0 0 { num := 0, ctx := 0, device := false } bareCtx childRecord
  obtain ⟨t, k, v, admits, added, -⟩ := spawned steppedSpawn 0 _ _ { uid := 2, grid := 3, ctx := 1 } { uid := 3, ctx := 1 } rfl rfl rfl rfl rfl
    rfl rfl rfl rfl spawning_good (by decide)
  have same : spawnEnded = t := Host.Outcome.next.inj (spawning_admits.symm.trans admits)
  rw [← same, spawnEnded_grids] at added
  exact List.append_ne_nil_of_right_ne_nil _ (List.cons_ne_nil k []) added.symm

end

/-- Refutes O43: the claim of `SPAWN` has the admitted child stand among the grids, and asks nothing of the word's own step. A group that is to
stop after the word takes `SINGLE_STEP` as it completes (R328), and without a handler that ends the context with its grids (R324, R339). -/
theorem not_launchesAreAdmittedAndTailored : ¬ Obligations.LaunchesAreAdmittedAndTailored := fun ⟨frontEnd, _⟩ => not_frontEnd frontEnd

end Sys2Proof.Machine

/-! ### O20: where an access lies, and the traps of a memory word (R213, R214, R224) -/

namespace Sys2Proof.Machine

section

variable {r : BufRec} {size l : Nat} {imm : Int} {x : Word}

theorem BufRec.limit_eq (r : BufRec) : r.limit = if r.stride = 0 then r.extent * 2 ^ r.elem else r.extent * r.stride := ite_not ..

/-- The offset of a lane's access (R213). -/
theorem accOf_off (r : BufRec) (size : Nat) (imm : Int) (l : Nat) (x : Word) :
    (accOf r size imm l x).off = (if r.stride = 0 then (x.toNat : Int) else x.toNat * r.stride) + imm := by
  unfold accOf
  by_cases flat : r.stride = 0
  · simp [flat]
  · simp [flat]

theorem accOf_inb (r : BufRec) (size : Nat) (imm : Int) (l : Nat) (x : Word) :
    (accOf r size imm l x).inb = true ↔ 0 ≤ (accOf r size imm l x).off ∧ (accOf r size imm l x).off + size ≤ r.limit := by
  simp [accOf]

/-- An offset that is not negative is swizzled and added to the base (R213, R214). -/
theorem accOf_va (h : 0 ≤ (accOf r size imm l x).off) :
    (accOf r size imm l x).va = r.base + swizzle r.swz (accOf r size imm l x).off.toNat := if_pos h

theorem accessBounds : Claims.accessBounds := by
  intro r size imm l x a off limit
  have hoff : a.off = off := accOf_off r size imm l x
  have hlimit : r.limit = limit := r.limit_eq
  have address : 0 ≤ off → a.va = r.base + swizzle r.swz off.toNat := by
    rw [← hoff]
    exact accOf_va
  refine ⟨rfl, hoff, ?_, fun low flat => ?_, fun low swizzled => ?_⟩
  · rw [← hoff, ← hlimit]
    exact accOf_inb r size imm l x
  · rw [address low, swizzle, if_pos flat, Nat.cast_add, Int.toNat_of_nonneg low]
  · rw [address low, swizzle, if_neg swizzled]

section

variable {s : State} {o : MemOp} {ls : List Nat} {t : TrapReq}

/-- A trap that does not depend on translation goes before it. -/
theorem memCheck_trap (h : memTraps s o ls (memAccs s o ls) = some t) : memCheck s o ls = .trap t := by
  unfold memCheck
  dsimp only
  rw [h]

theorem memCheck_translates (h : memTraps s o ls (memAccs s o ls) = none) :
    memCheck s o ls = memTrans s o ((memAccs s o ls).filter fun a => a.inb) := by
  unfold memCheck
  dsimp only
  rw [h]

end

theorem memoryTraps : Claims.memoryTraps := by
  intro s o ls as bad oob fixed
  have order : o.det = none → memTraps s o ls as =
      if !bad.isEmpty then some (accTrap cMisaligned bad (fun a => a.va) 0)
      else if !oob.isEmpty then some (accTrap cBounds oob (fun a => (BitVec.ofInt 64 a.off).toNat) 0)
      else if fixed then some (accTrap cProtection as (fun a => a.va) 0)
      else none := by
    intro det
    unfold memTraps
    rw [det]
  refine ⟨fun reason det => memCheck_trap ?_, fun det found => memCheck_trap ?_, fun det aligned found => memCheck_trap ?_,
    fun det aligned inside readOnly => memCheck_trap ?_, fun det aligned inside writable => memCheck_translates ?_⟩
  · unfold memTraps
    rw [det]
  · rw [order det]
    simp [found]
  · rw [order det]
    simp [aligned, found]
  · rw [order det]
    simp [aligned, inside, readOnly]
  · rw [order det]
    simp [aligned, inside, writable]

end

/-- Settles O20: the parts of an access are read off its definition, and the traps are the branches of `memTraps`. -/
theorem accessesAreCheckedInOrder : Obligations.AccessesAreCheckedInOrder := ⟨accessBounds, memoryTraps⟩

end Sys2Proof.Machine

/-! ### O21: load words (R199, R220, R225, R364) -/

namespace Sys2Proof.Machine

section

variable {D : Nat → Prop} {s : State} {pl : Place} {scope evc size d w lane : Nat} {e : Extend} {f : List Byte → List Word}
  {run : List (Access × Nat)} {ws : List Word}

/-- The loads of the lanes, one after another. -/
theorem loadRun_accessed (run : List (Access × Nat)) (h : Within D s) : Accessed D s (loadRun pl scope evc size d f run s).2 := by
  induction run generalizing s with
  | nil => exact .refl h
  | cons p run ih =>
    have one : Accessed D s (laneLoad pl scope evc p.1.lane p.2 size s).2 := loadAt_accessed h
    exact one.trans (ih one.flight)

theorem laneWrites_eq_nil (h : laneWrites d lane ws = []) : ws = [] := by
  cases ws with
  | nil => rfl
  | cons w ws => exact absurd h (laneWrites_ne_nil d lane w ws)

theorem extended_ne_nil (h : e = .words → 4 ≤ size) (bs : List Byte) : extended e size bs ≠ [] := by
  cases e with
  | words =>
    have positive : size / 4 = size / 4 - 1 + 1 := by have := h rfl; omega
    unfold extended
    rw [positive]
    exact List.cons_ne_nil _ _
  | zero => exact List.cons_ne_nil _ _
  | sign => exact List.cons_ne_nil _ _

theorem loadRun_eq_nil (hf : ∀ bs, f bs ≠ []) (h : (loadRun pl scope evc size d f run s).1 = []) : run = [] := by
  cases run with
  | nil => rfl
  | cons p run =>
    obtain ⟨none, -⟩ := List.append_eq_nil_iff.1 h
    exact absurd (laneWrites_eq_nil none) (hf _)

end

section

variable {s : State} {n : BitVec 5} {d x : BitVec 8} {size w : Nat} {e : Extend} {run : List (Access × Nat)}

/-- The loads of the lanes that are performed at once. -/
def loadsNow (s : State) (n : BitVec 5) (d : BitVec 8) (size : Nat) (e : Extend) (run : List (Access × Nat)) : List RegWrite × State :=
  loadRun (placeOf s.grp n.toNat) (scopeOf s n.toNat) (evcOf s) size d.toNat (extended e size) (run.filter fun p => !defers s p.1.lane)
    (sampled (placeOf s.grp n.toNat) run s)

/-- Those that are performed later. -/
def loadsKept (s : State) (n : BitVec 5) (d : BitVec 8) (size : Nat) (e : Extend) (run : List (Access × Nat)) : List PLoad :=
  loadsLater (placeOf s.grp n.toNat) (scopeOf s n.toNat) (evcOf s) size d.toNat e (run.filter fun p => defers s p.1.lane)

/-- The zeros of the lanes out of bounds under CLAMP. -/
def clampedWrites (s : State) (d : BitVec 8) (w : Nat) (run : List (Access × Nat)) : List RegWrite :=
  ((lanes (active s)).filter fun l => !(run.any fun p => decide (p.1.lane = l))).flatMap fun l => laneWrites d.toNat l (List.replicate w 0)

/-- The state after a load word's effect. -/
def loadEffect (s : State) (n : BitVec 5) (d : BitVec 8) (size w : Nat) (e : Extend) (run : List (Access × Nat)) : State :=
  launchOp (plainRegs w d.toNat) ((loadsNow s n d size e run).1 ++ clampedWrites s d w run) [] (loadsNow s n d size e run).2
    (loadsKept s n d size e run)

theorem loadsNow_accessed (s : State) (n : BitVec 5) (d : BitVec 8) (size : Nat) (e : Extend) (run : List (Access × Nat)) :
    Accessed (fun a => inFlight s a = true) s (loadsNow s n d size e run).2 := by
  have start := sampled_accessed (placeOf s.grp n.toNat) run (within_inFlight s)
  exact start.trans (loadRun_accessed _ start.flight)

theorem loadsNow_deferred (h : ∀ p ∈ run, defers s p.1.lane = true) : loadsNow s n d size e run = ([], sampled (placeOf s.grp n.toNat) run s) := by
  have none : (run.filter fun p => !defers s p.1.lane) = [] := List.filter_eq_nil_iff.2 fun p hp => by simp [h p hp]
  rw [loadsNow, none]
  rfl

/-- Each active lane of a load has a write or a load to be performed. -/
theorem load_lane_waits (he : e = .words → 4 ≤ size) (hw : 0 < w) (now : (loadsNow s n d size e run).1 = []) (zeros : clampedWrites s d w run = [])
    (later : loadsKept s n d size e run = []) : active s = 0 := by
  have noneNow := loadRun_eq_nil (extended_ne_nil he) now
  have noneLater := List.map_eq_nil_iff.1 later
  obtain rfl : run = [] := List.eq_nil_iff_forall_not_mem.2 fun p hp => by
    have notNow := List.filter_eq_nil_iff.1 noneNow p hp
    have notLater := List.filter_eq_nil_iff.1 noneLater p hp
    simp [notLater] at notNow
  refine lanes_eq_nil (List.eq_nil_iff_forall_not_mem.2 fun l hl => ?_)
  have none := laneWrites_eq_nil (List.flatMap_eq_nil_iff.1 zeros l (by simpa using hl))
  exact hw.ne' ((List.replicate_eq_nil_iff 0).1 none)

theorem loadWord_proceeds (hr : ready (memNeed s (some (d.toNat, w)) x.toNat true) s) (hp : proceeds s (wordAccess s n x size 0 false none [0]) run)
    (he : e = .words → 4 ≤ size) (hw : 0 < w) : loadWord n d x size w e s = finish (loadEffect s n d size w e run) := by
  have same := (loadsNow_accessed s n d size e run).issuer
  obtain ⟨p, act⟩ := act_of_ready hr
  unfold loadWord
  rw [word_run _ hr]
  refine (memWord_of_proceeds hp _).trans ?_
  have clamps : (clampLanes s run []).flatMap (fun l => laneWrites d.toNat l (List.replicate w 0)) = clampedWrites s d w run := by
    simp only [clampLanes, List.any_nil, Bool.not_false, Bool.and_true]
    rfl
  dsimp only
  rw [clamps]
  exact loadFinish_launches (same.act.trans act) fun now zeros later => same.active.trans (load_lane_waits he hw now zeros later)

/-- A load whose lanes all proceed is in flight after its word. -/
theorem loadWord_completes {i : Instr} (exec_eq : exec i s = .next (loadWord n d x size w e s))
    (hr : ready (memNeed s (some (d.toNat, w)) x.toNat true) s) (hp : proceeds s (wordAccess s n x size 0 false none [0]) run)
    (he : e = .words → 4 ≤ size) (hw : 0 < w) : ∃ t, exec i s = .next (thenStep s t) ∧ Completed (loadEffect s n d size w e run) t := by
  have same := (loadsNow_accessed s n d size e run).issuer
  refine completes_of_finish (exec_eq.trans (congrArg _ (loadWord_proceeds hr hp he hw))) ?_ ?_ ?_
  · exact (launchOp_quiet ..).trans same.quiet
  · exact (launchOp_curPc ..).trans same.curPc
  · exact (launchOp_active ..).trans same.active

theorem defers_iff (s : State) (l : Nat) :
    defers s l = true ↔ (ctxOf s).det = false ∧ s.grp.kind ≠ .bobbin ∧ specTask s s.grp.uid l = none := by
  simp [defers, and_assoc]

end

theorem szWords_pos (z : BitVec 2) : 0 < szWords z := by
  unfold szWords
  split_ifs <;> decide

theorem loadWords_complete : Claims.loadWords := by
  intro s bt n d x z run loads
  have all : ∀ i size w e, exec i s = .next (loadWord n d x size w e s) → (e = .words → 4 ≤ size) → 0 < w → loads i size w e := by
    intro i size w e exec_eq he hw hr hp pl later now kept l clamped zs
    have ends := loadsNow_accessed s n d size e run
    refine ⟨loadWord_completes exec_eq hr hp he hw, defers_iff s, fun deferred => ?_, ends.issuer, fun a free => ends.home a ?_⟩
    · exact loadsNow_deferred fun p hp => (defers_iff s _).2 (deferred p hp)
    · rw [free]
      exact Bool.false_ne_true
  have extending : (if z = 1 then Extend.sign else .zero) ≠ .words := by
    split_ifs <;> decide
  exact ⟨all _ _ _ _ rfl (fun _ => Nat.le_mul_of_pos_right 4 (szWords_pos z)) (szWords_pos z),
    all _ _ _ _ rfl (fun h => absurd h extending) one_pos, all _ _ _ _ rfl (fun h => absurd h extending) one_pos⟩

end Sys2Proof.Machine

/-! ### O21: the bytes of a load as register words (R225) -/

namespace Sys2Proof.Machine

section

theorem ofBytes_two (b0 b1 : Byte) : ofBytes [b0, b1] = (b1 ++ b0).toNat := by
  rw [BitVec.toNat_append, ← Nat.shiftLeft_add_eq_or_of_lt b0.isLt, Nat.shiftLeft_eq]
  simp only [ofBytes]
  omega

theorem signed_of_vec {k : Nat} (hk : 0 < k) (v : BitVec k) : BitVec.ofInt 32 (signedOf k v.toNat) = v.signExtend 32 := by
  rw [signed_of_bits hk, BitVec.ofNat_toNat, BitVec.setWidth_eq]
  rfl

theorem toWords_succ (b0 b1 b2 b3 : Byte) (bs : List Byte) (n : Nat) :
    toWords (n + 1) ([b0, b1, b2, b3] ++ bs) = (b3 ++ b2 ++ b1 ++ b0) :: toWords n bs :=
  congrArg (· :: toWords n bs) (wordOf_four b0 b1 b2 b3)

theorem extended_words (n : Nat) (bs : List Byte) : extended .words (4 * n) bs = toWords n bs :=
  congrArg (toWords · bs) (Nat.mul_div_cancel_left n (by decide))

theorem loadedWords : Claims.loadedWords := by
  intro b0 b1 b2 b3
  refine ⟨?_, ?_, ?_, ?_, ?_, fun n bs => ?_⟩
  · exact toWords_succ b0 b1 b2 b3 [] 0
  · exact congrArg (fun v => [v]) (BitVec.ofNat_toNat 32 b0)
  · exact congrArg (fun v => [v]) (signed_of_vec (by decide) b0)
  · exact congrArg (fun v => [v]) ((congrArg _ (ofBytes_two b0 b1)).trans (BitVec.ofNat_toNat 32 _))
  · rw [← signed_of_vec (by decide), ← ofBytes_two]
    rfl
  · rw [extended_words, ← toWords_succ, show 4 + 4 * n = 4 * (n + 1) by omega, extended_words]

end

end Sys2Proof.Machine

/-! ### O21: loads where nothing is pending and no cache holds a line, and at a peer that has left (R217, R220, R317) -/

namespace Sys2Proof.Machine

/-- What no read of memory changes, where no cache has a dirty byte of its line. -/
def readFrame (s : State) : State := { s with members := [], free := 0, leases := [], caches := [] }

section

variable {s t : State} {a : Nat}

theorem grp_of_readFrame (h : readFrame t = readFrame s) : t.grp = s.grp := (congrArg State.grp h :)
theorem stores_of_readFrame (h : readFrame t = readFrame s) : t.stores = s.stores := (congrArg State.stores h :)
theorem homeByte_of_readFrame (h : readFrame t = readFrame s) (b : Nat) : homeByte t b = homeByte s b := (congrArg (homeByte · b) h :)

theorem readFrame_flitFrom (a : Nat) (s : State) : readFrame (flitFrom a s) = readFrame s := by
  unfold flitFrom
  split <;> rfl

theorem readFrame_grantLease (line : Nat) (s : State) : readFrame (grantLease line s).2 = readFrame s := by
  unfold grantLease
  split <;> rfl

theorem readFrame_putLine (c : CLine) (s : State) : readFrame (putLine c s) = readFrame s := by
  unfold putLine
  split <;> rfl

theorem readFrame_fillLine (lvl unit line expiry evc : Nat) (bytes : List Byte) (s : State) :
    readFrame (fillLine lvl unit line expiry evc bytes s) = readFrame s := readFrame_putLine _ s

theorem readFrame_keepLine (core line evc : Nat) (s : State) : readFrame (keepLine core line evc s) = readFrame s := by
  unfold keepLine
  split <;> rfl

theorem readFrame_readHome (core evc n : Nat) (lease : Bool) (caches : s.caches = []) :
    readFrame (readHome core lease evc a n s).2 = readFrame s := by
  unfold readHome
  dsimp only
  rw [writeBackAt_empty _ _ caches]
  split
  · have granted := (readFrame_grantLease (lineOf a) (flitFrom a s)).trans (readFrame_flitFrom a s)
    refine (readFrame_fillLine ..).trans ?_
    split
    · exact granted
    · exact (readFrame_fillLine ..).trans granted
  · exact readFrame_flitFrom a s

/-- A load finds no copy, and reads the home. -/
theorem readCopy_empty (core scope evc n : Nat) (caches : s.caches = []) :
    ∃ lease, readCopy core scope evc a n s = readHome core lease evc a n s := by
  have noCopy : ∀ lvl unit line, findLine lvl unit line s = none := fun lvl unit line => by rw [findLine, caches]; rfl
  have beyond : readL2 core evc a n s = readHome core true evc a n s := by
    unfold readL2
    simp only [noCopy]
  unfold readCopy
  split
  · exact ⟨false, rfl⟩
  · simp only [noCopy, beyond]
    exact ⟨true, ite_self _⟩

theorem loadBytes_home {uid lane : Nat} (core scope evc : Nat) {n : Nat} (stores : s.stores = []) (caches : s.caches = [])
    (plain : specTask s uid lane = none) (line : a % 128 + n ≤ 128) :
    (loadBytes uid lane core scope evc a n s).1 = homeBytes s a n ∧ readFrame (loadBytes uid lane core scope evc a n s).2 = readFrame s := by
  obtain ⟨lease, copy⟩ := readCopy_empty (a := a) core scope evc n caches
  have load : loadBytes uid lane core scope evc a n s
      = ((readHome core lease evc a n s).1, keepLine core (lineOf a) evc (readHome core lease evc a n s).2) := by
    unfold loadBytes
    dsimp only
    rw [drainOwn_empty _ _ _ stores, plain]
    dsimp only
    rw [readMem, copy]
  rw [load]
  exact ⟨(readHome_bytes core evc n lease caches).trans (homeBytes_ofLine s line),
    (readFrame_keepLine ..).trans (readFrame_readHome core evc n lease caches)⟩

theorem length_toWords (n : Nat) (bs : List Byte) : (toWords n bs).length = n := by
  induction n generalizing bs with
  | zero => rfl
  | succ n ih => exact congrArg Nat.succ (ih _)

end

section

variable {s : State} {g : Group} {p : PLoad}

theorem performLoad_plain (mem : p.place = .mem) (how : p.how = .plain) (found : p.lost = false) (here : peerGone s p.addr = false) :
    (performLoad g p s).1 = loadWrites p.reg p.lane (extended p.ext p.size (loadBytes g.uid p.lane g.core p.scope p.evc p.addr p.size s).1) := by
  have reach : ¬(p.place = .mem ∧ (p.lost || peerGone s p.addr) = true) := by simp [found, here]
  rw [performLoad, if_neg reach]
  simp only [loadWords, how, placeLoad, mem]

/-- A load at a peer that has left the domain (R317). -/
theorem performLoad_gone (mem : p.place = .mem) (gone : p.lost = true ∨ peerGone s p.addr = true) (words : p.ext = .words) :
    performLoad g p s = (loadWrites p.reg p.lane (List.replicate (p.size / 4) 0xFFFFFFFF), s) := by
  have ones : (toWords (p.size / 4) []).map (fun _ => BitVec.allOnes 32) = List.replicate (p.size / 4) 0xFFFFFFFF := by
    rw [List.map_const', length_toWords]
    rfl
  rw [performLoad, if_pos ⟨mem, by simpa using gone⟩, words]
  exact congrArg (fun ws => (loadWrites p.reg p.lane ws, s)) ones

end

theorem loadReadsHome : Claims.loadReadsHome := by
  intro s uid lane core scope evc a n g p
  refine ⟨fun stores caches plain line => ?_, fun mem how found here stores caches plain line => ?_,
    fun mem gone words _ => performLoad_gone mem gone words⟩
  · obtain ⟨read, frame⟩ := loadBytes_home core scope evc stores caches plain line
    exact ⟨read, homeByte_of_readFrame frame, grp_of_readFrame frame, (stores_of_readFrame frame).trans stores⟩
  · obtain ⟨read, -⟩ := loadBytes_home g.core p.scope p.evc stores caches plain line
    rw [performLoad_plain mem how found here, read]

/-- Settles O21: the loads that are performed at once leave the issuer and the homes beside the bytes in flight, and the others are kept with the
operation; where nothing is pending and nothing is cached, a load reads its home. -/
theorem loadsComplete : Obligations.LoadsComplete := ⟨loadWords_complete, loadedWords, loadReadsHome⟩

end Sys2Proof.Machine

/-! ### O28: a copy from a read-only record -/

namespace Sys2Proof.Machine

section

/-- A lane stands at `COPY` of no byte from `B1`, which is read-only, to `B2`. -/
def readOnlySource : State :=
  { ctxs := [{ id := 1, handlerVa := some 0 }]
    grp := { uid := 3, ctx := 1, code := { features := 1 }, b := [(1, 1 <<< 63)]
             act := some { pc := 4, mask := 1, pos := some { hdr := 0, len := 2, issued := 0, seta := 15, setb := 15, pri := 0 } } } }

theorem readOnlySource_ready :
    ready { vectorNeed [.s 0, .s 1, .s 2, .s 3] false with hints := { evc := true, scp := true } } readOnlySource := by unfold ready; decide

/-- `copyTrap` takes the destination first: with its records exchanged, the copy would write to the read-only one (R232). -/
theorem copyTrap_exchanged : copyTrap readOnlySource 1 2 0 0 0 = some { cause := cProtection, mask := 1 } := by decide

/-- The word completes, with 0 in its token. -/
theorem readOnlySource_copies : exec (.copy 0 1 2 3 0) readOnlySource = .next (finish (readOnlySource.setG (setS 3 0))) := by rfl

theorem readOnlySource_traps : (finish (readOnlySource.setG (setS 3 0))).traps = [] := by decide

/-- `PROTECTION` would wait for the handler slot. -/
theorem protection_traps : (takeTrap { cause := cProtection, mask := 1 } readOnlySource).traps = [(0, 3)] := by decide

theorem not_copyWords : ¬ Claims.copyWords := by
  intro h
  obtain ⟨-, traps, -⟩ := h readOnlySource 0 1 2 3 0 0 0 0 0
  have trapped := traps readOnlySource_ready (by decide) (by decide) _ copyTrap_exchanged
  have same := Host.Outcome.next.inj (readOnlySource_copies.symm.trans trapped)
  have none := protection_traps
  rw [← same, readOnlySource_traps] at none
  exact absurd none (by decide)

end

/-- Refutes O28: the claim of `COPY` gives its source and its destination to `copyTrap` in exchanged order, so that a copy from a read-only record
would trap `PROTECTION`. Only a read-only destination does (R224, R232): the copy of no byte from a read-only record completes. -/
theorem not_copyFenceAndAppendComplete : ¬ Obligations.CopyFenceAndAppendComplete := fun ⟨copies, _⟩ => not_copyWords copies

end Sys2Proof.Machine

/-! ### O59: every step keeps the memories in canonical form -/

namespace Sys2Proof.Machine

section

/-- Every outcome of a turn has its memories in canonical form. -/
def CanonAfter (r : Host.Outcome State Fault Refusal) : Prop := ∀ t, r = .next t → Memory.wf t = true

/-- What a mailbox command comes to has its memories in canonical form. -/
inductive CanonEnd : CmdEnd → Prop
  | done {s r} (h : Memory.wf s = true) : CanonEnd (.done s r)
  | buffer {s n} (h : Memory.wf s = true) : CanonEnd (.buffer s n)
  | wait {s} (h : Memory.wf s = true) : CanonEnd (.wait s)
  | fail {n} : CanonEnd (.fail n)
  | short {n} : CanonEnd (.short n)
  | hold : CanonEnd .hold

/-- A change of the state that keeps the memories in canonical form. -/
def KeepsForm (f : State → State) : Prop := ∀ s, Memory.wf s = true → Memory.wf (f s) = true

/-- The state in which an issue slot ends, or in which its word runs. -/
def Issue.state : Issue → State
  | .word _ s => s
  | .illegal _ s => s
  | .nothing _ _ s => s
  | .idle s => s

variable {s t : State}

theorem next_wf (h : Memory.wf t = true) : CanonAfter (.next t) := by
  intro u hu
  cases hu
  exact h

/-- Both ways of a choice keep the form. -/
theorem ite_wf {c : Prop} [Decidable c] {a b : State} (ha : Memory.wf a = true) (hb : Memory.wf b = true) :
    Memory.wf (if c then a else b) = true := by
  split
  · exact ha
  · exact hb

/-- Only the three memories matter. -/
theorem with_wf {u : State} (h : Memory.wf u = true) (hm : (t.hbm, t.host, t.peer) = (u.hbm, u.host, u.peer)) : Memory.wf t = true := by
  simp only [Prod.mk.injEq] at hm
  obtain ⟨hbm, host, peer⟩ := hm
  rw [Memory.wf_of_eq hbm host peer]
  exact h

/-- The state of a pair that is known. -/
theorem snd_wf {α : Type} {p : α × State} {a : α} (h : Memory.wf p.2 = true) (hp : p = (a, t)) : Memory.wf t = true := by
  subst hp
  exact h

/-! #### The parts of the state, and the device's own accesses to memory -/

theorem setG_wf {f} (h : Memory.wf s = true) : Memory.wf (State.setG s f) = true := h

theorem loadGroup_wf {uid} (h : Memory.wf s = true) : Memory.wf (loadGroup uid s) = true := by
  unfold loadGroup
  split
  · exact h
  · split
    · exact h
    · exact h

theorem within_wf {uid f} (hf : KeepsForm f) (h : Memory.wf s = true) : Memory.wf (within uid f s) = true :=
  loadGroup_wf (hf _ (loadGroup_wf h))

theorem mapGroups_wf {f} (h : Memory.wf s = true) : Memory.wf (mapGroups f s) = true := h

theorem dropGroups_wf {p} (h : Memory.wf s = true) : Memory.wf (dropGroups p s) = true := h

theorem updWg_wf {uid f} (h : Memory.wf s = true) : Memory.wf (updWg uid f s) = true := h

theorem updCtx_wf {id f} (h : Memory.wf s = true) : Memory.wf (updCtx id f s) = true := h

theorem updGrid_wf {uid f} (h : Memory.wf s = true) : Memory.wf (updGrid uid f s) = true := h

theorem updQueue_wf {n f} (h : Memory.wf s = true) : Memory.wf (updQueue n f s) = true := h

theorem fresh_wf (h : Memory.wf s = true) : Memory.wf (fresh s).2 = true := h

theorem drawFree_wf (h : Memory.wf s = true) : Memory.wf (drawFree s).2 = true := h

theorem forgetWalks_wf {ctx} (h : Memory.wf s = true) : Memory.wf (forgetWalks ctx s) = true := h

theorem askWalk_wf {core ctx grp va kind} (h : Memory.wf s = true) : Memory.wf (askWalk core ctx grp va kind s) = true := ite_wf h h

theorem reportPage_wf {ctx va kind} (h : Memory.wf s = true) : Memory.wf (reportPage ctx va kind s) = true := by
  unfold reportPage
  dsimp only
  split
  · exact h
  · exact ite_wf h h

theorem agentFlits_wf {core ctx kind va n} (h : Memory.wf s = true) : Memory.wf (agentFlits core ctx kind va n s) = true := by
  induction n generalizing va s with
  | zero => exact h
  | succ n ih =>
    unfold agentFlits
    split
    · exact ih ((flitFrom_wf _ _).trans h)
    · exact h

theorem agentWait_wf {core ctx va kind t} (h : Memory.wf s = true) : Memory.wf (agentWait core ctx va kind t s) = true := by
  unfold agentWait
  split
  · split
    · exact h
    · exact askWalk_wf h
  · exact reportPage_wf h
  · exact h

/-! #### Frames that the presentation engine keeps -/

theorem ringFlits_wf {f slots done} (h : Memory.wf s = true) : Memory.wf (ringFlits f slots done s) = true :=
  foldl_wf _ (fun _ _ hs => agentFlits_wf hs) _ _ (foldl_wf _ (fun _ _ hs => agentFlits_wf hs) _ _ h)

theorem setPresent_wf {f} (h : Memory.wf s = true) : Memory.wf (setPresent f s) = true := h

theorem noteKeeping_wf {ctx} (h : Memory.wf s = true) : Memory.wf (noteKeeping ctx s) = true := ite_wf (setPresent_wf h) h

theorem keepFrames_wf {ctx gone} (h : Memory.wf s = true) : Memory.wf (keepFrames ctx gone s) = true := by
  unfold keepFrames
  dsimp only
  split
  · exact h
  · exact setPresent_wf (ite_wf (ringFlits_wf h) h)

/-! #### Registers, barriers and waiting children -/

theorem barrierStep_wf {wg id} (h : Memory.wf s = true) : Memory.wf (barrierStep wg id s) = true := ite_wf (mapGroups_wf h) h

theorem barrierCheck_wf {wg} (h : Memory.wf s = true) : Memory.wf (barrierCheck wg s) = true :=
  foldl_wf _ (fun _ _ hs => barrierStep_wf hs) _ _ h

theorem childCheck_wf {wg} (h : Memory.wf s = true) : Memory.wf (childCheck wg s) = true := by
  unfold childCheck
  split
  · exact h
  · exact ite_wf (mapGroups_wf h) h

/-! #### Write-backs, completion records and the slots of the pattern table -/

theorem writeBackAt_wf {core line} (h : Memory.wf s = true) : Memory.wf (writeBackAt core line s) = true := writeBackWhere_wf _ _ h

theorem writeCompletion_wf {core ctx compl status info gridId wgDone tstart tend} (h : Memory.wf s = true)
    (ht : writeCompletion core ctx compl status info gridId wgDone tstart tend s = .ok t) : Memory.wf t = true := by
  unfold writeCompletion at ht
  split at ht
  · cases ht
  · exact agentWrite_wf _ _ _ _ _ _ (agentWrite_wf _ _ _ _ _ _ h ‹_›) ht

theorem reenter_wf {e} (h : Memory.wf s = true) : Memory.wf (reenter s e) = true := ite_wf h h

theorem reenterAll_wf (h : Memory.wf s = true) : Memory.wf (reenterAll s) = true := foldl_wf _ (fun _ _ hs => reenter_wf hs) _ _ h

/-! #### Copies, tasks, and loads in flight -/

theorem dropLine_wf {lvl unit line} (h : Memory.wf s = true) : Memory.wf (dropLine lvl unit line s) = true := h

theorem dropCopies_wf {line} (h : Memory.wf s = true) : Memory.wf (dropCopies line s) = true := h

theorem noteReads_wf {uid lane as} (h : Memory.wf s = true) : Memory.wf (noteReads uid lane as s) = true := (updTask_wf _ _ _ _).trans h

theorem performAll_wf {uid} (h : Memory.wf s = true) : Memory.wf (performAll uid s) = true := performLoads_wf _ _ _ h

theorem performLanes_wf {uid m} (h : Memory.wf s = true) : Memory.wf (performLanes uid m s) = true := performLoads_wf _ _ _ h

theorem performAt_wf {uid lane pl line} (h : Memory.wf s = true) : Memory.wf
    (performAt uid lane pl line s) = true := performLoads_wf _ _ _ h

theorem performNth_wf {uid n q} (h : Memory.wf s = true) : Memory.wf (performNth uid n q s) = true := performLoads_wf _ _ _ h

theorem performGroups_wf {p} (h : Memory.wf s = true) : Memory.wf (performGroups p s) = true :=
  foldl_wf _ (fun _ _ hs => ite_wf (performAll_wf hs) hs) _ _ h

theorem acquireWg_wf {wg} (h : Memory.wf s = true) : Memory.wf (acquireWg wg s) = true := performGroups_wf h

theorem childDone_wf {wg} (h : Memory.wf s = true) : Memory.wf (childDone wg s) = true := by
  unfold childDone
  split
  · exact h
  · exact ite_wf (childCheck_wf (acquireWg_wf h)) h

/-! #### Tiles, accumulators and pattern-table entries -/

theorem putTile_wf {wg i t} (h : Memory.wf s = true) : Memory.wf (putTile wg i t s) = true := updWg_wf h

theorem putAcc_wf {wg i a} (h : Memory.wf s = true) : Memory.wf (putAcc wg i a s) = true := updWg_wf h

theorem enterEntry_wf {e} (h : Memory.wf s = true) : Memory.wf (enterEntry e s) = true := by
  unfold enterEntry
  dsimp only
  exact foldl_wf _ (fun _ _ hs => putTile_wf hs) _ _ h

theorem doPass_wf {e arow c} (h : Memory.wf s = true) : Memory.wf (doPass e arow c s) = true := putAcc_wf h

theorem entryEffect_wf {e} (h : Memory.wf s = true) : Memory.wf (entryEffect e s) = true := by
  unfold entryEffect
  dsimp only
  split
  · exact foldl_wf _ (fun _ _ hs => putAcc_wf hs) _ _ h
  · split
    · exact putTile_wf h
    · exact h
  · exact foldl_wf _ (fun _ _ hs => putAcc_wf hs) _ _ h
  · split
    · exact ite_wf (doPass_wf (ite_wf (doPass_wf h) h)) (ite_wf (doPass_wf h) h)
    · exact doPass_wf h

theorem releaseStep_wf {p} (h : Memory.wf s = true) : Memory.wf (releaseStep p s) = true := ite_wf (putTile_wf h) h

theorem releaseSteps_wf {wg} (h : Memory.wf s = true) : Memory.wf (releaseSteps wg s) = true :=
  foldl_wf _ (fun _ _ hs => releaseStep_wf hs) _ _ h

theorem markDone_wf {wg seq} (h : Memory.wf s = true) : Memory.wf (markDone wg seq s) = true := by
  unfold markDone
  split
  · exact h
  · exact (updGroup_wf _ _ _).trans h

theorem completeEntry_wf {e} (h : Memory.wf s = true) : Memory.wf (completeEntry e s) = true := by
  unfold completeEntry
  refine updCtx_wf (reenterAll_wf ?_)
  split
  · exact foldl_wf _ (fun _ _ hs => updWg_wf (updGrid_wf hs)) _ _ (releaseSteps_wf (releaseSteps_wf (foldl_wf _
        (fun _ _ hs => markDone_wf hs) _ _ (with_wf (entryEffect_wf h) rfl))))
  · exact releaseSteps_wf (releaseSteps_wf (foldl_wf _ (fun _ _ hs => markDone_wf hs) _ _ (with_wf (entryEffect_wf h) rfl)))

theorem begunWith_wf {f p} (hf : ∀ x0, KeepsForm (f x0)) (h : Memory.wf s = true) : Memory.wf (begunWith f p s) = true :=
  with_wf (foldl_wf _ (fun _ _ hs => ite_wf (hf _ _ hs) hs) _ _ h) rfl

/-! #### How work stops and a context ends -/

theorem unclaim_wf {g} (h : Memory.wf s = true) : Memory.wf (unclaim g s) = true := by
  unfold unclaim
  split
  · exact updWg_wf h
  · exact h

theorem passGwct_wf {p q} (h : Memory.wf s = true) : Memory.wf (passGwct p q s) = true := h

theorem stopWork_wf {f ctx} (hf : ∀ x0, KeepsForm (f x0)) (h : Memory.wf s = true) : Memory.wf (stopWork f ctx s) = true :=
  passGwct_wf (releaseAll_wf _ _ (begunWith_wf (fun _ _ hs1 => hf _ _ hs1) (mapGroups_wf (performGroups_wf (foldl_wf _
      (fun _ _ hs => unclaim_wf hs) _ _ h)))))

theorem withEntry_wf {core e f} (hf : ∀ {s t}, Memory.wf s = true → f s = .ok t → Memory.wf t = true) (h : Memory.wf s = true)
    (ht : withEntry core e f s = .ok t) : Memory.wf t = true := by
  unfold withEntry at ht
  split at ht
  · exact hf h ht
  · split at ht
    · rename_i hu
      cases ht
      exact (hf (by exact h) hu : Memory.wf _ = true)
    · cases ht

theorem writeDue_wf {core ctx l} (h : Memory.wf s = true) : Memory.wf (writeDue core ctx l s).2 = true := by
  induction l generalizing s with
  | nil => exact h
  | cons r rs ih =>
    unfold writeDue
    split
    · exact ih (withEntry_wf writeCompletion_wf h ‹_›)
    · exact ih (agentWait_wf h)
    · exact ih h

theorem freeContext_wf {id} (h : Memory.wf s = true) : Memory.wf (freeContext id s) = true := h

theorem dropContext_wf {id} (h : Memory.wf s = true) : Memory.wf (dropContext id s) = true := reenterAll_wf (freeContext_wf h)

theorem finishEnd_wf {id} (h : Memory.wf s = true) : Memory.wf (finishEnd id s) = true := by
  unfold finishEnd
  dsimp only
  split
  · exact h
  · split
    · exact agentWait_wf (updCtx_wf (writeDue_wf h))
    · split
      · exact dropContext_wf (keepFrames_wf (updCtx_wf (writeDue_wf h)))
      · exact updCtx_wf (writeDue_wf h)

theorem endWork_wf {x} (h : Memory.wf s = true) : Memory.wf (endWork x s) = true := updCtx_wf (ite_wf (noteKeeping_wf h) h)

theorem endContext_wf {id} (h : Memory.wf s = true) : Memory.wf (endContext id s) = true := by
  unfold endContext
  split
  · exact h
  · exact finishEnd_wf (endWork_wf (stopWork_wf (fun _ _ hs1 => completeEntry_wf hs1) h))

theorem endThroughPocket_wf {id chain} (h : Memory.wf s = true) : Memory.wf (endThroughPocket id chain s) = true := by
  have hs : Memory.wf (stopWork completeEntry id s) = true := stopWork_wf (fun _ _ hs => completeEntry_wf hs) h
  unfold endThroughPocket
  generalize stopWork completeEntry id s = u at hs
  split
  · exact h
  · split
    · exact dropContext_wf h
    · exact endContext_wf ((setEvt_wf _ _).trans hs)

/-! #### What every word shares: traps, stalls, parking, completion -/

theorem setAct_wf {f} (h : Memory.wf s = true) : Memory.wf (State.setAct s f) = true := setG_wf h

theorem setPos_wf {f} (h : Memory.wf s = true) : Memory.wf (State.setPos s f) = true := setAct_wf h

theorem nextTurn_wf {g} (h : Memory.wf s = true) : Memory.wf (nextTurn g s) = true := ite_wf (updWg_wf h) h

theorem endClause_wf (h : Memory.wf s = true) : Memory.wf (endClause s) = true := by
  unfold endClause
  dsimp only
  split
  · exact h
  · exact nextTurn_wf h

theorem advance_wf (h : Memory.wf s = true) : Memory.wf (advance s) = true := by
  unfold advance
  dsimp only
  split
  · exact h
  · split
    · exact setAct_wf h
    · exact ite_wf (endClause_wf (setG_wf h)) (setG_wf h)

theorem settle_wf (h : Memory.wf s = true) : Memory.wf (settle s) = true := setG_wf h

theorem stallOn_wf {why} (h : Memory.wf s = true) : Memory.wf (stallOn why s) = true := setG_wf h

theorem stopWith_wf {uid f} (h : Memory.wf s = true) : Memory.wf (stopWith uid f s) = true := (updGroup_wf _ _ _).trans (performAll_wf h)

theorem haltFor_wf {r g} (h : Memory.wf s = true) : Memory.wf (haltFor r g s) = true :=
  (setEvt_wf _ _).trans (updCtx_wf ((updGroup_wf _ _ _).trans h))

theorem deliver_wf {r g} (h : Memory.wf s = true) : Memory.wf (deliver r g s) = true := by
  unfold deliver
  dsimp only
  split
  · exact endThroughPocket_wf h
  · exact endThroughPocket_wf h
  · split
    · exact haltFor_wf h
    · split
      · exact endThroughPocket_wf ((updGroup_wf _ _ _).trans h)
      · exact with_wf ((updGroup_wf _ _ _).trans h) rfl

theorem parkTasks_wf {m} (h : Memory.wf s = true) : Memory.wf (parkTasks m s) = true := by
  unfold parkTasks
  dsimp only
  split
  · exact h
  · exact ite_wf h h

theorem oldestOnly_wf {m body} (hbody : KeepsForm body) (h : Memory.wf s = true) : Memory.wf (oldestOnly m body s) = true :=
  ite_wf (hbody _ h) (parkTasks_wf h)

theorem takeTrap_wf {t} (h : Memory.wf s = true) : Memory.wf (takeTrap t s) = true :=
  oldestOnly_wf (fun _ hs => deliver_wf (with_wf (performAll_wf hs) rfl)) h

theorem takeTrapAfter_wf {t pc} (h : Memory.wf s = true) : Memory.wf (takeTrapAfter t pc s) = true :=
  deliver_wf (with_wf (performAll_wf h) rfl)

theorem stepCheck_wf {pc m} (h : Memory.wf s = true) : Memory.wf (stepCheck pc m s) = true := by
  unfold stepCheck
  split
  · exact h
  · split
    · exact takeTrapAfter_wf (setG_wf h)
    · split
      · exact h
      · exact ite_wf (takeTrapAfter_wf (setG_wf h)) (setG_wf h)

theorem finish_wf (h : Memory.wf s = true) : Memory.wf (finish s) = true := stepCheck_wf (advance_wf (settle_wf h))

theorem word_wf {n body} (hbody : KeepsForm body) (h : Memory.wf s = true) : Memory.wf (word n body s) = true := by
  unfold word
  split
  · exact takeTrap_wf h
  · exact stallOn_wf h
  · exact hbody _ h

theorem trapOwn_wf {cause} (h : Memory.wf s = true) : Memory.wf (trapOwn cause s) = true := takeTrap_wf h

theorem pushH_wf {e} (h : Memory.wf s = true) : Memory.wf (pushH e s) = true := setPos_wf h

theorem raiseOp_wf {regs writes clos loads} (h : Memory.wf s = true) : Memory.wf (raiseOp regs writes clos loads s) = true := by
  unfold raiseOp
  dsimp only
  split
  · exact h
  · exact setPos_wf (setG_wf h)

theorem launchOp_wf {regs writes clos loads} (h : Memory.wf s = true) : Memory.wf (launchOp regs writes clos s loads) = true :=
  ite_wf h (raiseOp_wf h)

/-! #### Vector results -/

theorem writeResult_wf {d w f} (h : Memory.wf s = true) : Memory.wf (writeResult d w f s) = true := pushH_wf (setG_wf h)

theorem vecFixed_wf {n d dw f} (h : Memory.wf s = true) : Memory.wf (vecFixed n d dw f s) = true :=
  word_wf (fun _ hs => finish_wf (writeResult_wf hs)) h

theorem vecVar_wf {n d dw f} (h : Memory.wf s = true) : Memory.wf (vecVar n d dw f s) = true :=
  word_wf (fun _ hs => finish_wf (launchOp_wf hs)) h

theorem vec3_wf {rnd d a b f seed} (h : Memory.wf s = true) : Memory.wf (vec3 rnd d a b f s seed) = true := vecFixed_wf h

theorem vec2_wf {rnd d a f} (h : Memory.wf s = true) : Memory.wf (vec2 rnd d a f s) = true := vecFixed_wf h

theorem vecImm_wf {immHint d a f} (h : Memory.wf s = true) : Memory.wf (vecImm immHint d a f s) = true := vecFixed_wf h

/-! #### The code that an issuer runs -/

theorem originalFlit_wf {g pc} (h : Memory.wf s = true) : Memory.wf (originalFlit g pc s) = true := by
  unfold originalFlit
  split
  · exact h
  · split
    · exact (flitFrom_wf _ _).trans h
    · exact h

theorem codeFlit_wf {g pc} (h : Memory.wf s = true) : Memory.wf (codeFlit g pc s) = true := by
  unfold codeFlit
  split
  · exact ite_wf (originalFlit_wf h) h
  · exact originalFlit_wf h

theorem walkStall_wf {va kind} (h : Memory.wf s = true) : Memory.wf (walkStall va kind s) = true := stallOn_wf (ite_wf h (askWalk_wf h))

/-! #### Headers, hints and pools -/

theorem execClauseHeader_wf {w a b l p} (h : Memory.wf s = true) : CanonAfter (execClauseHeader w a b l p s) := by
  unfold execClauseHeader
  refine next_wf ?_
  dsimp only
  split
  · exact trapOwn_wf h
  · split
    · exact stallOn_wf h
    · exact stepCheck_wf (setAct_wf (setG_wf (settle_wf h)))

theorem keepHints_wf {p k} (h : Memory.wf s = true) : Memory.wf (keepHints p k s) = true := setAct_wf (setG_wf h)

theorem hintWord_wf {again upd} (h : Memory.wf s = true) : Memory.wf (hintWord again upd s) = true := by
  unfold hintWord
  dsimp only
  split
  · exact trapOwn_wf h
  · exact ite_wf (trapOwn_wf h) (keepHints_wf h)

theorem execNop_wf (h : Memory.wf s = true) : CanonAfter (execNop s) := by
  unfold execNop
  refine next_wf ?_
  split
  · exact trapOwn_wf h
  · exact ite_wf (finish_wf h) (keepHints_wf h)

theorem execPool_wf {c} (h : Memory.wf s = true) : CanonAfter (execPool c s) := by
  unfold execPool
  refine next_wf ?_
  dsimp only
  split
  · exact trapOwn_wf h
  · split
    · exact h
    · exact with_wf (settle_wf h) rfl

/-! #### Masks and lane words -/

theorem putMask_wf {m f} (h : Memory.wf s = true) : Memory.wf (putMask m f s) = true := setG_wf h

theorem compareWord_wf {cond c m a b} (h : Memory.wf s = true) : Memory.wf (compareWord cond c m a b s) = true :=
  word_wf (fun _ hs => finish_wf (putMask_wf hs)) h

theorem collective_wf {body} (hbody : KeepsForm body) (h : Memory.wf s = true) : Memory.wf (collective body s) = true :=
  ite_wf (trapOwn_wf h) (hbody _ h)

theorem shuffleEffect_wf {from_ d a} (h : Memory.wf s = true) : Memory.wf (shuffleEffect from_ d a s) = true :=
  finish_wf (putMask_wf (writeResult_wf h))

theorem shuffleWord_wf {kn from_ d a} (h : Memory.wf s = true) : Memory.wf (shuffleWord kn from_ d a s) = true :=
  word_wf (fun _ hs => collective_wf (fun _ hs1 => shuffleEffect_wf hs1) hs) h

theorem execGred_wf {d r a} (h : Memory.wf s = true) : CanonAfter (execGred d r a s) := by
  unfold execGred
  refine next_wf (word_wf (fun _ hs => collective_wf (fun _ hs1 => ?_) hs) h)
  split
  · exact finish_wf hs1
  · exact finish_wf (setG_wf hs1)

/-! #### Scalar words -/

theorem scalar2_wf {f d a b} (h : Memory.wf s = true) : Memory.wf (scalar2 f d a b s) = true :=
  word_wf (fun _ hs => finish_wf (setG_wf hs)) h

theorem execCsrr_wf {d c} (h : Memory.wf s = true) : CanonAfter (execCsrr d c s) := by
  unfold execCsrr
  refine next_wf (word_wf (fun _ hs => ?_) h)
  dsimp only
  split
  · split
    · exact finish_wf (setG_wf hs)
    · exact finish_wf (setG_wf (drawFree_wf hs))
  · exact finish_wf (setG_wf (ite_wf (setG_wf hs) hs))

theorem execCsrw_wf {a c} (h : Memory.wf s = true) : CanonAfter (execCsrw a c s) := by
  unfold execCsrw
  refine next_wf (word_wf (fun _ hs => ?_) h)
  dsimp only
  split
  · exact finish_wf ((updGroup_wf _ _ _).trans hs)
  · exact ite_wf (finish_wf (updWg_wf hs)) (finish_wf hs)

/-! #### Accesses through buffer records -/

theorem takeSamples_wf {g pc reqs} (h : Memory.wf s = true) : Memory.wf (takeSamples g pc reqs s) = true := by
  unfold takeSamples
  dsimp only
  split
  · exact h
  · exact ite_wf h (updCtx_wf h)

theorem sampled_wf {pl run} (h : Memory.wf s = true) : Memory.wf (sampled pl run s) = true := takeSamples_wf h

theorem parkLanes_wf {kind pos own parked} (h : Memory.wf s = true) : Memory.wf (parkLanes kind pos own parked s) = true := by
  unfold parkLanes
  dsimp only
  split
  · exact h
  · exact foldl_wf _ (fun _ _ hs => reportPage_wf hs) _ _ (setG_wf h)

theorem afterPark_wf (h : Memory.wf s = true) : Memory.wf (afterPark s) = true := ite_wf (settle_wf h) (finish_wf h)

theorem parkPath_wf {kind va} (h : Memory.wf s = true) : Memory.wf (parkPath kind va s) = true := afterPark_wf (parkLanes_wf h)

theorem releaseLanes_wf {uid m dev} (h : Memory.wf s = true) : Memory.wf (releaseLanes uid m dev s) = true := by
  unfold releaseLanes
  dsimp only
  split
  · exact writeBackWhere_wf _ _ (performWhere_wf _ _ (performLanes_wf h))
  · exact performWhere_wf _ _ (performLanes_wf h)

theorem afterVisq_wf {m body} (hbody : KeepsForm body) (h : Memory.wf s = true) : Memory.wf (afterVisq m body s) = true :=
  ite_wf (stallOn_wf h) (hbody _ h)

theorem withRelease_wf {body} (hbody : KeepsForm body) (h : Memory.wf s = true) : Memory.wf (withRelease body s) = true := by
  unfold withRelease
  dsimp only
  split
  · exact stallOn_wf h
  · split
    · exact hbody _ (releaseLanes_wf h)
    · exact stallOn_wf (releaseLanes_wf h)

/-! #### Loads, stores, records and caches -/

theorem laneLoad_wf {pl scope evc lane p n} (h : Memory.wf s = true) : Memory.wf (laneLoad pl scope evc lane p n s).2 = true :=
  placeLoad_wf _ _ _ _ _ _ _ _ (performAt_wf h)

theorem laneStore_wf {pl scope evc lane p bs} (h : Memory.wf s = true) : Memory.wf (laneStore pl scope evc lane p bs s) = true :=
  placeStore_wf _ _ _ _ _ _ _ _ _ (performAt_wf h)

theorem loadRun_wf {pl scope evc size d f run} (h : Memory.wf s = true) : Memory.wf (loadRun pl scope evc size d f run s).2 = true := by
  induction run generalizing s with
  | nil => exact h
  | cons q r ih => exact ih (laneLoad_wf h)

theorem memWord_wf {o isStore body} (hbody : ∀ x0 x1, KeepsForm (body x0 x1)) (h : Memory.wf s = true) :
    Memory.wf (memWord o isStore body s) = true := by
  unfold memWord
  dsimp only
  split
  · exact takeTrap_wf h
  · exact walkStall_wf h
  · split
    · exact parkTasks_wf h
    · exact ite_wf (stallOn_wf h) (hbody _ _ _ (sampled_wf h))

theorem loadFinish_wf {kind d w ws zs parked pos ls} (h : Memory.wf s = true) :
    Memory.wf (loadFinish kind d w ws zs parked pos s ls) = true := by
  unfold loadFinish
  split
  · exact afterPark_wf (parkLanes_wf h)
  · exact afterPark_wf (parkLanes_wf (launchOp_wf h))

theorem loadWord_wf {n d x size w e} (h : Memory.wf s = true) : Memory.wf (loadWord n d x size w e s) = true := by
  unfold loadWord
  refine word_wf (fun _ hs => memWord_wf (fun _ _ => fun _ hs2 => ?_) hs) h
  dsimp only
  exact loadFinish_wf (loadRun_wf hs2)

theorem storeWord_wf {n d x size w} (h : Memory.wf s = true) : Memory.wf (storeWord n d x size w s) = true := by
  unfold storeWord
  refine word_wf (fun _ hs => ?_) h
  dsimp only
  split
  · exact parkTasks_wf hs
  · exact memWord_wf (fun _ _ => fun _ hs1 => afterPark_wf (parkLanes_wf (foldl_wf _ (fun _ _ hs2 => laneStore_wf hs2) _ _ hs1))) hs

theorem exclusiveStore_wf {pl lane p bs} (h : Memory.wf s = true) : Memory.wf (exclusiveStore pl lane p bs s) = true :=
  placeNow_wf _ _ _ _ _ _ (performAt_wf h)

theorem armLanes_wf {pl size run} (h : Memory.wf s = true) : Memory.wf (armLanes pl size run s) = true := setG_wf h

theorem ldxRun_wf {pl size d run} (h : Memory.wf s = true) : Memory.wf (ldxRun pl size d run s).2 = true := by
  induction run generalizing s with
  | nil => exact h
  | cons q r ih => exact ih (setG_wf (placeExclusive_wf _ _ _ _ _ _ (performAt_wf h)))

theorem execLdx_wf {n d x z} (h : Memory.wf s = true) : CanonAfter (execLdx n d x z s) := by
  unfold execLdx
  refine next_wf (word_wf (fun _ hs => ?_) h)
  dsimp only
  split
  · exact parkTasks_wf hs
  · exact memWord_wf (fun _ _ => fun _ hs1 => loadFinish_wf (ldxRun_wf (armLanes_wf hs1))) hs

theorem stxRun_wf {pl size bytes run} (h : Memory.wf s = true) : Memory.wf (stxRun pl size bytes run s).2 = true := by
  induction run generalizing s with
  | nil => exact h
  | cons q r ih =>
    have hd := drainCore_wf s.grp.core (lineOf (taskKey s.grp pl q.2)) _ (performAt_wf (uid := s.grp.uid) (lane := q.1.lane)
        (pl := pl) (line := lineOf q.2) h)
    unfold stxRun
    dsimp only
    split
    · exact ih (exclusiveStore_wf hd)
    · exact ih hd

theorem execStx_wf {n d x z} (h : Memory.wf s = true) : CanonAfter (execStx n d x z s) := by
  unfold execStx
  refine next_wf (word_wf (fun _ hs => ?_) h)
  dsimp only
  split
  · exact parkTasks_wf hs
  · exact memWord_wf (fun _ _ => fun _ hs1 => afterPark_wf (parkLanes_wf (setG_wf (stxRun_wf hs1)))) hs

theorem prefLine_wf {core z scope evc a} (h : Memory.wf s = true) : Memory.wf (prefLine core z scope evc a s) = true := by
  unfold prefLine
  dsimp only
  split
  · exact h
  · split
    · exact readMem_wf _ _ _ _ _ _ h
    · split
      · exact h
      · exact (fillLine_wf _ _ _ _ _ _ _).trans ((grantLease_wf _ _).trans ((flitFrom_wf _ _).trans (writeBackAt_wf h)))

theorem execPref_wf {n x z} (h : Memory.wf s = true) : CanonAfter (execPref n x z s) := by
  unfold execPref
  refine next_wf (word_wf (fun _ hs => memWord_wf (fun _ _ => fun _ hs2 => ?_) hs) h)
  split
  · exact finish_wf hs2
  · exact finish_wf (foldl_wf _ (fun _ _ hs => prefLine_wf hs) _ _ hs2)

theorem evictLine_wf {core z p} (h : Memory.wf s = true) : Memory.wf (evictLine core z p s) = true := by
  unfold evictLine
  dsimp only
  split
  · exact dropLine_wf (writeBackAt_wf h)
  · exact dropLine_wf (dropLine_wf (writeBackAt_wf h))

theorem pathReads_wf {pl p} (h : Memory.wf s = true) : Memory.wf (pathReads pl p s) = true :=
  foldl_wf _ (fun _ _ hs => noteReads_wf hs) _ _ h

theorem execBload_wf {n b x} (h : Memory.wf s = true) : CanonAfter (execBload n b x s) := by
  unfold execBload
  refine next_wf (word_wf (fun _ hs => ?_) h)
  dsimp only
  split
  · exact finish_wf hs
  · split
    · exact trapOwn_wf hs
    · split
      · exact takeTrap_wf hs
      · exact walkStall_wf hs
      · split
        · exact parkPath_wf hs
        · split
          · exact parkTasks_wf hs
          · split
            · exact stallOn_wf hs
            · split
              · split
                · exact trapOwn_wf hs
                · exact finish_wf (setG_wf (laneLoad_wf (pathReads_wf (sampled_wf hs))))
              · exact ite_wf (trapOwn_wf hs) (finish_wf (setG_wf hs))

theorem parkWord_wf {kind page} (h : Memory.wf s = true) : Memory.wf (parkWord kind page s) = true := parkPath_wf h

theorem pathAbsent_wf {kind va} (h : Memory.wf s = true) : Memory.wf (pathAbsent kind va s) = true :=
  ite_wf (stallOn_wf (reportPage_wf (setG_wf h))) (parkWord_wf h)

theorem execSldc_wf {d a n i} (h : Memory.wf s = true) : CanonAfter (execSldc d a n i s) := by
  unfold execSldc
  refine next_wf (word_wf (fun _ hs => ?_) h)
  dsimp only
  split
  · exact takeTrap_wf hs
  · exact walkStall_wf hs
  · split
    · exact pathAbsent_wf hs
    · split
      · split
        · exact parkTasks_wf hs
        · split
          · exact stallOn_wf hs
          · split
            · exact finish_wf (raiseOp_wf (foldl_wf _ (fun _ _ hs => drainOwn_wf _ _ _ _ hs) _ _ (pathReads_wf (sampled_wf hs))))
            · exact finish_wf (raiseOp_wf (laneLoad_wf (foldl_wf _ (fun _ _ hs => drainOwn_wf _ _ _ _ hs) _ _ (pathReads_wf
                  (sampled_wf hs)))))
      · exact finish_wf (raiseOp_wf hs)

theorem execSldlit_wf {d i} (h : Memory.wf s = true) : CanonAfter (execSldlit d i s) := by
  unfold execSldlit
  refine next_wf (word_wf (fun _ hs => ?_) h)
  dsimp only
  split
  · exact takeTrap_wf hs
  · split
    · exact takeTrap_wf hs
    · exact finish_wf (setG_wf hs)
    · exact walkStall_wf hs
    · exact parkPath_wf hs
    · exact takeTrap_wf hs

/-! #### Atomics, copies, fences and append -/

theorem laneAtomic_wf {op pl scope evc lane p ret x y} (h : Memory.wf s = true) :
    Memory.wf (laneAtomic op pl scope evc lane p ret x y s).2 = true := by
  unfold laneAtomic
  dsimp only
  split
  · exact placeAtomic_wf _ _ _ _ _ _ _ _ _ _ (performAt_wf h)
  · exact with_wf (performAt_wf h) rfl

theorem atomicRun_wf {op pl scope evc ret x y run} (h : Memory.wf s = true) :
    Memory.wf (atomicRun op pl scope evc ret x y run s).2 = true := by
  induction run generalizing s with
  | nil => exact h
  | cons q r ih => exact ih (laneAtomic_wf h)

theorem atomicWord_wf {op n d x p extra} (h : Memory.wf s = true) : Memory.wf (atomicWord op n d x p extra s) = true := by
  unfold atomicWord
  refine word_wf (fun _ hs => ?_) h
  dsimp only
  split
  · exact trapOwn_wf hs
  · split
    · exact parkTasks_wf hs
    · refine memWord_wf (fun _ _ => fun _ hs1 => ?_) hs
      split
      · exact loadFinish_wf (atomicRun_wf hs1)
      · exact afterPark_wf (parkLanes_wf (atomicRun_wf hs1))

theorem startToken_wf {r w} (h : Memory.wf s = true) : Memory.wf (startToken r w s) = true := setG_wf h

theorem execCopy_wf {c d k a} (h : Memory.wf s = true) : CanonAfter (execCopy c d k a s) := by
  unfold execCopy
  refine next_wf (word_wf (fun _ hs => ?_) h)
  dsimp only
  split
  · exact finish_wf (setG_wf hs)
  · split
    · exact trapOwn_wf hs
    · split
      · exact takeTrap_wf hs
      · split
        · exact finish_wf (setG_wf hs)
        · split
          · exact parkTasks_wf hs
          · split
            · exact stallOn_wf hs
            · exact finish_wf (startToken_wf (releaseLanes_wf hs))

theorem execWaitb_wf {a} (h : Memory.wf s = true) : CanonAfter (execWaitb a s) := by
  unfold execWaitb
  refine next_wf (word_wf (fun _ hs => ?_) h)
  split
  · exact trapOwn_wf hs
  · exact ite_wf (finish_wf (setG_wf hs)) (stallOn_wf hs)

theorem execFence_wf {k p} (h : Memory.wf s = true) : CanonAfter (execFence k p s) := by
  unfold execFence
  refine next_wf (word_wf (fun _ hs => ?_) h)
  dsimp only
  split
  · exact finish_wf hs
  · split
    · exact stallOn_wf hs
    · split
      · exact finish_wf (performLanes_wf hs)
      · split
        · exact finish_wf (releaseLanes_wf hs)
        · split
          · exact finish_wf (releaseLanes_wf hs)
          · exact stallOn_wf (releaseLanes_wf hs)

theorem recordClaim_wf {unit} (h : Memory.wf s = true) : Memory.wf (recordClaim unit s) = true := updWg_wf (updGrid_wf h)

theorem grantClaim_wf {u d x} (h : Memory.wf s = true) : Memory.wf (grantClaim u d x s) = true := by
  unfold grantClaim
  dsimp only
  exact finish_wf (writeResult_wf (updGrid_wf h))

theorem execAppend_wf {u d x} (h : Memory.wf s = true) : CanonAfter (execAppend u d x s) := by
  unfold execAppend
  refine next_wf (word_wf (fun _ hs => ?_) h)
  dsimp only
  split
  · split
    · exact takeTrap_wf hs
    · split
      · exact parkTasks_wf hs
      · split
        · exact finish_wf (writeResult_wf (recordClaim_wf hs))
        · split
          · exact grantClaim_wf (recordClaim_wf (updWg_wf hs))
          · exact stallOn_wf (setG_wf (updWg_wf hs))
  · exact grantClaim_wf hs

/-! #### Groups that form, and the retirement of workgroups -/

theorem readQueue_wf {q} (h : Memory.wf s = true) : Memory.wf (readQueue q s).2 = true := by
  unfold readQueue
  dsimp only
  split
  · exact h
  · exact h

theorem formQueue_wf {f qn} (h : Memory.wf s = true) : Memory.wf (formQueue f qn s) = true := by
  unfold formQueue
  split
  · exact h
  · split
    · exact h
    · dsimp only
      exact updQueue_wf (updGrid_wf (readQueue_wf h))

theorem enterQueue_wf {qn payload ts} (h : Memory.wf s = true) : Memory.wf (enterQueue qn payload ts s) = true := by
  unfold enterQueue
  dsimp only
  split
  · exact h
  · refine updQueue_wf ?_
    split
    · exact agentWrite_wf _ _ _ _ _ _ h ‹_›
    · exact h

theorem queueForm_wf {qn} (h : Memory.wf s = true) : Memory.wf (queueForm qn s) = true := formQueue_wf h

theorem detBinForm_wf {grid} (h : Memory.wf s = true) : Memory.wf (detBinForm grid s) = true := by
  unfold detBinForm
  dsimp only
  split
  · exact h
  · exact updGrid_wf h

theorem gridCheck_wf {grid} (h : Memory.wf s = true) : Memory.wf (gridCheck grid s) = true := by
  unfold gridCheck
  split
  · exact h
  · exact ite_wf (updGrid_wf h) h

theorem gridEnd_wf {grid} (h : Memory.wf s = true) : Memory.wf (gridEnd grid s) = true := gridCheck_wf (ite_wf (detBinForm_wf h) h)

theorem retireWg_wf {w} (h : Memory.wf s = true) : Memory.wf (retireWg w s) = true := gridEnd_wf (updGrid_wf (updCtx_wf h))

theorem retireCheck_wf {wg} (h : Memory.wf s = true) : Memory.wf (retireCheck wg s) = true := by
  unfold retireCheck
  split
  · exact h
  · exact ite_wf (retireWg_wf h) h

/-! #### Control transfers, joins, barriers, ends and spawns -/

theorem leaveTo_wf {es} (h : Memory.wf s = true) : Memory.wf (leaveTo es s) = true := by
  unfold leaveTo
  dsimp only
  split
  · exact h
  · exact nextTurn_wf h

theorem transfer_wf {es} (h : Memory.wf s = true) : Memory.wf (transfer es s) = true := stepCheck_wf (leaveTo_wf (settle_wf h))

theorem unreadTarget_wf {w} (h : Memory.wf s = true) : Memory.wf (unreadTarget w s) = true := by
  unfold unreadTarget
  split
  · exact walkStall_wf h
  · exact parkPath_wf h
  · exact takeTrap_wf h

theorem directWord_wf {n off body} (hbody : ∀ x0, KeepsForm (body x0)) (h : Memory.wf s = true) :
    Memory.wf (directWord n off body s) = true := by
  unfold directWord
  split
  · exact unreadTarget_wf h
  · exact word_wf (fun _ hs => hbody _ _ hs) h

theorem branchS_wf {want a o} (h : Memory.wf s = true) : Memory.wf (branchS want a o s) = true :=
  directWord_wf (fun _ _ hs1 => transfer_wf hs1) h

theorem setLink_wf (h : Memory.wf s = true) : Memory.wf (setLink s) = true := setG_wf h

theorem laneTargetWord_wf {n ok mapped rs val body} (hbody : KeepsForm body) (h : Memory.wf s = true) :
    Memory.wf (laneTargetWord n ok mapped rs val body s) = true := by
  unfold laneTargetWord
  dsimp only
  split
  · exact stallOn_wf h
  · exact word_wf (fun _ hs => hbody _ hs) h
  · split
    · exact unreadTarget_wf h
    · exact word_wf (fun _ hs => hbody _ hs) h

theorem indirectWord_wf {link a g} (h : Memory.wf s = true) : Memory.wf (indirectWord link a g s) = true := by
  unfold indirectWord
  refine laneTargetWord_wf (fun _ hs => ?_) h
  split
  · exact unreadTarget_wf hs
  · split
    · exact takeTrap_wf hs
    · exact transfer_wf (ite_wf (setLink_wf hs) hs)

theorem exitLanes_wf {m} (h : Memory.wf s = true) : Memory.wf (exitLanes m s) = true := by
  have hs := settle_wf h
  unfold exitLanes
  dsimp only
  generalize settle s = u at hs ⊢
  refine barrierCheck_wf (stepCheck_wf (nextTurn_wf ?_))
  dsimp only [State.setG, Memory.wf]
  exact hs

theorem execSpawn_wf {a} (h : Memory.wf s = true) : CanonAfter (execSpawn a s) := by
  unfold execSpawn
  refine next_wf (word_wf (fun _ hs => ?_) h)
  dsimp only
  split
  · exact stallOn_wf hs
  · split
    · exact trapOwn_wf hs
    · split
      · exact trapOwn_wf hs
      · split
        · exact takeTrap_wf hs
        · split
          · exact takeTrap_wf hs
          · exact walkStall_wf hs
          · exact stallOn_wf (reportPage_wf (setG_wf hs))
          · split
            · exact parkTasks_wf hs
            · split
              · exact stallOn_wf hs
              · exact withRelease_wf (fun _ hs => stallOn_wf (setG_wf hs)) hs

theorem codeTrap_wf {cause c} (h : Memory.wf s = true) : Memory.wf (codeTrap cause c s) = true := by
  unfold codeTrap
  refine word_wf (fun _ hs => ?_) h
  split
  · exact finish_wf hs
  · exact oldestOnly_wf (fun _ hs => takeTrapAfter_wf (advance_wf (settle_wf hs))) hs

theorem regionDone_wf {kind r} (h : Memory.wf s = true) : Memory.wf (regionDone kind r s) = true :=
  ite_wf (takeTrapAfter_wf (advance_wf (settle_wf h))) (finish_wf h)

theorem execLeave_wf (h : Memory.wf s = true) : CanonAfter (execLeave s) := by
  unfold execLeave
  refine next_wf (word_wf (fun _ hs => ?_) h)
  split
  · exact finish_wf hs
  · split
    · exact finish_wf hs
    · exact regionDone_wf (setG_wf hs)

/-! #### Closure words -/

theorem spillStores_wf {g f got ls} (h : Memory.wf s = true) : Memory.wf (spillStores g f got ls s) = true := by
  unfold spillStores
  refine foldl_wf _ (fun _ _ hs => ?_) _ _ h
  dsimp only
  split
  · exact foldl_wf _ (fun _ _ hs => storeHome_wf _ _ _ _ _ _ hs) _ _ hs
  · exact hs

theorem withSpill_wf {kind use ls body} (hbody : ∀ x0, KeepsForm (body x0)) (h : Memory.wf s = true) :
    Memory.wf (withSpill kind use ls s body) = true := by
  unfold withSpill
  split
  · exact takeTrap_wf h
  · exact walkStall_wf h
  · split
    · exact hbody _ _ h
    · exact parkPath_wf h

theorem buildWord_wf {n g limit own f} (h : Memory.wf s = true) : Memory.wf (buildWord n g limit own f s) = true := by
  unfold buildWord
  refine word_wf (fun _ hs => ?_) h
  dsimp only
  split
  · exact takeTrap_wf hs
  · split
    · exact takeTrap_wf hs
    · exact withSpill_wf (fun _ _ hs1 => finish_wf (setG_wf (spillStores_wf hs1))) hs

theorem netWeights_wf {l as} (h : Memory.wf s = true) : Memory.wf (netWeights l as s).2 = true := by
  induction as generalizing s with
  | nil => exact h
  | cons a as ih =>
    unfold netWeights
    dsimp only
    split
    · exact ih (laneLoad_wf h)
    · exact ih h

theorem netTable_wf {l ws} (h : Memory.wf s = true) : Memory.wf (netTable l ws s).2 = true := by
  induction ws generalizing s with
  | nil => exact h
  | cons w ws ih =>
    have hw := netWeights_wf (l := l) (as := netAccs s l w) h
    unfold netTable
    generalize netWeights l (netAccs s l w) s = p at hw
    exact ih hw

theorem mixRun_wf {g d dir res ls} (h : Memory.wf s = true) : Memory.wf (mixRun g d dir res ls s).2 = true := by
  induction ls generalizing s with
  | nil => exact h
  | cons l ls ih => exact ih (netTable_wf h)

theorem mixWord_wf {n g d dw dir res} (h : Memory.wf s = true) : Memory.wf (mixWord n g d dw dir res s) = true := by
  unfold mixWord
  refine word_wf (fun _ hs => ?_) h
  dsimp only
  split
  · exact takeTrap_wf hs
  · refine withSpill_wf (fun _ _ hs1 => ?_) hs
    split
    · exact takeTrap_wf hs1
    · exact walkStall_wf hs1
    · split
      · exact parkTasks_wf hs1
      · exact ite_wf (stallOn_wf hs1) (loadFinish_wf (mixRun_wf (sampled_wf hs1)))

theorem imageWord_wf {o body} (hbody : ∀ x0 x1, KeepsForm (body x0 x1)) (h : Memory.wf s = true) :
    Memory.wf (imageWord o s body) = true := by
  unfold imageWord
  dsimp only
  split
  · exact takeTrap_wf h
  · split
    · exact takeTrap_wf h
    · exact walkStall_wf h
    · split
      · split
        · exact parkTasks_wf h
        · exact ite_wf (stallOn_wf h) (hbody _ _ _ (sampled_wf h))
      · split
        · exact parkTasks_wf h
        · exact ite_wf (stallOn_wf h) (hbody _ _ _ (sampled_wf h))

theorem execCsave_wf {g n x} (h : Memory.wf s = true) : CanonAfter (execCsave g n x s) := by
  unfold execCsave
  refine next_wf (word_wf (fun _ hs => ?_) h)
  dsimp only
  split
  · exact parkTasks_wf hs
  · exact imageWord_wf (fun _ _ => fun _ hs1 => withSpill_wf (fun _ _ hs3 => afterPark_wf (parkLanes_wf (foldl_wf _
        (fun _ _ hs4 => laneStore_wf hs4) _ _ hs3))) hs1) hs

theorem imageRun_wf {pl scope evc run} (h : Memory.wf s = true) : Memory.wf (imageRun pl scope evc run s).2 = true := by
  induction run generalizing s with
  | nil => exact h
  | cons q r ih => exact ih (laneLoad_wf h)

theorem execCload_wf {g n x} (h : Memory.wf s = true) : CanonAfter (execCload g n x s) := by
  unfold execCload
  refine next_wf (word_wf (fun _ hs => imageWord_wf (fun _ _ => fun _ hs2 => ?_) hs) h)
  dsimp only
  refine withSpill_wf (fun _ _ hs1 => ?_) hs2
  split
  · exact afterPark_wf (parkLanes_wf (spillStores_wf (imageRun_wf hs2)))
  · exact afterPark_wf (parkLanes_wf (launchOp_wf (spillStores_wf (imageRun_wf hs2))))

/-! #### Pattern-table entries as events -/

theorem completeEntryEffects_wf {e} (h : Memory.wf s = true) : Memory.wf (completeEntryEffects e s) = true :=
  retireCheck_wf (retireCheck_wf (completeEntry_wf h))

theorem completeBegun_wf {p} (h : Memory.wf s = true) : Memory.wf (completeBegun p s) = true :=
  begunWith_wf (fun _ _ hs1 => completeEntryEffects_wf hs1) h

theorem execPatternEntryIssue_wf {cluster} (h : Memory.wf s = true) : CanonAfter (execPatternEntryIssue cluster s) := by
  unfold execPatternEntryIssue
  refine next_wf ?_
  split
  · exact h
  · exact h

theorem execPatternEntryComplete_wf {entry} (h : Memory.wf s = true) : CanonAfter (execPatternEntryComplete entry s) := by
  unfold execPatternEntryComplete
  refine next_wf ?_
  split
  · exact h
  · exact completeEntryEffects_wf h

/-! #### What an issuer issues next -/

theorem illegalWord_wf {w} (h : Memory.wf s = true) : Memory.wf (illegalWord w s) = true := by
  unfold illegalWord
  split
  · exact directWord_wf (fun _ _ hs1 => hs1) h
  · exact directWord_wf (fun _ _ hs1 => hs1) h
  · exact directWord_wf (fun _ _ hs1 => hs1) h
  · exact laneTargetWord_wf (fun _ hs => hs) h
  · exact laneTargetWord_wf (fun _ hs => hs) h
  · exact laneTargetWord_wf (fun _ hs => hs) h
  · exact trapOwn_wf h

theorem execIllegalEncoding_wf {w} (h : Memory.wf s = true) : CanonAfter (execIllegalEncoding w s) := by
  unfold execIllegalEncoding
  refine next_wf ?_
  split
  · exact word_wf (fun _ hs => hs) h
  · exact illegalWord_wf h

theorem execFetchFault_wf {refused info} (h : Memory.wf s = true) : CanonAfter (execFetchFault refused info s) :=
  next_wf (ite_wf (takeTrap_wf h) (takeTrap_wf h))

theorem takeTurn_wf (h : Memory.wf s = true) : Memory.wf (takeTurn s).2 = true := by
  unfold takeTurn
  dsimp only
  split
  · exact h
  · split
    · exact h
    · exact updWg_wf h

theorem withPath_wf (h : Memory.wf s = true) (ht : withPath s = some t) : Memory.wf t = true := by
  unfold withPath at ht
  dsimp only at ht
  split at ht
  · cases ht
    exact h
  · split at ht
    · cases ht
    · cases ht
      exact h

theorem fetchWord_wf (h : Memory.wf s = true) : Memory.wf (fetchWord s).state = true := by
  unfold fetchWord
  split
  · unfold decoded
    split <;> exact codeFlit_wf h
  · exact h
  · exact walkStall_wf h
  · exact parkPath_wf h
  · exact h

theorem issuePath_wf (h : Memory.wf s = true) : Memory.wf (issuePath s).state = true := by
  unfold issuePath
  dsimp only
  split
  · exact takeTrap_wf (setAct_wf h)
  · exact unreadTarget_wf h
  · split
    · exact takeTrap_wf (setAct_wf (setAct_wf h))
    · exact fetchWord_wf (setAct_wf h)

theorem nextInstr_wf (h : Memory.wf s = true) : Memory.wf (nextInstr s).state = true := by
  unfold nextInstr
  split
  · exact h
  · dsimp only
    split
    · exact takeTurn_wf h
    · split
      · exact takeTurn_wf h
      · exact issuePath_wf (withPath_wf (takeTurn_wf h) ‹_›)

theorem afterIssue_wf {i before} (h : Memory.wf s = true) : Memory.wf (afterIssue i before s) = true := by
  unfold afterIssue
  dsimp only
  split
  · split
    · exact h
    · split
      · refine updGrid_wf ?_
        split
        · exact with_wf ((updGroup_wf _ _ _).trans (ite_wf h ((updGroup_wf _ _ _).trans h))) rfl
        · exact updCtx_wf ((updGroup_wf _ _ _).trans (ite_wf h ((updGroup_wf _ _ _).trans h)))
      · exact updCtx_wf ((updGroup_wf _ _ _).trans (ite_wf h ((updGroup_wf _ _ _).trans h)))
  · split
    · exact h
    · split
      · refine updGrid_wf ?_
        split
        · exact with_wf ((updGroup_wf _ _ _).trans (ite_wf h ((updGroup_wf _ _ _).trans h))) rfl
        · exact updCtx_wf ((updGroup_wf _ _ _).trans (ite_wf h ((updGroup_wf _ _ _).trans h)))
      · exact updCtx_wf ((updGroup_wf _ _ _).trans (ite_wf h ((updGroup_wf _ _ _).trans h)))

/-! #### Queue words -/

theorem pushLane_wf {q l x ts} (h : Memory.wf s = true) : Memory.wf (pushLane q l x ts s) = true := by
  unfold pushLane
  split
  · exact (updTask_wf _ _ _ _).trans h
  · exact enterQueue_wf h

theorem execQpush_wf {q v t} (h : Memory.wf s = true) : CanonAfter (execQpush q v t s) := by
  unfold execQpush
  refine next_wf (word_wf (fun _ hs => ?_) h)
  dsimp only
  split
  · exact finish_wf hs
  · split
    · exact takeTrap_wf hs
    · split
      · exact takeTrap_wf hs
      · split
        · exact stallOn_wf hs
        · split
          · exact stallOn_wf (agentWait_wf hs)
          · refine withRelease_wf (fun _ hs => finish_wf (queueForm_wf ?_)) hs
            split
            · exact setG_wf (foldl_wf _ (fun _ _ hs => pushLane_wf hs) _ _ hs)
            · exact foldl_wf _ (fun _ _ hs => pushLane_wf hs) _ _ hs

theorem setTaken_wf {n taken} (h : Memory.wf s = true) : Memory.wf (setTaken n taken s) = true := updCtx_wf h

theorem wardrobe_wf {v p body} (hbody : ∀ x0, KeepsForm (body x0)) (h : Memory.wf s = true) : Memory.wf (wardrobe v p body s) = true := by
  unfold wardrobe
  refine word_wf (fun _ hs => ?_) h
  split
  · exact takeTrap_wf hs
  · exact ite_wf (takeTrap_wf hs) (hbody _ _ hs)

theorem execPslot_wf {d p} (h : Memory.wf s = true) : CanonAfter (execPslot d p s) := by
  unfold execPslot
  refine next_wf (wardrobe_wf (fun _ _ hs1 => ?_) h)
  dsimp only
  exact finish_wf (writeResult_wf (setTaken_wf (ite_wf (updWg_wf hs1) hs1)))

theorem enterBin_wf {grid target e} (h : Memory.wf s = true) : Memory.wf (enterBin grid target e s) = true := by
  unfold enterBin
  split
  · exact (updTask_wf _ _ _ _).trans h
  · exact updGrid_wf h

theorem execRegrp_wf {o v} (h : Memory.wf s = true) : CanonAfter (execRegrp o v s) := by
  unfold execRegrp
  refine next_wf (directWord_wf (fun _ _ hs1 => ?_) h)
  dsimp only
  split
  · exact exitLanes_wf hs1
  · split
    · exact takeTrap_wf hs1
    · refine withRelease_wf (fun _ hs => exitLanes_wf ?_) hs1
      split
      · exact foldl_wf _ (fun _ _ hs => enterBin_wf hs) _ _ hs
      · exact updGrid_wf (foldl_wf _ (fun _ _ hs => enterBin_wf hs) _ _ hs)

/-! #### The front end -/

theorem checkFlits_wf {x r} (h : Memory.wf s = true) : Memory.wf (checkFlits x r s) = true := by
  unfold checkFlits
  dsimp only
  split
  · exact h
  · split
    · exact agentFlits_wf h
    · exact agentFlits_wf (ite_wf (agentFlits_wf (ite_wf (agentFlits_wf (agentFlits_wf h)) (agentFlits_wf h)))
        (ite_wf (agentFlits_wf (agentFlits_wf h)) (agentFlits_wf h)))

theorem useFit_wf {id} (h : Memory.wf s = true) : Memory.wf (useFit id s) = true := h

theorem fitGrid_wf {x g} (h : Memory.wf s = true) : Memory.wf (fitGrid x g s).2 = true := by
  unfold fitGrid
  dsimp only
  split
  · exact h
  · split
    · exact useFit_wf h
    · exact h

theorem makeGrid_wf {x l c depth parent} (h : Memory.wf s = true) : Memory.wf (makeGrid x l c depth parent s) = true := by
  unfold makeGrid
  dsimp only
  split
  · exact queueForm_wf (updQueue_wf (updCtx_wf (with_wf (fitGrid_wf (fresh_wf h)) rfl)))
  · exact updCtx_wf (with_wf (fitGrid_wf (fresh_wf h)) rfl)

theorem stopQueue_wf {q} (h : Memory.wf s = true) : Memory.wf (stopQueue q s) = true := updQueue_wf (hostStore_wf _ _ _ h)

theorem seeTail_wf {q} (h : Memory.wf s = true) : Memory.wf (seeTail q s) = true := ite_wf (stopQueue_wf (updQueue_wf h)) (updQueue_wf h)

theorem execHostTailWrite_wf {q tail} (h : Memory.wf s = true) : CanonAfter (execHostTailWrite q tail s) := by
  unfold execHostTailWrite
  refine next_wf ?_
  dsimp only
  split
  · exact h
  · split
    · exact h
    · split
      · exact seeTail_wf (hostMemWrite_wf _ _ _ h)
      · exact hostMemWrite_wf _ _ _ h

theorem failLaunch_wf {x compl status} (h : Memory.wf s = true) (ht : failLaunch x compl status s = some t) : Memory.wf t = true := by
  unfold failLaunch at ht
  split at ht
  · cases ht
    exact writeCompletion_wf h ‹_›
  · cases ht
  · cases ht
  · cases ht
    exact h

theorem failWait_wf {x compl status} (h : Memory.wf s = true) : Memory.wf (failWait x compl status s) = true := by
  unfold failWait
  split
  · exact writeCompletion_wf h ‹_›
  · exact agentWait_wf h

theorem checkAdmit_wf {x r depth parent} (h : Memory.wf s = true) : Memory.wf (checkAdmit x r depth parent s).2 = true := by
  unfold checkAdmit
  dsimp only
  split
  · exact agentWait_wf (checkFlits_wf h)
  · split
    · exact forgetWalks_wf (failLaunch_wf (checkFlits_wf h) ‹_›)
    · exact failWait_wf (checkFlits_wf h)
  · exact forgetWalks_wf (makeGrid_wf (checkFlits_wf h))

theorem copyRecord_wf {x q} (h : Memory.wf s = true) : Memory.wf (copyRecord x q s) = true := by
  unfold copyRecord
  dsimp only
  split
  · exact updQueue_wf (hostStore_wf _ _ _ (forgetWalks_wf (agentFlits_wf h)))
  · exact agentWait_wf h
  · exact agentWait_wf h
  · exact stopQueue_wf (forgetWalks_wf h)

theorem admitFromQueue_wf {x q} (h : Memory.wf s = true) : Memory.wf (admitFromQueue x q s) = true := by
  unfold admitFromQueue
  dsimp only
  have hu := ite_wf (c := (q.copied.isNone && !q.stopped && decide (q.head < q.tail) && !holdsBack s q) = true) (copyRecord_wf
      (x := x) (q := q) h) h
  split
  · exact hu
  · split
    · rename_i heq
      exact snd_wf (checkAdmit_wf hu) heq
    · rename_i heq
      exact updQueue_wf (snd_wf (checkAdmit_wf hu) heq)

theorem spawnDone_wf {uid ok} (h : Memory.wf s = true) : Memory.wf (spawnDone uid ok s) = true :=
  within_wf (fun _ hs => finish_wf (ite_wf (updWg_wf hs) hs)) h

theorem admitSpawn_wf {x g va copied} (h : Memory.wf s = true) : Memory.wf (admitSpawn x g va copied s) = true := by
  unfold admitSpawn
  dsimp only
  split
  · split
    · exact within_wf (fun _ hs => takeTrap_wf hs) (forgetWalks_wf h)
    · exact agentWait_wf h
    · exact h
  · rename_i r _
    have hu : Memory.wf (updGroup g.uid (fun g => { g with spawn := some (va, some r) })
        (if copied.isSome then s else forgetWalks x.id (agentFlits g.core g.ctx 0 va 128 s))) = true :=
      (updGroup_wf _ _ _).trans (ite_wf h (forgetWalks_wf (agentFlits_wf h)))
    split
    · rename_i heq
      exact snd_wf (checkAdmit_wf hu) heq
    · rename_i heq
      exact spawnDone_wf (snd_wf (checkAdmit_wf hu) heq)

theorem execLaunchAdmit_wf {fromSpawn n} (h : Memory.wf s = true) : CanonAfter (execLaunchAdmit fromSpawn n s) := by
  unfold execLaunchAdmit
  refine next_wf ?_
  split
  · exact h
  · split
    · split
      · exact h
      · split
        · exact ite_wf (admitSpawn_wf h) h
        · exact h
    · split
      · exact h
      · split
        · exact h
        · exact ite_wf h (admitFromQueue_wf h)

/-! #### Placing workgroups -/

theorem setCarve_wf {l core} (h : Memory.wf s = true) : Memory.wf (setCarve l core s) = true :=
  ite_wf h (with_wf (writeBackWhere_wf _ _ h) rfl)

theorem startWg_wf {w uid partner} (h : Memory.wf s = true) : Memory.wf (startWg w uid partner s) = true := by
  have hs := setCarve_wf (l := w.grid.launch) (core := w.room.core) h
  unfold startWg
  exact updCtx_wf (with_wf hs rfl)

theorem startRooms_wf {mk rooms} (h : Memory.wf s = true) : Memory.wf (startRooms mk rooms s) = true := by
  unfold startRooms
  split
  · dsimp only
    exact startWg_wf (fresh_wf h)
  · dsimp only
    exact startWg_wf (startWg_wf (fresh_wf (fresh_wf h)))
  · exact h

theorem placeOwn_wf {g gid core coreU wins} (h : Memory.wf s = true) (ht : placeOwn g gid core coreU wins s = some t) :
    Memory.wf t = true := by
  obtain ⟨rs, -, rfl⟩ := Option.map_eq_some_iff.1 ht
  exact startRooms_wf h

theorem placeAnywhere_wf {cores g gid wins} (h : Memory.wf s = true) (ht : placeAnywhere cores g gid wins s = some t) :
    Memory.wf t = true := by
  obtain ⟨c, -, hc⟩ := List.exists_of_findSome?_eq_some ht
  split at hc
  · obtain ⟨i, -, hi⟩ := List.exists_of_findSome?_eq_some hc
    exact placeOwn_wf h hi
  · exact placeOwn_wf h hc

theorem placeAll_wf {dies g n gid wins} (h : Memory.wf s = true) (ht : placeAll dies g n gid wins s = some t) : Memory.wf t = true := by
  induction n generalizing gid wins s with
  | zero =>
    cases ht
    exact h
  | succ n ih =>
    obtain ⟨u, hu, ht⟩ := Option.bind_eq_some_iff.1 ht
    exact ih (placeAnywhere_wf h hu) ht

theorem placeCoop_wf {x g wins} (h : Memory.wf s = true) : Memory.wf (placeCoop x g wins s) = true := by
  unfold placeCoop
  dsimp only
  split
  · exact h
  · split
    · exact h
    · exact updGrid_wf (placeAll_wf h ‹_›)

theorem startTasks_wf {f w g} (h : Memory.wf s = true) : Memory.wf (startTasks f w g s) = true := h

theorem placeFormed_wf {x g f core coreU wins} (h : Memory.wf s = true) : Memory.wf (placeFormed x g f core coreU wins s) = true := by
  unfold placeFormed
  dsimp only
  split
  · split
    · exact h
    · split
      · exact h
      · exact updGrid_wf (foldl_wf _ (fun _ _ hs => startTasks_wf hs) _ _ (with_wf (startRooms_wf h) rfl))
  · split
    · exact h
    · split
      · exact h
      · exact updGrid_wf (foldl_wf _ (fun _ _ hs => startTasks_wf hs) _ _ (with_wf (startRooms_wf h) rfl))

theorem placeNext_wf {x g die core coreU wins} (h : Memory.wf s = true) : Memory.wf (placeNext x g die core coreU wins s) = true := by
  unfold placeNext
  dsimp only
  split
  · exact h
  · split
    · exact updGrid_wf h
    · split
      · exact h
      · split
        · exact h
        · exact updGrid_wf (placeOwn_wf h ‹_›)

theorem reserveRoom_wf {g core coreU} (h : Memory.wf s = true) : Memory.wf (reserveRoom g core coreU s) = true := by
  unfold reserveRoom
  split
  · exact h
  · exact updGrid_wf (foldl_wf _ (fun _ _ hs => setCarve_wf hs) _ _ h)

theorem execWorkgroupPlace_wf {grid die core coreU wins} (h : Memory.wf s = true) :
    CanonAfter (execWorkgroupPlace grid die core coreU wins s) := by
  unfold execWorkgroupPlace
  refine next_wf ?_
  split
  · exact h
  · split
    · exact h
    · split
      · exact h
      · split
        · exact ite_wf h (reserveRoom_wf h)
        · split
          · exact ite_wf h (ite_wf (ite_wf h (placeCoop_wf h)) (placeNext_wf h))
          · split
            · exact ite_wf h (placeFormed_wf h)
            · exact h

theorem execGroupFormTimeout_wf {isBin grid n} (h : Memory.wf s = true) : CanonAfter (execGroupFormTimeout isBin grid n s) := by
  unfold execGroupFormTimeout
  refine next_wf ?_
  split
  · split
    · exact h
    · exact ite_wf h (ite_wf (updGrid_wf h) h)
  · exact formQueue_wf h

theorem settleWg_wf {wg} (h : Memory.wf s = true) : Memory.wf (settleWg wg s) = true :=
  releaseAll_wf _ _ (mapGroups_wf (performGroups_wf (foldl_wf _ (fun _ _ hs => ite_wf (unclaim_wf hs) hs) _ _ (completeBegun_wf h))))

theorem leaveCore_wf {wg} (h : Memory.wf s = true) : Memory.wf (leaveCore wg s) = true := by
  have hs := settleWg_wf (wg := wg) h
  unfold leaveCore
  generalize settleWg wg s = u at hs
  exact reenterAll_wf hs

theorem saveOut_wf {wg} (h : Memory.wf s = true) : Memory.wf (saveOut wg s) = true := by
  unfold saveOut
  exact updWg_wf (leaveCore_wf h)

theorem execWorkgroupSaveOut_wf {wg} (h : Memory.wf s = true) : CanonAfter (execWorkgroupSaveOut wg s) := by
  unfold execWorkgroupSaveOut
  refine next_wf ?_
  split
  · exact h
  · split
    · exact h
    · split
      · exact saveOut_wf h
      · exact ite_wf (saveOut_wf (saveOut_wf h)) h

theorem returnTo_wf {w r} (h : Memory.wf s = true) : Memory.wf (returnTo w r s) = true := with_wf (setCarve_wf h) rfl

theorem restoreWg_wf {w core coreU} (h : Memory.wf s = true) : Memory.wf (restoreWg w core coreU s) = true := by
  unfold restoreWg
  dsimp only
  split
  · exact h
  · split
    · exact h
    · split
      · exact childCheck_wf (reenterAll_wf (returnTo_wf h))
      · split
        · exact h
        · split
          · exact h
          · exact childCheck_wf (childCheck_wf (reenterAll_wf (returnTo_wf (returnTo_wf h))))

theorem execWorkgroupRestore_wf {wg core coreU} (h : Memory.wf s = true) : CanonAfter (execWorkgroupRestore wg core coreU s) := by
  unfold execWorkgroupRestore
  refine next_wf ?_
  dsimp only
  split
  · exact h
  · split
    · exact h
    · exact ite_wf (restoreWg_wf h) h

/-! #### Rays and tile visibility -/

theorem traceWord_wf {any k k2 r} (h : Memory.wf s = true) : Memory.wf (traceWord any k k2 r s) = true := by
  unfold traceWord
  refine word_wf (fun _ hs => ?_) h
  dsimp only
  split
  · exact finish_wf (setG_wf hs)
  · exact ite_wf (trapOwn_wf hs) (finish_wf (startToken_wf hs))

theorem progress_wf {ctx} (h : Memory.wf s = true) : Memory.wf (progress ctx s) = true := updCtx_wf h

theorem endToken_wf {grp n t v} (h : Memory.wf s = true) : Memory.wf (endToken grp n t v s) = true :=
  progress_wf (forgetWalks_wf ((updGroup_wf _ _ _).trans h))

theorem finishRays_wf {g n t any k rays b} (h : Memory.wf s = true) : Memory.wf (finishRays g n t any k rays b s) = true := by
  unfold finishRays
  dsimp only
  split
  · exact agentWait_wf h
  · split
    · exact h
    · exact endToken_wf ((updGroup_wf _ _ _).trans (foldl_wf _ (fun _ _ hs => agentFlits_wf hs) _ _ (takeSamples_wf (foldl_wf _
          (fun _ _ hs => noteReads_wf hs) _ _ h))))

theorem execRayWalkComplete_wf {grp n} (h : Memory.wf s = true) : CanonAfter (execRayWalkComplete grp n s) := by
  unfold execRayWalkComplete
  refine next_wf ?_
  split
  · split
    · exact finishRays_wf h
    · exact h
  · exact h

theorem execVisq_wf {k v} (h : Memory.wf s = true) : CanonAfter (execVisq k v s) := by
  unfold execVisq
  refine next_wf (word_wf (fun _ hs => ?_) h)
  dsimp only
  split
  · exact finish_wf hs
  · split
    · exact trapOwn_wf hs
    · refine collective_wf (fun _ hs => ?_) hs
      split
      · exact takeTrap_wf hs
      · exact ite_wf (stallOn_wf hs) (finish_wf (startToken_wf hs))

theorem loadElem_wf {g lane scope as} (h : Memory.wf s = true) : Memory.wf (loadElem g lane scope as s).2 = true := by
  induction as generalizing s with
  | nil => exact h
  | cons a as ih =>
    cases a with
    | none => exact ih h
    | some p => exact ih (loadBytes_wf _ _ _ _ _ _ _ _ (performAt_wf h))

theorem loadList_wf {g lane scope l} (h : Memory.wf s = true) : Memory.wf (loadList g lane scope l s).2.2 = true := by
  induction l generalizing s with
  | nil => exact h
  | cons as r ih =>
    unfold loadList
    dsimp only
    split
    · exact ih (loadElem_wf h)
    · exact ih h

theorem storeWords_wf {g lane scope det as ws} (h : Memory.wf s = true) : Memory.wf (storeWords g lane scope det as ws s) = true := by
  induction as generalizing ws s with
  | nil => exact h
  | cons a as ih =>
    cases ws with
    | nil => cases a <;> exact h
    | cons w ws =>
      cases a with
      | none => exact ih h
      | some a => exact ih (storeBytes_wf _ _ _ _ _ _ _ _ _ _ (performAt_wf h))

theorem finishVisq_wf {g n t lane tx ty first count base b27 b28} (h : Memory.wf s = true) :
    Memory.wf (finishVisq g n t lane tx ty first count base b27 b28 s) = true := by
  unfold finishVisq
  dsimp only
  split
  · exact agentWait_wf h
  · exact agentWait_wf h
  · split
    · exact h
    · exact endToken_wf (takeSamples_wf (performWhere_wf _ _ (storeWords_wf (loadList_wf h))))

theorem execVisqComplete_wf {grp n} (h : Memory.wf s = true) : CanonAfter (execVisqComplete grp n s) := by
  unfold execVisqComplete
  refine next_wf ?_
  split
  · split
    · exact finishVisq_wf h
    · dsimp only
      exact endToken_wf (drawFree_wf h)
    · exact h
  · exact h

/-! #### What completes by itself -/

theorem execVarLatencyComplete_wf {grp n} (h : Memory.wf s = true) : CanonAfter (execVarLatencyComplete grp n s) := by
  unfold execVarLatencyComplete
  refine next_wf ?_
  dsimp only
  split
  · exact performNth_wf h
  · exact (updGroup_wf _ _ _).trans (performNth_wf h)

theorem copyLoad_wf {g e i b} (h : Memory.wf s = true) (ht : copyLoad g e i s = .ok (b, t)) : Memory.wf t = true := by
  unfold copyLoad at ht
  split at ht
  · cases ht
    exact h
  · split at ht
    · split at ht
      · cases ht
        exact h
      · cases ht
        exact (keepLine_wf _ _ _ _).trans ((flitFrom_wf _ _).trans (writeBackAt_wf h))
    · cases ht

theorem noteCopy_wf {g m key b} (h : Memory.wf s = true) : Memory.wf (noteCopy g m key b s) = true := by
  unfold noteCopy
  split
  · exact h
  · exact foldl_wf _ (fun _ _ hs => (noteTask_wf _ _ _ _).trans hs) _ _ h

theorem copyStore_wf {g m e i b n} (h : Memory.wf s = true) (ht : copyStore g m e i b s = .ok (n, t)) : Memory.wf t = true := by
  unfold copyStore at ht
  split at ht
  · cases ht
    exact h
  · split at ht
    · dsimp only at ht
      split at ht
      · cases ht
        exact (scratchStore_wf _ _ _ _ _).trans (noteCopy_wf h)
      · cases ht
        exact performStore_wf _ _ _ _ _ ((keepLine_wf _ _ _ _).trans (drainCore_wf _ _ _ (writeBackAt_wf (noteCopy_wf h))))
    · cases ht

theorem copyLoop_wf {g m src dst n i gwct} (h : Memory.wf s = true) : Memory.wf (copyLoop g m src dst n i gwct s).2.2 = true := by
  induction n generalizing i gwct s with
  | zero => exact h
  | succ n ih =>
    unfold copyLoop
    split
    · exact h
    · have hl := copyLoad_wf h ‹_›
      split
      · exact hl
      · exact ih (copyStore_wf hl ‹_›)

theorem endCopy_wf {g n t batch v gwct vas} (h : Memory.wf s = true) : Memory.wf (endCopy g n t batch v gwct vas s) = true :=
  barrierCheck_wf (endToken_wf ((updGroup_wf _ _ _).trans (takeSamples_wf h)))

theorem finishCopy_wf {g n t src dst count batch} (h : Memory.wf s = true) : Memory.wf (finishCopy g n t src dst count batch s) = true := by
  have hc := copyLoop_wf (g := g) (m := t.lanes) (src := src) (dst := dst) (n := count) (i := 0) (gwct := 0) h
  unfold finishCopy
  split
  · rename_i heq
    exact endCopy_wf (by simpa only [heq] using hc)
  · rename_i heq
    exact endCopy_wf (by simpa only [heq] using hc)
  · exact agentWait_wf h

theorem execCopyComplete_wf {grp n} (h : Memory.wf s = true) : CanonAfter (execCopyComplete grp n s) := by
  unfold execCopyComplete
  refine next_wf ?_
  split
  · split
    · exact finishCopy_wf h
    · exact h
  · exact h

theorem execStorePerformAtHome_wf {n} (h : Memory.wf s = true) : CanonAfter (execStorePerformAtHome n s) := by
  unfold execStorePerformAtHome
  refine next_wf ?_
  split
  · exact h
  · exact performPending_wf _ _ _ h

theorem execLeaseExpiry_wf {lvl unit line} (h : Memory.wf s = true) : CanonAfter (execLeaseExpiry lvl unit line s) := by
  unfold execLeaseExpiry
  refine next_wf ?_
  split
  · exact h
  · exact ite_wf ((putLine_wf _ _).trans h) h

theorem execFenceReleaseComplete_wf {grp} (h : Memory.wf s = true) : CanonAfter (execFenceReleaseComplete grp s) := by
  unfold execFenceReleaseComplete
  refine next_wf ?_
  split
  · exact h
  · split
    · split
      · exact within_wf (fun _ hs => finish_wf hs) h
      · exact ite_wf ((updGroup_wf _ _ _).trans h) h
    · exact h

theorem execAppendGrant_wf {grp} (h : Memory.wf s = true) : CanonAfter (execAppendGrant grp s) := by
  unfold execAppendGrant
  refine next_wf ?_
  split
  · exact h
  · split
    · split
      · exact within_wf (fun _ hs => grantClaim_wf (recordClaim_wf hs)) h
      · exact h
    · exact h

theorem retireGroup_wf {g} (h : Memory.wf s = true) : Memory.wf (retireGroup g s) = true := by
  unfold retireGroup
  exact retireCheck_wf (barrierCheck_wf (dropGroups_wf (updGrid_wf (releaseAll_wf _ _ h))))

theorem execGroupRetire_wf {grp} (h : Memory.wf s = true) : CanonAfter (execGroupRetire grp s) := by
  unfold execGroupRetire
  refine next_wf ?_
  split
  · exact h
  · exact ite_wf (retireGroup_wf h) h

theorem closeGrid_wf {g} (h : Memory.wf s = true) : Memory.wf (closeGrid g s) = true := ite_wf h (retireCheck_wf (childDone_wf
    (updWg_wf h)))

theorem execCompletionRecordWrite_wf {grid} (h : Memory.wf s = true) : CanonAfter (execCompletionRecordWrite grid s) := by
  unfold execCompletionRecordWrite
  refine next_wf ?_
  dsimp only
  split
  · exact h
  · split
    · exact h
    · split
      · exact h
      · split
        · exact closeGrid_wf (writeCompletion_wf h ‹_›)
        · exact closeGrid_wf h
        · exact agentWait_wf h

theorem gridGwct_wf {t a} (h : Memory.wf s = true) : Memory.wf (gridGwct t a s) = true := updGrid_wf h

theorem applyByte_wf {t k b} (h : Memory.wf s = true) : Memory.wf (applyByte t k b s) = true := by
  unfold applyByte
  dsimp only
  split
  · exact (scratchStore_wf _ _ _ _ _).trans h
  · split
    · exact h
    · exact dropCopies_wf (performStore_wf _ _ _ _ _ (writeBackAt_wf (gridGwct_wf (drainCore_wf _ _ _ h))))

theorem applyTask_wf {t} (h : Memory.wf s = true) : Memory.wf (applyTask t s) = true := foldl_wf _ (fun _ _ hs => applyByte_wf hs) _ _ h

theorem settleTask_wf {t} (h : Memory.wf s = true) : Memory.wf (settleTask t s) = true :=
  foldl_wf _ (fun _ _ hs => dropCopies_wf (gridGwct_wf (writeBackAt_wf hs))) _ _ (performWhere_wf _ _ h)

theorem promote_wf {t} (h : Memory.wf s = true) : Memory.wf (promote t s) = true := (updGroup_wf _ _ _).trans (with_wf (applyTask_wf h) rfl)

theorem abortTask_wf {t} (h : Memory.wf s = true) : Memory.wf (abortTask t s) = true := by
  unfold abortTask
  refine updGrid_wf ?_
  split
  · exact (updGroup_wf _ _ _).trans h
  · split
    · exact (updGroup_wf _ _ _).trans h
    · exact barrierCheck_wf ((updGroup_wf _ _ _).trans ((updGroup_wf _ _ _).trans h))

theorem commit_wf {t} (h : Memory.wf s = true) : Memory.wf (commit t s) = true :=
  gridEnd_wf (foldl_wf _ (fun _ _ hs => queueForm_wf hs) _ _ (updGrid_wf (foldl_wf _ (fun _ _ hs => enterQueue_wf hs) _ _ (with_wf
      (foldl_wf _ (fun _ _ hs => abortTask_wf hs) _ _ (ite_wf (applyTask_wf h) (settleTask_wf h))) rfl))))

theorem execTaskCommit_wf {q} (h : Memory.wf s = true) : CanonAfter (execTaskCommit q s) := by
  unfold execTaskCommit
  refine next_wf ?_
  split
  · exact h
  · split
    · exact h
    · split
      · split
        · exact agentWait_wf h
        · exact commit_wf h
      · exact ite_wf (promote_wf h) h

/-! #### Forced turns, routines, pre-emption -/

theorem noteJoin_wf {run before} (h : Memory.wf s = true) : Memory.wf (noteJoin run before s) = true := by
  unfold noteJoin
  dsimp only
  split
  · exact h
  · split
    · exact (updGroup_wf _ _ _).trans h
    · exact (updGroup_wf _ _ _).trans ((updGroup_wf _ _ _).trans h)

theorem noteReady_wf {run before} (h : Memory.wf s = true) : Memory.wf (noteReady run before s) = true := mapGroups_wf h

theorem nextFetch_wf (h : Memory.wf s = true) : Memory.wf (nextFetch s) = true := ite_wf h h

theorem execIssueStarvation_wf {core quarter} (h : Memory.wf s = true) : CanonAfter (execIssueStarvation core quarter s) := by
  unfold execIssueStarvation
  refine next_wf ?_
  split
  · exact h
  · exact h

theorem execFrontierAgeLimit_wf {grp} (h : Memory.wf s = true) : CanonAfter (execFrontierAgeLimit grp s) := by
  unfold execFrontierAgeLimit
  refine next_wf ?_
  split
  · exact h
  · split
    · exact h
    · split
      · exact h
      · exact ite_wf ((updGroup_wf _ _ _).trans h) h

theorem execTlbMissWalk_wf {core} (h : Memory.wf s = true) : CanonAfter (execTlbMissWalk core s) := by
  unfold execTlbMissWalk
  refine next_wf ?_
  dsimp only
  split
  · exact h
  · split
    · exact h
    · split
      · exact h
      · exact ite_wf h h

theorem startHandler_wf {core g r x} (h : Memory.wf s = true) : Memory.wf (startHandler core g r x s) = true := by
  unfold startHandler
  dsimp only
  split
  · exact endThroughPocket_wf h
  · exact agentWait_wf h
  · exact with_wf (agentFlits_wf h) rfl

theorem execHandlerStart_wf {core} (h : Memory.wf s = true) : CanonAfter (execHandlerStart core s) := by
  unfold execHandlerStart
  refine next_wf ?_
  dsimp only
  split
  · exact h
  · split
    · exact h
    · split
      · exact startHandler_wf h
      · exact h

theorem execPageReportWrite_wf (h : Memory.wf s = true) : CanonAfter (execPageReportWrite s) := by
  unfold execPageReportWrite
  refine next_wf ?_
  dsimp only
  split
  · split
    · exact h
    · split
      · split
        · exact h
        · exact (setEvt_wf _ _).trans (with_wf (hostStore_wf _ _ _ h) rfl)
      · exact (setEvt_wf _ _).trans (with_wf (hostStore_wf _ _ _ h) rfl)
  · exact h

theorem abortAll_wf {ctx} (h : Memory.wf s = true) : Memory.wf (abortAll ctx s) = true := foldl_wf _ (fun _ _ hs => abortTask_wf hs) _ _ h

theorem stopContext_wf {ctx} (h : Memory.wf s = true) : Memory.wf (stopContext ctx s) = true :=
  stopWork_wf (fun _ _ hs1 => completeEntryEffects_wf hs1) h

theorem retireDue_wf {ctx} (h : Memory.wf s = true) : Memory.wf (retireDue ctx s) = true := by
  unfold retireDue
  exact foldl_wf _ (fun _ _ hs => retireGroup_wf hs) _ _ h

theorem saveContext_wf {ctx} (h : Memory.wf s = true) : Memory.wf (saveContext ctx s) = true := by
  have hs := keepFrames_wf (ctx := ctx) (gone := false) (abortAll_wf (ctx := ctx) (retireDue_wf (ctx := ctx) (stopContext_wf
      (ctx := ctx) h)))
  unfold saveContext
  dsimp only
  generalize keepFrames ctx false (abortAll ctx (retireDue ctx (stopContext ctx s))) = u at hs ⊢
  exact updCtx_wf (reenterAll_wf hs)

theorem preempt_wf {x} (h : Memory.wf s = true) : Memory.wf (preempt x s) = true := by
  unfold preempt
  split
  · exact agentWait_wf h
  · exact saveContext_wf h

theorem execPreempt_wf {ctx} (h : Memory.wf s = true) : CanonAfter (execPreempt ctx s) := by
  unfold execPreempt
  refine next_wf ?_
  split
  · exact h
  · exact ite_wf (preempt_wf h) h

theorem placeSaved_wf {cores l} (h : Memory.wf s = true) (ht : placeSaved cores l s = some t) : Memory.wf t = true := by
  induction l generalizing s with
  | nil =>
    cases ht
    exact h
  | cons w ws ih =>
    unfold placeSaved at ht
    split at ht
    · dsimp only at ht
      split at ht
      · cases ht
      · split at ht
        · split at ht
          · exact ih (returnTo_wf h) ht
          · cases ht
        · cases ht
    · cases ht

theorem moveRoutines_wf {ctx} (h : Memory.wf s = true) : Memory.wf (moveRoutines ctx s) = true := h

theorem becomeResident_wf {ctx} (h : Memory.wf s = true) : Memory.wf (becomeResident ctx s) = true :=
  updCtx_wf (moveRoutines_wf (reenterAll_wf (ite_wf (setPresent_wf h) h)))

theorem execContextMakeResident_wf {ctx cores} (h : Memory.wf s = true) : CanonAfter (execContextMakeResident ctx cores s) := by
  unfold execContextMakeResident
  refine next_wf ?_
  split
  · exact h
  · split
    · exact h
    · split
      · exact h
      · exact becomeResident_wf (placeSaved_wf h ‹_›)

theorem noteExcused_wf {before} (h : Memory.wf s = true) : Memory.wf (noteExcused before s) = true := ite_wf h h

theorem execHangWatchdog_wf {ctx} (h : Memory.wf s = true) : CanonAfter (execHangWatchdog ctx s) := by
  unfold execHangWatchdog
  refine next_wf ?_
  split
  · exact h
  · exact ite_wf (endThroughPocket_wf h) h

/-! #### Starts, errors, the Seam domain and the host -/

theorem failStart_wf {reason failed} (h : Memory.wf s = true) : Memory.wf (failStart reason failed s) = true := ite_wf h h

theorem execDeviceStart_wf {rep} (h : Memory.wf s = true) : CanonAfter (execDeviceStart rep s) := by
  unfold execDeviceStart
  refine next_wf ?_
  dsimp only
  split
  · exact h
  · split
    · exact failStart_wf h
    · exact h

theorem dropFit_wf {id} (h : Memory.wf s = true) : Memory.wf (dropFit id s) = true := h

theorem execEccUncorrectable_wf {site unit hbm pa} (h : Memory.wf s = true) : CanonAfter (execEccUncorrectable site unit hbm pa s) := by
  unfold execEccUncorrectable
  refine next_wf ?_
  split
  · exact ite_wf (endThroughPocket_wf h) h
  · exact dropFit_wf h
  · exact failStart_wf h

theorem hostWrite_wf {pa bytes} (h : Memory.wf s = true) : Memory.wf (hostWrite pa bytes s) = true :=
  foldl_wf _ (fun _ _ hs => hostLine_wf _ _ hs) _ _ h

theorem seeTails_wf {p} (h : Memory.wf s = true) : Memory.wf (seeTails p s) = true := by
  unfold seeTails
  split
  · exact h
  · exact foldl_wf _ (fun _ _ hs => ite_wf (seeTail_wf hs) hs) _ _ h

theorem declareAbsent_wf {m} (h : Memory.wf s = true) : Memory.wf (declareAbsent m s) = true := h

theorem execPeerLeaveAnnounce_wf {member} (h : Memory.wf s = true) : CanonAfter (execPeerLeaveAnnounce member s) := by
  unfold execPeerLeaveAnnounce
  refine next_wf ?_
  split
  · exact h
  · exact ite_wf (declareAbsent_wf h) h

theorem execPeerSilenceTimeout_wf {member} (h : Memory.wf s = true) : CanonAfter (execPeerSilenceTimeout member s) := by
  unfold execPeerSilenceTimeout
  refine next_wf ?_
  split
  · exact h
  · exact ite_wf (declareAbsent_wf h) h

theorem execTimeJoinComplete_wf {member} (h : Memory.wf s = true) : CanonAfter (execTimeJoinComplete member s) := by
  unfold execTimeJoinComplete
  refine next_wf ?_
  split
  · split
    · exact ite_wf h h
    · exact h
  · exact h

theorem leaseLines_wf {core ctx va n} (h : Memory.wf s = true) : Memory.wf (leaseLines core ctx va n s) = true := by
  unfold leaseLines
  refine foldl_wf _ (fun _ _ hs => ?_) _ _ h
  split
  · exact (grantLease_wf _ _).trans hs
  · exact hs

theorem performPeer_wf {x va op} (h : Memory.wf s = true) : Memory.wf (performPeer x va op s) = true := by
  unfold performPeer
  dsimp only
  split
  · split
    · exact forgetWalks_wf (leaseLines_wf h)
    · split
      · exact forgetWalks_wf h
      · exact agentWait_wf h
  · split
    · exact forgetWalks_wf (agentWrite_wf _ _ _ _ _ _ h ‹_›)
    · split
      · exact forgetWalks_wf h
      · exact agentWait_wf h
  · split
    · split
      · exact forgetWalks_wf (agentWrite_wf _ _ _ _ _ _ h ‹_›)
      · split
        · exact forgetWalks_wf h
        · exact agentWait_wf h
    · split
      · exact forgetWalks_wf h
      · exact agentWait_wf h

theorem execPeerAccess_wf {member win off op} (h : Memory.wf s = true) : CanonAfter (execPeerAccess member win off op s) := by
  unfold execPeerAccess
  refine next_wf ?_
  dsimp only
  split
  · exact h
  · split
    · exact h
    · split
      · exact h
      · split
        · split
          · split
            · exact performPeer_wf h
            · exact h
          · exact h
        · split
          · split
            · exact performPeer_wf h
            · exact h
          · exact h

/-! #### The presentation engine -/

theorem slotWork_wf {f w} (h : Memory.wf s = true) (ht : slotWork f w s = .ok t) : Memory.wf t = true := by
  unfold slotWork at ht
  dsimp only at ht
  split at ht
  · exact agentWrite_wf _ _ _ _ _ _ h ht
  · split at ht
    · split at ht
      · exact agentWrite_wf _ _ _ _ _ _ h ht
      · cases ht
        exact h
    · cases ht

theorem doWork_wf {f w} (h : Memory.wf s = true) : Memory.wf (doWork f w s) = true := by
  unfold doWork
  split
  · exact h
  · split
    · refine forgetWalks_wf ?_
      split
      · exact ringFlits_wf (slotWork_wf h ‹_›)
      · exact slotWork_wf h ‹_›
    · exact agentWait_wf (setPresent_wf h)
    · exact forgetWalks_wf h

theorem doTodo_wf {f} (h : Memory.wf s = true) : Memory.wf (doTodo f s) = true :=
  foldl_wf _ (fun _ _ hs => doWork_wf hs) _ _ (setPresent_wf h)

theorem checkedFlits_wf {f r} (h : Memory.wf s = true) : Memory.wf (checkedFlits f r s) = true := by
  unfold checkedFlits
  split
  · exact h
  · split
    · exact ringFlits_wf h
    · exact ringFlits_wf h

theorem checkFrame_wf {f k} (h : Memory.wf s = true) : Memory.wf (checkFrame f k s) = true := by
  unfold checkFrame
  dsimp only
  split
  · exact agentWait_wf (setPresent_wf (checkedFlits_wf h))
  · exact setPresent_wf (forgetWalks_wf (checkedFlits_wf h))
  · exact doWork_wf (setPresent_wf (forgetWalks_wf (checkedFlits_wf h)))

theorem execPresentCheck_wf (h : Memory.wf s = true) : CanonAfter (execPresentCheck s) := by
  unfold execPresentCheck
  refine next_wf ?_
  dsimp only
  split
  · exact ite_wf (checkFrame_wf (doTodo_wf h)) (doTodo_wf h)
  · exact h

theorem checkBetween_wf {from_ due} (h : Memory.wf s = true) : Memory.wf (checkBetween from_ due s) = true := by
  unfold checkBetween
  split
  · dsimp only
    split
    · exact checkFrame_wf h
    · exact h
  · exact h

theorem passTime_wf {due} (h : Memory.wf s = true) : Memory.wf (passTime due s) = true := checkBetween_wf h

theorem checkLate_wf {from_} (h : Memory.wf s = true) : Memory.wf (checkLate from_ s) = true := ite_wf h (with_wf (checkBetween_wf h) rfl)

theorem sendFrame_wf {f k bytes} (h : Memory.wf s = true) : Memory.wf (sendFrame f k bytes s) = true := by
  unfold sendFrame
  dsimp only
  split
  · exact ite_wf (hostStore_wf _ _ _ h) h
  · split
    · exact ite_wf (agentStore_wf _ _ _ h) h
    · exact h

theorem freeSlots_wf {f k keep} (h : Memory.wf s = true) : Memory.wf (freeSlots f k keep s) = true :=
  foldl_wf _ (fun _ _ hs => ite_wf hs (doWork_wf hs)) _ _ h

theorem showFrame_wf {f k t g} (h : Memory.wf s = true) : Memory.wf (showFrame f k t g s) = true := by
  unfold showFrame
  refine freeSlots_wf (setPresent_wf (sendFrame_wf ?_))
  split
  · exact ite_wf h (doWork_wf h)
  · exact h

theorem showCloak_wf {f k t} (h : Memory.wf s = true) : Memory.wf (showCloak f k t s) = true := by
  unfold showCloak
  dsimp only
  split
  · exact freeSlots_wf (setPresent_wf (sendFrame_wf ((setEvt_wf _ _).trans (drawFree_wf h))))
  · exact freeSlots_wf (setPresent_wf (sendFrame_wf ((setEvt_wf _ _).trans (drawFree_wf h))))

theorem swapSource_wf (h : Memory.wf s = true) : Memory.wf (swapSource s) = true := by
  unfold swapSource
  dsimp only
  split
  · exact h
  · exact setPresent_wf h

theorem execPresentInstant_wf (h : Memory.wf s = true) : CanonAfter (execPresentInstant s) := by
  unfold execPresentInstant
  refine next_wf ?_
  dsimp only
  split
  · exact h
  · split
    · exact h
    · refine swapSource_wf (setPresent_wf ?_)
      cases s.present.source with
      | none => exact h
      | some f =>
        have hd := doTodo_wf (f := f) h
        dsimp only [setPresent]
        generalize doTodo f s = u at hd ⊢
        split
        · exact ite_wf (showFrame_wf hd) (showCloak_wf hd)
        · exact showCloak_wf hd

/-! #### Privileged words -/

theorem tlbRoom_wf {core} (h : Memory.wf s = true) : Memory.wf (tlbRoom core s) = true := by
  unfold tlbRoom
  dsimp only
  split
  · exact h
  · split
    · exact h
    · exact drawFree_wf h

theorem putTlb_wf {e} (h : Memory.wf s = true) : Memory.wf (putTlb e s) = true := by
  unfold putTlb
  exact ite_wf (with_wf (u := tlbRoom e.core _) (tlbRoom_wf (by exact h)) rfl) h

theorem dropTlb_wf {ctx p} (h : Memory.wf s = true) : Memory.wf (dropTlb ctx p s) = true :=
  with_wf (performWhere_wf _ _ (performGroups_wf h)) rfl

theorem haltNow_wf {uid} (h : Memory.wf s = true) : Memory.wf (haltNow uid s) = true := by
  unfold haltNow
  dsimp only
  split
  · exact h
  · exact haltFor_wf (stopWith_wf (unclaim_wf h))

theorem resumeIssuer_wf {uid} (h : Memory.wf s = true) : Memory.wf (resumeIssuer uid s) = true := by
  unfold resumeIssuer
  dsimp only
  split
  · exact h
  · split
    · refine haltNow_wf (barrierCheck_wf ?_)
      split
      · exact updWg_wf (with_wf ((updGroup_wf _ _ _).trans h) rfl)
      · exact with_wf ((updGroup_wf _ _ _).trans h) rfl
    · refine barrierCheck_wf ?_
      split
      · exact updWg_wf (with_wf ((updGroup_wf _ _ _).trans h) rfl)
      · exact with_wf ((updGroup_wf _ _ _).trans h) rfl

theorem walkOutcome_wf {g} (h : Memory.wf s = true) : Memory.wf (walkOutcome g s) = true :=
  ite_wf (finishEnd_wf h) ((updGroup_wf _ _ _).trans h)

theorem execHret_wf (h : Memory.wf s = true) : CanonAfter (execHret s) := by
  unfold execHret
  refine next_wf (word_wf (fun _ hs => ?_) h)
  dsimp only
  split
  · exact walkOutcome_wf (dropGroups_wf hs)
  · exact resumeIssuer_wf (dropGroups_wf hs)

theorem setTrace_wf {ctx t} (h : Memory.wf s = true) : Memory.wf (setTrace ctx t s) = true := updCtx_wf h

theorem traceField_wf {a off n} (h : Memory.wf s = true) : Memory.wf (traceField a off n s) = true := agentStore_wf _ _ _ h

theorem traceSuspend_wf {ctx ctl} (h : Memory.wf s = true) : Memory.wf (traceSuspend ctx ctl s) = true := by
  unfold traceSuspend
  refine (setEvt_wf _ _).trans ?_
  dsimp only
  split
  · exact traceField_wf (traceField_wf (traceField_wf (setTrace_wf h)))
  · exact setTrace_wf h

theorem traceDrop_wf {ctx ctl} (h : Memory.wf s = true) : Memory.wf (traceDrop ctx ctl s) = true := by
  unfold traceDrop
  dsimp only
  split
  · exact traceField_wf (setTrace_wf h)
  · exact setTrace_wf h

theorem traceWrite_wf {ctx ctl place bytes} (h : Memory.wf s = true) : Memory.wf (traceWrite ctx ctl place bytes s) = true := by
  unfold traceWrite
  dsimp only
  split
  · exact h
  · split
    · exact traceDrop_wf h
    · split
      · split
        · split
          · exact traceDrop_wf (setTrace_wf ((flitFrom_wf _ _).trans h))
          · exact traceField_wf (setTrace_wf (agentStore_wf _ _ _ (setTrace_wf ((flitFrom_wf _ _).trans h))))
        · split
          · exact traceDrop_wf (setTrace_wf h)
          · exact traceField_wf (setTrace_wf (agentStore_wf _ _ _ (setTrace_wf h)))
      · exact traceSuspend_wf h

theorem execSnap_wf {a g} (h : Memory.wf s = true) : CanonAfter (execSnap a g s) := by
  unfold execSnap
  refine next_wf (word_wf (fun _ hs => ?_) h)
  dsimp only
  split
  · exact ite_wf (finish_wf (traceDrop_wf hs)) (walkStall_wf hs)
  · exact finish_wf (traceWrite_wf hs)

/-! #### Mailbox commands -/

theorem putPay_wf {bs} (h : Memory.wf s = true) : Memory.wf (putPay bs s) = true := h

theorem complete_wf {status len} (h : Memory.wf s = true) : Memory.wf (complete status len s) = true := (setEvt_wf _ _).trans h

/-- A command keeps the form when its body does. -/
theorem command_wf {code minimal body} (hb : ∀ s, Memory.wf s = true → CanonEnd (body s)) (h : Memory.wf s = true) :
    Memory.wf (command code minimal body s) = true := by
  have hend := hb s h
  unfold command
  split
  · exact h
  · split
    · exact complete_wf h
    · split <;> rename_i heq <;> rw [heq] at hend <;> cases hend
      case h_1 hs => exact complete_wf (putPay_wf hs)
      case h_2 hs => exact complete_wf hs
      case h_3 => exact complete_wf h
      case h_4 => exact complete_wf (putPay_wf h)
      case h_5 hs => exact hs
      case h_6 => exact h

theorem withCtx_wf {id body} (hb : ∀ x, CanonEnd (body x)) : CanonEnd (withCtx id s body) := by
  unfold withCtx
  split
  · exact .fail
  · exact hb _

theorem toBuffer_wf {a len bs} (h : Memory.wf s = true) : CanonEnd (toBuffer a len bs s) := by
  unfold toBuffer
  split
  · exact .fail
  · split
    · exact .short
    · split
      · exact .hold
      · exact .buffer (hostStore_wf _ _ _ h)

theorem createCtx_wf {p} (h : Memory.wf s = true) : CanonEnd (createCtx p s) := by
  unfold createCtx
  dsimp only
  split
  · exact .fail
  · split
    · exact .fail
    · split
      · exact .fail
      · exact .done h

theorem execCtxCreate_wf (h : Memory.wf s = true) : CanonAfter (execCtxCreate s) := by
  unfold execCtxCreate
  refine next_wf (command_wf (fun _ hs => ?_) h)
  split
  · exact .fail
  · exact createCtx_wf hs

theorem destroyed_wf {id} (h : Memory.wf s = true) : CanonEnd (destroyed id s) := by
  unfold destroyed
  dsimp only
  split
  · exact .done h
  · exact .wait h

theorem execCtxDestroy_wf (h : Memory.wf s = true) : CanonAfter (execCtxDestroy s) := by
  unfold execCtxDestroy
  refine next_wf (command_wf (fun _ hs => ?_) h)
  split
  · exact destroyed_wf (finishEnd_wf hs)
  · exact withCtx_wf (fun _ => destroyed_wf (endContext_wf (ite_wf (retireDue_wf (stopContext_wf hs)) hs)))

theorem mappingChanged_wf {ctx base len} (h : Memory.wf s = true) : Memory.wf (mappingChanged ctx base len s) = true :=
  updCtx_wf (foldl_wf _ (fun _ _ hs => dropFit_wf hs) _ _ (dropTlb_wf h))

theorem mapCommand_wf (h : Memory.wf s = true) : CanonEnd (mapCommand s) := by
  unfold mapCommand
  refine withCtx_wf (fun _ => ?_)
  split
  · exact .done (mappingChanged_wf h)
  · exact .fail

theorem hemResume_wf {ctx page} (h : Memory.wf s = true) : Memory.wf (hemResume ctx page s) = true := updCtx_wf h

theorem execHemResume_wf (h : Memory.wf s = true) : CanonAfter (execHemResume s) := by
  unfold execHemResume
  refine next_wf (command_wf (fun _ hs => withCtx_wf (fun _ => ?_)) h)
  dsimp only
  split
  · exact .done (hemResume_wf hs)
  · exact .fail

theorem execFaultRing_wf (h : Memory.wf s = true) : CanonAfter (execFaultRing s) := by
  unfold execFaultRing
  refine next_wf (command_wf (fun _ hs => ?_) h)
  dsimp only
  split
  · exact .fail
  · exact .done hs

theorem execQueueSetup_wf (h : Memory.wf s = true) : CanonAfter (execQueueSetup s) := by
  unfold execQueueSetup
  refine next_wf (command_wf (fun _ hs => withCtx_wf (fun _ => ?_)) h)
  dsimp only
  split
  · exact .fail
  · split
    · exact .fail
    · split
      · exact .fail
      · split
        · exact .fail
        · exact .done (ite_wf (seeTail_wf hs) hs)

theorem execQueueClose_wf (h : Memory.wf s = true) : CanonAfter (execQueueClose s) := by
  unfold execQueueClose
  refine next_wf (command_wf (fun _ hs => ?_) h)
  dsimp only
  split
  · exact .fail
  · refine .done ?_
    split
    · exact gridEnd_wf (updQueue_wf hs)
    · exact updQueue_wf hs

theorem execPoolSetup_wf (h : Memory.wf s = true) : CanonAfter (execPoolSetup s) := by
  unfold execPoolSetup
  refine next_wf (command_wf (fun _ hs => withCtx_wf (fun _ => ?_)) h)
  dsimp only
  split
  · exact .fail
  · exact .done (updCtx_wf hs)

theorem resetQueue_wf {q} (h : Memory.wf s = true) : Memory.wf (resetQueue q s) = true := by
  unfold resetQueue
  dsimp only
  split
  · exact h
  · split
    · exact seeTail_wf (hostStore_wf _ _ _ (updQueue_wf h))
    · exact updQueue_wf h

theorem execQueueReset_wf (h : Memory.wf s = true) : CanonAfter (execQueueReset s) := by
  unfold execQueueReset
  refine next_wf (command_wf (fun _ hs => ?_) h)
  split
  · exact .fail
  · exact .done (resetQueue_wf hs)

theorem armTrace_wf {x base size} (h : Memory.wf s = true) : CanonEnd (armTrace x base size s) := by
  unfold armTrace
  dsimp only
  split
  · exact .done (setTrace_wf (agentWrite_wf _ _ _ _ _ _ h ‹_›))
  · exact .wait (agentWait_wf h)
  · exact .done ((setEvt_wf _ _).trans (setTrace_wf (forgetWalks_wf h)))

theorem execTraceArm_wf (h : Memory.wf s = true) : CanonAfter (execTraceArm s) := by
  unfold execTraceArm
  refine next_wf (command_wf (fun _ hs => withCtx_wf (fun _ => ?_)) h)
  dsimp only
  split
  · exact .fail
  · exact armTrace_wf hs

theorem sampleRecord_wf {g pc va qtime} (h : Memory.wf s = true) : Memory.wf (sampleRecord g pc va qtime s) = true := by
  unfold sampleRecord
  dsimp only
  split
  · exact agentWait_wf h
  · exact traceWrite_wf h

theorem execSampleRecord_wf {grp pc va qtime} (h : Memory.wf s = true) : CanonAfter (execSampleRecord grp pc va qtime s) := by
  unfold execSampleRecord
  refine next_wf ?_
  dsimp only
  split
  · exact h
  · split
    · exact h
    · split
      · exact updCtx_wf (forgetWalks_wf (sampleRecord_wf h))
      · exact sampleRecord_wf h

theorem execPeerExport_wf (h : Memory.wf s = true) : CanonAfter (execPeerExport s) := by
  unfold execPeerExport
  refine next_wf (command_wf (fun _ hs => withCtx_wf (fun _ => ?_)) h)
  dsimp only
  split
  · exact .fail
  · split
    · exact .fail
    · split
      · exact .fail
      · exact .done hs

theorem execPeerImport_wf (h : Memory.wf s = true) : CanonAfter (execPeerImport s) := by
  unfold execPeerImport
  refine next_wf (command_wf (fun _ hs => withCtx_wf (fun _ => ?_)) h)
  dsimp only
  split
  · exact .fail
  · split
    · exact .fail
    · split
      · exact .fail
      · exact .done hs

theorem execFramelock_wf (h : Memory.wf s = true) : CanonAfter (execFramelock s) := by
  unfold execFramelock
  refine next_wf (command_wf (fun _ hs => ?_) h)
  dsimp only
  split
  · exact .fail
  · refine .done ?_
    split
    · exact setPresent_wf hs
    · exact hs

theorem putSource_wf {f} (h : Memory.wf s = true) : Memory.wf (putSource f s) = true := ite_wf (setPresent_wf h) (setPresent_wf h)

theorem execFrameSource_wf (h : Memory.wf s = true) : CanonAfter (execFrameSource s) := by
  unfold execFrameSource
  refine next_wf (command_wf (fun _ hs => ?_) h)
  dsimp only
  split
  · exact .done (setPresent_wf hs)
  · refine withCtx_wf (fun _ => ?_)
    split
    · exact .fail
    · split
      · exact .fail
      · exact .done (putSource_wf hs)

theorem execAttest_wf (h : Memory.wf s = true) : CanonAfter (execAttest s) := by
  unfold execAttest
  refine next_wf (command_wf (fun _ hs => ?_) h)
  dsimp only
  split
  · exact toBuffer_wf hs
  · exact withCtx_wf (fun _ => toBuffer_wf hs)

theorem execPocketRead_wf (h : Memory.wf s = true) : CanonAfter (execPocketRead s) := by
  unfold execPocketRead
  refine next_wf (command_wf (fun _ hs => ?_) h)
  split
  · exact .fail
  · exact toBuffer_wf hs

/-! #### Debugger commands -/

theorem debugCommand_wf {code body} (hb : ∀ s x, Memory.wf s = true → CanonEnd (body s x)) (h : Memory.wf s = true) :
    Memory.wf (debugCommand code body s) = true := by
  refine command_wf (fun s hs => withCtx_wf fun x => ?_) h
  split
  · exact hb s x hs
  · exact .fail

theorem onTargets_wf {x body} (hb : ∀ gs, CanonEnd (body gs)) : CanonEnd (onTargets s x body) := by
  unfold onTargets
  dsimp only
  split
  · exact .fail
  · split
    · exact .fail
    · exact hb _

theorem execDbgAttach_wf (h : Memory.wf s = true) : CanonAfter (execDbgAttach s) := by
  unfold execDbgAttach
  refine next_wf (command_wf (fun _ hs => withCtx_wf (fun _ => ?_)) h)
  split
  · exact .fail
  · exact .done (updCtx_wf hs)

theorem resumeAll_wf {gs} (h : Memory.wf s = true) : Memory.wf (resumeAll gs s) = true :=
  foldl_wf _ (fun _ _ hs => ite_wf (resumeIssuer_wf hs) hs) _ _ h

theorem freshProgress_wf {ctx} (h : Memory.wf s = true) : Memory.wf (freshProgress ctx s) = true := updCtx_wf h

theorem haltTarget_wf {g} (h : Memory.wf s = true) : Memory.wf (haltTarget g s) = true := by
  unfold haltTarget
  split
  · exact h
  · exact (updGroup_wf _ _ _).trans h
  · exact haltNow_wf h

theorem execDbgResume_wf (h : Memory.wf s = true) : CanonAfter (execDbgResume s) := by
  unfold execDbgResume
  refine next_wf (debugCommand_wf (fun _ _ hs => onTargets_wf (fun _ => ?_)) h)
  dsimp only
  split
  · exact .fail
  · exact .done (freshProgress_wf (resumeAll_wf (foldl_wf _ (fun _ _ hs => ite_wf ((updGroup_wf _ _ _).trans hs) hs) _ _ hs)))

theorem execDbgBreak_wf (h : Memory.wf s = true) : CanonAfter (execDbgBreak s) := by
  unfold execDbgBreak
  refine next_wf (debugCommand_wf (fun _ _ hs => ?_) h)
  dsimp only
  split
  · exact .fail
  · exact .done (updCtx_wf hs)

theorem execDbgWatch_wf (h : Memory.wf s = true) : CanonAfter (execDbgWatch s) := by
  unfold execDbgWatch
  refine next_wf (debugCommand_wf (fun _ _ hs => ?_) h)
  dsimp only
  split
  · exact .fail
  · exact .done (updCtx_wf hs)

theorem execDbgSample_wf (h : Memory.wf s = true) : CanonAfter (execDbgSample s) := by
  unfold execDbgSample
  refine next_wf (debugCommand_wf (fun _ _ hs => ?_) h)
  dsimp only
  split
  · exact .done (updCtx_wf hs)
  · exact .fail

theorem haltedTarget_wf {x body} (hb : ∀ g, CanonEnd (body g)) : CanonEnd (haltedTarget s x body) := by
  unfold haltedTarget
  split
  · exact .fail
  · refine onTargets_wf fun gs => ?_
    split
    · exact .fail
    · split
      · exact hb _
      · exact .fail

theorem layItem_wf {n content} (h : Memory.wf s = true) : CanonEnd (layItem n content s) := .done h

theorem readCsrItem_wf {t m n} (h : Memory.wf s = true) : CanonEnd (readCsrItem s t m n) := by
  unfold readCsrItem
  split
  · exact .fail
  · split
    · exact .done h
    · dsimp only
      exact .done (drawFree_wf h)

theorem readClosures_wf {t m r} (h : Memory.wf s = true) : CanonEnd (readClosures s t m r) := by
  unfold readClosures
  dsimp only
  split
  · exact .fail
  · exact .done h

theorem readItem_wf {t n m} (h : Memory.wf s = true) : CanonEnd (readItem s t n m) := by
  unfold readItem
  dsimp only
  split
  · exact readCsrItem_wf h
  · split
    · exact readClosures_wf h
    · split
      · split
        · exact layItem_wf h
        · exact .fail
      · split
        · split
          · exact layItem_wf h
          · exact .fail
        · split
          · exact layItem_wf h
          · split
            · exact layItem_wf h
            · exact .fail

theorem writeItem_wf {t n m v} (h : Memory.wf s = true) : CanonEnd (writeItem s t n m v) := by
  unfold writeItem
  dsimp only
  split
  · exact .fail
  · exact .done ((updGroup_wf _ _ _).trans h)

theorem execCtxPreempt_wf (h : Memory.wf s = true) : CanonAfter (execCtxPreempt s) := by
  unfold execCtxPreempt
  refine next_wf (debugCommand_wf (fun _ _ hs => ?_) h)
  split
  · exact .wait (preempt_wf hs)
  · exact .done (updCtx_wf (ite_wf (saveContext_wf hs) hs))

theorem placeFirst_wf {x cores l done} (h : Memory.wf s = true) (ht : placeFirst x cores l done s = some t) : Memory.wf t = true := by
  induction l generalizing done s with
  | nil =>
    cases ht
    exact h
  | cons w ws ih =>
    unfold placeFirst at ht
    split at ht
    · cases ht
    · dsimp only at ht
      split at ht
      · cases ht
      · split at ht
        · cases ht
        · exact ih (returnTo_wf h) ht

theorem restoreNow_wf {x} (h : Memory.wf s = true) (ht : restoreNow x s = some t) : Memory.wf t = true := by
  unfold restoreNow at ht
  split at ht
  · cases ht
  · obtain ⟨u, hu, rfl⟩ := Option.map_eq_some_iff.1 ht
    exact becomeResident_wf (placeFirst_wf h hu)

theorem execCtxRestore_wf (h : Memory.wf s = true) : CanonAfter (execCtxRestore s) := by
  unfold execCtxRestore
  refine next_wf (debugCommand_wf (fun _ _ hs => ?_) h)
  dsimp only
  split
  · exact .done (updCtx_wf hs)
  · split
    · exact .done (restoreNow_wf (updCtx_wf hs) ‹_›)
    · exact .wait (updCtx_wf hs)

/-! #### Matrix words -/

theorem feedWith_wf {t v fw} (h : Memory.wf s = true) : Memory.wf (feedWith t v fw s) = true := by
  unfold feedWith
  dsimp only
  split
  · exact trapOwn_wf h
  · split
    · split
      · exact trapOwn_wf h
      · split
        · exact stallOn_wf h
        · split
          · exact stallOn_wf h
          · exact ite_wf (trapOwn_wf h) (finish_wf (putTile_wf h))
    · split
      · exact trapOwn_wf h
      · split
        · exact stallOn_wf h
        · split
          · exact stallOn_wf h
          · exact ite_wf (trapOwn_wf h) (finish_wf (putTile_wf h))

theorem execTfeed_wf {t v f} (h : Memory.wf s = true) : CanonAfter (execTfeed t v f s) := by
  unfold execTfeed
  refine next_wf (word_wf (fun _ hs => ?_) h)
  dsimp only
  split
  · exact finish_wf hs
  · exact collective_wf (fun _ hs => ite_wf (trapOwn_wf hs) (feedWith_wf hs)) hs

theorem execTrel_wf {t} (h : Memory.wf s = true) : CanonAfter (execTrel t s) := by
  unfold execTrel
  refine next_wf (word_wf (fun _ hs => ?_) h)
  dsimp only
  split
  · exact finish_wf hs
  · exact ite_wf (trapOwn_wf hs) (finish_wf (ite_wf hs (putTile_wf hs)))

theorem execTdrain_wf {a d c} (h : Memory.wf s = true) : CanonAfter (execTdrain a d c s) := by
  unfold execTdrain
  refine next_wf (word_wf (fun _ hs => ?_) h)
  dsimp only
  split
  · exact trapOwn_wf hs
  · split
    · exact takeTrap_wf hs
    · exact finish_wf (launchOp_wf hs)

theorem completeThread_wf {pair} (h : Memory.wf s = true) : Memory.wf (completeThread pair s) = true := finish_wf (setG_wf h)

theorem completeWords_wf {e} (h : Memory.wf s = true) : Memory.wf (completeWords e s) = true := by
  unfold completeWords
  dsimp only
  split
  · exact completeThread_wf (enterEntry_wf h)
  · exact completeThread_wf (within_wf (fun _ hs => completeThread_wf hs) (enterEntry_wf h))

theorem enterOr_wf {e} (h : Memory.wf s = true) : Memory.wf (enterOr e s) = true := ite_wf (stallOn_wf (setG_wf h)) (completeWords_wf h)

theorem divergeBoth_wf {partner info} (h : Memory.wf s = true) : Memory.wf (divergeBoth partner info s) = true := by
  unfold divergeBoth
  dsimp only
  split
  · split
    · split
      · exact takeTrap_wf (setG_wf (within_wf (fun _ hs => takeTrap_wf (setG_wf hs)) h))
      · exact within_wf (fun _ hs => takeTrap_wf (setG_wf hs)) h
    · exact ite_wf (takeTrap_wf (setG_wf h)) h
  · split
    · exact within_wf (fun _ hs => takeTrap_wf (setG_wf hs)) (takeTrap_wf (setG_wf h))
    · exact takeTrap_wf (setG_wf h)

theorem pairWord_wf {kind w sel val bTile fl} (h : Memory.wf s = true) : Memory.wf (pairWord kind w sel val bTile fl s) = true := by
  unfold pairWord
  dsimp only
  split
  · split
    · exact ite_wf (trapOwn_wf h) (enterOr_wf h)
    · exact enterOr_wf h
  · split
    · exact ite_wf (divergeBoth_wf h) (enterOr_wf (setG_wf h))
    · exact stallOn_wf (setG_wf h)

theorem tabWords_wf {scope as} (h : Memory.wf s = true) : Memory.wf (tabWords scope as s).2 = true := by
  induction as generalizing s with
  | nil => exact h
  | cons a as ih =>
    unfold tabWords
    dsimp only
    split
    · exact ih (laneLoad_wf h)
    · exact ih h

theorem execCtab_wf {a n} (h : Memory.wf s = true) : CanonAfter (execCtab a n s) := by
  unfold execCtab
  refine next_wf (word_wf (fun _ hs => ?_) h)
  dsimp only
  split
  · exact takeTrap_wf hs
  · split
    · exact takeTrap_wf hs
    · exact walkStall_wf hs
    · exact parkWord_wf hs
    · split
      · split
        · exact trapOwn_wf hs
        · exact finish_wf (updWg_wf (tabWords_wf (sampled_wf hs)))
      · split
        · exact trapOwn_wf hs
        · exact finish_wf (updWg_wf (tabWords_wf (sampled_wf hs)))

theorem enterHeld_wf {e} (h : Memory.wf s = true) : Memory.wf (enterHeld e s) = true := by
  unfold enterHeld
  dsimp only
  split
  · exact ite_wf h (completeWords_wf h)
  · exact ite_wf h (ite_wf (divergeBoth_wf h) (completeWords_wf h))

theorem execPatternTableEnter_wf {grp} (h : Memory.wf s = true) : CanonAfter (execPatternTableEnter grp s) := by
  unfold execPatternTableEnter
  refine next_wf ?_
  split
  · exact h
  · split
    · exact ite_wf (within_wf (fun _ hs => enterHeld_wf hs) h) h
    · exact h

theorem goAlone_wf (h : Memory.wf s = true) : Memory.wf (goAlone s) = true := by
  unfold goAlone
  split
  · exact h
  · exact ite_wf (pairWord_wf h) (pairWord_wf h)

theorem endThread_wf (h : Memory.wf s = true) : Memory.wf (endThread s) = true := updWg_wf (setG_wf (settle_wf h))

theorem execExit_wf (h : Memory.wf s = true) : CanonAfter (execExit s) := by
  unfold execExit
  refine next_wf (word_wf (fun _ hs => ?_) h)
  split
  · refine retireCheck_wf ?_
    split
    · exact endThread_wf hs
    · exact within_wf (fun _ hs => goAlone_wf hs) (endThread_wf hs)
  · exact exitLanes_wf hs

/-! #### Floating vector words -/

theorem fp32Word_wf {d a b e} (h : Memory.wf s = true) : Memory.wf (fp32Word d a b e s) = true := vec3_wf h

theorem packedWord_wf {f d a b e} (h : Memory.wf s = true) : Memory.wf (packedWord f d a b e s) = true := vec3_wf h

theorem fp64Word_wf {d a b e} (h : Memory.wf s = true) : Memory.wf (fp64Word d a b e s) = true := vecFixed_wf h

/-! #### Two-register words -/

theorem bitWord_wf {d a dw aw feats f} (h : Memory.wf s = true) : Memory.wf (bitWord d a dw aw feats f s) = true := vecFixed_wf h

theorem signWord_wf {m d a one two} (h : Memory.wf s = true) : Memory.wf (signWord m d a one two s) = true :=
  ite_wf (bitWord_wf h) (bitWord_wf h)

theorem specialWord_wf {d a f} (h : Memory.wf s = true) : Memory.wf (specialWord d a f s) = true := vecVar_wf h

theorem specialWord64_wf {d a f} (h : Memory.wf s = true) : Memory.wf (specialWord64 d a f s) = true := vecVar_wf h

/-! #### The Tailor -/

theorem makeRoom_wf {f n} (h : Memory.wf s = true) : Memory.wf (makeRoom f n s).2 = true := by
  induction n generalizing s with
  | zero => exact h
  | succ n ih =>
    unfold makeRoom
    split
    · exact h
    · split
      · exact h
      · exact ih h

theorem keepOriginal_wf {g} (h : Memory.wf s = true) : Memory.wf (keepOriginal g s) = true := h

theorem keepResidual_wf {x g r folds pages} (h : Memory.wf s = true) : Memory.wf (keepResidual x g r folds pages s) = true := by
  unfold keepResidual
  dsimp only
  exact with_wf (makeRoom_wf (fresh_wf h)) rfl

theorem execTailorRun_wf {grid} (h : Memory.wf s = true) : CanonAfter (execTailorRun grid s) := by
  unfold execTailorRun
  refine next_wf ?_
  dsimp only
  split
  · exact h
  · split
    · exact h
    · split
      · exact h
      · split
        · exact keepOriginal_wf h
        · split
          · exact agentWait_wf h
          · split
            · exact keepResidual_wf (forgetWalks_wf (foldl_wf _ (fun _ _ hs => agentFlits_wf hs) _ _ (foldl_wf _
                  (fun _ _ hs => agentFlits_wf hs) _ _ h)))
            · exact foldl_wf _ (fun _ _ hs => agentWait_wf hs) _ _ (foldl_wf _ (fun _ _ hs => agentFlits_wf hs) _ _ h)
            · exact foldl_wf _ (fun _ _ hs => agentFlits_wf hs) _ _ h
            · exact keepOriginal_wf (forgetWalks_wf (foldl_wf _ (fun _ _ hs => agentFlits_wf hs) _ _ h))

/-! #### Every instruction -/

/-- Every word and every event keeps the form. -/
theorem exec_wf {i} (h : Memory.wf s = true) : CanonAfter (exec i s) := by
  cases i
  case clauseHeader => exact execClauseHeader_wf h
  case nop => exact execNop_wf h
  case ximm | ximmf | xscl | xrnd | xevc | xscp | xpart => exact next_wf (hintWord_wf h)
  case pool => exact execPool_wf h
  case fadd | fsub | fmul | fmac | fmsb => exact next_wf (fp32Word_wf h)
  case fmin | fmax | fcps | iadd | isub | imul | imulh | umulh | imac | imin | imax | and | or | xor | andn | shl | shr | sar
      | rot | umin | umax | dot4 | dot8 | hdot2 | prmt | rnd =>
    exact next_wf (vec3_wf h)
  case hadd2 | hmul2 | hmac2 | badd2 | bmul2 | bmac2 => exact next_wf (packedWord_wf h)
  case dadd | dmul | dmac => exact next_wf (fp64Word_wf h)
  case mov => exact next_wf (bitWord_wf h)
  case fneg | fabs => exact next_wf (signWord_wf h)
  case frcp | frsq | fsqrt | fexp2 | flog2 | fsinp | fcosp | ftanh => exact next_wf (specialWord_wf h)
  case frint | ffrac | popc | clz | brev | bfind | ineg | iabs => exact next_wf (vec2_wf h)
  case fclass => exact next_wf (ite_wf (bitWord_wf h) (bitWord_wf h))
  case cvt | qnt | dqnt => exact next_wf (vecFixed_wf h)
  case dsqrt | drcp => exact next_wf (specialWord64_wf h)
  case iaddi | imuli | shli | shri | sari | andi | ori | xori | movi => exact next_wf (vecImm_wf h)
  case fsetEq | fsetNe | fsetLt | fsetLe | fsetGt | fsetGe | fsetUn | fsetOr | isetEq | isetNe | isetLt | isetLe | isetGt | isetGe
      | usetLt | usetLe | usetGt | usetGe =>
    exact next_wf (compareWord_wf h)
  case mlog => exact next_wf (word_wf (fun _ hs => finish_wf (putMask_wf hs)) h)
  case cmov => exact next_wf (word_wf (fun _ hs => finish_wf (writeResult_wf hs)) h)
  case shfl | shflXor | shflUp | shflDn | shflIdx => exact next_wf (shuffleWord_wf h)
  case vote => exact next_wf (word_wf (fun _ hs => collective_wf (fun _ hs1 => finish_wf (putMask_wf hs1)) hs) h)
  case ballot => exact next_wf (word_wf (fun _ hs => collective_wf (fun _ hs1 => finish_wf (setG_wf hs1)) hs) h)
  case gred => exact execGred_wf h
  case mmov => exact next_wf (word_wf (fun _ hs => ite_wf (finish_wf (setG_wf hs)) (finish_wf (setG_wf hs))) h)
  case mact | saddi | smovi | smovhi | vread | sealBatch | drop | frame => exact next_wf (word_wf (fun _ hs => finish_wf (setG_wf hs)) h)
  case sadd | ssub | smul | sand | sor | sxor | sshl | sshr | ssar | smin | smax | sset => exact next_wf (scalar2_wf h)
  case sldc => exact execSldc_wf h
  case sldlit => exact execSldlit_wf h
  case csrr => exact execCsrr_wf h
  case csrw => exact execCsrw_wf h
  case ld | ldb | ldh => exact next_wf (loadWord_wf h)
  case st | stb | sth => exact next_wf (storeWord_wf h)
  case ldx => exact execLdx_wf h
  case stx => exact execStx_wf h
  case pref => exact execPref_wf h
  case evict =>
    exact next_wf (word_wf (fun _ hs => memWord_wf (fun _ _ => fun _ hs2 => afterPark_wf (parkLanes_wf (ite_wf hs2 (foldl_wf _
        (fun _ _ hs3 => evictLine_wf hs3) _ _ hs2)))) hs) h)
  case bload => exact execBload_wf h
  case bset => exact next_wf (word_wf (fun _ hs => ite_wf (trapOwn_wf hs) (finish_wf (setG_wf hs))) h)
  case aadd | amin | amax | aumin | aumax | aand | aor | axor | axchg | acas | afadd => exact next_wf (atomicWord_wf h)
  case copy => exact execCopy_wf h
  case waitb => exact execWaitb_wf h
  case fence => exact execFence_wf h
  case append => exact execAppend_wf h
  case bra | brm | brmn => exact next_wf (directWord_wf (fun _ _ hs1 => transfer_wf hs1) h)
  case brs | brsz => exact next_wf (branchS_wf h)
  case call => exact next_wf (directWord_wf (fun _ _ hs1 => transfer_wf (setLink_wf hs1)) h)
  case ret => exact next_wf (laneTargetWord_wf (fun _ hs => transfer_wf hs) h)
  case jmpi | calli => exact next_wf (indirectWord_wf h)
  case lpad => exact next_wf (word_wf (fun _ hs => finish_wf hs) h)
  case split => exact next_wf (word_wf (fun _ hs => ite_wf (takeTrap_wf hs) (finish_wf (setG_wf hs))) h)
  case join => exact next_wf (word_wf (fun _ hs => ite_wf (takeTrap_wf hs) (transfer_wf (ite_wf hs (setG_wf hs)))) h)
  case bar => exact next_wf (word_wf (fun _ hs => afterVisq_wf (fun _ hs1 => barrierCheck_wf (transfer_wf (releaseLanes_wf hs1))) hs) h)
  case exit => exact execExit_wf h
  case trap | bkpt => exact next_wf (codeTrap_wf h)
  case enter => exact next_wf (word_wf (fun _ hs => ite_wf (finish_wf hs) (regionDone_wf (setG_wf hs))) h)
  case leave => exact execLeave_wf h
  case spawn => exact execSpawn_wf h
  case chwait => exact next_wf (word_wf (fun _ hs => transfer_wf (ite_wf (acquireWg_wf hs) hs)) h)
  case yield => exact next_wf (word_wf (fun _ hs => transfer_wf hs) h)
  case cclr | lobe | lmix | layer | lscl => exact next_wf (buildWord_wf h)
  case samp | eval | pdf => exact next_wf (mixWord_wf h)
  case csave => exact execCsave_wf h
  case cload => exact execCload_wf h
  case trace | tracep => exact next_wf (traceWord_wf h)
  case visq => exact execVisq_wf h
  case pslot => exact execPslot_wf h
  case pfree => exact next_wf (wardrobe_wf (fun _ _ hs1 => ite_wf (takeTrap_wf hs1) (finish_wf (setTaken_wf hs1))) h)
  case qpush => exact execQpush_wf h
  case regrp => exact execRegrp_wf h
  case tfeed => exact execTfeed_wf h
  case tdrain => exact execTdrain_wf h
  case trel => exact execTrel_wf h
  case mma | mzero | mcvt => exact next_wf (word_wf (fun _ hs => ite_wf (trapOwn_wf hs) (enterOr_wf hs)) h)
  case mmaPair | mguid => exact next_wf (word_wf (fun _ hs => ite_wf (trapOwn_wf hs) (pairWord_wf hs)) h)
  case mwait => exact next_wf (word_wf (fun _ hs => ite_wf (finish_wf hs) (stallOn_wf hs)) h)
  case ctab => exact execCtab_wf h
  case tlbw => exact next_wf (word_wf (fun _ hs => finish_wf (putTlb_wf hs)) h)
  case tlbi => exact next_wf (word_wf (fun _ hs => finish_wf (dropTlb_wf hs)) h)
  case hret => exact execHret_wf h
  case hretEnd => exact next_wf (word_wf (fun _ hs => endThroughPocket_wf hs) h)
  case snap => exact execSnap_wf h
  case hostTailWrite => exact execHostTailWrite_wf h
  case launchAdmit => exact execLaunchAdmit_wf h
  case tailorRun => exact execTailorRun_wf h
  case workgroupPlace => exact execWorkgroupPlace_wf h
  case groupFormTimeout => exact execGroupFormTimeout_wf h
  case varLatencyComplete => exact execVarLatencyComplete_wf h
  case rayWalkComplete => exact execRayWalkComplete_wf h
  case visqComplete => exact execVisqComplete_wf h
  case copyComplete => exact execCopyComplete_wf h
  case patternTableEnter => exact execPatternTableEnter_wf h
  case patternEntryIssue => exact execPatternEntryIssue_wf h
  case patternEntryComplete => exact execPatternEntryComplete_wf h
  case storePerformAtHome => exact execStorePerformAtHome_wf h
  case l1WriteBack => exact next_wf (writeBackAt_wf h)
  case leaseExpiry => exact execLeaseExpiry_wf h
  case fenceReleaseComplete => exact execFenceReleaseComplete_wf h
  case appendGrant => exact execAppendGrant_wf h
  case groupRetire => exact execGroupRetire_wf h
  case completionRecordWrite => exact execCompletionRecordWrite_wf h
  case workgroupSaveOut => exact execWorkgroupSaveOut_wf h
  case workgroupRestore => exact execWorkgroupRestore_wf h
  case taskCommit => exact execTaskCommit_wf h
  case issueStarvation => exact execIssueStarvation_wf h
  case frontierAgeLimit => exact execFrontierAgeLimit_wf h
  case tlbMissWalk => exact execTlbMissWalk_wf h
  case pageReportWrite => exact execPageReportWrite_wf h
  case handlerStart => exact execHandlerStart_wf h
  case preempt => exact execPreempt_wf h
  case contextMakeResident => exact execContextMakeResident_wf h
  case hangWatchdog => exact execHangWatchdog_wf h
  case eccCorrectable | hostCxlMemRead | thermalClockLimit => exact next_wf h
  case eccUncorrectable => exact execEccUncorrectable_wf h
  case deviceStart => exact execDeviceStart_wf h
  case firmwareReadyTimeout => exact next_wf (ite_wf h (failStart_wf h))
  case peerLeaveAnnounce => exact execPeerLeaveAnnounce_wf h
  case peerSilenceTimeout => exact execPeerSilenceTimeout_wf h
  case peerJoin => exact next_wf (ite_wf h (ite_wf (ite_wf h h) h))
  case timeJoinComplete => exact execTimeJoinComplete_wf h
  case presentCheck => exact execPresentCheck_wf h
  case presentInstant => exact execPresentInstant_wf h
  case hostCxlMemWrite => exact next_wf (ite_wf (hostWrite_wf h) h)
  case sampleRecord => exact execSampleRecord_wf h
  case mbevtWrite | mailboxRegisterWrite | partitionChange => exact next_wf (ite_wf h h)
  case mailboxUnknown => exact next_wf (ite_wf (complete_wf h) h)
  case ctxCreate => exact execCtxCreate_wf h
  case ctxDestroy => exact execCtxDestroy_wf h
  case map | unmap => exact next_wf (command_wf (fun _ hs => mapCommand_wf hs) h)
  case hemResume => exact execHemResume_wf h
  case faultRing => exact execFaultRing_wf h
  case queueSetup => exact execQueueSetup_wf h
  case queueClose => exact execQueueClose_wf h
  case poolSetup => exact execPoolSetup_wf h
  case queueReset => exact execQueueReset_wf h
  case traceArm => exact execTraceArm_wf h
  case traceStatus => exact next_wf (command_wf (fun _ hs => withCtx_wf (fun _ => .done hs)) h)
  case peerExport => exact execPeerExport_wf h
  case peerImport => exact execPeerImport_wf h
  case framelock => exact execFramelock_wf h
  case frameSource => exact execFrameSource_wf h
  case frameStatus | unitMap => exact next_wf (command_wf (fun _ hs => .done hs) h)
  case attest => exact execAttest_wf h
  case pocketRead => exact execPocketRead_wf h
  case dbgAttach => exact execDbgAttach_wf h
  case dbgDetach => exact next_wf (debugCommand_wf (fun _ _ hs => .done (freshProgress_wf (resumeAll_wf (mapGroups_wf (updCtx_wf hs))))) h)
  case dbgHalt =>
    exact next_wf (debugCommand_wf (fun _ _ hs => onTargets_wf (fun _ => .done (foldl_wf _ (fun _ _ hs2 => haltTarget_wf hs2) _ _ hs))) h)
  case dbgResume => exact execDbgResume_wf h
  case dbgBreak => exact execDbgBreak_wf h
  case dbgWatch => exact execDbgWatch_wf h
  case dbgRead => exact next_wf (debugCommand_wf (fun _ _ hs => haltedTarget_wf (fun _ => readItem_wf hs)) h)
  case dbgWrite => exact next_wf (debugCommand_wf (fun _ _ hs => haltedTarget_wf (fun _ => writeItem_wf hs)) h)
  case dbgSample => exact execDbgSample_wf h
  case dbgEvents => exact next_wf (debugCommand_wf (fun _ _ hs => toBuffer_wf (updCtx_wf hs)) h)
  case ctxPreempt => exact execCtxPreempt_wf h
  case ctxRestore => exact execCtxRestore_wf h
  case illegalEncoding => exact execIllegalEncoding_wf h
  case fetchFault => exact execFetchFault_wf h
  case cxlCacheSnoop => exact next_wf (seeTails_wf (hostMemWrite_wf _ _ _ h))
  case peerAccess => exact execPeerAccess_wf h
  case ideStreamSetup => exact next_wf (ite_wf (seeTails_wf h) h)

/-! #### One step -/

theorem issue_wf (h : Memory.wf s = true) : CanonAfter (issue s) := by
  have hi := nextInstr_wf h
  unfold issue
  split
  · exact next_wf h
  · split <;> rename_i heq <;> rw [heq] at hi
    · exact next_wf hi
    · exact execIllegalEncoding_wf hi
    · exact execFetchFault_wf hi
    · split <;> rename_i hexec
      · exact next_wf (noteJoin_wf (afterIssue_wf (exec_wf hi _ hexec)))
      · intro u hu
        cases hu
      · intro u hu
        cases hu

theorem takeSlot_wf {t} (h : Memory.wf s = true) : CanonAfter (takeSlot t s) := by
  unfold takeSlot
  split
  · exact issue_wf (loadGroup_wf h)
  · split
    · exact exec_wf h
    · exact next_wf h
  · exact next_wf (performNth_wf h)
  · exact next_wf (peerStores_wf _ _ _ _ _ h)

theorem advanceTime_wf {due} (h : Memory.wf s = true) : Memory.wf (advanceTime due s) = true := with_wf (passTime_wf h) rfl

theorem turn_wf (h : Memory.wf s = true) : CanonAfter (turn s) := by
  unfold turn
  split
  · exact issue_wf h
  · exact takeSlot_wf (advanceTime_wf h)

theorem stepDone_wf {before} (h : Memory.wf s = true) : Memory.wf (stepDone before s) = true :=
  noteReady_wf (noteExcused_wf (nextFetch_wf (checkLate_wf h)))

/-- Every step keeps the memories in canonical form. -/
theorem step_wf (h : Memory.wf s = true) : CanonAfter (step s) := by
  unfold step
  split <;> rename_i hturn
  · exact next_wf (stepDone_wf (turn_wf h _ hturn))
  · intro u hu
    cases hu
  · intro u hu
    cases hu

end

/-- Settles O59: each function that a turn runs keeps the form, down to the writes at a home; a step is a turn and what every step ends with. -/
theorem stepsKeepMemoryCanonical : Obligations.StepsKeepMemoryCanonical := fun _ t h ht => step_wf h t ht

end Sys2Proof.Machine

/-! ### An own store that a later own load does not see -/

namespace Sys2Proof.Machine

/-- After the group of `unsortedLine` has stored 0 over byte 0 of the line at core scope, its load of the byte at system scope gives 5: the entry
that the line's list still holds for byte 0 is written back last. -/
theorem unsortedLine_loadBytes :
    let g := unsortedLine.grp
    (loadBytes g.uid 0 g.core 3 0 0x1000 1 (storeBytes g.uid 0 g.core 0 0 0x1000 [0] false none unsortedLine)).1 = [5] := by
  decide +kernel

/-- Refutes O22: as for O24, nothing is said of the dirty bytes of a cached line, whose list a state may hold out of order. In `unsortedLine` the
thread's store of a byte leaves an older entry for that byte behind the new one, and the thread's next load at system scope reads the older byte. -/
theorem not_ownStoreIsSeenByOwnLoad : ¬ Obligations.OwnStoreIsSeenByOwnLoad := by
  intro h
  have seen := h unsortedLine 0 0 0 3 0 0x1000 [0] false (by decide +kernel) (by decide) (by decide +kernel) (by decide) (by decide)
  have read := seen.symm.trans unsortedLine_loadBytes
  exact absurd read (by decide)

end Sys2Proof.Machine

/-! ### Releases (R236) -/

namespace Sys2Proof.Machine

/-! What a store at the home does to the cached lines is `patchLine`: a property that `patchLine` keeps of each line is kept by stores and write-backs. -/

section

variable {P : CLine → Prop} {s : State}

/-- A property of cached lines that no store performed at the home takes away. -/
def StaysPatched (P : CLine → Prop) : Prop := ∀ host core line off bs c, P c → P (patchLine host core line off bs c)

theorem performStore_lines (hP : StaysPatched P) (who : Option (Nat × Nat)) (core a : Nat) (bs : List Byte) (h : ∀ c ∈ s.caches, P c) :
    ∀ c ∈ (performStore who core a bs s).caches, P c := by
  obtain ⟨-, noted, -⟩ := noteOld_beside a bs s
  have written : (noteTask who a bs (setHomeBytes a bs (noteOld a bs s))).caches = s.caches := (setHomeBytes_caches ..).trans noted
  have patched : ∀ host, ∀ c ∈ (noteTask who a bs (setHomeBytes a bs (noteOld a bs s))).caches.map (patchLine host core (lineOf a) (a % 128) bs), P c := by
    rintro host _ hc
    obtain ⟨c, hd, rfl⟩ := List.mem_map.1 hc
    exact hP _ _ _ _ _ _ (h c (written ▸ hd))
  have raised : ∀ (n : Nat) (u : State), (raiseGwct who n u).caches = u.caches := by
    intro n u
    cases who with
    | none => rfl
    | some o => exact updGroup_caches _ _ _
  have flit : ∀ u : State, (flitFrom a u).caches = u.caches := fun u => by unfold flitFrom; split <;> rfl
  unfold performStore
  dsimp only
  split
  · exact h
  · split
    · rw [flit, raised]
      exact patched _
    · rw [raised]
      exact patched _

theorem foldl_keeps {α : Type} {Q : State → Prop} {g : State → α → State} (hg : ∀ s a, Q s → Q (g s a)) :
    ∀ (l : List α) (s : State), Q s → Q (l.foldl g s)
  | [], _, h => h
  | a :: l, s, h => foldl_keeps hg l (g s a) (hg s a h)

theorem writeBackLine_lines (hP : StaysPatched P) (c : CLine) (h : ∀ c ∈ s.caches, P c) : ∀ d ∈ (writeBackLine c s).caches, P d := by
  unfold writeBackLine
  dsimp only
  split
  · exact h
  · refine foldl_keeps (Q := fun u : State => ∀ d ∈ u.caches, P d) (fun u o hu => ?_) _ _
      (foldl_keeps (Q := fun u : State => ∀ d ∈ u.caches, P d) (fun u d hu => performStore_lines hP _ _ _ _ hu) _ _ h)
    exact (updGroup_caches _ _ u).symm ▸ hu

/-- After a write-back, a property holds of every line when it holds of the cleaned ones and of those that were not chosen. -/
theorem writeBackWhere_lines (hP : StaysPatched P) (p : CLine → Bool) (clean : ∀ c ∈ s.caches, p c = true → P (cleanLine c))
    (others : ∀ c ∈ s.caches, p c = false → P c) : ∀ c ∈ (writeBackWhere p s).caches, P c := by
  refine foldl_keeps (Q := fun u : State => ∀ d ∈ u.caches, P d) (fun u c hu => writeBackLine_lines hP c hu) _ _ fun d hd => ?_
  obtain ⟨c, hc, rfl⟩ := List.mem_map.1 hd
  split
  · exact clean c hc ‹_›
  · exact others c hc (Bool.not_eq_true _ ▸ ‹_›)

theorem patchLine_owners (host : Bool) (core line off : Nat) (bs : List Byte) (c : CLine) : (patchLine host core line off bs c).owners = c.owners := by
  unfold patchLine
  split_ifs <;> rfl

/-- R236: the lines of the chosen owners are written back, and have none of them as an owner any more. -/
theorem writeBackWhere_disowns (who : Nat × Nat → Bool) (s : State) :
    ∀ c ∈ (writeBackWhere (fun c => c.owners.any who) s).caches, c.owners.any who = false :=
  writeBackWhere_lines (P := fun c => c.owners.any who = false)
    (fun _ _ _ _ _ _ h => (congrArg (List.any · who) (patchLine_owners ..)).trans h) _ (fun _ _ _ => rfl)
    fun _ _ h => h

end

/-! The loads that stay in flight. -/

section

variable {s : State}

/-- The operations in flight of the issuer are the same after stores have been performed. -/
theorem ops_of_storeFrame {t : State} (h : storeFrame t = storeFrame s) : t.grp.ops = s.grp.ops :=
  (congrArg (fun u : State => u.grp.ops) h :)

theorem uid_of_loadFrame {t : State} (h : loadFrame t = loadFrame s) : t.grp.uid = s.grp.uid :=
  (congrArg (fun u : State => u.grp.uid) h :)

theorem dueLoads_of_chosen {ops : List VarOp} {q : Nat → PLoad → Bool} {i : Nat} {p : PLoad} (h : dueLoads ops q i p = false) : q i p = false :=
  (Bool.or_eq_false_iff.1 h).1

/-- A load that is left of some operations performed is none that was due. -/
theorem performOps_left {g : Group} {q : Nat → PLoad → Bool} {r : PLoad → Bool} (hq : ∀ i p, q i p = false → r p = false) (n : Nat) (l : List VarOp)
    (s : State) : ∀ o ∈ (performOps g q n l s).1, ∀ p ∈ o.loads, r p = false := by
  induction l generalizing n s with
  | nil => exact fun o ho => absurd ho List.not_mem_nil
  | cons o' l ih =>
    intro o ho p hp
    rcases List.mem_cons.1 ho with rfl | ho
    · have left := (List.mem_filter.1 hp).2
      exact hq n p (Bool.not_eq_true' _ ▸ left)
    · exact ih _ _ o ho p hp

/-- R236: no load of the lanes of the issuer is in flight after they have been performed. -/
theorem performLanes_left (m : DWord) (h : Within D s) : ∀ o ∈ (performLanes s.grp.uid m s).grp.ops, ∀ p ∈ o.loads, p.ofLanes m = false := by
  unfold performLanes performLoads
  rw [findGroup_own]
  dsimp only
  split
  · rename_i idle
    intro o ho p hp
    have none := List.isEmpty_iff.1 (List.all_eq_true.1 idle o ho)
    exact absurd (none ▸ hp) List.not_mem_nil
  · have done := performOps_kept (g := s.grp) (q := dueLoads s.grp.ops fun _ p => p.ofLanes m) 0 (h.loads s.grp List.mem_cons_self) h
    have uid := uid_of_loadFrame done.frame
    unfold updGroup
    rw [if_pos uid]
    exact performOps_left (fun _ _ => dueLoads_of_chosen) _ _ _

end

/-- Settles O29: the loads of the lanes are performed, then their stores, and then the lines that they own are written back; each of the three leaves
nothing of theirs and adds nothing that is in flight. -/
theorem releasePerformsStores : Obligations.ReleasePerformsStores := by
  intro s m
  have flight := within_inFlight s
  have loads := performLoads_kept s.grp.uid (fun _ p => p.ofLanes m) flight
  obtain ⟨stores, none⟩ := performWhere_kept (fun x => decide (x.grp = s.grp.uid) && bit m x.lane) loads.flight
  have back := writeBackWhere_kept (fun c => c.owners.any fun o => decide (o.1 = s.grp.uid) && bit m o.2) stores.flight
  refine ⟨?_, fun p hp mine => ?_, fun c hc o ho mine lane => ?_, ((loads.trans stores.loosened).trans back.loosened).homes⟩
  · rw [show (releaseLanes s.grp.uid m true s).grp.ops = (performLanes s.grp.uid m s).grp.ops from
      (ops_of_storeFrame back.frame).trans (ops_of_storeFrame stores.frame)]
    exact performLanes_left m flight
  · have left := none p (back.pending p hp)
    simp [mine] at left
  · have disowned := List.any_eq_false.1 (writeBackWhere_disowns (fun o => decide (o.1 = s.grp.uid) && bit m o.2) _ c hc) o ho
    simp [mine, lane] at disowned

end Sys2Proof.Machine

/-! ### Rejoins (R292, R293) -/

namespace Sys2Proof.Machine

section

variable {s u : State} {g h : Group}

/-- A look at a join reads and changes the join registers and the frontier alone. -/
theorem joinStep_agrees (n : Nat) (hj : g.j = h.j) (hf : g.frontier = h.frontier) :
    (joinStep n g).j = (joinStep n h).j ∧ (joinStep n g).frontier = (joinStep n h).frontier := by
  have reg : getJ g n = getJ h n := by rw [getJ, getJ, hj]
  have here : ∀ p, lanesAt g p = lanesAt h p := fun p => by rw [lanesAt, lanesAt, hf]
  unfold joinStep
  rw [reg]
  split
  · exact ⟨hj, hf⟩
  · rw [here]
    split
    · exact ⟨by simp only [setJ, hj], hf⟩
    · exact ⟨hj, hf⟩

theorem joinCheck_agrees (hj : g.j = h.j) (hf : g.frontier = h.frontier) : (joinCheck g).j = (joinCheck h).j := by
  have all : ∀ (ns : List Nat) (g h : Group), g.j = h.j → g.frontier = h.frontier →
      (ns.foldl (fun g n => joinStep n g) g).j = (ns.foldl (fun g n => joinStep n g) h).j := by
    intro ns
    induction ns with
    | nil => exact fun _ _ hj _ => hj
    | cons n ns ih =>
      intro g h hj hf
      obtain ⟨j, f⟩ := joinStep_agrees n hj hf
      exact ih _ _ j f
  exact all _ g h hj hf

theorem joinStep_getJ (n m : Nat) {p : Nat} (hc : (getJ g n).cont = some p) :
    getJ (joinStep n g) m = if n = m ∧ (getJ g n).mask &&& ~~~(lanesAt g p) = 0 then {} else getJ g m := by
  simp only [joinStep, hc]
  split
  · simp only [getJ_setJ, *, and_true]
  · simp only [*, and_false, if_false]

theorem joinCompletes : Sys2Proof.Claims.joinCompletes := by
  intro g n m p hc
  refine ⟨fun all => ?_, fun some => ?_, fun other => ?_⟩
  · rw [joinStep_getJ n n hc, if_pos ⟨rfl, all⟩]
  · simp only [joinStep, hc]
    exact if_neg some
  · rw [joinStep_getJ n m hc, if_neg fun both => other both.1.symm]

theorem exec_split (bt : BitVec 1) (j : BitVec 3) (s : State) : exec (.split bt j) s = execSplit j s := rfl
theorem exec_join (bt : BitVec 1) (j : BitVec 3) (s : State) : exec (.join bt j) s = execJoin j s := rfl
theorem exec_drop (bt : BitVec 1) (j : BitVec 3) (s : State) : exec (.drop bt j) s = execDrop j s := rfl
theorem exec_bar (bt : BitVec 1) (i : BitVec 4) (s : State) : exec (.bar bt i) s = execBar i s := rfl

/-- The join registers after a path has left its clause. -/
theorem transfer_joins (e : FEntry) (u : State) {a : FEntry} (ha : u.grp.act = some a) :
    (leaveTo [e] (settle u)).grp.j = (joinCheck (addEntry e { u.grp with act := none })).j := by
  rw [leaveTo_some [e] (s := settle u) ha, nextTurn_grp]
  exact joinCheck_agrees (g := addEntry e { (settle u).grp with act := none, resv := [], arming := [] })
    ((addEntry_j e _).trans (addEntry_j e { u.grp with act := none }).symm) (addEntry_frontier rfl)

theorem active_of_same (ha : u.grp.act = s.grp.act) : active u = active s := by rw [active, active, ha]

/-- A transfer is its path's leaving, with a step that may end. -/
theorem transfer_thenStep (es : List FEntry) (hq : quiet u = quiet s) (ha : u.grp.act = s.grp.act) {a : FEntry} (he : s.grp.act = some a) :
    transfer es u = thenStep s (leaveTo es (settle u)) := by
  have left := leaveTo_left es (ha.trans he)
  have pc : curPc u = curPc s := by rw [curPc, curPc, ha]
  unfold transfer thenStep
  split_ifs with h
  · exact stepCheck_quiet _ _ _ (by rw [left.1.quiet, hq, h])
  · rw [pc, active_of_same ha]

theorem joinWords : Sys2Proof.Claims.joinWords := by
  intro s bt j r p bad u
  refine ⟨fun hr elsewhere => ?_, fun hr free => ?_, ?_, fun hr pending elsewhere => ?_, fun hr here => ?_⟩
  · rw [exec_split, execSplit, word_run _ hr]
    exact congrArg Host.Outcome.next (if_pos (Option.isSome_iff_ne_none.2 elsewhere))
  · obtain ⟨t, ht, done⟩ := finish_completes (s := s) (u := s.setG (setJ j.toNat { mask := active s })) rfl rfl rfl
    refine ⟨t, ?_, done⟩
    rw [exec_split, execSplit, word_run _ hr, ← ht]
    exact congrArg Host.Outcome.next (if_neg fun some => Option.isSome_iff_ne_none.1 some free)
  · obtain ⟨j', hj⟩ := joinStep_only j.toNat (setJ j.toNat { r with mask := r.mask &&& ~~~(active s) } s.grp)
    have looked : (s.setG fun g => joinStep j.toNat (setJ j.toNat { r with mask := r.mask &&& ~~~(active s) } g))
        = { s with grp := { s.grp with j := j' } } := congrArg (fun g => { s with grp := g }) hj
    exact .of_word _ (exec_drop bt j s) (fun _ => rfl) (by rw [looked]; rfl) (by rw [looked]; rfl) (by rw [looked]; rfl)
  · rw [exec_join, execJoin, word_run _ hr]
    dsimp only
    rw [if_pos ⟨Option.isSome_iff_ne_none.2 pending, elsewhere⟩]
  · obtain ⟨a, ha⟩ := act_of_ready hr
    have kept : quiet u = quiet s ∧ u.grp.act = s.grp.act := by
      change quiet (if r.mask = 0 then s else _) = _ ∧ (if r.mask = 0 then s else _).grp.act = _
      split <;> exact ⟨rfl, rfl⟩
    have path : u.grp.act = some a := kept.2.trans ha
    refine ⟨_, ?_, leaveTo_left _ path, transfer_joins _ u path⟩
    have no : ¬(r.cont.isSome ∧ r.cont ≠ some p) := fun ⟨pending, elsewhere⟩ => here.elim (Option.isSome_iff_ne_none.1 pending) elsewhere
    rw [exec_join, execJoin, word_run _ hr, ← transfer_thenStep _ kept.1 kept.2 ha]
    dsimp only
    rw [if_neg no]
    exact congrArg (fun m => Host.Outcome.next (transfer [{ pc := p, mask := m }] u)) (active_of_same kept.2)

end

end Sys2Proof.Machine

/-! ### Barriers (R234, R245, R295) -/

namespace Sys2Proof.Machine

section

variable {s : State} {g : Group}

theorem releaseLanes_accessed (m : DWord) (dev : Bool) (h : Within D s) : Accessed D s (releaseLanes s.grp.uid m dev s) := by
  have loads : Accessed D s (performLanes s.grp.uid m s) := performLoads_accessed _ h
  obtain ⟨stores, -⟩ := performWhere_kept (fun x => decide (x.grp = s.grp.uid) && bit m x.lane) loads.flight
  have done := loads.trans (.ofOps stores.ofStores)
  unfold releaseLanes
  dsimp only
  split
  · exact done.trans (.ofOps (writeBackWhere_kept _ done.flight).ofStores)
  · exact done

theorem barWaits : Sys2Proof.Claims.barWaits := by
  intro s bt i hr u
  have issuer : sameIssuer s.grp u.grp := (releaseLanes_accessed (active s) false (within_inFlight s)).issuer
  refine ⟨fun drives => ?_, fun free => ?_⟩
  · rw [exec_bar, execBar, word_run _ hr]
    exact congrArg Host.Outcome.next (if_pos drives)
  · obtain ⟨a, ha⟩ := act_of_ready hr
    refine ⟨_, ?_, leaveTo_left _ (issuer.act.trans ha)⟩
    have pc : curPc u = curPc s := issuer.curPc
    have fields : u.grp.wg = s.grp.wg ∧ u.grp.sealed = s.grp.sealed := by
      obtain ⟨same, -, -⟩ := issuer
      rw [same]
      exact ⟨rfl, rfl⟩
    rw [exec_bar, execBar, word_run _ hr, ← transfer_thenStep _ issuer.quiet issuer.act ha, afterVisq, if_neg (Bool.not_eq_true _ ▸ free)]
    dsimp only
    change Host.Outcome.next (barrierCheck u.grp.wg (transfer [{ pc := curPc u + 4, mask := active s, wait := .bar i.toNat u.grp.sealed (active s) }] u)) = _
    rw [pc, fields.1, fields.2]

/-! What a barrier's completion does to a group. -/

theorem sget_raiseAll (n : Nat) {l : Nat} (hl : l ∈ lanes g.exist) : n ≤ sget 0 l (raiseAll n g).gwct := by
  have one : ∀ (ls : List Nat) (m : Sparse Nat), n ≤ sget 0 l m →
      n ≤ sget 0 l (ls.foldl (fun m l => sput 0 l (max n (sget 0 l m)) m) m) := by
    intro ls
    induction ls with
    | nil => exact fun _ h => h
    | cons k ls ih =>
      intro m h
      refine ih _ ?_
      rw [sget_sput]
      split
      · exact le_max_left _ _
      · exact h
  have all : ∀ (ls : List Nat) (m : Sparse Nat), l ∈ ls → n ≤ sget 0 l (ls.foldl (fun m l => sput 0 l (max n (sget 0 l m)) m) m) := by
    intro ls
    induction ls with
    | nil => exact fun _ h => absurd h List.not_mem_nil
    | cons k ls ih =>
      intro m h
      rcases List.mem_cons.1 h with rfl | h
      · exact one ls _ (by rw [sget_sput_same]; exact le_max_left _ _)
      · exact ih _ h
  unfold raiseAll
  split
  · rename_i zero
    rw [zero]
    exact Nat.zero_le _
  · exact all _ _ hl

theorem raiseAll_only (n : Nat) (g : Group) : raiseAll n g = { g with gwct := (raiseAll n g).gwct } := by
  unfold raiseAll
  split <;> rfl

theorem foldl_orMask {α : Type} (f : DWord → α → DWord) (l : List α) (h : ∀ m, ∀ a ∈ l, f m a = m) (m : DWord) : l.foldl f m = m := by
  induction l generalizing m with
  | nil => rfl
  | cons a l ih =>
    rw [List.foldl_cons, h m a List.mem_cons_self]
    exact ih (fun m b hb => h m b (List.mem_cons_of_mem _ hb)) m

/-- No lane stands at a barrier that has let its threads go on. -/
theorem arrived_wakeBar (id : Nat) (g : Group) : arrived (wakeBar id g) id = 0 := by
  refine foldl_orMask _ _ (fun m e he => ?_) 0
  obtain ⟨f, -, rfl⟩ := List.mem_map.1 he
  cases hw : f.wait with
  | bar i n a =>
    by_cases hi : i = id
    · simp [hi]
    · simp [hi, hw]
  | none => simp [hw]
  | child => simp [hw]
  | task => simp [hw]

/-- The largest GWCT of the copies that the group had sealed when an entry of it arrived at a barrier. -/
def entryGwct (id : Nat) (g : Group) (e : FEntry) : Nat := match e.wait with
  | .bar i n _ => if i = id then copyGwct (fun c => decide (c.batch ≤ n)) g else 0
  | _ => 0

theorem barGwct_eq (id : Nat) (g : Group) : barGwct id g = g.frontier.foldl (fun t e => max t (entryGwct id g e)) 0 := by
  unfold barGwct
  congr 1
  funext t e
  unfold entryGwct
  cases e.wait with
  | bar i n a => dsimp only; split <;> simp
  | none => simp
  | child => simp
  | task => simp

/-- A copy that a group had sealed when it arrived counts among the barrier's copies. -/
theorem gwct_le_barGwct {id : Nat} {c : CopyDone} {e : FEntry} {n : Nat} {m : DWord} (hc : c ∈ g.copies) (he : e ∈ g.frontier)
    (hw : e.wait = .bar id n m) (hn : c.batch ≤ n) : c.gwct ≤ barGwct id g := by
  have copies : c.gwct ≤ copyGwct (fun c => decide (c.batch ≤ n)) g :=
    le_foldl_max_of_mem (fun c : CopyDone => c.gwct) (List.mem_filter.2 ⟨hc, decide_eq_true hn⟩) 0
  have entry : entryGwct id g e = copyGwct (fun c => decide (c.batch ≤ n)) g := by simp [entryGwct, hw]
  rw [barGwct_eq]
  exact (entry ▸ copies).trans (le_foldl_max_of_mem (entryGwct id g) he 0)

/-- What the completion of a barrier of a workgroup does to an issuer: `n` is the largest GWCT of the copies sealed before it. -/
def afterBar (wg id n : Nat) (g : Group) : Group := if g.wg = wg ∧ g.kind = .vector then wakeBar id (raiseAll n g) else g

theorem afterBar_only (wg id n : Nat) (g : Group) :
    afterBar wg id n g = { g with frontier := (afterBar wg id n g).frontier, gwct := (afterBar wg id n g).gwct } := by
  unfold afterBar
  split
  · rw [raiseAll_only]
    rfl
  · rfl

/-- The threads of a workgroup are the same ones after a barrier has completed. -/
theorem groupsOfWg_mapGroups {f : Group → Group} (wg : Nat) (hf : ∀ g, (f g).wg = g.wg ∧ (f g).kind = g.kind) (s : State) :
    groupsOfWg wg (mapGroups f s) = (groupsOfWg wg s).map f := by
  change ((s.grp :: s.groups).map f).filter _ = ((s.grp :: s.groups).filter _).map f
  rw [List.filter_map]
  congr 2
  funext g
  obtain ⟨hw, hk⟩ := hf g
  simp only [Function.comp_apply, hw, hk]

/-- R234, R295: a barrier completes when every live thread of the workgroup has arrived at it and what was sealed before has completed. -/
def BarrierMet (wg id : Nat) (s : State) : Prop :=
  (∃ g ∈ groupsOfWg wg s, arrived g id ≠ 0) ∧ ∀ g ∈ groupsOfWg wg s, g.live &&& ~~~(arrived g id) = 0 ∧ barBatches g id = true

theorem barrierMet_iff (wg id : Nat) (s : State) : BarrierMet wg id s ↔
    ((groupsOfWg wg s).any (fun g => decide (arrived g id ≠ 0))
      && (groupsOfWg wg s).all fun g => decide (g.live &&& ~~~(arrived g id) = 0) && barBatches g id) = true := by
  simp only [BarrierMet, Bool.and_eq_true, List.any_eq_true, List.all_eq_true, decide_eq_true_eq]

theorem barrierStep_unmet {wg id : Nat} (h : ¬BarrierMet wg id s) : barrierStep wg id s = s := if_neg (mt (barrierMet_iff wg id s).2 h)

theorem barrierStep_met {wg id : Nat} (h : BarrierMet wg id s) :
    barrierStep wg id s = mapGroups (afterBar wg id ((groupsOfWg wg s).foldl (fun n g => max n (barGwct id g)) 0)) s :=
  if_pos ((barrierMet_iff wg id s).1 h)

theorem barCompletes : Sys2Proof.Claims.barCompletes := by
  intro s wg id gs all t
  refine ⟨barrierStep_unmet, fun met => ?_⟩
  have step : t = mapGroups (afterBar wg id (gs.foldl (fun n g => max n (barGwct id g)) 0)) s := barrierStep_met met
  generalize hn : gs.foldl (fun n g => max n (barGwct id g)) 0 = n at step
  have threads : groupsOfWg wg t = gs.map (afterBar wg id n) := by
    rw [step]
    exact groupsOfWg_mapGroups wg (fun g => by rw [afterBar_only]; exact ⟨rfl, rfl⟩) s
  have woken : ∀ g ∈ gs, afterBar wg id n g = wakeBar id (raiseAll n g) := by
    intro g hg
    have mine := (List.mem_filter.1 hg).2
    exact if_pos (by simpa using mine)
  refine ⟨fun h hh => ?_, fun a => by rw [step]; rfl, fun g hg c hc e he k m hw hk h hh l hl => ?_, ?_, ?_⟩
  · obtain ⟨g, hg, rfl⟩ := List.mem_map.1 (threads ▸ hh)
    rw [woken g hg]
    exact arrived_wakeBar id _
  · obtain ⟨x, hx, rfl⟩ := List.mem_map.1 (threads ▸ hh)
    have thread : l ∈ lanes x.exist := by rwa [afterBar_only] at hl
    rw [woken x hx]
    change c.gwct ≤ sget 0 l (raiseAll n x).gwct
    calc c.gwct ≤ barGwct id g := gwct_le_barGwct hc he hw hk
      _ ≤ n := hn ▸ le_foldl_max_of_mem (barGwct id) hg 0
      _ ≤ _ := sget_raiseAll n thread
  · rw [step]
    exact congrArg (fun g => { s with grp := g, groups := s.groups.map (afterBar wg id n) }) (afterBar_only wg id n s.grp)
  · rw [step]
    change (s.groups.map (afterBar wg id n)).map _ = _
    rw [List.map_map]
    refine List.map_congr_left fun g _ => ?_
    rw [Function.comp_apply, afterBar_only]

end

/-- Settles O31: a rejoin's words by what a path that leaves its clause leaves in the frontier, a barrier's completion by what it does to each
issuer. -/
theorem joinsAndBarriersWaitAndComplete : Obligations.JoinsAndBarriersWaitAndComplete := ⟨⟨joinWords, joinCompletes⟩, barWaits, barCompletes⟩

end Sys2Proof.Machine

/-! ### A peer's load of a line whose home is the host -/

namespace Sys2Proof.Machine

/-- Member 3 has joined the domain of a device whose host link is up. It may read the one byte of window 6, whose page is a page of the host's
memory. -/
def hostWindow : State :=
  { started := true, ide := true, time := 1, selfJoined := true, members := [{ num := 3, joined := true }]
    exports := [{ win := 6, ctx := 1, va := 0, len := 1, r := true, w := false }], ctxs := [{ id := 1 }]
    tlb := [{ core := 0, ctx := 1, va := 0, size := 0, pa := 2 ^ 50, perm := 2 }] }

/-- The state with the flit of the access. -/
def hostWindowSeen : State := { hostWindow with members := [{ num := 3, joined := true, flit := 1 }] }

theorem hostWindow_reads : agentRead hostWindowSeen (partCore hostWindow { id := 1 }) 1 0 0 1 = .ok [0] := by rfl

theorem hostWindow_translates : agentTranslate hostWindowSeen (partCore hostWindow { id := 1 }) 1 0 0 = .ok (2 ^ 50) := by decide +kernel

/-- The leases after an outcome. -/
def leasesAfter (o : Host.Outcome State Fault Refusal) : Option (Sparse Nat) := match o with
  | .next t => some t.leases
  | _ => none

/-- CXL.cache keeps the copies of a host-homed line coherent: the load takes no lease (R241). -/
theorem hostWindow_unleased : leasesAfter (exec (.peerAccess 3 6 0 (.load 1)) hostWindow) = some [] := by decide +kernel

theorem not_domain : ¬ Sys2Proof.Claims.domain := by
  intro h
  obtain ⟨-, -, -, -, -, -, -, -, -, -, accesses⟩ := h hostWindow 3 0 6 0 1 { num := 3, joined := true }
    { win := 6, ctx := 1, va := 0, len := 1, r := true, w := false } { id := 1 } [] [0]
  obtain ⟨loads, -⟩ := accesses rfl rfl rfl rfl rfl rfl
  obtain ⟨t, ht, -, leased⟩ := loads (by decide) rfl hostWindow_reads
  have none : t.leases = [] := by
    have after := hostWindow_unleased
    rw [ht] at after
    exact Option.some.inj after
  have first := leased 0 (2 ^ 50) (by decide) (.inl rfl) hostWindow_translates
  rw [none] at first
  exact absurd first (by decide)

/-- Refutes O50: `domain` gives every line that a peer loads a lease that has not ended, but a line whose home is the host takes none (R241), and an
exported window may hold one. -/
theorem not_deviceHostAndDomain : ¬ Obligations.DeviceHostAndDomain := fun ⟨_, domain⟩ => not_domain domain

end Sys2Proof.Machine

/-! ### Exclusive accesses: what they leave (R226) -/

namespace Sys2Proof.Machine

section

variable {D : Nat → Prop} {s t u : State} {pl : Place} {size d : Nat} {run : List (Access × Nat)} {q : Access × Nat}

/-- A change of the issuer's reservations alone, those to come among them. -/
def OnlyReserves (f : Group → Group) : Prop := ∀ g, f g = { g with resv := (f g).resv, arming := (f g).arming }

theorem reserves_accessed {f : Group → Group} (hf : OnlyReserves f) (h : Within D s) : Accessed D s (s.setG f) := by
  refine ⟨⟨h.stores, h.dirty, fun g hg => ?_⟩, fun _ _ => rfl, ?_⟩
  · rcases List.mem_cons.1 hg with rfl | others
    · have ops : (f s.grp).ops = s.grp.ops := by rw [hf]
      change ∀ o ∈ (f s.grp).ops, _
      rw [ops]
      exact h.loads s.grp List.mem_cons_self
    · exact h.loads g (List.mem_cons_of_mem _ others)
  · change sameIssuer s.grp (f s.grp)
    rw [hf]
    exact ⟨rfl, rfl, fun _ => rfl⟩

theorem takeResv_eq (lane : Nat) (r : Resv) (g : Group) :
    takeResv lane r g = { g with resv := if sfind lane g.arming = some r then sins lane r g.resv else g.resv } := by
  unfold takeResv
  split <;> rfl

theorem takeResv_only (lane : Nat) (r : Resv) : OnlyReserves (takeResv lane r) := fun g => by rw [takeResv_eq]

/-- The reservations to come after the `LDX` words of some lanes have issued. -/
def armedMap (pl : Place) (size : Nat) (run : List (Access × Nat)) (g : Group) : Sparse Resv :=
  run.foldl (fun m p => sins p.1.lane (resvOf g pl p.2 size) m) g.arming

theorem armLanes_eq (pl : Place) (size : Nat) (run : List (Access × Nat)) (s : State) :
    armLanes pl size run s = s.setG fun g => { g with arming := armedMap pl size run g } := by
  have armed : ∀ (run : List (Access × Nat)) (g : Group) (m : Sparse Resv),
      run.foldl (fun g p => { g with arming := sins p.1.lane (resvOf g pl p.2 size) g.arming }) { g with arming := m }
        = { g with arming := run.foldl (fun m p => sins p.1.lane (resvOf g pl p.2 size) m) m } := by
    intro run
    induction run with
    | nil => exact fun _ _ => rfl
    | cons p run ih => exact fun g m => ih g _
  exact congrArg (fun g => { s with grp := g }) (armed run s.grp s.grp.arming)

theorem armLanes_accessed (h : Within D s) : Accessed D s (armLanes pl size run s) := by
  rw [armLanes_eq]
  exact reserves_accessed (fun _ => rfl) h

/-- The `LDX` of one lane that is performed as it issues: its bytes, and the state with its reservation. -/
def ldxLane (pl : Place) (size : Nat) (q : Access × Nat) (s : State) : List Byte × State :=
  let r := placeExclusive s.grp pl q.1.lane q.2 size (performAt s.grp.uid q.1.lane pl (lineOf q.2) s)
  (r.1, r.2.setG (takeResv q.1.lane (resvOf r.2.grp pl q.2 size)))

theorem ldxRun_cons (q : Access × Nat) (run : List (Access × Nat)) (s : State) : ldxRun pl size d (q :: run) s
    = (laneWrites d q.1.lane (toWords (size / 4) (ldxLane pl size q s).1) ++ (ldxRun pl size d run (ldxLane pl size q s).2).1,
      (ldxRun pl size d run (ldxLane pl size q s).2).2) := rfl

theorem ldxLane_accessed (h : Within D s) : Accessed D s (ldxLane pl size q s).2 := by
  have loads := performAt_accessed q.1.lane pl (lineOf q.2) h
  have read := loads.trans (.ofOps (placeExclusive_kept s.grp pl q.1.lane q.2 size loads.flight).ofStores)
  exact read.trans (reserves_accessed (takeResv_only _ _) read.flight)

theorem ldxRun_accessed (run : List (Access × Nat)) (h : Within D s) : Accessed D s (ldxRun pl size d run s).2 := by
  induction run generalizing s with
  | nil => exact .refl h
  | cons q run ih =>
    have one := ldxLane_accessed (pl := pl) (size := size) (q := q) h
    rw [ldxRun_cons]
    exact one.trans (ih one.flight)

theorem ldxRun_eq_nil (hs : 4 ≤ size) (h : (ldxRun pl size d run s).1 = []) : run = [] := by
  cases run with
  | nil => rfl
  | cons q run =>
    rw [ldxRun_cons] at h
    obtain ⟨none, -⟩ := List.append_eq_nil_iff.1 h
    have length := length_toWords (size / 4) (ldxLane pl size q s).1
    rw [laneWrites_eq_nil none] at length
    simp only [List.length_nil] at length
    omega

variable {bytes : Nat → List Byte}

/-- What goes before the `STX` of a lane: the loads of the lane there, with its `LDX`, and the earlier stores of the core (R220, R221). -/
def stxBefore (pl : Place) (q : Access × Nat) (s : State) : State :=
  drainCore s.grp.core (lineOf (taskKey s.grp pl q.2)) (performAt s.grp.uid q.1.lane pl (lineOf q.2) s)

/-- The `STX` of one lane: it stores when its reservation is intact. -/
def stxLane (pl : Place) (size : Nat) (bytes : Nat → List Byte) (q : Access × Nat) (s : State) : State :=
  if resvIntact s pl q.1.lane q.2 size then exclusiveStore pl q.1.lane q.2 (bytes q.1.lane) s else s

theorem stxRun_cons (q : Access × Nat) (run : List (Access × Nat)) (s : State) : stxRun pl size bytes (q :: run) s
    = (let r := stxRun pl size bytes run (stxLane pl size bytes q (stxBefore pl q s))
      (if resvIntact (stxBefore pl q s) pl q.1.lane q.2 size then q.1.lane :: r.1 else r.1, r.2)) := rfl

theorem stxBefore_accessed (h : Within D s) : Accessed D s (stxBefore pl q s) := by
  have loads := performAt_accessed q.1.lane pl (lineOf q.2) h
  exact loads.trans (.ofOps (drainCore_kept _ _ loads.flight).ofStores)

theorem stxLane_accessed (hD : pl ≠ .scratch → ∀ i < (bytes q.1.lane).length, D (q.2 + i)) (h : Within D s) :
    Accessed D s (stxLane pl size bytes q s) := by
  unfold stxLane
  split
  · have loads := performAt_accessed q.1.lane pl (lineOf q.2) h
    exact loads.trans (.ofOps (placeNow_kept hD loads.flight).ofStores)
  · exact .refl h

theorem stxRun_accessed (run : List (Access × Nat)) (hD : ∀ q ∈ run, pl ≠ .scratch → ∀ i < (bytes q.1.lane).length, D (q.2 + i)) (h : Within D s) :
    Accessed D s (stxRun pl size bytes run s).2 := by
  induction run generalizing s with
  | nil => exact .refl h
  | cons q run ih =>
    have before := stxBefore_accessed (pl := pl) (q := q) h
    have one := before.trans (stxLane_accessed (size := size) (hD q List.mem_cons_self) before.flight)
    rw [stxRun_cons]
    exact one.trans (ih (fun q hq => hD q (List.mem_cons_of_mem _ hq)) one.flight)

end

end Sys2Proof.Machine

/-! ### The lanes that an access runs in -/

namespace Sys2Proof.Machine

section

variable {s : State} {o : MemOp} {run : List (Access × Nat)}

theorem splitAccs_sublist (ts : List (Access × Trans)) : ((splitAccs ts).1.map fun p => p.1).Sublist (ts.map fun p => p.1) := by
  induction ts with
  | nil => exact .slnil
  | cons x ts ih =>
    obtain ⟨a, t⟩ := x
    unfold splitAccs
    cases t with
    | ok q => exact ih.cons_cons a
    | miss => exact ih.cons a
    | refused m => exact ih.cons a
    | absent => exact ih.cons a

theorem memTrans_sublist {as : List Access} {parked : List (Nat × Nat)} (go : memTrans s o as = .go run parked) : (run.map fun p => p.1).Sublist as := by
  have split : splitGo o.skip (as.map fun a => (a, accTrans s o a)) = .go run parked := by
    unfold memTrans at go
    dsimp only at go
    split at go
    · cases go
    · split at go
      · cases go
      · split at go
        · exact go
        · split at go
          · cases go
          · exact go
  unfold splitGo at split
  obtain ⟨rfl, -⟩ := MemGo.go.inj split
  have some := splitAccs_sublist (as.map fun a => (a, accTrans s o a))
  rw [List.map_map, show ((fun p : Access × Trans => p.1) ∘ fun a => (a, accTrans s o a)) = id from rfl, List.map_id] at some
  exact (List.filter_sublist.map _).trans some

/-- The lanes of the accesses that proceed are active lanes, in their order. -/
theorem lanes_of_proceeds (h : proceeds s o run) : (run.map fun p => p.1.lane).Sublist (lanes (active s)) := by
  obtain ⟨go, -, -⟩ := h
  have asked : memTraps s o (lanes (active s)) (memAccs s o (lanes (active s))) = none := by
    cases found : memTraps s o (lanes (active s)) (memAccs s o (lanes (active s))) with
    | none => rfl
    | some t => rw [memCheck_trap found] at go; cases go
  rw [memCheck_translates asked] at go
  have accs := ((memTrans_sublist go).trans List.filter_sublist).map fun a => a.lane
  rw [List.map_map] at accs
  have all : (memAccs s o (lanes (active s))).map (fun a => a.lane) = lanes (active s) := by
    rw [memAccs, List.map_map]
    exact List.map_id _
  exact all ▸ accs

theorem lanes_nodup_of_proceeds (h : proceeds s o run) : (run.map fun p => p.1.lane).Nodup := (lanes_of_proceeds h).nodup (lanes_nodup _)

end

end Sys2Proof.Machine

/-! ### Exclusive accesses where nothing is pending (R226) -/

namespace Sys2Proof.Machine

/-- The bytes at a place of the issuer. -/
def bytesAt (s : State) (pl : Place) (a n : Nat) : List Byte := if pl = .scratch then scratchBytes s (wgOf s) a n else homeBytes s a n

/-- `t` is `s` but for the issuer's reservations and for what flits tell of the members. -/
def OnlyReserved (s t : State) : Prop := t = { s with members := t.members, grp := { s.grp with resv := t.grp.resv } }

section

variable {s t u : State} {pl : Place} {size d : Nat} {run : List (Access × Nat)} {q : Access × Nat}

theorem OnlyReserved.refl (s : State) : OnlyReserved s s := rfl

theorem OnlyReserved.trans (h : OnlyReserved s t) (k : OnlyReserved t u) : OnlyReserved s u := by
  unfold OnlyReserved at *
  rw [k, h]

theorem OnlyReserved.homeByte (h : OnlyReserved s t) (b : Nat) : homeByte t b = homeByte s b := by rw [h]; rfl

theorem scratchBytes_congr {w : Workgroup} (h : ∀ i, scratchByte t w i = scratchByte s w i) (off n : Nat) : scratchBytes t w off n = scratchBytes s w off n := by
  induction n generalizing off with
  | zero => rfl
  | succ n ih => rw [scratchBytes, scratchBytes, h, ih]

/-- The bytes at the places of an issuer are those of its workgroup's scratchpad and of the homes. -/
theorem bytesAt_congr (wg : wgOf t = wgOf s) (scratch : ∀ w i, scratchByte t w i = scratchByte s w i) (homes : ∀ b, homeByte t b = homeByte s b)
    (pl : Place) (a n : Nat) : bytesAt t pl a n = bytesAt s pl a n := by
  unfold bytesAt
  rw [wg, scratchBytes_congr (scratch _), homeBytes_congr fun i _ => homes (a + i)]

theorem OnlyReserved.bytesAt (h : OnlyReserved s t) (pl : Place) (a n : Nat) : bytesAt t pl a n = Machine.bytesAt s pl a n :=
  bytesAt_congr (by rw [h]; rfl) (fun _ _ => by rw [h]; rfl) h.homeByte pl a n

theorem OnlyReserved.atRest (h : OnlyReserved s t) (rest : atRest s) : atRest t := by rw [h]; exact rest

theorem flitFrom_only (a : Nat) (s : State) : OnlyReserved s (flitFrom a s) := by
  unfold flitFrom
  split <;> rfl

theorem takeResv_reserved (lane : Nat) (r : Resv) (s : State) : OnlyReserved s (s.setG (takeResv lane r)) := by
  unfold State.setG
  rw [takeResv_eq]
  rfl

/-- An exclusive load reads its place, and changes nothing else. -/
theorem placeExclusive_rest (lane a n : Nat) (rest : atRest s) :
    (placeExclusive s.grp pl lane a n s).1 = bytesAt s pl a n ∧ OnlyReserved s (placeExclusive s.grp pl lane a n s).2
      ∧ (placeExclusive s.grp pl lane a n s).2.grp = s.grp := by
  obtain ⟨-, stores, caches⟩ := rest
  have home : ∀ b : Place, b ≠ .scratch → (loadHome s.grp.uid lane s.grp.core a n s).1 = bytesAt s b a n
      ∧ OnlyReserved s (loadHome s.grp.uid lane s.grp.core a n s).2 ∧ (loadHome s.grp.uid lane s.grp.core a n s).2.grp = s.grp := by
    intro b hb
    rw [loadHome_empty _ _ _ _ _ stores caches, bytesAt, if_neg hb]
    refine ⟨rfl, flitFrom_only a s, ?_⟩
    unfold flitFrom
    split <;> rfl
  cases pl with
  | scratch =>
    unfold placeExclusive
    dsimp only
    rw [drainOwn_empty _ _ _ stores]
    exact ⟨(if_pos rfl).symm, .refl s, rfl⟩
  | mem => exact home .mem (by decide)
  | window => exact home .window (by decide)

theorem sfind_takeResv (g : Group) (lane l : Nat) (r : Resv) : sfind l (takeResv lane r g).resv
    = if sfind lane g.arming = some r ∧ lane = l then some r else sfind l g.resv := by
  rw [takeResv_eq]
  dsimp only
  by_cases armed : sfind lane g.arming = some r
  · rw [if_pos armed, sfind_sins]
    exact if_congr (and_iff_right armed).symm rfl rfl
  · rw [if_neg armed, if_neg fun both => armed both.1]

/-- One lane's `LDX` reads its place and takes the reservation that it was to have. -/
theorem ldxLane_rest (rest : atRest s) : (ldxLane pl size q s).1 = bytesAt s pl q.2 size ∧ OnlyReserved s (ldxLane pl size q s).2
    ∧ ∀ l, sfind l (ldxLane pl size q s).2.grp.resv
      = if sfind q.1.lane s.grp.arming = some (resvOf s.grp pl q.2 size) ∧ q.1.lane = l then some (resvOf s.grp pl q.2 size) else sfind l s.grp.resv := by
  have idle : performAt s.grp.uid q.1.lane pl (lineOf q.2) s = s := by
    obtain ⟨idle, -, -⟩ := rest
    exact performAt_idle _ _ _ idle
  obtain ⟨read, only, same⟩ := placeExclusive_rest (pl := pl) q.1.lane q.2 size rest
  unfold ldxLane
  rw [idle]
  refine ⟨read, only.trans (takeResv_reserved _ _ _), fun l => ?_⟩
  dsimp only [State.setG]
  rw [same, sfind_takeResv]

/-- The `LDX` words of some lanes, each of which was to have its reservation. -/
theorem ldxRun_rest (run : List (Access × Nat)) (rest : atRest s) :
    (ldxRun pl size d run s).1 = run.flatMap (fun p => laneWrites d p.1.lane (toWords (size / 4) (bytesAt s pl p.2 size)))
    ∧ OnlyReserved s (ldxRun pl size d run s).2
    ∧ (∀ l, (∀ p ∈ run, p.1.lane ≠ l) → sfind l (ldxRun pl size d run s).2.grp.resv = sfind l s.grp.resv)
    ∧ ((run.map fun p => p.1.lane).Nodup → ∀ p ∈ run, sfind p.1.lane s.grp.arming = some (resvOf s.grp pl p.2 size) →
        sfind p.1.lane (ldxRun pl size d run s).2.grp.resv = some (resvOf s.grp pl p.2 size)) := by
  induction run generalizing s with
  | nil => exact ⟨rfl, .refl s, fun _ _ => rfl, fun _ p hp => absurd hp List.not_mem_nil⟩
  | cons q run ih =>
    obtain ⟨read, only, taken⟩ := ldxLane_rest (pl := pl) (size := size) (q := q) rest
    obtain ⟨reads, onlys, others, each⟩ := ih (only.atRest rest)
    have issuer : ∀ a, resvOf (ldxLane pl size q s).2.grp pl a size = resvOf s.grp pl a size := fun a => by rw [only]; rfl
    have arming : (ldxLane pl size q s).2.grp.arming = s.grp.arming := by rw [only]
    simp only [issuer, arming] at each
    rw [ldxRun_cons]
    refine ⟨?_, only.trans onlys, fun l apart => ?_, fun distinct p hp armed => ?_⟩
    · rw [List.flatMap_cons, read, reads]
      simp only [only.bytesAt]
    · rw [others l fun p hp => apart p (List.mem_cons_of_mem _ hp), taken, if_neg fun both => apart q List.mem_cons_self both.2]
    · obtain ⟨first, distinct⟩ := List.nodup_cons.1 distinct
      rcases List.mem_cons.1 hp with rfl | hp
      · rw [others _ fun p' hp' same => first (List.mem_map.2 ⟨p', hp', same⟩), taken, if_pos ⟨armed, rfl⟩]
      · exact each distinct p hp armed

/-- A lane's reservation to come, where each lane has one access. -/
theorem sfind_armedMap (g : Group) (distinct : (run.map fun p => p.1.lane).Nodup) {p : Access × Nat} (hp : p ∈ run) :
    sfind p.1.lane (armedMap pl size run g) = some (resvOf g pl p.2 size) := by
  have rest : ∀ (run : List (Access × Nat)) (m : Sparse Resv) (l : Nat), l ∉ run.map (fun p => p.1.lane) →
      sfind l (run.foldl (fun m p => sins p.1.lane (resvOf g pl p.2 size) m) m) = sfind l m := by
    intro run
    induction run with
    | nil => exact fun _ _ _ => rfl
    | cons q run ih =>
      intro m l hl
      simp only [List.map_cons, List.mem_cons, not_or] at hl
      rw [List.foldl_cons, ih _ l hl.2, sfind_sins, if_neg fun same => hl.1 same.symm]
  have each : ∀ (run : List (Access × Nat)) (m : Sparse Resv), (run.map fun p => p.1.lane).Nodup → p ∈ run →
      sfind p.1.lane (run.foldl (fun m p => sins p.1.lane (resvOf g pl p.2 size) m) m) = some (resvOf g pl p.2 size) := by
    intro run
    induction run with
    | nil => exact fun _ _ hp => absurd hp List.not_mem_nil
    | cons q run ih =>
      intro m distinct hp
      obtain ⟨first, distinct⟩ := List.nodup_cons.1 distinct
      rcases List.mem_cons.1 hp with rfl | hp
      · rw [List.foldl_cons, rest _ _ _ first, sfind_sins, if_pos rfl]
      · exact ih _ distinct hp
  exact each run g.arming distinct hp

/-- What the sampling of a word's requests leaves (R335). -/
theorem sampled_keepsDet (pl : Place) (run : List (Access × Nat)) (s : State) (k : Nat) :
    ((findCtx k (sampled pl run s)).getD {}).det = ((findCtx k s).getD {}).det := by
  unfold sampled takeSamples
  split
  · rfl
  · split
    · rfl
    · have kept : ∀ f : Context → Context, (∀ c, (f c).id = c.id ∧ (f c).det = c.det) →
          (((s.ctxs.map f).find? fun c => c.id = k).getD {}).det = ((s.ctxs.find? fun c => c.id = k).getD {}).det := by
        intro f hf
        rw [List.find?_map]
        have same : ((fun c : Context => decide (c.id = k)) ∘ f) = fun c => decide (c.id = k) := funext fun c => by simp [(hf c).1]
        rw [same]
        cases s.ctxs.find? fun c => decide (c.id = k) with
        | none => rfl
        | some c => exact (hf c).2
      exact kept _ fun c => by split <;> exact ⟨rfl, rfl⟩

theorem bytesAt_sampled (pl' : Place) (a n : Nat) : bytesAt (sampled pl run s) pl' a n = bytesAt s pl' a n := by
  refine bytesAt_congr ?_ (fun w i => by rw [scratchByte, scratchByte, sampled_keepsDet]) (fun b => ?_) pl' a n <;>
    (obtain ⟨cs, eq, -⟩ := sampled_ctxs pl run s; rw [eq]; rfl)

theorem atRest_sampled (rest : atRest s) : atRest (sampled pl run s) := by
  obtain ⟨cs, eq, -⟩ := sampled_ctxs pl run s
  rw [eq]
  exact rest

end

end Sys2Proof.Machine

/-! ### Exclusive words (R226) -/

namespace Sys2Proof.Machine

section

variable {s : State} {n : BitVec 5} {d x : BitVec 8} {w : Nat} {run : List (Access × Nat)}

/-- The state in which the lanes of `LDX` are to take their reservations. -/
def ldxArmed (s : State) (n : BitVec 5) (w : Nat) (run : List (Access × Nat)) : State :=
  armLanes (placeOf s.grp n.toNat) (4 * w) run (sampled (placeOf s.grp n.toNat) run s)

/-- The `LDX` words of the lanes that are performed at once. -/
def ldxNow (s : State) (n : BitVec 5) (d : BitVec 8) (w : Nat) (run : List (Access × Nat)) : List RegWrite × State :=
  ldxRun (placeOf s.grp n.toNat) (4 * w) d.toNat (run.filter fun p => !defers s p.1.lane) (ldxArmed s n w run)

/-- Those that are performed later. -/
def ldxKept (s : State) (n : BitVec 5) (d : BitVec 8) (w : Nat) (run : List (Access × Nat)) : List PLoad :=
  (run.filter fun p => defers s p.1.lane).map fun p =>
    { place := placeOf s.grp n.toNat, lane := p.1.lane, addr := p.2, size := 4 * w, scope := 2, evc := 0, reg := .v d.toNat, ext := .words, how := .exclusive }

/-- The state after the effect of `LDX`. -/
def ldxEffect (s : State) (n : BitVec 5) (d : BitVec 8) (w : Nat) (run : List (Access × Nat)) : State :=
  launchOp (plainRegs w d.toNat) ((ldxNow s n d w run).1 ++ clampedWrites s d w run) [] (ldxNow s n d w run).2 (ldxKept s n d w run)

theorem ldxNow_accessed (s : State) (n : BitVec 5) (d : BitVec 8) (w : Nat) (run : List (Access × Nat)) :
    Accessed (fun a => inFlight s a = true) s (ldxNow s n d w run).2 := by
  have start := sampled_accessed (placeOf s.grp n.toNat) run (within_inFlight s)
  have armed : Accessed _ s (ldxArmed s n w run) := start.trans (armLanes_accessed start.flight)
  exact armed.trans (ldxRun_accessed _ armed.flight)

theorem ldxNow_deferred (h : ∀ p ∈ run, defers s p.1.lane = true) :
    ldxNow s n d w run = ([], ldxArmed s n w run) := by
  have none : (run.filter fun p => !defers s p.1.lane) = [] := List.filter_eq_nil_iff.2 fun p hp => by simp [h p hp]
  rw [ldxNow, none]
  rfl

/-- Each active lane of `LDX` has a write or a load to be performed. -/
theorem ldx_lane_waits (hw : 0 < w) (now : (ldxNow s n d w run).1 = []) (zeros : clampedWrites s d w run = []) (later : ldxKept s n d w run = []) :
    active s = 0 := by
  have noneNow := ldxRun_eq_nil (by omega) now
  have noneLater := List.map_eq_nil_iff.1 later
  obtain rfl : run = [] := List.eq_nil_iff_forall_not_mem.2 fun p hp => by
    have notNow := List.filter_eq_nil_iff.1 noneNow p hp
    have notLater := List.filter_eq_nil_iff.1 noneLater p hp
    simp [notLater] at notNow
  refine lanes_eq_nil (List.eq_nil_iff_forall_not_mem.2 fun l hl => ?_)
  have none := laneWrites_eq_nil (List.flatMap_eq_nil_iff.1 zeros l (by simpa using hl))
  exact hw.ne' ((List.replicate_eq_nil_iff 0).1 none)

variable {z : BitVec 2}

theorem execLdx_proceeds (hr : ready (memNeed s (some (d.toNat, szWords z)) x.toNat true) s) (hs : anySpec s = false)
    (hp : proceeds s (wordAccess s n x (4 * szWords z) 0 false (exclusiveDet s n.toNat) [0]) run) :
    execLdx n d x z s = .next (finish (ldxEffect s n d (szWords z) run)) := by
  have same := (ldxNow_accessed s n d (szWords z) run).issuer
  obtain ⟨p, act⟩ := act_of_ready hr
  unfold execLdx
  dsimp only
  rw [word_run _ hr, hs, if_neg Bool.false_ne_true]
  refine congrArg Host.Outcome.next ((memWord_of_proceeds hp _).trans ?_)
  have clamps : (clampLanes s run []).flatMap (fun l => laneWrites d.toNat l (List.replicate (szWords z) 0)) = clampedWrites s d (szWords z) run := by
    simp only [clampLanes, List.any_nil, Bool.not_false, Bool.and_true]
    rfl
  have kept : (loadsLater (placeOf s.grp n.toNat) 2 0 (4 * szWords z) d.toNat .words (run.filter fun p => defers s p.1.lane)).map
      (fun p => { p with how := .exclusive }) = ldxKept s n d (szWords z) run := by
    rw [loadsLater, List.map_map]
    rfl
  rw [clamps, kept]
  exact loadFinish_launches (same.act.trans act) fun now zeros later => same.active.trans (ldx_lane_waits (szWords_pos z) now zeros later)

theorem ldxEffect_rests : quiet (ldxEffect s n d w run) = quiet s ∧ curPc (ldxEffect s n d w run) = curPc s ∧ active (ldxEffect s n d w run) = active s := by
  have same := (ldxNow_accessed s n d w run).issuer
  exact ⟨(launchOp_quiet ..).trans same.quiet, (launchOp_curPc ..).trans same.curPc, (launchOp_active ..).trans same.active⟩

theorem ldxArmed_grp (s : State) (n : BitVec 5) (w : Nat) (run : List (Access × Nat)) :
    (ldxArmed s n w run).grp = { s.grp with arming := armedMap (placeOf s.grp n.toNat) (4 * w) run s.grp } := by
  rw [ldxArmed, armLanes_eq, State.setG, sampled_grp]

theorem ldxArmed_beside (s : State) (n : BitVec 5) (w : Nat) (run : List (Access × Nat)) :
    (atRest s → atRest (ldxArmed s n w run)) ∧ (∀ b, homeByte (ldxArmed s n w run) b = homeByte s b)
      ∧ ∀ pl a m, bytesAt (ldxArmed s n w run) pl a m = bytesAt s pl a m := by
  have homes : ∀ b, homeByte (ldxArmed s n w run) b = homeByte s b := fun b => by
    obtain ⟨cs, eq, -⟩ := sampled_ctxs (placeOf s.grp n.toNat) run s
    rw [ldxArmed, armLanes_eq, eq]
    rfl
  refine ⟨fun rest => ?_, homes, fun pl a m => ?_⟩
  · rw [ldxArmed, armLanes_eq]
    exact atRest_sampled rest
  · refine Eq.trans ?_ (bytesAt_sampled (pl := placeOf s.grp n.toNat) (run := run) pl a m)
    rw [ldxArmed, armLanes_eq]
    refine bytesAt_congr ?_ ?_ ?_ pl a m
    · rfl
    · exact fun _ _ => rfl
    · exact fun _ => rfl

/-- The lanes of `LDX` that are all performed at once, where nothing is pending. -/
theorem ldxNow_rest (rest : atRest s) (distinct : (run.map fun p => p.1.lane).Nodup) (now : ∀ p ∈ run, defers s p.1.lane = false) :
    (ldxNow s n d w run).1 = run.flatMap (fun p => laneWrites d.toNat p.1.lane (extended .words (4 * w) (bytesAt s (placeOf s.grp n.toNat) p.2 (4 * w))))
    ∧ (∀ b, homeByte (ldxNow s n d w run).2 b = homeByte s b)
    ∧ (∀ p ∈ run, sfind p.1.lane (ldxNow s n d w run).2.grp.resv = some (resvOf s.grp (placeOf s.grp n.toNat) p.2 (4 * w)))
    ∧ (ldxNow s n d w run).2.grp.ops = s.grp.ops := by
  have all : (run.filter fun p => !defers s p.1.lane) = run := List.filter_eq_self.2 fun p hp => by simp [now p hp]
  obtain ⟨quietly, homes, bytes⟩ := ldxArmed_beside s n w run
  have issuer := ldxArmed_grp s n w run
  obtain ⟨reads, only, -, taken⟩ := ldxRun_rest (pl := placeOf s.grp n.toNat) (size := 4 * w) (d := d.toNat) run (quietly rest)
  unfold ldxNow
  rw [all]
  refine ⟨?_, fun b => (only.homeByte b).trans (homes b), fun p hp => ?_, ?_⟩
  · rw [reads]
    simp only [bytes]
    rfl
  · have mine := taken distinct p hp
    rw [issuer] at mine
    exact mine (sfind_armedMap s.grp distinct hp)
  · have ops : (ldxArmed s n w run).grp.ops = s.grp.ops := by rw [issuer]
    rw [only]
    exact ops

/-- The words that `STX` stores for a lane. -/
def stxBytes (s : State) (d : BitVec 8) (w l : Nat) : List Byte := (List.range w).flatMap fun i => toBytes 4 (getV s.grp (d.toNat + i) l).toNat

/-- The lanes of `STX` that stored, with the state after them. -/
def stxNow (s : State) (n : BitVec 5) (d : BitVec 8) (w : Nat) (run : List (Access × Nat)) : List Nat × State :=
  stxRun (placeOf s.grp n.toNat) (4 * w) (stxBytes s d w) run (sampled (placeOf s.grp n.toNat) run s)

/-- The state after the effect of `STX`: `M15` tells the active lanes whether they stored. -/
def stxEffect (s : State) (n : BitVec 5) (d : BitVec 8) (w : Nat) (run : List (Access × Nat)) : State :=
  (stxNow s n d w run).2.setG fun g => setM 15 (putBits (fun l => (stxNow s n d w run).1.contains l) (lanes (active s)) (getM g 15)) g

theorem length_stxBytes (s : State) (d : BitVec 8) (w l : Nat) : (stxBytes s d w l).length = 4 * w := by
  simp [stxBytes, List.length_flatMap, length_toBytes, Nat.mul_comm]

/-- The homes that `STX` may change. -/
def stxHomes (s : State) (n : BitVec 5) (w : Nat) (run : List (Access × Nat)) (a : Nat) : Prop :=
  inFlight s a = true ∨ covered (placeOf s.grp n.toNat) (4 * w) run a

theorem stxNow_accessed (s : State) (n : BitVec 5) (d : BitVec 8) (w : Nat) (run : List (Access × Nat)) :
    Accessed (stxHomes s n w run) s (stxNow s n d w run).2 := by
  have start := sampled_accessed (placeOf s.grp n.toNat) run
    ((within_inFlight s).mono fun a => Or.inl (b := covered (placeOf s.grp n.toNat) (4 * w) run a))
  refine start.trans (stxRun_accessed run (fun q hq hpl i hi => .inr ⟨hpl, q, hq, Nat.le_add_right .., ?_⟩) start.flight)
  rw [length_stxBytes] at hi
  omega

theorem execStx_proceeds (hr : ready (memNeed s (some (d.toNat, szWords z)) x.toNat false) s) (hs : anySpec s = false)
    (hp : proceeds s (wordAccess s n x (4 * szWords z) 1 true (exclusiveDet s n.toNat) [1]) run) :
    execStx n d x z s = .next (finish (stxEffect s n d (szWords z) run)) := by
  have same := (stxNow_accessed s n d (szWords z) run).issuer
  obtain ⟨p, act⟩ := act_of_ready hr
  unfold execStx
  dsimp only
  rw [word_run _ hr, hs, if_neg Bool.false_ne_true]
  refine congrArg Host.Outcome.next ((memWord_of_proceeds hp _).trans ?_)
  have all : (lanes (active s)).filter (fun l => !(([] : List (Nat × Nat)).any fun p => decide (p.1 = l))) = lanes (active s) :=
    List.filter_eq_self.2 fun _ _ => rfl
  rw [all]
  exact afterPark_of_act (same.act.trans act)

theorem stxEffect_rests : quiet (stxEffect s n d w run) = quiet s ∧ curPc (stxEffect s n d w run) = curPc s ∧ active (stxEffect s n d w run) = active s := by
  have same := (stxNow_accessed s n d w run).issuer
  exact ⟨same.quiet, same.curPc, same.active⟩

/-- A completed word leaves the mask registers that its effect gives. -/
theorem Completed.getM {u t : State} (h : Completed u t) (r : Nat) : getM t.grp r = Machine.getM u.grp r := by
  obtain ⟨-, -, -, placed⟩ := h
  rw [placed]
  rfl

theorem stxEffect_getM : getM (stxEffect s n d w run).grp 15
    = putBits (fun l => (stxNow s n d w run).1.contains l) (lanes (active s)) (getM s.grp 15) := by
  have same := (stxNow_accessed s n d w run).issuer
  have mask : getM (stxNow s n d w run).2.grp 15 = getM s.grp 15 := by
    obtain ⟨same, -, -⟩ := same
    rw [same]
    rfl
  change getM (setM 15 _ _) 15 = _
  rw [getM_setM, if_pos rfl, mask]

theorem masked_of_stx {t : State} (done : Completed (stxEffect s n d w run) t) : Masked s 15 (fun l => (stxNow s n d w run).1.contains l) t.grp := by
  intro l hl
  rw [done.getM, stxEffect_getM, bit_putBits _ l hl]
  simp only [isActive, List.contains_eq_mem, decide_eq_true_eq]

end

theorem exec_ldx (bt : BitVec 1) (n : BitVec 5) (d x : BitVec 8) (z : BitVec 2) (s : State) : exec (.ldx bt n d x z) s = execLdx n d x z s := rfl
theorem exec_stx (bt : BitVec 1) (n : BitVec 5) (d x : BitVec 8) (z : BitVec 2) (s : State) : exec (.stx bt n d x z) s = execStx n d x z s := rfl

theorem exclusiveWords : Sys2Proof.Claims.exclusiveWords := by
  intro s bt n d x z run w pl det clamped
  refine ⟨fun hr hs hp => ?_, fun hr hs hp => ?_⟩
  · have ends := ldxNow_accessed s n d w run
    obtain ⟨hq, pc, mask⟩ := ldxEffect_rests (s := s) (n := n) (d := d) (w := w) (run := run)
    refine ⟨completes_of_finish ((exec_ldx bt n d x z s).trans (execLdx_proceeds hr hs hp)) hq pc mask, ends.issuer, fun a free => ends.home a ?_,
      ldxNow_deferred, fun rest now => ?_⟩
    · rw [free]
      exact Bool.false_ne_true
    · obtain ⟨reads, -, taken, -⟩ := ldxNow_rest (n := n) (d := d) (w := w) rest (lanes_nodup_of_proceeds hp) now
      exact ⟨reads, taken⟩
  · have ends := stxNow_accessed s n d w run
    obtain ⟨hq, pc, mask⟩ := stxEffect_rests (s := s) (n := n) (d := d) (w := w) (run := run)
    obtain ⟨t, ht, done⟩ := completes_of_finish ((exec_stx bt n d x z s).trans (execStx_proceeds hr hs hp)) hq pc mask
    refine ⟨⟨t, ht, ?_, masked_of_stx done⟩, ends.issuer, fun a free outside => ends.home a fun either => ?_⟩
    · rw [done.getM]
      have kept : getM (stxEffect s n d w run).grp 15 = putBits (fun l => (stxNow s n d w run).1.contains l) (lanes (active s)) (getM (stxNow s n d w run).2.grp 15) :=
        (getM_setM ..).trans (if_pos rfl)
      rw [kept]
      exact done
    · rcases either with flying | inside
      · exact Bool.false_ne_true (free.symm.trans flying)
      · exact outside inside

end Sys2Proof.Machine

/-! ### One lane's `LDX` and `STX` (R226) -/

namespace Sys2Proof.Machine

section

variable {s t u : State} {n : BitVec 5} {d x : BitVec 8} {w a : Nat} {c : Access}

theorem homeByte_launchOp (regs : List Reg) (ws : List RegWrite) (cs : List (Nat × Nat × Closure)) (ls : List PLoad) (b : Nat) :
    homeByte (launchOp regs ws cs u ls) b = homeByte u b := by
  unfold launchOp raiseOp
  split
  · rfl
  · split <;> rfl

theorem homeByte_finish (hq : quiet u = true) (b : Nat) : homeByte (finish u) b = homeByte u b := by
  obtain ⟨homes, -⟩ := moved_completed u
  rw [finish_quiet hq]
  exact homes b

/-- A word that is not the last of its clause completes with the issuer's operations and reservations as they are. -/
theorem finish_inside {e : FEntry} {p : Pos} (hq : quiet u = true) (act : u.grp.act = some e) (pos : e.pos = some p) (inside : p.issued + 1 < p.len) :
    (finish u).grp.ops = u.grp.ops ∧ (finish u).grp.resv = u.grp.resv ∧ (finish u).grp.arming = u.grp.arming := by
  rw [finish_quiet hq, advance_inside (s := settle u) act pos inside]
  exact ⟨rfl, rfl, rfl⟩

/-- An operation launched by an active path is the last of the issuer's, whose reservations stay. -/
theorem finish_launchOp_inside {p : Pos} (hq : quiet u = true) (hp : curPos u = some p) (inside : p.issued + 1 < p.len) (some : active u ≠ 0)
    (regs : List Reg) (ws : List RegWrite) (ls : List PLoad) :
    let t := finish (launchOp regs ws [] u ls)
    t.grp.ops = u.grp.ops ++ [{ flag := flagOf p, writes := ws, clos := [], loads := ls }] ∧ t.grp.resv = u.grp.resv ∧ t.grp.arming = u.grp.arming := by
  obtain ⟨e, act, pos⟩ := Option.bind_eq_some_iff.1 hp
  have launched := raiseOp_of_pos hp regs ws [] ls
  have path : (launchOp regs ws [] u ls).grp.act = .some { e with pos := .some { p with vl := p.vl + 1 } } := by
    rw [launchOp, if_neg some, launched]
    dsimp only
    rw [act, Option.map_some, pos, Option.map_some]
  obtain ⟨ops, resv, arming⟩ := finish_inside (u := launchOp regs ws [] u ls) ((launchOp_quiet ..).trans hq) path rfl inside
  dsimp only
  rw [ops, resv, arming, launchOp, if_neg some, launched]
  exact ⟨rfl, rfl, rfl⟩

theorem lanes_laneBit {l k : Nat} (hk : k ∈ lanes (laneBit l)) : k = l := by
  obtain ⟨lt, here⟩ := (mem_lanes _ k).1 hk
  rw [bit_laneBit l k lt] at here
  exact of_decide_eq_true here

theorem laneBit_ne_zero {l : Nat} (hl : l < 64) : laneBit l ≠ 0 := by
  intro none
  have here := bit_laneBit l l hl
  rw [none] at here
  simp [bit] at here

/-- No lane but the one that proceeds is active: none is out of bounds. -/
theorem clampedWrites_lane (mask : active s = laneBit c.lane) : clampedWrites s d w [(c, a)] = [] := by
  have none : (lanes (active s)).filter (fun l => !([(c, a)].any fun p => decide (p.1.lane = l))) = [] :=
    List.filter_eq_nil_iff.2 fun l here => by
      rw [mask] at here
      simp [lanes_laneBit here]
  rw [clampedWrites, none]
  rfl

/-- What the lane of an `LDX` has read and kept. -/
theorem ldxNow_lane (rest : atRest s) (mem : placeOf s.grp n.toNat = .mem) :
    (∀ b, homeByte (ldxNow s n d w [(c, a)]).2 b = homeByte s b) ∧ (ldxNow s n d w [(c, a)]).2.grp.ops = s.grp.ops
    ∧ (defers s c.lane = false → sfind c.lane (ldxNow s n d w [(c, a)]).2.grp.resv = some { place := 0, addr := a, size := 4 * w }
      ∧ (ldxNow s n d w [(c, a)]).1 = laneWrites d.toNat c.lane (extended .words (4 * w) (homeBytes s a (4 * w))) ∧ ldxKept s n d w [(c, a)] = [])
    ∧ (defers s c.lane = true → (ldxNow s n d w [(c, a)]).2.grp.resv = s.grp.resv
      ∧ sfind c.lane (ldxNow s n d w [(c, a)]).2.grp.arming = some { place := 0, addr := a, size := 4 * w } ∧ (ldxNow s n d w [(c, a)]).1 = []
      ∧ ldxKept s n d w [(c, a)] = [{ place := .mem, lane := c.lane, addr := a, size := 4 * w, scope := 2, evc := 0, reg := .v d.toNat, ext := .words
                                      how := .exclusive }]) := by
  have idle : ∀ o ∈ s.grp.ops, o.loads = [] := by
    obtain ⟨idle, -, -⟩ := rest
    exact idle
  have ops : (ldxNow s n d w [(c, a)]).2.grp.ops = s.grp.ops := by
    obtain ⟨-, -, same⟩ := (ldxNow_accessed s n d w [(c, a)]).issuer
    exact same idle
  cases hd : defers s c.lane with
  | false =>
    obtain ⟨reads, homes, taken, -⟩ := ldxNow_rest (n := n) (d := d) (w := w) (run := [(c, a)]) rest (List.nodup_singleton _)
      fun p hp => by rw [List.mem_singleton.1 hp]; exact hd
    have mine := taken (c, a) List.mem_cons_self
    rw [mem] at mine reads
    refine ⟨homes, ops, fun _ => ⟨mine, ?_, ?_⟩, fun h => nomatch h⟩
    · rw [reads, List.flatMap_singleton]
      rfl
    · rw [ldxKept, List.filter_eq_nil_iff.2 fun p hp => by rw [List.mem_singleton.1 hp, hd]; exact Bool.false_ne_true]
      rfl
  | true =>
    have later := ldxNow_deferred (n := n) (d := d) (w := w) (run := [(c, a)]) fun p hp => by rw [List.mem_singleton.1 hp]; exact hd
    obtain ⟨-, homes, -⟩ := ldxArmed_beside s n w [(c, a)]
    refine ⟨fun b => by rw [later]; exact homes b, ops, fun h => (nomatch h), fun _ => ⟨?_, ?_, by rw [later], ?_⟩⟩
    · rw [later, ldxArmed_grp]
    · have armed := sfind_armedMap (pl := .mem) (size := 4 * w) (run := [(c, a)]) s.grp (List.nodup_singleton _) List.mem_cons_self
      rw [later, ldxArmed_grp, mem]
      exact armed
    · rw [ldxKept, List.filter_eq_self.2 fun p hp => by rw [List.mem_singleton.1 hp, hd], mem]
      rfl

/-- What the lane of an `STX` does where nothing is pending. -/
theorem stxNow_lane (rest : atRest s) (mem : placeOf s.grp n.toNat = .mem) (here : peerGone s a = false) :
    let intact := sfind c.lane s.grp.resv = some { place := 0, addr := a, size := 4 * w }
    ((stxNow s n d w [(c, a)]).1.contains c.lane = true ↔ intact)
    ∧ (intact → homeBytes (stxNow s n d w [(c, a)]).2 a (4 * w) = stxBytes s d w c.lane)
    ∧ ∀ b, ¬(intact ∧ a ≤ b ∧ b < a + 4 * w) → homeByte (stxNow s n d w [(c, a)]).2 b = homeByte s b := by
  intro intact
  obtain ⟨cs, eq, -⟩ := sampled_ctxs (placeOf s.grp n.toNat) [(c, a)] s
  have rest' : atRest (sampled (placeOf s.grp n.toNat) [(c, a)] s) := atRest_sampled rest
  have issuer : (sampled (placeOf s.grp n.toNat) [(c, a)] s).grp = s.grp := sampled_grp ..
  have homes : ∀ b, homeByte (sampled (placeOf s.grp n.toNat) [(c, a)] s) b = homeByte s b := fun b => by rw [eq]; rfl
  have here' : peerGone (sampled (placeOf s.grp n.toNat) [(c, a)] s) a = false := by rw [eq]; exact here
  unfold stxNow
  rw [mem] at *
  generalize sampled .mem [(c, a)] s = u at *
  obtain ⟨idle, stores, caches⟩ := rest'
  have alone : performAt u.grp.uid c.lane .mem (lineOf a) u = u := performAt_idle _ _ _ idle
  have before : stxBefore .mem (c, a) u = u := by
    rw [stxBefore, alone, drainCore_empty _ _ stores]
  have holds : resvIntact u .mem c.lane a (4 * w) = decide intact := by
    rw [resvIntact, issuer]
    rfl
  have length := length_stxBytes s d w c.lane
  rw [stxRun_cons, before, holds]
  by_cases yes : intact
  · have store : (stxRun .mem (4 * w) (stxBytes s d w) [] (stxLane .mem (4 * w) (stxBytes s d w) (c, a) u)).2
        = performStore (some (u.grp.uid, c.lane)) u.grp.core a (stxBytes s d w c.lane) u := by
      change stxLane _ _ _ _ _ = _
      rw [stxLane, holds, decide_eq_true yes, if_pos rfl, exclusiveStore, alone]
      exact storeHome_empty _ _ _ _ _ stores caches
    dsimp only
    rw [store, decide_eq_true yes, if_pos rfl]
    refine ⟨by simp [yes], fun _ => ?_, fun b outside => ?_⟩
    · have read := homeBytes_performStore here' (some (u.grp.uid, c.lane)) u.grp.core (stxBytes s d w c.lane)
      rwa [length] at read
    · obtain ⟨-, -, noted⟩ := noteOld_beside a (stxBytes s d w c.lane) u
      rw [homeByte_performStore_bytes here', homeByte_setHomeBytes _ _ _ _ (by rw [length]; by_contra inside; exact outside ⟨yes, by omega, by omega⟩), noted,
        homes]
  · have none : (stxRun .mem (4 * w) (stxBytes s d w) [] (stxLane .mem (4 * w) (stxBytes s d w) (c, a) u)) = ([], u) := by
      change ([], stxLane _ _ _ _ _) = _
      rw [stxLane, holds, decide_eq_false yes, if_neg Bool.false_ne_true]
    dsimp only
    rw [none, decide_eq_false yes, if_neg Bool.false_ne_true]
    exact ⟨by simp [yes], fun held => absurd held yes, fun b _ => homes b⟩

end

theorem exclusiveLane : Sys2Proof.Claims.exclusiveLane := by
  intro s bt n d x z c a w det held mem hs hq rest here line
  refine ⟨fun hr hp => ?_, fun hr hp hl => ?_⟩
  · obtain ⟨homes, ops, atOnce, later⟩ := ldxNow_lane (n := n) (d := d) (w := w) (a := a) (c := c) rest mem
    have same := (ldxNow_accessed s n d w [(c, a)]).issuer
    obtain ⟨quietly, -, -⟩ := ldxEffect_rests (s := s) (n := n) (d := d) (w := w) (run := [(c, a)])
    refine ⟨_, (exec_ldx bt n d x z s).trans (execLdx_proceeds hr hs hp), fun b => ?_, fun p pos inside mask hl => ?_⟩
    · exact (homeByte_finish (quietly.trans hq) b).trans ((homeByte_launchOp ..).trans (homes b))
    · have path : curPos (ldxNow s n d w [(c, a)]).2 = some p := by
        rw [curPos, same.act]
        exact pos
      have some : active (ldxNow s n d w [(c, a)]).2 ≠ 0 := by
        rw [same.active, mask]
        exact laneBit_ne_zero hl
      obtain ⟨launched, resv, arming⟩ := finish_launchOp_inside (same.quiet.trans hq) path inside some (plainRegs w d.toNat)
        ((ldxNow s n d w [(c, a)]).1 ++ clampedWrites s d w [(c, a)]) (ldxKept s n d w [(c, a)])
      rw [clampedWrites_lane mask, List.append_nil] at launched resv arming
      unfold ldxEffect
      rw [clampedWrites_lane mask, List.append_nil]
      refine ⟨_, launched.trans (by rw [ops]), fun now => ?_, fun defers => ?_⟩
      · obtain ⟨mine, reads, kept⟩ := atOnce now
        exact ⟨resv ▸ mine, reads, kept⟩
      · obtain ⟨stays, mine, reads, kept⟩ := later defers
        exact ⟨resv.trans stays, arming ▸ mine, reads, kept⟩
  · obtain ⟨told, stored, others⟩ := stxNow_lane (n := n) (d := d) (w := w) (a := a) (c := c) rest mem here
    obtain ⟨quietly, pc, mask⟩ := stxEffect_rests (s := s) (n := n) (d := d) (w := w) (run := [(c, a)])
    obtain ⟨t, ht, done⟩ := completes_of_finish ((exec_stx bt n d x z s).trans (execStx_proceeds hr hs hp)) quietly pc mask
    rw [thenStep, if_pos hq] at ht
    have homes : ∀ b, homeByte t b = homeByte (stxNow s n d w [(c, a)]).2 b := by
      obtain ⟨homes, -⟩ := done
      exact homes
    have isActive : isActive s c.lane = true := (isActive_iff s _).2 ((lanes_of_proceeds hp).subset (List.mem_cons_self (a := c.lane) (l := [])))
    have bit := masked_of_stx done c.lane hl
    rw [isActive, if_pos rfl] at bit
    refine ⟨t, ht, by rw [bit]; exact told, fun intact => ?_, fun b outside => (homes b).trans (others b outside)⟩
    rw [homeBytes_congr fun i _ => homes (a + i)]
    exact stored intact

theorem exclusivePerformed : Sys2Proof.Claims.exclusivePerformed := by
  intro s g p how mem words found here stores caches held r
  have reach : ¬(p.place = .mem ∧ (p.lost || peerGone s p.addr) = true) := by simp [found, here]
  have performed : r = (loadWrites p.reg p.lane (extended .words p.size (homeBytes s p.addr p.size)),
      updGroup g.uid (takeResv p.lane (resvOf g .mem p.addr p.size)) (flitFrom p.addr s)) := by
    change performLoad g p s = _
    rw [performLoad, if_neg reach]
    simp only [loadWords, how, mem, words, placeExclusive, loadHome_empty _ _ _ _ _ stores caches]
  have issuer : (flitFrom p.addr s).grp = s.grp := by
    unfold flitFrom
    split <;> rfl
  rw [performed]
  refine ⟨rfl, fun b => (homeByte_updGroup ..).trans (homeByte_flitFrom ..), fun own => ?_⟩
  have loaded : (updGroup g.uid (takeResv p.lane (resvOf g .mem p.addr p.size)) (flitFrom p.addr s)).grp = takeResv p.lane held s.grp := by
    unfold updGroup
    rw [if_pos (by rw [issuer, own])]
    exact congrArg (takeResv p.lane held) issuer
  refine ⟨fun armed => ?_, fun other => ?_⟩
  · change sfind p.lane (updGroup _ _ _).grp.resv = _
    rw [loaded, sfind_takeResv, if_pos ⟨armed, rfl⟩]
  · change (updGroup _ _ _).grp = _
    rw [loaded]
    exact if_neg other

/-- Settles O23: an exclusive word runs its lanes one after another, each of which leaves the issuer and the homes beside its own bytes; where nothing
is pending, an `LDX` reads its place and takes the reservation that it was to have, and an `STX` stores exactly when its own is intact. -/
theorem exclusiveWordsComplete : Obligations.ExclusiveWordsComplete := ⟨exclusiveWords, exclusiveLane, exclusivePerformed⟩

end Sys2Proof.Machine

/-! ### Prefetch and eviction (R211, R227) -/

namespace Sys2Proof.Machine

section

variable {D : Nat → Prop} {s : State} {lvl unit line core z scope evc a p : Nat}

theorem prefLine_kept (core z scope evc a : Nat) (h : Within D s) : Kept storeFrame D s (prefLine core z scope evc a s) := by
  unfold prefLine
  split
  · exact .refl h
  · split
    · exact readMem_kept _ _ _ _ _ h
    · split
      · exact .refl h
      · exact (((writeBackAt_kept _ _ h).then (flitFrom_kept a)).then (grantLease_kept (lineOf a))).then (fillLine_kept _ _ _ _ _ _)

theorem dropLine_kept (lvl unit line : Nat) (h : Within D s) : Kept storeFrame D s (dropLine lvl unit line s) :=
  .ofCaches rfl rfl (fun c hc => h.dirty c (List.mem_filter.1 hc).1) (fun _ => rfl) h

theorem evictLine_kept (core z p : Nat) (h : Within D s) : Kept storeFrame D s (evictLine core z p s) := by
  have first := (writeBackAt_kept core (lineOf p) h).then (dropLine_kept 1 core (lineOf p))
  unfold evictLine
  dsimp only
  split
  · exact first
  · exact first.then (dropLine_kept 2 (dieOfCore core) (lineOf p))

/-- A cache holds a copy of a line. -/
def Copied (lvl unit line : Nat) (s : State) : Prop := ∃ c bs, findLine lvl unit line s = some c ∧ c.copy = some bs

theorem fillLine_copied (expiry evc : Nat) (bytes : List Byte) (s : State) : Copied lvl unit line (fillLine lvl unit line expiry evc bytes s) := by
  refine ⟨_, bytes, findLine_putLine ?key s, rfl⟩
  exact lineEntry_key lvl unit line s

/-- A line in the keep state, where it lies on the way of a core. -/
def keptLine (core line : Nat) (c : CLine) : CLine := if c.onWay core line then { c with keep := true } else c

theorem keptLine_key (core line : Nat) (c : CLine) : (keptLine core line c).lvl = c.lvl ∧ (keptLine core line c).unit = c.unit
    ∧ (keptLine core line c).line = c.line ∧ (keptLine core line c).copy = c.copy := by
  unfold keptLine
  split <;> exact ⟨rfl, rfl, rfl, rfl⟩

/-- A policy changes no copy. -/
theorem keepLine_copied (core l evc : Nat) (h : Copied lvl unit line s) : Copied lvl unit line (keepLine core l evc s) := by
  obtain ⟨c, bs, found, copy⟩ := h
  unfold keepLine
  split
  · have same : ((fun d : CLine => decide (d.lvl = lvl) && decide (d.unit = unit) && decide (d.line = line)) ∘ keptLine core l)
        = fun d => decide (d.lvl = lvl) && decide (d.unit = unit) && decide (d.line = line) := by
      funext d
      obtain ⟨hl, hu, hn, -⟩ := keptLine_key core l d
      rw [Function.comp_apply, hl, hu, hn]
    obtain ⟨-, -, -, copies⟩ := keptLine_key core l c
    refine ⟨keptLine core l c, bs, ?_, copies.trans copy⟩
    change (s.caches.map (keptLine core l)).find? _ = _
    rw [List.find?_map, same, show List.find? _ s.caches = some c from found]
    rfl
  · exact ⟨c, bs, found, copy⟩

theorem readHome_copied (core evc a n : Nat) (s : State) : Copied 1 core (lineOf a) (readHome core true evc a n s).2 := by
  unfold readHome
  dsimp only
  rw [if_pos rfl]
  exact fillLine_copied _ _ _ _

theorem holds_findLine (c : CLine) (s : State) : findLine lvl unit line (holds c s).2 = findLine lvl unit line s := by
  unfold holds
  split <;> rfl

theorem readL2_copied (core evc a n : Nat) (s : State) : Copied 1 core (lineOf a) (readL2 core evc a n s).2 := by
  unfold readL2
  dsimp only
  split
  · exact readHome_copied ..
  · split
    · split
      · exact fillLine_copied _ _ _ _
      · exact readHome_copied ..
    · exact readHome_copied ..

/-- A device-scope load that may be cached leaves a copy of its line in the L1. -/
theorem readCopy_copied (core n : Nat) (cached : evc ≠ 3) (s : State) : Copied 1 core (lineOf a) (readCopy core 2 evc a n s).2 := by
  have device : ¬(2 : Nat) ≤ 1 := by decide
  unfold readCopy
  rw [if_neg (by omega)]
  split
  · rw [if_neg device]
    exact readL2_copied ..
  · rename_i c found
    rw [if_neg (by simp)]
    dsimp only
    split
    · rename_i bytes copy
      split
      · exact ⟨c, bytes, (holds_findLine c s).trans found, copy⟩
      · exact readL2_copied ..
    · rw [if_neg device]
      exact readL2_copied ..

theorem prefLine_copied (fits : scope ≤ 2) (cached : evc ≠ 3) : Copied 1 core (p / 128) (prefLine core 0 scope evc p s) := by
  unfold prefLine
  rw [if_neg (by omega), if_pos rfl]
  exact keepLine_copied _ _ _ (readCopy_copied core 1 cached s)

theorem prefLine_copiedL2 (fits : scope ≤ 2) (cached : evc ≠ 3) (far : homedNear s (dieOfCore core) (p / 128) = false) :
    Copied 2 (core / 48) (p / 128) (prefLine core 1 scope evc p s) := by
  unfold prefLine
  rw [if_neg (by omega), if_neg (by decide), if_neg (by rw [lineOf, far]; exact Bool.false_ne_true)]
  exact fillLine_copied _ _ _ _

theorem prefLine_l3 : prefLine core 2 scope evc p s = s := if_pos (.inr (.inr le_rfl))

theorem findLine_dropLine (lvl unit line : Nat) (s : State) : findLine lvl unit line (dropLine lvl unit line s) = none :=
  List.find?_eq_none.2 fun c hc hit => by
    obtain ⟨-, other⟩ := List.mem_filter.1 hc
    rw [hit] at other
    exact nomatch other

/-- A line that a cache does not hold is in it no more after another has been dropped. -/
theorem findLine_dropLine_none {lvl' unit' line' : Nat} (h : findLine lvl unit line s = none) :
    findLine lvl unit line (dropLine lvl' unit' line' s) = none :=
  List.find?_eq_none.2 fun c hc => List.find?_eq_none.1 h c (List.mem_filter.1 hc).1

theorem evictLine_gone (core z p : Nat) (s : State) : findLine 1 core (p / 128) (evictLine core z p s) = none
    ∧ (z ≠ 0 → findLine 2 (core / 48) (p / 128) (evictLine core z p s) = none) := by
  unfold evictLine
  dsimp only
  by_cases first : z = 0
  · rw [if_pos first]
    exact ⟨findLine_dropLine .., fun other => absurd first other⟩
  · rw [if_neg first]
    exact ⟨findLine_dropLine_none (findLine_dropLine ..), fun _ => findLine_dropLine ..⟩

end

end Sys2Proof.Machine

/-! ### Words that read for their whole path, and records (R205, R228) -/

namespace Sys2Proof.Machine

section

variable {D : Nat → Prop} {s t : State} {n b : BitVec 5} {x : BitVec 8} {run : List (Access × Nat)} {l : Nat}

theorem noteReads_ops (uid lane : Nat) (as : List Nat) (h : Within D s) : Kept opsFrame D s (noteReads uid lane as s) :=
  ⟨rfl, ⟨h.stores, h.dirty, h.loads⟩, fun _ hp => hp, fun _ _ => rfl⟩

theorem pathReads_accessed (pl : Place) (p : Nat) (h : Within D s) : Accessed D s (pathReads pl p s) :=
  .foldl (fun _ _ _ ht => .ofOps (noteReads_ops _ _ _ ht)) h

/-- What `BLOAD` needs. -/
def bloadNeed (s : State) (x : BitVec 8) : Need := { memNeed s none x.toNat false with hints := { imm := true, evc := true } }

theorem bloadNeed_eq (s : State) (x : BitVec 8) :
    ({ memNeed s none x.toNat false with hints := { imm := true, evc := true }, operandBad := !plainV s 1 x.toNat } : Need) = bloadNeed s x := by
  simp [bloadNeed, memNeed]

/-- The record that `BLOAD` reads, with the state after the read. -/
def bloadRead (s : State) (b : BitVec 5) (run : List (Access × Nat)) : List Byte × State := match run with
  | (c, p) :: _ => laneLoad (placeOf s.grp b.toNat) (scopeOf s b.toNat) (evcOf s) c.lane p 16
      (pathReads (placeOf s.grp b.toNat) p (sampled (placeOf s.grp b.toNat) run s))
  | [] => (List.replicate 16 0, s)

theorem bloadRead_accessed (s : State) (b : BitVec 5) (run : List (Access × Nat)) :
    Accessed (fun a => inFlight s a = true) s (bloadRead s b run).2 := by
  cases run with
  | nil => exact .refl (within_inFlight s)
  | cons q run =>
    have start := sampled_accessed (placeOf s.grp b.toNat) (q :: run) (within_inFlight s)
    have noted := start.trans (pathReads_accessed (placeOf s.grp b.toNat) q.2 start.flight)
    exact noted.trans (loadAt_accessed noted.flight)

theorem exec_bload (bt : BitVec 1) (n b : BitVec 5) (x : BitVec 8) (s : State) : exec (.bload bt n b x) s = execBload n b x s := rfl

/-- A record that no program writes. -/
theorem execBload_fixed (hr : ready (bloadNeed s x) s) (hl : lowLane (active s) = some l) (fixed : 30 ≤ n.toNat) :
    execBload n b x s = .next (takeTrap { cause := 0x02, mask := active s } s) := by
  unfold execBload
  rw [bloadNeed_eq, word_run _ hr, hl]
  exact congrArg Host.Outcome.next (if_pos (decide_eq_true fixed))

theorem execBload_reads (hr : ready (bloadNeed s x) s) (hl : lowLane (active s) = some l) (free : n.toNat < 30)
    (go : memCheck s (wordAccess s b x 16 0 false none [0]) [l] = .go run []) (waits : pathWaits s (placeOf s.grp b.toNat) run = 0)
    (meets : pathMeets s 16 run = false) : execBload n b x s = .next
      (if (recOfBits (BitVec.ofNat 128 (ofBytes (bloadRead s b run).1))).invalid then takeTrap { cause := 0x02, mask := active s } s
       else finish ((bloadRead s b run).2.setG (setB n.toNat (BitVec.ofNat 128 (ofBytes (bloadRead s b run).1))))) := by
  have fixed : fixedRecord n = false := decide_eq_false (by omega)
  unfold wordAccess at go
  unfold execBload
  rw [bloadNeed_eq, word_run _ hr, hl]
  dsimp only
  rw [fixed, if_neg Bool.false_ne_true, go]
  dsimp only
  rw [waits, if_neg (by simp), meets, if_neg Bool.false_ne_true]
  cases run <;> rfl

/-- The record in four S registers, the first lowest. -/
theorem recordOfS_eq (s : State) (k : Nat) :
    recordOfS s k = getS s.grp (k + 3) ++ getS s.grp (k + 2) ++ getS s.grp (k + 1) ++ getS s.grp k := by
  have h0 := (getS s.grp k).isLt
  have h1 := (getS s.grp (k + 1)).isLt
  have h2 := (getS s.grp (k + 2)).isLt
  have h3 := (getS s.grp (k + 3)).isLt
  refine BitVec.eq_of_toNat_eq ?_
  rw [BitVec.toNat_append, BitVec.toNat_append, BitVec.toNat_append, ← Nat.shiftLeft_add_eq_or_of_lt h0, ← Nat.shiftLeft_add_eq_or_of_lt h1,
    ← Nat.shiftLeft_add_eq_or_of_lt h2]
  simp only [recordOfS, BitVec.toNat_ofNat, Nat.shiftLeft_eq]
  omega

/-- What `BSET` needs. -/
def bsetNeed (k : Nat) : Need := { regs := (((List.range 4).map fun i => k + i).filter fun r => decide (r < 64)).map Reg.s }

/-- What `BSET` does not take: a record that no program writes, registers past the last, an invalid record. -/
def BsetBad (s : State) (n : BitVec 5) (a : BitVec 6) : Prop :=
  30 ≤ n.toNat ∨ 60 < a.toNat ∨ (recOfBits (recordOfS s a.toNat)).invalid = true

theorem bsetBad_iff (s : State) (n : BitVec 5) (a : BitVec 6) :
    (fixedRecord n || decide (a.toNat > 60) || (recOfBits (recordOfS s a.toNat)).invalid) = true ↔ BsetBad s n a := by
  simp only [BsetBad, fixedRecord, Bool.or_eq_true, decide_eq_true_eq, ge_iff_le, gt_iff_lt, or_assoc]

theorem exec_bset (bt : BitVec 1) (n : BitVec 5) (a : BitVec 6) (s : State) : exec (.bset bt n a) s = .next (word (bsetNeed a.toNat)
    (fun s => if fixedRecord n || decide (a.toNat > 60) || (recOfBits (recordOfS s a.toNat)).invalid then trapOwn cIllegalOperand s
      else finish (s.setG (setB n.toNat (recordOfS s a.toNat)))) s) := rfl

theorem bset_sets (bt : BitVec 1) {n : BitVec 5} {a : BitVec 6} (good : ¬BsetBad s n a) :
    Does (.bset bt n a) (bsetNeed a.toNat) s (s.setG (setB n.toNat (recordOfS s a.toNat))) :=
  .of_word _ (exec_bset bt n a s) (fun _ => if_neg (mt (bsetBad_iff s n a).1 good)) rfl rfl rfl

theorem bset_traps (bt : BitVec 1) {n : BitVec 5} {a : BitVec 6} (bad : BsetBad s n a) (hr : ready (bsetNeed a.toNat) s) :
    exec (.bset bt n a) s = .next (takeTrap { cause := 0x02, mask := active s } s) := by
  rw [exec_bset, word_run _ hr, if_pos ((bsetBad_iff s n a).2 bad)]
  rfl

variable {z : BitVec 2}

/-- The state after the effect of `PREF`. -/
def prefEffect (s : State) (n : BitVec 5) (z : BitVec 2) (run : List (Access × Nat)) : State :=
  if placeOf s.grp n.toNat = .mem then (run.filter fun p => (specTask s s.grp.uid p.1.lane).isNone).foldl (fun t p =>
    prefLine s.grp.core z.toNat (scopeOf s n.toNat) (evcOf s) p.2 t) (sampled (placeOf s.grp n.toNat) run s)
  else sampled (placeOf s.grp n.toNat) run s

theorem prefEffect_accessed (s : State) (n : BitVec 5) (z : BitVec 2) (run : List (Access × Nat)) :
    Accessed (fun a => inFlight s a = true) s (prefEffect s n z run) := by
  have start := sampled_accessed (placeOf s.grp n.toNat) run (within_inFlight s)
  unfold prefEffect
  split
  · exact start.trans (.foldl (fun t p _ ht => .ofOps (prefLine_kept _ _ _ _ _ ht).ofStores) start.flight)
  · exact start

theorem exec_pref (bt : BitVec 1) (n : BitVec 5) (x : BitVec 8) (z : BitVec 2) (s : State) : exec (.pref bt n x z) s = execPref n x z s := rfl
theorem exec_evict (bt : BitVec 1) (n : BitVec 5) (x : BitVec 8) (z : BitVec 2) (s : State) : exec (.evict bt n x z) s = execEvict n x z s := rfl

theorem execPref_proceeds (hr : ready (memNeed s none x.toNat false) s)
    (hp : proceeds s { wordAccess s n x 1 3 false none [] with skip := true } run) : execPref n x z s = .next (finish (prefEffect s n z run)) := by
  unfold execPref
  rw [word_run _ hr]
  refine congrArg Host.Outcome.next ((memWord_of_proceeds hp _).trans ?_)
  unfold prefEffect
  by_cases mem : placeOf s.grp n.toNat = .mem
  · rw [if_pos mem, if_neg (not_not_intro mem)]
    rfl
  · rw [if_neg mem, if_pos mem]
    rfl

/-- The state after the effect of `EVICT`. -/
def evictEffect (s : State) (n : BitVec 5) (z : BitVec 2) (run : List (Access × Nat)) : State :=
  if placeOf s.grp n.toNat = .scratch then sampled (placeOf s.grp n.toNat) run s
  else run.foldl (fun t p => evictLine s.grp.core z.toNat p.2 t) (sampled (placeOf s.grp n.toNat) run s)

theorem evictEffect_accessed (s : State) (n : BitVec 5) (z : BitVec 2) (run : List (Access × Nat)) :
    Accessed (fun a => inFlight s a = true) s (evictEffect s n z run) := by
  have start := sampled_accessed (placeOf s.grp n.toNat) run (within_inFlight s)
  unfold evictEffect
  split
  · exact start
  · exact start.trans (.foldl (fun t p _ ht => .ofOps (evictLine_kept _ _ _ ht).ofStores) start.flight)

theorem execEvict_proceeds (hr : ready (memNeed s none x.toNat false) s) (hp : proceeds s (wordAccess s n x 1 0 false none []) run) :
    execEvict n x z s = .next (finish (evictEffect s n z run)) := by
  obtain ⟨e, act⟩ := act_of_ready hr
  unfold execEvict
  rw [word_run _ hr]
  refine congrArg Host.Outcome.next ((memWord_of_proceeds hp _).trans ?_)
  exact afterPark_of_act ((evictEffect_accessed s n z run).issuer.act.trans act)

/-- A word that completes with some of the issuer's accesses made. -/
theorem Accessed.completes {i : Instr} {u : State} (h : Accessed D s u) (he : exec i s = .next (finish u)) :
    ∃ t, exec i s = .next (thenStep s t) ∧ Completed u t := completes_of_finish he h.issuer.quiet h.issuer.curPc h.issuer.active

/-- What the accesses to bytes in flight leave. -/
theorem Accessed.still (h : Accessed (fun a => inFlight s a = true) s t) :
    sameIssuer s.grp t.grp ∧ ∀ a, inFlight s a = false → homeByte t a = homeByte s a :=
  ⟨h.issuer, fun a free => h.home a (Bool.eq_false_iff.1 free)⟩

end

theorem recordWords_complete : Sys2Proof.Claims.recordWords := by
  intro s bt n b x a z run l k pl still s'
  refine ⟨fun hr go tasks meets => ?_, fun scope evc p fits cached => ?_, fun hr hp => ?_, fun p => ?_, fun hr hl => ?_, ?_⟩
  · have ends := prefEffect_accessed s n z run
    exact ⟨ends.completes ((exec_pref bt n x z s).trans (execPref_proceeds hr ⟨go, tasks, meets⟩)), ends.still⟩
  · exact ⟨prefLine_copied fits cached, prefLine_copiedL2 fits cached, prefLine_l3⟩
  · have ends := evictEffect_accessed s n z run
    exact ⟨ends.completes ((exec_evict bt n x z s).trans (execEvict_proceeds hr hp)), ends.still⟩
  · obtain ⟨l1, l2⟩ := evictLine_gone s.grp.core z.toNat p s
    exact ⟨l1, fun other => l2 fun zero => other (BitVec.eq_of_toNat_eq zero)⟩
  · refine ⟨fun fixed => (exec_bload bt n b x s).trans (execBload_fixed hr hl fixed), fun free go waits meets => ?_⟩
    have reads := (exec_bload bt n b x s).trans (execBload_reads hr hl free go waits meets)
    have ends := bloadRead_accessed s b run
    intro r v
    have read : r = bloadRead s b run := rfl
    have value : v = BitVec.ofNat 128 (ofBytes (bloadRead s b run).1) := rfl
    rw [read, value]
    clear_value r v
    refine ⟨fun bad => reads.trans (by rw [if_pos bad]), fun good => ?_, ends.still⟩
    refine completes_of_finish (reads.trans (by rw [good, if_neg Bool.false_ne_true])) ?_ ?_ ?_
    · exact ends.issuer.quiet
    · exact ends.issuer.curPc
    · exact ends.issuer.active
  · rw [← recordOfS_eq s k]
    exact ⟨bset_sets bt, bset_traps bt⟩

end Sys2Proof.Machine

/-! ### Constant loads (R282, R283) -/

namespace Sys2Proof.Machine

/-- R46: an `XIMM` payload stands above the bits of the field. -/
theorem payload_above {w k : Nat} (h : BitVec w) (x : BitVec k) :
    h.signExtend 32 <<< k ||| x.zeroExtend 32 = BitVec.ofInt 32 (h.toInt * (2 ^ k : Nat) + x.toNat) := by
  have apart : h.signExtend 32 <<< k &&& x.zeroExtend 32 = 0#32 := by
    refine BitVec.eq_of_getLsbD_eq fun i hi => ?_
    rw [BitVec.getLsbD_and, BitVec.getLsbD_shiftLeft, BitVec.getLsbD_setWidth]
    rcases Nat.lt_or_ge i k with low | high
    · simp [low]
    · simp [BitVec.getLsbD_of_ge x i high]
  have power : BitVec.twoPow 32 k = BitVec.ofInt 32 (2 ^ k : Nat) := by
    refine BitVec.eq_of_toNat_eq ?_
    rw [BitVec.toNat_twoPow, BitVec.ofInt_natCast, BitVec.toNat_ofNat]
  have upper : h.signExtend 32 <<< k = BitVec.ofInt 32 (h.toInt * (2 ^ k : Nat)) := by
    rw [BitVec.ofInt_mul, BitVec.shiftLeft_eq_mul_twoPow, power]
    rfl
  rw [← BitVec.add_eq_or_of_and_eq_zero _ _ apart, upper, BitVec.ofInt_add, BitVec.ofInt_natCast, BitVec.ofNat_toNat]

section

variable {D : Nat → Prop} {s t : State} {a d : BitVec 6} {n i : BitVec 5} {p : Nat} {c : Access}

/-! What the accesses of a word leave of what it still reads. -/

theorem bufOf_scope (s : State) (n l : Nat) : (bufOf s n l).scope = if placeOf s.grp n = .mem then (recOfBits (getB s.grp n)).scope else 0 := by
  unfold bufOf
  cases placeOf s.grp n <;> rfl

theorem sameIssuer.scopeOf (h : sameIssuer s.grp t.grp) (n : Nat) : scopeOf t n = Machine.scopeOf s n := by
  obtain ⟨same, -, -⟩ := h
  unfold Machine.scopeOf curHints curPos
  rw [bufOf_scope, bufOf_scope, same]
  rfl

theorem sameIssuer.evcOf (h : sameIssuer s.grp t.grp) : evcOf t = Machine.evcOf s := by
  unfold Machine.evcOf curHints curPos
  rw [h.act]

/-- The tasks of a frame tell whether a lane has a speculative one. -/
theorem specTask_frame (s : State) (uid lane : Nat) : (specTask s uid lane).isNone
    = !((loadFrame s).tasks.any fun t => decide (t.grp = uid) && decide (t.lane = lane) && t.spec) := by
  have bare : ∀ t : Task, (bareTask t).grp = t.grp ∧ (bareTask t).lane = t.lane ∧ (bareTask t).spec = t.spec := fun t => by
    unfold bareTask
    split <;> exact ⟨rfl, rfl, rfl⟩
  have same : ((fun t : Task => decide (t.grp = uid) && decide (t.lane = lane) && t.spec)
      ∘ (fun t : Task => { t with wset := [], rset := [] }) ∘ bareTask) = fun t => decide (t.grp = uid) && decide (t.lane = lane) && t.spec := by
    funext t
    obtain ⟨grp, place, spec⟩ := bare t
    simp only [Function.comp_apply, grp, place, spec]
  change _ = !(((s.tasks.map bareTask).map fun t : Task => { t with wset := [], rset := [] }).any _)
  rw [List.map_map, List.any_map, same]
  unfold specTask
  rw [Bool.eq_iff_iff, Option.isNone_iff_eq_none, List.find?_eq_none, Bool.not_eq_true', List.any_eq_false]

theorem defers_of_loadFrame (h : loadFrame t = loadFrame s) (l : Nat) : defers t l = defers s l := by
  have issuer : looseGroup t.grp = looseGroup s.grp := congrArg State.grp h
  have ctxs : t.ctxs = s.ctxs := (congrArg State.ctxs h :)
  have kind : t.grp.kind = s.grp.kind := (congrArg Group.kind issuer :)
  have ctx : t.grp.ctx = s.grp.ctx := (congrArg Group.ctx issuer :)
  unfold defers ctxOf findCtx
  rw [specTask_frame, specTask_frame, h, ctxs, kind, ctx, uid_of_loadFrame h]

theorem defers_sampled (pl : Place) (run : List (Access × Nat)) (s : State) (l : Nat) : defers (sampled pl run s) l = defers s l := by
  obtain ⟨cs, eq, -⟩ := sampled_ctxs pl run s
  have tasks : (sampled pl run s).tasks = s.tasks := by rw [eq]
  unfold defers ctxOf specTask
  rw [sampled_keepsDet, sampled_grp, tasks]

/-! The path of an `SLDC`. -/

theorem noteReads_kept (uid lane : Nat) (as : List Nat) (h : Within D s) : Kept loadFrame D s (noteReads uid lane as s) :=
  ⟨loadFrame_updTask _ _ _ _ fun _ => rfl, ⟨h.stores, h.dirty, h.loads⟩, fun _ hp => hp, fun _ _ => rfl⟩

theorem pathReads_kept (pl : Place) (p : Nat) (h : Within D s) : Kept loadFrame D s (pathReads pl p s) :=
  .foldl (fun _ _ _ => noteReads_kept _ _ _) h

/-- The stores of the lanes of an issuer to a line are performed. -/
def pathDrains (g : Group) (pl : Place) (p : Nat) (ls : List Nat) (s : State) : State :=
  ls.foldl (fun t k => drainOwn g.uid k (lineOf (taskKey g pl p)) t) s

theorem pathDrains_kept (g : Group) (pl : Place) (p : Nat) (ls : List Nat) (h : Within D s) : Kept storeFrame D s (pathDrains g pl p ls s) :=
  .foldl (fun _ _ _ => drainOwn_kept _ _ _) h

theorem taskKey_congr {g h : Group} (wg : g.wg = h.wg) (pl : Place) (p : Nat) : taskKey g pl p = taskKey h pl p := by
  unfold taskKey
  rw [wg]

theorem issuer_of_storeFrame (h : storeFrame t = storeFrame s) : t.grp.uid = s.grp.uid ∧ t.grp.wg = s.grp.wg :=
  ⟨(congrArg (fun u : State => u.grp.uid) h :), (congrArg (fun u : State => u.grp.wg) h :)⟩

/-- Two ways to go through a list, where they take the same step from every state on the way. -/
theorem foldl_eq_of_invariant {α β : Type} {P : β → Prop} {f g : β → α → β} (step : ∀ x, P x → ∀ k, f x k = g x k) (keeps : ∀ x, P x → ∀ k, P (g x k))
    (ls : List α) {x : β} (h : P x) : ls.foldl f x = ls.foldl g x := by
  induction ls generalizing x with
  | nil => rfl
  | cons k ls ih => rw [List.foldl_cons, List.foldl_cons, step x h, ih (keeps x h k)]

/-- The issuer whose stores are performed is the one that began. -/
theorem pathDrains_eq {g : Group} (pl : Place) (p : Nat) (ls : List Nat) (uid : s.grp.uid = g.uid) (wg : s.grp.wg = g.wg) (h : Within D s) :
    ls.foldl (fun t k => drainOwn t.grp.uid k (lineOf (taskKey t.grp pl p)) t) s = pathDrains g pl p ls s := by
  refine foldl_eq_of_invariant (P := fun t => t.grp.uid = g.uid ∧ t.grp.wg = g.wg ∧ Within D t) (fun t ⟨uid, wg, _⟩ k => ?_)
    (fun t ⟨uid, wg, flight⟩ k => ?_) ls ⟨uid, wg, h⟩
  · rw [uid, taskKey_congr wg]
  · have one := drainOwn_kept g.uid k (lineOf (taskKey g pl p)) flight
    obtain ⟨sameUid, sameWg⟩ := issuer_of_storeFrame one.frame
    exact ⟨sameUid.trans uid, sameWg.trans wg, one.flight⟩

/-- The state in which an `SLDC` reads or puts its load in flight. -/
def sldcPath (s : State) (n : BitVec 5) (c : Access) (p : Nat) : State :=
  pathDrains s.grp (placeOf s.grp n.toNat) p (lanes (active s)) (pathReads (placeOf s.grp n.toNat) p (sampled (placeOf s.grp n.toNat) [(c, p)] s))

theorem sldcPath_kept (h : Within D s) : Kept loadFrame D (sampled (placeOf s.grp n.toNat) [(c, p)] s) (sldcPath s n c p) :=
  (pathReads_kept _ p (sampled_accessed _ _ h).flight).then fun h => (pathDrains_kept _ _ p _ h).loosened

theorem sldcPath_accessed (h : Within D s) : Accessed D s (sldcPath s n c p) := by
  have start := sampled_accessed (placeOf s.grp n.toNat) [(c, p)] h
  have noted := start.trans (pathReads_accessed (placeOf s.grp n.toNat) p start.flight)
  exact noted.trans (.ofOps (pathDrains_kept _ _ p _ noted.flight).ofStores)

theorem defers_sldcPath (s : State) (l : Nat) : defers (sldcPath s n c p) l = defers s l :=
  (defers_of_loadFrame (sldcPath_kept (within_inFlight s)).frame l).trans (defers_sampled _ _ s l)

/-- The lane whose access an `SLDC` makes. -/
def sldcLane (s : State) : Nat := (lowLane (active s)).getD 0

/-- The access of an `SLDC`. -/
def sldcOp (s : State) (a : BitVec 6) (n i : BitVec 5) : MemOp :=
  { buf := n.toNat, idx := fun _ => getS s.grp a.toNat, imm := indexBytes (bufOf s n.toNat (sldcLane s)) (sldcImm (curHints s) i), size := 4, kind := 0
    watch := [0] }

theorem sldcImm_eq (h : Hints) (i : BitVec 5) : sldcImm h i = match h.imm with
    | some v => (BitVec.ofInt 32 (v.toInt * 32 + i.toNat)).toInt
    | none => i.toNat := by
  unfold sldcImm effImm
  cases h.imm with
  | some v => exact congrArg BitVec.toInt (payload_above v i)
  | none => rfl

theorem indexBytes_eq (r : BufRec) (k : Int) : indexBytes r k = if r.stride = 0 then k else k * r.stride := by
  rw [indexBytes, ite_not]

/-- The load that an `SLDC` puts in flight. -/
def sldcKept (s : State) (d : BitVec 6) (n : BitVec 5) (p : Nat) : PLoad :=
  { place := placeOf s.grp n.toNat, lane := sldcLane s, addr := p, size := 4, scope := scopeOf s n.toNat, evc := evcOf s, reg := .s d.toNat }

/-- What an `SLDC` reads, with the state after the read. -/
def sldcRead (s : State) (n : BitVec 5) (c : Access) (p : Nat) : List Byte × State :=
  laneLoad (placeOf s.grp n.toNat) (scopeOf s n.toNat) (evcOf s) (sldcLane s) p 4 (sldcPath s n c p)

theorem sldcRead_accessed (s : State) : Accessed (fun b => inFlight s b = true) s (sldcRead s n c p).2 := by
  have path : Accessed _ s (sldcPath s n c p) := sldcPath_accessed (within_inFlight s)
  exact path.trans (loadAt_accessed path.flight)

theorem execSldc_reads (hr : ready (sldcNeed s d a n) s) (go : memCheck s (sldcOp s a n i) [sldcLane s] = .go [(c, p)] [])
    (waits : pathWaits s (placeOf s.grp n.toNat) [(c, p)] = 0) (meets : pathMeets s 4 [(c, p)] = false) :
    execSldc d a n i s = .next (finish (if defers s (sldcLane s) then raiseOp [.s d.toNat] [] [] [sldcKept s d n p] (sldcPath s n c p)
      else raiseOp [.s d.toNat] [{ reg := .s d.toNat, lane := 0, val := wordOf (sldcRead s n c p).1 }] [] [] (sldcRead s n c p).2)) := by
  have noted : Accessed (fun b => inFlight s b = true) s (pathReads (placeOf s.grp n.toNat) p (sampled (placeOf s.grp n.toNat) [(c, p)] s)) := by
    have start := sampled_accessed (placeOf s.grp n.toNat) [(c, p)] (within_inFlight s)
    exact start.trans (pathReads_accessed (placeOf s.grp n.toNat) p start.flight)
  have issuer := noted.issuer
  have path : (lanes (active (pathReads (placeOf s.grp n.toNat) p (sampled (placeOf s.grp n.toNat) [(c, p)] s)))).foldl
      (fun t k => drainOwn t.grp.uid k (lineOf (taskKey t.grp (placeOf s.grp n.toNat) p)) t)
      (pathReads (placeOf s.grp n.toNat) p (sampled (placeOf s.grp n.toNat) [(c, p)] s)) = sldcPath s n c p := by
    have mask := issuer.active
    obtain ⟨same, -, -⟩ := issuer
    rw [mask, pathDrains_eq (g := s.grp) _ p _ (by rw [same]) (by rw [same]) noted.flight]
    rfl
  have ends : sameIssuer s.grp (sldcPath s n c p).grp := (sldcPath_accessed (within_inFlight s)).issuer
  unfold execSldc
  rw [word_run _ hr]
  have lane : (lowLane (active s)).getD 0 = sldcLane s := rfl
  unfold sldcOp at go
  dsimp only
  rw [lane, go]
  dsimp only
  rw [waits, if_neg (by simp), meets, if_neg Bool.false_ne_true, path, defers_sldcPath, ends.scopeOf, ends.evcOf]
  split <;> rfl

/-- An `SLDC` out of bounds reads a zero. -/
theorem execSldc_outside (hr : ready (sldcNeed s d a n) s) (go : memCheck s (sldcOp s a n i) [sldcLane s] = .go [] []) :
    execSldc d a n i s = .next (finish (raiseOp [.s d.toNat] [{ reg := .s d.toNat, lane := 0, val := 0 }] [] [] s)) := by
  unfold execSldc
  rw [word_run _ hr]
  unfold sldcOp sldcLane at go
  dsimp only
  rw [go]

/-- A word that puts its result in flight after accesses of its issuer. -/
theorem Accessed.completes_raised {e : Instr} {u : State} (h : Accessed D s u) (regs : List Reg) (ws : List RegWrite) (ls : List PLoad)
    (he : exec e s = .next (finish (raiseOp regs ws [] ls u))) : ∃ t, exec e s = .next (thenStep s t) ∧ Completed (raiseOp regs ws [] ls u) t :=
  completes_of_finish he ((raiseOp_quiet ..).trans h.issuer.quiet) ((raiseOp_curPc ..).trans h.issuer.curPc) ((raiseOp_active ..).trans h.issuer.active)

/-! `SLDLIT`. -/

/-- The place in the code that `SLDLIT` reads. -/
def sldlitTarget (s : State) (j : BitVec 16) : Int := (topcOf s.grp (curPc s) : Int) + 4 * (effImm (curHints s) 16 true j).toInt

theorem effImm_sldlit (h : Hints) (j : BitVec 16) : (effImm h 16 true j).toInt = match h.imm with
    | some v => (BitVec.ofInt 32 (v.toInt * 65536 + j.toNat)).toInt
    | none => j.toInt := by
  unfold effImm
  cases h.imm with
  | some v => exact congrArg BitVec.toInt (payload_above v j)
  | none => exact BitVec.toInt_signExtend_of_le (by decide)

variable {j : BitVec 16}

theorem execSldlit_reads {w : Word} (hr : ready (scalarNeed [d.toNat] true) s) (inside : 0 ≤ sldlitTarget s j)
    (read : readOriginal s s.grp (sldlitTarget s j).toNat = .word w) : execSldlit d j s = .next (finish (s.setG (setS d.toNat w))) := by
  unfold execSldlit
  rw [word_run _ hr]
  unfold sldlitTarget at inside read
  dsimp only
  rw [if_neg (by omega), read]

theorem execSldlit_traps (hr : ready (scalarNeed [d.toNat] true) s)
    (outside : sldlitTarget s j < 0 ∨ readOriginal s s.grp (sldlitTarget s j).toNat = .beyond) :
    execSldlit d j s = .next (takeTrap { cause := 0x0A, mask := active s, addr := (BitVec.ofInt 64 (sldlitTarget s j)).toNat } s) := by
  unfold execSldlit
  rw [word_run _ hr]
  unfold sldlitTarget at outside ⊢
  dsimp only
  split_ifs with low
  · rfl
  · rw [outside.resolve_left low]
    rfl

theorem exec_sldc (bt : BitVec 1) (d a : BitVec 6) (n i : BitVec 5) (s : State) : exec (.sldc bt d a n i) s = execSldc d a n i s := rfl
theorem exec_sldlit (bt : BitVec 1) (d : BitVec 6) (j : BitVec 16) (s : State) : exec (.sldlit bt d j) s = execSldlit d j s := rfl

end

theorem constantLoads_complete : Sys2Proof.Claims.constantLoads := by
  intro s bt d a n i j c p w l rc index o pl field target kept
  have access : o = sldcOp s a n i := by
    have imm : (if rc.stride = 0 then index else index * rc.stride) = indexBytes (bufOf s n.toNat (sldcLane s)) (sldcImm (curHints s) i) := by
      have step : index = sldcImm (curHints s) i := (sldcImm_eq (curHints s) i).symm
      rw [step]
      exact (indexBytes_eq _ _).symm
    rw [sldcOp, ← imm]
  have place : target = sldlitTarget s j := congrArg (fun k : Int => (topcOf s.grp (curPc s) : Int) + 4 * k) (effImm_sldlit (curHints s) j).symm
  rw [access, place]
  refine ⟨fun hr go waits meets => ?_, fun hr go => ?_, fun hr inside read => ?_, fun hr outside => ?_⟩
  · have he := (exec_sldc bt d a n i s).trans (execSldc_reads hr go waits meets)
    have path : Accessed (fun b => inFlight s b = true) s (sldcPath s n c p) := sldcPath_accessed (within_inFlight s)
    have read := sldcRead_accessed (n := n) (c := c) (p := p) s
    refine ⟨fun later => ?_, fun now => ?_, read.still⟩
    · exact path.completes_raised _ _ _ (he.trans (by rw [if_pos (show defers s (sldcLane s) = true from later)]; rfl))
    · exact read.completes_raised _ _ _ (he.trans (by rw [show defers s (sldcLane s) = false from now, if_neg Bool.false_ne_true]; rfl))
  · exact (Accessed.refl (within_inFlight s)).completes_raised _ _ _ ((exec_sldc bt d a n i s).trans (execSldc_outside hr go))
  · exact completes_of_finish ((exec_sldlit bt d j s).trans (execSldlit_reads hr inside read)) rfl rfl rfl
  · exact (exec_sldlit bt d j s).trans (execSldlit_traps hr outside)

/-- Settles O25: each word makes its accesses, which leave the issuer and the homes beside what is in flight, and then writes what it read. -/
theorem recordCacheAndConstantWordsComplete : Obligations.RecordCacheAndConstantWordsComplete := ⟨recordWords_complete, constantLoads_complete⟩

end Sys2Proof.Machine
